-- ==== Sys2Proof/Word.lean ====
section
/-!
DEFINITION. The word types of Renoth and their plainest arithmetic (spec 00: units and encodings, R4, R6, R8), and
the one container the state is built from: a numbered array given by a common value and its exceptions.
-/

namespace Sys2Proof

/-- A byte of host memory or of a message. -/
abbrev Byte := BitVec 8

/-- A 32-bit register or ring word (R8, R467). -/
abbrev Word := BitVec 32

/-- The 64 regions (R17). -/
abbrev RegionId := Fin 64

/-- A cluster by its global number, 576 × region + local (spec 00, naming and numbering). -/
abbrev ClusterId := Fin 36864

/-- A core of a cluster. -/
abbrev CoreNo := Fin 32

/-- A ring: CMD0–7 are 0–7, CPL0–7 are 8–15, TEL is 16, EVX is 17 (R469). -/
abbrev RingId := Fin 18

/-- A source of the fault collector (R405). -/
abbrev SourceId := Fin 256

/-- A mailbox slot. -/
abbrev SlotId := Fin 32

/-- The two hubs (R17). -/
inductive Hub where
  | a | b
deriving DecidableEq, Repr

/-- The other hub. -/
def Hub.other : Hub → Hub
  | .a => .b
  | .b => .a

/-- Division rounded up. -/
def ceilDiv (n d : Nat) : Nat := (n + (d - 1)) / d

/-- Addition that saturates at `top`. -/
def satAdd (top x y : Nat) : Nat := min top (x + y)

/-- The value nearest to `x` in `lo .. hi`. -/
def clampTo (lo hi x : Nat) : Nat := min hi (max lo x)

/-- The bits `lo` to `lo + width - 1` of a number. -/
def bitsOf (w lo width : Nat) : Nat := (w >>> lo) % 2 ^ width

/-- One bit of a number. -/
def bitOf (w i : Nat) : Bool := (w >>> i) % 2 == 1

/-- A truth value as the bit a register shows. -/
def bitNat (b : Bool) : Nat := if b then 1 else 0

/-- An array of a fixed number of like things, as plain data: the value `dflt` everywhere but at the listed keys.
Canonical form: keys strictly rising and no listed value equal to `dflt` (`SMap.wf` in Machine/Ops.lean). -/
structure SMap (α : Type) where
  dflt  : α
  cells : List (Nat × α)
deriving DecidableEq, Repr

end Sys2Proof
end

