-- ==== Sys2Proof/Syntax.lean ====
section
/-!
DEFINITION. The commands Renoth takes, one constructor per row of spec/opcode_table.json, with the values each takes
from outside: what the host writes, what a host-memory read returned, what a sensor or wire shows, what a message
carries. What a row's step does inside Renoth is in Machine/.
-/

namespace Sys2Proof

/-- What a read of host memory returned: the bytes, or a failure (R308, detail 0xF4). -/
abbrev HostRead := Option (List Byte)

/-- A firmware processor (R354): hub core 0 security, 1 power-management, 2 scheduler; or a Chive control core. -/
inductive CoreId where
  | hub (h : Hub) (k : Fin 3)
  | chive (c : ClusterId)
deriving DecidableEq, Repr

/-- A register access by the host (R467): offset in the window, size in bytes, and the value of a write. -/
inductive Access where
  | write (offset size : Nat) (value : Word)
  | read  (offset size : Nat)
deriving DecidableEq, Repr

/-- A management message as its receiver gets it (R326): the header flit's fields, and the bytes of the payload flits as
they came. Whether it is good is judged from them (R328, `MsgHdr.good`). -/
structure MsgHdr where
  type    : Byte
  flags   : Byte
  src     : Nat
  dst     : Nat
  seq     : Nat
  epoch   : Word
  resv    : BitVec 16
  check   : BitVec 16
  payload : List Byte
deriving DecidableEq, Repr

/-- The status of a sensor reading (spec 03, readings that fail). -/
inductive Status where
  | valid | stale | suspect | failed
deriving DecidableEq, Repr

/-- Where a gate request comes from (R453). -/
inductive GateAsker where
  | host | firmware | hardware
deriving DecidableEq, Repr

/-- A path on which a heartbeat comes (R392). -/
inductive HbPath where
  | mirror | mgmt
deriving DecidableEq, Repr

/-- A heartbeat as a hub receives it (R387, R392). Over the mirror link it is a block: EPOCH, ROLE, YIELD, DROP, TX_SEQ and
ACK_SEQ, and the wrong symbols among its 272. On the management class it is the message `hdr`, whose payload carries EPOCH, ROLE
and FLAGS. -/
structure Beat where
  epoch : Word
  role  : Nat
  yield : Bool
  drop  : Bool
  seq   : Nat
  ack   : Nat
  wrong : Nat
  hdr   : MsgHdr
deriving DecidableEq, Repr

/-- A stall report: the cluster, and the message as its governor forwards it to the hub (R347, R348). -/
structure StallRep where
  cluster : ClusterId
  hdr     : MsgHdr
deriving DecidableEq, Repr

/-- The two ends of a path of the management class, as node numbers (R327). -/
structure Ends where
  src : Nat
  dst : Nat
deriving DecidableEq, Repr

/-- One operation in a core's dispatch queue as the feature tap shows it (R99, R100): format 0–7 in the order of
R108, tile class 0–2, structured-sparse flag. -/
structure QueueOp where
  fmt    : Fin 8
  tile   : Fin 3
  sparse : Bool
deriving DecidableEq, Repr

/-- What one core's queue shows at a latch: matrix work from the head, phase-marker positions, stall state. -/
structure CoreQueue where
  ops        : List QueueOp
  markerHead : Bool
  markerIn   : Bool
  stalled    : Bool
deriving DecidableEq, Repr

/-- What the encoder of one cluster latches, or the bits a corrupted lane delivered in place of a record (R101). -/
inductive FeatureTap where
  | queues (cores : List CoreQueue) (vecSteps : Nat)
  | lane (bits : BitVec 64)
deriving DecidableEq, Repr

/-- What a Chive's taps show over the tick just ended (R347, R60). -/
structure TickTap where
  arrived  : Bool
  issued   : Bool
  stalled  : Bool
deriving DecidableEq, Repr

/-- A 64-bit word with wrong bits in a memory (R422): its number in its block, the wrong bits among it and its 8 check bits,
the wrong ones of its four 16-bit symbols. -/
structure WordErr where
  word    : Fin 64
  bits    : Nat
  symbols : Nat
deriving DecidableEq, Repr

/-- The wrong bits of a 512-byte memory block with its codes (R422): its wrong words, and the wrong symbols among the 16
parity symbols. -/
structure BlockErr where
  words  : List WordErr
  parity : Nat
deriving DecidableEq, Repr

/-- The block that a memory controller's scrub reads at this boundary, and its wrong bits (R422, R423). -/
inductive Scrub where
  | hubCode (h : Hub) (core : Fin 3) (bank : Bool) (err : BlockErr) (otherCopyGood : Bool)
  | hubData (h : Hub) (core : Fin 3) (err : BlockErr)
  | chive (c : ClusterId) (err : BlockErr)
  | grantTable (err : BlockErr)
  | recorder (h : Hub) (block : Fin 512) (err : BlockErr)
  | sage (r : RegionId) (err : BlockErr)
  | governor (r : RegionId)
deriving DecidableEq, Repr

/-- What one read of a word meets (R423): the word's number in its block, the block's wrong bits, and whether the other
hub's copy is good. -/
structure ReadErr where
  word : Fin 64
  err  : BlockErr
  otherCopyGood : Bool
deriving DecidableEq, Repr

/-- What the clusters' ageing replicas read: taps and the reading's own status (R78, R87). -/
abbrev AgeReads := SMap (Nat × Status)

/-- What reaches Renoth from outside at a control-period boundary: the blocks that the scrubs of this period read, and those that
other reads of the period just ended found wrong (R423), mirror lanes that lost lock or carried corrected symbols in
two blocks (R512), the ageing readings that a recompute of this boundary takes (R218). -/
structure BoundaryInput where
  scrubs    : List Scrub
  found     : List Scrub := []
  badLanes  : BitVec 4
  ages      : AgeReads := ⟨(64, .valid), []⟩
deriving DecidableEq, Repr

/-- The package sensors read at a thermal period (R85, R511): a missing value is a failed read. Temperatures in
0.125 °C. `ackStack` and `ackOptic` are the levels that the reads return (R511), `heater` the heater requests in mW;
`ages` are the ageing readings that a recompute waiting for this boundary takes (R219). -/
structure PackageReads where
  inlet  : List (Option Int)
  outlet : List (Option Int)
  stack  : List (Option Int)
  laser  : List (Option Int)
  driver : List (Option Int)
  ackStack : List (Option Nat)
  ackOptic : List (Option Nat)
  heater : List Nat
  ages   : AgeReads := ⟨(64, .valid), []⟩
deriving DecidableEq, Repr

/-- One regulator array's readbacks at a package period, as the words that it returns (R507): READ_IOUT and
READ_TEMPERATURE_1 in Linear11, READ_VOUT in ULINEAR16. -/
structure ArrayRead where
  iout : BitVec 16
  vout : BitVec 16
  temp : BitVec 16
deriving DecidableEq, Repr

/-- The engine's defect-map report (R32): the detour hops between the hub and each governor, between governors (64 × one +
the other) and from each cluster to its governor, and the cores the map holds at 0. -/
structure DefectReport where
  detours      : SMap Nat := ⟨0, []⟩
  govDetours   : SMap Nat := ⟨0, []⟩
  chiveDetours : SMap Nat := ⟨0, []⟩
  heldCores    : SMap (BitVec 32) := ⟨0, []⟩
deriving DecidableEq, Repr

/-- A post of a multicast (R342): the named clusters of the region it reaches, and the other regions that the hub's
multicast names, with their masks. -/
structure Posts where
  mask   : BitVec 576
  others : List (RegionId × BitVec 576) := []
deriving DecidableEq, Repr

/-- A child of the package supervisor. -/
inductive Child where
  | stack (n : Fin 16)
  | optic (n : Fin 32)
deriving DecidableEq, Repr

/-- Rails of R438. -/
inductive Rail where
  | io | ana | core
deriving DecidableEq, Repr

/-- What a hub commands a PMBus master to do at an array (R21, R224, R507), with what the array answered: its VOUT_MODE, the
phases that STATUS_WORD names, the phases that are enabled. -/
inductive PmbusOp where
  | configure (voutMode : Nat) (badPhases : BitVec 24) (phaseEnables : BitVec 24)
  | operationOn
  | phaseEnable (phase : Fin 24)
  | phaseDisable (phase : Fin 24)
  | swap (on off : Fin 24)
  | clearFaults
  | statusWord
  | writeVoutMax (mv : Nat)
  | readVout
  | readIout
  | readTemperature
deriving DecidableEq, Repr

/-- A debug operation's fields (R490): the unit (0–5, or a reserved 6–7), the cluster, the address, the data, whether a reserved
bit is 1 or OP a reserved one (0xE or 0xF, which NOP's row brings); of MEM_WRITE, what the read of its merge meets (R422). -/
structure DbgOp where
  unit    : Fin 8
  cluster : Nat
  addr    : Word
  data    : Word
  resv    : Bool
  merge   : Option ReadErr := none
deriving DecidableEq, Repr

/-- The fields shifted into one hub's port, whatever their operation (R490): NOP's row. -/
structure PortOp where
  hub : Hub
  op  : DbgOp
deriving DecidableEq, Repr

/-- The certificate shifted into AUTH (R487). -/
structure DbgCert where
  keyIdx    : Fin 4
  key       : List Byte
  signature : List Byte
  scope     : BitVec 6
  hub       : Hub
  waferId   : BitVec 64
  challenge : List Byte
deriving DecidableEq, Repr

/-- The payload of a grant reservation (R242). -/
structure ReserveMsg where
  index    : Nat
  q        : Nat
  total    : Nat
  clusters : BitVec 576
  phases   : List Nat
  cycle    : Bool
deriving DecidableEq, Repr

/-- A commit or release word of the forwarded-reference tree (R245, R255), and the root it comes from (R383). -/
structure TreeWord where
  period  : BitVec 48
  indices : List Nat
  epoch   : Word
  checkOk : Bool
  root    : Hub := .a
deriving DecidableEq, Repr

/-- A multicast summary (R343). -/
structure Summary where
  slot        : SlotId
  ok          : Nat
  other       : Nat
  lowestOther : Option Nat
  cancelled   : Nat
  waiting     : Nat
  lowestWait  : Option Nat
  final       : Bool
deriving DecidableEq, Repr

/-- A step report (R281). -/
structure StepRep where
  step : Word
  t    : Nat
  w    : Nat
  k    : Nat
deriving DecidableEq, Repr

/-- A laggard summary to the home (R281). -/
structure LagSum where
  step : Word
  lag  : Nat
  t    : Nat
  wMin : Option Nat
deriving DecidableEq, Repr

/-- The commands of spec/opcode_table.json, in its order. -/
inductive Instr where
  /-- CMD_DOORBELL, R292. -/
  | cmdDoorbell (ring : Fin 8) (p : Word)
  /-- FILLED_RING_DOORBELL, R292: ring 8–17. -/
  | filledRingDoorbell (ring : Fin 10) (f : Word)
  /-- COMMAND_TAKE, R297: for CMD0 to CMD7, what reads of the ring's next entry and of the body it names return. -/
  | commandTake (heads : List (HostRead × HostRead))
  /-- COUNT_ZERO_ENTRY, R298: as for COMMAND_TAKE. -/
  | countZeroEntry (heads : List (HostRead × HostRead))
  /-- GRANT_REQUEST, R241. -/
  | grantRequest
  /-- GRANT_RELEASE, R255. -/
  | grantRelease
  /-- CAP_SET, R302. -/
  | capSet
  /-- CAP_SET_GROUP_FORM, R303. -/
  | capSetGroupForm
  /-- GROUP_DEFINE, R270. -/
  | groupDefine
  /-- GROUP_UNDEFINE, R271. -/
  | groupUndefine
  /-- MODEL_LOAD, R118. -/
  | modelLoad
  /-- MODEL_UNLOAD, R119. -/
  | modelUnload
  /-- AGEING_TRIM, R221. -/
  | ageingTrim
  /-- AGEING_TRIM_NEW_WAFER, R222: the readings taken. -/
  | ageingTrimNewWafer (taps : SMap Nat)
  /-- PHASE_RESTORE, R225. -/
  | phaseRestore
  /-- TELEMETRY_SUBSCRIBE, R313. -/
  | telemetrySubscribe
  /-- FIRMWARE_STAGE, R369: whether the standby's copy was written and compared equal. -/
  | firmwareStage (standbyCopyOk : Bool)
  /-- FIRMWARE_ACTIVATE, R372. -/
  | firmwareActivate
  /-- QUERY_GRANT, R307. -/
  | queryGrant
  /-- QUERY_GROUP, R307. -/
  | queryGroup
  /-- QUERY_SPEC, R307. -/
  | querySpec
  /-- COMPLETION_WRITE, R295: whether the host-memory writes succeeded. -/
  | completionWrite (writeOk : Bool)
  /-- TELEMETRY_RECORD_WRITE, R314. -/
  | telemetryRecordWrite (writeOk : Bool)
  /-- EVX_EXPORT, R315. -/
  | evxExport (writeOk : Bool)
  /-- COALESCING_TIMER, R319. -/
  | coalescingTimer (ring : RingId)
  /-- RESTART_PAIR, R294: RING_CTL bits 7:0. -/
  | restartPair (mask : BitVec 8)
  /-- RESTART_TEL, R294. -/
  | restartTel
  /-- RESTART_EVX, R294. -/
  | restartEvx
  /-- REGISTER_WRITE, R474, and the accesses of R467 that have no row; `within`: the write lands within the margin of
  R475 before the next boundary (R482). -/
  | registerWrite (acc : Access) (within : Bool)
  /-- HARD_SET, R320. -/
  | hardSet
  /-- HARD_CLEAR, R320. -/
  | hardClear
  /-- HMB_DOORBELL, R330. -/
  | hmbDoorbell (slot : SlotId)
  /-- HMB_CANCEL, R335. -/
  | hmbCancel (slot : SlotId)
  /-- HMB_DONE_CLEAR, R340. -/
  | hmbDoneClear (slot : SlotId)
  /-- HMB_MSG_WRITE, R338. -/
  | hmbMsgWrite (slot : SlotId) (w : Fin 4) (value : Word)
  /-- FC_PEND_CLEAR, R416. -/
  | fcPendClear (src : SourceId)
  /-- FC_FORCE, R421. -/
  | fcForce (src : SourceId)
  /-- TEST_MODE_WRITE, R417: the TEST and SUPPRESS bits written. -/
  | testModeWrite (test suppress : Bool)
  /-- FB_GO, R421: FORCE_BROKEN. -/
  | fbGo (src : SourceId)
  /-- EOH, R418. -/
  | eoh
  /-- GATE_CLOSE, R453. -/
  | gateClose (kind : Fin 8) (index : Nat) (by_ : GateAsker) (busy : Bool)
  /-- GATE_OPEN, R453. -/
  | gateOpen (kind : Fin 8) (index : Nat) (by_ : GateAsker) (busy : Bool)
  /-- GATE_QUERY, R453. -/
  | gateQuery (kind : Fin 8) (index : Nat) (by_ : GateAsker)
  /-- RST_CTL_KEY, R455. -/
  | rstCtlKey (key : Byte)
  /-- HANDOVER, R400. -/
  | handover
  /-- HOLD_WRITE, R477: the HOLD and SHADOW_SEL bits written to REG_CTL; `within` as for REGISTER_WRITE. -/
  | holdWrite (hold shadowSel within : Bool)
  /-- DISCARD_GO, R479. -/
  | discardGo (gid idx : Byte)
  /-- WV_SEL_WRITE, R481. -/
  | wvSelWrite (wid idx : Byte)
  /-- SLOT_TAKE, R331: the receiving core. -/
  | slotTake (core : CoreId)
  /-- PING, R337. -/
  | ping (slot : SlotId)
  /-- EVX_FLUSH, R337. -/
  | evxFlush (slot : SlotId)
  /-- CORE_STATE, R337. -/
  | coreState (slot : SlotId)
  /-- STALL_NEXT, R337. -/
  | stallNext (slot : SlotId)
  /-- CHIVE_PING, R341. -/
  | chivePing (c : ClusterId) (slot : SlotId)
  /-- AGE_READ, R78: the taps the replica shows. -/
  | ageRead (c : ClusterId) (slot : SlotId) (taps : Fin 65)
  /-- DILL_SWEEP, R92: the difference the sweep found, in mV. -/
  | dillSweep (c : ClusterId) (slot : SlotId) (diff : Int)
  /-- PAIR_WINDOW, R341. -/
  | pairWindow (c : ClusterId) (slot : SlotId)
  /-- COUNTERS, R341. -/
  | counters (c : ClusterId) (slot : SlotId)
  /-- MULTICAST_POST, R342: the post at region `r`. -/
  | multicastPost (r : RegionId) (hdr : MsgHdr) (slot : SlotId) (posts : Posts) (msg : List Byte)
  /-- INTERIM_SUMMARY, R343. -/
  | interimSummary (r : RegionId) (slot : SlotId)
  /-- MULTICAST_SUMMARY, R343; the result of the Chive self-check it may start (R344, R35). -/
  | multicastSummary (r : RegionId) (hdr : MsgHdr) (sum : Summary) (selfCheckOk : Bool)
  /-- SPARE_OUT, R33. -/
  | spareOut (c : ClusterId)
  /-- MESSAGE_RESEND, R329: sender, receiver and sequence number of the unanswered message. -/
  | messageResend (ends : Ends) (seq : Nat)
  /-- HEARTBEAT, R392: at which hub, on which path. -/
  | heartbeat (at_ : Hub) (path : HbPath) (beat : Beat)
  /-- CLAIM, R384. -/
  | claim (r : RegionId) (hdr : MsgHdr)
  /-- CLAIM_REPLY, R394: the governor's epoch. -/
  | claimReply (r : RegionId) (hdr : MsgHdr)
  /-- EPOCH_PROBE, R398. -/
  | epochProbe (r : RegionId) (hdr : MsgHdr)
  /-- EPOCH_PROBE_REPLY, R398. -/
  | epochProbeReply (r : RegionId) (hdr : MsgHdr)
  /-- RESERVE, R242. -/
  | reserve (r : RegionId) (hdr : MsgHdr) (m : ReserveMsg)
  /-- RESERVE_REPLY, R244. -/
  | reserveReply (r : RegionId) (hdr : MsgHdr) (index : Nat) (accept : Bool) (vFrom : Nat)
  /-- REPLY_LIMIT_EXPIRY, R243. -/
  | replyLimitExpiry (index : Nat)
  /-- COMMIT_WORD, R245. -/
  | commitWord (r : RegionId) (w : TreeWord)
  /-- RELEASE_WORD, R255. -/
  | releaseWord (r : RegionId) (w : TreeWord)
  /-- IN_FORCE, R248. -/
  | inForce (r : RegionId) (hdr : MsgHdr) (index : Nat)
  /-- REVOCATION, R229. -/
  | revocation (r : RegionId) (hdr : MsgHdr) (index : Nat)
  /-- CAP_MESSAGE, R47: a region cap in 0.25 A, with or without the latch clear of R201. -/
  | capMessage (r : RegionId) (hdr : MsgHdr) (cap : Nat) (clearLatch : Bool)
  /-- CAP_ACKNOWLEDGEMENT, R47. -/
  | capAcknowledgement (r : RegionId) (hdr : MsgHdr) (cap : Nat)
  /-- EMERGENCY_CAP_BROADCAST, R20: the region's preset in the broadcast. -/
  | emergencyCapBroadcast (r : RegionId) (hdr : MsgHdr) (preset : Nat)
  /-- MODEL_IMAGE, R118: bytes of the image from an offset; whether they are the last. -/
  | modelImage (r : RegionId) (hdr : MsgHdr) (offset : Nat) (bytes : List Byte) (last : Bool)
  /-- MODEL_CHECK_REPORT, R118: reason 0 is a good report. -/
  | modelCheckReport (r : RegionId) (hdr : MsgHdr) (reason : Nat)
  /-- MODEL_SWITCH, R118. -/
  | modelSwitch (r : RegionId) (hdr : MsgHdr) (period : BitVec 48)
  /-- GROUP_SLOT_REQUEST, R270. -/
  | groupSlotRequest (r : RegionId) (hdr : MsgHdr) (gid : Fin 1024) (members : BitVec 576)
  /-- GROUP_SLOT_REPLY, R270. -/
  | groupSlotReply (r : RegionId) (hdr : MsgHdr) (gid : Fin 1024) (accept : Bool)
  /-- ARM, R276. -/
  | arm (r : RegionId) (hdr : MsgHdr) (gid : Fin 1024) (code : Fin 65) (sT : Word)
  /-- ARM_ACKNOWLEDGEMENT, R329. -/
  | armAcknowledgement (r : RegionId) (hdr : MsgHdr) (gid : Fin 1024)
  /-- M_R_CHANGE, R274. -/
  | mRChange (r : RegionId) (hdr : MsgHdr) (gid : Fin 1024) (m : Fin 65)
  /-- STEP_REPORT, R281. -/
  | stepReport (c : ClusterId) (hdr : MsgHdr) (rep : StepRep)
  /-- LAGGARD_SUMMARY, R281. -/
  | laggardSummary (r : RegionId) (hdr : MsgHdr) (gid : Fin 1024) (sum : LagSum)
  /-- STALL_SUSPECT, R347. -/
  | stallSuspect (rep : StallRep)
  /-- STALL_CLEAR, R348. -/
  | stallClear (rep : StallRep)
  /-- PMBUS_COMMAND, R21: the array's region, the operation, and whether it ended in error after the repeat. -/
  | pmbusCommand (r : RegionId) (hdr : MsgHdr) (op : PmbusOp) (failed : Bool)
  /-- CONTROL_PERIOD_BOUNDARY, R163. -/
  | controlPeriodBoundary (inp : BoundaryInput)
  /-- CONSISTENCY_HOLD_LIMIT, R479. -/
  | consistencyHoldLimit (gid idx : Byte)
  /-- RAISE_HOLD_ELAPSED, R275. -/
  | raiseHoldElapsed (gid : Fin 1024)
  /-- DEMOTION_END, R142. -/
  | demotionEnd (r : RegionId)
  /-- GRID_BLOCK_END, R175. -/
  | gridBlockEnd (r : RegionId)
  /-- TRACKING_BLOCK_END, R125. -/
  | trackingBlockEnd (r : RegionId)
  /-- TICK_BOUNDARY, R68: the taps of the clusters over the tick just ended. -/
  | tickBoundary (taps : SMap TickTap)
  /-- PRE_RAISE_WITHDRAWAL, R138. -/
  | preRaiseWithdrawal (r : RegionId)
  /-- FORECAST_BOUNDARY, R97: what each cluster's encoder latches (unlisted: nothing queued). -/
  | forecastBoundary (taps : List (ClusterId × FeatureTap))
  /-- FORECAST_PUBLICATION, R98. -/
  | forecastPublication (r : RegionId)
  /-- SUM_SAMPLE, R79: the sum of the sense outputs, 0.25 A before saturation; the channel's own check. -/
  | sumSample (r : RegionId) (amps : Int) (status : Status)
  /-- SUM_SAMPLE_AVAILABLE, R81. -/
  | sumSampleAvailable (r : RegionId)
  /-- PHASE_CHANNEL_SAMPLE, R82. -/
  | phaseChannelSample (r : RegionId) (amps : Int) (status : Status)
  /-- DIODE_CONVERSION, R69: the eight converters' results for position k of their rotation, 0.125 °C. -/
  | diodeConversion (r : RegionId) (pos : Fin 8) (temps : List Int)
  /-- VOLTAGE_MONITOR_READING, R84: the 16 readings in mV with their own checks. -/
  | voltageMonitorReading (r : RegionId) (reads : List (Nat × Status)) (slewing : Bool)
  /-- RAISE_TEST_TIMEOUT, R67. -/
  | raiseTestTimeout (r : RegionId)
  /-- TP_MONITOR_WINDOW, R76: the stressed count; the unstressed count in a paired window. -/
  | tpMonitorWindow (c : ClusterId) (stressed : Nat) (unstressed : Option Nat) (status : Status)
  /-- LIMITER_STEP, R151: the issue requests of the core's four matrix engines in the step's four engine cycles, bit
  4 × cycle + engine. -/
  | limiterStep (c : ClusterId) (core : CoreNo) (requests : BitVec 16)
  /-- LAUNCH_HOLD, R154. -/
  | launchHold (c : ClusterId) (core : CoreNo)
  /-- LIMITER_TARGET, R156: a word on the region's limiter bus, and the clusters below a corruption in the tree. -/
  | limiterTarget (r : RegionId) (word : Word) (corruptAt : List (Fin 576))
  /-- LIMITER_RECOVERY, R156. -/
  | limiterRecovery (r : RegionId) (word : Word) (corruptAt : List (Fin 576))
  /-- LIMITER_FLOOR, R156. -/
  | limiterFloor (r : RegionId) (word : Word) (corruptAt : List (Fin 576))
  /-- LIMITER_HOLD, R171. -/
  | limiterHold (r : RegionId) (word : Word) (corruptAt : List (Fin 576))
  /-- DILL_TRIP_CROSSING, R65. -/
  | dillTripCrossing (c : ClusterId)
  /-- DILL_WARN_CROSSING, R68. -/
  | dillWarnCrossing (c : ClusterId)
  /-- DILL_RELEASE, R66. -/
  | dillRelease (c : ClusterId)
  /-- PHASE_MARKER, R253. -/
  | phaseMarker (c : ClusterId)
  /-- BARRIER_RELEASE, R272: the cluster and the step number the engine now shows. -/
  | barrierRelease (c : ClusterId) (step : Word)
  /-- ENGINE_CLOCK_RESTART, R158. -/
  | engineClockRestart (r : RegionId)
  /-- WAFER_PERIOD, R186: the package sensors read at the boundary. -/
  | waferPeriod (reads : PackageReads)
  /-- PACKAGE_PERIOD, R192: the arrays' readbacks; none where no answer came. -/
  | packagePeriod (arrays : List (Option ArrayRead))
  /-- CHILD_ACK_TIMEOUT, R197. -/
  | childAckTimeout (ch : Child)
  /-- CHILD_UNACKNOWLEDGED, R49. -/
  | childUnacknowledged (r : RegionId)
  /-- TRIP_COMPARATOR_ASSERT, R198. -/
  | tripComparatorAssert (r : RegionId) (k : Fin 8)
  /-- TRIP_COMPARATOR_RELEASE, R73. -/
  | tripComparatorRelease (r : RegionId) (k : Fin 8)
  /-- ECAP_N_ASSERT, R320: the hub whose filter accepts. -/
  | ecapNAssert (h : Hub)
  /-- ECAP_N_RELEASE, R320. -/
  | ecapNRelease (h : Hub)
  /-- REG_ALERT_ASSERT, R509. -/
  | regAlertAssert (r : RegionId)
  /-- REG_ALERT_CLEAR, R509. -/
  | regAlertClear (r : RegionId)
  /-- SMBALERT, R506: the answering array's region and the phases its STATUS_WORD reports faulty. -/
  | smbalert (r : RegionId) (badPhases : BitVec 24) (failed : Bool)
  /-- PHASE_SWAP, R224: the failed phase; whether the PMBus transactions failed twice. -/
  | phaseSwap (r : RegionId) (phase : Fin 24) (failed : Bool)
  /-- PHASE_WATCH_END, R225. -/
  | phaseWatchEnd (r : RegionId)
  /-- EMERGENCY_CAP_SETTLEMENT, R258. -/
  | emergencyCapSettlement
  /-- DERATE_SETTLEMENT, R228. -/
  | derateSettlement (r : RegionId)
  /-- MARGIN_EVALUATION, R212: what each cluster's ageing replica reads (R78, R87). -/
  | marginEvaluation (taps : AgeReads)
  /-- AGEING_INTERVAL, R219: the readings, as for MARGIN_EVALUATION. -/
  | ageingInterval (taps : AgeReads)
  /-- DELIVERY_TIMER_EXPIRY, R260. -/
  | deliveryTimerExpiry (index : Fin 65536)
  /-- DURATION_EXPIRY, R256. -/
  | durationExpiry (index : Fin 65536)
  /-- WATCHDOG_EXPIRY, R368. -/
  | watchdogExpiry (core : CoreId)
  /-- PROTECTION_VIOLATION, R363: the denied access. -/
  | protectionViolation (core : CoreId)
  /-- CORE_READY, R365. -/
  | coreReady (core : CoreId)
  /-- READY_TIMEOUT, R365. -/
  | readyTimeout (core : CoreId)
  /-- ACTIVATION_RESUME, R373. -/
  | activationResume
  /-- ACTIVATION_DEADLINE, R306. -/
  | activationDeadline
  /-- ACTIVATION_DRAIN_LIMIT, R372. -/
  | activationDrainLimit
  /-- FAULT_EVENT, R412. -/
  | faultEvent
  /-- BROKEN_PAIR, R409: at which hub's collector. -/
  | brokenPair (h : Hub) (src : SourceId)
  /-- COLLECTOR_PARITY_SCAN, R419: the failing register's window offset, if any. -/
  | collectorParityScan (h : Hub) (bad : Option Nat)
  /-- CRST_REQ_END, R501. -/
  | crstReqEnd (h : Hub)
  /-- RECORD_APPEND, R431. -/
  | recordAppend
  /-- RECORD_CLOSE, R430. -/
  | recordClose
  /-- MIRROR_BLOCK, R388: at which hub; the wrong symbols among its 272; its sequence number; the highest block that it
  acknowledges; whether it is a sweep block that differs. -/
  | mirrorBlock (at_ : Hub) (wrongData wrongParity : Nat) (seq ack : Nat) (sweepDiffers : Bool)
  /-- PROMOTION, R394. -/
  | promotion (h : Hub)
  /-- STANDBY_SILENCE, R398. -/
  | standbySilence
  /-- MIRROR_SILENCE, R399: at which hub. -/
  | mirrorSilence (h : Hub)
  /-- HANDOVER_YIELD, R400. -/
  | handoverYield
  /-- RESYNC_COMPLETE, R401. -/
  | resyncComplete
  /-- REF_LOST, R446. -/
  | refLost
  /-- GLIDE_DOWN_END, R444. -/
  | glideDownEnd
  /-- FALLBACK_START, R447. -/
  | fallbackStart
  /-- FALLBACK_STABLE, R447: the count of the window just ended. -/
  | fallbackStable (count : Nat)
  /-- FALLBACK_FAILURE, R447. -/
  | fallbackFailure
  /-- CLOCK_MONITOR_TRIP, R448: whether the oscillator had entered the window. -/
  | clockMonitorTrip (h : Hub) (entered : Bool)
  /-- IDLE_CORE_LOCKED, R449. -/
  | idleCoreLocked
  /-- DOMAIN_SWITCH, R449. -/
  | domainSwitch
  /-- REF_RETURNED, R450. -/
  | refReturned
  /-- GLIDE_UP_END, R450. -/
  | glideUpEnd
  /-- COLD_START, R458: the defect-map report that the hub reads at start-up (R32). -/
  | coldStart
  /-- POWER_ON_RESET_RELEASE, R458: the hub and its FB_DLY strap. -/
  | powerOnResetRelease (h : Hub) (fbDly : Fin 4)
  /-- HUB_LOOP_LOCK_TIMEOUT, R459. -/
  | hubLoopLockTimeout (h : Hub)
  /-- FB_DLY_ELAPSED, R459. -/
  | fbDlyElapsed (h : Hub)
  /-- SELF_TEST_GATE_RELEASE, R75: the comparators that asserted under the test current, the comparators still
  asserted 10 µs after its removal. -/
  | selfTestGateRelease (asserted still : SMap (BitVec 8))
  /-- EPOCH_CLAIM_TIMEOUT, R461. -/
  | epochClaimTimeout
  /-- RAIL_DOWN, R442. -/
  | railDown (rail : Rail)
  /-- RAIL_UP, R442. -/
  | railUp (rail : Rail)
  /-- RST_N_ASSERT, R455. -/
  | rstNAssert
  /-- RST_N_RELEASE, R457. -/
  | rstNRelease
  /-- DEFECT_MAP_CHANGE, R32: the new report. -/
  | defectMapChange (detours govDetours chiveDetours : SMap Nat) (heldCores : SMap (BitVec 32))
  /-- TEST_LOGIC_RESET, R489. -/
  | testLogicReset (h : Hub)
  /-- EXTEST, R486: the bits shifted into the boundary register. -/
  | extest (h : Hub) (bits : List Bool)
  /-- SAMPLE_PRELOAD, R486. -/
  | samplePreload (h : Hub) (bits : List Bool)
  /-- IDCODE, R486. -/
  | idcode (h : Hub)
  /-- START_READ, R460. -/
  | startRead (h : Hub)
  /-- AUTH, R487. -/
  | auth (h : Hub) (scope : BitVec 6)
  /-- AUTH_VERIFIED, R487. -/
  | authVerified (h : Hub) (cert : DbgCert)
  /-- NOP, R491. -/
  | nop (x : PortOp)
  /-- HALT, R493. -/
  | halt (h : Hub) (op : DbgOp)
  /-- RESUME, R491. -/
  | resume (h : Hub) (op : DbgOp)
  /-- STEP, R491. -/
  | step (h : Hub) (op : DbgOp)
  /-- BP_SET, R491. -/
  | bpSet (h : Hub) (op : DbgOp)
  /-- BP_CLEAR, R491. -/
  | bpClear (h : Hub) (op : DbgOp)
  /-- BREAKPOINT_HIT, R491: the address fetched. -/
  | breakpointHit (core : CoreId) (addr : Word)
  /-- MEM_READ, R491, R492: what the memory's controller found as it read the word. -/
  | memRead (h : Hub) (op : DbgOp) (ecc : ReadErr)
  /-- MEM_WRITE, R491. -/
  | memWrite (h : Hub) (op : DbgOp)
  /-- REG_READ, R491. -/
  | regRead (h : Hub) (op : DbgOp)
  /-- REG_WRITE, R491. -/
  | regWrite (h : Hub) (op : DbgOp)
  /-- REC_READ, R491, R492: what the recorder's controller found as it read the word. -/
  | recRead (h : Hub) (op : DbgOp) (ecc : ReadErr)
  /-- WIN_READ, R491. -/
  | winRead (h : Hub) (op : DbgOp)
  /-- DEAUTH, R489. -/
  | deauth (h : Hub) (op : DbgOp)
  /-- WARM_RESET, R491. -/
  | warmReset (h : Hub) (op : DbgOp)
  /-- ENGINE_CLOCK_STOP, R158. -/
  | engineClockStop (r : RegionId)
  /-- AVSBUS_FRAME_END, R505: whether the slave's response was good. -/
  | avsbusFrameEnd (r : RegionId) (good : Bool)
  /-- STAGE_COPY_REPORT, R370: a governor's readback of the Chive copies, after the second write. -/
  | stageCopyReport (r : RegionId) (hdr : MsgHdr) (ok : Bool)
  /-- STAGING_RELEASE, R243. -/
  | stagingRelease (r : RegionId) (hdr : MsgHdr) (index : Nat)
  /-- GRANT_STATE_QUERY, R251. -/
  | grantStateQuery (r : RegionId) (hdr : MsgHdr) (index : Nat)
  /-- GRANT_STATE_REPLY, R251: IN_FORCE, or STAGED. -/
  | grantStateReply (r : RegionId) (hdr : MsgHdr) (index : Nat) (inForce : Bool)
  /-- REMOVAL_REPORT, R255. -/
  | removalReport (r : RegionId) (hdr : MsgHdr) (index : Nat)
  /-- GROUP_SLOT_RELEASE, R271. -/
  | groupSlotRelease (r : RegionId) (hdr : MsgHdr) (gid : Fin 1024)
  /-- CHIVE_ACKNOWLEDGEMENT, R343. -/
  | chiveAcknowledgement (c : ClusterId) (hdr : MsgHdr) (slot : SlotId) (code : Byte)
  /-- SUMMARY_REQUEST, R346. -/
  | summaryRequest (r : RegionId) (hdr : MsgHdr) (slot : SlotId)
  /-- LANE_RETRAIN_COMPLETE, R512. -/
  | laneRetrainComplete (lane : Fin 4)
  /-- HUB_LOOP_LOCK, R458. -/
  | hubLoopLock (h : Hub)
  /-- MODEL_SWITCH_ACKNOWLEDGEMENT, R118. -/
  | modelSwitchAcknowledgement (r : RegionId) (hdr : MsgHdr)
  /-- SHADOW_DELIVERY, R475: the apply boundary's period and the register words. -/
  | shadowDelivery (r : RegionId) (hdr : MsgHdr) (due : BitVec 48) (words : List (Nat × Word))
  /-- CHIVE_DEBUG_REPLY, R492. -/
  | chiveDebugReply (h : Hub)
  /-- YIELDING_HUB_CLAIM, R400. -/
  | yieldingHubClaim (epoch : Word)
  /-- CAUSE_REGISTER_LATCH, R415: the roll-up's region and kind (0 RTHERM, 1 RSUPPLY, 2 RCTRL). -/
  | causeRegisterLatch (r : RegionId) (roll : Fin 3)
deriving DecidableEq, Repr

end Sys2Proof
end

