-- ==== Sys2Proof/Config.lean ====
section
/-!
DEFINITION. What an implementation of Renoth fixes and what its spec leaves open. Every constant here is opaque: a
statement that holds in this model holds whatever its value is.
-/

namespace Sys2Proof

/-- Free value number `n` (notes/assumptions/6.md): a result the spec does not state. -/
opaque Config.freeValue : Nat → Nat

/-- Fused silicon stepping, RN_VER STEPPING (R483). -/
opaque Config.stepping : BitVec 8

/-- Fused WAFER_ID (R481, R487). -/
opaque Config.waferId : BitVec 64

/-- Fused anti-rollback counter of a target in a hub's security core before any advance (R358, R380). -/
opaque Config.arbFused : Hub → Nat → BitVec 6

/-- Fused KEY_REVOKE (R380). -/
opaque Config.keyRevoke : BitVec 4

/-- Fused 32-bit seed and calibration of a cluster's ageing replica, in taps at the first wafer (R220). -/
opaque Config.firstTaps : Nat → Nat

/-- ECDSA P-384 with SHA-384 (R357, R487): the signature over the bytes verifies under the key, and the key's digest
is the fused one of that number. -/
opaque Config.signatureGood : Nat → List Byte → List Byte → Bool
opaque Config.keyDigestGood : Nat → List Byte → Bool

/-- The temperature, in 0.125 °C, that a cluster's monitor makes of a count of its stressed ring, of the nearest
voltage monitor's reading and of the drift in hand, with its fused unstressed frequency and process corner (R76, R90). -/
opaque Config.monitorTemp : BitVec 16 × BitVec 4 → Nat → Nat → Int → Int

/-- The fused sensor trims (R90): diodes, trip comparators and voltage monitors by region and number; temperature-and-process
monitors, ageing monitors and both comparators of Dill by cluster. -/
opaque Config.fuseDiode : Nat → Nat → BitVec 8
opaque Config.fuseComparator : Nat → Nat → BitVec 6
opaque Config.fuseVMon : Nat → Nat → BitVec 10
opaque Config.fuseTp : Nat → BitVec 16 × BitVec 4
opaque Config.fuseAge : Nat → BitVec 6
opaque Config.fuseDill : Nat → BitVec 6 × BitVec 6

/-- Whether the SECDED code of a 64-bit word with three or more wrong bits marks it (R422), by the block and the word. -/
opaque Config.secdedFlags : Nat → Nat → Bool

/-- Issue slots of one operation of a format and tile class at the engine's issue rate, a figure of the surroundings
(R2, R100). -/
opaque Config.issueSlots : Nat → Nat → Nat

/-- TILE of a record in which no matrix work is counted (R99). -/
opaque Config.idleTile : Fin 4

/-- The integer an INT8 or INT16 activation takes from a NaN (R111). -/
opaque Config.nanInteger : Int

/-- Whether ReLU passes a NaN on (R111 step 4). -/
opaque Config.reluNan : Bool

/-- Random challenge number `n` of a hub's debug port, 48 bytes (R487). -/
opaque Config.challenge : Hub → Nat → List Byte

/-- What a debug operation reads in a processor's registers or memory that no rule lays down (R491). -/
opaque Config.debugRead : Nat → BitVec 32

end Sys2Proof
end

