-- ==== Sys2Proof/Machine/State.lean ====
section
/-!
DEFINITION. The state of Renoth as plain data: the two hubs, the 64 governors, the Chives and the limiters, and the
queue of waiting commands. Currents are in quarter-amperes, voltages in mV, temperatures in 0.125 °C (R4). Each
structure's docstring names the rules that give its fields. Reset values that the spec does not give are named in
notes/assumptions/10.md.
-/

namespace Sys2Proof.Machine

/-- The name by which work in hand refers to a taken entry: its ring and its turn in taking order (R14, R316). -/
abbrev CmdRef := Nat × Nat

/-! ### Limiter, node, Chive, cluster -/

/-- An issue-rate limiter (R151, R153, R154, R156, R157). -/
structure Limiter where
  e          : Nat := 0
  t          : Nat := 0
  k          : Nat := 0
  d          : Nat := 16
  kRec       : Nat := 0
  recovering : Bool := false
  cnt        : Nat := 0
  hold       : Bool := false
  err        : Bool := false
  idleSteps  : Nat := 0
  /-- The step's place in the aligned window of 64 engine cycles; the issue grants of the latest step, bit 4 × cycle +
  engine (R150). -/
  place      : Fin 16 := 0
  granted    : BitVec 16 := 0
  /-- The last TARGET the Chive's node keeps for this core, unclamped (R160). -/
  nodeCode   : Nat := 0
  nodeSlope  : Nat := 0
deriving DecidableEq, Repr

/-- Dill, the droop detector of a cluster, and its counters (R65, R66, R68, R92, R341). -/
structure Dill where
  asserted   : Bool := false
  tripCnt    : Nat := 0
  warnCnt    : Nat := 0
  readTrips  : Nat := 0
  readWarns  : Nat := 0
  offset     : Int := 0
  status     : Status := .valid
  sweeping   : Bool := false
  /-- The own status while it is being reported as SUSPECT until its recovery ends (R87). -/
  recovering : Bool := false
  /-- HOLD is asserted at the cluster for this Dill (R171). -/
  holding    : Bool := false
deriving DecidableEq, Repr

/-- The temperature-and-process monitor of a cluster (R76, R77, R87). -/
structure TpMonitor where
  reading  : Int := 0
  offset   : Int := 0
  windows  : Nat := 0
  drift    : Int := 0
  status   : Status := .valid
  goodRun  : Nat := 3
deriving DecidableEq, Repr

/-- A 64-bit feature record and what the governor keeps of a cluster's records (R99, R101, R162). -/
structure Feature where
  /-- The record in use: the latest one, the last valid one for an invalid one, all zero after three invalid ones. -/
  lastValid  : BitVec 64 := 0
  invalidRun : Nat := 0
  /-- The largest per-code term and VEC of the period's records; whether any had queued matrix work. -/
  aMax       : Nat := 0
  vMax       : Nat := 0
  worked     : Bool := false
  /-- The same of the period just ended, used by R163. -/
  aPrev      : Nat := 0
  vPrev      : Nat := 0
  workedPrev : Bool := false
deriving DecidableEq, Repr

/-- What a Chive's phase switch holds of a grant (R242, R253). -/
structure PhaseList where
  grant : Nat
  ops   : List Nat
  cycle : Bool
deriving DecidableEq, Repr

/-- A Chive's step tap (R272, R281, R347). -/
structure StepTap where
  step      : Word := 0
  arrived   : Bool := false
  ticks     : Nat := 0
  waits     : Nat := 0
  held      : Nat := 0
  suspTicks : Nat := 0
  suspect   : Bool := false
  /-- STEP changed or a core issued while suspect (R348). -/
  clearDue  : Bool := false
deriving DecidableEq, Repr

/-- The states of a mailbox slot (R330). -/
inductive SlotState where
  | empty | posted | taken | done
deriving DecidableEq, Repr

/-- A mailbox slot (R330, R333, R335). -/
structure Slot where
  state    : SlotState := .empty
  msg      : List Byte := List.replicate 16 0
  code     : Byte := 0
  detail   : Byte := 0
  seq      : BitVec 16 := 0
  result   : Word := 0
  retaken  : Bool := false
  /-- A plain cancel was recorded while TAKEN; in a DONE slot, a forced cancel found it TAKEN and its receiver has not
  acknowledged since (R335). -/
  cancel   : Bool := false
  /-- The doorbell has been mirrored to the standby (R339). -/
  mirrored : Bool := false
  /-- The doorbell's turn in doorbell order (R331). -/
  turn     : Nat := 0
deriving DecidableEq, Repr

/-- States of a firmware core (R380). -/
inductive CoreState where
  | empty | running | restarting | halted | held | stopped
deriving DecidableEq, Repr

/-- A Chive's control core (R354, R365–R368, R454). -/
structure ChiveCore where
  state     : CoreState := .empty
  bank      : Bool := false
  /-- Wafer periods at which it restarted, newest first (R367). -/
  restarts  : List Nat := []
  /-- Cause of the latest restart (R428). -/
  why       : Nat := 0
  /-- The restart in hand is a bank switch of an activation (R375, R376); the switch waits for READY (R377). -/
  switched  : Bool := false
  due       : Bool := false
  /-- It runs for an activation although it was stopped; success clears the stop (R367, R377). -/
  stopHeld  : Bool := false
  /-- Number, address, and the hub whose port set it (R489). -/
  breakpts  : List (Nat × Word × Hub) := []
  haltWhy   : Nat := 0
  data      : SMap Word := ⟨0, []⟩
  /-- While it is halted: the words of `data` and the processor registers that the debug port has read or written. -/
  seen      : List Nat := []
  regs      : List (Word × Word) := []
deriving DecidableEq, Repr

/-- What the governor and the hub hold about a cluster. -/
structure ClusterCtl where
  spared    : Bool := false
  heldCores : BitVec 32 := 0
  /-- Grant reservation in force at the cluster (R163, R246). -/
  res       : Nat := 0
  /-- Share I_cl and rate ceiling C_cl (R163, R164), the uncapped ceiling u_c (R274). -/
  share     : Nat := 0
  ceil      : Nat := 0
  uncapped  : Nat := 0
  /-- The code of the committed bus setting the governor last sent (R103, R166), and the code last sent, ramp shaping
  included (R134); the slope last sent is its row's. -/
  setCode   : Nat := 0
  sentCode  : Nat := 0
  /-- Raises that wait for the raise test of R246. -/
  raiseHeld : Bool := false
  /-- A shaped setting was sent since the latest boundary (R135). -/
  shaped    : Bool := false
  hostCeil  : Option Nat := none
  group     : Option Nat := none
deriving DecidableEq, Repr

/-- A cluster: its limiters, its node, its Chive, what the governor keeps for it. -/
structure Cluster where
  limiters  : SMap Limiter := ⟨{}, []⟩
  /-- PH_CEIL of the node (R160); the group clamp's code in force, and its floor under a grant (R240, R277). -/
  phCeil    : Nat := 64
  grpCode   : Nat := 64
  grpFloor  : Nat := 0
  /-- The armed code and its landing step (R276). -/
  armed     : Option (Nat × Word) := none
  /-- Neighbour droop mask, bit i for the wire from N, NE, E, SE, S, SW, W, NW in that order (R161). -/
  droopMask : BitVec 8 := 0
  dill      : Dill := {}
  tp        : TpMonitor := {}
  ageTaps   : Nat := 64
  ageStatus : Status := .valid
  feature   : Feature := {}
  phases    : Option PhaseList := none
  phaseIdx  : Nat := 0
  staged    : Option PhaseList := none
  strayMarks : Nat := 0
  /-- LATE landings at this cluster (R341). -/
  lates     : Nat := 0
  tap       : StepTap := {}
  core      : ChiveCore := {}
  slots     : SMap Slot := ⟨{}, []⟩
  slotTurn  : Nat := 0
  /-- The epoch the Chive holds (R19, R384). -/
  epoch     : Word := 0
  gcClosed  : Bool := false
  ctl       : ClusterCtl := {}
deriving DecidableEq, Repr

/-! ### Region governor -/

/-- What an AVSBus frame carries (R175, R504). -/
inductive Frame where
  | committed (mv : Nat)
  | speculative (mv : Nat)
  | rates (up dn : Nat)
deriving DecidableEq, Repr

/-- The committed setpoint, its terms, the AVSBus master and Dill's reference (R67, R174–R179, R205, R505). -/
structure Setpoint where
  vc        : Nat := 0
  m         : Nat := 60
  /-- The margin R64 uses (R211). -/
  mDill     : Nat := 60
  trim      : Nat := 0
  vOp       : Int := 0
  vLoad     : Nat := 0
  vGrid     : Nat := 0
  dillRef   : Nat := 0
  /-- A raise whose test has not passed: the setpoint it must reach (R67). -/
  raising   : Option Nat := none
  timedOut  : Bool := false
  /-- The frame that carries the raise has not ended (R67). -/
  raiseWait : Bool := false
  /-- The frame in progress; frames wanted and not started: transition rates, committed, speculative. -/
  busy      : Option Frame := none
  wantRates : Bool := false
  wantVc    : Bool := false
  wantSpec  : Bool := false
  attempts  : Nat := 0
  /-- A frame and its repetition failed: the committed value is sent once in each control period; this period's is due. -/
  retryEach : Bool := false
  retryDue  : Bool := false
  /-- The setpoint the array holds, V_grid included; the unconfirmed pre-raise in it and in the frame in progress (R143,
  R242). -/
  arrayMv   : Nat := 0
  arraySpec : Nat := 0
  busyS     : Nat := 0
  /-- The output from which the array slews down, V_grid included, and the period count when it began (R242). -/
  fallFrom  : Nat := 0
  fallAt    : Nat := 0
  /-- Confirmed raises that V_max does not yet contain, mV (R137). -/
  conf      : Nat := 0
deriving DecidableEq, Repr

/-- States of speculation (R149); SUSPENDED is IDLE while blocked. -/
inductive SpecState where
  | idle | standing | demoted
deriving DecidableEq, Repr

/-- Speculation of a region (R131–R149). -/
structure Spec where
  state     : SpecState := .idle
  s         : Nat := 0
  base      : Nat := 0
  rise      : Nat := 0
  /-- Window samples still to be taken and still to become available. -/
  toTake    : Nat := 0
  toJudge   : Nat := 0
  noConfirm : Bool := false
  abandon   : Bool := false
  withdraw  : Bool := false
  /-- Misses of the latest 64 periods, current first. -/
  missWin   : List Nat := []
  demote    : Bool := false
  demoteLeft : Nat := 0
  issued    : Word := 0
  confirmed : Word := 0
  missed    : Word := 0
  abandoned : Word := 0
  shaped    : Word := 0
  demotions : Word := 0
  extraUj   : BitVec 64 := 0
  extraSub  : Nat := 0
deriving DecidableEq, Repr

/-- Sage's model states (R122). -/
inductive ModelState where
  | none | loading | active | failed
deriving DecidableEq, Repr

/-- A forecast between its boundary and its publication (R98, R103–R107, R111): its latency in Sage cycles, the rows'
linear sums and clamp sums in µA at 750 mV, and the learned outputs m × 2^e, none for a NaN or an infinity, when a
learned model is in use. -/
structure Forecast where
  lat     : Nat
  linUA   : List Nat
  maxUA   : List Nat
  learned : Option (List (Option (Int × Int)))
deriving DecidableEq, Repr

/-- Sage of a region: model, forecast, tracking and trust (R97–R127). -/
structure Sage where
  model     : ModelState := .none
  weights   : List Byte := []
  /-- Image being received and its end seen. -/
  loadBuf   : List Byte := []
  modelId   : Word := 0
  latency   : Nat := 14
  invalid   : Nat := 0
  lastSrc   : Nat := 0
  failNext  : Bool := false
  switchAt  : Option (BitVec 48) := none
  /-- Number of the latest forecast boundary and of the next (R97). -/
  fnum      : Nat := 0
  fnext     : Nat := 0
  inFlight  : Option Forecast := none
  groups    : List Nat := []
  prevGroups : List Nat := []
  fReg      : Nat := 0
  clampFlag : Bool := false
  srcFlag   : Nat := 0
  /-- Forecast sums and counts of the running period, published and linear (R123). -/
  sumPub    : Nat := 0
  sumLin    : Nat := 0
  nPub      : Nat := 0
  void      : Bool := false
  binsPub   : List Nat := List.replicate 16 0
  binsLin   : List Nat := List.replicate 16 0
  counted   : Nat := 0
  /-- Counted periods with e above TRUST_ERR. -/
  badPub    : Nat := 0
  badLin    : Nat := 0
deriving DecidableEq, Repr

/-- Trust of a region's Sage (R125, R126). -/
structure Trust where
  trusted  : Bool := false
  goodRun  : Nat := 0
  voidRun  : Nat := 0
  /-- Periods of the running block; those of them in which the learned model published. -/
  periods  : Nat := 0
  learned  : Nat := 0
deriving DecidableEq, Repr

/-- A thermal diode (R70, R71). -/
structure Diode where
  temp    : Int := 0
  fresh   : Int := 0
  outside : Bool := false
  status  : Status := .valid
  devRun  : Nat := 0
  okRun   : Nat := 0
  suspRun : Nat := 0
deriving DecidableEq, Repr

/-- A voltage monitor (R84, R87). -/
structure VMon where
  mv      : Nat := 500
  /-- The unconfirmed pre-raise that stood at the reading (R88, R143). -/
  spec    : Nat := 0
  slewing : Bool := false
  status  : Status := .valid
  goodRun : Nat := 2
deriving DecidableEq, Repr

/-- A sum sample: as read, as exported (R88, R89), the pre-raise and V_c at its taking, and whether it lies in a pre-raise's window (R131). -/
structure Sample where
  raw    : Nat
  shown  : Nat
  spec   : Nat
  vc     : Nat
  window : Bool
deriving DecidableEq, Repr

/-- The current digitiser of a region and its energy counter (R79–R83, R87–R91). -/
structure Digitiser where
  /-- The latest sample's input, before zero and gain; sum samples taken and not yet available. -/
  input     : Int := 0
  taken     : List Sample := []
  latest    : Nat := 0
  raw       : List Nat := []
  shown     : List Nat := []
  meanRaw   : Nat := 0
  peakRaw   : Nat := 0
  prevMeanRaw : Nat := 0
  meanShown : Nat := 0
  peakShown : Nat := 0
  sumStatus : Status := .valid
  /-- Control periods of VALID readings left before the recovery of R87 ends; 1,001 while the running one is partial. -/
  sumWait   : Nat := 0
  phStatus  : Status := .valid
  /-- Rotations left, 11 while the running one is partial. -/
  phWait    : Nat := 0
  nextPhase : Nat := 0
  phCur     : List Nat := List.replicate 24 0
  lowRun    : List Nat := List.replicate 24 0
  highRun   : List Nat := List.replicate 24 0
  offset    : Int := 0
  gainPpm   : Int := 0
  /-- Sum and number of the period means since the last package boundary (R91). -/
  pkgSum    : Nat := 0
  pkgCnt    : Nat := 0
  energyUj  : BitVec 64 := 0
  energySub : Nat := 0
deriving DecidableEq, Repr

/-- The spare phases of a region's array (R224–R226, R233). -/
structure Phases where
  active    : BitVec 24 := 0x3FFFFF
  healthy   : BitVec 24 := 0x3FFFFF
  spares    : BitVec 24 := 0xC00000
  retired   : BitVec 24 := 0
  swap      : Bool := false
  /-- Active phases found failed whose swap is in hand (R224). -/
  failed    : List Nat := []
  /-- The restored phase under watch, rotations left, failed (R225). -/
  watch     : Option (Nat × Nat × Bool) := none
  derateCnt : Nat := 0
  /-- The phase count that a repair since the latest run of the loop does not yet raise (R59). -/
  rated     : Nat := 22
  /-- Phases failed with no spare, for the derate of the next boundary (R226). -/
  derateDue : List Nat := []
  /-- Derated phases not yet disabled over PMBus, since no hub owns (R18). -/
  offDue    : List Nat := []
  unsettled : Bool := false
  /-- An emergency cap not yet settled had reached the grants before the unsettled derate did (R520). -/
  ecapFirst : Bool := false
deriving DecidableEq, Repr

/-- TRIM_STATE of R233. -/
inductive TrimState where
  | none | applied | limit | exhausted
deriving DecidableEq, Repr

/-- Margin recovery of a region, held between hub and governor (R212–R218, R233). -/
structure Margin where
  state   : TrimState := .none
  block   : BitVec 7 := 0
  sticky  : BitVec 7 := 0
  /-- Margin return of R215 due at the next boundary; the m the hub sent. -/
  goStatic : Bool := false
  newM    : Option Nat := none
  /-- The recompute of R216 raised TRIM. -/
  raised  : Bool := false
deriving DecidableEq, Repr

/-- Thermal state of a region (R185–R189, R195, R198, R201, R208). -/
structure Therm where
  tHot      : Int := 0
  iTh       : Nat := 0x960
  binding   : Bool := false
  floored   : Bool := false
  latch     : Bool := false
  comps     : BitVec 8 := 0
  tripCnt   : Nat := 0
  seen      : Bool := false
  holdLeft  : Nat := 0
  coolMaps  : Nat := 0
  derate16  : Nat := 0
  regTemp   : Int := 0
  /-- Sum and number of control-period means since the last wafer boundary (R184). -/
  meanSum   : Nat := 0
  meanCnt   : Nat := 0
  selfTest  : Bool := false
deriving DecidableEq, Repr

/-- A grant's reservation as the governor holds it (R242, R246). -/
structure Resv where
  grant    : Nat
  q        : Nat
  total    : Nat
  clusters : List Nat
  inForce  : Bool
  /-- The V_target up to which the raise test must pass before the raises are sent (R246, R262). -/
  awaiting : Option Nat
  /-- A revocation has arrived: removed at the next boundary (R229). -/
  leaving  : Bool
  phases   : List Nat
  cycle    : Bool
deriving DecidableEq, Repr

/-- A group slot of a governor (R269, R274, R278). -/
structure GSlot where
  gid     : Nat
  members : List Nat
  /-- m_r, and the m_r last sent (R274). -/
  mR      : Nat := 64
  sentMR  : Nat := 64
  /-- Highest STEP reported; the step being judged: reports, laggards, their T, least W of the rest, summary sent (R281). -/
  topStep : Word := 0
  reps    : List Nat := []
  lag     : Nat := 0
  lagT    : Nat := 0
  wMin    : Option Nat := none
  sent    : Bool := false
  /-- Every governor has accepted: the slot stands in the member Chives (R270 step 4). -/
  written : Bool := false
  /-- Released: freed at the next boundary, its members' codes set to 64 (R271). -/
  closing : Bool := false
deriving DecidableEq, Repr

/-- A multicast at a governor (R342, R343); one that has ended keeps its figures for a new owner's request (R346, R350). -/
structure RMulti where
  slot    : Nat
  /-- Which of the hub's multicasts it is. -/
  no      : Nat := 0
  ended   : Bool := false
  okCnt   : Nat := 0
  other   : List Nat := []
  cancelled : Nat := 0
  waiting : List Nat := []
  age     : Nat := 0
deriving DecidableEq, Repr

/-- The causes of a roll-up (R406): latched in the cause register, held now, reported to the collectors. -/
structure RollUp where
  latched : BitVec 16 := 0
  held    : BitVec 16 := 0
deriving DecidableEq, Repr

/-- The caps and the limiter bus of a region (R47, R157–R172, R183). -/
structure Caps where
  iReg      : Nat := 640
  /-- The cap as the non-emergency lowerings leave it: what an emergency action takes from `iReg` it keeps (R204, R280). -/
  calm      : Nat := 640
  lastAck   : Nat := 640
  /-- A cap received and waiting for the boundary, with the latch clear. -/
  waiting   : Option (Nat × Bool) := none
  /-- An emergency preset waiting for the boundary; whether one is in force (R20, R56). -/
  ecapWait  : Option Nat := none
  ecap      : Bool := false
  /-- Acknowledgement owed once the last member has landed (R278). -/
  ackOwed   : Bool := false
  guardLeft : Nat := 0
  guardCnt  : Nat := 0
  busErr    : Nat := 0
  holdRegion : Bool := false
  alert     : Bool := false
  alertGone : Bool := false
  /-- Rows paused under R172, bit g; standing slope of each row (R167). -/
  paused    : BitVec 24 := 0
  slopes    : List Nat := List.replicate 24 7
deriving DecidableEq, Repr

/-- A region governor and its region. -/
structure Region where
  clusters : SMap Cluster := ⟨{}, []⟩
  sp       : Setpoint := {}
  spec     : Spec := {}
  sage     : Sage := {}
  trust    : Trust := {}
  diodes   : SMap Diode := ⟨{}, []⟩
  vmons    : SMap VMon := ⟨{}, []⟩
  vmonWait : Nat := 0
  /-- Reading rounds of the 16-period block: sums of the paired terms, and their count (R175). -/
  gridSum  : Int := 0
  gridCnt  : Nat := 0
  /-- The same of the block just ended, until GRID_BLOCK_END takes it. -/
  gridEnd  : Option (Int × Nat) := none
  dig      : Digitiser := {}
  ph       : Phases := {}
  margin   : Margin := {}
  therm    : Therm := {}
  caps     : Caps := {}
  /-- Quiet-window history of R176: one Bool per period, newest first. -/
  quiet    : List Bool := []
  tripsNow : Nat := 0
  confNow  : Bool := false
  resvs    : List Resv := []
  slots    : List GSlot := []
  lateCnt  : Nat := 0
  multis   : List RMulti := []
  deriving DecidableEq, Repr

/-- The rest of a governor: engine clock, epoch, message counters, roll-ups, gates. -/
structure Gov where
  engine    : Bool := false
  kept      : List Word := []
  epoch     : Word := 0
  staleCnt  : Nat := 0
  badCnt    : Nat := 0
  lateAck   : Nat := 0
  lastMsgs  : List (Nat × Nat × Nat) := []
  rtherm    : RollUp := {}
  rsupply   : RollUp := {}
  rctrl     : RollUp := {}
  safe      : Bool := false
  gsClosed  : Bool := false
  grClosed  : Bool := false
  gwClosed  : BitVec 24 := 0
  /-- Commit and release words received for a period: copies passing their check, copies failing (R245). -/
  words     : List (TreeWord × Bool) := []
  badCopies : List (BitVec 48 × Bool) := []
  /-- The root that the region's root select follows (R383, R461). -/
  root      : Hub := .a
  /-- The array was turned on, and its configuration ended without error (R458 steps 9 and 10, R464). -/
  arrayOn   : Bool := false
  pmbusDone : Bool := false
  /-- The array's VOUT_MODE as read at step 9: where it is not ULINEAR16, no VOUT_MAX is written to it (R507). -/
  voutMode  : Nat := 0
  badMode   : Bool := false
  /-- GRID_MAX changed and VOUT_MAX is not yet written, since no hub owns (R18, R507). -/
  voutDue   : Bool := false
  /-- READ_VOUT and READ_IOUT of the latest package period (R91, R144, R507). -/
  vout      : Nat := 0
  iout      : Nat := 0
deriving DecidableEq, Repr

/-! ### Outward effects -/

/-- A transaction of a PMBus master on a port: a command of R507's table written with its value, sent alone, or read; or the
Alert Response Address read (R506). -/
inductive PmbusTx where
  | write (cmd : Byte) (value : Nat)
  | send (cmd : Byte)
  | read (cmd : Byte)
  | alertResponse
deriving DecidableEq, Repr

/-- A message on the management class (R326), by what it says; its receiver's row takes the same content. -/
inductive Msg where
  | cap (r : Nat) (cap : Nat) (clear : Bool)
  | capAck (r : Nat) (cap : Nat)
  | ecap (presets : List Nat)
  | reserve (r : Nat) (index q total : Nat) (clusters phases : List Nat) (cycle : Bool)
  | reserveReply (r : Nat) (index : Nat) (accept : Bool) (vFrom : Nat)
  | stagingRelease (r : Nat) (index : Nat)
  | inForce (r : Nat) (index : Nat)
  | revoke (r : Nat) (index : Nat)
  | removed (r : Nat) (index : Nat)
  | stateQuery (r : Nat) (index : Nat)
  | stateReply (r : Nat) (index : Nat) (inForce : Bool)
  | modelImage (r : Nat) (len : Nat)
  | modelReport (r : Nat) (reason : Nat)
  | modelSwitch (r : Nat) (period : BitVec 48)
  | modelAck (r : Nat)
  | slotRequest (r gid : Nat)
  | slotReply (r gid : Nat) (accept : Bool)
  | slotRelease (r gid : Nat)
  | arm (r gid code : Nat) (sT : Word)
  | armToChive (c code : Nat) (sT : Word)
  | armAck (r gid : Nat)
  | mR (r gid m : Nat)
  | stepReport (c : Nat) (step : Word) (t w k : Nat)
  | lagSummary (r gid : Nat) (lag : Nat) (wMin : Option Nat)
  | late (r gid : Nat)
  | stall (c : Nat) (clear : Bool)
  | pmbus (r : Nat) (op : PmbusOp)
  | post (r slot : Nat) (mask : BitVec 576) (msg : List Byte)
  | chivePost (c slot : Nat)
  | chiveAck (c slot : Nat) (code : Byte) (result : Word)
  | chiveCancel (c slot : Nat)
  | summary (r slot : Nat) (ok other cancelled waiting : Nat) (lowestOther lowestWait : Option Nat) (final asked : Bool)
  | summaryRequest (r slot : Nat)
  | heartbeat (h : Hub) (epoch : Word) (role : Nat) (yield drop : Bool)
  | claim (r : Nat) (epoch : Word)
  | claimReply (r : Nat) (epoch : Word)
  | probe (r : Nat)
  | probeReply (r : Nat) (epoch : Word)
  | margin (r m : Nat)
  | trim (r t : Nat)
  | ageRead (c : Nat)
  | shadows (r : Nat) (due : BitVec 48) (offset : Nat) (word : Word)
  | fwCode (r : Nat)
  | debug (c : Nat)
  | clearCause (r roll : Nat)
  | epochToChives (r : Nat) (epoch : Word)
deriving DecidableEq, Repr

/-- The header flit of a message sent (R326): REPLY, RESEND, the flits, SRC, DST, SEQ and EPOCH. TYPE is the message's
constructor; its number, and CHECK with it, are not given (notes/assumptions/44.md). -/
structure Head where
  reply  : Bool
  resend : Bool
  flits  : Nat
  src    : Nat
  dst    : Nat
  seq    : Nat
  epoch  : Word
deriving DecidableEq, Repr

/-- What leaves Renoth at a port: a message, a host-memory write, an interrupt, a frame, a pin. -/
inductive Effect where
  | msg (m : Msg) (h : Head)
  | ringRead (ring : Nat) (addr : Nat)
  | ringWrite (ring : Nat) (addr : Nat) (bytes : List Byte)
  | imageWrite (addr : Nat) (bytes : List Byte)
  | msix (vector : Nat)
  | readData (offset : Nat) (value : Word)
  | commitWord (period : BitVec 48) (indices : List Nat) (epoch : Word)
  | releaseWord (period : BitVec 48) (indices : List Nat) (epoch : Word)
  | safeLevel
  | limiterWord (r : Nat) (word : Word)
  /-- A write frame of a region's AVSBus master and its 32 bits. -/
  | avsFrame (r : Nat) (f : Frame) (word : Word)
  /-- A Status read of a region's array, or its Version read (R504), and its 32 bits: the answer does nothing in any rule. -/
  | avsRead (r : Nat) (version : Bool) (word : Word)
  /-- A sideband target's dynamic address is assigned equal to its static one (R510). -/
  | setdasa (bus addr : Nat)
  /-- The fields of a heartbeat block that a hub sends over the mirror link (R387), and the journal entries in the rest of its
  payload, first and last. -/
  | beatBlock (h : Hub) (epoch : Word) (role : Nat) (yield drop : Bool) (lanes : BitVec 4) (period : BitVec 48)
      (txSeq ackSeq sweepPos : Nat) (entries : Option (Nat × Nat))
  /-- A write of hub `h` on its package sideband; every other hub's drivers are at high impedance (R18). -/
  | sideband (h : Hub) (ch : Child) (level heaterMw : Nat)
  /-- A transaction of the PMBus master in the governor of region `corner`, at one of its four ports and an address (R506). -/
  | pmbus (corner port addr : Nat) (tx : PmbusTx)
  | pin (name : String) (h : Hub) (low : Bool)
  | tdo (h : Hub) (bits : Nat)
  | boundary (h : Hub) (bits : List Bool)
  | nmi (src : Nat)
  /-- The BLOCK reaction resets the block of R407 that a source, or a cause of a roll-up, names. -/
  | blockReset (src cause : Nat)
  | tree (root : Hub) (epoch : Word)
deriving DecidableEq, Repr

/-! ### Hub, mirrored part -/

/-- A ring (R291–R294, R319, R324). -/
structure Ring where
  pi      : Word := 0
  ci      : Word := 0
  stopped : Bool := false
  dbErr   : Bool := false
  memErr  : Bool := false
  hold    : Bool := false
  restart : Bool := false
  /-- Entries since the latest signal of the ring's vector, and whether COAL_US runs (R319). -/
  coalCnt : Nat := 0
  coalOn  : Bool := false
deriving DecidableEq, Repr

/-- A command entry taken and not finally completed (R297, R298). -/
structure Taken where
  ring    : Nat
  index   : Word
  opcode  : Nat
  flags   : Nat
  count   : Nat
  tag     : Nat
  entry   : List Byte
  body    : List Byte
  /-- Its execution has begun; the work in hand refers to it by ring and order. -/
  started : Bool := false
  order   : Nat
  /-- The period count at its taking (R373). -/
  since   : BitVec 48 := 0
deriving DecidableEq, Repr

/-- A completion waiting to be written (R295, R309, R390). -/
structure Completion where
  ring   : Nat
  index  : Word
  opcode : Nat
  tag    : Nat
  code   : Nat
  detail : Nat
  result : List Byte
  interim : Bool := false
  /-- The journal entry that carries it (R390, R396). -/
  jn     : Nat := 0
deriving DecidableEq, Repr

/-- A telemetry record waiting for a slot (R311, R314). -/
structure TelRec where
  type   : Nat
  region : Nat
  period : BitVec 48
  body   : List Byte
  sub    : Bool
  jn     : Nat := 0
deriving DecidableEq, Repr

/-- A subscription item in force (R313). -/
structure SubItem where
  type  : Nat
  decim : Nat
  mask  : BitVec 64
deriving DecidableEq, Repr

/-- The ring engine (R290–R319). -/
structure Rings where
  ring     : SMap Ring := ⟨{}, []⟩
  lastRing : Nat := 7
  taken    : List Taken := []
  order    : Nat := 0
  comps    : List Completion := []
  tel      : List TelRec := []
  tseq     : Word := 0
  drop     : Word := 0
  lost     : Word := 0
  lossDue  : Nat := 0
  subs     : List SubItem := []
deriving DecidableEq, Repr

/-- States of a grant table entry (R261). -/
inductive GrantState where
  | free | reserving | decided | delivering | inForce
deriving DecidableEq, Repr

/-- A grant table entry (R261, R310). -/
structure Grant where
  state    : GrantState := .free
  gen      : Nat := 0
  missed   : Bool := false
  extended : Bool := false
  cycle    : Bool := false
  phases   : List Nat := []
  tag      : Nat := 0
  /-- The group whose clusters the body names; 0 where it names rectangles (R236). -/
  gid      : Nat := 0
  limitUs  : Nat := 0
  duration : Nat := 0
  durLeft  : Nat := 0
  commitP  : BitVec 48 := 0
  dUs      : Nat := 0
  /-- V_target of R249, mV (R262). -/
  target   : Nat := 0
  /-- Clusters held, by region: region, q, local clusters. -/
  spans    : List (Nat × Nat × List Nat) := []
  sSum     : Nat := 0
  nClus    : Nat := 0
  order    : Nat := 0
  cmd      : Option CmdRef := none
  accepts  : List (Nat × Nat) := []
  /-- The round ends without a grant, with this detail of REJ_PARTIAL, once the scheduler core runs (R243, R366). -/
  ends     : Option Nat := none
  reports  : List Nat := []
  /-- Spanned regions that have reported the removal, once a release is on its way; its cause, the commands. -/
  releasing : Option (List Nat) := none
  relCmds  : List CmdRef := []
  relCause : Nat := 0
  /-- The journal entry that carries the decision (R244); the period in which it was mirrored (R245). -/
  decidedJ : Nat := 0
  decidedN : Option (BitVec 48) := none
  /-- The journal entry that carries a release whose word waits for it (R390). -/
  relJ     : Option Nat := none
  timerOn  : Bool := false
  suspended : List Nat := []
deriving DecidableEq, Repr

/-- Thyme (R241–R265). -/
structure Thyme where
  table    : SMap Grant := ⟨{}, []⟩
  order    : Nat := 0
  miss     : Word := 0
  revoke   : Word := 0
  partialC : Word := 0
  /-- Words to send: period, indices, release or commit. -/
  words    : List (BitVec 48 × List Nat × Bool) := []
  drain    : Bool := false
  ecapSettle : Bool := false
  /-- Regions that tripped while the scheduler core did not run (R202). -/
  tripsDue : List Nat := []
deriving DecidableEq, Repr

/-- A group as the hub holds it (R267–R271): the definition, its regions with their member counts, its home region, the
slot replies still awaited and the defining command. -/
structure Group where
  flags    : Nat
  lead     : Nat
  key      : Word
  regions  : List Nat
  counts   : List (Nat × Nat)
  /-- The members by region, as defined (R268). -/
  members  : List (Nat × List Nat) := []
  home     : Nat
  awaiting : List Nat := []
  /-- A region refused its slot; the definition ends once the scheduler core runs. -/
  refused  : Bool := false
  cmd      : Option CmdRef := none
  defined  : Bool := false
deriving DecidableEq, Repr

/-- What the home governor of a group holds (R274–R276, R282–R284): the code in force, H, R_remote with the S_t in force,
the regions' m_r, the waiting arm with the regions that have not acknowledged it, the harvest counts. -/
structure Home where
  g        : Nat := 64
  h        : Nat := 64
  rRemote  : Nat := 64
  relayS   : Option Word := none
  /-- S_t of a relayed code still to be armed; the relay commands that wait for that arm, and those of the waiting arm. -/
  relayDue : Option Word := none
  relays   : List CmdRef := []
  armRelays : List CmdRef := []
  mRs      : List (Nat × Nat) := []
  raiseRun : Nat := 0
  raiseNow : Bool := false
  armed    : Option (Nat × Word) := none
  ackWait  : List Nat := []
  late     : Bool := false
  /-- The step that the summaries at hand report, its laggards, T, least W, and the regions that reported. -/
  sumStep  : Word := 0
  sumLag   : Nat := 0
  sumT     : Nat := 0
  sumW     : Option Nat := none
  sumFrom  : List Nat := []
  lagRun   : Nat := 0
  okRun    : Nat := 0
  harvest  : Bool := false
deriving DecidableEq, Repr

/-- Groups of the wafer (R269, R289). -/
structure Groups where
  defs     : List (Nat × Group) := []
  landed   : Word := 0
  harvests : Word := 0
deriving DecidableEq, Repr

/-- A CAP_SET item waiting for its boundary or its acknowledgements (R301, R302, R50). -/
structure CapItem where
  level   : Nat
  kind    : Nat
  index   : Nat
  ceiling : Nat
  /-- 0 waiting for its boundary, 1 applied, 2 divided again, 3 in force (R50). -/
  phase   : Nat := 0
  floored : Bool := false
deriving DecidableEq, Repr

/-- A CAP_SET entry in hand. -/
structure CapCmd where
  cmd   : CmdRef
  items : List CapItem
  ecap  : Bool := false
deriving DecidableEq, Repr

/-- Budgets and the package supervisor (R38–R55, R85–R87, R192–R197). -/
structure Budget where
  pPkg     : Nat := 25600
  pWaf     : Nat := 0
  /-- P_waf in force, a lowering not yet acknowledged counting at its old value (R47); the loop has divided by `pWaf`. -/
  pWafIn   : Nat := 0
  wafRun   : Bool := false
  iWaf     : Nat := 0
  iAvail   : Nat := 0
  /-- lo[r] of the latest wafer period (R192). -/
  loWafer  : List Nat := List.replicate 64 0
  /-- Stack and optics: thermal level, host level, level sent, level last acknowledged, level that counts: the lowest that
  may be in force (R47, R48). -/
  tStack   : List Nat := List.replicate 16 0
  hStack   : List Nat := List.replicate 16 0
  lStack   : List Nat := List.replicate 16 0
  aStack   : List Nat := List.replicate 16 0
  cStack   : List Nat := List.replicate 16 0
  uOpt     : List Nat := List.replicate 32 0
  hOpt     : List Nat := List.replicate 32 0
  lOpt     : List Nat := List.replicate 32 0
  aOpt     : List Nat := List.replicate 32 0
  cOpt     : List Nat := List.replicate 32 0
  /-- Heater power granted and requested, mW. -/
  heater   : List Nat := List.replicate 32 0
  heatReq  : List Nat := List.replicate 32 0
  /-- Package periods a level has stood unacknowledged, the sending one included, stacks 0–15, engines 16–47; 16 more once
  CHILD_ACK_TIMEOUT has acted (R197); of them, those since a lowering (R49). -/
  unack    : SMap Nat := ⟨0, []⟩
  lowAge   : SMap Nat := ⟨0, []⟩
  stackT   : List (Option Int) := List.replicate 16 (some 0)
  laserT   : List (Option Int) := List.replicate 32 (some 0)
  driverT  : List (Option Int) := List.replicate 32 (some 0)
  /-- Thermal periods left until a failed child reading has recovered (R87). -/
  childFail : SMap Nat := ⟨0, []⟩
  regCeil  : SMap (Option Nat) := ⟨none, []⟩
  caps     : List CapCmd := []
  /-- Remainders of the latest division of the package, in W, and of the wafer, in 0.25 A (R52). -/
  pendPkg  : Nat := 0
  pendWaf  : Nat := 0
  /-- Lowered caps not yet acknowledged: region, cap, wafer periods since; regions counted at their last acknowledged
  cap (R49); raises that wait for the lowerings: region, cap, latch clear. -/
  lowering : List (Nat × Nat × Nat) := []
  silent   : List Nat := []
  raising  : List (Nat × Nat × Bool) := []
  /-- The presets at the emergency cap's entry or at the latest run of the loop since (R205, R482). -/
  presets  : List Nat := []
  /-- The mirrored I_th and trip-release counts of the latest run of the loop: I_th, HOLD_LEFT, line seen (R191, R205). -/
  ths      : List (Nat × Nat × Bool) := []
  /-- PMBus masters whose governor answers no read (R22). -/
  mute     : List Nat := []
deriving DecidableEq, Repr

/-- One coolant pair (R86, R87): the figure in use, periods left of a failure's recovery, the mismatch episode, periods
of disagreement and of agreement in a row. -/
structure CoolPair where
  temp  : Int := 0
  fail  : Nat := 0
  bad   : Bool := false
  diff  : Nat := 0
  agree : Nat := 0
deriving DecidableEq, Repr

/-- Coolant figures (R86, R87, R187, R196, R208); the inlet-limit episode and the periods at or below the limit. -/
structure Coolant where
  inlet    : CoolPair := {}
  outlet   : CoolPair := {}
  limSeen  : Bool := false
  limLow   : Nat := 0
deriving DecidableEq, Repr

/-- The emergency cap (R320, R325). -/
structure Ecap where
  pinA    : Bool := false
  pinB    : Bool := false
  hard    : Bool := false
  active  : Bool := false
  entries : Nat := 0
  /-- Ended, restoration waiting for a wafer period (R59). -/
  restore : Bool := false
deriving DecidableEq, Repr

/-- An event record (R427). -/
structure Rec where
  seq    : BitVec 48
  rep    : Nat
  code   : Nat
  level  : Nat
  argx   : Nat
  source : Nat
  arg    : Word
  /-- The journal entry that carries its append or its close (R390, R433). -/
  jn     : Nat := 0
  /-- Control-period boundaries since it closed, while it is not exported; two count like more (R315). -/
  age    : Nat := 0
deriving DecidableEq, Repr

/-- The event recorder (R427–R437): the records held, oldest first; the append queue. -/
structure Recorder where
  head     : BitVec 48 := 0
  exported : BitVec 48 := 0xFFFFFFFFFFFF
  recs     : List Rec := []
  openRec  : Bool := false
  sinceRep : Nat := 0
  sinceApp : Nat := 0
  /-- REPEAT of the open record as last journaled (R433). -/
  repSent  : Nat := 1
  flush    : Bool := false
  /-- The append queue; collector records that found it full; firmware appends that wait for a place (R431). -/
  queue    : List Rec := []
  held     : List Rec := []
  fwWait   : List Rec := []
  lostBlk  : Nat := 0
deriving DecidableEq, Repr

/-- The host mailbox (R336–R340, R352). -/
structure HostMb where
  slots   : SMap Slot := ⟨{}, []⟩
  turn    : Nat := 0
  amask   : Word := 0xFFFFFFFF
  wrErr   : Bool := false
  retaken : Nat := 0
deriving DecidableEq, Repr

/-- A multicast at the hub (R342, R343, R346): its Chive slot and message, the regions named with their member masks, those
whose governor has not received its post, those whose final summary has not arrived. -/
structure Multi where
  slot    : Nat
  /-- Its number among the hub's multicasts. -/
  no      : Nat := 0
  msg     : List Byte
  posts   : List (Nat × BitVec 576)
  due     : List Nat
  waiting : List Nat
  raised  : Bool := false
  /-- Targets still waiting in the latest summary of each region (R353 WAITING). -/
  late    : List (Nat × Nat) := []
deriving DecidableEq, Repr

/-- Ageing (R219–R223). -/
structure Ageing where
  poweredS  : BitVec 64 := 0
  subUs     : Nat := 0
  intervals : Word := 0
  exportTo  : Nat := 0
  refSlack  : SMap Nat := ⟨0xFF, []⟩
  nextAt    : Nat := 86400
  /-- Regions in LIMIT whose recompute waits for their engine clock (R218, R219). -/
  waiting   : List Nat := []
  /-- Wafer periods since the latest margin evaluation (R212). -/
  evalRun   : Nat := 0
deriving DecidableEq, Repr

/-- A model load in progress (R118). -/
structure ModelLoad where
  cmd     : CmdRef
  mask    : BitVec 64
  image   : List Byte
  reports : List Nat := []
  resent  : List Nat := []
  switchP : Option (BitVec 48) := none
  acks    : List Nat := []
  started : Bool := false
deriving DecidableEq, Repr

/-- A firmware image as a bank holds it (R356). -/
structure FwImage where
  target   : Nat
  version  : Word
  secVer   : Nat
  stateVer : Nat
  bytes    : List Byte
deriving DecidableEq, Repr

/-- A firmware core of a hub (R354, R365–R368, R380). -/
structure HubCore where
  state    : CoreState := .empty
  bank     : Bool := false
  bank0    : Option FwImage := none
  bank1    : Option FwImage := none
  restarts : Nat := 0
  mpuViol  : Nat := 0
  /-- Wafer periods at which it restarted, newest first (R367). -/
  recent   : List Nat := []
  why      : Nat := 0
  data     : SMap Word := ⟨0, []⟩
  /-- While it is halted: the words of `data` and the processor registers that the debug port has read or written. -/
  seen     : List Nat := []
  regs     : List (Word × Word) := []
  /-- Number, address, and the hub whose port set it (R489). -/
  breakpts : List (Nat × Word × Hub) := []
  haltWhy  : Nat := 0
  nmiHeld  : Option Nat := none
  /-- The restart in hand is a bank switch of an activation. -/
  switching : Bool := false
  /-- It runs for an activation although it was stopped; success clears the stop (R367, R377). -/
  stopHeld  : Bool := false
deriving DecidableEq, Repr

/-- An activation waiting or in progress (R372–R377). -/
structure Activation where
  cmd      : CmdRef
  target   : Nat
  deadline : Nat
  /-- The period count at the taking of the entry (R373). -/
  since    : BitVec 48 := 0
  deferred : Bool := false
  /-- Its DEFERRED completion has been given (R13). -/
  said     : Bool := false
  /-- The step of R372 reached: 2 waiting for the emergency to end, 3 draining, 4 standby, 5 owner; 4 for the waves of
  target 3. -/
  step     : Nat := 2
  wave     : Nat := 0
  drained  : Nat := 0
  /-- A core failed: the others are switched back (R376). -/
  back     : Bool := false
  /-- The active banks of the target's cores at hub A and hub B as the activation began. -/
  fromA    : Bool := false
  fromB    : Bool := false
deriving DecidableEq, Repr

/-- Firmware of the pair (R369–R380). -/
structure Firmware where
  chive0    : Option FwImage := none
  chive1    : Option FwImage := none
  chiveBank : Bool := false
  /-- A TARGET 3 stage whose governors have not all reported (R369). -/
  stageCmd  : Option CmdRef := none
  stageImg  : Option FwImage := none
  stageWait : List Nat := []
  /-- A copy of it could not be confirmed (R370). -/
  stageBad  : Bool := false
  act       : Option Activation := none
deriving DecidableEq, Repr

/-- A shadow of a set-up register: offset, word, the period of its apply boundary once due is counted (R474, R475). -/
structure Shadow where
  offset : Nat
  word   : Word
  /-- The bits written: the others read and apply as the in-force word. -/
  mask   : Word
  /-- The period count of the apply boundary; none while HOLD keeps the shadow from becoming due (R477). -/
  due    : Option Nat
  /-- A region-block shadow has reached its governor (R475). -/
  sent   : Bool
deriving DecidableEq, Repr

/-- A held instance of a set-up group (R478, R479). -/
structure HeldInst where
  gid     : Nat
  idx     : Nat
  periods : Nat
  raised  : Bool := false
deriving DecidableEq, Repr

/-- The set-up registers and the register-control block (R467–R483): in-force words over the reset words. -/
structure Setup where
  words     : List (Nat × Word) := []
  shadows   : List Shadow := []
  held      : List HeldInst := []
  hold      : Bool := false
  shadowSel : Bool := false
  lockWr    : Bool := false
  accErr    : Bool := false
  applyLate : Bool := false
  /-- The wide-value window; the region it waits for and the period count of the apply boundary (R475, R481). -/
  wvWid     : Nat := 0
  wvIdx     : Nat := 0
  wvValid   : Bool := false
  wvBad     : Bool := false
  wvToken   : BitVec 8 := 0
  wvValue   : BitVec 64 := 0
  wvDue     : Option (Nat × Nat) := none
  gateCtl   : Word := 0
  gateRes   : Nat := 0
  /-- The node that the latest request of the host named: KIND and INDEX. -/
  gateAsk   : Option (Nat × Nat) := none
deriving DecidableEq, Repr

/-- The mirrored image of the owning hub (R389). The set-up registers stand beside it in `State.setup`, one copy for
both hubs, since every write reaches both (R391, R482). -/
structure Shared where
  rings   : Rings := {}
  thyme   : Thyme := {}
  groups  : Groups := {}
  budget  : Budget := {}
  coolant : Coolant := {}
  ecap    : Ecap := {}
  recorder : Recorder := {}
  mb      : HostMb := {}
  /-- Open multicasts, which are the Chive slots in use (R346); multicasts held until one closes (R342). -/
  multis  : List Multi := []
  heldMultis : List Multi := []
  stalls  : List Nat := []
  ageing  : Ageing := {}
  loads   : List ModelLoad := []
  fw      : Firmware := {}
  /-- Multicasts opened so far. -/
  multiNo : Nat := 0
  /-- The highest class, plus one, whose reactions to a source's pending event the owner has performed (R389, R424); 0 once the
  event is cleared. The escalation counts of the sources at the owner's collector. -/
  reacted : SMap Nat := ⟨0, []⟩
  fcCounts : SMap (List (Nat × Nat)) := ⟨[], []⟩
  /-- Words of the RETAIN regions of the owner's cores that were written, by 65,536 × the core + the word (R389). -/
  retain  : List (Nat × Word) := []
deriving DecidableEq, Repr

/-! ### Collector, pair, clocks, start, debug -/

/-- One source at a collector (R412, R418, R426). -/
structure Source where
  pend    : Bool := false
  cls     : Nat := 0
  forced  : Bool := false
  broken  : Bool := false
  merged  : Nat := 0
  cause   : BitVec 16 := 0
  arg     : Nat := 0
  /-- Event periods per cause, within the window. -/
  counts  : List (Nat × Nat) := []
  /-- The event counts toward FAULT_N (R414); its record waits, for the latch of its cause register or for a lower-numbered
  source's of the same sample (R415, R424); the latch has come. -/
  pin     : Bool := false
  recDue  : Bool := false
  latchIn : Bool := false
  /-- The sample that took the event. -/
  sample  : Nat := 0
deriving DecidableEq, Repr

/-- A collector (R405–R426). -/
structure Collector where
  sources   : SMap Source := ⟨{}, []⟩
  start     : Bool := true
  test      : Bool := false
  suppress  : Bool := true
  recovery  : Bool := false
  frozen    : Bool := false
  clrRefused : Bool := false
  nmiBusy   : Bool := false
  nmiSrc    : Nat := 0
  nmiMerged : Nat := 0
  /-- Sources that came due during the handling (R418). -/
  nmiAgain  : List Nat := []
  safeOfs   : Nat := 0
  safeMode  : Nat := 0
  crst      : Bool := false
  /-- Control-period boundaries left of the request, the running period's included (R501). -/
  crstLeft  : Nat := 0
  monFault  : Bool := false
  /-- Events of wafer-wide sources behind a broken pair that no poll has found yet: source, cause (R410). -/
  missed    : List (Nat × Nat) := []
  /-- Samples taken, for the order of the records (R424). -/
  sample    : Nat := 0
  /-- ACTIVE of the sources and the period count when it froze (R420). -/
  frozenAct : List Nat := []
  frozenAt  : Nat := 0
deriving DecidableEq, Repr

/-- An event waiting at a source (R408). -/
structure Event where
  src    : Nat
  cause  : Nat
  arg    : Nat := 0
  forced : Bool := false
  /-- A least class other than the cause's own (R407 FW_CORE, cause 1). -/
  least  : Option Nat := none
  /-- The core that a BLOCK reaction would reset (R407 FW_PROT, FW_MEM). -/
  core   : Option CoreId := none
  /-- Found by the poll of a broken pair's cause register (R410). -/
  polled : Bool := false
deriving DecidableEq, Repr

/-- Roles of a hub (R381). -/
inductive Role where
  | owner | resyncing | valid | fenced | absent
  /-- An owner that has yielded and waits for the claim to reach it (R400 step 5). -/
  | yielding
deriving DecidableEq, Repr

/-- START_STAT and the start of one hub (R458–R461, R466). -/
structure Start where
  step     : Nat := 0
  path     : Bool := false
  monTrip  : Bool := false
  noEntry  : Bool := false
  selfFail : Bool := false
  claimed  : Bool := false
  done     : Bool := false
  fbDly    : Nat := 0
  /-- The period count when its clocks started, step 4. -/
  since    : Nat := 0
  attempts : Nat := 0
  ended    : Bool := false
deriving DecidableEq, Repr

/-- Debug grant and port of one hub (R486–R492). -/
structure Debug where
  instr     : Nat := 2
  challenge : Option (List Byte) := none
  reqScope  : BitVec 6 := 0
  scope     : BitVec 6 := 0
  authCode  : Nat := 0
  authDetail : Nat := 0
  status    : Nat := 0
  why       : Nat := 0
  data      : Word := 0
  /-- UNIT, CLUSTER and ADDR of the latest operation (R490). -/
  unit      : Nat := 0
  cluster   : Nat := 0
  addr      : Word := 0
  pendOp    : Option Nat := none
  /-- What the reply to it will bring: STATUS, WHY, DATA. -/
  pendRes   : Nat × Nat × Word := (0, 0, 0)
  halted    : List CoreId := []
  bpCores   : List CoreId := []
  boundary  : List Bool := []
  driving   : Bool := false
deriving DecidableEq, Repr

/-- One hub's own part: role, epoch, link, cores, collector, start, debug. -/
structure HubSt where
  role      : Role := .absent
  /-- The epoch it owns with, or the owner's as its heartbeats last gave it. -/
  epoch     : Word := 0
  /-- Control periods since a good heartbeat of the other hub on either path, since a good mirror block, since a good
  HEARTBEAT message (R393, R398, R399). -/
  silentHb  : Nat := 0
  silentMir : Nat := 0
  silentMgmt : Nat := 0
  /-- Consecutive good heartbeat blocks from the owner while fenced (R381). -/
  goodRun   : Nat := 0
  dropSent  : Bool := false
  /-- The fatal fault of R393 has been raised for this silence. -/
  fatalSaid : Bool := false
  core0     : HubCore := {}
  core1     : HubCore := {}
  core2     : HubCore := {}
  coll      : Collector := {}
  start     : Start := {}
  dbg       : Debug := {}
  engRunLow : Bool := true
  /-- Its anti-rollback counters, of fuses, as far as they stand above the first fused values (R358, R359). -/
  arbUp     : List Nat := [0, 0, 0, 0]
  /-- Highest journal entry, and highest block of the mirror link, received good in unbroken order (R387, R388); the highest block
  of its own that the other hub has acknowledged. -/
  rxGood    : Nat := 0
  rxSeq     : Nat := 0
  ackSeen   : Nat := 0
deriving DecidableEq, Repr

/-- The pair and the mirror link (R381–R404). -/
structure Pair where
  paired    : Bool := false
  degraded  : Bool := false
  lanes     : BitVec 4 := 0xF
  hoRefused : Bool := false
  handovers : Nat := 0
  failovers : Nat := 0
  /-- Dropped lanes that retrain under a BLOCK reaction of MIRROR (R407, R512). -/
  training  : BitVec 4 := 0
  corrBlk   : Nat := 0
  badBlk    : Nat := 0
  /-- Journal entries made, sent, acknowledged; the image after each entry not yet acknowledged; the image as the hub that does
  not own holds it (R389, R436). -/
  jn        : Nat := 0
  sent      : Nat := 0
  acked     : Nat := 0
  journal   : List (Nat × Shared) := []
  image     : Shared := {}
  /-- Blocks with journal entries, not acknowledged: sequence number, first and last entry (R388); TX_SEQ of each hub's latest
  block (R387); journal blocks of this period, and the most of one period (R386, R404). -/
  blocks    : List (Nat × Nat × Nat) := []
  txA       : Nat := 0
  txB       : Nat := 0
  jUsed     : Nat := 0
  hwm       : Nat := 0
  /-- Image offset of the next sweep block in 512-byte units (R387); blocks of sweep and banks that a resync still has to send
  (R401). -/
  sweepPos  : Nat := 0
  sweepLeft : Nat := 0
  heldEff   : List (Nat × Effect) := []
  /-- Handover: 0 none, 1 stop at the next boundary, 2 waiting for acknowledgements, 3 YIELD sent, 4 YIELD received. -/
  handStep  : Nat := 0
  /-- Governors whose reply to CLAIM is awaited, boundaries since it was sent, what it follows: 0 start, 1 promotion,
  2 handover (R394, R400, R461). -/
  claims    : List Nat := []
  claimAge  : Nat := 0
  claimKind : Nat := 0
  /-- Control periods without a hub in control, for the record of R396. -/
  gap       : Nat := 0
  /-- Governors whose reply to EPOCH_PROBE is awaited (R398). -/
  probes    : List Nat := []
  probing   : Bool := false
deriving DecidableEq, Repr

/-- States of the owning hub's clock loop (R444). -/
inductive ClockSt where
  | stopped | locked | glideDown | coast | fallback | glideUp
deriving DecidableEq, Repr

/-- What a marked switch leads to (R447, R450). -/
inductive SwitchTo where
  | fallback | reference
deriving DecidableEq, Repr

/-- Clocks (R444–R451, R466). -/
structure Clocks where
  st        : ClockSt := .stopped
  refLost   : Bool := false
  fbRun     : Bool := false
  fbEntered : Bool := false
  fbBarred  : Bool := false
  acquire   : Option SwitchTo := none
  marked    : Option SwitchTo := none
  switches  : Nat := 0
  fbFails   : Nat := 0
deriving DecidableEq, Repr

/-- Supplies, resets and the start sequence (R438–R442, R455–R464). -/
structure Power where
  ioUp      : Bool := true
  anaUp     : Bool := true
  coreUp    : Bool := true
  brownOut  : Bool := false
  rstLow    : Bool := false
  resetForce : Bool := false
  regOpen   : Bool := false
  cause     : BitVec 8 := 0
  cold      : Bool := true
  gateSet   : Bool := false
  gateSpent : Bool := false
  startDone : Bool := false
  arraysOn  : Bool := false
  waferRun  : Bool := false
  /-- Microseconds since CRST_REQ_N was last asserted, up to 10,000 (R455). -/
  crstAgo   : Nat := 10000
  /-- Dill stands at its effective thresholds (R458 step 11). -/
  armed     : Bool := false
  /-- The levels at the two ECAP_N pins; the filter runs from step 4 (R502). -/
  ecapLowA  : Bool := false
  ecapLowB  : Bool := false
  gsecA     : Bool := false
  gsecB     : Bool := false
  /-- The paths whose detours exceed the allowance (R32): to the hub by region, between governors by 64 × one + the other,
  to a Chive by cluster. -/
  doubled   : List Nat := []
  doubledGov : List Nat := []
  doubledChive : List Nat := []
deriving DecidableEq, Repr

/-- A management message awaiting its reply at the sender (R329). -/
structure Await where
  src    : Nat
  dst    : Nat
  seq    : Nat
  msg    : Msg
  resent : Bool
deriving DecidableEq, Repr

/-- The sensor trims loaded at cold start (R90): by region × number of sensors a region + number, or by cluster. What a
sensor's reading is before its trim the spec does not say: but for the temperature-and-process monitors the figures that
reach the model carry their trim (notes/assumptions/58.md). -/
structure Trims where
  diode : List (BitVec 8) := []
  comp  : List (BitVec 6) := []
  vmon  : List (BitVec 10) := []
  tp    : List (BitVec 16 × BitVec 4) := []
  age   : List (BitVec 6) := []
  dill  : List (BitVec 6 × BitVec 6) := []
deriving DecidableEq, Repr

/-- The machine. `pending` is the queue of waiting commands, first in first out. -/
structure State where
  pending : List Instr := []
  period  : BitVec 48 := 0
  tick    : Nat := 0
  regions : SMap Region := ⟨{}, []⟩
  govs    : SMap Gov := ⟨{}, []⟩
  hub     : Shared := {}
  homes   : List (Nat × Home) := []
  setup   : Setup := {}
  trims   : Trims := {}
  /-- The engine's defect-map report as it stands at Renoth's port (R32). -/
  report  : DefectReport := {}
  hubA    : HubSt := {}
  hubB    : HubSt := {}
  pair    : Pair := {}
  clk     : Clocks := {}
  pow     : Power := {}
  events  : List Event := []
  latches : List (Nat × Nat) := []
  await   : List Await := []
  seqs    : SMap Nat := ⟨0, []⟩
  hubLast : List (Nat × Nat × Nat) := []
  reads   : List Nat := []
  /-- Blocks that each memory's scrub has read since reset (R423). -/
  scrubAt : Nat := 0
  fresh   : Nat := 0
  out     : List Effect := []
deriving DecidableEq, Repr

/-- Why the machine stops. A command that the spec gives no effect at all ends here; none of the table's rows does
on any path, so no meaning raises this (safe). -/
inductive Fault where
  | noEffectGiven (rule : Nat)
deriving DecidableEq, Repr

/-- Why a command is refused. -/
inductive Refusal where
  /-- Raised by Dispatch.lean for a row without a meaning yet (safe: nothing is claimed of it). -/
  | notModelled (mnemonic : String)
deriving DecidableEq, Repr

/-- The machine right after power-on: all rails up, the start sequence not begun (R441, last row). -/
def State.reset : State := {}

end Sys2Proof.Machine
end

