-- ==== Sys2Proof/Machine/Flags.lean ====
section
/-!
DEFINITION. The set-up registers: where each stands, its reset word, its fields (R93, R127, R147, R181, R206, R231,
R263, R287, R323–R325, R351, R378, R403, R425, R465, R483), its lock and its agreement group (R469–R473), the checks
of the agreement groups, and the in-force value of a field.
-/

namespace Sys2Proof.Machine

/-- A set-up register: reset word, the bits of its RWL fields (the lock bit among them), the bits that belong to an
agreement group, that group's code and index (R471), the offset and bit of the lock of its instance, and whether the
instance takes the region-block margin of R475. -/
structure RegDef where
  reset   : Nat
  fields  : Nat
  agree   : Nat
  code    : Nat
  idx     : Nat
  lockOff : Nat
  slow    : Bool
deriving DecidableEq, Repr

/-- The lock bit is bit 31 of the register that holds it, in every group (R471). -/
def lockMask : Nat := 0x80000000

/-- Offset of region `r`'s block (R469). -/
def regionBase (r : Nat) : Nat := 0x100000 + 0x1000 * r

/-- Offsets of the set-up registers (R469, R470). -/
def offDill (r : Nat) : Nat := regionBase r
def offSense (r : Nat) : Nat := regionBase r + 4
def offSage (r : Nat) : Nat := regionBase r + 0x40
def offCoef (r k : Nat) : Nat := regionBase r + 0x44 + 4 * k
def offSpec (r k : Nat) : Nat := regionBase r + 0x80 + 4 * k
def offAct (r k : Nat) : Nat := regionBase r + 0xC0 + 4 * k
def offMfv (r : Nat) : Nat := regionBase r + 0x140
def offOp (n : Nat) : Nat := 0x7040 + 4 * n
def offTherm (k : Nat) : Nat := 0x5000 + 4 * k
def offPreset (r : Nat) : Nat := 0xA100 + 4 * r
def offRing (k : Nat) : Nat := 0x10000 + 0x20 * k
def offFc (n : Nat) : Nat := 0x21000 + 8 * n

/-- FC_CFG_n after reset, from the table of R407 and the lines below it: BASE, W_SCALE, N and W. -/
def fcCfgReset (n : Nat) : Nat :=
  if n < 64 then 600 <<< 16 ||| 3 <<< 8 ||| 4
  else if n < 192 then 1000 <<< 16 ||| 16 <<< 8
  else match n with
    | 192 | 193 => 1
    | 194 => 1000 <<< 16 ||| 16 <<< 8
    | 195 => 1000 <<< 16 ||| 64 <<< 8
    | 197 | 198 | 199 => 1
    | 200 => 1000 <<< 16 ||| 16 <<< 8
    | 202 => 1
    | 203 | 204 => 1000 <<< 16 ||| 16 <<< 8
    | 205 | 206 | 207 => 1
    | 209 | 210 => 1
    | _ => 0

/-- RING_CFG of ring `k` after reset: VECTOR per R318, SIZE 0. -/
def ringCfgReset (k : Nat) : Nat :=
  if k < 8 then 0 else (k - 8) <<< 8

/-- The fields of RING_CFG of ring `k`: VECTOR is reserved for CMD rings (R323). -/
def ringCfgMask (k : Nat) : Nat := if k < 8 then 0xFFFF001F else 0xFFFF0F1F

/-- The region-block set-up register at block offset `x` (R470). -/
def regionReg (r x : Nat) : Option RegDef :=
  let b := regionBase r
  match x with
  | 0x000 => some ⟨0x00182337, 0x00FFFFFF, 0x00FFFFFF, 1, r, b + 4, true⟩
  | 0x004 => some ⟨0x00002808, 0x8000FFFF, 0, 1, r, b + 4, true⟩
  | 0x040 => some ⟨0x00043001, 0x800FFF03, 0x000FFF03, 3, r, b + 0x40, true⟩
  | 0x044 => some ⟨0x5DC04E20, 0xFFFFFFFF, 0xFFFFFFFF, 2, r, b + 0x40, true⟩
  | 0x048 => some ⟨0x75307530, 0xFFFFFFFF, 0xFFFFFFFF, 2, r, b + 0x40, true⟩
  | 0x04C => some ⟨0x65903E80, 0xFFFFFFFF, 0xFFFFFFFF, 2, r, b + 0x40, true⟩
  | 0x050 => some ⟨0xBB80B3B0, 0xFFFFFFFF, 0xFFFFFFFF, 2, r, b + 0x40, true⟩
  | 0x054 => some ⟨0x0FA0EA60, 0xFFFFFFFF, 0xFFFFFFFF, 2, r, b + 0x40, true⟩
  | 0x058 => some ⟨0x88788090, 0xFFFFFFFF, 0xFFFFFFFF, 2, r, b + 0x40, true⟩
  | 0x05C => some ⟨0x00000060, 0x000000FF, 0x000000FF, 2, r, b + 0x40, true⟩
  | 0x080 => some ⟨0x00641E01, 0x80FFFF01, 0x00FFFF00, 4, r, b + 0x80, true⟩
  | 0x084 => some ⟨0x001000A0, 0x00FF0FFF, 0x00FF0FFF, 4, r, b + 0x80, true⟩
  | 0x0C0 => some ⟨0x01040810, 0x8FF77F7F, 0x0FF77F7F, 5, r, b + 0xC0, true⟩
  | 0x0C4 => some ⟨0x100400FA, 0xFF3F03FF, 0xFF3F03FF, 5, r, b + 0xC0, true⟩
  | 0x0C8 => some ⟨0x3C280505, 0x3F3FFFFF, 0x3F3FFFFF, 5, r, b + 0xC0, true⟩
  | 0x140 => some ⟨0x000002B2, 0x0000FFFF, 0x0000FFFF, 7, 0, 0x6000, true⟩
  | _ => none

/-- The set-up register at a window offset, if one stands there (R469, R470). -/
def regDef (off : Nat) : Option RegDef :=
  if 0x100000 ≤ off ∧ off < 0x140000 then
    regionReg ((off - 0x100000) / 0x1000) ((off - 0x100000) % 0x1000)
  else if 0x7044 ≤ off ∧ off ≤ 0x707C ∧ off % 4 = 0 then
    some ⟨0x00000040, 0xFFFFFFFF, 0xFFFFFFFF, 8, 0, 0x7000, false⟩
  else if 0xA100 ≤ off ∧ off < 0xA200 ∧ off % 4 = 0 then
    some ⟨0x00000280, 0x00000FFF, 0x00000FFF, 0x0B, 0, 0xA000, false⟩
  else if 0x10000 ≤ off ∧ off < 0x10240 then
    let k := (off - 0x10000) / 0x20
    match (off - 0x10000) % 0x20 with
    | 0x00 => some ⟨0, 0xFFFFFFFF, 0xFFFFFFFF, 0x0A, k, 0x10400, false⟩
    | 0x04 => some ⟨0, 0xFFFFFFFF, 0xFFFFFFFF, 0x0A, k, 0x10400, false⟩
    | 0x08 => some ⟨ringCfgReset k, ringCfgMask k, ringCfgMask k, 0x0A, k, 0x10400, false⟩
    | _ => none
  else if 0x21000 ≤ off ∧ off < 0x21800 then
    let n := (off - 0x21000) / 8
    match (off - 0x21000) % 8 with
    | 0 => some ⟨fcCfgReset n, 0xFFFFFF07, 0xFFFFFF07, 0x0E, n, 0x20000, false⟩
    | 4 => some ⟨0x00130100, 0x001F1F1F, 0x001F1F1F, 0x0E, n, 0x20000, false⟩
    | _ => none
  else match off with
  | 0x000C => some ⟨0, 0x8000003F, 0, 0x10, 0, 0x000C, false⟩
  | 0x1000 => some ⟨1, 0x80000003, 0, 0x12, 0, 0x1000, false⟩
  | 0x2000 => some ⟨1, 0x80000001, 0, 0x11, 0, 0x2000, false⟩
  | 0x3000 => some ⟨0x00141464, 0x801FFFFF, 0x000FFFFF, 0x0D, 0, 0x3000, false⟩
  | 0x4000 => some ⟨0x0000003F, 0x8000003F, 0, 0x13, 0, 0x4000, false⟩
  | 0x5000 => some ⟨0x08180348, 0xFFFFFFFF, 0xFFFFFFFF, 6, 0, 0x5004, false⟩
  | 0x5004 => some ⟨0x00A00010, 0x8FFF0FFF, 0x0FFF0FFF, 6, 0, 0x5004, false⟩
  | 0x5008 => some ⟨0x00322D1E, 0x00FFFFFF, 0x00FFFFFF, 6, 0, 0x5004, false⟩
  | 0x500C => some ⟨0x006E505F, 0x00FFFFFF, 0x00FFFFFF, 6, 0, 0x5004, false⟩
  | 0x5010 => some ⟨0x00200A64, 0x007FFFFF, 0x007FFFFF, 6, 0, 0x5004, false⟩
  | 0x6000 => some ⟨0x50046414, 0xFF0FFFFF, 0x7F0FFFFF, 7, 0, 0x6000, true⟩
  | 0x6004 => some ⟨0x0000040C, 0x0000FFFF, 0x0000FFFF, 7, 0, 0x6000, true⟩
  | 0x7000 => some ⟨1, 0x80000001, 0, 8, 0, 0x7000, false⟩
  | 0x8000 => some ⟨0x10104208, 0xFF7FFF3F, 0x7F7FFF3F, 9, 0, 0x8000, false⟩
  | 0x9000 => some ⟨0x138803E8, 0xBFFFFFFF, 0x3FFFFFFF, 0x0C, 0, 0x9000, false⟩
  | 0xA000 => some ⟨0, 0x80000000, 0, 0x0B, 0, 0xA000, false⟩
  | 0x10400 => some ⟨0, 0x80000000, 0, 0x0A, 0, 0x10400, false⟩
  | 0x20000 => some ⟨1, 0x80000001, 0, 0x0E, 0, 0x20000, false⟩
  | _ => none

/-- The reset word of the set-up register at `off`; 0 where none stands. -/
def regReset (off : Nat) : Nat := ((regDef off).map RegDef.reset).getD 0

/-- The in-force word of the set-up register at `off`. -/
def Setup.word (u : Setup) (off : Nat) : Nat :=
  match u.words.find? (fun p => p.1 == off) with
  | some p => p.2.toNat
  | none => regReset off

/-- `u` with the in-force word at `off` replaced; a word equal to the reset word is not listed. -/
def Setup.putWord (u : Setup) (off : Nat) (w : Nat) : Setup :=
  let rest := u.words.filter (fun p => p.1 != off)
  let lo := rest.filter (fun p => p.1 < off)
  let hi := rest.filter (fun p => off < p.1)
  { u with words := if w = regReset off then rest else lo ++ (off, BitVec.ofNat 32 w) :: hi }

/-- The in-force value of the field of width `width` at bit `lo` of the set-up register at `off`. -/
def State.cfg (s : State) (off lo width : Nat) : Nat := bitsOf (s.setup.word off) lo width

/-- A one-bit field in force. -/
def State.cfgBit (s : State) (off i : Nat) : Bool := bitOf (s.setup.word off) i

/-- An 8-bit field read as a signed number. -/
def signed8 (n : Nat) : Int := if n < 128 then n else (n : Int) - 256

/-- A 16-bit field read as a signed number. -/
def signed16 (n : Nat) : Int := if n < 32768 then n else (n : Int) - 65536

/-- The rating ceiling of a region with `h` healthy active phases, 0.25 A (R42): 600 A × h ÷ 22, rounded
down, `h` at most 22. -/
def ratingCeil (h : Nat) : Nat := 2400 * min h 22 / 22

/-- A number lies in a range. -/
def inRange (lo hi x : Nat) : Bool := decide (lo ≤ x) && decide (x ≤ hi)

/-- The check of an agreement group over the image `w`, which gives the word at each offset (R94, R128, R148, R182,
R207, R232, R264, R288, R323, R325, R351, R379, R425). -/
def agreeCheck (w : Nat → Nat) (code idx : Nat) : Bool :=
  let f (off lo width : Nat) : Nat := bitsOf (w off) lo width
  match code with
  | 1 =>
    let o := offDill idx
    decide (8 ≤ f o 0 8) && inRange 4 (f o 0 8 - 1) (f o 8 8) && decide (4 ≤ f o 16 8)
  | 2 =>
    let c (k : Nat) := w (offCoef idx k)
    let cs := (List.range 4).flatMap (fun k => [bitsOf (c k) 0 16, bitsOf (c k) 16 16])
    let ts := [bitsOf (c 5) 0 8, bitsOf (c 5) 8 8, bitsOf (c 5) 16 8, bitsOf (c 5) 24 8]
    let cMax := cs.foldl max 0
    let tMax := ts.foldl max 0
    ts.all (inRange 64 255) && decide (bitsOf (c 6) 0 8 ≤ 128) &&
      decide ((bitsOf (c 4) 0 16 + 32 * bitsOf (c 4) 16 16) * 128 + 16 * cMax * tMax ≤ 2000000 * 128)
  | 3 =>
    let o := offSage idx
    decide (f o 0 2 ≤ 1) && decide (4 ≤ f o 8 8) && decide (1 ≤ f o 16 4)
  | 4 =>
    let o := offSpec idx 0
    let o1 := offSpec idx 1
    inRange 1 30 (f o 8 8) && decide (1 ≤ f o 16 8) && decide (16 ≤ f o1 0 12) && decide (1 ≤ f o1 16 8)
  | 5 =>
    let a := offAct idx 0
    let b := offAct idx 1
    let c := offAct idx 2
    inRange 4 48 (f a 0 7) && inRange 1 64 (f a 8 7) && inRange 1 7 (f a 16 3) && decide (4 ≤ f a 20 8) &&
      decide (10 ≤ f b 0 10) && inRange 1 (f c 24 6) (f b 16 6) && decide (f c 24 6 ≤ 60) &&
      decide (f c 16 6 ≤ 40) && decide (1 ≤ f c 0 8) && decide (1 ≤ f c 8 8)
  | 6 =>
    let t (k lo width : Nat) := f (offTherm k) lo width
    let tl := signed16 (t 0 0 16)
    decide (480 ≤ tl) && decide (tl ≤ 920) && decide (8 ≤ t 0 16 8) && decide (1 ≤ t 0 24 8) &&
      decide (1 ≤ t 1 0 12) && inRange 160 800 (t 1 16 12) && decide (t 2 0 8 < t 2 8 8) &&
      decide (t 2 8 8 ≤ 60) && decide (t 2 0 8 ≤ t 2 16 8) && decide (40 ≤ t 3 0 8) && decide (40 ≤ t 3 8 8) &&
      decide (40 ≤ t 3 16 8) && decide ((8 * t 4 0 8 : Int) ≤ tl) && decide (1 ≤ t 4 8 8) && inRange 1 64 (t 4 16 7)
  | 7 =>
    inRange 20 60 (f 0x6000 0 8) && decide (10 ≤ f 0x6000 8 8) && decide (1 ≤ f 0x6000 16 4) &&
      decide (f 0x6000 24 7 ≤ 100) && decide (1 ≤ f 0x6004 0 8) && decide (1 ≤ f 0x6004 8 8) &&
      (List.range 64).all (fun r => inRange 550 790 (f (offMfv r) 0 16))
  | 8 =>
    (List.range 15).all (fun n =>
      decide (f (offOp (n + 1)) 0 7 ≤ 64) && decide (-100 ≤ signed8 (f (offOp (n + 1)) 8 8)) &&
        decide (signed8 (f (offOp (n + 1)) 8 8) ≤ 100))
  | 9 =>
    inRange 1 32 (f 0x8000 0 6) && decide (1 ≤ f 0x8000 8 4) && decide (1 ≤ f 0x8000 12 4) &&
      inRange 4 64 (f 0x8000 16 7) && decide (1 ≤ f 0x8000 24 7)
  | 10 =>
    let o := offRing idx
    decide (f o 0 12 = 0) && (decide (f (o + 8) 0 5 = 0) || inRange 4 16 (f (o + 8) 0 5)) &&
      decide (f (o + 8) 8 4 ≤ 12)
  | 11 => (List.range 64).all (fun r => inRange 160 (ratingCeil 22) (f (offPreset r) 0 12))
  | 12 => decide (16 ≤ f 0x9000 0 16) && decide (64 ≤ f 0x9000 16 14)
  | 13 => decide (10 ≤ f 0x3000 0 8) && decide (4 ≤ f 0x3000 8 8) && decide (1 ≤ f 0x3000 16 4)
  | 14 => decide (f (offFc idx) 0 2 ≤ 2) && (decide (f (offFc idx) 16 16 = 0) || decide (1 ≤ f (offFc idx) 8 8))
  | _ => true

/-- The lock of the instance that the register at `off` belongs to is in force (R472). -/
def Setup.locked (u : Setup) (d : RegDef) : Bool := bitOf (u.word d.lockOff) 31

end Sys2Proof.Machine
end

