-- ==== Sys2Proof/Machine/Ops.lean ====
section
/-!
DEFINITION. The operations the meanings share: arrays with a common value, parts of the state, who owns (R381, R382),
what leaves at a port and the journal that holds it back (R389, R390), messages (R326–R329), fault events and roll-up causes (R405–R408),
completions (R309), telemetry records (R311, R314), event records (R427–R431), and the judgement of a management
message (R19, R326–R329).
-/

namespace Sys2Proof

/-! ### Arrays with a common value -/

/-- Insertion of a cell in key order; the cell replaces one of the same key. -/
def insertCell {α : Type} (k : Nat) (v : α) : List (Nat × α) → List (Nat × α)
  | [] => [(k, v)]
  | (j, w) :: rest =>
    if k < j then (k, v) :: (j, w) :: rest
    else if k = j then (k, v) :: rest
    else (j, w) :: insertCell k v rest

/-- Removal of the cell of a key. -/
def eraseCell {α : Type} (k : Nat) (l : List (Nat × α)) : List (Nat × α) := l.filter (fun p => p.1 != k)

/-- The value at `k`. -/
def SMap.get {α : Type} (m : SMap α) (k : Nat) : α :=
  match m.cells.find? (fun p => p.1 == k) with
  | some p => p.2
  | none => m.dflt

/-- The array with the value at `k` replaced; a value equal to the common one is not listed. -/
def SMap.set {α : Type} [DecidableEq α] (m : SMap α) (k : Nat) (v : α) : SMap α :=
  { m with cells := if v = m.dflt then eraseCell k m.cells else insertCell k v m.cells }

/-- One element changed. -/
def SMap.modify {α : Type} [DecidableEq α] (m : SMap α) (k : Nat) (f : α → α) : SMap α := m.set k (f (m.get k))

/-- Every element changed alike. -/
def SMap.mapAll {α β : Type} [DecidableEq β] (m : SMap α) (f : α → β) : SMap β :=
  ⟨f m.dflt, (m.cells.map (fun p => (p.1, f (m.get p.1)))).filter (fun p => p.2 ≠ f m.dflt)⟩

/-- Every element of 0 to `n - 1` changed, each by its number. -/
def SMap.mapBy {α : Type} [DecidableEq α] (n : Nat) (f : Nat → α → α) (m : SMap α) : SMap α :=
  let d := f 0 m.dflt
  ⟨d, (List.range n).filterMap (fun k => let v := f k (m.get k); if v = d then none else some (k, v))⟩

/-- The elements named by a list changed, each by its number. -/
def SMap.modifyAll {α : Type} [DecidableEq α] (m : SMap α) (ks : List Nat) (f : Nat → α → α) : SMap α :=
  ks.foldl (fun acc k => acc.modify k (f k)) m

/-- Canonical form: keys strictly rising, no listed value equal to the common one. -/
def SMap.wf {α : Type} [DecidableEq α] (m : SMap α) : Bool :=
  decide ((m.cells.map Prod.fst).Pairwise (· < ·)) && m.cells.all (fun p => decide (p.2 ≠ m.dflt))

/-- The listed cells with numbers below `n`. -/
def SMap.listed {α : Type} (m : SMap α) (n : Nat) : List (Nat × α) := m.cells.filter (fun p => p.1 < n)

/-- The sum of `g` over elements 0 to `n - 1`. -/
def SMap.sum {α : Type} (m : SMap α) (n : Nat) (g : α → Nat) : Nat :=
  (n - (m.listed n).length) * g m.dflt + ((m.listed n).map (fun p => g p.2)).sum

/-- The sum of `g` over elements `lo` to `hi - 1`. -/
def SMap.sumRange {α : Type} (m : SMap α) (lo hi : Nat) (g : α → Nat) : Nat :=
  let l := m.cells.filter (fun p => decide (lo ≤ p.1) && decide (p.1 < hi))
  (hi - lo - l.length) * g m.dflt + (l.map (fun p => g p.2)).sum

/-- How many of elements 0 to `n - 1` have `p`. -/
def SMap.count {α : Type} (m : SMap α) (n : Nat) (p : α → Bool) : Nat := m.sum n (fun x => bitNat (p x))

/-- The greatest value of `g` over elements 0 to `n - 1`. -/
def SMap.max {α : Type} (m : SMap α) (n : Nat) (g : α → Nat) : Nat :=
  ((m.listed n).map (fun p => g p.2)).foldl Nat.max (if (m.listed n).length < n then g m.dflt else 0)

/-- The least value of `g` over elements 0 to `n - 1`, at most `top`. -/
def SMap.min {α : Type} (m : SMap α) (n top : Nat) (g : α → Nat) : Nat :=
  ((m.listed n).map (fun p => g p.2)).foldl Nat.min (if (m.listed n).length < n then Nat.min top (g m.dflt) else top)

/-- The distinct values of elements `lo` to `hi - 1` of an array. -/
def SMap.values {α : Type} (m : SMap α) (lo hi : Nat) : List α :=
  let l := (m.cells.filter (fun p => decide (lo ≤ p.1) && decide (p.1 < hi))).map Prod.snd
  if l.length < hi - lo then m.dflt :: l else l

/-- Some element of 0 to `n - 1` has `p`. -/
def SMap.any {α : Type} (m : SMap α) (n : Nat) (p : α → Bool) : Bool := decide (0 < m.count n p)

end Sys2Proof

namespace Sys2Proof

/-! ### The bytes of a message -/

/-- A number as `n` bytes, little-endian (R8). -/
def leBytes : Nat → Nat → List Byte
  | 0, _ => []
  | n + 1, v => BitVec.ofNat 8 v :: leBytes n (v / 256)

/-- One bit of the CRC-16 register, most significant bit first. -/
def crc16Bit (c : Nat) : Nat := if 0x8000 ≤ c then (2 * c - 0x10000) ^^^ 0x1021 else 2 * c

def crc16Byte (c : Nat) (b : Byte) : Nat :=
  crc16Bit (crc16Bit (crc16Bit (crc16Bit (crc16Bit (crc16Bit (crc16Bit (crc16Bit (c ^^^ (256 * b.toNat)))))))))

/-- CRC-16 with the polynomial 0x1021 and initial value 0xFFFF (R326). -/
def crc16 (l : List Byte) : Nat := l.foldl crc16Byte 0xFFFF

/-- The bytes of a message with CHECK taken as 0 (R326). -/
def MsgHdr.bytes (h : MsgHdr) : List Byte :=
  h.type :: h.flags :: (leBytes 2 h.src ++ leBytes 2 h.dst ++ leBytes 2 h.seq ++ leBytes 4 h.epoch.toNat ++
    leBytes 2 h.resv.toNat ++ leBytes 2 0 ++ h.payload)

/-- A node number of R327: a cluster, a governor or a hub. -/
def nodeNamed (n : Nat) : Bool := decide (n < 0x9000) || (decide (0xA000 ≤ n) && decide (n < 0xA040)) || n == 0xB000 || n == 0xB001

/-- A message as its receiver judges it (R327, R328): CHECK holds, the reserved bits are 0, LEN agrees with the flits
received, and it names no reserved node; DST 0xFFFF is the emergency cap broadcast's alone. -/
def MsgHdr.goodTo (h : MsgHdr) (broadcast : Bool) : Bool :=
  decide (h.check.toNat = crc16 h.bytes) && decide (h.flags.toNat < 32) && h.resv == 0 &&
    decide (h.payload.length = 16 * (h.flags.toNat % 8)) && nodeNamed h.src &&
    (if broadcast then h.dst == 0xFFFF else nodeNamed h.dst)

def MsgHdr.good (h : MsgHdr) : Bool := h.goodTo false

end Sys2Proof

namespace Sys2Proof.Machine

/-! ### Parts of the state -/

/-- Clusters of a region, of the wafer; cores of a cluster. -/
def nClusters : Nat := 576
def nCores : Nat := 32
def nRegions : Nat := 64

/-- Region and local number of a global cluster (spec 00). -/
def regionOf (c : Nat) : Nat := c / 576
def localOf (c : Nat) : Nat := c % 576

def State.region (s : State) (r : Nat) : Region := s.regions.get r
def State.gov (s : State) (r : Nat) : Gov := s.govs.get r
def State.cluster (s : State) (c : Nat) : Cluster := (s.region (regionOf c)).clusters.get (localOf c)

def State.modRegion (s : State) (r : Nat) (f : Region → Region) : State :=
  { s with regions := s.regions.modify r f }

def State.modRegions (s : State) (f : Region → Region) : State :=
  { s with regions := s.regions.mapAll f }

def State.modGov (s : State) (r : Nat) (f : Gov → Gov) : State :=
  { s with govs := s.govs.modify r f }

def State.modGovs (s : State) (f : Gov → Gov) : State :=
  { s with govs := s.govs.mapAll f }

/-- One cluster of a region, by its local number, changed. -/
def Region.modCluster (g : Region) (c : Nat) (f : Cluster → Cluster) : Region :=
  { g with clusters := g.clusters.modify c f }

/-- Every cluster of a region changed alike. -/
def Region.modClusters (g : Region) (f : Cluster → Cluster) : Region :=
  { g with clusters := g.clusters.mapAll f }

/-- One cluster, by its global number, changed. -/
def State.modCluster (s : State) (c : Nat) (f : Cluster → Cluster) : State :=
  s.modRegion (regionOf c) (fun g => g.modCluster (localOf c) f)

def State.modHub (s : State) (f : Shared → Shared) : State := { s with hub := f s.hub }
def State.modRings (s : State) (f : Rings → Rings) : State := s.modHub (fun h => { h with rings := f h.rings })
def State.modRing (s : State) (k : Nat) (f : Ring → Ring) : State :=
  s.modRings (fun g => { g with ring := g.ring.modify k f })
def State.modThyme (s : State) (f : Thyme → Thyme) : State := s.modHub (fun h => { h with thyme := f h.thyme })
def State.modGrant (s : State) (i : Nat) (f : Grant → Grant) : State :=
  s.modThyme (fun t => { t with table := t.table.modify i f })
def State.modGroups (s : State) (f : Groups → Groups) : State := s.modHub (fun h => { h with groups := f h.groups })
def State.modBudget (s : State) (f : Budget → Budget) : State := s.modHub (fun h => { h with budget := f h.budget })
def State.modRecorder (s : State) (f : Recorder → Recorder) : State :=
  s.modHub (fun h => { h with recorder := f h.recorder })
def State.modMb (s : State) (f : HostMb → HostMb) : State := s.modHub (fun h => { h with mb := f h.mb })
def State.modFw (s : State) (f : Firmware → Firmware) : State := s.modHub (fun h => { h with fw := f h.fw })
def State.modAgeing (s : State) (f : Ageing → Ageing) : State := s.modHub (fun h => { h with ageing := f h.ageing })
def State.modPair (s : State) (f : Pair → Pair) : State := { s with pair := f s.pair }
def State.modClk (s : State) (f : Clocks → Clocks) : State := { s with clk := f s.clk }
def State.modPow (s : State) (f : Power → Power) : State := { s with pow := f s.pow }
def State.modSetup (s : State) (f : Setup → Setup) : State := { s with setup := f s.setup }

/-- A hub's own part. -/
def State.hubOf (s : State) : Hub → HubSt
  | .a => s.hubA
  | .b => s.hubB

def State.modHubOf (s : State) (h : Hub) (f : HubSt → HubSt) : State :=
  match h with
  | .a => { s with hubA := f s.hubA }
  | .b => { s with hubB := f s.hubB }

/-- The regions one after the other. -/
def State.forRegions (s : State) (f : Nat → State → State) : State :=
  (List.range nRegions).foldl (fun acc r => f r acc) s

/-! ### Ownership -/

/-- Period counts, epochs and register words compared as R273 compares step numbers. -/
def before32 (x y : Nat) : Bool := let d := (y + 0x100000000 - x % 0x100000000) % 0x100000000; 1 ≤ d && d < 0x80000000

/-- Epoch `x` is higher than `y`, compared as R382 says; 0 is no owner's. -/
def epochHigher (x y : Word) : Bool := x != 0 && (y == 0 || before32 y.toNat x.toNat)

/-- The hub that owns (R381, R384): that which holds the OWNER role, with the higher epoch where a promotion has left the other
believing that it owns. -/
def State.owner (s : State) : Option Hub :=
  if s.hubA.role = .owner then
    (if s.hubB.role = .owner ∧ epochHigher s.hubB.epoch s.hubA.epoch then some .b else some .a)
  else if s.hubB.role = .owner then some .b
  else none

/-- The hub that believes it owns, with an epoch that another has overtaken (R384, R397). -/
def State.staleOwner (s : State) : Option Hub :=
  if s.hubA.role = .owner ∧ s.hubB.role = .owner then s.owner.map Hub.other else none

/-- The ownership epoch in force; 0 while no hub owns (R382). -/
def State.epoch (s : State) : Word :=
  match s.owner with
  | some h => (s.hubOf h).epoch
  | none => 0

/-- Some hub owns and is in control: every CLAIM it waits for is answered (R394), and it has not stopped for a
handover (R400 step 1: at the boundary after it was set). -/
def State.inControl (s : State) : Bool :=
  s.owner.isSome && s.pair.claims.isEmpty && decide (s.pair.handStep ≤ 1)

/-! ### What leaves Renoth -/

/-- The corner region whose governor holds the PMBus master of region `r` (R21). -/
def cornerOf (r : Nat) : Nat := (if r / 8 < 4 then 0 else 56) + (if r % 8 < 4 then 0 else 7)

/-- An outward effect of a governor, a Chive or an exempt path. -/
def State.emit (s : State) (e : Effect) : State := { s with out := s.out ++ [e] }

/-- The PMBus master of region `r` makes a transaction on the region's array: the port of the region's row, the address of its
column; an Alert Response Address read goes to the address of that name (R506; PRESUMED, notes/assumptions/73.md). -/
def State.transact (s : State) (r : Nat) (tx : PmbusTx) : State :=
  s.emit (.pmbus (cornerOf r) (r / 8 % 4) (if tx = .alertResponse then 0x0C else 0x40 + r % 4) tx)

/-- The transactions of one command, in order; where one fails twice the first is shown, with its repetition (R506). -/
def State.transactAll (s : State) (r : Nat) (failed : Bool) (txs : List PmbusTx) : State :=
  (if failed then txs.take 1 ++ txs.take 1 else txs).foldl (fun a x => a.transact r x) s

/-- A word of the format Linear11 in 1/`scale` of its unit, rounded down (R507): an 11-bit mantissa times 2 to a 5-bit exponent,
both in two's complement. -/
def linear11 (scale : Nat) (w : BitVec 16) : Int :=
  let m := (w.extractLsb' 0 11).toInt
  let e := (w.extractLsb' 11 5).toInt
  if e < 0 then Int.fdiv (m * scale) (2 ^ e.natAbs : Nat) else m * scale * (2 ^ e.natAbs : Nat)

/-- The exponent of ULINEAR16 that VOUT_MODE gives (R507). -/
def voutExp (mode : Nat) : Int := (BitVec.ofNat 5 mode).toInt

/-- A voltage in ULINEAR16 in mV, rounded down, and a voltage in mV as such a word, rounded up (R507). -/
def ulinear16 (mode : Nat) (w : BitVec 16) : Nat :=
  let e := voutExp mode
  if e < 0 then w.toNat * 1000 / 2 ^ e.natAbs else w.toNat * 1000 * 2 ^ e.natAbs

def toUlinear16 (mode mv : Nat) : Nat :=
  let e := voutExp mode
  if e < 0 then min 65535 (ceilDiv (mv * 2 ^ e.natAbs) 1000) else ceilDiv mv (1000 * 2 ^ e.natAbs)

/-- An outward effect of the owning hub: held with the journal entry that will carry the change while the pair is PAIRED
(R390; RESYNC behaves as DEGRADED, R402, R519). -/
def State.hubEmit (s : State) (e : Effect) : State :=
  if s.pair.paired = false then s.emit e
  else s.modPair (fun p => { p with heldEff := p.heldEff ++ [(p.jn + 1, e)] })

/-- The recorder as the image holds it (R389, R433): the records and the sequence number, with REPEAT of the open record as last
journaled; what waits to be appended is in no image. -/
def Recorder.mirrored (q : Recorder) : Recorder :=
  { q with
    queue := [], held := [], fwWait := [], sinceRep := 0, sinceApp := 0
    recs := if q.openRec then q.recs.dropLast ++ q.recs.getLast?.toList.map (fun x => { x with rep := q.repSent }) else q.recs }

/-- The hub's state as the mirrored image holds it (R389). -/
def Shared.mirrored (h : Shared) : Shared := { h with recorder := h.recorder.mirrored }

/-- Mirror lanes in use; with one or none the link is down (R386). -/
def Pair.laneCount (p : Pair) : Nat := ((List.range 4).filter (fun i => p.lanes.getLsbD i)).length
def Pair.linkUp (p : Pair) : Bool := decide (2 ≤ p.laneCount)

/-- Blocks of a period in each direction, and the journal's limit among them (R386). -/
def Pair.slots (p : Pair) : Nat :=
  match p.laneCount with
  | 4 => 17
  | 3 => 13
  | 2 => 8
  | _ => 0
def Pair.journalLimit (p : Pair) : Nat := p.slots - 5

/-- TX_SEQ of a hub's latest block (R387), 32 bits. -/
def Pair.tx (p : Pair) : Hub → Nat
  | .a => p.txA
  | .b => p.txB

/-- A hub sends `n` more blocks. -/
def Pair.sendBlocks (h : Hub) (n : Nat) (p : Pair) : Pair :=
  match h with
  | .a => { p with txA := (p.txA + n) % 2 ^ 32 }
  | .b => { p with txB := (p.txB + n) % 2 ^ 32 }

/-- The entries not yet sent leave the owner `h` in one journal block, within the period's limit (R386, R388); that one block takes
them is a DESIGN CHOICE, notes/assumptions/76.md. -/
def Pair.pump (h : Hub) (p : Pair) : Pair :=
  if p.journalLimit ≤ p.jUsed ∨ p.jn ≤ p.sent then p
  else
    let q := p.sendBlocks h 1
    { q with
      blocks := q.blocks ++ [(q.tx h, q.sent + 1, q.jn)], sent := q.jn, jUsed := q.jUsed + 1, hwm := max q.hwm (q.jUsed + 1) }

/-- One more journal entry of the owner `h`, with the image as it now stands (R389). -/
def Pair.entry (h : Hub) (image : Shared) (p : Pair) : Pair :=
  { p with jn := p.jn + 1, journal := p.journal ++ [(p.jn + 1, image)] }.pump h

/-- A pair with the journal of another: the number of its entries, the entries not yet acknowledged, and the blocks that carry them. -/
def Pair.journalFrom (p q : Pair) : Pair :=
  { p with
    jn := q.jn, sent := q.sent, journal := q.journal, blocks := q.blocks, txA := q.txA, txB := q.txB, jUsed := q.jUsed, hwm := q.hwm }

/-- A hub change with its journal entry (R389): when the mirrored image changed or an effect waits for it, one entry
with the image as it now stands is numbered and sent. -/
def journaled (f : State → State) (s : State) : State :=
  let t := f s
  if t.pair.paired ∧ (t.hub.mirrored ≠ s.hub.mirrored ∨ s.pair.heldEff.length < t.pair.heldEff.length) then
    t.modPair (Pair.entry (t.owner.getD .a) t.hub.mirrored)
  else t

/-- A register write of the host, which reaches both hubs (R391): the owner's copy, the standby's, and the entries on
their way to it change alike. -/
def bothHubs (f : State → State) (s : State) : State :=
  let g (h : Shared) : Shared := (f { s with hub := h }).hub
  (f s).modPair (fun p => { p with image := g p.image, journal := p.journal.map (fun e => (e.1, g e.2)) })

/-- The journal number that a record formed now will travel under. -/
def State.nextJn (s : State) : Nat := s.pair.jn + 1

/-- What journal entry `n` carries may leave: it is acknowledged, or the pair is not PAIRED (R390, R519). -/
def State.mayLeave (s : State) (n : Nat) : Bool := !s.pair.paired || decide (n ≤ s.pair.acked)

/-! ### Node numbers and messages -/

/-- Node numbers of R327. -/
def nodeGov (r : Nat) : Nat := 0xA000 + r
def nodeHub : Hub → Nat
  | .a => 0xB000
  | .b => 0xB001

def State.ownerNode (s : State) : Nat := (s.owner.map nodeHub).getD 0xB000

/-- The DST of the emergency cap broadcast alone (R327). -/
def nodeAll : Nat := 0xFFFF

/-- The home governor's node of a group (R267). -/
def State.homeNode (s : State) (gid : Nat) : Nat :=
  nodeGov (((s.hub.groups.defs.find? (fun p => p.1 == gid)).map (fun p => p.2.home)).getD 0)

/-- SRC and DST of a message (R326, R327, the families of R329). -/
def State.route (s : State) : Msg → Nat × Nat
  | .cap r _ _ | .reserve r .. | .stagingRelease r _ | .revoke r _ | .stateQuery r _ | .modelImage r _
  | .modelSwitch r _ | .slotRequest r _ | .slotRelease r _ | .post r .. | .summaryRequest r _
  | .claim r _ | .probe r | .margin r _ | .trim r _ | .shadows r _ _ _ | .fwCode r | .clearCause r _ => (s.ownerNode, nodeGov r)
  | .pmbus r _ => (s.ownerNode, nodeGov (cornerOf r))
  | .ecap _ => (s.ownerNode, nodeAll)
  | .capAck r _ | .reserveReply r .. | .inForce r _ | .removed r _ | .stateReply r .. | .modelReport r _ | .modelAck r
  | .slotReply r .. | .summary r .. | .claimReply r _ | .probeReply r _ => (nodeGov r, s.ownerNode)
  | .arm r gid _ _ => (s.homeNode gid, nodeGov r)
  | .armAck r gid | .mR r gid _ | .lagSummary r gid _ _ | .late r gid => (nodeGov r, s.homeNode gid)
  | .armToChive c .. | .chivePost c _ | .chiveCancel c _ | .ageRead c => (nodeGov (regionOf c), c)
  | .stepReport c .. | .stall c _ | .chiveAck c .. => (c, nodeGov (regionOf c))
  | .debug c => (s.ownerNode, c)
  | .epochToChives r _ => (nodeGov r, 576 * r)
  | .heartbeat h .. => (nodeHub h, nodeHub h.other)

/-- Flits of a message, by the families of R329; a PMBus command of 16 bits of data or less fits 2. -/
def Msg.flits : Msg → Nat
  | .ecap _ | .reserve .. | .post .. => 7
  | .modelImage .. => 4
  | .chivePost .. => 3
  | .pmbus _ (.configure ..) | .pmbus _ (.swap ..) => 3
  | _ => 2

/-- The message answers another (REPLY of R326). -/
def Msg.isReply : Msg → Bool
  | .capAck .. | .reserveReply .. | .stateReply .. | .modelReport .. | .modelAck _ | .slotReply .. | .claimReply ..
  | .probeReply .. | .armAck .. | .chiveAck .. => true
  | .summary _ _ _ _ _ _ _ _ _ asked => asked
  | _ => false

/-- The epoch a node puts into a header (R326): a hub its own, a governor or Chive the one it last received. -/
def State.nodeEpoch (s : State) (n : Nat) : Word :=
  if n = nodeHub .a then s.hubA.epoch
  else if n = nodeHub .b then s.hubB.epoch
  else if nodeGov 0 ≤ n then (s.gov (n - nodeGov 0)).epoch
  else (s.cluster n).epoch

/-- SEQ of the next message from one node to another (R326). -/
def State.seqAt (s : State) (src dst : Nat) : Nat := s.seqs.get (src * 65536 + dst)

/-- The header of a message sent from `src` to `dst` with SEQ `q`. -/
def State.headOf (s : State) (src dst q : Nat) (resend : Bool) (m : Msg) : Head :=
  { reply := m.isReply, resend := resend, flits := m.flits, src := src, dst := dst, seq := q, epoch := s.nodeEpoch src }

/-- A sender's SEQ towards a receiver advances (R326). -/
def State.bumpSeq (s : State) (src dst : Nat) : State :=
  { s with seqs := s.seqs.set (src * 65536 + dst) ((s.seqAt src dst + 1) % 65536) }

/-- A node's message leaves at once, with its header. -/
def State.sendAs (s : State) (src dst : Nat) (m : Msg) : State :=
  (s.emit (.msg m (s.headOf src dst (s.seqAt src dst) false m))).bumpSeq src dst

/-- A message that leaves again, with RESEND and the SEQ it had (R329). -/
def State.sendAgain (s : State) (a : Await) : State := s.emit (.msg a.msg (s.headOf a.src a.dst a.seq true a.msg))

/-- A message just sent whose sender waits for a reply (R329), by the SEQ it carried. -/
def State.expect (s : State) (src dst : Nat) (m : Msg) : State :=
  { s with await := s.await ++ [⟨src, dst, (s.seqAt src dst + 0xFFFF) % 65536, m, false⟩] }

/-- The reply to every waiting message that `p` names has arrived. -/
def State.answered (s : State) (p : Msg → Bool) : State := { s with await := s.await.filter (fun a => !p a.msg) }

/-- The owning hub sends a message, held with its journal entry (R390); only an owner commands (R18). -/
def State.hubSend (s : State) (m : Msg) : State :=
  if s.owner.isNone then s
  else
    let p := s.route m
    (s.hubEmit (.msg m (s.headOf p.1 p.2 (s.seqAt p.1 p.2) false m))).bumpSeq p.1 p.2

/-- The owning hub sends a message for which a reply is defined. -/
def State.hubAsk (s : State) (m : Msg) : State :=
  if s.owner.isNone then s else (s.hubSend m).expect (s.route m).1 (s.route m).2 m

/-- A governor or Chive sends a message. -/
def State.send (s : State) (m : Msg) : State := s.sendAs (s.route m).1 (s.route m).2 m

/-- A governor sends a message for which a reply is defined (the arm, R329). -/
def State.ask (s : State) (m : Msg) : State := (s.send m).expect (s.route m).1 (s.route m).2 m

/-- The hub drives its package sideband and PMBus masters: it owns; any other's drivers are at high impedance (R18). -/
def State.drivesSideband (s : State) (h : Hub) : Bool := decide (s.owner = some h)

/-- A level or heater grant goes out on the sideband of the hub that drives it (R18, R511). -/
def State.sidebandWrite (s : State) (ch : Child) (level heaterMw : Nat) : State :=
  [Hub.a, Hub.b].foldl (fun (a : State) h => if s.drivesSideband h then a.hubEmit (.sideband h ch level heaterMw) else a) s

/-! ### Fault events and roll-up causes -/

/-- A wafer-wide source drives its pair for one cause (R407, R408). -/
def State.raise (s : State) (src cause : Nat) (arg : Nat := 0) : State :=
  { s with events := s.events ++ [{ src := src, cause := cause, arg := arg }] }

def Gov.roll (g : Gov) : Nat → RollUp
  | 0 => g.rtherm
  | 1 => g.rsupply
  | _ => g.rctrl

def Gov.modRoll (g : Gov) (k : Nat) (f : RollUp → RollUp) : Gov :=
  match k with
  | 0 => { g with rtherm := f g.rtherm }
  | 1 => { g with rsupply := f g.rsupply }
  | _ => { g with rctrl := f g.rctrl }

/-- A cause of roll-up `k` of region `r` (0 RTHERM, 1 RSUPPLY, 2 RCTRL): latched in the governor's cause register,
and one event at the roll-up's source (R405, R406, R408). -/
def State.raiseRoll (s : State) (r k bit : Nat) : State :=
  let t := s.modGov r (fun g => g.modRoll k (fun u => { u with latched := u.latched ||| BitVec.ofNat 16 (2 ^ bit) }))
  { t with
    events := t.events ++ [{ src := 64 * k + r, cause := bit }]
    latches := if (r, k) ∈ t.latches then t.latches else t.latches ++ [(r, k)] }

/-- A held cause's condition arises or ends (R406, R408): its event is raised once, when it arises. -/
def State.holdRoll (s : State) (r k bit : Nat) (on : Bool) : State :=
  let m : BitVec 16 := BitVec.ofNat 16 (2 ^ bit)
  let was := (((s.gov r).roll k).held &&& m) != 0
  let t := s.modGov r (fun g => g.modRoll k (fun u => { u with held := if on then u.held ||| m else u.held &&& ~~~m }))
  if on && !was then t.raiseRoll r k bit else t

/-! ### The judgement of a message -/

/-- A governor or one of its Chives discards a bad message (R327, R328, R353). -/
def State.badMsg (s : State) (r : Nat) : State :=
  (s.modGov r (fun g => { g with badCnt := satAdd 0xFFF g.badCnt 1 })).raise 195 0

/-- A governor or one of its Chives discards a message of another epoch (R19, R353). -/
def State.staleMsg (s : State) (r : Nat) : State := s.modGov r (fun g => { g with staleCnt := satAdd 0xFFF g.staleCnt 1 })

/-- What a hub sends a Chive by way of its governor, at the Chive (R19): acted on when it carries the epoch the Chive
holds, else discarded and counted. -/
def chiveAccept (c : Nat) (epoch : Word) (act : State → State) (s : State) : State :=
  if epoch ≠ (s.cluster c).epoch then s.staleMsg (regionOf c) else act s

/-- A hub message at the governor of region `r`: discarded when bad or when its epoch is not the one in force,
answered again without acting when it repeats the last one of its sender and kind, acted on otherwise (R19, R328,
R329). -/
def govAccept (r kind : Nat) (hdr : MsgHdr) (act again : State → State) (s : State) : State :=
  let g := s.gov r
  if hdr.good = false then s.badMsg r
  else if hdr.epoch ≠ g.epoch then s.staleMsg r
  else if (hdr.src, kind, hdr.seq) ∈ g.lastMsgs then again s
  else act (s.modGov r (fun g => { g with
    lastMsgs := (hdr.src, kind, hdr.seq) :: g.lastMsgs.filter (fun m => !(m.1 == hdr.src && m.2.1 == kind)) }))

/-- A message between governors, or from a Chive to its governor: no epoch test (R19 names hub messages). -/
def peerAccept (r kind : Nat) (hdr : MsgHdr) (act again : State → State) (s : State) : State :=
  let g := s.gov r
  if hdr.good = false then s.badMsg r
  else if (hdr.src, kind, hdr.seq) ∈ g.lastMsgs then again s
  else act (s.modGov r (fun g => { g with
    lastMsgs := (hdr.src, kind, hdr.seq) :: g.lastMsgs.filter (fun m => !(m.1 == hdr.src && m.2.1 == kind)) }))

/-- A hub fences itself (R397): its held effects are discarded and its messages are not sent again. -/
def State.fence (s : State) (h : Hub) : State :=
  let t := s.modHubOf h (fun u => { u with role := .fenced })
  let t := { t with await := t.await.filter (fun a => a.src != nodeHub h) }
  if s.owner = some h then
    { t with pair := { t.pair with heldEff := [], claims := [], probes := [], probing := false, handStep := 0 } }
  else t

/-- A governor's or Chive's message at the owning hub: discarded when bad; a higher epoch fences the hub (R397); a
repeat of the last one of its sender and kind is not acted on again (R329). One for the hub that a promotion has overtaken shows
that hub the higher epoch. -/
def hubAccept (kind : Nat) (hdr : MsgHdr) (act : State → State) (s : State) : State :=
  match s.owner with
  | none => s
  | some h =>
    if hdr.good = false then s.raise 195 0
    else if s.staleOwner = some h.other ∧ hdr.dst = nodeHub h.other then
      (if epochHigher hdr.epoch (s.hubOf h.other).epoch then s.fence h.other else s)
    else if epochHigher hdr.epoch s.epoch then s.fence h
    else if (hdr.src, kind, hdr.seq) ∈ s.hubLast then s
    else act { s with
      hubLast := (hdr.src, kind, hdr.seq) :: s.hubLast.filter (fun m => !(m.1 == hdr.src && m.2.1 == kind)) }

/-! ### Completions, telemetry, records, free values -/

/-- The final completion of a taken entry (R309): the entry leaves the list of taken ones, and its completion waits
for its write. An entry that is not in the list has had its completion (R14). -/
def State.complete (s : State) (cmd : CmdRef) (code detail : Nat) (result : List Byte := []) : State :=
  match s.hub.rings.taken.find? (fun t => t.ring == cmd.1 && t.order == cmd.2) with
  | none => s
  | some t => s.modRings (fun g => { g with
      taken := g.taken.filter (fun u => !(u.ring == cmd.1 && u.order == cmd.2))
      comps := g.comps ++ [⟨t.ring, t.index, t.opcode, t.tag, code, detail, result, false, s.nextJn⟩] })

/-- A DEFERRED completion, after which the entry stays taken (R13). -/
def State.completeInterim (s : State) (cmd : CmdRef) (detail : Nat) (result : List Byte) : State :=
  match s.hub.rings.taken.find? (fun t => t.ring == cmd.1 && t.order == cmd.2) with
  | none => s
  | some t => s.modRings (fun g => { g with
      comps := g.comps ++ [⟨t.ring, t.index, t.opcode, t.tag, 1, detail, result, true, s.nextJn⟩] })

/-- The completion codes of R12. -/
def codeOk : Nat := 0x00
def codeBudget : Nat := 0x10
def codeTiming : Nat := 0x11
def codeBadArg : Nat := 0x12
def codeCoasting : Nat := 0x13
def codeEmerg : Nat := 0x14
def codePartial : Nat := 0x15
def codeLocked : Nat := 0x16
def codeAuth : Nat := 0x17
def codeCancelled : Nat := 0x20
def codeRevoked : Nat := 0x21
def codeMiss : Nat := 0x30

/-- The size of a ring in entries; 0 while it is disabled (R291). -/
def State.ringSize (s : State) (k : Nat) : Nat :=
  let z := s.cfg (offRing k + 8) 0 5
  if z = 0 then 0 else 2 ^ z

/-- A telemetry record is formed (R312, R314): not while TEL is disabled; an always-sent one that finds 4,096 waiting
is lost. -/
def State.telemetry (s : State) (type region : Nat) (body : List Byte) (sub : Bool := false) : State :=
  if s.ringSize 16 = 0 then s
  else if sub = false ∧ 4096 ≤ (s.hub.rings.tel.filter (fun t => !t.sub)).length then
    (s.modRings (fun g => { g with lost := g.lost + 1, lossDue := g.lossDue + 1 })).raise 194 1
  else s.modRings (fun g => { g with tel := g.tel ++ [⟨type, region, s.period, body, sub, s.nextJn⟩] })

/-- A record of the collector rather than of firmware (R431). -/
def Rec.ofCollector (x : Rec) : Bool := x.code == 8 || x.code == 9

/-- An event record reaches the append port (R431): a collector record goes before every queued firmware append. -/
def State.record (s : State) (code level argx source : Nat) (arg : Word) : State :=
  let x : Rec := { seq := 0, rep := 1, code := code, level := level, argx := argx, source := source, arg := arg }
  s.modRecorder (fun q =>
    if 256 ≤ q.queue.length then
      if x.ofCollector then { q with held := q.held ++ [x] } else { q with fwWait := q.fwWait ++ [x] }
    else if x.ofCollector then
      { q with queue := q.queue.filter Rec.ofCollector ++ x :: q.queue.filter (fun y => !y.ofCollector) }
    else { q with queue := q.queue ++ [x] })

/-- The next free value's index, and the state with the counter advanced. -/
def State.nextFree (s : State) : State := { s with fresh := s.fresh + 1 }

/-! ### Pins -/

/-- An open-drain pin of a hub is driven low or released; with VRN_IO down every pin is released (R441, R500). -/
def State.pin (s : State) (name : String) (h : Hub) (low : Bool) : State :=
  if s.pow.ioUp then s.emit (.pin name h low) else s

/-! ### The gate tree -/

/-- The node exists (R452). -/
def gateNode (kind index : Nat) : Bool :=
  match kind with
  | 0 => decide (index < 36864)
  | 1 => decide (index < 1536)
  | 2 | 3 => decide (index < 64)
  | 4 => decide (index < 2)
  | _ => false

/-- The node is closed. -/
def State.gateClosed (s : State) (kind index : Nat) : Bool :=
  match kind with
  | 0 => (s.cluster index).gcClosed
  | 1 => bitOf (s.gov (index / 24)).gwClosed.toNat (index % 24)
  | 2 => (s.gov index).gsClosed
  | 3 => (s.gov index).grClosed
  | _ => if index = 0 then s.pow.gsecA else s.pow.gsecB

end Sys2Proof.Machine
end

