-- ==== Sys2Proof/Machine/Operands.lean ====
section
/-!
DEFINITION. The layouts of what crosses the ports: little-endian fields (R8), the CRC-32 of images (R115), the command
entry and its payloads (R298–R305), the ring engine's checks (R308), the completion, telemetry and event-export entries
(R295, R309–R312, R315, R427), and the limiter setting word (R155).
-/

namespace Sys2Proof.Machine

/-! ### Bytes -/

/-- A byte of a list, 0 past its end. -/
def byteAt (l : List Byte) (i : Nat) : Nat := (l.getD i 0).toNat

/-- The number in `n` bytes at offset `off`, little-endian (R8). -/
def leAt (l : List Byte) (off : Nat) : Nat → Nat
  | 0 => 0
  | n + 1 => byteAt l off + 256 * leAt l (off + 1) n

/-- `n` zero bytes. -/
def zeros (n : Nat) : List Byte := List.replicate n 0

/-- A list cut or filled with zeros to `n` bytes. -/
def padTo (n : Nat) (l : List Byte) : List Byte := (l ++ zeros (n - l.length)).take n

/-- Every byte of a stretch is 0. -/
def zeroIn (l : List Byte) (off n : Nat) : Bool := ((l.drop off).take n).all (fun b => b == 0)

/-- The bits of a number that are 1, lowest first, below `n`. -/
def onesOf (n v : Nat) : List Nat := (List.range n).filter (fun i => bitOf v i)

/-- The number with the listed bits set. -/
def bitsFrom (l : List Nat) : Nat := l.foldl (fun acc i => acc ||| 2 ^ i) 0

/-- One step of the reflected CRC-32 register. -/
def crc32Bit (c : Nat) : Nat := if c % 2 = 1 then (c / 2) ^^^ 0xEDB88320 else c / 2

def crc32Byte (c : Nat) (b : Byte) : Nat :=
  crc32Bit (crc32Bit (crc32Bit (crc32Bit (crc32Bit (crc32Bit (crc32Bit (crc32Bit (c ^^^ b.toNat))))))))

/-- CRC-32 with the IEEE 802.3 polynomial (R115). -/
def crc32 (l : List Byte) : Nat := l.foldl crc32Byte 0xFFFFFFFF ^^^ 0xFFFFFFFF

/-! ### Command entries -/

/-- Opcodes of R299. -/
def opGrantRequest : Nat := 1
def opGrantRelease : Nat := 2
def opCapSet : Nat := 3
def opGroupDefine : Nat := 4
def opModelLoad : Nat := 5
def opPolicySet : Nat := 6
def opSubscribe : Nat := 7
def opStage : Nat := 8
def opActivate : Nat := 9
def opQuery : Nat := 10

def entryOpcode (e : List Byte) : Nat := byteAt e 0
def entryFlags (e : List Byte) : Nat := byteAt e 1
def entryCount (e : List Byte) : Nat := leAt e 2 2
def entryTag (e : List Byte) : Nat := leAt e 4 4
def entryFence (e : List Byte) : Bool := bitOf (entryFlags e) 0
def entryGroupForm (e : List Byte) : Bool := bitOf (entryFlags e) 1

/-- The greatest COUNT of an opcode (R299). -/
def maxCount (e : List Byte) : Nat :=
  let op := entryOpcode e
  if op = opCapSet then (if entryGroupForm e then 1 else 7)
  else if op = opSubscribe then 32 else 1

/-- The payload bytes that no field of the opcode's table covers, as (offset, length) (R298, R300–R305). -/
def reservedBytes (e : List Byte) : List (Nat × Nat) :=
  let op := entryOpcode e
  if op = opGrantRequest then [(0x14, 44)]
  else if op = opGrantRelease then [(0x0C, 52)]
  else if op = opCapSet then
    if entryGroupForm e then [(0x0D, 3), (0x14, 44)] else [(8 + 8 * entryCount e, 56 - 8 * entryCount e)]
  else if op = opGroupDefine then [(0x14, 44)]
  else if op = opModelLoad then [(0x1C, 36)]
  else if op = opPolicySet then [(0x09, 3), (0x0E, 2), (0x1C, 4), (0x28, 24)]
  else if op = opSubscribe then [(0x10, 48)]
  else if op = opStage then [(0x15, 43)]
  else if op = opActivate then [(0x09, 1), (0x0C, 52)]
  else [(0x09, 3), (0x10, 48)]

/-- A reserved bit or byte of the entry is not 0 (R308, 0xF2). -/
def reservedSet (e : List Byte) : Bool :=
  let flags := entryFlags e / (if entryOpcode e = opCapSet then 4 else 2)
  flags != 0 || (reservedBytes e).any (fun p => !zeroIn e p.1 p.2)

/-- POLICY_SET kinds (R304). -/
def policyTrim : Nat := 1
def policyRestore : Nat := 2

/-- The host addresses an entry names (R300, R304, R305). Both address fields of a POLICY_SET are judged, whatever its KIND:
DESIGN CHOICE, notes/assumptions/78.md. -/
def entryAddrs (e : List Byte) : List Nat :=
  let op := entryOpcode e
  if op = opGrantRequest ∨ op = opGroupDefine ∨ op = opSubscribe ∨ op = opStage then [leAt e 8 8]
  else if op = opModelLoad then [leAt e 0x10 8]
  else if op = opPolicySet then [leAt e 0x10 8, leAt e 0x20 8]
  else []

/-- A length of the entry that needs no body to check differs from what its rule requires (R300, R304). -/
def lengthWrong (e : List Byte) : Bool :=
  let op := entryOpcode e
  if op = opGroupDefine then leAt e 0x10 4 != 4672
  else if op = opPolicySet ∧ byteAt e 8 = policyTrim then leAt e 0x18 4 != 36992 && leAt e 0x18 4 != 0
  else false

/-- The entry names a body, list or image that is read. -/
def namesBody (e : List Byte) : Bool :=
  let op := entryOpcode e
  op == opGrantRequest || op == opGroupDefine || op == opSubscribe || op == opStage ||
    (op == opModelLoad && leAt e 0x18 4 != 0) ||
    (op == opPolicySet && byteAt e 8 == policyTrim && leAt e 0x18 4 != 0)

/-- BODY_LEN of a grant request against N_RECT of the body it names (R236, R300). -/
def bodyLengthWrong (e body : List Byte) : Bool :=
  entryOpcode e == opGrantRequest && leAt e 0x10 4 != 32 + 8 * byteAt body 2

/-- The checks of R308 in their order; the detail of the first that fails. -/
def entryCheck (e : List Byte) (body : HostRead) : Option Nat :=
  let op := entryOpcode e
  if op = 0 ∨ 10 < op then some 0xF0
  else if maxCount e < entryCount e then some 0xF1
  else if reservedSet e then some 0xF2
  else if (entryAddrs e).any (fun a => a % 64 != 0) ∨ lengthWrong e then some 0xF3
  else if namesBody e then
    match body with
    | none => some 0xF4
    | some b => if bodyLengthWrong e b then some 0xF3 else none
  else none

/-! ### Entries that Renoth writes -/

/-- PHASE of entry `i` of a ring of `size` entries (R295). -/
def phaseBit (i size : Nat) : Nat := 1 - (i / size) % 2

/-- A completion entry (R309). -/
def completionBytes (phase : Nat) (c : Completion) : List Byte :=
  leBytes 1 (phase + 2 * bitNat c.interim) ++ leBytes 1 c.code ++ leBytes 1 c.detail ++ leBytes 1 c.opcode ++
    leBytes 4 c.tag ++ leBytes 4 c.index.toNat ++ zeros 4 ++ padTo 48 c.result

/-- A telemetry entry (R311). -/
def telemetryBytes (phase : Nat) (tseq : Word) (t : TelRec) : List Byte :=
  leBytes 1 phase ++ leBytes 1 t.type ++ leBytes 1 t.region ++ zeros 1 ++ leBytes 4 tseq.toNat ++
    leBytes 4 t.period.toNat ++ zeros 4 ++ padTo 48 t.body

/-- An event record (R427). -/
def recBytes (x : Rec) : List Byte :=
  leBytes 6 x.seq.toNat ++ leBytes 2 x.rep ++ leBytes 2 (x.code % 128 + 128 * (x.level % 8) + 1024 * (x.argx % 64)) ++
    leBytes 2 x.source ++ leBytes 4 x.arg.toNat

/-- An event-export entry (R315). -/
def evxBytes (phase : Nat) (gap : Bool) (rs : List Rec) : List Byte :=
  let first := (rs.head?.map (fun x => x.seq.toNat)).getD 0
  leBytes 1 (phase + 2 * bitNat gap) ++ leBytes 1 rs.length ++ leBytes 6 first ++ zeros 8 ++
    padTo 48 (rs.flatMap recBytes)

/-! ### The limiter setting word (R155) -/

/-- A setting word taken apart. -/
structure SettingWord where
  mode  : Nat
  addr  : Nat
  core  : Nat
  kind  : Nat
  code  : Nat
  slope : Nat
  flag  : Bool
deriving DecidableEq, Repr

def settingOf (w : Word) : SettingWord :=
  let n := w.toNat
  ⟨bitsOf n 0 2, bitsOf n 2 10, bitsOf n 12 5, bitsOf n 17 2, bitsOf n 19 7, bitsOf n 26 3, bitOf n 29⟩

/-- The number of 1s among the bits of `n` at the positions listed. -/
def onesAt (n : Nat) (ps : List Nat) : Nat := (ps.map (fun i => bitNat (bitOf n i))).sum

def evenBits : List Nat := [0, 2, 4, 6, 8, 10, 12, 14, 16, 18, 20, 22, 24, 26, 28]
def oddBits : List Nat := [1, 3, 5, 7, 9, 11, 13, 15, 17, 19, 21, 23, 25, 27, 29]

/-- PAR: bit 30 is the even parity over the even-numbered bits 28:0, bit 31 over the odd-numbered bits 29:1. -/
def parityOk (w : Word) : Bool :=
  let n := w.toNat
  decide (onesAt n evenBits % 2 = bitNat (bitOf n 30)) && decide (onesAt n oddBits % 2 = bitNat (bitOf n 31))

/-- The word that carries a setting, with its parity. -/
def settingWord (x : SettingWord) : Word :=
  let n := x.mode % 4 + 4 * (x.addr % 1024) + 4096 * (x.core % 32) + 2 ^ 17 * (x.kind % 4) + 2 ^ 19 * (x.code % 128) +
    2 ^ 26 * (x.slope % 8) + 2 ^ 29 * bitNat x.flag
  BitVec.ofNat 32 (n + 2 ^ 30 * (onesAt n evenBits % 2) + 2 ^ 31 * (onesAt n oddBits % 2))

end Sys2Proof.Machine
end

