-- ==== Sys2Proof/Machine/Rings.lean ====
section
/-!
DEFINITION. The ring engine: doorbells (R292, R293), taking entries (R297, R298, R308), completions (R295, R309),
telemetry (R311–R314), restart (R294), interrupts and coalescing (R318, R319).
-/

namespace Sys2Proof.Machine

def State.ring (s : State) (k : Nat) : Ring := s.hub.rings.ring.get k

/-- The command entries of ring `k` taken and not finally completed (R324 INFLIGHT). -/
def State.inflight (s : State) (k : Nat) : Nat :=
  (s.hub.rings.taken.filter (fun t => t.ring == k)).length +
    (s.hub.rings.comps.filter (fun c => c.ring == k && !c.interim)).length

/-- The free slots of a ring that Renoth fills (R292). -/
def State.freeSlots (s : State) (k : Nat) : Nat :=
  let n := ((s.ring k).pi - (s.ring k).ci).toNat
  if n ≤ s.ringSize k then n else 0

/-- The name by which work in hand refers to a taken entry. -/
def Taken.cmd (t : Taken) : CmdRef := (t.ring, t.order)

/-- The DEFERRED completion of a FIRMWARE_ACTIVATE has been formed (R13). -/
def State.saidDeferred (s : State) (t : Taken) : Bool :=
  s.hub.fw.act.any (fun a => decide (a.cmd = t.cmd) && a.said)

/-- Completion slots of CPL ring `k` already spoken for: a waiting completion takes one; a taken entry takes one, and a
FIRMWARE_ACTIVATE two until its DEFERRED completion is formed (R297). -/
def State.reservedSlots (s : State) (k : Nat) : Nat :=
  (s.hub.rings.comps.filter (fun c => c.ring == k)).length +
    ((s.hub.rings.taken.filter (fun t => t.ring == k)).map (fun t =>
      if t.opcode = opActivate ∧ t.count ≠ 0 ∧ s.saidDeferred t = false then 2 else 1)).sum

/-- The host base address of ring `k` (R323). -/
def State.ringBase (s : State) (k : Nat) : Nat := s.setup.word (offRing k) + 2 ^ 32 * s.setup.word (offRing k + 4)

/-- Where the entry of index `i` sits in host memory (R291). -/
def State.entryAddr (s : State) (k i : Nat) : Nat := s.ringBase k + 64 * (i % s.ringSize k)

/-- A ring stops; a stopped CPL ring stops the command ring of its pair (R293). -/
def State.stopRing (s : State) (k : Nat) (f : Ring → Ring) : State :=
  let t := s.modRing k (fun g => { f g with stopped := true })
  if 8 ≤ k ∧ k < 16 then t.modRing (k - 8) (fun g => { g with stopped := true }) else t

/-- A failed host-memory access of ring `k` (R324 MEM_ERR). -/
def State.memError (s : State) (k : Nat) : State :=
  (s.stopRing k (fun g => { g with memErr := true })).raise 194 2

/-- The doorbell of ring `k` with value `v` (R292, R293). -/
def ringDoorbell (k : Nat) (v : Word) (s : State) : State :=
  let g := s.ring k
  let size := s.ringSize k
  if s.pow.regOpen = false ∨ size = 0 ∨ g.stopped = true then s
  else
    let back := (g.pi - v).toNat
    let ahead := (v - g.ci).toNat
    if (1 ≤ back ∧ back ≤ size) ∨ size < ahead then
      ((s.stopRing k (fun g => { g with dbErr := true })).raise 194 0).hubEmit (.msix 10)
    else s.modRing k (fun g => { g with pi := v })

/-- An entry is written to a ring that Renoth fills, bytes 8 to 63 first and bytes 0 to 7 second (R295): its index
advances and its vector signals as COAL_CNT and COAL_US say (R319). -/
def State.wrote (s : State) (k : Nat) (bytes : List Byte) : State :=
  let g := s.ring k
  let cfg := offRing k + 8
  let cnt := g.coalCnt + 1
  let a := s.entryAddr k g.ci.toNat
  let t := (s.emit (.ringWrite k (a + 8) (bytes.drop 8))).emit (.ringWrite k a (bytes.take 8))
  if s.cfg cfg 16 8 ≤ cnt then
    (t.modRing k (fun g => { g with ci := g.ci + 1, coalCnt := 0, coalOn := false })).emit (.msix (s.cfg cfg 8 4))
  else t.modRing k (fun g => { g with ci := g.ci + 1, coalCnt := cnt, coalOn := decide (0 < s.cfg cfg 24 8) })

/-- Ring `k` can be written: enabled, running, with a free slot (R292, R293). -/
def State.writable (s : State) (k : Nat) : Bool :=
  decide (0 < s.ringSize k) && !(s.ring k).stopped && decide (0 < s.freeSlots k)

/-- A LOSS record is due and TEL has a slot: it is written with its own TSEQ (R312, R314). -/
def writeLoss (s : State) : State :=
  let phase := phaseBit (s.ring 16).ci.toNat (s.ringSize 16)
  let rec' : TelRec := ⟨0x1F, 0xFF, s.period, leBytes 4 s.hub.rings.lossDue, false, 0⟩
  (s.wrote 16 (telemetryBytes phase s.hub.rings.tseq rec')).modRings
    (fun g => { g with tseq := g.tseq + 1, lossDue := 0 })

/-- CMD_DOORBELL (R292, R293). -/
def execCmdDoorbell (ring : Fin 8) (p : Word) (s : State) : Host.Outcome State Fault Refusal :=
  .next (journaled (bothHubs (ringDoorbell ring p)) s)

/-- The doorbell of a filled ring (R292, R293); slots freed in TEL let a LOSS record that is due be written (R314). -/
def filledDoorbell (k : Nat) (f : Word) (s : State) : State :=
  let t := bothHubs (ringDoorbell k f) s
  if k = 16 ∧ 0 < t.hub.rings.lossDue ∧ t.inControl ∧ t.writable 16 then writeLoss t else t

/-- FILLED_RING_DOORBELL. -/
def execFilledRingDoorbell (ring : Fin 10) (f : Word) (s : State) : Host.Outcome State Fault Refusal :=
  .next (journaled (filledDoorbell (8 + ring.val) f) s)

/-! ### Taking entries -/

/-- The firmware processor of the owning hub that executes an opcode: 0 security, 1 power-management, 2 scheduler; none
for the ring engine and hub hardware (R299). -/
def executor (op : Nat) : Option Nat :=
  if op = opGrantRequest ∨ op = opGrantRelease ∨ op = opGroupDefine then some 2
  else if op = opCapSet ∨ op = opPolicySet then some 1
  else if op = opStage ∨ op = opActivate then some 0
  else none

/-- A processor of the owning hub. -/
def State.ownerCore (s : State) (k : Nat) : HubCore :=
  let u := s.hubOf (s.owner.getD .a)
  if k = 0 then u.core0 else if k = 1 then u.core1 else u.core2

/-- Grants in admission or delivery (R241, R265 INFLIGHT). -/
def Thyme.inflight (t : Thyme) : Nat :=
  t.table.count 65536 (fun g => decide (g.state = .reserving ∨ g.state = .decided ∨ g.state = .delivering))

/-- The executing core holds no running image or is stopped (R368); the security core's ROM executes its commands then
(R355, R463). -/
def State.coreAbsent (s : State) (op : Nat) : Bool :=
  match executor op with
  | none => false
  | some k =>
    let st := (s.ownerCore k).state
    decide (st = .stopped ∨ st = .empty) && k != 0

/-- Grants in admission or delivery, and the requests taken that Thyme has still to take up (R241). -/
def State.grantLoad (s : State) : Nat :=
  s.hub.thyme.inflight +
    (s.hub.rings.taken.filter (fun t => t.opcode == opGrantRequest && !t.started)).length

/-- The executing core holds an entry back in its ring: it is restarting, held or halted, Thyme takes no further request,
or an activation is in progress (R241, R297, R372, R377, R493). A core that is stopped or empty holds nothing (R368). -/
def State.coreHolds (s : State) (op : Nat) : Bool :=
  match executor op with
  | none => false
  | some k =>
    let st := (s.ownerCore k).state
    !s.coreAbsent op &&
      (decide (st = .restarting ∨ st = .held ∨ st = .halted) ||
        (op == opActivate && (s.hub.fw.act.isSome || s.hub.rings.taken.any (fun t => t.opcode == opActivate))) ||
        (op == opGrantRequest && (decide (16 ≤ s.grantLoad) || s.hub.thyme.drain)))

/-- Ring `k` has an entry before its producer index, runs, and has a completion slot to reserve (R292, R297). -/
def State.entryWaits (s : State) (k : Nat) : Bool :=
  let g := s.ring k
  let n := (g.pi - g.ci).toNat
  decide (0 < s.ringSize k) && !g.stopped && !g.hold && decide (1 ≤ n ∧ n ≤ s.ringSize k) &&
    decide (s.inflight k < 64) && decide (s.reservedSlots k < s.freeSlots (8 + k)) && !(s.ring (8 + k)).stopped

/-- Entry `e` of ring `k` can be taken now (R297): FENCE, the second slot of FIRMWARE_ACTIVATE, and the executing core,
which an entry of COUNT 0 does not wait for. -/
def State.entryFree (s : State) (k : Nat) (e : List Byte) : Bool :=
  (!entryFence e || decide (s.inflight k = 0)) &&
    (entryCount e == 0 ||
      (!s.coreHolds (entryOpcode e) &&
        (entryOpcode e != opActivate || decide (s.reservedSlots k + 1 < s.freeSlots (8 + k)))))

/-- The next ring in round-robin order whose next entry can be taken, or whose entry cannot be read (R297). -/
def State.nextRing (s : State) (heads : List (HostRead × HostRead)) : Option (Nat × HostRead × HostRead) :=
  ((List.range 8).map (fun i => (s.hub.rings.lastRing + 1 + i) % 8)).findSome? (fun k =>
    let h := heads.getD k (none, none)
    if s.entryWaits k && (match h.1 with | none => true | some e => s.entryFree k e) then some (k, h.1, h.2) else none)

/-- Hardware opens the security cores' gates (R453). -/
def State.wakeGsec (s : State) : State := s.modPow (fun p => { p with gsecA := false, gsecB := false })

/-- Hardware opens the gate of the security core that serves the mailbox, the owning hub's (R338, R453). -/
def State.wakeServer (s : State) : State :=
  match s.owner with
  | some .a => s.modPow (fun p => { p with gsecA := false })
  | some .b => s.modPow (fun p => { p with gsecB := false })
  | none => s.wakeGsec

/-- An entry is taken from ring `k` and checked (R297, R298, R308, R368); FIRMWARE_STAGE and FIRMWARE_ACTIVATE wake GSEC (R453). -/
def admitEntry (k : Nat) (e : List Byte) (body : HostRead) (s : State) : State :=
  let idx := (s.ring k).ci
  let op := entryOpcode e
  let n := s.hub.rings.order
  let t := ((s.emit (.ringRead k (s.entryAddr k idx.toNat))).modRing k (fun g => { g with ci := g.ci + 1 })).modRings
    (fun g => { g with
      lastRing := k
      order := g.order + 1
      taken := g.taken ++
        [⟨k, idx, op, entryFlags e, entryCount e, entryTag e, e, body.getD [], false, g.order, s.period⟩] })
  if entryCount e = 0 then t.complete (k, n) codeOk 0
  else
  let t := if op = opStage ∨ op = opActivate then t.wakeGsec else t
  match entryCheck e body with
  | some d => t.complete (k, n) codeBadArg d
  | none =>
    if s.coreAbsent op then t.complete (k, n) codeBadArg 0xB4
    else if op = opPolicySet ∧ byteAt e 8 ≠ policyTrim ∧ byteAt e 8 ≠ policyRestore then
      t.complete (k, n) codeBadArg 0x80
    else if op = opQuery ∧ (byteAt e 8 = 0 ∨ 3 < byteAt e 8) then
      (t.complete (k, n) codeBadArg (Config.freeValue s.fresh % 256)).nextFree
    else t

/-- What the ring engine does with the next entry (R297); an entry that cannot be read stops its ring (R324). -/
def takeNext (heads : List (HostRead × HostRead)) (onlyZero : Bool) (s : State) : State :=
  if s.inControl = false ∨ s.pow.regOpen = false then s
  else match s.nextRing heads with
  | none => s
  | some (k, none, _) =>
    if onlyZero then s else (s.emit (.ringRead k (s.entryAddr k (s.ring k).ci.toNat))).memError k
  | some (k, some e, body) => if onlyZero && entryCount e != 0 then s else admitEntry k e body s

/-- COMMAND_TAKE (R297, R308). -/
def execCommandTake (heads : List (HostRead × HostRead)) (s : State) : Host.Outcome State Fault Refusal :=
  .next (journaled (takeNext heads false) s)

/-- COUNT_ZERO_ENTRY (R298). -/
def execCountZeroEntry (heads : List (HostRead × HostRead)) (s : State) : Host.Outcome State Fault Refusal :=
  .next (journaled (takeNext heads true) s)

/-- Commands whose effects are at one level keep the order in which they were taken, across all rings (R316): Thyme's; the two
forms of CAP_SET; model loads and unloads; each kind of POLICY_SET; each kind of query. -/
def Taken.level (t : Taken) : Nat :=
  if t.opcode = opGrantRequest ∨ t.opcode = opGrantRelease ∨ t.opcode = opGroupDefine then 0x10200
  else if t.opcode = opPolicySet ∨ t.opcode = opQuery then 256 * t.opcode + byteAt t.entry 8
  else 256 * t.opcode

/-- The taken entry of an opcode that has `p`, where its turn has come among those of its level (R316); a request that waits for
Thyme to drain holds nothing else up (R372). -/
def State.firstTaken (s : State) (op : Nat) (p : Taken → Bool) : Option Taken :=
  match s.hub.rings.taken.find? (fun t => !t.started && t.opcode == op && p t) with
  | none => none
  | some x =>
    (s.hub.rings.taken.find? (fun t => !t.started && t.level == x.level &&
      !(s.hub.thyme.drain && t.opcode == opGrantRequest && op != opGrantRequest))).filter (fun t => t.opcode == op && p t)

/-- An entry's execution begins. -/
def State.begin (s : State) (t : Taken) : State :=
  s.modRings (fun g => { g with
    taken := g.taken.map (fun u => if u.ring = t.ring ∧ u.order = t.order then { u with started := true } else u) })

/-- The taken entry of an opcode whose turn it is, is executed: by hub hardware when no core executes it; not while its core is
restarting, held or halted; and completed with 0xB4 where the core has stopped or lost its image (R297, R299, R368). -/
def runTaken (op : Nat) (p : Taken → Bool) (f : Taken → State → State) (s : State) : State :=
  if s.inControl = false then s
  else match s.firstTaken op p with
  | none => s
  | some t =>
    if s.coreAbsent op then s.complete t.cmd codeBadArg 0xB4
    else match executor op with
    | none => f t s
    | some k =>
      let st := (s.ownerCore k).state
      if st = .running ∨ st = .held ∨ (k = 0 ∧ (st = .empty ∨ st = .stopped)) then f t s else s

/-! ### Writing -/

/-- COMPLETION_WRITE (R295, R309): the first waiting completion whose ring can be written and whose journal entry is
acknowledged (R390). -/
def writeCompletion (ok : Bool) (s : State) : State :=
  if s.inControl = false then s
  else match s.hub.rings.comps.find? (fun c => s.writable (8 + c.ring) && s.mayLeave c.jn) with
  | none => s
  | some c =>
    let k := 8 + c.ring
    if ok then
      (s.wrote k (completionBytes (phaseBit (s.ring k).ci.toNat (s.ringSize k)) c)).modRings
        (fun g => { g with comps := g.comps.erase c })
    else s.memError k

def execCompletionWrite (writeOk : Bool) (s : State) : Host.Outcome State Fault Refusal :=
  .next (journaled (writeCompletion writeOk) s)

/-- A GRANT record waits for the accepting completion of its grant, formed or still to be formed, a GROUP_CAP record for the
completion of the GROUP_DEFINE of its group (R316). -/
def State.telBlocked (s : State) (t : TelRec) : Bool :=
  let g := s.hub.thyme.table.get (leAt t.body 0 2)
  (t.type == 0x10 && ((g.cmd.isSome && g.gen == leAt t.body 2 2) || s.hub.rings.comps.any (fun c =>
    c.opcode == opGrantRequest && c.code == codeOk && c.result.take 4 == t.body.take 4))) ||
  (t.type == 0x12 && s.hub.rings.comps.any (fun c => c.opcode == opGroupDefine))

/-- TELEMETRY_RECORD_WRITE (R314): the oldest formed record goes to TEL; with no free slot the oldest subscribed record
is discarded. -/
def writeTelemetry (ok : Bool) (s : State) : State :=
  let g := s.hub.rings
  if s.inControl = false then s
  else if s.writable 16 then
    match g.tel.head? with
    | none => s
    | some t =>
      if s.mayLeave t.jn = false ∨ s.telBlocked t then s
      else if ok = false then s.memError 16
      else if 0 < g.lossDue then writeLoss s
      else (s.wrote 16 (telemetryBytes (phaseBit (s.ring 16).ci.toNat (s.ringSize 16)) g.tseq t)).modRings
        (fun g => { g with tseq := g.tseq + 1, tel := g.tel.tail })
  else match g.tel.find? (fun t => t.sub) with
    | none => s
    | some t => s.modRings (fun g => { g with tel := g.tel.erase t, drop := g.drop + 1 })

def execTelemetryRecordWrite (writeOk : Bool) (s : State) : Host.Outcome State Fault Refusal :=
  .next (journaled (writeTelemetry writeOk) s)

/-- COALESCING_TIMER (R319): COAL_US after the first entry written since the ring last signalled. -/
def coalesce (k : Nat) (s : State) : State :=
  if s.inControl ∧ (s.ring k).coalOn then
    (s.modRing k (fun g => { g with coalCnt := 0, coalOn := false })).hubEmit (.msix (s.cfg (offRing k + 8) 8 4))
  else s

def execCoalescingTimer (ring : RingId) (s : State) : Host.Outcome State Fault Refusal :=
  .next (journaled (coalesce ring) s)

/-! ### Restart -/

/-- RESTART marks rings; the next control-period boundary applies it (R294). -/
def askRestart (ks : List Nat) (s : State) : State :=
  if s.pow.regOpen then s.modRings (fun g => { g with ring := g.ring.modifyAll ks (fun _ r => { r with restart := true }) })
  else s

/-- RESTART_PAIR (R294): bit n names CMDn and CPLn. -/
def execRestartPair (mask : BitVec 8) (s : State) : Host.Outcome State Fault Refusal :=
  let ks := onesOf 8 mask.toNat
  .next (journaled (bothHubs (askRestart (ks ++ ks.map (· + 8)))) s)

/-- RESTART_TEL (R294). -/
def execRestartTel (s : State) : Host.Outcome State Fault Refusal :=
  .next (journaled (bothHubs (askRestart [16])) s)

/-- RESTART_EVX (R294). -/
def execRestartEvx (s : State) : Host.Outcome State Fault Refusal :=
  .next (journaled (bothHubs (askRestart [17])) s)

/-- RING_RESTART_APPLY (R294): at the boundary the indices are 0 and STOPPED, DB_ERR and MEM_ERR are clear. -/
def applyRestarts (s : State) : State :=
  s.modRings (fun g => { g with ring := g.ring.mapAll (fun r =>
    if r.restart then { r with pi := 0, ci := 0, stopped := false, dbErr := false, memErr := false, restart := false }
    else r) })

/-! ### TELEMETRY_SUBSCRIBE -/

/-- Item `k` of a subscription list (R313). -/
def subItem (l : List Byte) (k : Nat) : SubItem :=
  ⟨byteAt l (16 * k), byteAt l (16 * k + 1), BitVec.ofNat 64 (leAt l (16 * k + 8) 8)⟩

/-- The number of 1 bits of a region mask. -/
def popcount64 (m : BitVec 64) : Nat := (onesOf 64 m.toNat).length

/-- What makes a list malformed (R313, detail 0x90). -/
def subListBad (items : List SubItem) : Bool :=
  items.any (fun i => decide (2 < i.type) ||
      (i.type != 0 && (!inRange 4 15 i.decim || i.mask == 0)) ||
      (i.type == 0 && (i.decim != 0 || i.mask != 0))) ||
    decide (¬ (items.map SubItem.type).Nodup) ||
    (items.any (fun i => i.type == 0) && decide (1 < items.length))

/-- The list's rate in records per 2^15 µs (R313). -/
def subRate (items : List SubItem) : Nat :=
  ((items.filter (fun i => i.type != 0)).map (fun i => popcount64 i.mask * 2 ^ (15 - i.decim))).sum

/-- TELEMETRY_SUBSCRIBE (R313). -/
def subscribe (t : Taken) (s : State) : State :=
  let items := (List.range t.count).map (subItem t.body)
  if subListBad items then s.complete t.cmd codeBadArg 0x90
  else if 8 * 2 ^ 15 < subRate items then s.complete t.cmd codeBudget 0x27
  else (s.modRings (fun g => { g with subs := items.filter (fun i => i.type != 0) })).complete t.cmd codeOk 0

def execTelemetrySubscribe (s : State) : Host.Outcome State Fault Refusal :=
  .next (journaled (runTaken opSubscribe (fun _ => true) subscribe) s)

end Sys2Proof.Machine
end

