-- ==== Sys2Proof/Machine/Setup.lean ====
section
/-!
DEFINITION. Shadows, locks, apply boundaries, agreement groups and DISCARD (R472–R480), with the deferrals of R263 and
R323.
-/

namespace Sys2Proof.Machine

/-- The period count as a number. -/
def State.now (s : State) : Nat := s.period.toNat

/-- The apply boundary of a write made now (R475): the next boundary, or the one after when the write lands within the
hub's margin; five boundaries on where the 2,400-cycle margin holds. -/
def State.dueFor (s : State) (d : RegDef) (within : Bool) : Nat :=
  if d.slow then s.now + 5 else if within then s.now + 2 else s.now + 1

/-- The offset lies in a region block (R469). -/
def inRegionBlock (off : Nat) : Bool := decide (0x100000 ≤ off ∧ off < 0x140000)

/-- A shadow that a governor has still to get is sent to it with the period count of its apply boundary (R475). -/
def sendShadow (s : State) (x : Shadow) : State :=
  match x.due with
  | some p =>
    if x.sent then s else s.hubSend (.shadows ((x.offset - 0x100000) / 0x1000) (BitVec.ofNat 48 p) x.offset x.word)
  | none => s

/-- A shadow takes part in this boundary's checks (R475, R476): it is due, and a governor's has reached it. -/
def Shadow.ready (now : Nat) (x : Shadow) : Bool :=
  x.sent && (match x.due with | some p => decide (p ≤ now) | none => false)

/-- What a write of `v` to the register at `off` leaves of the pending shadows: the new one takes the place of one that is not yet
due; one that is due stays, and is checked, until the new one is due (R477, R478, R482). -/
def Setup.joinShadow (u : Setup) (now : Nat) (x : Shadow) : Setup :=
  { u with shadows := u.shadows.filter (fun y => y.offset != x.offset || y.ready now) ++ [x] }

/-- The fault collector is frozen: its set-up group takes no write (R421). -/
def State.fcFrozen (s : State) (d : RegDef) : Bool := d.code == 0x0E && (s.hubOf (s.owner.getD .a)).coll.frozen

/-- A write of `v` to the set-up register at `off` (R421, R472, R474, R475): ignored with LOCK_WR when its instance is locked, and
in the safe state when it belongs to the collector; otherwise it becomes the register's shadow, and a governor's shadow is sent
with its apply boundary. -/
def writeSetup (off v : Nat) (within : Bool) (s : State) : State :=
  match regDef off with
  | none => s
  | some d =>
    if s.fcFrozen d then s
    else if s.setup.locked d then s.modSetup (fun u => { u with lockWr := true })
    else
      let due := if s.setup.hold then none else some (s.dueFor d within)
      let sh : Shadow := ⟨off, BitVec.ofNat 32 (v &&& d.fields), BitVec.ofNat 32 d.fields, due, !inRegionBlock off⟩
      sendShadow (s.modSetup (fun u => u.joinShadow s.now sh)) sh

/-- HOLD and SHADOW_SEL take the values written (R477): while HOLD is 1 no shadow becomes due; when it is cleared
every pending shadow is due at the boundary counted from the clear, and the governors get theirs. -/
def writeHold (hold shadowSel within : Bool) (s : State) : State :=
  let u := s.setup
  let reDue (x : Shadow) : Shadow :=
    if hold && !u.hold then
      match x.due with
      | some p => if p ≤ s.now then x else { x with due := none }
      | none => x
    else if !hold && u.hold then
      match x.due, regDef x.offset with
      | none, some d => { x with due := some (s.dueFor d within), sent := !inRegionBlock x.offset }
      | _, _ => x
    else x
  let t := s.modSetup (fun u => { u with hold := hold, shadowSel := shadowSel, shadows := u.shadows.map reDue })
  if !hold && u.hold then t.setup.shadows.foldl sendShadow t else t

/-- HOLD_WRITE (R477). -/
def execHoldWrite (hold shadowSel within : Bool) (s : State) : Host.Outcome State Fault Refusal :=
  .next (journaled (fun s => if s.pow.regOpen then writeHold hold shadowSel within s else s) s)

/-- The instance of a set-up register is the one that a DISCARD of code `gid` and index `idx` names (R471, R479). -/
def RegDef.named (d : RegDef) (gid idx : Nat) : Bool :=
  gid == 0xFF || (d.code == gid && d.idx == idx) ||
    ((gid == 2 || gid == 3) && (d.code == 2 || d.code == 3) && d.idx == idx)

/-- The bit of a lock register that is the lock: bit 31 of the register that holds it. -/
def lockBits (x : Shadow) (d : RegDef) : Nat := if x.offset = d.lockOff then lockMask else 0

/-- What a DISCARD leaves of a shadow (R471, R479, R472): nothing of a named instance; of a Sage register under the
other code everything but the lock bit; everything of a locked instance; the lock bit of a wafer-wide instance goes
with any of its indices. -/
def discardShadow (u : Setup) (gid idx : Nat) (x : Shadow) : Option Shadow :=
  match regDef x.offset with
  | none => some x
  | some d =>
    let keep (m : Nat) : Option Shadow :=
      let m' := x.mask &&& BitVec.ofNat 32 m
      if m' = 0 then none else some { x with mask := m' }
    if u.locked d then some x
    else if gid = 0xFF ∨ (d.code = gid ∧ d.idx = idx) then none
    else if d.named gid idx then keep (0xFFFFFFFF ^^^ lockBits x d)
    else if (gid = 0x0A ∧ x.offset = 0x10400) ∨ (gid = 0x0E ∧ x.offset = 0x20000) then keep (0x7FFFFFFF)
    else some x

/-- DISCARD (R479): the hold of a named instance ends; a locked instance ignores it and stays held (R472). -/
def discard (gid idx : Nat) (s : State) : State :=
  s.modSetup (fun u =>
    let left := u.shadows.filterMap (discardShadow u gid idx)
    let stays (h : HeldInst) : Bool := left.any (fun x => match regDef x.offset with
      | some d => u.locked d && d.code == h.gid && d.idx == h.idx && decide (d.agree &&& x.mask.toNat ≠ 0)
      | none => false)
    { u with
      shadows := left
      held := u.held.filter (fun h => !(gid == 0xFF || (h.gid == gid && h.idx == idx)) || stays h) })

/-- DISCARD_GO (R479). -/
def execDiscardGo (gid idx : Byte) (s : State) : Host.Outcome State Fault Refusal :=
  .next (if s.pow.regOpen then discard gid.toNat idx.toNat s else s)

/-! ### The boundary -/

/-- Of two due shadows of one register the later write stands (R478, R482). -/
def Setup.latest (u : Setup) (now : Nat) : Setup :=
  { u with shadows := u.shadows.foldr (fun x acc =>
      if x.ready now && acc.any (fun y => y.offset == x.offset && y.ready now) then acc else x :: acc) [] }

/-- A word with the bits of a mask taken from another. -/
def mergeBits (old new mask : Nat) : Nat := (old &&& (0xFFFFFFFF ^^^ mask)) ||| (new &&& mask)

/-- The full image of an instance: each due shadow where one exists, the in-force word otherwise (R478). -/
def imageWord (u : Setup) (now off : Nat) : Nat :=
  match u.shadows.find? (fun x => x.offset == off && x.ready now) with
  | some x => mergeBits (u.word off) x.word.toNat x.mask.toNat
  | none => u.word off

/-- OPs in force or staged anywhere (R263, R265 IN_USE); OP0 always. -/
def State.opsInUse (s : State) : List Nat :=
  0 :: ((List.range nRegions).flatMap (fun r => (s.region r).resvs.flatMap (fun v => v.phases))).eraseDups

/-- A due shadow that passed its check waits for its chapter's own reason (R480): OP_n while in use (R263), a ring of a
pair whose command ring has entries in flight (R323). -/
def State.deferred (s : State) (off : Nat) : Bool :=
  if 0x7040 ≤ off ∧ off < 0x7080 then decide ((off - 0x7040) / 4 ∈ s.opsInUse)
  else if 0x10000 ≤ off ∧ off < 0x10200 then
    let k := (off - 0x10000) / 0x20
    decide (0 < s.inflight (if k < 8 then k else k - 8))
  else false

/-- Agreement units, as (code, index), with a due shadow among their fields. -/
def Setup.dueUnits (u : Setup) (now : Nat) : List (Nat × Nat) :=
  ((u.shadows.filter (fun x => x.ready now)).filterMap (fun x =>
    match regDef x.offset with
    | some d => if d.agree &&& x.mask.toNat = 0 then none else some (d.code, d.idx)
    | none => none)).eraseDups

/-- Apply the bits of `mask` of every ready shadow that `p` names: the in-force words change, and what remains of each
shadow stays pending. -/
def Setup.applyBits (u : Setup) (now : Nat) (p : Shadow → RegDef → Nat) : Setup :=
  u.shadows.foldl (fun (acc : Setup) (x : Shadow) =>
    match regDef x.offset with
    | none => acc
    | some d =>
      if x.ready now then
        let m := p x d &&& x.mask.toNat
        let rest := x.mask.toNat &&& (0xFFFFFFFF ^^^ m)
        let acc1 := acc.putWord x.offset (mergeBits (acc.word x.offset) x.word.toNat m)
        if rest = 0 then acc1 else { acc1 with shadows := acc1.shadows ++ [{ x with mask := BitVec.ofNat 32 rest }] }
      else { acc with shadows := acc.shadows ++ [x] })
    { u with shadows := [] }

/-- The two Sage codes share an instance with the lock in SAGE_CFG; every other instance is named by its lock's
offset. A lock waits while any due shadow of its instance is pending (R473). -/
def lockWaits (u : Setup) (now : Nat) (lockOff : Nat) : Bool :=
  u.shadows.any (fun x => x.ready now && (match regDef x.offset with
    | some d => d.lockOff == lockOff && decide (x.mask.toNat &&& 0x7FFFFFFF ≠ 0 ∨ x.offset ≠ lockOff)
    | none => false))

/-- SHADOW_APPLY (R473, R476–R480): the units that pass apply together, fields of no agreement group apply on their own,
locks apply last, and the units that fail are held and counted. While the collector is frozen the fault group's shadows
are not applied (R482). -/
def applyShadows (frozen : Bool) (s : State) : State :=
  let now := s.now
  let u := s.setup.latest now
  let units := u.dueUnits now
  let pass := units.filter (fun c => agreeCheck (imageWord u now) c.1 c.2)
  let fail := units.filter (fun c => !agreeCheck (imageWord u now) c.1 c.2)
  let frozenOut (d : RegDef) : Bool := frozen && d.code == 0x0E
  let ringsBefore := (List.range 18).map s.ringSize
  let u1 := u.applyBits now (fun x d =>
    if frozenOut d then 0
    else (if (d.code, d.idx) ∈ pass ∧ s.deferred x.offset = false then d.agree else 0) |||
      (d.fields &&& (0xFFFFFFFF ^^^ d.agree) &&& (0xFFFFFFFF ^^^ lockBits x d)))
  let u2 := u1.applyBits now (fun x d =>
    if frozenOut d ∨ lockWaits u1 now d.lockOff then 0 else lockBits x d)
  let held := fail.map (fun c =>
    match u.held.find? (fun h => h.gid == c.1 && h.idx == c.2) with
    | some h => { h with periods := h.periods + 1 }
    | none => ⟨c.1, c.2, 1, false⟩)
  let t := { s with setup := { u2 with held := held } }
  let enabled := (List.range 18).filter (fun k => ringsBefore.getD k 0 == 0 && t.ringSize k != 0)
  let holdNow (k : Nat) : Bool := t.setup.shadows.any (fun x => x.ready now && decide (offRing k ≤ x.offset) &&
    decide (x.offset < offRing k + 0x20) && s.deferred x.offset && decide ((0x0A, k) ∈ pass))
  let holdPair (k : Nat) : Bool := if k < 8 then holdNow k || holdNow (k + 8) else holdNow k
  let open0 (g : SMap Ring) : SMap Ring := g.modifyAll enabled (fun _ r => { r with pi := 0, ci := 0 })
  let mark (g : SMap Ring) : SMap Ring := g.modifyAll (List.range 18) (fun k r => { r with hold := holdPair k })
  t.modRings (fun g => { g with ring := mark (open0 g.ring) })

/-- CONSISTENCY_HOLD_LIMIT (R479): one event once an instance has been held for 64 consecutive control periods. -/
def consistLimit (gid idx : Nat) (s : State) : State :=
  match s.setup.held.find? (fun h => h.gid == gid && h.idx == idx) with
  | none => s
  | some h =>
    if h.periods < 64 ∨ h.raised then s
    else (s.modSetup (fun u => { u with
      held := u.held.map (fun x => if x.gid = gid ∧ x.idx = idx then { x with raised := true } else x) })).raise 210 0

def execConsistencyHoldLimit (gid idx : Byte) (s : State) : Host.Outcome State Fault Refusal :=
  .next (consistLimit gid.toNat idx.toNat s)

/-- SHADOW_DELIVERY (R475): a governor receives its region's shadows; one that comes after the named boundary applies at
the next, sets APPLY_LATE and raises the governor-unresponsive cause of BUDGET. -/
def deliverShadows (r : Nat) (due : Nat) (words : List (Nat × Word)) (s : State) : State :=
  let late := decide (due ≤ s.now)
  let mine (x : Shadow) : Bool := inRegionBlock x.offset && (x.offset - 0x100000) / 0x1000 == r &&
    x.due == some due && !x.sent && words.any (fun w => w.1 == x.offset && w.2 == x.word)
  let hit := s.setup.shadows.any mine
  let t := s.modSetup (fun u => { u with
    shadows := u.shadows.map (fun x =>
      if mine x then { x with sent := true, due := if late then some (s.now + 1) else x.due } else x)
    applyLate := u.applyLate || (late && hit) })
  if late && hit then t.raise 206 1 else t

def execShadowDelivery (r : RegionId) (hdr : MsgHdr) (due : BitVec 48) (words : List (Nat × Word)) (s : State) :
    Host.Outcome State Fault Refusal :=
  .next (govAccept r 0x30 hdr (deliverShadows r due.toNat words) id s)

end Sys2Proof.Machine
end

