-- ==== Sys2Proof/Machine/Limiter.lean ====
section
/-!
DEFINITION. The issue-rate limiter (R150–R154), the limiter bus and its node (R155–R161), Dill and the droop wires
(R65, R66, R68, R169, R180).
-/

namespace Sys2Proof.Machine

/-- A sticky flag of R213: bit 0 not TRUSTED, 1 trim, 2 Dill trip, 3 monitors, 4 demoted or emergency, 5 coasting or engine
clock stopped, 6 phase swap. -/
def Region.stick (b : Nat) (g : Region) : Region :=
  { g with margin := { g.margin with sticky := g.margin.sticky ||| BitVec.ofNat 7 (2 ^ b) } }

/-- The running period does not count toward tracking (R124). -/
def Region.voidPeriod (g : Region) : Region := { g with sage := { g.sage with void := true } }

/-! ### The limiter -/

/-- Six bits in the opposite order. -/
def bitReverse6 (i : Nat) : Nat :=
  32 * (i % 2) + 16 * (i / 2 % 2) + 8 * (i / 4 % 2) + 4 * (i / 8 % 2) + 2 * (i / 16 % 2) + i / 32 % 2

/-- Cycle `i` of an aligned window of 64 engine cycles is admitted at effective code `e` (R150). -/
def admits (e i : Nat) : Bool := decide (bitReverse6 (i % 64) < e)

/-- Limiter steps per code for slope code `k` above 0 (R152). -/
def stepsPerCode (k : Nat) : Nat := 2 ^ (7 - k)

/-- F of R151: the least code the forces allow. A limiter that holds ERR keeps no code above D (R157). -/
def forceCode (trip safe droop : Bool) (l : Limiter) : Nat :=
  let f := if trip then 0 else 64
  let f := if safe then min f 8 else f
  if droop || l.hold || l.err then min f l.d else f

/-- The forces act on the effective code at an engine cycle (R151). -/
def Limiter.applyForce (trip safe droop : Bool) (l : Limiter) : Limiter :=
  let f := forceCode trip safe droop l
  if f < l.e then { l with e := f, recovering := true, cnt := 0 } else l

/-- The idle count of R154 after a limiter step. -/
def Limiter.countIdle (requesting : Bool) (l : Limiter) : Limiter :=
  { l with idleSteps := if requesting then 0 else satAdd 255 l.idleSteps 1 }

/-- The move toward the target at a limiter step, below the forces' code `f` (R151); while ERR stands, climbing waits for a
valid TARGET (R157, R180). -/
def Limiter.climb (f launch launchIdle : Nat) (l : Limiter) : Limiter :=
  if launchIdle ≤ l.idleSteps then { l with e := min l.e launch, cnt := 0 }
  else if l.t < l.e then { l with e := l.t, cnt := 0 }
  else if l.err = false ∧ l.e < min l.t f then
    let kk := if l.recovering then min l.k l.kRec else l.k
    if kk = 0 then l
    else if stepsPerCode kk ≤ l.cnt + 1 then { l with e := l.e + 1, cnt := 0 }
    else { l with cnt := l.cnt + 1 }
  else l

/-- The issue requests that code `e` admits in the four engine cycles of a step at place `p` of its window (R150). -/
def admitted (e p : Nat) (requests : BitVec 16) : BitVec 16 :=
  BitVec.ofNat 16 (bitsFrom ((onesOf 16 requests.toNat).filter (fun i => admits e (4 * p + i / 4))))

/-- One limiter step with its engine cycles' forces (R150, R151). -/
def Limiter.step (trip safe droop : Bool) (launch launchIdle : Nat) (requests : BitVec 16) (l : Limiter) : Limiter :=
  let l0 := l.applyForce trip safe droop
  let l1 := { l0.countIdle (requests != 0) with granted := admitted l0.e l0.place requests, place := l0.place + 1 }
  let l2 : Limiter := l1.climb (forceCode trip safe droop l1) launch launchIdle
  if l2.t ≤ l2.e then { l2 with recovering := false } else l2

/-- A bad word at a limiter (R157). -/
def Limiter.badWord (l : Limiter) : Limiter := { l with e := min l.e l.d, err := true, recovering := true }

/-- T and k replaced; a new slope resets the count (R151, R156). -/
def Limiter.setTarget (code slope : Nat) (l : Limiter) : Limiter :=
  { l with t := code, k := slope, cnt := if slope = l.k then l.cnt else 0 }

/-! ### Where a cluster stands -/

/-- Row and column of a global cluster on the wafer (spec 00). -/
def waferRow (c : Nat) : Nat := 24 * (regionOf c / 8) + localOf c / 24
def waferCol (c : Nat) : Nat := 24 * (regionOf c % 8) + localOf c % 24

/-- The global cluster at a row and column. -/
def clusterAt (row col : Nat) : Nat := 576 * (8 * (row / 24) + col / 24) + 24 * (row % 24) + col % 24

/-- The neighbour of a cluster in direction `d`, in the order of R161; row 0 is north. None at the wafer's edge (R34). -/
def neighbour (c d : Nat) : Option Nat :=
  let r := waferRow c
  let k := waferCol c
  let north := d == 0 || d == 1 || d == 7
  let south := d == 3 || d == 4 || d == 5
  let east := d == 1 || d == 2 || d == 3
  let west := d == 5 || d == 6 || d == 7
  if (north && r == 0) || (south && r == 191) || (east && k == 191) || (west && k == 0) then none
  else some (clusterAt (if north then r - 1 else if south then r + 1 else r)
    (if west then k - 1 else if east then k + 1 else k))

/-- The direction from which the wire comes that a neighbour in direction `d` receives. -/
def opposite (d : Nat) : Nat := (d + 4) % 8

/-- The droop wire at a cluster's limiters is asserted: its own Dill's, or an unmasked neighbour's (R161, R169). -/
def State.droopAt (s : State) (c : Nat) : Bool :=
  (s.cluster c).dill.asserted ||
    (List.range 8).any (fun d => !bitOf (s.cluster c).droopMask.toNat d &&
      (match neighbour c d with | some n => (s.cluster n).dill.asserted | none => false))

/-- The trip force of a region (R24): it follows the latch (R198), with the reset force of R457; while VRN_ANA is not up it
reads asserted (R441). -/
def State.tripForce (s : State) (r : Nat) : Bool :=
  (s.region r).therm.latch || s.pow.resetForce || !s.pow.anaUp

/-- The safe force of a region (R420). -/
def State.safeForce (s : State) (r : Nat) : Bool := (s.gov r).safe

/-- MINCODE of R159. -/
def Cluster.minCode (u : Cluster) : Nat := u.limiters.min 32 64 (fun l => l.e)

/-- The 12-bit status word that a Chive returns on its row's status lane (R159). -/
def State.statusWord (s : State) (c : Nat) : BitVec 12 :=
  let u := s.cluster c
  BitVec.ofNat 12 (u.minCode + 128 * bitNat (s.droopAt c) + 256 * bitNat (u.limiters.any 32 (fun l => l.hold)) +
    512 * bitNat (s.tripForce (regionOf c)) + 1024 * bitNat (s.safeForce (regionOf c)) +
    2048 * bitNat (u.limiters.any 32 (fun l => l.err)))

/-- A flag of a cluster's status word. -/
def State.statusBit (s : State) (c i : Nat) : Bool := (s.statusWord c).getLsbD i

/-- Every limiter of a cluster changed alike. -/
def Cluster.mapLimiters (f : Limiter → Limiter) (c : Cluster) : Cluster := { c with limiters := c.limiters.mapAll f }

/-- LIMITER_STEP (R151): the clock must run (R26). -/
def execLimiterStep (c : ClusterId) (core : CoreNo) (requests : BitVec 16) (s : State) :
    Host.Outcome State Fault Refusal :=
  let r := regionOf c
  .next (if (s.gov r).engine then
    s.modCluster c (fun u => { u with limiters := u.limiters.modify core (Limiter.step (s.tripForce r) (s.safeForce r)
      (s.droopAt c) (s.cfg (offAct r 0) 8 7) (s.cfg (offAct r 0) 20 8) requests) })
  else s)

/-- LAUNCH_HOLD (R154): a core idle for LAUNCH_IDLE steps holds E at no more than LAUNCH. -/
def execLaunchHold (c : ClusterId) (core : CoreNo) (s : State) : Host.Outcome State Fault Refusal :=
  let r := regionOf c
  .next (if (s.gov r).engine then
    s.modCluster c (fun u => { u with limiters := u.limiters.modify core (fun l =>
      if s.cfg (offAct r 0) 20 8 ≤ l.idleSteps then { l with e := min l.e (s.cfg (offAct r 0) 8 7), cnt := 0 } else l) })
  else s)

/-! ### The bus -/

/-- A malformed word (R157). -/
def malformed (x : SettingWord) : Bool :=
  decide (64 < x.code) || (x.mode == 1 && decide (23 < x.addr)) || (decide (2 ≤ x.mode) && decide (575 < x.addr)) ||
    (x.mode == 0 && x.addr != 0) || (x.mode != 3 && x.core != 0) ||
    ((x.kind == 1 || x.kind == 3) && x.code != 0) || (decide (2 ≤ x.kind) && x.slope != 0) || (x.kind != 3 && x.flag)

/-- A bad word: wrong parity, or malformed (R157). -/
def badWord (w : Word) : Bool := !parityOk w || malformed (settingOf w)

/-- The code a node lets through (R160, R277): the least of PH_CEIL and the group code; 0 at a spared-out cluster (R33). -/
def Cluster.clamp (c : Cluster) (code : Nat) : Nat :=
  if c.ctl.spared then 0 else min code (min c.phCeil (max c.grpCode c.grpFloor))

/-- Cores that the defect map holds at 0 (R60). -/
def Cluster.holdDead (c : Cluster) : Cluster :=
  { c with limiters := c.limiters.modifyAll (onesOf 32 c.ctl.heldCores.toNat) (fun _ l => { l with t := 0 }) }

/-- A good word at one limiter, after the node's clamp (R156, R160). -/
def Limiter.take (x : SettingWord) (clamped : Nat) (l : Limiter) : Limiter :=
  match x.kind with
  | 0 => { l.setTarget clamped x.slope with nodeCode := x.code, nodeSlope := x.slope, err := false }
  | 1 => { l with kRec := x.slope }
  | 2 => { l with d := x.code }
  | _ => if x.flag then { l with hold := true, e := min l.e l.d, recovering := l.recovering || decide (l.d < l.e),
                                 cnt := if l.d < l.e then 0 else l.cnt }
         else { l with hold := false }

/-- A good word at a node, addressed to all its limiters or to one (R160). -/
def Cluster.take (x : SettingWord) (core : Option Nat) (c : Cluster) : Cluster :=
  let f := Limiter.take x (c.clamp x.code)
  Cluster.holdDead (match core with
    | none => c.mapLimiters f
    | some k => { c with limiters := c.limiters.modify k f })

/-- A word in a region's tree (R155–R157): a bad word acts at every limiter, a corruption in the tree at the limiters
below it, a good word at the addressed ones. -/
def Region.takeWord (w : Word) (corruptAt : List Nat) (g : Region) : Region :=
  let x := settingOf w
  let bad (c : Cluster) : Cluster := c.mapLimiters Limiter.badWord
  if badWord w then g.modClusters bad
  else
    let m := g.clusters
    let taken := match x.mode with
      | 0 => m.mapAll (Cluster.take x none)
      | 1 => m.modifyAll ((List.range 24).map (fun i => 24 * x.addr + i)) (fun _ => Cluster.take x none)
      | 2 => m.modify x.addr (Cluster.take x none)
      | _ => m.modify x.addr (Cluster.take x (some x.core))
    { g with clusters := corruptAt.foldl (fun acc k => acc.set k (bad (m.get k))) taken }

/-- An action on the limiters of a region that lowers committed codes (R103): the running period does not count toward
tracking (R124), and a standing pre-raise is marked as abandoned if not confirmed (R139). -/
def Region.lowered (g : Region) : Region :=
  let g := g.voidPeriod
  if g.spec.state = .standing then { g with spec := { g.spec with abandon := true } } else g

/-- A word of kind `kind` on the bus of region `r`; the governor counts and reports the errors it sees (R157). While the
engine clock is stopped no word travels (R158). A HOLD that is asserted acts on the region's codes (R103, R124). -/
def busWord (kind r : Nat) (w : Word) (corruptAt : List (Fin 576)) (s : State) : State :=
  if (s.gov r).engine = false ∨ (badWord w = false ∧ (settingOf w).kind ≠ kind) then s
  else
    let t := s.modRegion r (Region.takeWord w (corruptAt.map Fin.val))
    let t := if badWord w = false ∧ kind = 3 ∧ (settingOf w).flag then t.modRegion r Region.lowered else t
    if badWord w ∨ corruptAt ≠ [] then
      (t.modRegion r (fun g => { g with caps := { g.caps with busErr := satAdd 0xFF g.caps.busErr 1 } })).raiseRoll r 2 0
    else t

/-- LIMITER_TARGET (R156). -/
def execLimiterTarget (r : RegionId) (word : Word) (corruptAt : List (Fin 576)) (s : State) :
    Host.Outcome State Fault Refusal := .next (busWord 0 r word corruptAt s)

/-- LIMITER_RECOVERY (R156). -/
def execLimiterRecovery (r : RegionId) (word : Word) (corruptAt : List (Fin 576)) (s : State) :
    Host.Outcome State Fault Refusal := .next (busWord 1 r word corruptAt s)

/-- LIMITER_FLOOR (R156). -/
def execLimiterFloor (r : RegionId) (word : Word) (corruptAt : List (Fin 576)) (s : State) :
    Host.Outcome State Fault Refusal := .next (busWord 2 r word corruptAt s)

/-- LIMITER_HOLD (R156, R171). -/
def execLimiterHold (r : RegionId) (word : Word) (corruptAt : List (Fin 576)) (s : State) :
    Host.Outcome State Fault Refusal := .next (busWord 3 r word corruptAt s)

/-- The node sends each core's clamped target again after PH_CEIL or the group code changed; the word carries FLAG 1 and
leaves ERR set (R160). -/
def Cluster.resend (c : Cluster) : Cluster :=
  Cluster.holdDead (c.mapLimiters (fun l => l.setTarget (c.clamp l.nodeCode) l.nodeSlope))

/-- The address part of a word that the governor keeps while the engine clock is stopped: one word per address and kind
(R158). -/
def sameAddress (v w : Word) : Bool :=
  let x := settingOf v
  let y := settingOf w
  x.mode == y.mode && x.addr == y.addr && x.core == y.core && x.kind == y.kind

/-- The governor of region `r` sends a word, or keeps it while the engine clock is stopped (R158). -/
def State.sendWord (s : State) (r : Nat) (w : Word) : State :=
  if (s.gov r).engine then s.emit (.limiterWord r w)
  else s.modGov r (fun g => { g with kept := g.kept.filter (fun v => !sameAddress v w) ++ [w] })

/-- Setting words by address. -/
def regionWord (kind code slope : Nat) (flag : Bool := false) : Word := settingWord ⟨0, 0, 0, kind, code, slope, flag⟩
def rowWord (row kind code slope : Nat) (flag : Bool := false) : Word := settingWord ⟨1, row, 0, kind, code, slope, flag⟩
def clusterWord (c kind code slope : Nat) (flag : Bool := false) : Word := settingWord ⟨2, c, 0, kind, code, slope, flag⟩

/-- ENGINE_CLOCK_STOP (R158): held codes stay (R26); margin recovery is blocked (R213). -/
def execEngineClockStop (r : RegionId) (s : State) : Host.Outcome State Fault Refusal :=
  .next ((s.modGov r (fun g => { g with engine := false })).modRegion r (Region.stick 5))

/-- The forces asserted at a region act on every limiter of it, as they do in the first engine cycle after its clock runs
again (R26, R151); a spared-out cluster's limiters stand at 0 then (R33). -/
def State.forceRegion (s : State) (r : Nat) : State :=
  s.modRegion r (fun g => { g with clusters := g.clusters.mapBy 576 (fun c u =>
    if u.ctl.spared then u.mapLimiters (fun l => { l with e := 0, cnt := 0 })
    else u.mapLimiters (Limiter.applyForce (s.tripForce r) (s.safeForce r) (s.droopAt (576 * r + c)))) })

/-- ENGINE_CLOCK_RESTART (R158): the forces act, and the kept words are sent. -/
def execEngineClockRestart (r : RegionId) (s : State) : Host.Outcome State Fault Refusal :=
  .next ((s.gov r).kept.foldl (fun acc w => acc.emit (.limiterWord r w))
    ((s.modGov r (fun g => { g with engine := true, kept := [] })).forceRegion r))

/-! ### Dill -/

/-- A droop floor at any limiter of a region marks its standing pre-raise as abandoned if not confirmed (R139), and the
running period as one that does not count toward tracking (R124); it is an action of R56 that blocks margin recovery
(R213). -/
def Region.markAbandon (g : Region) : Region := g.lowered.stick 4

/-- The droop wires of a cluster's Dill act at its own limiters and at its unmasked neighbours' (R65, R161, R169). -/
def droopForce (c : Nat) (s : State) : State :=
  let reached := c :: (List.range 8).filterMap (fun d =>
    match neighbour c d with
    | some n => if bitOf (s.cluster n).droopMask.toNat (opposite d) then none else some n
    | none => none)
  reached.foldl (fun acc n =>
    let r := regionOf n
    let t := acc.modRegion r Region.markAbandon
    if (s.gov r).engine then
      t.modCluster n (Cluster.mapLimiters (Limiter.applyForce (s.tripForce r) (s.safeForce r) true))
    else t) s

/-- DILL_TRIP_CROSSING (R65, R68), once Dill is armed (R458 step 11). The Dill of a spared-out cluster is out of service (R33). -/
def dillTrip (c : Nat) (s : State) : State :=
  if (s.cluster c).ctl.spared ∨ s.pow.armed = false then s
  else droopForce c (s.modCluster c (fun u => { u with dill := { u.dill with
    asserted := true, tripCnt := satAdd 0xFFFF u.dill.tripCnt 1, readTrips := satAdd 0xFFFF u.dill.readTrips 1 } }))

def execDillTripCrossing (c : ClusterId) (s : State) : Host.Outcome State Fault Refusal := .next (dillTrip c s)

/-- DILL_WARN_CROSSING (R68, R458): not counted while a sweep runs (R92). -/
def execDillWarnCrossing (c : ClusterId) (s : State) : Host.Outcome State Fault Refusal :=
  .next (if (s.cluster c).ctl.spared ∨ s.pow.armed = false ∨ (s.cluster c).dill.sweeping then s
    else s.modCluster c (fun u => { u with dill := { u.dill with
      warnCnt := satAdd 0xFFFF u.dill.warnCnt 1, readWarns := satAdd 0xFFFF u.dill.readWarns 1 } }))

/-- DILL_RELEASE (R66): RELEASE_HOLD consecutive samples above the warn threshold; the wires release. -/
def execDillRelease (c : ClusterId) (s : State) : Host.Outcome State Fault Refusal :=
  .next (s.modCluster c (fun u => { u with dill := { u.dill with asserted := false } }))

/-- Trip and warn thresholds below the committed setpoint (R64). -/
def State.tripEff (s : State) (r : Nat) : Nat := min (s.cfg (offDill r) 0 8) ((s.region r).sp.mDill - 5)
def State.warnEff (s : State) (r : Nat) : Nat := min (s.cfg (offDill r) 8 8) (s.tripEff r - 5)

end Sys2Proof.Machine
end

