-- ==== Sys2Proof/Machine/Setpoint.lean ====
section
/-!
DEFINITION. The committed setpoint (R174, R209–R211), the AVSBus master (R133, R175, R177, R504, R505), Dill's
reference (R67), the grid-drop allowance (R175), and the pre-raise (R131–R141).
-/

namespace Sys2Proof.Machine

def Region.modSp (g : Region) (f : Setpoint → Setpoint) : Region := { g with sp := f g.sp }
def Region.modSpec (g : Region) (f : Spec → Spec) : Region := { g with spec := f g.spec }

/-! ### AVSBus -/

/-- The CRC-3 of AVSBus over the `n` highest bits first of `w`: the polynomial x³ + x + 1. -/
def crc3 (n w : Nat) : Nat :=
  (List.range n).foldl (fun c i =>
    let out := xor (bitOf c 2) (bitOf w (n - 1 - i))
    Nat.xor (2 * c % 8) (if out then 3 else 0)) 0

/-- The 32 bits of a master frame (R504), rail select 0: start code, command, group, data type, rail, data, CRC-3. The standard's
layout is PRESUMED, notes/assumptions/73.md. -/
def avsWord (cmd type data : Nat) : Word :=
  let w := 2 ^ 27 + cmd * 2 ^ 25 + type * 2 ^ 20 + data % 65536
  BitVec.ofNat 32 (8 * w + crc3 29 w)

/-- The frame's 32 bits: a voltage in 1 mV, or the two transition rates in 1 mV/µs. -/
def Frame.word : Frame → Word
  | .committed mv | .speculative mv => avsWord 0 0 mv
  | .rates up dn => avsWord 0 1 (256 * up + dn)

/-- A write frame leaves the master of region `r`. -/
def State.emitFrame (s : State) (r : Nat) (f : Frame) : State := s.emit (.avsFrame r f f.word)

/-- A Status or a Version read leaves the master of region `r` (R504). -/
def State.emitRead (s : State) (r : Nat) (version : Bool) : State :=
  s.emit (.avsRead r version (avsWord 3 (if version then 15 else 14) 0xFFFF))

/-- The lowering of the committed setpoint moves Dill's reference, and with it the margin that R64 uses, when its frame
starts on the bus (R67, R211); a margin that rose waits for the raise test. -/
def Setpoint.lowerRef (p : Setpoint) : Setpoint :=
  { p with dillRef := min p.dillRef p.vc, mDill := if p.vc ≤ p.dillRef then min p.mDill p.m else p.mDill }

/-- The frame that starts next: transition rates, then the committed setpoint, then a speculative one (R133, R177,
R182); each carries V_c + s + V_grid (R175). The frame for V_c that withdraws a pre-raise (R138, R139) is sent as a
committed one, so it voids the period as every committed frame does (R124): DESIGN CHOICE, notes/assumptions/45.md. After a
frame that failed twice nothing starts but the control period's one committed frame, until a frame succeeds (R505). -/
def nextFrame (up dn : Nat) (g : Region) : Option (Frame × Region) :=
  let v := g.sp.vc + g.spec.s + g.sp.vGrid
  if g.sp.busy.isSome || (g.sp.retryEach && !g.sp.retryDue) then none
  else if g.sp.wantRates && !g.sp.retryEach then
    some (.rates up dn, g.modSp (fun p => { p with wantRates := false, busy := some (.rates up dn), busyS := 0 }))
  else if g.sp.wantVc || g.sp.retryEach then
    some (.committed v, { g.modSp (fun p => { p.lowerRef with
      wantVc := false, wantSpec := false, retryDue := false, busy := some (.committed v), busyS := g.spec.s }) with
      sage := { g.sage with void := true } })
  else if g.sp.wantSpec then
    some (.speculative v, g.modSp (fun p => { p with wantSpec := false, busy := some (.speculative v), busyS := g.spec.s }))
  else none

/-- The master of region `r` starts a frame if one waits and none is in progress. -/
def State.startFrame (s : State) (r : Nat) : State :=
  match nextFrame (s.cfg (offAct r 2) 0 8) (s.cfg (offAct r 2) 8 8) (s.region r) with
  | none => s
  | some (f, g) => (s.modRegion r (fun _ => g)).emitFrame r f

/-- The lowest output the array can have at period `now`, V_grid included and no unconfirmed pre-raise: the setpoint it
holds, or what AVS_SLEW_DN (`dn` mV a period) has left of a fall (R242). -/
def Setpoint.output (now dn : Nat) (p : Setpoint) : Nat :=
  max (p.arrayMv - p.arraySpec) (p.fallFrom - dn * (now + 1 - p.fallAt))

/-- A frame that carried `mv` has ended: the array holds it, and slews down to it from where it stands (R242). -/
def Setpoint.settle (now dn mv : Nat) (p : Setpoint) : Setpoint :=
  let cur := p.output now dn
  let p' : Setpoint := { p with arrayMv := mv, arraySpec := p.busyS }
  if mv - p.busyS < cur then { p' with fallFrom := cur, fallAt := now } else { p' with fallFrom := 0, fallAt := now }

/-- AVS_SLEW_DN in mV a control period (R182, R61). -/
def State.slewDn (s : State) (r : Nat) : Nat :=
  s.cfg (offAct r 2) 8 8 * (if s.clk.st = .locked ∨ s.clk.st = .stopped then 1 else 2)

/-- The frame of a raise has ended once a voltage frame ends with no committed one waiting (R67). -/
def Setpoint.frameGood (now dn : Nat) (f : Frame) (p : Setpoint) : Setpoint :=
  let q := match f with
    | .committed mv | .speculative mv => { p.settle now dn mv with raiseWait := p.raiseWait && p.wantVc }
    | .rates _ _ => p
  { q with busy := none, attempts := 0, retryEach := false, retryDue := false }

/-- The end of a frame (R504, R505): a failed frame is sent once more, in the next slot, and a Status read follows the response
error; a second failure raises AVSBUS, and from then on the committed value is sent once in each control period, not repeated
and with no further fault, until a frame succeeds. -/
def frameEnd (r : Nat) (good : Bool) (s : State) : State :=
  let g := s.region r
  match g.sp.busy with
  | none => s
  | some f =>
    if good then
      (s.modRegion r (fun g => g.modSp (Setpoint.frameGood s.now (s.slewDn r) f))).startFrame r
    else if g.sp.retryEach then (s.modRegion r (fun g => g.modSp (fun p => { p with busy := none }))).emitRead r false
    else if g.sp.attempts = 0 then
      ((s.modRegion r (fun g => { g.modSp (fun p => { p with attempts := 1 }) with sage := { g.sage with
        void := g.sage.void || (match f with | .committed _ => true | _ => false) } })).emitFrame r f).emitRead r false
    else
      ((s.modRegion r (fun g => g.modSp (fun p =>
        { p with busy := none, attempts := 0, retryEach := true, wantVc := false, wantSpec := false }))).emitRead r false).raiseRoll r 1 7

/-- AVSBUS_FRAME_END (R505). -/
def execAvsbusFrameEnd (r : RegionId) (good : Bool) (s : State) : Host.Outcome State Fault Refusal :=
  .next (frameEnd r good s)

/-! ### The pre-raise -/

/-- The pre-raise ends and no sample of its window is judged any more. -/
def Spec.clear (p : Spec) : Spec :=
  { p with state := .idle, s := 0, toTake := 0, toJudge := 0, noConfirm := false, abandon := false, withdraw := false }

/-- A standing pre-raise ends as abandoned (R139). -/
def Spec.abandoned' (p : Spec) : Spec :=
  if p.state = .standing then { p.clear with abandoned := p.abandoned + 1 } else p

/-- A standing pre-raise ends as a miss, counted in the running control period (R138, R141). -/
def Spec.missed' (p : Spec) : Spec :=
  if p.state = .standing then
    let w := (match p.missWin with | [] => [1] | x :: rest => (x + 1) :: rest)
    { p.clear with missed := p.missed + 1, missWin := w, demote := p.demote || decide (16 < w.sum) }
  else p

/-- A standing pre-raise is confirmed (R137). -/
def Spec.confirmed' (p : Spec) : Spec :=
  if p.state = .standing then { p.clear with confirmed := p.confirmed + 1 } else p

/-- Frame for V_c at once: the events of R139 that withdraw a standing pre-raise without waiting. -/
def State.abandonNow (s : State) (r : Nat) : State :=
  if (s.region r).spec.state = .standing then
    (s.modRegion r (fun g => (g.modSpec Spec.abandoned').modSp (fun p => { p with wantVc := true, wantSpec := false }))).startFrame r
  else s

/-- The emergency actions that block speculation, in force at region `r` (R56, R131). -/
def State.emergencyAt (s : State) (r : Nat) : Bool :=
  let g := s.region r
  g.therm.latch || g.caps.ecap || g.caps.alert || g.ph.unsettled

/-- The sum channel is VALID and its recovery has ended (R87). -/
def Digitiser.sumValid (d : Digitiser) : Bool := decide (d.sumStatus = .valid) && d.sumWait == 0

/-- blocked(region) of R131, the demotion apart. -/
def State.specHeld (s : State) (r : Nat) : Bool :=
  !s.cfgBit (offSpec r 0) 0 || s.emergencyAt r || (s.gov r).safe || !(s.region r).dig.sumValid

/-- blocked(region) of R131. -/
def State.specBlocked (s : State) (r : Nat) : Bool :=
  s.specHeld r || decide ((s.region r).spec.state = .demoted) || (s.region r).spec.demote

/-- s of R131 for a forecast rise `dF`. -/
def State.preRaiseMv (s : State) (r dF : Nat) : Nat :=
  let p := (s.region r).sp
  min (min (s.cfg (offSpec r 0) 8 8) (850 - p.vc))
    (min (s.cfg (offAct r 2) 24 6 + 30 - p.vLoad) (ceilDiv (dF * s.cfg (offSpec r 0) 16 8) 4000))

/-- PRE_RAISE_DECISION (R131): `f` is F_reg. Samples already on their way lie before the window. -/
def preRaiseDecision (r f : Nat) (s : State) : State :=
  let g := s.region r
  let b := g.dig.latest
  let dF := f - b
  let mv := s.preRaiseMv r dF
  if g.spec.state ≠ .idle ∨ s.specBlocked r ∨ f < b ∨ dF < s.cfg (offSpec r 1) 0 12 ∨ mv < 1 then s
  else (s.modRegion r (fun g =>
      let h : Region := { g with dig := { g.dig with
        taken := g.dig.taken.map (fun (x : Sample) => { x with window := false }) } }
      (h.modSpec (fun p => { p with
        state := .standing, s := mv, base := b, rise := dF, toTake := 10, toJudge := 10,
        noConfirm := false, abandon := false, withdraw := false, issued := p.issued + 1 })).modSp
        (fun p => { p with wantSpec := true }))).startFrame r

/-- The sample that confirms a standing pre-raise (R136). -/
def confirms (vc s base rise raw : Nat) : Bool := decide (base + ceilDiv rise 2 ≤ raw * vc / (vc + s))

/-- Confirmation (R137): V_c becomes V_c + s with no further frame; Dill's reference waits for the raise test, whose frame is the
pre-raise's own. Where that has not started, it starts as a committed one (notes/assumptions/45.md). -/
def confirmPreRaise (r : Nat) (s : State) : State :=
  s.modRegion r (fun g =>
    let v := g.sp.vc + g.spec.s
    { (g.modSp (fun p => { p with
        vc := v, vLoad := p.vLoad + g.spec.s, raising := some v, timedOut := false, conf := p.conf + g.spec.s,
        raiseWait := p.wantVc || p.wantSpec || (p.busy.isSome && p.busyS != 0)
        wantVc := p.wantVc || p.wantSpec, wantSpec := false
        arraySpec := 0, busyS := 0 })).modSpec
        Spec.confirmed' with confNow := true })

/-- PRE_RAISE_WITHDRAWAL (R138): the first tick boundary after the last window sample, or after SPEC_EN was cleared
(R139). -/
def withdrawPreRaise (r : Nat) (s : State) : State :=
  let p := (s.region r).spec
  if p.state = .standing ∧ ((p.toTake = 0 ∧ p.toJudge = 0) ∨ p.withdraw) then
    (s.modRegion r (fun g => (g.modSpec (if p.withdraw ∨ p.abandon then Spec.abandoned' else Spec.missed')).modSp
      (fun q => { q with wantVc := true, wantSpec := false }))).startFrame r
  else s

def execPreRaiseWithdrawal (r : RegionId) (s : State) : Host.Outcome State Fault Refusal :=
  .next (withdrawPreRaise r s)

/-- DEMOTION_END (R142): after 10,000 control periods the state returns to IDLE. -/
def execDemotionEnd (r : RegionId) (s : State) : Host.Outcome State Fault Refusal :=
  .next (s.modRegion r (fun g => g.modSpec (fun p =>
    if p.state = .demoted ∧ p.demoteLeft = 0 then { p with state := .idle } else p)))

/-! ### The committed setpoint -/

/-- V_c of R174 from its terms, in mV. -/
def committedMv (mfvBase trim m vLoad : Nat) (vOp : Int) : Nat :=
  (max 650 (min 850 ((mfvBase + trim + m + vLoad : Nat) + vOp : Int))).toNat

/-- V_c of region `r` as its terms stand (R174). -/
def State.termsMv (s : State) (r : Nat) : Nat :=
  let p := (s.region r).sp
  committedMv (s.cfg (offMfv r) 0 16) p.trim p.m p.vLoad p.vOp

/-- A standing pre-raise meets a committed change to `v` (R139): it ends as abandoned when `v` reaches its target;
otherwise the target becomes `v` + min(s, 850 − v). -/
def Spec.meetCommit (old v : Nat) (p : Spec) : Spec :=
  if p.state = .standing then
    if old + p.s ≤ v then p.abandoned' else { p with s := min p.s (850 - v) }
  else p

/-- The committed setpoint follows its terms (R67, R174, R177): a changed value goes to the AVSBus master and, when it
is a raise, to the raise test. A raise of m alone takes the raise test too (R211); one that has timed out waits for the
next change (R67). A fall of m that leaves V_c as it is (R174's clamp) sends no frame and is in force at once. -/
def commitSetpoint (r : Nat) (s : State) : State :=
  let g := s.region r
  let v := s.termsMv r
  if v = g.sp.vc ∧ g.sp.m = g.sp.mDill then s
  else if v = g.sp.vc then
    s.modRegion r (fun g => g.modSp (fun p =>
      if p.m < p.mDill then { p with mDill := p.m }
      else if p.raising = none ∧ p.timedOut = false then { p with raising := some v, raiseWait := false } else p))
  else
    (s.modRegion r (fun g => (g.modSpec (Spec.meetCommit g.sp.vc v)).modSp (fun p => { p with
      vc := v
      raising := if p.dillRef < v ∨ p.mDill < p.m then some v else none
      timedOut := false
      raiseWait := true
      wantVc := true }))).startFrame r

/-- Readings of the region's monitors that count: VALID, recovered and without the slewing flag (R67, R84, R87). -/
def VMon.counts (v : VMon) : Bool := decide (v.status = .valid) && decide (2 ≤ v.goodRun)

/-- The lowest VALID, non-slewing reading of the 16 (R67, R175); none where there is none. -/
def Region.lowestMv (g : Region) : Option Nat :=
  ((List.range 16).filterMap (fun i =>
    let v := g.vmons.get i
    if v.counts && !v.slewing then some v.mv else none)).foldl
    (fun acc x => match acc with | none => some x | some y => some (min x y)) none

/-- Monitors that are not VALID (R87). -/
def Region.badMonitors (g : Region) : Nat := g.vmons.count 16 (fun v => !v.counts)

/-- The raise test of R67: Dill's reference moves up once the lowest counting reading reaches the setpoint less 5 mV;
while five or more monitors are not VALID the old reference stays (R87). True beside the state when it has passed. -/
def raiseTest (r : Nat) (s : State) : State × Bool :=
  let g := s.region r
  match g.sp.raising, g.lowestMv with
  | some v, some low =>
    if v ≤ low + 5 ∧ g.badMonitors < 5 ∧ g.vmonWait = 0 then
      (s.modRegion r (fun g => g.modSp (fun p => { p with raising := none, dillRef := p.vc, mDill := p.m })), true)
    else (s, false)
  | _, _ => (s, false)

/-- RAISE_TEST_TIMEOUT (R67): 200 µs after the raise's own frame ended the reference stays at the old setpoint, and a contained
fault is raised. -/
def execRaiseTestTimeout (r : RegionId) (s : State) : Host.Outcome State Fault Refusal :=
  .next (if (s.region r).sp.raising.isSome ∧ (s.region r).sp.raiseWait = false then
    (s.modRegion r (fun g => g.modSp (fun p => { p with raising := none, timedOut := true }))).raiseRoll r 1 3
  else s)

/-! ### The grid-drop allowance -/

/-- The margin in force in region `r` becomes `m` (R209). -/
def Setpoint.setM (m : Nat) (p : Setpoint) : Setpoint := if m = p.m then p else { p with m := m, timedOut := false }

/-- The block of 16 control periods ends with the period just ended (R175). -/
def Region.endGridBlock (g : Region) : Region := { g with gridEnd := some (g.gridSum, g.gridCnt), gridSum := 0, gridCnt := 0 }

/-- GRID_BLOCK_END (R175), once a block, after the boundary whose period count is a multiple of 16: e is the mean of the paired setpoints less the mean of the readings, toward zero. -/
def gridBlockEnd (r : Nat) (s : State) : State :=
  let g := s.region r
  let b := g.gridEnd.getD (0, 0)
  let e : Int := Int.tdiv b.1 b.2
  let v' := if b.2 = 0 then g.sp.vGrid
    else if 2 ≤ e then min (s.cfg (offAct r 2) 16 6) (g.sp.vGrid + 1)
    else if e ≤ -2 then g.sp.vGrid - 1 else g.sp.vGrid
  let t := s.modRegion r (fun g => { g.modSp (fun p =>
    { p with vGrid := v', wantVc := p.wantVc || decide (v' ≠ p.vGrid) }) with gridEnd := none })
  t.startFrame r

def execGridBlockEnd (r : RegionId) (s : State) : Host.Outcome State Fault Refusal := .next (gridBlockEnd r s)

end Sys2Proof.Machine
end

