-- ==== Sys2Proof/Machine/Sensors.lean ====
section
/-!
DEFINITION. Sensors of a region: the current digitiser (R79–R83, R87–R89, R136), the thermal diodes (R69–R71), the
voltage monitors (R84, R87), the temperature-and-process monitors (R76), the trip comparators' readings (R73).
-/

namespace Sys2Proof.Machine

def Region.modDig (g : Region) (f : Digitiser → Digitiser) : Region := { g with dig := f g.dig }

/-- The clocks coast: every duration that counts Renoth clock cycles doubles (R61, R444). -/
def State.coasting (s : State) : Bool := decide (s.clk.st ≠ .locked ∧ s.clk.st ≠ .stopped)

/-! ### The sum channel -/

/-- A reading of the sum channel: the input with its zero removed and the gain applied, within 12 bits (R6, R79, R91). -/
def Digitiser.read (d : Digitiser) (amps : Int) : Nat :=
  clampTo 0 4095 (((amps - d.offset) * (1000000 + d.gainPpm) / 1000000).toNat)

/-- A current exported while an unconfirmed pre-raise of `s` stands over `vc` (R88). -/
def adjusted (raw vc s : Nat) : Nat := if s = 0 then raw else raw * vc / (vc + s)

/-- DIGITISER is held while a channel is not VALID (R87, R406). -/
def State.holdDigitiser (s : State) (r : Nat) : State :=
  let d := (s.region r).dig
  s.holdRoll r 1 6 (!d.sumValid || decide (d.phStatus ≠ .valid) || decide (0 < d.phWait))

/-- SUM_SAMPLE (R79): taken into the running period and on its way to the governor; a channel that is not VALID ends a
standing pre-raise and starts its recovery anew (R87, R139). -/
def sumSample (r : Nat) (amps : Int) (status : Status) (s : State) : State :=
  let g := s.region r
  let raw := g.dig.read amps
  let mv := if g.spec.state = .standing then g.spec.s else 0
  let win := decide (g.spec.state = .standing) && decide (0 < g.spec.toTake)
  let x : Sample := ⟨raw, adjusted raw g.sp.vc mv, mv, g.sp.vc, win⟩
  let t := s.modRegion r (fun g =>
    { g.modDig (fun d => { d with
        input := amps, taken := d.taken ++ [x], raw := d.raw ++ [raw], shown := d.shown ++ [x.shown], sumStatus := status,
        sumWait := if status = .valid then d.sumWait else 1001 }) with
      spec := { g.spec with toTake := if win then g.spec.toTake - 1 else g.spec.toTake }
      sage := { g.sage with void := g.sage.void || decide (status ≠ .valid) } })
  let t := t.holdDigitiser r
  if status = .valid then t else t.abandonNow r

def execSumSample (r : RegionId) (amps : Int) (status : Status) (s : State) : Host.Outcome State Fault Refusal :=
  .next (sumSample r amps status s)

/-- A monitor's reading as exported: less the unconfirmed pre-raise that stood when it was taken, whenever it is exported
(R88, R89, R143; DEDUCED, notes/assumptions/46.md). -/
def VMon.shown (v : VMon) : Nat := v.mv - v.spec

/-- The sum and number of the counting monitors' readings, as `f` gives each (R81, R88). -/
def Region.monitorSum (g : Region) (f : VMon → Nat) : Nat × Nat :=
  let vs := (List.range 16).filterMap (fun i => let v := g.vmons.get i; if v.counts then some (f v) else none)
  (vs.sum, vs.length)

/-- Energy of one sample in units of 25 pJ (0.25 A × 1 mV × 100 ns); a coasting sample interval is 200 ns (R81). -/
def energyUnits (amps total n : Nat) (coasting : Bool) : Nat :=
  amps * total / max n 1 * (if coasting then 2 else 1)

/-- Integration at an available sample (R81, R87–R89, R144): the exported figure into the region's counter, the
difference of the raw one into SPEC_EXTRA_UJ. A sample taken while a pre-raise stood unconfirmed counts adjusted, any other
raw; with no VALID monitor its voltage is V_c + s as they stood at its taking. 40,000 units make a microjoule. -/
def integrate (coasting : Bool) (x : Sample) (g : Region) : Region :=
  let cur := if g.dig.sumValid then x.raw else g.caps.iReg
  let curS := if g.dig.sumValid then x.shown else g.caps.iReg
  let (tot, n) := g.monitorSum VMon.mv
  let (totS, _) := g.monitorSum (if x.spec = 0 then VMon.mv else VMon.shown)
  let raw := if n = 0 then energyUnits cur (x.vc + x.spec) 1 coasting else energyUnits cur tot n coasting
  let shown := if n = 0 then energyUnits curS x.vc 1 coasting else energyUnits curS totS n coasting
  let e := g.dig.energySub + shown
  let extra := g.spec.extraSub + (raw - shown)
  { g.modDig (fun d => { d with
      energyUj := d.energyUj + BitVec.ofNat 64 (e / 40000), energySub := e % 40000, latest := x.raw }) with
    spec := { g.spec with extraUj := g.spec.extraUj + BitVec.ofNat 64 (extra / 40000), extraSub := extra % 40000 } }

/-- Healthy active phases (R42, R82). -/
def Phases.good (p : Phases) : List Nat := onesOf 24 (p.active &&& p.healthy).toNat

/-- h of R42: the healthy active phases, at most 22. -/
def Phases.h (p : Phases) : Nat := min 22 p.good.length

/-- The rating ceiling of a region (R42): h raised by a repair counts from the next wafer period's run on (R59). -/
def Phases.rating (p : Phases) : Nat := ratingCeil (min p.rated p.h)

/-- The latest sum sample exceeds 10% of the region's rating ceiling (R82). -/
def Region.loud (g : Region) : Bool := decide (g.ph.rating < 10 * g.dig.latest)

/-- A sum sample at or below 10% of the rating ceiling breaks every run of R82, which must be above it throughout. -/
def Region.breakRuns (g : Region) : Region :=
  if g.loud then g
  else g.modDig (fun d => { d with lowRun := List.replicate 24 0, highRun := List.replicate 24 0 })

/-- SUM_SAMPLE_AVAILABLE (R81, R82, R136): the oldest sample on its way is integrated and, in a standing pre-raise's
window, judged. -/
def sumAvailable (r : Nat) (s : State) : State :=
  let g := s.region r
  match g.dig.taken with
  | [] => s
  | x :: rest =>
    let t := s.modRegion r (fun g => (integrate s.coasting x { g with dig := { g.dig with taken := rest } }).breakRuns)
    if g.spec.state = .standing ∧ x.window then
      if g.spec.noConfirm = false ∧ confirms g.sp.vc g.spec.s g.spec.base g.spec.rise x.raw then confirmPreRaise r t
      else t.modRegion r (fun g => g.modSpec (fun p => { p with toJudge := p.toJudge - 1 }))
    else t

def execSumSampleAvailable (r : RegionId) (s : State) : Host.Outcome State Fault Refusal := .next (sumAvailable r s)

/-! ### The phase channel -/

/-- The phase channel restarts its rotation at phase 0 and drops its partial counts (R83); of a recovery in hand the
broken rotation counts nothing (R87). -/
def restartRotation (g : Region) : Region :=
  g.modDig (fun d => { d with
    nextPhase := 0, lowRun := List.replicate 24 0, highRun := List.replicate 24 0, phWait := min 10 d.phWait })

/-- Run of rotations after a reading (R82). -/
def runAfter (l : List Nat) (k : Nat) (hit : Bool) : List Nat := l.set k (if hit then l.getD k 0 + 1 else 0)

/-- The spares not yet spoken for by a swap in hand. -/
def Phases.sparesFree (p : Phases) : Nat := (onesOf 24 p.spares.toNat).length - p.failed.length

/-- A phase fails (R82, R224–R226): an active one takes a spare, or derates the region at the next boundary; a spare is
retired; a phase under watch fails its watch. -/
def phaseFails (r k : Nat) (s : State) : State :=
  let p := (s.region r).ph
  let setPh (f : Phases → Phases) : State := s.modRegion r (fun g => { g with ph := f g.ph })
  let m : BitVec 24 := BitVec.ofNat 24 (2 ^ k)
  if k ∈ p.failed ∨ k ∈ p.derateDue then s
  else if p.active &&& p.healthy &&& m ≠ 0 then
    if 0 < p.sparesFree then
      ((setPh (fun p => { p with failed := p.failed ++ [k], swap := true })).modRegion r (Region.stick 6)).raiseRoll r 1 0
    else (setPh (fun p => { p with derateDue := p.derateDue ++ [k] })).raiseRoll r 1 0
  else if p.spares &&& m ≠ 0 then
    ((setPh (fun p => { p with spares := p.spares &&& ~~~m, retired := p.retired ||| m })).modRegion r
      restartRotation).raiseRoll r 1 0
  else match p.watch with
    | some (j, n, _) => if j = k then (setPh (fun p => { p with watch := some (j, n, true) })).raiseRoll r 1 0 else s
    | none => s

/-- PHASE_CHANNEL_SAMPLE (R82, R83, R87): the next phase of the rotation is converted; a phase low or high on 4
consecutive rotations raises a phase fault. The pause of R87 clears the phase's counts: DESIGN CHOICE,
notes/assumptions/47.md. -/
def phaseSample (r : Nat) (amps : Int) (status : Status) (s : State) : State :=
  let g := s.region r
  let k := g.dig.nextPhase
  let next := (k + 1) % 24
  let x := clampTo 0 255 amps.toNat
  let cur := g.dig.phCur.set k x
  let good := g.ph.good
  let total := (good.map (fun i => cur.getD i 0)).sum
  let watched := match g.ph.watch with | some (j, _, _) => j == k | none => false
  let judged := decide (status = .valid) && g.dig.phWait == 0 && g.loud && (decide (k ∈ good) || watched)
  let low := runAfter g.dig.lowRun k (judged && decide (4 * x * good.length < total))
  let high := runAfter g.dig.highRun k (judged && decide (3 * total < 2 * x * good.length))
  let fault := decide (low.getD k 0 = 4) || decide (high.getD k 0 = 4)
  let wait := if status ≠ .valid then (if next = 0 then 10 else 11) else if next = 0 then g.dig.phWait - 1 else g.dig.phWait
  let t := s.modRegion r (fun g =>
    { g.modDig (fun d => { d with
        nextPhase := next, phCur := cur, lowRun := low, highRun := high, phStatus := status, phWait := wait }) with
      ph := { g.ph with watch := g.ph.watch.map (fun w => (w.1, if next = 0 then w.2.1 - 1 else w.2.1, w.2.2)) } })
  (if fault then phaseFails r k t else t).holdDigitiser r

def execPhaseChannelSample (r : RegionId) (amps : Int) (status : Status) (s : State) :
    Host.Outcome State Fault Refusal := .next (phaseSample r amps status s)

/-! ### Thermal diodes -/

/-- The 4-neighbours of diode `d` in the 8 × 8 grid (R70). -/
def diodeNeighbours (d : Nat) : List Nat :=
  (if 8 ≤ d then [d - 8] else []) ++ (if d < 56 then [d + 8] else []) ++ (if d % 8 = 0 then [] else [d - 1]) ++
    (if d % 8 = 7 then [] else [d + 1])

/-- The fresh readings of a diode's VALID 4-neighbours (R70). -/
def validNear (m : SMap Diode) (d : Nat) : List Int :=
  (diodeNeighbours d).filterMap (fun i => if (m.get i).status = .valid then some (m.get i).fresh else none)

/-- The reading differs from the neighbours' mean by more than `dev` °C (R71), in 0.125 °C. -/
def deviates (x : Int) (near : List Int) (dev : Nat) : Bool :=
  decide ((8 * dev * near.length : Nat) < (x * near.length - near.sum).natAbs)

/-- A diode at the completion of a map (R70, R71). -/
def Diode.judge (dev : Nat) (near : List Int) (d : Diode) : Diode :=
  let d := { d with temp := d.fresh }
  if near = [] ∧ d.outside = false then d
  else
    let out := d.outside || deviates d.temp near dev
    let devRun := if out then d.devRun + 1 else 0
    let okRun := if out then 0 else d.okRun + 1
    let st := if d.outside && decide (d.status = .valid) then .suspect
      else if d.status = .valid then (if 3 ≤ devRun then .suspect else .valid)
      else if 3 ≤ okRun then .valid else d.status
    let run := if st = .suspect then d.suspRun + 1 else 0
    { d with status := if st = .suspect ∧ 64 ≤ run then .failed else st, devRun := min devRun 3, okRun := min okRun 3,
             suspRun := if st = .suspect ∧ 64 ≤ run then 0 else run }

/-- The highest of a list of readings. -/
def highest : List Int → Option Int
  | [] => none
  | x :: rest => some (rest.foldl max x)

/-- What the thermal loop reads of diode `d` (R71): its reading while VALID; else the highest of its VALID 4-neighbours
plus 2 °C, else the region's highest VALID one plus 2 °C, else T_LIMIT. -/
def diodeUsed (m : SMap Diode) (tLimit : Int) (d : Nat) : Int :=
  let valid (l : List Nat) : List Int := l.filterMap (fun i => if (m.get i).status = .valid then some (m.get i).temp else none)
  if (m.get d).status = .valid then (m.get d).temp
  else match highest (valid (diodeNeighbours d)), highest (valid (List.range 64)) with
    | some x, _ => x + 16
    | none, some x => x + 16
    | none, none => tLimit

/-- A temperature in the 16-bit encoding of R4, at its nearest end where it lies outside (R6). -/
def temp16 (x : Int) : Int := max (-32768) (min 32767 x)

/-- A monitor's anchored reading (R6, R76, R77); the offset is kept in 1/64 of 0.125 °C. -/
def TpMonitor.anchored (t : TpMonitor) : Int := temp16 ((t.reading * 64 + t.offset) / 64)

/-- T_hot of R185. -/
def Region.hotTemp (g : Region) (tLimit : Int) : Int :=
  let d := temp16 (((List.range 64).map (diodeUsed g.diodes tLimit)).foldl max (-320))
  (g.clusters.values 0 576).foldl (fun acc u =>
    if u.tp.status = .valid ∧ 3 ≤ u.tp.goodRun then max acc (temp16 (u.tp.anchored - 32)) else acc) d

/-- T_LIMIT and RESUME_T of R206, 0.125 °C. -/
def State.tLimit (s : State) : Int := signed16 (s.cfg (offTherm 0) 0 16)
def State.resumeT (s : State) : Int := 8 * s.cfg (offTherm 4) 0 8

/-- DIODE_MAP (R71): each diode is judged against its neighbours as they stood; one that becomes FAILED raises
DIODE_FAILED. The maps in a row with T_hot at or below RESUME_T are counted (R201). -/
def diodeMap (r : Nat) (s : State) : State :=
  let m := (s.region r).diodes
  let dev := s.cfg (offSense r) 0 8
  let m' := m.modifyAll (List.range 64) (fun k d => d.judge dev (validNear m k))
  let newly := (List.range 64).any (fun k =>
    decide ((m.get k).status ≠ .failed) && decide ((m'.get k).status = .failed))
  let t := s.modRegion r (fun g =>
    let g := { g with diodes := m' }
    let cool := decide (g.hotTemp s.tLimit ≤ s.resumeT)
    { g with therm := { g.therm with coolMaps := if cool then min 2 (g.therm.coolMaps + 1) else 0 } })
  if newly then t.raiseRoll r 0 0 else t

/-- A conversion result within −40 °C to +150 °C, and whether it lay outside (R6, R70). -/
def Diode.convert (x : Int) (d : Diode) : Diode :=
  let out := decide (x < -320) || decide (1200 < x)
  { d with fresh := min 1200 (max (-320) x), outside := out,
           status := if out ∧ d.status = .valid then .suspect else d.status }

/-- DIODE_CONVERSION (R69): converter k finishes diode 8k + pos; the eighth position completes the map. -/
def diodeConversion (r pos : Nat) (temps : List Int) (s : State) : State :=
  let ks := (List.range 8).filter (fun k => decide (k < temps.length))
  let t := s.modRegion r (fun g => { g with
    diodes := g.diodes.modifyAll (ks.map (fun k => 8 * k + pos)) (fun d => Diode.convert (temps.getD (d / 8) 0)) })
  if pos = 7 then diodeMap r t else t

def execDiodeConversion (r : RegionId) (pos : Fin 8) (temps : List Int) (s : State) :
    Host.Outcome State Fault Refusal := .next (diodeConversion r pos temps s)

/-- The diode that covers a local cluster (spec 03, thermal diodes). -/
def diodeOf (c : Nat) : Nat := 8 * (c / 24 / 3) + c % 24 / 3

/-- The voltage monitor that covers a local cluster (spec 03, voltage monitors). -/
def monitorOf (c : Nat) : Nat := 4 * (c / 24 / 6) + c % 24 / 6

/-! ### Voltage monitors -/

/-- One reading of a monitor (R84, R87): within 500 to 1,011 mV; two VALID readings end a failure. -/
def VMon.read (mv spec : Nat) (st : Status) (slew : Bool) (v : VMon) : VMon :=
  { mv := clampTo 500 1011 mv, spec := spec, slewing := slew, status := st,
    goodRun := if st = .valid then min 2 (v.goodRun + 1) else 0 }

/-- Some monitor's latest reading is not VALID of itself (R87). -/
def Region.unreadMonitors (g : Region) : Bool := g.vmons.any 16 (fun v => decide (v.status ≠ .valid))

/-- What a monitor's failure or recovery raises (R87, R406): up to four VMON_FEW; five or more VMON_MANY, held while they are so
many. That failure's other effects last until all 16 have been VALID for 1,000 control periods. -/
def monitorFaults (r before : Nat) (s : State) : State :=
  let n := (s.region r).badMonitors
  let s := if 0 < n then s.modRegion r (Region.stick 3) else s
  let t := (if before < n ∧ n < 5 then s.raiseRoll r 2 3 else s).holdRoll r 2 4 (decide (5 ≤ n))
  if 5 ≤ n then
    t.modRegion r (fun g => { g with vmonWait := 1001, margin := { g.margin with goStatic := g.margin.goStatic || decide (before < 5) } })
  else if 0 < (s.region r).vmonWait ∧ (s.region r).unreadMonitors then t.modRegion r (fun g => { g with vmonWait := 1001 })
  else t

/-- VOLTAGE_MONITOR_READING (R67, R84, R175): the 16 readings of a round, flagged while a frame is in progress or the
regulator slews; the round's pair for V_grid; the raise test. True beside the state when a raise has passed. -/
def monitorReading (r : Nat) (reads : List (Nat × Status)) (slewing : Bool) (s : State) : State × Bool :=
  let g := s.region r
  let slew := slewing || g.sp.busy.isSome
  let before := g.badMonitors
  let ks := (List.range 16).filter (fun k => decide (k < reads.length))
  let t := s.modRegion r (fun g => { g with vmons := g.vmons.modifyAll ks (fun k v =>
    VMon.read (reads.getD k (0, .valid)).1 g.spec.s (reads.getD k (0, .valid)).2 slew v) })
  let t := t.modRegion r (fun g => match g.lowestMv with
    | some low => { g with gridSum := g.gridSum + ((g.sp.vc + g.spec.s : Nat) : Int) - low, gridCnt := g.gridCnt + 1 }
    | none => g)
  raiseTest r (monitorFaults r before t)

/-! ### Temperature-and-process monitors -/

/-- TP_MONITOR_WINDOW (R76, R87): the window's count becomes a temperature; in a paired window, one in 65,536, the drift
is the stressed count's shortfall against the unstressed one. Three VALID windows end a failure. -/
def tpWindow (c : Nat) (stressed : Nat) (unstressed : Option Nat) (status : Status) (s : State) : State :=
  let g := s.region (regionOf c)
  let mv := (g.vmons.get (monitorOf (localOf c))).mv
  s.modCluster c (fun u =>
    let drift : Int := match unstressed with
      | some n => if u.tp.windows = 65535 ∧ 0 < n then 4096 - ((4096 * stressed / n : Nat) : Int) else u.tp.drift
      | none => u.tp.drift
    { u with tp := { u.tp with
        reading := temp16 (Config.monitorTemp (s.trims.tp.getD c (0, 0)) stressed mv drift)
        windows := (u.tp.windows + 1) % 65536
        drift := drift
        status := status
        goodRun := if status = .valid then min 3 (u.tp.goodRun + 1) else 0 } })

def execTpMonitorWindow (c : ClusterId) (stressed : Nat) (unstressed : Option Nat) (status : Status) (s : State) :
    Host.Outcome State Fault Refusal := .next (tpWindow c stressed unstressed status s)

end Sys2Proof.Machine
end

