-- ==== Sys2Proof/Machine/Division.lean ====
section
/-!
DEFINITION. From region cap to rate code: the feature record's fields (R99, R101), the per-code terms (R162), the
division of the cap (R163, R164, R227, R240, R274, R278), the standing settings, their slopes and their sending
(R134, R166–R168).
-/

namespace Sys2Proof.Machine

/-! ### Coefficients and records -/

/-- The coefficients of R108 in force in a region. -/
structure Coefs where
  c     : List Nat
  kIdle : Nat
  kVec  : Nat
  t     : List Nat
  spK   : Nat
deriving DecidableEq, Repr

/-- Sage's set-up fields of region `r` (R127). -/
def State.coefs (s : State) (r : Nat) : Coefs :=
  { c := (List.range 8).map (fun f => s.cfg (offCoef r (f / 2)) (16 * (f % 2)) 16)
    kIdle := s.cfg (offCoef r 4) 0 16
    kVec := s.cfg (offCoef r 4) 16 16
    t := (List.range 4).map (fun i => s.cfg (offCoef r 5) (8 * i) 8)
    spK := s.cfg (offCoef r 6) 0 8 }

def Coefs.cMax (k : Coefs) : Nat := k.c.foldl max 0
def Coefs.tMax (k : Coefs) : Nat := k.t.foldl max 0

/-- a_max of R162. -/
def Coefs.aMax (k : Coefs) : Nat := 16 * k.cMax * k.tMax / 8192

/-- Fields of a feature record (R99). -/
def recOcc (w : BitVec 64) (f : Nat) : Nat := bitsOf w.toNat (5 * f) 5
def recTile (w : BitVec 64) : Nat := bitsOf w.toNat 40 2
def recSparse (w : BitVec 64) : Nat := bitsOf w.toNat 42 4
def recVec (w : BitVec 64) : Nat := bitsOf w.toNat 46 6
def recStall (w : BitVec 64) : Nat := bitsOf w.toNat 52 6
def recPhase (w : BitVec 64) : Nat := bitsOf w.toNat 58 2

/-- The sum of the eight OCC fields. -/
def recTotal (w : BitVec 64) : Nat := ((List.range 8).map (recOcc w)).sum

/-- A valid record (R101). -/
def recValid (w : BitVec 64) : Bool :=
  decide (bitsOf w.toNat 60 4 = 0) && (List.range 8).all (fun f => decide (recOcc w f ≤ 16)) &&
    decide (recTotal w ≤ 16) && decide (recVec w ≤ 32) && decide (recStall w ≤ 32) && decide (recPhase w ≠ 3)

/-- Σ C[f] × OCC_f of a record. -/
def Coefs.matrix (k : Coefs) (w : BitVec 64) : Nat := ((List.range 8).map (fun f => k.c.getD f 0 * recOcc w f)).sum

/-- The term a of R162 for one record. -/
def Coefs.perCode (k : Coefs) (w : BitVec 64) : Nat :=
  if recTotal w = 0 then 0
  else k.matrix w * (4096 - k.spK * recSparse w) / 4096 * k.t.getD (recTile w) 0 / 128 / (4 * recTotal w)

/-- The term used for a row's slope (R167): the latest record's, a_max when it has O = 0. -/
def Coefs.latestTerm (k : Coefs) (w : BitVec 64) : Nat := if recTotal w = 0 then k.aMax else k.perCode w

/-- I[c] of R107 at committed code `r`, µA at 750 mV. -/
def Coefs.linear (k : Coefs) (r : Nat) (w : BitVec 64) : Nat :=
  let o := recTotal w
  let m := k.matrix w
  let m := if r < 4 * o then m * r / (4 * o) else m
  let m := m * (4096 - k.spK * recSparse w) / 4096
  let m := m * k.t.getD (recTile w) 0 / 128
  k.kIdle + k.kVec * recVec w + m

/-- I_max(c) of R105 at committed code `r`. -/
def Coefs.iMax (k : Coefs) (r : Nat) : Nat := k.kIdle + 32 * k.kVec + 16 * k.cMax * r * k.tMax / 8192

/-! ### The division -/

/-- Q_c(r) of R162: quarter-amperes at code `r` for vector term `v` and per-code term `a`. -/
def Coefs.q (k : Coefs) (vc v a r : Nat) : Nat := ceilDiv ((k.kIdle + k.kVec * v + r * a) * vc) 187500000

/-- CEIL of operating point `n` (R234). -/
def State.opCeil (s : State) (n : Nat) : Nat := if n = 0 then 64 else s.cfg (offOp n) 0 7

/-- VOFS of operating point `n`. -/
def State.opVofs (s : State) (n : Nat) : Int := if n = 0 then 0 else signed8 (s.cfg (offOp n) 8 8)

/-- The group cap code in force at a cluster, floored at a granted one (R240, R277). -/
def Cluster.groupCode (u : Cluster) : Nat := max u.grpCode u.grpFloor

/-- The code of the division while an arm waits (R278, R279): the armed one. -/
def Cluster.nextCode (u : Cluster) : Nat :=
  match u.armed with
  | some (code, _) => max code u.grpFloor
  | none => u.groupCode

/-- What the division reads of a cluster. -/
structure Want where
  live : Bool
  res  : Nat
  need : Nat
  v    : Nat
  a    : Nat
  host : Option Nat
deriving DecidableEq, Repr

/-- The division's parameters: coefficients, V_c, cap, whether every cluster counts a_max (R165). -/
structure Div where
  k      : Coefs
  vc     : Nat
  iReg   : Nat
  useMax : Bool
deriving DecidableEq, Repr

/-- The reservations' sum of a region (R163). -/
def resSum (m : SMap Cluster) : Nat := m.sum 576 (fun u => if u.ctl.spared then 0 else u.ctl.res)

/-- A reservation scaled while the reservations exceed the cap (R163, R227, R258). -/
def scaled (iReg total res : Nat) : Nat := if iReg < total then res * iReg / total else res

/-- What the division reads of a cluster under group code `g`, its reservation scaled within `total`. -/
def Div.want (d : Div) (total g : Nat) (u : Cluster) : Want :=
  let a := if d.useMax ∨ u.feature.aPrev = 0 then d.k.aMax else u.feature.aPrev
  let res := scaled d.iReg total u.ctl.res
  let w := min 64 (min u.phCeil g)
  let dem := d.k.q d.vc u.feature.vPrev a (if u.feature.workedPrev then w else 0)
  ⟨!u.ctl.spared, res, max res dem, u.feature.vPrev, a,
    u.ctl.hostCeil.map (fun h => if u.phases.isSome then max h res else h)⟩

/-- The sums that a division needs: need, reservations, live clusters. -/
def wantSums (m : SMap Want) : Nat × Nat × Nat :=
  (m.sum 576 (fun w => if w.live then w.need else 0), m.sum 576 (fun w => if w.live then w.res else 0),
    m.count 576 (fun w => w.live))

/-- I_cl of R163. -/
def Div.share (d : Div) (sums : Nat × Nat × Nat) (w : Want) : Nat :=
  let (needs, ress, live) := sums
  let x := if needs ≤ d.iReg then min 255 (w.need + (d.iReg - needs) / live)
    else w.res + (w.need - w.res) * (d.iReg - ress) / (needs - ress)
  match w.host with
  | some h => min x h
  | none => x

/-- C_cl of R164 for a share. -/
def Div.ceilOf (d : Div) (w : Want) (share : Nat) : Nat :=
  ((List.range 65).filter (fun r => decide (d.k.q d.vc w.v w.a r ≤ share))).foldl max 0

/-- A tightening of the group of `u` has not landed at it: its region's m_r, or an armed code, is below the code in
force (R278). -/
def Cluster.tight (mR : Nat → Nat) (u : Cluster) : Bool :=
  match u.ctl.group with
  | none => false
  | some gid => decide (mR gid < u.grpCode) || (match u.armed with | some (c, _) => decide (c < u.grpCode) | none => false)

/-- m_r of a slot list by group (R274); 64 for a group without a slot. -/
def slotMR (l : List GSlot) (gid : Nat) : Nat :=
  match l.find? (fun x => x.gid == gid && !x.closing) with
  | some x => x.mR
  | none => 64

/-- The uncapped ceilings of R274: the division with the group code of every member taken as 64. -/
def Div.uncapped (d : Div) (m : SMap Cluster) : SMap Cluster :=
  let total := resSum m
  let code (u : Cluster) : Nat := if u.ctl.group.isSome then 64 else u.nextCode
  let sums := wantSums (m.mapAll (fun u => d.want total (code u) u))
  m.mapAll (fun u =>
    let w := d.want total (code u) u
    { u with ctl := { u.ctl with uncapped := if u.ctl.spared then 0 else d.ceilOf w (d.share sums w) } })

/-- The share of a cluster while a tightening waits to land (R278): its members keep the larger of their new share `x` and
their old one, or, should those not fit, the old one; every other cluster takes the lesser, and no granted one less than its
reservation `res` (R239). -/
def Cluster.heldShare (mR : Nat → Nat) (larger : Bool) (res x : Nat) (u : Cluster) : Nat :=
  if u.tight mR = false then min x (max res u.ctl.share)
  else if larger then max x u.ctl.share else max res u.ctl.share

/-- What the division reads of a member for which a tightening waits, under the emergency action alone: the group code and
the host ceiling of before (R280). -/
def Div.wantBefore (d : Div) (total : Nat) (mR : Nat → Nat) (u : Cluster) : Want :=
  if u.tight mR then
    let w := d.want total u.groupCode u
    { w with host := w.host.map (fun h => max h u.ctl.share) }
  else d.want total u.nextCode u

/-- The division of the cap (R163, R164). With `hold` the shares are held as R278 says while a tightening waits, within
`limit`, the cap in force before: should the larger shares pass it, the members keep their old ones, and take the new ones
should those pass it too (notes/assumptions/48.md). Where an emergency action has cut the cap (`cut`), it acts on every
cluster directly, and on a member for which a tightening waits by itself alone (R280). -/
def Div.divide (d : Div) (mR : Nat → Nat) (hold cut : Bool) (limit : Nat) (m : SMap Cluster) : SMap Cluster :=
  let total := resSum m
  let sums := wantSums (m.mapAll (fun u => d.want total u.nextCode u))
  let x (u : Cluster) : Nat := d.share sums (d.want total u.nextCode u)
  let before := wantSums (m.mapAll (d.wantBefore total mR))
  let direct (u : Cluster) : Nat := d.share before (d.wantBefore total mR u)
  let held (larger : Bool) (u : Cluster) : Nat := u.heldShare mR larger (scaled d.iReg total u.ctl.res) (x u)
  let fits (f : Cluster → Nat) : Bool := decide (m.sum 576 (fun u => if u.ctl.spared then 0 else f u) ≤ limit)
  let share : Cluster → Nat :=
    if !(hold && m.any 576 (fun u => !u.ctl.spared && u.tight mR)) then x
    else if cut then (fun u => min (direct u) (held true u))
    else if fits (held true) then held true
    else if fits (held false) then held false
    else x
  m.mapAll (fun u =>
    if u.ctl.spared then { u with ctl := { u.ctl with share := 0, ceil := 0 } }
    else
      let i := share u
      { u with ctl := { u.ctl with share := i, ceil := d.ceilOf (d.want total u.nextCode u) i } })

/-- m_r of a group slot: the least uncapped ceiling of its live members (R274). -/
def GSlot.least (m : SMap Cluster) (x : GSlot) : Nat :=
  (x.members.map (fun c => if (m.get c).ctl.spared then 64 else (m.get c).ctl.uncapped)).foldl min 64

/-- The cap that groups are judged by once the hub's cap `x` arrives (R203, R204, R274, R280): a cap below all that emergency
actions allow the region, `bound`, is no action's, and groups are judged by it; one that `bound` holds leaves it. -/
def Caps.judged (bound x : Nat) (c : Caps) : Nat := if x < bound then x else max c.calm x

/-- A region's cap becomes `i`, and the cap that groups are judged by `calm`, never below it. -/
def Caps.setCap (i calm : Nat) (c : Caps) : Caps := { c with iReg := i, calm := max calm i }

/-! ### Standing settings -/

/-- The standing target code (R166); a raise that waits for the raise test of R246 keeps the code last sent. -/
def Cluster.standing (u : Cluster) : Nat :=
  let c := min u.ctl.ceil (u.groupCode)
  if u.ctl.raiseHeld then min c u.ctl.sentCode else c

/-- Steps per code of R167 for a row's rise `u` µA per code. -/
def slopeFor (slewMax u : Nat) : Nat :=
  match [(1, 7), (2, 6), (4, 5), (8, 4), (16, 3), (32, 2), (64, 1)].find? (fun p => decide (72 * u ≤ 10000 * slewMax * p.1)) with
  | some p => p.2
  | none => 1

/-- slope(g) of R167. -/
def rowSlope (k : Coefs) (slewMax : Nat) (m : SMap Cluster) (g : Nat) : Nat :=
  slopeFor slewMax (m.sumRange (24 * g) (24 * g + 24) (fun u =>
    if !u.ctl.spared && decide (u.minCode < u.standing) then k.latestTerm u.feature.lastValid else 0))

/-- A cluster as the sending of settings sees it: live, code last sent, standing code. -/
structure View where
  live : Bool
  sent : Nat
  new  : Nat
deriving DecidableEq, Repr

def Cluster.view (u : Cluster) : View := ⟨!u.ctl.spared, u.ctl.sentCode, u.standing⟩

/-- A stretch of clusters shares one code, and sending it does not mix lowerings with raises (R168). -/
def oneSetting (vs : List View) : Option Nat :=
  match vs.filter (fun v => v.live) with
  | [] => none
  | v :: rest =>
    if rest.all (fun x => x.new == v.new) &&
        !((v :: rest).any (fun x => decide (x.new < x.sent)) && (v :: rest).any (fun x => decide (x.sent < x.new)))
    then some v.new else none

/-- A setting of the stretch lowers a code. -/
def lowers (vs : List View) : Bool := vs.any (fun v => v.live && decide (v.new < v.sent))

/-- A setting of the stretch raises a code, or makes the slope steeper. -/
def raises (vs : List View) (slope sentSlope : Nat) : Bool :=
  vs.any (fun v => v.live && (decide (v.sent < v.new) || decide (sentSlope < slope)))

/-- The words that carry a row's changed settings, each with whether it goes first: at a boundary the lowerings of a code
(R168), in ramp shaping the raises of a code or slope, which no other setting may delay (R134). -/
def rowWords (shaping : Bool) (m : SMap View) (g slope sentSlope : Nat) : List (Bool × Word) :=
  let vs := m.values (24 * g) (24 * g + 24)
  let changed (v : View) : Bool := v.live && (v.new != v.sent || slope != sentSlope)
  let first (l : List View) : Bool := if shaping then raises l slope sentSlope else lowers l
  if vs.any changed = false then []
  else match oneSetting vs with
  | some c => [(first vs, rowWord g 0 c slope)]
  | none => ((List.range 24).map (fun i => (24 * g + i, m.get (24 * g + i)))).filterMap (fun p =>
      if changed p.2 then some (first [p.2], clusterWord p.1 0 p.2.new slope) else none)

/-- The words of the rows listed, in the order of R168 or R134: one region word where every live cluster shares the
setting. -/
def settingWords (shaping : Bool) (m : SMap View) (rows : List Nat) (slopes sentSlopes : List Nat) : List Word :=
  let all := m.values 0 576
  let k := slopes.headD 7
  let changed := (List.range 24).any (fun g => slopes.getD g 7 != sentSlopes.getD g 7) ||
    all.any (fun v => v.live && v.new != v.sent)
  match (if rows.length = 24 ∧ slopes.all (fun x => x == k) then oneSetting all else none) with
  | some c => if changed then [regionWord 0 c k] else []
  | none =>
    let ws := rows.flatMap (fun g => rowWords shaping m g (slopes.getD g 7) (sentSlopes.getD g 7))
    (ws.filter (fun w => w.1)).map Prod.snd ++ (ws.filter (fun w => !w.1)).map Prod.snd

/-- The governor of region `r` sends the changed standing settings of the rows listed (R134, R168); `committed` is false
for a shaped setting, which R103 leaves out of the committed code. A lowering of a committed code marks a standing
pre-raise as abandoned if not confirmed (R139). A shaped cluster is remembered until the boundary (R135). -/
def sendSettings (r : Nat) (rows : List Nat) (committed : Bool) (s : State) : State :=
  let g := s.region r
  let k := s.coefs r
  let slew := s.cfg (offAct r 1) 0 10
  let slopes := (List.range 24).map (fun i =>
    if i ∈ rows then rowSlope k slew g.clusters i else g.caps.slopes.getD i 7)
  let views := g.clusters.mapAll Cluster.view
  let words := settingWords (!committed) views rows slopes g.caps.slopes
  let upd (u : Cluster) : Cluster :=
    if u.ctl.spared then u
    else
      let c := u.standing
      { u with ctl := { u.ctl with
          sentCode := c, setCode := if committed then c else u.ctl.setCode, shaped := !committed } }
  let fall := committed && g.clusters.any 576 (fun u => !u.ctl.spared && decide (u.standing < u.ctl.setCode))
  let clusters := if rows.length = 24 then g.clusters.mapAll upd
    else g.clusters.modifyAll (rows.flatMap (fun i => (List.range 24).map (fun j => 24 * i + j))) (fun _ => upd)
  let t := s.modRegion r (fun g => { g with
    clusters := clusters
    caps := { g.caps with slopes := slopes }
    spec := if fall then { g.spec with abandon := g.spec.abandon || decide (g.spec.state = .standing) } else g.spec })
  words.foldl (fun acc w => acc.sendWord r w) t

/-- Rows with a shaped cluster whose standing code or slope has risen over what was sent (R135). -/
def risenRows (s : State) (r : Nat) : List Nat :=
  let g := s.region r
  let slew := s.cfg (offAct r 1) 0 10
  (List.range 24).filter (fun i =>
    (g.clusters.values (24 * i) (24 * i + 24)).any (fun u => !u.ctl.spared && u.ctl.shaped &&
      (decide (u.ctl.sentCode < u.standing) ||
        decide (g.caps.slopes.getD i 7 < rowSlope (s.coefs r) slew g.clusters i))))

/-- A shaped cluster's raised setting goes ahead of every other pending setting (R135). -/
def raiseShaped (r : Nat) (s : State) : State :=
  match risenRows s r with
  | [] => s
  | rows => sendSettings r rows false s

end Sys2Proof.Machine
end

