-- ==== Sys2Proof/Machine/Float.lean ====
section
/-!
DEFINITION. Sage's number formats (spec 00, number formats; R110, R111): values as dyadic numbers, decoding of each
format, and rounding to nearest even.
-/

namespace Sys2Proof.Machine

/-- A value of a floating-point format: a finite one is m × 2^e. -/
inductive Num where
  | nan
  | inf (neg : Bool)
  | fin (m : Int) (e : Int)
deriving DecidableEq, Repr

/-- Round the magnitude `m` × 2^`e` to `prec` bits with least exponent `qmin`: the significand and its exponent. -/
def roundMag (prec : Nat) (qmin : Int) (m : Nat) (e : Int) : Nat × Int :=
  let q : Int := max (e + (Nat.log2 m : Int) + 1 - prec) qmin
  if q ≤ e then (m * 2 ^ (e - q).toNat, q)
  else
    let d := (q - e).toNat
    let n := m / 2 ^ d
    let rest := m % 2 ^ d
    let half := 2 ^ (d - 1)
    (if half < rest ∨ (rest = half ∧ n % 2 = 1) then n + 1 else n, q)

/-- `m` × 2^`e` exceeds `top` × 2^`qtop`. -/
def exceeds (m : Nat) (e : Int) (top : Nat) (qtop : Int) : Bool :=
  if qtop ≤ e then decide (top < m * 2 ^ (e - qtop).toNat) else decide (top * 2 ^ (qtop - e).toNat < m)

/-- Rounding of a value to a format whose largest finite value is `top` × 2^`qtop`: an overflow goes to infinity, or to
that largest value where the conversion saturates (R111 step 5). -/
def Num.round (prec : Nat) (qmin : Int) (top : Nat) (qtop : Int) (saturate : Bool) : Num → Num
  | .nan => .nan
  | .inf s => if saturate then .fin (if s then -(top : Int) else top) qtop else .inf s
  | .fin m e =>
    if m = 0 then .fin 0 0
    else
      let (n, q) := roundMag prec qmin m.natAbs e
      if exceeds n q top qtop then
        if saturate then .fin (if m < 0 then -(top : Int) else top) qtop else .inf (decide (m < 0))
      else .fin (if m < 0 then -(n : Int) else n) q

/-- Rounding to FP32. -/
def Num.fp32 (x : Num) : Num := x.round 24 (-149) (2 ^ 24 - 1) 104 false

/-- A product and a sum, each rounded once to FP32 (R111 steps 1 to 3). -/
def Num.mul (x y : Num) : Num :=
  match x, y with
  | .nan, _ => .nan
  | _, .nan => .nan
  | .inf s, .inf t => .inf (s != t)
  | .inf s, .fin m _ => if m = 0 then .nan else .inf (s != decide (m < 0))
  | .fin m _, .inf s => if m = 0 then .nan else .inf (s != decide (m < 0))
  | .fin m e, .fin n f => (Num.fin (m * n) (e + f)).fp32

def Num.add (x y : Num) : Num :=
  match x, y with
  | .nan, _ => .nan
  | _, .nan => .nan
  | .inf s, .inf t => if s = t then .inf s else .nan
  | .inf s, .fin _ _ => .inf s
  | .fin _ _, .inf s => .inf s
  | .fin m e, .fin n f =>
    let q := min e f
    (Num.fin (m * 2 ^ (e - q).toNat + n * 2 ^ (f - q).toNat) q).fp32

/-- The value of the bits of a format with `eb` exponent bits, `mb` fraction bits and a bias. `special`: 0 the format
has neither infinity nor NaN, 1 all bits set is NaN, 2 as IEEE 754. -/
def decodeFloat (eb mb bias special w : Nat) : Num :=
  let frac := w % 2 ^ mb
  let ex := w / 2 ^ mb % 2 ^ eb
  let neg := decide (w / 2 ^ (mb + eb) % 2 = 1)
  let sgn (m : Nat) : Int := if neg then -(m : Int) else m
  if special = 2 ∧ ex = 2 ^ eb - 1 then (if frac = 0 then .inf neg else .nan)
  else if special = 1 ∧ ex = 2 ^ eb - 1 ∧ frac = 2 ^ mb - 1 then .nan
  else if ex = 0 then .fin (sgn frac) (1 - (bias : Int) - mb)
  else .fin (sgn (2 ^ mb + frac)) ((ex : Int) - bias - mb)

/-- An integer of `n` bits in two's complement. -/
def signedOf (n w : Nat) : Int := if w % 2 ^ n < 2 ^ (n - 1) then (w % 2 ^ n : Nat) else (w % 2 ^ n : Nat) - 2 ^ n

/-- The value of the bits `w` in format code `f` of R115. -/
def decodeFormat (f w : Nat) : Num :=
  match f with
  | 0 => .fin (signedOf 4 w) 0
  | 1 => .fin (signedOf 8 w) 0
  | 2 => .fin (signedOf 16 w) 0
  | 3 => decodeFloat 2 1 1 0 w
  | 4 => decodeFloat 3 2 3 0 w
  | 5 => decodeFloat 4 3 7 1 w
  | 6 => decodeFloat 5 2 15 2 w
  | 7 => decodeFloat 5 10 15 2 w
  | 8 => decodeFloat 8 7 127 2 w
  | _ => decodeFloat 8 23 127 2 w

/-- Bits of a value in format code `f` (R115). -/
def formatBits (f : Nat) : Nat :=
  match f with
  | 0 => 4
  | 1 => 8
  | 2 => 16
  | 3 => 4
  | 4 => 6
  | 5 => 8
  | 6 => 8
  | 7 => 16
  | 8 => 16
  | _ => 32

/-- Rounding of m × 2^e to an integer, ties to even, within `lo .. hi`. -/
def roundInt (lo hi : Int) : Num → Int
  | .nan => min hi (max lo Config.nanInteger)
  | .inf s => if s then lo else hi
  | .fin m e =>
    let x : Int := if 0 ≤ e then m * 2 ^ e.toNat
      else
        let d := (-e).toNat
        let n : Nat := m.natAbs / 2 ^ d
        let rest := m.natAbs % 2 ^ d
        let half := 2 ^ (d - 1)
        let r : Nat := if half < rest ∨ (rest = half ∧ n % 2 = 1) then n + 1 else n
        if m < 0 then -(r : Int) else r
    min hi (max lo x)

/-- Conversion of a result to activation format `f` (R111 step 5). -/
def toFormat (f : Nat) (x : Num) : Num :=
  match f with
  | 1 => .fin (roundInt (-128) 127 x) 0
  | 2 => .fin (roundInt (-32768) 32767 x) 0
  | 5 => x.round 4 (-9) 14 5 true
  | 6 => x.round 3 (-16) 7 13 true
  | 7 => x.round 11 (-24) 2047 5 true
  | 8 => x.round 8 (-133) 255 120 true
  | _ => x

end Sys2Proof.Machine
end

