-- ==== Sys2Proof/Machine/Sage.lean ====
section
/-!
DEFINITION. Sage: the feature encoder (R99–R101), the forecast and its publication (R97, R98, R102–R107), the learned
model's evaluation (R111–R113), ramp shaping (R134), accuracy tracking and trust (R123–R126).
-/

namespace Sys2Proof.Machine

def Region.modSage (g : Region) (f : Sage → Sage) : Region := { g with sage := f g.sage }

/-! ### The feature record -/

/-- The counted slots of one core's queue (R100): from the head, until 1,024. -/
def countQueue : Nat → List QueueOp → List (QueueOp × Nat)
  | _, [] => []
  | left, o :: rest =>
    let n := min left (Config.issueSlots o.fmt o.tile)
    if left = 0 then [] else (o, n) :: countQueue (left - n) rest

/-- The eight occupancies before and after the excess over 16 is taken off the largest (R100). Where the excess is larger
than that field, which R100 does not foresee, the field falls to 0 and the record stays invalid: DESIGN CHOICE,
notes/assumptions/49.md. -/
def occupancies (slots : List (QueueOp × Nat)) : List Nat :=
  let raw := (List.range 8).map (fun f =>
    (((slots.filter (fun p => p.1.fmt.val == f)).map Prod.snd).sum + 1024) / 2048)
  let top := raw.foldl max 0
  let k := raw.findIdx (fun x => x == top)
  raw.set k (top - (raw.sum - 16))

/-- TILE of R99; two classes with the largest share are mixed. -/
def tileClass (slots : List (QueueOp × Nat)) : Nat :=
  let share (t : Nat) : Nat := ((slots.filter (fun p => p.1.tile.val == t)).map Prod.snd).sum
  let top := max (share 0) (max (share 1) (share 2))
  match (List.range 3).filter (fun t => share t == top) with
  | [t] => t
  | _ => if top = 0 then Config.idleTile.val else 3

/-- SPARSE of R99. -/
def sparseShare (slots : List (QueueOp × Nat)) : Nat :=
  let total := (slots.map Prod.snd).sum
  if total = 0 then 0 else min 15 (16 * ((slots.filter (fun p => p.1.sparse)).map Prod.snd).sum / total)

/-- FEATURE_LATCH (R100): the record of a cluster's queues. -/
def encodeRecord (cores : List CoreQueue) (vecSteps : Nat) : BitVec 64 :=
  let cores := cores.take 32
  let slots := cores.flatMap (fun q => countQueue 1024 q.ops)
  let occ := occupancies slots
  let ph := if cores.any (fun q => q.markerHead) then 2 else if cores.any (fun q => q.markerIn) then 1 else 0
  BitVec.ofNat 64 (((List.range 8).map (fun f => occ.getD f 0 * 2 ^ (5 * f))).sum + tileClass slots * 2 ^ 40 +
    sparseShare slots * 2 ^ 42 + min 32 vecSteps * 2 ^ 46 +
    (cores.filter (fun q => q.stalled)).length * 2 ^ 52 + ph * 2 ^ 58)

/-- The record that reaches Sage from a tap; nothing listed is nothing queued. -/
def tapBits : FeatureTap → BitVec 64
  | .queues cores vec => encodeRecord cores vec
  | .lane w => w

/-- Sage's use of a record (R101), and what the governor keeps of it for R162 and R163. -/
def Feature.latch (k : Coefs) (w : BitVec 64) (f : Feature) : Feature :=
  let run := if recValid w then 0 else min 3 (f.invalidRun + 1)
  let used : BitVec 64 := if recValid w then w else if run = 3 then 0 else f.lastValid
  { f with
    lastValid := used
    invalidRun := run
    aMax := max f.aMax (k.perCode used)
    vMax := max f.vMax (recVec used)
    worked := f.worked || decide (0 < recTotal used) }

/-! ### The learned model -/

/-- A layer descriptor of a model image (R115). -/
structure Layer where
  nIn  : Nat
  nOut : Nat
  wFmt : Nat
  aFmt : Nat
  relu : Bool
  wOfs : Nat
  pOfs : Nat
deriving DecidableEq, Repr

/-- Descriptor `k` of an image. -/
def layerAt (img : List Byte) (k : Nat) : Layer :=
  let o := 0x20 + 16 * k
  ⟨leAt img o 2, leAt img (o + 2) 2, byteAt img (o + 4), byteAt img (o + 5), byteAt img (o + 6) == 1,
    leAt img (o + 8) 4, leAt img (o + 12) 4⟩

/-- The layers of an image, first to last. -/
def layersOf (img : List Byte) : List Layer := (List.range (byteAt img 6)).map (layerAt img)

/-- Layer 1 has one weight matrix for all groups. -/
def sharedFirst (img : List Byte) : Bool := bitOf (byteAt img 7) 0

/-- Bytes of one output's weights (R115). -/
def Layer.rowBytes (l : Layer) : Nat := ceilDiv (l.nIn * formatBits l.wFmt) 8

/-- Weight of input `i` of output row `o` (R115). -/
def Layer.weight (img : List Byte) (l : Layer) (o i : Nat) : Num :=
  let bit := i * formatBits l.wFmt
  decodeFormat l.wFmt (bitsOf (leAt img (l.wOfs + o * l.rowBytes + bit / 8) 3) (bit % 8) (formatBits l.wFmt))

/-- ReLU of a value (R111 step 4). -/
def reluOf : Num → Num
  | .nan => if Config.reluNan then .nan else .fin 0 0
  | .inf s => if s then .fin 0 0 else .inf false
  | .fin m e => if m < 0 then .fin 0 0 else .fin m e

/-- One output of a layer (R111): `row` numbers its weights, `pair` its scale and bias. The product with the scale and the sum with
the bias are each rounded to FP32: DESIGN CHOICE, notes/assumptions/77.md. -/
def Layer.output (img : List Byte) (l : Layer) (row pair : Nat) (xs : List Num) : Num :=
  let sum : Num := xs.zipIdx.foldl (fun (acc : Num) p => acc.add ((l.weight img row p.2).mul p.1)) (.fin 0 0)
  let par (o : Nat) : Num := decodeFormat 9 (leAt img (l.pOfs + 8 * pair + o) 4)
  let y := (sum.mul (par 0)).add (par 4)
  toFormat l.aFmt (if l.relu then reluOf y else y)

/-- Layer 1 over the 24 groups, group by group (R109). -/
def firstLayer (img : List Byte) (l : Layer) (groups : List (List Num)) : List Num :=
  groups.zipIdx.flatMap (fun g => (List.range l.nOut).map (fun o =>
    l.output img (if sharedFirst img then o else g.2 * l.nOut + o) (g.2 * l.nOut + o) g.1))

/-- A later layer, fully connected. -/
def laterLayer (img : List Byte) (l : Layer) (xs : List Num) : List Num :=
  (List.range l.nOut).map (fun o => l.output img o o xs)

/-- The 24 outputs of a model, in amperes at 750 mV. -/
def evalModel (img : List Byte) (groups : List (List Num)) : List Num :=
  match layersOf img with
  | [] => []
  | l :: rest => rest.foldl (fun xs k => laterLayer img k xs) (firstLayer img l groups)

/-- The eight inputs of a cluster (spec 04, the learned model). -/
def inputsOf (k : Coefs) (code : Nat) (spared : Bool) (w : BitVec 64) : List Num :=
  if spared then List.replicate 8 (.fin 0 0)
  else
    let o := recOcc w
    [min 127 (k.linear code w / 10000), o 0 + o 1 + o 4, o 2 + o 3 + o 5, o 6 + o 7, recSparse w, recVec w, recStall w,
      16 * recPhase w + recTile w].map (fun (x : Nat) => Num.fin x 0)

/-! ### FORECAST_BOUNDARY -/

/-- No Dill of the wafer is asserted. -/
def State.noDroop (s : State) : Bool :=
  let quiet (g : Region) : Bool := !g.clusters.dflt.dill.asserted && g.clusters.cells.all (fun p => !p.2.dill.asserted)
  quiet s.regions.dflt && s.regions.cells.all (fun p => quiet p.2)

/-- Local clusters of region `r` with a droop wire in effect. -/
def State.wired (s : State) (r : Nat) : List Nat :=
  if s.noDroop then [] else (List.range 576).filter (fun c => s.droopAt (576 * r + c))

/-- The committed code of a cluster (R103): `forced` when a trip force, safe force or droop wire acts on it. -/
def Cluster.committed (forced : Bool) (u : Cluster) : Nat :=
  let held := u.limiters.any 32 (fun l => l.hold)
  if forced || held then min u.ctl.setCode u.minCode else u.ctl.setCode

/-- The row sums of a per-cluster figure. -/
def rowSums (m : SMap Nat) : List Nat := (List.range 24).map (fun g => m.sumRange (24 * g) (24 * g + 24) id)

/-- A region's forecast at a boundary (R103–R107, R111); `sel` is MODEL_SEL, which a closed GS gate overrides (R454). -/
def makeForecast (k : Coefs) (force : Bool) (wired : List Nat) (sel : Nat) (g : Region) : Forecast :=
  let codes := (g.clusters.mapAll (Cluster.committed force)).modifyAll wired
    (fun c _ => Cluster.committed true (g.clusters.get c))
  let sumOf (f : Nat → Cluster → Nat) : List Nat :=
    rowSums ((g.clusters.mapAll (fun u => if u.ctl.spared then 0 else f (Cluster.committed force u) u)).modifyAll wired
      (fun c _ => let u := g.clusters.get c; if u.ctl.spared then 0 else f (codes.get c) u))
  let learn := decide (g.sage.model = .active ∧ sel = 1)
  { lat := if learn then g.sage.latency else 14
    linUA := sumOf (fun r u => k.linear r u.feature.lastValid)
    maxUA := sumOf (fun r _ => k.iMax r)
    learned :=
      if learn then
        let groups := (List.range 24).map (fun i => (List.range 24).flatMap (fun j =>
          let u := g.clusters.get (24 * i + j)
          inputsOf k (codes.get (24 * i + j)) u.ctl.spared u.feature.lastValid))
        some ((evalModel g.sage.weights groups).map (fun x => match x with | .fin m e => some (m, e) | _ => none))
      else none }

/-- Trust ends (R126), and with it the recovered margin (R215). -/
def Region.untrust (g : Region) : Region :=
  let was := g.trust.trusted
  { g with
    trust := { g.trust with trusted := false, goodRun := 0, voidRun := 0 }
    margin := { g.margin with goStatic := g.margin.goStatic || was, sticky := g.margin.sticky ||| 1 } }

/-- A change of a region's model state (R122): trust ends, and the period does not count toward tracking (R124). -/
def Region.setModel (m : ModelState) (g : Region) : Region :=
  if g.sage.model = m then g
  else (g.modSage (fun x => { x with model := m, void := true, modelId := if m = .active then x.modelId else 0 })).untrust

/-- One region at a forecast boundary: the records are latched, the forecast is started. -/
def forecastRegion (taps : List (ClusterId × FeatureTap)) (s : State) (r : Nat) : State :=
  let k := s.coefs r
  let idle := encodeRecord [] 0
  let mine := taps.filter (fun p => decide (regionOf p.1 = r) && !(s.cluster p.1).ctl.spared)
  let latch (w : BitVec 64) (u : Cluster) : Cluster := { u with feature := u.feature.latch k w }
  let m := (s.region r).clusters
  let rest := m.mapAll (latch idle)
  let clusters := mine.foldl (fun acc p => acc.set (localOf p.1) (latch (tapBits p.2) (m.get (localOf p.1)))) rest
  let bad := mine.filter (fun p =>
    decide ((m.get (localOf p.1)).feature.invalidRun < 3) && (clusters.get (localOf p.1)).feature.invalidRun == 3)
  let t := s.modRegion r (fun g =>
    let g := { g with clusters := clusters }
    let g := if g.sage.failNext then
        (if g.sage.model = .active then g.setModel .failed else g).modSage (fun x => { x with failNext := false })
      else g
    let sel := if (s.gov r).gsClosed then 0 else s.cfg (offSage r) 0 2
    let f := makeForecast k (s.tripForce r || s.safeForce r) (s.wired r) sel g
    g.modSage (fun x => { x with inFlight := some f, fnum := x.fnext, fnext := (x.fnext + 1) % 125 }))
  if bad = [] then t else t.raiseRoll r 2 5

/-- FORECAST_BOUNDARY (R97, R99–R103, R107): at the same instant in every region. -/
def execForecastBoundary (taps : List (ClusterId × FeatureTap)) (s : State) : Host.Outcome State Fault Refusal :=
  .next (s.forRegions (fun r t => forecastRegion taps t r))

/-! ### FORECAST_PUBLICATION -/

/-- A row's linear value in quarter-amperes (R104). -/
def linearQA (ua vc : Nat) : Nat := (ua * vc + 93750000) / 187500000

/-- A row's learned value in quarter-amperes (R104): floor(out × V_c × 4 ÷ 750 + 0.5). -/
def learnedQA (m e : Int) (vc : Nat) : Int :=
  if 0 ≤ e then Int.fdiv (m * 2 ^ e.toNat * vc * 8 + 750) 1500
  else Int.fdiv (m * vc * 8 + 750 * 2 ^ (-e).toNat) (1500 * 2 ^ (-e).toNat)

/-- A row's value: clamped, whether it was clamped, whether a learned value was replaced (R105, R113). -/
def groupValue (f : Forecast) (vc g : Nat) : Nat × Bool × Bool :=
  let top := f.maxUA.getD g 0 * vc / 187500000
  let lin := linearQA (f.linUA.getD g 0) vc
  let (x, gone) : Int × Bool := match f.learned with
    | none => ((lin : Int), false)
    | some l => match l.getD g none with
      | some (m, e) => (learnedQA m e vc, false)
      | none => ((lin : Int), true)
  let y := min top x.toNat
  (y, decide ((y : Int) ≠ x), gone)

/-- The linear model's regional figure, for the shadow tracking of R123. -/
def linearRegion (f : Forecast) (vc rating : Nat) : Nat :=
  min rating ((List.range 24).map (fun g => min (f.maxUA.getD g 0 * vc / 187500000) (linearQA (f.linUA.getD g 0) vc))).sum

/-- The horizon of the forecast number `n` published after `lat` Sage cycles lies wholly within the running control
period of 1,200 Sage cycles (R97, R98, R123): 256 engine cycles are 256 Sage cycles, or 128 while the clocks coast. -/
def horizonWithin (n lat : Nat) (coasting : Bool) : Bool :=
  decide ((384 * (n / 5) + 77 * (n % 5) + lat) % 1200 + (if coasting then 128 else 256) ≤ 1200)

/-- Rows whose forecast rises enough to be shaped, and that hold a setting other than their standing one (R134). Before the
first forecast every group value counts as 0: DESIGN CHOICE, notes/assumptions/50.md. -/
def shapeRows (s : State) (r : Nat) : List Nat :=
  let g := s.region r
  let slew := s.cfg (offAct r 1) 0 10
  (List.range 24).filter (fun i =>
    decide (g.sage.prevGroups.getD i 0 + s.cfg (offSpec r 1) 16 8 ≤ g.sage.groups.getD i 0) &&
      ((rowSlope (s.coefs r) slew g.clusters i != g.caps.slopes.getD i 7 &&
          (g.clusters.values (24 * i) (24 * i + 24)).any (fun u => !u.ctl.spared)) ||
        (g.clusters.values (24 * i) (24 * i + 24)).any (fun u => !u.ctl.spared && u.standing != u.ctl.sentCode)))

/-- RAMP_SHAPING (R134, R139, R142, R147): not while SPEC_EN is 0 or the region is demoted, nor in the safe state. -/
def rampShaping (r : Nat) (s : State) : State :=
  let rows := shapeRows s r
  if s.cfgBit (offSpec r 0) 0 = false ∨ (s.region r).spec.state = .demoted ∨ (s.gov r).safe = true ∨ rows = [] then s
  else (sendSettings r rows false s).modRegion r (fun g => g.modSpec (fun p =>
    { p with shaped := p.shaped + BitVec.ofNat 32 rows.length }))

/-- FORECAST_PUBLICATION (R98, R104–R106, R113, R123, R131, R134, R135). -/
def publish (r : Nat) (s : State) : State :=
  let g := s.region r
  match g.sage.inFlight with
  | none => s
  | some f =>
    let vals := (List.range 24).map (groupValue f g.sp.vc)
    let groups := vals.map (fun v => v.1)
    let rating := g.ph.rating
    let sum := groups.sum
    let fReg := min rating sum
    let gone := vals.any (fun v => v.2.2)
    let within := horizonWithin g.sage.fnum f.lat s.coasting
    let t := s.modRegion r (fun g => g.modSage (fun x => { x with
      inFlight := none
      prevGroups := x.groups
      groups := groups
      fReg := fReg
      clampFlag := vals.any (fun v => v.2.1) || decide (rating < sum)
      srcFlag := if f.learned.isNone then 0 else if gone then 2 else 1
      lastSrc := if f.learned.isNone then 0 else 1
      invalid := if gone then satAdd 0xFFFF x.invalid 1 else x.invalid
      sumPub := if within then x.sumPub + fReg else x.sumPub
      sumLin := if within then x.sumLin + linearRegion f g.sp.vc rating else x.sumLin
      nPub := if within then x.nPub + 1 else x.nPub }))
    rampShaping r (raiseShaped r (preRaiseDecision r fReg t))

def execForecastPublication (r : RegionId) (s : State) : Host.Outcome State Fault Refusal := .next (publish r s)

/-! ### Tracking and trust -/

/-- e of R123 in units of 1/400, from the sum and number of forecasts, V_set, V_c, the period mean and ten times
E_FLOOR; none where the divisor is 0, for which no value of e is stated. -/
def errorOf (sum n vSet vc mean floor10 : Nat) : Option (Nat × Nat) :=
  let a := sum * vSet
  let b := mean * n * vc
  let den := n * vc * max (10 * mean) floor10
  if den = 0 then none else some (((a - b) + (b - a)) * 10, den)

/-- The bin of e, in steps of 2.5 %, and whether e exceeds TRUST_ERR in steps of 0.25 % (R125). -/
def errorBin (e : Option (Nat × Nat)) (free trustErr : Nat) : Nat × Bool :=
  match e with
  | some (num, den) => (min 15 (40 * num / den), decide (trustErr * den < 400 * num))
  | none => (min 15 (free / 10), decide (trustErr < free))

/-- A bin counts one more period. -/
def bump (l : List Nat) (k : Nat) : List Nat := l.set k (l.getD k 0 + 1)

/-- A force, an emergency cap or a regulator alert acts in a region as a period begins (R124). -/
def State.acting (s : State) (r : Nat) : Bool :=
  let g := s.region r
  s.tripForce r || s.safeForce r || g.caps.ecap || g.caps.alert || g.caps.holdRegion || !(s.wired r).isEmpty ||
    g.clusters.any 576 (fun u => u.limiters.any 32 (fun l => l.hold))

/-- SAGE_ERROR_TRACKING (R123, R124) at the boundary that ends a period; a force that acts on into the next period leaves
that one uncounted too. -/
def trackError (r : Nat) (s : State) : State :=
  let g := s.region r
  let x := g.sage
  let clear (x : Sage) : Sage := { x with sumPub := 0, sumLin := 0, nPub := 0, void := s.acting r }
  if x.void ∨ x.nPub = 0 ∨ g.dig.sumValid = false then
    s.modRegion r (fun g => (g.modSage clear))
  else
    let vSet := g.sp.vc + g.spec.s
    let fl := g.ph.rating
    let err (sum : Nat) := errorOf sum x.nPub vSet g.sp.vc g.dig.meanRaw fl
    let free := Config.freeValue s.fresh
    let lim := s.cfg (offSage r) 8 8
    let (bp, badP) := errorBin (err x.sumPub) free lim
    let (bl, badL) := errorBin (err x.sumLin) free lim
    let t := s.modRegion r (fun g => g.modSage (fun x => { clear x with
      binsPub := bump x.binsPub bp
      binsLin := bump x.binsLin bl
      counted := x.counted + 1
      badPub := x.badPub + bitNat badP
      badLin := x.badLin + bitNat badL }))
    if (err x.sumPub).isNone then t.nextFree else t

/-- VERDICT of a block (R125, R312): 0 void, 1 good, 2 bad. -/
def verdict (counted bad : Nat) : Nat := if counted < 512 then 0 else if bad ≤ counted / 20 then 1 else 2

/-- The body of a SAGE_BINS record (R312). -/
def binsBody (model verdict counted : Nat) (bins : List Nat) : List Byte :=
  leBytes 1 model ++ leBytes 1 verdict ++ leBytes 2 counted ++ bins.flatMap (leBytes 2)

/-- Trust at the end of a block of the learned model (R126). -/
def Region.trustBlock (blocks v : Nat) (g : Region) : Region :=
  match v with
  | 1 =>
    let n := g.trust.goodRun + 1
    { g with trust := { g.trust with goodRun := min n 15, voidRun := 0, trusted := g.trust.trusted || decide (blocks ≤ n) } }
  | 2 => g.untrust
  | _ => if 1 ≤ g.trust.voidRun then
        let h := g.untrust
        { h with trust := { h.trust with voidRun := 2 } }
      else { g with trust := { g.trust with voidRun := 1, goodRun := 0 } }

/-- TRACKING_BLOCK_END (R125, R126): after 1,024 control periods the bins of both models are sent and cleared. Only a block
in whose every period the learned model published is a block of it: DEDUCED, notes/assumptions/51.md. -/
def trackingBlockEnd (r : Nat) (s : State) : State :=
  let g := s.region r
  if g.trust.periods < 1024 then s
  else
    let x := g.sage
    let vp := verdict x.counted x.badPub
    let vl := verdict x.counted x.badLin
    let t := (s.telemetry 4 r (binsBody 0 vl x.counted x.binsLin)).telemetry 4 r (binsBody 1 vp x.counted x.binsPub)
    let learned := decide (x.model = .active ∧ s.cfg (offSage r) 0 2 = 1 ∧ g.trust.learned = g.trust.periods)
    t.modRegion r (fun g =>
      let g := g.modSage (fun x => { x with
        binsPub := List.replicate 16 0, binsLin := List.replicate 16 0, counted := 0, badPub := 0, badLin := 0 })
      let g := { g with trust := { g.trust with periods := 0, learned := 0 } }
      if learned then g.trustBlock (s.cfg (offSage r) 16 4) vp else g)

def execTrackingBlockEnd (r : RegionId) (s : State) : Host.Outcome State Fault Refusal :=
  .next (journaled (trackingBlockEnd r) s)

end Sys2Proof.Machine
end

