-- ==== Sys2Proof/Machine/Models.lean ====
section
/-!
DEFINITION. Model images and their loading (R115–R122), weight-memory errors (R114).
-/

namespace Sys2Proof.Machine

/-! ### The checks of R116 -/

/-- Cycles of a layer over `g` groups (R112). -/
def Layer.cycles (g : Nat) (l : Layer) : Nat := ceilDiv l.nIn 64 * ceilDiv (g * ceilDiv l.nOut 16) 4

/-- The layers with the number of groups each is evaluated over. -/
def groupedLayers (img : List Byte) : List (Nat × Layer) :=
  match layersOf img with
  | [] => []
  | l :: rest => (24, l) :: rest.map (fun k => (1, k))

/-- L of R112. -/
def latencyOf (img : List Byte) : Nat := 14 + ((groupedLayers img).map (fun p => p.2.cycles p.1 + 3)).sum

/-- A reserved field or bit of header or descriptors is not 0 (reason 0x04); an ACT above 1 is a reserved bit, and
so is anything in a descriptor beyond NUM_LAYERS, whatever NUM_LAYERS says (R116 names no reason for it): DESIGN CHOICE,
notes/assumptions/52.md. -/
def imageReserved (img : List Byte) : Bool :=
  decide (1 < byteAt img 7) || !zeroIn img 0x14 12 ||
    (List.range 4).any (fun k =>
      let o := 0x20 + 16 * k
      if k < byteAt img 6 then byteAt img (o + 7) != 0 || decide (1 < byteAt img (o + 6)) else !zeroIn img o 16)

/-- Each layer's input count matches the outputs before it, and its outputs are in range (R109). -/
def shapesFrom : Nat → List Layer → Bool
  | _, [] => true
  | n, l :: rest =>
    decide (l.nIn = n) && inRange 1 256 l.nOut && (!rest.isEmpty || l.nOut == 24) && shapesFrom l.nOut rest

/-- Layer count and shapes (R109, reason 0x05). -/
def shapeOk (img : List Byte) : Bool :=
  inRange 2 4 (byteAt img 6) &&
    (match layersOf img with
    | [] => false
    | l :: rest => decide (l.nIn = 192) && inRange 1 16 l.nOut && shapesFrom (24 * l.nOut) rest)

/-- Formats of a layer that follows activations of format `a` (R110). -/
def formatsFrom : Nat → List Layer → Bool
  | _, [] => true
  | a, l :: rest =>
    decide (l.wFmt ∈ [0, 1, 3, 4, 5, 6, 7, 8]) && (a != 2 || decide (l.wFmt ≤ 1)) &&
      (if rest.isEmpty then l.aFmt == 9 else decide (l.aFmt ∈ [1, 2, 5, 6, 7, 8])) && formatsFrom l.aFmt rest

/-- The byte ranges of a layer's weights and pairs (R115). -/
def layerRanges (img : List Byte) (p : Nat × Layer) : List (Nat × Nat) :=
  let l := p.2
  let mats := if p.1 = 24 ∧ sharedFirst img = false then 24 else 1
  [(l.wOfs, l.wOfs + mats * l.nOut * l.rowBytes), (l.pOfs, l.pOfs + 8 * p.1 * l.nOut)]

def overlap (x y : Nat × Nat) : Bool := decide (x.1 < y.2) && decide (y.1 < x.2)

/-- Offsets aligned, inside the image, clear of the header and of other layers' data (reason 0x07); the four descriptors
count with the header: DESIGN CHOICE, notes/assumptions/52.md. -/
def placesOk (img : List Byte) (len : Nat) : Bool :=
  let rs := (groupedLayers img).map (layerRanges img)
  (rs.flatten).all (fun x => x.1 % 64 == 0 && decide (96 ≤ x.1) && decide (x.2 ≤ len)) &&
    decide (rs.Pairwise (fun a b => a.all (fun x => b.all (fun y => !overlap x y)) = true))

/-- The first of the checks of layers and data that fails, reasons 0x05 to 0x08 (R116). -/
def layerReason (img : List Byte) (len : Nat) : Option Nat :=
  if shapeOk img = false then some 5
  else if formatsFrom 1 (layersOf img) = false then some 6
  else if placesOk img len = false then some 7
  else if 76 < latencyOf img then some 8
  else none

/-- The first of the header and descriptor checks that fails (R116). -/
def imageReason (img : List Byte) (len : Nat) : Option Nat :=
  if leAt img 0 4 ≠ 0x53474D31 ∨ leAt img 4 2 ≠ 1 then some 1
  else if leAt img 8 4 ≠ len ∨ len % 64 ≠ 0 ∨ 524288 < len then some 2
  else if imageReserved img then some 4
  else layerReason img len

/-- The governor's check of a received image (R116, R118 step 4): the CRC, then reasons 0x05 to 0x08; 0 is good. -/
def governorReason (img : List Byte) : Nat :=
  if crc32 (img.drop 0x10) ≠ leAt img 12 4 then 3 else (layerReason img img.length).getD 0

/-! ### Loading -/

def State.modLoads (s : State) (f : List ModelLoad → List ModelLoad) : State :=
  s.modHub (fun h => { h with loads := f h.loads })

/-- A model command's checks and start (R116–R119); one model command is in hand at a time. The lock is looked at before the
image (R117): DESIGN CHOICE, notes/assumptions/69.md. -/
def startLoad (t : Taken) (s : State) : State :=
  let mask : BitVec 64 := BitVec.ofNat 64 (leAt t.entry 8 8)
  let len := leAt t.entry 0x18 4
  let rs := onesOf 64 mask.toNat
  let go (img : List Byte) : State :=
    (s.begin t).modLoads (fun l => l ++ [⟨t.cmd, mask, img, [], [], none, [], false⟩])
  if rs = [] then s.complete t.cmd codeBadArg 9
  else if rs.any (fun r => s.cfgBit (offSage r) 31 && s.cfg (offSage r) 0 2 == 0) then s.complete t.cmd codeLocked 0
  else if len = 0 then go []
  else match imageReason t.body len with
  | some d => s.complete t.cmd codeBadArg d
  | none => go t.body

def loadFree (s : State) (wantLen : Bool) (t : Taken) : Bool :=
  s.hub.loads.isEmpty && (leAt t.entry 0x18 4 != 0) == wantLen

/-- MODEL_LOAD (R116–R118). -/
def execModelLoad (s : State) : Host.Outcome State Fault Refusal :=
  .next (journaled (runTaken opModelLoad (loadFree s true) startLoad) s)

/-- MODEL_UNLOAD (R119). -/
def execModelUnload (s : State) : Host.Outcome State Fault Refusal :=
  .next (journaled (runTaken opModelLoad (loadFree s false) startLoad) s)

/-- A region's model is given up: NONE, forecasting with the linear model. -/
def Region.dropModel (g : Region) : Region := (g.setModel .none).modSage (fun x => { x with weights := [], loadBuf := [], switchAt := none })

/-- Step 2 of a load, which opens Sage's gate and its parent (R453), or an unload, at a control-period boundary (R118,
R119); an activation already announced stands, and the step waits for it (R120). -/
def loadsAtBoundary (s : State) : State :=
  s.hub.loads.foldl (fun acc l =>
    let rs := onesOf 64 l.mask.toNat
    if l.started || rs.any (fun r => (s.region r).sage.switchAt.isSome) then acc
    else
      if l.image = [] then
        ((rs.foldl (fun a r => a.modRegion r Region.dropModel) acc).modLoads (fun ls => ls.erase l)).complete l.cmd codeOk 0
      else
        let t := rs.foldl (fun a r => ((a.modGov r (fun v => { v with gsClosed := false, grClosed := false })).modRegion r (fun g =>
          (g.setModel .loading).modSage (fun x => { x with weights := [], loadBuf := [], switchAt := none }))).hubAsk
            (.modelImage r l.image.length)) acc
        t.modLoads (fun ls => ls.map (fun x => if x.cmd = l.cmd then { x with started := true } else x))) s

/-- MODEL_IMAGE (R118 steps 3 and 4): the governor stores the bytes; with the last it checks and reports. -/
def takeImage (r offset : Nat) (bytes : List Byte) (last : Bool) (s : State) : State :=
  let t := s.modRegion r (fun g => g.modSage (fun x => { x with loadBuf := padTo offset x.loadBuf ++ bytes }))
  if last then t.send (.modelReport r (governorReason (t.region r).sage.loadBuf)) else t

/-- The report sent again for a repeated last message. -/
def repeatReport (r : Nat) (last : Bool) (s : State) : State :=
  if last then s.send (.modelReport r (governorReason (s.region r).sage.loadBuf)) else s

def execModelImage (r : RegionId) (hdr : MsgHdr) (offset : Nat) (bytes : List Byte) (last : Bool) (s : State) :
    Host.Outcome State Fault Refusal :=
  .next (govAccept r 0x20 hdr (takeImage r offset bytes last) (repeatReport r last) s)

/-- A load fails (R118): the completion carries the reason, and every named region is NONE. -/
def failLoad (l : ModelLoad) (reason : Nat) (s : State) : State :=
  let t := (onesOf 64 l.mask.toNat).foldl (fun a r => a.modRegion r Region.dropModel) s
  (t.modLoads (fun ls => ls.filter (fun x => x.cmd != l.cmd))).complete l.cmd codeBadArg reason

/-- A load in hand that waits for region `r`'s report. -/
def State.loadOf (s : State) (r : Nat) : Option ModelLoad :=
  s.hub.loads.find? (fun l => l.started && bitOf l.mask.toNat r)

def State.setLoad (s : State) (l : ModelLoad) : State :=
  s.modLoads (fun ls => ls.map (fun x => if x.cmd = l.cmd then l else x))

/-- A report at the hub (R118 steps 4 to 6). -/
def takeReport (r reason : Nat) (s : State) : State :=
  let s := s.answered (fun m => match m with | .modelImage k _ => k == r | _ => false)
  match s.loadOf r with
  | none => s
  | some l =>
    if r ∈ l.reports ∨ l.switchP.isSome then s
    else if reason = 0 then
      let l' := { l with reports := l.reports ++ [r] }
      let rs := onesOf 64 l.mask.toNat
      if rs.all (fun k => decide (k ∈ l'.reports)) then
        let p := s.period + 4
        rs.foldl (fun a k => a.hubAsk (.modelSwitch k p)) (s.setLoad { l' with switchP := some p })
      else s.setLoad l'
    else if reason = 3 ∧ r ∉ l.resent then
      (s.setLoad { l with resent := l.resent ++ [r] }).hubAsk (.modelImage r l.image.length)
    else failLoad l reason s

/-- MODEL_CHECK_REPORT (R118). -/
def execModelCheckReport (r : RegionId) (hdr : MsgHdr) (reason : Nat) (s : State) : Host.Outcome State Fault Refusal :=
  .next (journaled (hubAccept 0x21 hdr (takeReport r reason)) s)

/-- MODEL_SWITCH (R118 step 6): the governor notes the period; one that is past when it hears of it is let go by, since the
switch is at P or not at all. -/
def execModelSwitch (r : RegionId) (hdr : MsgHdr) (period : BitVec 48) (s : State) : Host.Outcome State Fault Refusal :=
  .next (govAccept r 0x22 hdr
    (fun s => if period.toNat ≤ s.now then s
      else s.modRegion r (fun g => g.modSage (fun x => { x with switchAt := some period }))) id s)

/-- A switch whose period P begins now is let go by in every named region unless each of them has heard of it, since either
all activate at P or none does (R118). -/
def voidSwitches (s : State) : State :=
  let heard (r : Nat) : Bool := decide ((s.region r).sage.switchAt.map BitVec.toNat = some s.now)
  s.hub.loads.foldl (fun (a : State) l =>
    let rs := onesOf 64 l.mask.toNat
    if rs.all heard then a
    else (rs.filter heard).foldl (fun (b : State) r => b.modRegion r (fun g => g.modSage (fun x => { x with switchAt := none }))) a) s

/-- MODEL_ACTIVATE (R118 step 7, R122) at the boundary of P; the governor acknowledges P. -/
def activateModel (r : Nat) (s : State) : State :=
  match (s.region r).sage.switchAt with
  | none => s
  | some p =>
    if p.toNat = s.now then
      (s.modRegion r (fun g =>
        let img := g.sage.loadBuf
        (g.setModel .active).modSage (fun x => { x with
          weights := img, loadBuf := [], modelId := BitVec.ofNat 32 (leAt img 0x10 4), latency := latencyOf img,
          invalid := 0, switchAt := none }))).send (.modelAck r)
    else s

/-- MODEL_SWITCH_ACKNOWLEDGEMENT (R118 step 8). -/
def takeSwitchAck (r : Nat) (s : State) : State :=
  let s := s.answered (fun m => match m with | .modelSwitch k _ => k == r | _ => false)
  match s.loadOf r with
  | none => s
  | some l =>
    if l.switchP.isNone ∨ r ∈ l.acks then s
    else
      let l' := { l with acks := l.acks ++ [r] }
      if (onesOf 64 l.mask.toNat).all (fun k => decide (k ∈ l'.acks)) then
        (s.modLoads (fun ls => ls.filter (fun x => x.cmd != l.cmd))).complete l.cmd codeOk 0
      else s.setLoad l'

def execModelSwitchAcknowledgement (r : RegionId) (hdr : MsgHdr) (s : State) : Host.Outcome State Fault Refusal :=
  .next (journaled (hubAccept 0x23 hdr (takeSwitchAck r)) s)

/-- SAGE_MODEL_FAILED (R114): an uncorrectable weight error acts from the next forecast boundary; only an ACTIVE model
becomes FAILED (R122). -/
def weightsLost (r : Nat) (s : State) : State :=
  (s.modRegion r (fun g => g.modSage (fun x => { x with failNext := true }))).raiseRoll r 2 6

/-- A load restarts from step 2 under a new owner (R120); what was announced stands. -/
def ModelLoad.restart (l : ModelLoad) : ModelLoad :=
  { l with reports := [], resent := [], switchP := none, acks := [], started := false }

end Sys2Proof.Machine
end

