-- ==== Sys2Proof/Machine/Thyme.lean ====
section
/-!
DEFINITION. Thyme: admission (R234–R241), reservation (R242–R244), commit and release words (R245, R246, R255),
delivery (R248–R252, R260), phases (R253, R254), revocation and settlement (R202, R227–R229, R257–R259, R262), the
grant table (R261).
-/

namespace Sys2Proof.Machine

/-! ### The table -/

def State.grant (s : State) (i : Nat) : Grant := s.hub.thyme.table.get i

/-- A grant's reservation in region `r`: q × n. -/
def Grant.resIn (g : Grant) (r : Nat) : Nat :=
  match g.spans.find? (fun p => p.1 == r) with
  | some p => p.2.1 * p.2.2.length
  | none => 0

def Grant.regions (g : Grant) : List Nat := g.spans.map (fun p => p.1)

/-- lo[r]: reservations in force and staged (R241, R261); one that a trip revokes counts no more from the instant the
latch sets (R202). -/
def State.lo (s : State) (r : Nat) : Nat :=
  s.hub.thyme.table.sum 65536 (fun g =>
    if g.state = .free ∨ g.regions.any (fun k => decide (k ∈ s.hub.thyme.tripsDue)) then 0 else g.resIn r)

/-- A grant handle (R261). -/
def handleOf (i : Nat) (g : Grant) : Nat := g.gen * 65536 + i

/-- The entry becomes FREE; its generation stays. -/
def Grant.freed (g : Grant) : Grant := { gen := g.gen }

/-- The generation after `n`; 0 is never issued (R261). -/
def nextGen (n : Nat) : Nat := if n = 65535 then 1 else n + 1

/-- I_TH_MIN (R206). -/
def State.iThMin (s : State) : Nat := s.cfg (offTherm 1) 16 12

/-- The lowest-numbered FREE entry. -/
def State.freeEntry (s : State) : Option Nat :=
  (List.range (s.hub.thyme.table.cells.length + 1)).find? (fun i => decide (i < 65536 ∧ (s.grant i).state = .free))

/-- The grants that are not FREE, oldest admission first. -/
def State.liveGrants (s : State) : List Nat :=
  let l := (s.hub.thyme.table.cells.filter (fun p => decide (p.1 < 65536 ∧ p.2.state ≠ .free)))
  (l.insertionSort (fun x y => x.2.order ≤ y.2.order)).map Prod.fst

/-- The scheduler core runs (R366, R522). -/
def State.thymeRuns (s : State) : Bool := decide ((s.ownerCore 2).state = .running)

/-- Thyme carries admission and definition rounds on: held for an activation it still ends those in hand (R372). -/
def State.thymeDecides (s : State) : Bool := s.thymeRuns || decide ((s.ownerCore 2).state = .held)

/-! ### Records -/

/-- A GRANT record (R259, R312). -/
def grantRecord (i kind code cause : Nat) (s : State) : State :=
  let g := s.grant i
  s.telemetry 0x10 0xFF (leBytes 4 (handleOf i g) ++ leBytes 4 g.tag ++ leBytes 1 kind ++ leBytes 1 code ++
    leBytes 1 cause ++ leBytes 1 (bitNat g.extended + 2 * bitNat (g.missed && kind == 0)) ++ leBytes 4 g.nClus ++
    leBytes 2 g.dUs)

/-- An index is taken out of every commit word of which no copy has gone, at the boundary of P − 2 the first (R245, R255): a
word once sent keeps its set. -/
def Thyme.withdraw (now i : Nat) (t : Thyme) : Thyme :=
  { t with words := t.words.map (fun w =>
      if now + 2 < w.1.toNat ∧ w.2.2 = false then (w.1, w.2.1.filter (fun k => k != i), w.2.2) else w) }

/-- A round ends without a grant: staging is released everywhere, the request is completed (R243, R262). -/
def abandonRound (i code detail : Nat) (s : State) : State :=
  let g := s.grant i
  let t := g.regions.foldl (fun a r => a.hubSend (.stagingRelease r i)) s
  let t := (t.modGrant i Grant.freed).modThyme (Thyme.withdraw s.now i)
  let t := if code = codePartial then t.modThyme (fun x => { x with partialC := x.partialC + 1 }) else t
  match g.cmd with
  | some c => t.complete c code detail
  | none => t

/-- The request of the grant has not had its accepting completion formed (R244). -/
def Grant.unanswered (g : Grant) : Bool := g.cmd.isSome

/-- A grant is revoked in every region it spans (R202, R228, R257–R259). -/
def revokeGrant (i cause : Nat) (s : State) : State :=
  let g := s.grant i
  let t := g.regions.foldl (fun a r => a.hubSend (.revoke r i)) (grantRecord i 3 codeRevoked cause s)
  let t := t.record 0x10 3 cause t.ownerNode (BitVec.ofNat 32 (handleOf i g))
  let t := (t.modGrant i Grant.freed).modThyme (fun x => { x.withdraw s.now i with revoke := x.revoke + 1 })
  g.relCmds.foldl (fun a c => a.complete c codeOk 0) t

/-- A trip, an emergency cap or a derate in region `r` before the accepting completion (R262); while the scheduler core
does not run this waits for READY (R366). -/
def abandonRounds (r detail : Nat) (s : State) : State :=
  if s.thymeDecides = false then s
  else (s.liveGrants.filter (fun i => (s.grant i).unanswered && decide (r ∈ (s.grant i).regions))).foldl
    (fun a i => abandonRound i codeEmerg detail a) s

/-- An emergency cap ends every round before its accepting completion (R262). -/
def abandonAll (s : State) : State :=
  if s.thymeDecides = false then s
  else (s.liveGrants.filter (fun i => (s.grant i).unanswered)).foldl (fun a i => abandonRound i codeEmerg 0x51 a) s

/-- A trip revokes every grant with a cluster of the region (R202); the reports follow when the scheduler core runs. -/
def revokeRegion (r : Nat) (s : State) : State :=
  if s.thymeRuns then
    (s.liveGrants.filter (fun i => decide (r ∈ (s.grant i).regions))).foldl (fun a i => revokeGrant i 3 a) s
  else s.modThyme (fun t => { t with tripsDue := if r ∈ t.tripsDue then t.tripsDue else t.tripsDue ++ [r] })

/-- The safe state is in force (R420). -/
def State.safeNow (s : State) : Bool :=
  s.hubA.coll.frozen || s.hubB.coll.frozen || (List.range 64).any (fun r => (s.gov r).safe)

/-- A request that the safe state turns away (R518): REJ_EMERG; no rule gives the detail. -/
def State.rejectSafe (s : State) (cmd : CmdRef) : State :=
  (s.complete cmd codeEmerg (Config.freeValue s.fresh % 256)).nextFree

/-- Entry into the safe state ends every grant, with no grant record (R58, R259). -/
def endAllGrants (s : State) : State :=
  s.liveGrants.foldl (fun a i =>
    let g := s.grant i
    let b := a.modGrant i Grant.freed
    let b := match g.cmd with | some c => b.rejectSafe c | none => b
    g.relCmds.foldl (fun x c => x.complete c codeOk 0) b) (s.modThyme (fun t => { t with words := [] }))

/-! ### Admission -/

/-- A grant body (R236). -/
structure Body where
  nPhase   : Nat
  flags    : Nat
  nRect    : Nat
  limit    : Nat
  gid      : Nat
  duration : Nat
  tag      : Nat
  ops      : List Nat
  rects    : List (Nat × Nat × Nat × Nat)
deriving DecidableEq, Repr

def bodyOf (b : List Byte) : Body :=
  { nPhase := byteAt b 0
    flags := byteAt b 1
    nRect := byteAt b 2
    limit := leAt b 4 2
    gid := leAt b 6 2
    duration := leAt b 8 4
    tag := leAt b 0xC 4
    ops := (List.range (min 8 (byteAt b 0))).map (fun p => bitsOf (leAt b 0x10 4) (4 * p) 4)
    rects := (List.range (byteAt b 2)).map (fun k =>
      let o := 0x20 + 8 * k
      (leAt b o 2, leAt b (o + 2) 2, leAt b (o + 4) 2, leAt b (o + 6) 2)) }

def Body.isGroup (x : Body) : Bool := bitOf x.flags 1

/-- A reserved bit or byte is not 0, or a field that must be 0 is not (R236). -/
def bodyReserved (b : List Byte) (x : Body) : Bool :=
  decide (3 < x.flags) || byteAt b 3 != 0 || !zeroIn b 0x14 12 || (x.isGroup && x.nRect != 0) ||
    (!x.isGroup && x.gid != 0) || decide (leAt b 0x10 4 / 2 ^ (4 * min 8 x.nPhase) ≠ 0)

/-- Clusters of a region inside the union of rectangles. -/
def rectClusters (rects : List (Nat × Nat × Nat × Nat)) (r : Nat) : List Nat :=
  (List.range 576).filter (fun c =>
    let row := 24 * (r / 8) + c / 24
    let col := 24 * (r % 8) + c % 24
    rects.any (fun q => decide (q.1 ≤ row) && decide (row ≤ q.2.2.1) && decide (q.2.1 ≤ col) && decide (col ≤ q.2.2.2)))

/-- A rectangle touches a region. -/
def rectTouches (r : Nat) (q : Nat × Nat × Nat × Nat) : Bool :=
  decide (q.1 ≤ 24 * (r / 8) + 23) && decide (24 * (r / 8) ≤ q.2.2.1) &&
    decide (q.2.1 ≤ 24 * (r % 8) + 23) && decide (24 * (r % 8) ≤ q.2.2.2)

/-- The cluster set by region: a union of rectangles. -/
def rectSpans (rects : List (Nat × Nat × Nat × Nat)) : List (Nat × List Nat) :=
  (List.range 64).filterMap (fun r =>
    if rects.any (rectTouches r) then
      match rectClusters rects r with
      | [] => none
      | l => some (r, l)
    else none)

/-- A defined group. -/
def State.group (s : State) (gid : Nat) : Option Group :=
  match s.hub.groups.defs.find? (fun p => p.1 == gid) with
  | some p => if p.2.defined then some p.2 else none
  | none => none

/-- The live members of a group in a region, from the governor's slot. -/
def State.membersIn (s : State) (gid r : Nat) : List Nat :=
  match (s.region r).slots.find? (fun x => x.gid == gid && !x.closing) with
  | some x => x.members.filter (fun c => !((s.region r).clusters.get c).ctl.spared)
  | none => []

/-- The cluster set by region: the members of a group. -/
def State.groupSpans (s : State) (gid : Nat) : List (Nat × List Nat) :=
  match s.group gid with
  | none => []
  | some g => g.regions.filterMap (fun r => match s.membersIn gid r with | [] => none | l => some (r, l))

/-- q[r] of R238. -/
def State.clusterRes (s : State) (r : Nat) (ops : List Nat) : Nat :=
  let k := s.coefs r
  (ops.map (fun n =>
    let a := s.cfg (offOp n) 16 16
    let a := if a = 0 then k.aMax else a
    ceilDiv ((k.kIdle + 32 * k.kVec + s.opCeil n * a) * 850) 187500000)).foldl max 0

/-- A cluster held by a grant in force or in admission. -/
def State.heldBy (s : State) (r : Nat) (l : List Nat) : Bool :=
  s.liveGrants.any (fun i => (s.grant i).spans.any (fun p => p.1 == r && p.2.2.any (fun c => decide (c ∈ l))))

/-- The clocks coast and timed grants are refused (R241, R445). -/
def State.refLost (s : State) : Bool := s.clk.refLost

/-- The checks of R241 up to REJ_BUDGET, in the order of its table; code and detail of the first that fails. -/
def admitCheck (s : State) (b : List Byte) (x : Body) (spans : List (Nat × List Nat)) : Option (Nat × Nat) :=
  let bad (d : Nat) : Option (Nat × Nat) := some (codeBadArg, d)
  let full := spans.map (fun p => (p.1, s.clusterRes p.1 x.ops * p.2.length))
  let sOf (r : Nat) : Nat := ((full.filter (fun p => p.1 == r)).map Prod.snd).sum
  if bodyReserved b x then bad 1
  else if (x.isGroup = false ∧ x.nRect = 0) ∨ ((s.group x.gid).isSome ∧ x.isGroup = true ∧ spans = []) then bad 2
  else if x.nPhase = 0 ∨ 8 < x.nPhase then bad 3
  else if x.ops.any (fun n => n == 0 || !s.cfgBit (offOp n) 7) then bad 4
  else if 16 < x.nRect ∨ x.rects.any (fun q =>
      decide (q.2.2.1 < q.1 ∨ q.2.2.2 < q.2.1 ∨ 191 < q.2.2.1 ∨ 191 < q.2.2.2 ∨ 191 < q.1 ∨ 191 < q.2.1)) then bad 5
  else if x.duration = 0 then bad 6
  else if 250 < x.limit then bad 7
  else if spans.any (fun p => p.2.any (fun c => ((s.region p.1).clusters.get c).ctl.spared)) then bad 8
  else if spans.any (fun p => s.heldBy p.1 p.2) then bad 9
  else if x.isGroup = true ∧ (s.group x.gid).isNone then bad 10
  else if s.refLost = true ∧ x.limit ≠ 0 then some (codeCoasting, 0x40)
  else if spans.any (fun p => (s.region p.1).therm.latch) then some (codeEmerg, 0x50)
  else if s.hub.ecap.active then some (codeEmerg, 0x51)
  else if spans.any (fun p => (s.region p.1).ph.unsettled) then some (codeEmerg, 0x52)
  else if s.cfgBit 0x7000 0 = false then some (codeBudget, 0x25)
  else if s.freeEntry.isNone then some (codeBudget, 0x24)
  else if full.any (fun p => decide ((s.region p.1).caps.lastAck < s.lo p.1 + p.2)) then some (codeBudget, 0x20)
  else if full.any (fun p => decide ((s.region p.1).ph.rating < s.lo p.1 + p.2 + s.iThMin)) then
    some (codeBudget, 0x21)
  else if s.hub.budget.iAvail < ((List.range 64).map (fun r => max s.iThMin (s.lo r + sOf r))).sum then
    some (codeBudget, 0x22)
  else if spans.any (fun p => p.2.any (fun c =>
      match ((s.region p.1).clusters.get c).ctl.hostCeil with
      | some h => decide (h < s.clusterRes p.1 x.ops)
      | none => false)) then some (codeBudget, 0x23)
  else none

/-- A request that Thyme takes (R241, R242): its checks, then a reserve message to each spanned governor. -/
def takeRequest (t : Taken) (s : State) : State :=
  let x := bodyOf t.body
  let spans := if x.isGroup then s.groupSpans x.gid else rectSpans x.rects
  match admitCheck s t.body x spans, s.freeEntry with
  | some (code, d), _ => s.complete t.cmd code d
  | none, none => s.complete t.cmd codeBudget 0x24
  | none, some i =>
    if s.safeNow then s.rejectSafe t.cmd else
    let full := spans.map (fun p => (p.1, s.clusterRes p.1 x.ops, p.2))
    let g : Grant := {
      state := .reserving
      gen := nextGen (s.grant i).gen
      cycle := bitOf x.flags 0
      phases := x.ops
      tag := x.tag
      gid := if x.isGroup then x.gid else 0
      limitUs := x.limit
      duration := x.duration
      durLeft := x.duration
      spans := full
      sSum := (full.map (fun p => p.2.1 * p.2.2.length)).sum
      nClus := (full.map (fun p => p.2.2.length)).sum
      order := s.hub.thyme.order
      cmd := some t.cmd
      timerOn := decide (x.limit ≠ 0) }
    let u := ((s.begin t).modGrant i (fun _ => g)).modThyme (fun h => { h with order := h.order + 1 })
    full.foldl (fun a p => a.hubSend
      (.reserve p.1 i p.2.1 (p.2.1 * p.2.2.length) p.2.2 g.phases g.cycle)) u

/-- GRANT_REQUEST (R241, R242): no more than 16 in admission or delivery, none while Thyme drains; a core that is stopped or
empty holds none back (R368). -/
def execGrantRequest (s : State) : Host.Outcome State Fault Refusal :=
  .next (journaled (fun s =>
    if s.coreAbsent opGrantRequest = false ∧ (16 ≤ s.hub.thyme.inflight ∨ s.hub.thyme.drain) then s
    else runTaken opGrantRequest (fun _ => true) takeRequest s) s)

/-! ### The governor's side -/

/-- The governor's own lo[r]: every reservation it holds. -/
def Region.resTotal (g : Region) : Nat := (g.resvs.map (fun v => v.total)).sum

/-- The lowest VCORE output the regulator can have at period `now`, on the die-local scale (R242): a fall counts at what
AVS_SLEW_DN leaves of it, a raise at Dill's reference until its test passes. -/
def Setpoint.vFrom (now dn : Nat) (p : Setpoint) : Nat :=
  let v := p.output now dn - p.vGrid
  match p.raising with
  | some _ => min v p.dillRef
  | none => v

/-- V_from of region `r` now (R242). -/
def State.vFrom (s : State) (r : Nat) : Nat := (s.region r).sp.vFrom s.now (s.slewDn r)

/-- The governor's re-check (R242 step 1). -/
def canStage (s : State) (r total : Nat) : Bool :=
  let g := s.region r
  decide (g.resTotal + total ≤ g.caps.iReg) && decide (g.resTotal + total ≤ g.ph.rating) &&
    !g.therm.latch && !g.caps.ecap && !g.ph.unsettled

/-- PHASE_STAGING (R242 step 2). -/
def stageGrant (m : ReserveMsg) (g : Region) : Region :=
  let cs := onesOf 576 m.clusters.toNat
  { g with
    resvs := g.resvs.filter (fun v => v.grant != m.index) ++ [⟨m.index, m.q, m.total, cs, false, none, false, m.phases, m.cycle⟩]
    clusters := g.clusters.modifyAll cs (fun _ u => { u with staged := some ⟨m.index, m.phases, m.cycle⟩ }) }

/-- RESERVE (R242). -/
def takeReserve (r : Nat) (m : ReserveMsg) (s : State) : State :=
  let v := s.vFrom r
  if canStage s r m.total then
    (s.modRegion r (stageGrant m)).send (.reserveReply r m.index true v)
  else s.send (.reserveReply r m.index false v)

/-- The reply again: what the governor holds for the index. -/
def repeatReserve (r : Nat) (m : ReserveMsg) (s : State) : State :=
  s.send (.reserveReply r m.index ((s.region r).resvs.any (fun v => v.grant == m.index)) (s.vFrom r))

def execReserve (r : RegionId) (hdr : MsgHdr) (m : ReserveMsg) (s : State) : Host.Outcome State Fault Refusal :=
  .next (govAccept r 0x01 hdr (takeReserve r m) (repeatReserve r m) s)

/-- A grant's clusters go back to OP0 and its reservation is dropped (R255). -/
def dropResv (i : Nat) (g : Region) : Region :=
  match g.resvs.find? (fun v => v.grant == i) with
  | none => g
  | some v =>
    { g with
      resvs := g.resvs.filter (fun x => x.grant != i)
      clusters := g.clusters.modifyAll v.clusters (fun _ u =>
        if v.inForce then
          Cluster.resend { u with phases := none, phaseIdx := 0, phCeil := 64, grpFloor := 0,
                                  ctl := { u.ctl with res := 0, raiseHeld := false } }
        else { u with staged := none }) }

/-- STAGING_RELEASE (R243): nothing in force changes. -/
def releaseStaging (r i : Nat) (s : State) : State :=
  s.modRegion r (fun g => if g.resvs.any (fun v => v.grant == i && !v.inForce) then dropResv i g else g)

def execStagingRelease (r : RegionId) (hdr : MsgHdr) (index : Nat) (s : State) : Host.Outcome State Fault Refusal :=
  .next (govAccept r 0x02 hdr (releaseStaging r index) id s)

/-- REVOCATION (R229): it acts at the next control-period boundary. -/
def markRevoked (r i : Nat) (s : State) : State :=
  s.modRegion r (fun g => { g with
    resvs := g.resvs.map (fun v => if v.grant = i then { v with leaving := true } else v) })

def execRevocation (r : RegionId) (hdr : MsgHdr) (index : Nat) (s : State) : Host.Outcome State Fault Refusal :=
  .next (govAccept r 0x03 hdr (markRevoked r index) id s)

/-- A commit or release word arrives (R245), from the root that the region's select follows (R383): a copy that passes its check is
kept for the boundary of its period, unless it carries an epoch older than the governor's, when it is discarded and counted
(R19); a copy that fails its check is counted for its period. -/
def treeWord (r : Nat) (release : Bool) (w : TreeWord) (s : State) : State :=
  let g := s.gov r
  if w.root ≠ g.root then s
  else if w.checkOk = false then s.modGov r (fun g => { g with badCopies := g.badCopies ++ [(w.period, release)] })
  else if w.epoch ≠ g.epoch ∧ epochHigher w.epoch g.epoch = false then s.staleMsg r
  else s.modGov r (fun g => { g with words := g.words ++ [(w, release)] })

/-- COMMIT_WORD (R245). -/
def execCommitWord (r : RegionId) (w : TreeWord) (s : State) : Host.Outcome State Fault Refusal :=
  .next (treeWord r false w s)

/-- RELEASE_WORD (R255). -/
def execReleaseWord (r : RegionId) (w : TreeWord) (s : State) : Host.Outcome State Fault Refusal :=
  .next (treeWord r true w s)

/-- Highest VOFS among operating points. -/
def State.topVofs (s : State) (ops : List Nat) : Int :=
  match ops.map s.opVofs with
  | [] => 0
  | x :: rest => rest.foldl max x

/-- V_op of R235: the highest VOFS among the operating points in force on the region's live clusters. -/
def State.vOpInForce (s : State) (r : Nat) : Int :=
  let g := s.region r
  let ops := (g.resvs.filter (fun v => v.inForce && v.clusters.any (fun c => !(g.clusters.get c).ctl.spared))).flatMap
    (fun v => v.phases)
  let bare := g.clusters.any 576 (fun u => !u.ctl.spared && u.phases.isNone)
  s.topVofs (if bare then 0 :: ops else ops)

/-- The committed setpoint of region `r` with V_op `v` (R174, R249). -/
def State.vcWith (s : State) (r : Nat) (v : Int) : Nat :=
  let p := (s.region r).sp
  committedMv (s.cfg (offMfv r) 0 16) p.trim p.m p.vLoad v

/-- COMMIT_APPLY of one index at region `r` (R246): reservations count, phase 0 is set; the raises of its clusters wait
when V_op rises, up to the V_target that Thyme used in D (R262). -/
def commitIndex (r i : Nat) (s : State) : State :=
  match (s.region r).resvs.find? (fun v => v.grant == i && !v.inForce) with
  | none => s
  | some v =>
    let top := s.topVofs v.phases
    let raise := decide ((s.region r).sp.vOp < top)
    let target := if raise then some (s.grant i).target else none
    let ceil := s.opCeil (v.phases.headD 0)
    let topCeil := (v.phases.map s.opCeil).foldl max 0
    s.modRegion r (fun g => { g with
      resvs := g.resvs.map (fun x => if x.grant = i then { x with inForce := true, awaiting := target } else x)
      clusters := g.clusters.modifyAll v.clusters (fun _ u =>
        if u.ctl.spared then { u with staged := none }
        else Cluster.resend { u with phases := some ⟨i, v.phases, v.cycle⟩, phaseIdx := 0, phCeil := ceil, grpFloor := topCeil, staged := none,
                                     ctl := { u.ctl with res := v.q, raiseHeld := raise } }) })

/-- The index set that a governor of epoch `e` applies from the copies for the period now reached: those that carry the
epoch then current count, and none applies where two of them name different sets (R245). -/
def agreedSet (now : Nat) (e : Word) (release : Bool) (ws : List (TreeWord × Bool)) : List Nat :=
  match ws.filter (fun w => w.1.period.toNat == now && w.1.epoch == e && w.2 == release) with
  | [] => []
  | w :: rest => if rest.all (fun x => x.1.indices == w.1.indices) then w.1.indices else []

/-- Release, revocation and commit at a region's boundary (R229, R246, R255); V_op rises with what is committed and falls
one boundary after what is removed (R179). -/
def grantsAtBoundary (r : Nat) (s : State) : State :=
  let before := s.vOpInForce r
  let ws := (s.gov r).words
  let e := (s.gov r).epoch
  let now := s.now
  let gone := agreedSet now e true ws
  let stale := (ws.filter (fun w => w.1.period.toNat == now && w.1.epoch != e)).length
  let leaving := ((s.region r).resvs.filter (fun v => v.leaving)).map (fun v => v.grant)
  let held := (s.region r).resvs.map (fun v => v.grant)
  let s1 := (gone ++ leaving).foldl (fun a i => a.modRegion r (dropResv i)) s
  let s2 := (gone.filter (fun i => decide (i ∈ held))).foldl (fun a i => a.send (.removed r i)) s1
  let s3 := (agreedSet now e false ws).foldl (fun a i => commitIndex r i a) s2
  let s4 := s3.modGov r (fun g => { g with
    words := g.words.filter (fun w => decide (now < w.1.period.toNat))
    staleCnt := satAdd 0xFFF g.staleCnt stale
    badCopies := g.badCopies.filter (fun p => decide (now < p.1.toNat)) })
  s4.modRegion r (fun g => g.modSp (fun p => { p with vOp := max before (s4.vOpInForce r) }))

/-- REF_TREE of R245: both copies of the commit word, or of the release word (R255), for the period now reached failed here while
another region received a good one. -/
def refTree (r : Nat) (s : State) : State :=
  let now := s.now
  let faulty (release : Bool) : Bool :=
    let bad := (s.gov r).badCopies.filter (fun p => p.1.toNat == now && p.2 == release)
    let good (k : Nat) : Bool := (s.gov k).words.any (fun w => w.1.period.toNat == now && w.2 == release)
    decide (2 ≤ bad.length) && !good r && (List.range 64).any good
  if faulty false || faulty true then s.holdRoll r 2 8 true else s

/-- The governor reports the commits among `due` that it applied without a raise (R246). -/
def reportCommits (r : Nat) (due : List Nat) (s : State) : State :=
  (due.filter (fun i =>
    (s.region r).resvs.any (fun v => v.grant == i && v.inForce && v.awaiting.isNone))).foldl
      (fun a i => a.send (.inForce r i)) s

/-- COMMIT_RAISE_RELEASE (R246, R262): once the lowest counting reading reaches the new V_c less 5 mV, V_c as it stands now
and no more than Thyme's V_target, the raised settings go out, a shaped cluster's first (R135), and IN_FORCE is
reported. -/
def releaseRaises (r : Nat) (s : State) : State :=
  let g := s.region r
  let ok (v : Resv) : Bool := match v.awaiting, g.lowestMv with
    | some x, some low => decide (min x g.sp.vc ≤ low + 5 ∧ g.badMonitors < 5 ∧ g.vmonWait = 0)
    | _, _ => false
  let ready := g.resvs.filter ok
  if ready = [] then s
  else
    let cs := ready.flatMap (fun v => v.clusters)
    let t := s.modRegion r (fun g => { g with
      resvs := g.resvs.map (fun v => if ok v then { v with awaiting := none } else v)
      clusters := g.clusters.modifyAll cs (fun _ u => { u with ctl := { u.ctl with raiseHeld := false } }) })
    ready.foldl (fun a v => a.send (.inForce r v.grant)) (sendSettings r (List.range 24) true (raiseShaped r t))

/-- VOLTAGE_MONITOR_READING (R67, R84, R175, R246). -/
def execVoltageMonitorReading (r : RegionId) (reads : List (Nat × Status)) (slewing : Bool) (s : State) :
    Host.Outcome State Fault Refusal :=
  .next (releaseRaises r (monitorReading r reads slewing s).1)

/-! ### Decision and commit at the hub -/

/-- The new committed setpoint of a spanned region once the grant is in force (R249). -/
def State.newVc (s : State) (r : Nat) (g : Grant) : Nat :=
  s.vcWith r (max (s.region r).sp.vOp (s.topVofs g.phases))

/-- V_target of R249: the highest new V_c of a spanned region. -/
def State.vTarget (s : State) (g : Grant) : Nat := (g.regions.map (fun r => s.newVc r g)).foldl max 0

/-- D of R249 in µs: V_target over each region's V_from at that region's slew rate, B doubled where a spanned region's path
is. -/
def State.promiseUs (s : State) (g : Grant) : Nat :=
  let b3 := if g.regions.any (fun r => decide (r ∈ s.pow.doubled)) then 900 else 450
  let rises := g.accepts.filterMap (fun p =>
    let d := s.vTarget g - p.2
    if d = 0 then none
    else
      let slew := s.cfg (offAct p.1 2) 0 8
      some (ceilDiv ((3305 + b3) * slew + 100 * d) (100 * slew)))
  rises.foldl max (ceilDiv (1054 + b3) 100)

/-- The first word of a kind with room, from period `n` + 3 on (R245). -/
def wordPeriod (t : Thyme) (n : BitVec 48) (release : Bool) : BitVec 48 :=
  let count (p : BitVec 48) : Nat := ((t.words.filter (fun w => w.1 == p && w.2.2 == release)).map (fun w => w.2.1.length)).sum
  match (List.range 8200).find? (fun k => decide (count (n + 3 + BitVec.ofNat 48 k) < 8)) with
  | some k => n + 3 + BitVec.ofNat 48 k
  | none => n + 3

/-- An index goes into the word for `p`. -/
def Thyme.putWord (p : BitVec 48) (i : Nat) (release : Bool) (t : Thyme) : Thyme :=
  { t with words :=
      if t.words.any (fun w => w.1 == p && w.2.2 == release) then
        t.words.map (fun w => if w.1 = p ∧ w.2.2 = release then (w.1, w.2.1 ++ [i], w.2.2) else w)
      else t.words ++ [(p, [i], release)] }

/-- The RESULT of an accepted request (R247, R310). -/
def acceptBytes (i : Nat) (g : Grant) (p : BitVec 48) : List Byte :=
  leBytes 4 (handleOf i g) ++ leBytes 2 g.dUs ++ zeros 2 ++ leBytes 4 p.toNat ++ leBytes 4 g.sSum

/-- A mirrored decision gets its commit word and its accepting completion (R244, R245, R247). -/
def settleDecision (i : Nat) (s : State) : State :=
  let g := s.grant i
  if g.state = .decided ∧ g.decidedN = none ∧ s.mayLeave g.decidedJ then
    let p := wordPeriod s.hub.thyme s.period false
    let t := (s.modGrant i (fun g => { g with decidedN := some s.period, commitP := p, cmd := none })).modThyme
      (Thyme.putWord p i false)
    match g.cmd with
    | some c => t.complete c codeOk 0 (acceptBytes i g p)
    | none => t
  else s

/-- A release whose journal entry is acknowledged gets its release word (R255, R390). -/
def settleRelease (i : Nat) (s : State) : State :=
  match (s.grant i).relJ with
  | some n =>
    if s.mayLeave n then
      (s.modGrant i (fun g => { g with relJ := none })).modThyme (Thyme.putWord (wordPeriod s.hub.thyme s.period true) i true)
    else s
  | none => s

/-- Every decision and release whose mirroring is known, in the order in which the decisions were mirrored (R245, R390). -/
def settleDecisions (s : State) : State :=
  let t := (s.liveGrants.insertionSort (fun i j => (s.grant i).decidedJ ≤ (s.grant j).decidedJ)).foldl (fun a i => settleDecision i a) s
  t.liveGrants.foldl (fun a i => settleRelease i a) t

/-- The round of grant `i` ends where its replies are in (R243, R244); not while the scheduler core does not run
(R366). -/
def decideRound (i : Nat) (s : State) : State :=
  let g := s.grant i
  if g.state ≠ .reserving ∨ s.thymeDecides = false then s
  else match g.ends with
  | some d => abandonRound i codePartial d s
  | none =>
    if g.regions.all (fun k => g.accepts.any (fun p => p.1 == k)) then
      let d := s.promiseUs g
      if g.limitUs ≠ 0 ∧ g.limitUs < d then abandonRound i codeTiming 0x30 s
      else settleDecision i (s.modGrant i (fun g => { g with
        state := .decided, dUs := if g.limitUs = 0 then 0 else d, target := s.vTarget g, decidedJ := s.nextJn }))
    else s

/-- RESERVE_REPLY (R243, R244). -/
def takeReserveReply (r i : Nat) (accept : Bool) (vFrom : Nat) (s : State) : State :=
  let g := s.grant i
  if g.state ≠ .reserving ∨ r ∉ g.regions then s
  else decideRound i (s.modGrant i (fun g =>
    if accept then { g with accepts := g.accepts.filter (fun p => p.1 != r) ++ [(r, vFrom)] }
    else { g with ends := some (g.ends.getD 0x60) }))

def execReserveReply (r : RegionId) (hdr : MsgHdr) (index : Nat) (accept : Bool) (vFrom : Nat) (s : State) :
    Host.Outcome State Fault Refusal :=
  .next (journaled (hubAccept 0x04 hdr (takeReserveReply r index accept vFrom)) s)

/-- REPLY_LIMIT_EXPIRY (R243): a reply did not come within the limit. -/
def execReplyLimitExpiry (index : Nat) (s : State) : Host.Outcome State Fault Refusal :=
  .next (journaled (fun s =>
    let g := s.grant index
    if s.inControl = false ∨ g.state ≠ .reserving ∨ g.regions.all (fun k => g.accepts.any (fun p => p.1 == k)) then s
    else decideRound index (s.modGrant index (fun g => { g with ends := some (g.ends.getD 0x61) }))) s)

/-- Words at a boundary of the owning hub (R245, R255): each word is sent at P − 2 and P − 1; at P the decided grants of
a commit word are in delivery. -/
def wordsAtBoundary (s : State) : State :=
  let now := s.now
  let send (a : State) (w : BitVec 48 × List Nat × Bool) : State :=
    if w.2.1 = [] ∨ (w.1.toNat ≠ now + 2 ∧ w.1.toNat ≠ now + 1) then a
    else a.emit (if w.2.2 then .releaseWord w.1 w.2.1 s.epoch else .commitWord w.1 w.2.1 s.epoch)
  let t := s.hub.thyme.words.foldl send s
  let due := (s.hub.thyme.words.filter (fun w => w.1.toNat == now && !w.2.2)).flatMap (fun w => w.2.1)
  let t := due.foldl (fun a i => a.modGrant i (fun g => if g.state = .decided then { g with state := .delivering } else g)) t
  t.modThyme (fun x => { x with words := x.words.filter (fun w => decide (now < w.1.toNat)) })

/-- IN_FORCE (R248): with the last report the grant is delivered. A report may come before the owner has seen P go by, where
no hub was in control at P (R251). -/
def takeInForce (r i : Nat) (s : State) : State :=
  let g := s.grant i
  if (g.state ≠ .delivering ∧ g.state ≠ .decided) ∨ r ∉ g.regions then s
  else
    let reps := if r ∈ g.reports then g.reports else g.reports ++ [r]
    if g.regions.all (fun k => decide (k ∈ reps)) then
      grantRecord i 0 codeOk 0 (s.modGrant i (fun g => { g with reports := reps, state := .inForce, timerOn := false }))
    else s.modGrant i (fun g => { g with reports := reps })

def execInForce (r : RegionId) (hdr : MsgHdr) (index : Nat) (s : State) : Host.Outcome State Fault Refusal :=
  .next (journaled (hubAccept 0x05 hdr (takeInForce r index)) s)

/-- DELIVERY_TIMER_EXPIRY (R260, R262). -/
def timerExpiry (i : Nat) (s : State) : State :=
  let g := s.grant i
  if g.timerOn = true ∧ g.suspended = [] ∧ (g.state = .decided ∨ g.state = .delivering) then
    let t := (s.modGrant i (fun g => { g with missed := true, timerOn := false })).modThyme (fun x => { x with miss := x.miss + 1 })
    let t := grantRecord i 4 codeMiss 0 t
    (t.record 0x11 3 0 t.ownerNode (BitVec.ofNat 32 (handleOf i g))).raise 202 0
  else s

def execDeliveryTimerExpiry (index : Fin 65536) (s : State) : Host.Outcome State Fault Refusal :=
  .next (journaled (timerExpiry index) s)

/-! ### Release and expiry -/

/-- A grant in delivery or in force is released (R255, R256): it goes into a release word once that is mirrored (R390). -/
def startRelease (i cause : Nat) (s : State) : State :=
  let t := s.modGrant i (fun g => { g with
    releasing := some [], relCause := cause, timerOn := false, relJ := if s.mayLeave s.nextJn then none else some s.nextJn })
  if s.mayLeave s.nextJn then t.modThyme (Thyme.putWord (wordPeriod s.hub.thyme s.period true) i true) else t

/-- A DECIDED grant can still be withdrawn: it stands in no word, or in one of which no copy has gone (R245, R255). -/
def Grant.withdrawable (now : Nat) (g : Grant) : Bool :=
  decide (g.state = .decided) && (g.decidedN.isNone || decide (now + 2 < g.commitP.toNat))

/-- GRANT_RELEASE (R255). A DECIDED grant whose commit word has begun to go out is released as one in delivery is; one whose
accepting completion is still to come gets it with the release: DESIGN CHOICE, notes/assumptions/22.md. -/
def releaseGrant (t : Taken) (s : State) : State :=
  let h := leAt t.entry 8 4
  let i := h % 65536
  let g := s.grant i
  if g.gen ≠ h / 65536 ∨ g.state = .free ∨ g.state = .reserving then
    s.complete t.cmd codeBadArg 0x0B
  else if g.withdrawable s.now then
    let u := g.regions.foldl (fun a r => a.hubSend (.stagingRelease r i)) (grantRecord i 1 codeOk 1 s)
    let u := (u.modGrant i Grant.freed).modThyme (Thyme.withdraw s.now i)
    let u := match g.cmd with
      | some c => u.complete c codeOk 0 (acceptBytes i g g.commitP)
      | none => u
    u.complete t.cmd codeOk 0
  else
    let u := (s.begin t).modGrant i (fun g => { g with relCmds := g.relCmds ++ [t.cmd] })
    if g.releasing.isSome then u else startRelease i 1 u

def execGrantRelease (s : State) : Host.Outcome State Fault Refusal :=
  .next (journaled (runTaken opGrantRelease (fun _ => true) releaseGrant) s)

/-- REMOVAL_REPORT (R255). -/
def takeRemoval (r i : Nat) (s : State) : State :=
  let g := s.grant i
  match g.releasing with
  | none => s
  | some l =>
    if g.state = .free ∨ r ∉ g.regions then s
    else
      let l' := if r ∈ l then l else l ++ [r]
      if g.regions.all (fun k => decide (k ∈ l')) then
        let t := (grantRecord i 1 codeOk g.relCause s).modGrant i Grant.freed
        g.relCmds.foldl (fun a c => a.complete c codeOk 0) t
      else s.modGrant i (fun g => { g with releasing := some l' })

def execRemovalReport (r : RegionId) (hdr : MsgHdr) (index : Nat) (s : State) : Host.Outcome State Fault Refusal :=
  .next (journaled (hubAccept 0x06 hdr (takeRemoval r index)) s)

/-- DURATION_EXPIRY (R256). -/
def execDurationExpiry (index : Fin 65536) (s : State) : Host.Outcome State Fault Refusal :=
  .next (journaled (fun s =>
    let g := s.grant index
    if s.inControl = true ∧ g.state = .inForce ∧ g.durLeft = 0 ∧ g.releasing = none then startRelease index 2 s else s) s)

/-! ### Settlement -/

/-- The scheduler core is READY (R202, R366): what waited for it is done. The settlements of R228 and R257 have their own
rows. -/
def thymeReady (s : State) : State :=
  if s.inControl = false ∨ s.thymeRuns = false then s
  else
    let t := s.hub.thyme.tripsDue.foldl (fun a r => revokeRegion r (abandonRounds r 0x50 a))
      (s.modThyme (fun t => { t with tripsDue := [] }))
    let t := if t.hub.thyme.ecapSettle && t.hub.ecap.active then abandonAll t else t
    let t := (List.range 64).foldl (fun a r => if (a.region r).ph.unsettled then abandonRounds r 0x52 a else a) t
    t.liveGrants.foldl (fun a i => decideRound i a) t

/-- Oldest-first re-admission in region `r` under a limit (R228): the grants that are not kept. -/
def notKept (s : State) (r limit : Nat) : List Nat :=
  ((s.liveGrants.filter (fun i => decide (r ∈ (s.grant i).regions))).foldl
    (fun (acc : Nat × List Nat) i =>
      let x := (s.grant i).resIn r
      if acc.1 + x ≤ limit then (acc.1 + x, acc.2) else (acc.1, acc.2 ++ [i])) (0, [])).2

/-- A region's settlement: the rest revoked, its timers resumed (R228, R257, R262). -/
def settleRegion (r limit cause : Nat) (s : State) : State :=
  let t := (notKept s r limit).foldl (fun a i => revokeGrant i cause a) s
  t.liveGrants.foldl (fun a i => a.modGrant i (fun g => { g with suspended := g.suspended.filter (fun k => k != r) })) t

/-- The limit of a region's settlement (R228, R257, R526): its derated rating ceiling, its preset cap while the emergency
cap is in force, the lower where both hold, less I_TH_MIN. -/
def State.settleLimit (s : State) (r : Nat) (derated ecap : Bool) : Nat :=
  let rating := (s.region r).ph.rating
  let preset := s.cfg (offPreset r) 0 12
  (if derated && ecap then min rating preset else if derated then rating else preset) - s.iThMin

/-- DERATE_SETTLEMENT (R228, R229, R520, R526): not while the scheduler core restarts; the cause is the supply's unless an
unsettled emergency cap reached the grants before. -/
def derateSettle (r : Nat) (s : State) : State :=
  if (s.region r).ph.unsettled = true ∧ s.inControl = true ∧ s.thymeRuns = true then
    let cause := if (s.region r).ph.ecapFirst && s.hub.thyme.ecapSettle then 5 else 4
    (settleRegion r (s.settleLimit r true s.hub.ecap.active) cause s).modRegion r (fun g =>
      { g with ph := { g.ph with unsettled := false, ecapFirst := false } })
  else s

def execDerateSettlement (r : RegionId) (s : State) : Host.Outcome State Fault Refusal :=
  .next (journaled (derateSettle r) s)

/-- EMERGENCY_CAP_SETTLEMENT (R257, R258); a derate not yet settled is settled with it, once (R520, R526). -/
def ecapSettle (s : State) : State :=
  if s.hub.thyme.ecapSettle = true ∧ s.inControl = true ∧ s.thymeRuns = true then
    ((List.range 64).foldl (fun a r =>
      if (s.region r).ph.unsettled then derateSettle r a else settleRegion r (s.settleLimit r false true) 5 a) s).modThyme
      (fun x => { x with ecapSettle := false })
  else s

def execEmergencyCapSettlement (s : State) : Host.Outcome State Fault Refusal := .next (journaled ecapSettle s)

/-- Timers of the grants of region `r` in delivery are suspended while its reservations are scaled (R262). -/
def suspendTimers (r : Nat) (s : State) : State :=
  s.liveGrants.foldl (fun a i => a.modGrant i (fun g =>
    if r ∈ g.regions ∧ r ∉ g.suspended then { g with suspended := g.suspended ++ [r] } else g)) s

/-! ### Phases, queries, a new owner -/

/-- PHASE_MARKER (R253, R254). -/
def phaseMark (ceil : Nat → Nat) (u : Cluster) : Cluster :=
  match u.phases with
  | none => { u with strayMarks := u.strayMarks + 1 }
  | some l =>
    if u.phaseIdx + 1 < l.ops.length then
      Cluster.resend { u with phaseIdx := u.phaseIdx + 1, phCeil := ceil (l.ops.getD (u.phaseIdx + 1) 0) }
    else if l.cycle then Cluster.resend { u with phaseIdx := 0, phCeil := ceil (l.ops.headD 0) }
    else { u with strayMarks := u.strayMarks + 1 }

def execPhaseMarker (c : ClusterId) (s : State) : Host.Outcome State Fault Refusal :=
  .next (s.modCluster c (phaseMark s.opCeil))

/-- GRANT_STATE_QUERY (R251); a governor whose IN_FORCE has gone to the owner before reports it to this one too. -/
def answerState (r i : Nat) (s : State) : State :=
  let t := s.send (.stateReply r i ((s.region r).resvs.any (fun v => v.grant == i && v.inForce)))
  if (s.region r).resvs.any (fun v => v.grant == i && v.inForce && v.awaiting.isNone) then t.send (.inForce r i) else t

def execGrantStateQuery (r : RegionId) (hdr : MsgHdr) (index : Nat) (s : State) : Host.Outcome State Fault Refusal :=
  .next (govAccept r 0x07 hdr (answerState r index) (answerState r index) s)

/-- GRANT_STATE_REPLY (R251): the new owner continues delivery, asking the spanned regions that have still to report, or
commits again with a new P. -/
def takeStateReply (r i : Nat) (applied : Bool) (s : State) : State :=
  let s := s.answered (fun m => match m with | .stateQuery k j => k == r && j == i | _ => false)
  let g := s.grant i
  if g.state ≠ .decided ∧ g.state ≠ .delivering then s
  else if applied then
    let t := s.modGrant i (fun g => { g with state := .delivering })
    if g.regions.head? = some r then
      (g.regions.filter (fun k => k != r && !decide (k ∈ g.reports))).foldl (fun a k => a.hubAsk (.stateQuery k i)) t
    else t
  else if g.regions.head? ≠ some r then s
  else if s.hub.thyme.words.any (fun w => !w.2.2 && decide (i ∈ w.2.1)) then s
  else
    let p := wordPeriod s.hub.thyme s.period false
    (s.modGrant i (fun g => { g with state := .decided, commitP := p, decidedN := some s.period })).modThyme
      (Thyme.putWord p i false)

def execGrantStateReply (r : RegionId) (hdr : MsgHdr) (index : Nat) (inForce : Bool) (s : State) :
    Host.Outcome State Fault Refusal :=
  .next (journaled (hubAccept 0x08 hdr (takeStateReply r index inForce)) s)

/-- A new owner takes up each grant (R251). -/
def adoptGrant (i : Nat) (s : State) : State :=
  let g := s.grant i
  match g.state with
  | .reserving => abandonRound i codePartial 0x62 s
  | .decided | .delivering =>
    let s := s.modGrant i (fun g => { g with extended := true, relJ := none })
    let s := if g.releasing.isSome then s.modThyme (Thyme.putWord (wordPeriod s.hub.thyme s.period true) i true) else s
    let s := if g.state = .decided ∧ g.decidedN = none then
        settleDecision i (s.modGrant i (fun g => { g with decidedJ := 0 })) else s
    s.hubAsk (.stateQuery (g.regions.headD 0) i)
  | .inForce =>
    if g.releasing.isSome then (s.modGrant i (fun g => { g with relJ := none })).modThyme
      (Thyme.putWord (wordPeriod s.hub.thyme s.period true) i true) else s
  | .free => s

def adoptGrants (s : State) : State :=
  s.liveGrants.foldl (fun a i => adoptGrant i a) (s.modThyme (fun t => { t with words := [] }))

/-- STATE of R310. -/
def grantStateCode : GrantState → Nat
  | .free => 0
  | .reserving => 1
  | .decided => 2
  | .delivering => 3
  | .inForce => 4

/-- RESULT of QUERY GRANT (R310). -/
def grantBytes (i : Nat) (g : Grant) : List Byte :=
  leBytes 4 (handleOf i g) ++ leBytes 1 (grantStateCode g.state) ++
    leBytes 1 (bitNat g.missed + 2 * bitNat g.extended + 4 * bitNat g.cycle) ++ leBytes 1 g.phases.length ++ zeros 1 ++
    leBytes 4 g.tag ++ leBytes 4 g.commitP.toNat ++ leBytes 2 g.dUs ++ zeros 2 ++ leBytes 4 g.sSum ++
    leBytes 8 (bitsFrom ((g.spans.filter (fun p => p.2.2 ≠ [])).map Prod.fst)) ++ leBytes 4 g.nClus ++
    leBytes 4 (if g.state = .inForce then g.durLeft else g.duration)

/-- The answer to a GRANT query at a boundary (R307). -/
def queryGrant (t : Taken) (s : State) : State :=
  let h := leAt t.entry 0x0C 4
  let g := s.grant (h % 65536)
  if g.state = .free ∨ g.gen ≠ h / 65536 then s.complete t.cmd codeBadArg 0x0B
  else s.complete t.cmd codeOk 0 (grantBytes (h % 65536) g)

/-- A query is taken up; the next control-period boundary answers it (R307). -/
def startQuery (t : Taken) (s : State) : State := s.begin t

/-- QUERY_GRANT (R307). -/
def execQueryGrant (s : State) : Host.Outcome State Fault Refusal :=
  .next (journaled (runTaken opQuery (fun t => byteAt t.entry 8 == 1) startQuery) s)

end Sys2Proof.Machine
end

