-- ==== Sys2Proof/Machine/Groups.lean ====
section
/-!
DEFINITION. Synchronous groups: definition and undefinition (R267–R271), step numbers and landing (R272, R273, R277),
the group's need and its arms (R274–R276), slack harvest (R281–R283), relays between wafers (R284, R285), R286.
-/

namespace Sys2Proof.Machine

/-! ### Parts -/

def State.home (s : State) (gid : Nat) : Home :=
  match s.homes.find? (fun p => p.1 == gid) with
  | some p => p.2
  | none => {}

def State.modHome (s : State) (gid : Nat) (f : Home → Home) : State :=
  { s with homes := s.homes.map (fun p => if p.1 = gid then (gid, f p.2) else p) }

def State.def? (s : State) (gid : Nat) : Option Group :=
  (s.hub.groups.defs.find? (fun p => p.1 == gid)).map Prod.snd

def State.modDef (s : State) (gid : Nat) (f : Group → Group) : State :=
  s.modGroups (fun g => { g with defs := g.defs.map (fun p => if p.1 = gid then (gid, f p.2) else p) })

/-- The slot of a group; one that is being freed is no longer it (R271). -/
def Region.slot (g : Region) (gid : Nat) : Option GSlot := g.slots.find? (fun x => x.gid == gid && !x.closing)

def Region.modSlot (g : Region) (gid : Nat) (f : GSlot → GSlot) : Region :=
  { g with slots := g.slots.map (fun x => if x.gid = gid ∧ x.closing = false then f x else x) }

/-- Step `x` has reached step `y` (R273). -/
def reached (x y : Word) : Bool := decide ((x - y).toNat < 0x80000000)

/-! ### Definition -/

/-- The members of a body in region `r` (R267). -/
def bodyMembers (b : List Byte) (r : Nat) : BitVec 576 := BitVec.ofNat 576 (leAt ((b.drop (0x40 + 72 * r)).take 72) 0 72)

/-- The member lists of a body by region; regions without members left out. -/
def bodySpans (b : List Byte) : List (Nat × List Nat) :=
  (List.range 64).filterMap (fun r => match onesOf 576 (bodyMembers b r).toNat with | [] => none | l => some (r, l))

/-- The home region of R269: the most members, the lowest-numbered on a tie. -/
def homeOf (counts : List (Nat × Nat)) : Nat :=
  let top := (counts.map Prod.snd).foldl max 0
  ((counts.find? (fun p => p.2 == top)).map Prod.fst).getD 0

/-- A cluster belongs to a group, defined or in definition (R268). -/
def State.grouped (s : State) (r c : Nat) : Bool :=
  s.hub.groups.defs.any (fun p => p.2.members.any (fun m => m.1 == r && decide (c ∈ m.2)))

/-- A grant that is not FREE names the group (R271). -/
def State.grantOn (s : State) (gid : Nat) : Bool := s.liveGrants.any (fun i => (s.grant i).gid == gid)

/-- The checks of R268, in the order of its table, for a definition with members. GROUP_KEY is no reserved field and is not
checked. -/
def defineCheck (s : State) (b : List Byte) (spans : List (Nat × List Nat)) : Option (Nat × Nat) :=
  let bad (d : Nat) : Option (Nat × Nat) := some (codeBadArg, d)
  let gid := leAt b 0 2
  let flags := byteAt b 2
  let multi := bitOf flags 1
  let n := leAt b 0xC 4
  let total := leAt b 0x10 4
  if 3 < flags ∨ zeroIn b 5 3 = false ∨ zeroIn b 0x14 44 = false then bad 0x10
  else if gid = 0 ∨ 1023 < gid then bad 0x11
  else if n ≠ (spans.map (fun p => p.2.length)).sum then bad 0x13
  else if (s.def? gid).isSome then bad 0x12
  else if byteAt b 3 = 0 then bad 0x16
  else if (multi = false ∧ byteAt b 4 ≠ 1) ∨ (multi = true ∧ inRange 2 16 (byteAt b 4) = false) then bad 0x17
  else if total < n ∨ 65536 < total ∨ (multi = false ∧ total ≠ n) then bad 0x1C
  else if spans.any (fun p => p.2.any (fun c => ((s.region p.1).clusters.get c).ctl.spared)) then bad 0x14
  else if spans.any (fun p => p.2.any (fun c => s.grouped p.1 c)) then bad 0x15
  else none

/-- GROUP_DEFINE with members (R268–R270): a slot request to each member region's governor. -/
def defineGroup (t : Taken) (s : State) : State :=
  let b := t.body
  let spans := bodySpans b
  match defineCheck s b spans with
  | some (code, d) => s.complete t.cmd code d
  | none =>
    let gid := leAt b 0 2
    let counts := spans.map (fun p => (p.1, p.2.length))
    let rs := spans.map Prod.fst
    let g : Group := {
      flags := byteAt b 2
      lead := byteAt b 3
      key := BitVec.ofNat 32 (leAt b 8 4)
      regions := rs
      counts := counts
      members := spans
      home := homeOf counts
      awaiting := rs
      cmd := some t.cmd }
    rs.foldl (fun a r => a.hubAsk (.slotRequest r gid))
      ((s.begin t).modGroups (fun x => { x with defs := x.defs ++ [(gid, g)] }))

/-- Members named by a body: COUNT in hand is a definition, 0 an undefinition (R271). -/
def bodyDefines (t : Taken) : Bool := leAt t.body 0xC 4 != 0

def execGroupDefine (s : State) : Host.Outcome State Fault Refusal :=
  .next (journaled (runTaken opGroupDefine bodyDefines defineGroup) s)

/-- GROUP_UNDEFINE (R271). -/
def undefineGroup (t : Taken) (s : State) : State :=
  let gid := leAt t.body 0 2
  if gid = 0 ∨ 1023 < gid then s.complete t.cmd codeBadArg 0x11
  else if (bodySpans t.body) ≠ [] then s.complete t.cmd codeBadArg 0x13
  else match s.group gid with
  | none => s.complete t.cmd codeBadArg 0x19
  | some g =>
    if s.grantOn gid then s.complete t.cmd codeBadArg 0x18
    else
      let u := g.regions.foldl (fun a r => a.hubSend (.slotRelease r gid)) s
      let u := u.modGroups (fun x => { x with defs := x.defs.filter (fun p => p.1 != gid) })
      let u := ((s.home gid).armRelays ++ (s.home gid).relays).foldl (fun a c => a.complete c codeOk 0) u
      ({ u with homes := u.homes.filter (fun p => p.1 != gid) }).complete t.cmd codeOk 0

def execGroupUndefine (s : State) : Host.Outcome State Fault Refusal :=
  .next (journaled (runTaken opGroupDefine (fun t => !bodyDefines t) undefineGroup) s)

/-- GROUP_SLOT_REQUEST (R270 step 2): a slot is taken, or the request is refused. -/
def takeSlotRequest (r gid : Nat) (members : BitVec 576) (s : State) : State :=
  let g := s.region r
  let cs := onesOf 576 members.toNat
  if 64 ≤ g.slots.length then s.send (.slotReply r gid false)
  else (s.modRegion r (fun g => { g with slots := g.slots ++ [{ gid := gid, members := cs }] })).send (.slotReply r gid true)

/-- The slot is written into every member Chive of a region (R270 step 4). -/
def Region.writeSlot (gid : Nat) (g : Region) : Region :=
  match g.slot gid with
  | none => g
  | some x => { g.modSlot gid (fun x => { x with written := true }) with
      clusters := g.clusters.modifyAll x.members (fun _ u => { u with ctl := { u.ctl with group := some gid } }) }

def repeatSlotReply (r gid : Nat) (s : State) : State := s.send (.slotReply r gid ((s.region r).slot gid).isSome)

def execGroupSlotRequest (r : RegionId) (hdr : MsgHdr) (gid : Fin 1024) (members : BitVec 576) (s : State) :
    Host.Outcome State Fault Refusal :=
  .next (govAccept r 0x10 hdr
    (fun s => if ((s.region r).slot gid).isSome then repeatSlotReply r gid s else takeSlotRequest r gid members s)
    (repeatSlotReply r gid) s)

/-- GROUP_SLOT_RELEASE (R271): freed at the next boundary. -/
def execGroupSlotRelease (r : RegionId) (hdr : MsgHdr) (gid : Fin 1024) (s : State) : Host.Outcome State Fault Refusal :=
  .next (govAccept r 0x17 hdr (fun s => s.modRegion r (fun g => g.modSlot gid (fun x => { x with closing := true }))) id s)

/-- A definition ends where its replies are in (R270): refused, its slots are released; accepted, they are written into the
members; not while the scheduler core does not run (R366). -/
def settleDefinition (gid : Nat) (s : State) : State :=
  match s.def? gid with
  | none => s
  | some g =>
    if g.defined ∨ s.thymeDecides = false then s
    else if g.refused then
      let u := g.regions.foldl (fun a k => a.hubSend (.slotRelease k gid)) s
      let u := u.modGroups (fun x => { x with defs := x.defs.filter (fun p => p.1 != gid) })
      match g.cmd with
      | some c => u.complete c codeBudget 0x26
      | none => u
    else if g.awaiting ≠ [] then s
    else
      let u := g.regions.foldl (fun a r => a.modRegion r (Region.writeSlot gid))
        (s.modDef gid (fun g => { g with defined := true, cmd := none }))
      let u := { u with homes := u.homes.filter (fun p => p.1 != gid) ++ [(gid, {})] }
      match g.cmd with
      | some c => u.complete c codeOk 0
      | none => u

/-- GROUP_SLOT_REPLY (R270). -/
def takeSlotReply (r gid : Nat) (accept : Bool) (s : State) : State :=
  let s := s.answered (fun m => match m with | .slotRequest k j => k == r && j == gid | _ => false)
  match s.def? gid with
  | none => s
  | some g =>
    if r ∉ g.awaiting then s
    else settleDefinition gid (s.modDef gid (fun g => { g with
      awaiting := g.awaiting.filter (fun k => k != r), refused := g.refused || !accept }))

/-- The scheduler core is READY: the definitions whose replies came meanwhile end (R286). -/
def groupsReady (s : State) : State :=
  if s.inControl = false then s else s.hub.groups.defs.foldl (fun a p => settleDefinition p.1 a) s

def execGroupSlotReply (r : RegionId) (hdr : MsgHdr) (gid : Fin 1024) (accept : Bool) (s : State) :
    Host.Outcome State Fault Refusal :=
  .next (journaled (hubAccept 0x11 hdr (takeSlotReply r gid accept)) s)

/-! ### Landing -/

/-- The armed code takes effect at the node (R277). -/
def Cluster.land (u : Cluster) : Cluster :=
  match u.armed with
  | some (code, _) => Cluster.resend { u with grpCode := code, armed := none }
  | none => u

/-- A LATE landing at a cluster (R277, R341). -/
def Cluster.landLate (u : Cluster) : Cluster := { u.land with lates := satAdd 0xFFFF u.lates 1 }

/-- A LATE landing: counted in its region and reported to the home (R277, R285). -/
def lateLanding (r gid : Nat) (s : State) : State :=
  ((s.modRegion r (fun g => { g with lateCnt := satAdd 0xFF g.lateCnt 1 })).send (.late r gid)).modHome gid
    (fun h => { h with late := true })

/-- STEP jumped backward, or forward by 2³¹ or more: modulo 2³² (R273) the two are one (R286). -/
def stepJump (old new : Word) : Bool := decide (0x80000000 ≤ (new - old).toNat)

/-- GROUP_CODE_LANDING (R277, R286) when STEP of cluster `c` changes. -/
def landAt (c : Nat) (old : Word) (s : State) : State :=
  let u := s.cluster c
  match u.armed, u.ctl.group with
  | some (_, sT), some gid =>
    if stepJump old u.tap.step then raiseShaped (regionOf c) (lateLanding (regionOf c) gid (s.modCluster c Cluster.landLate))
    else if reached u.tap.step sT then raiseShaped (regionOf c) (s.modCluster c Cluster.land) else s
  | _, _ => s

/-- After a jump of STEP the group's judgements begin again, and its next arm uses the new STEP (R286). -/
def stepAfresh (c : Nat) (step : Word) (s : State) : State :=
  match (s.cluster c).ctl.group with
  | none => s
  | some gid =>
    match (s.region (regionOf c)).slot gid with
    | none => s
    | some x =>
      if stepJump (s.cluster c).tap.step step = false ∨ x.topStep = step then s
      else (s.modRegion (regionOf c) (fun g => g.modSlot gid (fun x => { x with
          topStep := step, reps := [], lag := 0, lagT := 0, wMin := none, sent := false }))).modHome gid
        (fun h => { h with sumFrom := [], lagRun := 0, okRun := 0 })

/-- BARRIER_RELEASE (R272, R277, R281, R286, R454): STEP advances, the step's counts are closed and reported, an armed code
whose step is reached lands. -/
def barrier (c : Nat) (step : Word) (s : State) : State :=
  let s := stepAfresh c step s
  let u := s.cluster c
  let t := s.modCluster c (fun u => { u with tap := { u.tap with
    step := step, arrived := false, ticks := 0, waits := 0, held := 0, suspTicks := 0,
    clearDue := u.tap.clearDue || u.tap.suspect } })
  let t := if u.ctl.group.isSome ∧ u.core.state = .running ∧ u.gcClosed = false then
      t.send (.stepReport c step u.tap.ticks u.tap.waits u.tap.held) else t
  landAt c u.tap.step t

def execBarrierRelease (c : ClusterId) (step : Word) (s : State) : Host.Outcome State Fault Refusal :=
  .next (barrier c step s)

/-! ### Arms -/

/-- ARM (R276, R277): each live member Chive holds the armed code and its S_t; one whose STEP has reached S_t applies it
at once as LATE, and a shaped cluster's setting that this raises goes out at once (R135). -/
def takeArm (r gid code : Nat) (sT : Word) (s : State) : State :=
  match (s.region r).slot gid with
  | none => s
  | some x =>
    let t := x.members.foldl (fun a c =>
      let g := 576 * r + c
      if (a.cluster g).ctl.spared then a
      else
        let b := a.modCluster g (fun u => { u with armed := some (code, sT) })
        if reached (a.cluster g).tap.step sT then lateLanding r gid (b.modCluster g Cluster.landLate) else b) s
    (raiseShaped r t).send (.armAck r gid)

def execArm (r : RegionId) (hdr : MsgHdr) (gid : Fin 1024) (code : Fin 65) (sT : Word) (s : State) :
    Host.Outcome State Fault Refusal :=
  .next (peerAccept r 0x12 hdr (takeArm r gid code sT) (fun s => s.send (.armAck r gid)) s)

/-- ARM_ACKNOWLEDGEMENT at the home governor (R329), from member region `r`. -/
def execArmAcknowledgement (r : RegionId) (hdr : MsgHdr) (gid : Fin 1024) (s : State) : Host.Outcome State Fault Refusal :=
  .next (match s.group gid with
    | none => s
    | some g => peerAccept g.home 0x13 hdr (fun s =>
        (s.answered (fun m => match m with | .arm k j _ _ => k == r.val && j == gid.val | _ => false)).modHome gid
          (fun h => { h with ackWait := h.ackWait.filter (fun k => k != r.val) })) id s)

/-- M_R_CHANGE at the home governor (R274), from region `r`. -/
def execMRChange (r : RegionId) (hdr : MsgHdr) (gid : Fin 1024) (m : Fin 65) (s : State) :
    Host.Outcome State Fault Refusal :=
  .next (match s.group gid with
    | none => s
    | some g => peerAccept g.home 0x14 hdr (fun s =>
        s.modHome gid (fun h => { h with mRs := h.mRs.filter (fun p => p.1 != r.val) ++ [(r.val, m.val)] })) id s)

/-- The least m_r over the group's regions. -/
def Home.leastMR (g : Group) (h : Home) : Nat :=
  (g.regions.map (fun r => ((h.mRs.find? (fun p => p.1 == r)).map Prod.snd).getD 64)).foldl min 64

/-- G_need of R275. -/
def Home.need (g : Group) (h : Home) : Nat := min (h.leastMR g) (min h.h h.rRemote)

/-- The home arms a code for step `sT` (R276); the hub posts the record of R284 for a MULTI group when the group's own
m_r or H sets the code. -/
def armGroup (gid code : Nat) (sT : Word) (s : State) : State :=
  match s.group gid with
  | none => s
  | some g =>
    let h := s.home gid
    let own := min (h.leastMR g) h.h
    let t := g.regions.foldl (fun a r =>
      a.ask (.arm r gid code sT)) s
    let t := t.modHome gid (fun h => { h with
      armed := some (code, sT), ackWait := g.regions, late := false, raiseRun := 0, raiseNow := false, relayDue := none,
      armRelays := h.relays, relays := [] })
    let t := if h.h < 64 ∧ code = h.h ∧ code < h.g then t.modGroups (fun x => { x with harvests := x.harvests + 1 }) else t
    if bitOf g.flags 1 ∧ code = own then
      t.telemetry 0x12 0xFF (leBytes 4 g.key.toNat ++ leBytes 1 own ++ zeros 3 ++ leBytes 4 sT.toNat)
    else t

/-- S_t of an arm that the group's own need brings (R276). Before a member of the home region has reported a step, S_home is 0:
DESIGN CHOICE, notes/assumptions/67.md. -/
def State.landing (s : State) (g : Group) (gid : Nat) : Word :=
  (((s.region g.home).slot gid).map (fun x => x.topStep)).getD 0 + BitVec.ofNat 32 g.lead

/-- A region of the group is in the safe state: no arm is sent, harvest stops (R286). -/
def State.groupSafe (s : State) (g : Group) : Bool := g.regions.any (fun r => (s.gov r).safe)

/-- The governors that do not respond (R49, R286); one that holds a cap's acknowledgement back until a landing (R278) does. -/
def State.unresponsive (s : State) : List Nat := s.hub.budget.silent.filter (fun r => !(s.region r).caps.ackOwed)

/-- Arms stop (R286): a region of the group is in the safe state, or its home governor does not respond. -/
def State.armsStop (s : State) (g : Group) : Bool := s.groupSafe g || decide (g.home ∈ s.unresponsive)

/-- RAISE_HOLD_ELAPSED (R275); a relayed code waits for its own arm (R284). -/
def raiseHold (gid : Nat) (s : State) : State :=
  match s.group gid with
  | none => s
  | some g =>
    let h := s.home gid
    if h.armed = none ∧ h.g < h.need g ∧ s.cfg 0x8000 24 7 ≤ h.raiseRun ∧ h.relayDue = none ∧ s.armsStop g = false then
      armGroup gid (h.need g) (s.landing g gid) s
    else s

def execRaiseHoldElapsed (gid : Fin 1024) (s : State) : Host.Outcome State Fault Refusal :=
  .next (journaled (raiseHold gid) s)

/-! ### Harvest -/

/-- The judgement of one report in a slot (R281); a newer step opens a new judgement. -/
def GSlot.judge (lagShare c : Nat) (rep : StepRep) (x : GSlot) : GSlot :=
  let x := if x.reps = [] ∨ (reached rep.step x.topStep ∧ rep.step ≠ x.topStep) then
      { x with topStep := rep.step, reps := [], lag := 0, lagT := 0, wMin := none, sent := false } else x
  if rep.step ≠ x.topStep ∨ c ∈ x.reps then x
  else if rep.w ≤ 1 ∧ rep.t * lagShare ≤ 64 * rep.k then
    { x with reps := x.reps ++ [c], lag := x.lag + 1, lagT := max x.lagT rep.t }
  else { x with reps := x.reps ++ [c], wMin := some (match x.wMin with | some w => min w rep.w | none => rep.w) }

/-- A member reports its steps: it is live, its control core runs, its gate is open (R281, R286, R454). -/
def Cluster.reports (u : Cluster) : Bool := !u.ctl.spared && decide (u.core.state = .running) && !u.gcClosed

/-- Every member that reports has reported the step. -/
def Region.stepComplete (g : Region) (x : GSlot) : Bool :=
  x.members.all (fun c => !(g.clusters.get c).reports || decide (c ∈ x.reps))

/-- The regions of a group with a member that reports: a step's summaries are in once theirs are (R282, R283, R286). -/
def State.reporting (s : State) (g : Group) (gid : Nat) : List Nat :=
  g.regions.filter (fun r => match (s.region r).slot gid with
    | some x => x.members.any (fun c => ((s.region r).clusters.get c).reports)
    | none => false)

/-- Governors of the group send what R281 asks: for a step in which any member is a laggard, or while a harvest is in
force, once their own members have all reported it. -/
def sendSummaries (gid : Nat) (step : Word) (s : State) : State :=
  match s.group gid with
  | none => s
  | some g =>
    let slots := g.regions.filterMap (fun r => ((s.region r).slot gid).map (fun x => (r, x)))
    let due := decide ((s.home gid).h < 64) || slots.any (fun p => p.2.topStep == step && decide (0 < p.2.lag))
    if due = false then s
    else slots.foldl (fun a p =>
      if p.2.topStep = step ∧ p.2.sent = false ∧ (a.region p.1).stepComplete p.2 then
        (a.modRegion p.1 (fun g => g.modSlot gid (fun x => { x with sent := true }))).send
          (.lagSummary p.1 gid p.2.lag p.2.wMin)
      else a) s

/-- STEP_REPORT (R281). -/
def takeStepReport (c : Nat) (rep : StepRep) (s : State) : State :=
  let r := regionOf c
  match (s.cluster c).ctl.group with
  | none => s
  | some gid =>
    sendSummaries gid rep.step (s.modRegion r (fun g => g.modSlot gid (GSlot.judge (s.cfg 0x8000 0 6) (localOf c) rep)))

def execStepReport (c : ClusterId) (hdr : MsgHdr) (rep : StepRep) (s : State) : Host.Outcome State Fault Refusal :=
  .next (peerAccept (regionOf c) 0x15 hdr (takeStepReport c rep) id s)

/-- A summary at the home (R281–R283): consecutive steps with laggards, consecutive steps without, these once every region of
`all` has reported. -/
def Home.summary (harvestSteps restoreSteps : Nat) (all : List Nat) (r : Nat) (sum : LagSum) (h : Home) : Home :=
  let fresh := h.sumFrom = [] ∨ sum.step ≠ h.sumStep
  if fresh ∧ h.sumFrom ≠ [] ∧ reached h.sumStep sum.step then h
  else
    let next := decide (h.sumFrom ≠ [] ∧ sum.step = h.sumStep + 1)
    let h := if fresh then { h with
        sumStep := sum.step, sumLag := 0, sumT := 0, sumW := none, sumFrom := []
        lagRun := if next then h.lagRun else 0
        okRun := if next then h.okRun else 0 } else h
    if r ∈ h.sumFrom then h
    else
      let first := decide (h.sumLag = 0 ∧ 0 < sum.lag)
      let h := { h with
        sumFrom := h.sumFrom ++ [r]
        sumLag := h.sumLag + sum.lag
        sumT := if 0 < sum.lag then max h.sumT sum.t else h.sumT
        sumW := match h.sumW, sum.wMin with
          | some x, some y => some (min x y)
          | some x, none => some x
          | none, y => y }
      if first then { h with lagRun := h.lagRun + 1, okRun := 0, harvest := decide (harvestSteps ≤ h.lagRun + 1) }
      else if h.sumLag = 0 ∧ all.all (fun k => decide (k ∈ h.sumFrom)) then
        let n := h.okRun + 1
        if restoreSteps ≤ n then { h with lagRun := 0, okRun := 0, h := 64, raiseNow := decide (h.h < 64), harvest := false }
        else { h with lagRun := 0, okRun := n }
      else { h with harvest := h.harvest || decide (0 < h.sumLag ∧ harvestSteps ≤ h.lagRun) }

/-- LAGGARD_SUMMARY at the home governor (R281–R283), from region `r`. -/
def execLaggardSummary (r : RegionId) (hdr : MsgHdr) (gid : Fin 1024) (sum : LagSum) (s : State) :
    Host.Outcome State Fault Refusal :=
  .next (match s.group gid with
    | none => s
    | some g => peerAccept g.home 0x16 hdr (fun s =>
        s.modHome gid (Home.summary (s.cfg 0x8000 8 4) (s.cfg 0x8000 12 4) (s.reporting g gid) r sum)) id s)

/-- HARVEST (R282): from the last of the reports, at the boundary that finds it due. -/
def Home.setHarvest (lagShare floor : Nat) (h : Home) : Home :=
  match h.sumW with
  | some w =>
    let x := max floor (ceilDiv (h.g * (h.sumT - w)) h.sumT)
    if 0 < h.sumT ∧ h.sumT * lagShare ≤ 64 * w ∧ x < h.h then { h with h := x, harvest := false }
    else { h with harvest := false }
  | none => { h with harvest := false }

/-! ### The boundary -/

/-- Every live member of the group has landed the waiting arm (R275, R277). -/
def State.allLanded (s : State) (g : Group) (gid : Nat) : Bool :=
  g.regions.all (fun r => match (s.region r).slot gid with
    | none => true
    | some x => x.members.all (fun c =>
        let u := (s.region r).clusters.get c
        u.ctl.spared || u.armed.isNone))

/-- A landed arm: its code is the group code in force, and the relays that it carried complete (R275, R285). -/
def settleArm (gid : Nat) (g : Group) (s : State) : State :=
  let h := s.home gid
  match h.armed with
  | none => s
  | some (code, _) =>
    if h.ackWait ≠ [] ∨ s.allLanded g gid = false then s
    else
      let t := (s.modHome gid (fun h => { h with g := code, armed := none, armRelays := [] })).modGroups
        (fun x => { x with landed := x.landed + 1 })
      h.armRelays.foldl (fun a c => a.complete c codeOk (bitNat h.late)) t

/-- The summaries of the last of the laggard steps are in from every region that reports (R282). -/
def Home.allReported (regions : List Nat) (h : Home) : Bool := regions.all (fun r => decide (r ∈ h.sumFrom))

/-- GROUP_NEED, HARVEST and HARVEST_RESTORE at a boundary (R275, R282, R283, R284). -/
def groupNeed (gid : Nat) (s : State) : State :=
  match s.group gid with
  | none => s
  | some g =>
    let s := settleArm gid g s
    if s.armsStop g then s
    else
      let s := if (s.home gid).harvest ∧ (s.home gid).allReported (s.reporting g gid) ∧ bitOf g.flags 0 then
          s.modHome gid (Home.setHarvest (s.cfg 0x8000 0 6) (s.cfg 0x8000 16 7)) else s
      let h := s.home gid
      let n := h.need g
      let s := s.modHome gid (fun h => { h with
        raiseRun := if h.g < n then h.raiseRun + 1 else 0, raiseNow := h.raiseNow && decide (h.g < n ∨ h.armed.isSome) })
      if h.armed.isSome then s
      else match h.relayDue with
      | some sT =>
        if n = h.g then
          h.relays.foldl (fun a c => a.complete c codeOk 0) (s.modHome gid (fun h => { h with relays := [], relayDue := none }))
        else armGroup gid n sT s
      | none => if n < h.g ∨ (h.g < n ∧ h.raiseNow) then armGroup gid n (s.landing g gid) s else s

/-- Slots at a region's boundary: released slots are freed and their members' codes go to 64 (R271); spared-out members
leave, and a slot without members is freed (R286). -/
def slotsAtBoundary (g : Region) : Region :=
  let gone := (g.slots.filter (fun x => x.closing && x.written)).flatMap (fun x => x.members)
  let left (c : Nat) : Option Nat :=
    (g.slots.find? (fun x => !x.closing && x.written && decide (c ∈ x.members))).map (fun x => x.gid)
  let m := g.clusters.modifyAll gone (fun c u =>
    Cluster.resend { u with grpCode := 64, armed := none, ctl := { u.ctl with group := left c } })
  { g with
    clusters := m
    slots := (g.slots.filter (fun x => !x.closing)).filterMap (fun x =>
      match x.members.filter (fun c => !(m.get c).ctl.spared) with
      | [] => none
      | l => some { x with members := l }) }

/-- Regions without a member leave a group; the home follows R269 when its own has left. -/
def trimGroups (s : State) : State :=
  s.modGroups (fun x => { x with defs := x.defs.map (fun p =>
    if p.2.defined = false then p
    else
      let rs := p.2.regions.filter (fun r => ((s.region r).slot p.1).isSome)
      let counts := rs.map (fun r => (r, (((s.region r).slot p.1).map (fun x => x.members.length)).getD 0))
      (p.1, { p.2 with regions := rs, counts := counts, home := if p.2.home ∈ rs then p.2.home else homeOf counts })) })

/-- The region's m_r of each group, sent to the home when it changes (R274), once the group stands (R270 step 4). -/
def sendMR (r : Nat) (s : State) : State :=
  let g := s.region r
  let least (x : GSlot) : Nat := x.least g.clusters
  let t := s.modRegion r (fun g => { g with slots := g.slots.map (fun x =>
    { x with mR := least x, sentMR := if x.written then least x else x.sentMR }) })
  (g.slots.filter (fun x => x.sentMR != least x && x.written && !x.closing)).foldl (fun a x => a.send (.mR r x.gid (least x))) t

/-! ### Relays, queries, moves -/

/-- CAP_SET_GROUP_FORM (R284, R285, R303). Of two groups with one GROUP_KEY the one defined first is meant: DESIGN CHOICE,
notes/assumptions/68.md. -/
def relayGroup (t : Taken) (s : State) : State :=
  let key : Word := BitVec.ofNat 32 (leAt t.entry 8 4)
  let code := byteAt t.entry 0x0C
  let sT : Word := BitVec.ofNat 32 (leAt t.entry 0x10 4)
  match s.hub.groups.defs.find? (fun p => p.2.defined && bitOf p.2.flags 1 && p.2.key == key) with
  | none => s.complete t.cmd codeBadArg 0x1A
  | some (gid, _) =>
    if code = 0 ∨ 64 < code then s.complete t.cmd codeBadArg 0x1B
    else
      let stale := match (s.home gid).relayS with
        | some x => !reached sT x
        | none => false
      if stale then s.complete t.cmd codeOk 0
      else (s.begin t).modHome gid (fun h => { h with
        rRemote := code, relayS := some sT, relayDue := some sT, relays := h.relays ++ [t.cmd] })

def execCapSetGroupForm (s : State) : Host.Outcome State Fault Refusal :=
  .next (journaled (runTaken opCapSet (fun t => entryGroupForm t.entry) relayGroup) s)

/-- The hub moves a group's home to the next region by R269 (R286). -/
def moveHome (gone : List Nat) (s : State) : State :=
  s.modGroups (fun x => { x with defs := x.defs.map (fun p =>
    let left := p.2.counts.filter (fun c => decide (c.1 ∉ gone))
    if p.2.home ∈ gone ∧ left ≠ [] then (p.1, { p.2 with home := homeOf left }) else p) })

/-- RESULT of QUERY GROUP (R310). -/
def groupBytes (s : State) (gid : Nat) (g : Group) : List Byte :=
  let h := s.home gid
  let n := (g.regions.map (fun r => (s.membersIn gid r).length)).sum
  leBytes 2 gid ++ leBytes 1 h.g ++ leBytes 1 h.h ++ leBytes 1 h.rRemote ++ leBytes 1 g.home ++ leBytes 1 g.lead ++
    leBytes 1 g.flags ++ leBytes 4 n ++ leBytes 1 ((h.armed.map Prod.fst).getD 0xFF) ++ zeros 3 ++
    leBytes 4 ((h.armed.map (fun p => p.2.toNat)).getD 0) ++ leBytes 4 g.key.toNat

/-- The answer to a GROUP query at a boundary (R307). -/
def queryGroup (t : Taken) (s : State) : State :=
  let gid := leAt t.entry 0x0C 4
  match s.group gid with
  | none => s.complete t.cmd codeBadArg 0x19
  | some g => s.complete t.cmd codeOk 0 (groupBytes s gid g)

/-- QUERY_GROUP (R307). -/
def execQueryGroup (s : State) : Host.Outcome State Fault Refusal :=
  .next (journaled (runTaken opQuery (fun t => byteAt t.entry 8 == 2) startQuery) s)

/-- STATE of SPEC_STAT (R149): blocked by a condition other than demotion is SUSPENDED. -/
def State.specCode (s : State) (r : Nat) : Nat :=
  match (s.region r).spec.state with
  | .standing => 1
  | .demoted => 2
  | .idle => if s.specHeld r then 3 else 0

/-- RESULT of QUERY SPEC (R310). -/
def specBytes (s : State) (r : Nat) : List Byte :=
  let p := (s.region r).spec
  [p.issued, p.confirmed, p.missed, p.abandoned, p.shaped, p.demotions].flatMap (fun w => leBytes 4 w.toNat) ++
    leBytes 8 p.extraUj.toNat ++ leBytes 1 (s.specCode r) ++ leBytes 1 p.missWin.sum ++ leBytes 1 p.s ++ zeros 1 ++
    leBytes 2 p.demoteLeft

/-- The answer to a SPEC query at a boundary (R307). -/
def querySpec (t : Taken) (s : State) : State :=
  let r := leAt t.entry 0x0C 4
  if 63 < r then s.complete t.cmd codeBadArg 9 else s.complete t.cmd codeOk 0 (specBytes s r)

/-- QUERY_SPEC (R307). -/
def execQuerySpec (s : State) : Host.Outcome State Fault Refusal :=
  .next (journaled (runTaken opQuery (fun t => byteAt t.entry 8 == 3) startQuery) s)

/-- A query that was taken up is answered from the state of this boundary (R307). -/
def answerQuery (t : Taken) (s : State) : State :=
  if byteAt t.entry 8 = 1 then queryGrant t s else if byteAt t.entry 8 = 2 then queryGroup t s else querySpec t s

/-- The queries taken up since the latest boundary, in taking order (R307, R316). -/
def State.queriesInHand (s : State) : List Taken := s.hub.rings.taken.filter (fun t => t.started && t.opcode == opQuery)

/-- The queries in hand are answered at a boundary (R307). -/
def answerQueries (s : State) : State :=
  if s.inControl = false then s else s.queriesInHand.foldl (fun a t => answerQuery t a) s

/-- A definition in flight under a new owner: its slot requests are sent again (R286). -/
def adoptGroups (s : State) : State :=
  s.hub.groups.defs.foldl (fun a p => p.2.awaiting.foldl (fun b r => b.hubAsk (.slotRequest r p.1)) a) s

end Sys2Proof.Machine
end

