-- ==== Sys2Proof/Machine/Budget.lean ====
section
/-!
DEFINITION. Budgets and who may change them (R38–R55): the CAP_SET command (R301, R302), region caps between hub and
governor (R47–R50, R189), the emergency cap (R20, R56–R59, R257, R320–R322).
-/

namespace Sys2Proof.Machine

/-! ### Figures -/

/-- V_max in mV (R40); a confirmed raise enters it at the next wafer period (R137). -/
def State.vMax (s : State) : Nat := s.regions.max 64 (fun g => g.sp.vc - g.sp.conf) + 30

/-- P_floor in W (R43). -/
def State.pFloor (s : State) : Nat := 760 + ceilDiv (2560 * s.vMax) 1000

/-- I_waf of R40, 0.25 A, in the 20 bits of R38. -/
def wafCurrent (pWaf vMax : Nat) : Nat := min 0xFFFFF (pWaf * 4000 / vMax)

/-- Rating ceiling of a region (R42). -/
def Region.rating (g : Region) : Nat := g.ph.rating

/-- ceil_r of R186: the lower of the rating ceiling and the regulator ceiling of R195. -/
def Region.ceilR (g : Region) : Nat := min g.rating (g.rating * (16 - g.therm.derate16) / 16)

/-- Allotments of R193 in W and of R194 in 0.25 W. -/
def stackW (level : Nat) : Nat := 40 - 5 * min level 6
def optW4 (level : Nat) : Nat := 60 - 15 * min level 3

/-- The level at which a host ceiling of `w` W holds a stack or an optical engine (R301). -/
def stackLevelFor (w : Nat) : Nat := ((List.range 7).find? (fun l => decide (stackW l ≤ w))).getD 6
def optLevelFor (w : Nat) : Nat := ((List.range 4).find? (fun l => decide (optW4 l ≤ 4 * w))).getD 3

/-- The removal of a host ceiling (R301). -/
def noCeiling : Nat := 0xFFFFFFFF

/-! ### CAP_SET -/

/-- Item `k` of an entry (R301). -/
def capItem (e : List Byte) (k : Nat) : CapItem :=
  { level := byteAt e (8 + 8 * k)
    kind := byteAt e (9 + 8 * k)
    index := leAt e (10 + 8 * k) 2
    ceiling := leAt e (12 + 8 * k) 4 }

/-- A legal pair of LEVEL and KIND with an index in range (R301). -/
def capItemLegal (i : CapItem) : Bool :=
  match i.kind with
  | 0 => i.level == 5 && i.index == 0 && i.ceiling != noCeiling
  | 1 => i.level == 4 && decide (i.index < 16)
  | 2 => i.level == 4 && decide (i.index < 32)
  | 3 => i.level == 2 && decide (i.index < 64)
  | 4 => i.level == 1 && decide (i.index < 36864)
  | _ => false

/-- The first item that R302 rejects: an illegal one, or the later of two that name one target. -/
def capReject (items : List CapItem) : Option Nat :=
  (List.range items.length).find? (fun k =>
    let i := items.getD k ⟨0, 0, 0, 0, 0, false⟩
    !capItemLegal i || (items.take k).any (fun j => j.kind == i.kind && j.index == i.index))

/-- CAP_SET without GROUP_FORM (R301, R302): checked whole, then each item waits for its level's boundary. -/
def capSet (t : Taken) (s : State) : State :=
  let items := (List.range t.count).map (capItem t.entry)
  match capReject items with
  | some k => s.complete t.cmd codeBadArg (0x70 + k)
  | none =>
    if items.any (fun i => i.kind == 0 && decide (i.ceiling < s.pFloor)) then s.complete t.cmd codeBadArg 0x77
    else (s.begin t).modBudget (fun b => { b with caps := b.caps ++ [{ cmd := t.cmd, items := items, ecap := s.hub.ecap.active }] })

def execCapSet (s : State) : Host.Outcome State Fault Refusal :=
  .next (journaled (runTaken opCapSet (fun t => !entryGroupForm t.entry) capSet) s)

/-- Every waiting item that `p` names, in the order in which the entries were taken, with what becomes of it and of the
state. -/
def State.runItems (s : State) (p : CapItem → Bool) (f : CapItem → State → CapItem × State) : State :=
  let (t, caps) := s.hub.budget.caps.foldl (fun (acc : State × List CapCmd) c =>
    let (u, items, hit) := c.items.foldl (fun (a : State × List CapItem × Bool) i =>
      if p i then (let (j, v) := f i a.1; (v, a.2.1 ++ [j], true)) else (a.1, a.2.1 ++ [i], a.2.2)) (acc.1, [], false)
    (u, acc.2 ++ [{ c with items := items, ecap := c.ecap || (hit && u.hub.ecap.active) }])) (s, [])
  t.modBudget (fun b => { b with caps := caps })

/-- Entries whose items are all in force complete (R50, R302). -/
def completeCaps (s : State) : State :=
  let done (c : CapCmd) : Bool := c.items.all (fun i => i.phase == 3)
  let t := s.modBudget (fun b => { b with caps := b.caps.filter (fun c => !done c) })
  (s.hub.budget.caps.filter done).foldl (fun a c =>
    a.complete c.cmd codeOk (if c.ecap then 3 else if c.items.any (fun i => i.floored) then 2 else 0)) t

/-- Firmware of the power-management core runs on a hub in control (R191). -/
def State.loopRuns (s : State) : Bool := s.inControl && s.pow.startDone && decide ((s.ownerCore 1).state = .running)

/-- The cap the hub counts a region at (R47, R48): its last acknowledged one, or a raise sent and not acknowledged. -/
def State.countedCap (s : State) (r : Nat) : Nat :=
  s.await.foldl (fun m a => match a.msg with | .cap k c _ => if k = r then max m c else m | _ => m) (s.region r).caps.lastAck

/-- The levels sent and the levels that count of stacks 0–15 and engines 16–47. -/
def Budget.sentLevel (b : Budget) (k : Nat) : Nat := if k < 16 then b.lStack.getD k 0 else b.lOpt.getD (k - 16) 0
def Budget.countLevel (b : Budget) (k : Nat) : Nat := if k < 16 then b.cStack.getD k 0 else b.cOpt.getD (k - 16) 0

/-- Child `k` has acknowledged every lowering of its allotment: the level sent is the one that counts (R47). -/
def Budget.lowered (b : Budget) (k : Nat) : Bool := b.countLevel k == b.sentLevel k

/-- The allotments in force, 0.25 W. -/
def Budget.allotted4 (b : Budget) : Nat := 4 * (b.cStack.map stackW).sum + (b.cOpt.map optW4).sum

/-- A cap of region `r` is on its way: lowered and not acknowledged, waiting for the lowerings, or sent and not
acknowledged. -/
def State.capMoving (s : State) (r : Nat) : Bool :=
  s.hub.budget.lowering.any (fun p => p.1 == r) || s.hub.budget.raising.any (fun p => p.1 == r) ||
    s.await.any (fun a => match a.msg with | .cap k _ _ => k == r | _ => false)

/-- The wafer share in force follows the division's once the loop has divided by it and every lowered cap is acknowledged
(R47). -/
def Budget.settleWafer (b : Budget) : Budget := if b.wafRun && b.lowering.isEmpty then { b with pWafIn := b.pWaf } else b

/-- Items in force by now (R47, R48, R50): a PACKAGE item once every child has acknowledged its lowering, the wafer's regions
among them, and the budgets in force fit in it; a REGION item once its region's cap is acknowledged, a STACK or OPTICS item
once its child has acknowledged the lowered level, a CLUSTER item once no group member's tightening is outstanding. A child counted at
its last acknowledged budget has not acknowledged (R49). -/
def settleCaps (s : State) : State :=
  let s := s.modBudget Budget.settleWafer
  let b := s.hub.budget
  let inForce (i : CapItem) : Bool :=
    match i.kind with
    | 0 => decide (i.phase = 2) && b.lowering.isEmpty && b.silent.isEmpty &&
        (List.range 48).all b.lowered && (i.floored || decide (4 * b.pWafIn + 1920 + b.allotted4 ≤ 4 * b.pPkg))
    | 1 => decide (i.phase = 1) && b.lowered i.index
    | 2 => decide (i.phase = 1) && b.lowered (16 + i.index)
    | 3 => decide (i.phase = 1) && !s.capMoving i.index && decide (i.index ∉ b.silent)
    | _ => decide (i.phase = 1) &&
        !(s.cluster i.index).tight (slotMR (s.region (regionOf i.index)).slots)
  completeCaps (s.modBudget (fun b => { b with caps := b.caps.map (fun c => { c with
    items := c.items.map (fun i => if inForce i then { i with phase := 3 } else i) }) }))

/-- CLUSTER items at a control-period boundary (R53, R302). -/
def clusterItems (s : State) : State :=
  s.runItems (fun i => i.kind == 4 && i.phase == 0) (fun i t =>
    let h := if i.ceiling = noCeiling then none else some i.ceiling
    let u := t.cluster i.index
    let raise := decide (u.ctl.hostCeil.getD i.ceiling ≤ i.ceiling)
    ({ i with phase := if raise && u.ctl.hostCeil.isSome then 3 else 1, floored := decide (i.ceiling < u.ctl.res) },
      t.modCluster i.index (fun u => { u with ctl := { u.ctl with hostCeil := h } })))

/-! ### Region caps -/

/-- The self-test gate holds THERMTRIP_N deasserted and is still set (R75, R200). -/
def State.gated (s : State) : Bool := s.pow.gateSet && !s.pow.gateSpent

/-- A region's latch is set. -/
def State.anyTrip (s : State) : Bool := (List.range 64).any (fun r => (s.region r).therm.latch)

/-- THERMTRIP_N is driven low (R200, R441). -/
def State.thermLow (s : State) : Bool := s.pow.ioUp && (!s.pow.anaUp || (s.anyTrip && !s.gated))

/-- THERMTRIP_N at both hubs follows. -/
def thermPins (before : Bool) (s : State) : State :=
  let now := s.thermLow
  if before = now then s
  else (s.emit (.pin "THERMTRIP_N" .a now)).emit (.pin "THERMTRIP_N" .b now)

/-- CAP_MESSAGE (R47, R48, R198): the governor applies the cap at its next boundary; with the latch clear it pulses the
latch then. A cap sent after the emergency cap has ended ends it at the governor (R59). -/
def takeCap (r cap : Nat) (clearLatch : Bool) (s : State) : State :=
  s.modRegion r (fun g => { g with caps := { g.caps with
    waiting := some (cap, clearLatch || (match g.caps.waiting with | some (_, c) => c | none => false))
    ecap := g.caps.ecap && s.hub.ecap.active } })

def execCapMessage (r : RegionId) (hdr : MsgHdr) (cap : Nat) (clearLatch : Bool) (s : State) :
    Host.Outcome State Fault Refusal :=
  .next (govAccept r 0x40 hdr (takeCap r cap clearLatch)
    (fun s => if (s.region r).caps.waiting.isSome ∨ (s.region r).caps.ackOwed then s
      else s.send (.capAck r (s.region r).caps.iReg)) s)

/-- TRIP_LATCH_CLEAR (R198): a clear pulse takes effect only while every comparator is deasserted. -/
def clearLatch (r : Nat) (s : State) : State :=
  if (s.region r).therm.comps = 0 then
    let was := s.thermLow
    thermPins was
      ((s.modRegion r (fun g => { g with therm := { g.therm with latch := false, seen := false } })).holdRoll r 0 1 false)
  else s

/-- What emergency actions allow the region (R42, R56, R201): the preset of an emergency cap, I_TH_MIN of a trip, the rating
ceiling; `clear` says that the cap comes with the end of the trip. -/
def State.emergencyBound (s : State) (r : Nat) (clear : Bool) : Nat :=
  let g := s.region r
  let x := if g.caps.ecap then min g.rating (s.cfg (offPreset r) 0 12) else g.rating
  if g.therm.latch && !clear then min x s.iThMin else x

/-- An emergency action lowers the region's cap (R56): the trip, the emergency cap, the derate until it is settled. -/
def Region.emergency (g : Region) : Bool := g.therm.latch || g.caps.ecap || g.caps.ecapWait.isSome || g.ph.unsettled

/-- A region's cap at its boundary (R42, R47, R48, R56, R57): the emergency preset, the cap received, under an emergency cap
the lower of it and the preset (R205), never above the rating ceiling. A latch clear that meets an emergency cap does
nothing: the region climbs only when both have ended (R205). -/
def capAtBoundary (r : Nat) (s : State) : State :=
  let c := (s.region r).caps
  let i0 := match c.ecapWait with | some p => min c.iReg p | none => c.iReg
  let i1 := match c.waiting with
    | some (x, _) =>
      if c.ecapWait.isSome then min i0 x
      else if c.ecap then min x (s.cfg (offPreset r) 0 12) else x
    | none => i0
  let t := s.modRegion r (fun g =>
    let i2 := min i1 g.rating
    let calm := match c.waiting with
      | some (x, clear) => g.caps.judged (s.emergencyBound r clear) x
      | none => g.caps.calm
    { g with caps := { g.caps.setCap i2 calm with
        lastAck := if c.ecapWait.isSome then min g.caps.lastAck i2 else g.caps.lastAck
        waiting := none
        ecapWait := none
        ackOwed := g.caps.ackOwed || c.waiting.isSome } })
  match c.waiting with
  | some (_, true) => if c.ecap then t else clearLatch r t
  | _ => t

/-- The acknowledgement leaves once the settings are sent and the last group member has landed (R47, R278). -/
def ackCap (r : Nat) (s : State) : State :=
  let g := s.region r
  if g.caps.ackOwed ∧ g.clusters.any 576 (fun u => !u.ctl.spared && u.tight (slotMR g.slots)) = false then
    (s.modRegion r (fun g => { g with caps := { g.caps with ackOwed := false } })).send (.capAck r g.caps.iReg)
  else s

/-- The caps that wait for the lowerings are sent (R48, R189), by the loop while its core runs (R191); while a governor is
in the safe state none is raised (R205). -/
def sendRaises (s : State) : State :=
  if s.hub.budget.lowering ≠ [] ∨ s.loopRuns = false then s
  else
    let t := s.modBudget (fun b => { b with raising := [] })
    s.hub.budget.raising.foldl (fun a p =>
      let held := (s.gov p.1).safe
      let cap := if held then min p.2.1 (s.region p.1).caps.lastAck else p.2.1
      if held && !p.2.2 then a else a.hubAsk (.cap p.1 cap p.2.2)) t

/-- Raises that wait when the loop stops are not sent: it computes them anew at its next run (R189, R191). The items that they
carry wait for that run (R50). -/
def dropRaises (s : State) : State :=
  s.modBudget (fun b => { b with
    raising := []
    caps := b.caps.map (fun c => { c with items := c.items.map (fun i =>
      if i.kind = 3 ∧ i.phase = 1 ∧ b.raising.any (fun p => p.1 == i.index) then { i with phase := 0 } else i) }) })

/-- CAP_ACKNOWLEDGEMENT (R47, R49, R50, R189): it answers a message whose cap it does not exceed, so that the late
acknowledgement of an earlier, higher cap releases nothing. A cap that an emergency action holds lower counts there
(R57). A governor that answers again gets the shadows it lacks (R475). -/
def takeCapAck (r cap : Nat) (s : State) : State :=
  let s := s.answered (fun m => match m with | .cap k c _ => k == r && decide (cap ≤ c) | _ => false)
  let t := s.modRegion r (fun g => { g with caps := { g.caps with
    lastAck := if g.emergency then min cap g.caps.lastAck else cap } })
  let done := !t.hub.budget.lowering.any (fun p => p.1 == r && decide (p.2.1 < cap))
  let t := t.modBudget (fun b => { b with
    lowering := if done then b.lowering.filter (fun p => p.1 != r) else b.lowering
    silent := if done then b.silent.filter (fun k => k != r) else b.silent })
  let t := if done && decide (r ∈ s.hub.budget.silent) then
      (t.setup.shadows.filter (fun x => decide (regionBase r ≤ x.offset ∧ x.offset < regionBase (r + 1)))).foldl sendShadow t
    else t
  settleCaps (sendRaises t)

def execCapAcknowledgement (r : RegionId) (hdr : MsgHdr) (cap : Nat) (s : State) : Host.Outcome State Fault Refusal :=
  .next (journaled (hubAccept 0x41 hdr (takeCapAck r cap)) s)

/-- The governors with a PMBus master (R21). -/
def pmbusCorners : List Nat := [0, 7, 56, 63]

/-- A corner governor stops responding (R22): one contained fault until it answers again. -/
def governorGone (r : Nat) (s : State) : State :=
  if r ∈ pmbusCorners ∧ r ∉ s.hub.budget.mute then
    (s.modBudget (fun b => { b with mute := b.mute ++ [r] })).raise 206 1
  else s

/-- CHILD_UNACKNOWLEDGED (R49): a region that has not acknowledged within 4 wafer periods is counted at its last
acknowledged cap, with a contained fault; a corner governor that has stopped responding leaves its PMBus master without
command, with another (R22). The other regions cover the difference at the loop's next run, after which the wafer share
counts as lowered. -/
def childUnack (r : Nat) (s : State) : State :=
  if s.inControl ∧ s.hub.budget.lowering.any (fun p => p.1 == r && decide (4 ≤ p.2.2)) then
    ((dropRaises s).modBudget (fun b => { b with
      lowering := b.lowering.filter (fun p => p.1 != r)
      wafRun := false
      silent := if r ∈ b.silent then b.silent else b.silent ++ [r] })).raise 206 0 |> governorGone r
  else s

def execChildUnacknowledged (r : RegionId) (s : State) : Host.Outcome State Fault Refusal :=
  .next (journaled (childUnack r) s)

/-! ### The emergency cap -/

def State.modEcap (s : State) (f : Ecap → Ecap) : State := s.modHub (fun h => { h with ecap := f h.ecap })

/-- A source is asserted. -/
def Ecap.any (e : Ecap) : Bool := e.pinA || e.pinB || e.hard

/-- SOURCE of an ECAP record (R312). -/
def Ecap.source (e : Ecap) : Nat := bitNat (e.pinA || e.pinB) + 2 * bitNat e.hard

/-- The presets of the 64 regions (R320). -/
def State.presets (s : State) : List Nat := (List.range 64).map (fun r => s.cfg (offPreset r) 0 12)

/-- Entry and end of the emergency cap after a change of its sources (R257, R262, R320): on entry the emergency cap path of
each hub in `paths` broadcasts the presets, vector 12 is signalled, an ECAP record written, and the rounds before their
accepting completion are abandoned; raises not yet sent wait for R59, and so does a trip's end (R205). The end leaves the
restoration to the next wafer period (R59). -/
def ecapEdge (paths : List Hub) (before : Ecap) (s : State) : State :=
  let e := s.hub.ecap
  if e.any ∧ e.active = false then
    let t := s.modEcap (fun e => { e with active := true, restore := false, entries := satAdd 0xFFFF e.entries 1 })
    let t := paths.foldl (fun (a : State) h => a.sendAs (nodeHub h) nodeAll (.ecap s.presets)) t
    let t := (t.hubEmit (.msix 12)).telemetry 0x14 0xFF (leBytes 1 e.source ++ leBytes 1 0)
    let t := (dropRaises t).modBudget (fun b => { b with presets := s.presets })
    abandonAll (t.modThyme (fun h => { h with ecapSettle := true }))
  else if e.any = false ∧ e.active then
    ((s.modEcap (fun e => { e with active := false, restore := true })).hubEmit (.msix 12)).telemetry 0x14 0xFF
      (leBytes 1 before.source ++ leBytes 1 1)
  else s

/-- A source changes (R320): a pin at one hub's filter, or HARD, whose write reaches both hubs (R391). The emergency cap path
is hardware in both hubs; the state of the cap is the pair's. -/
def setEcap (paths : List Hub) (f : Ecap → Ecap) (s : State) : State :=
  ecapEdge paths s.hub.ecap (bothHubs (fun s => s.modEcap f) s)

/-- HARD_SET (R320). -/
def execHardSet (s : State) : Host.Outcome State Fault Refusal :=
  .next (if s.pow.regOpen then journaled (setEcap [.a, .b] (fun e => { e with hard := true })) s else s)

/-- HARD_CLEAR (R320). -/
def execHardClear (s : State) : Host.Outcome State Fault Refusal :=
  .next (if s.pow.regOpen then journaled (setEcap [.a, .b] (fun e => { e with hard := false })) s else s)

/-- The filtered pin of a hub (R320). -/
def pinEcap (h : Hub) (on : Bool) (e : Ecap) : Ecap :=
  match h with
  | .a => { e with pinA := on }
  | .b => { e with pinB := on }

/-- The filter of a hub's ECAP_N runs: from step 4 of its start, not while the clocks are stopped, VRN_IO is down or a warm reset
stands (R458, R500, R502). -/
def State.ecapSensed (s : State) (h : Hub) : Bool :=
  decide (s.clk.st ≠ .stopped) && decide (4 ≤ (s.hubOf h).start.step) && s.pow.ioUp && !s.pow.resetForce

/-- The level at a hub's ECAP_N pin. -/
def Power.ecapLow (p : Power) : Hub → Bool
  | .a => p.ecapLowA
  | .b => p.ecapLowB

def Power.setEcapLow (h : Hub) (low : Bool) (p : Power) : Power :=
  match h with
  | .a => { p with ecapLowA := low }
  | .b => { p with ecapLowB := low }

/-- The level at a hub's ECAP_N pin changes: its filter, where it runs, takes it (R320, R502). -/
def ecapLevel (h : Hub) (low : Bool) (s : State) : State :=
  let t := s.modPow (Power.setEcapLow h low)
  if s.ecapSensed h then setEcap [h] (pinEcap h low) t else t

/-- ECAP_N_ASSERT (R320): 64 low samples at one hub's filter. -/
def execEcapNAssert (h : Hub) (s : State) : Host.Outcome State Fault Refusal :=
  .next (journaled (ecapLevel h true) s)

/-- ECAP_N_RELEASE (R320): 64 high samples. -/
def execEcapNRelease (h : Hub) (s : State) : Host.Outcome State Fault Refusal :=
  .next (journaled (ecapLevel h false) s)

/-- EMERGENCY_CAP_BROADCAST at a governor (R20, R56, R139, R262): accepted whatever its epoch; of two the lower preset
counts; a standing pre-raise ends at once; the timers of grants in delivery stop while their reservations are scaled. -/
def ecapBroadcast (r preset : Nat) (s : State) : State :=
  let t := s.modRegion r (fun g => ({ g with caps := { g.caps with
    ecap := true
    ecapWait := some (match g.caps.ecapWait with | some p => min p preset | none => preset) } }.voidPeriod).stick 4)
  let t := t.abandonNow r
  if preset < (t.region r).resTotal then suspendTimers r t else t

def execEmergencyCapBroadcast (r : RegionId) (hdr : MsgHdr) (preset : Nat) (s : State) :
    Host.Outcome State Fault Refusal :=
  .next (journaled (fun s => if hdr.goodTo true then ecapBroadcast r preset s else s.badMsg r) s)

end Sys2Proof.Machine
end

