-- ==== Sys2Proof/Machine/Thermal.lean ====
section
/-!
DEFINITION. The wafer thermal loop (R77, R86, R87, R184–R191, R201, R410), the package supervisor (R52, R91, R192–R197),
and the hardware trip (R73, R74, R198–R205).
-/

namespace Sys2Proof.Machine

/-! ### Readings -/

/-- A coolant pair at a thermal period (R86, R87): the higher of the VALID readings, the substitute from the failure of
both until 10 periods have been VALID; whether a failure and whether a mismatch episode begins. -/
def CoolPair.read (reads : List (Option Int)) (sub : Int) (c : CoolPair) : CoolPair × Bool × Bool :=
  let ok := (reads.filterMap id).map temp16
  let fail := if ok = [] then 10 else c.fail - 1
  let (diff, agree) := match ok with
    | [x, y] => if (x - y).natAbs ≤ 16 then (0, min 10 (c.agree + 1)) else (min 10 (c.diff + 1), 0)
    | _ => (0, 0)
  let starts := decide (diff = 10) && !c.bad
  ({ temp := match highest ok with
      | some x => if 0 < fail then sub else x
      | none => sub
     fail := fail
     bad := if starts then true else if agree = 10 then false else c.bad
     diff := diff
     agree := agree }, ok.isEmpty && c.fail == 0, starts)

/-- COOLANT_MAX in use: the highest of the 64 region copies (R184), in 0.125 °C. -/
def State.coolantMax (s : State) : Int :=
  8 * (((List.range 64).map (fun r => s.cfg (offSense r) 8 8)).foldl max 0 : Nat)

/-- Coolant figures with their faults: mismatch (R86), both failed (R87), above INLET_LIMIT once per episode (R187). -/
def readCoolant (inlet outlet : List (Option Int)) (s : State) : State :=
  let c := s.hub.coolant
  let (a, fa, ma) := c.inlet.read inlet s.coolantMax
  let (b, fb, mb) := c.outlet.read outlet (s.coolantMax + 120)
  let above := decide ((8 * s.cfg (offTherm 2) 8 8 : Nat) < a.temp)
  let low := if above then 0 else min 10 (c.limLow + 1)
  let t := s.modHub (fun h => { h with coolant := {
    inlet := a, outlet := b, limSeen := above || (c.limSeen && decide (low < 10)), limLow := low } })
  let t := if ma then t.raise 208 0 else t
  let t := if mb then t.raise 208 0 else t
  let t := if fa then t.raise 208 1 else t
  let t := if fb then t.raise 208 1 else t
  if above && !c.limSeen then t.raise 208 2 else t

/-- A child's failure count after a thermal period (R87). -/
def failAfter (failed : Bool) (n : Nat) : Nat := if failed then 10 else n - 1

/-- Stack `k`, or engine `k - 16`, has acknowledged its level. -/
def Budget.acked (b : Budget) (k : Nat) : Bool :=
  b.lowered k && (if k < 16 then b.aStack.getD k 0 else b.aOpt.getD (k - 16) 0) == b.sentLevel k

/-- Stack and optical engine readings, the levels their reads return, heater requests (R85, R87, R511). A child reported
as not acknowledging counts as failed until it acknowledges (R197). -/
def readChildren (rd : PackageReads) (s : State) : State :=
  let b := s.hub.budget
  let tempOf (l : List (Option Int)) (i : Nat) : Option Int := (l.getD i none).map temp16
  let b' := { b with
    aStack := (List.range 16).map (fun i => (rd.ackStack.getD i none).getD (b.aStack.getD i 0))
    aOpt := (List.range 32).map (fun i => (rd.ackOptic.getD i none).getD (b.aOpt.getD i 0))
    cStack := (List.range 16).map (fun i =>
      if rd.ackStack.getD i none = some (b.lStack.getD i 0) then b.lStack.getD i 0 else b.cStack.getD i 0)
    cOpt := (List.range 32).map (fun i =>
      if rd.ackOptic.getD i none = some (b.lOpt.getD i 0) then b.lOpt.getD i 0 else b.cOpt.getD i 0) }
  let bad (k : Nat) : Bool :=
    (decide (16 ≤ b.unack.get k) && !b'.acked k) ||
    if k < 16 then (tempOf rd.stack k).isNone
    else (tempOf rd.laser (k - 16)).isNone && (tempOf rd.driver (k - 16)).isNone
  let newly := (List.range 48).filter (fun k => bad k && b.childFail.get k == 0)
  let b' := { b' with
    stackT := (List.range 16).map (tempOf rd.stack)
    laserT := (List.range 32).map (tempOf rd.laser)
    driverT := (List.range 32).map (tempOf rd.driver)
    heatReq := (List.range 32).map (fun i => rd.heater.getD i (b.heatReq.getD i 0))
    childFail := b.childFail.modifyAll (List.range 48) (fun k n => failAfter (bad k) n) }
  let b' := { b' with
    unack := b'.unack.modifyAll (List.range 48) (fun k n => if b'.acked k then 0 else n)
    lowAge := b'.lowAge.modifyAll (List.range 48) (fun k n => if b'.lowered k then 0 else n) }
  newly.foldl (fun a _ => a.raise 207 1) (s.modBudget (fun _ => b'))

/-- MONITOR_ANCHOR (R77): within 10 °C the offset moves 1/64 of the difference toward the diode, beyond it the reading
is SUSPECT; a diode that is not VALID anchors nothing. -/
def anchorMonitor (diodes : SMap Diode) (c : Nat) (u : Cluster) : Cluster :=
  let d := diodes.get (diodeOf c)
  let diff := d.temp * 64 - (u.tp.reading * 64 + u.tp.offset)
  if d.status ≠ .valid then u
  else if diff.natAbs ≤ 5120 then { u with tp := { u.tp with offset := u.tp.offset + diff.tdiv 64 } }
  else { u with tp := { u.tp with status := .suspect, goodRun := 0 } }

def anchorMonitors (g : Region) : Region := { g with clusters := g.clusters.mapBy 576 (anchorMonitor g.diodes) }

/-! ### The wafer thermal loop -/

/-- The conditions of R201 at a wafer boundary. -/
def State.tripOver (s : State) (r : Nat) : Bool :=
  let t := (s.region r).therm
  t.comps == 0 && t.seen && t.holdLeft == 0 && decide (2 ≤ t.coolMaps) && s.hub.coolant.inlet.fail == 0 &&
    decide (s.hub.coolant.inlet.temp < (8 * s.cfg (offTherm 2) 8 8 : Nat))

/-- The set-up figures of R186. -/
structure LoopCfg where
  tLimit : Int
  band   : Nat
  gainDn : Nat
  stepUp : Nat
  iMin   : Nat
  frac   : Nat
deriving DecidableEq, Repr

def State.loopCfg (s : State) : LoopCfg :=
  ⟨s.tLimit, s.cfg (offTherm 0) 16 8, s.cfg (offTherm 0) 24 8, s.cfg (offTherm 1) 0 12, s.iThMin, s.cfg (offTherm 4) 16 7⟩

/-- I_th of R186, and of R201 where the trip ends. -/
def thermalCeil (c : LoopCfg) (tripped ends : Bool) (ceilR prev meas : Nat) (hot : Int) : Nat :=
  let x := if ends then c.frac * ceilR / 64
    else if tripped then c.iMin
    else if c.tLimit ≤ hot then
      min prev (meas * (1024 - min 1024 ((hot - c.tLimit).toNat * c.gainDn)) / 1024)
    else if (c.tLimit - hot).toNat < c.band then prev
    else prev + c.stepUp
  min ceilR (max c.iMin x)

/-- The mean current over the wafer period (R184). -/
def Region.waferMean (g : Region) : Nat :=
  if g.therm.meanCnt = 0 then g.dig.meanShown else g.therm.meanSum / g.therm.meanCnt

/-- One region's part of the loop before the division: T_hot, the hold count, I_th (R185, R186, R201). A trip does not end
while the emergency cap is in force (R205). -/
def loopRegion (s : State) (r : Nat) : Region :=
  let g := s.region r
  let hot := g.hotTemp s.tLimit
  let t := g.therm
  let hold := if t.latch = false then 0 else if t.seen then t.holdLeft - 1 else s.cfg (offTherm 4) 8 8
  let g1 := { g with therm := { t with tHot := hot, seen := t.latch, holdLeft := hold } }
  let ends := t.latch && (s.modRegion r (fun _ => g1)).tripOver r && !s.hub.ecap.active
  { g1 with therm := { g1.therm with
      iTh := thermalCeil s.loopCfg t.latch ends g.ceilR t.iTh g.waferMean hot } }

/-- Bounds of a region's cap in R188. -/
structure Bounds where
  lo : Nat
  hi : Nat
deriving DecidableEq, Repr

def clampB (l : Nat) (b : Bounds) : Nat := min b.hi (max b.lo l)

/-- The sum of the caps at a level. -/
def levelSum (bs : List Bounds) (l : Nat) : Nat := (bs.map (clampB l)).sum

/-- L of R188: the largest level within `avail`, found bit by bit; no cap exceeds 12 bits. -/
def waterLevel (bs : List Bounds) (avail : Nat) : Nat :=
  [2048, 1024, 512, 256, 128, 64, 32, 16, 8, 4, 2, 1].foldl
    (fun l b => if levelSum bs (l + b) ≤ avail then l + b else l) 0

/-- I_avail of R187. -/
def availOf (iWaf nom limit : Nat) (tIn : Int) : Nat :=
  let x := (tIn - 8 * nom).toNat
  let span := 16 * (limit - nom)
  iWaf * (span - min x (span / 2)) / max 1 span

/-- lo[r] and hi[r] of R188. -/
def State.loHi (s : State) (r : Nat) : Bounds :=
  let i := (s.region r).therm.iTh
  let lo := s.lo r
  ⟨lo, max lo (match s.hub.budget.regCeil.get r with | some h => min i h | none => i)⟩

/-- The bounds of the division: a region counted at its last acknowledged cap has both there (R49). -/
def State.bounds (s : State) (r : Nat) : Bounds :=
  let a := (s.region r).caps.lastAck
  if r ∈ s.hub.budget.silent then ⟨a, a⟩ else s.loHi r

/-- I_reg: while an emergency cap is in force the lower of the preset and the division's (R190, R205). -/
def State.capFor (s : State) (caps : List Nat) (r : Nat) : Nat :=
  let x := caps.getD r 0
  if s.hub.ecap.active then min x (s.cfg (offPreset r) 0 12) else x

/-- WATER_FILL (R188) with the flags of R208, which are I_reg's, and the wafer's remainder (R52). -/
def waterFill (s : State) : State × List Nat :=
  let bs := (List.range 64).map s.bounds
  let avail := s.hub.budget.iAvail
  let los := (bs.map Bounds.lo).sum
  let l := waterLevel bs avail
  let caps := if avail < los then bs.map Bounds.lo else bs.map (clampB l)
  let t := (List.range 64).foldl (fun (a : State) r =>
    let b := s.loHi r
    let x := s.capFor caps r
    a.modRegion r (fun g => { g with therm := { g.therm with
      binding := decide (x = b.hi ∧ x < l), floored := decide (x = b.lo ∧ g.therm.iTh < x) } })) s
  (t.modBudget (fun b => { b with pendWaf := los - avail }), caps)

/-- REGION items at the wafer boundary (R302). -/
def regionItems (s : State) : State :=
  s.runItems (fun i => i.kind == 3 && i.phase == 0) (fun i t =>
    ({ i with phase := 1, floored := decide (i.ceiling < t.lo i.index) },
      t.modBudget (fun b => { b with
        regCeil := b.regCeil.set i.index (if i.ceiling = noCeiling then none else some i.ceiling) })))

/-- PACKAGE items whose division the wafer loop now repeats. -/
def packageSecond (s : State) : State :=
  s.modBudget (fun b => { b with caps := b.caps.map (fun c => { c with
    items := c.items.map (fun i => if i.kind = 0 ∧ i.phase = 1 then { i with phase := 2 } else i) }) })


/-- The new caps go out: lowerings at once, raises after their acknowledgement (R189); after an emergency cap every region
gets one, and so does a governor that still holds the emergency cap (R59). A region counted at its last acknowledged cap is
sent that cap again, which its acknowledgement ends (R49). While the emergency cap is in force a cap rises only where the
preset was raised since the latest run (R205, R482), and no latch clear is sent (R205, R520). A tripped region counts at its
lowered cap at once (R57, R201). The clear of a trip that ends goes with the region's cap after the lowerings, its own among
them where its new cap is a lower one (notes/assumptions/53.md). -/
def sendCaps (caps : List Nat) (s : State) : State :=
  let old := s.hub.budget.lowering
  let restore := s.hub.ecap.restore
  let cap (r : Nat) : Nat :=
    let p := s.cfg (offPreset r) 0 12
    if s.hub.ecap.active ∧ p ≤ s.hub.budget.presets.getD r p then min (s.capFor caps r) (s.countedCap r) else s.capFor caps r
  let down := (List.range 64).filter (fun r => decide (cap r < s.countedCap r))
  let ends (r : Nat) : Bool := (s.region r).therm.latch && s.tripOver r && !s.hub.ecap.active
  let atOnce (r : Nat) : Bool := (s.region r).therm.latch && !ends r
  let up := (List.range 64).filter (fun r => ends r || (decide (r ∉ down) &&
    (decide (s.countedCap r < cap r) || restore || decide (r ∈ s.hub.budget.silent) ||
      ((s.region r).caps.ecap && !s.hub.ecap.active))))
  let age (r : Nat) : Nat := ((old.find? (fun p => p.1 == r)).map (fun p => p.2.2 + 1)).getD 0
  let t := down.foldl (fun a r => a.hubAsk (.cap r (cap r) false)) s
  let t := (down.filter atOnce).foldl (fun (a : State) r => a.modRegion r (fun g => { g with
    caps := { g.caps with lastAck := cap r } })) t
  let t := t.modBudget (fun b => { b with
    lowering := (down.filter (fun r => !atOnce r)).map (fun r => (r, cap r, age r))
    raising := up.map (fun r => (r, cap r, ends r))
    presets := s.presets })
  sendRaises (t.modEcap (fun e => { e with restore := false }))

/-- A figure of temperature as two bytes (R4). -/
def tempBytes (x : Int) : List Byte := leBytes 2 ((x % 65536).toNat)

/-- THERMAL records (R190, R312). -/
def thermalRecords (caps : List Nat) (s : State) : State :=
  (List.range 64).foldl (fun a r =>
    let t := (s.region r).therm
    a.telemetry 3 r (tempBytes t.tHot ++ leBytes 2 t.iTh ++ leBytes 2 (s.capFor caps r) ++ leBytes 2 (s.lo r) ++
      leBytes 1 (bitNat t.latch + 2 * bitNat t.binding + 4 * bitNat t.floored))) s

/-- BROKEN_PAIR_POLL (R410): while a pair is broken the owning hub reads the source's cause register and raises each new cause bit
that it finds. A wafer-wide source's register holds what the broken pair signalled. -/
def pollBroken (ks : List Nat) (s : State) : State :=
  let coll := (s.hubOf (s.owner.getD .a)).coll
  ks.foldl (fun (a : State) k =>
    let r := k % 64
    let u := (s.gov r).roll (k / 64)
    if k < 192 ∧ (coll.sources.get k).broken ∧ u.latched ≠ 0 then
      (onesOf 16 u.latched.toNat).foldl (fun (b : State) bit =>
        if bitOf (coll.sources.get k).cause.toNat bit ∨ b.events.any (fun e => e.polled && e.src == k && e.cause == bit) then b
        else { b with events := b.events ++ [{ src := k, cause := bit, polled := true }] })
        { a with latches := if (r, k / 64) ∈ a.latches then a.latches else a.latches ++ [(r, k / 64)] }
    else if 192 ≤ k then
      (coll.missed.filter (fun p => p.1 == k)).foldl (fun (b : State) p =>
        if b.events.any (fun e => e.polled && e.src == p.1 && e.cause == p.2) then b
        else { b with events := b.events ++ [{ src := p.1, cause := p.2, polled := true }] }) a
    else a) s

/-- Grants in force count their duration in thermal periods (R256). -/
def countDurations (s : State) : State :=
  s.liveGrants.foldl (fun a i => a.modGrant i (fun g =>
    if g.state = .inForce then { g with durLeft := g.durLeft - 1 } else g)) s

/-- A group whose home governor does not respond (R286): a contained fault, and the home moves. -/
def moveHomes (s : State) : State :=
  let gone := s.unresponsive
  let n := (s.hub.groups.defs.filter (fun p => p.2.defined && decide (p.2.home ∈ gone))).length
  (List.range n).foldl (fun a _ => a.raise 206 2) (moveHome gone s)

/-- What the standby's image keeps of the loop: I_th and the trip-release counts (R191, R205). -/
def keepThs (s : State) : State :=
  s.modBudget (fun b => { b with ths := (List.range 64).map (fun r =>
    let t := (s.region r).therm
    (t.iTh, t.holdLeft, t.seen)) })

/-- A new owner's loop starts from the mirrored figures (R191, R205). -/
def restoreThs (s : State) : State :=
  (List.range s.hub.budget.ths.length).foldl (fun (a : State) r =>
    let p := s.hub.budget.ths.getD r (0, 0, false)
    a.modRegion r (fun g => { g with therm := { g.therm with iTh := p.1, holdLeft := p.2.1, seen := g.therm.latch && p.2.2 } })) s

/-- The loop's run at a wafer boundary (R184–R190, R201); from it on a repaired phase counts in the rating ceiling (R59). The
monitors are anchored in it, and so only in a thermal period in which the loop runs (R77; notes/assumptions/54.md). -/
def thermalLoop (s : State) : State :=
  let s := s.modRegions (fun g => anchorMonitors { g with ph := { g.ph with rated := 22 } })
  let s := (List.range 64).foldl (fun (a : State) r => a.modRegion r (fun _ => loopRegion a r)) s
  let s := (packageSecond (regionItems s)).modBudget (fun b => { b with wafRun := true })
  let b := s.hub.budget
  let iw := wafCurrent b.pWaf s.vMax
  let av := availOf iw (s.cfg (offTherm 2) 0 8) (s.cfg (offTherm 2) 8 8) s.hub.coolant.inlet.temp
  let s := s.modBudget (fun b => { b with iWaf := iw, iAvail := av, loWafer := (List.range 64).map s.lo })
  let (t, caps) := waterFill s
  let t := sendCaps caps (thermalRecords caps t)
  settleCaps (moveHomes (keepThs { t with pow := { t.pow with waferRun := true } }))

/-- WAFER_PERIOD at the hub in control (R186): package readings; the loop runs while its core does, and raises that the period
before left unsent are not sent in a later one (R189). -/
def hubWafer (rd : PackageReads) (s : State) : State :=
  let t := readChildren rd (readCoolant rd.inlet rd.outlet s)
  let t := t.modAgeing (fun a => { a with evalRun := a.evalRun + 1 })
  let t := pollBroken ((List.range 192).map (· + 64)) t
  if t.loopRuns then thermalLoop t else dropRaises t

/-- WAFER_PERIOD: durations count whether or not a hub is in control (R256; notes/assumptions/55.md), a confirmed raise enters
V_max (R137), and the period's mean currents start anew (R184). -/
def waferPeriod (rd : PackageReads) (s : State) : State :=
  let t := (bothHubs countDurations s).modRegions (fun g => g.modSp (fun p => { p with conf := 0 }))
  let t := if t.inControl then hubWafer rd t else t
  t.modRegions (fun g => { g with therm := { g.therm with meanSum := 0, meanCnt := 0 } })

/-! ### The package supervisor -/

/-- t[s] of R193 and u[e] of R194 after a package period. -/
def levelMove (top : Nat) (up down : Bool) (l : Nat) : Nat :=
  if up then min top (l + 1) else if down then l - 1 else l

/-- The readings of an optical engine that are VALID. -/
def Budget.optReads (b : Budget) (e : Nat) : List Int :=
  [b.laserT.getD e none, b.driverT.getD e none].filterMap id

/-- STACK_THROTTLE and OPTICS_BIAS: the thermal levels (R87, R193, R194). -/
def moveLevels (stackMax laserMax : Nat) (b : Budget) : Budget :=
  { b with
    tStack := (List.range 16).map (fun i =>
      let l := b.tStack.getD i 0
      if 0 < b.childFail.get i then 6
      else match b.stackT.getD i none with
        | none => l
        | some x => levelMove 6 (decide ((8 * (stackMax - 2) : Nat) ≤ x)) (decide (x ≤ (8 * (stackMax - 8) : Nat))) l)
    uOpt := (List.range 32).map (fun e =>
      let l := b.uOpt.getD e 0
      let xs := b.optReads e
      if 0 < b.childFail.get (16 + e) then 3
      else if xs = [] then l
      else levelMove 3 (xs.any (fun x => decide ((8 * (laserMax - 2) : Nat) ≤ x)))
        (xs.all (fun x => decide (x ≤ (8 * (laserMax - 6) : Nat)))) l) }

/-- Levels and bias under the deepening step (b, ob) of R192. -/
def Budget.stackLevels (b : Budget) (x : Nat) : List Nat :=
  (List.range 16).map (fun i => max (max (b.tStack.getD i 0) (b.hStack.getD i 0)) x)
def Budget.optLevels (b : Budget) (x : Nat) : List Nat :=
  (List.range 32).map (fun i => max (max (b.uOpt.getD i 0) (b.hOpt.getD i 0)) x)

/-- The allotment of child `k` at a level, 0.25 W: one that has not acknowledged a lowering for 4 package periods counts at the
level that may still be in force (R49). -/
def Budget.allot4 (b : Budget) (k level : Nat) : Nat :=
  let w (l : Nat) : Nat := if k < 16 then 4 * stackW l else optW4 l
  if 5 ≤ b.lowAge.get k then max (w level) (w (b.countLevel k)) else w level

/-- rem of R192 in 0.25 W for given levels. -/
def Budget.remainder4 (b : Budget) (st op : List Nat) : Nat :=
  4 * b.pPkg - 1920 - ((List.range 16).map (fun i => b.allot4 i (st.getD i 0))).sum -
    ((List.range 32).map (fun e => b.allot4 (16 + e) (op.getD e 0))).sum

/-- The deepening steps of R192. -/
def deepSteps : List (Nat × Nat) :=
  [(0, 0), (1, 0), (2, 0), (3, 0), (4, 0), (5, 0), (6, 0), (6, 1), (6, 2), (6, 3)]

/-- W_min of R192, W. -/
def State.wMin (s : State) : Nat :=
  ceilDiv (((List.range 64).map (fun r => max (min s.iThMin (s.region r).ceilR) (s.hub.budget.loWafer.getD r 0))).sum * s.vMax) 4000

/-- The outlet factor of R196, in 1/160. -/
def outletFactor (tOut : Int) (limit : Nat) : Nat := 160 - min (tOut - (8 * limit : Nat)).toNat 80

/-- PACKAGE, STACK and OPTICS items at the package boundary (R55, R301, R302). A child whose level need not deepen has
its ceiling in force at once. -/
def packageItems (s : State) : State :=
  s.runItems (fun i => decide (i.kind ≤ 2) && i.phase == 0) (fun i t =>
    let b := t.hub.budget
    match i.kind with
    | 0 => ({ i with phase := if b.pPkg ≤ i.ceiling then 3 else 1 }, t.modBudget (fun b => { b with pPkg := i.ceiling }))
    | 1 =>
      let l := if i.ceiling = noCeiling then 0 else stackLevelFor i.ceiling
      ({ i with phase := if l ≤ b.hStack.getD i.index 0 then 3 else 1 }, t.modBudget (fun b => { b with hStack := b.hStack.set i.index l }))
    | _ =>
      let l := if i.ceiling = noCeiling then 0 else optLevelFor i.ceiling
      ({ i with phase := if l ≤ b.hOpt.getD i.index 0 then 3 else 1 }, t.modBudget (fun b => { b with hOpt := b.hOpt.set i.index l })))

/-- One child's raise where the slack of the package, 0.25 W, allows it (R44, R45): the slack left, the levels given. -/
def giveLevel (w4 : Nat → Nat) (p : Nat × List Nat) (x : Nat × Nat × Nat) : Nat × List Nat :=
  let (old, counted, new) := x
  if old ≤ new then (p.1, p.2 ++ [new])
  else
    let cost := w4 new - w4 counted
    if cost ≤ p.1 then (p.1 - cost, p.2 ++ [new]) else (p.1, p.2 ++ [old])

/-- The division's levels and wafer share as far as they may stand now: lowerings at once, counted at their old value until
acknowledged; raises out of what the budgets in force leave of P_pkg, the wafer's last (R44, R45, R47, R48). Where not every
raise fits, the stacks take theirs first, by number, then the engines, then the wafer, and one that does not fit is left out:
DESIGN CHOICE, notes/assumptions/66.md. -/
def Budget.takeDivision (b : Budget) (st op : List Nat) (waf : Nat) : Budget :=
  let slack := 4 * b.pPkg - 1920 - b.allotted4 - 4 * b.pWafIn
  let (s1, l1) := ((List.range 16).map (fun i => (b.lStack.getD i 0, b.cStack.getD i 0, st.getD i 0))).foldl
    (giveLevel (fun l => 4 * stackW l)) (slack, [])
  let (s2, l2) := ((List.range 32).map (fun e => (b.lOpt.getD e 0, b.cOpt.getD e 0, op.getD e 0))).foldl
    (giveLevel optW4) (s1, [])
  let w := if waf ≤ b.pWafIn then waf else min waf (b.pWafIn + s2 / 4)
  { b with
    lStack := l1, lOpt := l2, cStack := List.zipWith min b.cStack l1, cOpt := List.zipWith min b.cOpt l2
    pWaf := w, pWafIn := max b.pWafIn w, wafRun := b.wafRun && w == b.pWaf }

/-- The division of R192. -/
def dividePackage (s : State) : State :=
  let b := moveLevels (s.cfg (offTherm 3) 0 8) (s.cfg (offTherm 3) 8 8) s.hub.budget
  let w := s.wMin
  let fits (p : Nat × Nat) : Bool := decide (4 * w ≤ b.remainder4 (b.stackLevels p.1) (b.optLevels p.2))
  let p := (deepSteps.find? fits).getD (6, 3)
  let st := b.stackLevels p.1
  let op := b.optLevels p.2
  let rem := b.remainder4 st op
  let f := outletFactor s.hub.coolant.outlet.temp (s.cfg (offTherm 2) 16 8)
  let pend := w - rem / 4
  s.modBudget (fun _ => { b.takeDivision st op (max (min (rem / 4) w) (rem * f / 640)) with
    pendPkg := pend
    caps := b.caps.map (fun c => { c with items := c.items.map (fun i =>
      if i.kind = 0 ∧ 0 < pend then { i with floored := true } else i) }) })

/-- Levels that changed, or that a child has not acknowledged, and changed heater grants go out (R193, R194, R197). -/
def sendLevels (before : Budget) (s : State) : State :=
  let b := s.hub.budget
  let grant (e : Nat) : Nat := min (b.heatReq.getD e 0) (250 * optW4 (b.lOpt.getD e 0))
  let stk := (List.range 16).filter (fun i =>
    b.lStack.getD i 0 != before.lStack.getD i 0 || b.lStack.getD i 0 != b.aStack.getD i 0)
  let opt := (List.range 32).filter (fun e =>
    b.lOpt.getD e 0 != before.lOpt.getD e 0 || b.lOpt.getD e 0 != b.aOpt.getD e 0 || grant e != before.heater.getD e 0)
  let t := stk.foldl (fun (a : State) i =>
    a.sidebandWrite (.stack (Fin.ofNat 16 i)) (b.lStack.getD i 0) 0) s
  let t := opt.foldl (fun (a : State) e =>
    a.sidebandWrite (.optic (Fin.ofNat 32 e)) (b.lOpt.getD e 0) (grant e)) t
  t.modBudget (fun b => { b with
    heater := (List.range 32).map grant
    unack := b.unack.modifyAll (List.range 48) (fun k n =>
      if b.acked k then 0 else n / 16 * 16 + min 3 (n % 16 + 1))
    lowAge := b.lowAge.modifyAll (List.range 48) (fun k n => if b.lowered k then 0 else min 6 (n + 1)) })

/-- A child whose lowered level has stood unacknowledged for 4 package periods: counted at what may still be in force from now
on, with a contained fault (R49). -/
def quietChildren (s : State) : State :=
  ((List.range 48).filter (fun k => s.hub.budget.lowAge.get k == 5)).foldl (fun a _ => a.raise 206 0) s

/-- READ_IOUT in 0.25 A, saturated in 16 bits (R4, R6, R507). -/
def arrayAmps (x : ArrayRead) : Nat := min 65535 (linear11 4 x.iout).toNat

/-- REGULATOR_CEILING (R195) and DIGITISER_GAIN_CORRECTION (R91) of one region, with the readback export of R144; whether
the gain's limit has been reached. -/
def arrayPeriod (regMax : Nat) (x : ArrayRead) (g : Region) : Region × Bool :=
  let t := temp16 (linear11 8 x.temp)
  let n := g.therm.derate16
  let n' := if (8 * regMax : Nat) ≤ t then min 8 (n + 1) else if t ≤ (8 * (regMax - 10) : Nat) then n - 1 else n
  let mean := if g.dig.pkgCnt = 0 then 0 else g.dig.pkgSum / g.dig.pkgCnt
  let step : Int := if mean = 0 then 0
    else min 1000 (max (-1000) ((((arrayAmps x : Int) - mean) * 1000000) / mean))
  let gain := min 50000 (max (-50000) (g.dig.gainPpm + step))
  ({ g with
     therm := { g.therm with derate16 := n', regTemp := t }
     dig := { g.dig with gainPpm := gain } },
    decide (gain.natAbs = 50000 ∧ g.dig.gainPpm.natAbs ≠ 50000))

/-- The regions of the PMBus master in corner `c` (R21). -/
def quadrant (c : Nat) : List Nat := (List.range 64).filter (fun r => r / 32 == c / 32 && r % 8 / 4 == c % 8 / 4)

/-- The readbacks of the arrays that answered, each of three reads of its master (R85, R91, R144, R195, R507); a master that answers for none of its regions has a
governor that does not respond (R22). -/
def readArrays (arrays : List (Option ArrayRead)) (s : State) : State :=
  let t := (List.range (min 64 arrays.length)).foldl (fun (a : State) r =>
    match arrays.getD r none with
    | none => a
    | some x =>
      let a := a.transactAll r false [.read 0x8B, .read 0x8C, .read 0x8D]
      let (g, lim) := arrayPeriod (a.cfg (offTherm 3) 16 8) x (a.region r)
      let mv := if g.spec.state = .standing then g.spec.s else 0
      let t := (a.modRegion r (fun _ => g)).modGov r (fun v => { v with
        vout := ulinear16 v.voutMode x.vout - mv, iout := adjusted (arrayAmps x) g.sp.vc mv })
      if lim then t.raiseRoll r 1 6 else t) s
  pmbusCorners.foldl (fun (a : State) c =>
    if (quadrant c).any (fun r => (arrays.getD r none).isSome) then
      a.modBudget (fun b => { b with mute := b.mute.filter (fun k => k != c) })
    else governorGone c a) t

/-- A SHORTFALL record (R312, R529). -/
def shortfall (level kind index pending cause : Nat) (s : State) : State :=
  s.telemetry 0x11 (if kind = 3 ∧ level = 2 then index else if kind = 4 then regionOf index else 0xFF)
    (leBytes 1 level ++ leBytes 1 kind ++ leBytes 2 index ++ leBytes 4 pending ++ leBytes 1 cause)

/-- res[c] less the share that a host ceiling or a group code holds off (R240, R529). -/
def heldOff (k : Coefs) (vc : Nat) (u : Cluster) : Nat :=
  if u.phases.isNone then 0
  else
    let h := match u.ctl.hostCeil with | some h => u.ctl.res - h | none => 0
    let a := if u.feature.aPrev = 0 then k.aMax else u.feature.aPrev
    let c := if u.grpCode < u.grpFloor then u.ctl.res - k.q vc u.feature.vPrev a u.grpCode else 0
    max h c

/-- BUDGET_SHORTFALL (R52, R529). -/
def shortfalls (s : State) : State :=
  let b := s.hub.budget
  let t := (List.range 64).foldl (fun (a : State) r =>
    let lo := s.lo r
    let i := (s.region r).therm.iTh
    let m := match b.regCeil.get r with | some h => min i h | none => i
    if m < lo then shortfall 2 3 r (lo - m) 0 a else a) s
  let t := (List.range 64).foldl (fun (a : State) r =>
    let g := s.region r
    ((g.clusters.listed 576)).foldl (fun (a : State) p =>
      let x := heldOff (s.coefs r) g.sp.vc p.2
      if 0 < x then shortfall 1 4 (576 * r + p.1) x 0 a else a) a) t
  let t := if 0 < b.pendPkg then shortfall 5 0 0 b.pendPkg 0 t else t
  if 0 < b.pendWaf then shortfall 3 3 0 b.pendWaf 1 t else t

/-- The PACKAGE record (R312). -/
def packageRecord (s : State) : State :=
  let b := s.hub.budget
  s.telemetry 5 0xFF (leBytes 4 b.pPkg ++ leBytes 4 b.pWaf ++ leBytes 4 s.pFloor ++
    leBytes 2 (b.lStack.map stackW).sum ++ leBytes 2 (b.lOpt.map optW4).sum ++ tempBytes s.hub.coolant.inlet.temp ++
    tempBytes s.hub.coolant.outlet.temp ++ leBytes 4 b.iAvail ++
    leBytes 8 ((List.range 64).map (fun r => (s.region r).dig.energyUj.toNat)).sum)

/-- The supervisor's run at a package boundary (R192–R197). -/
def hubPackage (arrays : List (Option ArrayRead)) (s : State) : State :=
  let s := readArrays arrays s
  let before := s.hub.budget
  settleCaps (packageRecord (shortfalls (quietChildren (sendLevels before (dividePackage (packageItems s))))))

/-- PACKAGE_PERIOD (R192, R504); the sum channel's means start anew for the next comparison (R91). With the clocks stopped there
is none. -/
def packagePeriod (arrays : List (Option ArrayRead)) (s : State) : State :=
  if s.clk.st = .stopped then s
  else
    let t := if s.loopRuns then hubPackage arrays s else s
    let t := t.modRegions (fun g => g.modDig (fun d => { d with pkgSum := 0, pkgCnt := 0 }))
    (List.range 64).foldl (fun (a : State) r => a.emitRead r false) t

def execPackagePeriod (arrays : List (Option ArrayRead)) (s : State) : Host.Outcome State Fault Refusal :=
  .next (journaled (packagePeriod arrays) s)

/-- The number of a child among stacks 0–15 and engines 16–47. -/
def childNo : Child → Nat
  | .stack n => n.val
  | .optic n => 16 + n.val

/-- CHILD_ACK_TIMEOUT (R197): two package periods without acknowledgement. -/
def childTimeout (ch : Child) (s : State) : State :=
  let k := childNo ch
  let n := s.hub.budget.unack.get k
  if s.inControl ∧ 3 ≤ n ∧ n < 16 then
    (s.modBudget (fun b => { b with
      unack := b.unack.set k (n + 16)
      childFail := b.childFail.set k 10
      tStack := if k < 16 then b.tStack.set k 6 else b.tStack
      uOpt := if 16 ≤ k then b.uOpt.set (k - 16) 3 else b.uOpt })).raise 207 0
  else s

def execChildAckTimeout (ch : Child) (s : State) : Host.Outcome State Fault Refusal :=
  .next (journaled (childTimeout ch) s)

/-! ### The hardware trip -/

/-- The latch sets (R198, R199, R202): E = 0 at every limiter, the pre-raise ends, the region's grants are revoked, rounds
before their accepting completion are abandoned. -/
def tripLatch (r : Nat) (s : State) : State :=
  let g := s.region r
  if g.therm.latch then s
  else
    let t := s.modRegion r (fun g => ({ g.modClusters (Cluster.mapLimiters (Limiter.applyForce true false false)) with
      therm := { g.therm with latch := true, seen := false, tripCnt := satAdd 0xFFFF g.therm.tripCnt 1 } }.voidPeriod).stick 4)
    let t := (t.abandonNow r).holdRoll r 0 1 true
    revokeRegion r (abandonRounds r 0x50 t)

/-- TRIP_COMPARATOR_ASSERT (R73, R198). -/
def tripAssert (r k : Nat) (s : State) : State :=
  let was := s.thermLow
  let t := s.modRegion r (fun g => { g with therm := { g.therm with comps := g.therm.comps ||| BitVec.ofNat 8 (2 ^ k) } })
  thermPins was (tripLatch r t)

def execTripComparatorAssert (r : RegionId) (k : Fin 8) (s : State) : Host.Outcome State Fault Refusal :=
  .next (journaled (tripAssert r k) s)

/-- TRIP_COMPARATOR_RELEASE (R73): the comparator alone; the latch stays (R198). -/
def execTripComparatorRelease (r : RegionId) (k : Fin 8) (s : State) : Host.Outcome State Fault Refusal :=
  .next (s.modRegion r (fun g => { g with therm := { g.therm with comps := g.therm.comps &&& ~~~(BitVec.ofNat 8 (2 ^ k.val)) } }))

end Sys2Proof.Machine
end

