-- ==== Sys2Proof/Machine/Margin.lean ====
section
/-!
DEFINITION. Margin recovery (R209–R216), ageing trims and their images (R217–R223), spare phases, derating and the PMBus
masters (R21, R224–R226, R506, R507), the regulator alert (R171, R509).
-/

namespace Sys2Proof.Machine

/-! ### Readings of the ageing monitors -/

/-- An ageing reading at one cluster (R78, R87): the last VALID reading stays beside the status of one that is not. -/
def Cluster.readAge (x : Nat × Status) (u : Cluster) : Cluster :=
  if x.2 = .valid then { u with ageTaps := min 64 x.1, ageStatus := .valid } else { u with ageStatus := x.2 }

/-- Every live cluster of region `r` is read; a region with a reading that is not VALID raises its corrected fault (R87). -/
def readAges (taps : AgeReads) (r : Nat) (s : State) : State :=
  let t := s.modRegion r (fun g => { g with clusters := g.clusters.mapBy 576 (fun c u =>
    if u.ctl.spared then u else u.readAge (taps.get (576 * r + c))) })
  if (t.region r).clusters.any 576 (fun u => !u.ctl.spared && decide (u.ageStatus ≠ .valid)) then
    (t.modRegion r (Region.stick 3)).raiseRoll r 1 4
  else t

/-- The least VALID reading of a region's live clusters. -/
def Region.leastSlack (g : Region) : Option Nat :=
  ((g.clusters.values 0 576).filterMap (fun u =>
    if u.ctl.spared ∨ u.ageStatus ≠ .valid then none else some u.ageTaps)).foldl
    (fun acc x => some (match acc with | some y => min x y | none => x)) none

/-! ### Trims -/

/-- A new TRIM_STATE (R215, R218, R406): leaving APPLIED returns the margin; TRIM is held while LIMIT or EXHAUSTED. -/
def setTrimState (r : Nat) (x : TrimState) (s : State) : State :=
  let old := (s.region r).margin.state
  let t := s.modRegion r (fun g =>
    let g := { g with margin := { g.margin with
      state := x, goStatic := g.margin.goStatic || (decide (old = .applied) && decide (x ≠ .applied)) } }
    if x = .applied then g else g.stick 1)
  t.holdRoll r 1 5 (decide (x = .limit ∨ x = .exhausted))

/-- t[c] of R217 in mV, from the as-made slack and the reading. -/
def trimOf (tapMv roKv ref : Nat) (u : Cluster) : Nat :=
  if u.ctl.spared ∨ u.ageStatus ≠ .valid then 0
  else
    let loss := if ref = 0xFF then 0 else ref - u.ageTaps
    max (ceilDiv (loss * tapMv) 4) (ceilDiv (u.tp.drift.toNat * roKv) 16)

/-- TRIM_RECOMPUTE of one region (R217, R218). -/
def recomputeTrim (r : Nat) (s : State) : State :=
  let g := s.region r
  let tap := s.cfg 0x6004 0 8
  let ro := s.cfg 0x6004 8 8
  let top := s.cfg 0x6000 24 7
  let ref := s.hub.ageing.refSlack
  let need := (List.range 576).foldl (fun (acc : Nat) c => max acc (trimOf tap ro (ref.get (576 * r + c)) (g.clusters.get c))) g.sp.trim
  if top < need then
    setTrimState r .limit (s.modRegion r (fun g => g.modSp (fun p => { p with trim := max p.trim top })))
  else
    let t := s.modRegion r (fun g => g.modSp (fun p => { p with trim := need }))
    if g.margin.state = .limit then setTrimState r .applied t else t

/-- EXHAUSTED (R216): a VALID reading of 0 taps at a live cluster brings the static margin, the contained fault and a recompute
at once; whether that recompute raises TRIM is kept while EXHAUSTED lasts. -/
def exhaust (r : Nat) (s : State) : State :=
  let before := (s.region r).margin
  let t := setTrimState r .exhausted (s.modRegion r (fun g => { g with margin := { g.margin with goStatic := true } }))
  let t' := recomputeTrim r t
  t'.modRegion r (fun g => { g with margin := { g.margin with
    raised := decide (g.margin.state = .exhausted) &&
      ((decide (before.state = .exhausted) && before.raised) || decide ((t.region r).sp.trim < g.sp.trim)) } })

/-- A trim image (R220). -/
def trimImage (s : State) : List Byte :=
  let a := s.hub.ageing
  let head := leBytes 4 0x5452494D ++ leBytes 2 1 ++ zeros 2 ++ leBytes 8 Config.waferId.toNat ++
    leBytes 8 a.poweredS.toNat ++ leBytes 4 a.intervals.toNat
  let rest := zeros 32 ++ (List.range 64).flatMap (fun r => leBytes 1 (s.region r).sp.trim) ++
    (List.range 36864).flatMap (fun c => leBytes 1 (a.refSlack.get c))
  head ++ leBytes 4 (crc32 (head ++ rest)) ++ rest

/-- TRIM_EXPORT (R223): the image, then the record. -/
def exportTrims (s : State) : State :=
  let a := s.hub.ageing
  let t := if a.exportTo = 0 then s else s.hubEmit (.imageWrite a.exportTo (trimImage s))
  t.telemetry 0x13 0xFF (leBytes 4 a.intervals.toNat ++ leBytes 1 (bitNat (a.exportTo != 0)))

/-- TRIM_STATE leaves EXHAUSTED (R216): the recompute raised TRIM, and every live cluster now reads SLACK_MIN or more. -/
def leaveExhausted (r : Nat) (s : State) : State :=
  let g := s.region r
  if g.margin.state = .exhausted ∧ g.margin.raised ∧ s.cfg 0x6000 16 4 ≤ g.leastSlack.getD 0 ∧
      g.clusters.any 576 (fun u => !u.ctl.spared && decide (u.ageStatus ≠ .valid)) = false then
    setTrimState r .applied (s.modRegion r (fun g => { g with margin := { g.margin with raised := false } }))
  else s

/-- The engine clock of every region runs (R219). -/
def State.enginesRun (s : State) : Bool := (List.range 64).all (fun r => (s.gov r).engine)

/-- One region's recompute from readings just taken (R78, R216, R217). -/
def recomputeRead (taps : AgeReads) (r : Nat) (s : State) : State :=
  let t := readAges taps r s
  if (t.region r).leastSlack = some 0 then exhaust r t else leaveExhausted r (recomputeTrim r t)

/-- AGEING_INTERVAL (R78, R219): every 24 h of powered time; not while an engine clock is stopped. -/
def ageingInterval (taps : AgeReads) (s : State) : State :=
  if s.loopRuns = false ∨ s.enginesRun = false ∨ s.hub.ageing.poweredS.toNat < s.hub.ageing.nextAt then s
  else
    let t := (List.range 64).foldl (fun a r => recomputeRead taps r a) s
    exportTrims (t.modAgeing (fun a => { a with intervals := a.intervals + 1, nextAt := a.nextAt + 86400 }))

def execAgeingInterval (taps : AgeReads) (s : State) : Host.Outcome State Fault Refusal :=
  .next (journaled (ageingInterval taps) s)

/-- The recomputes of the regions `rs` that their engine clock allows now; the others wait (R218, R219). -/
def recomputeNow (taps : AgeReads) (rs : List Nat) (s : State) : State :=
  let now := rs.filter (fun r => (s.gov r).engine)
  let t := s.modAgeing (fun a => { a with waiting := rs.filter (fun r => !(s.gov r).engine) })
  if now = [] then t else exportTrims (now.foldl (fun a r => recomputeRead taps r a) t)

/-- A raise of TRIM_MAX starts a recompute of every region in LIMIT (R218). -/
def trimMaxRaised (before : Nat) (taps : AgeReads) (s : State) : State :=
  let rs := (List.range 64).filter (fun r => decide ((s.region r).margin.state = .limit))
  if s.cfg 0x6000 24 7 ≤ before ∨ rs = [] then s else recomputeNow taps rs s

/-- WAFER_PERIOD: the hub's part, then the recomputes that waited for an engine clock (R219). -/
def execWaferPeriod (reads : PackageReads) (s : State) : Host.Outcome State Fault Refusal :=
  .next (journaled (fun s =>
    let t := waferPeriod reads s
    if t.hub.ageing.waiting = [] ∨ t.inControl = false then t else recomputeNow reads.ages t.hub.ageing.waiting t) s)

/-! ### Margin evaluation -/

/-- What a cluster is excluded from margin recovery for (R87). -/
def Cluster.excluded (u : Cluster) : Bool :=
  !u.ctl.spared && (decide (u.dill.status ≠ .valid) || u.dill.recovering || decide (u.ageStatus ≠ .valid))

/-- The conditions of R213 that hold now, as flags. -/
def State.blockNow (s : State) (r : Nat) : Nat :=
  let g := s.region r
  bitNat (!g.trust.trusted) + 2 * bitNat (decide (g.margin.state ≠ .applied)) +
    8 * bitNat (decide (0 < g.badMonitors) || g.clusters.any 576 Cluster.excluded) +
    16 * bitNat (decide (g.spec.state = .demoted) || g.spec.demote || s.emergencyAt r || (s.gov r).safe ||
      g.clusters.any 576 (fun u => u.dill.asserted && !u.ctl.spared)) +
    32 * bitNat (s.coasting || !(s.gov r).engine) + 64 * bitNat g.ph.swap

/-- The new m of R212 and R214 from the least slack, and whether the reading was short of SLACK_MIN. -/
def marginStep (sMin m slackMin tapMv marginMin : Nat) (whole : Bool) : Nat × Bool :=
  if sMin < slackMin then (min 60 (m + ceilDiv ((slackMin - sMin) * tapMv) 4), true)
  else if marginMin < m ∧ whole then (m - 1, false)
  else (m, false)

/-- One region's evaluation (R212–R216). Conditions that still hold keep their flags; before the first evaluation after a reset
no flag stands that has not arisen since: DESIGN CHOICE, notes/assumptions/70.md. -/
def evaluateMargin (taps : AgeReads) (r : Nat) (s : State) : State :=
  let now := BitVec.ofNat 7 (s.blockNow r)
  let block := (s.region r).margin.sticky ||| now
  let s := s.modRegion r (fun g => { g with margin := { g.margin with block := block, sticky := now } })
  if block ≠ 0 then s
  else
    let s := readAges taps r s
    let g := s.region r
    match g.leastSlack with
    | none => s
    | some 0 => exportTrims (exhaust r s)
    | some k =>
      let m := g.sp.m
      let whole := !(g.clusters.any 576 Cluster.excluded)
      let (m', short) := marginStep k m (s.cfg 0x6000 16 4) (s.cfg 0x6004 0 8) (s.cfg 0x6000 0 8) whole
      let t := if m' = m then s
        else (s.modRegion r (fun g => { g with margin := { g.margin with newM := some m' } })).hubSend (.margin r m')
      if short ∧ m < m' then t.raiseRoll r 1 4 else t

/-- MARGIN_EVALUATION (R212): every MARGIN_PERIODS wafer periods. -/
def marginEvaluation (taps : AgeReads) (s : State) : State :=
  if s.loopRuns = false ∨ s.hub.ageing.evalRun < s.cfg 0x6000 8 8 then s
  else (List.range 64).foldl (fun a r => evaluateMargin taps r a)
    (s.modAgeing (fun a => { a with evalRun := 0 }))

def execMarginEvaluation (taps : AgeReads) (s : State) : Host.Outcome State Fault Refusal :=
  .next (journaled (marginEvaluation taps) s)

/-- The governor's margin at a boundary (R209, R210, R212, R215): a return to the static margin, else the m that the hub sent,
never below the MARGIN_MIN in force, `least`. -/
def marginAtBoundary (least : Nat) (g : Region) : Region :=
  let m := if g.margin.goStatic then 60 else max least (g.margin.newM.getD g.sp.m)
  { g.modSp (Setpoint.setM m) with margin := { g.margin with goStatic := false, newM := none } }

/-! ### Trim loads -/

/-- Checks 1 and 3 to 5 of R221; its length is checked with the entry. -/
def trimImageOk (top : Nat) (b : List Byte) : Bool :=
  leAt b 0 4 == 0x5452494D && leAt b 4 2 == 1 && b.length == 36992 &&
    leAt b 0x1C 4 == crc32 (b.take 0x1C ++ b.drop 0x20) && leAt b 8 8 == Config.waferId.toNat &&
    zeroIn b 6 2 && zeroIn b 0x20 32 && ((b.drop 0x40).take 64).all (fun x => decide (x.toNat ≤ top)) &&
    (b.drop 0x80).all (fun x => decide (x.toNat ≤ 64) || x == 0xFF)

/-- REF_SLACK of an image. -/
def slackCells (b : List Byte) : SMap Nat :=
  ⟨0xFF, (List.range 36864).filterMap (fun c => let x := byteAt b (0x80 + c); if x = 0xFF then none else some (c, x))⟩

/-- The next multiple of 86,400 s after a count. -/
def nextInterval (t : Nat) : Nat := (t / 86400 + 1) * 86400

/-- The multiples of 86,400 s that the count has reached and whose recompute still waits (R219). -/
def Ageing.owed (a : Ageing) : Nat := (a.poweredS.toNat + 86400 - a.nextAt) / 86400

/-- A rejected trim load, whose detail no rule states. -/
def rejectTrim (t : Taken) (s : State) : State :=
  (s.complete t.cmd codeBadArg (Config.freeValue s.fresh % 256)).nextFree

/-- The export address of an accepted load replaces any earlier one (R304). -/
def State.exportAt (s : State) (t : Taken) : State := s.modAgeing (fun a => { a with exportTo := leAt t.entry 0x20 8 })

/-- AGEING_TRIM (R221). -/
def loadTrims (t : Taken) (s : State) : State :=
  let b := t.body
  if trimImageOk (s.cfg 0x6000 24 7) b = false then rejectTrim t s
  else
    let u := (List.range 64).foldl (fun (a : State) r =>
      let a := a.modRegion r (fun g => g.modSp (fun p => { p with trim := max p.trim (byteAt b (0x40 + r)) }))
      if (a.region r).margin.state = .none then setTrimState r .applied a else a) s
    let p := max u.hub.ageing.poweredS.toNat (leAt b 0x10 8)
    ((u.exportAt t).modAgeing (fun a => { a with
      poweredS := BitVec.ofNat 64 p
      nextAt := nextInterval p - 86400 * a.owed
      refSlack := slackCells b })).complete t.cmd codeOk 0

def isTrim (t : Taken) : Bool := byteAt t.entry 8 == policyTrim

def execAgeingTrim (s : State) : Host.Outcome State Fault Refusal :=
  .next (journaled (runTaken opPolicySet (fun t => isTrim t && leAt t.entry 0x18 4 != 0) loadTrims) s)

/-- AGEING_TRIM of length 0 (R222): the wafer is new. A reading of 0 taps is stored like any other and exhausts nothing:
DESIGN CHOICE, notes/assumptions/71.md. -/
def newWafer (taps : SMap Nat) (t : Taken) (s : State) : State :=
  if (List.range 64).any (fun r => decide ((s.region r).margin.state ≠ .none)) ∨ s.enginesRun = false then rejectTrim t s
  else
    let u := (List.range 64).foldl (fun (a : State) r =>
      setTrimState r .applied (a.modRegion r (fun g => g.modSp (fun p => { p with trim := 0 })))) s
    let slack : List (Nat × Nat) := (List.range 36864).filterMap (fun c =>
      if (s.cluster c).ctl.spared then none else some (c, min 64 (taps.get c)))
    let u := (u.exportAt t).modAgeing (fun a => { a with
      poweredS := 0, subUs := 0, nextAt := 86400, refSlack := ⟨0xFF, slack⟩ })
    (u.record 0x30 3 0 u.ownerNode 0).complete t.cmd codeOk 0

def execAgeingTrimNewWafer (taps : SMap Nat) (s : State) : Host.Outcome State Fault Refusal :=
  .next (journaled (runTaken opPolicySet (fun t => isTrim t && leAt t.entry 0x18 4 == 0) (newWafer taps)) s)

/-! ### Phases -/

def State.modPh (s : State) (r : Nat) (f : Phases → Phases) : State := s.modRegion r (fun g => { g with ph := f g.ph })

def phaseBitOf (k : Nat) : BitVec 24 := BitVec.ofNat 24 (2 ^ k)

/-- The lowest-numbered spare. -/
def Phases.lowestSpare (p : Phases) : Option Nat := (onesOf 24 p.spares.toNat).head?

/-- PHASE_SWAP (R224): the spare is enabled, the failed phase disabled and retired. A PMBus transaction that fails twice
raises PMBUS (R506) and abandons the swap: the phase counts as retired and h falls at the next boundary (R515). -/
def phaseSwap (r k : Nat) (failed : Bool) (s : State) : State :=
  let p := (s.region r).ph
  match p.lowestSpare with
  | none => if k ∈ p.failed ∧ s.inControl then s.modPh r (fun p => { p with
      failed := p.failed.erase k, swap := decide (p.failed.erase k ≠ []), derateDue := p.derateDue ++ [k] }) else s
  | some j =>
    if k ∉ p.failed ∨ s.inControl = false then s
    else if failed then (s.modPh r (fun p => { p with
      failed := p.failed.erase k, swap := decide (p.failed.erase k ≠ []), derateDue := p.derateDue ++ [k] })).raiseRoll r 1 8
    else
      let t := s.modPh r (fun p => { p with
        active := (p.active &&& ~~~(phaseBitOf k)) ||| phaseBitOf j
        healthy := (p.healthy &&& ~~~(phaseBitOf k)) ||| phaseBitOf j
        spares := p.spares &&& ~~~(phaseBitOf j)
        retired := p.retired ||| phaseBitOf k
        failed := p.failed.erase k
        swap := decide (p.failed.erase k ≠ []) })
      (t.modRegion r restartRotation).hubSend (.pmbus r (.swap (Fin.ofNat 24 j) (Fin.ofNat 24 k)))

def execPhaseSwap (r : RegionId) (phase : Fin 24) (failed : Bool) (s : State) : Host.Outcome State Fault Refusal :=
  .next (journaled (phaseSwap r phase failed) s)

/-- PHASE_RESTORE (R225, R304): the watch counts 16 whole rotations. -/
def restorePhase (t : Taken) (s : State) : State :=
  let r := byteAt t.entry 0x0C
  let k := byteAt t.entry 0x0D
  if 63 < r ∨ 23 < k ∨ (s.region r).ph.retired &&& phaseBitOf k = 0 then s.complete t.cmd codeBadArg 0x81
  else (((s.modPh r (fun p => { p with active := p.active ||| phaseBitOf k, watch := some (k, 16, false) })).modRegion r
    restartRotation).hubSend
    (.pmbus r (.phaseEnable (Fin.ofNat 24 k)))).complete t.cmd codeOk 0

/-- A region watches one phase at a time. -/
def restoreFree (s : State) (t : Taken) : Bool :=
  !isTrim t && (s.region (byteAt t.entry 0x0C % 64)).ph.watch.isNone

def execPhaseRestore (s : State) : Host.Outcome State Fault Refusal :=
  .next (journaled (runTaken opPolicySet (restoreFree s) restorePhase) s)

/-- PHASE_WATCH_END (R225), by the hub in control, which commands the PMBus master (R18, R21). -/
def watchEnd (r : Nat) (s : State) : State :=
  match (if s.inControl then (s.region r).ph.watch else none) with
  | none => s
  | some (k, n, bad) =>
    let m := phaseBitOf k
    if bad then
      (s.modPh r (fun p => { p with active := p.active &&& ~~~m, watch := none })).hubSend
        (.pmbus r (.phaseDisable (Fin.ofNat 24 k)))
    else if n ≠ 0 then s
    else if 22 ≤ (s.region r).ph.h then
      (s.modPh r (fun p => { p with
        active := p.active &&& ~~~m, retired := p.retired &&& ~~~m, spares := p.spares ||| m, watch := none })).hubSend
        (.pmbus r (.phaseDisable (Fin.ofNat 24 k)))
    else s.modPh r (fun p => { p with rated := min p.rated p.h, healthy := p.healthy ||| m, retired := p.retired &&& ~~~m, watch := none })

def execPhaseWatchEnd (r : RegionId) (s : State) : Host.Outcome State Fault Refusal :=
  .next (journaled (watchEnd r) s)

/-- The PMBus commands that a boundary brings leave once a hub owns (R18): derated phases disabled, VOUT_MAX written after a
change of GRID_MAX (R507). -/
def pmbusAtBoundary (r : Nat) (s : State) : State :=
  if s.owner.isNone then s
  else
    let due := (s.region r).ph.offDue
    let t := if due = [] then s else due.foldl (fun (a : State) k => a.hubSend (.pmbus r (.phaseDisable (Fin.ofNat 24 k))))
      (s.modPh r (fun p => { p with offDue := [] }))
    if (t.gov r).voutDue then
      (t.modGov r (fun v => { v with voutDue := false })).hubSend (.pmbus r (.writeVoutMax (850 + t.cfg (offAct r 2) 16 6)))
    else t

/-- DERATE (R56, R226, R227) at the control-period boundary: h falls by one for each failed phase, the cap falls to the new
rating ceiling, and Thyme's settlement is due. -/
def derateAtBoundary (r : Nat) (s : State) : State :=
  let due := (s.region r).ph.derateDue
  if due = [] then s
  else
    let m := due.foldl (fun (acc : BitVec 24) k => acc ||| phaseBitOf k) 0
    let t := s.modRegion r (fun g =>
      let ph := { g.ph with
        active := g.ph.active &&& ~~~m
        healthy := g.ph.healthy &&& ~~~m
        retired := g.ph.retired ||| m
        derateDue := []
        offDue := g.ph.offDue ++ due
        derateCnt := satAdd 0xFF g.ph.derateCnt due.length
        unsettled := true }
      let i := min g.caps.iReg ph.rating
      ({ restartRotation g with ph := ph, caps := { g.caps.setCap i g.caps.calm with lastAck := min g.caps.lastAck i } }).stick 4)
    let t := abandonRounds r 0x52 ((t.raiseRoll r 1 1).abandonNow r)
    if (t.region r).caps.iReg < (t.region r).resTotal then suspendTimers r t else t

/-- SMBALERT (R224, R506): the master reads the Alert Response Address and then STATUS_WORD of the array that answers, and
clears its faults; the phases that it reports leave service. -/
def smbAlert (r : Nat) (bad : BitVec 24) (failed : Bool) (s : State) : State :=
  let t := s.transactAll r failed [.alertResponse, .read 0x79, .send 0x03]
  if failed then t.raiseRoll r 1 8 else (onesOf 24 bad.toNat).foldl (fun a k => phaseFails r k a) t

def execSmbalert (r : RegionId) (badPhases : BitVec 24) (failed : Bool) (s : State) :
    Host.Outcome State Fault Refusal := .next (journaled (smbAlert r badPhases failed) s)

/-! ### The regulator alert -/

/-- HOLD at the region for the alert in force, with the cause that it holds (R171, R406). -/
def assertHold (r : Nat) (s : State) : State :=
  let t := s.modRegion r (fun g =>
    (({ g with caps := { g.caps with alertGone := false, holdRegion := true } }).voidPeriod).stick 4)
  (t.holdRoll r 1 2 true).sendWord r (regionWord 3 0 0 true)

/-- REG_ALERT_ASSERT (R56, R139, R171, R509): the alert is in force, and the governor asserts HOLD at the region. -/
def alertOn (r : Nat) (s : State) : State :=
  if (s.region r).caps.alert then s
  else assertHold r ((s.modRegion r (fun g => { g with caps := { g.caps with alert := true } })).abandonNow r)

def execRegAlertAssert (r : RegionId) (s : State) : Host.Outcome State Fault Refusal := .next (alertOn r s)

/-- REG_ALERT_CLEAR (R171, R509): HOLD is released at the next control-period boundary. -/
def alertOff (r : Nat) (s : State) : State :=
  if (s.region r).caps.alert then
    (s.modRegion r (fun g => { g with caps := { g.caps with alert := false, alertGone := true } })).holdRoll r 1 2 false
  else s

def execRegAlertClear (r : RegionId) (s : State) : Host.Outcome State Fault Refusal := .next (alertOff r s)

/-- HOLD is released at the boundary after its cause cleared (R171): the region's for the alert, a cluster's for its
Dill. While one cause holds a limiter the other's release leaves it held. -/
def releaseHolds (r : Nat) (s : State) : State :=
  let g := s.region r
  let ended := (List.range 576).filter (fun c =>
    let d := (g.clusters.get c).dill
    d.holding && decide (d.status = .valid) && !d.recovering)
  let t := s.modRegion r (fun g => { g with
    clusters := g.clusters.modifyAll ended (fun _ u => { u with dill := { u.dill with holding := false } }) })
  if g.caps.alertGone then
    let t := (t.modRegion r (fun g => { g with caps := { g.caps with alertGone := false, holdRegion := false } })).sendWord r
      (regionWord 3 0 0 false)
    ((List.range 576).filter (fun c => ((t.region r).clusters.get c).dill.holding)).foldl
      (fun a c => a.sendWord r (clusterWord c 3 0 0 true)) t
  else if g.caps.holdRegion then t
  else ended.foldl (fun a c => a.sendWord r (clusterWord c 3 0 0 false)) t

end Sys2Proof.Machine
end

