-- ==== Sys2Proof/Machine/Tick.lean ====
section
/-!
DEFINITION. The tick: Dill counts passed to the governor (R68), recovery pacing (R172), the step tap's counts (R281, R347),
stall-suspect reports (R347–R349).
-/

namespace Sys2Proof.Machine

/-- What holds a cluster in the tick just ended: DROOP, HOLD, TRIP or SAFE of its status word, or C_cl below its group code
(R159, R281). -/
def State.heldAt (s : State) (c : Nat) : Bool :=
  s.statusBit c 7 || s.statusBit c 8 || s.statusBit c 9 || s.statusBit c 10 ||
    decide ((s.cluster c).ctl.ceil < (s.cluster c).groupCode)

/-- The step tap of one cluster over a tick (R281, R347, R348). -/
def StepTap.tick (held : Bool) (limit : Nat) (x : TickTap) (t : StepTap) : StepTap :=
  let susp := !t.arrived && !x.arrived && !x.issued && x.stalled && !held
  { t with
    arrived := t.arrived || x.arrived
    ticks := satAdd 0xFFFFFFFF t.ticks 1
    waits := if t.arrived || x.arrived then satAdd 0xFFFFFFFF t.waits 1 else t.waits
    held := if !(t.arrived || x.arrived) && held then satAdd 0xFFFFFFFF t.held 1 else t.held
    suspTicks := if susp then satAdd limit t.suspTicks 1 else 0
    clearDue := t.clearDue || (t.suspect && x.issued) }

/-- One cluster at a tick: its tap, and Dill's counts cleared once passed on (R68). -/
def Cluster.tick (held : Bool) (limit : Nat) (x : TickTap) (u : Cluster) : Cluster :=
  { u with tap := u.tap.tick held limit x, dill := { u.dill with tripCnt := 0, warnCnt := 0 } }

/-- RECOVERY_PACING of one row (R172). -/
def paceRow (r : Nat) (warned : Bool) (row : Nat) (s : State) : State :=
  let c := (s.region r).caps
  let setP (p : BitVec 24) : State := s.modRegion r (fun g => { g with caps := { g.caps with paused := p } })
  if warned then (setP (c.paused ||| BitVec.ofNat 24 (2 ^ row))).sendWord r (rowWord row 1 0 0)
  else if bitOf c.paused.toNat row then
    (setP (c.paused &&& ~~~(BitVec.ofNat 24 (2 ^ row)))).sendWord r (rowWord row 1 0 (s.cfg (offAct r 0) 16 3))
  else s

/-- One region at a tick. Counts of a spared-out cluster's Dill are ignored (R33). -/
def tickRegion (taps : SMap TickTap) (s : State) (r : Nat) : State :=
  let m := (s.region r).clusters
  let trips := m.sum 576 (fun u => if u.ctl.spared then 0 else u.dill.tripCnt)
  let warned (row : Nat) : Bool := 0 < m.sumRange (24 * row) (24 * row + 24)
    (fun u => if u.ctl.spared then 0 else u.dill.warnCnt)
  let limit := s.cfg 0x9000 16 14
  let t := s.modRegion r (fun g =>
    let g := if 0 < trips then g.stick 2 else g
    { g with
      tripsNow := satAdd 0xFFFF g.tripsNow trips
      clusters := m.mapBy 576 (fun c u => u.tick (s.heldAt (576 * r + c)) limit (taps.get (576 * r + c))) })
  (List.range 24).foldl (fun a row => paceRow r (warned row) row a) t

/-- TICK_BOUNDARY (R68). -/
def tickAll (taps : SMap TickTap) (s : State) : State :=
  (List.range 64).foldl (tickRegion taps) { s with tick := s.tick + 1 }

def execTickBoundary (taps : SMap TickTap) (s : State) : Host.Outcome State Fault Refusal := .next (tickAll taps s)

/-- STALL_SUSPECT (R347, R348): the tap's report, the hub's set, the record. A report that finds no hub in control is lost for the
episode: DESIGN CHOICE, notes/assumptions/79.md. -/
def stallSuspect (c : Nat) (hdr : MsgHdr) (s : State) : State :=
  let t := (s.cluster c).tap
  if t.suspect ∨ t.suspTicks < s.cfg 0x9000 16 14 then s
  else
    let u := (s.modCluster c (fun u => { u with tap := { u.tap with suspect := true, clearDue := false } })).send (.stall c false)
    if u.inControl then
      hubAccept 0x50 hdr (fun v =>
        (v.modHub (fun h => { h with stalls := if c ∈ h.stalls then h.stalls else h.stalls ++ [c] })).record 0x28 1 0 c t.step) u
    else u

def execStallSuspect (rep : StallRep) (s : State) : Host.Outcome State Fault Refusal :=
  .next (journaled (stallSuspect rep.cluster rep.hdr) s)

/-- STALL_CLEAR (R348). -/
def stallClear (c : Nat) (hdr : MsgHdr) (s : State) : State :=
  let t := (s.cluster c).tap
  if t.suspect = true ∧ t.clearDue = true then
    let u := (s.modCluster c (fun u => { u with tap := { u.tap with suspect := false, clearDue := false } })).send (.stall c true)
    if u.inControl ∧ c ∈ u.hub.stalls then
      hubAccept 0x51 hdr (fun v =>
        (v.modHub (fun h => { h with stalls := h.stalls.filter (fun x => x != c) })).record 0x29 1 0 c t.step) u
    else u
  else s

def execStallClear (rep : StallRep) (s : State) : Host.Outcome State Fault Refusal :=
  .next (journaled (stallClear rep.cluster rep.hdr) s)

end Sys2Proof.Machine
end

