-- ==== Sys2Proof/Machine/Mailbox.lean ====
section
/-!
DEFINITION. Mailboxes (R330–R346, R350): the host mailbox and its messages, the Chive mailboxes and their messages,
multicasts; the spare-out of a cluster (R33, R35, R262, R345).
-/

namespace Sys2Proof.Machine

/-! ### Slots -/

/-- A slot becomes DONE with a code, a detail and a result (R334). -/
def Slot.ack (code detail : Nat) (result : Word) (x : Slot) : Slot :=
  { x with state := .done, code := BitVec.ofNat 8 code, detail := BitVec.ofNat 8 detail, result := result,
           seq := BitVec.ofNat 16 (leAt x.msg 2 2), cancel := false }

/-- A restart of the receiver: TAKEN slots return to POSTED with RETAKEN set (R333). -/
def Slot.retake (x : Slot) : Slot := if x.state = .taken then { x with state := .posted, retaken := true } else x

def Slot.msgCode (x : Slot) : Nat := byteAt x.msg 0

/-- The posted slot whose doorbell rang first, among those `p` names (R331). -/
def firstPosted (m : SMap Slot) (p : Nat → Slot → Bool) : Option Nat :=
  ((m.listed 32).filter (fun x => decide (x.2.state = .posted) && p x.1 x.2)).foldl
    (fun (acc : Option (Nat × Nat)) x => match acc with
      | some (_, t) => if x.2.turn < t then some (x.1, x.2.turn) else acc
      | none => some (x.1, x.2.turn)) none |>.map Prod.fst

/-! ### The host mailbox -/

/-- The hub core that serves a host mailbox slot (R336). -/
def servedBy (slot : Nat) : Nat := if slot < 16 then 1 else if slot < 24 then 2 else 0

def State.slot (s : State) (k : Nat) : Slot := s.hub.mb.slots.get k

def State.modSlot (s : State) (k : Nat) (f : Slot → Slot) : State :=
  s.modMb (fun m => { m with slots := m.slots.modify k f })

/-- Vector 11 while an unmasked DONE bit is set (R340). -/
def signalDone (k : Nat) (s : State) : State :=
  if (s.slot k).state = .done ∧ bitOf s.hub.mb.amask.toNat k = false then s.hubEmit (.msix 11) else s

/-- HMB_DOORBELL (R330, R338, R339, R453): the slot waits for its mirroring; a slot of the security core wakes it. -/
def mbDoorbell (k : Nat) (s : State) : State :=
  if s.pow.regOpen = false then s
  else if (s.slot k).state ≠ .empty then s.modMb (fun m => { m with wrErr := true })
  else (s.modSlot k (fun x => { x with state := .posted, mirrored := false, retaken := false, cancel := false, turn := s.hub.mb.turn })).modMb
    (fun m => { m with turn := m.turn + 1 })

/-- A doorbell with its wake. -/
def mbRing (k : Nat) (s : State) : State :=
  let t := bothHubs (mbDoorbell k) s
  if servedBy k = 0 ∧ (s.slot k).state = .empty ∧ s.pow.regOpen then t.wakeServer else t

def execHmbDoorbell (slot : SlotId) (s : State) : Host.Outcome State Fault Refusal :=
  .next (journaled (mbRing slot) s)

/-- HMB_CANCEL (R335): plain. -/
def mbCancel (k : Nat) (s : State) : State :=
  if s.pow.regOpen = false then s
  else match (s.slot k).state with
  | .posted => s.modSlot k (Slot.ack codeCancelled 0 0)
  | .taken => s.modSlot k (fun x => { x with cancel := true })
  | _ => s

/-- A cancel; the DONE that it leads to signals. -/
def cancelSlot (k : Nat) (s : State) : State :=
  let t := bothHubs (mbCancel k) s
  if (s.slot k).state = .done then t else signalDone k t

def execHmbCancel (slot : SlotId) (s : State) : Host.Outcome State Fault Refusal :=
  .next (journaled (cancelSlot slot) s)

/-- HMB_DONE_CLEAR (R340). -/
def mbDoneClear (k : Nat) (s : State) : State :=
  if s.pow.regOpen ∧ (s.slot k).state = .done then s.modSlot k (fun x => { x with state := .empty, retaken := false }) else s

def execHmbDoneClear (slot : SlotId) (s : State) : Host.Outcome State Fault Refusal :=
  .next (journaled (bothHubs (mbDoneClear slot)) s)

/-- HMB_MSG_WRITE (R338, R352). -/
def mbWrite (k w : Nat) (v : Word) (s : State) : State :=
  if s.pow.regOpen = false then s
  else if (s.slot k).state = .posted ∨ (s.slot k).state = .taken then s.modMb (fun m => { m with wrErr := true })
  else s.modSlot k (fun x => { x with msg := x.msg.take (4 * w) ++ leBytes 4 v.toNat ++ x.msg.drop (4 * w + 4) })

def execHmbMsgWrite (slot : SlotId) (w : Fin 4) (value : Word) (s : State) : Host.Outcome State Fault Refusal :=
  .next (journaled (bothHubs (mbWrite slot w value)) s)

/-- Doorbells take effect once mirrored, at the next control-period boundary (R339). -/
def mirrorSlots (s : State) : State :=
  if (s.hub.mb.slots.listed 32).any (fun x => decide (x.2.state = .posted) && !x.2.mirrored) then
    s.modMb (fun m => { m with slots := m.slots.mapAll (fun x => if x.state = .posted then { x with mirrored := true } else x) })
  else s

/-- MAILBOX_ACKNOWLEDGEMENT (R334, R340). -/
def mbAck (k code detail : Nat) (result : Word) (s : State) : State :=
  signalDone k (s.modSlot k (Slot.ack code detail result))

/-- A host mailbox message code is defined and its slot serves it (R334, R337). -/
def hostMsgDefined (code : Nat) : Bool := decide (1 ≤ code ∧ code ≤ 4)
def hostMsgServed (code k : Nat) : Bool :=
  match code with
  | 1 => true
  | 3 => decide (k < 16) || decide (24 ≤ k)
  | _ => decide (k < 16)

/-- A hub core takes its next slot (R331, R334). -/
def takeHostSlot (h : Hub) (core : Nat) (s : State) : State :=
  let st := (s.ownerCore core).state
  if s.owner ≠ some h ∨ s.inControl = false ∨ (st ≠ .running ∧ st ≠ .held) then s
  else match firstPosted s.hub.mb.slots (fun k x => servedBy k == core && x.mirrored) with
  | none => s
  | some k =>
    let c := (s.slot k).msgCode
    if hostMsgDefined c = false then mbAck k codeBadArg 0xE0 0 s
    else if hostMsgServed c k = false then mbAck k codeBadArg 0xE1 0 s
    else s.modSlot k (fun x => { x with state := .taken })

/-! ### Chive mailboxes -/

/-- The messages of R341. -/
def chiveMsgDefined (code : Nat) : Bool := decide (code ∈ [0x01, 0x10, 0x11, 0x12, 0x20])

def Cluster.slot (u : Cluster) (k : Nat) : Slot := u.slots.get k
def Cluster.modSlot (u : Cluster) (k : Nat) (f : Slot → Slot) : Cluster := { u with slots := u.slots.modify k f }

/-- A Chive acknowledges a slot; the acknowledgement leaves for the governor (R342). -/
def chiveAck (c k code detail : Nat) (result : Word) (s : State) : State :=
  (s.modCluster c (fun u => u.modSlot k (Slot.ack code detail result))).send (.chiveAck c k (BitVec.ofNat 8 code) result)

/-- The gate of a cluster's row is closed (R452). -/
def State.rowClosed (s : State) (c : Nat) : Bool := bitOf (s.gov (regionOf c)).gwClosed.toNat (localOf c / 24)

/-- A Chive control core takes its next slot (R331); asleep under the gate tree it is woken for it unless its row's gate is
closed (R350). A sweep suppresses the warn counts from its start (R92). -/
def takeChiveSlot (c : Nat) (s : State) : State :=
  let u := s.cluster c
  if u.core.state ≠ .running ∨ (u.gcClosed && s.rowClosed c) ∨ u.ctl.spared then s
  else match firstPosted u.slots (fun _ _ => true) with
  | none => s
  | some k =>
    let code := (u.slot k).msgCode
    let s := s.modCluster c (fun u => { u with gcClosed := false })
    if chiveMsgDefined code = false then chiveAck c k codeBadArg 0xE0 0 s
    else s.modCluster c (fun u => { u.modSlot k (fun x => { x with state := .taken }) with
      dill := { u.dill with sweeping := u.dill.sweeping || code == 0x11 } })

/-- SLOT_TAKE (R331). -/
def execSlotTake (core : CoreId) (s : State) : Host.Outcome State Fault Refusal :=
  .next (journaled (match core with
    | .hub h k => takeHostSlot h k
    | .chive c => takeChiveSlot c) s)

/-! ### Host messages -/

/-- A host message that its core has taken is acted on. -/
def hostMessage (code k : Nat) (f : State → State) (s : State) : State :=
  let st := (s.ownerCore (servedBy k)).state
  if s.inControl ∧ (s.slot k).state = .taken ∧ (s.slot k).msgCode = code ∧ (st = .running ∨ st = .held) then f s else s

/-- The image in a core's active bank. -/
def HubCore.image (c : HubCore) : Option FwImage := if c.bank then c.bank1 else c.bank0

def FwImage.ver (x : Option FwImage) : Word := (x.map FwImage.version).getD 0

/-- PING (R337). -/
def execPing (slot : SlotId) (s : State) : Host.Outcome State Fault Refusal :=
  .next (journaled (hostMessage 1 slot (fun s =>
    mbAck slot codeOk 0 (FwImage.ver (s.ownerCore (servedBy slot)).image) s)) s)

/-- The open record is closed (R430). -/
def Recorder.close (jn : Nat) (q : Recorder) : Recorder :=
  if q.openRec then
    { q with openRec := false, recs := q.recs.dropLast ++ (q.recs.getLast?.toList.map (fun x => { x with jn := jn })) }
  else q

/-- EVX_FLUSH (R315, R337, R430): the open record is closed, and the pending records need not wait for their boundary. -/
def execEvxFlush (slot : SlotId) (s : State) : Host.Outcome State Fault Refusal :=
  .next (journaled (hostMessage 2 slot (fun s =>
    mbAck slot codeOk 0 0 (s.modRecorder (fun q => { q.close s.nextJn with flush := true })))) s)

/-- State bits of CORE_STATE (R337, R380). -/
def coreStateCode : CoreState → Nat
  | .running => 0
  | .halted => 2
  | .held => 3
  | .restarting | .stopped | .empty => 1

/-- CORE_STATE (R337). -/
def coreStateMsg (k : Nat) (s : State) : State :=
  let n := byteAt (s.slot k).msg 4
  if n = servedBy k then mbAck k codeBadArg 0xE2 0 s
  else if 2 < n then (mbAck k codeBadArg (Config.freeValue s.fresh % 256) 0 s).nextFree
  else
    let c := s.ownerCore n
    let cnt := 4 * min c.restarts 0x3FFFFFFF
    mbAck k codeOk 0 (BitVec.ofNat 32 (cnt + coreStateCode c.state)) s

def execCoreState (slot : SlotId) (s : State) : Host.Outcome State Fault Refusal :=
  .next (journaled (hostMessage 3 slot (coreStateMsg slot)) s)

/-- STALL_NEXT (R337, R348). -/
def stallNextMsg (k : Nat) (s : State) : State :=
  let start := leAt (s.slot k).msg 4 4
  let x := (s.hub.stalls.filter (fun c => decide (start ≤ c))).foldl
    (fun (acc : Option Nat) c => some (match acc with | some y => min c y | none => c)) none
  mbAck k codeOk 0 (BitVec.ofNat 32 (x.getD 0xFFFFFFFF)) s

def execStallNext (slot : SlotId) (s : State) : Host.Outcome State Fault Refusal :=
  .next (journaled (hostMessage 4 slot (stallNextMsg slot)) s)

/-! ### Chive messages -/

/-- A Chive message that its core has taken is acted on (R341); the acknowledgement of one that a forced cancel ended is
discarded and counted (R335). -/
def chiveMessage (code c k : Nat) (f : State → State) (s : State) : State :=
  let u := s.cluster c
  let x := u.slot k
  if x.msgCode ≠ code ∨ u.core.state ≠ .running then s
  else if x.state = .taken then f s
  else if x.state = .done ∧ x.cancel then
    (s.modCluster c (fun u => u.modSlot k (fun x => { x with cancel := false }))).modGov (regionOf c)
      (fun g => { g with lateAck := satAdd 0xFF g.lateAck 1 })
  else s

/-- The image that a Chive's active bank holds (R354). -/
def State.chiveImage (s : State) (c : Nat) : Option FwImage :=
  if (s.cluster c).core.bank then s.hub.fw.chive1 else s.hub.fw.chive0

/-- CHIVE_PING (R341). -/
def execChivePing (c : ClusterId) (slot : SlotId) (s : State) : Host.Outcome State Fault Refusal :=
  .next (chiveMessage 0x01 c slot (fun s => chiveAck c slot codeOk 0 (FwImage.ver (s.chiveImage c)) s) s)

/-- Status codes of a reading: 0 VALID, 1 STALE, 2 SUSPECT, 3 FAILED. -/
def statusCode : Status → Nat
  | .valid => 0
  | .stale => 1
  | .suspect => 2
  | .failed => 3

/-- AGE_READ (R78, R341): taps in bits 7:0 and the status in bits 15:8; STALE with the last reading while the engine
clock is stopped, which raises the corrected fault and blocks margin recovery (R87, R213). A reading of 0 taps at a live
cluster exhausts the region's margin (R216), whose recompute takes the other clusters' latest readings: DESIGN CHOICE,
notes/assumptions/72.md. -/
def ageReadMsg (c k taps : Nat) (s : State) : State :=
  if (s.gov (regionOf c)).engine then
    let t := chiveAck c k codeOk 0 (BitVec.ofNat 32 taps) (s.modCluster c (fun u => u.readAge (taps, .valid)))
    if taps = 0 ∧ (s.cluster c).ctl.spared = false ∧ s.inControl then exportTrims (exhaust (regionOf c) t) else t
  else
    let t := s.modCluster c (fun u => u.readAge (0, .stale))
    let t := if (s.cluster c).ctl.spared then t
      else (t.modRegion (regionOf c) (Region.stick 3)).raiseRoll (regionOf c) 1 4
    chiveAck c k codeOk 0 (BitVec.ofNat 32 ((s.cluster c).ageTaps + 256 * statusCode .stale)) t

def execAgeRead (c : ClusterId) (slot : SlotId) (taps : Fin 65) (s : State) : Host.Outcome State Fault Refusal :=
  .next (journaled (chiveMessage 0x10 c slot (ageReadMsg c slot taps)) s)

/-- DILL is held while a live Dill reading of the region is not VALID (R87, R406). -/
def holdDill (r : Nat) (s : State) : State :=
  s.holdRoll r 2 2 ((s.region r).clusters.any 576 (fun u =>
    !u.ctl.spared && (decide (u.dill.status ≠ .valid) || u.dill.recovering)))

/-- DILL_SWEEP (R87, R92, R171): a difference within ±4 mV corrects both offsets; a larger one makes the Dill FAILED and
holds the cluster at the droop floor at once. A VALID sweep after a failure waits for the self-check. The hold lowers the
cluster's committed code (R103), so that a standing pre-raise is marked for it (R139; notes/assumptions/56.md). -/
def dillSweepMsg (c k : Nat) (diff : Int) (s : State) : State :=
  let r := regionOf c
  let d := (s.cluster c).dill
  if diff.natAbs ≤ 4 then
    chiveAck c k codeOk 0 (BitVec.ofInt 32 diff) (s.modCluster c (fun u => { u with dill := { u.dill with
      offset := u.dill.offset + diff, sweeping := false, status := .valid
      recovering := u.dill.recovering || decide (d.status ≠ .valid) } }))
  else
    let t := (s.modCluster c (fun u => { u with dill := { u.dill with
      sweeping := false, status := .failed, recovering := false, holding := true } })).modRegion r (fun g => g.lowered.stick 3)
    let t := (holdDill r t).sendWord r (clusterWord (localOf c) 3 0 0 true)
    chiveAck c k codeOk 0 (BitVec.ofNat 32 (0x10000 * statusCode .failed)) t

def execDillSweep (c : ClusterId) (slot : SlotId) (diff : Int) (s : State) : Host.Outcome State Fault Refusal :=
  .next (chiveMessage 0x11 c slot (dillSweepMsg c slot diff) s)

/-- PAIR_WINDOW (R341). -/
def execPairWindow (c : ClusterId) (slot : SlotId) (s : State) : Host.Outcome State Fault Refusal :=
  .next (chiveMessage 0x12 c slot (fun s => chiveAck c slot codeOk 0 (BitVec.ofInt 32 (s.cluster c).tp.drift) s) s)

/-- COUNTERS (R341): set 0 markers and LATE landings, set 1 Dill trips and warns since the last read. -/
def countersMsg (c k : Nat) (s : State) : State :=
  let u := s.cluster c
  match byteAt (u.slot k).msg 4 with
  | 0 => chiveAck c k codeOk 0 (BitVec.ofNat 32 (min u.strayMarks 0xFFFF + 65536 * u.lates)) s
  | 1 => chiveAck c k codeOk 0 (BitVec.ofNat 32 (u.dill.readTrips + 65536 * u.dill.readWarns))
      (s.modCluster c (fun u => { u with dill := { u.dill with readTrips := 0, readWarns := 0 } }))
  | _ => (chiveAck c k codeBadArg (Config.freeValue s.fresh % 256) 0 s).nextFree

def execCounters (c : ClusterId) (slot : SlotId) (s : State) : Host.Outcome State Fault Refusal :=
  .next (chiveMessage 0x20 c slot (countersMsg c slot) s)

/-! ### Multicasts -/

def Region.multi (g : Region) (k : Nat) : Option RMulti := g.multis.find? (fun m => m.slot == k)

def Region.modMulti (g : Region) (k : Nat) (f : RMulti → RMulti) : Region :=
  { g with multis := g.multis.map (fun m => if m.slot = k then f m else m) }

/-- A summary leaves for the hub (R343). -/
def sendSummary (r : Nat) (m : RMulti) (final asked : Bool) (s : State) : State :=
  s.send (.summary r m.slot m.okCnt m.other.length m.cancelled m.waiting.length m.other.min? m.waiting.min? final asked)

/-- A multicast whose last target in the region is DONE ends there (R343). -/
def endMulti (r k : Nat) (s : State) : State :=
  match (s.region r).multi k with
  | none => s
  | some m =>
    if m.waiting = [] ∧ m.ended = false then
      sendSummary r m true false (s.modRegion r (fun g => g.modMulti k (fun m => { m with ended := true })))
    else s

/-- A governor's unicast post at a Chive (R19, R330, R342): an EMPTY slot becomes POSTED; any other is left as it is. -/
def postChive (r k : Nat) (epoch : Word) (msg : List Byte) (c : Nat) (s : State) : State :=
  chiveAccept (576 * r + c) epoch (fun s => s.modRegion r (fun g => g.modCluster c (fun u =>
    if (u.slot k).state ≠ .empty then u
    else { u.modSlot k (fun _ => { state := .posted, msg := padTo 16 msg, mirrored := true, turn := u.slotTurn }) with
      slotTurn := u.slotTurn + 1 }))) (s.send (.chivePost (576 * r + c) k))

/-- A multicast post at a governor (R342): the message goes into the slot of each named Chive; a spared-out one counts as
cancelled. A post for a slot whose multicast is open there changes nothing. -/
def takePost (r k no : Nat) (mask : Nat) (epoch : Word) (msg : List Byte) (s : State) : State :=
  let ts := onesOf 576 mask
  let g := s.region r
  if (match g.multi k with | some m => !m.ended | none => false) then s
  else
    let dead := ts.filter (fun c => (g.clusters.get c).ctl.spared)
    let live := ts.filter (fun c => !(g.clusters.get c).ctl.spared)
    let t := s.modRegion r (fun g => { g with
      multis := g.multis.filter (fun x => x.slot != k) ++
        [{ slot := k, no := no, cancelled := dead.length, waiting := live }] })
    endMulti r k (live.foldl (fun a c => postChive r k epoch msg c a) t)

/-- The hub's post of an open multicast to a region leaves (R342). -/
def sendPost (m : Multi) (s : State) (r : Nat) : State :=
  s.hubSend (.post r m.slot (((m.posts.find? (fun p => p.1 == r)).map Prod.snd).getD 0) m.msg)

/-- The hub opens a multicast, and posts it to every region it names (R342). -/
def openMulti (m : Multi) (s : State) : State :=
  m.due.foldl (sendPost m) (s.modHub (fun h => { h with
    multis := h.multis ++ [{ m with no := h.multiNo }], multiNo := h.multiNo + 1 }))

/-- A multicast's slot is in no open one, and fewer than 8 are open (R342, R346). -/
def State.multiFits (s : State) (m : Multi) : Bool :=
  decide (s.hub.multis.length < 8) && s.hub.multis.all (fun x => x.slot != m.slot)

/-- The held multicasts that fit now are opened, in their order (R342). -/
def openHeld (s : State) : State :=
  s.hub.heldMultis.foldl (fun (a : State) m =>
    if a.multiFits m then openMulti m a else a.modHub (fun h => { h with heldMultis := h.heldMultis ++ [m] }))
    (s.modHub (fun h => { h with heldMultis := [] }))

/-- The post of an open multicast reaches the governor of region `r`. -/
def postArrives (r k : Nat) (mask : Nat) (hdr : MsgHdr) (msg : List Byte) (s : State) : State :=
  let no := ((s.hub.multis.find? (fun m => m.slot == k)).map Multi.no).getD 0
  govAccept r 0x50 hdr (fun s => takePost r k no mask hdr.epoch msg (s.modHub (fun h => { h with
    multis := h.multis.map (fun m => if m.slot = k then { m with due := m.due.filter (fun j => j != r) } else m) }))) id s

/-- MULTICAST_POST (R342). No row of the table is the hub's decision to send a multicast: a post that no open multicast of
the hub still has on its way stands for that decision too. The hub opens the multicast and posts it to every region that it
names, or holds it while 8 are open or the slot is in use; one that is held does not arrive yet (notes/assumptions/57.md). -/
def multicastPost (r k : Nat) (mask : BitVec 576) (hdr : MsgHdr) (msg : List Byte) (others : List (Nat × BitVec 576)) (s : State) :
    State :=
  let onWay := s.hub.multis.any (fun m => m.slot == k && decide (r ∈ m.due))
  if onWay ∨ s.inControl = false then postArrives r k mask.toNat hdr msg s
  else
    let posts := (r, mask) :: others
    let m : Multi := { slot := k, msg := msg, posts := posts, due := posts.map Prod.fst, waiting := posts.map Prod.fst }
    if s.multiFits m then postArrives r k mask.toNat hdr msg (openMulti m s)
    else s.modHub (fun h => { h with heldMultis := h.heldMultis ++ [m] })

def execMulticastPost (r : RegionId) (hdr : MsgHdr) (slot : SlotId) (posts : Posts) (msg : List Byte) (s : State) : Host.Outcome State Fault Refusal :=
  .next (journaled (multicastPost r slot posts.mask hdr msg (posts.others.map (fun p => (p.1.val, p.2)))) s)

/-- CHIVE_ACKNOWLEDGEMENT at the governor (R335, R343): the governor clears DONE; one for a slot that a forced cancel
ended is discarded and counted. -/
def takeChiveAck (c k : Nat) (code : Byte) (s : State) : State :=
  let r := regionOf c
  let l := localOf c
  match (s.region r).multi k with
  | some m =>
    if l ∈ m.waiting ∧ m.ended = false then
      endMulti r k (s.modRegion r (fun g => (g.modMulti k (fun m => { m with
        waiting := m.waiting.filter (fun x => x != l)
        okCnt := if code = 0 then m.okCnt + 1 else m.okCnt
        other := if code = 0 then m.other else m.other ++ [l] })).modCluster l (fun u => u.modSlot k (fun x => { x with state := .empty }))))
    else s.modGov r (fun g => { g with lateAck := satAdd 0xFF g.lateAck 1 })
  | none =>
    if (s.cluster c).ctl.spared then s.modGov r (fun g => { g with lateAck := satAdd 0xFF g.lateAck 1 })
    else s.modCluster c (fun u => u.modSlot k (fun x => if x.state = .done then { x with state := .empty } else x))

def execChiveAcknowledgement (c : ClusterId) (hdr : MsgHdr) (slot : SlotId) (code : Byte) (s : State) :
    Host.Outcome State Fault Refusal :=
  .next (peerAccept (regionOf c) 0x51 hdr (takeChiveAck c slot code) id s)

/-- INTERIM_SUMMARY (R343): every MB_WARN control periods while targets remain. -/
def interimSummary (r k : Nat) (s : State) : State :=
  match (s.region r).multi k with
  | none => s
  | some m =>
    if s.cfg 0x9000 0 16 ≤ m.age ∧ m.waiting ≠ [] then
      sendSummary r m false false (s.modRegion r (fun g => g.modMulti k (fun m => { m with age := 0 })))
    else s

def execInterimSummary (r : RegionId) (slot : SlotId) (s : State) : Host.Outcome State Fault Refusal :=
  .next (interimSummary r slot s)

/-- SUMMARY_REQUEST (R346): the governor answers with the figures it holds, final ones of a multicast that has ended
there (R350). -/
def answerSummary (r k : Nat) (s : State) : State :=
  match (s.region r).multi k with
  | none => s
  | some m => sendSummary r m m.ended true s

def execSummaryRequest (r : RegionId) (hdr : MsgHdr) (slot : SlotId) (s : State) : Host.Outcome State Fault Refusal :=
  .next (govAccept r 0x52 hdr (answerSummary r slot) (answerSummary r slot) s)

/-- FORCED_CANCEL (R335, R345): every slot of the cluster's mailbox; open multicasts count it as CANCELLED. -/
def forceCancel (c : Nat) (s : State) : State :=
  let r := regionOf c
  let l := localOf c
  let t := s.modCluster c (fun u => { u with slots := u.slots.mapAll (fun x =>
    if x.state = .posted ∨ x.state = .taken then { x.ack codeCancelled 0 0 with cancel := x.state == .taken } else x) })
  let ks := ((s.region r).multis.filter (fun m => decide (l ∈ m.waiting))).map (fun m => m.slot)
  ks.foldl (fun a k => endMulti r k ((a.modRegion r (fun g => g.modMulti k (fun m => { m with
    waiting := m.waiting.filter (fun x => x != l), cancelled := m.cancelled + 1 }))).send (.chiveCancel c k))) t

/-! ### Spare-out -/

/-- GRANT_SHRUNK at the hub (R262): a granted cluster leaves its grant, which continues. -/
def shrinkGrant (c : Nat) (s : State) : State :=
  let r := regionOf c
  let l := localOf c
  (s.liveGrants.filter (fun i => (s.grant i).spans.any (fun p => p.1 == r && decide (l ∈ p.2.2)))).foldl (fun (a : State) i =>
    grantRecord i 2 codeOk 0 (a.modGrant i (fun g =>
      let spans := g.spans.map (fun p => if p.1 = r then (p.1, p.2.1, p.2.2.filter (fun x => x != l)) else p)
      { g with spans := spans, nClus := g.nClus - 1, sSum := (spans.map (fun p => p.2.1 * p.2.2.length)).sum }))) s

/-- The governor's reservations without spared-out clusters, at its boundary (R262). -/
def Region.shrinkResvs (g : Region) : Region :=
  { g with resvs := g.resvs.map (fun v =>
      let l := v.clusters.filter (fun c => !(g.clusters.get c).ctl.spared)
      { v with clusters := l, total := v.q * l.length }) }

/-- A cluster held out of service (R33): limiters at code 0, from the first step on where the engine clock is stopped (R26);
record all zeros, Dill out of service. -/
def Cluster.spareOut (engine : Bool) (u : Cluster) : Cluster :=
  { u with
    limiters := u.limiters.mapAll (fun l => { l with e := if engine then 0 else l.e, t := 0, cnt := 0 })
    feature := {}
    core := { u.core with switched := false }
    dill := { u.dill with asserted := false, tripCnt := 0, warnCnt := 0, holding := false }
    ctl := { u.ctl with spared := true, res := 0, share := 0, ceil := 0, uncapped := 0, sentCode := 0, setCode := 0 } }

/-- SPARE_OUT (R33, R139, R345). -/
def spareOut (c : Nat) (s : State) : State :=
  if s.inControl = false ∨ (s.cluster c).ctl.spared then s
  else
    let r := regionOf c
    let t := forceCancel c s
    let t := (List.range 8).foldl (fun (a : State) d => match neighbour c d with
      | none => a
      | some n => a.modCluster n (fun u => { u with droopMask := u.droopMask ||| BitVec.ofNat 8 (2 ^ opposite d) })) t
    let t := t.modCluster c (Cluster.spareOut (s.gov r).engine)
    let t := t.modRegion r (fun g =>
      let g := g.voidPeriod
      if g.spec.state = .standing then { g with spec := { g.spec with abandon := true } } else g)
    holdDill r (shrinkGrant c t)

def execSpareOut (c : ClusterId) (s : State) : Host.Outcome State Fault Refusal :=
  .next (journaled (spareOut c) s)

/-! ### Summaries at the hub -/

/-- CHIVE_SELF_CHECK (R35, R87, R344): failed hardware is spared out; hardware that passes stays in service, its Dill
recovers, and a control core that does not run is a contained fault. -/
def selfCheck (c : Nat) (ok : Bool) (s : State) : State :=
  if ok then
    let t := holdDill (regionOf c) (s.modCluster c (fun u => { u with dill := { u.dill with recovering := false } }))
    let st := (s.cluster c).core.state
    if st = .running ∨ st = .halted then t else t.raiseRoll (regionOf c) 2 9
  else spareOut c s

/-- MULTICAST_SUMMARY (R343, R344, R346): an interim summary that is not the answer to a request shows targets past
MB_WARN. -/
def takeSummary (r : Nat) (x : Summary) (ok : Bool) (s : State) : State :=
  let k := x.slot.val
  let mine (m : Msg) : Bool := match m with | .summaryRequest j i => j == r && i == k | _ => false
  let asked := s.await.any (fun a => mine a.msg)
  let s := s.answered mine
  match s.hub.multis.find? (fun m => m.slot == k) with
  | none => s
  | some m =>
    let late := m.late.filter (fun p => p.1 != r)
    let past := !x.final && !asked && decide (0 < x.waiting)
    let m' := { m with
      waiting := if x.final then m.waiting.filter (fun j => j != r) else m.waiting
      late := if x.final then late else if asked then m.late else late ++ [(r, x.waiting)]
      raised := m.raised || past }
    let keep (l : List Multi) : List Multi :=
      if m'.waiting = [] then l.filter (fun y => y.slot != k) else l.map (fun y => if y.slot = k then m' else y)
    let t := openHeld (s.modHub (fun h => { h with multis := keep h.multis }))
    if past && !m.raised then
      match x.lowestWait with
      | some c => selfCheck (576 * r + c % 576) ok (t.raise 196 0 (576 * r + c % 576))
      | none => t.raise 196 0
    else t

def execMulticastSummary (r : RegionId) (hdr : MsgHdr) (sum : Summary) (selfCheckOk : Bool) (s : State) :
    Host.Outcome State Fault Refusal :=
  .next (journaled (hubAccept 0x53 hdr (takeSummary r sum selfCheckOk)) s)

/-- The governor of region `r` holds a multicast of the hub's, open or ended. -/
def State.holdsMulti (s : State) (m : Multi) (r : Nat) : Bool := (s.region r).multis.any (fun x => x.slot == m.slot && x.no == m.no)

/-- A new owner asks every governor that holds an open multicast for a summary (R346), posts to those that none has reached, since
one of the old owner's no governor accepts any more (R19), and takes TAKEN host slots again (R339). -/
def adoptMailboxes (s : State) : State :=
  let n := ((s.hub.mb.slots.listed 32).filter (fun x => decide (x.2.state = .taken))).length
  let t := s.modMb (fun m => { m with slots := m.slots.mapAll Slot.retake, retaken := satAdd 0xFF m.retaken n })
  let t := t.modHub (fun h => { h with multis := h.multis.map (fun m => { m with
    due := m.waiting.filter (fun r => !t.holdsMulti m r) }) })
  t.hub.multis.foldl (fun (a : State) m => m.waiting.foldl (fun (b : State) r =>
    if r ∈ m.due then sendPost m b r else b.hubAsk (.summaryRequest r m.slot)) a) t

end Sys2Proof.Machine
end

