-- ==== Sys2Proof/Machine/Owner.lean ====
section
/-!
DEFINITION. The pair's shared moves: the standby, DEGRADED (R398, R399, R402), the start of a handover (R367, R400), the
firmware cores by hub and number, the delivery of a non-maskable trap (R418, R424).
-/

namespace Sys2Proof.Machine

/-- The other hub, where one owns and the other takes part as a standby (R381). -/
def State.standby (s : State) : Option Hub :=
  match s.owner with
  | none => none
  | some h =>
    let r := (s.hubOf h.other).role
    if r = .valid ∨ r = .resyncing then some h.other else none

/-- The standby that holds a complete copy of a pair that is PAIRED. -/
def State.validStandby (s : State) : Option Hub :=
  match s.standby with
  | some w => if (s.hubOf w).role = .valid ∧ s.pair.paired ∧ s.pair.degraded = false then some w else none
  | none => none

/-! ### Firmware cores -/

/-- Core `k` of a hub: 0 security, 1 power-management, 2 scheduler (R354). -/
def HubSt.core (u : HubSt) : Nat → HubCore
  | 0 => u.core0
  | 1 => u.core1
  | _ => u.core2

def HubSt.modCore (u : HubSt) (k : Nat) (f : HubCore → HubCore) : HubSt :=
  match k with
  | 0 => { u with core0 := f u.core0 }
  | 1 => { u with core1 := f u.core1 }
  | _ => { u with core2 := f u.core2 }

def State.coreAt (s : State) (h : Hub) (k : Nat) : HubCore := (s.hubOf h).core k
def State.modCore (s : State) (h : Hub) (k : Nat) (f : HubCore → HubCore) : State := s.modHubOf h (fun u => u.modCore k f)

/-- A Chive's control core changed. -/
def Cluster.modCore (u : Cluster) (f : ChiveCore → ChiveCore) : Cluster := { u with core := f u.core }

/-- A hub begins its resync (R381, R401): the image's 6,144 sweep blocks are still to come, and 1,280 blocks with both banks of each
firmware target whose banks differ from the other hub's. -/
def State.beginResync (s : State) (h : Hub) : State :=
  let differ (k : Nat) : Bool :=
    let o := s.coreAt h.other k
    let c := s.coreAt h k
    decide (c.bank0 ≠ o.bank0) || decide (c.bank1 ≠ o.bank1) || c.bank != o.bank
  (s.modHubOf h (fun u => { u with role := .resyncing })).modPair (fun p => { p with
    sweepLeft := 6144 + 1280 * ((List.range 3).filter differ).length })

/-- The effects held under R390 leave. -/
def State.releaseHeld (s : State) : State :=
  s.pair.heldEff.foldl (fun (a : State) e => a.emit e.2) (s.modPair (fun p => { p with
    heldEff := [], journal := [], blocks := [], sent := p.jn }))

/-- Grants in admission or delivery are extended by the time effects were held, and marked (R251, R398). -/
def extendGrants (s : State) : State :=
  s.liveGrants.foldl (fun a i => a.modGrant i (fun g =>
    if g.state = .reserving ∨ g.state = .decided ∨ g.state = .delivering then { g with extended := true } else g)) s

/-- The pair becomes DEGRADED (R367, R398, R399): a contained fault, the held effects leave, the standby has lost sync. -/
def degradePair (s : State) : State :=
  if s.pair.degraded then s
  else
    let t := s.modPair (fun p => { p with degraded := true, paired := false, handStep := 0, probing := false, probes := [] })
    let t := match s.standby with
      | some w => t.beginResync w
      | none => t
    settleDecisions (extendGrants (t.raise 201 1).releaseHeld)

/-- A handover starts at the next boundary, to a standby in the STANDBY VALID role (R400). -/
def startHandover (s : State) : State :=
  if s.validStandby.isSome then
    s.modPair (fun p => { p with handStep := if p.handStep = 0 then 1 else p.handStep })
  else s.modPair (fun p => { p with hoRefused := true })

/-- A non-maskable trap at a hub's power-management core (R413, R418, R424): merged while one is in hand, held while the
core does not run; of a frozen collector nothing changes (R420). -/
def deliverNmi (h : Hub) (src : Nat) (s : State) : State :=
  let c := (s.hubOf h).coll
  if c.frozen then s
  else if c.nmiBusy then
    s.modHubOf h (fun u => { u with coll := { u.coll with nmiMerged := satAdd 0xFF u.coll.nmiMerged 1, nmiAgain := u.coll.nmiAgain ++ [src] } })
  else if (s.coreAt h 1).state = .running then
    (s.modHubOf h (fun u => { u with coll := { u.coll with nmiBusy := true, nmiSrc := src } })).emit (.nmi src)
  else if (s.coreAt h 1).nmiHeld.isSome then
    s.modHubOf h (fun u => { u with coll := { u.coll with nmiMerged := satAdd 0xFF u.coll.nmiMerged 1 } })
  else s.modCore h 1 (fun c => { c with nmiHeld := some src })

/-- The trap held while the core did not run is delivered (R424, R493). -/
def releaseNmi (h : Hub) (s : State) : State :=
  match (s.coreAt h 1).nmiHeld with
  | some src => if (s.coreAt h 1).state = .running ∧ (s.hubOf h).coll.frozen = false then
      deliverNmi h src (s.modCore h 1 (fun c => { c with nmiHeld := none })) else s
  | none => s

end Sys2Proof.Machine
end

