-- ==== Sys2Proof/Machine/Firmware.lean ====
section
/-!
DEFINITION. Firmware: the image and its checks (R356–R362, R371), staging (R369, R370), restarts (R364–R368), activation
(R372–R377).
-/

namespace Sys2Proof.Machine

/-! ### Images -/

def imgTarget (b : List Byte) : Nat := byteAt b 6
def imgSecVer (b : List Byte) : Nat := leAt b 0x0C 2
def imgLen (b : List Byte) : Nat := leAt b 0x10 4

/-- Code bank and data memory sizes of a target (R354). -/
def bankSize (target : Nat) : Nat :=
  match target with
  | 0 => 192 * 1024
  | 1 => 384 * 1024
  | 2 => 384 * 1024
  | _ => 24 * 1024
def dataSize (target : Nat) : Nat :=
  match target with
  | 0 => 64 * 1024
  | 1 => 256 * 1024
  | 2 => 256 * 1024
  | _ => 8 * 1024

/-- Base of data memory in a core's address space (R360). -/
def dataBase : Nat := 0x10000000

/-- What a target may do in a window: 0 nothing, 1 read, 2 read and write (R362). -/
def windowAccess (target win : Nat) : Nat :=
  match target, win with
  | 0, 1 => 2 | 0, 2 => 2 | 0, 4 => 1 | 0, 6 => 2 | 0, 7 => 2 | 0, 9 => 2
  | 1, 3 => 2 | 1, 4 => 2 | 1, 5 => 1 | 1, 6 => 2 | 1, 7 => 2 | 1, 8 => 2 | 1, 9 => 2
  | 2, 4 => 1 | 2, 5 => 2 | 2, 6 => 2 | 2, 7 => 2 | 2, 8 => 2 | 2, 9 => 2
  | 3, 8 => 2 | 3, 10 => 1 | 3, 11 => 2
  | _, _ => 0

/-- A region descriptor (R361). -/
structure MemRegion where
  base   : Nat
  log2   : Nat
  attr   : Nat
  comp   : Nat
  rest   : Bool
deriving DecidableEq, Repr

def memRegion (b : List Byte) (k : Nat) : MemRegion :=
  let o := 0x20 + 16 * k
  ⟨leAt b o 4, byteAt b (o + 4), byteAt b (o + 5), byteAt b (o + 6), zeroIn b (o + 7) 9⟩

def MemRegion.used (m : MemRegion) : Bool := m.attr != 0
def MemRegion.r (m : MemRegion) : Bool := bitOf m.attr 0
def MemRegion.w (m : MemRegion) : Bool := bitOf m.attr 1
def MemRegion.x (m : MemRegion) : Bool := bitOf m.attr 2
def MemRegion.retain (m : MemRegion) : Bool := bitOf m.attr 3
def MemRegion.window (m : MemRegion) : Bool := bitOf m.attr 4

/-- The region lies within `lo .. hi - 1`. -/
def MemRegion.within (m : MemRegion) (lo hi : Nat) : Bool := decide (lo ≤ m.base) && decide (m.base + 2 ^ m.log2 ≤ hi)

/-- One used descriptor is as R361 and R362 allow. -/
def MemRegion.legal (target : Nat) (m : MemRegion) : Bool :=
  let inData := m.within dataBase (dataBase + dataSize target)
  m.rest && decide (m.attr < 32) && decide (m.comp < 16) && !(m.w && m.x) &&
    if m.window then
      m.log2 == 0 && !m.x && !m.retain &&
        decide ((if m.w then 2 else 1) ≤ windowAccess target m.base)
    else
      inRange 8 20 m.log2 && m.base % 2 ^ m.log2 == 0 && (!m.x || m.within 0 (bankSize target)) &&
        (!m.w || inData) && (!m.retain || inData)

/-- Two used regions overlap; windows by their numbers. -/
def MemRegion.overlaps (m n : MemRegion) : Bool :=
  if m.window && n.window then m.base == n.base
  else !m.window && !n.window && decide (m.base < n.base + 2 ^ n.log2) && decide (n.base < m.base + 2 ^ m.log2)

/-- The table is valid (R361, R362). -/
def tableOk (target : Nat) (b : List Byte) : Bool :=
  let l := ((List.range 16).map (memRegion b)).filter MemRegion.used
  l.all (MemRegion.legal target) && decide (l.Pairwise (fun m n => m.overlaps n = false))

/-- The header is as R356 lays down (detail 0xB1). -/
def headerOk (target len : Nat) (b : List Byte) : Bool :=
  decide (leAt b 0 4 = 0x46574931) && decide (leAt b 4 2 = 1) && decide (imgLen b = len) && len % 64 == 0 &&
    decide (0x180 < len) && decide (len ≤ 0x180 + bankSize target) && decide (leAt b 0x14 4 < len - 0x180) && zeroIn b 0x18 8

/-- The anti-rollback counter of a target in one hub (R358, R359). -/
def State.arbAt (s : State) (h : Hub) (t : Nat) : Nat := max (Config.arbFused h t).toNat ((s.hubOf h).arbUp.getD t 0)

/-- The counter each ROM uses: the higher of the two hubs', where both take part (R358). -/
def State.arb (s : State) (t : Nat) : Nat :=
  if s.hubA.role = .absent ∧ s.hubB.role ≠ .absent then s.arbAt .b t
  else if s.hubB.role = .absent then s.arbAt .a t
  else max (s.arbAt .a t) (s.arbAt .b t)

/-- A hub's counter of a target rises to `v`; it never moves down (R359). -/
def State.raiseArb (s : State) (h : Hub) (t v : Nat) : State :=
  s.modHubOf h (fun u => { u with arbUp := u.arbUp.set t (max (u.arbUp.getD t 0) v) })

/-- A hub that joins is raised to the higher counts, and so is the other (R359). -/
def State.shareArb (s : State) : State :=
  (List.range 4).foldl (fun (a : State) t =>
    let v := max (s.arbAt .a t) (s.arbAt .b t)
    (a.raiseArb .a t v).raiseArb .b t v) s

/-- The signature checks of R357: key revoked or digest wrong 0xA0, signature 0xA1. -/
def authReason (b : List Byte) : Option Nat :=
  let key := byteAt b 7
  let code := b.drop 0x180
  if 3 < key ∨ bitOf Config.keyRevoke.toNat key ∨ Config.keyDigestGood key (code.take 96) = false then some 0xA0
  else if Config.signatureGood key (b.take 0x120 ++ code) ((b.drop 0x120).take 96) = false then some 0xA1
  else none

/-- An image as a bank holds it. -/
def imageOf (b : List Byte) : FwImage := ⟨imgTarget b, BitVec.ofNat 32 (leAt b 8 4), imgSecVer b, leAt b 0x0E 2, b⟩

/-- The stretches of data memory, as word numbers, that an image's RETAIN regions cover (R361, R365). -/
def FwImage.retained (x : FwImage) : List (Nat × Nat) :=
  (((List.range 16).map (memRegion x.bytes)).filter (fun m => m.used && m.retain)).map (fun m =>
    ((m.base - dataBase) / 4, (m.base - dataBase + 2 ^ m.log2) / 4))

def inStretch (l : List (Nat × Nat)) (k : Nat) : Bool := l.any (fun p => decide (p.1 ≤ k) && decide (k < p.2))

/-! ### Banks -/

/-- The image in the staged bank. -/
def HubCore.stagedImage (c : HubCore) : Option FwImage := if c.bank then c.bank0 else c.bank1

def HubCore.putStaged (x : Option FwImage) (c : HubCore) : HubCore :=
  if c.bank then { c with bank0 := x } else { c with bank1 := x }

/-- The staged image of a target (R380 STAGED). -/
def State.stagedOf (s : State) (t : Nat) : Option FwImage :=
  if t = 3 then (if s.hub.fw.chiveBank then s.hub.fw.chive0 else s.hub.fw.chive1)
  else (s.coreAt (s.owner.getD .a) t).stagedImage

/-- The image that a target runs. -/
def State.runningOf (s : State) (t : Nat) : Option FwImage :=
  if t = 3 then (if s.hub.fw.chiveBank then s.hub.fw.chive1 else s.hub.fw.chive0)
  else (s.coreAt (s.owner.getD .a) t).image

def Firmware.putChive (x : Option FwImage) (f : Firmware) : Firmware :=
  if f.chiveBank then { f with chive0 := x } else { f with chive1 := x }

/-! ### Staging -/

/-- The checks of a stage, in the order of R371. -/
def stageCheck (s : State) (t : Taken) : Option (Nat × Nat) :=
  let target := byteAt t.entry 0x14
  let b := t.body
  let bad (d : Nat) : Option (Nat × Nat) := some (codeBadArg, d)
  if s.cfgBit 0x3000 20 = false then some (codeLocked, 0)
  else if 3 < target ∨ imgTarget b ≠ target then bad 0xB8
  else if headerOk target (leAt t.entry 0x10 4) b = false then bad 0xB1
  else if tableOk target b = false then bad 0xB9
  else match authReason b with
  | some d => some (codeAuth, d)
  | none =>
    if imgSecVer b < s.arb target then some (codeAuth, 0xA2)
    else if 63 < imgSecVer b then some (codeAuth, 0xA3)
    else if s.hub.fw.act.any (fun a => a.target == target) then bad 0xB3
    else none

/-- FIRMWARE_STAGE (R369, R370): a hub target's copies are written at once; the copies of TARGET 3 go to the governors and
are reported back. -/
def stageImage (copyOk : Bool) (t : Taken) (s : State) : State :=
  match stageCheck s t with
  | some (c, d) => s.complete t.cmd c d
  | none =>
    let target := byteAt t.entry 0x14
    let img := imageOf t.body
    let h := s.owner.getD .a
    if target = 3 then
      let u := (s.begin t).modFw (fun f => { f.putChive none with
        stageCmd := some t.cmd, stageImg := some img, stageWait := List.range 64 })
      (List.range 64).foldl (fun a r => a.hubAsk (.fwCode r)) u
    else
      let put (x : Option FwImage) (s : State) : State :=
        let u := s.modCore h target (HubCore.putStaged x)
        match s.validStandby with
        | some w => u.modCore w target (HubCore.putStaged x)
        | none => u
      if s.validStandby.isSome && !copyOk then (put none s).complete t.cmd codeBadArg 0xB6
      else (put (some img) s).complete t.cmd codeOk 0

/-- FIRMWARE_STAGE (R355, R369): one stage at a time. -/
def execFirmwareStage (standbyCopyOk : Bool) (s : State) : Host.Outcome State Fault Refusal :=
  .next (journaled (runTaken opStage (fun _ => s.hub.fw.stageCmd.isNone) (stageImage standbyCopyOk)) s)

/-- The owning hub's security core is halted by the debug port: staging and activation stand still (R494). -/
def State.secHalted (s : State) : Bool := decide ((s.ownerCore 0).state = .halted)

/-- A stage of TARGET 3 ends once a copy is known not to be good, with every copy marked empty, or once all are (R369, R370). -/
def finishStage (s : State) : State :=
  match s.hub.fw.stageCmd with
  | none => s
  | some c =>
    let ended (x : Option FwImage) : State := s.modFw (fun f => { f.putChive x with
      stageCmd := none, stageImg := none, stageWait := [], stageBad := false })
    if s.secHalted then s
    else if s.hub.fw.stageBad then (ended none).complete c codeBadArg 0xB6
    else if s.hub.fw.stageWait = [] then (ended s.hub.fw.stageImg).complete c codeOk 0
    else s

/-- The stage of TARGET 3 ends without its copies (R370). -/
def failStage (s : State) : State :=
  if s.hub.fw.stageCmd.isNone then s else finishStage (s.modFw (fun f => { f with stageBad := true }))

/-- STAGE_COPY_REPORT (R369, R370). -/
def stageReport (r : Nat) (ok : Bool) (s : State) : State :=
  let s := s.answered (fun m => match m with | .fwCode k => k == r | _ => false)
  if s.hub.fw.stageCmd.isNone ∨ r ∉ s.hub.fw.stageWait then s
  else if ok = false then failStage s
  else finishStage (s.modFw (fun f => { f with stageWait := f.stageWait.filter (fun k => k != r) }))

def execStageCopyReport (r : RegionId) (hdr : MsgHdr) (ok : Bool) (s : State) : Host.Outcome State Fault Refusal :=
  .next (journaled (hubAccept 0x60 hdr (stageReport r ok)) s)

/-! ### Restarting one core -/

def kindOf : CoreId → Nat
  | .hub _ k => k
  | .chive _ => 3

def coreNode : CoreId → Nat
  | .hub h _ => nodeHub h
  | .chive c => c

/-- The restarts still inside the window of R367, the one of this instant added. -/
def recentWith (now : Nat) (l : List Nat) : List Nat := now :: l.filter (fun p => decide (now < p + 1000))

/-- A hub core stops (R367): its owner yields where the standby's core of the kind runs; otherwise a fatal fault; the
standby's stop is contained and degrades the pair. -/
def stopHubCore (h : Hub) (k : Nat) (s : State) : State :=
  let t := s.modCore h k (fun c => { c with state := .stopped, switching := false })
  let t := t.record 0x21 7 0 (nodeHub h) (BitVec.ofNat 32 (256 * k))
  let event (least : Nat) (u : State) : State :=
    { u with events := u.events ++ [{ src := 198, cause := 1, least := some least }] }
  if t.owner = some h then
    match t.validStandby with
    | some w => if (t.coreAt w k).state = .running then startHandover t else event 2 t
    | none => event 2 t
  else degradePair (event 1 t)

/-- Mailbox slots that the core had TAKEN return to POSTED (R333). -/
def retakeServed (k : Nat) (s : State) : State :=
  let n := ((s.hub.mb.slots.listed 32).filter (fun x => servedBy x.1 == k && decide (x.2.state = .taken))).length
  s.modMb (fun m => { m with
    slots := m.slots.mapBy 32 (fun i x => if servedBy i = k then x.retake else x)
    retaken := satAdd 0xFF m.retaken n })

/-- A hub core restarts, whatever its state (R364, R365): what is not in a RETAIN region is cleared, its breakpoints go, the restart
is counted and recorded. -/
def runAgain (h : Hub) (k cause : Nat) (s : State) : State :=
  let keep := match (s.coreAt h k).image with | some x => x.retained | none => []
  let t := s.modCore h k (fun c => { c with
    state := .restarting
    restarts := c.restarts + 1
    recent := recentWith (s.now / 100) c.recent
    why := cause
    breakpts := []
    haltWhy := 0
    seen := []
    regs := []
    data := { c.data with cells := c.data.cells.filter (fun p => inStretch keep p.1) } })
  let drop (d : Debug) : Debug := { d with
    halted := d.halted.filter (fun x => x != .hub h (Fin.ofNat 3 k))
    bpCores := d.bpCores.filter (fun x => x != .hub h (Fin.ofNat 3 k)) }
  let t := t.modHubOf h (fun u => { u with dbg := drop u.dbg })
  let t := if t.owner = some h then retakeServed k (if k = 1 then dropRaises t else t) else t
  (t.record 0x20 7 0 (nodeHub h) (BitVec.ofNat 32 (cause + 256 * k))).raise 198 0

/-- CORE_RESTART of a hub core (R364, R365, R367, R495): cause 0 watchdog, 1 protection, 2 block reset, 3 activation,
4 memory. One beyond RESTART_MAX in the window of R367 stops the core, whatever its cause. -/
def restartHubCore (h : Hub) (k cause : Nat) (s : State) : State :=
  let c := s.coreAt h k
  if c.state = .empty ∨ c.state = .stopped then s
  else if s.cfg 0x3000 16 4 < (recentWith (s.now / 100) c.recent).length then stopHubCore h k (runAgain h k cause s)
  else runAgain h k cause s

/-- A Chive control core restarts, whatever its state (R333, R364, R365). -/
def runChiveAgain (c cause : Nat) (s : State) : State :=
  let u := s.cluster c
  let keep := match (if u.core.bank then s.hub.fw.chive1 else s.hub.fw.chive0) with | some x => x.retained | none => []
  let t := s.modCluster c (fun u => { (u.modCore (fun x => { x with
    state := .restarting
    restarts := recentWith (s.now / 100) x.restarts
    why := cause, breakpts := [], haltWhy := 0, seen := [], regs := []
    data := { x.data with cells := x.data.cells.filter (fun p => inStretch keep p.1) } })) with
    slots := u.slots.mapAll Slot.retake })
  let drop (d : Debug) : Debug := { d with
    halted := d.halted.filter (fun x => x != .chive (Fin.ofNat 36864 c))
    bpCores := d.bpCores.filter (fun x => x != .chive (Fin.ofNat 36864 c)) }
  let t := { t with hubA := { t.hubA with dbg := drop t.hubA.dbg }, hubB := { t.hubB with dbg := drop t.hubB.dbg } }
  t.record 0x20 7 0 c (BitVec.ofNat 32 (cause + 0x300))

/-- A Chive control core stops under R367: the cluster stays in service (R35). -/
def stopChive (c : Nat) (s : State) : State :=
  let t := s.modCluster c (fun u => u.modCore (fun x => { x with state := .stopped }))
  (t.record 0x21 7 0 c (BitVec.ofNat 32 0x300)).raise 199 0

/-- CORE_RESTART of a Chive control core. -/
def restartChive (c cause : Nat) (s : State) : State :=
  let u := s.cluster c
  if u.core.state = .empty ∨ u.core.state = .stopped ∨ u.ctl.spared then s
  else if s.cfg 0x3000 16 4 < (recentWith (s.now / 100) u.core.restarts).length then stopChive c (runChiveAgain c cause s)
  else runChiveAgain c cause s

/-- CORE_RESTART (R365). -/
def restartCore (core : CoreId) (cause : Nat) (s : State) : State :=
  match core with
  | .hub h k => restartHubCore h k cause s
  | .chive c => restartChive c cause s

def State.coreState (s : State) : CoreId → CoreState
  | .hub h k => (s.coreAt h k).state
  | .chive c => (s.cluster c).core.state

/-- A Chive's GC is closed: its control core sleeps (R454). -/
def State.asleep (s : State) : CoreId → Bool
  | .hub _ _ => false
  | .chive c => (s.cluster c).gcClosed

/-- WATCHDOG_EXPIRY (R368): the watchdog does not count while the core is halted, asleep, restarting or without code. -/
def watchdog (core : CoreId) (s : State) : State :=
  let st := s.coreState core
  if (st = .running ∨ st = .held) ∧ s.asleep core = false then restartCore core 0 s else s

def execWatchdogExpiry (core : CoreId) (s : State) : Host.Outcome State Fault Refusal :=
  .next (journaled (watchdog core) s)

/-- PROTECTION_VIOLATION (R363): counted, a fault of FW_PROT, and the core restarts. -/
def protectionViolation (core : CoreId) (s : State) : State :=
  let st := s.coreState core
  if (st = .running ∨ st = .held) ∧ s.asleep core = false then
    let t := match core with
      | .hub h k => s.modCore h k (fun c => { c with mpuViol := satAdd 0xFF c.mpuViol 1 })
      | .chive _ => s
    restartCore core 1 { t with events := t.events ++ [{ src := 197, cause := 0, core := some core }] }
  else s

def execProtectionViolation (core : CoreId) (s : State) : Host.Outcome State Fault Refusal :=
  .next (journaled (protectionViolation core) s)

/-! ### Activation -/

/-- CAUSE of a DEFERRED completion (R310, R373). -/
def State.actCause (s : State) : Nat :=
  let any (p : Region → Bool) : Bool := (List.range 64).any (fun r => p (s.region r))
  bitNat (any (fun g => g.therm.latch)) + 2 * bitNat s.hub.ecap.active + 4 * bitNat (any (fun g => g.ph.unsettled)) +
    8 * bitNat (any (fun g => g.caps.alert))

/-- Every Chive core has `p`, spared-out clusters aside. -/
def State.allChives (s : State) (rs : List Nat) (p : ChiveCore → Bool) : Bool :=
  rs.all (fun r => !(s.region r).clusters.any 576 (fun u => !u.ctl.spared && !p u.core))

/-- A core of the target is halted by the debug port (R371, R495). -/
def State.targetHalted (s : State) (t : Nat) : Bool :=
  if t = 3 then !s.allChives (List.range 64) (fun c => decide (c.state ≠ .halted))
  else decide ((s.coreAt .a t).state = .halted ∨ (s.coreAt .b t).state = .halted)

/-- The target holds no running image (R374). -/
def State.targetEmpty (s : State) (t : Nat) : Bool := (s.runningOf t).isNone

def State.modAct (s : State) (f : Activation → Activation) : State := s.modFw (fun x => { x with act := x.act.map f })

/-- The activation has ended: Thyme admits again, a held core runs. -/
def State.endAct (s : State) (code detail : Nat) : State :=
  match s.hub.fw.act with
  | none => s
  | some a =>
    let t := (s.modFw (fun f => { f with act := none })).modThyme (fun x => { x with drain := false })
    let run (c : HubCore) : HubCore := if c.state = .held then { c with state := .running } else c
    let t := (t.modCore .a 2 run).modCore .b 2 run
    t.complete a.cmd code detail

/-- The stops that an activation of target `t` ran over are cleared by its success (R367, R377). -/
def clearStops (t : Nat) (s : State) : State :=
  if t = 3 then s.modRegions (fun g => g.modClusters (fun u => u.modCore (fun x =>
    if x.stopHeld then { x with stopHeld := false, restarts := [] } else x)))
  else
    let f (c : HubCore) : HubCore := if c.stopHeld then { c with stopHeld := false, recent := [] } else c
    (s.modCore .a t f).modCore .b t f

/-- Step 6 and 7 of R372: the counter advances in both hubs, in the one that takes part where the other is absent (R359), and
the completion is OK. -/
def State.finishAct (s : State) : State :=
  match s.hub.fw.act with
  | none => s
  | some a =>
    let s := clearStops a.target (if a.target = 3 then s.modFw (fun f => { f with chiveBank := !f.chiveBank }) else s)
    let v := ((s.runningOf a.target).map FwImage.secVer).getD 0
    let up (h : Hub) (s : State) : State := if (s.hubOf h).role = .absent then s else s.raiseArb h a.target v
    (up .b (up .a s)).endAct codeOk 0

/-- A hub core exchanges its banks (R372, R376): from a bank with no image it holds none; an empty or stopped one starts; a
running one restarts. Going back, one that had been stopped stops again (R367). -/
def flipHubCore (h : Hub) (k : Nat) (back : Bool) (s : State) : State :=
  let was := s.coreAt h k
  let t := s.modCore h k (fun c => { c with bank := !c.bank })
  if (t.coreAt h k).image.isNone then
    t.modCore h k (fun c => { c with state := .empty, switching := false, stopHeld := false, data := ⟨0, []⟩ })
  else if back ∧ (was.stopHeld ∨ was.state = .stopped) then
    t.modCore h k (fun c => { c with state := .stopped, switching := false, stopHeld := false })
  else if was.state = .empty then t.modCore h k (fun c => { c with state := .restarting, switching := true })
  else if was.state = .stopped then (runAgain h k 3 t).modCore h k (fun c => { c with switching := true, stopHeld := true })
  else (restartHubCore h k 3 t).modCore h k (fun c => { c with switching := decide (c.state = .restarting) })

/-- The active bank of a hub's core as the activation began. -/
def Activation.bankAt (a : Activation) : Hub → Bool
  | .a => a.fromA
  | .b => a.fromB

/-- The hubs whose cores take part in the activation: the owner and a standby that is STANDBY VALID (R372). -/
def State.actHubs (s : State) : List Hub := s.owner.toList ++ s.validStandby.toList

/-- The activation goes back (R376): every core of the target that stands in its new bank switches back; it has ended once none
restarts. -/
def goBack (a : Activation) (s : State) : State :=
  let hs := s.actHubs
  let t := s.modAct (fun a => { a with back := true })
  let t := (hs.filter (fun h => (s.coreAt h a.target).bank != a.bankAt h)).foldl (fun (u : State) h => flipHubCore h a.target true u) t
  if hs.any (fun h => (t.coreAt h a.target).switching) then t else t.endAct codeBadArg 0xB5

/-- A hub core's turn in the activation (R372, R376, R377): one that restarts is waited for; one in its old bank, running or
stopped, switches; one that stands stopped in its new bank has failed, as has one that the restart of its switch stops (R367);
after one that is up in its new bank `next` follows. -/
def coreTurn (a : Activation) (h : Hub) (next : State → State) (s : State) : State :=
  let c := s.coreAt h a.target
  if c.state = .restarting then s
  else if c.bank = a.bankAt h then
    let t := flipHubCore h a.target false s
    if (t.coreAt h a.target).state = .stopped then goBack a t else t
  else if c.state = .stopped ∨ c.state = .empty then goBack a s
  else next s

/-- Step 5 of R372: the owning hub's core; with it up step 6 follows. -/
def ownerStep (a : Activation) (s : State) : State :=
  match s.owner with
  | none => s
  | some h => coreTurn a h State.finishAct (s.modAct (fun a => { a with step := 5 }))

/-- What the activation of a hub target in steps 4 to 6 does next, as its cores stand (R372, R376, R377): nothing while the security
core is halted (R494). -/
def switchStep (s : State) : State :=
  match s.hub.fw.act with
  | none => s
  | some a =>
    if a.target = 3 ∨ a.step < 4 ∨ s.secHalted then s
    else if a.back then goBack a s
    else if a.step = 5 then ownerStep a s
    else match s.validStandby with
    | none => ownerStep a s
    | some w => coreTurn a w (ownerStep a) s

/-- A Chive exchanges its banks and restarts (R375, R376), as a hub core does. -/
def flipChive (c : Nat) (back : Bool) (s : State) : State :=
  let was := (s.cluster c).core
  let setC (f : ChiveCore → ChiveCore) (s : State) : State := s.modCluster c (fun u => u.modCore f)
  let t := setC (fun x => { x with bank := !x.bank, switched := true, due := false }) s
  if (t.chiveImage c).isNone then setC (fun x => { x with state := .empty, switched := false, stopHeld := false }) t
  else if back ∧ (was.stopHeld ∨ was.state = .stopped) then
    setC (fun x => { x with state := .stopped, switched := false, stopHeld := false }) t
  else if was.state = .empty then setC (fun x => { x with state := .restarting }) t
  else if was.state = .stopped then setC (fun x => { x with stopHeld := true }) (runChiveAgain c 3 t)
  else restartChive c 3 t

/-- A live Chive's turn in a wave: one that is restarting switches when it is READY (R377); one that has switched already, for the
owner before, does not again. -/
def switchChive (c : Nat) (s : State) : State :=
  let u := s.cluster c
  if u.ctl.spared ∨ u.core.bank ≠ s.hub.fw.chiveBank then s
  else if u.core.state = .restarting then s.modCluster c (fun u => u.modCore (fun x => { x with switched := true, due := true }))
  else flipChive c false s

def waveRegions (w : Nat) : List Nat := (List.range 8).map (fun i => 8 * w + i)

/-- The clusters of a wave. -/
def waveClusters (w : Nat) : List Nat := (waveRegions w).flatMap (fun r => (List.range 576).map (fun c => 576 * r + c))

/-- A wave of an activation that goes back: the Chives that had switched take part (R376). -/
def backWave (w : Nat) (s : State) : State :=
  let t := s.modAct (fun a => { a with step := 4, wave := w, back := true })
  let t := t.modRegions (fun g => g.modClusters (fun u => u.modCore (fun x => if x.due then { x with due := false, switched := false } else x)))
  let old := s.hub.fw.chiveBank
  ((waveClusters w).filter (fun c => (t.cluster c).core.bank != old && !(t.cluster c).ctl.spared)).foldl (fun a c => flipChive c true a) t

/-- A Chive of the activation has stopped in its new bank before it was READY (R367, R376, R423). -/
def State.waveStopped (s : State) : Bool :=
  !s.allChives (List.range 64) (fun c => !(decide (c.state = .stopped) && c.switched && c.bank != s.hub.fw.chiveBank))

/-- A wave starts (R375); with a core that its restart stops the activation goes back (R376). -/
def startWave (w : Nat) (s : State) : State :=
  let t := (waveClusters w).foldl (fun a c => switchChive c a) (s.modAct (fun a => { a with step := 4, wave := w }))
  if t.waveStopped then backWave 0 t else t

/-- Every live Chive of the wave is READY, or has stopped. -/
def State.waveReady (s : State) (w : Nat) : Bool :=
  s.allChives (waveRegions w) (fun c => !c.switched || decide (c.state = .stopped))

/-- A Chive of the wave whose switch waited for its READY and that has stopped instead switches (R377). -/
def switchStopped (w : Nat) (s : State) : State :=
  ((waveClusters w).filter (fun c => (s.cluster c).core.due && decide ((s.cluster c).core.state = .stopped))).foldl
    (fun a c => flipChive c false a) s

/-- ACTIVATION_WAVE (R375, R376): the next wave starts when every core of this one is READY; the last ends the
activation. Going back, the waves end where no switched Chive is left. -/
def waveStep (s : State) : State :=
  match s.hub.fw.act with
  | none => s
  | some a =>
    if a.target ≠ 3 ∨ a.step ≠ 4 ∨ s.secHalted then s
    else if a.back then
      if s.waveReady a.wave = false then s
      else if a.wave < 7 ∧ s.allChives (List.range 64) (fun c => c.bank == s.hub.fw.chiveBank) = false then backWave (a.wave + 1) s
      else s.endAct codeBadArg 0xB5
    else
      let t := switchStopped a.wave s
      if t.waveStopped then backWave 0 t
      else if t.waveReady a.wave = false then t
      else if a.wave < 7 then startWave (a.wave + 1) t else t.finishAct

/-- Step 4 of R372: the standby's core, or the first wave. -/
def startSwitch (s : State) : State :=
  match s.hub.fw.act with
  | none => s
  | some a =>
    if a.target = 3 then startWave 0 (s.modAct (fun a => { a with deferred := false }))
    else switchStep (s.modAct (fun a => { a with deferred := false, step := 4 }))

/-- Step 3 of R372 for the scheduler target, else step 4. -/
def enterDrain (s : State) : State :=
  match s.hub.fw.act with
  | none => s
  | some a =>
    if a.target = 2 then
      let t := (s.modAct (fun a => { a with step := 3, drained := 0, deferred := false })).modThyme (fun x => { x with drain := true })
      t.modCore (s.owner.getD .a) 2 (fun c => if c.state = .running then { c with state := .held } else c)
    else startSwitch s

/-- An emergency holds the activation back: DEFERRED once, or REJ_EMERG with no wait allowed (R306). -/
def deferAct (s : State) : State :=
  match s.hub.fw.act with
  | none => s
  | some a =>
    if a.deadline = 0 then s.endAct codeEmerg 0x53
    else
      let t := (s.modAct (fun a => { a with step := 2, deferred := true, said := true })).modThyme (fun x => { x with drain := false })
      let t := t.modCore (s.owner.getD .a) 2 (fun c => if c.state = .held then { c with state := .running } else c)
      if a.said then t else t.completeInterim a.cmd 0 (leBytes 1 s.actCause)

/-- The checks of an activation, in the order of R371. -/
def activateCheck (s : State) (t : Taken) : Option (Nat × Nat) :=
  let target := byteAt t.entry 8
  if s.cfgBit 0x3000 20 = false then some (codeLocked, 0)
  else if 3 < target then some (codeBadArg, 0xB0)
  else match s.stagedOf target with
  | none => some (codeBadArg, 0xB0)
  | some img =>
    if img.secVer < s.arb target then some (codeAuth, 0xA2)
    else if (s.runningOf target).any (fun x => x.stateVer != img.stateVer) then some (codeBadArg, 0xB2)
    else if s.targetHalted target then some (codeBadArg, 0xB7)
    else if s.safeNow then some (codeEmerg, 0x54)
    else none

/-- FIRMWARE_ACTIVATE (R306, R372–R375). -/
def activate (t : Taken) (s : State) : State :=
  match activateCheck s t with
  | some (c, d) => s.complete t.cmd c d
  | none =>
    let target := byteAt t.entry 8
    let u := (s.begin t).modFw (fun f => { f with act := some {
      cmd := t.cmd, target := target, deadline := leAt t.entry 0x0A 2, since := t.since
      fromA := (s.coreAt .a target).bank, fromB := (s.coreAt .b target).bank } })
    if s.targetEmpty target then startSwitch u
    else if s.actCause ≠ 0 then deferAct u
    else enterDrain u

def execFirmwareActivate (s : State) : Host.Outcome State Fault Refusal :=
  .next (journaled (runTaken opActivate (fun _ => s.hub.fw.act.isNone) activate) s)

/-- ACTIVATION_RESUME (R373): at the first boundary with no emergency in force and no core of the target halted. -/
def resumeAct (s : State) : State :=
  match s.hub.fw.act with
  | none => s
  | some a =>
    if s.inControl ∧ a.deferred ∧ s.actCause = 0 ∧ s.targetHalted a.target = false ∧ s.secHalted = false then enterDrain s else s

def execActivationResume (s : State) : Host.Outcome State Fault Refusal := .next (journaled resumeAct s)

/-- ACTIVATION_DEADLINE (R306, R373): DEADLINE_MS counts 1,000 control periods to the millisecond from the taking of the
entry. -/
def deadlineAct (s : State) : State :=
  match s.hub.fw.act with
  | none => s
  | some a => if s.inControl ∧ a.deferred ∧ 1000 * a.deadline ≤ (s.period - a.since).toNat then s.endAct codeEmerg 0x53 else s

def execActivationDeadline (s : State) : Host.Outcome State Fault Refusal := .next (journaled deadlineAct s)

/-- The boundary that ends step 3 tests the emergency again (R372); a halt of a core of the target does not hold step 4 back,
as it does a deferred activation (R495). -/
def drainEnds (s : State) : State :=
  match s.hub.fw.act with
  | none => s
  | some _ =>
    if s.secHalted then s
    else if s.safeNow then s.endAct codeEmerg 0x54
    else if s.actCause ≠ 0 then deferAct s
    else startSwitch s

/-- ACTIVATION_DRAIN_LIMIT (R372): after 1,000 control periods step 4 begins anyway. -/
def drainLimit (s : State) : State :=
  match s.hub.fw.act with
  | none => s
  | some a => if s.inControl ∧ a.step = 3 ∧ 1000 ≤ a.drained then drainEnds s else s

def execActivationDrainLimit (s : State) : Host.Outcome State Fault Refusal := .next (journaled drainLimit s)

/-- An activation at a control-period boundary: its counts, the end of the drain, the end of a deferral in the safe state
(R377), a wave that a spare-out completed, the switches of a hub target. -/
def actAtBoundary (s : State) : State :=
  match s.hub.fw.act with
  | none => s
  | some a =>
    let t := s.modAct (fun a => { a with drained := if a.step = 3 then a.drained + 1 else a.drained })
    if s.inControl = false then t
    else if a.deferred ∧ s.safeNow then t.endAct codeEmerg 0x54
    else if a.step = 3 ∧ s.hub.thyme.inflight = 0 then drainEnds t
    else switchStep (waveStep t)

/-- The scheduler core of the owning hub is held while Thyme drains (R372). -/
def holdDrained (s : State) : State :=
  match s.hub.fw.act, s.owner with
  | some a, some h =>
    if a.step = 3 then s.modCore h 2 (fun c => if c.state = .running then { c with state := .held } else c) else s
  | _, _ => s

/-- CORE_READY (R365, R366): held work resumes. -/
def coreReady (core : CoreId) (s : State) : State :=
  match core with
  | .hub h k =>
    let c := s.coreAt h k
    if c.state ≠ .restarting then s
    else
      let t := switchStep (holdDrained (s.modCore h k (fun c => { c with state := .running, switching := false })))
      let t := if k = 1 then releaseNmi h t else t
      if k = 2 ∧ t.owner = some h then groupsReady (thymeReady t) else t
  | .chive c =>
    if (s.cluster c).core.state ≠ .restarting then s
    else
      let t := s.modCluster c (fun u => u.modCore (fun x => { x with state := .running, switched := x.due }))
      waveStep (if (t.cluster c).core.due then flipChive c false t else t)

def execCoreReady (core : CoreId) (s : State) : Host.Outcome State Fault Refusal := .next (journaled (coreReady core) s)

/-- READY_TIMEOUT (R365, R367, R376): restarted again, which counts; a core that had switched goes back to its previous bank,
and so do the others of its target that had. What the activation does with one that stops instead, its next step says. -/
def readyTimeout (core : CoreId) (s : State) : State :=
  if s.coreState core ≠ .restarting then s
  else
    let back := match s.hub.fw.act with | some a => a.back | none => true
    match core with
    | .hub h k =>
      match s.hub.fw.act with
      | some a =>
        if (s.coreAt h k).switching && !a.back then goBack a s else switchStep (restartHubCore h k (s.coreAt h k).why s)
      | none => restartHubCore h k (s.coreAt h k).why s
    | .chive c =>
      if (s.cluster c).core.switched && !back && !(s.cluster c).core.due then waveStep (backWave 0 s)
      else waveStep (restartChive c (s.cluster c).core.why s)

def execReadyTimeout (core : CoreId) (s : State) : Host.Outcome State Fault Refusal := .next (journaled (readyTimeout core) s)

/-- A new owner takes an activation up (R377): a core not yet switched is switched. -/
def adoptActivation (s : State) : State := switchStep (waveStep (holdDrained s))

end Sys2Proof.Machine
end

