-- ==== Sys2Proof/Machine/Collector.lean ====
section
/-!
DEFINITION. The fault collector of each hub (R405–R426): classes and escalation, reactions, clearing, modes, forces, the
parity scan and the safe state.
-/

namespace Sys2Proof.Machine

/-! ### State of a collector -/

def Collector.source (c : Collector) (n : Nat) : Source := c.sources.get n
def Collector.modSource (c : Collector) (n : Nat) (f : Source → Source) : Collector :=
  { c with sources := c.sources.modify n f }

def State.coll (s : State) (h : Hub) : Collector := (s.hubOf h).coll
def State.modColl (s : State) (h : Hub) (f : Collector → Collector) : State :=
  s.modHubOf h (fun u => { u with coll := f u.coll })

/-- A hub's collector runs: register access is open and the hub's start has not ended under R460. -/
def State.collOn (s : State) (h : Hub) : Bool := s.pow.regOpen && !(s.hubOf h).start.ended

/-- A fatal event is pending. -/
def Collector.fatal (c : Collector) : Bool := c.sources.any 256 (fun x => x.pend && x.cls == 2)

/-- MODE of FC_STATE (R417): 0 NORMAL, 1 START, 2 TEST, 3 RECOVERY, 4 FROZEN, the highest-ranking that holds. -/
def Collector.mode (c : Collector) : Nat :=
  if c.frozen then 4 else if c.recovery || c.fatal then 3 else if c.test then 2 else if c.start then 1 else 0

/-- The hub drives FAULT_N low (R414, R460). -/
def Collector.faultPin (c : Collector) : Bool := c.frozen || c.monFault || c.sources.any 256 (fun x => x.pend && x.pin)

/-- A hub drives FAULT_N low (R414, R441, R500, R501). -/
def State.faultLow (s : State) (h : Hub) : Bool := s.pow.ioUp && (s.coll h).faultPin

/-- FAULT_N follows at both hubs. -/
def faultPins (before s : State) : State :=
  let drive (a : State) (h : Hub) : State :=
    if before.faultLow h = s.faultLow h then a else a.emit (.pin "FAULT_N" h (s.faultLow h))
  drive (drive s .a) .b

/-- A roll-up's region and kind (R405). -/
def rollOf (src : Nat) : Option (Nat × Nat) := if src < 192 then some (src % 64, src / 64) else none

/-- A held cause of a source holds, or its pair still signals an event not yet taken (R406, R408). -/
def State.srcActive (s : State) (src : Nat) : Bool :=
  (match rollOf src with
  | some (r, k) => ((s.gov r).roll k).held != 0
  | none => false) || s.events.any (fun e => e.src == src && !e.polled)

/-- Least class of a cause (R406, R407). -/
def leastClass (src cause : Nat) : Nat :=
  match rollOf src with
  | some (_, 0) => [0, 1, 2].getD cause 0
  | some (_, 1) => [0, 1, 1, 1, 0, 1, 1, 1, 1].getD cause 0
  | some (_, _) => [0, 0, 1, 0, 1, 0, 1, 0, 2, 1].getD cause 0
  | none =>
    match src with
    | 192 | 193 | 197 | 199 | 202 | 206 | 207 | 209 | 210 => 1
    | 194 => [0, 0, 1].getD cause 0
    | 195 | 200 | 204 | 211 => [0, 1].getD cause 0
    | 198 => 1
    | 201 => [0, 1, 2].getD cause 0
    | 203 => [0, 2].getD cause 0
    | 205 => [1, 2].getD cause 0
    | 208 => [0, 1, 1].getD cause 0
    | _ => 0

/-- A source's window in control periods; 0 where counting is disabled (R412). -/
def State.fcWindow (s : State) (src : Nat) : Nat :=
  s.cfg (offFc src) 16 16 * (if s.cfgBit (offFc src) 2 then 100 else 1)

/-- The reaction set of a class (R413): bit 0 INT, 1 NMI, 2 BLOCK, 3 CHIP, 4 PIN. -/
def State.reactions (s : State) (src cls : Nat) : Nat :=
  if cls = 0 then s.cfg (offFc src + 4) 0 5 else if cls = 1 then s.cfg (offFc src + 4) 8 5 else s.cfg (offFc src + 4) 16 5

/-! ### Taking an event -/

/-- The class of an event and the source's counts after it (R412); a forced event counts under a cause of its own. -/
def classify (now base win n least cause : Nat) (counts : List (Nat × Nat)) : Nat × List (Nat × Nat) :=
  let c := max (min base 2) least
  if win = 0 then (c, counts)
  else
    let l := counts.filter (fun p => decide (p.1 ≠ cause ∨ now ≤ p.2 + win)) ++ [(cause, now)]
    if n ≤ (l.filter (fun p => p.1 == cause)).length then (min 2 (c + 1), l.filter (fun p => p.1 != cause)) else (c, l)

/-- The source names a block (R407, R413): a roll-up the governor-side unit of its cause, FW_PROT and FW_MEM a core, MIRROR the
link. -/
def hasBlock (src : Nat) : Bool := src < 192 || src == 197 || src == 200 || src == 211

/-- BLOCK_RESET (R407, R413): the block that the source names, if it names one; it touches no limit. A firmware core restarts; the
dropped lanes of the mirror link retrain (R512). A governor-side unit has no state that the spec gives to it alone
(notes/assumptions/75.md). -/
def blockReset (e : Event) (s : State) : State :=
  if hasBlock e.src = false then s
  else
    let t := s.emit (.blockReset e.src e.cause)
    let t := if e.src = 211 then t.modPair (fun p => { p with training := ~~~p.lanes }) else t
    match e.core with
    | some c => restartCore c 2 t
    | none => t

/-- The reactions of a set (R413, R415): INT, NMI, BLOCK and CHIP at the owning hub alone, which notes for the journal that those of
the source's class are done (R424). -/
def react (h : Hub) (e : Event) (set : Nat) (s : State) : State :=
  if s.owner ≠ some h then s
  else
    let s := s.modHub (fun x => { x with
      reacted := x.reacted.set e.src (max (x.reacted.get e.src) (((s.coll h).source e.src).cls + 1)) })
    let held := e.forced && (s.coll h).suppress
    let t := if bitOf set 0 then s.hubEmit (.msix 10) else s
    let t := if bitOf set 1 then deliverNmi h e.src t else t
    let t := if bitOf set 2 && !held then blockReset e t else t
    if bitOf set 3 && !held then
      let u := (t.modColl h (fun c => { c with crst := true, crstLeft := 1000 })).modPow (fun p => { p with crstAgo := 0 })
      if (t.coll h).crst then u else u.pin "CRST_REQ_N" h true
    else t

/-- ARG of a FAULT record (R428). -/
def faultArg (src : Nat) (x : Source) : Word :=
  BitVec.ofNat 32 (x.cause.toNat + 0x10000 * src + 0x1000000 * x.cls + 0x4000000 * bitNat x.forced)

/-- The node and level of a source's records (R428). -/
def State.faultNode (s : State) (src : Nat) : Nat := match rollOf src with | some (r, _) => nodeGov r | none => s.ownerNode
def faultLevel (src : Nat) : Nat := if src < 192 then 2 else 3

/-- The escalation counts of a source go into the image with the owning hub's collector (R389). -/
def State.noteCounts (s : State) (h : Hub) (src : Nat) (counts : List (Nat × Nat)) : State :=
  if s.owner = some h then s.modHub (fun x => { x with fcCounts := x.fcCounts.set src counts }) else s

/-- The class and the counts after several causes of one sample (R424): each counts, and the highest class stands. -/
def classifyAll (now base win n : Nat) (causes : List (Nat × Nat)) (counts : List (Nat × Nat)) : Nat × List (Nat × Nat) :=
  causes.foldl (fun acc c =>
    let (cls, l) := classify now base win n c.1 c.2 acc.2
    (max acc.1 cls, l)) (0, counts)

/-- A lower-numbered source that the same sample took waits for its record (R424). -/
def Collector.lowerDue (c : Collector) (src : Nat) : Bool :=
  (List.range src).any (fun n => (c.source n).recDue && (c.source n).sample == c.sample)

/-- An event reaches a collector (R408, R409, R412, R418, R421), with the further causes of its roll-up that the same sample
shows (R424): not while it is frozen, and not through a broken pair unless the event is forced or was found by the poll of
R410, which finds a wafer-wide source's later. ARG is that of R426. The record of a wafer-wide source is appended at once, but
after a lower-numbered roll-up's of the same sample. -/
def takeEvent (h : Hub) (e : Event) (s : State) (more : List Nat := []) : State :=
  let c := s.coll h
  let x := c.source e.src
  if s.collOn h = false ∨ c.frozen then s
  else if x.broken ∧ e.forced = false ∧ e.polled = false then
    if e.src < 192 ∨ (e.src, e.cause) ∈ c.missed then s
    else s.modColl h (fun c => { c with missed := c.missed ++ [(e.src, e.cause)] })
  else
    let s := if e.polled then s.modColl h (fun c => { c with missed := c.missed.erase (e.src, e.cause) }) else s
    let least := if e.forced then 0 else e.least.getD (leastClass e.src e.cause)
    let (cls, counts) := classifyAll s.now (s.cfg (offFc e.src) 0 2) (s.fcWindow e.src) (s.cfg (offFc e.src) 8 8)
      ((least, if e.forced then 16 else e.cause) :: more.map (fun k => (leastClass e.src k, k))) x.counts
    let bit : BitVec 16 := if e.forced ∨ (e.src < 192 ∧ e.polled = false) then 0 else BitVec.ofNat 16 (2 ^ e.cause)
    let s := s.noteCounts h e.src counts
    if x.pend then
      let top := max x.cls cls
      let more := if x.cls < cls then s.reactions e.src cls &&& (0x1F ^^^ s.reactions e.src x.cls) else 0
      react h e more (s.modColl h (fun c => c.modSource e.src (fun x => { x with
        cls := top, merged := satAdd 0xFF x.merged 1, counts := counts, cause := x.cause ||| bit
        forced := x.forced, pin := x.pin || bitOf more 4 })))
    else
      let set := s.reactions e.src cls
      let x' : Source := { x with
        pend := true, cls := cls, forced := e.forced, merged := 0, cause := x.cause ||| bit, counts := counts
        arg := if e.src = 192 ∨ e.src = 193 then e.arg else 0
        pin := bitOf set 4, recDue := decide (e.src < 192) || c.lowerDue e.src, latchIn := false, sample := c.sample }
      let t := s.modColl h (fun c => c.modSource e.src (fun _ => x'))
      let t := if x'.recDue ∨ s.owner ≠ some h then t
        else t.record 0x08 (faultLevel e.src) 0 (t.faultNode e.src) (faultArg e.src x')
      react h e set t

/-- The event waiting at the lowest-numbered source (R424). -/
def State.nextEvent (s : State) : Option Event :=
  match (s.events.map Event.src).min? with
  | some n => s.events.find? (fun e => e.src == n)
  | none => none

/-- The further causes that one sample of a roll-up's pair shows with an event (R424): those of the source that wait with it,
each once. -/
def State.joined (s : State) (e : Event) : List Event :=
  if e.src < 192 then
    (List.range 16).filterMap (fun k => if k = e.cause then none
      else s.events.find? (fun x => x.src == e.src && x.cause == k && x.polled == e.polled))
  else []

/-- An event reaches both hubs' collectors; one that a poll found the owning hub's alone, where its pair is broken (R410). -/
def takeBoth (e : Event) (more : List Nat) (s : State) : State :=
  if e.polled then
    match s.owner with
    | some h => if ((s.coll h).source e.src).broken then takeEvent h e s more else s
    | none => s
  else takeEvent .b e (takeEvent .a e s more) more

/-- FAULT_EVENT (R412, R424): both hubs' collectors sample the pair (R408, R415), once one runs. Events that wait together count as
one sample, taken in source-number order. -/
def faultEvent (s : State) : State :=
  if s.collOn .a = false ∧ s.collOn .b = false then s
  else match s.nextEvent with
  | none => s
  | some e =>
    let js := s.joined e
    let t := { s with events := (e :: js).foldl List.erase s.events }
    let next (c : Collector) : Collector := if t.events = [] then { c with sample := c.sample + 1 } else c
    faultPins s (((takeBoth e (js.map Event.cause) t).modColl .a next).modColl .b next)

def execFaultEvent (s : State) : Host.Outcome State Fault Refusal := .next (journaled faultEvent s)

/-- The FAULT record of a source leaves a collector; the owning hub's is appended (R415). -/
def faultRecord (h : Hub) (src : Nat) (s : State) : State :=
  let x := (s.coll h).source src
  let t := s.modColl h (fun c => c.modSource src (fun x => { x with recDue := false, latchIn := false }))
  if t.owner = some h then t.record 0x08 (faultLevel src) 0 (t.faultNode src) (faultArg src x) else t

/-- The records that wait at a hub leave in source-number order (R424): a roll-up's once its cause register is latched, each after
the lower-numbered ones of its sample. -/
def flushRecords (h : Hub) (s : State) : State :=
  ((s.coll h).sources.listed 256).foldl (fun (a : State) p =>
    let x := (a.coll h).source p.1
    let blocked := (List.range p.1).any (fun n => ((a.coll h).source n).recDue && ((a.coll h).source n).sample == x.sample)
    if x.recDue && (x.latchIn || decide (192 ≤ p.1)) && !blocked then faultRecord h p.1 a else a) s

/-- CAUSE_REGISTER_LATCH (R405, R415): the hubs latch a roll-up's cause register, but a broken pair's through the poll alone (R410),
and the owner's FAULT record of a source that waits for it is appended. -/
def latchCause (r k : Nat) (s : State) : State :=
  if (r, k) ∉ s.latches then s
  else
    let src := 64 * k + r
    let bits := ((s.gov r).roll k).latched
    let put (t : State) (h : Hub) : State :=
      if t.collOn h = false ∨ (t.coll h).frozen then t
      else flushRecords h (t.modColl h (fun c => c.modSource src (fun x => { x with
        cause := if x.broken then x.cause else x.cause ||| bits, latchIn := x.latchIn || (x.pend && x.recDue) })))
    put (put { s with latches := s.latches.erase (r, k) } .a) .b

def execCauseRegisterLatch (r : RegionId) (roll : Fin 3) (s : State) : Host.Outcome State Fault Refusal :=
  .next (journaled (latchCause r roll) s)

/-! ### Clearing -/

/-- A 1 written to a PEND bit at one collector (R416): the FAULT record that is still due goes before the FAULT_CLEAR (R431). -/
def clearAt (h : Hub) (src : Nat) (s : State) : State :=
  let c := s.coll h
  let x := c.source src
  if c.frozen ∨ x.pend = false then s
  else if s.srcActive src then s.modColl h (fun c => { c with clrRefused := true })
  else
    let bits := match rollOf src with | some (r, k) => if x.broken then 0 else ((s.gov r).roll k).latched | none => 0
    let s := if x.recDue then
        faultRecord h src (s.modColl h (fun c => c.modSource src (fun x => { x with cause := x.cause ||| bits })))
      else s
    let t := s.modColl h (fun c => c.modSource src (fun x => { x with
      pend := false, cls := 0, merged := 0, forced := false, cause := 0, arg := 0, pin := false }))
    let t := flushRecords h t
    if s.owner = some h then
      let t := t.modHub (fun y => { y with reacted := y.reacted.set src 0 })
      let t := t.record 0x09 (faultLevel src) 0 t.ownerNode
        (BitVec.ofNat 32 (src + 0x100 * x.merged + 0x10000 * x.cls))
      match rollOf src with
      | some (r, k) =>
        let t := t.hubSend (.clearCause r k)
        { (t.modGov r (fun g => g.modRoll k (fun u => { u with latched := 0 }))) with latches := t.latches.erase (r, k) }
      | none => t
    else t

/-- FC_PEND_CLEAR (R391, R416): the write reaches both hubs. -/
def pendClear (src : Nat) (s : State) : State :=
  if s.pow.regOpen = false then s else faultPins s (clearAt .b src (clearAt .a src s))

def execFcPendClear (src : SourceId) (s : State) : Host.Outcome State Fault Refusal := .next (journaled (pendClear src) s)

/-! ### Forces and modes -/

/-- A force at both collectors where TEST is 1 (R421). -/
def forceEvent (src : Nat) (s : State) : State :=
  if s.pow.regOpen = false then s
  else
    let e : Event := { src := src, cause := 0, forced := true }
    let one (t : State) (h : Hub) : State := if (t.coll h).test then takeEvent h e t else t
    let t := faultPins s (one (one s .a) .b)
    match rollOf src with
    | some p => if ((s.coll .a).test && !(s.coll .a).frozen) ∨ ((s.coll .b).test && !(s.coll .b).frozen) then
        { t with latches := if p ∈ t.latches then t.latches else t.latches ++ [p] } else t
    | none => t

def execFcForce (src : SourceId) (s : State) : Host.Outcome State Fault Refusal := .next (journaled (forceEvent src) s)

/-- TEST_MODE_WRITE (R417, R421, R426): TEST is set only while TEST_EN is 1. -/
def testMode (test suppress : Bool) (s : State) : State :=
  if s.pow.regOpen = false then s
  else
    let en := s.cfgBit 0x20000 0
    let put (c : Collector) : Collector :=
      if c.frozen then c else { c with test := if test then (if en then true else c.test) else false, suppress := suppress }
    (s.modColl .a put).modColl .b put

def execTestModeWrite (test suppress : Bool) (s : State) : Host.Outcome State Fault Refusal := .next (testMode test suppress s)

/-- A pair is broken at one hub's collector (R409): its bit in FC_BROKEN, and an event on BROKEN_WIRE that carries its
number. -/
def breakPair (h : Hub) (src : Nat) (s : State) : State :=
  let c := s.coll h
  if s.collOn h = false ∨ c.frozen ∨ (c.source src).broken then s
  else takeEvent h { src := 192, cause := 0, arg := src, polled := true }
    (s.modColl h (fun c => c.modSource src (fun x => { x with broken := true })))

/-- BROKEN_PAIR (R409). -/
def execBrokenPair (h : Hub) (src : SourceId) (s : State) : Host.Outcome State Fault Refusal :=
  .next (journaled (fun s => faultPins s (breakPair h src s)) s)

/-- FB_GO (R421): the collectors in test see the pair as broken. -/
def forceBroken (src : Nat) (s : State) : State :=
  if s.pow.regOpen = false then s
  else
    let one (t : State) (h : Hub) : State := if (t.coll h).test then breakPair h src t else t
    faultPins s (one (one s .a) .b)

def execFbGo (src : SourceId) (s : State) : Host.Outcome State Fault Refusal := .next (journaled (forceBroken src) s)

/-- EOH (R418): the end of NMI handling; one further trap if a source that came due meanwhile is still pending at a class
with NMI in its set. -/
def endOfHandling (s : State) : State :=
  match s.owner with
  | none => s
  | some h =>
    let c := s.coll h
    if s.pow.regOpen = false ∨ c.frozen ∨ c.nmiBusy = false then s
    else
      let due := c.nmiAgain.filter (fun n => (c.source n).pend && bitOf (s.reactions n (c.source n).cls) 1)
      let t := s.modColl h (fun c => { c with nmiBusy := false, nmiAgain := [] })
      match due.min? with
      | some n => deliverNmi h n t
      | none => t

def execEoh (s : State) : Host.Outcome State Fault Refusal := .next (journaled endOfHandling s)

/-- CRST_REQ_END (R501): the request has stood 75,000 CLK_SLOW cycles, 1,000 control periods, after the latest CHIP reaction. -/
def crstEnd (h : Hub) (s : State) : State :=
  if (s.coll h).crst ∧ (s.coll h).crstLeft = 0 then
    (s.modColl h (fun c => { c with crst := false })).pin "CRST_REQ_N" h false else s

def execCrstReqEnd (h : Hub) (s : State) : Host.Outcome State Fault Refusal := .next (crstEnd h s)

/-! ### Parity and the safe state -/

/-- A governor latches the SAFE level (R420 steps 3–5, R139, R173): safe force, static margin, no V_op and no V_load; its
reservations end with their grants (R58). With the engine clock stopped the held codes stand (R26, R158). -/
def safeRegion (r : Nat) (s : State) : State :=
  let t := (s.modGov r (fun g => { g with safe := true })).modRegion r (fun g =>
    let g := g.resvs.foldl (fun a v => dropResv v.grant a) g
    let g := if (s.gov r).engine then g.modClusters (Cluster.mapLimiters (Limiter.applyForce false true false)) else g
    ({ g.modSp (fun p => { p with m := 60, vOp := 0, vLoad := 0 }) with
      resvs := [], margin := { g.margin with goStatic := false, newM := none } }.voidPeriod).stick 4)
  commitSetpoint r (t.abandonNow r)

/-- SAFE_STATE (R58, R259, R420): the collectors freeze with the offset and the mode, SAFE goes out on the owner's root,
every governor latches it, every grant ends. -/
def enterSafe (off mode : Nat) (s : State) : State :=
  let act := (List.range 256).filter s.srcActive
  let freeze (c : Collector) : Collector :=
    { c with frozen := true, safeOfs := off, safeMode := mode, frozenAct := act, frozenAt := s.now }
  let t := (s.modColl .a freeze).modColl .b freeze
  let t := (t.emit .safeLevel).record 0x05 7 0 t.ownerNode (BitVec.ofNat 32 (off % 65536 + 0x10000 * mode))
  let t := (List.range 64).foldl (fun a r => safeRegion r a) (endAllGrants t)
  faultPins s t

/-- A collector register whose parity failed is restored (R419, R426): from the other hub's copy; to its reset value while the
pair is DEGRADED. A register holds its own fields alone: FC_STAT_n what is pending and the window's counts, FC_CAUSE_n the causes
and ARG. -/
def restoreRegister (h : Hub) (off : Nat) (degraded : Bool) (s : State) : State :=
  let o : Collector := if degraded then {} else s.coll h.other
  if 0x22000 ≤ off ∧ off < 0x22800 then
    let n := (off - 0x22000) / 8
    let y := o.source n
    s.modColl h (fun c => c.modSource n (fun x =>
      if off % 8 = 0 then { y with cause := x.cause, arg := x.arg, sample := x.sample }
      else { x with cause := y.cause, arg := y.arg }))
  else if 0x20020 ≤ off ∧ off < 0x20040 then
    (List.range 32).foldl (fun t b =>
      let n := 8 * (off - 0x20020) + b
      t.modColl h (fun c => c.modSource n (fun x => { x with pend := (o.source n).pend, pin := (o.source n).pin }))) s
  else if 0x20060 ≤ off ∧ off < 0x20080 then
    (List.range 32).foldl (fun t b =>
      let n := 8 * (off - 0x20060) + b
      t.modColl h (fun c => c.modSource n (fun x => { x with broken := (o.source n).broken }))) s
  else if off = 0x20004 then s.modColl h (fun c => { c with test := o.test, suppress := o.suppress })
  else if off = 0x20008 then
    s.modColl h (fun c => { c with
      clrRefused := o.clrRefused, nmiBusy := o.nmiBusy, nmiSrc := o.nmiSrc, nmiMerged := o.nmiMerged, nmiAgain := o.nmiAgain })
  else if off = 0x2000C then s.modColl h (fun c => { c with safeOfs := o.safeOfs, safeMode := o.safeMode })
  else if degraded ∧ 0x20000 ≤ off ∧ off < 0x22000 then s.modSetup (fun u => u.putWord off (regReset off))
  else s

/-- COLLECTOR_PARITY_SCAN (R419, R420): a failing register is restored in NORMAL mode, and puts Renoth in the safe state in
every other; a frozen collector does nothing. -/
def parityScan (h : Hub) (off : Nat) (s : State) : State :=
  let mode := (s.coll h).mode
  if s.collOn h = false ∨ mode = 4 then s
  else if mode = 0 then
    let deg := s.pair.degraded
    let t := restoreRegister h off deg s
    let t := { t with events := t.events ++ [{
      src := 193, cause := 0, arg := off / 4 % 256, least := if deg then some 2 else none }] }
    faultPins s t
  else enterSafe off mode s

def execCollectorParityScan (h : Hub) (bad : Option Nat) (s : State) : Host.Outcome State Fault Refusal :=
  .next (match bad with
    | none => s
    | some off => journaled (parityScan h off) s)

end Sys2Proof.Machine
end

