-- ==== Sys2Proof/Machine/Recorder.lean ====
section
/-!
DEFINITION. The event recorder: appends, folding, closing, the append queue (R427–R434) and the export (R315, R435).
-/

namespace Sys2Proof.Machine

/-- Two events fold into one record (R430). -/
def Rec.same (x y : Rec) : Bool :=
  x.code == y.code && x.level == y.level && x.argx == y.argx && x.source == y.source && x.arg == y.arg

/-- A record takes the next sequence number; the record 16,384 older is overwritten (R429). -/
def Recorder.push (jn : Nat) (x : Rec) (q : Recorder) : Recorder :=
  { q with
    head := q.head + 1
    recs := q.recs.filter (fun y => decide ((q.head - y.seq).toNat < 16384)) ++ [{ x with seq := q.head, rep := 1, jn := jn }]
    openRec := true, sinceRep := 0, sinceApp := 0, repSent := 1 }

/-- An event at the recorder (R430): folded into the open record it equals, or appended. -/
def Recorder.append (jn : Nat) (x : Rec) (q : Recorder) : Recorder :=
  match q.openRec, q.recs.getLast? with
  | true, some y =>
    if y.same x then
      let y' := { y with rep := y.rep + 1 }
      let q' := { q with recs := q.recs.dropLast ++ [y'], sinceRep := 0 }
      if y'.rep < 0xFFFF then q' else q'.close jn
    else (q.close jn).push jn x
  | _, _ => q.push jn x

/-- A record that stands first in the recorder after a reset, ahead of the append queue: COLD_START and WARM_RESET (R432,
R458 step 7). -/
def State.recordFirst (s : State) (code source : Nat) (arg : Word) : State :=
  s.modRecorder (fun q => (q.close s.nextJn).push s.nextJn
    { seq := 0, rep := 1, code := code, level := 7, argx := 0, source := source, arg := arg })

/-- A place that has freed in the append queue goes to a firmware append that waits (R431). -/
def Recorder.refill (q : Recorder) : Recorder :=
  match q.fwWait with
  | x :: rest => if q.queue.length < 256 then { q with fwWait := rest, queue := q.queue ++ [x] } else q
  | [] => q

/-- The next record to append (R431), with the queue after it: every record of the collector before any of firmware, those in the
queue, which came first, before those that found it full. -/
def Recorder.next (q : Recorder) : Option (Rec × Recorder) :=
  match q.queue with
  | [] => match q.held with
    | x :: rest => some (x, { q with held := rest })
    | [] => none
  | y :: ys =>
    if y.ofCollector then some (y, { q with queue := ys })
    else match q.held with
      | x :: rest => some (x, { q with held := rest })
      | [] => some (y, { q with queue := ys })

/-- RECORD_APPEND (R431): the next record is appended. -/
def appendNext (s : State) : State :=
  match s.hub.recorder.next with
  | none => s
  | some (x, q) => s.modRecorder (fun _ => (Recorder.append s.nextJn x q).refill)

def execRecordAppend (s : State) : Host.Outcome State Fault Refusal := .next (journaled appendNext s)

/-- RECORD_CLOSE (R430): 4 control periods without a repeat, or 1,000 from the append. -/
def closeRecord (s : State) : State :=
  let q := s.hub.recorder
  if q.openRec ∧ (4 ≤ q.sinceRep ∨ 1000 ≤ q.sinceApp) then s.modRecorder (Recorder.close s.nextJn) else s

def execRecordClose (s : State) : Host.Outcome State Fault Refusal := .next (journaled closeRecord s)

/-- A record not yet exported (R435). -/
def Recorder.unsent (q : Recorder) (x : Rec) : Bool :=
  decide (1 ≤ (x.seq - q.exported).toNat ∧ (x.seq - q.exported).toNat < 2 ^ 47)

/-- The recorder's counts at a control-period boundary (R315, R430); REPEAT of the open record is journaled now (R433). -/
def Recorder.tick (q : Recorder) : Recorder :=
  let aged (x : Rec) : Rec := if q.unsent x then { x with age := min 2 (x.age + 1) } else x
  { q with
    repSent := if q.openRec then (q.recs.getLast?.map Rec.rep).getD 1 else q.repSent
    sinceRep := if q.openRec then q.sinceRep + 1 else 0
    sinceApp := if q.openRec then q.sinceApp + 1 else 0
    recs := if q.openRec then q.recs.dropLast.map aged ++ q.recs.getLast?.toList else q.recs.map aged }

/-- The records recorded and not exported, oldest first (R315, R430, R435). -/
def Recorder.pending (q : Recorder) : List Rec :=
  let closed := if q.openRec then q.recs.dropLast else q.recs
  closed.filter q.unsent

/-- The records of the next entry: up to three in unbroken sequence. -/
def nextEntry : List Rec → List Rec
  | [] => []
  | x :: rest =>
    match rest with
    | [] => [x]
    | y :: rest2 =>
      if y.seq = x.seq + 1 then
        match rest2 with
        | [] => [x, y]
        | z :: _ => if z.seq = y.seq + 1 then [x, y, z] else [x, y]
      else [x]

/-- EVX_EXPORT (R315, R435): three records pending, the second boundary after the oldest was recorded, or a flush. -/
def exportNext (ok : Bool) (s : State) : State :=
  let q := s.hub.recorder
  let rs := q.pending
  let entry := nextEntry rs
  if s.inControl = false ∨ rs = [] ∨ s.writable 17 = false then s
  else if rs.length < 3 ∧ (rs.head?.map Rec.age).getD 0 < 2 ∧ q.flush = false then s
  else if entry.any (fun x => !s.mayLeave x.jn) then s
  else if ok = false then s.memError 17
  else
    let first := (entry.head?.map Rec.seq).getD 0
    let last := (entry.getLast?.map Rec.seq).getD 0
    let phase := phaseBit (s.ring 17).ci.toNat (s.ringSize 17)
    (s.wrote 17 (evxBytes phase (first != q.exported + 1) entry)).modRecorder (fun q => { q with
      exported := last, flush := q.flush && decide (entry.length < rs.length) })

def execEvxExport (writeOk : Bool) (s : State) : Host.Outcome State Fault Refusal := .next (journaled (exportNext writeOk) s)

/-- The sequence number of the record that the first slot of a block holds, or would hold had it not been lost before (R429,
R434): the largest below HEAD that goes there; its first where none has. -/
def Recorder.blockSeq (q : Recorder) (b : Nat) : Nat :=
  match q.recs.find? (fun x => x.seq.toNat % 16384 == 32 * b) with
  | some x => x.seq.toNat
  | none =>
    if q.head.toNat ≤ 32 * b then 32 * b else q.head.toNat - 1 - (q.head.toNat - 1 - 32 * b) % 16384

/-- The record that opens after a reset gets the claiming hub as its SOURCE (R428), which is not known when it is written (R458
steps 7 and 8). -/
def nameFirst (node : Nat) : List Rec → List Rec
  | [] => []
  | x :: rest => if x.code = 1 ∨ x.code = 2 then { x with source := node } :: rest else x :: nameFirst node rest

def Recorder.nameOwner (node : Nat) (q : Recorder) : Recorder := { q with recs := (nameFirst node q.recs.reverse).reverse }

/-- REC_LOSS (R434): with the pair DEGRADED a block that cannot be corrected is zeroed; otherwise it is restored. -/
def recorderLost (b : Nat) (s : State) : State :=
  if s.pair.degraded = false then s
  else
    let q := s.hub.recorder
    let lost (x : Rec) : Bool := x.seq.toNat % 16384 / 32 == b
    let t := s.modRecorder (fun q => { q with
      openRec := q.openRec && !(q.recs.getLast?.any lost)
      recs := q.recs.filter (fun x => !lost x)
      lostBlk := satAdd 0xFF q.lostBlk 1 })
    t.record 0x38 7 32 t.ownerNode (BitVec.ofNat 32 (q.blockSeq b))

end Sys2Proof.Machine
end

