-- ==== Sys2Proof/Machine/Registers.lean ====
section
/-!
DEFINITION. What a read of the register window returns (R467–R470, R474): identity and control, clocks and resets, the
pair, firmware, thermal and package status, margin and ageing, grants, groups, mailboxes, the emergency cap, the event
recorder, the rings, the fault collector, the region blocks, the wide-value window (R481, R483).
-/

namespace Sys2Proof.Machine

/-- A number at a bit position. -/
def at' (lo v : Nat) : Nat := v * 2 ^ lo

/-- A signed figure in a field of `w` bits. -/
def twos (w : Nat) (x : Int) : Nat := (x % (2 ^ w : Nat)).toNat

/-- The values of a list of figures, `w` bits each, the first lowest. -/
def packList (w : Nat) (l : List Nat) : Nat := l.foldr (fun x acc => x % 2 ^ w + 2 ^ w * acc) 0

/-! ### Set-up registers -/

/-- A set-up register as read (R474): in force, or with its shadow while SHADOW_SEL is 1. -/
def Setup.readWord (u : Setup) (off : Nat) : Nat :=
  match u.shadows.reverse.find? (fun x => x.offset == off) with
  | some x => if u.shadowSel then mergeBits (u.word off) x.word.toNat x.mask.toNat else u.word off
  | none => u.word off

/-! ### Identity, control, the wide-value window -/

/-- The lowest held instance (R483). -/
def Setup.lowestHeld (u : Setup) : Option HeldInst :=
  u.held.foldl (fun (acc : Option HeldInst) h => match acc with
    | some y => if h.gid < y.gid ∨ (h.gid = y.gid ∧ h.idx < y.idx) then some h else acc
    | none => some h) none

def identReg (s : State) (off : Nat) : Nat :=
  let u := s.setup
  match off with
  | 0x0000 => 0x0A710D1A
  | 0x0004 => Config.stepping.toNat + at' 8 1
  | 0x0008 => 0x40 + at' 8 0x240 + at' 24 2
  | 0x0010 => bitNat u.hold + at' 1 (bitNat u.shadowSel)
  | 0x0014 => bitNat s.pow.regOpen + at' 1 (bitNat (!u.held.isEmpty)) + at' 2 (bitNat u.lockWr) + at' 3 (bitNat u.accErr) +
      at' 4 (bitNat u.applyLate) + at' 16 (min u.held.length 0xFF)
  | 0x0018 => match u.lowestHeld with
    | some h => h.gid + at' 8 h.idx + at' 16 (min h.periods 0x7F)
    | none => 0
  | 0x0020 => u.wvWid + at' 8 u.wvIdx
  | 0x0024 => bitNat u.wvValid + at' 1 (bitNat u.wvBad) + at' 8 u.wvToken.toNat
  | 0x0028 => if u.wvValid then u.wvValue.toNat % 2 ^ 32 else 0
  | 0x002C => if u.wvValid then u.wvValue.toNat / 2 ^ 32 else 0
  | _ => 0

/-- A wide value that a hub holds (R481): none for an undefined WID or INDEX, and for those a governor holds. -/
def State.hubWide (s : State) (wid idx : Nat) : Option Nat :=
  let one (v : Nat) : Option Nat := if idx = 0 then some v else none
  match wid with
  | 0x01 => one s.period.toNat
  | 0x02 => one Config.waferId.toNat
  | 0x03 => if idx < 18 then some (s.setup.readWord (offRing idx) + 2 ^ 32 * s.setup.readWord (offRing idx + 4)) else none
  | 0x06 => one (((List.range 64).map (fun r => (s.region r).dig.energyUj.toNat)).sum % 2 ^ 64)
  | 0x07 => one s.hub.ageing.poweredS.toNat
  | 0x08 => one s.hub.recorder.head.toNat
  | 0x09 => one s.hub.recorder.exported.toNat
  | _ => none

/-- A wide value that region `r`'s governor holds (R481). -/
def State.govWide (s : State) (wid r : Nat) : BitVec 64 :=
  if wid = 0x04 then (s.region r).spec.extraUj else (s.region r).dig.energyUj

/-- WV_SEL_WRITE (R481): a governor's value waits for the apply boundary of R475, five boundaries on as a region block's
shadow does. -/
def selectWide (wid idx : Nat) (s : State) : State :=
  if s.pow.regOpen = false then s
  else
    let start (valid bad : Bool) (v : Nat) (due : Option (Nat × Nat)) : State := s.modSetup (fun u => { u with
      wvWid := wid, wvIdx := idx, wvToken := u.wvToken + 1, wvValid := valid, wvBad := bad
      wvValue := BitVec.ofNat 64 v, wvDue := due })
    if (wid = 0x04 ∨ wid = 0x05) ∧ idx < 64 then start false false 0 (some (idx, s.now + 5))
    else match s.hubWide wid idx with
    | some v => start true false v none
    | none => start true true 0 none

def execWvSelWrite (wid idx : Byte) (s : State) : Host.Outcome State Fault Refusal :=
  .next (selectWide wid.toNat idx.toNat s)

/-- GOVERNOR_VALUE_CAPTURE (R481): at the region's apply boundary. -/
def captureWide (s : State) : State :=
  match s.setup.wvDue with
  | none => s
  | some (r, p) =>
    if s.now < p then s else s.modSetup (fun u => { u with wvValue := s.govWide u.wvWid r, wvValid := true, wvDue := none })

/-! ### Clocks, resets, the pair -/

def clockCode : ClockSt → Nat
  | .stopped => 0
  | .locked => 1
  | .glideDown => 2
  | .coast => 3
  | .fallback => 4
  | .glideUp => 5

/-- START_STAT of a hub (R466). -/
def Start.word (x : Start) : Nat :=
  x.step + at' 4 (bitNat x.path) + at' 5 (bitNat x.monTrip) + at' 6 (bitNat x.noEntry) + at' 7 (bitNat x.selfFail) +
    at' 8 (bitNat x.claimed) + at' 9 (bitNat x.done) + at' 10 (x.fbDly % 4) + at' 16 (min x.attempts 0xFF)

/-- Chive control cores asleep (R466 CLOSED_GC). -/
def State.closedGc (s : State) : Nat := ((List.range 64).map (fun r => (s.region r).clusters.count 576 (fun u => u.gcClosed))).sum

def clockReg (s : State) (off : Nat) : Nat :=
  match off with
  | 0x1004 => clockCode s.clk.st + at' 3 (bitNat s.clk.refLost) + at' 4 (bitNat s.clk.fbRun) +
      at' 8 (min s.clk.switches 0xFF) + at' 16 (min s.clk.fbFails 0xFF)
  | 0x1008 => s.setup.gateCtl.toNat
  | 0x100C => s.setup.gateRes + at' 3 (bitNat (match s.setup.gateAsk with
      | none => true
      | some p => gateNode p.1 p.2 && !s.gateClosed p.1 p.2)) + at' 8 (min s.closedGc 0xFFFF)
  | 0x1014 => s.pow.cause.toNat + at' 8 (bitNat s.pow.cold)
  | 0x1018 => s.hubA.start.word
  | 0x101C => s.hubB.start.word
  | _ => 0

/-- ROLE_A and ROLE_B (R404); a yielding owner has not yet become STANDBY VALID. -/
def roleCode : Role → Nat
  | .owner | .yielding => 0
  | .resyncing => 1
  | .valid => 2
  | .fenced => 3
  | .absent => 4

def pairReg (s : State) (off : Nat) : Nat :=
  let p := s.pair
  match off with
  | 0x2008 => bitNat (decide (s.owner = some .b)) + at' 1 (if p.degraded then 2 else if p.paired then 0 else 1) +
      at' 3 (roleCode s.hubA.role) + at' 6 (roleCode s.hubB.role) + at' 9 p.laneCount + at' 12 (bitNat p.hoRefused) +
      at' 16 p.handovers + at' 24 p.failovers
  | 0x200C => s.epoch.toNat
  | 0x2010 => p.corrBlk + at' 16 p.badBlk + at' 24 p.hwm
  | _ => 0

/-! ### Firmware -/

def coreCode : CoreState → Nat
  | .empty => 0
  | .running => 1
  | .restarting => 2
  | .halted => 3
  | .held => 4
  | .stopped => 5

def HubCore.statWord (c : HubCore) : Nat :=
  coreCode c.state + at' 3 (bitNat c.bank) + at' 8 (min c.restarts 0xFF) + at' 16 c.mpuViol

def HubCore.verWord (c : HubCore) : Nat := if c.state = .empty then 0 else (FwImage.ver c.image).toNat

/-- Chive control cores of live clusters with `p`. -/
def State.chiveCount (s : State) (p : ChiveCore → Bool) : Nat :=
  ((List.range 64).map (fun r => (s.region r).clusters.count 576 (fun u => !u.ctl.spared && p u.core))).sum

def fwReg (s : State) (off : Nat) : Nat :=
  let f := s.hub.fw
  match off with
  | 0x3004 => packList 1 ((List.range 4).map (fun t => bitNat (s.stagedOf t).isSome)) +
      (match f.act with
        | some a => at' (4 + a.target) 1 + at' 8 (bitNat a.deferred) + at' 16 (if a.target = 3 then a.wave else 0)
        | none => 0)
  | 0x3008 => packList 8 ((List.range 4).map s.arb)
  | 0x300C => Config.keyRevoke.toNat
  | 0x3010 => (FwImage.ver (s.runningOf 3)).toNat
  | 0x3014 => min (s.chiveCount (fun c => decide (c.state = .restarting ∨ c.state = .stopped ∨ c.state = .halted))) 0xFFFF +
      at' 16 (min (s.chiveCount (fun c => decide (c.state = .stopped))) 0xFFFF)
  | _ =>
    if 0x3020 ≤ off ∧ off < 0x3038 then
      let k := (off - 0x3020) / 4
      (s.coreAt (if k < 3 then .a else .b) (k % 3)).statWord
    else if 0x3040 ≤ off ∧ off < 0x3058 then
      let k := (off - 0x3040) / 4
      (s.coreAt (if k < 3 then .a else .b) (k % 3)).verWord
    else 0

/-! ### Wafer-wide status -/

/-- OP_USE PEND (R265): shadows held under R263. -/
def State.opPend (s : State) : Nat :=
  bitsFrom ((List.range 16).filter (fun n =>
    s.setup.shadows.any (fun x => x.offset == offOp n && x.ready s.now) && decide (n ∈ s.opsInUse)))

def waferReg (s : State) (off : Nat) : Nat :=
  let b := s.hub.budget
  let t := s.hub.thyme
  let part (l : List Nat) (lo n : Nat) : List Nat := (l.drop lo).take n
  match off with
  | 0x5020 => twos 16 s.hub.coolant.inlet.temp + at' 16 (twos 16 s.hub.coolant.outlet.temp)
  | 0x5024 => packList 3 (part b.lStack 0 8)
  | 0x5028 => packList 3 (part b.lStack 8 8)
  | 0x502C => packList 2 (part b.lOpt 0 16)
  | 0x5030 => packList 2 (part b.lOpt 16 16)
  | 0x6008 => s.hub.ageing.intervals.toNat
  | 0x7040 => 0x000000C0
  | 0x7080 => t.table.count 65536 (fun g => decide (g.state = .inForce)) + at' 17 t.inflight + at' 22 (bitNat s.refLost) +
      at' 23 (bitNat (s.coreHolds opGrantRequest))
  | 0x7084 => bitsFrom s.opsInUse % 0x10000 + at' 16 s.opPend
  | 0x7088 => t.miss.toNat
  | 0x708C => t.revoke.toNat
  | 0x7090 => t.partialC.toNat
  | 0x8004 => (s.hub.groups.defs.filter (fun p => p.2.defined)).length
  | 0x8008 => s.hub.groups.landed.toNat
  | 0x800C => s.hub.groups.harvests.toNat
  | 0xA004 => bitNat s.hub.ecap.hard
  | 0xA008 => bitNat (s.hub.ecap.pinA || s.hub.ecap.pinB) + at' 1 (bitNat s.hub.ecap.hard) +
      at' 2 (bitNat s.hub.ecap.active) + at' 8 s.hub.ecap.entries
  | 0xB000 => bitNat s.hub.recorder.openRec + at' 1 (min s.hub.recorder.queue.length 256) + at' 16 s.hub.recorder.lostBlk
  | _ => 0

/-! ### Mailboxes -/

def slotCode : SlotState → Nat
  | .empty => 0
  | .posted => 1
  | .taken => 2
  | .done => 3

/-- The mask bit of a slot is 0 while its serving core runs (R331). -/
def State.slotMasked (s : State) (k : Nat) : Bool :=
  let st := (s.ownerCore (servedBy k)).state
  !decide (st = .running ∨ st = .held)

def mailboxReg (s : State) (off : Nat) : Nat :=
  let slots (lo : Nat) : List Nat := (List.range 16).map (fun i => slotCode (s.slot (lo + i)).state)
  match off with
  | 0x9004 => min s.hub.multis.length 8 +
      at' 4 (min (s.hub.multis.flatMap (fun m => m.late.map Prod.snd)).sum 0xFFF) + at' 16 (min s.hub.stalls.length 0xFFFF)
  | 0x9018 => bitsFrom ((List.range 32).filter (fun k => decide ((s.slot k).state = .done)))
  | 0x901C => s.hub.mb.amask.toNat
  | 0x9020 => bitsFrom ((List.range 32).filter s.slotMasked)
  | 0x9024 => packList 2 (slots 0)
  | 0x9028 => packList 2 (slots 16)
  | 0x902C => bitNat s.hub.mb.wrErr + at' 8 s.hub.mb.retaken
  | _ =>
    if 0x9100 ≤ off ∧ off < 0x9300 then leAt (s.slot ((off - 0x9100) / 16)).msg ((off - 0x9100) % 16) 4
    else if 0x9400 ≤ off ∧ off < 0x9480 then
      let x := s.slot ((off - 0x9400) / 4)
      x.code.toNat + at' 8 x.detail.toNat + at' 16 x.seq.toNat
    else if 0x9480 ≤ off ∧ off < 0x9500 then (s.slot ((off - 0x9480) / 4)).result.toNat
    else 0

/-! ### Rings -/

/-- RING_PI, RING_CI and RING_ST (R324). -/
def ringReg (s : State) (off : Nat) : Nat :=
  let k := (off - 0x10000) / 0x20
  let g := s.ring k
  match (off - 0x10000) % 0x20 with
  | 0x0C => g.pi.toNat
  | 0x10 => g.ci.toNat
  | 0x14 => bitNat g.stopped + at' 1 (bitNat g.dbErr) + at' 2 (bitNat g.memErr) + at' 3 (bitNat g.hold) +
      at' 8 (if k < 8 then min (s.inflight k) 64 else 0)
  | _ => 0

/-! ### The collector -/

/-- WIN_CNT (R426): the highest count among a source's causes within the window. -/
def winCount (now win : Nat) (counts : List (Nat × Nat)) : Nat :=
  let l := counts.filter (fun p => decide (now ≤ p.2 + win))
  l.foldl (fun (acc : Nat) p => max acc (l.filter (fun q => q.1 == p.1)).length) 0

/-- FC_STAT_n at a hub's collector (R426); of a frozen one no status changes (R420). -/
def fcStat (s : State) (h : Hub) (n : Nat) : Nat :=
  let x := (s.coll h).source n
  let c := s.coll h
  bitNat x.pend + at' 1 (bitNat (if c.frozen then decide (n ∈ c.frozenAct) else s.srcActive n)) + at' 2 (if x.pend then x.cls else 0) + at' 4 (bitNat x.forced) +
    at' 5 (bitNat x.broken) + at' 8 x.merged + at' 16 (min (winCount (if c.frozen then c.frozenAt else s.now) (s.fcWindow n) x.counts) 0xFF)

/-- TOP of FC_STATE. -/
def Collector.top (c : Collector) : Nat := c.sources.max 256 (fun x => if x.pend then x.cls else 0)

def collectorReg (s : State) (h : Hub) (off : Nat) : Nat :=
  let c := s.coll h
  let bits (k : Nat) (p : Source → Bool) : Nat := bitsFrom ((List.range 32).filter (fun b => p (c.source (32 * k + b))))
  match off with
  | 0x20004 => bitNat c.test + at' 1 (bitNat c.suppress)
  | 0x20008 => c.mode + at' 3 (bitNat (s.faultLow h)) + at' 4 c.top + at' 6 (bitNat c.clrRefused) + at' 7 (bitNat c.nmiBusy) +
      at' 8 (if c.nmiBusy then c.nmiSrc else 0) + at' 16 c.nmiMerged
  | 0x2000C => c.safeOfs % 0x10000 + at' 16 c.safeMode + at' 31 (bitNat c.frozen)
  | _ =>
    if 0x20020 ≤ off ∧ off < 0x20040 then bits ((off - 0x20020) / 4) (fun x => x.pend)
    else if 0x20060 ≤ off ∧ off < 0x20080 then bits ((off - 0x20060) / 4) (fun x => x.broken)
    else if 0x22000 ≤ off ∧ off < 0x22800 then
      let n := (off - 0x22000) / 8
      if off % 8 = 0 then fcStat s h n
      else (c.source n).cause.toNat + at' 16 ((c.source n).arg % 0x100)
    else 0

/-! ### Region blocks -/

def modelCode : ModelState → Nat
  | .none => 0
  | .loading => 1
  | .active => 2
  | .failed => 3

def trimCode : TrimState → Nat
  | .none => 0
  | .applied => 1
  | .limit => 2
  | .exhausted => 3

/-- Slots with an arm waiting for its step (R289 ARMED). -/
def Region.armedSlots (g : Region) : Nat :=
  (g.slots.filter (fun x => x.members.any (fun c => (g.clusters.get c).armed.isSome))).length

/-- A status register of region `r` at block offset `x` (R470). -/
def regionStat (s : State) (r x : Nat) : Nat :=
  let g := s.region r
  let v := s.gov r
  match x with
  | 0x060 => modelCode g.sage.model + at' 2 (bitNat g.trust.trusted) + at' 3 (g.sage.lastSrc % 2) +
      at' 4 ((if g.sage.model = .active ∧ s.cfg (offSage r) 0 2 = 1 then g.sage.latency else 14) % 128) + at' 16 g.sage.invalid
  | 0x064 => if g.sage.model = .active then g.sage.modelId.toNat else 0
  | 0x088 => s.specCode r + at' 8 (min g.spec.missWin.sum 64) + at' 16 (if g.spec.state = .standing then g.spec.s else 0)
  | 0x08C => g.spec.demoteLeft
  | 0x090 => g.spec.issued.toNat
  | 0x094 => g.spec.confirmed.toNat
  | 0x098 => g.spec.missed.toNat
  | 0x09C => g.spec.abandoned.toNat
  | 0x0A0 => g.spec.shaped.toNat
  | 0x0A4 => g.spec.demotions.toNat
  | 0x0CC => g.sp.vc + at' 16 g.sp.vLoad + at' 23 g.sp.vGrid + at' 29 (bitNat g.caps.holdRegion) +
      at' 30 (bitNat (g.caps.paused != 0)) + at' 31 (bitNat (decide (0 < g.caps.guardLeft)))
  | 0x0D0 => twos 16 g.sp.vOp + at' 16 g.caps.busErr + at' 24 g.caps.guardCnt
  | 0x100 => twos 16 g.therm.tHot + at' 16 g.therm.iTh + at' 28 (bitNat g.therm.latch) + at' 29 (bitNat g.therm.binding) +
      at' 30 (bitNat g.therm.floored)
  | 0x104 => g.therm.tripCnt + at' 16 g.therm.holdLeft + at' 24 g.therm.derate16
  | 0x144 => g.sp.m + at' 8 g.sp.trim + at' 16 (trimCode g.margin.state) + at' 18 g.margin.block.toNat
  | 0x148 => g.ph.active.toNat + at' 24 g.ph.h + at' 29 (min (onesOf 24 g.ph.spares.toNat).length 2) +
      at' 31 (bitNat g.ph.swap)
  | 0x14C => g.ph.retired.toNat + at' 24 g.ph.derateCnt
  | 0x180 => g.slots.length + at' 8 g.armedSlots + at' 16 (min g.lateCnt 0xFF)
  | 0x1C0 => v.staleCnt + at' 12 v.badCnt + at' 24 v.lateAck
  | _ => 0

/-! ### The window -/

/-- A register of the window that has one copy per hub belongs to the hub `h` (R469). -/
def copyOf (h : Hub) (off : Nat) : Bool :=
  match h with
  | .a => off == 0x1018 || (decide (0x3020 ≤ off) && decide (off < 0x302C)) || (decide (0x3040 ≤ off) && decide (off < 0x304C))
  | .b => off == 0x101C || (decide (0x302C ≤ off) && decide (off < 0x3038)) || (decide (0x304C ≤ off) && decide (off < 0x3058))

/-- A register that is no set-up register, answered by hub `h`; 0 at an unlisted offset (R467). -/
def statusReg (s : State) (h : Hub) (off : Nat) : Nat :=
  if copyOf h.other off && !s.pair.linkUp then 0xFFFFFFFF
  else if 0x100000 ≤ off ∧ off < 0x140000 then regionStat s ((off - 0x100000) / 0x1000) ((off - 0x100000) % 0x1000)
  else if 0x20000 ≤ off ∧ off < 0x23000 then collectorReg s h off
  else if 0x10000 ≤ off ∧ off < 0x10240 then ringReg s off
  else if off = 0x10408 then s.hub.rings.drop.toNat
  else if off = 0x1040C then s.hub.rings.lost.toNat
  else if 0x9004 ≤ off ∧ off < 0x9500 then mailboxReg s off
  else if 0x5000 ≤ off ∧ off < 0xC000 then waferReg s off
  else if 0x3000 ≤ off ∧ off < 0x4000 then fwReg s off
  else if 0x2000 ≤ off ∧ off < 0x3000 then pairReg s off
  else if 0x1000 ≤ off ∧ off < 0x2000 then clockReg s off
  else if off < 0x1000 then identReg s off
  else 0

/-- A read of the register at an aligned offset, answered by hub `h` (R467, R474). -/
def readReg (s : State) (h : Hub) (off : Nat) : Word :=
  BitVec.ofNat 32 (match regDef off with
    | some _ => s.setup.readWord off
    | none => statusReg s h off)

/-- The owning hub answers a read (R391). -/
def answerRead (h : Hub) (off : Nat) (s : State) : State := s.emit (.readData off (readReg s h off))

end Sys2Proof.Machine
end

