-- ==== Sys2Proof/Machine/Pair.lean ====
section
/-!
DEFINITION. The hub pair (R381–R402): heartbeats, the mirror link, claims, promotion, handover, fencing, rejoin; what a
hub does on taking control (R396, R458 step 9); messages sent again (R329).
-/

namespace Sys2Proof.Machine

/-! ### Epochs and claims -/

/-- The epoch after `e`; 0 is never claimed (R382). -/
def nextEpoch (e : Word) : Word := if e + 1 = 0 then 1 else e + 1

/-- A governor adopts an epoch and passes it to its Chives (R384), which it reaches at once. -/
def adoptEpoch (r : Nat) (e : Word) (s : State) : State :=
  ((s.modGov r (fun g => { g with epoch := e })).send (.epochToChives r e)).modRegion r (fun g =>
    g.modClusters (fun u => { u with epoch := e }))

/-- ENG_RUN of a hub (R501). -/
def setEngRun (h : Hub) (low : Bool) (s : State) : State :=
  if (s.hubOf h).engRunLow = low then s
  else
    let t := (s.modHubOf h (fun u => { u with engRunLow := low })).pin "ENG_RUN" h low
    if t.hubA.engRunLow || t.hubB.engRunLow then t
    else
      let off (u : HubSt) : HubSt := { u with dbg := { u.dbg with driving := false } }
      { t with hubA := off t.hubA, hubB := off t.hubB }

/-- CLAIM leaves a hub for a governor, which replies (R329, R394). -/
def sendClaim (h : Hub) (e : Word) (s : State) (r : Nat) : State :=
  (s.sendAs (nodeHub h) (nodeGov r) (.claim r e)).expect (nodeHub h) (nodeGov r) (.claim r e)

/-- CLAIM leaves once more, to a governor not yet heard from (R394 step 6): the one re-send of R329. -/
def resendClaim (s : State) (r : Nat) : State :=
  let mine (a : Await) : Bool := match a.msg with | .claim k _ => k == r && !a.resent | _ => false
  match s.await.find? mine with
  | none => s
  | some a => ({ s with await := s.await.map (fun x => if mine x then { x with resent := true } else x) }).sendAgain a

/-- A hub owns with epoch `e`: its root carries it, and CLAIM goes to the 64 governors (R383, R394 step 3). `kind` says
what the claim follows. -/
def claimFor (h : Hub) (e : Word) (kind : Nat) (s : State) : State :=
  let t := s.modHubOf h (fun u => { u with role := .owner, epoch := e, goodRun := 0, dropSent := false, fatalSaid := false })
  let t := t.modPair (fun p => { p with claims := List.range 64, claimAge := 0, claimKind := kind })
  let t := setEngRun h.other false (setEngRun h (!t.pow.startDone) t)
  let t := t.emit (.tree h e)
  (List.range 64).foldl (sendClaim h e) t

/-- CLAIM at a governor (R384, R394): a higher epoch is adopted and answered. A claim of the epoch already adopted from
the root is answered too; a lower one is discarded. -/
def takeClaim (r : Nat) (hdr : MsgHdr) (s : State) : State :=
  let own := (s.gov r).epoch
  if hdr.good = false then s.badMsg r
  else if epochHigher hdr.epoch own then (adoptEpoch r hdr.epoch s).send (.claimReply r hdr.epoch)
  else if hdr.epoch = own then s.send (.claimReply r own)
  else s.staleMsg r

def execClaim (r : RegionId) (hdr : MsgHdr) (s : State) : Host.Outcome State Fault Refusal := .next (takeClaim r hdr s)

/-! ### Taking control -/

/-- The targets of the four sideband buses, with their static addresses (R510). -/
def sidebandTargets : List (Nat × Nat) :=
  [0, 1].flatMap (fun b => ((List.range 8).map (fun i => (b, 0x10 + i))) ++ [(b, 0x20), (b, 0x21)]) ++
    [2, 3].flatMap (fun b => (List.range 16).map (fun i => (b, 0x30 + i)))

/-- Step 9 of R458 at the governors (R170, R178, R504): the Version read, FLOOR, RECOVERY, TARGET 0, the transition rates; the PMBus masters
configure the arrays. -/
def startRegions (s : State) : State :=
  (List.range 64).foldl (fun (a : State) r =>
    let a := a.emitRead r true
    let t := a.sendWord r (regionWord 2 (a.cfg (offAct r 0) 0 7) 0)
    let t := t.sendWord r (regionWord 1 0 (a.cfg (offAct r 0) 16 3))
    let t := t.sendWord r (regionWord 0 0 0)
    let t := (t.modRegion r (fun g => g.modSp (fun p => { p with wantRates := true }))).startFrame r
    t.hubSend (.pmbus r (.configure 0 0 0))) s

/-- A TARGET 3 stage that waits for governors' reports asks them again. -/
def adoptStage (s : State) : State :=
  if s.hub.fw.stageCmd.isNone then s
  else s.hub.fw.stageWait.foldl (fun (a : State) r => a.hubAsk (.fwCode r)) s

/-- Register reads held while no hub owned are answered (R391). -/
def answerReads (s : State) : State :=
  match s.owner with
  | none => s
  | some h => s.reads.foldl (fun a off => answerRead h off a) { s with reads := [] }

/-- Steps 1 and 2 of R396: every completion that the journal holds is written, again where the old owner had begun it, the accepting
ones of mirrored decisions among them. The writes go through: DESIGN CHOICE, notes/assumptions/76.md. -/
def rewriteCompletions (s : State) : State :=
  let t := s.liveGrants.foldl (fun (a : State) i =>
    if (a.grant i).state = .decided ∧ (a.grant i).decidedN = none then
      settleDecision i (a.modGrant i (fun g => { g with decidedJ := 0 }))
    else a) s
  (List.range t.hub.rings.comps.length).foldl (fun (a : State) _ => writeCompletion true a) t

/-- A region whose trip latch is set holds no grant (R202): the ones that the journal still shows are revoked. -/
def revokeLatched (s : State) : State :=
  (List.range 64).foldl (fun (a : State) r => if (a.region r).therm.latch then revokeRegion r (abandonRounds r 0x50 a) else a) s

/-- FAILOVER_RECOVERY (R396, R120, R251, R286, R339, R346, R377, R433, R475), in the order of R396: completions; rings, groups,
mailboxes, model loads and firmware; grants; the shadows that governors lack; one record. -/
def recoverWork (code : Nat) (s : State) : State :=
  let t := adoptMailboxes (adoptGroups (rewriteCompletions s))
  let t := t.modHub (fun h => { h with loads := h.loads.map ModelLoad.restart })
  let t := revokeLatched (adoptGrants (adoptStage (adoptActivation t)))
  let t := t.setup.shadows.foldl sendShadow t
  let t := t.modRecorder (Recorder.close t.nextJn)
  t.record code 7 (min t.pair.gap 63) t.ownerNode t.epoch

/-- The new owner performs every reaction to an event pending at its collector that the journal does not show as done (R424). -/
def missingReactions (h : Hub) (s : State) : State :=
  ((s.coll h).sources.listed 256).foldl (fun (a : State) p =>
    let x := p.2
    let done := a.hub.reacted.get p.1
    let set := a.reactions p.1 x.cls &&& (0x1F ^^^ (if done = 0 then 0 else a.reactions p.1 (done - 1)))
    if x.pend ∧ done < x.cls + 1 then
      react h { src := p.1, cause := ((onesOf 16 x.cause.toNat).head?).getD 0, forced := x.forced } set a
    else a) s

/-- The hub that owns is in control (R394 step 7, R396; at a start R458 steps 8 and 9, and the shadows written before, R475). -/
def takeControl (s : State) : State :=
  let react (t : State) : State := match t.owner with | some h => missingReactions h t | none => t
  let t := match s.pair.claimKind with
    | 0 =>
      let t := if s.pow.cold then sidebandTargets.foldl (fun (a : State) (p : Nat × Nat) => a.emit (.setdasa p.1 p.2)) s else s
      t.setup.shadows.foldl sendShadow (startRegions t)
    | 1 => react (recoverWork 0x03 s)
    | _ => react (recoverWork 0x04 s)
  let t := t.modPair (fun p => { p with gap := 0 })
  let calm (c : Collector) : Collector := { c with recovery := false }
  answerReads ((t.modColl .a calm).modColl .b calm)

/-- CLAIM_REPLY at the claiming hub (R394, R397): `epoch` is the governor's, which its header carries (R326); a higher one has
fenced the hub as the message was judged. -/
def takeClaimReply (r : Nat) (epoch : Word) (s : State) : State :=
  match s.owner with
  | none => s
  | some _ =>
    if r ∉ s.pair.claims ∨ epoch ≠ s.epoch then s
    else
      let s := s.answered (fun m => match m with | .claim k _ => k == r | _ => false)
      let t := s.modPair (fun p => { p with claims := p.claims.filter (fun k => k != r) })
      if t.pair.claims = [] then takeControl t else t

def execClaimReply (r : RegionId) (hdr : MsgHdr) (s : State) : Host.Outcome State Fault Refusal :=
  .next (journaled (hubAccept 0x70 hdr (takeClaimReply r hdr.epoch)) s)

/-- CLAIM_RESEND (R394 step 6): 8 control periods after the first, and the end of the wait: governors not heard from are
counted as unresponsive (R22, R49, R60), with a contained fault. -/
def claimAtBoundary (s : State) : State :=
  if s.pair.claims = [] then s
  else
    let t := s.modPair (fun p => { p with claimAge := p.claimAge + 1 })
    if t.pair.claimAge = 8 then t.pair.claims.foldl resendClaim t
    else if 15 ≤ t.pair.claimAge then
      let gone := t.pair.claims
      let t := t.modBudget (fun b => { b with silent := b.silent ++ gone.filter (fun r => decide (r ∉ b.silent)) })
      let t := t.modBudget (fun b => { b with mute := b.mute ++ gone.filter (fun r => decide (r ∈ pmbusCorners ∧ r ∉ b.mute)) })
      let t := t.answered (fun m => match m with | .claim _ _ => true | _ => false)
      takeControl ((t.modPair (fun p => { p with claims := [] })).raise 206 1)
    else t

/-! ### Promotion and handover -/

/-- Always-sent records that the standby lacks are lost, subscribed ones discarded (R314, R317). -/
def loseTelemetry (from_ : List TelRec) (have_ : Nat) (s : State) : State :=
  let gone := from_.filter (fun t => decide (have_ < t.jn))
  let n := (gone.filter (fun t => !t.sub)).length
  let t := s.modRings (fun g => { g with
    lost := g.lost + BitVec.ofNat 32 n, lossDue := g.lossDue + n, drop := g.drop + BitVec.ofNat 32 (gone.length - n) })
  (List.range n).foldl (fun (a : State) _ => a.raise 194 1) t

/-- Both collectors enter RECOVERY (R417). -/
def recoveryMode (s : State) : State :=
  let on (c : Collector) : Collector := { c with recovery := true }
  (s.modColl .a on).modColl .b on

/-- A marked switch is void, and a promoted hub that has lost the reference coasts on its slaved core (R451). -/
def voidMark (c : Clocks) : Clocks :=
  let c := { c with marked := none, acquire := none }
  if c.refLost then { c with st := .coast, fbRun := false, fbEntered := false, fbBarred := false } else c

/-- The new owner's collector takes the escalation counts, its cores the RETAIN words, that the journal carried (R389). -/
def takeMirrored (h : Hub) (s : State) : State :=
  let t := s.hub.fcCounts.cells.foldl (fun (a : State) p =>
    a.modColl h (fun c => c.modSource p.1 (fun x => { x with counts := p.2 }))) s
  s.hub.retain.foldl (fun (a : State) p =>
    a.modCore h (p.1 / 65536) (fun c => { c with data := c.data.set (p.1 % 65536) p.2 })) t

/-- PROMOTION (R393, R394 step 3, R396): the standby acts from what it received of the journal: the loop's mirrored figures
(R191, R205), and an edge of the emergency cap that the old owner's journal did not carry (R322). The old owner keeps what it
holds (R436), and believes that it owns until it meets the higher epoch (R397). -/
def promote (h : Hub) (s : State) : State :=
  let u := s.hubOf h
  let t := { s with
    hub := s.pair.image
    clk := voidMark s.clk
    setup := { s.setup with wvValid := false, wvDue := none }
    await := s.await.filter (fun m => m.src != nodeHub h.other)
    hubLast := [] }
  let t := loseTelemetry s.hub.rings.tel u.rxGood t
  let t := t.modPair (fun p => { p with
    degraded := true, paired := false, heldEff := [], journal := [], blocks := [], acked := p.jn, sent := p.jn, handStep := 0
    image := s.hub, failovers := satAdd 0xFF p.failovers 1, gap := u.silentHb, probing := false, probes := [] })
  let t := takeMirrored h (recoveryMode (dropRaises (restoreThs t)))
  let t := claimFor h (nextEpoch u.epoch) 1 t
  ecapEdge [h] t.hub.ecap t

/-- PROMOTION (R393): a standby that may not promote raises a fatal fault, once for a silence. -/
def promotion (h : Hub) (s : State) : State :=
  let u := s.hubOf h
  if s.owner = some h ∨ u.silentHb ≤ 20 ∨ (u.role ≠ .valid ∧ u.role ≠ .resyncing) then s
  else if u.role = .valid ∧ s.cfgBit 0x2000 0 then promote h s
  else if u.fatalSaid then s
  else (s.modHubOf h (fun u => { u with fatalSaid := true })).raise 201 2

def execPromotion (h : Hub) (s : State) : Host.Outcome State Fault Refusal := .next (promotion h s)

/-- HANDOVER (R400, R404). -/
def execHandover (s : State) : Host.Outcome State Fault Refusal :=
  .next (if s.pow.regOpen then startHandover s else s)

/-- A heartbeat of hub `h` over both paths (R387, R392); the owner's block takes the journal entries that the period's blocks had no
room for. With the link down there is no block (R386). -/
def sendBeat (h : Hub) (e : Word) (role : Nat) (yield drop : Bool) (s : State) : State :=
  let t := s.sendAs (nodeHub h) (nodeHub h.other) (.heartbeat h e role yield drop)
  if s.pair.linkUp = false then t
  else
    let rest := if s.owner = some h ∧ s.pair.paired ∧ s.pair.sent < s.pair.jn then some (s.pair.sent + 1, s.pair.jn) else none
    let t := t.modPair (fun p =>
      let q := p.sendBlocks h 1
      match rest with
      | some e => { q with blocks := q.blocks ++ [(q.tx h, e)], sent := e.2 }
      | none => q)
    t.emit (.beatBlock h e role yield drop s.pair.lanes s.period (t.pair.tx h) (s.hubOf h).rxSeq s.pair.sweepPos rest)

/-- HANDOVER_YIELD (R400 steps 2 and 3): every journal entry acknowledged, the owner sends a heartbeat with YIELD. -/
def sendYield (s : State) : State :=
  match s.owner with
  | none => s
  | some h =>
    if s.pair.handStep = 2 ∧ s.pair.acked = s.pair.jn then
      sendBeat h s.epoch 0 true false (s.modPair (fun p => { p with handStep := 3, gap := 0 }))
    else s

def execHandoverYield (s : State) : Host.Outcome State Fault Refusal := .next (sendYield s)

/-- Step 4 of R400: at the boundary after the standby received YIELD it claims; both hubs hold the same image. -/
def claimHandover (s : State) : State :=
  match s.validStandby, s.owner with
  | some w, some h =>
    let t := s.releaseHeld
    let t := t.modPair (fun p => { p with
      image := t.hub, acked := p.jn, sent := p.jn, blocks := [], handStep := 0, handovers := satAdd 0xFF p.handovers 1 })
    let t := { t with
      setup := { t.setup with wvValid := false, wvDue := none }
      await := t.await.filter (fun m => m.src != nodeHub h)
      clk := { t.clk with marked := none, acquire := none }
      hubLast := [] }
    let t := (recoveryMode t).modHubOf h (fun u => { u with role := .yielding, rxGood := t.pair.jn, rxSeq := t.pair.tx w })
    claimFor w (nextEpoch s.epoch) 2 (takeMirrored w t)
  | _, _ => s.modPair (fun p => { p with handStep := 0 })

/-- The pair's handover at a control-period boundary (R400 steps 1 and 4). -/
def handoverAtBoundary (s : State) : State :=
  if s.pair.handStep = 1 then s.modPair (fun p => { p with handStep := 2 })
  else if s.pair.handStep = 4 then claimHandover s else s

/-- YIELDING_HUB_CLAIM (R400 step 5, R397). -/
def yieldClaim (epoch : Word) (s : State) : State :=
  let one (t : State) (h : Hub) : State :=
    let u := t.hubOf h
    if epochHigher epoch u.epoch = false then t
    else if u.role = .yielding then t.modHubOf h (fun u => { u with role := .valid, epoch := epoch, silentHb := 0, silentMir := 0 })
    else if u.role = .owner then t.fence h else t
  one (one s .a) .b

def execYieldingHubClaim (epoch : Word) (s : State) : Host.Outcome State Fault Refusal := .next (yieldClaim epoch s)

/-! ### Heartbeats and silence -/

/-- A good heartbeat of the other hub (R381, R392, R397, R399, R400). -/
def goodBeat (h : Hub) (path : HbPath) (b : Beat) (s : State) : State :=
  let u := s.hubOf h
  if (u.role = .owner ∨ u.role = .yielding) ∧ epochHigher b.epoch u.epoch then
    if u.role = .owner then s.fence h else s.modHubOf h (fun u => { u with role := .valid, epoch := b.epoch, silentHb := 0 })
  else
    let mir := decide (path = .mirror)
    let t := s.modHubOf h (fun u => { u with
      silentHb := 0
      silentMir := if mir then 0 else u.silentMir
      silentMgmt := if mir then u.silentMgmt else 0
      fatalSaid := false
      epoch := if (u.role = .valid ∨ u.role = .resyncing) ∧ b.role = 0 ∧ b.epoch ≠ 0 then b.epoch else u.epoch
      goodRun := if u.role = .fenced ∧ mir ∧ b.role = 0 then u.goodRun + 1 else u.goodRun })
    match u.role with
    | .fenced =>
      if 20 ≤ (t.hubOf h).goodRun then (t.modHubOf h (fun u => { u with goodRun := 0, epoch := b.epoch })).beginResync h else t
    | .valid =>
      if b.drop then t.beginResync h
      else if b.yield ∧ b.role = 0 ∧ t.pair.handStep = 3 then t.modPair (fun p => { p with handStep := 4 }) else t
    | .owner => if b.role = 1 ∧ t.pair.paired then degradePair t else t
    | _ => t

/-- Every hub's silences grow by a control period (R393, R398, R399). -/
def countSilence (s : State) : State :=
  let one (u : HubSt) : HubSt := { u with
    silentHb := u.silentHb + 1, silentMir := u.silentMir + 1, silentMgmt := u.silentMgmt + 1 }
  { s with hubA := one s.hubA, hubB := one s.hubB,
           pair := { s.pair with gap := if s.inControl then 0 else s.pair.gap + 1 } }

/-- The mirror link's period ends (R386, R387): the owner's sweep has taken the block slots that heartbeat and journal left, the
other hub's blocks carried acknowledgements. A resync counts the sweep blocks that it gets (R401). -/
def endLinkPeriod (s : State) : State :=
  let p := s.pair
  match s.owner with
  | none => s.modPair (fun p => { p with jUsed := 0 })
  | some h =>
    let n := p.slots - 1 - p.jUsed
    let got := if (s.hubOf h.other).role = .resyncing then n else 0
    s.modPair (fun p => { (p.sendBlocks h n).sendBlocks h.other (p.slots - 1) with
      sweepPos := (p.sweepPos + n) % 6144, sweepLeft := p.sweepLeft - got, jUsed := 0 })

/-- The heartbeats of a boundary (R387, R392): not from a fenced hub or an absent one. -/
def sendBeats (s : State) : State :=
  let one (t : State) (h : Hub) : State :=
    let u := t.hubOf h
    match u.role with
    | .fenced | .absent => t
    | _ => sendBeat h (if u.role = .owner then u.epoch else 0) (roleCode u.role) false u.dropSent t
  one (one (endLinkPeriod s) .a) .b

/-- EPOCH_PROBE leaves a hub for the 64 governors (R398). -/
def sendProbes (h : Hub) (s : State) : State :=
  (List.range 64).foldl (fun (a : State) r =>
    (a.sendAs (nodeHub h) (nodeGov r) (.probe r)).expect (nodeHub h) (nodeGov r) (.probe r)) s

/-- STANDBY_SILENCE (R398): 40 silent periods bring a probe of the 64 governors; so they do at a hub that another has overtaken. -/
def probeEpochs (s : State) : State :=
  let t := match s.staleOwner with
    | some h => if (s.hubOf h).silentHb ≤ 40 then s else sendProbes h s
    | none => s
  match s.owner with
  | none => s
  | some h =>
    if (s.hubOf h).silentHb ≤ 40 ∨ s.pair.probing then t
    else sendProbes h (t.modPair (fun p => { p with probing := true, probes := List.range 64 }))

def execStandbySilence (s : State) : Host.Outcome State Fault Refusal := .next (probeEpochs s)

/-- EPOCH_PROBE at a governor (R398): answered to its sender, whatever its epoch. -/
def execEpochProbe (r : RegionId) (hdr : MsgHdr) (s : State) : Host.Outcome State Fault Refusal :=
  .next (if hdr.good then s.sendAs (nodeGov r) hdr.src (.probeReply r (s.gov r).epoch) else s.badMsg r)

/-- EPOCH_PROBE_REPLY (R397, R398): a higher epoch in its header has fenced the hub as the message was judged; 64 replies with
its own make the pair DEGRADED. -/
def takeProbeReply (r : Nat) (epoch : Word) (s : State) : State :=
  match s.owner with
  | none => s
  | some _ =>
    let s := s.answered (fun m => match m with | .probe k => k == r | _ => false)
    if s.pair.probing = false ∨ epoch ≠ s.epoch ∨ r ∉ s.pair.probes then s
    else
      let t := s.modPair (fun p => { p with probes := p.probes.filter (fun k => k != r) })
      if t.pair.probes = [] then degradePair (t.modPair (fun p => { p with probing := false })) else t

def execEpochProbeReply (r : RegionId) (hdr : MsgHdr) (s : State) : Host.Outcome State Fault Refusal :=
  .next (journaled (hubAccept 0x71 hdr (takeProbeReply r hdr.epoch)) s)

/-- MIRROR_SILENCE (R399): the link fails while HEARTBEAT messages continue. -/
def mirrorSilence (h : Hub) (s : State) : State :=
  let u := s.hubOf h
  if 1 < u.silentMgmt then s
  else if u.role = .valid ∧ 4 < u.silentMir then s.beginResync h
  else if u.role = .owner ∧ 8 < u.silentMir then s.modHubOf h (fun u => { u with dropSent := true })
  else s

def execMirrorSilence (h : Hub) (s : State) : Host.Outcome State Fault Refusal := .next (mirrorSilence h s)

/-! ### The mirror link -/

/-- The image after journal entry `n`, among the snapshots on their way; `image` where none of them is that one. -/
def Pair.snapshot (p : Pair) (n : Nat) : Shared :=
  match p.journal.find? (fun e => e.1 == n) with
  | some e => e.2
  | none => p.image

/-- A good block at a hub that does not own (R388, R389, R391). One with journal entries is taken where none before them is missing,
and restores the order that a bad block broke; any other continues the unbroken order. A sweep block that differs from a complete
copy is a corrected fault, and the owner's value stands. -/
def standbyBlock (h : Hub) (seq : Nat) (sweepDiffers : Bool) (s : State) : State :=
  let u := s.hubOf h
  let t := match s.pair.blocks.find? (fun b => b.1 == seq) with
    | some (_, first, last) =>
      if u.rxGood + 1 < first then s
      else if last ≤ u.rxGood then s.modHubOf h (fun u => { u with rxSeq := seq })
      else (s.modPair (fun p => { p with image := p.snapshot last })).modHubOf h (fun u => { u with rxGood := last, rxSeq := seq })
    | none => if seq = (u.rxSeq + 1) % 2 ^ 32 then s.modHubOf h (fun u => { u with rxSeq := seq }) else s
  if sweepDiffers ∧ u.role = .valid then t.raise 201 0 else t

/-- The last journal entry that ACK_SEQ acknowledges (R388): of the blocks up to it. -/
def Pair.ackedBy (ack : Nat) (p : Pair) : Nat :=
  (p.blocks.filter (fun b => !before32 ack b.1)).foldl (fun n b => max n b.2.2) p.acked

/-- A good block at the owner (R388, R390): what the standby has acknowledged may leave. An ACK_SEQ that has not moved while entries
are unacknowledged shows that the order is broken: they leave again in the next block (DESIGN CHOICE, notes/assumptions/76.md). -/
def ownerBlock (h : Hub) (ack : Nat) (s : State) : State :=
  let n := max s.pair.acked (min (s.pair.ackedBy ack) (s.hubOf h.other).rxGood)
  let again := decide ((s.hubOf h).ackSeen = ack) && decide (n < s.pair.sent)
  let go := s.pair.heldEff.filter (fun e => decide (e.1 ≤ n))
  let t := (s.modHubOf h (fun u => { u with ackSeen := ack })).modPair (fun p =>
    let q := { p with
      acked := n
      journal := p.journal.filter (fun e => decide (n < e.1))
      blocks := p.blocks.filter (fun b => decide (n < b.2.2))
      heldEff := p.heldEff.filter (fun e => decide (n < e.1)) }
    if again then Pair.pump h { q with sent := n } else q)
  settleDecisions (go.foldl (fun (a : State) e => a.emit e.2) t)

/-- A block of the mirror link at hub `h` (R385, R388, R404, R422): the outer code corrects up to 8 wrong symbols; a block that it
cannot correct breaks the order and is only counted. -/
def takeBlock (h : Hub) (wrong seq ack : Nat) (differs : Bool) (s : State) : State :=
  let good := decide (wrong ≤ 8)
  let t := s.modPair (fun p => { p with
    corrBlk := if good && decide (0 < wrong) then satAdd 0xFFFF p.corrBlk 1 else p.corrBlk
    badBlk := if good then p.badBlk else satAdd 0xFF p.badBlk 1 })
  if good = false then t
  else
    let t := t.modHubOf h (fun u => { u with silentMir := 0 })
    match (t.hubOf h).role with
    | .valid | .resyncing | .yielding => standbyBlock h seq differs t
    | .owner => if t.pair.paired then ownerBlock h ack t else t
    | _ => t

/-- MIRROR_BLOCK (R388): with the link down none comes (R386). -/
def mirrorBlock (h : Hub) (wrong seq ack : Nat) (differs : Bool) (s : State) : State :=
  if s.pair.linkUp then takeBlock h wrong seq ack differs s else s

def execMirrorBlock (at_ : Hub) (wrongData wrongParity seq ack : Nat) (sweepDiffers : Bool) (s : State) :
    Host.Outcome State Fault Refusal :=
  .next (journaled (mirrorBlock at_ (wrongData + wrongParity) seq ack sweepDiffers) s)

/-- What a HEARTBEAT message says (R387, R392). -/
def beatOf (hdr : MsgHdr) : Beat :=
  { epoch := BitVec.ofNat 32 (leAt hdr.payload 0 4), role := byteAt hdr.payload 4
    yield := bitOf (byteAt hdr.payload 5) 0, drop := bitOf (byteAt hdr.payload 5) 1, seq := 0, ack := 0, wrong := 0, hdr := hdr }

/-- HEARTBEAT (R392): a block that the outer code corrects, or a message that passes R328, counts. A bad block breaks a fenced
hub's run (R381); a bad message is discarded. -/
def takeBeat (h : Hub) (path : HbPath) (b : Beat) (s : State) : State :=
  match path with
  | .mirror =>
    if s.pair.linkUp = false then s
    else if 8 < b.wrong then (takeBlock h b.wrong b.seq b.ack false s).modHubOf h (fun u => { u with goodRun := 0 })
    else goodBeat h .mirror b (takeBlock h b.wrong b.seq b.ack false s)
  | .mgmt => if b.hdr.good then goodBeat h .mgmt (beatOf b.hdr) s else s.raise 195 0

def execHeartbeat (at_ : Hub) (path : HbPath) (beat : Beat) (s : State) : Host.Outcome State Fault Refusal :=
  .next (journaled (takeBeat at_ path beat) s)

/-- A rejoining hub's core takes the owner's banks where they differ, and restarts on the copied active bank (R401). -/
def rejoinCore (h : Hub) (k : Nat) (s : State) : State :=
  let o := s.coreAt h.other k
  let c := s.coreAt h k
  if c.bank0 = o.bank0 ∧ c.bank1 = o.bank1 ∧ c.bank = o.bank then s
  else
    let t := s.modCore h k (fun c => { c with bank0 := o.bank0, bank1 := o.bank1, bank := o.bank })
    if o.image.isNone then t.modCore h k (fun c => { c with state := .empty, data := ⟨0, []⟩ })
    else if c.state = .empty then t.modCore h k (fun c => { c with state := .restarting })
    else restartHubCore h k 3 t

/-- RETAIN regions of a standby's core, from the image (R361, R389). -/
def copyRetained (h : Hub) (k : Nat) (s : State) : State :=
  let o := s.coreAt h.other k
  match o.image with
  | none => s
  | some x => s.modCore h k (fun c =>
      let other := c.data.cells.filter (fun p => !inStretch x.retained p.1)
      let kept := o.data.cells.filter (fun p => inStretch x.retained p.1)
      { c with data := kept.foldl (fun m p => m.set p.1 p.2) ⟨0, other⟩ })

/-- RESYNC_COMPLETE (R401, R359): a complete sweep that began after the rejoin has ended. -/
def resyncComplete (s : State) : State :=
  match s.standby with
  | none => s
  | some w =>
    if (s.hubOf w).role ≠ .resyncing ∨ s.pair.linkUp = false ∨ s.pair.sweepLeft ≠ 0 then s
    else
      let t := ([0, 1, 2].foldl (fun a k => copyRetained w k (rejoinCore w k a)) s).shareArb
      let e := t.epoch
      let t := t.modHubOf w (fun u => { u with role := .valid, rxGood := t.pair.jn, rxSeq := t.pair.tx w.other, epoch := e })
      let t := match s.owner with
        | some h => t.modHubOf h (fun u => { u with dropSent := false })
        | none => t
      t.modPair (fun p => { p with
        paired := true, degraded := false, image := t.hub.mirrored, acked := p.jn, sent := p.jn, journal := [], blocks := [] })

def execResyncComplete (s : State) : Host.Outcome State Fault Refusal := .next (resyncComplete s)

/-- LANE_DROP (R386, R407, R512) at the boundary. -/
def dropLanes (bad : BitVec 4) (s : State) : State :=
  let gone := onesOf 4 (s.pair.lanes &&& bad).toNat
  if gone = [] then s
  else
    let was := s.pair.linkUp
    let t := s.modPair (fun p => { p with lanes := p.lanes &&& ~~~bad })
    let t := gone.foldl (fun (a : State) _ => a.raise 211 0) t
    if was && !t.pair.linkUp then t.raise 211 1 else t

/-- LANE_RETRAIN_COMPLETE (R407, R512): a lane that retrains under a BLOCK reaction of MIRROR comes back. -/
def execLaneRetrainComplete (lane : Fin 4) (s : State) : Host.Outcome State Fault Refusal :=
  .next (s.modPair (fun p =>
    let m := p.training &&& BitVec.ofNat 4 (2 ^ lane.val)
    { p with lanes := p.lanes ||| m, training := p.training &&& ~~~m }))

/-! ### Messages sent again -/

/-- A message of this path is held with its journal entry (R390). -/
def State.heldMsg (s : State) (ends : Ends) (seq : Nat) : Bool :=
  s.pair.heldEff.any (fun e => match e.2 with
    | .msg _ hd => hd.src == ends.src && hd.dst == ends.dst && hd.seq == seq
    | _ => false)

/-- MESSAGE_RESEND (R329): once, with RESEND and the SEQ it had, if it has left (R390); a second loss is a contained fault on the
management path, the copies of a TARGET 3 stage cannot be confirmed (R370), and a model load fails (notes/assumptions/31.md). -/
def resendMessage (ends : Ends) (seq : Nat) (s : State) : State :=
  match s.await.find? (fun m => m.src == ends.src && m.dst == ends.dst && m.seq == seq) with
  | none => s
  | some m =>
    if s.heldMsg ends seq then s
    else if m.resent = false then
      ({ s with await := s.await.map (fun x => if x = m then { x with resent := true } else x) }).sendAgain m
    else
      let t := ({ s with await := s.await.erase m }).raise 195 1
      match m.msg with
      | .fwCode _ => failStage t
      | .modelImage r _ | .modelSwitch r _ => match t.loadOf r with | some l => failLoad l 3 t | none => t
      | _ => t

def execMessageResend (ends : Ends) (seq : Nat) (s : State) : Host.Outcome State Fault Refusal :=
  .next (journaled (resendMessage ends seq) s)

end Sys2Proof.Machine
end

