-- ==== Sys2Proof/Machine/Clocks.lean ====
section
/-!
DEFINITION. The clock loop of the owning hub (R444–R451): loss and return of the reference, the fallback oscillator and
its monitor, the marked switch of both hubs and all regions.
-/

namespace Sys2Proof.Machine

/-- REF_LOST (R446, R450): the loop opens and glides down; during an acquisition of the reference the acquisition is
abandoned. The oscillator may start again once the reference has returned and been lost again (R447). Every region's
margin recovery is blocked (R213). -/
def loseReference (s : State) : State :=
  let c := s.clk
  if c.st = .locked ∨ c.st = .glideUp then
    let t := { s with clk := { c with st := .glideDown, refLost := true, fbBarred := false, acquire := none, marked := none } }
    (t.modRegions (Region.stick 5)).raise 205 0
  else if c.acquire = some .reference ∨ c.marked = some .reference then
    { s with clk := { c with acquire := none, marked := none, fbBarred := false } }
  else s

def execRefLost (s : State) : Host.Outcome State Fault Refusal := .next (loseReference s)

/-- GLIDE_DOWN_END (R444). -/
def execGlideDownEnd (s : State) : Host.Outcome State Fault Refusal :=
  .next (s.modClk (fun c => if c.st = .glideDown then { c with st := .coast } else c))

/-- FALLBACK_START (R447): with FB_EN, 10 µs after REF_LOST was set; not while a failure bars it, nor where the hub that
owned is lost and none remains (R525). -/
def execFallbackStart (s : State) : Host.Outcome State Fault Refusal :=
  .next (s.modClk (fun c =>
    if (s.owner.isSome ∨ s.pow.startDone = false) ∧ s.cfgBit 0x1000 0 ∧ c.refLost ∧ (c.st = .glideDown ∨ c.st = .coast) ∧ c.fbRun = false ∧ c.fbBarred = false then
      { c with fbRun := true, fbEntered := false }
    else c))

/-- FALLBACK_STABLE (R447): the first window whose count passes marks the oscillator stable; the idle cores lock to it. -/
def execFallbackStable (count : Nat) (s : State) : Host.Outcome State Fault Refusal :=
  .next (s.modClk (fun c =>
    if c.st = .coast ∧ c.fbRun ∧ c.acquire = none ∧ c.marked = none ∧ inRange 24085 25067 count then
      { c with fbEntered := true, acquire := some .fallback }
    else c))

/-- A fallback failure (R447, R464): the oscillator stops and may not start again for this loss; the clocks ramp to
COAST. -/
def failFallback (s : State) : State :=
  let c := s.clk
  if c.fbRun = false then s
  else
    let keep (x : Option SwitchTo) : Option SwitchTo := if x = some SwitchTo.fallback then none else x
    let t : State := { s with clk := { c with
      fbRun := false, fbEntered := false, fbBarred := true, fbFails := satAdd 0xFF c.fbFails 1
      st := if c.st = .fallback then .coast else c.st
      acquire := keep c.acquire, marked := keep c.marked } }
    t.raise 205 1

def execFallbackFailure (s : State) : Host.Outcome State Fault Refusal := .next (failFallback s)

/-- The clock monitor trips while a hub's start waits for the fallback oscillator (R460): the start ends, ENG_RUN's
drive is released, FAULT_N is driven by the monitor. -/
def endStart (h : Hub) (entered : Bool) (s : State) : State :=
  let t := s.modHubOf h (fun u => { u with
    start := { u.start with ended := true, monTrip := u.start.monTrip || entered, noEntry := u.start.noEntry || !entered }
    coll := { u.coll with monFault := true } })
  let o := (s.hubOf h.other).start
  let t := if s.clk.st = .stopped ∧ (o.path && !o.ended) = false then t.modClk (fun c => { c with fbRun := false }) else t
  faultPins s (setEngRun h false t)

/-- CLOCK_MONITOR_TRIP (R448, R460, R447): the monitor of a hub that neither owns nor waits watches no oscillator in use, but
while no hub has claimed yet the start goes on with either's. -/
def execClockMonitorTrip (h : Hub) (entered : Bool) (s : State) : Host.Outcome State Fault Refusal :=
  let u := s.hubOf h
  .next (
    if u.start.step = 2 ∧ u.start.path ∧ u.start.ended = false then endStart h entered s
    else if s.owner = some h ∨ (s.owner = none ∧ s.clk.st ≠ .stopped) then failFallback s
    else s)

/-- IDLE_CORE_LOCKED (R449 steps 1 and 2): the owning hub marks a tick boundary on the tree. -/
def execIdleCoreLocked (s : State) : Host.Outcome State Fault Refusal :=
  .next (s.modClk (fun c => if c.acquire.isSome then { c with marked := c.acquire, acquire := none } else c))

/-- DOMAIN_SWITCH (R449 steps 3 to 5, R450): at the marked boundary every domain moves to its former idle core. -/
def execDomainSwitch (s : State) : Host.Outcome State Fault Refusal :=
  .next (s.modClk (fun c =>
    match c.marked with
    | none => c
    | some .fallback => { c with st := .fallback, marked := none, switches := satAdd 0xFF c.switches 1 }
    | some .reference =>
      { c with st := .glideUp, marked := none, fbRun := false, fbEntered := false, switches := satAdd 0xFF c.switches 1 }))

/-- REF_RETURNED (R450): the idle cores lock to the reference; not before a boundary that is marked already. -/
def execRefReturned (s : State) : Host.Outcome State Fault Refusal :=
  .next (s.modClk (fun c =>
    if c.refLost ∧ (c.st = .coast ∨ c.st = .fallback) ∧ c.marked = none then { c with acquire := some .reference } else c))

/-- GLIDE_UP_END (R450 step 3). -/
def execGlideUpEnd (s : State) : Host.Outcome State Fault Refusal :=
  .next (s.modClk (fun c => if c.st = .glideUp then { c with st := .locked, refLost := false } else c))

end Sys2Proof.Machine
end

