-- ==== Sys2Proof/Machine/Start.lean ====
section
/-!
DEFINITION. Rails, resets and the start sequence (R438–R442, R455–R464), the defect map (R32), the fuses (R90), the PMBus
masters (R21, R506, R507).
-/

namespace Sys2Proof.Machine

/-! ### What a loss of power and a reset clear -/

/-- The trip latch and comparators stand on VRN_ANA and outlive a loss of VRN_CORE (R438, R442). -/
def Region.onlyAna (g : Region) : Region :=
  let z : Region := {}
  { z with therm := { z.therm with latch := g.therm.latch, comps := g.therm.comps } }

/-- The machine with the state of VRN_CORE lost (R441, R442); the anti-rollback counters are fuses (R358), the levels at RST_N and
ECAP_N the surroundings' (R502, R503). -/
def loseCore (s : State) : State :=
  { pending := s.pending, out := s.out, fresh := s.fresh, report := s.report
    regions := s.regions.mapAll Region.onlyAna
    hubA := { arbUp := s.hubA.arbUp }, hubB := { arbUp := s.hubB.arbUp }
    pow := {
      ioUp := s.pow.ioUp, anaUp := s.pow.anaUp, coreUp := s.pow.coreUp
      rstLow := s.pow.rstLow, ecapLowA := s.pow.ecapLowA, ecapLowB := s.pow.ecapLowB } }

/-- The open-drain pins of both hubs follow a change of the whole machine (R441, R501). -/
def pinsFollow (before s : State) : State :=
  let low (x : State) (h : Hub) : Bool := x.pow.ioUp && (x.hubOf h).engRunLow
  let crst (x : State) (h : Hub) : Bool := x.pow.ioUp && (x.coll h).crst
  let one (a : State) (h : Hub) : State :=
    let a := if low before h = low s h then a else a.emit (.pin "ENG_RUN" h (low s h))
    if crst before h = crst s h then a else a.emit (.pin "CRST_REQ_N" h (crst s h))
  faultPins before (thermPins before.thermLow (one (one s .a) .b))

/-- Every register read that waits for an owner is answered with all ones, as one before REG_OPEN (R391, R467). -/
def dropReads (s : State) : State :=
  s.reads.foldl (fun (a : State) off => a.emit (.readData off 0xFFFFFFFF)) { s with reads := [] }

/-! ### The start of a hub -/

/-- A hub that does not own joins the owner's start at step 8 (R458): it begins its resync (R401). One that comes after
START_DONE finds the sequence done. -/
def HubSt.join (e : Word) (done : Bool) (u : HubSt) : HubSt :=
  { u with
    role := .resyncing, epoch := e
    coll := { u.coll with start := u.coll.start && !done }
    start := { u.start with step := if done then 12 else max 8 u.start.step, done := u.start.done || done } }

/-- A hub claims as its start reaches step 8 (R458, R461); the other hub, started too, joins it. -/
def claimStart (h : Hub) (e : Word) (s : State) : State :=
  let t := claimFor h e 0 s
  let t := t.modHubOf h (fun u => { u with start := { u.start with step := 8, claimed := true } })
  let t := (t.modRecorder (Recorder.nameOwner (nodeHub h))).modPair (fun p => { p with
    sweepLeft := 6144, image := if s.pow.cold then s.hub else p.image })
  t.modHubOf h.other (fun u =>
    if 7 ≤ u.start.step ∧ u.start.ended = false then u.join e false else u)

/-- A hub has reached step 7: it joins the owner as its standby, or hub A claims (R458, R461). -/
def reachStep7 (h : Hub) (s : State) : State :=
  match s.owner with
  | some _ => (s.modHubOf h (HubSt.join s.epoch s.pow.startDone)).beginResync h
  | none => if h = .a then claimStart .a (nextEpoch s.hubA.epoch) s else s

/-! ### The defect map and the fuses -/

/-- The elements of 0 to `n - 1` above a limit. -/
def overAllowance (n limit : Nat) (m : SMap Nat) : List Nat :=
  if limit < m.dflt then (List.range n).filter (fun k => decide (limit < m.get k))
  else ((m.listed n).filter (fun p => decide (limit < p.2))).map Prod.fst

/-- The route-length report and the defect map (R31, R32): a contained fault when a path exceeds its allowance, twice the
bound for the paths that do; the cores that the map holds at 0. -/
def defectMap (d : DefectReport) (s : State) : State :=
  let one (m : BitVec 32) (c : Cluster) : Cluster := Cluster.holdDead { c with ctl := { c.ctl with heldCores := m } }
  let t := s.modRegions (fun g => g.modClusters (one d.heldCores.dflt))
  let t := d.heldCores.cells.foldl (fun (a : State) p => a.modCluster p.1 (one p.2)) t
  let hub := overAllowance 64 64 d.detours
  let gov := overAllowance 4096 64 d.govDetours
  let chive := overAllowance 36864 16 d.chiveDetours
  let t := t.modPow (fun p => { p with doubled := hub, doubledGov := gov, doubledChive := chive })
  if hub.isEmpty && gov.isEmpty && chive.isEmpty then t else t.raise 209 0

/-- A cold start has begun and VRN_CORE has stood since (R458). -/
def State.started (s : State) : Bool := decide (s.hubA.start.step ≠ 0) || decide (s.hubB.start.step ≠ 0)

/-- DEFECT_MAP_CHANGE (R32): the report changes; one that changes before a cold start is read at it. -/
def changeMap (d : DefectReport) (s : State) : State :=
  let t := { s with report := d }
  if s.started then defectMap d t else t

def execDefectMapChange (detours govDetours chiveDetours : SMap Nat) (heldCores : SMap (BitVec 32)) (s : State) :
    Host.Outcome State Fault Refusal :=
  .next (changeMap ⟨detours, govDetours, chiveDetours, heldCores⟩ s)

/-- The trims as the fuses hold them (R90). -/
def fusedTrims : Trims where
  diode := (List.range 4096).map (fun k => Config.fuseDiode (k / 64) (k % 64))
  comp := (List.range 512).map (fun k => Config.fuseComparator (k / 8) (k % 8))
  vmon := (List.range 1024).map (fun k => Config.fuseVMon (k / 16) (k % 16))
  tp := (List.range 36864).map Config.fuseTp
  age := (List.range 36864).map Config.fuseAge
  dill := (List.range 36864).map Config.fuseDill

/-- COLD_START (R441, R442, R458 step 1): VRN_CORE is up after being down, or the power-up has just ended. The hub reads the
route-length report (R32). -/
def coldStart (s : State) : State :=
  if s.pow.ioUp ∧ s.pow.anaUp ∧ (s.pow.coreUp = false ∨ s.started = false) then
    let t := loseCore s
    let one (u : HubSt) : HubSt := { u with start := { u.start with step := 1 } }
    let t := { t with hubA := one t.hubA, hubB := one t.hubB, pow := { t.pow with coreUp := true } }
    pinsFollow s (dropReads { defectMap s.report t with reads := s.reads })
  else s

def execColdStart (s : State) : Host.Outcome State Fault Refusal := .next (coldStart s)

/-- POWER_ON_RESET_RELEASE (R458 step 2): the strap is read and the loop begins to lock. -/
def execPowerOnResetRelease (h : Hub) (fbDly : Fin 4) (s : State) : Host.Outcome State Fault Refusal :=
  .next (if (s.hubOf h).start.step = 1 then
    s.modHubOf h (fun u => { u with start := { u.start with
      step := 2, fbDly := fbDly.val, attempts := satAdd 0xFF u.start.attempts 1 } })
  else s)

/-- The clocks of a hub start (R458 steps 4 and 5, R459): the first hub's load the period count; the fuse trims are loaded
(R90); REG_OPEN, the collector in START, the self-test gate set once; ECAP_N is sensed (R502). A hub whose gate is spent passes
step 6. -/
def startClocks (h : Hub) (fallback : Bool) (s : State) : State :=
  let t := if s.clk.st = .stopped then
      { s with period := 0, tick := 0, trims := fusedTrims, clk := { s.clk with
        st := if fallback then .fallback else .locked, refLost := fallback, fbRun := fallback, fbEntered := fallback } }
    else s
  let step := if t.pow.gateSpent then 7 else 5
  let t := t.modHubOf h (fun u => { u with start := { u.start with step := step, since := t.period.toNat } })
  let t := t.modPow (fun p => { p with regOpen := true, gateSet := true })
  let t := thermPins s.thermLow t
  let t := if t.pow.ecapLow h then ecapLevel h true t else t
  if step = 7 then reachStep7 h t else t

/-- HUB_LOOP_LOCK (R458 steps 3 and 4). -/
def execHubLoopLock (h : Hub) (s : State) : Host.Outcome State Fault Refusal :=
  let u := s.hubOf h
  .next (if u.start.step = 2 ∧ u.start.path = false ∧ u.start.ended = false ∧ s.pow.rstLow = false then
    startClocks h false s else s)

/-- HUB_LOOP_LOCK_TIMEOUT (R459): the fallback oscillator is started. -/
def execHubLoopLockTimeout (h : Hub) (s : State) : Host.Outcome State Fault Refusal :=
  let u := s.hubOf h
  .next (if u.start.step = 2 ∧ u.start.path = false ∧ u.start.ended = false then
    (s.modHubOf h (fun u => { u with start := { u.start with path := true } })).modClk (fun c =>
      if c.st = .stopped then { c with fbRun := true } else c)
  else s)

/-- FB_DLY_ELAPSED (R459 steps 2 to 4). -/
def execFbDlyElapsed (h : Hub) (s : State) : Host.Outcome State Fault Refusal :=
  let u := s.hubOf h
  .next (if u.start.step = 2 ∧ u.start.path ∧ u.start.ended = false ∧ s.pow.rstLow = false then startClocks h true s else s)

/-- One region's part of the end of the self-test (R75, R198, R464): a comparator that did not assert is a held fatal
cause; the latch clears only where every comparator has released. -/
def selfTestRegion (asserted still : SMap (BitVec 8)) (r : Nat) (s : State) : State :=
  let bad := decide (asserted.get r ≠ 0xFF)
  let left := still.get r
  let hot := decide (left ≠ 0)
  let g := s.region r
  if bad = false ∧ hot = false ∧ g.therm.latch = false ∧ g.therm.comps = 0 then s
  else
    let t := s.modRegion r (fun g => { g with therm := { g.therm with comps := left, latch := hot, selfTest := bad } })
    let t := if bad then t.holdRoll r 0 2 true else t
    t.holdRoll r 0 1 hot

/-- SELF_TEST_GATE_RELEASE (R75, R458 steps 6 to 8): the recorder is zeroed and COLD_START has sequence 0. -/
def selfTestEnds (asserted still : SMap (BitVec 8)) (s : State) : State :=
  if s.pow.gateSet = false ∨ s.pow.gateSpent then s
  else
    let t := s.forRegions (selfTestRegion asserted still)
    let t := thermPins s.thermLow (t.modPow (fun p => { p with gateSpent := true }))
    let failed := (List.range nRegions).any (fun r => decide (asserted.get r ≠ 0xFF))
    let one (u : HubSt) : HubSt :=
      if u.start.step = 5 then { u with start := { u.start with step := 7, selfFail := failed } } else u
    let went (h : Hub) : Bool := decide ((s.hubOf h).start.step = 5)
    if went .a || went .b then
      let t := { t with hubA := one t.hubA, hubB := one t.hubB }
      let t := t.modRecorder (fun q => { queue := q.queue, held := q.held, fwWait := q.fwWait })
      let t := t.recordFirst 0x01 (nodeHub (if went .a then .a else .b)) 0
      if went .a then reachStep7 .a t else t
    else t

def execSelfTestGateRelease (asserted still : SMap (BitVec 8)) (s : State) : Host.Outcome State Fault Refusal :=
  .next (selfTestEnds asserted still s)

/-- EPOCH_CLAIM_TIMEOUT (R461). -/
def execEpochClaimTimeout (s : State) : Host.Outcome State Fault Refusal :=
  let b := s.hubB.start
  .next (if 7 ≤ b.step ∧ b.ended = false ∧ s.owner = none ∧ s.hubA.start.step < 8 ∧ s.pow.rstLow = false ∧
      b.since + 2000 ≤ s.period.toNat then
    claimStart .b (nextEpoch s.hubB.epoch) s else s)

/-! ### Warm reset -/

/-- What a warm reset keeps of a region (R456): trim and its state with what R216 and R217 need to leave it, the array's
setpoint and phases, the trip latch, the defect map's dead cores and the Chives' banks; the level at the alert pin is no state
of the logic. -/
def Region.warm (g : Region) : Region :=
  let z : Region := {}
  let one (c : Cluster) : Cluster :=
    let d : Cluster := {}
    { d with
      core := { d.core with bank := c.core.bank }, ctl := { d.ctl with heldCores := c.ctl.heldCores }, epoch := c.epoch
      ageTaps := c.ageTaps, tp := { d.tp with drift := c.tp.drift } }
  { z with
    clusters := g.clusters.mapAll one
    sp := { z.sp with
      trim := g.sp.trim, arrayMv := g.sp.arrayMv, arraySpec := g.sp.arraySpec, fallFrom := g.sp.fallFrom, fallAt := g.sp.fallAt }
    ph := { z.ph with active := g.ph.active, healthy := g.ph.healthy, spares := g.ph.spares, retired := g.ph.retired }
    margin := { z.margin with state := g.margin.state, raised := g.margin.raised }
    therm := { z.therm with latch := g.therm.latch, comps := g.therm.comps }
    caps := { z.caps with alert := g.caps.alert } }

/-- What a warm reset keeps of a governor: its epoch. -/
def Gov.warm (g : Gov) : Gov := { engine := g.engine, epoch := g.epoch }

/-- A hub firmware core after a warm reset: its code banks, no data. -/
def HubCore.warm (c : HubCore) : HubCore := { bank := c.bank, bank0 := c.bank0, bank1 := c.bank1 }

/-- What a warm reset keeps of the mirrored image: the recorder's memory with its open record closed, TSEQ, powered time
and the reference slack, the Chive banks. -/
def Shared.warm (h : Shared) : Shared :=
  let q := Recorder.close 0 h.recorder
  let z : Shared := {}
  { z with
    rings := { z.rings with tseq := h.rings.tseq }
    recorder := { z.recorder with
      head := q.head, exported := q.exported, recs := q.recs.map (fun x => { x with jn := 0 }) }
    ageing := { h.ageing with evalRun := 0 }
    fw := { z.fw with chive0 := h.fw.chive0, chive1 := h.fw.chive1, chiveBank := h.fw.chiveBank } }

/-- A hub after a warm reset: its epoch, START_STAT, code banks and test access port; no debug grant (R489). -/
def HubSt.warm (u : HubSt) : HubSt :=
  { epoch := u.epoch, engRunLow := u.engRunLow, start := u.start, arbUp := u.arbUp
    core0 := u.core0.warm, core1 := u.core1.warm, core2 := u.core2.warm
    dbg := { u.dbg with
      challenge := none, reqScope := 0, scope := 0, pendOp := none, halted := [], bpCores := [], driving := false } }

/-- The cause byte (R455): bit 2 when CRST_REQ_N was asserted within 10 ms before the reset, bit 0 too where RST_N is low. -/
def State.resetCause (s : State) (bit : Nat) : BitVec 8 :=
  let near := s.hubA.coll.crst || s.hubB.coll.crst || decide (s.pow.crstAgo < 10000)
  BitVec.ofNat 8 (2 ^ bit) ||| (if near then 4 else 0) ||| (if s.pow.rstLow then 1 else 0)

/-- An assertion of RST_N restarts a start that ended under R460, from step 3. -/
def Start.again (x : Start) : Start :=
  if x.ended then { x with ended := false, step := 2, path := false, attempts := satAdd 0xFF x.attempts 1 } else x

/-- WARM_RESET_ENTRY (R456, R457): code 0 at every limiter, ENG_RUN low, the state that is not kept cleared. While the
clocks have not started there is nothing to clear. -/
def warmEntry (bit : Nat) (s : State) : State :=
  if s.clk.st = .stopped then s
  else
    let best := if epochHigher s.hubB.epoch s.hubA.epoch then s.hubB.epoch else s.hubA.epoch
    let zero (g : Region) : Region := g.modClusters (Cluster.mapLimiters (Limiter.applyForce true false false))
    let one (h : Hub) : HubSt :=
      let u := (s.hubOf h).warm
      { u with epoch := best, engRunLow := u.engRunLow || decide (s.owner = some h) }
    let t : State := {
      pending := s.pending, period := s.period, tick := s.tick, fresh := s.fresh, out := s.out
      regions := s.regions.mapAll (fun g => zero g.warm)
      govs := s.govs.mapAll Gov.warm
      hub := s.hub.warm
      hubA := one .a, hubB := one .b
      pair := {
        handovers := s.pair.handovers, failovers := s.pair.failovers, lanes := s.pair.lanes, image := s.pair.image.warm }
      clk := { s.clk with acquire := none, marked := none, fbBarred := false }
      trims := s.trims, report := s.report
      pow := { s.pow with
        resetForce := true, regOpen := false, cause := s.resetCause bit, cold := false, startDone := false, armed := false
        arraysOn := false, waferRun := false, gsecA := false, gsecB := false, brownOut := false }
      reads := s.reads }
    dropReads (pinsFollow s t)

/-- A core starts when the image in its active bank passes the verification (R357, R457); otherwise it stays EMPTY. -/
def startable (x : Option FwImage) : Bool := match x with | some i => (authReason i.bytes).isNone | none => false

def HubCore.restartWarm (c : HubCore) : HubCore :=
  if startable (if c.bank then c.bank1 else c.bank0) then { c with state := .restarting } else c

/-- The Chive cores after a reset, each on its own bank. -/
def startChives (s : State) : State :=
  let ok0 := startable s.hub.fw.chive0
  let ok1 := startable s.hub.fw.chive1
  let one (c : Cluster) : Cluster :=
    if (if c.core.bank then ok1 else ok0) then { c with core := { c.core with state := .restarting } } else c
  s.modRegions (fun g => g.modClusters one)

/-- What still holds at the regions after a warm reset is held as a cause again: a set trip latch, a kept TRIM_STATE of LIMIT
or EXHAUSTED, an asserted alert, for which HOLD is asserted again too (R171, R406, R456). -/
def holdAgain (r : Nat) (s : State) : State :=
  let x := (s.region r).margin.state
  let t := if (s.region r).therm.latch then s.holdRoll r 0 1 true else s
  let t := if x = .limit ∨ x = .exhausted then t.holdRoll r 1 5 true else t
  if (s.region r).caps.alert then assertHold r t else t

/-- The release of a warm reset (R457): steps 5, 7 and 8 of R458, the cores' verification, the WARM_RESET record. -/
def warmRelease (s : State) : State :=
  if s.clk.st = .stopped then s
  else
    let t := s.modPow (fun p => { p with resetForce := false, regOpen := true })
    let t := (startChives t).forRegions holdAgain
    let one (u : HubSt) : HubSt :=
      let v := { u with
        core0 := u.core0.restartWarm, core1 := u.core1.restartWarm, core2 := u.core2.restartWarm }
      if 4 ≤ u.start.step then
        { v with start := { u.start with step := 7, since := s.period.toNat } } else v
    let t := { t with hubA := one t.hubA, hubB := one t.hubB }
    let t := t.recordFirst 0x02 (nodeHub (if 7 ≤ t.hubA.start.step then .a else .b)) (BitVec.ofNat 32 t.pow.cause.toNat)
    let sense (a : State) (h : Hub) : State := if a.pow.ecapLow h then ecapLevel h true a else a
    let t := sense (sense t .a) .b
    if 7 ≤ t.hubA.start.step then reachStep7 .a t else t

/-- A warm reset (R455, R457): its release waits while RST_N is low. -/
def warmReset (bit : Nat) (s : State) : State :=
  if s.pow.rstLow then warmEntry bit s else warmRelease (warmEntry bit s)

/-- RST_N_ASSERT (R455, R457, R460, R503): at any time after VRN_IO is up. -/
def execRstNAssert (s : State) : Host.Outcome State Fault Refusal :=
  let again (u : HubSt) : HubSt := { u with
    start := u.start.again, engRunLow := u.engRunLow || u.start.ended, coll := if u.start.ended then { u.coll with monFault := false } else u.coll }
  let t := warmEntry 0 s
  let t := pinsFollow t { t with hubA := again t.hubA, hubB := again t.hubB }
  .next (if s.pow.rstLow ∨ s.pow.ioUp = false then s
    else if s.pow.coreUp = false then s.modPow (fun p => { p with rstLow := true })
    else t.modPow (fun p => { p with rstLow := true }))

/-- RST_N_RELEASE (R457). -/
def execRstNRelease (s : State) : Host.Outcome State Fault Refusal :=
  .next (if s.pow.rstLow then warmRelease (s.modPow (fun p => { p with rstLow := false })) else s)

/-- RST_CTL_KEY (R455, R466): 0xA5 requests a warm reset; any other value is ignored. -/
def execRstCtlKey (key : Byte) (s : State) : Host.Outcome State Fault Refusal :=
  .next (if s.pow.regOpen ∧ key = 0xA5 then warmReset 1 s else s)

/-! ### Rails -/

def Power.railUp (p : Power) : Rail → Bool
  | .io => p.ioUp
  | .ana => p.anaUp
  | .core => p.coreUp

def Power.setRail (rail : Rail) (on : Bool) (p : Power) : Power :=
  match rail with
  | .io => { p with ioUp := on }
  | .ana => { p with anaUp := on }
  | .core => { p with coreUp := on }

/-- RAIL_DOWN (R441, R442): VRN_CORE takes the logic and the recorder with it; without VRN_ANA every limiter's trip force
reads asserted; without VRN_IO the pins are released. -/
def railDown (rail : Rail) (s : State) : State :=
  if s.pow.railUp rail = false then s
  else
    let t := s.modPow (Power.setRail rail false)
    let t := match rail with
      | .core => dropReads { loseCore t with reads := s.reads }
      | .ana => (t.modPow (fun p => { p with brownOut := p.coreUp })).modRegions (fun g =>
          g.modClusters (Cluster.mapLimiters (Limiter.applyForce true false false)))
      | .io => t.modPow (fun p => { p with brownOut := p.coreUp })
    pinsFollow s t

def execRailDown (rail : Rail) (s : State) : Host.Outcome State Fault Refusal := .next (railDown rail s)

/-- RAIL_UP (R442, R198): the trip latches clear as VRN_ANA comes up; a warm reset with cause bit 3 follows a brown-out
once the rails are up again. -/
def railUp (rail : Rail) (s : State) : State :=
  if s.pow.railUp rail then s
  else
    let t := s.modPow (Power.setRail rail true)
    let t := match rail with
      | .ana => t.modRegions (fun g => { g with therm := { g.therm with latch := false, comps := 0 } })
      | _ => t
    let t := pinsFollow s t
    if t.pow.brownOut ∧ t.pow.ioUp ∧ t.pow.anaUp ∧ t.pow.coreUp then
      (warmReset 3 t).modPow (fun p => { p with brownOut := false })
    else t

def execRailUp (rail : Rail) (s : State) : Host.Outcome State Fault Refusal := .next (railUp rail s)

/-! ### The arrays -/

/-- Every array is configured, which ends step 9: the owning hub turns them on (R458 step 10). -/
def turnOn (s : State) : State :=
  if s.pow.arraysOn ∨ (List.range 64).any (fun r => !(s.gov r).pmbusDone || (s.gov r).arrayOn) then s
  else
    let one (u : HubSt) : HubSt := if u.start.step = 8 then { u with start := { u.start with step := 9 } } else u
    (List.range 64).foldl (fun (a : State) r => a.hubSend (.pmbus r .operationOn)) { s with hubA := one s.hubA, hubB := one s.hubB }

/-- An array's configuration (R458 step 9, R507): written at a cold start, its phases read at a warm reset (R457);
failed phases and an output format other than ULINEAR16 are faults. -/
def configured (r : Nat) (voutMode : Nat) (bad enables : BitVec 24) (s : State) : State :=
  let t := s.modGov r (fun g => { g with pmbusDone := true, voutMode := voutMode, badMode := decide (voutMode / 32 ≠ 0) })
  let t := if s.pow.cold then t else t.modRegion r (fun g => { g with ph := { g.ph with active := enables } })
  let t := (onesOf 24 bad.toNat).foldl (fun a k => phaseFails r k a) t
  turnOn (if voutMode / 32 ≠ 0 then t.raiseRoll r 1 8 else t)

/-- An array turned on (R458 step 10): VCORE ramps to the committed setpoint. -/
def arrayOn (r : Nat) (s : State) : State :=
  let t := commitSetpoint r (s.modGov r (fun g => { g with arrayOn := true }))
  if (List.range 64).all (fun k => (t.gov k).arrayOn) then t.modPow (fun p => { p with arraysOn := true }) else t

/-- VOUT_MAX of region `r`'s array, as the word that is written (R507). -/
def State.voutMaxWord (s : State) (r mode : Nat) : Nat := toUlinear16 mode (850 + s.cfg (offAct r 2) 16 6)

/-- The transactions that carry out a command at the array of region `r` (R224, R225, R457, R458, R507): a phase's is framed by
PHASE, and by PHASE 0xFF at its end. At a warm reset the configuration and the phases are read. The values of OPERATION and
ON_OFF_CONFIG are PRESUMED, notes/assumptions/73.md. -/
def pmbusTransactions (s : State) (r : Nat) : PmbusOp → List PmbusTx
  | .configure vm _ _ =>
    if s.pow.cold then
      [.write 0x02 0x18, .send 0x03, .read 0x79, .read 0x20] ++
        (if vm / 32 = 0 then [.write 0x24 (s.voutMaxWord r vm)] else [])
    else [.read 0x02, .read 0x79, .read 0x20, .read 0x24] ++
      (List.range 24).flatMap (fun k => [PmbusTx.write 0x04 k, .read 0x01]) ++ [.write 0x04 0xFF]
  | .operationOn => [.write 0x01 0x80]
  | .phaseEnable k => [.write 0x04 k, .write 0x01 0x80, .write 0x04 0xFF]
  | .phaseDisable k => [.write 0x04 k, .write 0x01 0, .write 0x04 0xFF]
  | .swap on off => [.write 0x04 on, .write 0x01 0x80, .write 0x04 off, .write 0x01 0, .write 0x04 0xFF]
  | .clearFaults => [.send 0x03]
  | .statusWord => [.read 0x79]
  | .writeVoutMax mv => [.write 0x24 (toUlinear16 (s.gov r).voutMode mv)]
  | .readVout => [.read 0x8B]
  | .readIout => [.read 0x8C]
  | .readTemperature => [.read 0x8D]

/-- A PMBus command at its master (R506, R507): its transactions; a second failure raises the PMBUS cause. Phase enables,
CLEAR_FAULTS and VOUT_MAX act at the array, which is outside. -/
def pmbusOp (r : Nat) (op : PmbusOp) (failed : Bool) (s : State) : State :=
  let t := s.transactAll r failed (pmbusTransactions s r op)
  if failed then t.raiseRoll r 1 8
  else match op with
  | .configure vm bad en => configured r vm bad en t
  | .operationOn => arrayOn r t
  | .phaseEnable _ | .phaseDisable _ | .swap .. | .clearFaults | .statusWord | .writeVoutMax _ | .readVout | .readIout
  | .readTemperature => t

/-- PMBUS_COMMAND (R21): a hub's message to the corner governor, judged there. -/
def execPmbusCommand (r : RegionId) (hdr : MsgHdr) (op : PmbusOp) (failed : Bool) (s : State) :
    Host.Outcome State Fault Refusal :=
  .next (journaled (govAccept (cornerOf r) 0x70 hdr (pmbusOp r op failed) (fun s => s)) s)

/-- Both hubs' starts, where they take part, have completed step `n`. -/
def reachStep (n : Nat) (s : State) : State :=
  let one (u : HubSt) : HubSt :=
    if 7 ≤ u.start.step ∧ u.start.ended = false then { u with start := { u.start with step := n, done := n == 12 } } else u
  { s with hubA := one s.hubA, hubB := one s.hubB }

/-- Every array has passed its raise test (R458 step 10). -/
def State.raisesPassed (s : State) : Bool :=
  !(List.range 64).any (fun r => let p := (s.region r).sp; p.raising.isSome || p.timedOut || p.vc == 0)

/-- Steps 10 to 12 of R458, at three boundaries in a row (notes/assumptions/74.md): every array is on and has passed its raise
test; the digitisers' zero is taken and Dill armed (R91); the collectors leave START, ENG_RUN rises. -/
def startDone (s : State) : State :=
  match s.owner with
  | none => s
  | some h =>
    if s.pow.startDone ∨ s.pow.arraysOn = false ∨ s.inControl = false ∨ s.raisesPassed = false then s
    else if (s.hubOf h).start.step < 10 then reachStep 10 s
    else if s.pow.armed = false then
      (reachStep 11 (s.modRegions (fun g => g.modDig (fun d => { d with offset := d.input })))).modPow (fun p =>
        { p with armed := true })
    else
      let leave (u : HubSt) : HubSt := { u with coll := { u.coll with start := false } }
      let t := reachStep 12 { s with hubA := leave s.hubA, hubB := leave s.hubB, pow := { s.pow with startDone := true } }
      setEngRun h false t

end Sys2Proof.Machine
end

