-- ==== Sys2Proof/Machine/Gates.lean ====
section
/-!
DEFINITION. The gate tree (R452–R454): requests of the host, of firmware and of hardware, and their results.
-/

namespace Sys2Proof.Machine

/-- The node is closed or opened. -/
def setGate (kind index : Nat) (closed : Bool) (s : State) : State :=
  match kind with
  | 0 => s.modCluster index (fun u => { u with gcClosed := closed })
  | 1 =>
    let m : BitVec 24 := BitVec.ofNat 24 (2 ^ (index % 24))
    s.modGov (index / 24) (fun g => { g with gwClosed := if closed then g.gwClosed ||| m else g.gwClosed &&& ~~~m })
  | 2 => s.modGov index (fun g => { g with gsClosed := closed })
  | 3 => s.modGov index (fun g => { g with grClosed := closed })
  | _ => s.modPow (fun p => if index = 0 then { p with gsecA := closed } else { p with gsecB := closed })

/-- The parent of a node (R452). -/
def gateParent (kind index : Nat) : Option (Nat × Nat) :=
  match kind with
  | 0 => some (1, 24 * regionOf index + localOf index / 24)
  | 1 => some (3, index / 24)
  | 2 => some (3, index)
  | _ => none

/-- The children of a node. -/
def gateChildren (kind index : Nat) : List (Nat × Nat) :=
  match kind with
  | 1 => (List.range 24).map (fun i => (0, 576 * (index / 24) + 24 * (index % 24) + i))
  | 3 => (2, index) :: (List.range 24).map (fun i => (1, 24 * index + i))
  | _ => []

/-- The closed ancestors of a node, itself first. -/
def gatePath (kind index : Nat) : List (Nat × Nat) :=
  match gateParent kind index with
  | none => [(kind, index)]
  | some p => match gateParent p.1 p.2 with
    | none => [(kind, index), p]
    | some q => [(kind, index), p, q]

/-- A close that the node's use forbids (R453): Sage's array of an active learned model; either security core while a stage or an
activation is in progress, the owner's while one of its mailbox slots is. -/
def State.gateInUse (s : State) (kind index : Nat) : Bool :=
  match kind with
  | 2 => decide ((s.region index).sage.model = .active) && decide (s.cfg (offSage index) 0 2 = 1)
  | 4 => s.hub.fw.stageCmd.isSome || s.hub.fw.act.isSome ||
      s.hub.rings.taken.any (fun t => t.opcode == opStage || t.opcode == opActivate) ||
      (decide (s.owner = some (if index = 0 then Hub.a else Hub.b)) &&
        (s.hub.mb.slots.listed 32).any (fun x => decide (24 ≤ x.1) && decide (x.2.state = .posted ∨ x.2.state = .taken)))
  | _ => false

/-- What a host sees of its latest request (R466). -/
def gateAnswer (op kind index : Nat) (by_ : GateAsker) (result : Nat) (s : State) : State :=
  if by_ = .host then
    s.modSetup (fun u => { u with
      gateCtl := BitVec.ofNat 32 (index % 65536 + 65536 * kind + 0x80000 * op)
      gateRes := result
      gateAsk := some (kind, index) })
  else s

/-- The refusals common to every request: 6 DISABLED for the host, 5 BAD_NODE (R453, R466). -/
def State.gateRefused (s : State) (kind index : Nat) (by_ : GateAsker) : Option Nat :=
  if by_ = .host ∧ s.cfgBit 0x1000 1 = false then some 6
  else if gateNode kind index = false then some 5 else none

/-- A gate request of the host reaches an open window, of firmware a running power-management core. -/
def State.gateAsked (s : State) (by_ : GateAsker) : Bool :=
  match by_ with
  | .host => s.pow.regOpen
  | .firmware => decide ((s.ownerCore 1).state = .running) && s.owner.isSome
  | .hardware => true

/-- GATE_CLOSE (R453): result 1 REFUSED_CHILD, 3 BUSY, 4 IN_USE, in the order of the table of results. -/
def gateClose (kind index : Nat) (by_ : GateAsker) (busy : Bool) (s : State) : State :=
  match s.gateRefused kind index by_ with
  | some e => gateAnswer 0 kind index by_ e s
  | none =>
    if (gateChildren kind index).any (fun p => !s.gateClosed p.1 p.2) then gateAnswer 0 kind index by_ 1 s
    else if busy then gateAnswer 0 kind index by_ 3 s
    else if s.gateInUse kind index then gateAnswer 0 kind index by_ 4 s
    else gateAnswer 0 kind index by_ 0 (setGate kind index true s)

def execGateClose (kind : Fin 8) (index : Nat) (by_ : GateAsker) (busy : Bool) (s : State) :
    Host.Outcome State Fault Refusal :=
  .next (if s.gateAsked by_ then gateClose kind index by_ busy s else s)

/-- GATE_OPEN (R453): result 2 REFUSED_PARENT, 3 BUSY; hardware opens the node with its closed ancestors. -/
def gateOpen (kind index : Nat) (by_ : GateAsker) (busy : Bool) (s : State) : State :=
  match s.gateRefused kind index by_ with
  | some e => gateAnswer 1 kind index by_ e s
  | none =>
    let up : Bool := (gateParent kind index).any (fun p => s.gateClosed p.1 p.2)
    if up && decide (by_ ≠ .hardware) then gateAnswer 1 kind index by_ 2 s
    else if busy then gateAnswer 1 kind index by_ 3 s
    else gateAnswer 1 kind index by_ 0
      ((if by_ = .hardware then gatePath kind index else [(kind, index)]).foldl
        (fun (a : State) p => setGate p.1 p.2 false a) s)

def execGateOpen (kind : Fin 8) (index : Nat) (by_ : GateAsker) (busy : Bool) (s : State) :
    Host.Outcome State Fault Refusal :=
  .next (if s.gateAsked by_ then gateOpen kind index by_ busy s else s)

/-- GATE_QUERY (R453). -/
def execGateQuery (kind : Fin 8) (index : Nat) (by_ : GateAsker) (s : State) : Host.Outcome State Fault Refusal :=
  .next (if s.gateAsked by_ then gateAnswer 2 kind index by_ ((s.gateRefused kind index by_).getD 0) s else s)

end Sys2Proof.Machine
end

