-- ==== Sys2Proof/Machine/Debug.lean ====
section
/-!
DEFINITION. The serial debug port of each hub (R485–R495): the test access port's instructions, authorisation, the
operations on cores, recorder and register window, breakpoints.
-/

namespace Sys2Proof.Machine

/-! ### The port -/

def State.dbg (s : State) (h : Hub) : Debug := (s.hubOf h).dbg
def State.modDbg (s : State) (h : Hub) (f : Debug → Debug) : State := s.modHubOf h (fun u => { u with dbg := f u.dbg })

/-- The test access port answers (R485). -/
def State.tapUp (s : State) : Bool := s.pow.coreUp && s.pow.ioUp

/-- The hub's Renoth clocks run (R492, R495). -/
def State.dbgClocked (s : State) (h : Hub) : Bool :=
  let x := (s.hubOf h).start
  decide (4 ≤ x.step) && !x.ended && decide (s.clk.st ≠ .stopped)

/-- An instruction is shifted in; the instruction register captures 0x01, which leaves at TDO, where another is selected (R486). -/
def loadInstr (h : Hub) (i : Nat) (s : State) : State :=
  (if (s.dbg h).instr = i then s else s.emit (.tdo h 0x01)).modDbg h (fun d => { d with instr := i, driving := false })

/-- A core's state and the reason of its latest halt; what the port saw of its memory and registers before is no longer
sure. -/
def setHalt (core : CoreId) (st : CoreState) (why : Nat) (s : State) : State :=
  match core with
  | .hub h k => s.modCore h k (fun c => { c with state := st, haltWhy := why, seen := [], regs := [] })
  | .chive c => s.modCluster c (fun u => u.modCore (fun x => { x with state := st, haltWhy := why, seen := [], regs := [] }))

def setBreaks (core : CoreId) (f : List (Nat × Word × Hub) → List (Nat × Word × Hub)) (s : State) : State :=
  match core with
  | .hub h k => s.modCore h k (fun c => { c with breakpts := f c.breakpts })
  | .chive c => s.modCluster c (fun u => u.modCore (fun x => { x with breakpts := f x.breakpts }))

def State.breaks (s : State) : CoreId → List (Nat × Word × Hub)
  | .hub h k => (s.coreAt h k).breakpts
  | .chive c => (s.cluster c).core.breakpts

def State.haltWhy (s : State) : CoreId → Nat
  | .hub h k => (s.coreAt h k).haltWhy
  | .chive c => (s.cluster c).core.haltWhy

/-- A running core halts under the grant of hub `h` (R491, R493). -/
def haltCore (h : Hub) (core : CoreId) (why : Nat) (s : State) : State :=
  (setHalt core .halted why s).modDbg h (fun d => { d with halted := core :: d.halted.filter (fun x => x != core) })

/-- A halted core runs again; a trap held for the power-management core is delivered (R493), and what waited for the owner's
scheduler or security core goes on (R494). -/
def resumeCore (core : CoreId) (s : State) : State :=
  if s.coreState core ≠ .halted then s
  else
    let drop (d : Debug) : Debug := { d with halted := d.halted.filter (fun x => x != core) }
    let t := ((setHalt core .running 0 s).modDbg .a drop).modDbg .b drop
    match core with
    | .hub h k =>
      let t := releaseNmi h t
      if t.owner ≠ some h then t
      else if k = 2 then groupsReady (thymeReady t)
      else if k = 0 then finishStage t
      else t
    | .chive _ => t

/-- The grant ends (R489): the cores halted under it resume, the breakpoints set under it are cleared. -/
def endGrant (h : Hub) (s : State) : State :=
  let d := s.dbg h
  let t := d.bpCores.foldl (fun (a : State) c => setBreaks c (fun l => l.filter (fun p => p.2.2 != h)) a) s
  let t := d.halted.foldl (fun (a : State) c => resumeCore c a) t
  t.modDbg h (fun d => { d with scope := 0, halted := [], bpCores := [], driving := false })

/-- TEST_LOGIC_RESET (R486, R489): IDCODE is selected and the grant ends. -/
def execTestLogicReset (h : Hub) (s : State) : Host.Outcome State Fault Refusal :=
  .next (if s.tapUp then (endGrant h s).modDbg h (fun d => { d with instr := 0x02, driving := false }) else s)

/-- What the boundary register captures goes out at TDO: the order of its cells is laid down by no rule. -/
def captureBoundary (h : Hub) (s : State) : State := (s.emit (.tdo h (Config.freeValue s.fresh))).nextFree

/-- SAMPLE_PRELOAD (R486). -/
def samplePins (h : Hub) (instr : Nat) (bits : List Bool) (s : State) : State :=
  captureBoundary h ((loadInstr h instr s).modDbg h (fun d => { d with boundary := bits }))

def execSamplePreload (h : Hub) (bits : List Bool) (s : State) : Host.Outcome State Fault Refusal :=
  .next (if s.tapUp then samplePins h 0x01 bits s else s)

/-- EXTEST (R486, R488): the outputs that it may drive are driven under scope BSCAN while ENG_RUN is low; otherwise it acts
as SAMPLE/PRELOAD. `bits` are the cells of those outputs: the cells of THERMTRIP_N, FAULT_N, CRST_REQ_N and ENG_RUN observe
alone, and those pins keep following the hardware. -/
def execExtest (h : Hub) (bits : List Bool) (s : State) : Host.Outcome State Fault Refusal :=
  .next (if s.tapUp = false then s
  else
    let t := samplePins h 0x00 bits s
    if bitOf (s.dbg h).scope.toNat 5 ∧ (s.hubA.engRunLow ∨ s.hubB.engRunLow) then
      (t.modDbg h (fun d => { d with driving := true })).emit (.boundary h bits)
    else t)

/-- IDCODE's value (R486). -/
def idcodeWord (stepping : Nat) : Nat := 0x0A713B3 + 0x10000000 * (stepping % 16)

def execIdcode (h : Hub) (s : State) : Host.Outcome State Fault Refusal :=
  .next (if s.tapUp then
    (loadInstr h 0x02 s).emit (.tdo h (idcodeWord Config.stepping.toNat)) else s)

/-- START_READ (R460, R486). -/
def execStartRead (h : Hub) (s : State) : Host.Outcome State Fault Refusal :=
  .next (if s.tapUp then
    (loadInstr h 0x10 s).emit (.tdo h (s.hubOf h).start.word) else s)

/-! ### Authorisation -/

/-- The security core, or its ROM, takes requests and verifies (R355, R366, R487, R522): not while it restarts, is held or
halted, and on neither port while the owning hub's is halted (R494; DEDUCED). -/
def State.canAuth (s : State) (h : Hub) : Bool :=
  let st := (s.coreAt h 0).state
  let own := match s.owner with
    | some o => (s.coreAt o 0).state
    | none => st
  decide (st ≠ .restarting ∧ st ≠ .held ∧ st ≠ .halted ∧ own ≠ .halted)

/-- An authorisation's result (R487): read from AUTH as a code of R12 with its detail. -/
def authResult (h : Hub) (code detail : Nat) (s : State) : State :=
  (s.modDbg h (fun d => { d with authCode := code, authDetail := detail })).emit (.tdo h (code + 256 * detail))

/-- AUTH (R487): a request voids the challenge before it and is answered with a new one; TAP_EN 0 refuses it. -/
def authRequest (h : Hub) (scope : BitVec 6) (s : State) : State :=
  let t := loadInstr h 0x20 s
  if s.dbgClocked h = false then (t.modDbg h (fun d => { d with status := 3 })).emit (.tdo h 3)
  else if s.canAuth h = false then t
  else if s.cfgBit 0x4000 0 = false then
    authResult h codeAuth 0xC4 (t.modDbg h (fun d => { d with challenge := none }))
  else
    let c := Config.challenge h s.fresh
    ((t.modDbg h (fun d => { d with challenge := some c, reqScope := scope })).emit (.tdo h (leAt c 0 48))).nextFree

def execAuth (h : Hub) (scope : BitVec 6) (s : State) : Host.Outcome State Fault Refusal :=
  .next (if s.tapUp then authRequest h scope s else s)

/-- The bytes that a certificate's signature covers (R487): scope, hub, WAFER_ID, challenge. The key that checks it goes
before them in `certReason`. -/
def certBytes (c : DbgCert) : List Byte :=
  leBytes 1 c.scope.toNat ++ leBytes 1 (match c.hub with | .a => 0 | .b => 1) ++ leBytes 8 c.waferId.toNat ++ c.challenge

/-- The first check of a certificate that fails, in the order of the table of R487. -/
def certReason (s : State) (h : Hub) (c : DbgCert) : Option Nat :=
  if Config.signatureGood c.keyIdx (c.key ++ certBytes c) c.signature = false then some 0xC0
  else if bitOf Config.keyRevoke.toNat c.keyIdx ∨ Config.keyDigestGood c.keyIdx c.key = false then some 0xC1
  else if c.waferId ≠ Config.waferId ∨ c.hub ≠ h then some 0xC2
  else if (s.dbg h).challenge ≠ some c.challenge then some 0xC3
  else if s.cfgBit 0x4000 0 = false then some 0xC4
  else none

/-- AUTH_VERIFIED (R487): a challenge is good for one verification; a good certificate grants the scope that it and the
request name. -/
def authVerified (h : Hub) (c : DbgCert) (s : State) : State :=
  if s.dbgClocked h = false ∨ s.canAuth h = false then s
  else
    let t := s.modDbg h (fun d => { d with challenge := none })
    match certReason s h c with
    | some e => authResult h codeAuth e t
    | none => authResult h codeOk 0 (t.modDbg h (fun d => { d with scope := c.scope &&& d.reqScope }))

def execAuthVerified (h : Hub) (cert : DbgCert) (s : State) : Host.Outcome State Fault Refusal :=
  .next (if s.tapUp then authVerified h cert s else s)

/-- A bit of the effective scope for a core of target `t` (R488). -/
def State.scopeBit (s : State) (h : Hub) (bit t : Nat) : Bool :=
  bitOf (s.dbg h).scope.toNat bit &&
    (match bit with
    | 0 => s.cfgBit 0x4000 (1 + t)
    | 1 | 2 => s.cfgBit 0x4000 5
    | _ => true)

/-! ### Memory errors -/

/-- The inner code marks the word as erased (R422): always with two wrong bits, and for more as the code happens to find. -/
def markedWord (n : Nat) (w : WordErr) : Bool := w.bits == 2 || (decide (3 ≤ w.bits) && Config.secdedFlags n w.word)

/-- The outer code decodes the block (R422): twice the wrong symbols and the erased ones are within its 16 parity symbols. A
single wrong bit of a word is corrected before. -/
def blockDecodes (n : Nat) (e : BlockErr) : Bool :=
  let wrong := ((e.words.filter (fun w => decide (3 ≤ w.bits) && !markedWord n w)).map WordErr.symbols).sum + e.parity
  decide (2 * wrong + 4 * (e.words.filter (markedWord n)).length ≤ 16)

/-- What the controller finds as it reads these words of a block (R423): nothing, a corrected error, or one that it cannot
correct. A word of three or more wrong bits that is not marked is taken for a single error (PRESUMED,
notes/assumptions/59.md). -/
def blockFound (n : Nat) (ws : List WordErr) (e : BlockErr) : Option Bool :=
  if ws.all (fun w => w.bits == 0) then none
  else if ws.any (markedWord n) then some (blockDecodes n e) else some true

/-- An event of FW_MEM about a core's memory (R407, R423). -/
def memEvent (core : CoreId) (cause : Nat) (s : State) : State :=
  { s with events := s.events ++ [{ src := 200, cause := cause, core := some core }] }

/-- The wrong bits of a scrubbed block; a governor's memories report corrected errors alone. -/
def scrubErr : Scrub → Option BlockErr
  | .hubCode _ _ _ e _ | .hubData _ _ e | .chive _ e | .grantTable e | .recorder _ _ e | .sage _ e => some e
  | .governor _ => none

/-- What an error in a memory does, corrected or not (R423). Corrected errors of Chive memories go to the roll-up's corrected
memory cause. -/
def memoryError (x : Scrub) (corrected : Bool) (s : State) : State :=
  match x with
  | .hubCode h k _ _ other =>
    let t := memEvent (.hub h k) (bitNat (!corrected)) s
    if corrected then t
    else if s.pair.degraded = false ∧ other then restartHubCore h k 4 t
    else if (s.coreAt h k).state = .empty ∨ (s.coreAt h k).state = .stopped then t
    else stopHubCore h k t
  | .hubData h k _ =>
    let t := memEvent (.hub h k) (bitNat (!corrected)) s
    if corrected then t else restartHubCore h k 4 t
  | .chive c _ =>
    let r := regionOf c
    if corrected then s.raiseRoll r 2 7
    else if (s.cluster c).ctl.spared ∨ (s.cluster c).core.state = .empty ∨ (s.cluster c).core.state = .stopped then
      s.raiseRoll r 2 9
    else ((s.modCluster c (fun u => u.modCore (fun k => { k with state := .stopped }))).record 0x21 7 0 c
      (BitVec.ofNat 32 0x300)).raiseRoll r 2 9
  | .grantTable _ => s.raise 203 (bitNat (!corrected))
  | .recorder h block _ =>
    let t := s.raise 204 (bitNat (!corrected))
    if corrected ∨ s.owner ≠ some h then t else recorderLost block.val t
  | .sage r _ => if corrected then s.raiseRoll r.val 2 7 else weightsLost r.val s
  | .governor r => s.raiseRoll r.val 2 7

/-- MEMORY_SCRUB and MEMORY_UNCORRECTABLE (R422, R423): one controller reads a block. -/
def scrubOne (x : Scrub) (s : State) : State :=
  match scrubErr x with
  | none => memoryError x true s
  | some e =>
    match blockFound s.fresh e.words e with
    | none => s
    | some ok => memoryError x ok s.nextFree

/-- Which memory a scrubbed block belongs to. -/
def scrubMemory : Scrub → Scrub
  | .hubCode h k b _ _ => .hubCode h k b ⟨[], 0⟩ false
  | .hubData h k _ => .hubData h k ⟨[], 0⟩
  | .chive c _ => .chive c ⟨[], 0⟩
  | .grantTable _ => .grantTable ⟨[], 0⟩
  | .recorder h _ _ => .recorder h 0 ⟨[], 0⟩
  | .sage r _ => .sage r ⟨[], 0⟩
  | .governor r => .governor r

/-- The first of each memory's blocks. -/
def oncePerMemory : List Scrub → List Scrub → List Scrub
  | _, [] => []
  | seen, x :: rest => if scrubMemory x ∈ seen then oncePerMemory seen rest else x :: oncePerMemory (scrubMemory x :: seen) rest

/-- The scrubs of a control period (R423): each memory reads one block, the next in address order; the recorder's are the blocks 0
to 511 in turn. Then what the other reads of the period just ended found wrong. -/
def scrubAll (scrubs found : List Scrub) (s : State) : State :=
  let due (x : Scrub) : Bool := match x with | .recorder _ b _ => b.val == s.scrubAt % 512 | _ => true
  (oncePerMemory [] (scrubs.filter due) ++ found).foldl (fun (a : State) x => scrubOne x a) { s with scrubAt := s.scrubAt + 1 }

/-! ### Operations -/

/-- The capture of DBG_CMD (R490): the latest operation with STATUS in place of OP, and WHY filled in. -/
def Debug.capture (d : Debug) : Nat :=
  d.status + 16 * d.unit + 256 * d.why + 2 ^ 16 * d.cluster + 2 ^ 32 * d.addr.toNat + 2 ^ 64 * d.data.toNat

/-- An operation ends with a status, WHY and data, which the capture returns (R490, R492). -/
def dbgResult (h : Hub) (status why : Nat) (data : Word) (s : State) : State :=
  let t := s.modDbg h (fun d => { d with status := status, why := why, data := data })
  t.emit (.tdo h (t.dbg h).capture)

/-- The fields of the operation stand in the register (R490). -/
def State.dbgFields (s : State) (h : Hub) (op : DbgOp) : State :=
  s.modDbg h (fun d => { d with unit := op.unit.val, cluster := op.cluster % 0x10000, addr := op.addr })

/-- A reserved bit, OP or UNIT, a unit the operation does not take, or a cluster that its UNIT does not allow (R490, R492). -/
def State.dbgBad (s : State) (op : DbgOp) (units : List Nat) : Bool :=
  decide (op.resv ∨ op.unit.val ∉ units ∨
    (op.unit.val = 3 ∧ (36864 ≤ op.cluster ∨ (s.cluster op.cluster).ctl.spared)) ∨ (op.unit.val ≠ 3 ∧ op.cluster ≠ 0))

/-- The checks before an operation (R490–R492): NO_CLOCK; an operation while one is PENDING is ignored and the capture
returns PENDING; BAD_ARG; DENIED outside the effective scope; NO_ROUTE to a Chive from a hub that does not own. -/
def dbgFront (h : Hub) (op : DbgOp) (units : List Nat) (argOk allowed : Bool) (act : State → State) (s : State) : State :=
  if s.tapUp = false then s
  else
    let t := loadInstr h 0x21 s
    if (s.dbg h).pendOp.isSome && s.dbgClocked h then t.emit (.tdo h (t.dbg h).capture)
    else
    let t := t.dbgFields h op
    if s.dbgClocked h = false then dbgResult h 3 0 0 t
    else if s.dbgBad op units ∨ argOk = false then dbgResult h 6 0 0 t
    else if allowed = false then dbgResult h 2 0 0 t
    else if op.unit.val = 3 ∧ 4 ∉ units ∧ s.owner ≠ some h then dbgResult h 7 0 0 t
    else act t

/-- The core that an operation names. -/
def dbgCore (h : Hub) (op : DbgOp) : CoreId :=
  if op.unit.val = 3 then .chive (Fin.ofNat 36864 op.cluster) else .hub h (Fin.ofNat 3 op.unit.val)

/-- The core is in steps 4 to 6 of an activation of its target (R372, R492). -/
def State.dbgBusy (s : State) (core : CoreId) : Bool :=
  match s.hub.fw.act with
  | some a => a.target == kindOf core && !a.deferred && decide (4 ≤ a.step)
  | none => false

/-- Why an operation on a core does not go through: EMPTY, BUSY, NOT_HALTED (R492). -/
def State.dbgStop (s : State) (core : CoreId) (needHalt : Bool) : Option Nat :=
  let st := s.coreState core
  if st = .empty ∨ st = .stopped then some 9
  else if s.dbgBusy core then some 5
  else if needHalt ∧ st ≠ .halted then some 4
  else none

/-- An operation on a firmware core (R491, R492): at a hub's own core at once; at a Chive over the management class, PENDING
until CHIVE_DEBUG_REPLY brings the result. `act` answers the state, the status and the data read. -/
def coreOp (h : Hub) (n : Nat) (op : DbgOp) (argOk allowed needHalt : Bool) (act : CoreId → State → State × Nat × Word)
    (s : State) : State :=
  dbgFront h op [0, 1, 2, 3] argOk allowed (fun t =>
    let core := dbgCore h op
    let stop := t.dbgStop core needHalt
    if op.unit.val = 3 then
      let u : State × Nat × Word := match stop with
        | some e => (t, e, 0)
        | none => act core t
      dbgResult h 1 0 0 ((u.1.modDbg h (fun d => { d with
        pendOp := some n, pendRes := (u.2.1, u.1.haltWhy core, u.2.2) })).hubSend (.debug op.cluster))
    else match stop with
      | some e => dbgResult h e (t.haltWhy core) 0 t
      | none =>
        let u := act core t
        dbgResult h u.2.1 (u.1.haltWhy core) u.2.2 u.1) s

/-- NOP (R491): the latest result is captured unchanged, unless the operation itself is a bad one (R492). -/
def execNop (x : PortOp) (s : State) : Host.Outcome State Fault Refusal :=
  let h := x.hub
  let op := x.op
  .next (if s.tapUp = false then s
  else
    let t := loadInstr h 0x21 s
    if s.dbgClocked h = false then dbgResult h 3 0 0 t
    else if (s.dbg h).pendOp.isNone ∧ s.dbgBad op [0, 1, 2, 3, 4, 5] then dbgResult h 6 0 0 (t.dbgFields h op)
    else t.emit (.tdo h (s.dbg h).capture))

/-- HALT (R491, R493): BUSY of a core that restarts or is held (notes/assumptions/34.md). -/
def execHalt (h : Hub) (op : DbgOp) (s : State) : Host.Outcome State Fault Refusal :=
  .next (journaled (coreOp h 1 op true (s.scopeBit h 0 op.unit) false (fun core t =>
    match t.coreState core with
    | .halted => (t, 0, 0)
    | .restarting | .held => (t, 5, 0)
    | _ => (haltCore h core 1 t, 0, 0))) s)

/-- RESUME (R491). -/
def execResume (h : Hub) (op : DbgOp) (s : State) : Host.Outcome State Fault Refusal :=
  .next (journaled (coreOp h 2 op true (s.scopeBit h 0 op.unit) true (fun core t => (resumeCore core t, 0, 0))) s)

/-- STEP (R491): one instruction of a halted core, whose code is its image's; WHY becomes 6. -/
def execStep (h : Hub) (op : DbgOp) (s : State) : Host.Outcome State Fault Refusal :=
  .next (journaled (coreOp h 3 op true (s.scopeBit h 0 op.unit) true (fun core t => (setHalt core .halted 6 t, 0, 0))) s)

/-- A breakpoint's address lies in the active bank (R360, R491). -/
def dbgInBank (op : DbgOp) : Bool := decide (op.addr.toNat < bankSize op.unit.val)

/-- BP_SET (R491). -/
def execBpSet (h : Hub) (op : DbgOp) (s : State) : Host.Outcome State Fault Refusal :=
  .next (journaled (coreOp h 4 op (dbgInBank op) (s.scopeBit h 0 op.unit) false (fun core t =>
    let n := op.data.toNat % 4
    ((setBreaks core (fun l => (n, op.addr, h) :: l.filter (fun p => p.1 != n)) t).modDbg h (fun d =>
      { d with bpCores := core :: d.bpCores.filter (fun x => x != core) }), 0, 0))) s)

/-- BP_CLEAR (R491). -/
def execBpClear (h : Hub) (op : DbgOp) (s : State) : Host.Outcome State Fault Refusal :=
  .next (journaled (coreOp h 5 op true (s.scopeBit h 0 op.unit) false (fun core t =>
    (setBreaks core (fun l => l.filter (fun p => p.1 != op.data.toNat % 4)) t, 0, 0))) s)

/-- BREAKPOINT_HIT (R491): a running core fetches at a breakpoint's address and halts before that instruction, under the grant
that set the breakpoint. -/
def breakpointHit (core : CoreId) (addr : Word) (s : State) : State :=
  match (s.breaks core).find? (fun p => p.2.1 == addr), s.coreState core with
  | some (n, _, h), .running => haltCore h core (2 + n) s
  | _, _ => s

def execBreakpointHit (core : CoreId) (addr : Word) (s : State) : Host.Outcome State Fault Refusal :=
  .next (journaled (breakpointHit core addr) s)

/-- A core address in data memory, as a word number (R354, R360). -/
def dataWord (target addr : Nat) : Option Nat :=
  if dataBase ≤ addr ∧ addr < dataBase + dataSize target then some ((addr - dataBase) / 4) else none

def State.coreData (s : State) : CoreId → SMap Word
  | .hub h k => (s.coreAt h k).data
  | .chive c => (s.cluster c).core.data

def State.coreSeen (s : State) : CoreId → List Nat
  | .hub h k => (s.coreAt h k).seen
  | .chive c => (s.cluster c).core.seen

def State.coreRegs (s : State) : CoreId → List (Word × Word)
  | .hub h k => (s.coreAt h k).regs
  | .chive c => (s.cluster c).core.regs

/-- The image in a core's active bank. -/
def State.coreImage (s : State) : CoreId → Option FwImage
  | .hub h k => (s.coreAt h k).image
  | .chive c => if (s.cluster c).core.bank then s.hub.fw.chive1 else s.hub.fw.chive0

/-- Word `i` of a halted core's data memory is known to be `v`. -/
def setData (core : CoreId) (i : Nat) (v : Word) (s : State) : State :=
  match core with
  | .hub h k => s.modCore h k (fun c => { c with data := c.data.set i v, seen := i :: c.seen.filter (fun j => j != i) })
  | .chive c => s.modCluster c (fun u => u.modCore (fun x => { x with
      data := x.data.set i v, seen := i :: x.seen.filter (fun j => j != i) }))

/-- A processor register of a halted core is known to be `v`. -/
def setReg (core : CoreId) (n v : Word) (s : State) : State :=
  let put (l : List (Word × Word)) : List (Word × Word) := (n, v) :: l.filter (fun p => p.1 != n)
  match core with
  | .hub h k => s.modCore h k (fun c => { c with regs := put c.regs })
  | .chive c => s.modCluster c (fun u => u.modCore (fun x => { x with regs := put x.regs }))

/-- The word at a core's address: the code of its image, its data memory. What the image does not fill, and what the core
itself has left in its data memory, is laid down by no rule. -/
def readCore (core : CoreId) (addr : Nat) (s : State) : State × Word :=
  let v := Config.debugRead s.fresh
  match dataWord (kindOf core) addr, s.coreImage core with
  | some i, _ =>
    if i ∈ s.coreSeen core then (s, (s.coreData core).get i)
    else if s.coreState core = .halted then (setData core i v s.nextFree, v)
    else (s.nextFree, v)
  | none, some x =>
    if 0x180 + addr + 4 ≤ x.bytes.length then (s, BitVec.ofNat 32 (leAt x.bytes (0x180 + addr) 4)) else (s.nextFree, v)
  | none, none => (s.nextFree, v)

/-- What the controller's finding at a core's address does (R423). -/
def coreMemError (core : CoreId) (addr : Nat) (corrected other : Bool) (s : State) : State :=
  match core with
  | .chive c => memoryError (.chive c ⟨[], 0⟩) corrected s
  | .hub h k =>
    if (dataWord k addr).isSome then memoryError (.hubData h k ⟨[], 0⟩) corrected s
    else memoryError (.hubCode h k (s.coreAt h k).bank ⟨[], 0⟩ other) corrected s

/-- What a read of one word finds (R423). -/
def readFound (n : Nat) (x : ReadErr) : Option Bool := blockFound n (x.err.words.filter (fun w => w.word == x.word)) x.err

/-- The word comes back as it was written: it was marked, or had one wrong bit at most. -/
def readSound (n : Nat) (x : ReadErr) : Bool :=
  x.err.words.all (fun w => w.word != x.word || decide (w.bits < 3) || markedWord n w)

/-- A word is read through its memory's controller: MEM_FAULT when it cannot be corrected (R423, R492); one that the inner code
mends amiss comes back as no rule says. -/
def readThrough (x : ReadErr) (core : CoreId) (addr : Nat) (s : State) : State × Nat × Word :=
  match readFound s.fresh x with
  | none => let u := readCore core addr s; (u.1, 0, u.2)
  | some true =>
    let u := readCore core addr (coreMemError core addr true true s.nextFree)
    (u.1, 0, if readSound s.fresh x then u.2 else Config.debugRead s.fresh)
  | some false => (coreMemError core addr false x.otherCopyGood s.nextFree, 8, 0)

/-- The address lies in the active bank or in data memory, aligned (R360, R491). -/
def dbgReadable (op : DbgOp) : Bool :=
  op.addr.toNat % 4 == 0 && ((dbgInBank op) || (dataWord op.unit.val op.addr.toNat).isSome)

/-- MEM_READ (R491). -/
def execMemRead (h : Hub) (op : DbgOp) (ecc : ReadErr) (s : State) : Host.Outcome State Fault Refusal :=
  .next (journaled (coreOp h 6 op (dbgReadable op) (s.scopeBit h 1 op.unit) false (fun core t =>
    readThrough ecc core op.addr.toNat t)) s)

/-- A word of a core's data memory is written; one of a RETAIN region of the owner's cores is in the mirrored image (R389, R491). -/
def writeCore (core : CoreId) (i : Nat) (v : Word) (s : State) : State :=
  let t := setData core i v s
  match core with
  | .chive _ => t
  | .hub h k =>
    match (s.coreAt h k).image with
    | some x =>
      let key := 65536 * k.val + i
      if s.owner = some h ∧ inStretch x.retained i then
        t.modHub (fun m => { m with retain := (key, v) :: m.retain.filter (fun p => p.1 != key) })
      else t
    | none => t

/-- A word of half its controller's width is written by a read, a merge and a write (R422): what the read finds does what R423
says, and one that cannot be corrected leaves MEM_FAULT and no write (R492; notes/assumptions/59.md). -/
def writeThrough (x : Option ReadErr) (core : CoreId) (addr i : Nat) (v : Word) (s : State) : State × Nat × Word :=
  match x.map (fun e => (e, readFound s.fresh e)) with
  | none | some (_, none) => (writeCore core i v s, 0, 0)
  | some (_, some true) => (writeCore core i v (coreMemError core addr true true s.nextFree), 0, 0)
  | some (e, some false) => (coreMemError core addr false e.otherCopyGood s.nextFree, 8, 0)

/-- MEM_WRITE (R491): only data memory; the code bank is a write the port never makes. -/
def execMemWrite (h : Hub) (op : DbgOp) (s : State) : Host.Outcome State Fault Refusal :=
  let i := dataWord op.unit.val op.addr.toNat
  .next (journaled (coreOp h 7 op (dbgReadable op) (s.scopeBit h 2 op.unit && i.isSome) true (fun core t =>
    writeThrough op.merge core op.addr.toNat (i.getD 0) op.data t)) s)

/-- A processor register: what the port has read or written since the halt; otherwise no rule lays its value down. -/
def readProc (core : CoreId) (n : Word) (s : State) : State × Word :=
  match (s.coreRegs core).find? (fun p => p.1 == n) with
  | some (_, v) => (s, v)
  | none => (setReg core n (Config.debugRead s.fresh) s.nextFree, Config.debugRead s.fresh)

/-- REG_READ (R491). -/
def execRegRead (h : Hub) (op : DbgOp) (s : State) : Host.Outcome State Fault Refusal :=
  .next (journaled (coreOp h 8 op true (s.scopeBit h 0 op.unit) true (fun core t =>
    ((readProc core op.addr t).1, 0, (readProc core op.addr t).2))) s)

/-- REG_WRITE (R491). -/
def execRegWrite (h : Hub) (op : DbgOp) (s : State) : Host.Outcome State Fault Refusal :=
  .next (journaled (coreOp h 9 op true (s.scopeBit h 0 op.unit && s.scopeBit h 2 op.unit) true (fun core t =>
    (setReg core op.addr op.data t, 0, 0))) s)

/-- The word that REC_READ reads at a hub's recorder (R437, R491); none at an address out of range. -/
def recorderWord (q : Recorder) (addr : Nat) : Option Nat :=
  if addr % 4 ≠ 0 then none
  else if addr < 0x40000 then
    some (match q.recs.find? (fun x => x.seq.toNat % 16384 == addr / 16) with
      | some x => leAt (recBytes x) (addr % 16) 4
      | none => 0)
  else if addr = 0x40000 then some (q.head.toNat % 2 ^ 32)
  else if addr = 0x40004 then some (q.head.toNat / 2 ^ 32)
  else if addr = 0x40008 then some (q.exported.toNat % 2 ^ 32)
  else if addr = 0x4000C then some (q.exported.toNat / 2 ^ 32)
  else none

/-- What hub `h` itself holds (R389, R436): beside the owner, or beside a hub that has fenced itself, the other's copy. -/
def State.imageOfHub (s : State) (h : Hub) : Shared :=
  if s.owner = some h.other ∨ (s.owner = none ∧ (s.hubOf h.other).role = .fenced) then s.pair.image else s.hub

/-- A word of the recorder is read through its controller (R423): its memory's slots carry the codes. -/
def recorderRead (h : Hub) (addr : Nat) (x : ReadErr) (s : State) : State :=
  let w := BitVec.ofNat 32 ((recorderWord (s.imageOfHub h).recorder addr).getD 0)
  let block : Fin 512 := Fin.ofNat 512 (addr / 512)
  match (if addr < 0x40000 then readFound s.fresh x else none) with
  | none => dbgResult h 0 0 w s
  | some true =>
    dbgResult h 0 0 (if readSound s.fresh x then w else Config.debugRead s.fresh) (memoryError (.recorder h block ⟨[], 0⟩) true s.nextFree)
  | some false => dbgResult h 8 0 0 (memoryError (.recorder h block ⟨[], 0⟩) false s.nextFree)

/-- REC_READ (R491). -/
def execRecRead (h : Hub) (op : DbgOp) (ecc : ReadErr) (s : State) : Host.Outcome State Fault Refusal :=
  let w := recorderWord (s.imageOfHub h).recorder op.addr.toNat
  .next (journaled (dbgFront h op [4] w.isSome (s.scopeBit h 3 0) (recorderRead h op.addr.toNat ecc)) s)

/-- WIN_READ (R467, R468, R491). -/
def execWinRead (h : Hub) (op : DbgOp) (s : State) : Host.Outcome State Fault Refusal :=
  let off := op.addr.toNat
  .next (dbgFront h op [5] (decide (off < 0x200000)) (s.scopeBit h 3 0) (fun t =>
    if t.pow.regOpen = false then dbgResult h 0 0 0xFFFFFFFF t
    else if off % 4 ≠ 0 then dbgResult h 0 0 0 (t.modSetup (fun u => { u with accErr := true }))
    else
      dbgResult h 0 0 (readReg t h off) t) s)

/-- DEAUTH (R489, R491). -/
def execDeauth (h : Hub) (op : DbgOp) (s : State) : Host.Outcome State Fault Refusal :=
  .next (journaled (dbgFront h op [0, 1, 2, 3, 4, 5] true true (fun t => dbgResult h 0 0 0 (endGrant h t))) s)

/-- WARM_RESET (R455, R491). -/
def execWarmReset (h : Hub) (op : DbgOp) (s : State) : Host.Outcome State Fault Refusal :=
  .next (dbgFront h op [0, 1, 2, 3, 4, 5] true (s.scopeBit h 4 0) (fun t => warmReset 4 (dbgResult h 0 0 0 t)) s)

/-- CHIVE_DEBUG_REPLY (R492). -/
def execChiveDebugReply (h : Hub) (s : State) : Host.Outcome State Fault Refusal :=
  let d := s.dbg h
  .next (if d.pendOp.isSome then
    dbgResult h d.pendRes.1 d.pendRes.2.1 d.pendRes.2.2 (s.modDbg h (fun d => { d with pendOp := none })) else s)

end Sys2Proof.Machine
end

