-- ==== Sys2Proof/Machine/Access.lean ====
section
/-!
DEFINITION. REGISTER_WRITE (R467–R470, R474): every access of the host to the register window. An offset whose write is a
row of its own does what that row does.
-/

namespace Sys2Proof.Machine

/-- The numbers of the bits that a 32-bit write sets. -/
def bitsSet (v : Nat) : List Nat := onesOf 32 v

/-- REG_CTL (R477, R479, R483). -/
def writeRegCtl (v : Nat) (within : Bool) (s : State) : State :=
  let t := writeHold (bitOf v 0) (bitOf v 1) within s
  if bitOf v 31 then discard (bitsOf v 8 8) (bitsOf v 16 8) t else t

/-- REG_STAT (R483): LOCK_WR, ACC_ERR and APPLY_LATE are cleared by ones. -/
def writeRegStat (v : Nat) (s : State) : State :=
  s.modSetup (fun u => { u with
    lockWr := u.lockWr && !bitOf v 2, accErr := u.accErr && !bitOf v 3, applyLate := u.applyLate && !bitOf v 4 })

/-- GATE_CTL (R466): the fields are stored; GO issues the request, OP 3 none. -/
def writeGateCtl (v : Nat) (s : State) : State :=
  let t := s.modSetup (fun u => { u with gateCtl := BitVec.ofNat 32 (v % 0x200000) })
  let kind := bitsOf v 16 3
  let idx := bitsOf v 0 16
  if bitOf v 31 = false then t
  else match bitsOf v 19 2 with
  | 0 => gateClose kind idx .host false t
  | 1 => gateOpen kind idx .host false t
  | 2 => gateAnswer 2 kind idx .host ((t.gateRefused kind idx .host).getD 0) t
  | _ => t

/-- HMB_AMASK (R340): a DONE slot that the write unmasks signals vector 11. -/
def writeAmask (v : Nat) (s : State) : State :=
  let old := s.hub.mb.amask
  let t := bothHubs (fun s => s.modMb (fun m => { m with amask := BitVec.ofNat 32 v })) s
  if (List.range 32).any (fun k => decide ((s.slot k).state = .done) && bitOf old.toNat k && !bitOf v k) then
    t.hubEmit (.msix 11) else t

/-- HARD_CAP (R320, R325). -/
def writeHard (on : Bool) (s : State) : State :=
  setEcap [.a, .b] (fun e => { e with hard := on }) s

/-- RING_CTL (R294, R324). -/
def writeRingCtl (v : Nat) (s : State) : State :=
  let ks := onesOf 8 v
  bothHubs (askRestart (ks ++ ks.map (· + 8) ++ (if bitOf v 8 then [16] else []) ++ (if bitOf v 9 then [17] else []))) s

/-- FC_CTRL (R417, R418, R421, R426). -/
def writeFcCtrl (v : Nat) (s : State) : State :=
  let t := testMode (bitOf v 0) (bitOf v 1) s
  let t := if bitOf v 16 then forceBroken (bitsOf v 8 8) t else t
  if bitOf v 31 then endOfHandling t else t

/-- FC_STATE (R416, R426): CLR_REFUSED is cleared by a one; a FROZEN collector keeps it. -/
def writeFcState (v : Nat) (s : State) : State :=
  let put (c : Collector) : Collector := if c.frozen then c else { c with clrRefused := c.clrRefused && !bitOf v 6 }
  (s.modColl .a put).modColl .b put

/-- A write of `v` to the control register at `off`; nothing at a register that is read-only or not listed (R10, R467). -/
def writeControl (off v : Nat) (within : Bool) (s : State) : State :=
  match off with
  | 0x0010 => writeRegCtl v within s
  | 0x0014 => writeRegStat v s
  | 0x0020 => selectWide (bitsOf v 0 8) (bitsOf v 8 8) s
  | 0x1008 => writeGateCtl v s
  | 0x1010 => if bitsOf v 0 8 = 0xA5 then warmReset 1 s else s
  | 0x2004 => if bitOf v 0 then startHandover s else s
  | 0x2008 => if bitOf v 12 then s.modPair (fun p => { p with hoRefused := false }) else s
  | 0x9010 => (bitsSet v).foldl (fun a k => mbRing k a) s
  | 0x9014 => (bitsSet v).foldl (fun a k => cancelSlot k a) s
  | 0x9018 => (bitsSet v).foldl (fun a k => bothHubs (mbDoneClear k) a) s
  | 0x901C => writeAmask v s
  | 0x902C => if bitOf v 0 then bothHubs (fun s => s.modMb (fun m => { m with wrErr := false })) s else s
  | 0xA004 => writeHard (bitOf v 0) s
  | 0x10404 => writeRingCtl v s
  | 0x20004 => writeFcCtrl v s
  | 0x20008 => writeFcState v s
  | _ =>
    if 0x9100 ≤ off ∧ off < 0x9300 then
      bothHubs (mbWrite ((off - 0x9100) / 16) ((off - 0x9100) % 16 / 4) (BitVec.ofNat 32 v)) s
    else if 0x11000 ≤ off ∧ off < 0x11048 then
      let k := (off - 0x11000) / 4
      if k < 8 then bothHubs (ringDoorbell k (BitVec.ofNat 32 v)) s else filledDoorbell k (BitVec.ofNat 32 v) s
    else if 0x20020 ≤ off ∧ off < 0x20040 then
      (bitsSet v).foldl (fun a b => pendClear (8 * (off - 0x20020) + b) a) s
    else if 0x20040 ≤ off ∧ off < 0x20060 then
      (bitsSet v).foldl (fun a b => forceEvent (8 * (off - 0x20040) + b) a) s
    else if 0x22000 ≤ off ∧ off < 0x22800 ∧ off % 8 = 0 then
      if bitOf v 0 then pendClear ((off - 0x22000) / 8) s else s
    else s

/-- A write of `v` at an aligned offset (R470, R474). -/
def writeWord (off v : Nat) (within : Bool) (s : State) : State :=
  match regDef off with
  | some _ => writeSetup off v within s
  | none => writeControl off v within s

/-- A write to the broadcast block is a write to that offset of the 64 region blocks (R470). -/
def writeOffset (off v : Nat) (within : Bool) (s : State) : State :=
  if 0x140000 ≤ off ∧ off < 0x141000 then
    (List.range 64).foldl (fun a r => writeWord (regionBase r + (off - 0x140000)) v within a) s
  else writeWord off v within s

/-- The access is an aligned one of 32 bits within the window (R467). -/
def aligned32 (off size : Nat) : Bool := size == 4 && off % 4 == 0

/-- A host access (R391, R467, R468): before REG_OPEN a write is discarded and a read completes with all ones; a wrong size
or alignment sets ACC_ERR, its write is discarded and its read returns 0; a read waits while no hub is in control. -/
def access (acc : Access) (within : Bool) (s : State) : State :=
  let bad (t : State) : State := t.modSetup (fun u => { u with accErr := true })
  match acc with
  | .write off size v =>
    if s.pow.regOpen = false then s
    else if aligned32 off size = false then bad s
    else writeOffset off v.toNat within s
  | .read off size =>
    if s.pow.regOpen = false then s.emit (.readData off 0xFFFFFFFF)
    else if aligned32 off size = false then bad (s.emit (.readData off 0))
    else match s.inControl, s.owner with
    | true, some h => answerRead h off s
    | _, _ => { s with reads := s.reads ++ [off] }

/-- REGISTER_WRITE (R474). -/
def execRegisterWrite (acc : Access) (within : Bool) (s : State) : Host.Outcome State Fault Refusal :=
  .next (journaled (access acc within) s)

end Sys2Proof.Machine
end

