-- ==== Sys2Proof/Machine/Boundary.lean ====
section
/-!
DEFINITION. The control-period boundary (R163): what the governors and the hubs do every microsecond (two while the clocks
coast). notes/assumptions/12.md gives the order inside the step.
-/

namespace Sys2Proof.Machine

/-! ### The period just ended -/

/-- The mean and peak of the samples of the period just ended (R80), as read and as exported (R88); a period in which no
sample was taken leaves the figures. -/
def Digitiser.endPeriod (d : Digitiser) : Digitiser :=
  if d.raw = [] then d
  else
    let mean := d.raw.sum / d.raw.length
    { d with
      prevMeanRaw := d.meanRaw, meanRaw := mean, peakRaw := d.raw.foldl max 0
      meanShown := d.shown.sum / d.shown.length, peakShown := d.shown.foldl max 0
      raw := [], shown := [], pkgSum := d.pkgSum + mean, pkgCnt := d.pkgCnt + 1 }

/-- What Sage's records of the period say becomes the figure of the division (R162, R163). -/
def Feature.endPeriod (f : Feature) : Feature :=
  { f with aPrev := f.aMax, vPrev := f.vMax, workedPrev := f.worked, aMax := 0, vMax := 0, worked := false }

/-- A region's period ends (R80, R126, R165, R176, R184): its figures, the quiet window, the overshoot guard on the mean as
adjusted, since raw readings serve the counters, the confirmation test and the tracking alone (R88, R143). `rise` is SPEC_RISE;
with `learned` the learned model published in it. -/
def Region.endPeriod (rise : Nat) (learned : Bool) (g : Region) : Region :=
  let sampled := decide (g.dig.raw ≠ [])
  let d := g.dig.endPeriod
  let quiet := decide (g.tripsNow = 0) && !g.confNow && decide (d.peakRaw ≤ d.prevMeanRaw + rise)
  let above := sampled && g.dig.sumValid && decide (g.caps.iReg < d.meanShown)
  { g with
    dig := d
    clusters := g.clusters.mapAll (fun u => { u with feature := u.feature.endPeriod })
    quiet := (quiet :: g.quiet).take 255
    confNow := false
    trust := { g.trust with periods := g.trust.periods + 1, learned := g.trust.learned + bitNat learned }
    therm := { g.therm with
      meanSum := if sampled then g.therm.meanSum + d.meanShown else g.therm.meanSum
      meanCnt := if sampled then g.therm.meanCnt + 1 else g.therm.meanCnt }
    caps := { g.caps with
      guardLeft := if above then 16 else g.caps.guardLeft - 1
      guardCnt := if above then satAdd 0xFF g.caps.guardCnt 1 else g.caps.guardCnt } }

/-- Recoveries of R87 that last 1,000 control periods: the sum channel; all 16 monitors. The period in which a recovery began
is not one of them. -/
def recoverSensors (r : Nat) (s : State) : State :=
  let g := s.region r
  let sum := if g.dig.sumStatus = .valid then g.dig.sumWait - 1 else g.dig.sumWait
  let vm := if g.vmonWait = 0 then 0 else if g.unreadMonitors then 1001 else g.vmonWait - 1
  if sum = g.dig.sumWait ∧ vm = g.vmonWait then s
  else
    let t := s.modRegion r (fun g => { g.modDig (fun d => { d with sumWait := sum }) with vmonWait := vm })
    t.holdDigitiser r

/-! ### Speculation -/

/-- DEMOTION (R141, R142) at the boundary after the miss that brought MISS_WIN above 16; a demotion's time runs. -/
def demotionAtBoundary (r : Nat) (s : State) : State :=
  let p := (s.region r).spec
  if p.demote then
    let t := s.modRegion r (fun g => ({ g.modSpec (fun p => { p with
        state := .demoted, demote := false, demoteLeft := 10000, missWin := [], demotions := p.demotions + 1 }) with
      margin := { g.margin with goStatic := true } }).stick 4)
    t.record 0x18 2 0 (nodeGov r) (BitVec.ofNat 32 r)
  else if p.state = .demoted then
    s.modRegion r (fun g => (g.modSpec (fun p => { p with demoteLeft := p.demoteLeft - 1 })).stick 4)
  else if p.missWin = [] then s
  else s.modRegion r (fun g => g.modSpec (fun p => { p with missWin := (0 :: p.missWin).take 64 }))

/-! ### Load allowance and setpoint -/

/-- V_load after the period (R173, R176): raised by DROOP_STEP after a period with trip crossings, not in the safe state;
lowered by 1 mV while the latest DECAY_PERIODS periods were quiet. -/
def nextVLoad (step top decay : Nat) (safe : Bool) (trips : Nat) (quiet : List Bool) (v : Nat) : Nat :=
  if 0 < trips then (if safe then v else if top ≤ v then v else min top (v + step))
  else if 0 < v ∧ decay ≤ quiet.length ∧ (quiet.take decay).all (fun b => b) then v - 1 else v

/-- V_load and the committed setpoint at the boundary (R173, R174, R176, R178): the setpoint once the array is on. A decay
takes confirmed raises back first. -/
def setpointAtBoundary (r : Nat) (s : State) : State :=
  let trips := (s.region r).tripsNow
  let t := s.modRegion r (fun g => { g.modSp (fun p =>
    let v := nextVLoad (s.cfg (offAct r 1) 16 6) (s.cfg (offAct r 2) 24 6) (s.cfg (offAct r 1) 24 8) (s.gov r).safe trips
      g.quiet p.vLoad
    { p with vLoad := v, conf := p.conf - (p.vLoad - v) }) with tripsNow := 0 })
  let t := if 0 < trips then t.raiseRoll r 2 1 else t
  if (t.gov r).arrayOn then commitSetpoint r t else t

/-! ### Cap and division -/

/-- From START_DONE to the first run of the wafer loop the cap is the preset in force and the thermal ceiling is the rating
ceiling; host ceilings apply (R53, R462). -/
def presetCap (r : Nat) (s : State) : State :=
  if s.pow.startDone = false ∨ s.pow.waferRun then s
  else s.modRegion r (fun g =>
    let top := match s.hub.budget.regCeil.get r with | some h => min g.rating h | none => g.rating
    let i := min (s.cfg (offPreset r) 0 12) top
    { g with caps := { g.caps.setCap i i with lastAck := i }, therm := { g.therm with iTh := g.rating } })

/-- Whether an emergency cap, not yet settled, was in force in the region before a derate that has just reached it: the cause
of the action that reached a grant first is the one recorded (R520). -/
def markFirst (before : Region) (r : Nat) (s : State) : State :=
  if (s.region r).ph.unsettled && !before.ph.unsettled then
    s.modPh r (fun p => { p with ecapFirst := s.hub.thyme.ecapSettle && before.caps.ecap && before.caps.ecapWait.isNone })
  else s

/-- The cap at the boundary (R47, R226, R462); a lowering marks a standing pre-raise as abandoned if not confirmed
(R139). -/
def capsAtBoundary (r : Nat) (s : State) : State :=
  let before := (s.region r).caps.iReg
  let t := markFirst (s.region r) r (derateAtBoundary r (presetCap r (capAtBoundary r s)))
  if (t.region r).caps.iReg < before ∧ (t.region r).spec.state = .standing then
    t.modRegion r (fun g => g.modSpec (fun p => { p with abandon := true }))
  else t

/-- Shares are held while a tightening waits (R278), but not in the safe state, in which no code is armed (R286). -/
def State.holdShares (s : State) (r : Nat) : Bool := !(s.gov r).safe

/-- An emergency action has cut the cap of the region, or its reservations are scaled: the members are lowered directly (R204,
R280). -/
def Region.cut (g : Region) : Bool := decide (g.caps.iReg < g.caps.calm) || decide (g.caps.iReg < resSum g.clusters)

/-- The division of the region's cap (R163–R165, R274, R278); `guard` says whether every cluster counts a_max. The uncapped
ceilings, and from them the groups' m_r, are those of the cap without what emergency actions take from it (R204, R280); the
division uses the m_r of this boundary. A region whose comparators failed the self-test keeps C_cl at 0 until reset (R464). -/
def divideRegion (r : Nat) (guard : Bool) (s : State) : State :=
  let g := s.region r
  let d : Div := ⟨s.coefs r, g.sp.vc, g.caps.iReg, guard⟩
  let m := { d with iReg := g.caps.calm }.uncapped g.clusters
  let slots := g.slots.map (fun x => { x with mR := x.least m })
  let m := d.divide (slotMR slots) (s.holdShares r) g.cut (max g.caps.iReg g.caps.lastAck) m
  let m := if g.therm.selfTest then m.mapAll (fun u => { u with ctl := { u.ctl with ceil := 0, uncapped := 0 } }) else m
  s.modRegion r (fun g => { g with clusters := m })

/-! ### Bus errors -/

/-- The words of one kind for the clusters that show ERR: to the region or to a row where every live cluster there shows it
and they share the setting, to single clusters otherwise (R157). `p` gives a cluster's code, slope and flag. -/
def errWords (kind : Nat) (live err : Nat → Bool) (p : Nat → Nat × Nat × Bool) : List Word :=
  let whole (cs : List Nat) : Option (Nat × Nat × Bool) :=
    match cs.filter live with
    | [] => none
    | c :: rest => if (c :: rest).all (fun i => err i && p i == p c) then some (p c) else none
  let row (i : Nat) : List Nat := (List.range 24).map (fun j => 24 * i + j)
  match whole (List.range 576) with
  | some (c, k, f) => [regionWord kind c k f]
  | none => (List.range 24).flatMap (fun i => match whole (row i) with
    | some (c, k, f) => [rowWord i kind c k f]
    | none => ((row i).filter (fun j => live j && err j)).map (fun j => clusterWord j kind (p j).1 (p j).2.1 (p j).2.2))

/-- BUS_ERR_RESEND (R157): FLOOR, RECOVERY, HOLD and the standing TARGET, the TARGET last because it clears ERR. -/
def resendErrors (r : Nat) (s : State) : State :=
  let g := s.region r
  if g.clusters.any 576 (fun u => !u.ctl.spared && u.limiters.any 32 (fun l => l.err)) = false then s
  else
    let live (c : Nat) : Bool := !(g.clusters.get c).ctl.spared
    let err (c : Nat) : Bool := (g.clusters.get c).limiters.any 32 (fun l => l.err)
    let words :=
      errWords 2 live err (fun _ => (s.cfg (offAct r 0) 0 7, 0, false)) ++
      errWords 1 live err (fun c => (0, (if bitOf g.caps.paused.toNat (c / 24) then 0 else s.cfg (offAct r 0) 16 3), false)) ++
      errWords 3 live err (fun c => (0, 0, g.caps.holdRegion || (g.clusters.get c).dill.holding)) ++
      errWords 0 live err (fun c => ((g.clusters.get c).ctl.sentCode, g.caps.slopes.getD (c / 24) 7, false))
    words.foldl (fun a w => a.sendWord r w) s

/-! ### Shadows applied -/

/-- What a region's applied actuation, speculation and Sage words start (R126, R139, R170, R172, R175, R182, R507). `old`
are the set-up registers before the boundary. -/
def appliedRegion (old : Setup) (r : Nat) (s : State) : State :=
  let was (off lo w : Nat) : Nat := bitsOf (old.word off) lo w
  let changed (off lo w : Nat) : Bool := was off lo w != s.cfg off lo w
  let top := s.cfg (offAct r 2) 16 6
  let t := if changed (offAct r 0) 0 7 then s.sendWord r (regionWord 2 (s.cfg (offAct r 0) 0 7) 0) else s
  let t := if changed (offAct r 0) 16 3 then
      (onesOf 24 (s.region r).caps.paused.toNat).foldl (fun (a : State) i => a.sendWord r (rowWord i 1 0 0))
        (t.sendWord r (regionWord 1 0 (s.cfg (offAct r 0) 16 3)))
    else t
  let t := if changed (offAct r 2) 0 16 then t.modRegion r (fun g => g.modSp (fun p => { p with wantRates := true })) else t
  let t := if top < (t.region r).sp.vGrid then
      t.modRegion r (fun g => g.modSp (fun p => { p with vGrid := top, wantVc := true })) else t
  let t := if changed (offAct r 2) 16 6 && (t.gov r).pmbusDone && !(t.gov r).badMode then
      t.modGov r (fun v => { v with voutDue := true }) else t
  let t := if was (offSpec r 0) 0 1 = 1 ∧ s.cfg (offSpec r 0) 0 1 = 0 ∧ (t.region r).spec.state = .standing then
      t.modRegion r (fun g => g.modSpec (fun p => { p with withdraw := true })) else t
  let t := if changed (offSage r) 0 2 then t.modRegion r Region.untrust else t
  t.startFrame r

/-- A preset lowered while the emergency cap is in force falls at its apply boundary as an emergency lowering (R482). `old`
are the set-up registers before the boundary. -/
def presetsLowered (old : Setup) (s : State) : State :=
  let rs := (List.range 64).filter (fun r => decide (s.cfg (offPreset r) 0 12 < bitsOf (old.word (offPreset r)) 0 12))
  if s.hub.ecap.active = false ∨ rs = [] then s
  else (rs.foldl (fun (a : State) r => ecapBroadcast r (a.cfg (offPreset r) 0 12) a) s).modThyme (fun x =>
    { x with ecapSettle := true })

/-- SHADOW_APPLY (R476) and what the applied values start; GOVERNOR_VALUE_CAPTURE (R481). `ages` are the readings of a
recompute that a raised TRIM_MAX starts (R218). -/
def shadowsAtBoundary (ages : AgeReads) (s : State) : State :=
  let trimMax := s.cfg 0x6000 24 7
  let t := applyShadows (s.hubOf (s.owner.getD .a)).coll.frozen s
  let t := if t.setup.words = s.setup.words then t
    else trimMaxRaised trimMax ages (presetsLowered s.setup (t.forRegions (appliedRegion s.setup)))
  captureWide t

/-! ### One region -/

/-- The period just ended in one region (R80, R87, R97, R123, R175): at the period counts divisible by 8 the forecasts'
sequence restarts, at those divisible by 16 a block of reading rounds ends. -/
def regionEnds (r : Nat) (s : State) : State :=
  let x := (s.region r).sage
  let learned := decide (x.model = .active ∧ s.cfg (offSage r) 0 2 = 1)
  let t := s.modRegion r (Region.endPeriod (s.cfg (offSpec r 1) 0 12) learned)
  let t := if s.now % 8 = 0 then t.modRegion r (fun g => g.modSage (fun x => { x with fnext := 0 })) else t
  let t := if s.now % 16 = 0 then t.modRegion r Region.endGridBlock else t
  recoverSensors r (trackError r t)

/-- A region's boundary up to its division. -/
def regionFirst (r : Nat) (s : State) : State :=
  let t := demotionAtBoundary r (activateModel r (grantsAtBoundary r s))
  let t := t.modRegion r (fun g => marginAtBoundary (s.cfg 0x6000 0 8) (Region.shrinkResvs (slotsAtBoundary g)))
  setpointAtBoundary r (capsAtBoundary r t)

/-- The settings that follow the division (R166–R168), once the start is done; the reports, the messages, the frames. -/
def regionLast (r : Nat) (commits : List Nat) (s : State) : State :=
  let t := if s.pow.startDone then sendSettings r (List.range 24) true s else s
  let t := ackCap r (releaseHolds r (reportCommits r commits (sendMR r t)))
  let t := if (t.region r).sp.retryEach then t.modRegion r (fun g => g.modSp (fun p => { p with retryDue := true })) else t
  pmbusAtBoundary r ((resendErrors r t).startFrame r)

/-- A region's boundary. With `guard` the overshoot guard was in effect before the period just judged, and acts on this
division (R165). -/
def regionAtBoundary (guards : List Bool) (r : Nat) (s : State) : State :=
  let guard := guards.getD r false
  let commits := agreedSet s.now (s.gov r).epoch false (s.gov r).words
  let t := regionFirst r s
  let t := if t.pow.startDone then divideRegion r guard t else t
  regionLast r commits t

/-! ### Telemetry -/

/-- The body of a FORECAST record (R312): the latest published forecast. -/
def forecastBody (x : Sage) : List Byte :=
  leBytes 1 (if x.inFlight.isSome then (x.fnum + 124) % 125 else x.fnum) ++
    leBytes 1 (x.srcFlag + 128 * bitNat x.clampFlag) ++ leBytes 2 x.fReg ++
    (List.range 24).flatMap (fun i => leBytes 1 (x.groups.getD i 0))

/-- A status as exported (R87): SUSPECT until the recovery ends. -/
def shownStatus (st : Status) (recovering : Bool) : Nat :=
  if st = .valid then (if recovering then 2 else 0) else statusCode st

/-- The body of a REGION record (R88, R312); `trips` are the crossings of the period just ended. With no VALID monitor no
figure for VMIN is stated. -/
def regionBody (trips free : Nat) (g : Region) : List Byte :=
  let vs := (g.vmons.values 0 16).filter VMon.counts
  let low := match vs with
    | [] => free % 65536
    | v :: rest => rest.foldl (fun acc x => min acc x.shown) v.shown
  let dills := g.clusters.max 576 (fun u => if u.ctl.spared then 0 else shownStatus u.dill.status u.dill.recovering)
  let sense := shownStatus g.dig.sumStatus (decide (0 < g.dig.sumWait)) +
    4 * shownStatus g.dig.phStatus (decide (0 < g.dig.phWait)) + 16 * dills +
    64 * max (g.vmons.max 16 (fun v => shownStatus v.status (decide (v.goodRun < 2)))) (if 0 < g.vmonWait then 2 else 0)
  leBytes 2 g.dig.meanShown ++ leBytes 2 g.dig.peakShown ++ leBytes 2 g.sp.vc ++ leBytes 2 low ++ leBytes 2 g.caps.iReg ++
    leBytes 2 (min trips 0xFFFF) ++ leBytes 4 sense ++ leBytes 8 g.dig.energyUj.toNat

/-- Subscribed records (R313): a record of each named region at every period count that is a multiple of 2^DECIM. -/
def subscribed (trips : List Nat) (s : State) : State :=
  if s.inControl = false then s
  else s.hub.rings.subs.foldl (fun (a : State) i =>
    if s.now % 2 ^ i.decim ≠ 0 then a
    else (onesOf 64 i.mask.toNat).foldl (fun (b : State) r =>
      let g := b.region r
      if i.type = 1 then b.telemetry 1 r (forecastBody g.sage) true
      else if i.type = 2 then
        let t := b.telemetry 2 r (regionBody (trips.getD r 0) (Config.freeValue b.fresh) g) true
        if (g.vmons.values 0 16).any VMon.counts then t else t.nextFree
      else b) a) s

/-! ### The hubs -/

/-- Powered time (R219): a control period is 1 µs, 2 µs while the clocks coast. -/
def Ageing.powered (coasting : Bool) (a : Ageing) : Ageing :=
  let us := a.subUs + (if coasting then 2 else 1)
  if us < 1000000 then { a with subUs := us } else { a with poweredS := a.poweredS + 1, subUs := us - 1000000 }

/-- The epoch that a hub's root carries (R383): its own where it owns, else 0. -/
def State.rootEpoch (s : State) (h : Hub) : Word := if (s.hubOf h).role = .owner then (s.hubOf h).epoch else 0

/-- A hub's root carries edges: its clocks run (R458 step 4). -/
def State.rootRuns (s : State) (h : Hub) : Bool := decide (5 ≤ (s.hubOf h).start.step) || decide ((s.hubOf h).role = .owner)

/-- The root that a region's root select takes (R383, R461): the one that carries the higher epoch; until a hub claims, hub A's if it
carries edges, hub B's otherwise. -/
def State.rootFor (s : State) (now : Hub) : Hub :=
  if epochHigher (s.rootEpoch .b) (s.rootEpoch .a) then .b
  else if epochHigher (s.rootEpoch .a) (s.rootEpoch .b) then .a
  else if s.hubA.start.claimed || s.hubB.start.claimed then now
  else if s.rootRuns .a then .a
  else .b

/-- Each root carries its hub's epoch (R383); a governor whose root select switches to one with a higher epoch than its own adopts
that (R384). -/
def treeEpochs (s : State) : State :=
  let carry (t : State) (h : Hub) : State := if t.rootRuns h then t.emit (.tree h (t.rootEpoch h)) else t
  (carry (carry s .a) .b).forRegions (fun r t =>
    let h := t.rootFor (t.gov r).root
    let t := if (t.gov r).root = h then t else t.modGov r (fun g => { g with root := h })
    if epochHigher (t.rootEpoch h) (t.gov r).epoch then adoptEpoch r (t.rootEpoch h) t else t)

/-- The counts that every boundary advances: open multicasts (R343), CRST_REQ_N's (R501), powered time, the recorder's. -/
def countPeriods (s : State) : State :=
  let t := s.modRegions (fun g =>
    if g.multis = [] then g else { g with multis := g.multis.map (fun m => { m with age := m.age + 1 }) })
  let left (u : HubSt) : HubSt := { u with coll := { u.coll with crstLeft := u.coll.crstLeft - 1 } }
  let t := { t with hubA := left t.hubA, hubB := left t.hubB }
  (t.modAgeing (Ageing.powered s.coasting)).modRecorder Recorder.tick

/-- What the owning hub does before the regions' divisions: restarted rings, models, host ceilings, the words of the
tree. -/
def hubFirst (s : State) : State :=
  let t := startDone (applyRestarts s)
  if t.inControl then clusterItems (loadsAtBoundary (wordsAtBoundary t)) else t

/-- What the hubs do after them: groups, items in force, activation, mailboxes, polls, the pair. -/
def hubLast' (inp : BoundaryInput) (s : State) : State :=
  let t := s.hub.groups.defs.foldl (fun (a : State) p => groupNeed p.1 a) (trimGroups s)
  let t := mirrorSlots (actAtBoundary (if t.inControl then settleCaps t else t))
  let t := scrubAll inp.scrubs inp.found (if t.inControl then pollBroken (List.range 64) t else t)
  let t := countSilence (dropLanes inp.badLanes (countPeriods t))
  handoverAtBoundary (claimAtBoundary (sendBeats (treeEpochs t)))

/-- The counts of time at a boundary: the period count (R163), and the time since the latest request of a chip reset (R455). -/
def nextPeriod (s : State) : State :=
  { s with period := s.period + 1, pow := { s.pow with crstAgo := min 10000 (s.pow.crstAgo + (if s.coasting then 2 else 1)) } }

/-- What the governors and the hubs do at a boundary before the queries are answered from its state (R307). -/
def boundaryBody (inp : BoundaryInput) (s : State) : State :=
  let guards := (List.range 64).map (fun r => decide (0 < (s.region r).caps.guardLeft))
  let t := shadowsAtBoundary inp.ages (hubFirst ((nextPeriod s).forRegions regionEnds))
  hubLast' inp (((voidSwitches t).forRegions refTree).forRegions (regionAtBoundary guards))

/-- CONTROL_PERIOD_BOUNDARY (R163): with the clocks stopped there is none; during a warm reset the period count and the
powered time alone run on (R219, R456). -/
def controlPeriod (inp : BoundaryInput) (s : State) : State :=
  if s.clk.st = .stopped then s
  else if s.pow.rstLow then (nextPeriod s).modAgeing (Ageing.powered s.coasting)
  else subscribed ((List.range 64).map (fun r => (s.region r).tripsNow)) (answerQueries (boundaryBody inp s))

def execControlPeriodBoundary (inp : BoundaryInput) (s : State) : Host.Outcome State Fault Refusal :=
  .next (journaled (controlPeriod inp) s)

end Sys2Proof.Machine
end

