-- ==== Sys2Proof/Machine/Dispatch.lean ====
section
/-!
DEFINITION. One arm per command: the call of its meaning.
-/

namespace Sys2Proof.Machine

def exec (i : Instr) (s : State) : Host.Outcome State Fault Refusal :=
  match i with
  | .cmdDoorbell ring p => Sys2Proof.Machine.execCmdDoorbell ring p s
  | .filledRingDoorbell ring f => Sys2Proof.Machine.execFilledRingDoorbell ring f s
  | .commandTake heads => Sys2Proof.Machine.execCommandTake heads s
  | .countZeroEntry heads => Sys2Proof.Machine.execCountZeroEntry heads s
  | .grantRequest => Sys2Proof.Machine.execGrantRequest s
  | .grantRelease => Sys2Proof.Machine.execGrantRelease s
  | .capSet => Sys2Proof.Machine.execCapSet s
  | .capSetGroupForm => Sys2Proof.Machine.execCapSetGroupForm s
  | .groupDefine => Sys2Proof.Machine.execGroupDefine s
  | .groupUndefine => Sys2Proof.Machine.execGroupUndefine s
  | .modelLoad => Sys2Proof.Machine.execModelLoad s
  | .modelUnload => Sys2Proof.Machine.execModelUnload s
  | .ageingTrim => Sys2Proof.Machine.execAgeingTrim s
  | .ageingTrimNewWafer taps => Sys2Proof.Machine.execAgeingTrimNewWafer taps s
  | .phaseRestore => Sys2Proof.Machine.execPhaseRestore s
  | .telemetrySubscribe => Sys2Proof.Machine.execTelemetrySubscribe s
  | .firmwareStage standbyCopyOk => Sys2Proof.Machine.execFirmwareStage standbyCopyOk s
  | .firmwareActivate => Sys2Proof.Machine.execFirmwareActivate s
  | .queryGrant => Sys2Proof.Machine.execQueryGrant s
  | .queryGroup => Sys2Proof.Machine.execQueryGroup s
  | .querySpec => Sys2Proof.Machine.execQuerySpec s
  | .completionWrite writeOk => Sys2Proof.Machine.execCompletionWrite writeOk s
  | .telemetryRecordWrite writeOk => Sys2Proof.Machine.execTelemetryRecordWrite writeOk s
  | .evxExport writeOk => Sys2Proof.Machine.execEvxExport writeOk s
  | .coalescingTimer ring => Sys2Proof.Machine.execCoalescingTimer ring s
  | .restartPair mask => Sys2Proof.Machine.execRestartPair mask s
  | .restartTel => Sys2Proof.Machine.execRestartTel s
  | .restartEvx => Sys2Proof.Machine.execRestartEvx s
  | .registerWrite acc within => Sys2Proof.Machine.execRegisterWrite acc within s
  | .hardSet => Sys2Proof.Machine.execHardSet s
  | .hardClear => Sys2Proof.Machine.execHardClear s
  | .hmbDoorbell slot => Sys2Proof.Machine.execHmbDoorbell slot s
  | .hmbCancel slot => Sys2Proof.Machine.execHmbCancel slot s
  | .hmbDoneClear slot => Sys2Proof.Machine.execHmbDoneClear slot s
  | .hmbMsgWrite slot w value => Sys2Proof.Machine.execHmbMsgWrite slot w value s
  | .fcPendClear src => Sys2Proof.Machine.execFcPendClear src s
  | .fcForce src => Sys2Proof.Machine.execFcForce src s
  | .testModeWrite test suppress => Sys2Proof.Machine.execTestModeWrite test suppress s
  | .fbGo src => Sys2Proof.Machine.execFbGo src s
  | .eoh => Sys2Proof.Machine.execEoh s
  | .gateClose kind index by_ busy => Sys2Proof.Machine.execGateClose kind index by_ busy s
  | .gateOpen kind index by_ busy => Sys2Proof.Machine.execGateOpen kind index by_ busy s
  | .gateQuery kind index by_ => Sys2Proof.Machine.execGateQuery kind index by_ s
  | .rstCtlKey key => Sys2Proof.Machine.execRstCtlKey key s
  | .handover => Sys2Proof.Machine.execHandover s
  | .holdWrite hold shadowSel within => Sys2Proof.Machine.execHoldWrite hold shadowSel within s
  | .discardGo gid idx => Sys2Proof.Machine.execDiscardGo gid idx s
  | .wvSelWrite wid idx => Sys2Proof.Machine.execWvSelWrite wid idx s
  | .slotTake core => Sys2Proof.Machine.execSlotTake core s
  | .ping slot => Sys2Proof.Machine.execPing slot s
  | .evxFlush slot => Sys2Proof.Machine.execEvxFlush slot s
  | .coreState slot => Sys2Proof.Machine.execCoreState slot s
  | .stallNext slot => Sys2Proof.Machine.execStallNext slot s
  | .chivePing c slot => Sys2Proof.Machine.execChivePing c slot s
  | .ageRead c slot taps => Sys2Proof.Machine.execAgeRead c slot taps s
  | .dillSweep c slot diff => Sys2Proof.Machine.execDillSweep c slot diff s
  | .pairWindow c slot => Sys2Proof.Machine.execPairWindow c slot s
  | .counters c slot => Sys2Proof.Machine.execCounters c slot s
  | .multicastPost r hdr slot posts msg => Sys2Proof.Machine.execMulticastPost r hdr slot posts msg s
  | .interimSummary r slot => Sys2Proof.Machine.execInterimSummary r slot s
  | .multicastSummary r hdr sum selfCheckOk => Sys2Proof.Machine.execMulticastSummary r hdr sum selfCheckOk s
  | .spareOut c => Sys2Proof.Machine.execSpareOut c s
  | .messageResend ends seq => Sys2Proof.Machine.execMessageResend ends seq s
  | .heartbeat at_ path beat => Sys2Proof.Machine.execHeartbeat at_ path beat s
  | .claim r hdr => Sys2Proof.Machine.execClaim r hdr s
  | .claimReply r hdr => Sys2Proof.Machine.execClaimReply r hdr s
  | .epochProbe r hdr => Sys2Proof.Machine.execEpochProbe r hdr s
  | .epochProbeReply r hdr => Sys2Proof.Machine.execEpochProbeReply r hdr s
  | .reserve r hdr m => Sys2Proof.Machine.execReserve r hdr m s
  | .reserveReply r hdr index accept vFrom => Sys2Proof.Machine.execReserveReply r hdr index accept vFrom s
  | .replyLimitExpiry index => Sys2Proof.Machine.execReplyLimitExpiry index s
  | .commitWord r w => Sys2Proof.Machine.execCommitWord r w s
  | .releaseWord r w => Sys2Proof.Machine.execReleaseWord r w s
  | .inForce r hdr index => Sys2Proof.Machine.execInForce r hdr index s
  | .revocation r hdr index => Sys2Proof.Machine.execRevocation r hdr index s
  | .capMessage r hdr cap clearLatch => Sys2Proof.Machine.execCapMessage r hdr cap clearLatch s
  | .capAcknowledgement r hdr cap => Sys2Proof.Machine.execCapAcknowledgement r hdr cap s
  | .emergencyCapBroadcast r hdr preset => Sys2Proof.Machine.execEmergencyCapBroadcast r hdr preset s
  | .modelImage r hdr offset bytes last => Sys2Proof.Machine.execModelImage r hdr offset bytes last s
  | .modelCheckReport r hdr reason => Sys2Proof.Machine.execModelCheckReport r hdr reason s
  | .modelSwitch r hdr period => Sys2Proof.Machine.execModelSwitch r hdr period s
  | .groupSlotRequest r hdr gid members => Sys2Proof.Machine.execGroupSlotRequest r hdr gid members s
  | .groupSlotReply r hdr gid accept => Sys2Proof.Machine.execGroupSlotReply r hdr gid accept s
  | .arm r hdr gid code sT => Sys2Proof.Machine.execArm r hdr gid code sT s
  | .armAcknowledgement r hdr gid => Sys2Proof.Machine.execArmAcknowledgement r hdr gid s
  | .mRChange r hdr gid m => Sys2Proof.Machine.execMRChange r hdr gid m s
  | .stepReport c hdr rep => Sys2Proof.Machine.execStepReport c hdr rep s
  | .laggardSummary r hdr gid sum => Sys2Proof.Machine.execLaggardSummary r hdr gid sum s
  | .stallSuspect rep => Sys2Proof.Machine.execStallSuspect rep s
  | .stallClear rep => Sys2Proof.Machine.execStallClear rep s
  | .pmbusCommand r hdr op failed => Sys2Proof.Machine.execPmbusCommand r hdr op failed s
  | .controlPeriodBoundary inp => Sys2Proof.Machine.execControlPeriodBoundary inp s
  | .consistencyHoldLimit gid idx => Sys2Proof.Machine.execConsistencyHoldLimit gid idx s
  | .raiseHoldElapsed gid => Sys2Proof.Machine.execRaiseHoldElapsed gid s
  | .demotionEnd r => Sys2Proof.Machine.execDemotionEnd r s
  | .gridBlockEnd r => Sys2Proof.Machine.execGridBlockEnd r s
  | .trackingBlockEnd r => Sys2Proof.Machine.execTrackingBlockEnd r s
  | .tickBoundary taps => Sys2Proof.Machine.execTickBoundary taps s
  | .preRaiseWithdrawal r => Sys2Proof.Machine.execPreRaiseWithdrawal r s
  | .forecastBoundary taps => Sys2Proof.Machine.execForecastBoundary taps s
  | .forecastPublication r => Sys2Proof.Machine.execForecastPublication r s
  | .sumSample r amps status => Sys2Proof.Machine.execSumSample r amps status s
  | .sumSampleAvailable r => Sys2Proof.Machine.execSumSampleAvailable r s
  | .phaseChannelSample r amps status => Sys2Proof.Machine.execPhaseChannelSample r amps status s
  | .diodeConversion r pos temps => Sys2Proof.Machine.execDiodeConversion r pos temps s
  | .voltageMonitorReading r reads slewing => Sys2Proof.Machine.execVoltageMonitorReading r reads slewing s
  | .raiseTestTimeout r => Sys2Proof.Machine.execRaiseTestTimeout r s
  | .tpMonitorWindow c stressed unstressed status => Sys2Proof.Machine.execTpMonitorWindow c stressed unstressed status s
  | .limiterStep c core requesting => Sys2Proof.Machine.execLimiterStep c core requesting s
  | .launchHold c core => Sys2Proof.Machine.execLaunchHold c core s
  | .limiterTarget r word corruptAt => Sys2Proof.Machine.execLimiterTarget r word corruptAt s
  | .limiterRecovery r word corruptAt => Sys2Proof.Machine.execLimiterRecovery r word corruptAt s
  | .limiterFloor r word corruptAt => Sys2Proof.Machine.execLimiterFloor r word corruptAt s
  | .limiterHold r word corruptAt => Sys2Proof.Machine.execLimiterHold r word corruptAt s
  | .dillTripCrossing c => Sys2Proof.Machine.execDillTripCrossing c s
  | .dillWarnCrossing c => Sys2Proof.Machine.execDillWarnCrossing c s
  | .dillRelease c => Sys2Proof.Machine.execDillRelease c s
  | .phaseMarker c => Sys2Proof.Machine.execPhaseMarker c s
  | .barrierRelease c step => Sys2Proof.Machine.execBarrierRelease c step s
  | .engineClockRestart r => Sys2Proof.Machine.execEngineClockRestart r s
  | .waferPeriod reads => Sys2Proof.Machine.execWaferPeriod reads s
  | .packagePeriod arrays => Sys2Proof.Machine.execPackagePeriod arrays s
  | .childAckTimeout ch => Sys2Proof.Machine.execChildAckTimeout ch s
  | .childUnacknowledged r => Sys2Proof.Machine.execChildUnacknowledged r s
  | .tripComparatorAssert r k => Sys2Proof.Machine.execTripComparatorAssert r k s
  | .tripComparatorRelease r k => Sys2Proof.Machine.execTripComparatorRelease r k s
  | .ecapNAssert h => Sys2Proof.Machine.execEcapNAssert h s
  | .ecapNRelease h => Sys2Proof.Machine.execEcapNRelease h s
  | .regAlertAssert r => Sys2Proof.Machine.execRegAlertAssert r s
  | .regAlertClear r => Sys2Proof.Machine.execRegAlertClear r s
  | .smbalert r badPhases failed => Sys2Proof.Machine.execSmbalert r badPhases failed s
  | .phaseSwap r phase failed => Sys2Proof.Machine.execPhaseSwap r phase failed s
  | .phaseWatchEnd r => Sys2Proof.Machine.execPhaseWatchEnd r s
  | .emergencyCapSettlement => Sys2Proof.Machine.execEmergencyCapSettlement s
  | .derateSettlement r => Sys2Proof.Machine.execDerateSettlement r s
  | .marginEvaluation taps => Sys2Proof.Machine.execMarginEvaluation taps s
  | .ageingInterval taps => Sys2Proof.Machine.execAgeingInterval taps s
  | .deliveryTimerExpiry index => Sys2Proof.Machine.execDeliveryTimerExpiry index s
  | .durationExpiry index => Sys2Proof.Machine.execDurationExpiry index s
  | .watchdogExpiry core => Sys2Proof.Machine.execWatchdogExpiry core s
  | .protectionViolation core => Sys2Proof.Machine.execProtectionViolation core s
  | .coreReady core => Sys2Proof.Machine.execCoreReady core s
  | .readyTimeout core => Sys2Proof.Machine.execReadyTimeout core s
  | .activationResume => Sys2Proof.Machine.execActivationResume s
  | .activationDeadline => Sys2Proof.Machine.execActivationDeadline s
  | .activationDrainLimit => Sys2Proof.Machine.execActivationDrainLimit s
  | .faultEvent => Sys2Proof.Machine.execFaultEvent s
  | .brokenPair h src => Sys2Proof.Machine.execBrokenPair h src s
  | .collectorParityScan h bad => Sys2Proof.Machine.execCollectorParityScan h bad s
  | .crstReqEnd h => Sys2Proof.Machine.execCrstReqEnd h s
  | .recordAppend => Sys2Proof.Machine.execRecordAppend s
  | .recordClose => Sys2Proof.Machine.execRecordClose s
  | .mirrorBlock at_ wrongData wrongParity seq ack sweepDiffers => Sys2Proof.Machine.execMirrorBlock at_ wrongData wrongParity seq ack sweepDiffers s
  | .promotion h => Sys2Proof.Machine.execPromotion h s
  | .standbySilence => Sys2Proof.Machine.execStandbySilence s
  | .mirrorSilence h => Sys2Proof.Machine.execMirrorSilence h s
  | .handoverYield => Sys2Proof.Machine.execHandoverYield s
  | .resyncComplete => Sys2Proof.Machine.execResyncComplete s
  | .refLost => Sys2Proof.Machine.execRefLost s
  | .glideDownEnd => Sys2Proof.Machine.execGlideDownEnd s
  | .fallbackStart => Sys2Proof.Machine.execFallbackStart s
  | .fallbackStable count => Sys2Proof.Machine.execFallbackStable count s
  | .fallbackFailure => Sys2Proof.Machine.execFallbackFailure s
  | .clockMonitorTrip h entered => Sys2Proof.Machine.execClockMonitorTrip h entered s
  | .idleCoreLocked => Sys2Proof.Machine.execIdleCoreLocked s
  | .domainSwitch => Sys2Proof.Machine.execDomainSwitch s
  | .refReturned => Sys2Proof.Machine.execRefReturned s
  | .glideUpEnd => Sys2Proof.Machine.execGlideUpEnd s
  | .coldStart => Sys2Proof.Machine.execColdStart s
  | .powerOnResetRelease h fbDly => Sys2Proof.Machine.execPowerOnResetRelease h fbDly s
  | .hubLoopLockTimeout h => Sys2Proof.Machine.execHubLoopLockTimeout h s
  | .fbDlyElapsed h => Sys2Proof.Machine.execFbDlyElapsed h s
  | .selfTestGateRelease asserted still => Sys2Proof.Machine.execSelfTestGateRelease asserted still s
  | .epochClaimTimeout => Sys2Proof.Machine.execEpochClaimTimeout s
  | .railDown rail => Sys2Proof.Machine.execRailDown rail s
  | .railUp rail => Sys2Proof.Machine.execRailUp rail s
  | .rstNAssert => Sys2Proof.Machine.execRstNAssert s
  | .rstNRelease => Sys2Proof.Machine.execRstNRelease s
  | .defectMapChange detours govDetours chiveDetours heldCores => Sys2Proof.Machine.execDefectMapChange detours govDetours chiveDetours heldCores s
  | .testLogicReset h => Sys2Proof.Machine.execTestLogicReset h s
  | .extest h bits => Sys2Proof.Machine.execExtest h bits s
  | .samplePreload h bits => Sys2Proof.Machine.execSamplePreload h bits s
  | .idcode h => Sys2Proof.Machine.execIdcode h s
  | .startRead h => Sys2Proof.Machine.execStartRead h s
  | .auth h scope => Sys2Proof.Machine.execAuth h scope s
  | .authVerified h cert => Sys2Proof.Machine.execAuthVerified h cert s
  | .nop x => Sys2Proof.Machine.execNop x s
  | .halt h op => Sys2Proof.Machine.execHalt h op s
  | .resume h op => Sys2Proof.Machine.execResume h op s
  | .step h op => Sys2Proof.Machine.execStep h op s
  | .bpSet h op => Sys2Proof.Machine.execBpSet h op s
  | .bpClear h op => Sys2Proof.Machine.execBpClear h op s
  | .breakpointHit core addr => Sys2Proof.Machine.execBreakpointHit core addr s
  | .memRead h op ecc => Sys2Proof.Machine.execMemRead h op ecc s
  | .memWrite h op => Sys2Proof.Machine.execMemWrite h op s
  | .regRead h op => Sys2Proof.Machine.execRegRead h op s
  | .regWrite h op => Sys2Proof.Machine.execRegWrite h op s
  | .recRead h op ecc => Sys2Proof.Machine.execRecRead h op ecc s
  | .winRead h op => Sys2Proof.Machine.execWinRead h op s
  | .deauth h op => Sys2Proof.Machine.execDeauth h op s
  | .warmReset h op => Sys2Proof.Machine.execWarmReset h op s
  | .engineClockStop r => Sys2Proof.Machine.execEngineClockStop r s
  | .avsbusFrameEnd r good => Sys2Proof.Machine.execAvsbusFrameEnd r good s
  | .stageCopyReport r hdr ok => Sys2Proof.Machine.execStageCopyReport r hdr ok s
  | .stagingRelease r hdr index => Sys2Proof.Machine.execStagingRelease r hdr index s
  | .grantStateQuery r hdr index => Sys2Proof.Machine.execGrantStateQuery r hdr index s
  | .grantStateReply r hdr index inForce => Sys2Proof.Machine.execGrantStateReply r hdr index inForce s
  | .removalReport r hdr index => Sys2Proof.Machine.execRemovalReport r hdr index s
  | .groupSlotRelease r hdr gid => Sys2Proof.Machine.execGroupSlotRelease r hdr gid s
  | .chiveAcknowledgement c hdr slot code => Sys2Proof.Machine.execChiveAcknowledgement c hdr slot code s
  | .summaryRequest r hdr slot => Sys2Proof.Machine.execSummaryRequest r hdr slot s
  | .laneRetrainComplete lane => Sys2Proof.Machine.execLaneRetrainComplete lane s
  | .hubLoopLock h => Sys2Proof.Machine.execHubLoopLock h s
  | .modelSwitchAcknowledgement r hdr => Sys2Proof.Machine.execModelSwitchAcknowledgement r hdr s
  | .shadowDelivery r hdr due words => Sys2Proof.Machine.execShadowDelivery r hdr due words s
  | .chiveDebugReply h => Sys2Proof.Machine.execChiveDebugReply h s
  | .yieldingHubClaim epoch => Sys2Proof.Machine.execYieldingHubClaim epoch s
  | .causeRegisterLatch r roll => Sys2Proof.Machine.execCauseRegisterLatch r roll s

end Sys2Proof.Machine
end

