-- ==== Sys2Proof/Safety.lean ====
section
/-!
DEFINITION. What the claims mean by a run that keeps Renoth's rules: a step that completes, a legal clock state, the
balance of the speculation counters, arrays in canonical form.
-/

namespace Sys2Proof.Machine

/-- The outcome is a next state. -/
def Completes (o : Host.Outcome State Fault Refusal) : Prop := ∃ t, o = .next t

/-- The rows of R444 with their REF_LOST, and what R447, R449 and R450 allow beside each: FALLBACK runs on the
fallback oscillator; a switch to it is acquired or marked in COAST while it runs; a switch to the reference in COAST or
FALLBACK. -/
structure ClockLegal (c : Clocks) : Prop where
  stopped  : c.st = .stopped → c.acquire = none ∧ c.marked = none ∧ c.refLost = false
  locked   : c.st = .locked → c.acquire = none ∧ c.marked = none ∧ c.refLost = false
  lost     : c.st = .glideDown ∨ c.st = .coast ∨ c.st = .fallback ∨ c.st = .glideUp → c.refLost = true
  fallback : c.st = .fallback → c.fbRun = true
  glide    : c.st = .glideDown ∨ c.st = .glideUp → c.acquire = none ∧ c.marked = none
  toFb     : c.acquire = some .fallback ∨ c.marked = some .fallback → c.st = .coast ∧ c.fbRun = true
  one      : c.acquire = none ∨ c.marked = none

/-- Every pre-raise issued is standing or has been counted once (R149). -/
def Balanced (p : Spec) : Prop :=
  p.issued = p.confirmed + p.missed + p.abandoned + (if p.state = .standing then 1 else 0)

/-! ### When a command has its effect -/

/-- A hub's message is acted on at the governor of region `r` (R19, R328, R329): its check is right, it carries the epoch in
force, and it does not repeat the last one of its sender and kind. -/
def Accepted (s : State) (r kind : Nat) (hdr : MsgHdr) : Prop :=
  hdr.good = true ∧ hdr.epoch = (s.gov r).epoch ∧ (hdr.src, kind, hdr.seq) ∉ (s.gov r).lastMsgs

/-- A message of another governor or of a Chive is acted on at the governor of region `r`. -/
def PeerAccepted (s : State) (r kind : Nat) (hdr : MsgHdr) : Prop :=
  hdr.good = true ∧ (hdr.src, kind, hdr.seq) ∉ (s.gov r).lastMsgs

/-- The message noted as the last of its sender and kind at the governor. -/
def State.noted (s : State) (r kind : Nat) (hdr : MsgHdr) : State :=
  s.modGov r (fun g => { g with
    lastMsgs := (hdr.src, kind, hdr.seq) :: g.lastMsgs.filter (fun m => !(m.1 == hdr.src && m.2.1 == kind)) })

/-- A message is acted on at the owning hub (R329, R397); it is not one for the hub that a promotion has overtaken. -/
def Heard (s : State) (kind : Nat) (hdr : MsgHdr) : Prop :=
  s.owner.isSome = true ∧ hdr.good = true ∧ epochHigher hdr.epoch s.epoch = false ∧ (hdr.src, kind, hdr.seq) ∉ s.hubLast ∧
    s.staleOwner.map nodeHub ≠ some hdr.dst

/-- A heartbeat counts at its hub: a block of a link in use that the outer code corrects, or a message that passes R328 (R386, R387,
R392). -/
def BeatCounts (s : State) : HbPath → Beat → Prop
  | .mirror, b => s.pair.linkUp = true ∧ b.wrong ≤ 8
  | .mgmt, b => b.hdr.good = true

/-- What a heartbeat says: the fields of its block, or those of its message (R387, R392). -/
def beatSaid : HbPath → Beat → Beat
  | .mirror, b => b
  | .mgmt, b => beatOf b.hdr

/-- The message noted as the last of its sender and kind at the owning hub. -/
def State.heard (s : State) (kind : Nat) (hdr : MsgHdr) : State :=
  { s with hubLast := (hdr.src, kind, hdr.seq) :: s.hubLast.filter (fun m => !(m.1 == hdr.src && m.2.1 == kind)) }

/-- From `s` to `t` the pair's mirrored image becomes `h`, as after a register write of the host (R391) or a hub change
(R389): nothing else changes but the journal and the standby's copy. -/
def HubOnly (s t : State) (h : Shared) : Prop :=
  t = { s with hub := h, pair := { s.pair.journalFrom t.pair with image := t.pair.image } }

/-- From `s` to `t` the owning hub sends `es`: at once, or held with the journal entry to come while the pair is PAIRED
(R390); the pair's own part changes in nothing else but the journal and the standby's copy. -/
def Sends (s t : State) (es : List Effect) : Prop :=
  t.pair = { s.pair.journalFrom t.pair with
    image := t.pair.image
    heldEff := if s.pair.paired then s.pair.heldEff ++ es.map (fun e => (s.pair.jn + 1, e)) else s.pair.heldEff } ∧
  t.out = if s.pair.paired then s.out else s.out ++ es

/-- The effect has left, or waits for its journal entry (R390). -/
def Leaves (t : State) (e : Effect) : Prop := e ∈ t.out ∨ ∃ n, (n, e) ∈ t.pair.heldEff

/-- The message has left with some header, or waits for its journal entry (R326, R390). -/
def Said (t : State) (m : Msg) : Prop := ∃ h, Leaves t (.msg m h)

/-- A node's message has left with some header (R326). -/
def Spoken (t : State) (m : Msg) : Prop := ∃ h, Effect.msg m h ∈ t.out

/-- The hub in control executes the taken entry `t`: the one whose turn it is, with its core running, or
held for an activation, or, for the security core, its ROM serving in place of the firmware (R297, R299, R355, R368). -/
def Executes (s : State) (op : Nat) (p : Taken → Bool) (t : Taken) : Prop :=
  s.inControl = true ∧ s.firstTaken op p = some t ∧
    ∀ k, executor op = some k → (s.ownerCore k).state = .running ∨ (s.ownerCore k).state = .held ∨
      (k = 0 ∧ ((s.ownerCore k).state = .empty ∨ (s.ownerCore k).state = .stopped))

/-- A ring's doorbell value is no doorbell error (R293). -/
def DoorbellOk (s : State) (k : Nat) (v : Word) : Prop :=
  ¬ (1 ≤ ((s.ring k).pi - v).toNat ∧ ((s.ring k).pi - v).toNat ≤ s.ringSize k) ∧ (v - (s.ring k).ci).toNat ≤ s.ringSize k

/-- A ring that takes doorbells: register access open, enabled, not stopped (R291, R293). -/
def RingOpen (s : State) (k : Nat) : Prop :=
  s.pow.regOpen = true ∧ s.ringSize k ≠ 0 ∧ (s.ring k).stopped = false

/-- A ring after its restart (R294): its indices are 0, STOPPED, DB_ERR and MEM_ERR are clear, and no restart is asked for. -/
def RingFresh (g : Ring) : Prop :=
  g.pi = 0 ∧ g.ci = 0 ∧ g.stopped = false ∧ g.dbErr = false ∧ g.memErr = false ∧ g.restart = false

/-- The state has a boundary (R163, R456), and no hub takes control at it: no CLAIM is outstanding (R394). -/
def PlainBoundary (s : State) : Prop := s.clk.st ≠ .stopped ∧ s.pow.rstLow = false ∧ s.pair.claims = []

/-- The owning hub's core that serves slot `k` answers a message of code `code` that it has taken (R331, R337). -/
def Serves (s : State) (k code : Nat) : Prop :=
  s.inControl = true ∧ (s.slot k).state = .taken ∧ (s.slot k).msgCode = code ∧
    ((s.ownerCore (servedBy k)).state = .running ∨ (s.ownerCore (servedBy k)).state = .held)

/-- From `s` to `t` slot `k` of the host mailbox is acknowledged (R334): DONE with its code, detail and result, and
vector 11 unless masked (R340); nothing else changes but what `t` says of the recorder. -/
def MbAcked (s t : State) (k code detail : Nat) (result : Word) : Prop :=
  t.hub.mb = { s.hub.mb with slots := s.hub.mb.slots.modify k (Slot.ack code detail result) } ∧
  Sends s t (if bitOf s.hub.mb.amask.toNat k then [] else [.msix 11]) ∧
  t = { s with hub := { s.hub with mb := t.hub.mb, recorder := t.hub.recorder }, pair := t.pair, out := t.out }

/-- A Chive's control core that runs answers a message of code `code` that it has taken (R341). -/
def ChiveServes (s : State) (c k code : Nat) : Prop :=
  ((s.cluster c).slot k).state = .taken ∧ ((s.cluster c).slot k).msgCode = code ∧ (s.cluster c).core.state = .running

/-- `s` with slot `k` of a Chive's mailbox acknowledged and the acknowledgement on its way to the governor (R334, R342). -/
def State.chiveAcked (s : State) (c k code : Nat) (result : Word) : State :=
  (s.modCluster c (fun u => { u with slots := u.slots.modify k (Slot.ack code 0 result) })).send
    (.chiveAck c k (BitVec.ofNat 8 code) result)

/-- An operation that the debug port of hub `h` starts is judged by its operands and its scope (R485, R490, R492): the port
answers, its clocks run, none is PENDING, the reserved fields are 0. -/
def DebugReady (s : State) (h : Hub) (op : DbgOp) : Prop :=
  s.tapUp = true ∧ s.dbgClocked h = true ∧ (s.dbg h).pendOp = none ∧ op.resv = false

/-- An operation on core `k` of the port's own hub: the unit named, its core not under an activation, running or halted. -/
def OnHubCore (s : State) (h : Hub) (op : DbgOp) (k : Fin 3) : Prop :=
  DebugReady s h op ∧ op.unit.val = k.val ∧ op.cluster = 0 ∧ s.hub.fw.act = none ∧
    ((s.coreAt h k).state = .running ∨ (s.coreAt h k).state = .halted)

/-- The result of an operation of the debug port: in the port's registers and captured at once (R490, R492). -/
def DebugAnswers (t : State) (h : Hub) (status why : Nat) (data : Word) : Prop :=
  (t.dbg h).status = status ∧ (t.dbg h).why = why ∧ (t.dbg h).data = data ∧
    Effect.tdo h (t.dbg h).capture ∈ t.out

/-! ### Frames by command -/

/-- The commands that act on governors and regions alone: their own messages, samples, words, wires and ends of blocks. -/
def onRegions : Instr → Bool
  | .interimSummary .. | .claim .. | .epochProbe .. | .reserve .. | .commitWord .. | .releaseWord .. | .revocation ..
  | .capMessage .. | .modelImage .. | .modelSwitch .. | .groupSlotRequest .. | .demotionEnd .. | .gridBlockEnd ..
  | .preRaiseWithdrawal .. | .forecastBoundary .. | .forecastPublication .. | .sumSample .. | .sumSampleAvailable ..
  | .phaseChannelSample .. | .diodeConversion .. | .voltageMonitorReading .. | .raiseTestTimeout ..
  | .tpMonitorWindow .. | .limiterStep .. | .launchHold .. | .limiterTarget .. | .limiterRecovery ..
  | .limiterFloor .. | .limiterHold .. | .dillTripCrossing .. | .dillWarnCrossing .. | .dillRelease ..
  | .phaseMarker .. | .engineClockRestart .. | .tripComparatorRelease .. | .regAlertAssert .. | .regAlertClear ..
  | .engineClockStop .. | .avsbusFrameEnd .. | .stagingRelease .. | .grantStateQuery .. | .summaryRequest .. => true
  | _ => false

/-- The commands that act on the hubs alone: rings, host mailbox, grant table, recorder, mirror link, debug port. -/
def onHubs : Instr → Bool
  | .cmdDoorbell .. | .filledRingDoorbell .. | .grantRequest | .grantRelease | .capSet | .groupDefine | .modelLoad
  | .modelUnload | .telemetrySubscribe | .firmwareStage .. | .queryGrant | .queryGroup | .querySpec
  | .completionWrite .. | .telemetryRecordWrite .. | .evxExport .. | .coalescingTimer .. | .restartPair ..
  | .restartTel | .restartEvx | .hmbCancel .. | .hmbDoneClear .. | .hmbMsgWrite .. | .testModeWrite .. | .eoh
  | .handover | .ping .. | .evxFlush .. | .coreState .. | .stallNext .. | .heartbeat ..
  | .epochProbeReply .. | .reserveReply .. | .replyLimitExpiry .. | .inForce .. | .childAckTimeout ..
  | .childUnacknowledged .. | .deliveryTimerExpiry .. | .durationExpiry .. | .activationDeadline | .crstReqEnd ..
  | .recordAppend | .recordClose | .mirrorBlock .. | .standbySilence | .mirrorSilence .. | .handoverYield
  | .resyncComplete | .powerOnResetRelease .. | .epochClaimTimeout | .extest .. | .samplePreload .. | .idcode ..
  | .startRead .. | .auth .. | .authVerified .. | .nop .. | .stageCopyReport .. | .grantStateReply ..
  | .removalReport .. | .laneRetrainComplete .. | .modelSwitchAcknowledgement .. | .chiveDebugReply ..
  | .yieldingHubClaim .. | .causeRegisterLatch .. => true
  | _ => false

/-- A pre-raise's counts are in balance, and a region that is to be demoted has none standing (R141, R149). -/
def SpecLegal (p : Spec) : Prop := Balanced p ∧ (p.demote = true → p.state ≠ .standing)

end Sys2Proof.Machine
end

