-- ==== Sys2Proof/Certificates/Slice0/Obligations.lean ====
section
/-!
DEFINITION. The statements for the provers, in the order of OBLIGATIONS.json.
-/

open Sys2Proof Sys2Proof.Machine

/-- A step carries out the command at the front of the queue on the state with the queue's rest; with no command waiting it
changes nothing (the model's choice: notes/assumptions/1.md). -/
def Obligations.StepRunsFrontCommand : Prop :=
  ∀ (s : State),
    (∀ (c : Instr) (rest : List Instr), s.pending = c :: rest → step s = exec c { s with pending := rest }) ∧
    (s.pending = [] → step s = .next s)

/-- Every command completes in every state (the model's choice for commands whose condition does not hold: they change
nothing, notes/assumptions/2.md). -/
def Obligations.EveryCommandCompletes : Prop := ∀ (c : Instr) (s : State), Completes (exec c s)

/-- A good doorbell value becomes the ring's producer index and changes nothing else (R292); slots freed in TEL may let a due
LOSS record be written too (R314). A value before the previous one, or past the ring's size, stops the ring with DB_ERR and raises
a corrected fault of the host interface; the value is ignored, and a filled ring stops its command ring (R293). -/
def Obligations.DoorbellsMoveOrStopRings : Prop :=
  (∀ (s : State) (k : Nat) (v : Word), RingOpen s k → DoorbellOk s k v →
    (∀ c : Fin 8, c.val = k → ∃ t, exec (.cmdDoorbell c v) s = .next t ∧
      HubOnly s t (s.modRing k (fun g => { g with pi := v })).hub) ∧
    (∀ c : Fin 10, 8 + c.val = k → (k = 16 → s.hub.rings.lossDue = 0) → ∃ t, exec (.filledRingDoorbell c v) s = .next t ∧
      HubOnly s t (s.modRing k (fun g => { g with pi := v })).hub) ∧
    (∀ c : Fin 10, 8 + c.val = k → ∃ t, exec (.filledRingDoorbell c v) s = .next t ∧ (t.ring k).pi = v)) ∧
  (∀ (s : State) (k : Nat) (v : Word), RingOpen s k → ¬ DoorbellOk s k v →
    ∀ c : Instr, ((∃ n : Fin 8, n.val = k ∧ c = .cmdDoorbell n v) ∨
        (∃ n : Fin 10, 8 + n.val = k ∧ c = .filledRingDoorbell n v)) →
      ∃ t, exec c s = .next t ∧
        (∀ j, t.ring j = if j = k then { s.ring k with stopped := true, dbErr := true }
          else if j + 8 = k ∧ k < 16 then { s.ring j with stopped := true } else s.ring j) ∧
        t.events = s.events ++ [{ src := 194, cause := 0 }] ∧ Sends s t [.msix 10] ∧
        t = { s with
          hub := { s.hub with rings := { s.hub.rings with ring := t.hub.rings.ring } }
          pair := t.pair, events := t.events, out := t.out })

/-- The entry that round-robin order comes to is read from its place in host memory, taken, and enters the list of commands in
hand; one of COUNT 0 completes OK, one that fails a check of R308 completes REJ_BAD_ARG with its detail, a policy of no kind
that R304 lists with 0x80, a query of no kind that R307 lists with a free detail (notes/assumptions/7.md); one whose core is
stopped or empty with 0xB4; a FIRMWARE_STAGE or FIRMWARE_ACTIVATE wakes GSEC (R291, R297, R298, R308, R368, R453). -/
def Obligations.EntryIsTakenInOrder : Prop :=
  ∀ (s : State) (heads : List (HostRead × HostRead)) (k : Nat) (e : List Byte) (body : HostRead),
    s.inControl = true → s.pow.regOpen = true → s.nextRing heads = some (k, some e, body) →
    let idx := (s.ring k).ci
    let n := s.hub.rings.order
    let addr := s.ringBase k + 64 * (idx.toNat % s.ringSize k)
    let t := ((s.emit (.ringRead k addr)).modRing k (fun g => { g with ci := g.ci + 1 })).modRings (fun g => { g with
      lastRing := k, order := g.order + 1
      taken := g.taken ++ [{ ring := k, index := idx, opcode := entryOpcode e, flags := entryFlags e, count := entryCount e
                             tag := entryTag e, entry := e, body := body.getD [], order := g.order, since := s.period }] })
    let w := if entryOpcode e = opStage ∨ entryOpcode e = opActivate then t.wakeGsec else t
    (entryCount e = 0 →
      exec (.commandTake heads) s = .next (journaled (fun _ => t.complete (k, n) codeOk 0) s) ∧
      exec (.countZeroEntry heads) s = .next (journaled (fun _ => t.complete (k, n) codeOk 0) s)) ∧
    (entryCount e ≠ 0 → exec (.countZeroEntry heads) s = .next (journaled (fun _ => s) s)) ∧
    (entryCount e ≠ 0 → ∀ d, entryCheck e body = some d →
      exec (.commandTake heads) s = .next (journaled (fun _ => w.complete (k, n) codeBadArg d) s)) ∧
    (entryCount e ≠ 0 → entryCheck e body = none → s.coreAbsent (entryOpcode e) = true →
      exec (.commandTake heads) s = .next (journaled (fun _ => w.complete (k, n) codeBadArg 0xB4) s)) ∧
    (entryCount e ≠ 0 → entryCheck e body = none → s.coreAbsent (entryOpcode e) = false →
      (entryOpcode e = opPolicySet → ¬ (1 ≤ byteAt e 8 ∧ byteAt e 8 ≤ 2) →
        exec (.commandTake heads) s = .next (journaled (fun _ => t.complete (k, n) codeBadArg 0x80) s)) ∧
      (entryOpcode e = opQuery → ¬ (1 ≤ byteAt e 8 ∧ byteAt e 8 ≤ 3) → ∃ d,
        exec (.commandTake heads) s = .next (journaled (fun _ => (t.complete (k, n) codeBadArg d).nextFree) s))) ∧
    (entryCount e ≠ 0 → entryCheck e body = none → s.coreAbsent (entryOpcode e) = false →
      (entryOpcode e = opPolicySet → 1 ≤ byteAt e 8 ∧ byteAt e 8 ≤ 2) →
      (entryOpcode e = opQuery → 1 ≤ byteAt e 8 ∧ byteAt e 8 ≤ 3) →
      exec (.commandTake heads) s = .next (journaled (fun _ => w) s))

/-- A waiting completion, a formed telemetry record, the next event-export entry go into their ring at Renoth's index, which
advances, with the PHASE of its pass, bytes 8 to 63 before bytes 0 to 7; the ring's vector signals when COAL_CNT entries are
written or COAL_US has passed (R291, R295, R309, R314, R315, R319). -/
def Obligations.EntryIsWritten : Prop :=
  ∀ (s : State), s.inControl = true →
    (∀ (k : Nat) (bytes : List Byte), let g := s.ring k
      let addr := s.ringBase k + 64 * (g.ci.toNat % s.ringSize k)
      let full := decide (s.cfg (offRing k + 8) 16 8 ≤ g.coalCnt + 1)
      (s.wrote k bytes).out = s.out ++ [.ringWrite k (addr + 8) (bytes.drop 8), .ringWrite k addr (bytes.take 8)] ++
          (if full then [.msix (s.cfg (offRing k + 8) 8 4)] else []) ∧
        ∀ j, (s.wrote k bytes).ring j = if j = k then { g with
          ci := g.ci + 1, coalCnt := if full then 0 else g.coalCnt + 1
          coalOn := !full && decide (0 < s.cfg (offRing k + 8) 24 8) } else s.ring j) ∧
    (∀ (c : Completion) (rest : List Completion), s.hub.rings.comps = c :: rest → s.writable (8 + c.ring) = true →
      s.mayLeave c.jn = true →
      exec (.completionWrite true) s = .next (journaled (fun _ =>
        (s.wrote (8 + c.ring) (completionBytes (phaseBit (s.ring (8 + c.ring)).ci.toNat (s.ringSize (8 + c.ring))) c)).modRings
          (fun g => { g with comps := rest })) s)) ∧
    (∀ (x : TelRec) (rest : List TelRec), s.hub.rings.tel = x :: rest → s.writable 16 = true → s.mayLeave x.jn = true →
      s.telBlocked x = false → s.hub.rings.lossDue = 0 →
      exec (.telemetryRecordWrite true) s = .next (journaled (fun _ =>
        (s.wrote 16 (telemetryBytes (phaseBit (s.ring 16).ci.toNat (s.ringSize 16)) s.hub.rings.tseq x)).modRings
          (fun g => { g with tseq := g.tseq + 1, tel := rest })) s)) ∧
    (∀ (x : TelRec) (rest : List TelRec), s.hub.rings.tel = x :: rest → s.writable 16 = true → s.mayLeave x.jn = true →
      s.telBlocked x = false → 0 < s.hub.rings.lossDue →
      exec (.telemetryRecordWrite true) s = .next (journaled (fun _ =>
        (s.wrote 16 (telemetryBytes (phaseBit (s.ring 16).ci.toNat (s.ringSize 16)) s.hub.rings.tseq
          { type := 0x1F, region := 0xFF, period := s.period, body := leBytes 4 s.hub.rings.lossDue, sub := false })).modRings
          (fun g => { g with tseq := g.tseq + 1, lossDue := 0 })) s)) ∧
    (∀ (x : Rec) (rest : List Rec), s.hub.recorder.pending = x :: rest → s.writable 17 = true →
      (3 ≤ s.hub.recorder.pending.length ∨ 2 ≤ x.age ∨ s.hub.recorder.flush = true) →
      (∀ y ∈ nextEntry (x :: rest), s.mayLeave y.jn = true) →
      exec (.evxExport true) s = .next (journaled (fun _ =>
        (s.wrote 17 (evxBytes (phaseBit (s.ring 17).ci.toNat (s.ringSize 17)) (x.seq != s.hub.recorder.exported + 1)
          (nextEntry (x :: rest)))).modRecorder (fun q => { q with
            exported := ((nextEntry (x :: rest)).getLast?.map Rec.seq).getD 0
            flush := q.flush && decide ((nextEntry (x :: rest)).length < (x :: rest).length) })) s)) ∧
    (∀ k : RingId, (s.ring k).coalOn = true →
      exec (.coalescingTimer k) s = .next (journaled (fun _ =>
        (s.modRing k (fun g => { g with coalCnt := 0, coalOn := false })).hubEmit (.msix (s.cfg (offRing k + 8) 8 4))) s))

/-- An entry that cannot be written or read stops its ring with MEM_ERR and raises a corrected fault of the host interface; what
waited for the write goes on waiting (R324). RESTART marks the rings named, a command ring with its completion ring; nothing else
changes before the boundary (R294). -/
def Obligations.FailedAccessesAndRestarts : Prop :=
  (∀ (s : State), s.inControl = true →
    (∀ (c : Completion) (rest : List Completion), s.hub.rings.comps = c :: rest → s.writable (8 + c.ring) = true →
      s.mayLeave c.jn = true → ∃ t, exec (.completionWrite false) s = .next t ∧ (t.ring (8 + c.ring)).stopped = true ∧
        (t.ring (8 + c.ring)).memErr = true ∧ t.hub.rings.comps = s.hub.rings.comps ∧
        t.events = s.events ++ [{ src := 194, cause := 2 }] ∧ t.out = s.out) ∧
    (∀ (heads : List (HostRead × HostRead)) (k : Nat) (b : HostRead), s.pow.regOpen = true →
      s.nextRing heads = some (k, none, b) → ∃ t, exec (.commandTake heads) s = .next t ∧ (t.ring k).stopped = true ∧
        (t.ring k).memErr = true ∧ (t.ring k).ci = (s.ring k).ci ∧ t.hub.rings.taken = s.hub.rings.taken ∧
        t.events = s.events ++ [{ src := 194, cause := 2 }] ∧
        t.out = s.out ++ [.ringRead k (s.ringBase k + 64 * ((s.ring k).ci.toNat % s.ringSize k))])) ∧
  (∀ (s : State), s.pow.regOpen = true →
    (∀ mask : BitVec 8, ∃ t, exec (.restartPair mask) s = .next t ∧
      HubOnly s t { s.hub with rings := { s.hub.rings with ring := t.hub.rings.ring } } ∧
      ∀ k, t.ring k = if k < 16 ∧ mask.getLsbD (k % 8) = true then { s.ring k with restart := true } else s.ring k) ∧
    (∃ t, exec .restartTel s = .next t ∧ HubOnly s t (s.modRing 16 (fun g => { g with restart := true })).hub) ∧
    (∃ t, exec .restartEvx s = .next t ∧ HubOnly s t (s.modRing 17 (fun g => { g with restart := true })).hub))

/-- A subscription list in good form replaces the whole set: none of them asks for more than 8 records in a microsecond, so that
none is rejected with 0x27; a single item of TYPE 0 clears the set; a malformed list is rejected with 0x90 and changes nothing
else (R313). -/
def Obligations.SubscriptionReplacesSet : Prop :=
  ∀ (s : State) (t : Taken), Executes s opSubscribe (fun _ => true) t →
    let items := (List.range t.count).map (subItem t.body)
    ((∀ i ∈ items, 1 ≤ i.type ∧ i.type ≤ 2 ∧ 4 ≤ i.decim ∧ i.decim ≤ 15 ∧ i.mask ≠ 0) →
      (items.map SubItem.type).Nodup → subRate items ≤ 8 * 2 ^ 15 ∧
      exec .telemetrySubscribe s = .next (journaled (fun _ =>
        (s.modRings (fun g => { g with subs := items })).complete t.cmd codeOk 0) s)) ∧
    (items = [⟨0, 0, 0⟩] → exec .telemetrySubscribe s = .next (journaled (fun _ =>
        (s.modRings (fun g => { g with subs := [] })).complete t.cmd codeOk 0) s)) ∧
    ((∃ i ∈ items, 2 < i.type ∨ (i.type ≠ 0 ∧ (i.decim < 4 ∨ 15 < i.decim ∨ i.mask = 0)) ∨
        (i.type = 0 ∧ (i.decim ≠ 0 ∨ i.mask ≠ 0 ∨ 1 < items.length))) ∨ ¬ (items.map SubItem.type).Nodup →
      exec .telemetrySubscribe s = .next (journaled (fun _ => s.complete t.cmd codeBadArg 0x90) s))

/-- A grant request that passes every check of R241 takes a free table entry (the lowest: the model's choice,
notes/assumptions/22.md) with a new generation and sends a reserve message to each spanned governor (R241, R242, R261); one that
fails completes with its code and detail and changes nothing else. With 16 grants in admission or delivery, or while Thyme
drains, it waits (R241, R372). -/
def Obligations.GrantRequestReserves : Prop :=
  ∀ (s : State) (t : Taken), Executes s opGrantRequest (fun _ => true) t →
    (16 ≤ s.hub.thyme.inflight ∨ s.hub.thyme.drain = true → exec .grantRequest s = .next (journaled (fun _ => s) s)) ∧
    (s.hub.thyme.inflight < 16 → s.hub.thyme.drain = false →
    let x := bodyOf t.body
    let spans := if x.isGroup then s.groupSpans x.gid else rectSpans x.rects
    let full := spans.map (fun p => (p.1, s.clusterRes p.1 x.ops, p.2))
    (∀ i, admitCheck s t.body x spans = none → s.freeEntry = some i → s.safeNow = false →
      exec .grantRequest s = .next (journaled (fun _ =>
        full.foldl (fun a p => a.hubSend (.reserve p.1 i p.2.1 (p.2.1 * p.2.2.length) p.2.2 x.ops (bitOf x.flags 0)))
          (((s.begin t).modGrant i (fun _ => {
            state := .reserving, gen := nextGen (s.grant i).gen, cycle := bitOf x.flags 0, phases := x.ops, tag := x.tag
            gid := if x.isGroup then x.gid else 0, limitUs := x.limit, duration := x.duration, durLeft := x.duration, spans := full
            sSum := (full.map (fun p => p.2.1 * p.2.2.length)).sum, nClus := (full.map (fun p => p.2.2.length)).sum
            order := s.hub.thyme.order, cmd := some t.cmd, timerOn := decide (x.limit ≠ 0) })).modThyme
              (fun h => { h with order := h.order + 1 }))) s)) ∧
    (∀ code d, admitCheck s t.body x spans = some (code, d) →
      exec .grantRequest s = .next (journaled (fun _ => s.complete t.cmd code d) s)) ∧
    (admitCheck s t.body x spans = none → s.safeNow = true → ∃ d,
      exec .grantRequest s = .next (journaled (fun _ => (s.complete t.cmd codeEmerg d).nextFree) s)))

/-- A refusal, or a reply that misses the limit, ends the round: the staging is released in every spanned region, the entry is
free again, the request completes with REJ_PARTIAL, 0x60 or 0x61; no region and no other grant changes (R243, R262). -/
def Obligations.GrantRoundAbandoned : Prop :=
  ∀ (s : State) (i : Nat), (s.grant i).state = .reserving → (s.grant i).ends = none → s.thymeDecides = true →
    s.inControl = true → ∀ cmd, (s.grant i).cmd = some cmd →
    ∀ (c : Instr) (d : Nat),
      ((∃ (r : RegionId) (hdr : MsgHdr) (v : Nat), c = .reserveReply r hdr i false v ∧ d = 0x60 ∧ Heard s 0x04 hdr ∧
          r.val ∈ (s.grant i).regions) ∨
        (c = .replyLimitExpiry i ∧ d = 0x61 ∧
          ∃ k ∈ (s.grant i).regions, ∀ p ∈ (s.grant i).accepts, p.1 ≠ k)) →
      ∃ t, exec c s = .next t ∧ t.grant i = (s.grant i).freed ∧ (∀ j, j ≠ i → t.grant j = s.grant j) ∧
        t.hub.rings = (s.complete cmd codePartial d).hub.rings ∧ t.hub.thyme.partialC = s.hub.thyme.partialC + 1 ∧
        (∀ k ∈ (s.grant i).regions, Said t (.stagingRelease k i)) ∧
        t = { s with
          hub := { s.hub with rings := t.hub.rings, thyme := t.hub.thyme }
          pair := t.pair, out := t.out, hubLast := t.hubLast, await := t.await, seqs := t.seqs }

/-- With the last ACCEPT the promise D is reckoned; a non-zero LIMIT_US below it ends the round with REJ_TIMING; otherwise the
decision stands in the table, and once it is mirrored the grant has its commit word and its accepting completion: at once
while the pair is not PAIRED; while it is, neither comes with the decision (R244, R245, R247). -/
def Obligations.GrantDecided : Prop :=
  ∀ (s : State) (r : RegionId) (hdr : MsgHdr) (i v : Nat) (cmd : CmdRef), Heard s 0x04 hdr →
    (s.grant i).state = .reserving → (s.grant i).ends = none → s.thymeDecides = true → (s.grant i).cmd = some cmd →
    (s.grant i).decidedN = none → r.val ∈ (s.grant i).regions → s.pair.acked ≤ s.pair.jn →
    (∀ k ∈ (s.grant i).regions, k ≠ r.val → ∃ p ∈ (s.grant i).accepts, p.1 = k) →
    let g : Grant := { s.grant i with accepts := (s.grant i).accepts.filter (fun p => p.1 != r.val) ++ [(r.val, v)] }
    let d := s.promiseUs g
    ∃ t, exec (.reserveReply r hdr i true v) s = .next t ∧ (∀ j, j ≠ i → t.grant j = s.grant j) ∧
      (if g.limitUs ≠ 0 ∧ g.limitUs < d then
        t.grant i = g.freed ∧ t.hub.rings = (s.complete cmd codeTiming 0x30).hub.rings
      else if s.pair.paired = true then
        (t.grant i).state = .decided ∧ (t.grant i).dUs = (if g.limitUs = 0 then 0 else d) ∧ (t.grant i).cmd = some cmd ∧
          t.hub.thyme.words = s.hub.thyme.words ∧ t.hub.rings = s.hub.rings
      else
        let g' := { g with dUs := if g.limitUs = 0 then 0 else d }
        let p := wordPeriod s.hub.thyme s.period false
        (t.grant i).state = .decided ∧ (t.grant i).dUs = g'.dUs ∧ (t.grant i).commitP = p ∧
          t.hub.thyme.words = (s.hub.thyme.putWord p i false).words ∧
          t.hub.rings = (s.complete cmd codeOk 0 (acceptBytes i g' p)).hub.rings)

/-- The last IN_FORCE report delivers the grant and stops its timer, with a DELIVERED record; a timer that expires before is a
miss: recorded, counted, a contained fault, and delivery goes on (R248, R260).
A new owner that learns from the grant's first region that it is in force there goes on with its delivery and asks the regions
that have not reported; otherwise the grant gets a commit word of a new period (R251). -/
def Obligations.GrantsAreDelivered : Prop :=
  (∀ (s : State) (i : Fin 65536),
    (∀ (r : RegionId) (hdr : MsgHdr), Heard s 0x05 hdr →
      ((s.grant i).state = .delivering ∨ (s.grant i).state = .decided) → r.val ∈ (s.grant i).regions →
      (∀ k ∈ (s.grant i).regions, k ≠ r.val → k ∈ (s.grant i).reports) →
      ∃ t, exec (.inForce r hdr i) s = .next t ∧ (t.grant i).state = .inForce ∧ (t.grant i).timerOn = false ∧
        (∀ j, j ≠ i.val → t.grant j = s.grant j) ∧
        t.hub.rings = (grantRecord i 0 codeOk 0 s).hub.rings) ∧
    ((s.grant i).timerOn = true → (s.grant i).suspended = [] →
      ((s.grant i).state = .decided ∨ (s.grant i).state = .delivering) →
      ∃ t, exec (.deliveryTimerExpiry i) s = .next t ∧
        t.grant i = { s.grant i with missed := true, timerOn := false } ∧ (∀ j, j ≠ i.val → t.grant j = s.grant j) ∧
        t.hub.thyme.miss = s.hub.thyme.miss + 1 ∧ { src := 202, cause := 0 } ∈ t.events ∧
        t.hub.recorder = (s.record 0x11 3 0 s.ownerNode (BitVec.ofNat 32 (handleOf i (s.grant i)))).hub.recorder)) ∧
  (∀ (s : State) (r : RegionId) (hdr : MsgHdr) (i : Nat), Heard s 0x08 hdr →
    ((s.grant i).state = .decided ∨ (s.grant i).state = .delivering) →
    let u := (s.heard 0x08 hdr).answered (fun m => match m with | .stateQuery k j => k == r.val && j == i | _ => false)
    let others := (s.grant i).regions.filter (fun k => k != r.val && !decide (k ∈ (s.grant i).reports))
    ((s.grant i).regions.head? = some r.val → exec (.grantStateReply r hdr i true) s = .next (journaled (fun _ =>
      others.foldl (fun a k => a.hubAsk (.stateQuery k i)) (u.modGrant i (fun g => { g with state := .delivering }))) s)) ∧
    ((s.grant i).regions.head? ≠ some r.val →
      exec (.grantStateReply r hdr i true) s = .next (journaled (fun _ => u.modGrant i (fun g => { g with state := .delivering })) s) ∧
      exec (.grantStateReply r hdr i false) s = .next (journaled (fun _ => u) s)) ∧
    ((s.grant i).regions.head? = some r.val → (∀ w ∈ s.hub.thyme.words, w.2.2 = false → i ∉ w.2.1) →
      exec (.grantStateReply r hdr i false) s = .next (journaled (fun _ =>
        (u.modGrant i (fun g => { g with
          state := .decided, commitP := wordPeriod s.hub.thyme s.period false, decidedN := some s.period })).modThyme
          (Thyme.putWord (wordPeriod s.hub.thyme s.period false) i false)) s)))

/-- A release of a grant in delivery or in force, and a duration that ends, put its index into a release word: at once while the
pair is not PAIRED, with the acknowledgement of its journal entry while it is (R390); a release of a decided grant withdraws it from its commit word and releases its staging, unless a copy of the word has gone: then it is
released as one in delivery is (the model's choice, notes/assumptions/22.md); the last removal report frees the entry, with a
RELEASED record of its cause, and completes the releases with OK (R255, R256). -/
def Obligations.GrantReleased : Prop :=
  ∀ (s : State),
    (∀ t : Taken, Executes s opGrantRelease (fun _ => true) t →
      let h := leAt t.entry 8 4
      let i := h % 65536
      (s.grant i).gen = h / 65536 → ((s.grant i).state = .delivering ∨ (s.grant i).state = .inForce ∨
        ((s.grant i).state = .decided ∧ (s.grant i).decidedN.isSome = true ∧ (s.grant i).commitP.toNat ≤ s.period.toNat + 2)) →
      (s.grant i).releasing = none → s.pair.acked ≤ s.pair.jn →
      ∃ u, exec .grantRelease s = .next u ∧
        u.grant i = { s.grant i with releasing := some [], relCause := 1, timerOn := false
                                     relJ := if s.pair.paired then some (s.pair.jn + 1) else none
                                     relCmds := (s.grant i).relCmds ++ [t.cmd] } ∧
        (∀ j, j ≠ i → u.grant j = s.grant j) ∧
        u.hub.thyme.words = if s.pair.paired then s.hub.thyme.words
          else (s.hub.thyme.putWord (wordPeriod s.hub.thyme s.period true) i true).words) ∧
    (∀ t : Taken, Executes s opGrantRelease (fun _ => true) t →
      let h := leAt t.entry 8 4
      ((s.grant (h % 65536)).gen ≠ h / 65536 ∨ (s.grant (h % 65536)).state = .free ∨
        (s.grant (h % 65536)).state = .reserving) →
      exec .grantRelease s = .next (journaled (fun _ => s.complete t.cmd codeBadArg 0x0B) s)) ∧
    (∀ t : Taken, Executes s opGrantRelease (fun _ => true) t →
      let i := leAt t.entry 8 4 % 65536
      (s.grant i).gen = leAt t.entry 8 4 / 65536 → (s.grant i).state = .decided →
      ((s.grant i).decidedN = none ∨ s.period.toNat + 2 < (s.grant i).commitP.toNat) →
      ∃ u, exec .grantRelease s = .next u ∧ u.grant i = (s.grant i).freed ∧ (∀ j, j ≠ i → u.grant j = s.grant j) ∧
        u.hub.thyme.words = (s.hub.thyme.withdraw s.now i).words ∧
        ∀ k ∈ (s.grant i).regions, Said u (.stagingRelease k i)) ∧
    (∀ i : Fin 65536, s.inControl = true → (s.grant i).state = .inForce → (s.grant i).durLeft = 0 → (s.grant i).releasing = none →
      s.pair.acked ≤ s.pair.jn →
      exec (.durationExpiry i) s = .next (journaled (fun _ =>
        if s.pair.paired then s.modGrant i (fun g => { g with
          releasing := some [], relCause := 2, timerOn := false, relJ := some (s.pair.jn + 1) })
        else (s.modGrant i (fun g => { g with releasing := some [], relCause := 2, timerOn := false, relJ := none })).modThyme
          (Thyme.putWord (wordPeriod s.hub.thyme s.period true) i true)) s)) ∧
    (∀ (r : RegionId) (hdr : MsgHdr) (i : Nat) (l : List Nat), Heard s 0x06 hdr → (s.grant i).releasing = some l →
      (s.grant i).state ≠ .free → r.val ∈ (s.grant i).regions →
      (∀ k ∈ (s.grant i).regions, k ≠ r.val → k ∈ l) →
      exec (.removalReport r hdr i) s = .next (journaled (fun _ =>
        (s.grant i).relCmds.foldl (fun a c => a.complete c codeOk 0)
          ((grantRecord i 1 codeOk (s.grant i).relCause (s.heard 0x06 hdr)).modGrant i Grant.freed)) s))

/-- RESERVE: a governor within its cap and its rating, with no trip, no emergency cap and no unsettled derate, stages the grant
in its own table and in its Chives' phase switches and accepts with V_from; otherwise it refuses and keeps everything. It
releases a staging without changing anything in force, a revocation acts at the next boundary, and a governor asked for a grant's
state answers, and reports again one that it has in force (R229, R242, R243, R251). -/
def Obligations.GovernorStagesGrant : Prop :=
  ∀ (s : State) (r : RegionId) (hdr : MsgHdr) (i : Nat),
    (∀ m : ReserveMsg, Accepted s r 0x01 hdr →
      ((s.region r).resTotal + m.total ≤ (s.region r).caps.iReg ∧
          (s.region r).resTotal + m.total ≤ (s.region r).ph.rating ∧ (s.region r).therm.latch = false ∧
          (s.region r).caps.ecap = false ∧ (s.region r).ph.unsettled = false →
        exec (.reserve r hdr m) s = .next (((s.noted r 0x01 hdr).modRegion r (fun g => { g with
          resvs := g.resvs.filter (fun v => v.grant != m.index) ++
            [⟨m.index, m.q, m.total, onesOf 576 m.clusters.toNat, false, none, false, m.phases, m.cycle⟩]
          clusters := g.clusters.modifyAll (onesOf 576 m.clusters.toNat) (fun _ u => { u with
            staged := some ⟨m.index, m.phases, m.cycle⟩ }) })).send
          (.reserveReply r m.index true (s.vFrom r)))) ∧
      ((s.region r).caps.iReg < (s.region r).resTotal + m.total ∨
          (s.region r).ph.rating < (s.region r).resTotal + m.total ∨ (s.region r).therm.latch = true ∨
          (s.region r).caps.ecap = true ∨ (s.region r).ph.unsettled = true →
        exec (.reserve r hdr m) s = .next ((s.noted r 0x01 hdr).send (.reserveReply r m.index false (s.vFrom r))))) ∧
    (∀ v : Resv, Accepted s r 0x02 hdr → (s.region r).resvs.find? (fun v => v.grant == i) = some v → v.inForce = false →
      exec (.stagingRelease r hdr i) s = .next ((s.noted r 0x02 hdr).modRegion r (fun g => { g with
        resvs := g.resvs.filter (fun x => x.grant != i)
        clusters := g.clusters.modifyAll v.clusters (fun _ u => { u with staged := none }) }))) ∧
    (Accepted s r 0x03 hdr → exec (.revocation r hdr i) s = .next ((s.noted r 0x03 hdr).modRegion r (fun g => { g with
      resvs := g.resvs.map (fun v => if v.grant = i then { v with leaving := true } else v) }))) ∧
    (Accepted s r 0x07 hdr →
      let held := (s.region r).resvs.any (fun v => v.grant == i && v.inForce)
      let u := (s.noted r 0x07 hdr).send (.stateReply r i held)
      exec (.grantStateQuery r hdr i) s = .next (if (s.region r).resvs.any (fun v =>
        v.grant == i && v.inForce && v.awaiting.isNone) then u.send (.inForce r i) else u))

/-- A commit or release word's copy, from the root that the region's select follows, is kept for its period when its check is right and its epoch is not older than the
governor's; a corrupt copy is counted for its period; one of an older epoch is discarded and counted (R19, R245, R255).
A phase marker moves the cluster's phase switch to the next phase of its grant, back to the first one where the grant
cycles; one that has no phase to go to is counted (R253, R254). Only that cluster changes. -/
def Obligations.TreeWordsAndMarkersAct : Prop :=
  (∀ (s : State) (r : RegionId) (w : TreeWord), w.root = (s.gov r).root →
    (w.checkOk = true → (w.epoch = (s.gov r).epoch ∨ epochHigher w.epoch (s.gov r).epoch = true) →
      exec (.commitWord r w) s = .next (s.modGov r (fun g => { g with words := g.words ++ [(w, false)] })) ∧
      exec (.releaseWord r w) s = .next (s.modGov r (fun g => { g with words := g.words ++ [(w, true)] }))) ∧
    (w.checkOk = true → w.epoch ≠ (s.gov r).epoch → epochHigher w.epoch (s.gov r).epoch = false →
      ∀ c : Instr, c = .commitWord r w ∨ c = .releaseWord r w → exec c s = .next (s.modGov r (fun g => { g with
        staleCnt := satAdd 0xFFF g.staleCnt 1 }))) ∧
    (w.checkOk = false →
      exec (.commitWord r w) s = .next (s.modGov r (fun g => { g with badCopies := g.badCopies ++ [(w.period, false)] })) ∧
      exec (.releaseWord r w) s = .next (s.modGov r (fun g => { g with badCopies := g.badCopies ++ [(w.period, true)] })))) ∧
  (∀ (s : State) (c : ClusterId),
    (∀ l, (s.cluster c).phases = some l → (s.cluster c).phaseIdx + 1 < l.ops.length →
      exec (.phaseMarker c) s = .next (s.modCluster c (fun u => Cluster.resend { u with
        phaseIdx := u.phaseIdx + 1, phCeil := s.opCeil (l.ops.getD (u.phaseIdx + 1) 0) }))) ∧
    (∀ l, (s.cluster c).phases = some l → l.ops.length ≤ (s.cluster c).phaseIdx + 1 → l.cycle = true →
      exec (.phaseMarker c) s = .next (s.modCluster c (fun u => Cluster.resend { u with
        phaseIdx := 0, phCeil := s.opCeil (l.ops.headD 0) }))) ∧
    ((∀ l, (s.cluster c).phases = some l → l.ops.length ≤ (s.cluster c).phaseIdx + 1 ∧ l.cycle = false) →
      exec (.phaseMarker c) s = .next (s.modCluster c (fun u => { u with strayMarks := u.strayMarks + 1 }))))

/-- Settlement: with the scheduler core running, the oldest grants of a derated region that fit its derated ceiling, under an
emergency cap the lower of it and its preset, less I_TH_MIN are kept, the rest are revoked with the derate as their cause, or the
emergency cap where it reached them first and is unsettled too, their timers run again, and the region is settled (R228, R262,
R520, R526); under an emergency cap every region is settled against its preset (R257, R258). -/
def Obligations.SettlementRevokesRest : Prop :=
  ∀ (s : State), s.inControl = true → s.thymeRuns = true →
    (∀ r : RegionId, (s.region r).ph.unsettled = true →
      exec (.derateSettlement r) s = .next (journaled (fun _ =>
        (settleRegion r ((if s.hub.ecap.active then min (s.region r).ph.rating (s.cfg (offPreset r) 0 12)
          else (s.region r).ph.rating) - s.iThMin)
          (if (s.region r).ph.ecapFirst && s.hub.thyme.ecapSettle then 5 else 4) s).modRegion r (fun g => { g with
          ph := { g.ph with unsettled := false, ecapFirst := false } })) s)) ∧
    (s.hub.thyme.ecapSettle = true → (∀ r, (s.region r).ph.unsettled = false) →
      exec .emergencyCapSettlement s = .next (journaled (fun _ =>
        ((List.range 64).foldl (fun a r => settleRegion r (s.cfg (offPreset r) 0 12 - s.iThMin) 5 a) s).modThyme
          (fun x => { x with ecapSettle := false })) s))

/-- A definition that passes the checks of R268 enters the table, undefined as yet, and a slot request goes to each member
region's governor; one that fails completes with its code and detail and changes nothing else (R268–R270). -/
def Obligations.GroupDefineRequestsSlots : Prop :=
  ∀ (s : State) (t : Taken), Executes s opGroupDefine bodyDefines t →
    let spans := bodySpans t.body
    let gid := leAt t.body 0 2
    (defineCheck s t.body spans = none →
      exec .groupDefine s = .next (journaled (fun _ =>
        (spans.map Prod.fst).foldl (fun a r => a.hubAsk (.slotRequest r gid))
          ((s.begin t).modGroups (fun x => { x with defs := x.defs ++ [(gid, {
            flags := byteAt t.body 2, lead := byteAt t.body 3, key := BitVec.ofNat 32 (leAt t.body 8 4)
            regions := spans.map Prod.fst, counts := spans.map (fun p => (p.1, p.2.length)), members := spans
            home := homeOf (spans.map (fun p => (p.1, p.2.length)))
            awaiting := spans.map Prod.fst, cmd := some t.cmd })] }))) s)) ∧
    (∀ code d, defineCheck s t.body spans = some (code, d) →
      exec .groupDefine s = .next (journaled (fun _ => s.complete t.cmd code d) s))

/-- The last ACCEPT defines the group, with group code, harvest floor and remote code 64, writes the slots into the members and
completes OK; after a refusal the slots taken are released, the definition is gone and the command completes with REJ_BUDGET,
0x26 (R270, R284).
An undefinition releases every slot of the group, removes it and completes OK; it is rejected while a grant names the group
and where the group is not defined (R271). -/
def Obligations.GroupDefinitionsEnd : Prop :=
  (∀ (s : State) (r : RegionId) (hdr : MsgHdr) (gid : Fin 1024) (g : Group) (cmd : CmdRef), Heard s 0x11 hdr →
    s.def? gid = some g → g.defined = false → g.refused = false → g.cmd = some cmd → s.thymeDecides = true →
    r.val ∈ g.awaiting →
    ((∀ k ∈ g.awaiting, k = r.val) → g.regions.Nodup → ∃ t, exec (.groupSlotReply r hdr gid true) s = .next t ∧
      t.def? gid = some { g with awaiting := [], defined := true, cmd := none } ∧ t.home gid = {} ∧
      t.hub.rings = (s.complete cmd codeOk 0).hub.rings ∧ t.govs = s.govs ∧
      (∀ k, k ∉ g.regions → t.region k = s.region k) ∧
      ∀ k ∈ g.regions, ∀ x, (s.region k).slot gid = some x → ∀ c, (t.region k).clusters.get c =
        if c ∈ x.members then { (s.region k).clusters.get c with
          ctl := { ((s.region k).clusters.get c).ctl with group := some gid.val } } else (s.region k).clusters.get c) ∧
    (∃ t, exec (.groupSlotReply r hdr gid false) s = .next t ∧ t.def? gid = none ∧
      (∀ k ∈ g.regions, Said t (.slotRelease k gid)) ∧
      t.hub.rings = (s.complete cmd codeBudget 0x26).hub.rings ∧ t.regions = s.regions ∧ t.govs = s.govs)) ∧
  (∀ (s : State) (t : Taken), Executes s opGroupDefine (fun t => !bodyDefines t) t →
    let gid := leAt t.body 0 2
    1 ≤ gid → gid ≤ 1023 → bodySpans t.body = [] →
    (∀ g, s.group gid = some g → s.grantOn gid = false → ∃ u, exec .groupUndefine s = .next u ∧ u.group gid = none ∧
      (∀ k, k ≠ gid → u.group k = s.group k) ∧ (∀ k ∈ g.regions, Said u (.slotRelease k gid)) ∧
      u.regions = s.regions ∧ u.govs = s.govs ∧
      ((s.home gid).relays = [] → (s.home gid).armRelays = [] → u.hub.rings = (s.complete t.cmd codeOk 0).hub.rings)) ∧
    (∀ g, s.group gid = some g → s.grantOn gid = true →
      exec .groupUndefine s = .next (journaled (fun _ => s.complete t.cmd codeBadArg 0x18) s)) ∧
    (s.group gid = none → exec .groupUndefine s = .next (journaled (fun _ => s.complete t.cmd codeBadArg 0x19) s)))

/-- A CAP_SET entry all of whose items are legal waits, item by item, for the boundaries of their levels; the first item that is
illegal, out of range, a second one of its target or a removal on the package rejects the entry with 0x70 + k, a package
ceiling below P_floor with 0x77 (R43, R301, R302). A relay sets the remote code of its group, to be armed for its S_t, unless
it is stale; one whose key names no MULTI group is rejected with 0x1A, one of a code out of 1 to 64 with 0x1B (R284, R303). -/
def Obligations.CapSetIsRecorded : Prop :=
  ∀ (s : State) (t : Taken),
    (Executes s opCapSet (fun t => !entryGroupForm t.entry) t →
      let items := (List.range t.count).map (capItem t.entry)
      (capReject items = none → (∀ i ∈ items, i.kind = 0 → s.pFloor ≤ i.ceiling) →
        exec .capSet s = .next (journaled (fun _ => (s.begin t).modBudget (fun b => { b with
          caps := b.caps ++ [{ cmd := t.cmd, items := items, ecap := s.hub.ecap.active }] })) s)) ∧
      (∀ k, capReject items = some k → exec .capSet s = .next (journaled (fun _ => s.complete t.cmd codeBadArg (0x70 + k)) s)) ∧
      (capReject items = none → (∃ i ∈ items, i.kind = 0 ∧ i.ceiling < s.pFloor) →
        exec .capSet s = .next (journaled (fun _ => s.complete t.cmd codeBadArg 0x77) s))) ∧
    (Executes s opCapSet (fun t => entryGroupForm t.entry) t →
      let code := byteAt t.entry 0x0C
      let sT : Word := BitVec.ofNat 32 (leAt t.entry 0x10 4)
      (s.hub.groups.defs.find? (fun p => p.2.defined && bitOf p.2.flags 1 &&
          p.2.key == BitVec.ofNat 32 (leAt t.entry 8 4)) = none →
        exec .capSetGroupForm s = .next (journaled (fun _ => s.complete t.cmd codeBadArg 0x1A) s)) ∧
      ∀ gid g, s.hub.groups.defs.find? (fun p => p.2.defined && bitOf p.2.flags 1 &&
          p.2.key == BitVec.ofNat 32 (leAt t.entry 8 4)) = some (gid, g) →
        (code = 0 ∨ 64 < code → exec .capSetGroupForm s = .next (journaled (fun _ => s.complete t.cmd codeBadArg 0x1B) s)) ∧
        (1 ≤ code → code ≤ 64 →
        ((∀ x, (s.home gid).relayS = some x → reached sT x = true) →
          exec .capSetGroupForm s = .next (journaled (fun _ => (s.begin t).modHome gid (fun h => { h with
            rRemote := code, relayS := some sT, relayDue := some sT, relays := h.relays ++ [t.cmd] })) s)) ∧
        ((∃ x, (s.home gid).relayS = some x ∧ reached sT x = false) →
          exec .capSetGroupForm s = .next (journaled (fun _ => s.complete t.cmd codeOk 0) s))))

/-- A model load whose image passes R116, and an unload, are taken in hand for the named regions; an image that fails completes
with its reason, an entry that names no region with 9, one that names a locked region with REJ_LOCKED, and no region changes
(R116, R118, R119, R308). -/
def Obligations.ModelCommandTaken : Prop :=
  ∀ (s : State) (t : Taken) (load : Bool) (c : Instr), (c = .modelLoad ∧ load = true) ∨ (c = .modelUnload ∧ load = false) →
    Executes s opModelLoad (loadFree s load) t →
    let mask : BitVec 64 := BitVec.ofNat 64 (leAt t.entry 8 8)
    (onesOf 64 mask.toNat = [] → exec c s = .next (journaled (fun _ => s.complete t.cmd codeBadArg 9) s)) ∧
    ((∃ r ∈ onesOf 64 mask.toNat, s.cfgBit (offSage r) 31 = true ∧ s.cfg (offSage r) 0 2 = 0) →
      exec c s = .next (journaled (fun _ => s.complete t.cmd codeLocked 0) s)) ∧
    (onesOf 64 mask.toNat ≠ [] →
    (∀ r ∈ onesOf 64 mask.toNat, s.cfgBit (offSage r) 31 = false ∨ s.cfg (offSage r) 0 2 ≠ 0) →
    ((load = true → imageReason t.body (leAt t.entry 0x18 4) = none) →
      exec c s = .next (journaled (fun _ => (s.begin t).modHub (fun h => { h with loads := h.loads ++
        [{ cmd := t.cmd, mask := mask, image := if load then t.body else [] }] })) s)) ∧
    (∀ d, load = true → imageReason t.body (leAt t.entry 0x18 4) = some d →
      exec c s = .next (journaled (fun _ => s.complete t.cmd codeBadArg d) s)))

/-- A trim image that passes R221 raises each region's trim to the image's, never lowers one, loads REF_SLACK and the powered
time; a first-life load sets every trim and the powered time to 0 and takes the readings as REF_SLACK (R221, R222). Neither
changes a committed setpoint, and a load that is not accepted is rejected with a free detail (notes/assumptions/7.md) and
changes nothing else.
A retired phase named by PHASE_RESTORE carries current again, under watch for 16 whole rotations of the samples, still retired
and not counted; any other name is rejected with 0x81 (R225, R304). -/
def Obligations.PolicyActsOnTrimsAndPhases : Prop :=
  (∀ (s : State) (t : Taken),
    (Executes s opPolicySet (fun t => isTrim t && leAt t.entry 0x18 4 != 0) t →
      trimImageOk (s.cfg 0x6000 24 7) t.body = true → ∃ u, exec .ageingTrim s = .next u ∧
        (∀ r : RegionId, (u.region r).sp = { (s.region r).sp with trim := max (s.region r).sp.trim (byteAt t.body (0x40 + r)) } ∧
          (u.region r).margin.state = if (s.region r).margin.state = .none then .applied else (s.region r).margin.state) ∧
        u.hub.ageing.refSlack = slackCells t.body ∧ u.hub.ageing.exportTo = leAt t.entry 0x20 8 ∧
        u.hub.ageing.poweredS = BitVec.ofNat 64 (max s.hub.ageing.poweredS.toNat (leAt t.body 0x10 8)) ∧
        u.hub.rings = (s.complete t.cmd codeOk 0).hub.rings) ∧
    (Executes s opPolicySet (fun t => isTrim t && leAt t.entry 0x18 4 != 0) t →
      trimImageOk (s.cfg 0x6000 24 7) t.body = false → ∃ d,
        exec .ageingTrim s = .next (journaled (fun _ => (s.complete t.cmd codeBadArg d).nextFree) s)) ∧
    (∀ taps : SMap Nat, Executes s opPolicySet (fun t => isTrim t && leAt t.entry 0x18 4 == 0) t →
      (∀ r : RegionId, (s.region r).margin.state = .none) → s.enginesRun = true →
      ∃ u, exec (.ageingTrimNewWafer taps) s = .next u ∧
        (∀ r : RegionId, (u.region r).sp = { (s.region r).sp with trim := 0 } ∧ (u.region r).margin.state = .applied) ∧
        u.hub.ageing = { s.hub.ageing with
          exportTo := leAt t.entry 0x20 8, poweredS := 0, subUs := 0, nextAt := 86400
          refSlack := ⟨0xFF, (List.range 36864).filterMap (fun c =>
            if (s.cluster c).ctl.spared then none else some (c, min 64 (taps.get c)))⟩ } ∧
        u.hub.rings = (s.complete t.cmd codeOk 0).hub.rings ∧
        u.hub.recorder = (s.record 0x30 3 0 s.ownerNode 0).hub.recorder) ∧
    (∀ taps : SMap Nat, Executes s opPolicySet (fun t => isTrim t && leAt t.entry 0x18 4 == 0) t →
      ((∃ r : RegionId, (s.region r).margin.state ≠ .none) ∨ s.enginesRun = false) → ∃ d,
        exec (.ageingTrimNewWafer taps) s = .next (journaled (fun _ => (s.complete t.cmd codeBadArg d).nextFree) s))) ∧
  (∀ (s : State) (t : Taken), Executes s opPolicySet (restoreFree s) t →
    let r := byteAt t.entry 0x0C
    let k := byteAt t.entry 0x0D
    (r ≤ 63 → k ≤ 23 → (s.region r).ph.retired &&& phaseBitOf k ≠ 0 →
      exec .phaseRestore s = .next (journaled (fun _ => (((s.modPh r (fun p => { p with
        active := p.active ||| phaseBitOf k, watch := some (k, 16, false) })).modRegion r restartRotation).hubSend
          (.pmbus r (.phaseEnable (Fin.ofNat 24 k)))).complete t.cmd codeOk 0) s)) ∧
    (63 < r ∨ 23 < k ∨ (s.region r).ph.retired &&& phaseBitOf k = 0 →
      exec .phaseRestore s = .next (journaled (fun _ => s.complete t.cmd codeBadArg 0x81) s)))

/-- A stage of a hub target that passes its checks puts the image into the staged bank of both hubs and leaves the running image
alone; for the Chives the copies go to the governors, and the last good report makes the image the staged one; a failed check
or a failed copy completes with its code (R369–R371). -/
def Obligations.StageFillsStagedBank : Prop :=
  ∀ (s : State),
    (∀ (t : Taken) (ok : Bool), Executes s opStage (fun _ => s.hub.fw.stageCmd.isNone) t →
      let k := byteAt t.entry 0x14
      (stageCheck s t = none → k < 3 → (s.validStandby = none ∨ ok = true) → ∃ u, exec (.firmwareStage ok) s = .next u ∧
        (u.coreAt (s.owner.getD .a) k).stagedImage = some (imageOf t.body) ∧
        (∀ w, s.validStandby = some w → (u.coreAt w k).stagedImage = some (imageOf t.body)) ∧
        (∀ h, (u.coreAt h k).image = (s.coreAt h k).image ∧ (u.coreAt h k).state = (s.coreAt h k).state) ∧
        u.hub.rings = (s.complete t.cmd codeOk 0).hub.rings) ∧
      (∀ c d, stageCheck s t = some (c, d) →
        exec (.firmwareStage ok) s = .next (journaled (fun _ => s.complete t.cmd c d) s)) ∧
      (stageCheck s t = none → k = 3 → ∃ u, exec (.firmwareStage ok) s = .next u ∧ u.hub.fw.stageCmd = some t.cmd ∧
        u.hub.fw.stageImg = some (imageOf t.body) ∧ u.hub.fw.stageWait = List.range 64 ∧
        (∀ r : RegionId, Said u (.fwCode r)) ∧ u.regions = s.regions)) ∧
    (∀ (r : RegionId) (hdr : MsgHdr) (c : CmdRef), Heard s 0x60 hdr → s.hub.fw.stageCmd = some c →
      s.hub.fw.stageWait = [r.val] → s.hub.fw.stageBad = false → s.secHalted = false → ∃ u, exec (.stageCopyReport r hdr true) s = .next u ∧
        u.stagedOf 3 = s.hub.fw.stageImg ∧ u.runningOf 3 = s.runningOf 3 ∧ u.hub.fw.stageCmd = none ∧
        u.hub.rings = (s.complete c codeOk 0).hub.rings)

/-- An activation that passes its checks with no emergency in force starts: for the scheduler Thyme takes no more requests and
its core is held; without a standby the owning hub's core switches to the staged bank and restarts, unless that restart is one
too many in the window of R367. An emergency defers it, or
rejects it with 0x53 where no wait is allowed; a failed check completes with its code (R306, R371–R373). -/
def Obligations.ActivationStarts : Prop :=
  ∀ (s : State) (t : Taken), Executes s opActivate (fun _ => s.hub.fw.act.isNone) t →
    let k := byteAt t.entry 8
    let h := s.owner.getD .a
    (∀ c d, activateCheck s t = some (c, d) →
      exec .firmwareActivate s = .next (journaled (fun _ => s.complete t.cmd c d) s)) ∧
    (activateCheck s t = none → s.targetEmpty k = false → s.actCause = 0 → k = 2 → (s.coreAt h 2).state = .running →
      ∃ u, exec .firmwareActivate s = .next u ∧ u.hub.thyme.drain = true ∧ (u.coreAt h 2).state = .held ∧
        (u.coreAt h 2).bank = (s.coreAt h 2).bank ∧ u.hub.rings.comps = s.hub.rings.comps) ∧
    (activateCheck s t = none → s.targetEmpty k = false → s.actCause = 0 → k < 2 → s.validStandby = none →
      (s.coreAt h k).state = .running →
      (recentWith (s.now / 100) (s.coreAt h k).recent).length ≤ s.cfg 0x3000 16 4 →
      ∃ u, exec .firmwareActivate s = .next u ∧ (u.coreAt h k).bank = !(s.coreAt h k).bank ∧
        (u.coreAt h k).state = .restarting ∧ (u.coreAt h k).switching = true ∧ u.hub.rings.comps = s.hub.rings.comps) ∧
    (activateCheck s t = none → s.targetEmpty k = false → s.actCause ≠ 0 → leAt t.entry 0x0A 2 = 0 →
      ∃ u, exec .firmwareActivate s = .next u ∧ u.hub.fw.act = none ∧
        u.hub.rings.comps = (s.complete t.cmd codeEmerg 0x53).hub.rings.comps) ∧
    (activateCheck s t = none → s.targetEmpty k = false → s.actCause ≠ 0 → leAt t.entry 0x0A 2 ≠ 0 →
      ∃ u, exec .firmwareActivate s = .next u ∧ (u.hub.fw.act.map Activation.deferred) = some true ∧
        u.hub.rings.comps = (s.completeInterim t.cmd 0 (leBytes 1 s.actCause)).hub.rings.comps)

/-- A query, alone in hand, is taken up, and the last act of the next boundary carries it out from the state of that boundary, while the hub is
in control there: it completes OK with the object's figures and changes nothing else; a handle, a group or a region that is not
there is rejected (R307, R310). -/
def Obligations.QueryReturnsFigures : Prop :=
  ∀ (s : State) (t : Taken) (k : Nat), Executes s opQuery (fun t => byteAt t.entry 8 == k) t →
    s.clk.st ≠ .stopped → s.pow.rstLow = false →
    let u := journaled (fun _ => s.begin t) s
    let id := leAt t.entry 0x0C 4
    ∀ inp : BoundaryInput, let v := boundaryBody inp u
    let answer (x : State) : Host.Outcome State Fault Refusal :=
      .next (journaled (fun _ => subscribed ((List.range 64).map (fun r => (s.region r).tripsNow)) x) u)
    (k = 1 → exec .queryGrant s = .next u ∧ (v.inControl = true → v.queriesInHand = [{ t with started := true }] →
      ((v.grant (id % 65536)).state ≠ .free → (v.grant (id % 65536)).gen = id / 65536 →
        exec (.controlPeriodBoundary inp) u = answer (v.complete t.cmd codeOk 0 (grantBytes (id % 65536) (v.grant (id % 65536))))) ∧
      ((v.grant (id % 65536)).state = .free ∨ (v.grant (id % 65536)).gen ≠ id / 65536 →
        exec (.controlPeriodBoundary inp) u = answer (v.complete t.cmd codeBadArg 0x0B)))) ∧
    (k = 2 → exec .queryGroup s = .next u ∧ (v.inControl = true → v.queriesInHand = [{ t with started := true }] →
      (∀ g, v.group id = some g →
        exec (.controlPeriodBoundary inp) u = answer (v.complete t.cmd codeOk 0 (groupBytes v id g))) ∧
      (v.group id = none → exec (.controlPeriodBoundary inp) u = answer (v.complete t.cmd codeBadArg 0x19)))) ∧
    (k = 3 → exec .querySpec s = .next u ∧ (v.inControl = true → v.queriesInHand = [{ t with started := true }] →
      (id ≤ 63 → exec (.controlPeriodBoundary inp) u = answer (v.complete t.cmd codeOk 0 (specBytes v id))) ∧
      (64 ≤ id → exec (.controlPeriodBoundary inp) u = answer (v.complete t.cmd codeBadArg 9))))

/-- A write to a set-up register becomes its shadow, due at the next boundary, the one after within the hub's margin, five on
where the 2,400-cycle margin holds, and never while HOLD is 1; a shadow that is due already stays until then; the in-force word
stays. A region block's shadow is sent with its boundary. A locked instance takes no write and sets LOCK_WR; one of the frozen
collector ignores it (R421, R472, R474, R475, R477, R478).
An agreement instance held for 64 consecutive control periods raises one fault of the consistency source (R479). -/
def Obligations.ShadowsAndHeldInstances : Prop :=
  (∀ (s : State) (off : Nat) (v : Word) (within : Bool) (d : RegDef), s.pow.regOpen = true → regDef off = some d → off % 4 = 0 →
    let c : Instr := .registerWrite (.write off 4 v) within
    let due : Option Nat := if s.setup.hold then none else some (s.period.toNat + (if d.slow then 5 else if within then 2 else 1))
    let t := s.modSetup (fun u => { u with
      shadows := u.shadows.filter (fun x => x.offset != off || x.ready s.period.toNat) ++
        [⟨off, BitVec.ofNat 32 (v.toNat &&& d.fields), BitVec.ofNat 32 d.fields, due, !inRegionBlock off⟩] })
    (s.fcFrozen d = true → exec c s = .next (journaled (fun _ => s) s)) ∧
    (s.fcFrozen d = false →
    (s.setup.locked d = false → (inRegionBlock off = false ∨ s.setup.hold = true) →
      exec c s = .next (journaled (fun _ => t) s)) ∧
    (s.setup.locked d = false → inRegionBlock off = true → s.setup.hold = false →
      exec c s = .next (journaled (fun _ => t.hubSend (.shadows ((off - 0x100000) / 0x1000) (BitVec.ofNat 48 (due.getD 0)) off
        (BitVec.ofNat 32 (v.toNat &&& d.fields)))) s)) ∧
    (s.setup.locked d = true → exec c s = .next (journaled (fun _ => s.modSetup (fun u => { u with lockWr := true })) s))) ∧
    (∀ off', (t.setup.word off') = s.setup.word off')) ∧
  (∀ (s : State) (gid idx : Byte) (h : HeldInst),
    s.setup.held.find? (fun h => h.gid == gid.toNat && h.idx == idx.toNat) = some h → 64 ≤ h.periods → h.raised = false →
    ∃ t, exec (.consistencyHoldLimit gid idx) s = .next t ∧ t = { s with
      setup := { s.setup with held := t.setup.held }, events := s.events ++ [{ src := 210, cause := 0 }] } ∧
      ∀ x ∈ t.setup.held, x.gid = gid.toNat → x.idx = idx.toNat → x.raised = true)

/-- An access that is not an aligned one of 32 bits sets ACC_ERR, its write does nothing and its read returns 0; before REG_OPEN
a write is discarded and a read returns all ones; a read of a running Renoth returns the register's word and changes nothing,
and one that finds no hub in control waits (R391, R467, R468). -/
def Obligations.RegisterAccessRules : Prop :=
  ∀ (s : State) (off size : Nat) (v : Word) (w : Bool),
    (s.pow.regOpen = false → exec (.registerWrite (.write off size v) w) s = .next (journaled (fun _ => s) s) ∧
      exec (.registerWrite (.read off size) w) s = .next (journaled (fun _ => s.emit (.readData off 0xFFFFFFFF)) s)) ∧
    (s.pow.regOpen = true → (size ≠ 4 ∨ off % 4 ≠ 0) →
      exec (.registerWrite (.write off size v) w) s = .next (journaled (fun _ => s.modSetup (fun u => { u with accErr := true })) s) ∧
      exec (.registerWrite (.read off size) w) s = .next (journaled (fun _ =>
        (s.emit (.readData off 0)).modSetup (fun u => { u with accErr := true })) s)) ∧
    (s.pow.regOpen = true → off % 4 = 0 → s.inControl = true → ∀ h, s.owner = some h →
      exec (.registerWrite (.read off 4) w) s = .next (journaled (fun _ => s.emit (.readData off (readReg s h off))) s)) ∧
    (s.pow.regOpen = true → off % 4 = 0 → s.inControl = false →
      exec (.registerWrite (.read off 4) w) s = .next (journaled (fun _ => { s with reads := s.reads ++ [off] }) s))

/-- HOLD keeps every shadow from becoming due and, once cleared, all become due at the boundary counted from then, the
governors' sent to them; DISCARD of all takes away every shadow of an unlocked instance and ends its hold, of one instance its
own; WV_SEL opens a wide value of the hub at once and a governor's at its next boundary, with a new TOKEN, and one that is not
defined reads as bad (R477, R479, R481). In-force words stay. -/
def Obligations.RegisterControlWrites : Prop :=
  ∀ (s : State), s.pow.regOpen = true →
    (∀ sel within, exec (.holdWrite true sel within) s = .next (journaled (fun _ => s.modSetup (fun u => { u with
      hold := true, shadowSel := sel
      shadows := if u.hold then u.shadows else u.shadows.map (fun x =>
        { x with due := x.due.filter (fun p => decide (p ≤ s.period.toNat)) }) })) s)) ∧
    (∀ sel within, ∃ t, exec (.holdWrite false sel within) s = .next t ∧ t = { s with
        setup := { s.setup with hold := false, shadowSel := sel, shadows := t.setup.shadows }
        pair := t.pair, seqs := t.seqs, out := t.out } ∧
      (s.setup.hold = false → t.setup.shadows = s.setup.shadows ∧ t.out = s.out) ∧
      (s.setup.hold = true → t.setup.shadows = s.setup.shadows.map (fun x => match x.due, regDef x.offset with
        | none, some d => { x with
            due := some (s.period.toNat + (if d.slow then 5 else if within then 2 else 1)), sent := !inRegionBlock x.offset }
        | _, _ => x)) ∧
      (s.setup.hold = true → ∀ x ∈ t.setup.shadows, (∀ d, regDef x.offset = some d → x.due.isSome = true) ∧
        ∀ p, x.due = some p → x.sent = false → s.owner.isSome = true →
          Said t (.shadows ((x.offset - 0x100000) / 0x1000) (BitVec.ofNat 48 p) x.offset x.word))) ∧
    (∀ idx, ∃ t, exec (.discardGo 0xFF idx) s = .next t ∧ t = { s with setup := { s.setup with
        shadows := t.setup.shadows, held := t.setup.held } } ∧
      (∀ x ∈ t.setup.shadows, x ∈ s.setup.shadows ∧ ∀ d, regDef x.offset = some d → s.setup.locked d = true) ∧
      ∀ h ∈ t.setup.held, h ∈ s.setup.held ∧ ∃ x ∈ t.setup.shadows, ∃ d, regDef x.offset = some d ∧ s.setup.locked d = true ∧
        d.code = h.gid ∧ d.idx = h.idx) ∧
    (∀ gid idx : Byte, gid ≠ 0xFF → ∃ t, exec (.discardGo gid idx) s = .next t ∧ t = { s with setup := { s.setup with
        shadows := t.setup.shadows, held := t.setup.held } } ∧
      (∀ x ∈ t.setup.shadows, ∀ d, regDef x.offset = some d → d.code = gid.toNat → d.idx = idx.toNat →
        s.setup.locked d = true) ∧
      (∀ h ∈ s.setup.held, ¬ (h.gid = gid.toNat ∧ h.idx = idx.toNat) → h ∈ t.setup.held) ∧
      ∀ h ∈ t.setup.held, h ∈ s.setup.held ∧ (h.gid = gid.toNat → h.idx = idx.toNat → ∃ x ∈ t.setup.shadows, ∃ d,
        regDef x.offset = some d ∧ s.setup.locked d = true ∧ d.code = h.gid ∧ d.idx = h.idx)) ∧
    (∀ (wid idx : Byte) v, ¬ ((wid.toNat = 4 ∨ wid.toNat = 5) ∧ idx.toNat < 64) → s.hubWide wid.toNat idx.toNat = some v →
      exec (.wvSelWrite wid idx) s = .next (s.modSetup (fun u => { u with
        wvWid := wid.toNat, wvIdx := idx.toNat, wvToken := u.wvToken + 1, wvValid := true, wvBad := false
        wvValue := BitVec.ofNat 64 v, wvDue := none }))) ∧
    (∀ (wid idx : Byte), (wid.toNat = 4 ∨ wid.toNat = 5) → idx.toNat < 64 →
      exec (.wvSelWrite wid idx) s = .next (s.modSetup (fun u => { u with
        wvWid := wid.toNat, wvIdx := idx.toNat, wvToken := u.wvToken + 1, wvValid := false, wvBad := false
        wvValue := 0, wvDue := some (idx.toNat, s.period.toNat + 5) })))

/-- The host's four mailbox writes: a doorbell posts an EMPTY slot, unmirrored, and one of the security core opens its gate; a
doorbell or a message write at a slot in use sets WR_ERR and does nothing else; a cancel makes a POSTED slot DONE with CANCELLED
and is noted in a TAKEN one; a DONE slot becomes EMPTY; a message word is stored (R330, R335, R338–R340, R453). -/
def Obligations.HostMailboxWrites : Prop :=
  ∀ (s : State) (k : SlotId), s.pow.regOpen = true →
    ((s.slot k).state = .empty → ∃ t, exec (.hmbDoorbell k) s = .next t ∧
      t.slot k = { s.slot k with state := .posted, mirrored := false, retaken := false, cancel := false, turn := s.hub.mb.turn } ∧
      (∀ j, j ≠ k.val → t.slot j = s.slot j) ∧
      t = { s with hub := { s.hub with mb := { s.hub.mb with slots := t.hub.mb.slots, turn := s.hub.mb.turn + 1 } }
                   pair := t.pair, pow := t.pow } ∧
      t.pow = if k.val < 24 then s.pow else if s.owner = some .b then { s.pow with gsecB := false }
        else { s.pow with gsecA := false }) ∧
    ((s.slot k).state ≠ .empty → ∃ t, exec (.hmbDoorbell k) s = .next t ∧
      HubOnly s t { s.hub with mb := { s.hub.mb with wrErr := true } }) ∧
    ((s.slot k).state = .posted → ∃ t, exec (.hmbCancel k) s = .next t ∧ (t.slot k).state = .done ∧
      (t.slot k).code = BitVec.ofNat 8 codeCancelled ∧ (∀ j, j ≠ k.val → t.slot j = s.slot j) ∧
      Sends s t (if bitOf s.hub.mb.amask.toNat k then [] else [.msix 11]) ∧
      t = { s with hub := { s.hub with mb := { s.hub.mb with slots := t.hub.mb.slots } }, pair := t.pair, out := t.out }) ∧
    ((s.slot k).state = .taken → ∃ t, exec (.hmbCancel k) s = .next t ∧ t.slot k = { s.slot k with cancel := true } ∧
      (∀ j, j ≠ k.val → t.slot j = s.slot j) ∧ t.out = s.out) ∧
    ((s.slot k).state = .done → ∃ t, exec (.hmbDoneClear k) s = .next t ∧
      HubOnly s t (s.modSlot k (fun x => { x with state := .empty, retaken := false })).hub) ∧
    (∀ (w : Fin 4) (v : Word), ((s.slot k).state = .empty ∨ (s.slot k).state = .done) →
      ∃ t, exec (.hmbMsgWrite k w v) s = .next t ∧ HubOnly s t (s.modSlot k (fun x => { x with
        msg := x.msg.take (4 * w.val) ++ leBytes 4 v.toNat ++ x.msg.drop (4 * w.val + 4) })).hub) ∧
    (∀ (w : Fin 4) (v : Word), ((s.slot k).state = .posted ∨ (s.slot k).state = .taken) →
      ∃ t, exec (.hmbMsgWrite k w v) s = .next t ∧ HubOnly s t { s.hub with mb := { s.hub.mb with wrErr := true } })

/-- A 1 written to a PEND bit clears the source at every running collector, with its class, counts of merges and cause, unless
the source is still active: then CLR_REFUSED is set and it stays (R416). -/
def Obligations.PendIsClearedUnlessActive : Prop :=
  ∀ (s : State) (n : SourceId) (h : Hub), s.pow.regOpen = true → (s.coll h).frozen = false →
    ((s.coll h).source n).pend = true → ∃ t, exec (.fcPendClear n) s = .next t ∧
      (s.srcActive n = false → ((t.coll h).source n).pend = false ∧ ((t.coll h).source n).cls = 0 ∧
        ((t.coll h).source n).merged = 0 ∧ ((t.coll h).source n).cause = 0) ∧
      (s.srcActive n = true → (t.coll h).clrRefused = true ∧ (t.coll h).source n = (s.coll h).source n) ∧
      (∀ k, k ≠ n.val → (t.coll h).source k = (s.coll h).source k) ∧ t.regions = s.regions ∧ t.clk = s.clk

/-- Test writes: TEST and SUPPRESS follow the write, TEST only with TEST_EN; a force makes the source pending, marked forced, at
each collector in TEST and at no other; FORCE_BROKEN makes the pair broken there (R409, R417, R421). -/
def Obligations.ForcesActInTestOnly : Prop :=
  ∀ (s : State) (n : SourceId), s.pow.regOpen = true →
    (∀ test sup : Bool, ∃ t, exec (.testModeWrite test sup) s = .next t ∧
      (∀ h, (s.coll h).frozen = false → t.coll h = { s.coll h with
        test := test && (s.cfgBit 0x20000 0 || (s.coll h).test), suppress := sup }) ∧
      (∀ h, (s.coll h).frozen = true → t.coll h = s.coll h) ∧ t = { s with hubA := t.hubA, hubB := t.hubB }) ∧
    (∃ t, exec (.fcForce n) s = .next t ∧
      (∀ h, (s.coll h).test = true → s.collOn h = true → (s.coll h).frozen = false → ((s.coll h).source n).pend = false →
        ((t.coll h).source n).pend = true ∧ ((t.coll h).source n).forced = true) ∧
      (∀ h, (s.coll h).test = false → (t.coll h).sources = (s.coll h).sources)) ∧
    (∃ t, exec (.fbGo n) s = .next t ∧
      (∀ h, (s.coll h).test = true → s.collOn h = true → (s.coll h).frozen = false → ((t.coll h).source n).broken = true) ∧
      (∀ h, (s.coll h).test = false → (t.coll h).sources = (s.coll h).sources))

/-- EOH ends the handling of a non-maskable trap; the one source that came due meanwhile, still pending with NMI in its set,
brings one more trap (R418). -/
def Obligations.EndOfHandling : Prop :=
  ∀ (s : State) (h : Hub), s.owner = some h → s.pow.regOpen = true → (s.coll h).frozen = false → (s.coll h).nmiBusy = true →
    ((∀ n ∈ (s.coll h).nmiAgain, ((s.coll h).source n).pend = false) →
      exec .eoh s = .next (journaled (fun _ => s.modHubOf h (fun u => { u with
        coll := { u.coll with nmiBusy := false, nmiAgain := [] } })) s)) ∧
    (∀ n, (s.coll h).nmiAgain = [n] → ((s.coll h).source n).pend = true →
      bitOf (s.reactions n ((s.coll h).source n).cls) 1 = true → (s.coreAt h 1).state = .running →
      exec .eoh s = .next (journaled (fun _ => (s.modHubOf h (fun u => { u with
        coll := { u.coll with nmiBusy := true, nmiAgain := [], nmiSrc := n } })).emit (.nmi n)) s))

/-- The gate tree: a node with no open child, at rest and not in use closes; a node under an open parent opens, and hardware opens
it with its closed ancestors; every other node stays, and the host sees the result: 1 an open child, 2 a closed parent, 3 busy,
4 in use (R452, R453, R466). A host that may not, or a node that is not there, changes no gate. -/
def Obligations.GatesFollowTree : Prop :=
  ∀ (s : State) (kind : Fin 8) (i : Nat) (who : GateAsker), s.gateAsked who = true →
    (s.gateRefused kind i who = none →
      ((∀ p ∈ gateChildren kind i, s.gateClosed p.1 p.2 = true) → s.gateInUse kind i = false →
        ∃ t, exec (.gateClose kind i who false) s = .next t ∧ t.gateClosed kind i = true ∧
          (who = .host → t.setup.gateRes = 0 ∧ bitOf (clockReg t 0x100C) 3 = false) ∧
          (∀ k j, gateNode k j = true → (k, j) ≠ (kind.val, i) → t.gateClosed k j = s.gateClosed k j)) ∧
      ((∃ p ∈ gateChildren kind i, s.gateClosed p.1 p.2 = false) →
        exec (.gateClose kind i who false) s = .next (gateAnswer 0 kind i who 1 s)) ∧
      ((∀ p, gateParent kind i = some p → s.gateClosed p.1 p.2 = false) → who ≠ .hardware →
        ∃ t, exec (.gateOpen kind i who false) s = .next t ∧ t.gateClosed kind i = false ∧
          (who = .host → t.setup.gateRes = 0 ∧ bitOf (clockReg t 0x100C) 3 = true) ∧
          (∀ k j, gateNode k j = true → (k, j) ≠ (kind.val, i) → t.gateClosed k j = s.gateClosed k j)) ∧
      ((∀ p ∈ gateChildren kind i, s.gateClosed p.1 p.2 = true) →
        exec (.gateClose kind i who true) s = .next (gateAnswer 0 kind i who 3 s) ∧
        (s.gateInUse kind i = true → exec (.gateClose kind i who false) s = .next (gateAnswer 0 kind i who 4 s))) ∧
      ((∃ p, gateParent kind i = some p ∧ s.gateClosed p.1 p.2 = true) → who ≠ .hardware → ∀ busy,
        exec (.gateOpen kind i who busy) s = .next (gateAnswer 1 kind i who 2 s)) ∧
      ((∀ p, gateParent kind i = some p → s.gateClosed p.1 p.2 = false) →
        exec (.gateOpen kind i who true) s = .next (gateAnswer 1 kind i who 3 s)) ∧
      (∃ t, exec (.gateOpen kind i .hardware false) s = .next t ∧ (∀ p ∈ gatePath kind i, t.gateClosed p.1 p.2 = false) ∧
        ∀ k j, gateNode k j = true → (k, j) ∉ gatePath kind i → t.gateClosed k j = s.gateClosed k j) ∧
      exec (.gateQuery kind i who) s = .next (gateAnswer 2 kind i who 0 s)) ∧
    (∀ e, s.gateRefused kind i who = some e →
      (∀ busy, exec (.gateClose kind i who busy) s = .next (gateAnswer 0 kind i who e s) ∧
        exec (.gateOpen kind i who busy) s = .next (gateAnswer 1 kind i who e s)) ∧
      exec (.gateQuery kind i who) s = .next (gateAnswer 2 kind i who e s))

/-- The emergency cap: the first source to assert brings it into force: one entry is counted, the emergency cap path of the hub
whose pin it is, once that hub senses it, or of both hubs for the register bit, broadcasts the presets at once, vector 12 signals; with the last source gone it ends and the restoration waits; the region caps themselves change at the
governors (R257, R320). -/
def Obligations.EmergencyCapFollowsSources : Prop :=
  ∀ (s : State) (c : Instr) (f : Ecap → Ecap) (paths : List Hub),
    (c = .hardSet ∧ f = (fun e => { e with hard := true }) ∧ paths = [.a, .b] ∧ s.pow.regOpen = true) ∨
      (c = .ecapNAssert .a ∧ f = (fun e => { e with pinA := true }) ∧ paths = [.a] ∧ s.ecapSensed .a = true) ∨
      (c = .ecapNAssert .b ∧ f = (fun e => { e with pinB := true }) ∧ paths = [.b] ∧ s.ecapSensed .b = true) ∨
      (c = .hardClear ∧ f = (fun e => { e with hard := false }) ∧ paths = [.a, .b] ∧ s.pow.regOpen = true) ∨
      (c = .ecapNRelease .a ∧ f = (fun e => { e with pinA := false }) ∧ paths = [.a] ∧ s.ecapSensed .a = true) ∨
      (c = .ecapNRelease .b ∧ f = (fun e => { e with pinB := false }) ∧ paths = [.b] ∧ s.ecapSensed .b = true) →
    ∃ t, exec c s = .next t ∧ t.regions = s.regions ∧ t.govs = s.govs ∧ t.clk = s.clk ∧
      ((f s.hub.ecap).any = true → s.hub.ecap.active = false →
        t.hub.ecap = { f s.hub.ecap with active := true, restore := false, entries := satAdd 0xFFFF s.hub.ecap.entries 1 } ∧
        (∀ h ∈ paths, ∃ x : Head, x.src = nodeHub h ∧ x.dst = 0xFFFF ∧
          Effect.msg (.ecap ((List.range 64).map (fun r => s.cfg (offPreset r) 0 12))) x ∈ t.out) ∧ Leaves t (.msix 12)) ∧
      ((f s.hub.ecap).any = false → s.hub.ecap.active = true →
        t.hub.ecap = { f s.hub.ecap with active := false, restore := true } ∧ Leaves t (.msix 12)) ∧
      ((f s.hub.ecap).any = s.hub.ecap.active → t.hub.ecap = f s.hub.ecap ∧ t.out = s.out)

/-- A hub core takes the mirrored slot whose doorbell rang first of those it serves, and refuses a message its slot does not
carry; PING, EVX_FLUSH, CORE_STATE and STALL_NEXT are acknowledged with the result that R337 gives (R331, R334, R337). -/
def Obligations.HostMessagesAreAnswered : Prop :=
  ∀ (s : State),
    (∀ (h : Hub) (n : Fin 3) (k : Nat), s.owner = some h → s.inControl = true → (s.ownerCore n).state = .running →
      firstPosted s.hub.mb.slots (fun j x => servedBy j == n.val && x.mirrored) = some k →
      (hostMsgDefined (s.slot k).msgCode = true → hostMsgServed (s.slot k).msgCode k = true →
        exec (.slotTake (.hub h n)) s = .next (journaled (fun _ => s.modSlot k (fun x => { x with state := .taken })) s)) ∧
      (hostMsgDefined (s.slot k).msgCode = false →
        ∃ t, exec (.slotTake (.hub h n)) s = .next t ∧ MbAcked s t k codeBadArg 0xE0 0) ∧
      (hostMsgDefined (s.slot k).msgCode = true → hostMsgServed (s.slot k).msgCode k = false →
        ∃ t, exec (.slotTake (.hub h n)) s = .next t ∧ MbAcked s t k codeBadArg 0xE1 0)) ∧
    (∀ k : SlotId, Serves s k 1 → ∃ t, exec (.ping k) s = .next t ∧ t.hub.recorder = s.hub.recorder ∧
      MbAcked s t k codeOk 0 (((s.ownerCore (servedBy k)).image.map FwImage.version).getD 0)) ∧
    (∀ k : SlotId, Serves s k 2 → ∃ t, exec (.evxFlush k) s = .next t ∧ MbAcked s t k codeOk 0 0 ∧
      t.hub.recorder.flush = true ∧ t.hub.recorder.openRec = false ∧ t.hub.recorder.exported = s.hub.recorder.exported ∧
      t.hub.recorder.recs.map Rec.seq = s.hub.recorder.recs.map Rec.seq) ∧
    (∀ k : SlotId, Serves s k 3 → byteAt (s.slot k).msg 4 ≤ 2 → ∃ t, exec (.coreState k) s = .next t ∧
      t.hub.recorder = s.hub.recorder ∧
      (byteAt (s.slot k).msg 4 = servedBy k → MbAcked s t k codeBadArg 0xE2 0) ∧
      (byteAt (s.slot k).msg 4 ≠ servedBy k → MbAcked s t k codeOk 0 (BitVec.ofNat 32
        (4 * min (s.ownerCore (byteAt (s.slot k).msg 4)).restarts 0x3FFFFFFF +
          coreStateCode (s.ownerCore (byteAt (s.slot k).msg 4)).state)))) ∧
    (∀ k : SlotId, Serves s k 4 → ∃ t r, exec (.stallNext k) s = .next t ∧ t.hub.recorder = s.hub.recorder ∧
      MbAcked s t k codeOk 0 (BitVec.ofNat 32 r) ∧ (∀ c ∈ s.hub.stalls, leAt (s.slot k).msg 4 4 ≤ c → r ≤ c) ∧
      ((r ∈ s.hub.stalls ∧ leAt (s.slot k).msg 4 4 ≤ r) ∨
        (r = 0xFFFFFFFF ∧ ∀ c ∈ s.hub.stalls, c < leAt (s.slot k).msg 4 4)))

/-- A Chive's core takes its slots in doorbell order, and refuses a message of no code that R341 lists; PING, AGE_READ,
DILL_SWEEP, PAIR_WINDOW and COUNTERS are acknowledged with the result that R341 gives, an acknowledgement after a forced cancel is
counted; a reading of 0 taps exhausts the region's margin, one that the stopped engine clock leaves STALE raises its
corrected fault and blocks margin recovery; a sweep's difference within ±4 mV is added to the offset, a larger one
fails the Dill and holds the cluster (R78, R87, R92, R213, R216, R331, R335, R341). -/
def Obligations.ChiveMessagesAreAnswered : Prop :=
  ∀ (s : State) (c : ClusterId) (k : SlotId),
    (firstPosted (s.cluster c).slots (fun _ _ => true) = some k.val → (s.cluster c).core.state = .running →
      (s.cluster c).ctl.spared = false → ¬ ((s.cluster c).gcClosed = true ∧ s.rowClosed c = true) →
      chiveMsgDefined ((s.cluster c).slot k).msgCode = true → ∃ t, exec (.slotTake (.chive c)) s = .next t ∧
        (t.cluster c).slots = (s.cluster c).slots.modify k (fun x => { x with state := .taken }) ∧
        (t.cluster c).gcClosed = false ∧ t.out = s.out ∧
        ∀ d, d ≠ c.val → t.cluster d = s.cluster d) ∧
    (firstPosted (s.cluster c).slots (fun _ _ => true) = some k.val → (s.cluster c).core.state = .running →
      (s.cluster c).ctl.spared = false → ¬ ((s.cluster c).gcClosed = true ∧ s.rowClosed c = true) →
      chiveMsgDefined ((s.cluster c).slot k).msgCode = false → ∃ t, exec (.slotTake (.chive c)) s = .next t ∧
        (t.cluster c).slots = (s.cluster c).slots.modify k (Slot.ack codeBadArg 0xE0 0) ∧
        Spoken t (.chiveAck c k (BitVec.ofNat 8 codeBadArg) 0)) ∧
    (((s.cluster c).slot k).state = .done → ((s.cluster c).slot k).cancel = true → ((s.cluster c).slot k).msgCode = 0x01 →
      (s.cluster c).core.state = .running → ∃ t, exec (.chivePing c k) s = .next t ∧
        t.gov (regionOf c) = { s.gov (regionOf c) with lateAck := satAdd 0xFF (s.gov (regionOf c)).lateAck 1 } ∧
        t.out = s.out ∧ (t.cluster c).slot k = { (s.cluster c).slot k with cancel := false }) ∧
    (ChiveServes s c k 0x01 → exec (.chivePing c k) s = .next (s.chiveAcked c k codeOk
      (((if (s.cluster c).core.bank then s.hub.fw.chive1 else s.hub.fw.chive0).map FwImage.version).getD 0))) ∧
    (∀ taps : Fin 65, ChiveServes s c k 0x10 → (s.gov (regionOf c)).engine = true →
      let t := (s.modCluster c (fun u => { u with ageTaps := taps, ageStatus := .valid })).chiveAcked c k codeOk
        (BitVec.ofNat 32 taps)
      ((taps ≠ 0 ∨ (s.cluster c).ctl.spared = true ∨ s.inControl = false) →
        exec (.ageRead c k taps) s = .next (journaled (fun _ => t) s)) ∧
      (taps = 0 → (s.cluster c).ctl.spared = false → s.inControl = true →
        exec (.ageRead c k taps) s = .next (journaled (fun _ => exportTrims (exhaust (regionOf c) t)) s))) ∧
    (∀ taps : Fin 65, ChiveServes s c k 0x10 → (s.gov (regionOf c)).engine = false →
      let t := s.modCluster c (fun u => { u with ageStatus := .stale })
      exec (.ageRead c k taps) s = .next (journaled (fun _ =>
        (if (s.cluster c).ctl.spared then t
          else (t.modRegion (regionOf c) (Region.stick 3)).raiseRoll (regionOf c) 1 4).chiveAcked c k codeOk
          (BitVec.ofNat 32 ((s.cluster c).ageTaps + 256 * statusCode .stale))) s)) ∧
    (∀ diff : Int, ChiveServes s c k 0x11 → diff.natAbs ≤ 4 → exec (.dillSweep c k diff) s = .next
      ((s.modCluster c (fun u => { u with dill := { u.dill with
        offset := u.dill.offset + diff, sweeping := false, status := .valid
        recovering := u.dill.recovering || decide (u.dill.status ≠ .valid) } })).chiveAcked c k codeOk (BitVec.ofInt 32 diff))) ∧
    (∀ diff : Int, ChiveServes s c k 0x11 → 4 < diff.natAbs → (s.gov (regionOf c)).engine = true →
      (s.cluster c).ctl.spared = false → ∃ t, exec (.dillSweep c k diff) s = .next t ∧
        (t.cluster c).dill = { (s.cluster c).dill with sweeping := false, status := .failed, recovering := false, holding := true } ∧
        .limiterWord (regionOf c) (clusterWord (localOf c) 3 0 0 true) ∈ t.out ∧
        ((t.cluster c).slot k).state = .done ∧ Spoken t (.chiveAck c k 0 (BitVec.ofNat 32 (0x10000 * statusCode .failed)))) ∧
    (ChiveServes s c k 0x12 → exec (.pairWindow c k) s = .next (s.chiveAcked c k codeOk (BitVec.ofInt 32 (s.cluster c).tp.drift))) ∧
    (ChiveServes s c k 0x20 → byteAt ((s.cluster c).slot k).msg 4 = 0 → exec (.counters c k) s = .next (s.chiveAcked c k codeOk
      (BitVec.ofNat 32 (min (s.cluster c).strayMarks 0xFFFF + 65536 * (s.cluster c).lates)))) ∧
    (ChiveServes s c k 0x20 → byteAt ((s.cluster c).slot k).msg 4 = 1 → exec (.counters c k) s = .next
      ((s.modCluster c (fun u => { u with dill := { u.dill with readTrips := 0, readWarns := 0 } })).chiveAcked c k codeOk
        (BitVec.ofNat 32 ((s.cluster c).dill.readTrips + 65536 * (s.cluster c).dill.readWarns)))) ∧
    (ChiveServes s c k 0x20 → 2 ≤ byteAt ((s.cluster c).slot k).msg 4 → ∃ d, exec (.counters c k) s = .next
      (chiveAck c k codeBadArg d 0 s).nextFree)

/-- Multicasts: the hub opens one and posts it to every region it names, or holds it while 8 are open or its slot is in use
(notes/assumptions/57.md); a post puts the message into the empty slot of every named Chive in service that holds its epoch;
summaries carry the region's counts, on request, at every MB_WARN periods, and for the last time when no target is left; the hub
closes one with the last region's final summary and raises a fault that names the lowest waiting cluster of one that is late
(R19, R330, R342–R346). Spare-out holds the cluster at code 0,
from the first step on where the engine clock is stopped, out of service and out of its neighbours' droop wires, and cancels its
mailbox (R26, R33, R345). The stall set follows the taps (R347, R348). -/
def Obligations.MulticastsAndServiceOfClusters : Prop :=
  ∀ (s : State) (r : RegionId) (c : ClusterId) (hdr : MsgHdr) (k : SlotId),
    let sum (m : RMulti) (fin asked : Bool) : Msg := .summary r m.slot m.okCnt m.other.length m.cancelled m.waiting.length
      m.other.min? m.waiting.min? fin asked
    (∀ (p : Posts) (msg : List Byte), s.inControl = true →
      (∀ m ∈ s.hub.multis, m.slot = k.val → r.val ∉ m.due) →
      let posts := (r.val, p.mask) :: p.others.map (fun p => (p.1.val, p.2))
      let m : Multi := { slot := k, msg := msg, posts := posts, due := posts.map Prod.fst, waiting := posts.map Prod.fst }
      ((posts.map Prod.fst).Nodup → s.hub.multis.length < 8 → (∀ x ∈ s.hub.multis, x.slot ≠ k.val) →
        ∃ t, exec (.multicastPost r hdr k p msg) s = .next t ∧ (∀ p ∈ posts, Said t (.post p.1 k p.2 msg)) ∧
          ∃ y, t.hub.multis = s.hub.multis ++ [y] ∧ y.slot = k.val ∧ y.waiting = posts.map Prod.fst) ∧
      ((8 ≤ s.hub.multis.length ∨ ∃ x ∈ s.hub.multis, x.slot = k.val) →
        exec (.multicastPost r hdr k p msg) s = .next (journaled (fun _ =>
          s.modHub (fun h => { h with heldMultis := h.heldMultis ++ [m] })) s))) ∧
    (∀ (p : Posts) (msg : List Byte), Accepted s r 0x50 hdr →
      (∃ m ∈ s.hub.multis, m.slot = k.val ∧ r.val ∈ m.due) → (∀ m, (s.region r).multi k = some m → m.ended = true) →
      ∃ t, exec (.multicastPost r hdr k p msg) s = .next t ∧
      ∀ l : Fin 576, let u := (s.region r).clusters.get l
        (p.mask.getLsbD l = true → u.ctl.spared = false → Spoken t (.chivePost (576 * r + l) k)) ∧
        if p.mask.getLsbD l = true ∧ u.ctl.spared = false ∧ u.epoch = hdr.epoch ∧ (u.slot k).state = .empty then
          ((t.region r).clusters.get l).slot k =
            { state := .posted, msg := padTo 16 msg, mirrored := true, turn := u.slotTurn }
        else ((t.region r).clusters.get l).slot k = u.slot k) ∧
    (∀ m, (s.region r).multi k = some m → s.cfg 0x9000 0 16 ≤ m.age → m.waiting ≠ [] →
      exec (.interimSummary r k) s = .next ((s.modRegion r (fun g => { g with
        multis := g.multis.map (fun x => if x.slot = k.val then { x with age := 0 } else x) })).send (sum m false false))) ∧
    (∀ m, (s.region r).multi k = some m → Accepted s r 0x52 hdr →
      exec (.summaryRequest r hdr k) s = .next ((s.noted r 0x52 hdr).send (sum m m.ended true))) ∧
    (∀ m, (s.region (regionOf c)).multi k = some m → PeerAccepted s (regionOf c) 0x51 hdr → localOf c ∈ m.waiting →
      m.ended = false →
      ∀ code : Byte, ∃ t, exec (.chiveAcknowledgement c hdr k code) s = .next t ∧
        ((t.cluster c).slot k).state = .empty ∧
        let m' : RMulti := { m with
          waiting := m.waiting.filter (fun x => x != localOf c)
          okCnt := if code = 0 then m.okCnt + 1 else m.okCnt
          other := if code = 0 then m.other else m.other ++ [localOf c] }
        if m'.waiting = [] then (t.region (regionOf c)).multi k = some { m' with ended := true } ∧
            ∃ x, t.out = s.out ++ [.msg (.summary (regionOf c) k m'.okCnt m'.other.length m'.cancelled 0 m'.other.min? none true false) x]
          else (t.region (regionOf c)).multi k = some m' ∧ t.out = s.out) ∧
    (∀ (x : Summary) (ok : Bool) (m : Multi), Heard s 0x53 hdr → s.hub.multis.find? (fun m => m.slot == x.slot.val) = some m →
      ∃ t, exec (.multicastSummary r hdr x ok) s = .next t ∧
        (x.final = true → m.waiting = [r.val] → s.hub.heldMultis = [] → ∀ y ∈ t.hub.multis, y.slot ≠ x.slot.val) ∧
        (x.final = false → 0 < x.waiting → m.raised = false → (∀ a ∈ s.await, a.msg ≠ .summaryRequest r x.slot) →
          ∀ l, x.lowestWait = some l → { src := 196, cause := 0, arg := 576 * r + l % 576 } ∈ t.events ∧
            (ok = false → s.inControl = true → (t.cluster (576 * r + l % 576)).ctl.spared = true))) ∧
    (s.inControl = true → (s.cluster c).ctl.spared = false → ∃ t, exec (.spareOut c) s = .next t ∧
      (t.cluster c).ctl.spared = true ∧ (t.cluster c).dill.asserted = false ∧
      (∀ j, ((t.cluster c).limiters.get j).e = (if (s.gov (regionOf c)).engine then 0 else ((s.cluster c).limiters.get j).e) ∧
        ((t.cluster c).limiters.get j).t = 0) ∧
      (∀ d n, d < 8 → neighbour c d = some n → bitOf (t.cluster n).droopMask.toNat (opposite d) = true) ∧
      (∀ j, (((s.cluster c).slot j).state = .posted ∨ ((s.cluster c).slot j).state = .taken) →
        ((t.cluster c).slot j).state = .done ∧ ((t.cluster c).slot j).code = BitVec.ofNat 8 codeCancelled)) ∧
    ((s.cluster c).tap.suspect = false → s.cfg 0x9000 16 14 ≤ (s.cluster c).tap.suspTicks → s.inControl = true →
      Heard s 0x50 hdr → ∃ t, exec (.stallSuspect ⟨c, hdr⟩) s = .next t ∧ (t.cluster c).tap = { (s.cluster c).tap with suspect := true, clearDue := false } ∧
        c.val ∈ t.hub.stalls ∧ Spoken t (.stall c false) ∧
        t.hub.recorder = (s.record 0x28 1 0 c (s.cluster c).tap.step).hub.recorder) ∧
    ((s.cluster c).tap.suspect = true → (s.cluster c).tap.clearDue = true → s.inControl = true → c.val ∈ s.hub.stalls →
      Heard s 0x51 hdr → ∃ t, exec (.stallClear ⟨c, hdr⟩) s = .next t ∧ (t.cluster c).tap = { (s.cluster c).tap with suspect := false, clearDue := false } ∧
        c.val ∉ t.hub.stalls ∧ Spoken t (.stall c true) ∧
        t.hub.recorder = (s.record 0x29 1 0 c (s.cluster c).tap.step).hub.recorder)

/-- Messages of the pair: a good heartbeat ends the silence and makes the role changes of R381, R399 and R400, a bad one does
not count; a governor adopts a claim of a higher epoch and answers, answers probes with its epoch, and counts a stale claim; the
last reply to a claim puts the hub in control, the last to a probe makes the pair DEGRADED, a higher epoch in either fences the hub it
reaches; a message without its reply that has left is sent once more, with RESEND and the SEQ it had, then a fault, and a stage or a model load that waited
for it fails (notes/assumptions/31.md; R329, R370, R381, R384, R387, R390, R392, R394, R397–R399). -/
def Obligations.PairMessagesAct : Prop :=
  ∀ (s : State) (h : Hub) (r : RegionId) (hdr : MsgHdr),
    (∀ (p : HbPath) (x : Beat), BeatCounts s p x → ((s.hubOf h).role = .valid ∨ (s.hubOf h).role = .resyncing) →
      let b := beatSaid p x
      ∃ t, exec (.heartbeat h p x) s = .next t ∧ (t.hubOf h).silentHb = 0 ∧
        (p = .mirror → (t.hubOf h).silentMir = 0) ∧ (p = .mgmt → (t.hubOf h).silentMgmt = 0) ∧
        (t.hubOf h).epoch = (if b.role = 0 ∧ b.epoch ≠ 0 then b.epoch else (s.hubOf h).epoch) ∧
        (t.hubOf h).role = (if b.drop then .resyncing else (s.hubOf h).role) ∧
        t.pair.handStep = (if (s.hubOf h).role = .valid ∧ b.drop = false ∧ b.yield = true ∧ b.role = 0 ∧ s.pair.handStep = 3
          then 4 else s.pair.handStep)) ∧
    (∀ b : Beat, BeatCounts s .mirror b → (s.hubOf h).role = .fenced → b.role = 0 →
      ∃ t, exec (.heartbeat h .mirror b) s = .next t ∧
        if 19 ≤ (s.hubOf h).goodRun then (t.hubOf h).role = .resyncing ∧ (t.hubOf h).epoch = b.epoch
        else (t.hubOf h).role = .fenced ∧ (t.hubOf h).goodRun = (s.hubOf h).goodRun + 1) ∧
    (∀ (p : HbPath) (x : Beat), BeatCounts s p x → s.owner = some h →
      let b := beatSaid p x
      (epochHigher b.epoch (s.hubOf h).epoch = true → ∃ t, exec (.heartbeat h p x) s = .next t ∧
        (t.hubOf h).role = .fenced ∧ t.pair.heldEff = [] ∧ (p = .mgmt → t.out = s.out)) ∧
      (epochHigher b.epoch (s.hubOf h).epoch = false → b.role = 1 → s.pair.paired = true → s.pair.degraded = false →
        ∃ t, exec (.heartbeat h p x) s = .next t ∧ t.pair.degraded = true ∧ t.pair.paired = false ∧
          (∀ x ∈ s.pair.heldEff, x.2 ∈ t.out) ∧ { src := 201, cause := 1 } ∈ t.events)) ∧
    (∀ b : Beat, b.hdr.good = false → exec (.heartbeat h .mgmt b) s = .next
      { s with events := s.events ++ [{ src := 195, cause := 0 }] }) ∧
    (∀ b : Beat, s.pair.linkUp = true → 8 < b.wrong → exec (.heartbeat h .mirror b) s = .next
      ({ s with pair := { s.pair with badBlk := satAdd 0xFF s.pair.badBlk 1 } }.modHubOf h (fun u => { u with goodRun := 0 }))) ∧
    (∀ b : Beat, s.pair.linkUp = false → exec (.heartbeat h .mirror b) s = .next s) ∧
    (hdr.good = true → epochHigher hdr.epoch (s.gov r).epoch = true → exec (.claim r hdr) s = .next
      ((((s.modGov r (fun g => { g with epoch := hdr.epoch })).send (.epochToChives r hdr.epoch)).modRegion r (fun g =>
        g.modClusters (fun u => { u with epoch := hdr.epoch }))).send (.claimReply r hdr.epoch))) ∧
    (hdr.good = true → epochHigher hdr.epoch (s.gov r).epoch = false → hdr.epoch = (s.gov r).epoch →
      exec (.claim r hdr) s = .next (s.send (.claimReply r hdr.epoch))) ∧
    (hdr.good = true → epochHigher hdr.epoch (s.gov r).epoch = false → hdr.epoch ≠ (s.gov r).epoch → exec (.claim r hdr) s = .next
      (s.modGov r (fun g => { g with staleCnt := satAdd 0xFFF g.staleCnt 1 }))) ∧
    (∀ k : Hub, s.owner = some k → Heard s 0x70 hdr → hdr.epoch = s.epoch → r.val ∈ s.pair.claims →
      ∃ t, exec (.claimReply r hdr) s = .next t ∧
      t.pair.claims = s.pair.claims.filter (fun j => j != r.val) ∧
      ((∀ j ∈ s.pair.claims, j = r.val) → t.pair.gap = 0 ∧ ∀ w, (t.coll w).recovery = false)) ∧
    (∀ k : Hub, s.owner = some k → hdr.good = true → s.staleOwner = none → epochHigher hdr.epoch s.epoch = true →
      ∀ c : Instr, c = .claimReply r hdr ∨ c = .epochProbeReply r hdr →
      ∃ t, exec c s = .next t ∧ (t.hubOf k).role = .fenced ∧ t.pair.heldEff = [] ∧ t.pair.claims = [] ∧ t.out = s.out) ∧
    (∀ k : Hub, s.staleOwner = some k → hdr.good = true → hdr.dst = nodeHub k → epochHigher hdr.epoch (s.hubOf k).epoch = true →
      ∀ c : Instr, c = .claimReply r hdr ∨ c = .epochProbeReply r hdr →
      ∃ t, exec c s = .next t ∧ (t.hubOf k).role = .fenced ∧ t.hub = s.hub ∧ t.out = s.out) ∧
    (hdr.good = true → exec (.epochProbe r hdr) s = .next (s.sendAs (nodeGov r) hdr.src (.probeReply r (s.gov r).epoch))) ∧
    (∀ k : Hub, s.owner = some k → Heard s 0x71 hdr → hdr.epoch = s.epoch → s.pair.probing = true → r.val ∈ s.pair.probes →
      s.pair.degraded = false → ∃ t, exec (.epochProbeReply r hdr) s = .next t ∧
        ((∃ j ∈ s.pair.probes, j ≠ r.val) → t.pair = { s.pair with probes := s.pair.probes.filter (fun j => j != r.val) }) ∧
        ((∀ j ∈ s.pair.probes, j = r.val) → t.pair.degraded = true ∧ t.pair.paired = false ∧ t.pair.probing = false ∧
          (∀ x ∈ s.pair.heldEff, x.2 ∈ t.out) ∧ { src := 201, cause := 1 } ∈ t.events)) ∧
    (∀ (e : Ends) (seq : Nat) (m : Await), s.await.find? (fun m => m.src == e.src && m.dst == e.dst && m.seq == seq) = some m →
      (s.heldMsg e seq = true → exec (.messageResend e seq) s = .next (journaled (fun _ => s) s)) ∧
      (s.heldMsg e seq = false →
      (m.resent = false → ∃ x : Head, x.resend = true ∧ x.seq = m.seq ∧ x.src = m.src ∧ x.dst = m.dst ∧
        exec (.messageResend e seq) s = .next { s with
          await := s.await.map (fun x => if x = m then { x with resent := true } else x), out := s.out ++ [.msg m.msg x] }) ∧
      (m.resent = true → (∀ k, m.msg ≠ .fwCode k) → (∀ k n, m.msg ≠ .modelImage k n) → (∀ k p, m.msg ≠ .modelSwitch k p) →
        exec (.messageResend e seq) s = .next
          { s with await := s.await.erase m, events := s.events ++ [{ src := 195, cause := 1 }] }) ∧
      (m.resent = true → ((∃ n, m.msg = .modelImage r n) ∨ ∃ p, m.msg = .modelSwitch r p) → ∀ l, s.loadOf r = some l →
        ∃ t, exec (.messageResend e seq) s = .next t ∧ { src := 195, cause := 1 } ∈ t.events ∧
          t.hub.rings = (s.complete l.cmd codeBadArg 3).hub.rings ∧
          ∀ k ∈ onesOf 64 l.mask.toNat, (t.region k).sage.model = .none) ∧
      (m.resent = true → m.msg = .fwCode r → s.secHalted = false → ∀ c, s.hub.fw.stageCmd = some c →
        ∃ t, exec (.messageResend e seq) s = .next t ∧ { src := 195, cause := 1 } ∈ t.events ∧
          t.hub.rings = (s.complete c codeBadArg 0xB6).hub.rings ∧ t.stagedOf 3 = none)))

/-- Caps and models between hub and governors: a governor keeps a cap, and an emergency preset, the lower of two, for its next
boundary; an acknowledgement of the lowered cap ends the lowering and, the last of them, sends the raises while the loop runs, one
of an earlier, higher cap does not; a region silent for 4 wafer periods is counted at its last cap with a fault, with another
where its PMBus master is left without command (R20, R22, R47–R49, R56, R189, R191). A model's bytes are stored and checked, the
last good report sets the switch period, which a governor that hears of it too late lets go by, another reason ends the load, the
last acknowledgement completes it (R118). -/
def Obligations.CapAndModelMessagesAct : Prop :=
  ∀ (s : State) (r : RegionId) (hdr : MsgHdr),
    (∀ (cap : Nat) (clear : Bool), Accepted s r 0x40 hdr → exec (.capMessage r hdr cap clear) s = .next
      ((s.noted r 0x40 hdr).modRegion r (fun g => { g with caps := { g.caps with
        waiting := some (cap, clear || (g.caps.waiting.map Prod.snd).getD false), ecap := g.caps.ecap && s.hub.ecap.active } }))) ∧
    (∀ cap : Nat, Heard s 0x41 hdr → ∃ t, exec (.capAcknowledgement r hdr cap) s = .next t ∧
      (t.region r).caps = { (s.region r).caps with
        lastAck := if (s.region r).emergency then min cap (s.region r).caps.lastAck else cap } ∧
      ((∃ p ∈ s.hub.budget.lowering, p.1 = r.val ∧ p.2.1 < cap) → t.hub.budget.lowering = s.hub.budget.lowering ∧
        t.hub.budget.silent = s.hub.budget.silent ∧ t.hub.budget.raising = s.hub.budget.raising) ∧
      ((∀ p ∈ s.hub.budget.lowering, p.1 = r.val → cap ≤ p.2.1) →
        t.hub.budget.lowering = s.hub.budget.lowering.filter (fun p => p.1 != r.val) ∧
        t.hub.budget.silent = s.hub.budget.silent.filter (fun k => k != r.val) ∧
        ((∀ p ∈ s.hub.budget.lowering, p.1 = r.val) → s.loopRuns = true → (∀ k, (s.gov k).safe = false) →
          t.hub.budget.raising = [] ∧ ∀ p ∈ s.hub.budget.raising, Said t (.cap p.1 p.2.1 p.2.2)))) ∧
    (∀ preset : Nat, hdr.goodTo true = true → ∃ t, exec (.emergencyCapBroadcast r hdr preset) s = .next t ∧
      (t.region r).caps = { (s.region r).caps with
        ecap := true, ecapWait := some (((s.region r).caps.ecapWait.map (fun p => min p preset)).getD preset) } ∧
      (t.region r).spec.state ≠ .standing ∧ (t.region r).sp.vc = (s.region r).sp.vc) ∧
    (s.inControl = true → (∃ p ∈ s.hub.budget.lowering, p.1 = r.val ∧ 4 ≤ p.2.2) →
      ∃ t, exec (.childUnacknowledged r) s = .next t ∧ r.val ∈ t.hub.budget.silent ∧ { src := 206, cause := 0 } ∈ t.events ∧
        (r.val ∈ pmbusCorners → r.val ∉ s.hub.budget.mute → { src := 206, cause := 1 } ∈ t.events) ∧
        t.hub.budget.lowering = s.hub.budget.lowering.filter (fun p => p.1 != r.val) ∧ t.regions = s.regions) ∧
    (∀ (off : Nat) (bytes : List Byte) (last : Bool), Accepted s r 0x20 hdr →
      ∃ t, exec (.modelImage r hdr off bytes last) s = .next t ∧
        let buf := padTo off (s.region r).sage.loadBuf ++ bytes
        (t.region r).sage = { (s.region r).sage with loadBuf := buf } ∧
        (if last then ∃ x, t.out = s.out ++ [.msg (.modelReport r (governorReason buf)) x] else t.out = s.out)) ∧
    (∀ p : BitVec 48, Accepted s r 0x22 hdr →
      (s.period.toNat < p.toNat → exec (.modelSwitch r hdr p) s = .next
        ((s.noted r 0x22 hdr).modRegion r (fun g => { g with sage := { g.sage with switchAt := some p } }))) ∧
      (p.toNat ≤ s.period.toNat → exec (.modelSwitch r hdr p) s = .next (s.noted r 0x22 hdr))) ∧
    (∀ l : ModelLoad, s.loadOf r = some l → s.hub.loads = [l] →
      (∀ reason : Nat, Heard s 0x21 hdr → r.val ∉ l.reports → l.switchP = none →
        ∃ t, exec (.modelCheckReport r hdr reason) s = .next t ∧
          (reason = 0 → (∃ k ∈ onesOf 64 l.mask.toNat, k ≠ r.val ∧ k ∉ l.reports) →
            t.hub.loads = [{ l with reports := l.reports ++ [r.val] }] ∧ t.hub.rings = s.hub.rings) ∧
          (reason = 0 → (∀ k ∈ onesOf 64 l.mask.toNat, k = r.val ∨ k ∈ l.reports) →
            t.hub.loads = [{ l with reports := l.reports ++ [r.val], switchP := some (s.period + 4) }] ∧
            ∀ k ∈ onesOf 64 l.mask.toNat, Said t (.modelSwitch k (s.period + 4))) ∧
          (reason = 3 → r.val ∉ l.resent → t.hub.loads = [{ l with resent := l.resent ++ [r.val] }] ∧
            Said t (.modelImage r l.image.length)) ∧
          (reason ≠ 0 → (reason ≠ 3 ∨ r.val ∈ l.resent) → t.hub.loads = [] ∧
            t.hub.rings = (s.complete l.cmd codeBadArg reason).hub.rings ∧
            ∀ k ∈ onesOf 64 l.mask.toNat, (t.region k).sage.model = .none)) ∧
      (Heard s 0x23 hdr → l.switchP.isSome = true → r.val ∉ l.acks →
        ∃ t, exec (.modelSwitchAcknowledgement r hdr) s = .next t ∧
          ((∃ k ∈ onesOf 64 l.mask.toNat, k ≠ r.val ∧ k ∉ l.acks) → t.hub.loads = [{ l with acks := l.acks ++ [r.val] }]) ∧
          ((∀ k ∈ onesOf 64 l.mask.toNat, k = r.val ∨ k ∈ l.acks) → t.hub.loads = [] ∧
            t.hub.rings = (s.complete l.cmd codeOk 0).hub.rings)))

/-- Changes of the pair: a mirror block in order brings the standby up to its last entry, one after a gap does not, and releases at the
owner what is acknowledged; one that its code cannot correct is only counted, and none comes while the link is down; a silent valid standby with PROMOTE_EN claims with the next epoch from its own
image, which an asserted source of the emergency cap brings into force there, any other raises a fatal fault; silences probe, drop or leave VALID; a handover yields once all is acknowledged, and the yielding hub becomes the
valid standby; a complete sweep pairs the hubs again; a lane that retrains comes back (R322, R386–R401, R422, R512).
A handover asked for starts at the next boundary where the other hub is a valid standby of a paired pair; otherwise
HO_REFUSED is set (R400, R404). -/
def Obligations.PairChangesAndHandovers : Prop :=
  (∀ (s : State) (h : Hub),
    (∀ (diff : Bool) (wrong par seq ack : Nat), s.pair.linkUp = false →
      exec (.mirrorBlock h wrong par seq ack diff) s = .next s) ∧
    (∀ (diff : Bool) (wrong par seq ack : Nat), s.pair.linkUp = true → 8 < wrong + par →
      exec (.mirrorBlock h wrong par seq ack diff) s = .next
        { s with pair := { s.pair with badBlk := satAdd 0xFF s.pair.badBlk 1 } }) ∧
    (∀ (wrong par seq ack : Nat), s.pair.linkUp = true → wrong + par ≤ 8 →
      ((s.hubOf h).role = .valid ∨ (s.hubOf h).role = .resyncing) →
      ∃ t, exec (.mirrorBlock h wrong par seq ack false) s = .next t ∧ (t.hubOf h).silentMir = 0 ∧ t.hub = s.hub ∧ t.out = s.out ∧
        t.pair.corrBlk = (if 0 < wrong + par then satAdd 0xFFFF s.pair.corrBlk 1 else s.pair.corrBlk) ∧
        (s.pair.blocks.find? (fun b => b.1 == seq) = none → (t.hubOf h).rxGood = (s.hubOf h).rxGood ∧ t.pair.image = s.pair.image ∧
          (t.hubOf h).rxSeq = if seq = ((s.hubOf h).rxSeq + 1) % 2 ^ 32 then seq else (s.hubOf h).rxSeq) ∧
        ∀ a z, s.pair.blocks.find? (fun b => b.1 == seq) = some (seq, a, z) →
          ((s.hubOf h).rxGood + 1 < a → (t.hubOf h).rxGood = (s.hubOf h).rxGood ∧ (t.hubOf h).rxSeq = (s.hubOf h).rxSeq ∧
            t.pair.image = s.pair.image) ∧
          (a ≤ (s.hubOf h).rxGood + 1 → (t.hubOf h).rxGood = max (s.hubOf h).rxGood z ∧ (t.hubOf h).rxSeq = seq ∧
            ((s.hubOf h).rxGood < z → t.pair.image = s.pair.snapshot z))) ∧
    (∀ (diff : Bool) (wrong par seq ack : Nat), s.pair.linkUp = true → wrong + par ≤ 8 → (s.hubOf h).role = .owner →
      s.pair.paired = true → ∃ t, exec (.mirrorBlock h wrong par seq ack diff) s = .next t ∧
        let n := max s.pair.acked (min (s.pair.ackedBy ack) (s.hubOf h.other).rxGood)
        t.pair.acked = n ∧ (∀ x ∈ s.pair.heldEff, x.1 ≤ n → x.2 ∈ t.out) ∧
          (∀ x ∈ s.pair.heldEff, n < x.1 → x ∈ t.pair.heldEff)) ∧
    ((s.hubOf h).role = .valid → 20 < (s.hubOf h).silentHb → s.cfgBit 0x2000 0 = true → s.owner ≠ some h →
      ∃ t, exec (.promotion h) s = .next t ∧ (t.hubOf h).role = .owner ∧ (t.hubOf h).epoch = nextEpoch (s.hubOf h).epoch ∧
        (t.hubOf h.other).role = (s.hubOf h.other).role ∧ t.hub.groups = s.pair.image.groups ∧
        (s.pair.image.ecap.any = s.pair.image.ecap.active →
          t.hub.thyme = s.pair.image.thyme ∧ t.hub.ecap = s.pair.image.ecap) ∧
        (s.pair.image.ecap.any = true → t.hub.ecap.active = true) ∧
        t.pair.paired = false ∧ t.pair.heldEff = [] ∧ t.pair.claims = List.range 64 ∧ (∀ w, (t.coll w).recovery = true) ∧
        ∀ r : RegionId, Spoken t (.claim r (nextEpoch (s.hubOf h).epoch))) ∧
    ((s.hubOf h).role = .resyncing ∨ ((s.hubOf h).role = .valid ∧ s.cfgBit 0x2000 0 = false) → 20 < (s.hubOf h).silentHb →
      s.owner ≠ some h → (s.hubOf h).fatalSaid = false → exec (.promotion h) s = .next
        ((s.modHubOf h (fun u => { u with fatalSaid := true })).raise 201 2)) ∧
    (s.owner = some h → s.staleOwner = none → 40 < (s.hubOf h).silentHb → s.pair.probing = false →
      ∃ t, exec .standbySilence s = .next t ∧ t.pair = { s.pair with probing := true, probes := List.range 64 } ∧
        ∀ r : RegionId, Spoken t (.probe r)) ∧
    ((s.hubOf h).silentMgmt ≤ 1 → (s.hubOf h).role = .valid → 4 < (s.hubOf h).silentMir →
      ∃ t, exec (.mirrorSilence h) s = .next t ∧ (t.hubOf h).role = .resyncing ∧ 6144 ≤ t.pair.sweepLeft ∧ t.hub = s.hub) ∧
    ((s.hubOf h).silentMgmt ≤ 1 → (s.hubOf h).role = .owner → 8 < (s.hubOf h).silentMir →
      exec (.mirrorSilence h) s = .next (s.modHubOf h (fun u => { u with dropSent := true }))) ∧
    (s.owner = some h → s.pair.handStep = 2 → s.pair.acked = s.pair.jn → exec .handoverYield s = .next
      (sendBeat h s.epoch 0 true false { s with pair := { s.pair with handStep := 3, gap := 0 } })) ∧
    (∀ e : Word, (s.hubOf h).role = .yielding → epochHigher e (s.hubOf h).epoch = true →
      ∃ t, exec (.yieldingHubClaim e) s = .next t ∧ (t.hubOf h).role = .valid ∧ (t.hubOf h).epoch = e) ∧
    (s.standby = some h → (s.hubOf h).role = .resyncing → s.pair.linkUp = true → s.pair.sweepLeft = 0 →
      ∃ t, exec .resyncComplete s = .next t ∧
      (t.hubOf h).role = .valid ∧ (t.hubOf h).epoch = s.epoch ∧ t.pair.paired = true ∧ t.pair.degraded = false ∧
      t.pair.image = t.hub.mirrored ∧ ∀ k, k < 3 → (t.coreAt h k).bank = (s.coreAt h.other k).bank ∧
        (t.coreAt h k).image = (s.coreAt h.other k).image) ∧
    (∀ lane : Fin 4, let m := s.pair.training &&& BitVec.ofNat 4 (2 ^ lane.val)
      exec (.laneRetrainComplete lane) s = .next
        { s with pair := { s.pair with lanes := s.pair.lanes ||| m, training := s.pair.training &&& ~~~m } })) ∧
  (∀ (s : State), s.pow.regOpen = true →
    (s.validStandby.isSome = true → s.pair.handStep = 0 →
      exec .handover s = .next { s with pair := { s.pair with handStep := 1 } }) ∧
    (s.validStandby = none → exec .handover s = .next { s with pair := { s.pair with hoRefused := true } }))

/-- Groups between hub, governors, home and Chives: a slot request takes one of 64 slots for its members, which the
definition's end writes into them, or is refused; one for a slot already held is answered again; a release closes the slot; an arm reaches every member in service and is acknowledged; the home collects acknowledgements,
m_r and laggard summaries, counts laggard steps, and arms a raise after its hold; a step report is judged; a barrier's release
closes the step's counts, reports them and lands an armed code at its step (R270–R277, R281–R283). -/
def Obligations.GroupMessagesAct : Prop :=
  ∀ (s : State) (r : RegionId) (c : ClusterId) (hdr : MsgHdr) (gid : Fin 1024),
    (∀ m : BitVec 576, Accepted s r 0x10 hdr → (s.region r).slot gid = none →
      ∃ t, exec (.groupSlotRequest r hdr gid m) s = .next t ∧
        (if (s.region r).slots.length < 64 then
          (t.region r).slot gid = some { gid := gid, members := onesOf 576 m.toNat } ∧
          (t.region r).clusters = (s.region r).clusters ∧ ∃ h, t.out = s.out ++ [.msg (.slotReply r gid true) h]
        else t.regions = s.regions ∧ ∃ h, t.out = s.out ++ [.msg (.slotReply r gid false) h])) ∧
    (∀ (m : BitVec 576) (x : GSlot), Accepted s r 0x10 hdr → (s.region r).slot gid = some x →
      exec (.groupSlotRequest r hdr gid m) s = .next ((s.noted r 0x10 hdr).send (.slotReply r gid true))) ∧
    (Accepted s r 0x17 hdr → exec (.groupSlotRelease r hdr gid) s = .next ((s.noted r 0x17 hdr).modRegion r (fun g => { g with
      slots := g.slots.map (fun x => if x.gid = gid.val ∧ x.closing = false then { x with closing := true } else x) }))) ∧
    (∀ (x : GSlot) (code : Fin 65) (sT : Word), PeerAccepted s r 0x12 hdr → (s.region r).slot gid = some x →
      ∃ t, exec (.arm r hdr gid code sT) s = .next t ∧ Spoken t (.armAck r gid) ∧
        ∀ l ∈ x.members, let u := s.cluster (576 * r + l)
          (u.ctl.spared = true → t.cluster (576 * r + l) = u) ∧
          (u.ctl.spared = false → reached u.tap.step sT = false → (t.cluster (576 * r + l)).armed = some (code.val, sT) ∧
            (t.cluster (576 * r + l)).grpCode = u.grpCode) ∧
          (u.ctl.spared = false → reached u.tap.step sT = true → (t.cluster (576 * r + l)).armed = none ∧
            (t.cluster (576 * r + l)).grpCode = code.val)) ∧
    (∀ g, s.group gid = some g → gid.val ∈ s.homes.map Prod.fst →
      (PeerAccepted s g.home 0x13 hdr → ∃ t, exec (.armAcknowledgement r hdr gid) s = .next t ∧
        t.home gid = { s.home gid with ackWait := (s.home gid).ackWait.filter (fun k => k != r.val) }) ∧
      (∀ m : Fin 65, PeerAccepted s g.home 0x14 hdr → ∃ t, exec (.mRChange r hdr gid m) s = .next t ∧
        t.home gid = { s.home gid with mRs := (s.home gid).mRs.filter (fun p => p.1 != r.val) ++ [(r.val, m.val)] }) ∧
      (∀ x : LagSum, PeerAccepted s g.home 0x16 hdr → (s.home gid).sumFrom ≠ [] → x.step = (s.home gid).sumStep + 1 →
        ∃ t, exec (.laggardSummary r hdr gid x) s = .next t ∧ (t.home gid).sumStep = x.step ∧ (t.home gid).sumLag = x.lag ∧
          (t.home gid).sumFrom = [r.val] ∧
          (0 < x.lag → (t.home gid).lagRun = (s.home gid).lagRun + 1 ∧ (t.home gid).okRun = 0 ∧
            (t.home gid).harvest = decide (s.cfg 0x8000 8 4 ≤ (s.home gid).lagRun + 1)) ∧
          (x.lag = 0 → g.regions.length = 1 → s.cfg 0x8000 12 4 ≤ (s.home gid).okRun + 1 → (t.home gid).h = 64) ∧
          (x.lag = 0 → g.regions.length = 1 → (s.home gid).okRun + 1 < s.cfg 0x8000 12 4 →
            (t.home gid).okRun = (s.home gid).okRun + 1 ∧ (t.home gid).lagRun = 0 ∧ (t.home gid).h = (s.home gid).h)) ∧
      ((s.home gid).armed = none → (s.home gid).g < (s.home gid).need g → s.cfg 0x8000 24 7 ≤ (s.home gid).raiseRun →
        (s.home gid).relayDue = none → s.armsStop g = false → ∃ t, exec (.raiseHoldElapsed gid) s = .next t ∧
          (t.home gid).armed = some ((s.home gid).need g, s.landing g gid) ∧ (t.home gid).ackWait = g.regions ∧
          (t.home gid).raiseRun = 0 ∧ ∀ k ∈ g.regions, Spoken t (.arm k gid ((s.home gid).need g) (s.landing g gid)))) ∧
    (∀ (x : GSlot) (rep : StepRep), (s.cluster c).ctl.group = some gid.val → PeerAccepted s (regionOf c) 0x15 hdr →
      (s.region (regionOf c)).slot gid = some x → x.reps ≠ [] → rep.step = x.topStep → localOf c ∉ x.reps →
      ∃ t y, exec (.stepReport c hdr rep) s = .next t ∧ (t.region (regionOf c)).slot gid = some y ∧
        y.reps = x.reps ++ [localOf c] ∧ y.topStep = x.topStep ∧
        (if rep.w ≤ 1 ∧ rep.t * s.cfg 0x8000 0 6 ≤ 64 * rep.k then y.lag = x.lag + 1 ∧ y.lagT = max x.lagT rep.t ∧ y.wMin = x.wMin
          else y.lag = x.lag ∧ y.lagT = x.lagT ∧ y.wMin = some ((x.wMin.map (fun w => min w rep.w)).getD rep.w))) ∧
    (∀ step : Word, ∃ t, exec (.barrierRelease c step) s = .next t ∧
      (t.cluster c).tap = { (s.cluster c).tap with
        step := step, arrived := false, ticks := 0, waits := 0, held := 0, suspTicks := 0
        clearDue := (s.cluster c).tap.clearDue || (s.cluster c).tap.suspect } ∧
      ((s.cluster c).ctl.group.isSome = true → (s.cluster c).core.state = .running →
        (s.cluster c).gcClosed = false →
        Spoken t (.stepReport c step (s.cluster c).tap.ticks (s.cluster c).tap.waits (s.cluster c).tap.held)) ∧
      (∀ code sT, (s.cluster c).armed = some (code, sT) → (s.cluster c).ctl.group.isSome = true →
        (stepJump (s.cluster c).tap.step step = true ∨ reached step sT = true → (t.cluster c).grpCode = code ∧
          (t.cluster c).armed = none) ∧
        (stepJump (s.cluster c).tap.step step = false → reached step sT = false →
          (t.cluster c).armed = some (code, sT) ∧ (t.cluster c).grpCode = (s.cluster c).grpCode)))

/-- Forecasts and speculation: at a forecast boundary every region latches its records and numbers its forecast; a publication
gives each row its clamped linear value and the region their sum up to its rating, and issues a pre-raise exactly on the
conditions of R131; a withdrawal counts the standing pre-raise as missed or abandoned, with V_c unchanged; a demotion ends; the
grid allowance moves a step; a tracking block ends with trust by R126 (R97, R104–R106, R125, R126, R131, R138, R139, R142, R175). -/
def Obligations.ForecastsAndPreRaises : Prop :=
  ∀ (s : State) (r : RegionId),
    (∀ taps, ∃ t, exec (.forecastBoundary taps) s = .next t ∧ (t.region r).sage.inFlight.isSome = true ∧
      (t.region r).sage.fnum = (s.region r).sage.fnext ∧ (t.region r).sage.fnext = ((s.region r).sage.fnext + 1) % 125 ∧
      (t.region r).spec = (s.region r).spec ∧ (t.region r).caps = (s.region r).caps ∧ t.hub = s.hub) ∧
    (∀ f : Forecast, (s.region r).sage.inFlight = some f → f.learned = none →
      ∃ t, exec (.forecastPublication r) s = .next t ∧
        let vc := (s.region r).sp.vc
        let groups := (List.range 24).map (fun g =>
          min (f.maxUA.getD g 0 * vc / 187500000) ((f.linUA.getD g 0 * vc + 93750000) / 187500000))
        let fReg := min (s.region r).ph.rating groups.sum
        let b := (s.region r).dig.latest
        let mv := s.preRaiseMv r (fReg - b)
        let go := (s.region r).spec.state = .idle ∧ s.specBlocked r = false ∧ b ≤ fReg ∧
          s.cfg (offSpec r 1) 0 12 ≤ fReg - b ∧ 1 ≤ mv
        (t.region r).sage.inFlight = none ∧ (t.region r).sage.groups = groups ∧ (t.region r).sage.fReg = fReg ∧
          (t.region r).sp.vc = vc ∧
          (go → (t.region r).spec.state = .standing ∧ (t.region r).spec.s = mv ∧ (t.region r).spec.base = b ∧
            (t.region r).spec.rise = fReg - b ∧ (t.region r).spec.issued = (s.region r).spec.issued + 1) ∧
          (¬ go → (t.region r).spec.issued = (s.region r).spec.issued ∧ (t.region r).spec.state = (s.region r).spec.state)) ∧
    (∀ f : Forecast, (s.region r).sage.inFlight = some f → ∃ t, exec (.forecastPublication r) s = .next t ∧
      let groups := (List.range 24).map (fun g => (groupValue f (s.region r).sp.vc g).1)
      (t.region r).sage.inFlight = none ∧ (t.region r).sage.groups = groups ∧
        (t.region r).sage.fReg = min (s.region r).ph.rating groups.sum ∧ (t.region r).sp.vc = (s.region r).sp.vc ∧
        ∀ g, g < 24 → groups.getD g 0 ≤ f.maxUA.getD g 0 * (s.region r).sp.vc / 187500000) ∧
    ((s.region r).spec.state = .standing →
      ((s.region r).spec.toTake = 0 ∧ (s.region r).spec.toJudge = 0) ∨ (s.region r).spec.withdraw = true →
      ∃ t, exec (.preRaiseWithdrawal r) s = .next t ∧ (t.region r).spec.state = .idle ∧ (t.region r).spec.s = 0 ∧
        (t.region r).sp.vc = (s.region r).sp.vc ∧
        (if (s.region r).spec.withdraw = true ∨ (s.region r).spec.abandon = true then
          (t.region r).spec.abandoned = (s.region r).spec.abandoned + 1 ∧ (t.region r).spec.missed = (s.region r).spec.missed
        else (t.region r).spec.missed = (s.region r).spec.missed + 1 ∧
          (t.region r).spec.abandoned = (s.region r).spec.abandoned) ∧
        ((s.region r).sp.busy = none → (s.region r).sp.wantRates = false → (s.region r).sp.retryEach = false →
          let v := (s.region r).sp.vc + (s.region r).sp.vGrid
          t.out = s.out ++ [.avsFrame r (.committed v) (avsWord 0 0 v)])) ∧
    ((s.region r).spec.state = .demoted → (s.region r).spec.demoteLeft = 0 →
      exec (.demotionEnd r) s = .next (s.modRegion r (fun g => { g with spec := { g.spec with state := .idle } }))) ∧
    (∀ (sum : Int) (n : Nat), (s.region r).gridEnd = some (sum, n) → n ≠ 0 → ∃ t, exec (.gridBlockEnd r) s = .next t ∧
      let e : Int := Int.tdiv sum n
      let v := (s.region r).sp.vGrid
      (t.region r).sp.vGrid = (if 2 ≤ e then min (s.cfg (offAct r 2) 16 6) (v + 1) else if e ≤ -2 then v - 1 else v) ∧
        (t.region r).gridEnd = none ∧ (t.region r).sp.vc = (s.region r).sp.vc) ∧
    (((s.region r).gridEnd.getD (0, 0)).2 = 0 → ∃ t, exec (.gridBlockEnd r) s = .next t ∧
      (t.region r).sp.vGrid = (s.region r).sp.vGrid ∧ (t.region r).gridEnd = none ∧
      (t.region r).sp.vc = (s.region r).sp.vc) ∧
    (1024 ≤ (s.region r).trust.periods → ∃ t, exec (.trackingBlockEnd r) s = .next t ∧
      (t.region r).sage.counted = 0 ∧ (t.region r).sage.binsPub = List.replicate 16 0 ∧
      (t.region r).sage.binsLin = List.replicate 16 0 ∧ (t.region r).trust.periods = 0 ∧
      ((s.region r).sage.model = .active → s.cfg (offSage r) 0 2 = 1 →
        (s.region r).trust.learned = (s.region r).trust.periods → 512 ≤ (s.region r).sage.counted →
        (if (s.region r).sage.badPub ≤ (s.region r).sage.counted / 20 then
          (t.region r).trust.trusted = ((s.region r).trust.trusted ||
            decide (s.cfg (offSage r) 16 4 ≤ (s.region r).trust.goodRun + 1)) ∧
          (t.region r).trust.goodRun = min ((s.region r).trust.goodRun + 1) 15
        else (t.region r).trust.trusted = false ∧ (t.region r).trust.goodRun = 0)) ∧
      ((s.region r).sage.model ≠ .active → (t.region r).trust.trusted = (s.region r).trust.trusted))

/-- Sensors of a region: a sum sample is clamped to its range and goes its way; when it becomes available it is integrated,
becomes the latest one, and confirms a standing pre-raise in whose window it lies (V_c becomes V_c + s); a channel that is not
VALID ends the pre-raise; a phase low on a fourth rotation takes a spare; diodes, monitors and oscillators keep their readings; a
raise whose test passes moves Dill's reference, one that times out does not; an AVSBus frame is sent twice at most (R67, R69,
R76, R79–R84, R136, R137, R505). -/
def Obligations.SensorsAreRead : Prop :=
  ∀ (s : State) (r : RegionId),
    (∀ amps : Int, ∃ t, exec (.sumSample r amps .valid) s = .next t ∧
      let raw := clampTo 0 4095 (((amps - (s.region r).dig.offset) * (1000000 + (s.region r).dig.gainPpm) / 1000000).toNat)
      let sp := (s.region r).spec
      let win := decide (sp.state = .standing) && decide (0 < sp.toTake)
      (t.region r).dig.raw = (s.region r).dig.raw ++ [raw] ∧ (t.region r).dig.sumStatus = .valid ∧
        ((t.region r).dig.taken.map Sample.raw) = (s.region r).dig.taken.map Sample.raw ++ [raw] ∧
        (t.region r).spec = { sp with toTake := if win then sp.toTake - 1 else sp.toTake } ∧ (t.region r).sp = (s.region r).sp) ∧
    (∀ (amps : Int) (st : Status), st ≠ .valid → ∃ t, exec (.sumSample r amps st) s = .next t ∧
      (t.region r).spec.state ≠ .standing ∧ (t.region r).dig.sumStatus = st ∧ (t.region r).dig.sumWait = 1001 ∧
      (t.region r).sage.void = true ∧ ((s.gov r).rsupply.held &&& 64 = 0 → { src := 64 + r, cause := 6 } ∈ t.events)) ∧
    (∀ x rest, (s.region r).dig.taken = x :: rest → ∃ t, exec (.sumSampleAvailable r) s = .next t ∧
      (t.region r).dig.latest = x.raw ∧ (t.region r).dig.taken = rest ∧
      ((s.region r).spec.state = .standing → x.window = true → (s.region r).spec.noConfirm = false →
        (s.region r).spec.base + ceilDiv (s.region r).spec.rise 2 ≤
          x.raw * (s.region r).sp.vc / ((s.region r).sp.vc + (s.region r).spec.s) →
        (t.region r).sp.vc = (s.region r).sp.vc + (s.region r).spec.s ∧ (t.region r).spec.state = .idle ∧
          (t.region r).spec.confirmed = (s.region r).spec.confirmed + 1 ∧ t.out = s.out) ∧
      ((s.region r).spec.state ≠ .standing → (t.region r).sp = (s.region r).sp ∧
        (t.region r).spec.state = (s.region r).spec.state)) ∧
    (∀ (amps : Int) (st : Status), (s.region r).dig.nextPhase < 24 → (s.region r).dig.phCur.length = 24 →
      (s.region r).dig.lowRun.length = 24 → ∃ t, exec (.phaseChannelSample r amps st) s = .next t ∧
      let k := (s.region r).dig.nextPhase
      let x := clampTo 0 255 amps.toNat
      let good := (s.region r).ph.good
      (bitOf (s.region r).ph.spares.toNat k = false ∨ k ∈ good → (t.region r).dig.nextPhase = (k + 1) % 24) ∧
        (t.region r).dig.phCur = (s.region r).dig.phCur.set k x ∧
        (t.region r).dig.phStatus = st ∧
        (st = .valid → (s.region r).dig.phWait = 0 → (s.region r).ph.rating < 10 * (s.region r).dig.latest → k ∈ good →
          4 * x * good.length < (good.map (fun i => ((s.region r).dig.phCur.set k x).getD i 0)).sum →
          (s.region r).dig.lowRun.getD k 0 = 3 → k ∉ (s.region r).ph.failed → k ∉ (s.region r).ph.derateDue →
          0 < (s.region r).ph.sparesFree → (t.region r).ph.failed = (s.region r).ph.failed ++ [k] ∧
            (t.region r).ph.swap = true ∧ { src := 64 + r, cause := 0 } ∈ t.events)) ∧
    (∀ (pos : Fin 8) (temps : List Int), ∃ t, exec (.diodeConversion r pos temps) s = .next t ∧
      (∀ k, k < 8 → k < temps.length →
        ((t.region r).diodes.get (8 * k + pos)).fresh = min 1200 (max (-320) (temps.getD k 0))) ∧
      (pos.val = 7 → ∀ d, d < 64 → ((t.region r).diodes.get d).temp = ((t.region r).diodes.get d).fresh) ∧
      (pos.val ≠ 7 → ∀ d, d % 8 ≠ pos → (t.region r).diodes.get d = (s.region r).diodes.get d)) ∧
    (∀ (reads : List (Nat × Status)) (v : Nat), (s.region r).sp.raising = some v → (s.region r).sp.raiseWait = false →
      (s.region r).vmonWait = 0 → ∃ t, exec (.voltageMonitorReading r reads false) s = .next t ∧
        (∀ k, k < 16 → k < reads.length → (t.region r).vmons.get k = {
          mv := clampTo 500 1011 (reads.getD k (0, .valid)).1, spec := (s.region r).spec.s, slewing := false, status := (reads.getD k (0, .valid)).2
          goodRun := if (reads.getD k (0, .valid)).2 = .valid then min 2 (((s.region r).vmons.get k).goodRun + 1) else 0 }) ∧
        ∀ low, (t.region r).badMonitors < 5 → (t.region r).lowestMv = some low →
          (v ≤ low + 5 → (t.region r).sp.raising = none ∧ (t.region r).sp.dillRef = (s.region r).sp.vc) ∧
          (low + 5 < v → (t.region r).sp = (s.region r).sp)) ∧
    ((s.region r).sp.raising.isSome = true → (s.region r).sp.raiseWait = false → exec (.raiseTestTimeout r) s = .next
      ((s.modRegion r (fun g => { g with sp := { g.sp with raising := none, timedOut := true } })).raiseRoll r 1 3)) ∧
    (∀ (c : ClusterId) (stressed : Nat) (un : Option Nat) (st : Status), ∃ t, exec (.tpMonitorWindow c stressed un st) s = .next t ∧
      (t.cluster c).tp.windows = ((s.cluster c).tp.windows + 1) % 65536 ∧ (t.cluster c).tp.status = st ∧
      (∀ n, un = some n → 0 < n → (s.cluster c).tp.windows = 65535 →
        (t.cluster c).tp.drift = 4096 - ((4096 * stressed / n : Nat) : Int)) ∧
      ∀ d, d ≠ c.val → t.cluster d = s.cluster d) ∧
    (∀ f, (s.region r).sp.busy = some f →
      ((s.region r).sp.wantRates = false → (s.region r).sp.wantVc = false → (s.region r).sp.wantSpec = false →
        (∀ mv, f = .committed mv ∨ f = .speculative mv → exec (.avsbusFrameEnd r true) s = .next (s.modRegion r (fun g =>
          { g with sp := { g.sp.settle s.now (s.slewDn r) mv with
            raiseWait := false, busy := none, attempts := 0, retryEach := false, retryDue := false } }))) ∧
        (∀ up dn, f = .rates up dn → exec (.avsbusFrameEnd r true) s = .next (s.modRegion r (fun g => { g with
          sp := { g.sp with busy := none, attempts := 0, retryEach := false, retryDue := false } })))) ∧
      ((s.region r).sp.retryEach = false → (s.region r).sp.attempts = 0 → exec (.avsbusFrameEnd r false) s = .next
        (((s.modRegion r (fun g => { g with
          sp := { g.sp with attempts := 1 }
          sage := { g.sage with void := g.sage.void || (match f with | .committed _ => true | _ => false) } })).emit
          (.avsFrame r f f.word)).emit (.avsRead r false (avsWord 3 14 0xFFFF)))) ∧
      ((s.region r).sp.retryEach = false → (s.region r).sp.attempts ≠ 0 → exec (.avsbusFrameEnd r false) s = .next
        (((s.modRegion r (fun g => { g with sp := { g.sp with
          busy := none, attempts := 0, retryEach := true, wantVc := false, wantSpec := false } })).emit
          (.avsRead r false (avsWord 3 14 0xFFFF))).raiseRoll r 1 7)) ∧
      ((s.region r).sp.retryEach = true → exec (.avsbusFrameEnd r false) s = .next
        ((s.modRegion r (fun g => { g with sp := { g.sp with busy := none } })).emit (.avsRead r false (avsWord 3 14 0xFFFF)))))

/-- The limiter: a trip holds the effective code at 0, the safe force at 8, a droop or HOLD at D; below every force a step falls
to T at once and rises by one code after the steps of its slope; an idle core is held at LAUNCH. A good word replaces what its kind
names at the limiters it addresses, clamped at the node, and at no other; a bad one floors every limiter, a corruption in the
tree those below it, and raises a fault; a step admits the requests of R150's pattern
(R33, R60, R150–R160). -/
def Obligations.LimitersFollowWordsAndForces : Prop :=
  ∀ (s : State) (c : ClusterId) (n : CoreNo) (r : RegionId),
    (∀ req : BitVec 16, (s.gov (regionOf c)).engine = true → ∃ t, exec (.limiterStep c n req) s = .next t ∧
      let q := regionOf c
      let l := (s.cluster c).limiters.get n
      let l' := (t.cluster c).limiters.get n
      let kk := if l.recovering then min l.k l.kRec else l.k
      (s.tripForce q = true → l'.e = 0) ∧ (s.safeForce q = true → l'.e ≤ 8) ∧
      (s.droopAt c = true ∨ l.hold = true ∨ l.err = true → l'.e ≤ l.d) ∧ l'.t = l.t ∧ l'.d = l.d ∧
      (let e := (l.applyForce (s.tripForce q) (s.safeForce q) (s.droopAt c)).e
       l'.granted = admitted e l.place req ∧ l'.place = l.place + 1 ∧
         ∀ i, i < 16 → l'.granted.getLsbD i = (req.getLsbD i && admits e (4 * l.place + i / 4))) ∧
      (s.tripForce q = false → s.safeForce q = false → s.droopAt c = false → l.hold = false → l.err = false →
        l.e ≤ 64 → l.t ≤ 64 → req ≠ 0 → 0 < s.cfg (offAct q 0) 20 8 →
        l'.e = if l.t < l.e then l.t
          else if l.e < l.t ∧ kk ≠ 0 ∧ 2 ^ (7 - kk) ≤ l.cnt + 1 then l.e + 1 else l.e) ∧
      (∀ j, j ≠ n.val → (t.cluster c).limiters.get j = (s.cluster c).limiters.get j) ∧
      ∀ d, d ≠ c.val → t.cluster d = s.cluster d) ∧
    ((s.gov (regionOf c)).engine = true →
      s.cfg (offAct (regionOf c) 0) 20 8 ≤ ((s.cluster c).limiters.get n).idleSteps →
      exec (.launchHold c n) s = .next (s.modCluster c (fun u => { u with limiters := u.limiters.modify n (fun l =>
        { l with e := min l.e (s.cfg (offAct (regionOf c) 0) 8 7), cnt := 0 }) }))) ∧
    (∀ (w : Word) (ks : List (Fin 576)) (i : Instr), (s.gov r).engine = true → badWord w = false → ks ≠ [] →
      ((settingOf w).kind = 0 ∧ i = .limiterTarget r w ks) ∨ ((settingOf w).kind = 1 ∧ i = .limiterRecovery r w ks) ∨
        ((settingOf w).kind = 2 ∧ i = .limiterFloor r w ks) ∨ ((settingOf w).kind = 3 ∧ i = .limiterHold r w ks) →
      ∃ t, exec i s = .next t ∧ (t.region r).caps.busErr = satAdd 0xFF (s.region r).caps.busErr 1 ∧
        { src := 128 + r, cause := 0 } ∈ t.events ∧
        ∀ k ∈ ks, ∀ j : CoreNo, let l := ((s.region r).clusters.get k).limiters.get j
          ((t.region r).clusters.get k).limiters.get j = { l with e := min l.e l.d, err := true, recovering := true }) ∧
    (∀ (w : Word) (kind : Nat) (i : Instr), (s.gov r).engine = true →
      (kind = 0 ∧ i = .limiterTarget r w []) ∨ (kind = 1 ∧ i = .limiterRecovery r w []) ∨
        (kind = 2 ∧ i = .limiterFloor r w []) ∨ (kind = 3 ∧ i = .limiterHold r w []) →
      let x := settingOf w
      (badWord w = true → ∃ t, exec i s = .next t ∧ (t.region r).caps.busErr = satAdd 0xFF (s.region r).caps.busErr 1 ∧
        { src := 128 + r, cause := 0 } ∈ t.events ∧
        ∀ (k : Fin 576) (j : CoreNo), let l := ((s.region r).clusters.get k).limiters.get j
          ((t.region r).clusters.get k).limiters.get j = { l with e := min l.e l.d, err := true, recovering := true }) ∧
      (badWord w = false → x.kind = kind → ∃ t, exec i s = .next t ∧ t.events = s.events ∧
        (∀ q, q ≠ r.val → t.region q = s.region q) ∧
        ∀ (k : Fin 576) (j : CoreNo), bitOf ((s.region r).clusters.get k).ctl.heldCores.toNat j = false →
          let u := (s.region r).clusters.get k
          let l := u.limiters.get j
          let l' := ((t.region r).clusters.get k).limiters.get j
          if x.mode = 0 ∨ (x.mode = 1 ∧ k.val / 24 = x.addr) ∨ (x.mode = 2 ∧ k.val = x.addr) ∨
              (x.mode = 3 ∧ k.val = x.addr ∧ j.val = x.core) then
            (kind = 0 → l'.t = (if u.ctl.spared then 0 else min x.code (min u.phCeil (max u.grpCode u.grpFloor))) ∧
              l'.k = x.slope ∧ l'.e = l.e ∧ l'.err = false) ∧
            (kind = 1 → l' = { l with kRec := x.slope }) ∧ (kind = 2 → l' = { l with d := x.code }) ∧
            (kind = 3 → l'.hold = x.flag ∧ l'.e = (if x.flag then min l.e l.d else l.e) ∧ l'.t = l.t ∧
              l'.k = l.k)
          else l' = l))

/-- Dill and the tick: once Dill is armed, a trip asserts the droop wires, is counted, and drops the cluster's and its unmasked neighbours' limiters to
their floors; a warn is counted but for a sweep; the release lets the wires go. Held words leave when the engine clock restarts, and the
forces act at once.
At a tick boundary the counts pass to the governor and are cleared, every step tap counts its tick, and rows with warns stop
recovering (R33, R65, R66, R68, R92, R158, R169, R172, R281, R458). -/
def Obligations.DillAndTicksAct : Prop :=
  ∀ (s : State) (c : ClusterId) (r : RegionId),
    (s.pow.armed = true → (s.cluster c).ctl.spared = false → (s.gov (regionOf c)).engine = true →
      ∃ t, exec (.dillTripCrossing c) s = .next t ∧
      (t.cluster c).dill = { (s.cluster c).dill with
        asserted := true, tripCnt := satAdd 0xFFFF (s.cluster c).dill.tripCnt 1
        readTrips := satAdd 0xFFFF (s.cluster c).dill.readTrips 1 } ∧
      (∀ j, ((t.cluster c).limiters.get j).e ≤ ((s.cluster c).limiters.get j).d) ∧
      (∀ d n, d < 8 → neighbour c d = some n → bitOf (s.cluster n).droopMask.toNat (opposite d) = false →
        (s.gov (regionOf n)).engine = true → ∀ j, ((t.cluster n).limiters.get j).e ≤ ((s.cluster n).limiters.get j).d) ∧
      ((s.region (regionOf c)).spec.state = .standing → (t.region (regionOf c)).spec.abandon = true) ∧ t.hub = s.hub) ∧
    (s.pow.armed = true → (s.cluster c).ctl.spared = false → (s.cluster c).dill.sweeping = false →
      exec (.dillWarnCrossing c) s = .next
      (s.modCluster c (fun u => { u with dill := { u.dill with
        warnCnt := satAdd 0xFFFF u.dill.warnCnt 1, readWarns := satAdd 0xFFFF u.dill.readWarns 1 } }))) ∧
    (s.pow.armed = false → exec (.dillTripCrossing c) s = .next s ∧ exec (.dillWarnCrossing c) s = .next s) ∧
    (exec (.dillRelease c) s = .next (s.modCluster c (fun u => { u with dill := { u.dill with asserted := false } }))) ∧
    (∃ t, exec (.engineClockStop r) s = .next t ∧ (t.gov r).engine = false ∧ (t.region r).clusters = (s.region r).clusters ∧
      t.out = s.out ∧ bitOf (t.region r).margin.sticky.toNat 5 = true) ∧
    (∃ t, exec (.engineClockRestart r) s = .next t ∧ t.out = s.out ++ (s.gov r).kept.map (Effect.limiterWord r) ∧
      t = { s with govs := t.govs, regions := t.regions, out := t.out } ∧
      (t.gov r) = { s.gov r with engine := true, kept := [] } ∧
      (∀ q, q ≠ r.val → t.gov q = s.gov q ∧ t.region q = s.region q) ∧
      (t.region r) = { s.region r with clusters := (t.region r).clusters } ∧
      ∀ k : Fin 576, let u := (s.region r).clusters.get k
        (t.region r).clusters.get k = { u with limiters := ((t.region r).clusters.get k).limiters } ∧
        ∀ j, ((t.region r).clusters.get k).limiters.get j = if u.ctl.spared then { u.limiters.get j with e := 0, cnt := 0 }
          else (u.limiters.get j).applyForce (s.tripForce r) (s.safeForce r) (s.droopAt (576 * r + k))) ∧
    (∀ taps : SMap TickTap, ∃ t, exec (.tickBoundary taps) s = .next t ∧ t.tick = s.tick + 1 ∧ t.hub = s.hub ∧
      (t.cluster c).dill = { (s.cluster c).dill with tripCnt := 0, warnCnt := 0 } ∧
      (t.cluster c).tap.ticks = satAdd 0xFFFFFFFF (s.cluster c).tap.ticks 1 ∧
      (t.cluster c).tap.arrived = ((s.cluster c).tap.arrived || (taps.get c).arrived) ∧
      (∀ row, row < 24 → 0 < (s.region r).clusters.sumRange (24 * row) (24 * row + 24)
          (fun u => if u.ctl.spared then 0 else u.dill.warnCnt) → bitOf (t.region r).caps.paused.toNat row = true) ∧
      ((t.region r).tripsNow = satAdd 0xFFFF (s.region r).tripsNow
        ((s.region r).clusters.sum 576 (fun u => if u.ctl.spared then 0 else u.dill.tripCnt))))

/-- The thermal loop and the package: a wafer period gives each region its thermal ceiling by R186 and its cap, lowerings first; a
package period moves the derates of the regulators and the children's levels; an unacknowledged child is a fault. A trip
comparator sets the latch, every limiter of the region to 0 and the pre-raise aside, its release leaves the latch; an alert holds
the region (R171, R186, R189, R193, R195, R197–R199, R509). -/
def Obligations.HeatIsKeptInBounds : Prop :=
  ∀ (s : State) (r : RegionId),
    (∀ rd : PackageReads, s.loopRuns = true → ∃ t, exec (.waferPeriod rd) s = .next t ∧ t.pow.waferRun = true ∧
      t.hub.ageing.evalRun = s.hub.ageing.evalRun + 1 ∧ (t.region r).therm.meanCnt = 0 ∧
      ((s.region r).therm.latch = false →
        let hot := (t.region r).therm.tHot
        let prev := (s.region r).therm.iTh
        let low := s.iThMin
        (t.region r).therm.iTh = min { s.region r with ph := { (s.region r).ph with rated := 22 } : Region }.ceilR (max low
          (if s.tLimit ≤ hot then min prev ((s.region r).waferMean *
              (1024 - min 1024 ((hot - s.tLimit).toNat * s.cfg (offTherm 0) 24 8)) / 1024)
            else if (s.tLimit - hot).toNat < s.cfg (offTherm 0) 16 8 then prev
            else prev + s.cfg (offTherm 1) 0 12))) ∧
      ∀ p ∈ t.hub.budget.lowering, p.2.1 < s.countedCap p.1 ∧ Said t (.cap p.1 p.2.1 false)) ∧
    (∀ arrays : List (Option ArrayRead), s.loopRuns = true → s.clk.st ≠ .stopped → ∃ t, exec (.packagePeriod arrays) s = .next t ∧
      (t.region r).dig.pkgCnt = 0 ∧
      (arrays.getD r none = none → (t.region r).therm.derate16 = (s.region r).therm.derate16) ∧
      (∀ a, arrays.getD r none = some a → let x := temp16 (linear11 8 a.temp)
       let n := (s.region r).therm.derate16
       (t.region r).therm.derate16 = if (8 * s.cfg (offTherm 3) 16 8 : Nat) ≤ x then min 8 (n + 1)
         else if x ≤ (8 * (s.cfg (offTherm 3) 16 8 - 10) : Nat) then n - 1 else n) ∧
      ∀ i, i < 16 → max (t.hub.budget.tStack.getD i 0) (t.hub.budget.hStack.getD i 0) ≤ t.hub.budget.lStack.getD i 0) ∧
    (∀ (ch : Child) (n : Nat), s.inControl = true → s.hub.budget.unack.get (childNo ch) = n → 3 ≤ n → n < 16 →
      ∃ t, exec (.childAckTimeout ch) s = .next t ∧ t.hub.budget.unack.get (childNo ch) = n + 16 ∧
        t.events = s.events ++ [{ src := 207, cause := 0 }] ∧ t.hub.budget.lStack = s.hub.budget.lStack ∧
        t.hub.budget.childFail.get (childNo ch) = 10 ∧
        (∀ k, ch = .stack k → t.hub.budget.tStack = s.hub.budget.tStack.set k 6 ∧ t.hub.budget.uOpt = s.hub.budget.uOpt) ∧
        ∀ k, ch = .optic k → t.hub.budget.uOpt = s.hub.budget.uOpt.set k 3 ∧ t.hub.budget.tStack = s.hub.budget.tStack) ∧
    (∀ k : Fin 8, (s.region r).therm.latch = false → ∃ t, exec (.tripComparatorAssert r k) s = .next t ∧
      (t.region r).therm.latch = true ∧ bitOf (t.region r).therm.comps.toNat k = true ∧
      (t.region r).therm.tripCnt = satAdd 0xFFFF (s.region r).therm.tripCnt 1 ∧ (t.region r).spec.state ≠ .standing ∧
      (∀ c j, (((t.region r).clusters.get c).limiters.get j).e = 0) ∧
      ((s.gov r).rtherm.held &&& 2 = 0 → { src := r, cause := 1 } ∈ t.events)) ∧
    (∀ k : Fin 8, (s.region r).therm.latch = true → exec (.tripComparatorAssert r k) s = .next (s.modRegion r (fun g => { g with
      therm := { g.therm with comps := g.therm.comps ||| BitVec.ofNat 8 (2 ^ k.val) } }))) ∧
    (∀ k : Fin 8, exec (.tripComparatorRelease r k) s = .next (s.modRegion r (fun g => { g with
      therm := { g.therm with comps := g.therm.comps &&& ~~~(BitVec.ofNat 8 (2 ^ k.val)) } }))) ∧
    ((s.region r).caps.alert = false → ∃ t, exec (.regAlertAssert r) s = .next t ∧
      (t.region r).caps = { (s.region r).caps with alert := true, alertGone := false, holdRegion := true } ∧
      (t.region r).spec.state ≠ .standing ∧
      ((s.gov r).rsupply.held &&& 4 = 0 → { src := 64 + r, cause := 2 } ∈ t.events) ∧
      ((s.gov r).engine = true → .limiterWord r (regionWord 3 0 0 true) ∈ t.out)) ∧
    ((s.region r).caps.alert = true → ∃ t, exec (.regAlertClear r) s = .next t ∧
      (t.region r).caps = { (s.region r).caps with alert := false, alertGone := true } ∧
      (t.gov r).rsupply.held &&& 4 = 0 ∧ t.out = s.out ∧ t.events = s.events)

/-- Phases, margins and the PMBus: an alert's answer is read, failed phases leave service; a swap puts the lowest spare in the
failed phase's place or, failing, leads to a derate; a watch ends in a spare, a healthy phase or a disabled one; an evaluation takes
the sticky conditions and otherwise moves m down by one where the slack allows, and back to 60 at a reading of 0 taps; an ageing interval never lowers a trim (R212–R219,
R224, R225, R458, R506). -/
def Obligations.PhasesAndMarginsMove : Prop :=
  ∀ (s : State) (r : RegionId),
    let at_ (a : Nat) (x : PmbusTx) : Effect := .pmbus (cornerOf r) (r / 8 % 4) a x
    (∀ bad : BitVec 24, ∃ t, exec (.smbalert r bad false) s = .next t ∧ at_ 0x0C .alertResponse ∈ t.out ∧
      at_ (0x40 + r % 4) (.read 0x79) ∈ t.out ∧ at_ (0x40 + r % 4) (.send 0x03) ∈ t.out ∧ (bad = 0 → (t.region r).ph = (s.region r).ph) ∧
      ∀ k : Fin 24, bad = phaseBitOf k → (s.region r).ph.active &&& (s.region r).ph.healthy &&& phaseBitOf k ≠ 0 →
        k.val ∉ (s.region r).ph.failed → k.val ∉ (s.region r).ph.derateDue → 0 < (s.region r).ph.sparesFree →
        (t.region r).ph.failed = (s.region r).ph.failed ++ [k.val] ∧ (t.region r).ph.swap = true) ∧
    (∀ bad : BitVec 24, exec (.smbalert r bad true) s = .next
      (((s.emit (at_ 0x0C .alertResponse)).emit (at_ 0x0C .alertResponse)).raiseRoll r 1 8)) ∧
    (∀ (k : Fin 24) (j : Nat), s.inControl = true → (s.region r).ph.lowestSpare = some j → k.val ∈ (s.region r).ph.failed →
      (∃ t, exec (.phaseSwap r k false) s = .next t ∧ (t.region r).ph = { (s.region r).ph with
        active := ((s.region r).ph.active &&& ~~~(phaseBitOf k)) ||| phaseBitOf j
        healthy := ((s.region r).ph.healthy &&& ~~~(phaseBitOf k)) ||| phaseBitOf j
        spares := (s.region r).ph.spares &&& ~~~(phaseBitOf j), retired := (s.region r).ph.retired ||| phaseBitOf k
        failed := (s.region r).ph.failed.erase k, swap := decide ((s.region r).ph.failed.erase k ≠ []) } ∧
        Said t (.pmbus r (.swap (Fin.ofNat 24 j) k)) ∧
        (t.region r).dig.nextPhase = 0) ∧
      (∃ t, exec (.phaseSwap r k true) s = .next t ∧ (t.region r).ph.derateDue = (s.region r).ph.derateDue ++ [k.val] ∧
        (t.region r).ph.active = (s.region r).ph.active ∧ { src := 64 + r, cause := 8 } ∈ t.events)) ∧
    (∀ (k n : Nat) (bad : Bool), s.inControl = true → (s.region r).ph.watch = some (k, n, bad) → (bad = true ∨ n = 0) → k < 24 →
      ∃ t, exec (.phaseWatchEnd r) s = .next t ∧ (t.region r).ph = (
        let p := (s.region r).ph
        if bad then { p with active := p.active &&& ~~~(phaseBitOf k), watch := none }
        else if 22 ≤ p.h then { p with active := p.active &&& ~~~(phaseBitOf k), retired := p.retired &&& ~~~(phaseBitOf k)
                                       spares := p.spares ||| phaseBitOf k, watch := none }
        else { p with rated := min p.rated p.h, healthy := p.healthy ||| phaseBitOf k, retired := p.retired &&& ~~~(phaseBitOf k), watch := none }) ∧
        ((bad = true ∨ 22 ≤ (s.region r).ph.h) → Said t (.pmbus r (.phaseDisable (Fin.ofNat 24 k))))) ∧
    (∀ taps, s.loopRuns = true → s.cfg 0x6000 8 8 ≤ s.hub.ageing.evalRun → ∃ t, exec (.marginEvaluation taps) s = .next t ∧
      t.hub.ageing.evalRun = 0 ∧
      (t.region r).margin.block = (s.region r).margin.sticky ||| BitVec.ofNat 7 (s.blockNow r) ∧
      ((t.region r).margin.block ≠ 0 → (t.region r).margin.newM = (s.region r).margin.newM) ∧
      (∀ k, (t.region r).margin.block = 0 → (t.region r).leastSlack = some k → 0 < k → s.cfg 0x6000 16 4 ≤ k →
        s.cfg 0x6000 0 8 < (s.region r).sp.m → (t.region r).clusters.any 576 Cluster.excluded = false →
        (t.region r).margin.newM = some ((s.region r).sp.m - 1) ∧ Said t (.margin r ((s.region r).sp.m - 1))) ∧
      ((t.region r).margin.block = 0 → (t.region r).leastSlack = some 0 → (t.region r).margin.goStatic = true)) ∧
    (∀ taps, s.loopRuns = true → s.enginesRun = true → s.hub.ageing.nextAt ≤ s.hub.ageing.poweredS.toNat →
      ∃ t, exec (.ageingInterval taps) s = .next t ∧ t.hub.ageing.intervals = s.hub.ageing.intervals + 1 ∧
        t.hub.ageing.nextAt = s.hub.ageing.nextAt + 86400 ∧ (s.region r).sp.trim ≤ (t.region r).sp.trim ∧
        ((s.region r).sp.trim ≤ s.cfg 0x6000 24 7 → (t.region r).sp.trim ≤ s.cfg 0x6000 24 7)) ∧
    (∀ hdr, Accepted s (cornerOf r) 0x70 hdr →
      (∀ op, exec (.pmbusCommand r hdr op true) s = .next
        (((s.noted (cornerOf r) 0x70 hdr).transactAll r true (pmbusTransactions s r op)).raiseRoll r 1 8)) ∧
      (∀ op, (∀ vm bad en, op ≠ .configure vm bad en) → op ≠ .operationOn → exec (.pmbusCommand r hdr op false) s = .next
        ((s.noted (cornerOf r) 0x70 hdr).transactAll r false (pmbusTransactions s r op))) ∧
      (∀ vm en, vm < 32 → ∃ t, exec (.pmbusCommand r hdr (.configure vm 0 en) false) s = .next t ∧ (t.gov r).pmbusDone = true ∧
        (t.gov r).badMode = false ∧
        (t.region r).ph.active = if s.pow.cold then (s.region r).ph.active else en) ∧
      (∃ t, exec (.pmbusCommand r hdr .operationOn false) s = .next t ∧ (t.gov r).arrayOn = true ∧
        (t.region r).sp.vc = s.termsMv r))

/-- A core whose watchdog expires, or which violates its protection, restarts with its retained data only, recorded and raised;
more restarts than the limit in the window stop it. READY lets it run; no READY in time restarts it again. A deferred activation
goes on when the emergency has ended, ends at its deadline, and a drain ends at its limit (R306, R363, R365–R368, R372, R373). -/
def Obligations.CoresRestartAndActivationsEnd : Prop :=
  ∀ (s : State),
    (∀ (h : Hub) (k : Fin 3) (c : Instr) (why : Nat), ((s.coreAt h k).state = .running ∨ (s.coreAt h k).state = .held) →
      (c = .watchdogExpiry (.hub h k) ∧ why = 0) ∨ (c = .protectionViolation (.hub h k) ∧ why = 1) →
      let recent := (s.period.toNat / 100) :: (s.coreAt h k).recent.filter (fun p => decide (s.period.toNat / 100 < p + 1000))
      let keep := (((s.coreAt h k).image).map FwImage.retained).getD []
      ∃ t, exec c s = .next t ∧ (t.coreAt h k).why = why ∧ (t.coreAt h k).restarts = (s.coreAt h k).restarts + 1 ∧
        (t.coreAt h k).recent = recent ∧
        (t.coreAt h k).state = (if s.cfg 0x3000 16 4 < recent.length then .stopped else .restarting) ∧
        (t.coreAt h k).data.cells = (s.coreAt h k).data.cells.filter (fun p => inStretch keep p.1) ∧
        { src := 198, cause := 0 } ∈ t.events ∧
        (why = 1 → { src := 197, cause := 0, core := some (.hub h k) } ∈ t.events ∧
          (t.coreAt h k).mpuViol = satAdd 0xFF (s.coreAt h k).mpuViol 1)) ∧
    (∀ (n : ClusterId) (c : Instr) (why : Nat), (s.cluster n).core.state = .running → (s.cluster n).gcClosed = false →
      (s.cluster n).ctl.spared = false →
      (c = .watchdogExpiry (.chive n) ∧ why = 0) ∨ (c = .protectionViolation (.chive n) ∧ why = 1) →
      let recent := (s.period.toNat / 100) :: (s.cluster n).core.restarts.filter (fun p => decide (s.period.toNat / 100 < p + 1000))
      ∃ t, exec c s = .next t ∧ (t.cluster n).core.why = why ∧ (t.cluster n).core.restarts = recent ∧
        (t.cluster n).core.state = (if s.cfg 0x3000 16 4 < recent.length then .stopped else .restarting) ∧
        (∀ j, ((s.cluster n).slot j).state = .taken → ((t.cluster n).slot j).state = .posted ∧ ((t.cluster n).slot j).retaken = true) ∧
        (t.cluster n).limiters = (s.cluster n).limiters ∧ (∀ d, d ≠ n.val → t.cluster d = s.cluster d)) ∧
    (s.hub.fw.act = none → ∀ (h : Hub) (k : Fin 3), (s.coreAt h k).state = .restarting →
      (∃ t, exec (.coreReady (.hub h k)) s = .next t ∧ (t.coreAt h k).state = .running ∧ (t.coreAt h k).bank = (s.coreAt h k).bank) ∧
      (∃ t, exec (.readyTimeout (.hub h k)) s = .next t ∧ (t.coreAt h k).restarts = (s.coreAt h k).restarts + 1 ∧
        (t.coreAt h k).why = (s.coreAt h k).why ∧
        ((t.coreAt h k).state = .restarting ∨ (t.coreAt h k).state = .stopped))) ∧
    (s.hub.fw.act = none → ∀ n : ClusterId, (s.cluster n).core.state = .restarting →
      ((s.cluster n).core.due = false → exec (.coreReady (.chive n)) s = .next (journaled (fun s => s.modCluster n (fun u =>
        { u with core := { u.core with state := .running, switched := false } })) s)) ∧
      ((s.cluster n).core.due = true → ∃ t, exec (.coreReady (.chive n)) s = .next t ∧
        (t.cluster n).core.bank = !(s.cluster n).core.bank ∧ (t.cluster n).core.due = false ∧
        ∀ d, d ≠ n.val → t.cluster d = s.cluster d) ∧
      ((s.cluster n).ctl.spared = false → ∃ t, exec (.readyTimeout (.chive n)) s = .next t ∧
        (t.cluster n).core.why = (s.cluster n).core.why ∧
        ((t.cluster n).core.state = .restarting ∨ (t.cluster n).core.state = .stopped))) ∧
    (∀ a : Activation, s.hub.fw.act = some a → s.inControl = true →
      let h := s.owner.getD .a
      (a.deferred = true → a.target = 2 → s.actCause = 0 → s.targetHalted 2 = false → (s.coreAt h 2).state = .running →
        ∃ t, exec .activationResume s = .next t ∧ t.hub.thyme.drain = true ∧ (t.coreAt h 2).state = .held ∧
          t.hub.fw.act = some { a with step := 3, drained := 0, deferred := false }) ∧
      (a.deferred = true → 1000 * a.deadline ≤ (s.period - a.since).toNat → ∃ t, exec .activationDeadline s = .next t ∧ t.hub.fw.act = none ∧
        t.hub.thyme.drain = false ∧ t.hub.rings = (s.complete a.cmd codeEmerg 0x53).hub.rings) ∧
      (a.step = 3 → a.target = 2 → 1000 ≤ a.drained → s.safeNow = true → ∃ t, exec .activationDrainLimit s = .next t ∧
        t.hub.fw.act = none ∧ t.hub.rings = (s.complete a.cmd codeEmerg 0x54).hub.rings) ∧
      (a.step = 3 → a.target = 2 → 1000 ≤ a.drained → s.safeNow = false → s.actCause = 0 →
        s.validStandby = none → (s.coreAt h 2).state = .held → (s.coreAt h 2).stagedImage.isSome = true →
        (recentWith (s.period.toNat / 100) (s.coreAt h 2).recent).length ≤ s.cfg 0x3000 16 4 →
        ∃ t, exec .activationDrainLimit s = .next t ∧ (t.coreAt h 2).bank = !(s.coreAt h 2).bank ∧
          (t.coreAt h 2).state = .restarting ∧ (t.coreAt h 2).switching = true ∧
          (t.hub.fw.act.map Activation.step) = some 5))

/-- Collectors and recorder: an event, with the other causes of its roll-up in the same sample, makes its source pending at a
running collector in its class, its base class or the causes' least, one higher when the count of its window is reached; a further
one only merges. A broken pair, a latched cause register, a
parity failure, restored in NORMAL and the safe state in any other mode, the end of a reset request, an append, folded or new, and
a close act as their rules say (R405–R412, R419, R420, R424, R427–R431, R501). -/
def Obligations.FaultsAreCollectedAndRecorded : Prop :=
  ∀ (s : State) (h : Hub) (r : RegionId),
    (∀ e, s.nextEvent = some e → s.collOn h = true → (s.coll h).frozen = false → e.forced = false →
      ((((s.coll h).source e.src).broken = false ∧ e.polled = false) ∨
        (((s.coll h).source e.src).broken = true ∧ e.polled = true ∧ s.owner = some h)) → ∃ t, exec .faultEvent s = .next t ∧
      let x := (s.coll h).source e.src
      let y := (t.coll h).source e.src
      let base := ((s.joined e).map (fun j => leastClass e.src j.cause)).foldl max
        (max (min (s.cfg (offFc e.src) 0 2) 2) (e.least.getD (leastClass e.src e.cause)))
      let full := decide (s.fcWindow e.src ≠ 0 ∧ s.cfg (offFc e.src) 8 8 ≤ 1)
      y.pend = true ∧
      (x.pend = false → y.merged = 0 ∧ y.arg = (if e.src = 192 ∨ e.src = 193 then e.arg else 0) ∧ (s.fcWindow e.src = 0 → y.cls = base) ∧
        (full = true → y.cls = min 2 (base + 1))) ∧
      (x.pend = true → y.merged = satAdd 0xFF x.merged 1 ∧ y.arg = x.arg ∧ (s.fcWindow e.src = 0 → y.cls = max x.cls base) ∧
        (full = true → y.cls = max x.cls (min 2 (base + 1)))) ∧
      (192 ≤ e.src → y.cause = x.cause ||| BitVec.ofNat 16 (2 ^ e.cause)) ∧
      ∀ n, n ≠ e.src → (t.coll h).source n = (s.coll h).source n) ∧
    (∀ n : SourceId, s.collOn h = true → (s.coll h).frozen = false → ((s.coll h).source n).broken = false →
      ∃ t, exec (.brokenPair h n) s = .next t ∧ ((t.coll h).source n).broken = true ∧ ((t.coll h).source 192).pend = true ∧
        t.coll h.other = s.coll h.other) ∧
    (∀ k : Fin 3, (r.val, k.val) ∈ s.latches → s.collOn h = true → (s.coll h).frozen = false →
      ((s.coll h).source (64 * k + r)).broken = false → ∃ t, exec (.causeRegisterLatch r k) s = .next t ∧ t.latches = s.latches.erase (r.val, k.val) ∧
        ((t.coll h).source (64 * k + r)).cause = ((s.coll h).source (64 * k + r)).cause ||| ((s.gov r).roll k).latched) ∧
    (exec (.collectorParityScan h none) s = .next s) ∧
    (∀ off : Nat, s.collOn h = true →
      ((s.coll h).mode = 4 → exec (.collectorParityScan h (some off)) s = .next s) ∧
      ((s.coll h).mode = 0 → ∃ t, exec (.collectorParityScan h (some off)) s = .next t ∧ t.hub = s.hub ∧ t.govs = s.govs ∧
        t.events = s.events ++ [{ src := 193, cause := 0, arg := off / 4 % 256
                                  least := if s.pair.degraded then some 2 else none }]) ∧
      ((s.coll h).mode ≠ 0 → (s.coll h).mode ≠ 4 → ∃ t, exec (.collectorParityScan h (some off)) s = .next t ∧
        (t.coll h).frozen = true ∧ (t.coll h).safeOfs = off ∧ (t.coll h.other).frozen = true ∧ .safeLevel ∈ t.out ∧
        (t.gov r).safe = true ∧ (t.region r).resvs = [] ∧ ∀ i ∈ s.liveGrants, (t.grant i).state = .free)) ∧
    ((s.coll h).crst = true → (s.coll h).crstLeft = 0 → s.pow.ioUp = true → exec (.crstReqEnd h) s = .next
      ((s.modHubOf h (fun u => { u with coll := { u.coll with crst := false } })).emit (.pin "CRST_REQ_N" h false))) ∧
    ((s.coll h).crstLeft ≠ 0 → exec (.crstReqEnd h) s = .next s) ∧
    (∀ x rest, s.hub.recorder.queue = x :: rest → s.hub.recorder.held = [] → s.hub.recorder.fwWait = [] →
      ∃ t, exec .recordAppend s = .next t ∧ t.hub.recorder.queue = rest ∧
        (s.hub.recorder.openRec = false ∨ (∃ y, s.hub.recorder.recs.getLast? = some y ∧ y.same x = false) →
          t.hub.recorder.head = s.hub.recorder.head + 1 ∧ t.hub.recorder.openRec = true ∧
          t.hub.recorder.recs.getLast? = some { x with seq := s.hub.recorder.head, rep := 1, jn := s.nextJn }) ∧
        (∀ y, s.hub.recorder.openRec = true → s.hub.recorder.recs.getLast? = some y → y.same x = true →
          t.hub.recorder.head = s.hub.recorder.head ∧
          t.hub.recorder.recs = s.hub.recorder.recs.dropLast ++ [{ y with rep := y.rep + 1 }])) ∧
    (s.hub.recorder.openRec = true → (4 ≤ s.hub.recorder.sinceRep ∨ 1000 ≤ s.hub.recorder.sinceApp) →
      ∃ t, exec .recordClose s = .next t ∧ t.hub.recorder.openRec = false ∧ t.hub.recorder.head = s.hub.recorder.head ∧
        t.hub.recorder.recs.map Rec.seq = s.hub.recorder.recs.map Rec.seq)

/-- The loop of the owning hub (R444, R446–R450, R213): loss of the reference, the fallback oscillator, the marked switch of
the domains, the return of the reference. -/
def Obligations.ClockLoopFollowsReference : Prop :=
  ∀ (s : State),
    (s.clk.st = .locked ∨ s.clk.st = .glideUp → ∃ t, exec .refLost s = .next t ∧
      t.clk = { s.clk with st := .glideDown, refLost := true, fbBarred := false, acquire := none, marked := none } ∧
      t.events = s.events ++ [{ src := 205, cause := 0 }] ∧
      (∀ r, (t.region r).margin.sticky = (s.region r).margin.sticky ||| 32 ∧ (t.region r).caps = (s.region r).caps ∧
        (t.region r).clusters = (s.region r).clusters ∧ (t.region r).sp = (s.region r).sp) ∧
      t = { s with clk := t.clk, regions := t.regions, events := t.events }) ∧
    (s.clk.st = .glideDown →
      exec .glideDownEnd s = .next { s with clk := { s.clk with st := .coast } }) ∧
    (s.owner.isSome = true → s.cfgBit 0x1000 0 = true → s.clk.refLost = true → s.clk.st = .glideDown ∨ s.clk.st = .coast →
      s.clk.fbRun = false → s.clk.fbBarred = false →
      exec .fallbackStart s = .next { s with clk := { s.clk with fbRun := true, fbEntered := false } }) ∧
    (∀ count, s.clk.st = .coast → s.clk.fbRun = true → s.clk.acquire = none → s.clk.marked = none →
      exec (.fallbackStable count) s = .next (if 24085 ≤ count ∧ count ≤ 25067 then
        { s with clk := { s.clk with fbEntered := true, acquire := some .fallback } } else s)) ∧
    (s.clk.fbRun = true → ∃ t, exec .fallbackFailure s = .next t ∧ t.clk.fbRun = false ∧ t.clk.fbBarred = true ∧
      t.clk.fbFails = min 255 (s.clk.fbFails + 1) ∧ t.clk.st = (if s.clk.st = .fallback then .coast else s.clk.st) ∧
      t.clk.acquire ≠ some .fallback ∧ t.clk.marked ≠ some .fallback ∧
      t = { s with clk := t.clk, events := s.events ++ [{ src := 205, cause := 1 }] }) ∧
    (∀ (h : Hub) (entered : Bool), s.owner = some h ∨ (s.owner = none ∧ s.clk.st ≠ .stopped) → ¬ ((s.hubOf h).start.step = 2 ∧ (s.hubOf h).start.path = true ∧
        (s.hubOf h).start.ended = false) →
      exec (.clockMonitorTrip h entered) s = exec .fallbackFailure s) ∧
    (∀ x, s.clk.acquire = some x →
      exec .idleCoreLocked s = .next { s with clk := { s.clk with marked := some x, acquire := none } }) ∧
    (s.clk.marked = some .fallback → exec .domainSwitch s = .next { s with clk := { s.clk with
      st := .fallback, marked := none, switches := min 255 (s.clk.switches + 1) } }) ∧
    (s.clk.marked = some .reference → exec .domainSwitch s = .next { s with clk := { s.clk with
      st := .glideUp, marked := none, fbRun := false, fbEntered := false, switches := min 255 (s.clk.switches + 1) } }) ∧
    (s.clk.refLost = true → s.clk.st = .coast ∨ s.clk.st = .fallback → s.clk.marked = none →
      exec .refReturned s = .next { s with clk := { s.clk with acquire := some .reference } }) ∧
    (s.clk.st = .glideUp →
      exec .glideUpEnd s = .next { s with clk := { s.clk with st := .locked, refLost := false } })

/-- How a hub starts (R432, R438, R441, R455, R458–R461, R464, R75): the cold start, the reset release, the lock or the fallback
oscillator, the self-test gate, the claim. -/
def Obligations.StartSequenceAdvances : Prop :=
  ∀ (s : State),
    (s.pow.ioUp = true → s.pow.anaUp = true → s.pow.coreUp = false →
      ∃ t, exec .coldStart s = .next t ∧ t.report = s.report ∧
      (s.report.detours.wf = true → ∀ r < 64, r ∈ t.pow.doubled ↔ 64 < s.report.detours.get r) ∧
      t.hubA.start.step = 1 ∧ t.hubB.start.step = 1 ∧ t.pow.coreUp = true ∧ t.pow.regOpen = false ∧ t.hub = {} ∧
      t.setup = {} ∧ t.clk = {} ∧ t.reads = [] ∧ t.pending = s.pending ∧
      ∀ r, (t.region r).therm.latch = (s.region r).therm.latch ∧ (t.region r).therm.comps = (s.region r).therm.comps ∧
        (t.region r).spec = {}) ∧
    (∀ (h : Hub) (d : Fin 4), (s.hubOf h).start.step = 1 → ∃ t, exec (.powerOnResetRelease h d) s = .next t ∧
      (t.hubOf h).start = { (s.hubOf h).start with
        step := 2, fbDly := d.val, attempts := min 255 ((s.hubOf h).start.attempts + 1) } ∧
      t.hubOf h.other = s.hubOf h.other ∧ t = { s with hubA := t.hubA, hubB := t.hubB }) ∧
    (∀ (h : Hub) (c : Instr) (fb : Bool), (s.hubOf h).start.step = 2 → (s.hubOf h).start.ended = false →
      s.pow.rstLow = false → s.pow.gateSpent = false → (s.hubOf h).start.path = fb →
      (c = .hubLoopLock h ∧ fb = false) ∨ (c = .fbDlyElapsed h ∧ fb = true) →
      ∃ t, exec c s = .next t ∧ (t.hubOf h).start.step = 5 ∧ (t.hubOf h).start.since = t.period.toNat ∧
        t.pow.regOpen = true ∧ t.pow.gateSet = true ∧ t.hubOf h.other = s.hubOf h.other ∧
        (s.pow.ecapLow h = false → t.hub = s.hub) ∧
        (s.clk.st ≠ .stopped → t.period = s.period ∧ t.clk = s.clk) ∧
        (s.clk.st = .stopped → t.period = 0 ∧ t.clk.refLost = fb ∧ t.clk.fbRun = fb ∧
          t.clk.st = (if fb then .fallback else .locked))) ∧
    (∀ h : Hub, (s.hubOf h).start.step = 2 → (s.hubOf h).start.path = false → (s.hubOf h).start.ended = false →
      ∃ t, exec (.hubLoopLockTimeout h) s = .next t ∧ (t.hubOf h).start = { (s.hubOf h).start with path := true } ∧
        t.clk = (if s.clk.st = .stopped then { s.clk with fbRun := true } else s.clk) ∧
        t.hubOf h.other = s.hubOf h.other ∧ t.regions = s.regions ∧ t.hub = s.hub) ∧
    (∀ (h : Hub) (entered : Bool), (s.hubOf h).start.step = 2 → (s.hubOf h).start.path = true →
      (s.hubOf h).start.ended = false → ∃ t, exec (.clockMonitorTrip h entered) s = .next t ∧
        (t.hubOf h).start.ended = true ∧ (t.hubOf h).engRunLow = false ∧ (t.hubOf h).coll.monFault = true ∧
        t.regions = s.regions ∧ t.hub = s.hub) ∧
    (∀ (asserted still : SMap (BitVec 8)), s.pow.gateSet = true → s.pow.gateSpent = false →
      ∃ t, exec (.selfTestGateRelease asserted still) s = .next t ∧ t.pow.gateSpent = true ∧
        (∀ h : Hub, (s.hubOf h).start.step = 5 → 7 ≤ (t.hubOf h).start.step ∧
          ((t.hubOf h).start.selfFail = true ↔ ∃ r < 64, asserted.get r ≠ 0xFF) ∧
          t.hub.recorder.head = 1 ∧ t.hub.recorder.recs.map (fun x => (x.seq, x.code)) = [(0, 0x01)]) ∧
        ∀ r < 64, (asserted.get r ≠ 0xFF → (t.region r).therm.selfTest = true) ∧
          (t.region r).therm.latch = decide (still.get r ≠ 0) ∧ (t.region r).therm.comps = still.get r ∧
          (t.region r).caps = (s.region r).caps ∧ (t.region r).clusters = (s.region r).clusters) ∧
    (7 ≤ s.hubB.start.step → s.hubB.start.ended = false → s.owner = none → s.hubA.start.step < 8 → s.pow.rstLow = false →
      s.hubB.start.since + 2000 ≤ s.period.toNat → ∃ t, exec .epochClaimTimeout s = .next t ∧ t.owner = some .b ∧
        t.hubB.start.step = 8 ∧ t.hubB.start.claimed = true ∧
        t.epoch = (if s.hubB.epoch + 1 = 0 then 1 else s.hubB.epoch + 1) ∧ t.pair.claims = List.range 64 ∧
        (∀ r < 64, Spoken t (.claim r t.epoch)) ∧ t.regions = s.regions ∧ t.hub = { s.hub with recorder := t.hub.recorder } ∧
        t.hub.recorder.recs.map (fun x => (x.seq, x.code)) = s.hub.recorder.recs.map (fun x => (x.seq, x.code)))

/-- Rails, warm resets and the defect map (R32, R432, R438, R441, R442, R455–R457, R466): what each takes away and what it keeps. -/
def Obligations.RailsAndResetsClear : Prop :=
  ∀ (s : State),
    (s.pow.coreUp = true → ∃ t, exec (.railDown .core) s = .next t ∧ t.pow.coreUp = false ∧ t.hub = {} ∧ t.setup = {} ∧
      t.clk = {} ∧ t.pow.anaUp = s.pow.anaUp ∧ t.pow.ioUp = s.pow.ioUp ∧
      ∀ r, (t.region r).therm.latch = (s.region r).therm.latch) ∧
    (s.pow.anaUp = true → ∃ t, exec (.railDown .ana) s = .next t ∧ t.pow = { s.pow with anaUp := false, brownOut := s.pow.coreUp } ∧
      t.hub = s.hub ∧ t.period = s.period ∧
      ∀ r c i, (((t.region r).clusters.get c).limiters.get i).e = 0) ∧
    (s.pow.ioUp = true → ∃ t, exec (.railDown .io) s = .next t ∧ t.pow = { s.pow with ioUp := false, brownOut := s.pow.coreUp } ∧
      t.hub = s.hub ∧ t.regions = s.regions ∧ t.period = s.period) ∧
    (∀ rail : Rail, s.pow.railUp rail = false → s.pow.brownOut = false → ∃ t, exec (.railUp rail) s = .next t ∧
      t.pow = s.pow.setRail rail true ∧ t.hub = s.hub ∧ t.period = s.period ∧
      (rail ≠ .ana → t.regions = s.regions) ∧
      (rail = .ana → ∀ r, (t.region r).therm.latch = false ∧ (t.region r).caps = (s.region r).caps)) ∧
    (∀ rail : Rail, s.pow.railUp rail = false → s.pow.brownOut = true → s.pow.rstLow = false → (s.pow.setRail rail true).ioUp = true →
      (s.pow.setRail rail true).anaUp = true → (s.pow.setRail rail true).coreUp = true → s.clk.st ≠ .stopped →
      ∃ t, exec (.railUp rail) s = .next t ∧ bitOf t.pow.cause.toNat 3 = true ∧ t.pow.brownOut = false ∧
        t.pow.regOpen = true ∧ t.pow.startDone = false ∧ t.period = s.period ∧ t.setup = {}) ∧
    (s.pow.rstLow = false → s.pow.ioUp = true → s.pow.coreUp = true → ∃ t, exec .rstNAssert s = .next t ∧ t.pow.rstLow = true ∧
      t.period = s.period ∧
      (s.clk.st ≠ .stopped → t.pow.resetForce = true ∧ t.pow.regOpen = false ∧ t.pow.startDone = false ∧
        bitOf t.pow.cause.toNat 0 = true ∧ t.setup = {} ∧ t.hub.thyme = {} ∧ t.hub.groups = {} ∧
        t.hub.recorder.exported = s.hub.recorder.exported ∧ t.hub.rings.tseq = s.hub.rings.tseq ∧
        ∀ r, (t.region r).sp.trim = (s.region r).sp.trim ∧ (t.region r).therm.latch = (s.region r).therm.latch ∧
          (t.gov r).epoch = (s.gov r).epoch ∧ ∀ c i, (((t.region r).clusters.get c).limiters.get i).e = 0)) ∧
    (s.pow.rstLow = true → ∃ t, exec .rstNRelease s = .next t ∧ t.pow.rstLow = false ∧ t.period = s.period ∧
      (s.clk.st ≠ .stopped → t.pow.resetForce = false ∧ t.pow.regOpen = true ∧ t.pow.cause = s.pow.cause ∧
        (4 ≤ s.hubA.start.step → 7 ≤ t.hubA.start.step) ∧ (4 ≤ s.hubB.start.step → 7 ≤ t.hubB.start.step) ∧
        t.hub.recorder.head = s.hub.recorder.head + 1 ∧
        t.hub.recorder.recs.getLast?.map (fun x => (x.seq, x.code)) = some (s.hub.recorder.head, 0x02))) ∧
    (s.pow.regOpen = true → s.clk.st ≠ .stopped → ∃ t, exec (.rstCtlKey 0xA5) s = .next t ∧
      bitOf t.pow.cause.toNat 1 = true ∧ t.pow.startDone = false ∧ t.period = s.period ∧ t.setup = {} ∧
      t.hub.groups = {}) ∧
    (∀ key : Byte, key ≠ 0xA5 → exec (.rstCtlKey key) s = .next s) ∧
    (∀ d : DefectReport, s.started = true → d.detours.wf = true → d.govDetours.wf = true → d.chiveDetours.wf = true →
      ∃ t, exec (.defectMapChange d.detours d.govDetours d.chiveDetours d.heldCores) s = .next t ∧ t.report = d ∧
        (∀ r < 64, r ∈ t.pow.doubled ↔ 64 < d.detours.get r) ∧
        (∀ k < 4096, k ∈ t.pow.doubledGov ↔ 64 < d.govDetours.get k) ∧
        (∀ c < 36864, c ∈ t.pow.doubledChive ↔ 16 < d.chiveDetours.get c) ∧
        ((∃ r < 64, 64 < d.detours.get r) ∨ (∃ k < 4096, 64 < d.govDetours.get k) ∨ (∃ c < 36864, 16 < d.chiveDetours.get c) →
          t.events = s.events ++ [{ src := 209, cause := 0 }]) ∧
        ((∀ r < 64, d.detours.get r ≤ 64) → (∀ k < 4096, d.govDetours.get k ≤ 64) →
          (∀ c < 36864, d.chiveDetours.get c ≤ 16) → t.events = s.events) ∧
        t.hub = s.hub ∧ t.period = s.period ∧ ∀ r, (t.region r).caps = (s.region r).caps ∧ (t.region r).sp = (s.region r).sp) ∧
    (∀ d : DefectReport, s.started = false →
      exec (.defectMapChange d.detours d.govDetours d.chiveDetours d.heldCores) s = .next { s with report := d })

/-- The test access port (R485–R492): a change of the instruction shows the 0x01 that the register captured; IDCODE, START_STAT, the boundary register, the request for a challenge and its refusal,
a certificate's verification, and what ends a grant. -/
def Obligations.DebugPortAnswers : Prop :=
  ∀ (s : State) (h : Hub), s.tapUp = true →
    let ir (i : Nat) : List Effect := if (s.dbg h).instr = i then [] else [.tdo h 0x01]
    (∃ t, exec (.idcode h) s = .next t ∧ (t.dbg h) = { s.dbg h with instr := 0x02, driving := false } ∧
      t.out = s.out ++ ir 0x02 ++ [.tdo h (0x00A713B3 + 0x10000000 * (Config.stepping.toNat % 16))] ∧ t.hub = s.hub ∧ t.regions = s.regions) ∧
    (∃ t, exec (.startRead h) s = .next t ∧ t.out = s.out ++ ir 0x10 ++ [.tdo h (s.hubOf h).start.word] ∧ t.hub = s.hub ∧
      (t.dbg h) = { s.dbg h with instr := 0x10, driving := false }) ∧
    (∀ bits, ∃ t, exec (.samplePreload h bits) s = .next t ∧ (t.dbg h).boundary = bits ∧ (t.dbg h).instr = 0x01 ∧
      (∀ x : Hub, x ≠ h → t.hubOf x = s.hubOf x) ∧ t.hub = s.hub ∧ t.regions = s.regions) ∧
    (∀ bits, ∃ t, exec (.extest h bits) s = .next t ∧ (t.dbg h).boundary = bits ∧ (t.dbg h).instr = 0x00 ∧
      ((t.dbg h).driving = true ↔ bitOf (s.dbg h).scope.toNat 5 = true ∧ (s.hubA.engRunLow = true ∨ s.hubB.engRunLow = true)) ∧
      t.hub = s.hub ∧ t.regions = s.regions) ∧
    (s.dbgClocked h = true → s.canAuth h = true → ∀ scope : BitVec 6,
      (s.cfgBit 0x4000 0 = true → ∃ t, exec (.auth h scope) s = .next t ∧ (t.dbg h).reqScope = scope ∧
        (t.dbg h).challenge.isSome = true ∧ (t.dbg h).scope = (s.dbg h).scope ∧ t.hub = s.hub ∧ t.regions = s.regions) ∧
      (s.cfgBit 0x4000 0 = false → ∃ t, exec (.auth h scope) s = .next t ∧ (t.dbg h).challenge = none ∧
        (t.dbg h).authDetail = 0xC4 ∧ (t.dbg h).scope = (s.dbg h).scope)) ∧
    (s.dbgClocked h = true → s.canAuth h = true → ∀ c : DbgCert, ∃ t, exec (.authVerified h c) s = .next t ∧
      (t.dbg h).challenge = none ∧ t.hub = s.hub ∧ t.regions = s.regions ∧
      (certReason s h c = none → (t.dbg h).scope = (c.scope &&& (s.dbg h).reqScope) ∧ (t.dbg h).authDetail = 0) ∧
      (∀ e, certReason s h c = some e → (t.dbg h).scope = (s.dbg h).scope ∧ (t.dbg h).authDetail = e)) ∧
    (∃ t, exec (.testLogicReset h) s = .next t ∧ (t.dbg h).scope = 0 ∧ (t.dbg h).halted = [] ∧ (t.dbg h).bpCores = [] ∧
      (t.dbg h).instr = 0x02) ∧
    (∀ op : DbgOp, s.dbgClocked h = true → ((s.dbg h).pendOp.isSome = true ∨ s.dbgBad op [0, 1, 2, 3, 4, 5] = false) →
      ∃ t, exec (.nop ⟨h, op⟩) s = .next t ∧ (t.dbg h) = { s.dbg h with instr := 0x21, driving := false } ∧
        t.out = s.out ++ ir 0x21 ++ [.tdo h (s.dbg h).capture]) ∧
    (∀ op : DbgOp, s.dbgClocked h = true → (s.dbg h).pendOp = none → s.dbgBad op [0, 1, 2, 3, 4, 5] = true →
      ∃ t, exec (.nop ⟨h, op⟩) s = .next t ∧ DebugAnswers t h 6 0 0) ∧
    (∀ n : Nat, (s.dbg h).pendOp = some n → ∃ t, exec (.chiveDebugReply h) s = .next t ∧ (t.dbg h).pendOp = none ∧
      DebugAnswers t h (s.dbg h).pendRes.1 (s.dbg h).pendRes.2.1 (s.dbg h).pendRes.2.2)

/-- The operations of the debug port on a core of its own hub, on the recorder and on the register window, within their scope
(R490–R493): what each does to the core, and its result. Outside the scope the answer is DENIED, at a running core that must be
halted NOT_HALTED. -/
def Obligations.DebugOperationsAct : Prop :=
  ∀ (s : State) (h : Hub) (op : DbgOp) (k : Fin 3),
    (OnHubCore s h op k → s.scopeBit h 0 op.unit.val = true →
      ((s.coreAt h k).state = .running → ∃ t, exec (.halt h op) s = .next t ∧ (t.coreAt h k).state = .halted ∧
        CoreId.hub h k ∈ (t.dbg h).halted ∧ DebugAnswers t h 0 1 0 ∧ (t.dbg h).unit = op.unit.val ∧
        (t.dbg h).addr = op.addr ∧ t.hub = s.hub ∧ t.regions = s.regions) ∧
      ((s.coreAt h k).state = .halted → ∃ t, exec (.resume h op) s = .next t ∧ (t.coreAt h k).state = .running ∧
        (t.coreAt h k).data = (s.coreAt h k).data ∧ DebugAnswers t h 0 0 0) ∧
      ((s.coreAt h k).state = .halted → ∃ t, exec (.step h op) s = .next t ∧ (t.coreAt h k).state = .halted ∧
        DebugAnswers t h 0 6 0 ∧ t.hub = s.hub ∧ t.regions = s.regions) ∧
      ((s.coreAt h k).state = .running → ∀ c : Instr, c = .resume h op ∨ c = .step h op ∨ c = .regRead h op →
        ∃ t, exec c s = .next t ∧ (t.coreAt h k) = s.coreAt h k ∧ DebugAnswers t h 4 (s.coreAt h k).haltWhy 0) ∧
      (op.addr.toNat < bankSize k → ∃ t, exec (.bpSet h op) s = .next t ∧
        (op.data.toNat % 4, op.addr, h) ∈ (t.coreAt h k).breakpts ∧ CoreId.hub h k ∈ (t.dbg h).bpCores ∧
        (t.coreAt h k).state = (s.coreAt h k).state ∧ (t.dbg h).status = 0 ∧ t.hub = s.hub) ∧
      (∃ t, exec (.bpClear h op) s = .next t ∧ (∀ a, (op.data.toNat % 4, a) ∉ (t.coreAt h k).breakpts) ∧
        (∀ x ∈ (s.coreAt h k).breakpts, x.1 ≠ op.data.toNat % 4 → x ∈ (t.coreAt h k).breakpts) ∧
        (t.coreAt h k).state = (s.coreAt h k).state ∧ (t.dbg h).status = 0 ∧ t.hub = s.hub) ∧
      ((s.coreAt h k).state = .halted → ∃ t v, exec (.regRead h op) s = .next t ∧ (op.addr, v) ∈ (t.coreAt h k).regs ∧
        DebugAnswers t h 0 (s.coreAt h k).haltWhy v ∧ ∀ w, (s.coreAt h k).regs = [(op.addr, w)] → v = w) ∧
      ((s.coreAt h k).state = .halted → s.scopeBit h 2 op.unit.val = true → ∃ t, exec (.regWrite h op) s = .next t ∧
        (t.coreAt h k).regs.find? (fun p => p.1 == op.addr) = some (op.addr, op.data) ∧
        (t.coreAt h k).data = (s.coreAt h k).data ∧ (t.dbg h).status = 0)) ∧
    (OnHubCore s h op k → op.addr.toNat % 4 = 0 → ∀ i, dataWord k op.addr.toNat = some i →
      (s.scopeBit h 2 op.unit.val = true → (s.coreAt h k).state = .halted →
        (∀ x, op.merge = some x → readFound s.fresh x ≠ some false) → ∃ t, exec (.memWrite h op) s = .next t ∧
        (t.coreAt h k).data.get i = op.data ∧ (∀ j, j ≠ i → (t.coreAt h k).data.get j = (s.coreAt h k).data.get j) ∧
        i ∈ (t.coreAt h k).seen ∧ (t.dbg h).status = 0 ∧ t.hub = { s.hub with retain := t.hub.retain } ∧
        (s.owner ≠ some h → t.hub = s.hub) ∧ (op.merge = none → t.events = s.events)) ∧
      (∀ x : ReadErr, s.scopeBit h 2 op.unit.val = true → (s.coreAt h k).state = .halted → op.merge = some x →
        readFound s.fresh x = some false → ∃ t, exec (.memWrite h op) s = .next t ∧
        { src := 200, cause := 1, core := some (.hub h k) } ∈ t.events ∧ (t.dbg h).status = 8 ∧
        ((t.coreAt h k).state = .restarting ∨ (t.coreAt h k).state = .stopped)) ∧
      (∀ x : ReadErr, s.scopeBit h 1 op.unit.val = true → i ∈ (s.coreAt h k).seen → readFound s.fresh x = none →
        ∃ t, exec (.memRead h op x) s = .next t ∧ (t.coreAt h k) = s.coreAt h k ∧ t.events = s.events ∧
          DebugAnswers t h 0 (s.coreAt h k).haltWhy ((s.coreAt h k).data.get i)) ∧
      (∀ x : ReadErr, s.scopeBit h 1 op.unit.val = true → i ∈ (s.coreAt h k).seen → readFound s.fresh x = some true →
        readSound s.fresh x = true → ∃ t, exec (.memRead h op x) s = .next t ∧ (t.coreAt h k) = s.coreAt h k ∧
          t.events = s.events ++ [{ src := 200, cause := 0, core := some (.hub h k) }] ∧
          DebugAnswers t h 0 (s.coreAt h k).haltWhy ((s.coreAt h k).data.get i)) ∧
      (∀ x : ReadErr, s.scopeBit h 1 op.unit.val = true → readFound s.fresh x = some false →
        ∃ t, exec (.memRead h op x) s = .next t ∧ { src := 200, cause := 1, core := some (.hub h k) } ∈ t.events ∧
        (t.dbg h).status = 8 ∧ ((t.coreAt h k).state = .restarting ∨ (t.coreAt h k).state = .stopped))) ∧
    (OnHubCore s h op k → s.scopeBit h 0 op.unit.val = false → ∀ c : Instr, c = .halt h op ∨ c = .resume h op ∨ c = .step h op →
      ∃ t, exec c s = .next t ∧ DebugAnswers t h 2 0 0 ∧ t.coreAt h k = s.coreAt h k) ∧
    (∀ a : Word, (s.coreAt h k).state = .running → (∃ n w, (s.coreAt h k).breakpts = [(n, a, w)]) →
      ∃ t, exec (.breakpointHit (.hub h k) a) s = .next t ∧ (t.coreAt h k).state = .halted ∧
        (∀ n w, (s.coreAt h k).breakpts = [(n, a, w)] → (t.coreAt h k).haltWhy = 2 + n) ∧ t.hub = s.hub) ∧
    (DebugReady s h op → op.cluster = 0 → s.scopeBit h 3 0 = true →
      (op.unit.val = 4 → ∀ w, recorderWord (s.imageOfHub h).recorder op.addr.toNat = some w → ∀ x : ReadErr,
        (0x40000 ≤ op.addr.toNat ∨ readFound s.fresh x = none → ∃ t, exec (.recRead h op x) s = .next t ∧
          DebugAnswers t h 0 0 (BitVec.ofNat 32 w) ∧ t.hub = s.hub) ∧
        (op.addr.toNat < 0x40000 → readFound s.fresh x = some false → ∃ t, exec (.recRead h op x) s = .next t ∧
          (t.dbg h).status = 8 ∧ { src := 204, cause := 1 } ∈ t.events)) ∧
      (op.unit.val = 5 → op.addr.toNat < 0x200000 → op.addr.toNat % 4 = 0 → s.pow.regOpen = true →
        ∃ t v, exec (.winRead h op) s = .next t ∧ DebugAnswers t h 0 0 v ∧ t.hub = s.hub ∧ t.setup = s.setup)) ∧
    (DebugReady s h op → (op.unit.val ≤ 2 ∨ op.unit.val = 4 ∨ op.unit.val = 5) → op.cluster = 0 →
      (∃ t, exec (.deauth h op) s = .next t ∧ (t.dbg h).scope = 0 ∧ (t.dbg h).halted = [] ∧ (t.dbg h).bpCores = []) ∧
      (s.scopeBit h 4 0 = true → ∃ t, exec (.warmReset h op) s = .next t ∧ t.period = s.period ∧
        bitOf t.pow.cause.toNat 4 = true ∧ t.pow.startDone = false ∧ t.setup = {})) ∧
    (∀ n : ClusterId, DebugReady s h op → op.unit.val = 3 → op.cluster = n.val → (s.cluster n).ctl.spared = false → s.owner = some h →
      s.scopeBit h 0 3 = true → s.hub.fw.act = none → (s.cluster n).core.state = .running →
      ∃ t, exec (.halt h op) s = .next t ∧ (t.cluster n).core.state = .halted ∧ (t.dbg h).pendOp = some 1 ∧
        (t.dbg h).pendRes = (0, 1, 0) ∧ (t.dbg h).status = 1)

/-- A control-period boundary advances the period count by one; while a warm reset's pin is held only the powered time advances
beside it, with the clocks stopped there is no boundary (R163, R219, R456). A delivered shadow that its governor holds in time waits for its boundary; one that
comes late waits for the next, with APPLY_LATE and a fault (R475).
The boundary carries out what was asked for it: restarted rings stand at 0 with their flags clear (R294), a revoked or released grant
holds nothing in the region, a committed one is in force there (R229, R246, R255), a cap is in force and, where no group's tightening
can wait, acknowledged (R47, R48), an emergency preset is in force (R56), a model whose switch names the boundary, and of which every
region named has heard, is active and acknowledged (R118), a released slot is gone and its members are in no such group (R271). -/
def Obligations.BoundaryCountsAndShadowsArrive : Prop :=
  (∀ (s : State) (inp : BoundaryInput), PlainBoundary s →
    let after (c : Instr) (p : State → Prop) : Prop :=
      ∃ t w, exec c s = .next t ∧ exec (.controlPeriodBoundary inp) t = .next w ∧ p w
    (s.pow.regOpen = true →
      (∀ mask : BitVec 8, after (.restartPair mask) (fun w =>
        ∀ k, k < 16 → mask.getLsbD (k % 8) = true → RingFresh (w.ring k))) ∧
      after .restartTel (fun w => RingFresh (w.ring 16)) ∧ after .restartEvx (fun w => RingFresh (w.ring 17))) ∧
    (∀ (r : RegionId) (hdr : MsgHdr),
      (∀ i : Nat, Accepted s r 0x03 hdr → after (.revocation r hdr i) (fun w => ∀ v ∈ (w.region r).resvs, v.grant ≠ i)) ∧
      (∀ (cap : Nat) (clear : Bool), Accepted s r 0x40 hdr → s.pow.waferRun = true → after (.capMessage r hdr cap clear) (fun w =>
        (w.region r).caps.iReg ≤ cap ∧ (w.region r).caps.waiting = none ∧
        ((s.region r).slots = [] → (∀ c, ((s.region r).clusters.get c).ctl.group = none) →
          Spoken w (.capAck r (w.region r).caps.iReg)))) ∧
      (∀ preset : Nat, hdr.goodTo true = true → s.pow.waferRun = true → after (.emergencyCapBroadcast r hdr preset) (fun w =>
        (w.region r).caps.iReg ≤ preset ∧ (w.region r).caps.ecapWait = none)) ∧
      (∀ p : BitVec 48, Accepted s r 0x22 hdr → p = s.period + 1 → s.period.toNat < p.toNat → inp.scrubs = [] → inp.found = [] →
        (∀ l ∈ s.hub.loads, ∀ k ∈ onesOf 64 l.mask.toNat, k = r.val ∨ (s.region k).sage.switchAt = some p) →
        after (.modelSwitch r hdr p) (fun w => (w.region r).sage.model = .active ∧
          (w.region r).sage.weights = (s.region r).sage.loadBuf ∧ (w.region r).sage.switchAt = none ∧ Spoken w (.modelAck r))) ∧
      (∀ gid : Fin 1024, Accepted s r 0x17 hdr → after (.groupSlotRelease r hdr gid) (fun w =>
        (∀ x ∈ (w.region r).slots, x.gid ≠ gid) ∧
        ∀ x ∈ (s.region r).slots, x.gid = gid → x.written = true → ∀ c ∈ x.members,
          ((w.region r).clusters.get c).ctl.group ≠ some gid.val)) ∧
      (∀ x : TreeWord, x.root = (s.gov r).root → x.checkOk = true → x.epoch = (s.gov r).epoch → x.period = s.period + 1 →
        ((∀ y ∈ (s.gov r).words, y.1.period = x.period → y.1.epoch = x.epoch → y.2 = false → y.1.indices = x.indices) →
          after (.commitWord r x) (fun w => ∀ v ∈ (w.region r).resvs, v.grant ∈ x.indices → v.inForce = true)) ∧
        ((∀ y ∈ (s.gov r).words, y.1.period = x.period → y.1.epoch = x.epoch → y.2 = true → y.1.indices = x.indices) →
          after (.releaseWord r x) (fun w => ∀ v ∈ (w.region r).resvs, v.grant ∉ x.indices))))) ∧
  ∀ (s : State),
    (∀ inp, s.clk.st = .stopped → exec (.controlPeriodBoundary inp) s = .next s) ∧
    (∀ inp, s.clk.st ≠ .stopped → s.pow.rstLow = true → exec (.controlPeriodBoundary inp) s = .next
      (journaled (fun s => ({ s with period := s.period + 1, pow := { s.pow with crstAgo := min 10000 (s.pow.crstAgo + (if s.coasting then 2 else 1)) } }
        : State).modAgeing (Ageing.powered s.coasting)) s)) ∧
    (∀ inp, s.clk.st ≠ .stopped → s.pow.rstLow = false → ∃ t, exec (.controlPeriodBoundary inp) s = .next t ∧
      t.period = s.period + 1 ∧ t.tick = s.tick) ∧
    (∀ (r : RegionId) (hdr : MsgHdr) (due : BitVec 48) (words : List (Nat × Word)), Accepted s r 0x30 hdr →
      let mine (x : Shadow) : Bool := inRegionBlock x.offset && (x.offset - 0x100000) / 0x1000 == r.val &&
        x.due == some due.toNat && !x.sent && words.any (fun w => w.1 == x.offset && w.2 == x.word)
      (s.period.toNat < due.toNat → exec (.shadowDelivery r hdr due words) s = .next ((s.noted r 0x30 hdr).modSetup (fun u =>
        { u with shadows := u.shadows.map (fun x => if mine x then { x with sent := true } else x) }))) ∧
      (due.toNat ≤ s.period.toNat → s.setup.shadows.any mine = true → ∃ t, exec (.shadowDelivery r hdr due words) s = .next t ∧
        t.setup = { s.setup with applyLate := true, shadows := s.setup.shadows.map (fun x =>
          if mine x then { x with sent := true, due := some (s.period.toNat + 1) } else x) } ∧
        t.events = s.events ++ [{ src := 206, cause := 1 }] ∧ t.regions = s.regions ∧ t.hub = s.hub))

/-- A command of a governor or a region changes regions and governors alone, what they send with its sequence numbers and the
replies it waits for, what they raise and latch: no hub, no mirrored
image, no clock, no set-up register, no reset state. -/
def Obligations.RegionCommandsKeepTheHubs : Prop :=
  ∀ (c : Instr) (s t : State), onRegions c = true → exec c s = .next t →
    t = { s with
      regions := t.regions, govs := t.govs, events := t.events, latches := t.latches, seqs := t.seqs, await := t.await
      out := t.out }

/-- A command of the hubs changes no region, no governor, no group's home, no clock, no set-up register, no rail or reset state,
neither count of time, and nothing in the queue. -/
def Obligations.HubCommandsKeepTheRegions : Prop :=
  ∀ (c : Instr) (s t : State), onHubs c = true → exec c s = .next t →
    t.regions = s.regions ∧ t.govs = s.govs ∧ t.homes = s.homes ∧ t.clk = s.clk ∧ t.setup = s.setup ∧ t.pow = s.pow ∧
      t.period = s.period ∧ t.tick = s.tick ∧ t.pending = s.pending

/-- Every step keeps the clock loop in a row of R444 with its REF_LOST, and in the conditions that R447, R449 and R450 put on a
switch. -/
def Obligations.ClockLoopStaysLegal : Prop :=
  ∀ (s t : State), ClockLegal s.clk → step s = .next t → ClockLegal t.clk

/-- In every region, at every step, the pre-raises issued are those confirmed, missed and abandoned, and the one that stands
(R149). -/
def Obligations.SpeculationStaysInBalance : Prop :=
  ∀ (s t : State), (∀ r, SpecLegal (s.region r).spec) → step s = .next t → ∀ r, SpecLegal (t.region r).spec

/-- A setting of the limiter bus survives its word, every word of good parity is the word of its setting, and no word with one
bit turned over passes (R155, R157). -/
def Obligations.SettingWordRoundTrip : Prop :=
  (∀ x : SettingWord, x.mode < 4 → x.addr < 1024 → x.core < 32 → x.kind < 4 → x.code < 128 → x.slope < 8 →
    settingOf (settingWord x) = x ∧ parityOk (settingWord x) = true ∧
      ∀ i, i < 32 → parityOk (settingWord x ^^^ BitVec.ofNat 32 (2 ^ i)) = false) ∧
  (∀ w : Word, parityOk w = true → settingWord (settingOf w) = w)

/-- The division of a region's cap (R163, R164, R278): while no tightening waits for its landing, or an emergency action lowers
the members, the shares of the live clusters sum to no more than the cap; while one waits, to no more than the cap in force
before, or what they were; and a live cluster's ceiling is the largest code whose current is within its share, 0 where none is. -/
def Obligations.SharesStayWithinTheCap : Prop :=
  ∀ (s : State) (r : Nat) (guard : Bool), (s.region r).clusters.wf = true → (s.region r).therm.selfTest = false →
    let g := s.region r
    let d : Div := ⟨s.coefs r, g.sp.vc, g.caps.iReg, guard⟩
    let m := ((divideRegion r guard s).region r).clusters
    let free := ({ d with iReg := g.caps.calm } : Div).uncapped g.clusters
    let slots := g.slots.map (fun x => { x with mR := x.least free })
    let sum (m : SMap Cluster) : Nat :=
      ((List.range 576).map (fun c => if (g.clusters.get c).ctl.spared then 0 else (m.get c).ctl.share)).sum
    (s.holdShares r = false ∨
        (∀ c, c < 576 → (g.clusters.get c).ctl.spared = false → (g.clusters.get c).tight (slotMR slots) = false) →
      sum m ≤ g.caps.iReg) ∧
    sum m ≤ max (max g.caps.iReg g.caps.lastAck) (sum g.clusters) ∧
    (∀ c, c < 576 → (g.clusters.get c).ctl.spared = true → (m.get c).ctl.share = 0 ∧ (m.get c).ctl.ceil = 0) ∧
    (∀ c, c < 576 → (g.clusters.get c).ctl.spared = false →
      let u := g.clusters.get c
      let a := if guard = true ∨ u.feature.aPrev = 0 then (s.coefs r).aMax else u.feature.aPrev
      let x := (m.get c).ctl.share
      let e := (m.get c).ctl.ceil
      e ≤ 64 ∧ (∀ k, k ≤ 64 → d.k.q d.vc u.feature.vPrev a k ≤ x → k ≤ e) ∧
        (d.k.q d.vc u.feature.vPrev a 0 ≤ x → d.k.q d.vc u.feature.vPrev a e ≤ x) ∧
        (x < d.k.q d.vc u.feature.vPrev a 0 → e = 0))

/-- Right after reset: no command waits, the clocks are stopped in a legal state, the counters of every region balance, no
register access is open, every limiter stands at code 0, no model is loaded (R149, R444, R467; the reset values that the
spec does not give are the model's, notes/assumptions/10.md). -/
def Obligations.ResetMeetsTheInvariants : Prop :=
  State.reset.pending = [] ∧ ClockLegal State.reset.clk ∧ (∀ r, SpecLegal (State.reset.region r).spec) ∧
    State.reset.clk.st = .stopped ∧ State.reset.pow.regOpen = false ∧
    (∀ c i, ((State.reset.cluster c).limiters.get i).e = 0) ∧ (∀ r, (State.reset.region r).sage.model = .none) ∧
    (∀ r, (State.reset.region r).clusters.wf = true)
end

