-- ==== Sys2Proof/Laws/SMap.lean ====
section
/-!
SUPPORT. Arrays with a common value: what a read gives after each change, and that each change keeps the canonical form.
The reads hold of every array, canonical or not.
-/

namespace Sys2Proof

theorem find_insert_self {α : Type} (k : Nat) (v : α) (l : List (Nat × α)) :
    (insertCell k v l).find? (fun p => p.1 == k) = some (k, v) := by
  induction l with
  | nil => simp [insertCell]
  | cons p rest ih =>
    obtain ⟨j, w⟩ := p
    simp only [insertCell]
    split
    · simp
    · split
      · simp
      · next h1 h2 => simp [Ne.symm h2, ih]

theorem find_insert_ne {α : Type} {k j : Nat} (h : j ≠ k) (v : α) (l : List (Nat × α)) :
    (insertCell k v l).find? (fun p => p.1 == j) = l.find? (fun p => p.1 == j) := by
  induction l with
  | nil => simp [insertCell, Ne.symm h]
  | cons p rest ih =>
    obtain ⟨i, w⟩ := p
    simp only [insertCell]
    split
    · simp [Ne.symm h]
    · split
      · next h2 => subst h2; simp [Ne.symm h]
      · by_cases hi : i = j
        · simp [hi]
        · simp [hi, ih]

theorem find_erase_self {α : Type} (k : Nat) (l : List (Nat × α)) :
    (eraseCell k l).find? (fun p => p.1 == k) = none := by
  simp [eraseCell, List.find?_eq_none]

theorem find_erase_ne {α : Type} {k j : Nat} (h : j ≠ k) (l : List (Nat × α)) :
    (eraseCell k l).find? (fun p => p.1 == j) = l.find? (fun p => p.1 == j) := by
  induction l with
  | nil => rfl
  | cons p rest ih =>
    obtain ⟨i, w⟩ := p
    by_cases hi : i = k
    · subst hi; simpa [eraseCell, Ne.symm h] using ih
    · have : eraseCell k ((i, w) :: rest) = (i, w) :: eraseCell k rest := by simp [eraseCell, hi]
      rw [this]
      by_cases hj : i = j
      · simp [hj]
      · simp [hj, ih]

/-- A read of the element written gives the value written. -/
@[simp] theorem SMap.get_set_self {α : Type} [DecidableEq α] (m : SMap α) (k : Nat) (v : α) : (m.set k v).get k = v := by
  simp only [SMap.set, SMap.get]
  split
  · next p h =>
    split at h
    · simp [find_erase_self] at h
    · rw [find_insert_self] at h; cases h; rfl
  · next h =>
    split at h
    · next e => exact e.symm
    · simp [find_insert_self] at h

/-- A write leaves every other element. -/
@[simp] theorem SMap.get_set_ne {α : Type} [DecidableEq α] (m : SMap α) {k j : Nat} (v : α) (h : j ≠ k) :
    (m.set k v).get j = m.get j := by
  simp only [SMap.set, SMap.get]
  by_cases hv : v = m.dflt
  · rw [if_pos hv, find_erase_ne h]
  · rw [if_neg hv, find_insert_ne h]

theorem SMap.get_set {α : Type} [DecidableEq α] (m : SMap α) (k j : Nat) (v : α) :
    (m.set k v).get j = if j = k then v else m.get j := by
  by_cases h : j = k
  · subst h; simp
  · simp [h]

@[simp] theorem SMap.dflt_set {α : Type} [DecidableEq α] (m : SMap α) (k : Nat) (v : α) : (m.set k v).dflt = m.dflt := rfl

@[simp] theorem SMap.get_modify_self {α : Type} [DecidableEq α] (m : SMap α) (k : Nat) (f : α → α) :
    (m.modify k f).get k = f (m.get k) := by simp [SMap.modify]

@[simp] theorem SMap.get_modify_ne {α : Type} [DecidableEq α] (m : SMap α) {k j : Nat} (f : α → α) (h : j ≠ k) :
    (m.modify k f).get j = m.get j := by simp [SMap.modify, h]

theorem SMap.get_modify {α : Type} [DecidableEq α] (m : SMap α) (k j : Nat) (f : α → α) :
    (m.modify k f).get j = if j = k then f (m.get k) else m.get j := by simp [SMap.modify, SMap.get_set]

theorem find_mapped {α β : Type} [DecidableEq β] (g : Nat → β) (d : β) (k : Nat) (l : List (Nat × α)) :
    ((l.map (fun p => (p.1, g p.1))).filter (fun p => p.2 ≠ d)).find? (fun p => p.1 == k) =
      if k ∈ l.map Prod.fst ∧ g k ≠ d then some (k, g k) else none := by
  induction l with
  | nil => simp
  | cons p rest ih =>
    by_cases hp : p.1 = k
    · subst hp
      by_cases hv : g p.1 = d
      · rw [List.map_cons, List.filter_cons_of_neg (by simp [hv]), ih]; simp [hv]
      · rw [List.map_cons, List.filter_cons_of_pos (by simp [hv])]; simp [hv]
    · have hb : ∀ q : β, ((p.1, q).1 == k) = false := fun q => by simp [hp]
      have hm : k ∈ (p :: rest).map Prod.fst ↔ k ∈ rest.map Prod.fst := by simp [Ne.symm hp]
      by_cases hv : g p.1 = d
      · rw [List.map_cons, List.filter_cons_of_neg (by simp [hv]), ih]; simp only [hm]
      · rw [List.map_cons, List.filter_cons_of_pos (by simp [hv]), List.find?_cons_of_neg (by simp [hp]), ih]; simp only [hm]

theorem SMap.get_of_notMem {α : Type} {m : SMap α} {k : Nat} (h : k ∉ m.cells.map Prod.fst) : m.get k = m.dflt := by
  unfold SMap.get
  rw [List.find?_eq_none.2 (fun p hp => by
    simp only [beq_iff_eq]; exact fun e => h (e ▸ List.mem_map_of_mem hp))]

/-- A change of every element. -/
@[simp] theorem SMap.get_mapAll {α β : Type} [DecidableEq β] (m : SMap α) (f : α → β) (k : Nat) :
    (m.mapAll f).get k = f (m.get k) := by
  have hk := find_mapped (fun i => f (m.get i)) (f m.dflt) k m.cells
  generalize hl : ((m.cells.map (fun p => (p.1, f (m.get p.1)))).filter (fun p => p.2 ≠ f m.dflt)) = l at hk
  have e : m.mapAll f = ⟨f m.dflt, l⟩ := by rw [← hl]; rfl
  rw [e]
  show (match l.find? (fun p => p.1 == k) with | some p => p.2 | none => f m.dflt) = f (m.get k)
  rw [hk]
  by_cases hm : k ∈ m.cells.map Prod.fst
  · by_cases hv : f (m.get k) = f m.dflt
    · rw [if_neg (fun h => h.2 hv)]; exact hv.symm
    · rw [if_pos ⟨hm, hv⟩]
  · rw [if_neg (fun h => hm h.1), SMap.get_of_notMem hm]

/-- Changes of a list of elements leave every element not named. -/
theorem SMap.get_modifyAll_ne {α : Type} [DecidableEq α] (m : SMap α) (ks : List Nat) (f : Nat → α → α) {j : Nat}
    (h : j ∉ ks) : (m.modifyAll ks f).get j = m.get j := by
  unfold SMap.modifyAll
  induction ks generalizing m with
  | nil => rfl
  | cons k rest ih =>
    have hk : j ≠ k := fun e => h (e ▸ List.mem_cons_self ..)
    simp only [List.foldl_cons]
    rw [ih _ (fun e => h (List.mem_cons_of_mem _ e))]
    exact SMap.get_modify_ne m _ hk

/-- An element named once is changed once. -/
theorem SMap.get_modifyAll_mem {α : Type} [DecidableEq α] (m : SMap α) (ks : List Nat) (f : Nat → α → α) {j : Nat}
    (hn : ks.Nodup) (h : j ∈ ks) : (m.modifyAll ks f).get j = f j (m.get j) := by
  induction ks generalizing m with
  | nil => cases h
  | cons k rest ih =>
    rw [List.nodup_cons] at hn
    have e : m.modifyAll (k :: rest) f = (m.modify k (f k)).modifyAll rest f := rfl
    rw [e]
    rcases List.mem_cons.1 h with rfl | hr
    · rw [SMap.get_modifyAll_ne _ _ _ hn.1, SMap.get_modify_self]
    · have hk : j ≠ k := fun e => hn.1 (e ▸ hr)
      rw [ih _ hn.2 hr, SMap.get_modify_ne _ _ hk]

/-! ### The canonical form -/

theorem mem_insertCell {α : Type} {k : Nat} {v : α} {l : List (Nat × α)} {p : Nat × α} (h : p ∈ insertCell k v l) :
    p = (k, v) ∨ p ∈ l := by
  induction l with
  | nil => simpa [insertCell] using h
  | cons q rest ih =>
    obtain ⟨j, w⟩ := q
    simp only [insertCell] at h
    split at h
    · simpa using h
    · split at h
      · rcases List.mem_cons.1 h with h | h
        · exact .inl h
        · exact .inr (List.mem_cons_of_mem _ h)
      · rcases List.mem_cons.1 h with h | h
        · exact .inr (h ▸ List.mem_cons_self ..)
        · rcases ih h with h | h
          · exact .inl h
          · exact .inr (List.mem_cons_of_mem _ h)

theorem sorted_insertCell {α : Type} (k : Nat) (v : α) (l : List (Nat × α))
    (h : (l.map Prod.fst).Pairwise (fun x y => x < y)) : ((insertCell k v l).map Prod.fst).Pairwise (fun x y => x < y) := by
  induction l with
  | nil => simp [insertCell]
  | cons q rest ih =>
    obtain ⟨j, w⟩ := q
    rw [List.map_cons, List.pairwise_cons] at h
    simp only [insertCell]
    split
    · next hk =>
      rw [List.map_cons, List.pairwise_cons]
      refine ⟨fun x hx => ?_, by rw [List.map_cons, List.pairwise_cons]; exact h⟩
      rcases List.mem_cons.1 hx with rfl | hx
      · exact hk
      · exact Nat.lt_trans hk (h.1 x hx)
    · split
      · next e => subst e; rw [List.map_cons, List.pairwise_cons]; exact h
      · next h1 h2 =>
        rw [List.map_cons, List.pairwise_cons]
        refine ⟨fun x hx => ?_, ih h.2⟩
        obtain ⟨p, hp, rfl⟩ := List.mem_map.1 hx
        rcases mem_insertCell hp with rfl | hp
        · show j < k; omega
        · exact h.1 _ (List.mem_map_of_mem hp)

/-- A write keeps the canonical form. -/
theorem SMap.wf_set {α : Type} [DecidableEq α] (m : SMap α) (k : Nat) (v : α) (h : m.wf = true) : (m.set k v).wf = true := by
  simp only [SMap.wf, Bool.and_eq_true, decide_eq_true_eq, List.all_eq_true] at h ⊢
  unfold SMap.set
  split
  · refine ⟨?_, fun p hp => ?_⟩
    · exact h.1.sublist (List.Sublist.map _ (List.filter_sublist ..))
    · exact h.2 p (List.mem_of_mem_filter hp)
  · next hv =>
    refine ⟨sorted_insertCell _ _ _ h.1, fun p hp => ?_⟩
    rcases mem_insertCell hp with rfl | hp
    · exact hv
    · exact h.2 p hp

theorem SMap.wf_modify {α : Type} [DecidableEq α] (m : SMap α) (k : Nat) (f : α → α) (h : m.wf = true) :
    (m.modify k f).wf = true := SMap.wf_set m k _ h

/-- A change of every element keeps the canonical form. -/
theorem SMap.wf_mapAll {α β : Type} [DecidableEq α] [DecidableEq β] (m : SMap α) (f : α → β) (h : m.wf = true) :
    (m.mapAll f).wf = true := by
  simp only [SMap.wf, Bool.and_eq_true, decide_eq_true_eq, List.all_eq_true] at h ⊢
  unfold SMap.mapAll
  refine ⟨?_, fun p hp => ?_⟩
  · have e : (m.cells.map (fun p => (p.1, f (m.get p.1)))).map Prod.fst = m.cells.map Prod.fst := by simp
    exact (e ▸ h.1).sublist (List.Sublist.map _ (List.filter_sublist ..))
  · have := (List.mem_filter.1 hp).2
    simpa using this

theorem SMap.wf_modifyAll {α : Type} [DecidableEq α] (m : SMap α) (ks : List Nat) (f : Nat → α → α) (h : m.wf = true) :
    (m.modifyAll ks f).wf = true := by
  unfold SMap.modifyAll
  induction ks generalizing m with
  | nil => exact h
  | cons k rest ih => exact ih _ (SMap.wf_modify m k _ h)

/-- A change by number gives a canonical array whatever it starts from. -/
theorem SMap.wf_mapBy {α : Type} [DecidableEq α] (n : Nat) (f : Nat → α → α) (m : SMap α) : (m.mapBy n f).wf = true := by
  simp only [SMap.wf, Bool.and_eq_true, decide_eq_true_eq, List.all_eq_true, SMap.mapBy]
  refine ⟨?_, fun p hp => ?_⟩
  · have hs : ∀ l : List Nat, l.Pairwise (fun x y => x < y) →
        ((l.filterMap (fun k => if f k (m.get k) = f 0 m.dflt then none else some (k, f k (m.get k)))).map Prod.fst).Pairwise
          (fun x y => x < y) := by
      intro l hl
      rw [List.pairwise_map]
      refine List.Pairwise.filterMap _ ?_ hl
      intro i j hij p hp q hq
      split at hp <;> split at hq <;> simp_all
      obtain rfl := hp; obtain rfl := hq; exact hij
    exact hs _ List.pairwise_lt_range
  · obtain ⟨k, _, hk⟩ := List.mem_filterMap.1 hp
    split at hk
    · cases hk
    · next hv => cases hk; exact hv

end Sys2Proof
end

