-- ==== Sys2Proof/Laws/State.lean ====
section
/-!
SUPPORT. The fields of the state after each update of a part of it: one lemma per field and update.
-/

namespace Sys2Proof.Machine

/-! ### modRegion -/

@[simp] theorem State.modRegion_pending (s : State) (r : Nat) (f : Region → Region) : (s.modRegion r f).pending = s.pending := rfl
@[simp] theorem State.modRegion_period (s : State) (r : Nat) (f : Region → Region) : (s.modRegion r f).period = s.period := rfl
@[simp] theorem State.modRegion_tick (s : State) (r : Nat) (f : Region → Region) : (s.modRegion r f).tick = s.tick := rfl
@[simp] theorem State.modRegion_regions (s : State) (r : Nat) (f : Region → Region) : (s.modRegion r f).regions = s.regions.modify r f := rfl
@[simp] theorem State.modRegion_govs (s : State) (r : Nat) (f : Region → Region) : (s.modRegion r f).govs = s.govs := rfl
@[simp] theorem State.modRegion_hub (s : State) (r : Nat) (f : Region → Region) : (s.modRegion r f).hub = s.hub := rfl
@[simp] theorem State.modRegion_homes (s : State) (r : Nat) (f : Region → Region) : (s.modRegion r f).homes = s.homes := rfl
@[simp] theorem State.modRegion_setup (s : State) (r : Nat) (f : Region → Region) : (s.modRegion r f).setup = s.setup := rfl
@[simp] theorem State.modRegion_trims (s : State) (r : Nat) (f : Region → Region) : (s.modRegion r f).trims = s.trims := rfl
@[simp] theorem State.modRegion_report (s : State) (r : Nat) (f : Region → Region) : (s.modRegion r f).report = s.report := rfl
@[simp] theorem State.modRegion_hubA (s : State) (r : Nat) (f : Region → Region) : (s.modRegion r f).hubA = s.hubA := rfl
@[simp] theorem State.modRegion_hubB (s : State) (r : Nat) (f : Region → Region) : (s.modRegion r f).hubB = s.hubB := rfl
@[simp] theorem State.modRegion_pair (s : State) (r : Nat) (f : Region → Region) : (s.modRegion r f).pair = s.pair := rfl
@[simp] theorem State.modRegion_clk (s : State) (r : Nat) (f : Region → Region) : (s.modRegion r f).clk = s.clk := rfl
@[simp] theorem State.modRegion_pow (s : State) (r : Nat) (f : Region → Region) : (s.modRegion r f).pow = s.pow := rfl
@[simp] theorem State.modRegion_events (s : State) (r : Nat) (f : Region → Region) : (s.modRegion r f).events = s.events := rfl
@[simp] theorem State.modRegion_latches (s : State) (r : Nat) (f : Region → Region) : (s.modRegion r f).latches = s.latches := rfl
@[simp] theorem State.modRegion_await (s : State) (r : Nat) (f : Region → Region) : (s.modRegion r f).await = s.await := rfl
@[simp] theorem State.modRegion_seqs (s : State) (r : Nat) (f : Region → Region) : (s.modRegion r f).seqs = s.seqs := rfl
@[simp] theorem State.modRegion_hubLast (s : State) (r : Nat) (f : Region → Region) : (s.modRegion r f).hubLast = s.hubLast := rfl
@[simp] theorem State.modRegion_reads (s : State) (r : Nat) (f : Region → Region) : (s.modRegion r f).reads = s.reads := rfl
@[simp] theorem State.modRegion_fresh (s : State) (r : Nat) (f : Region → Region) : (s.modRegion r f).fresh = s.fresh := rfl
@[simp] theorem State.modRegion_out (s : State) (r : Nat) (f : Region → Region) : (s.modRegion r f).out = s.out := rfl

/-! ### modRegions -/

@[simp] theorem State.modRegions_pending (s : State) (f : Region → Region) : (s.modRegions f).pending = s.pending := rfl
@[simp] theorem State.modRegions_period (s : State) (f : Region → Region) : (s.modRegions f).period = s.period := rfl
@[simp] theorem State.modRegions_tick (s : State) (f : Region → Region) : (s.modRegions f).tick = s.tick := rfl
@[simp] theorem State.modRegions_regions (s : State) (f : Region → Region) : (s.modRegions f).regions = s.regions.mapAll f := rfl
@[simp] theorem State.modRegions_govs (s : State) (f : Region → Region) : (s.modRegions f).govs = s.govs := rfl
@[simp] theorem State.modRegions_hub (s : State) (f : Region → Region) : (s.modRegions f).hub = s.hub := rfl
@[simp] theorem State.modRegions_homes (s : State) (f : Region → Region) : (s.modRegions f).homes = s.homes := rfl
@[simp] theorem State.modRegions_setup (s : State) (f : Region → Region) : (s.modRegions f).setup = s.setup := rfl
@[simp] theorem State.modRegions_trims (s : State) (f : Region → Region) : (s.modRegions f).trims = s.trims := rfl
@[simp] theorem State.modRegions_report (s : State) (f : Region → Region) : (s.modRegions f).report = s.report := rfl
@[simp] theorem State.modRegions_hubA (s : State) (f : Region → Region) : (s.modRegions f).hubA = s.hubA := rfl
@[simp] theorem State.modRegions_hubB (s : State) (f : Region → Region) : (s.modRegions f).hubB = s.hubB := rfl
@[simp] theorem State.modRegions_pair (s : State) (f : Region → Region) : (s.modRegions f).pair = s.pair := rfl
@[simp] theorem State.modRegions_clk (s : State) (f : Region → Region) : (s.modRegions f).clk = s.clk := rfl
@[simp] theorem State.modRegions_pow (s : State) (f : Region → Region) : (s.modRegions f).pow = s.pow := rfl
@[simp] theorem State.modRegions_events (s : State) (f : Region → Region) : (s.modRegions f).events = s.events := rfl
@[simp] theorem State.modRegions_latches (s : State) (f : Region → Region) : (s.modRegions f).latches = s.latches := rfl
@[simp] theorem State.modRegions_await (s : State) (f : Region → Region) : (s.modRegions f).await = s.await := rfl
@[simp] theorem State.modRegions_seqs (s : State) (f : Region → Region) : (s.modRegions f).seqs = s.seqs := rfl
@[simp] theorem State.modRegions_hubLast (s : State) (f : Region → Region) : (s.modRegions f).hubLast = s.hubLast := rfl
@[simp] theorem State.modRegions_reads (s : State) (f : Region → Region) : (s.modRegions f).reads = s.reads := rfl
@[simp] theorem State.modRegions_fresh (s : State) (f : Region → Region) : (s.modRegions f).fresh = s.fresh := rfl
@[simp] theorem State.modRegions_out (s : State) (f : Region → Region) : (s.modRegions f).out = s.out := rfl

/-! ### modGov -/

@[simp] theorem State.modGov_pending (s : State) (r : Nat) (f : Gov → Gov) : (s.modGov r f).pending = s.pending := rfl
@[simp] theorem State.modGov_period (s : State) (r : Nat) (f : Gov → Gov) : (s.modGov r f).period = s.period := rfl
@[simp] theorem State.modGov_tick (s : State) (r : Nat) (f : Gov → Gov) : (s.modGov r f).tick = s.tick := rfl
@[simp] theorem State.modGov_regions (s : State) (r : Nat) (f : Gov → Gov) : (s.modGov r f).regions = s.regions := rfl
@[simp] theorem State.modGov_govs (s : State) (r : Nat) (f : Gov → Gov) : (s.modGov r f).govs = s.govs.modify r f := rfl
@[simp] theorem State.modGov_hub (s : State) (r : Nat) (f : Gov → Gov) : (s.modGov r f).hub = s.hub := rfl
@[simp] theorem State.modGov_homes (s : State) (r : Nat) (f : Gov → Gov) : (s.modGov r f).homes = s.homes := rfl
@[simp] theorem State.modGov_setup (s : State) (r : Nat) (f : Gov → Gov) : (s.modGov r f).setup = s.setup := rfl
@[simp] theorem State.modGov_trims (s : State) (r : Nat) (f : Gov → Gov) : (s.modGov r f).trims = s.trims := rfl
@[simp] theorem State.modGov_report (s : State) (r : Nat) (f : Gov → Gov) : (s.modGov r f).report = s.report := rfl
@[simp] theorem State.modGov_hubA (s : State) (r : Nat) (f : Gov → Gov) : (s.modGov r f).hubA = s.hubA := rfl
@[simp] theorem State.modGov_hubB (s : State) (r : Nat) (f : Gov → Gov) : (s.modGov r f).hubB = s.hubB := rfl
@[simp] theorem State.modGov_pair (s : State) (r : Nat) (f : Gov → Gov) : (s.modGov r f).pair = s.pair := rfl
@[simp] theorem State.modGov_clk (s : State) (r : Nat) (f : Gov → Gov) : (s.modGov r f).clk = s.clk := rfl
@[simp] theorem State.modGov_pow (s : State) (r : Nat) (f : Gov → Gov) : (s.modGov r f).pow = s.pow := rfl
@[simp] theorem State.modGov_events (s : State) (r : Nat) (f : Gov → Gov) : (s.modGov r f).events = s.events := rfl
@[simp] theorem State.modGov_latches (s : State) (r : Nat) (f : Gov → Gov) : (s.modGov r f).latches = s.latches := rfl
@[simp] theorem State.modGov_await (s : State) (r : Nat) (f : Gov → Gov) : (s.modGov r f).await = s.await := rfl
@[simp] theorem State.modGov_seqs (s : State) (r : Nat) (f : Gov → Gov) : (s.modGov r f).seqs = s.seqs := rfl
@[simp] theorem State.modGov_hubLast (s : State) (r : Nat) (f : Gov → Gov) : (s.modGov r f).hubLast = s.hubLast := rfl
@[simp] theorem State.modGov_reads (s : State) (r : Nat) (f : Gov → Gov) : (s.modGov r f).reads = s.reads := rfl
@[simp] theorem State.modGov_fresh (s : State) (r : Nat) (f : Gov → Gov) : (s.modGov r f).fresh = s.fresh := rfl
@[simp] theorem State.modGov_out (s : State) (r : Nat) (f : Gov → Gov) : (s.modGov r f).out = s.out := rfl

/-! ### modGovs -/

@[simp] theorem State.modGovs_pending (s : State) (f : Gov → Gov) : (s.modGovs f).pending = s.pending := rfl
@[simp] theorem State.modGovs_period (s : State) (f : Gov → Gov) : (s.modGovs f).period = s.period := rfl
@[simp] theorem State.modGovs_tick (s : State) (f : Gov → Gov) : (s.modGovs f).tick = s.tick := rfl
@[simp] theorem State.modGovs_regions (s : State) (f : Gov → Gov) : (s.modGovs f).regions = s.regions := rfl
@[simp] theorem State.modGovs_govs (s : State) (f : Gov → Gov) : (s.modGovs f).govs = s.govs.mapAll f := rfl
@[simp] theorem State.modGovs_hub (s : State) (f : Gov → Gov) : (s.modGovs f).hub = s.hub := rfl
@[simp] theorem State.modGovs_homes (s : State) (f : Gov → Gov) : (s.modGovs f).homes = s.homes := rfl
@[simp] theorem State.modGovs_setup (s : State) (f : Gov → Gov) : (s.modGovs f).setup = s.setup := rfl
@[simp] theorem State.modGovs_trims (s : State) (f : Gov → Gov) : (s.modGovs f).trims = s.trims := rfl
@[simp] theorem State.modGovs_report (s : State) (f : Gov → Gov) : (s.modGovs f).report = s.report := rfl
@[simp] theorem State.modGovs_hubA (s : State) (f : Gov → Gov) : (s.modGovs f).hubA = s.hubA := rfl
@[simp] theorem State.modGovs_hubB (s : State) (f : Gov → Gov) : (s.modGovs f).hubB = s.hubB := rfl
@[simp] theorem State.modGovs_pair (s : State) (f : Gov → Gov) : (s.modGovs f).pair = s.pair := rfl
@[simp] theorem State.modGovs_clk (s : State) (f : Gov → Gov) : (s.modGovs f).clk = s.clk := rfl
@[simp] theorem State.modGovs_pow (s : State) (f : Gov → Gov) : (s.modGovs f).pow = s.pow := rfl
@[simp] theorem State.modGovs_events (s : State) (f : Gov → Gov) : (s.modGovs f).events = s.events := rfl
@[simp] theorem State.modGovs_latches (s : State) (f : Gov → Gov) : (s.modGovs f).latches = s.latches := rfl
@[simp] theorem State.modGovs_await (s : State) (f : Gov → Gov) : (s.modGovs f).await = s.await := rfl
@[simp] theorem State.modGovs_seqs (s : State) (f : Gov → Gov) : (s.modGovs f).seqs = s.seqs := rfl
@[simp] theorem State.modGovs_hubLast (s : State) (f : Gov → Gov) : (s.modGovs f).hubLast = s.hubLast := rfl
@[simp] theorem State.modGovs_reads (s : State) (f : Gov → Gov) : (s.modGovs f).reads = s.reads := rfl
@[simp] theorem State.modGovs_fresh (s : State) (f : Gov → Gov) : (s.modGovs f).fresh = s.fresh := rfl
@[simp] theorem State.modGovs_out (s : State) (f : Gov → Gov) : (s.modGovs f).out = s.out := rfl

/-! ### modCluster -/

@[simp] theorem State.modCluster_pending (s : State) (c : Nat) (f : Cluster → Cluster) : (s.modCluster c f).pending = s.pending := rfl
@[simp] theorem State.modCluster_period (s : State) (c : Nat) (f : Cluster → Cluster) : (s.modCluster c f).period = s.period := rfl
@[simp] theorem State.modCluster_tick (s : State) (c : Nat) (f : Cluster → Cluster) : (s.modCluster c f).tick = s.tick := rfl
@[simp] theorem State.modCluster_regions (s : State) (c : Nat) (f : Cluster → Cluster) : (s.modCluster c f).regions = s.regions.modify (regionOf c) (fun g => g.modCluster (localOf c) f) := rfl
@[simp] theorem State.modCluster_govs (s : State) (c : Nat) (f : Cluster → Cluster) : (s.modCluster c f).govs = s.govs := rfl
@[simp] theorem State.modCluster_hub (s : State) (c : Nat) (f : Cluster → Cluster) : (s.modCluster c f).hub = s.hub := rfl
@[simp] theorem State.modCluster_homes (s : State) (c : Nat) (f : Cluster → Cluster) : (s.modCluster c f).homes = s.homes := rfl
@[simp] theorem State.modCluster_setup (s : State) (c : Nat) (f : Cluster → Cluster) : (s.modCluster c f).setup = s.setup := rfl
@[simp] theorem State.modCluster_trims (s : State) (c : Nat) (f : Cluster → Cluster) : (s.modCluster c f).trims = s.trims := rfl
@[simp] theorem State.modCluster_report (s : State) (c : Nat) (f : Cluster → Cluster) : (s.modCluster c f).report = s.report := rfl
@[simp] theorem State.modCluster_hubA (s : State) (c : Nat) (f : Cluster → Cluster) : (s.modCluster c f).hubA = s.hubA := rfl
@[simp] theorem State.modCluster_hubB (s : State) (c : Nat) (f : Cluster → Cluster) : (s.modCluster c f).hubB = s.hubB := rfl
@[simp] theorem State.modCluster_pair (s : State) (c : Nat) (f : Cluster → Cluster) : (s.modCluster c f).pair = s.pair := rfl
@[simp] theorem State.modCluster_clk (s : State) (c : Nat) (f : Cluster → Cluster) : (s.modCluster c f).clk = s.clk := rfl
@[simp] theorem State.modCluster_pow (s : State) (c : Nat) (f : Cluster → Cluster) : (s.modCluster c f).pow = s.pow := rfl
@[simp] theorem State.modCluster_events (s : State) (c : Nat) (f : Cluster → Cluster) : (s.modCluster c f).events = s.events := rfl
@[simp] theorem State.modCluster_latches (s : State) (c : Nat) (f : Cluster → Cluster) : (s.modCluster c f).latches = s.latches := rfl
@[simp] theorem State.modCluster_await (s : State) (c : Nat) (f : Cluster → Cluster) : (s.modCluster c f).await = s.await := rfl
@[simp] theorem State.modCluster_seqs (s : State) (c : Nat) (f : Cluster → Cluster) : (s.modCluster c f).seqs = s.seqs := rfl
@[simp] theorem State.modCluster_hubLast (s : State) (c : Nat) (f : Cluster → Cluster) : (s.modCluster c f).hubLast = s.hubLast := rfl
@[simp] theorem State.modCluster_reads (s : State) (c : Nat) (f : Cluster → Cluster) : (s.modCluster c f).reads = s.reads := rfl
@[simp] theorem State.modCluster_fresh (s : State) (c : Nat) (f : Cluster → Cluster) : (s.modCluster c f).fresh = s.fresh := rfl
@[simp] theorem State.modCluster_out (s : State) (c : Nat) (f : Cluster → Cluster) : (s.modCluster c f).out = s.out := rfl

/-! ### modHub -/

@[simp] theorem State.modHub_pending (s : State) (f : Shared → Shared) : (s.modHub f).pending = s.pending := rfl
@[simp] theorem State.modHub_period (s : State) (f : Shared → Shared) : (s.modHub f).period = s.period := rfl
@[simp] theorem State.modHub_tick (s : State) (f : Shared → Shared) : (s.modHub f).tick = s.tick := rfl
@[simp] theorem State.modHub_regions (s : State) (f : Shared → Shared) : (s.modHub f).regions = s.regions := rfl
@[simp] theorem State.modHub_govs (s : State) (f : Shared → Shared) : (s.modHub f).govs = s.govs := rfl
@[simp] theorem State.modHub_hub (s : State) (f : Shared → Shared) : (s.modHub f).hub = f s.hub := rfl
@[simp] theorem State.modHub_homes (s : State) (f : Shared → Shared) : (s.modHub f).homes = s.homes := rfl
@[simp] theorem State.modHub_setup (s : State) (f : Shared → Shared) : (s.modHub f).setup = s.setup := rfl
@[simp] theorem State.modHub_trims (s : State) (f : Shared → Shared) : (s.modHub f).trims = s.trims := rfl
@[simp] theorem State.modHub_report (s : State) (f : Shared → Shared) : (s.modHub f).report = s.report := rfl
@[simp] theorem State.modHub_hubA (s : State) (f : Shared → Shared) : (s.modHub f).hubA = s.hubA := rfl
@[simp] theorem State.modHub_hubB (s : State) (f : Shared → Shared) : (s.modHub f).hubB = s.hubB := rfl
@[simp] theorem State.modHub_pair (s : State) (f : Shared → Shared) : (s.modHub f).pair = s.pair := rfl
@[simp] theorem State.modHub_clk (s : State) (f : Shared → Shared) : (s.modHub f).clk = s.clk := rfl
@[simp] theorem State.modHub_pow (s : State) (f : Shared → Shared) : (s.modHub f).pow = s.pow := rfl
@[simp] theorem State.modHub_events (s : State) (f : Shared → Shared) : (s.modHub f).events = s.events := rfl
@[simp] theorem State.modHub_latches (s : State) (f : Shared → Shared) : (s.modHub f).latches = s.latches := rfl
@[simp] theorem State.modHub_await (s : State) (f : Shared → Shared) : (s.modHub f).await = s.await := rfl
@[simp] theorem State.modHub_seqs (s : State) (f : Shared → Shared) : (s.modHub f).seqs = s.seqs := rfl
@[simp] theorem State.modHub_hubLast (s : State) (f : Shared → Shared) : (s.modHub f).hubLast = s.hubLast := rfl
@[simp] theorem State.modHub_reads (s : State) (f : Shared → Shared) : (s.modHub f).reads = s.reads := rfl
@[simp] theorem State.modHub_fresh (s : State) (f : Shared → Shared) : (s.modHub f).fresh = s.fresh := rfl
@[simp] theorem State.modHub_out (s : State) (f : Shared → Shared) : (s.modHub f).out = s.out := rfl

/-! ### modHubOf -/

@[simp] theorem State.modHubOf_pending (s : State) (h : Hub) (f : HubSt → HubSt) : (s.modHubOf h f).pending = s.pending := by cases h <;> rfl
@[simp] theorem State.modHubOf_period (s : State) (h : Hub) (f : HubSt → HubSt) : (s.modHubOf h f).period = s.period := by cases h <;> rfl
@[simp] theorem State.modHubOf_tick (s : State) (h : Hub) (f : HubSt → HubSt) : (s.modHubOf h f).tick = s.tick := by cases h <;> rfl
@[simp] theorem State.modHubOf_regions (s : State) (h : Hub) (f : HubSt → HubSt) : (s.modHubOf h f).regions = s.regions := by cases h <;> rfl
@[simp] theorem State.modHubOf_govs (s : State) (h : Hub) (f : HubSt → HubSt) : (s.modHubOf h f).govs = s.govs := by cases h <;> rfl
@[simp] theorem State.modHubOf_hub (s : State) (h : Hub) (f : HubSt → HubSt) : (s.modHubOf h f).hub = s.hub := by cases h <;> rfl
@[simp] theorem State.modHubOf_homes (s : State) (h : Hub) (f : HubSt → HubSt) : (s.modHubOf h f).homes = s.homes := by cases h <;> rfl
@[simp] theorem State.modHubOf_setup (s : State) (h : Hub) (f : HubSt → HubSt) : (s.modHubOf h f).setup = s.setup := by cases h <;> rfl
@[simp] theorem State.modHubOf_trims (s : State) (h : Hub) (f : HubSt → HubSt) : (s.modHubOf h f).trims = s.trims := by cases h <;> rfl
@[simp] theorem State.modHubOf_report (s : State) (h : Hub) (f : HubSt → HubSt) : (s.modHubOf h f).report = s.report := by cases h <;> rfl
@[simp] theorem State.modHubOf_pair (s : State) (h : Hub) (f : HubSt → HubSt) : (s.modHubOf h f).pair = s.pair := by cases h <;> rfl
@[simp] theorem State.modHubOf_clk (s : State) (h : Hub) (f : HubSt → HubSt) : (s.modHubOf h f).clk = s.clk := by cases h <;> rfl
@[simp] theorem State.modHubOf_pow (s : State) (h : Hub) (f : HubSt → HubSt) : (s.modHubOf h f).pow = s.pow := by cases h <;> rfl
@[simp] theorem State.modHubOf_events (s : State) (h : Hub) (f : HubSt → HubSt) : (s.modHubOf h f).events = s.events := by cases h <;> rfl
@[simp] theorem State.modHubOf_latches (s : State) (h : Hub) (f : HubSt → HubSt) : (s.modHubOf h f).latches = s.latches := by cases h <;> rfl
@[simp] theorem State.modHubOf_await (s : State) (h : Hub) (f : HubSt → HubSt) : (s.modHubOf h f).await = s.await := by cases h <;> rfl
@[simp] theorem State.modHubOf_seqs (s : State) (h : Hub) (f : HubSt → HubSt) : (s.modHubOf h f).seqs = s.seqs := by cases h <;> rfl
@[simp] theorem State.modHubOf_hubLast (s : State) (h : Hub) (f : HubSt → HubSt) : (s.modHubOf h f).hubLast = s.hubLast := by cases h <;> rfl
@[simp] theorem State.modHubOf_reads (s : State) (h : Hub) (f : HubSt → HubSt) : (s.modHubOf h f).reads = s.reads := by cases h <;> rfl
@[simp] theorem State.modHubOf_fresh (s : State) (h : Hub) (f : HubSt → HubSt) : (s.modHubOf h f).fresh = s.fresh := by cases h <;> rfl
@[simp] theorem State.modHubOf_out (s : State) (h : Hub) (f : HubSt → HubSt) : (s.modHubOf h f).out = s.out := by cases h <;> rfl

/-! ### modPair -/

@[simp] theorem State.modPair_pending (s : State) (f : Pair → Pair) : (s.modPair f).pending = s.pending := rfl
@[simp] theorem State.modPair_period (s : State) (f : Pair → Pair) : (s.modPair f).period = s.period := rfl
@[simp] theorem State.modPair_tick (s : State) (f : Pair → Pair) : (s.modPair f).tick = s.tick := rfl
@[simp] theorem State.modPair_regions (s : State) (f : Pair → Pair) : (s.modPair f).regions = s.regions := rfl
@[simp] theorem State.modPair_govs (s : State) (f : Pair → Pair) : (s.modPair f).govs = s.govs := rfl
@[simp] theorem State.modPair_hub (s : State) (f : Pair → Pair) : (s.modPair f).hub = s.hub := rfl
@[simp] theorem State.modPair_homes (s : State) (f : Pair → Pair) : (s.modPair f).homes = s.homes := rfl
@[simp] theorem State.modPair_setup (s : State) (f : Pair → Pair) : (s.modPair f).setup = s.setup := rfl
@[simp] theorem State.modPair_trims (s : State) (f : Pair → Pair) : (s.modPair f).trims = s.trims := rfl
@[simp] theorem State.modPair_report (s : State) (f : Pair → Pair) : (s.modPair f).report = s.report := rfl
@[simp] theorem State.modPair_hubA (s : State) (f : Pair → Pair) : (s.modPair f).hubA = s.hubA := rfl
@[simp] theorem State.modPair_hubB (s : State) (f : Pair → Pair) : (s.modPair f).hubB = s.hubB := rfl
@[simp] theorem State.modPair_pair (s : State) (f : Pair → Pair) : (s.modPair f).pair = f s.pair := rfl
@[simp] theorem State.modPair_clk (s : State) (f : Pair → Pair) : (s.modPair f).clk = s.clk := rfl
@[simp] theorem State.modPair_pow (s : State) (f : Pair → Pair) : (s.modPair f).pow = s.pow := rfl
@[simp] theorem State.modPair_events (s : State) (f : Pair → Pair) : (s.modPair f).events = s.events := rfl
@[simp] theorem State.modPair_latches (s : State) (f : Pair → Pair) : (s.modPair f).latches = s.latches := rfl
@[simp] theorem State.modPair_await (s : State) (f : Pair → Pair) : (s.modPair f).await = s.await := rfl
@[simp] theorem State.modPair_seqs (s : State) (f : Pair → Pair) : (s.modPair f).seqs = s.seqs := rfl
@[simp] theorem State.modPair_hubLast (s : State) (f : Pair → Pair) : (s.modPair f).hubLast = s.hubLast := rfl
@[simp] theorem State.modPair_reads (s : State) (f : Pair → Pair) : (s.modPair f).reads = s.reads := rfl
@[simp] theorem State.modPair_fresh (s : State) (f : Pair → Pair) : (s.modPair f).fresh = s.fresh := rfl
@[simp] theorem State.modPair_out (s : State) (f : Pair → Pair) : (s.modPair f).out = s.out := rfl

/-! ### modClk -/

@[simp] theorem State.modClk_pending (s : State) (f : Clocks → Clocks) : (s.modClk f).pending = s.pending := rfl
@[simp] theorem State.modClk_period (s : State) (f : Clocks → Clocks) : (s.modClk f).period = s.period := rfl
@[simp] theorem State.modClk_tick (s : State) (f : Clocks → Clocks) : (s.modClk f).tick = s.tick := rfl
@[simp] theorem State.modClk_regions (s : State) (f : Clocks → Clocks) : (s.modClk f).regions = s.regions := rfl
@[simp] theorem State.modClk_govs (s : State) (f : Clocks → Clocks) : (s.modClk f).govs = s.govs := rfl
@[simp] theorem State.modClk_hub (s : State) (f : Clocks → Clocks) : (s.modClk f).hub = s.hub := rfl
@[simp] theorem State.modClk_homes (s : State) (f : Clocks → Clocks) : (s.modClk f).homes = s.homes := rfl
@[simp] theorem State.modClk_setup (s : State) (f : Clocks → Clocks) : (s.modClk f).setup = s.setup := rfl
@[simp] theorem State.modClk_trims (s : State) (f : Clocks → Clocks) : (s.modClk f).trims = s.trims := rfl
@[simp] theorem State.modClk_report (s : State) (f : Clocks → Clocks) : (s.modClk f).report = s.report := rfl
@[simp] theorem State.modClk_hubA (s : State) (f : Clocks → Clocks) : (s.modClk f).hubA = s.hubA := rfl
@[simp] theorem State.modClk_hubB (s : State) (f : Clocks → Clocks) : (s.modClk f).hubB = s.hubB := rfl
@[simp] theorem State.modClk_pair (s : State) (f : Clocks → Clocks) : (s.modClk f).pair = s.pair := rfl
@[simp] theorem State.modClk_clk (s : State) (f : Clocks → Clocks) : (s.modClk f).clk = f s.clk := rfl
@[simp] theorem State.modClk_pow (s : State) (f : Clocks → Clocks) : (s.modClk f).pow = s.pow := rfl
@[simp] theorem State.modClk_events (s : State) (f : Clocks → Clocks) : (s.modClk f).events = s.events := rfl
@[simp] theorem State.modClk_latches (s : State) (f : Clocks → Clocks) : (s.modClk f).latches = s.latches := rfl
@[simp] theorem State.modClk_await (s : State) (f : Clocks → Clocks) : (s.modClk f).await = s.await := rfl
@[simp] theorem State.modClk_seqs (s : State) (f : Clocks → Clocks) : (s.modClk f).seqs = s.seqs := rfl
@[simp] theorem State.modClk_hubLast (s : State) (f : Clocks → Clocks) : (s.modClk f).hubLast = s.hubLast := rfl
@[simp] theorem State.modClk_reads (s : State) (f : Clocks → Clocks) : (s.modClk f).reads = s.reads := rfl
@[simp] theorem State.modClk_fresh (s : State) (f : Clocks → Clocks) : (s.modClk f).fresh = s.fresh := rfl
@[simp] theorem State.modClk_out (s : State) (f : Clocks → Clocks) : (s.modClk f).out = s.out := rfl

/-! ### modPow -/

@[simp] theorem State.modPow_pending (s : State) (f : Power → Power) : (s.modPow f).pending = s.pending := rfl
@[simp] theorem State.modPow_period (s : State) (f : Power → Power) : (s.modPow f).period = s.period := rfl
@[simp] theorem State.modPow_tick (s : State) (f : Power → Power) : (s.modPow f).tick = s.tick := rfl
@[simp] theorem State.modPow_regions (s : State) (f : Power → Power) : (s.modPow f).regions = s.regions := rfl
@[simp] theorem State.modPow_govs (s : State) (f : Power → Power) : (s.modPow f).govs = s.govs := rfl
@[simp] theorem State.modPow_hub (s : State) (f : Power → Power) : (s.modPow f).hub = s.hub := rfl
@[simp] theorem State.modPow_homes (s : State) (f : Power → Power) : (s.modPow f).homes = s.homes := rfl
@[simp] theorem State.modPow_setup (s : State) (f : Power → Power) : (s.modPow f).setup = s.setup := rfl
@[simp] theorem State.modPow_trims (s : State) (f : Power → Power) : (s.modPow f).trims = s.trims := rfl
@[simp] theorem State.modPow_report (s : State) (f : Power → Power) : (s.modPow f).report = s.report := rfl
@[simp] theorem State.modPow_hubA (s : State) (f : Power → Power) : (s.modPow f).hubA = s.hubA := rfl
@[simp] theorem State.modPow_hubB (s : State) (f : Power → Power) : (s.modPow f).hubB = s.hubB := rfl
@[simp] theorem State.modPow_pair (s : State) (f : Power → Power) : (s.modPow f).pair = s.pair := rfl
@[simp] theorem State.modPow_clk (s : State) (f : Power → Power) : (s.modPow f).clk = s.clk := rfl
@[simp] theorem State.modPow_pow (s : State) (f : Power → Power) : (s.modPow f).pow = f s.pow := rfl
@[simp] theorem State.modPow_events (s : State) (f : Power → Power) : (s.modPow f).events = s.events := rfl
@[simp] theorem State.modPow_latches (s : State) (f : Power → Power) : (s.modPow f).latches = s.latches := rfl
@[simp] theorem State.modPow_await (s : State) (f : Power → Power) : (s.modPow f).await = s.await := rfl
@[simp] theorem State.modPow_seqs (s : State) (f : Power → Power) : (s.modPow f).seqs = s.seqs := rfl
@[simp] theorem State.modPow_hubLast (s : State) (f : Power → Power) : (s.modPow f).hubLast = s.hubLast := rfl
@[simp] theorem State.modPow_reads (s : State) (f : Power → Power) : (s.modPow f).reads = s.reads := rfl
@[simp] theorem State.modPow_fresh (s : State) (f : Power → Power) : (s.modPow f).fresh = s.fresh := rfl
@[simp] theorem State.modPow_out (s : State) (f : Power → Power) : (s.modPow f).out = s.out := rfl

/-! ### modSetup -/

@[simp] theorem State.modSetup_pending (s : State) (f : Setup → Setup) : (s.modSetup f).pending = s.pending := rfl
@[simp] theorem State.modSetup_period (s : State) (f : Setup → Setup) : (s.modSetup f).period = s.period := rfl
@[simp] theorem State.modSetup_tick (s : State) (f : Setup → Setup) : (s.modSetup f).tick = s.tick := rfl
@[simp] theorem State.modSetup_regions (s : State) (f : Setup → Setup) : (s.modSetup f).regions = s.regions := rfl
@[simp] theorem State.modSetup_govs (s : State) (f : Setup → Setup) : (s.modSetup f).govs = s.govs := rfl
@[simp] theorem State.modSetup_hub (s : State) (f : Setup → Setup) : (s.modSetup f).hub = s.hub := rfl
@[simp] theorem State.modSetup_homes (s : State) (f : Setup → Setup) : (s.modSetup f).homes = s.homes := rfl
@[simp] theorem State.modSetup_setup (s : State) (f : Setup → Setup) : (s.modSetup f).setup = f s.setup := rfl
@[simp] theorem State.modSetup_trims (s : State) (f : Setup → Setup) : (s.modSetup f).trims = s.trims := rfl
@[simp] theorem State.modSetup_report (s : State) (f : Setup → Setup) : (s.modSetup f).report = s.report := rfl
@[simp] theorem State.modSetup_hubA (s : State) (f : Setup → Setup) : (s.modSetup f).hubA = s.hubA := rfl
@[simp] theorem State.modSetup_hubB (s : State) (f : Setup → Setup) : (s.modSetup f).hubB = s.hubB := rfl
@[simp] theorem State.modSetup_pair (s : State) (f : Setup → Setup) : (s.modSetup f).pair = s.pair := rfl
@[simp] theorem State.modSetup_clk (s : State) (f : Setup → Setup) : (s.modSetup f).clk = s.clk := rfl
@[simp] theorem State.modSetup_pow (s : State) (f : Setup → Setup) : (s.modSetup f).pow = s.pow := rfl
@[simp] theorem State.modSetup_events (s : State) (f : Setup → Setup) : (s.modSetup f).events = s.events := rfl
@[simp] theorem State.modSetup_latches (s : State) (f : Setup → Setup) : (s.modSetup f).latches = s.latches := rfl
@[simp] theorem State.modSetup_await (s : State) (f : Setup → Setup) : (s.modSetup f).await = s.await := rfl
@[simp] theorem State.modSetup_seqs (s : State) (f : Setup → Setup) : (s.modSetup f).seqs = s.seqs := rfl
@[simp] theorem State.modSetup_hubLast (s : State) (f : Setup → Setup) : (s.modSetup f).hubLast = s.hubLast := rfl
@[simp] theorem State.modSetup_reads (s : State) (f : Setup → Setup) : (s.modSetup f).reads = s.reads := rfl
@[simp] theorem State.modSetup_fresh (s : State) (f : Setup → Setup) : (s.modSetup f).fresh = s.fresh := rfl
@[simp] theorem State.modSetup_out (s : State) (f : Setup → Setup) : (s.modSetup f).out = s.out := rfl

/-! ### emit -/

@[simp] theorem State.emit_pending (s : State) (e : Effect) : (s.emit e).pending = s.pending := rfl
@[simp] theorem State.emit_period (s : State) (e : Effect) : (s.emit e).period = s.period := rfl
@[simp] theorem State.emit_tick (s : State) (e : Effect) : (s.emit e).tick = s.tick := rfl
@[simp] theorem State.emit_regions (s : State) (e : Effect) : (s.emit e).regions = s.regions := rfl
@[simp] theorem State.emit_govs (s : State) (e : Effect) : (s.emit e).govs = s.govs := rfl
@[simp] theorem State.emit_hub (s : State) (e : Effect) : (s.emit e).hub = s.hub := rfl
@[simp] theorem State.emit_homes (s : State) (e : Effect) : (s.emit e).homes = s.homes := rfl
@[simp] theorem State.emit_setup (s : State) (e : Effect) : (s.emit e).setup = s.setup := rfl
@[simp] theorem State.emit_trims (s : State) (e : Effect) : (s.emit e).trims = s.trims := rfl
@[simp] theorem State.emit_report (s : State) (e : Effect) : (s.emit e).report = s.report := rfl
@[simp] theorem State.emit_hubA (s : State) (e : Effect) : (s.emit e).hubA = s.hubA := rfl
@[simp] theorem State.emit_hubB (s : State) (e : Effect) : (s.emit e).hubB = s.hubB := rfl
@[simp] theorem State.emit_pair (s : State) (e : Effect) : (s.emit e).pair = s.pair := rfl
@[simp] theorem State.emit_clk (s : State) (e : Effect) : (s.emit e).clk = s.clk := rfl
@[simp] theorem State.emit_pow (s : State) (e : Effect) : (s.emit e).pow = s.pow := rfl
@[simp] theorem State.emit_events (s : State) (e : Effect) : (s.emit e).events = s.events := rfl
@[simp] theorem State.emit_latches (s : State) (e : Effect) : (s.emit e).latches = s.latches := rfl
@[simp] theorem State.emit_await (s : State) (e : Effect) : (s.emit e).await = s.await := rfl
@[simp] theorem State.emit_seqs (s : State) (e : Effect) : (s.emit e).seqs = s.seqs := rfl
@[simp] theorem State.emit_hubLast (s : State) (e : Effect) : (s.emit e).hubLast = s.hubLast := rfl
@[simp] theorem State.emit_reads (s : State) (e : Effect) : (s.emit e).reads = s.reads := rfl
@[simp] theorem State.emit_fresh (s : State) (e : Effect) : (s.emit e).fresh = s.fresh := rfl
@[simp] theorem State.emit_out (s : State) (e : Effect) : (s.emit e).out = s.out ++ [e] := rfl

/-! ### bumpSeq -/

@[simp] theorem State.bumpSeq_pending (s : State) (src dst : Nat) : (s.bumpSeq src dst).pending = s.pending := rfl
@[simp] theorem State.bumpSeq_period (s : State) (src dst : Nat) : (s.bumpSeq src dst).period = s.period := rfl
@[simp] theorem State.bumpSeq_tick (s : State) (src dst : Nat) : (s.bumpSeq src dst).tick = s.tick := rfl
@[simp] theorem State.bumpSeq_regions (s : State) (src dst : Nat) : (s.bumpSeq src dst).regions = s.regions := rfl
@[simp] theorem State.bumpSeq_govs (s : State) (src dst : Nat) : (s.bumpSeq src dst).govs = s.govs := rfl
@[simp] theorem State.bumpSeq_hub (s : State) (src dst : Nat) : (s.bumpSeq src dst).hub = s.hub := rfl
@[simp] theorem State.bumpSeq_homes (s : State) (src dst : Nat) : (s.bumpSeq src dst).homes = s.homes := rfl
@[simp] theorem State.bumpSeq_setup (s : State) (src dst : Nat) : (s.bumpSeq src dst).setup = s.setup := rfl
@[simp] theorem State.bumpSeq_trims (s : State) (src dst : Nat) : (s.bumpSeq src dst).trims = s.trims := rfl
@[simp] theorem State.bumpSeq_report (s : State) (src dst : Nat) : (s.bumpSeq src dst).report = s.report := rfl
@[simp] theorem State.bumpSeq_hubA (s : State) (src dst : Nat) : (s.bumpSeq src dst).hubA = s.hubA := rfl
@[simp] theorem State.bumpSeq_hubB (s : State) (src dst : Nat) : (s.bumpSeq src dst).hubB = s.hubB := rfl
@[simp] theorem State.bumpSeq_pair (s : State) (src dst : Nat) : (s.bumpSeq src dst).pair = s.pair := rfl
@[simp] theorem State.bumpSeq_clk (s : State) (src dst : Nat) : (s.bumpSeq src dst).clk = s.clk := rfl
@[simp] theorem State.bumpSeq_pow (s : State) (src dst : Nat) : (s.bumpSeq src dst).pow = s.pow := rfl
@[simp] theorem State.bumpSeq_events (s : State) (src dst : Nat) : (s.bumpSeq src dst).events = s.events := rfl
@[simp] theorem State.bumpSeq_latches (s : State) (src dst : Nat) : (s.bumpSeq src dst).latches = s.latches := rfl
@[simp] theorem State.bumpSeq_await (s : State) (src dst : Nat) : (s.bumpSeq src dst).await = s.await := rfl
@[simp] theorem State.bumpSeq_seqs (s : State) (src dst : Nat) : (s.bumpSeq src dst).seqs = s.seqs.set (src * 65536 + dst) ((s.seqAt src dst + 1) % 65536) := rfl
@[simp] theorem State.bumpSeq_hubLast (s : State) (src dst : Nat) : (s.bumpSeq src dst).hubLast = s.hubLast := rfl
@[simp] theorem State.bumpSeq_reads (s : State) (src dst : Nat) : (s.bumpSeq src dst).reads = s.reads := rfl
@[simp] theorem State.bumpSeq_fresh (s : State) (src dst : Nat) : (s.bumpSeq src dst).fresh = s.fresh := rfl
@[simp] theorem State.bumpSeq_out (s : State) (src dst : Nat) : (s.bumpSeq src dst).out = s.out := rfl

/-! ### sendAs -/

@[simp] theorem State.sendAs_pending (s : State) (src dst : Nat) (m : Msg) : (s.sendAs src dst m).pending = s.pending := rfl
@[simp] theorem State.sendAs_period (s : State) (src dst : Nat) (m : Msg) : (s.sendAs src dst m).period = s.period := rfl
@[simp] theorem State.sendAs_tick (s : State) (src dst : Nat) (m : Msg) : (s.sendAs src dst m).tick = s.tick := rfl
@[simp] theorem State.sendAs_regions (s : State) (src dst : Nat) (m : Msg) : (s.sendAs src dst m).regions = s.regions := rfl
@[simp] theorem State.sendAs_govs (s : State) (src dst : Nat) (m : Msg) : (s.sendAs src dst m).govs = s.govs := rfl
@[simp] theorem State.sendAs_hub (s : State) (src dst : Nat) (m : Msg) : (s.sendAs src dst m).hub = s.hub := rfl
@[simp] theorem State.sendAs_homes (s : State) (src dst : Nat) (m : Msg) : (s.sendAs src dst m).homes = s.homes := rfl
@[simp] theorem State.sendAs_setup (s : State) (src dst : Nat) (m : Msg) : (s.sendAs src dst m).setup = s.setup := rfl
@[simp] theorem State.sendAs_trims (s : State) (src dst : Nat) (m : Msg) : (s.sendAs src dst m).trims = s.trims := rfl
@[simp] theorem State.sendAs_report (s : State) (src dst : Nat) (m : Msg) : (s.sendAs src dst m).report = s.report := rfl
@[simp] theorem State.sendAs_hubA (s : State) (src dst : Nat) (m : Msg) : (s.sendAs src dst m).hubA = s.hubA := rfl
@[simp] theorem State.sendAs_hubB (s : State) (src dst : Nat) (m : Msg) : (s.sendAs src dst m).hubB = s.hubB := rfl
@[simp] theorem State.sendAs_pair (s : State) (src dst : Nat) (m : Msg) : (s.sendAs src dst m).pair = s.pair := rfl
@[simp] theorem State.sendAs_clk (s : State) (src dst : Nat) (m : Msg) : (s.sendAs src dst m).clk = s.clk := rfl
@[simp] theorem State.sendAs_pow (s : State) (src dst : Nat) (m : Msg) : (s.sendAs src dst m).pow = s.pow := rfl
@[simp] theorem State.sendAs_events (s : State) (src dst : Nat) (m : Msg) : (s.sendAs src dst m).events = s.events := rfl
@[simp] theorem State.sendAs_latches (s : State) (src dst : Nat) (m : Msg) : (s.sendAs src dst m).latches = s.latches := rfl
@[simp] theorem State.sendAs_await (s : State) (src dst : Nat) (m : Msg) : (s.sendAs src dst m).await = s.await := rfl
@[simp] theorem State.sendAs_seqs (s : State) (src dst : Nat) (m : Msg) : (s.sendAs src dst m).seqs = s.seqs.set (src * 65536 + dst) ((s.seqAt src dst + 1) % 65536) := rfl
@[simp] theorem State.sendAs_hubLast (s : State) (src dst : Nat) (m : Msg) : (s.sendAs src dst m).hubLast = s.hubLast := rfl
@[simp] theorem State.sendAs_reads (s : State) (src dst : Nat) (m : Msg) : (s.sendAs src dst m).reads = s.reads := rfl
@[simp] theorem State.sendAs_fresh (s : State) (src dst : Nat) (m : Msg) : (s.sendAs src dst m).fresh = s.fresh := rfl
@[simp] theorem State.sendAs_out (s : State) (src dst : Nat) (m : Msg) : (s.sendAs src dst m).out = s.out ++ [.msg m (s.headOf src dst (s.seqAt src dst) false m)] := rfl

/-! ### sendAgain -/

@[simp] theorem State.sendAgain_pending (s : State) (a : Await) : (s.sendAgain a).pending = s.pending := rfl
@[simp] theorem State.sendAgain_period (s : State) (a : Await) : (s.sendAgain a).period = s.period := rfl
@[simp] theorem State.sendAgain_tick (s : State) (a : Await) : (s.sendAgain a).tick = s.tick := rfl
@[simp] theorem State.sendAgain_regions (s : State) (a : Await) : (s.sendAgain a).regions = s.regions := rfl
@[simp] theorem State.sendAgain_govs (s : State) (a : Await) : (s.sendAgain a).govs = s.govs := rfl
@[simp] theorem State.sendAgain_hub (s : State) (a : Await) : (s.sendAgain a).hub = s.hub := rfl
@[simp] theorem State.sendAgain_homes (s : State) (a : Await) : (s.sendAgain a).homes = s.homes := rfl
@[simp] theorem State.sendAgain_setup (s : State) (a : Await) : (s.sendAgain a).setup = s.setup := rfl
@[simp] theorem State.sendAgain_trims (s : State) (a : Await) : (s.sendAgain a).trims = s.trims := rfl
@[simp] theorem State.sendAgain_report (s : State) (a : Await) : (s.sendAgain a).report = s.report := rfl
@[simp] theorem State.sendAgain_hubA (s : State) (a : Await) : (s.sendAgain a).hubA = s.hubA := rfl
@[simp] theorem State.sendAgain_hubB (s : State) (a : Await) : (s.sendAgain a).hubB = s.hubB := rfl
@[simp] theorem State.sendAgain_pair (s : State) (a : Await) : (s.sendAgain a).pair = s.pair := rfl
@[simp] theorem State.sendAgain_clk (s : State) (a : Await) : (s.sendAgain a).clk = s.clk := rfl
@[simp] theorem State.sendAgain_pow (s : State) (a : Await) : (s.sendAgain a).pow = s.pow := rfl
@[simp] theorem State.sendAgain_events (s : State) (a : Await) : (s.sendAgain a).events = s.events := rfl
@[simp] theorem State.sendAgain_latches (s : State) (a : Await) : (s.sendAgain a).latches = s.latches := rfl
@[simp] theorem State.sendAgain_await (s : State) (a : Await) : (s.sendAgain a).await = s.await := rfl
@[simp] theorem State.sendAgain_seqs (s : State) (a : Await) : (s.sendAgain a).seqs = s.seqs := rfl
@[simp] theorem State.sendAgain_hubLast (s : State) (a : Await) : (s.sendAgain a).hubLast = s.hubLast := rfl
@[simp] theorem State.sendAgain_reads (s : State) (a : Await) : (s.sendAgain a).reads = s.reads := rfl
@[simp] theorem State.sendAgain_fresh (s : State) (a : Await) : (s.sendAgain a).fresh = s.fresh := rfl
@[simp] theorem State.sendAgain_out (s : State) (a : Await) : (s.sendAgain a).out = s.out ++ [.msg a.msg (s.headOf a.src a.dst a.seq true a.msg)] := rfl

/-! ### send -/

@[simp] theorem State.send_pending (s : State) (m : Msg) : (s.send m).pending = s.pending := rfl
@[simp] theorem State.send_period (s : State) (m : Msg) : (s.send m).period = s.period := rfl
@[simp] theorem State.send_tick (s : State) (m : Msg) : (s.send m).tick = s.tick := rfl
@[simp] theorem State.send_regions (s : State) (m : Msg) : (s.send m).regions = s.regions := rfl
@[simp] theorem State.send_govs (s : State) (m : Msg) : (s.send m).govs = s.govs := rfl
@[simp] theorem State.send_hub (s : State) (m : Msg) : (s.send m).hub = s.hub := rfl
@[simp] theorem State.send_homes (s : State) (m : Msg) : (s.send m).homes = s.homes := rfl
@[simp] theorem State.send_setup (s : State) (m : Msg) : (s.send m).setup = s.setup := rfl
@[simp] theorem State.send_trims (s : State) (m : Msg) : (s.send m).trims = s.trims := rfl
@[simp] theorem State.send_report (s : State) (m : Msg) : (s.send m).report = s.report := rfl
@[simp] theorem State.send_hubA (s : State) (m : Msg) : (s.send m).hubA = s.hubA := rfl
@[simp] theorem State.send_hubB (s : State) (m : Msg) : (s.send m).hubB = s.hubB := rfl
@[simp] theorem State.send_pair (s : State) (m : Msg) : (s.send m).pair = s.pair := rfl
@[simp] theorem State.send_clk (s : State) (m : Msg) : (s.send m).clk = s.clk := rfl
@[simp] theorem State.send_pow (s : State) (m : Msg) : (s.send m).pow = s.pow := rfl
@[simp] theorem State.send_events (s : State) (m : Msg) : (s.send m).events = s.events := rfl
@[simp] theorem State.send_latches (s : State) (m : Msg) : (s.send m).latches = s.latches := rfl
@[simp] theorem State.send_await (s : State) (m : Msg) : (s.send m).await = s.await := rfl
@[simp] theorem State.send_seqs (s : State) (m : Msg) : (s.send m).seqs = s.seqs.set ((s.route m).1 * 65536 + (s.route m).2) ((s.seqAt (s.route m).1 (s.route m).2 + 1) % 65536) := rfl
@[simp] theorem State.send_hubLast (s : State) (m : Msg) : (s.send m).hubLast = s.hubLast := rfl
@[simp] theorem State.send_reads (s : State) (m : Msg) : (s.send m).reads = s.reads := rfl
@[simp] theorem State.send_fresh (s : State) (m : Msg) : (s.send m).fresh = s.fresh := rfl
@[simp] theorem State.send_out (s : State) (m : Msg) : (s.send m).out = s.out ++ [.msg m (s.headOf (s.route m).1 (s.route m).2 (s.seqAt (s.route m).1 (s.route m).2) false m)] := rfl

/-! ### raise -/

@[simp] theorem State.raise_pending (s : State) (n c x : Nat) : (s.raise n c x).pending = s.pending := rfl
@[simp] theorem State.raise_period (s : State) (n c x : Nat) : (s.raise n c x).period = s.period := rfl
@[simp] theorem State.raise_tick (s : State) (n c x : Nat) : (s.raise n c x).tick = s.tick := rfl
@[simp] theorem State.raise_regions (s : State) (n c x : Nat) : (s.raise n c x).regions = s.regions := rfl
@[simp] theorem State.raise_govs (s : State) (n c x : Nat) : (s.raise n c x).govs = s.govs := rfl
@[simp] theorem State.raise_hub (s : State) (n c x : Nat) : (s.raise n c x).hub = s.hub := rfl
@[simp] theorem State.raise_homes (s : State) (n c x : Nat) : (s.raise n c x).homes = s.homes := rfl
@[simp] theorem State.raise_setup (s : State) (n c x : Nat) : (s.raise n c x).setup = s.setup := rfl
@[simp] theorem State.raise_trims (s : State) (n c x : Nat) : (s.raise n c x).trims = s.trims := rfl
@[simp] theorem State.raise_report (s : State) (n c x : Nat) : (s.raise n c x).report = s.report := rfl
@[simp] theorem State.raise_hubA (s : State) (n c x : Nat) : (s.raise n c x).hubA = s.hubA := rfl
@[simp] theorem State.raise_hubB (s : State) (n c x : Nat) : (s.raise n c x).hubB = s.hubB := rfl
@[simp] theorem State.raise_pair (s : State) (n c x : Nat) : (s.raise n c x).pair = s.pair := rfl
@[simp] theorem State.raise_clk (s : State) (n c x : Nat) : (s.raise n c x).clk = s.clk := rfl
@[simp] theorem State.raise_pow (s : State) (n c x : Nat) : (s.raise n c x).pow = s.pow := rfl
@[simp] theorem State.raise_events (s : State) (n c x : Nat) : (s.raise n c x).events = s.events ++ [{ src := n, cause := c, arg := x }] := rfl
@[simp] theorem State.raise_latches (s : State) (n c x : Nat) : (s.raise n c x).latches = s.latches := rfl
@[simp] theorem State.raise_await (s : State) (n c x : Nat) : (s.raise n c x).await = s.await := rfl
@[simp] theorem State.raise_seqs (s : State) (n c x : Nat) : (s.raise n c x).seqs = s.seqs := rfl
@[simp] theorem State.raise_hubLast (s : State) (n c x : Nat) : (s.raise n c x).hubLast = s.hubLast := rfl
@[simp] theorem State.raise_reads (s : State) (n c x : Nat) : (s.raise n c x).reads = s.reads := rfl
@[simp] theorem State.raise_fresh (s : State) (n c x : Nat) : (s.raise n c x).fresh = s.fresh := rfl
@[simp] theorem State.raise_out (s : State) (n c x : Nat) : (s.raise n c x).out = s.out := rfl

/-! ### nextFree -/

@[simp] theorem State.nextFree_pending (s : State) : (s.nextFree).pending = s.pending := rfl
@[simp] theorem State.nextFree_period (s : State) : (s.nextFree).period = s.period := rfl
@[simp] theorem State.nextFree_tick (s : State) : (s.nextFree).tick = s.tick := rfl
@[simp] theorem State.nextFree_regions (s : State) : (s.nextFree).regions = s.regions := rfl
@[simp] theorem State.nextFree_govs (s : State) : (s.nextFree).govs = s.govs := rfl
@[simp] theorem State.nextFree_hub (s : State) : (s.nextFree).hub = s.hub := rfl
@[simp] theorem State.nextFree_homes (s : State) : (s.nextFree).homes = s.homes := rfl
@[simp] theorem State.nextFree_setup (s : State) : (s.nextFree).setup = s.setup := rfl
@[simp] theorem State.nextFree_trims (s : State) : (s.nextFree).trims = s.trims := rfl
@[simp] theorem State.nextFree_report (s : State) : (s.nextFree).report = s.report := rfl
@[simp] theorem State.nextFree_hubA (s : State) : (s.nextFree).hubA = s.hubA := rfl
@[simp] theorem State.nextFree_hubB (s : State) : (s.nextFree).hubB = s.hubB := rfl
@[simp] theorem State.nextFree_pair (s : State) : (s.nextFree).pair = s.pair := rfl
@[simp] theorem State.nextFree_clk (s : State) : (s.nextFree).clk = s.clk := rfl
@[simp] theorem State.nextFree_pow (s : State) : (s.nextFree).pow = s.pow := rfl
@[simp] theorem State.nextFree_events (s : State) : (s.nextFree).events = s.events := rfl
@[simp] theorem State.nextFree_latches (s : State) : (s.nextFree).latches = s.latches := rfl
@[simp] theorem State.nextFree_await (s : State) : (s.nextFree).await = s.await := rfl
@[simp] theorem State.nextFree_seqs (s : State) : (s.nextFree).seqs = s.seqs := rfl
@[simp] theorem State.nextFree_hubLast (s : State) : (s.nextFree).hubLast = s.hubLast := rfl
@[simp] theorem State.nextFree_reads (s : State) : (s.nextFree).reads = s.reads := rfl
@[simp] theorem State.nextFree_fresh (s : State) : (s.nextFree).fresh = s.fresh + 1 := rfl
@[simp] theorem State.nextFree_out (s : State) : (s.nextFree).out = s.out := rfl

/-! ### expect -/

@[simp] theorem State.expect_pending (s : State) (src dst : Nat) (m : Msg) : (s.expect src dst m).pending = s.pending := rfl
@[simp] theorem State.expect_period (s : State) (src dst : Nat) (m : Msg) : (s.expect src dst m).period = s.period := rfl
@[simp] theorem State.expect_tick (s : State) (src dst : Nat) (m : Msg) : (s.expect src dst m).tick = s.tick := rfl
@[simp] theorem State.expect_regions (s : State) (src dst : Nat) (m : Msg) : (s.expect src dst m).regions = s.regions := rfl
@[simp] theorem State.expect_govs (s : State) (src dst : Nat) (m : Msg) : (s.expect src dst m).govs = s.govs := rfl
@[simp] theorem State.expect_hub (s : State) (src dst : Nat) (m : Msg) : (s.expect src dst m).hub = s.hub := rfl
@[simp] theorem State.expect_homes (s : State) (src dst : Nat) (m : Msg) : (s.expect src dst m).homes = s.homes := rfl
@[simp] theorem State.expect_setup (s : State) (src dst : Nat) (m : Msg) : (s.expect src dst m).setup = s.setup := rfl
@[simp] theorem State.expect_trims (s : State) (src dst : Nat) (m : Msg) : (s.expect src dst m).trims = s.trims := rfl
@[simp] theorem State.expect_report (s : State) (src dst : Nat) (m : Msg) : (s.expect src dst m).report = s.report := rfl
@[simp] theorem State.expect_hubA (s : State) (src dst : Nat) (m : Msg) : (s.expect src dst m).hubA = s.hubA := rfl
@[simp] theorem State.expect_hubB (s : State) (src dst : Nat) (m : Msg) : (s.expect src dst m).hubB = s.hubB := rfl
@[simp] theorem State.expect_pair (s : State) (src dst : Nat) (m : Msg) : (s.expect src dst m).pair = s.pair := rfl
@[simp] theorem State.expect_clk (s : State) (src dst : Nat) (m : Msg) : (s.expect src dst m).clk = s.clk := rfl
@[simp] theorem State.expect_pow (s : State) (src dst : Nat) (m : Msg) : (s.expect src dst m).pow = s.pow := rfl
@[simp] theorem State.expect_events (s : State) (src dst : Nat) (m : Msg) : (s.expect src dst m).events = s.events := rfl
@[simp] theorem State.expect_latches (s : State) (src dst : Nat) (m : Msg) : (s.expect src dst m).latches = s.latches := rfl
@[simp] theorem State.expect_await (s : State) (src dst : Nat) (m : Msg) : (s.expect src dst m).await = s.await ++ [⟨src, dst, (s.seqAt src dst + 0xFFFF) % 65536, m, false⟩] := rfl
@[simp] theorem State.expect_seqs (s : State) (src dst : Nat) (m : Msg) : (s.expect src dst m).seqs = s.seqs := rfl
@[simp] theorem State.expect_hubLast (s : State) (src dst : Nat) (m : Msg) : (s.expect src dst m).hubLast = s.hubLast := rfl
@[simp] theorem State.expect_reads (s : State) (src dst : Nat) (m : Msg) : (s.expect src dst m).reads = s.reads := rfl
@[simp] theorem State.expect_fresh (s : State) (src dst : Nat) (m : Msg) : (s.expect src dst m).fresh = s.fresh := rfl
@[simp] theorem State.expect_out (s : State) (src dst : Nat) (m : Msg) : (s.expect src dst m).out = s.out := rfl

/-! ### ask -/

@[simp] theorem State.ask_pending (s : State) (m : Msg) : (s.ask m).pending = s.pending := rfl
@[simp] theorem State.ask_period (s : State) (m : Msg) : (s.ask m).period = s.period := rfl
@[simp] theorem State.ask_tick (s : State) (m : Msg) : (s.ask m).tick = s.tick := rfl
@[simp] theorem State.ask_regions (s : State) (m : Msg) : (s.ask m).regions = s.regions := rfl
@[simp] theorem State.ask_govs (s : State) (m : Msg) : (s.ask m).govs = s.govs := rfl
@[simp] theorem State.ask_hub (s : State) (m : Msg) : (s.ask m).hub = s.hub := rfl
@[simp] theorem State.ask_homes (s : State) (m : Msg) : (s.ask m).homes = s.homes := rfl
@[simp] theorem State.ask_setup (s : State) (m : Msg) : (s.ask m).setup = s.setup := rfl
@[simp] theorem State.ask_trims (s : State) (m : Msg) : (s.ask m).trims = s.trims := rfl
@[simp] theorem State.ask_report (s : State) (m : Msg) : (s.ask m).report = s.report := rfl
@[simp] theorem State.ask_hubA (s : State) (m : Msg) : (s.ask m).hubA = s.hubA := rfl
@[simp] theorem State.ask_hubB (s : State) (m : Msg) : (s.ask m).hubB = s.hubB := rfl
@[simp] theorem State.ask_pair (s : State) (m : Msg) : (s.ask m).pair = s.pair := rfl
@[simp] theorem State.ask_clk (s : State) (m : Msg) : (s.ask m).clk = s.clk := rfl
@[simp] theorem State.ask_pow (s : State) (m : Msg) : (s.ask m).pow = s.pow := rfl
@[simp] theorem State.ask_events (s : State) (m : Msg) : (s.ask m).events = s.events := rfl
@[simp] theorem State.ask_latches (s : State) (m : Msg) : (s.ask m).latches = s.latches := rfl
@[simp] theorem State.ask_hubLast (s : State) (m : Msg) : (s.ask m).hubLast = s.hubLast := rfl
@[simp] theorem State.ask_reads (s : State) (m : Msg) : (s.ask m).reads = s.reads := rfl
@[simp] theorem State.ask_fresh (s : State) (m : Msg) : (s.ask m).fresh = s.fresh := rfl

/-! ### answered -/

@[simp] theorem State.answered_pending (s : State) (p : Msg → Bool) : (s.answered p).pending = s.pending := rfl
@[simp] theorem State.answered_period (s : State) (p : Msg → Bool) : (s.answered p).period = s.period := rfl
@[simp] theorem State.answered_tick (s : State) (p : Msg → Bool) : (s.answered p).tick = s.tick := rfl
@[simp] theorem State.answered_regions (s : State) (p : Msg → Bool) : (s.answered p).regions = s.regions := rfl
@[simp] theorem State.answered_govs (s : State) (p : Msg → Bool) : (s.answered p).govs = s.govs := rfl
@[simp] theorem State.answered_hub (s : State) (p : Msg → Bool) : (s.answered p).hub = s.hub := rfl
@[simp] theorem State.answered_homes (s : State) (p : Msg → Bool) : (s.answered p).homes = s.homes := rfl
@[simp] theorem State.answered_setup (s : State) (p : Msg → Bool) : (s.answered p).setup = s.setup := rfl
@[simp] theorem State.answered_trims (s : State) (p : Msg → Bool) : (s.answered p).trims = s.trims := rfl
@[simp] theorem State.answered_report (s : State) (p : Msg → Bool) : (s.answered p).report = s.report := rfl
@[simp] theorem State.answered_hubA (s : State) (p : Msg → Bool) : (s.answered p).hubA = s.hubA := rfl
@[simp] theorem State.answered_hubB (s : State) (p : Msg → Bool) : (s.answered p).hubB = s.hubB := rfl
@[simp] theorem State.answered_pair (s : State) (p : Msg → Bool) : (s.answered p).pair = s.pair := rfl
@[simp] theorem State.answered_clk (s : State) (p : Msg → Bool) : (s.answered p).clk = s.clk := rfl
@[simp] theorem State.answered_pow (s : State) (p : Msg → Bool) : (s.answered p).pow = s.pow := rfl
@[simp] theorem State.answered_events (s : State) (p : Msg → Bool) : (s.answered p).events = s.events := rfl
@[simp] theorem State.answered_latches (s : State) (p : Msg → Bool) : (s.answered p).latches = s.latches := rfl
@[simp] theorem State.answered_await (s : State) (p : Msg → Bool) : (s.answered p).await = s.await.filter (fun a => !p a.msg) := rfl
@[simp] theorem State.answered_seqs (s : State) (p : Msg → Bool) : (s.answered p).seqs = s.seqs := rfl
@[simp] theorem State.answered_hubLast (s : State) (p : Msg → Bool) : (s.answered p).hubLast = s.hubLast := rfl
@[simp] theorem State.answered_reads (s : State) (p : Msg → Bool) : (s.answered p).reads = s.reads := rfl
@[simp] theorem State.answered_fresh (s : State) (p : Msg → Bool) : (s.answered p).fresh = s.fresh := rfl
@[simp] theorem State.answered_out (s : State) (p : Msg → Bool) : (s.answered p).out = s.out := rfl

/-! ### hubEmit -/

@[simp] theorem State.hubEmit_pending (s : State) (e : Effect) : (s.hubEmit e).pending = s.pending := by unfold State.hubEmit; split <;> rfl
@[simp] theorem State.hubEmit_period (s : State) (e : Effect) : (s.hubEmit e).period = s.period := by unfold State.hubEmit; split <;> rfl
@[simp] theorem State.hubEmit_tick (s : State) (e : Effect) : (s.hubEmit e).tick = s.tick := by unfold State.hubEmit; split <;> rfl
@[simp] theorem State.hubEmit_regions (s : State) (e : Effect) : (s.hubEmit e).regions = s.regions := by unfold State.hubEmit; split <;> rfl
@[simp] theorem State.hubEmit_govs (s : State) (e : Effect) : (s.hubEmit e).govs = s.govs := by unfold State.hubEmit; split <;> rfl
@[simp] theorem State.hubEmit_hub (s : State) (e : Effect) : (s.hubEmit e).hub = s.hub := by unfold State.hubEmit; split <;> rfl
@[simp] theorem State.hubEmit_homes (s : State) (e : Effect) : (s.hubEmit e).homes = s.homes := by unfold State.hubEmit; split <;> rfl
@[simp] theorem State.hubEmit_setup (s : State) (e : Effect) : (s.hubEmit e).setup = s.setup := by unfold State.hubEmit; split <;> rfl
@[simp] theorem State.hubEmit_trims (s : State) (e : Effect) : (s.hubEmit e).trims = s.trims := by unfold State.hubEmit; split <;> rfl
@[simp] theorem State.hubEmit_report (s : State) (e : Effect) : (s.hubEmit e).report = s.report := by unfold State.hubEmit; split <;> rfl
@[simp] theorem State.hubEmit_hubA (s : State) (e : Effect) : (s.hubEmit e).hubA = s.hubA := by unfold State.hubEmit; split <;> rfl
@[simp] theorem State.hubEmit_hubB (s : State) (e : Effect) : (s.hubEmit e).hubB = s.hubB := by unfold State.hubEmit; split <;> rfl
@[simp] theorem State.hubEmit_clk (s : State) (e : Effect) : (s.hubEmit e).clk = s.clk := by unfold State.hubEmit; split <;> rfl
@[simp] theorem State.hubEmit_pow (s : State) (e : Effect) : (s.hubEmit e).pow = s.pow := by unfold State.hubEmit; split <;> rfl
@[simp] theorem State.hubEmit_events (s : State) (e : Effect) : (s.hubEmit e).events = s.events := by unfold State.hubEmit; split <;> rfl
@[simp] theorem State.hubEmit_latches (s : State) (e : Effect) : (s.hubEmit e).latches = s.latches := by unfold State.hubEmit; split <;> rfl
@[simp] theorem State.hubEmit_await (s : State) (e : Effect) : (s.hubEmit e).await = s.await := by unfold State.hubEmit; split <;> rfl
@[simp] theorem State.hubEmit_seqs (s : State) (e : Effect) : (s.hubEmit e).seqs = s.seqs := by unfold State.hubEmit; split <;> rfl
@[simp] theorem State.hubEmit_hubLast (s : State) (e : Effect) : (s.hubEmit e).hubLast = s.hubLast := by unfold State.hubEmit; split <;> rfl
@[simp] theorem State.hubEmit_reads (s : State) (e : Effect) : (s.hubEmit e).reads = s.reads := by unfold State.hubEmit; split <;> rfl
@[simp] theorem State.hubEmit_fresh (s : State) (e : Effect) : (s.hubEmit e).fresh = s.fresh := by unfold State.hubEmit; split <;> rfl

/-! ### hubSend -/

@[simp] theorem State.hubSend_pending (s : State) (m : Msg) : (s.hubSend m).pending = s.pending := by unfold State.hubSend; split <;> simp
@[simp] theorem State.hubSend_period (s : State) (m : Msg) : (s.hubSend m).period = s.period := by unfold State.hubSend; split <;> simp
@[simp] theorem State.hubSend_tick (s : State) (m : Msg) : (s.hubSend m).tick = s.tick := by unfold State.hubSend; split <;> simp
@[simp] theorem State.hubSend_regions (s : State) (m : Msg) : (s.hubSend m).regions = s.regions := by unfold State.hubSend; split <;> simp
@[simp] theorem State.hubSend_govs (s : State) (m : Msg) : (s.hubSend m).govs = s.govs := by unfold State.hubSend; split <;> simp
@[simp] theorem State.hubSend_hub (s : State) (m : Msg) : (s.hubSend m).hub = s.hub := by unfold State.hubSend; split <;> simp
@[simp] theorem State.hubSend_homes (s : State) (m : Msg) : (s.hubSend m).homes = s.homes := by unfold State.hubSend; split <;> simp
@[simp] theorem State.hubSend_setup (s : State) (m : Msg) : (s.hubSend m).setup = s.setup := by unfold State.hubSend; split <;> simp
@[simp] theorem State.hubSend_trims (s : State) (m : Msg) : (s.hubSend m).trims = s.trims := by unfold State.hubSend; split <;> simp
@[simp] theorem State.hubSend_report (s : State) (m : Msg) : (s.hubSend m).report = s.report := by unfold State.hubSend; split <;> simp
@[simp] theorem State.hubSend_hubA (s : State) (m : Msg) : (s.hubSend m).hubA = s.hubA := by unfold State.hubSend; split <;> simp
@[simp] theorem State.hubSend_hubB (s : State) (m : Msg) : (s.hubSend m).hubB = s.hubB := by unfold State.hubSend; split <;> simp
@[simp] theorem State.hubSend_clk (s : State) (m : Msg) : (s.hubSend m).clk = s.clk := by unfold State.hubSend; split <;> simp
@[simp] theorem State.hubSend_pow (s : State) (m : Msg) : (s.hubSend m).pow = s.pow := by unfold State.hubSend; split <;> simp
@[simp] theorem State.hubSend_events (s : State) (m : Msg) : (s.hubSend m).events = s.events := by unfold State.hubSend; split <;> simp
@[simp] theorem State.hubSend_latches (s : State) (m : Msg) : (s.hubSend m).latches = s.latches := by unfold State.hubSend; split <;> simp
@[simp] theorem State.hubSend_await (s : State) (m : Msg) : (s.hubSend m).await = s.await := by unfold State.hubSend; split <;> simp
@[simp] theorem State.hubSend_hubLast (s : State) (m : Msg) : (s.hubSend m).hubLast = s.hubLast := by unfold State.hubSend; split <;> simp
@[simp] theorem State.hubSend_reads (s : State) (m : Msg) : (s.hubSend m).reads = s.reads := by unfold State.hubSend; split <;> simp
@[simp] theorem State.hubSend_fresh (s : State) (m : Msg) : (s.hubSend m).fresh = s.fresh := by unfold State.hubSend; split <;> simp

/-! ### hubAsk -/

@[simp] theorem State.hubAsk_pending (s : State) (m : Msg) : (s.hubAsk m).pending = s.pending := by unfold State.hubAsk; split <;> simp
@[simp] theorem State.hubAsk_period (s : State) (m : Msg) : (s.hubAsk m).period = s.period := by unfold State.hubAsk; split <;> simp
@[simp] theorem State.hubAsk_tick (s : State) (m : Msg) : (s.hubAsk m).tick = s.tick := by unfold State.hubAsk; split <;> simp
@[simp] theorem State.hubAsk_regions (s : State) (m : Msg) : (s.hubAsk m).regions = s.regions := by unfold State.hubAsk; split <;> simp
@[simp] theorem State.hubAsk_govs (s : State) (m : Msg) : (s.hubAsk m).govs = s.govs := by unfold State.hubAsk; split <;> simp
@[simp] theorem State.hubAsk_hub (s : State) (m : Msg) : (s.hubAsk m).hub = s.hub := by unfold State.hubAsk; split <;> simp
@[simp] theorem State.hubAsk_homes (s : State) (m : Msg) : (s.hubAsk m).homes = s.homes := by unfold State.hubAsk; split <;> simp
@[simp] theorem State.hubAsk_setup (s : State) (m : Msg) : (s.hubAsk m).setup = s.setup := by unfold State.hubAsk; split <;> simp
@[simp] theorem State.hubAsk_trims (s : State) (m : Msg) : (s.hubAsk m).trims = s.trims := by unfold State.hubAsk; split <;> simp
@[simp] theorem State.hubAsk_report (s : State) (m : Msg) : (s.hubAsk m).report = s.report := by unfold State.hubAsk; split <;> simp
@[simp] theorem State.hubAsk_hubA (s : State) (m : Msg) : (s.hubAsk m).hubA = s.hubA := by unfold State.hubAsk; split <;> simp
@[simp] theorem State.hubAsk_hubB (s : State) (m : Msg) : (s.hubAsk m).hubB = s.hubB := by unfold State.hubAsk; split <;> simp
@[simp] theorem State.hubAsk_clk (s : State) (m : Msg) : (s.hubAsk m).clk = s.clk := by unfold State.hubAsk; split <;> simp
@[simp] theorem State.hubAsk_pow (s : State) (m : Msg) : (s.hubAsk m).pow = s.pow := by unfold State.hubAsk; split <;> simp
@[simp] theorem State.hubAsk_events (s : State) (m : Msg) : (s.hubAsk m).events = s.events := by unfold State.hubAsk; split <;> simp
@[simp] theorem State.hubAsk_latches (s : State) (m : Msg) : (s.hubAsk m).latches = s.latches := by unfold State.hubAsk; split <;> simp
@[simp] theorem State.hubAsk_hubLast (s : State) (m : Msg) : (s.hubAsk m).hubLast = s.hubLast := by unfold State.hubAsk; split <;> simp
@[simp] theorem State.hubAsk_reads (s : State) (m : Msg) : (s.hubAsk m).reads = s.reads := by unfold State.hubAsk; split <;> simp
@[simp] theorem State.hubAsk_fresh (s : State) (m : Msg) : (s.hubAsk m).fresh = s.fresh := by unfold State.hubAsk; split <;> simp

/-! ### raiseRoll -/

@[simp] theorem State.raiseRoll_pending (s : State) (r k b : Nat) : (s.raiseRoll r k b).pending = s.pending := rfl
@[simp] theorem State.raiseRoll_period (s : State) (r k b : Nat) : (s.raiseRoll r k b).period = s.period := rfl
@[simp] theorem State.raiseRoll_tick (s : State) (r k b : Nat) : (s.raiseRoll r k b).tick = s.tick := rfl
@[simp] theorem State.raiseRoll_regions (s : State) (r k b : Nat) : (s.raiseRoll r k b).regions = s.regions := rfl
@[simp] theorem State.raiseRoll_hub (s : State) (r k b : Nat) : (s.raiseRoll r k b).hub = s.hub := rfl
@[simp] theorem State.raiseRoll_homes (s : State) (r k b : Nat) : (s.raiseRoll r k b).homes = s.homes := rfl
@[simp] theorem State.raiseRoll_setup (s : State) (r k b : Nat) : (s.raiseRoll r k b).setup = s.setup := rfl
@[simp] theorem State.raiseRoll_trims (s : State) (r k b : Nat) : (s.raiseRoll r k b).trims = s.trims := rfl
@[simp] theorem State.raiseRoll_report (s : State) (r k b : Nat) : (s.raiseRoll r k b).report = s.report := rfl
@[simp] theorem State.raiseRoll_hubA (s : State) (r k b : Nat) : (s.raiseRoll r k b).hubA = s.hubA := rfl
@[simp] theorem State.raiseRoll_hubB (s : State) (r k b : Nat) : (s.raiseRoll r k b).hubB = s.hubB := rfl
@[simp] theorem State.raiseRoll_pair (s : State) (r k b : Nat) : (s.raiseRoll r k b).pair = s.pair := rfl
@[simp] theorem State.raiseRoll_clk (s : State) (r k b : Nat) : (s.raiseRoll r k b).clk = s.clk := rfl
@[simp] theorem State.raiseRoll_pow (s : State) (r k b : Nat) : (s.raiseRoll r k b).pow = s.pow := rfl
@[simp] theorem State.raiseRoll_events (s : State) (r k b : Nat) : (s.raiseRoll r k b).events = s.events ++ [{ src := 64 * k + r, cause := b }] := rfl
@[simp] theorem State.raiseRoll_await (s : State) (r k b : Nat) : (s.raiseRoll r k b).await = s.await := rfl
@[simp] theorem State.raiseRoll_seqs (s : State) (r k b : Nat) : (s.raiseRoll r k b).seqs = s.seqs := rfl
@[simp] theorem State.raiseRoll_hubLast (s : State) (r k b : Nat) : (s.raiseRoll r k b).hubLast = s.hubLast := rfl
@[simp] theorem State.raiseRoll_reads (s : State) (r k b : Nat) : (s.raiseRoll r k b).reads = s.reads := rfl
@[simp] theorem State.raiseRoll_fresh (s : State) (r k b : Nat) : (s.raiseRoll r k b).fresh = s.fresh := rfl
@[simp] theorem State.raiseRoll_out (s : State) (r k b : Nat) : (s.raiseRoll r k b).out = s.out := rfl

/-! ### holdRoll -/

@[simp] theorem State.holdRoll_pending (s : State) (r k b : Nat) (on : Bool) : (s.holdRoll r k b on).pending = s.pending := by unfold State.holdRoll; simp only; split <;> rfl
@[simp] theorem State.holdRoll_period (s : State) (r k b : Nat) (on : Bool) : (s.holdRoll r k b on).period = s.period := by unfold State.holdRoll; simp only; split <;> rfl
@[simp] theorem State.holdRoll_tick (s : State) (r k b : Nat) (on : Bool) : (s.holdRoll r k b on).tick = s.tick := by unfold State.holdRoll; simp only; split <;> rfl
@[simp] theorem State.holdRoll_regions (s : State) (r k b : Nat) (on : Bool) : (s.holdRoll r k b on).regions = s.regions := by unfold State.holdRoll; simp only; split <;> rfl
@[simp] theorem State.holdRoll_hub (s : State) (r k b : Nat) (on : Bool) : (s.holdRoll r k b on).hub = s.hub := by unfold State.holdRoll; simp only; split <;> rfl
@[simp] theorem State.holdRoll_homes (s : State) (r k b : Nat) (on : Bool) : (s.holdRoll r k b on).homes = s.homes := by unfold State.holdRoll; simp only; split <;> rfl
@[simp] theorem State.holdRoll_setup (s : State) (r k b : Nat) (on : Bool) : (s.holdRoll r k b on).setup = s.setup := by unfold State.holdRoll; simp only; split <;> rfl
@[simp] theorem State.holdRoll_trims (s : State) (r k b : Nat) (on : Bool) : (s.holdRoll r k b on).trims = s.trims := by unfold State.holdRoll; simp only; split <;> rfl
@[simp] theorem State.holdRoll_report (s : State) (r k b : Nat) (on : Bool) : (s.holdRoll r k b on).report = s.report := by unfold State.holdRoll; simp only; split <;> rfl
@[simp] theorem State.holdRoll_hubA (s : State) (r k b : Nat) (on : Bool) : (s.holdRoll r k b on).hubA = s.hubA := by unfold State.holdRoll; simp only; split <;> rfl
@[simp] theorem State.holdRoll_hubB (s : State) (r k b : Nat) (on : Bool) : (s.holdRoll r k b on).hubB = s.hubB := by unfold State.holdRoll; simp only; split <;> rfl
@[simp] theorem State.holdRoll_pair (s : State) (r k b : Nat) (on : Bool) : (s.holdRoll r k b on).pair = s.pair := by unfold State.holdRoll; simp only; split <;> rfl
@[simp] theorem State.holdRoll_clk (s : State) (r k b : Nat) (on : Bool) : (s.holdRoll r k b on).clk = s.clk := by unfold State.holdRoll; simp only; split <;> rfl
@[simp] theorem State.holdRoll_pow (s : State) (r k b : Nat) (on : Bool) : (s.holdRoll r k b on).pow = s.pow := by unfold State.holdRoll; simp only; split <;> rfl
@[simp] theorem State.holdRoll_await (s : State) (r k b : Nat) (on : Bool) : (s.holdRoll r k b on).await = s.await := by unfold State.holdRoll; simp only; split <;> rfl
@[simp] theorem State.holdRoll_seqs (s : State) (r k b : Nat) (on : Bool) : (s.holdRoll r k b on).seqs = s.seqs := by unfold State.holdRoll; simp only; split <;> rfl
@[simp] theorem State.holdRoll_hubLast (s : State) (r k b : Nat) (on : Bool) : (s.holdRoll r k b on).hubLast = s.hubLast := by unfold State.holdRoll; simp only; split <;> rfl
@[simp] theorem State.holdRoll_reads (s : State) (r k b : Nat) (on : Bool) : (s.holdRoll r k b on).reads = s.reads := by unfold State.holdRoll; simp only; split <;> rfl
@[simp] theorem State.holdRoll_fresh (s : State) (r k b : Nat) (on : Bool) : (s.holdRoll r k b on).fresh = s.fresh := by unfold State.holdRoll; simp only; split <;> rfl
@[simp] theorem State.holdRoll_out (s : State) (r k b : Nat) (on : Bool) : (s.holdRoll r k b on).out = s.out := by unfold State.holdRoll; simp only; split <;> rfl

/-! ### record -/

@[simp] theorem State.record_pending (s : State) (code level argx source : Nat) (arg : Word) : (s.record code level argx source arg).pending = s.pending := rfl
@[simp] theorem State.record_period (s : State) (code level argx source : Nat) (arg : Word) : (s.record code level argx source arg).period = s.period := rfl
@[simp] theorem State.record_tick (s : State) (code level argx source : Nat) (arg : Word) : (s.record code level argx source arg).tick = s.tick := rfl
@[simp] theorem State.record_regions (s : State) (code level argx source : Nat) (arg : Word) : (s.record code level argx source arg).regions = s.regions := rfl
@[simp] theorem State.record_govs (s : State) (code level argx source : Nat) (arg : Word) : (s.record code level argx source arg).govs = s.govs := rfl
@[simp] theorem State.record_homes (s : State) (code level argx source : Nat) (arg : Word) : (s.record code level argx source arg).homes = s.homes := rfl
@[simp] theorem State.record_setup (s : State) (code level argx source : Nat) (arg : Word) : (s.record code level argx source arg).setup = s.setup := rfl
@[simp] theorem State.record_trims (s : State) (code level argx source : Nat) (arg : Word) : (s.record code level argx source arg).trims = s.trims := rfl
@[simp] theorem State.record_report (s : State) (code level argx source : Nat) (arg : Word) : (s.record code level argx source arg).report = s.report := rfl
@[simp] theorem State.record_hubA (s : State) (code level argx source : Nat) (arg : Word) : (s.record code level argx source arg).hubA = s.hubA := rfl
@[simp] theorem State.record_hubB (s : State) (code level argx source : Nat) (arg : Word) : (s.record code level argx source arg).hubB = s.hubB := rfl
@[simp] theorem State.record_pair (s : State) (code level argx source : Nat) (arg : Word) : (s.record code level argx source arg).pair = s.pair := rfl
@[simp] theorem State.record_clk (s : State) (code level argx source : Nat) (arg : Word) : (s.record code level argx source arg).clk = s.clk := rfl
@[simp] theorem State.record_pow (s : State) (code level argx source : Nat) (arg : Word) : (s.record code level argx source arg).pow = s.pow := rfl
@[simp] theorem State.record_events (s : State) (code level argx source : Nat) (arg : Word) : (s.record code level argx source arg).events = s.events := rfl
@[simp] theorem State.record_latches (s : State) (code level argx source : Nat) (arg : Word) : (s.record code level argx source arg).latches = s.latches := rfl
@[simp] theorem State.record_await (s : State) (code level argx source : Nat) (arg : Word) : (s.record code level argx source arg).await = s.await := rfl
@[simp] theorem State.record_seqs (s : State) (code level argx source : Nat) (arg : Word) : (s.record code level argx source arg).seqs = s.seqs := rfl
@[simp] theorem State.record_hubLast (s : State) (code level argx source : Nat) (arg : Word) : (s.record code level argx source arg).hubLast = s.hubLast := rfl
@[simp] theorem State.record_reads (s : State) (code level argx source : Nat) (arg : Word) : (s.record code level argx source arg).reads = s.reads := rfl
@[simp] theorem State.record_fresh (s : State) (code level argx source : Nat) (arg : Word) : (s.record code level argx source arg).fresh = s.fresh := rfl
@[simp] theorem State.record_out (s : State) (code level argx source : Nat) (arg : Word) : (s.record code level argx source arg).out = s.out := rfl

/-! ### telemetry -/

@[simp] theorem State.telemetry_pending (s : State) (type region : Nat) (body : List Byte) (sub : Bool) : (s.telemetry type region body sub).pending = s.pending := by unfold State.telemetry; split <;> (try split) <;> rfl
@[simp] theorem State.telemetry_period (s : State) (type region : Nat) (body : List Byte) (sub : Bool) : (s.telemetry type region body sub).period = s.period := by unfold State.telemetry; split <;> (try split) <;> rfl
@[simp] theorem State.telemetry_tick (s : State) (type region : Nat) (body : List Byte) (sub : Bool) : (s.telemetry type region body sub).tick = s.tick := by unfold State.telemetry; split <;> (try split) <;> rfl
@[simp] theorem State.telemetry_regions (s : State) (type region : Nat) (body : List Byte) (sub : Bool) : (s.telemetry type region body sub).regions = s.regions := by unfold State.telemetry; split <;> (try split) <;> rfl
@[simp] theorem State.telemetry_govs (s : State) (type region : Nat) (body : List Byte) (sub : Bool) : (s.telemetry type region body sub).govs = s.govs := by unfold State.telemetry; split <;> (try split) <;> rfl
@[simp] theorem State.telemetry_homes (s : State) (type region : Nat) (body : List Byte) (sub : Bool) : (s.telemetry type region body sub).homes = s.homes := by unfold State.telemetry; split <;> (try split) <;> rfl
@[simp] theorem State.telemetry_setup (s : State) (type region : Nat) (body : List Byte) (sub : Bool) : (s.telemetry type region body sub).setup = s.setup := by unfold State.telemetry; split <;> (try split) <;> rfl
@[simp] theorem State.telemetry_trims (s : State) (type region : Nat) (body : List Byte) (sub : Bool) : (s.telemetry type region body sub).trims = s.trims := by unfold State.telemetry; split <;> (try split) <;> rfl
@[simp] theorem State.telemetry_report (s : State) (type region : Nat) (body : List Byte) (sub : Bool) : (s.telemetry type region body sub).report = s.report := by unfold State.telemetry; split <;> (try split) <;> rfl
@[simp] theorem State.telemetry_hubA (s : State) (type region : Nat) (body : List Byte) (sub : Bool) : (s.telemetry type region body sub).hubA = s.hubA := by unfold State.telemetry; split <;> (try split) <;> rfl
@[simp] theorem State.telemetry_hubB (s : State) (type region : Nat) (body : List Byte) (sub : Bool) : (s.telemetry type region body sub).hubB = s.hubB := by unfold State.telemetry; split <;> (try split) <;> rfl
@[simp] theorem State.telemetry_pair (s : State) (type region : Nat) (body : List Byte) (sub : Bool) : (s.telemetry type region body sub).pair = s.pair := by unfold State.telemetry; split <;> (try split) <;> rfl
@[simp] theorem State.telemetry_clk (s : State) (type region : Nat) (body : List Byte) (sub : Bool) : (s.telemetry type region body sub).clk = s.clk := by unfold State.telemetry; split <;> (try split) <;> rfl
@[simp] theorem State.telemetry_pow (s : State) (type region : Nat) (body : List Byte) (sub : Bool) : (s.telemetry type region body sub).pow = s.pow := by unfold State.telemetry; split <;> (try split) <;> rfl
@[simp] theorem State.telemetry_latches (s : State) (type region : Nat) (body : List Byte) (sub : Bool) : (s.telemetry type region body sub).latches = s.latches := by unfold State.telemetry; split <;> (try split) <;> rfl
@[simp] theorem State.telemetry_await (s : State) (type region : Nat) (body : List Byte) (sub : Bool) : (s.telemetry type region body sub).await = s.await := by unfold State.telemetry; split <;> (try split) <;> rfl
@[simp] theorem State.telemetry_seqs (s : State) (type region : Nat) (body : List Byte) (sub : Bool) : (s.telemetry type region body sub).seqs = s.seqs := by unfold State.telemetry; split <;> (try split) <;> rfl
@[simp] theorem State.telemetry_hubLast (s : State) (type region : Nat) (body : List Byte) (sub : Bool) : (s.telemetry type region body sub).hubLast = s.hubLast := by unfold State.telemetry; split <;> (try split) <;> rfl
@[simp] theorem State.telemetry_reads (s : State) (type region : Nat) (body : List Byte) (sub : Bool) : (s.telemetry type region body sub).reads = s.reads := by unfold State.telemetry; split <;> (try split) <;> rfl
@[simp] theorem State.telemetry_fresh (s : State) (type region : Nat) (body : List Byte) (sub : Bool) : (s.telemetry type region body sub).fresh = s.fresh := by unfold State.telemetry; split <;> (try split) <;> rfl
@[simp] theorem State.telemetry_out (s : State) (type region : Nat) (body : List Byte) (sub : Bool) : (s.telemetry type region body sub).out = s.out := by unfold State.telemetry; split <;> (try split) <;> rfl

/-! ### complete -/

@[simp] theorem State.complete_pending (s : State) (cmd : CmdRef) (code detail : Nat) (result : List Byte) : (s.complete cmd code detail result).pending = s.pending := by unfold State.complete; split <;> rfl
@[simp] theorem State.complete_period (s : State) (cmd : CmdRef) (code detail : Nat) (result : List Byte) : (s.complete cmd code detail result).period = s.period := by unfold State.complete; split <;> rfl
@[simp] theorem State.complete_tick (s : State) (cmd : CmdRef) (code detail : Nat) (result : List Byte) : (s.complete cmd code detail result).tick = s.tick := by unfold State.complete; split <;> rfl
@[simp] theorem State.complete_regions (s : State) (cmd : CmdRef) (code detail : Nat) (result : List Byte) : (s.complete cmd code detail result).regions = s.regions := by unfold State.complete; split <;> rfl
@[simp] theorem State.complete_govs (s : State) (cmd : CmdRef) (code detail : Nat) (result : List Byte) : (s.complete cmd code detail result).govs = s.govs := by unfold State.complete; split <;> rfl
@[simp] theorem State.complete_homes (s : State) (cmd : CmdRef) (code detail : Nat) (result : List Byte) : (s.complete cmd code detail result).homes = s.homes := by unfold State.complete; split <;> rfl
@[simp] theorem State.complete_setup (s : State) (cmd : CmdRef) (code detail : Nat) (result : List Byte) : (s.complete cmd code detail result).setup = s.setup := by unfold State.complete; split <;> rfl
@[simp] theorem State.complete_trims (s : State) (cmd : CmdRef) (code detail : Nat) (result : List Byte) : (s.complete cmd code detail result).trims = s.trims := by unfold State.complete; split <;> rfl
@[simp] theorem State.complete_report (s : State) (cmd : CmdRef) (code detail : Nat) (result : List Byte) : (s.complete cmd code detail result).report = s.report := by unfold State.complete; split <;> rfl
@[simp] theorem State.complete_hubA (s : State) (cmd : CmdRef) (code detail : Nat) (result : List Byte) : (s.complete cmd code detail result).hubA = s.hubA := by unfold State.complete; split <;> rfl
@[simp] theorem State.complete_hubB (s : State) (cmd : CmdRef) (code detail : Nat) (result : List Byte) : (s.complete cmd code detail result).hubB = s.hubB := by unfold State.complete; split <;> rfl
@[simp] theorem State.complete_pair (s : State) (cmd : CmdRef) (code detail : Nat) (result : List Byte) : (s.complete cmd code detail result).pair = s.pair := by unfold State.complete; split <;> rfl
@[simp] theorem State.complete_clk (s : State) (cmd : CmdRef) (code detail : Nat) (result : List Byte) : (s.complete cmd code detail result).clk = s.clk := by unfold State.complete; split <;> rfl
@[simp] theorem State.complete_pow (s : State) (cmd : CmdRef) (code detail : Nat) (result : List Byte) : (s.complete cmd code detail result).pow = s.pow := by unfold State.complete; split <;> rfl
@[simp] theorem State.complete_events (s : State) (cmd : CmdRef) (code detail : Nat) (result : List Byte) : (s.complete cmd code detail result).events = s.events := by unfold State.complete; split <;> rfl
@[simp] theorem State.complete_latches (s : State) (cmd : CmdRef) (code detail : Nat) (result : List Byte) : (s.complete cmd code detail result).latches = s.latches := by unfold State.complete; split <;> rfl
@[simp] theorem State.complete_await (s : State) (cmd : CmdRef) (code detail : Nat) (result : List Byte) : (s.complete cmd code detail result).await = s.await := by unfold State.complete; split <;> rfl
@[simp] theorem State.complete_seqs (s : State) (cmd : CmdRef) (code detail : Nat) (result : List Byte) : (s.complete cmd code detail result).seqs = s.seqs := by unfold State.complete; split <;> rfl
@[simp] theorem State.complete_hubLast (s : State) (cmd : CmdRef) (code detail : Nat) (result : List Byte) : (s.complete cmd code detail result).hubLast = s.hubLast := by unfold State.complete; split <;> rfl
@[simp] theorem State.complete_reads (s : State) (cmd : CmdRef) (code detail : Nat) (result : List Byte) : (s.complete cmd code detail result).reads = s.reads := by unfold State.complete; split <;> rfl
@[simp] theorem State.complete_fresh (s : State) (cmd : CmdRef) (code detail : Nat) (result : List Byte) : (s.complete cmd code detail result).fresh = s.fresh := by unfold State.complete; split <;> rfl
@[simp] theorem State.complete_out (s : State) (cmd : CmdRef) (code detail : Nat) (result : List Byte) : (s.complete cmd code detail result).out = s.out := by unfold State.complete; split <;> rfl

/-! ### completeInterim -/

@[simp] theorem State.completeInterim_pending (s : State) (cmd : CmdRef) (detail : Nat) (result : List Byte) : (s.completeInterim cmd detail result).pending = s.pending := by unfold State.completeInterim; split <;> rfl
@[simp] theorem State.completeInterim_period (s : State) (cmd : CmdRef) (detail : Nat) (result : List Byte) : (s.completeInterim cmd detail result).period = s.period := by unfold State.completeInterim; split <;> rfl
@[simp] theorem State.completeInterim_tick (s : State) (cmd : CmdRef) (detail : Nat) (result : List Byte) : (s.completeInterim cmd detail result).tick = s.tick := by unfold State.completeInterim; split <;> rfl
@[simp] theorem State.completeInterim_regions (s : State) (cmd : CmdRef) (detail : Nat) (result : List Byte) : (s.completeInterim cmd detail result).regions = s.regions := by unfold State.completeInterim; split <;> rfl
@[simp] theorem State.completeInterim_govs (s : State) (cmd : CmdRef) (detail : Nat) (result : List Byte) : (s.completeInterim cmd detail result).govs = s.govs := by unfold State.completeInterim; split <;> rfl
@[simp] theorem State.completeInterim_homes (s : State) (cmd : CmdRef) (detail : Nat) (result : List Byte) : (s.completeInterim cmd detail result).homes = s.homes := by unfold State.completeInterim; split <;> rfl
@[simp] theorem State.completeInterim_setup (s : State) (cmd : CmdRef) (detail : Nat) (result : List Byte) : (s.completeInterim cmd detail result).setup = s.setup := by unfold State.completeInterim; split <;> rfl
@[simp] theorem State.completeInterim_trims (s : State) (cmd : CmdRef) (detail : Nat) (result : List Byte) : (s.completeInterim cmd detail result).trims = s.trims := by unfold State.completeInterim; split <;> rfl
@[simp] theorem State.completeInterim_report (s : State) (cmd : CmdRef) (detail : Nat) (result : List Byte) : (s.completeInterim cmd detail result).report = s.report := by unfold State.completeInterim; split <;> rfl
@[simp] theorem State.completeInterim_hubA (s : State) (cmd : CmdRef) (detail : Nat) (result : List Byte) : (s.completeInterim cmd detail result).hubA = s.hubA := by unfold State.completeInterim; split <;> rfl
@[simp] theorem State.completeInterim_hubB (s : State) (cmd : CmdRef) (detail : Nat) (result : List Byte) : (s.completeInterim cmd detail result).hubB = s.hubB := by unfold State.completeInterim; split <;> rfl
@[simp] theorem State.completeInterim_pair (s : State) (cmd : CmdRef) (detail : Nat) (result : List Byte) : (s.completeInterim cmd detail result).pair = s.pair := by unfold State.completeInterim; split <;> rfl
@[simp] theorem State.completeInterim_clk (s : State) (cmd : CmdRef) (detail : Nat) (result : List Byte) : (s.completeInterim cmd detail result).clk = s.clk := by unfold State.completeInterim; split <;> rfl
@[simp] theorem State.completeInterim_pow (s : State) (cmd : CmdRef) (detail : Nat) (result : List Byte) : (s.completeInterim cmd detail result).pow = s.pow := by unfold State.completeInterim; split <;> rfl
@[simp] theorem State.completeInterim_events (s : State) (cmd : CmdRef) (detail : Nat) (result : List Byte) : (s.completeInterim cmd detail result).events = s.events := by unfold State.completeInterim; split <;> rfl
@[simp] theorem State.completeInterim_latches (s : State) (cmd : CmdRef) (detail : Nat) (result : List Byte) : (s.completeInterim cmd detail result).latches = s.latches := by unfold State.completeInterim; split <;> rfl
@[simp] theorem State.completeInterim_await (s : State) (cmd : CmdRef) (detail : Nat) (result : List Byte) : (s.completeInterim cmd detail result).await = s.await := by unfold State.completeInterim; split <;> rfl
@[simp] theorem State.completeInterim_seqs (s : State) (cmd : CmdRef) (detail : Nat) (result : List Byte) : (s.completeInterim cmd detail result).seqs = s.seqs := by unfold State.completeInterim; split <;> rfl
@[simp] theorem State.completeInterim_hubLast (s : State) (cmd : CmdRef) (detail : Nat) (result : List Byte) : (s.completeInterim cmd detail result).hubLast = s.hubLast := by unfold State.completeInterim; split <;> rfl
@[simp] theorem State.completeInterim_reads (s : State) (cmd : CmdRef) (detail : Nat) (result : List Byte) : (s.completeInterim cmd detail result).reads = s.reads := by unfold State.completeInterim; split <;> rfl
@[simp] theorem State.completeInterim_fresh (s : State) (cmd : CmdRef) (detail : Nat) (result : List Byte) : (s.completeInterim cmd detail result).fresh = s.fresh := by unfold State.completeInterim; split <;> rfl
@[simp] theorem State.completeInterim_out (s : State) (cmd : CmdRef) (detail : Nat) (result : List Byte) : (s.completeInterim cmd detail result).out = s.out := by unfold State.completeInterim; split <;> rfl

/-! ### fence -/

@[simp] theorem State.fence_pending (s : State) (h : Hub) : (s.fence h).pending = s.pending := by unfold State.fence; simp only; split <;> cases h <;> rfl
@[simp] theorem State.fence_period (s : State) (h : Hub) : (s.fence h).period = s.period := by unfold State.fence; simp only; split <;> cases h <;> rfl
@[simp] theorem State.fence_tick (s : State) (h : Hub) : (s.fence h).tick = s.tick := by unfold State.fence; simp only; split <;> cases h <;> rfl
@[simp] theorem State.fence_regions (s : State) (h : Hub) : (s.fence h).regions = s.regions := by unfold State.fence; simp only; split <;> cases h <;> rfl
@[simp] theorem State.fence_govs (s : State) (h : Hub) : (s.fence h).govs = s.govs := by unfold State.fence; simp only; split <;> cases h <;> rfl
@[simp] theorem State.fence_hub (s : State) (h : Hub) : (s.fence h).hub = s.hub := by unfold State.fence; simp only; split <;> cases h <;> rfl
@[simp] theorem State.fence_homes (s : State) (h : Hub) : (s.fence h).homes = s.homes := by unfold State.fence; simp only; split <;> cases h <;> rfl
@[simp] theorem State.fence_setup (s : State) (h : Hub) : (s.fence h).setup = s.setup := by unfold State.fence; simp only; split <;> cases h <;> rfl
@[simp] theorem State.fence_trims (s : State) (h : Hub) : (s.fence h).trims = s.trims := by unfold State.fence; simp only; split <;> cases h <;> rfl
@[simp] theorem State.fence_report (s : State) (h : Hub) : (s.fence h).report = s.report := by unfold State.fence; simp only; split <;> cases h <;> rfl
@[simp] theorem State.fence_clk (s : State) (h : Hub) : (s.fence h).clk = s.clk := by unfold State.fence; simp only; split <;> cases h <;> rfl
@[simp] theorem State.fence_pow (s : State) (h : Hub) : (s.fence h).pow = s.pow := by unfold State.fence; simp only; split <;> cases h <;> rfl
@[simp] theorem State.fence_events (s : State) (h : Hub) : (s.fence h).events = s.events := by unfold State.fence; simp only; split <;> cases h <;> rfl
@[simp] theorem State.fence_latches (s : State) (h : Hub) : (s.fence h).latches = s.latches := by unfold State.fence; simp only; split <;> cases h <;> rfl
@[simp] theorem State.fence_seqs (s : State) (h : Hub) : (s.fence h).seqs = s.seqs := by unfold State.fence; simp only; split <;> cases h <;> rfl
@[simp] theorem State.fence_hubLast (s : State) (h : Hub) : (s.fence h).hubLast = s.hubLast := by unfold State.fence; simp only; split <;> cases h <;> rfl
@[simp] theorem State.fence_reads (s : State) (h : Hub) : (s.fence h).reads = s.reads := by unfold State.fence; simp only; split <;> cases h <;> rfl
@[simp] theorem State.fence_fresh (s : State) (h : Hub) : (s.fence h).fresh = s.fresh := by unfold State.fence; simp only; split <;> cases h <;> rfl
@[simp] theorem State.fence_out (s : State) (h : Hub) : (s.fence h).out = s.out := by unfold State.fence; simp only; split <;> cases h <;> rfl

/-! ### badMsg -/

@[simp] theorem State.badMsg_pending (s : State) (r : Nat) : (s.badMsg r).pending = s.pending := rfl
@[simp] theorem State.badMsg_period (s : State) (r : Nat) : (s.badMsg r).period = s.period := rfl
@[simp] theorem State.badMsg_tick (s : State) (r : Nat) : (s.badMsg r).tick = s.tick := rfl
@[simp] theorem State.badMsg_regions (s : State) (r : Nat) : (s.badMsg r).regions = s.regions := rfl
@[simp] theorem State.badMsg_govs (s : State) (r : Nat) : (s.badMsg r).govs = s.govs.modify r (fun g => { g with badCnt := satAdd 0xFFF g.badCnt 1 }) := rfl
@[simp] theorem State.badMsg_hub (s : State) (r : Nat) : (s.badMsg r).hub = s.hub := rfl
@[simp] theorem State.badMsg_homes (s : State) (r : Nat) : (s.badMsg r).homes = s.homes := rfl
@[simp] theorem State.badMsg_setup (s : State) (r : Nat) : (s.badMsg r).setup = s.setup := rfl
@[simp] theorem State.badMsg_trims (s : State) (r : Nat) : (s.badMsg r).trims = s.trims := rfl
@[simp] theorem State.badMsg_report (s : State) (r : Nat) : (s.badMsg r).report = s.report := rfl
@[simp] theorem State.badMsg_hubA (s : State) (r : Nat) : (s.badMsg r).hubA = s.hubA := rfl
@[simp] theorem State.badMsg_hubB (s : State) (r : Nat) : (s.badMsg r).hubB = s.hubB := rfl
@[simp] theorem State.badMsg_pair (s : State) (r : Nat) : (s.badMsg r).pair = s.pair := rfl
@[simp] theorem State.badMsg_clk (s : State) (r : Nat) : (s.badMsg r).clk = s.clk := rfl
@[simp] theorem State.badMsg_pow (s : State) (r : Nat) : (s.badMsg r).pow = s.pow := rfl
@[simp] theorem State.badMsg_events (s : State) (r : Nat) : (s.badMsg r).events = s.events ++ [{ src := 195, cause := 0, arg := 0 }] := rfl
@[simp] theorem State.badMsg_latches (s : State) (r : Nat) : (s.badMsg r).latches = s.latches := rfl
@[simp] theorem State.badMsg_await (s : State) (r : Nat) : (s.badMsg r).await = s.await := rfl
@[simp] theorem State.badMsg_seqs (s : State) (r : Nat) : (s.badMsg r).seqs = s.seqs := rfl
@[simp] theorem State.badMsg_hubLast (s : State) (r : Nat) : (s.badMsg r).hubLast = s.hubLast := rfl
@[simp] theorem State.badMsg_reads (s : State) (r : Nat) : (s.badMsg r).reads = s.reads := rfl
@[simp] theorem State.badMsg_fresh (s : State) (r : Nat) : (s.badMsg r).fresh = s.fresh := rfl
@[simp] theorem State.badMsg_out (s : State) (r : Nat) : (s.badMsg r).out = s.out := rfl

/-! ### staleMsg -/

@[simp] theorem State.staleMsg_pending (s : State) (r : Nat) : (s.staleMsg r).pending = s.pending := rfl
@[simp] theorem State.staleMsg_period (s : State) (r : Nat) : (s.staleMsg r).period = s.period := rfl
@[simp] theorem State.staleMsg_tick (s : State) (r : Nat) : (s.staleMsg r).tick = s.tick := rfl
@[simp] theorem State.staleMsg_regions (s : State) (r : Nat) : (s.staleMsg r).regions = s.regions := rfl
@[simp] theorem State.staleMsg_govs (s : State) (r : Nat) : (s.staleMsg r).govs = s.govs.modify r (fun g => { g with staleCnt := satAdd 0xFFF g.staleCnt 1 }) := rfl
@[simp] theorem State.staleMsg_hub (s : State) (r : Nat) : (s.staleMsg r).hub = s.hub := rfl
@[simp] theorem State.staleMsg_homes (s : State) (r : Nat) : (s.staleMsg r).homes = s.homes := rfl
@[simp] theorem State.staleMsg_setup (s : State) (r : Nat) : (s.staleMsg r).setup = s.setup := rfl
@[simp] theorem State.staleMsg_trims (s : State) (r : Nat) : (s.staleMsg r).trims = s.trims := rfl
@[simp] theorem State.staleMsg_report (s : State) (r : Nat) : (s.staleMsg r).report = s.report := rfl
@[simp] theorem State.staleMsg_hubA (s : State) (r : Nat) : (s.staleMsg r).hubA = s.hubA := rfl
@[simp] theorem State.staleMsg_hubB (s : State) (r : Nat) : (s.staleMsg r).hubB = s.hubB := rfl
@[simp] theorem State.staleMsg_pair (s : State) (r : Nat) : (s.staleMsg r).pair = s.pair := rfl
@[simp] theorem State.staleMsg_clk (s : State) (r : Nat) : (s.staleMsg r).clk = s.clk := rfl
@[simp] theorem State.staleMsg_pow (s : State) (r : Nat) : (s.staleMsg r).pow = s.pow := rfl
@[simp] theorem State.staleMsg_events (s : State) (r : Nat) : (s.staleMsg r).events = s.events := rfl
@[simp] theorem State.staleMsg_latches (s : State) (r : Nat) : (s.staleMsg r).latches = s.latches := rfl
@[simp] theorem State.staleMsg_await (s : State) (r : Nat) : (s.staleMsg r).await = s.await := rfl
@[simp] theorem State.staleMsg_seqs (s : State) (r : Nat) : (s.staleMsg r).seqs = s.seqs := rfl
@[simp] theorem State.staleMsg_hubLast (s : State) (r : Nat) : (s.staleMsg r).hubLast = s.hubLast := rfl
@[simp] theorem State.staleMsg_reads (s : State) (r : Nat) : (s.staleMsg r).reads = s.reads := rfl
@[simp] theorem State.staleMsg_fresh (s : State) (r : Nat) : (s.staleMsg r).fresh = s.fresh := rfl
@[simp] theorem State.staleMsg_out (s : State) (r : Nat) : (s.staleMsg r).out = s.out := rfl

/-! ### Parts -/

@[simp] theorem State.modRings_eq (s : State) (f : Rings → Rings) :
    s.modRings f = s.modHub (fun h => { h with rings := f h.rings }) := rfl
@[simp] theorem State.modThyme_eq (s : State) (f : Thyme → Thyme) :
    s.modThyme f = s.modHub (fun h => { h with thyme := f h.thyme }) := rfl
@[simp] theorem State.modGroups_eq (s : State) (f : Groups → Groups) :
    s.modGroups f = s.modHub (fun h => { h with groups := f h.groups }) := rfl
@[simp] theorem State.modBudget_eq (s : State) (f : Budget → Budget) :
    s.modBudget f = s.modHub (fun h => { h with budget := f h.budget }) := rfl
@[simp] theorem State.modRecorder_eq (s : State) (f : Recorder → Recorder) :
    s.modRecorder f = s.modHub (fun h => { h with recorder := f h.recorder }) := rfl
@[simp] theorem State.modMb_eq (s : State) (f : HostMb → HostMb) :
    s.modMb f = s.modHub (fun h => { h with mb := f h.mb }) := rfl
@[simp] theorem State.modFw_eq (s : State) (f : Firmware → Firmware) :
    s.modFw f = s.modHub (fun h => { h with fw := f h.fw }) := rfl
@[simp] theorem State.modAgeing_eq (s : State) (f : Ageing → Ageing) :
    s.modAgeing f = s.modHub (fun h => { h with ageing := f h.ageing }) := rfl

@[simp] theorem State.modRegion_region_self (s : State) (r : Nat) (f : Region → Region) :
    (s.modRegion r f).region r = f (s.region r) := SMap.get_modify_self ..

@[simp] theorem State.modRegion_region_ne (s : State) {r k : Nat} (f : Region → Region) (h : k ≠ r) :
    (s.modRegion r f).region k = s.region k := SMap.get_modify_ne _ _ h

@[simp] theorem State.modRegions_region (s : State) (f : Region → Region) (k : Nat) :
    (s.modRegions f).region k = f (s.region k) := SMap.get_mapAll ..

@[simp] theorem State.modGov_gov_self (s : State) (r : Nat) (f : Gov → Gov) : (s.modGov r f).gov r = f (s.gov r) :=
  SMap.get_modify_self ..

@[simp] theorem State.modGov_gov_ne (s : State) {r k : Nat} (f : Gov → Gov) (h : k ≠ r) : (s.modGov r f).gov k = s.gov k :=
  SMap.get_modify_ne _ _ h

@[simp] theorem State.modGovs_gov (s : State) (f : Gov → Gov) (k : Nat) : (s.modGovs f).gov k = f (s.gov k) :=
  SMap.get_mapAll ..

@[simp] theorem State.modCluster_cluster_self (s : State) (c : Nat) (f : Cluster → Cluster) :
    (s.modCluster c f).cluster c = f (s.cluster c) := by
  simp [State.cluster, State.modCluster, Region.modCluster]

/-- Another cluster keeps everything. -/
theorem State.modCluster_cluster_ne (s : State) {c k : Nat} (f : Cluster → Cluster) (h : k ≠ c) :
    (s.modCluster c f).cluster k = s.cluster k := by
  unfold State.cluster State.modCluster
  by_cases hr : regionOf k = regionOf c
  · have hl : localOf k ≠ localOf c := by
      unfold regionOf at hr; unfold localOf; omega
    rw [hr, State.modRegion_region_self]
    simp [Region.modCluster, hl]
  · simp [hr]

@[simp] theorem State.modHubOf_hubOf_self (s : State) (h : Hub) (f : HubSt → HubSt) : (s.modHubOf h f).hubOf h = f (s.hubOf h) := by
  cases h <;> rfl

@[simp] theorem State.modHubOf_hubOf_other (s : State) (h : Hub) (f : HubSt → HubSt) :
    (s.modHubOf h f).hubOf h.other = s.hubOf h.other := by cases h <;> rfl

/-! ### The journal -/

/-- An entry changes only the journal: its number, its entries, and the blocks that carry them. -/
theorem Pair.entry_eq (h : Hub) (x : Shared) (p : Pair) : Pair.entry h x p = p.journalFrom (Pair.entry h x p) := by
  unfold Pair.entry Pair.pump Pair.journalFrom
  split
  · rfl
  · cases h <;> rfl

/-- A journalled change is the change itself, but for the journal. -/
theorem journaled_eq (f : State → State) (s : State) :
    journaled f s = { f s with pair := (f s).pair.journalFrom (journaled f s).pair } := by
  unfold journaled; simp only; split
  · exact congrArg (fun p => { f s with pair := p }) (Pair.entry_eq _ _ _)
  · rfl

@[simp] theorem journaled_pending (f : State → State) (s : State) : (journaled f s).pending = (f s).pending := by
  unfold journaled; simp only; split <;> rfl
@[simp] theorem journaled_period (f : State → State) (s : State) : (journaled f s).period = (f s).period := by
  unfold journaled; simp only; split <;> rfl
@[simp] theorem journaled_tick (f : State → State) (s : State) : (journaled f s).tick = (f s).tick := by
  unfold journaled; simp only; split <;> rfl
@[simp] theorem journaled_regions (f : State → State) (s : State) : (journaled f s).regions = (f s).regions := by
  unfold journaled; simp only; split <;> rfl
@[simp] theorem journaled_govs (f : State → State) (s : State) : (journaled f s).govs = (f s).govs := by
  unfold journaled; simp only; split <;> rfl
@[simp] theorem journaled_hub (f : State → State) (s : State) : (journaled f s).hub = (f s).hub := by
  unfold journaled; simp only; split <;> rfl
@[simp] theorem journaled_homes (f : State → State) (s : State) : (journaled f s).homes = (f s).homes := by
  unfold journaled; simp only; split <;> rfl
@[simp] theorem journaled_setup (f : State → State) (s : State) : (journaled f s).setup = (f s).setup := by
  unfold journaled; simp only; split <;> rfl
@[simp] theorem journaled_trims (f : State → State) (s : State) : (journaled f s).trims = (f s).trims := by
  unfold journaled; simp only; split <;> rfl
@[simp] theorem journaled_report (f : State → State) (s : State) : (journaled f s).report = (f s).report := by
  unfold journaled; simp only; split <;> rfl
@[simp] theorem journaled_hubA (f : State → State) (s : State) : (journaled f s).hubA = (f s).hubA := by
  unfold journaled; simp only; split <;> rfl
@[simp] theorem journaled_hubB (f : State → State) (s : State) : (journaled f s).hubB = (f s).hubB := by
  unfold journaled; simp only; split <;> rfl
@[simp] theorem journaled_clk (f : State → State) (s : State) : (journaled f s).clk = (f s).clk := by
  unfold journaled; simp only; split <;> rfl
@[simp] theorem journaled_pow (f : State → State) (s : State) : (journaled f s).pow = (f s).pow := by
  unfold journaled; simp only; split <;> rfl
@[simp] theorem journaled_events (f : State → State) (s : State) : (journaled f s).events = (f s).events := by
  unfold journaled; simp only; split <;> rfl
@[simp] theorem journaled_latches (f : State → State) (s : State) : (journaled f s).latches = (f s).latches := by
  unfold journaled; simp only; split <;> rfl
@[simp] theorem journaled_await (f : State → State) (s : State) : (journaled f s).await = (f s).await := by
  unfold journaled; simp only; split <;> rfl
@[simp] theorem journaled_seqs (f : State → State) (s : State) : (journaled f s).seqs = (f s).seqs := by
  unfold journaled; simp only; split <;> rfl
@[simp] theorem journaled_hubLast (f : State → State) (s : State) : (journaled f s).hubLast = (f s).hubLast := by
  unfold journaled; simp only; split <;> rfl
@[simp] theorem journaled_reads (f : State → State) (s : State) : (journaled f s).reads = (f s).reads := by
  unfold journaled; simp only; split <;> rfl
@[simp] theorem journaled_fresh (f : State → State) (s : State) : (journaled f s).fresh = (f s).fresh := by
  unfold journaled; simp only; split <;> rfl
@[simp] theorem journaled_out (f : State → State) (s : State) : (journaled f s).out = (f s).out := by
  unfold journaled; simp only; split <;> rfl

@[simp] theorem journaled_region (f : State → State) (s : State) (r : Nat) : (journaled f s).region r = (f s).region r := by
  unfold State.region; simp
@[simp] theorem journaled_gov (f : State → State) (s : State) (r : Nat) : (journaled f s).gov r = (f s).gov r := by
  unfold State.gov; simp
@[simp] theorem journaled_cluster (f : State → State) (s : State) (c : Nat) : (journaled f s).cluster c = (f s).cluster c := by
  unfold State.cluster; simp

/-- With the pair not PAIRED nothing is journalled. -/
theorem journaled_unpaired (f : State → State) (s : State) (h : (f s).pair.paired = false) : journaled f s = f s := by
  unfold journaled; simp [h]

@[simp] theorem bothHubs_pending (f : State → State) (s : State) : (bothHubs f s).pending = (f s).pending := rfl
@[simp] theorem bothHubs_period (f : State → State) (s : State) : (bothHubs f s).period = (f s).period := rfl
@[simp] theorem bothHubs_tick (f : State → State) (s : State) : (bothHubs f s).tick = (f s).tick := rfl
@[simp] theorem bothHubs_regions (f : State → State) (s : State) : (bothHubs f s).regions = (f s).regions := rfl
@[simp] theorem bothHubs_govs (f : State → State) (s : State) : (bothHubs f s).govs = (f s).govs := rfl
@[simp] theorem bothHubs_homes (f : State → State) (s : State) : (bothHubs f s).homes = (f s).homes := rfl
@[simp] theorem bothHubs_setup (f : State → State) (s : State) : (bothHubs f s).setup = (f s).setup := rfl
@[simp] theorem bothHubs_trims (f : State → State) (s : State) : (bothHubs f s).trims = (f s).trims := rfl
@[simp] theorem bothHubs_report (f : State → State) (s : State) : (bothHubs f s).report = (f s).report := rfl
@[simp] theorem bothHubs_hubA (f : State → State) (s : State) : (bothHubs f s).hubA = (f s).hubA := rfl
@[simp] theorem bothHubs_hubB (f : State → State) (s : State) : (bothHubs f s).hubB = (f s).hubB := rfl
@[simp] theorem bothHubs_clk (f : State → State) (s : State) : (bothHubs f s).clk = (f s).clk := rfl
@[simp] theorem bothHubs_pow (f : State → State) (s : State) : (bothHubs f s).pow = (f s).pow := rfl
@[simp] theorem bothHubs_events (f : State → State) (s : State) : (bothHubs f s).events = (f s).events := rfl
@[simp] theorem bothHubs_latches (f : State → State) (s : State) : (bothHubs f s).latches = (f s).latches := rfl
@[simp] theorem bothHubs_await (f : State → State) (s : State) : (bothHubs f s).await = (f s).await := rfl
@[simp] theorem bothHubs_seqs (f : State → State) (s : State) : (bothHubs f s).seqs = (f s).seqs := rfl
@[simp] theorem bothHubs_hubLast (f : State → State) (s : State) : (bothHubs f s).hubLast = (f s).hubLast := rfl
@[simp] theorem bothHubs_reads (f : State → State) (s : State) : (bothHubs f s).reads = (f s).reads := rfl
@[simp] theorem bothHubs_fresh (f : State → State) (s : State) : (bothHubs f s).fresh = (f s).fresh := rfl
@[simp] theorem bothHubs_out (f : State → State) (s : State) : (bothHubs f s).out = (f s).out := rfl
@[simp] theorem bothHubs_hub (f : State → State) (s : State) : (bothHubs f s).hub = (f s).hub := rfl

end Sys2Proof.Machine
end

