-- ==== Sys2Proof/Laws/Commands.lean ====
section
/-!
SUPPORT. What the shared operations of the commands can do: a taken entry's execution, a message's acceptance, a hub change
with its journal entry, an acknowledgement of the host mailbox. One lemma says every case; one says the case in which the
command has its effect.
-/

namespace Sys2Proof.Machine

/-! ### Congruence -/

theorem journaled_congr {f g : State → State} {s : State} (h : f s = g s) : journaled f s = journaled g s := by
  unfold journaled; rw [h]

theorem next_congr {a b : State} (h : a = b) : (Host.Outcome.next a : Host.Outcome State Fault Refusal) = .next b := by rw [h]

theorem next_journaled_congr {f g : State → State} {s : State} (h : f s = g s) :
    (Host.Outcome.next (journaled f s) : Host.Outcome State Fault Refusal) = .next (journaled g s) := by
  rw [journaled_congr h]

theorem modRegion_congr {s : State} {r : Nat} {f g : Region → Region} (h : f (s.region r) = g (s.region r)) :
    s.modRegion r f = s.modRegion r g := by
  unfold State.modRegion SMap.modify; unfold State.region at h; rw [h]

theorem modGov_congr {s : State} {r : Nat} {f g : Gov → Gov} (h : f (s.gov r) = g (s.gov r)) : s.modGov r f = s.modGov r g := by
  unfold State.modGov SMap.modify; unfold State.gov at h; rw [h]

theorem modCluster_congr {s : State} {c : Nat} {f g : Cluster → Cluster} (h : f (s.cluster c) = g (s.cluster c)) :
    s.modCluster c f = s.modCluster c g := by
  unfold State.modCluster; apply modRegion_congr; unfold Region.modCluster SMap.modify; unfold State.cluster at h; rw [h]

/-! ### The journal -/

/-- A journaled change makes the change and at most one journal entry (R389). -/
theorem journaled_cases (f : State → State) (s : State) :
    journaled f s = f s ∨
      (f s).pair.paired = true ∧
        journaled f s = (f s).modPair (Pair.entry ((f s).owner.getD .a) (f s).hub.mirrored) := by
  unfold journaled
  dsimp only
  split
  · rename_i h; exact .inr ⟨h.1, rfl⟩
  · exact .inl rfl

/-- A change that leaves the image alone and holds nothing back makes no entry. -/
theorem journaled_of_same {f : State → State} {s : State} (h1 : (f s).hub = s.hub)
    (h2 : (f s).pair.heldEff.length ≤ s.pair.heldEff.length) : journaled f s = f s := by
  unfold journaled
  rw [if_neg]
  rintro ⟨-, h | h⟩
  · exact h (by rw [h1])
  · exact absurd h2 (by omega)

@[simp] theorem journaled_heldEff (f : State → State) (s : State) : (journaled f s).pair.heldEff = (f s).pair.heldEff := by
  rcases journaled_cases f s with h | ⟨-, h⟩
  · rw [h]
  · rw [h]; exact (congrArg Pair.heldEff (Pair.entry_eq _ _ (f s).pair)).trans rfl

/-- A change of the image alone, with the standby's copy, is HubOnly. -/
theorem hubOnly_intro {s t : State} {h : Shared} {im : Shared} {jo : List (Nat × Shared)}
    (e : t = { s with hub := h, pair := { s.pair with image := im, journal := jo } }) (f : State → State) (hf : f s = t) :
    HubOnly s (journaled f s) h := by
  have hj := journaled_eq f s
  unfold HubOnly
  rw [hj, hf, e]; rfl

/-- A host's register write that changes only the image. -/
theorem host_hubOnly {s : State} {f : State → State} {h : Shared} (e : f s = { s with hub := h }) :
    HubOnly s (journaled (bothHubs f) s) h := by
  refine hubOnly_intro (t := bothHubs f s) (im := (bothHubs f s).pair.image) (jo := (bothHubs f s).pair.journal) ?_ _ rfl
  unfold bothHubs; simp only [e]; rfl

/-! ### Taken entries -/

/-- An entry that the hub in control executes (R297, R299, R368). -/
theorem runTaken_eq {s : State} {op : Nat} {p : Taken → Bool} {t : Taken} (f : Taken → State → State)
    (h : Executes s op p t) : runTaken op p f s = f t s := by
  obtain ⟨hc, ht, hk⟩ := h
  unfold runTaken
  simp only [hc, Bool.true_eq_false, if_false, ht]
  unfold State.coreAbsent
  cases he : executor op with
  | none => simp
  | some k => rcases hk k he with h | h | ⟨rfl, h | h⟩ <;> simp [h]

/-- Everything an attempt to execute an entry can do: nothing, its effect, or the completion of R368. -/
theorem runTaken_cases (op : Nat) (p : Taken → Bool) (f : Taken → State → State) (s : State) :
    runTaken op p f s = s ∨ (∃ t, s.firstTaken op p = some t ∧
      (runTaken op p f s = f t s ∨ runTaken op p f s = s.complete t.cmd codeBadArg 0xB4)) := by
  unfold runTaken
  split
  · exact .inl rfl
  · split
    · exact .inl rfl
    · rename_i t ht
      split
      · exact .inr ⟨t, ht, .inr rfl⟩
      · split
        · exact .inr ⟨t, ht, .inl rfl⟩
        · dsimp only
          split
          · exact .inr ⟨t, ht, .inl rfl⟩
          · exact .inl rfl

/-! ### Messages -/

/-- A hub's message that a governor acts on (R19, R328, R329). -/
theorem govAccept_eq {s : State} {r kind : Nat} {hdr : MsgHdr} (act again : State → State) (h : Accepted s r kind hdr) :
    govAccept r kind hdr act again s = act (s.noted r kind hdr) := by
  obtain ⟨h1, h2, h3⟩ := h
  unfold govAccept; simp only [h1, Bool.true_eq_false, if_false, h2, ne_eq, not_true_eq_false, h3]; rfl

/-- Everything a hub's message can do at a governor. -/
theorem govAccept_cases (r kind : Nat) (hdr : MsgHdr) (act again : State → State) (s : State) :
    govAccept r kind hdr act again s = s.badMsg r ∨
      govAccept r kind hdr act again s = s.staleMsg r ∨
      govAccept r kind hdr act again s = again s ∨
      Accepted s r kind hdr ∧ govAccept r kind hdr act again s = act (s.noted r kind hdr) := by
  by_cases h1 : hdr.good = true
  · by_cases h2 : hdr.epoch = (s.gov r).epoch
    · by_cases h3 : (hdr.src, kind, hdr.seq) ∈ (s.gov r).lastMsgs
      · right; right; left
        unfold govAccept; simp only [h1, Bool.true_eq_false, if_false, h2, ne_eq, not_true_eq_false, h3, if_true]
      · exact .inr (.inr (.inr ⟨⟨h1, h2, h3⟩, govAccept_eq act again ⟨h1, h2, h3⟩⟩))
    · right; left
      unfold govAccept; simp only [h1, Bool.true_eq_false, if_false, ne_eq, h2, not_false_eq_true, if_true]
  · left
    unfold govAccept; simp only [Bool.not_eq_true] at h1; simp only [h1, if_true]

/-- A message of another governor or a Chive that a governor acts on. -/
theorem peerAccept_eq {s : State} {r kind : Nat} {hdr : MsgHdr} (act again : State → State) (h : PeerAccepted s r kind hdr) :
    peerAccept r kind hdr act again s = act (s.noted r kind hdr) := by
  obtain ⟨h1, h3⟩ := h
  unfold peerAccept; simp only [h1, Bool.true_eq_false, if_false, h3]; rfl

theorem peerAccept_cases (r kind : Nat) (hdr : MsgHdr) (act again : State → State) (s : State) :
    peerAccept r kind hdr act again s = s.badMsg r ∨ peerAccept r kind hdr act again s = again s ∨
      PeerAccepted s r kind hdr ∧ peerAccept r kind hdr act again s = act (s.noted r kind hdr) := by
  by_cases h1 : hdr.good = true
  · by_cases h3 : (hdr.src, kind, hdr.seq) ∈ (s.gov r).lastMsgs
    · right; left
      unfold peerAccept; simp only [h1, Bool.true_eq_false, if_false, h3, if_true]
    · exact .inr (.inr ⟨⟨h1, h3⟩, peerAccept_eq act again ⟨h1, h3⟩⟩)
  · left
    unfold peerAccept; simp only [Bool.not_eq_true] at h1; simp only [h1, if_true]

/-- A message that the owning hub acts on (R329, R397). -/
theorem hubAccept_eq {s : State} {kind : Nat} {hdr : MsgHdr} (act : State → State) (h : Heard s kind hdr) :
    hubAccept kind hdr act s = act (s.heard kind hdr) := by
  obtain ⟨h0, h1, h2, h3, h4⟩ := h
  unfold hubAccept
  cases ho : s.owner with
  | none => simp [ho] at h0
  | some k =>
    have h5 : ¬(s.staleOwner = some k.other ∧ hdr.dst = nodeHub k.other) := fun e => h4 (by rw [e.1, e.2]; rfl)
    simp only [h1, Bool.true_eq_false, if_false, h5, h2, h3]; rfl

theorem hubAccept_cases (kind : Nat) (hdr : MsgHdr) (act : State → State) (s : State) :
    hubAccept kind hdr act s = s ∨ hubAccept kind hdr act s = s.raise 195 0 ∨
      (∃ h, s.owner = some h ∧ epochHigher hdr.epoch s.epoch = true ∧ hubAccept kind hdr act s = s.fence h) ∨
      (∃ h, s.staleOwner = some h ∧ epochHigher hdr.epoch (s.hubOf h).epoch = true ∧ hubAccept kind hdr act s = s.fence h) ∨
      Heard s kind hdr ∧ hubAccept kind hdr act s = act (s.heard kind hdr) := by
  cases ho : s.owner with
  | none => left; unfold hubAccept; simp only [ho]
  | some h =>
    by_cases h1 : hdr.good = true
    · by_cases h4 : s.staleOwner = some h.other ∧ hdr.dst = nodeHub h.other
      · by_cases h5 : epochHigher hdr.epoch (s.hubOf h.other).epoch = true
        · exact .inr (.inr (.inr (.inl ⟨h.other, h4.1, h5, by
            unfold hubAccept
            simp only [ho, h1, Bool.true_eq_false, if_false, h4.1, h4.2, and_self, if_true, h5]⟩)))
        · left
          unfold hubAccept
          simp only [ho, h1, Bool.true_eq_false, if_false, h4.1, h4.2, and_self, if_true, h5, Bool.false_eq_true]
      · by_cases h2 : epochHigher hdr.epoch s.epoch = true
        · exact .inr (.inr (.inl ⟨h, rfl, h2, by
            unfold hubAccept; simp only [ho, h1, Bool.true_eq_false, if_false, h4, h2, if_true]⟩))
        · simp only [Bool.not_eq_true] at h2
          by_cases h3 : (hdr.src, kind, hdr.seq) ∈ s.hubLast
          · left
            unfold hubAccept; simp only [ho, h1, Bool.true_eq_false, if_false, h4, h2, Bool.false_eq_true, h3, if_true]
          · have h6 : s.staleOwner.map nodeHub ≠ some hdr.dst := by
              intro e
              cases hs : s.staleOwner with
              | none => rw [hs] at e; simp at e
              | some k =>
                rw [hs] at e; simp only [Option.map_some, Option.some.injEq] at e
                have hk : k = h.other := by
                  unfold State.staleOwner at hs
                  split at hs
                  · rw [ho] at hs; simpa using hs.symm
                  · cases hs
                exact h4 ⟨by rw [hs, hk], by rw [← e, hk]⟩
            have hh : Heard s kind hdr := ⟨by rw [ho]; rfl, h1, h2, h3, h6⟩
            exact .inr (.inr (.inr (.inr ⟨hh, hubAccept_eq act hh⟩)))
    · right; left
      simp only [Bool.not_eq_true] at h1
      unfold hubAccept; simp only [ho, h1, if_true]

@[simp] theorem noted_region (s : State) (r k : Nat) (hdr : MsgHdr) (j : Nat) : (s.noted r k hdr).region j = s.region j := rfl
@[simp] theorem noted_regions (s : State) (r k : Nat) (hdr : MsgHdr) : (s.noted r k hdr).regions = s.regions := rfl
@[simp] theorem noted_out (s : State) (r k : Nat) (hdr : MsgHdr) : (s.noted r k hdr).out = s.out := rfl
@[simp] theorem noted_hub (s : State) (r k : Nat) (hdr : MsgHdr) : (s.noted r k hdr).hub = s.hub := rfl
@[simp] theorem heard_hub (s : State) (k : Nat) (hdr : MsgHdr) : (s.heard k hdr).hub = s.hub := rfl
@[simp] theorem heard_regions (s : State) (k : Nat) (hdr : MsgHdr) : (s.heard k hdr).regions = s.regions := rfl
@[simp] theorem heard_pair (s : State) (k : Nat) (hdr : MsgHdr) : (s.heard k hdr).pair = s.pair := rfl
@[simp] theorem heard_out (s : State) (k : Nat) (hdr : MsgHdr) : (s.heard k hdr).out = s.out := rfl

/-! ### Mailboxes -/

/-- A host mailbox message that its core answers (R331, R337). -/
theorem hostMessage_eq {s : State} {k code : Nat} (f : State → State) (h : Serves s k code) : hostMessage code k f s = f s := by
  obtain ⟨h1, h2, h3, h4⟩ := h
  unfold hostMessage
  rw [if_pos]
  exact ⟨h1, h2, h3, h4⟩

theorem hostMessage_cases (code k : Nat) (f : State → State) (s : State) :
    hostMessage code k f s = s ∨ Serves s k code ∧ hostMessage code k f s = f s := by
  unfold hostMessage
  dsimp only
  split
  · rename_i h; exact .inr ⟨⟨h.1, h.2.1, h.2.2.1, h.2.2.2⟩, rfl⟩
  · exact .inl rfl

/-- A Chive's mailbox message that its core answers (R341). -/
theorem chiveMessage_eq {s : State} {c k code : Nat} (f : State → State) (h : ChiveServes s c k code) :
    chiveMessage code c k f s = f s := by
  obtain ⟨h1, h2, h3⟩ := h
  unfold chiveMessage
  dsimp only
  rw [if_neg (by simp [h2, h3]), if_pos h1]

/-- Everything a Chive's acknowledgement can do: nothing; its effect; a late one after a forced cancel is counted (R335). -/
theorem chiveMessage_cases (code c k : Nat) (f : State → State) (s : State) :
    chiveMessage code c k f s = s ∨ (ChiveServes s c k code ∧ chiveMessage code c k f s = f s) ∨
      (((s.cluster c).slot k).state = .done ∧ ((s.cluster c).slot k).cancel = true ∧ chiveMessage code c k f s =
        (s.modCluster c (fun u => u.modSlot k (fun x => { x with cancel := false }))).modGov (regionOf c)
          (fun g => { g with lateAck := satAdd 0xFF g.lateAck 1 })) := by
  unfold chiveMessage
  dsimp only
  split
  · exact .inl rfl
  · rename_i h
    split
    · rename_i h1
      simp only [not_or, ne_eq, Decidable.not_not] at h
      exact .inr (.inl ⟨⟨h1, h.1, h.2⟩, rfl⟩)
    · split
      · rename_i h2; exact .inr (.inr ⟨h2.1, h2.2, rfl⟩)
      · exact .inl rfl

/-- Effects sent through the hub, as `Sends` says. -/
theorem hubEmit_eq (s : State) (e : Effect) : s.hubEmit e =
    { s with
      pair := { s.pair with heldEff := if s.pair.paired then s.pair.heldEff ++ [(s.pair.jn + 1, e)] else s.pair.heldEff }
      out := if s.pair.paired then s.out else s.out ++ [e] } := by
  unfold State.hubEmit
  cases hp : s.pair.paired
  · simp only [if_true, Bool.false_eq_true, if_false, State.emit]
  · simp only [Bool.true_eq_false, if_false, if_true, State.modPair]

end Sys2Proof.Machine
end

