-- ==== Sys2Proof/WellFormed.lean ====
section
/-!
DEFINITION. The commands that Renoth's surroundings can send: the shapes of what each brings. A statement that needs one
of these shapes names it as a hypothesis; the meanings are total without them.
-/

namespace Sys2Proof

/-- An array of things numbered below `n`: keys strictly rising, no listed value equal to the common one. -/
def cellsOk {α : Type} [DecidableEq α] (n : Nat) (p : α → Bool) (m : SMap α) : Bool :=
  p m.dflt && m.cells.all (fun c => decide (c.1 < n) && decide (c.2 ≠ m.dflt) && p c.2) &&
    decide ((m.cells.map Prod.fst).Pairwise (fun x y => x < y))

/-- The eight command rings' heads: a 64-byte entry where the read succeeded (R296). -/
def headsOk (heads : List (HostRead × HostRead)) : Bool :=
  decide (heads.length = 8) && heads.all (fun h => match h.1 with | some e => decide (e.length = 64) | none => true)

/-- The ageing readings of the wafer's clusters (R78). -/
def agesOk (taps : AgeReads) : Bool := cellsOk 36864 (fun x => decide (x.1 ≤ 64)) taps

/-- The wrong words of a block: each once, with a wrong bit, at most four wrong symbols (R422). -/
def blockErrOk (e : BlockErr) : Bool :=
  decide ((e.words.map WordErr.word).Nodup) && e.words.all (fun w => decide (1 ≤ w.bits ∧ w.bits ≤ 72 ∧ w.symbols ≤ 4)) &&
    decide (e.parity ≤ 16)

/-- What the scrubs of a boundary found (R423). -/
def scrubOk : Scrub → Bool
  | .hubCode _ _ _ e _ => blockErrOk e
  | .hubData _ _ e => blockErrOk e
  | .chive _ e => blockErrOk e
  | .grantTable e => blockErrOk e
  | .recorder _ _ e => blockErrOk e
  | .sage _ e => blockErrOk e
  | .governor _ => true

/-- A defect-map report (R32). -/
def mapOk (m : DefectReport) : Bool :=
  cellsOk 64 (fun _ => true) m.detours && cellsOk 4096 (fun _ => true) m.govDetours &&
    cellsOk 36864 (fun _ => true) m.chiveDetours && cellsOk 36864 (fun _ => true) m.heldCores

/-- What the encoders latch: each cluster once, at most 32 cores (R99). -/
def tapsOk (taps : List (ClusterId × FeatureTap)) : Bool :=
  decide ((taps.map Prod.fst).Nodup) && taps.all (fun p => match p.2 with
    | .queues cores vec => decide (cores.length ≤ 32) && decide (vec ≤ 32)
    | .lane _ => true)

/-- The package sensors: two inlet and two outlet sensors, 16 stacks, 32 engines (R85, R86). -/
def packageOk (x : PackageReads) : Bool :=
  decide (x.inlet.length = 2) && decide (x.outlet.length = 2) && decide (x.stack.length = 16) &&
    decide (x.laser.length = 32) && decide (x.driver.length = 32) && decide (x.ackStack.length = 16) &&
    decide (x.ackOptic.length = 32) && decide (x.heater.length = 32) && agesOk x.ages

/-- A reservation: an entry of the table, one to eight phases of OP_0 to OP_15 (R234, R242). -/
def reserveOk (m : ReserveMsg) : Bool :=
  decide (m.index < 65536) && decide (1 ≤ m.phases.length) && decide (m.phases.length ≤ 8) &&
    m.phases.all (fun p => decide (p < 16))

/-- A commit or release word: up to eight indices (R245). -/
def treeOk (w : TreeWord) : Bool := decide (w.indices.length ≤ 8) && w.indices.all (fun i => decide (i < 65536))

/-- A summary names clusters of its region (R343). -/
def summaryOk (x : Summary) : Bool :=
  decide (x.ok + x.other + x.cancelled + x.waiting ≤ 576) &&
    (match x.lowestOther with | some c => decide (c < 576) | none => true) &&
    (match x.lowestWait with | some c => decide (c < 576) | none => true)

/-- The command is one that Renoth's surroundings can send. -/
def Instr.wf : Instr → Bool
  | .commandTake heads => headsOk heads
  | .countZeroEntry heads => headsOk heads
  | .ageingTrimNewWafer taps => cellsOk 36864 (fun n => decide (n ≤ 64)) taps
  | .multicastPost r _ _ p msg => decide (msg.length = 16) && decide ((r :: p.others.map Prod.fst).Nodup)
  | .multicastSummary _ _ x _ => summaryOk x
  | .heartbeat _ _ beat => decide (beat.role ≤ 3)
  | .reserve _ _ m => reserveOk m
  | .reserveReply _ _ index _ _ => decide (index < 65536)
  | .replyLimitExpiry index => decide (index < 65536)
  | .commitWord _ w => treeOk w
  | .releaseWord _ w => treeOk w
  | .inForce _ _ index => decide (index < 65536)
  | .revocation _ _ index => decide (index < 65536)
  | .tickBoundary taps => cellsOk 36864 (fun _ => true) taps
  | .forecastBoundary taps => tapsOk taps
  | .diodeConversion _ _ temps => decide (temps.length = 8)
  | .voltageMonitorReading _ reads _ => decide (reads.length = 16)
  | .waferPeriod reads => packageOk reads
  | .packagePeriod arrays => decide (arrays.length = 64)
  | .marginEvaluation taps => agesOk taps
  | .ageingInterval taps => agesOk taps
  | .controlPeriodBoundary inp => inp.scrubs.all scrubOk && inp.found.all scrubOk && agesOk inp.ages
  | .selfTestGateRelease asserted still => cellsOk 64 (fun _ => true) asserted && cellsOk 64 (fun _ => true) still
  | .defectMapChange d g c held => mapOk ⟨d, g, c, held⟩
  | .memRead _ _ x => blockErrOk x.err
  | .memWrite _ op => (op.merge.map (fun x => blockErrOk x.err)).getD true
  | .recRead _ _ x => blockErrOk x.err
  | .mirrorBlock _ n m _ _ _ => decide (n ≤ 256) && decide (m ≤ 16)
  | .stagingRelease _ _ index => decide (index < 65536)
  | .grantStateQuery _ _ index => decide (index < 65536)
  | .grantStateReply _ _ index _ => decide (index < 65536)
  | .removalReport _ _ index => decide (index < 65536)
  | .shadowDelivery r _ _ words => words.all (fun p => decide (0x100000 + 0x1000 * r.val ≤ p.1) && decide (p.1 < 0x101000 + 0x1000 * r.val))
  | .cmdDoorbell .. | .filledRingDoorbell .. | .grantRequest | .grantRelease | .capSet | .capSetGroupForm
  | .groupDefine | .groupUndefine | .modelLoad | .modelUnload | .ageingTrim | .phaseRestore | .telemetrySubscribe
  | .firmwareStage .. | .firmwareActivate | .queryGrant | .queryGroup | .querySpec | .completionWrite ..
  | .telemetryRecordWrite .. | .evxExport .. | .coalescingTimer .. | .restartPair .. | .restartTel | .restartEvx
  | .registerWrite .. | .hardSet | .hardClear | .hmbDoorbell .. | .hmbCancel .. | .hmbDoneClear ..
  | .hmbMsgWrite .. | .fcPendClear .. | .fcForce .. | .testModeWrite .. | .fbGo .. | .eoh | .gateClose ..
  | .gateOpen .. | .gateQuery .. | .rstCtlKey .. | .handover | .holdWrite .. | .discardGo .. | .wvSelWrite ..
  | .slotTake .. | .ping .. | .evxFlush .. | .coreState .. | .stallNext .. | .chivePing .. | .ageRead ..
  | .dillSweep .. | .pairWindow .. | .counters .. | .interimSummary .. | .spareOut .. | .messageResend ..
  | .claim .. | .claimReply .. | .epochProbe .. | .epochProbeReply .. | .capMessage .. | .capAcknowledgement ..
  | .emergencyCapBroadcast .. | .modelImage .. | .modelCheckReport .. | .modelSwitch .. | .groupSlotRequest ..
  | .groupSlotReply .. | .arm .. | .armAcknowledgement .. | .mRChange .. | .stepReport .. | .laggardSummary ..
  | .stallSuspect .. | .stallClear .. | .pmbusCommand .. | .consistencyHoldLimit ..
  | .raiseHoldElapsed .. | .demotionEnd .. | .gridBlockEnd .. | .trackingBlockEnd .. | .preRaiseWithdrawal ..
  | .forecastPublication .. | .sumSample .. | .sumSampleAvailable .. | .phaseChannelSample ..
  | .raiseTestTimeout .. | .tpMonitorWindow .. | .limiterStep .. | .launchHold .. | .limiterTarget ..
  | .limiterRecovery .. | .limiterFloor .. | .limiterHold .. | .dillTripCrossing .. | .dillWarnCrossing ..
  | .dillRelease .. | .phaseMarker .. | .barrierRelease .. | .engineClockRestart .. | .childAckTimeout ..
  | .childUnacknowledged .. | .tripComparatorAssert .. | .tripComparatorRelease .. | .ecapNAssert ..
  | .ecapNRelease .. | .regAlertAssert .. | .regAlertClear .. | .smbalert .. | .phaseSwap .. | .phaseWatchEnd ..
  | .emergencyCapSettlement | .derateSettlement .. | .deliveryTimerExpiry .. | .durationExpiry ..
  | .watchdogExpiry .. | .protectionViolation .. | .coreReady .. | .readyTimeout .. | .activationResume
  | .activationDeadline | .activationDrainLimit | .faultEvent | .brokenPair .. | .collectorParityScan ..
  | .crstReqEnd .. | .recordAppend | .recordClose | .promotion .. | .standbySilence
  | .mirrorSilence .. | .handoverYield | .resyncComplete | .refLost | .glideDownEnd | .fallbackStart
  | .fallbackStable .. | .fallbackFailure | .clockMonitorTrip .. | .idleCoreLocked | .domainSwitch | .refReturned
  | .glideUpEnd | .powerOnResetRelease .. | .hubLoopLockTimeout .. | .fbDlyElapsed ..
  | .epochClaimTimeout | .coldStart | .railDown .. | .railUp .. | .rstNAssert | .rstNRelease | .testLogicReset .. | .extest ..
  | .samplePreload .. | .idcode .. | .startRead .. | .auth .. | .authVerified .. | .nop .. | .halt .. | .resume ..
  | .step .. | .bpSet .. | .bpClear .. | .breakpointHit .. | .regRead ..
  | .regWrite .. | .winRead .. | .deauth .. | .warmReset .. | .engineClockStop ..
  | .avsbusFrameEnd .. | .stageCopyReport .. | .groupSlotRelease .. | .chiveAcknowledgement .. | .summaryRequest ..
  | .laneRetrainComplete .. | .hubLoopLock .. | .modelSwitchAcknowledgement .. | .chiveDebugReply ..
  | .yieldingHubClaim .. | .causeRegisterLatch .. => true

end Sys2Proof
end

