-- ==== Sys2Proof/Tests/Slice0.lean ====
section
/-!
SUPPORT. Small tests (what WellFormed refuses, the spec's own figures, one step each), and for every statement of
Certificates/Slice0 that has hypotheses a theorem witness_<name> that shows states and operands which meet the hypotheses
of each of its clauses. Where a hypothesis rests on a fuse (a signature's key), the witness has the fuse as its premise.
-/

namespace Sys2Proof.Tests
open Sys2Proof Sys2Proof.Machine

set_option maxRecDepth 100000
set_option Elab.async false

/-- An owning hub with its three cores running. -/
def owning : HubSt :=
  { role := .owner, epoch := 1, core0 := { state := .running }, core1 := { state := .running }, core2 := { state := .running }
    start := { step := 12, done := true }, engRunLow := false }

/-- Hub A in control, register access open, the start done, the clocks locked. -/
def ready : State :=
  { hubA := owning, pow := { regOpen := true, gateSet := true, gateSpent := true, startDone := true, arraysOn := true }
    clk := { st := .locked } }

/-- `ready` with a standby that holds a valid image. -/
def paired : State :=
  { ready with hubB := { owning with role := .valid }, pair := { paired := true } }

/-- Rings 0, 8, 9, 16 and 17 enabled, four entries each. -/
def ringed (s : State) : State :=
  { s with setup := { s.setup with words := [(0x10008, 2), (0x10108, 2), (0x10128, 2), (0x10208, 2), (0x10228, 2)] } }

/-- The filled rings' slots are free. -/
def freed (s : State) : State :=
  [8, 9, 16, 17].foldl (fun a k => a.modRing k (fun g => { g with pi := 4 })) (ringed s)

/-- The entry that `taking` puts in hand. -/
def hand (op : Nat) (count : Nat) (rest body : List Byte) : Taken :=
  { ring := 0, index := 0, opcode := op, flags := 0, count := count, tag := 7
    entry := leBytes 1 op ++ leBytes 1 0 ++ leBytes 2 count ++ leBytes 4 7 ++ rest, body := body, order := 0 }

/-- One taken entry of opcode `op`, with bytes 8 on of the entry and its body. -/
def taking (op : Nat) (count : Nat) (rest body : List Byte) (s : State) : State :=
  s.modRings (fun g => { g with taken := [hand op count rest body] })
theorem executes_of {s : State} {op : Nat} {p : Taken → Bool} {t : Taken} {n : Nat} (h1 : s.inControl = true)
    (h2 : s.firstTaken op p = some t) (h3 : executor op = some n)
    (h4 : (s.ownerCore n).state = .running) : Executes s op p t := by
  refine ⟨h1, h2, fun k hk => ?_⟩
  rw [h3] at hk; cases hk; exact .inl h4

theorem executes_by_hardware {s : State} {op : Nat} {p : Taken → Bool} {t : Taken} (h1 : s.inControl = true)
    (h2 : s.firstTaken op p = some t) (h3 : executor op = none) : Executes s op p t := by
  refine ⟨h1, h2, fun k hk => ?_⟩
  rw [h3] at hk; cases hk

/-- Regions with a cap of 500 A acknowledged, operating point 1 valid, 25 kA available. -/
def powered (s : State) : State :=
  { s with regions := ⟨{ caps := { iReg := 2000, lastAck := 2000 } }, []⟩
           setup := { s.setup with words := [(0x7044, 0x000000A0)] }
           hub := { s.hub with budget := { s.hub.budget with iAvail := 100000 } } }

/-- A message of hub A with its check (R326): sequence number 1, epoch `e`, one flit of payload. -/
def sealed (dst : Nat) (e : Word) : MsgHdr :=
  let h : MsgHdr := { type := 0x40, flags := 1, src := 0xB000, dst := dst, seq := 1, epoch := e, resv := 0, check := 0
                      payload := zeros 16 }
  { h with check := BitVec.ofNat 16 (crc16 h.bytes) }
def good (e : Word) : MsgHdr := sealed 0xA000 e

theorem witness_StepRunsFrontCommand :
    ({ State.reset with pending := [.eoh, .refLost] } : State).pending = .eoh :: [.refLost] ∧ State.reset.pending = [] := by
  repeat' apply And.intro
  all_goals decide

theorem witness_DoorbellsMoveOrStopRings :
    (RingOpen (ringed ready) 0 ∧ DoorbellOk (ringed ready) 0 4) ∧ (RingOpen (ringed ready) 16 ∧ DoorbellOk (ringed ready) 16 4) ∧
    (ringed ready).hub.rings.lossDue = 0 ∧ (RingOpen (ringed ready) 0 ∧ ¬ DoorbellOk (ringed ready) 0 5) ∧
    (RingOpen (ringed ready) 9 ∧ ¬ DoorbellOk (ringed ready) 9 (-1)) := by
  unfold RingOpen DoorbellOk; decide

/-- Ring 0 with one entry before its producer index. -/
def posted : State := (freed ready).modRing 0 (fun g => { g with pi := 1 })

/-- An entry of 64 bytes. -/
def entry (op count : Nat) (rest : List Byte) : List Byte :=
  padTo 64 (leBytes 1 op ++ leBytes 1 0 ++ leBytes 2 count ++ leBytes 4 7 ++ rest)

theorem witness_EntryIsTakenInOrder :
    posted.inControl = true ∧ posted.pow.regOpen = true ∧
    posted.nextRing [(some (entry opQuery 0 []), none)] = some (0, some (entry opQuery 0 []), none) ∧
    entryCount (entry opQuery 0 []) = 0 ∧
    posted.nextRing [(some (entry 11 1 []), none)] = some (0, some (entry 11 1 []), none) ∧
    entryCheck (entry 11 1 []) none = some 0xF0 ∧
    posted.nextRing [(some (entry opQuery 1 [1]), none)] = some (0, some (entry opQuery 1 [1]), none) ∧
    entryCheck (entry opQuery 1 [1]) none = none ∧ posted.coreAbsent opQuery = false ∧
    (∀ k ∈ [0, 4], posted.nextRing [(some (entry opQuery 1 [BitVec.ofNat 8 k]), none)] = some (0, some (entry opQuery 1 [BitVec.ofNat 8 k]), none) ∧
      entryCheck (entry opQuery 1 [BitVec.ofNat 8 k]) none = none) ∧
    (∀ k ∈ [0, 3], posted.nextRing [(some (entry opPolicySet 1 [BitVec.ofNat 8 k]), none)] =
        some (0, some (entry opPolicySet 1 [BitVec.ofNat 8 k]), none) ∧
      entryCheck (entry opPolicySet 1 [BitVec.ofNat 8 k]) none = none) ∧ posted.coreAbsent opPolicySet = false := by
  repeat' apply And.intro
  all_goals decide

/-- The scheduler core is stopped. -/
def noScheduler : State := posted.modCore .a 2 (fun c => { c with state := .stopped })
theorem witness_EntryIsTakenInOrder_absent :
    noScheduler.inControl = true ∧
    noScheduler.nextRing [(some (entry opGrantRelease 1 [1, 0, 0, 0]), none)] =
      some (0, some (entry opGrantRelease 1 [1, 0, 0, 0]), none) ∧
    entryCheck (entry opGrantRelease 1 [1, 0, 0, 0]) none = none ∧ noScheduler.coreAbsent opGrantRelease = true := by
  repeat' apply And.intro
  all_goals decide

def comp0 : Completion := ⟨0, 0, opQuery, 7, codeOk, 0, [], false, 0⟩
def tel0 : TelRec := ⟨2, 0, 5, [], true, 0⟩
def rec0 : Rec := ⟨0, 1, 0x10, 3, 0, 0, 0, 0, 0⟩

/-- A completion, a telemetry record and three records of the recorder wait for their rings. -/
def waiting : State :=
  ((freed ready).modRings (fun g => { g with comps := [comp0], tel := [tel0] })).modRecorder (fun q => { q with
    head := 4, recs := [rec0, { rec0 with seq := 1 }, { rec0 with seq := 2 }, { rec0 with seq := 3 }] })
theorem witness_EntryIsWritten :
    waiting.inControl = true ∧ waiting.hub.rings.comps = [comp0] ∧ waiting.writable 8 = true ∧ waiting.mayLeave 0 = true ∧
    waiting.hub.rings.tel = [tel0] ∧ waiting.writable 16 = true ∧ waiting.telBlocked tel0 = false ∧
    waiting.hub.rings.lossDue = 0 ∧ (waiting.modRings (fun g => { g with lossDue := 3 })).hub.rings.lossDue = 3 ∧
    waiting.hub.recorder.pending.length = 4 ∧ waiting.writable 17 = true ∧
    (∀ y ∈ nextEntry waiting.hub.recorder.pending, waiting.mayLeave y.jn = true) ∧
    ((waiting.modRing 8 (fun g => { g with coalOn := true })).ring 8).coalOn = true := by
  repeat' apply And.intro
  all_goals decide

theorem witness_FailedAccessesAndRestarts :
    waiting.inControl = true ∧ waiting.hub.rings.comps = [comp0] ∧ waiting.writable 8 = true ∧ waiting.mayLeave 0 = true ∧
    waiting.pow.regOpen = true ∧ posted.nextRing [(none, none)] = some (0, none, none) := by
  repeat' apply And.intro
  all_goals decide

/-- Two subscription items: forecasts of region 0 every 16 periods, region records of all every 2^15. -/
def subBody : List Byte :=
  leBytes 1 1 ++ leBytes 1 4 ++ leBytes 6 0 ++ leBytes 8 1 ++ leBytes 1 2 ++ leBytes 1 15 ++ leBytes 6 0 ++ leBytes 8 (2 ^ 64 - 1)
def items (n : Nat) (b : List Byte) : List SubItem := (List.range n).map (subItem b)

theorem witness_SubscriptionReplacesSet :
    Executes (taking opSubscribe 2 [] subBody ready) opSubscribe (fun _ => true) (hand opSubscribe 2 [] subBody) ∧
    (∀ i ∈ items 2 subBody, 1 ≤ i.type ∧ i.type ≤ 2 ∧ 4 ≤ i.decim ∧ i.decim ≤ 15 ∧ i.mask ≠ 0) ∧
    ((items 2 subBody).map SubItem.type).Nodup ∧
    Executes (taking opSubscribe 1 [] (leBytes 16 0) ready) opSubscribe (fun _ => true) (hand opSubscribe 1 [] (leBytes 16 0)) ∧
    items 1 (leBytes 16 0) = [⟨0, 0, 0⟩] ∧
    Executes (taking opSubscribe 1 [] [3] ready) opSubscribe (fun _ => true) (hand opSubscribe 1 [] [3]) ∧
    (∃ i ∈ items 1 [3], 2 < i.type) := by
  refine ⟨executes_by_hardware (by decide) (by decide) (by decide), by decide, by decide,
    executes_by_hardware (by decide) (by decide) (by decide), by decide,
    executes_by_hardware (by decide) (by decide) (by decide), by decide⟩

/-- One phase at operating point 1 on cluster (0, 0), for 10 thermal periods. -/
def reqBody : List Byte :=
  leBytes 1 1 ++ leBytes 1 0 ++ leBytes 1 1 ++ leBytes 1 0 ++ leBytes 2 0 ++ leBytes 2 0 ++ leBytes 4 10 ++ leBytes 4 9 ++
    leBytes 4 1 ++ leBytes 12 0 ++ leBytes 8 0

theorem witness_GrantRequestReserves :
    (let s := taking opGrantRequest 1 [] reqBody (powered ready)
     let x := bodyOf reqBody
     Executes s opGrantRequest (fun _ => true) (hand opGrantRequest 1 [] reqBody) ∧ s.hub.thyme.inflight < 16 ∧
       s.hub.thyme.drain = false ∧ x.isGroup = false ∧ admitCheck s reqBody x (rectSpans x.rects) = none ∧
       s.freeEntry = some 0 ∧ s.safeNow = false) ∧
    (let s := taking opGrantRequest 1 [] (leBytes 32 0) (powered ready)
     Executes s opGrantRequest (fun _ => true) (hand opGrantRequest 1 [] (leBytes 32 0)) ∧ s.hub.thyme.inflight < 16 ∧
       admitCheck s (leBytes 32 0) (bodyOf (leBytes 32 0)) (rectSpans (bodyOf (leBytes 32 0)).rects) = some (codeBadArg, 2)) ∧
    (let s := (taking opGrantRequest 1 [] reqBody (powered ready)).modThyme (fun h => { h with drain := true })
     Executes s opGrantRequest (fun _ => true) (hand opGrantRequest 1 [] reqBody) ∧ s.hub.thyme.drain = true) ∧
    (let s := (taking opGrantRequest 1 [] reqBody (powered ready)).modThyme (fun h => { h with
       table := ⟨{}, (List.range 16).map (fun i => (i, { state := .reserving }))⟩ })
     Executes s opGrantRequest (fun _ => true) (hand opGrantRequest 1 [] reqBody) ∧ 16 ≤ s.hub.thyme.inflight) ∧
    (let s := (taking opGrantRequest 1 [] reqBody (powered ready)).modGov 9 (fun g => { g with safe := true })
     let x := bodyOf reqBody
     Executes s opGrantRequest (fun _ => true) (hand opGrantRequest 1 [] reqBody) ∧ s.hub.thyme.inflight < 16 ∧
       s.hub.thyme.drain = false ∧ admitCheck s reqBody x (rectSpans x.rects) = none ∧ s.safeNow = true) := by
  refine ⟨⟨executes_of (n := 2) (by decide) (by decide) (by decide) (by decide), ?_, ?_, ?_, ?_, ?_, ?_⟩,
    ⟨executes_of (n := 2) (by decide) (by decide) (by decide) (by decide), ?_, ?_⟩,
    ⟨executes_of (n := 2) (by decide) (by decide) (by decide) (by decide), ?_⟩,
    ⟨executes_of (n := 2) (by decide) (by decide) (by decide) (by decide), ?_⟩,
    executes_of (n := 2) (by decide) (by decide) (by decide) (by decide), ?_, ?_, ?_, ?_⟩ <;> decide +kernel

/-- `s` with grant 0 as `g` says, over region 0. -/
def granted (g : Grant → Grant) (s : State) : State :=
  s.modGrant 0 (fun _ => g { gen := 1, phases := [1], spans := [(0, 3, [0])], cmd := some (0, 0), duration := 10, durLeft := 10 })

theorem witness_GrantRoundAbandoned :
    (let s := granted (fun g => { g with state := .reserving }) ready
     (s.grant 0).state = .reserving ∧ (s.grant 0).ends = none ∧ s.thymeDecides = true ∧ s.inControl = true ∧
       (s.grant 0).cmd = some (0, 0) ∧ Heard s 0x04 (good 1) ∧ 0 ∈ (s.grant 0).regions ∧
       ∃ k ∈ (s.grant 0).regions, ∀ p ∈ (s.grant 0).accepts, p.1 ≠ k) := by
  unfold Heard; decide

theorem witness_GrantDecided :
    (let s := granted (fun g => { g with state := .reserving }) ready
     Heard s 0x04 (good 1) ∧ (s.grant 0).state = .reserving ∧ (s.grant 0).ends = none ∧ s.thymeDecides = true ∧
       (s.grant 0).cmd = some (0, 0) ∧ (s.grant 0).decidedN = none ∧ 0 ∈ (s.grant 0).regions ∧ s.pair.paired = false ∧
       s.pair.acked ≤ s.pair.jn ∧
       (∀ k ∈ (s.grant 0).regions, k ≠ 0 → ∃ p ∈ (s.grant 0).accepts, p.1 = k) ∧ (s.grant 0).limitUs = 0) ∧
    (let s := granted (fun g => { g with state := .reserving }) paired
     Heard s 0x04 (good 1) ∧ s.thymeDecides = true ∧ s.pair.paired = true ∧ s.pair.acked ≤ s.pair.jn) ∧
    (let s := granted (fun g => { g with state := .reserving, limitUs := 1 }) ready
     s.thymeDecides = true ∧ (s.grant 0).limitUs = 1 ∧ 1 < s.promiseUs (s.grant 0)) := by
  unfold Heard; decide +kernel

theorem witness_GrantsAreDelivered :
    (let s := granted (fun g => { g with state := .delivering, timerOn := true }) ready
     Heard s 0x05 (good 1) ∧ (s.grant 0).state = .delivering ∧ 0 ∈ (s.grant 0).regions ∧
       (∀ k ∈ (s.grant 0).regions, k ≠ 0 → k ∈ (s.grant 0).reports) ∧ (s.grant 0).timerOn = true ∧
       (s.grant 0).suspended = []) ∧
    (let s := granted (fun g => { g with state := .decided }) ready
     Heard s 0x08 (good 1) ∧ (s.grant 0).state = .decided ∧ (∀ w ∈ s.hub.thyme.words, w.2.2 = false → 0 ∉ w.2.1)) := by
  unfold Heard; decide

def relEntry : List Byte := leBytes 4 65536
theorem witness_GrantReleased :
    (let s := granted (fun g => { g with state := .inForce }) (taking opGrantRelease 1 relEntry [] ready)
     Executes s opGrantRelease (fun _ => true) (hand opGrantRelease 1 relEntry []) ∧
       leAt (hand opGrantRelease 1 relEntry []).entry 8 4 = 65536 ∧ (s.grant 0).gen = 1 ∧ (s.grant 0).state = .inForce ∧
       (s.grant 0).releasing = none) ∧
    (let s := taking opGrantRelease 1 relEntry [] ready
     Executes s opGrantRelease (fun _ => true) (hand opGrantRelease 1 relEntry []) ∧ (s.grant 0).state = .free) ∧
    (let s := granted (fun g => { g with state := .decided, decidedN := some 0 }) (taking opGrantRelease 1 relEntry [] ready)
     Executes s opGrantRelease (fun _ => true) (hand opGrantRelease 1 relEntry []) ∧ (s.grant 0).gen = 1 ∧
       (s.grant 0).state = .decided ∧ (s.grant 0).decidedN.isSome = true ∧ (s.grant 0).releasing = none ∧
       (s.grant 0).commitP.toNat ≤ s.period.toNat + 2) ∧
    (∀ n, n = none ∨ n = some 0 →
     let s := granted (fun g => { g with state := .decided, decidedN := n, commitP := 3 }) (taking opGrantRelease 1 relEntry [] ready)
     Executes s opGrantRelease (fun _ => true) (hand opGrantRelease 1 relEntry []) ∧ (s.grant 0).gen = 1 ∧
       (s.grant 0).state = .decided ∧ s.period.toNat + 2 < (s.grant 0).commitP.toNat) ∧
    (let s := granted (fun g => { g with state := .inForce, durLeft := 0 }) ready
     s.inControl = true ∧ (s.grant 0).state = .inForce ∧ (s.grant 0).durLeft = 0 ∧ (s.grant 0).releasing = none) ∧
    (let s := granted (fun g => { g with state := .inForce, releasing := some [] }) ready
     Heard s 0x06 (good 1) ∧ (s.grant 0).releasing = some [] ∧ (s.grant 0).state ≠ .free ∧ 0 ∈ (s.grant 0).regions ∧
       ∀ k ∈ (s.grant 0).regions, k ≠ 0 → k ∈ ([] : List Nat)) := by
  refine ⟨⟨executes_of (n := 2) (by decide) (by decide) (by decide) (by decide), ?_⟩,
    ⟨executes_of (n := 2) (by decide) (by decide) (by decide) (by decide), ?_⟩,
    ⟨executes_of (n := 2) (by decide) (by decide) (by decide) (by decide), ?_⟩, ?_, ?_, ?_⟩
  all_goals first | decide | (unfold Heard; decide) | skip
  intro n hn
  rcases hn with rfl | rfl <;> exact ⟨executes_of (n := 2) (by decide) (by decide) (by decide) (by decide), by decide⟩

def rm (total : Nat) : ReserveMsg := { index := 0, q := 3, total := total, clusters := 1, phases := [1], cycle := false }
theorem witness_GovernorStagesGrant :
    (let s := powered ready
     Accepted s 0 0x01 (good 0) ∧ (s.region 0).resTotal + 3 ≤ (s.region 0).caps.iReg ∧
       (s.region 0).resTotal + 3 ≤ (s.region 0).ph.rating ∧ (s.region 0).therm.latch = false ∧
       (s.region 0).caps.ecap = false ∧ (s.region 0).ph.unsettled = false ∧
       (s.region 0).caps.iReg < (s.region 0).resTotal + 2001) ∧
    (let v : Resv := ⟨0, 3, 3, [0], false, none, false, [1], false⟩
     let s := (powered ready).modRegion 0 (fun g => { g with resvs := [v] })
     Accepted s 0 0x02 (good 0) ∧ (s.region 0).resvs.find? (fun v => v.grant == 0) = some v ∧ v.inForce = false ∧
       Accepted s 0 0x03 (good 0) ∧ Accepted s 0 0x07 (good 0)) := by
  unfold Accepted; decide +kernel

def tree (ok : Bool) : TreeWord := { period := 3, indices := [0], epoch := 0, checkOk := ok }
def phased (cycle : Bool) (idx : Nat) : State :=
  ready.modCluster 0 (fun u => { u with phases := some ⟨0, [1, 2], cycle⟩, phaseIdx := idx })
theorem witness_TreeWordsAndMarkersAct :
    ((tree true).checkOk = true ∧ (tree true).epoch = (ready.gov 0).epoch ∧ (tree false).checkOk = false) ∧
    (epochHigher (tree true).epoch 7 = false ∧ ((ready.modGov 0 (fun g => { g with epoch := 7 })).gov 0).epoch = 7) ∧
    (((phased false 0).cluster 0).phases = some ⟨0, [1, 2], false⟩ ∧ ((phased false 0).cluster 0).phaseIdx + 1 < 2) ∧
    (((phased true 1).cluster 0).phases = some ⟨0, [1, 2], true⟩ ∧ 2 ≤ ((phased true 1).cluster 0).phaseIdx + 1) ∧
    (((phased false 1).cluster 0).phases = some ⟨0, [1, 2], false⟩ ∧ 2 ≤ ((phased false 1).cluster 0).phaseIdx + 1) ∧
    (ready.cluster 0).phases = none := by
  decide

theorem witness_SettlementRevokesRest :
    (let s := ready.modRegion 0 (fun g => { g with ph := { g.ph with unsettled := true } })
     s.inControl = true ∧ s.thymeRuns = true ∧ (s.region 0).ph.unsettled = true ∧ s.hub.ecap.active = false) ∧
    (let s := ready.modThyme (fun h => { h with ecapSettle := true })
     s.inControl = true ∧ s.thymeRuns = true ∧ s.hub.thyme.ecapSettle = true) ∧
    ∀ r, (ready.region r).ph.unsettled = false := by
  refine ⟨by decide, by decide, fun r => rfl⟩

theorem le_at_append (n v : Nat) (a c : List Byte) : leAt (a ++ (leBytes n v ++ c)) a.length n = v % 256 ^ n := by
  induction n generalizing v a with
  | zero => simp [leAt, Nat.mod_one]
  | succ n ih =>
    have h := ih (v / 256) (a ++ [BitVec.ofNat 8 v])
    simp only [List.length_append, List.length_singleton, List.append_assoc, List.singleton_append] at h
    simp only [leBytes, leAt, List.cons_append, h]
    have hb : byteAt (a ++ BitVec.ofNat 8 v :: (leBytes n (v / 256) ++ c)) a.length = v % 256 := by
      simp [byteAt]
    rw [hb, Nat.pow_succ, Nat.mul_comm (256 ^ n) 256, Nat.mod_mul]

theorem le_bytes_length (n v : Nat) : (leBytes n v).length = n := by
  induction n generalizing v with
  | zero => rfl
  | succ n ih => simp [leBytes, ih]

def trimHead : List Byte := leBytes 4 0x5452494D ++ leBytes 2 1 ++ leBytes 2 0
def trimTail : List Byte := zeros 36960
def trimFront : List Byte := trimHead ++ (leBytes 8 Config.waferId.toNat ++ zeros 12)

/-- A trim image for this wafer: every trim 0, every replica at 0 taps. -/
def trimImage : List Byte := trimFront ++ (leBytes 4 (crc32 (trimFront ++ trimTail)) ++ trimTail)

theorem trimFront_length : trimFront.length = 28 := by
  simp only [trimFront, trimHead, List.length_append, le_bytes_length, zeros, List.length_replicate]
theorem crc32Bit_lt {c : Nat} (h : c < 2 ^ 32) : crc32Bit c < 2 ^ 32 := by
  unfold crc32Bit; split
  · exact Nat.xor_lt_two_pow (by omega) (by decide)
  · omega
theorem crc32_lt (l : List Byte) : crc32 l < 2 ^ 32 := by
  unfold crc32
  refine Nat.xor_lt_two_pow ?_ (by decide)
  suffices h : ∀ c, c < 2 ^ 32 → l.foldl crc32Byte c < 2 ^ 32 from h _ (by decide)
  induction l with
  | nil => exact fun c h => h
  | cons b l ih =>
    intro c h
    exact ih _ (by
      unfold crc32Byte
      iterate 8 apply crc32Bit_lt
      exact Nat.xor_lt_two_pow h (by have := b.isLt; omega))

theorem trimImage_length : trimImage.length = 36992 := by
  simp only [trimImage, List.length_append, trimFront_length, le_bytes_length, trimTail, zeros, List.length_replicate]
theorem trimImage_drop (n : Nat) (h : n ≤ 36960) : trimImage.drop (32 + n) = zeros (36960 - n) := by
  rw [trimImage, ← List.append_assoc, List.drop_append, List.drop_eq_nil_of_le, List.nil_append]
  · simp only [List.length_append, trimFront_length, le_bytes_length, trimTail, zeros, List.drop_replicate, Nat.reduceAdd]
    rw [Nat.add_sub_cancel_left]
  · simp only [List.length_append, trimFront_length, le_bytes_length]; omega
theorem zeros_all (p : Byte → Bool) (h : p 0 = true) (n : Nat) : (zeros n).all p = true := by
  simp only [List.all_eq_true, zeros]
  intro x hx
  rw [List.eq_of_mem_replicate hx, h]

theorem trim_e1 : leAt trimImage 0 4 = 0x5452494D := by rfl
theorem trim_e2 : leAt trimImage 4 2 = 1 := by rfl
theorem trim_e3 : (trimImage.drop 6).take 2 = [0, 0] := by rfl
theorem zeros_take (m n : Nat) (h : m ≤ n) : (zeros n).take m = zeros m := by
  rw [zeros, List.take_replicate, Nat.min_eq_left h, zeros]
theorem trim_crc : leAt trimImage 0x1C 4 = crc32 (trimFront ++ trimTail) := by
  have h := le_at_append 4 (crc32 (trimFront ++ trimTail)) trimFront trimTail
  rw [trimFront_length, Nat.mod_eq_of_lt (lt_of_lt_of_eq (crc32_lt _) (by norm_num))] at h
  exact h
theorem trim_wafer : leAt trimImage 8 8 = Config.waferId.toNat := by
  have h := le_at_append 8 Config.waferId.toNat trimHead (zeros 12 ++ (leBytes 4 (crc32 (trimFront ++ trimTail)) ++ trimTail))
  rw [show trimHead.length = 8 from by decide] at h
  rw [trimImage, trimFront, List.append_assoc, List.append_assoc]
  exact h.trans (Nat.mod_eq_of_lt (lt_of_lt_of_eq Config.waferId.isLt (by norm_num)))
theorem trim_front : trimImage.take 0x1C = trimFront := by
  rw [trimImage, List.take_append_of_le_length (by rw [trimFront_length]), List.take_of_length_le (by rw [trimFront_length])]
theorem trim_rest : trimImage.drop 0x20 = trimTail := trimImage_drop 0 (by omega)
theorem trim_trims : trimImage.drop 0x40 = zeros 36928 := trimImage_drop 32 (by omega)
theorem trim_slack : trimImage.drop 0x80 = zeros 36864 := trimImage_drop 96 (by omega)
theorem trim_zero : zeroIn trimImage 0x20 32 = true := by
  rw [zeroIn, trim_rest, trimTail, zeros_take _ _ (by omega)]
  exact zeros_all _ rfl _
theorem trim_all (top : Nat) : ((trimImage.drop 0x40).take 64).all (fun x => decide (x.toNat ≤ top)) = true := by
  rw [trim_trims, zeros_take _ _ (by omega)]
  exact zeros_all _ (decide_eq_true (Nat.zero_le _)) _
theorem trim_slacks : (trimImage.drop 0x80).all (fun x => decide (x.toNat ≤ 64) || x == 0xFF) = true := by
  rw [trim_slack]
  exact zeros_all _ rfl _
theorem trim_six : zeroIn trimImage 6 2 = true := by
  rw [zeroIn, trim_e3]; rfl
theorem trimImage_ok (top : Nat) : trimImageOk top trimImage = true := by
  unfold trimImageOk
  rw [trim_zero, trim_all, trim_slacks, trim_six, trim_e1, trim_e2, trim_crc, trim_wafer, trim_front, trim_rest, trimImage_length,
    beq_self_eq_true, beq_self_eq_true]
  simp only [beq_self_eq_true, Bool.and_true]

/-- Group 3 with clusters 0 and 1 of region 0, lead 2; `n` is COUNT. -/
def groupBody (n : Nat) : List Byte :=
  leBytes 2 3 ++ leBytes 1 0 ++ leBytes 1 2 ++ leBytes 1 1 ++ leBytes 3 0 ++ leBytes 4 0 ++ leBytes 4 n ++ leBytes 4 n ++
    leBytes 44 0 ++ leBytes 1 (if n = 0 then 0 else 3)

theorem witness_GroupDefineRequestsSlots :
    (let s := taking opGroupDefine 1 [] (groupBody 2) ready
     Executes s opGroupDefine bodyDefines (hand opGroupDefine 1 [] (groupBody 2)) ∧
       bodySpans (groupBody 2) = [(0, [0, 1])] ∧ defineCheck s (groupBody 2) (bodySpans (groupBody 2)) = none) ∧
    (let s := taking opGroupDefine 1 [] (groupBody 3) ready
     Executes s opGroupDefine bodyDefines (hand opGroupDefine 1 [] (groupBody 3)) ∧
       defineCheck s (groupBody 3) (bodySpans (groupBody 3)) = some (codeBadArg, 0x13)) := by
  refine ⟨⟨executes_of (n := 2) ?_ ?_ ?_ ?_, ?_, ?_⟩, executes_of (n := 2) ?_ ?_ ?_ ?_, ?_⟩ <;> decide +kernel

def group3 (g : Group → Group) (s : State) : State :=
  s.modGroups (fun x => { x with defs := [(3, g { flags := 0, lead := 2, key := 0, regions := [0], counts := [(0, 2)], home := 0 })] })

theorem witness_GroupDefinitionsEnd :
    (let s := group3 (fun g => { g with awaiting := [0], cmd := some (0, 7) }) ready
     Heard s 0x11 (good 1) ∧ (s.def? 3).map Group.awaiting = some [0] ∧ (s.def? 3).map Group.defined = some false ∧
       (s.def? 3).map Group.refused = some false ∧ (s.def? 3).map Group.cmd = some (some (0, 7)) ∧ s.thymeDecides = true) ∧
    (let s := group3 (fun g => { g with defined := true }) (taking opGroupDefine 1 [] (groupBody 0) ready)
     Executes s opGroupDefine (fun t => !bodyDefines t) (hand opGroupDefine 1 [] (groupBody 0)) ∧
       leAt (groupBody 0) 0 2 = 3 ∧ bodySpans (groupBody 0) = [] ∧ (s.group 3).isSome = true ∧ s.grantOn 3 = false ∧
       (s.home 3).relays = []) ∧
    (let s := (group3 (fun g => { g with defined := true }) (taking opGroupDefine 1 [] (groupBody 0) ready)).modRegion 0 (fun g => { g with
       slots := [{ gid := 3, members := [0, 1] }] })
     let s := s.modGrant 0 (fun g => { g with state := .inForce, gid := 3, spans := [(0, 3, [0])] })
     (s.group 3).isSome = true ∧ s.grantOn 3 = true) ∧
    (taking opGroupDefine 1 [] (groupBody 0) ready).group 3 = none := by
  refine ⟨?_, ⟨executes_of (n := 2) ?_ ?_ ?_ ?_, ?_⟩, ?_, ?_⟩
  all_goals first | decide +kernel | (unfold Heard; decide +kernel)

/-- A CAP_SET item. -/
def item (level kind idx ceil : Nat) : List Byte := leBytes 1 level ++ leBytes 1 kind ++ leBytes 2 idx ++ leBytes 4 ceil
def capTaking (rest : List Byte) : State := taking opCapSet 1 rest [] ready
def relayEntry : List Byte := leBytes 4 9 ++ leBytes 1 32 ++ leBytes 3 0 ++ leBytes 4 5
def relayHand : Taken := { hand opCapSet 1 relayEntry [] with entry := leBytes 1 opCapSet ++ leBytes 1 2 ++ leBytes 2 1 ++ leBytes 4 7 ++ relayEntry, flags := 2 }
def relaying (h : Home) : State :=
  { group3 (fun g => { g with defined := true, flags := 2, key := 9 }) (ready.modRings (fun g => { g with taken := [relayHand] })) with
    homes := [(3, h)] }
theorem witness_CapSetIsRecorded :
    (Executes (capTaking (item 5 0 0 40000)) opCapSet (fun t => !entryGroupForm t.entry) (hand opCapSet 1 (item 5 0 0 40000) []) ∧
      (let items := (List.range 1).map (capItem (hand opCapSet 1 (item 5 0 0 40000) []).entry)
       capReject items = none ∧ ∀ i ∈ items, i.kind = 0 → (capTaking (item 5 0 0 40000)).pFloor ≤ i.ceiling)) ∧
    (Executes (capTaking (item 5 3 0 40000)) opCapSet (fun t => !entryGroupForm t.entry) (hand opCapSet 1 (item 5 3 0 40000) []) ∧
      capReject ((List.range 1).map (capItem (hand opCapSet 1 (item 5 3 0 40000) []).entry)) = some 0) ∧
    (Executes (capTaking (item 5 0 0 1)) opCapSet (fun t => !entryGroupForm t.entry) (hand opCapSet 1 (item 5 0 0 1) []) ∧
      (let items := (List.range 1).map (capItem (hand opCapSet 1 (item 5 0 0 1) []).entry)
       capReject items = none ∧ ∃ i ∈ items, i.kind = 0 ∧ i.ceiling < (capTaking (item 5 0 0 1)).pFloor)) ∧
    (Executes (relaying {}) opCapSet (fun t => entryGroupForm t.entry) relayHand ∧
      ((relaying {}).hub.groups.defs.find? (fun p => p.2.defined && bitOf p.2.flags 1 &&
        p.2.key == BitVec.ofNat 32 (leAt relayHand.entry 8 4))).isSome = true ∧
      byteAt relayHand.entry 0x0C = 32 ∧ ((relaying {}).home 3).relayS = none) ∧
    (((relaying { relayS := some 6 }).home 3).relayS = some 6 ∧ reached (BitVec.ofNat 32 (leAt relayHand.entry 0x10 4)) 6 = false) ∧
    (ready.hub.groups.defs.find? (fun p => p.2.defined && bitOf p.2.flags 1 &&
      p.2.key == BitVec.ofNat 32 (leAt relayHand.entry 8 4)) = none) ∧
    (∀ code ∈ [0, 1, 64, 65], byteAt (leBytes 12 0 ++ leBytes 1 code) 0x0C = code) := by
  refine ⟨⟨executes_of (n := 1) ?_ ?_ ?_ ?_, ?_⟩, ⟨executes_of (n := 1) ?_ ?_ ?_ ?_, ?_⟩,
    ⟨executes_of (n := 1) ?_ ?_ ?_ ?_, ?_⟩, ⟨executes_of (n := 1) ?_ ?_ ?_ ?_, ?_⟩, ?_, ?_, ?_⟩ <;> decide +kernel

/-- A model of two layers, one output per sensor group and 24 in the end. -/
def image : List Byte :=
  leBytes 4 0x53474D31 ++ leBytes 2 1 ++ leBytes 1 2 ++ leBytes 1 1 ++ leBytes 4 2112 ++ leBytes 4 0 ++ leBytes 16 0 ++
    leBytes 2 192 ++ leBytes 2 1 ++ leBytes 1 0 ++ leBytes 1 1 ++ leBytes 2 0 ++ leBytes 4 128 ++ leBytes 4 576 ++
    leBytes 2 24 ++ leBytes 2 24 ++ leBytes 1 0 ++ leBytes 1 9 ++ leBytes 2 0 ++ leBytes 4 768 ++ leBytes 4 1920
def modelEntry (len : Nat) : List Byte := leBytes 8 1 ++ leBytes 8 0 ++ leBytes 4 len
theorem witness_ModelCommandTaken :
    (let s := taking opModelLoad 1 (modelEntry 2112) image ready
     Executes s opModelLoad (loadFree s true) (hand opModelLoad 1 (modelEntry 2112) image) ∧
       onesOf 64 (BitVec.ofNat 64 (leAt (hand opModelLoad 1 (modelEntry 2112) image).entry 8 8)).toNat = [0] ∧
       s.cfgBit (offSage 0) 31 = false ∧ imageReason image 2112 = none) ∧
    (let s := taking opModelLoad 1 (modelEntry 2112) [] ready
     Executes s opModelLoad (loadFree s true) (hand opModelLoad 1 (modelEntry 2112) []) ∧ imageReason [] 2112 = some 1) ∧
    (let s := taking opModelLoad 1 (modelEntry 0) [] ready
     Executes s opModelLoad (loadFree s false) (hand opModelLoad 1 (modelEntry 0) [])) ∧
    (let s := taking opModelLoad 1 (leBytes 20 0) [] ready
     Executes s opModelLoad (loadFree s false) (hand opModelLoad 1 (leBytes 20 0) []) ∧
       onesOf 64 (BitVec.ofNat 64 (leAt (hand opModelLoad 1 (leBytes 20 0) []).entry 8 8)).toNat = []) ∧
    (let s := { taking opModelLoad 1 (modelEntry 0) [] ready with setup := { ready.setup with words := [(offSage 0, 0x80000000)] } }
     Executes s opModelLoad (loadFree s false) (hand opModelLoad 1 (modelEntry 0) []) ∧
       ∃ r ∈ onesOf 64 (BitVec.ofNat 64 (leAt (hand opModelLoad 1 (modelEntry 0) []).entry 8 8)).toNat,
         s.cfgBit (offSage r) 31 = true ∧ s.cfg (offSage r) 0 2 = 0) := by
  refine ⟨⟨executes_by_hardware ?_ ?_ ?_, ?_⟩, ⟨executes_by_hardware ?_ ?_ ?_, ?_⟩, executes_by_hardware ?_ ?_ ?_,
    ⟨executes_by_hardware ?_ ?_ ?_, ?_⟩, executes_by_hardware ?_ ?_ ?_, ?_⟩ <;> decide +kernel

/-- A POLICY_SET entry: its kind, region and phase, the body's length. -/
def policyEntry (kind r k len : Nat) : List Byte :=
  leBytes 1 kind ++ leBytes 3 0 ++ leBytes 1 r ++ leBytes 1 k ++ leBytes 2 0 ++ leBytes 8 0 ++ leBytes 4 len
theorem witness_PolicyActsOnTrimsAndPhases :
    (let s := taking opPolicySet 1 (policyEntry 1 0 0 36992) trimImage ready
     Executes s opPolicySet (fun t => isTrim t && leAt t.entry 0x18 4 != 0) (hand opPolicySet 1 (policyEntry 1 0 0 36992) trimImage) ∧
       trimImageOk (s.cfg 0x6000 24 7) trimImage = true) ∧
    (let s := taking opPolicySet 1 (policyEntry 1 0 0 0) [] { ready with govs := ⟨{ engine := true }, []⟩ }
     Executes s opPolicySet (fun t => isTrim t && leAt t.entry 0x18 4 == 0) (hand opPolicySet 1 (policyEntry 1 0 0 0) []) ∧
       (∀ r : RegionId, (s.region r).margin.state = .none) ∧ s.enginesRun = true) ∧
    (let s := taking opPolicySet 1 (policyEntry 1 0 0 36992) [] ready
     Executes s opPolicySet (fun t => isTrim t && leAt t.entry 0x18 4 != 0) (hand opPolicySet 1 (policyEntry 1 0 0 36992) []) ∧
       trimImageOk (s.cfg 0x6000 24 7) [] = false) ∧
    (let s := taking opPolicySet 1 (policyEntry 1 0 0 0) [] ready
     Executes s opPolicySet (fun t => isTrim t && leAt t.entry 0x18 4 == 0) (hand opPolicySet 1 (policyEntry 1 0 0 0) []) ∧
       s.enginesRun = false ∧ ((s.modRegion 63 (fun g => { g with margin := { g.margin with state := .limit } })).region 63).margin.state ≠ .none) ∧
    (let s := (taking opPolicySet 1 (policyEntry 2 0 3 0) [] ready).modRegion 0 (fun g => { g with ph := { g.ph with retired := 8 } })
     Executes s opPolicySet (restoreFree s) (hand opPolicySet 1 (policyEntry 2 0 3 0) []) ∧
       (s.region 0).ph.retired &&& phaseBitOf 3 ≠ 0) ∧
    (let s := taking opPolicySet 1 (policyEntry 2 64 3 0) [] ready
     Executes s opPolicySet (restoreFree s) (hand opPolicySet 1 (policyEntry 2 64 3 0) [])) := by
  refine ⟨⟨executes_of (n := 1) ?_ ?_ ?_ ?_, trimImage_ok _⟩, ⟨executes_of (n := 1) ?_ ?_ ?_ ?_, ?_⟩,
    ⟨executes_of (n := 1) ?_ ?_ ?_ ?_, ?_⟩, ⟨executes_of (n := 1) ?_ ?_ ?_ ?_, ?_⟩, ⟨executes_of (n := 1) ?_ ?_ ?_ ?_, ?_⟩, executes_of (n := 1) ?_ ?_ ?_ ?_⟩ <;> first | rfl | decide +kernel

/-- A firmware image for `target` of 64 bytes of code with SEC_VER 63 and no memory region. -/
def firmware (target : Nat) : List Byte :=
  padTo 448 (leBytes 4 0x46574931 ++ leBytes 2 1 ++ leBytes 1 target ++ leBytes 1 0 ++ leBytes 4 5 ++ leBytes 2 63 ++ leBytes 2 1 ++
    leBytes 4 448)
def stageEntry (target : Nat) : List Byte := leBytes 8 0 ++ leBytes 4 448 ++ leBytes 1 target
def staging (target : Nat) (s : State) : State := taking opStage 1 (stageEntry target) (firmware target) s
def loadOn (s : State) : State :=
  { s with setup := { s.setup with words := [(0x3000, 0x00130000)] } }

/-- FW_CFG with loading disabled. -/
def loadOff (s : State) : State := { s with setup := { s.setup with words := [(0x3000, 0)] } }

theorem arb_at_le (s : State) (h : Hub) (hs : (s.hubOf h).arbUp = [0, 0, 0, 0]) (t : Nat) : s.arbAt h t ≤ 63 := by
  have h1 := (Config.arbFused h t).isLt
  have h2 : (s.hubOf h).arbUp.getD t 0 = 0 := by
    rw [hs]
    rcases t with _ | _ | _ | _ | t <;> rfl
  unfold State.arbAt
  omega
theorem arb_le (s : State) (ha : s.hubA.arbUp = [0, 0, 0, 0]) (hb : s.hubB.arbUp = [0, 0, 0, 0]) (t : Nat) : s.arb t ≤ 63 := by
  have h1 := arb_at_le s .a ha t
  have h2 := arb_at_le s .b hb t
  unfold State.arb
  split
  · exact h2
  split
  · exact h1
  · omega

theorem stage_ok (k : Nat) (hk : k = 0 ∨ k = 3) (ha : authReason (firmware k) = none) :
    stageCheck (staging k (loadOn ready)) (hand opStage 1 (stageEntry k) (firmware k)) = none := by
  have hl : ¬ (imgSecVer (firmware k) < (staging k (loadOn ready)).arb k) := by
    have h1 := arb_le (staging k (loadOn ready)) rfl rfl k
    have h2 : imgSecVer (firmware k) = 63 := by rcases hk with rfl | rfl <;> decide +kernel
    omega
  have hb : byteAt (hand opStage 1 (stageEntry k) (firmware k)).entry 0x14 = k := by rcases hk with rfl | rfl <;> decide +kernel
  unfold stageCheck
  simp only [hb, show (hand opStage 1 (stageEntry k) (firmware k)).body = firmware k from rfl]
  rw [if_neg (by rcases hk with rfl | rfl <;> decide +kernel), if_neg (by rcases hk with rfl | rfl <;> decide +kernel),
    if_neg (by rcases hk with rfl | rfl <;> decide +kernel), if_neg (by rcases hk with rfl | rfl <;> decide +kernel), ha]
  simp only
  rw [if_neg hl, if_neg (by rcases hk with rfl | rfl <;> decide +kernel), if_neg (by rcases hk with rfl | rfl <;> decide +kernel)]

/-- Where the fuses hold a key that made the image's signature. -/
theorem witness_StageFillsStagedBank :
    (∀ k, k = 0 ∨ k = 3 → authReason (firmware k) = none →
      Executes (staging k (loadOn ready)) opStage (fun _ => (staging k (loadOn ready)).hub.fw.stageCmd.isNone)
        (hand opStage 1 (stageEntry k) (firmware k)) ∧
      byteAt (hand opStage 1 (stageEntry k) (firmware k)).entry 0x14 = k ∧
      stageCheck (staging k (loadOn ready)) (hand opStage 1 (stageEntry k) (firmware k)) = none ∧
      (staging k (loadOn ready)).validStandby = none) ∧
    (Executes (staging 0 (loadOff ready)) opStage (fun _ => (staging 0 (loadOff ready)).hub.fw.stageCmd.isNone)
        (hand opStage 1 (stageEntry 0) (firmware 0)) ∧
      stageCheck (staging 0 (loadOff ready)) (hand opStage 1 (stageEntry 0) (firmware 0)) = some (codeLocked, 0)) ∧
    (let s := ready.modHub (fun h => { h with fw := { h.fw with stageCmd := some (0, 7), stageWait := [5] } })
     Heard s 0x60 (good 1) ∧ s.hub.fw.stageCmd = some (0, 7) ∧ s.hub.fw.stageWait = [5]) := by
  refine ⟨fun k hk ha => ⟨?_, ?_, stage_ok k hk ha, ?_⟩, ⟨executes_of (n := 0) (by decide) (by decide) (by decide) (by decide), by decide +kernel⟩, ?_⟩
  · rcases hk with rfl | rfl <;> exact executes_of (n := 0) (by decide +kernel) (by decide +kernel) (by decide) (by decide +kernel)
  · rcases hk with rfl | rfl <;> decide +kernel
  · rcases hk with rfl | rfl <;> decide +kernel
  · unfold Heard; decide +kernel

/-- The owning hub's core `k` has an image in each bank. -/
def banked (k : Nat) : State :=
  (loadOn ready).modCore .a k (fun c => { c with
    state := .running, bank0 := some (imageOf (firmware k)), bank1 := some (imageOf (firmware k)) })
def actEntry (target wait : Nat) : List Byte := leBytes 1 target ++ leBytes 1 0 ++ leBytes 2 wait
def activating (target wait : Nat) (s : State) : State := taking opActivate 1 (actEntry target wait) [] s

/-- The emergency cap is in force. -/
def capped (s : State) : State := s.modHub (fun h => { h with ecap := { h.ecap with active := true } })

theorem activate_ok (k wait : Nat) (hk : k = 1 ∨ k = 2) (hw : wait = 0 ∨ wait = 9) (s : State)
    (hs : s = banked k ∨ s = capped (banked k)) :
    activateCheck (activating k wait s) (hand opActivate 1 (actEntry k wait) []) = none := by
  have hl : ¬ (63 < (activating k wait s).arb k) := by
    have h1 := arb_le (activating k wait s) (by rcases hs with rfl | rfl <;> rcases hk with rfl | rfl <;> rfl)
      (by rcases hs with rfl | rfl <;> rcases hk with rfl | rfl <;> rfl) k
    omega
  have hb : byteAt (hand opActivate 1 (actEntry k wait) []).entry 8 = k := by
    rcases hk with rfl | rfl <;> rcases hw with rfl | rfl <;> decide +kernel
  have hi : (imageOf (firmware k)).secVer = 63 := by rcases hk with rfl | rfl <;> decide +kernel
  have hg : (activating k wait s).stagedOf k = some (imageOf (firmware k)) := by
    rcases hk with rfl | rfl <;> rcases hs with rfl | rfl <;> rcases hw with rfl | rfl <;> decide +kernel
  unfold activateCheck
  simp only [hb, hg]
  rw [hi, if_neg (by rcases hk with rfl | rfl <;> rcases hs with rfl | rfl <;> rcases hw with rfl | rfl <;> decide +kernel),
    if_neg (by omega), if_neg hl,
    if_neg (by rcases hk with rfl | rfl <;> rcases hs with rfl | rfl <;> rcases hw with rfl | rfl <;> decide +kernel),
    if_neg (by rcases hk with rfl | rfl <;> rcases hs with rfl | rfl <;> rcases hw with rfl | rfl <;> decide +kernel),
    if_neg (by rcases hk with rfl | rfl <;> rcases hs with rfl | rfl <;> rcases hw with rfl | rfl <;> decide +kernel)]

theorem witness_ActivationStarts :
    (Executes (activating 2 0 (loadOff ready)) opActivate (fun _ => (activating 2 0 (loadOff ready)).hub.fw.act.isNone) (hand opActivate 1 (actEntry 2 0) []) ∧
      activateCheck (activating 2 0 (loadOff ready)) (hand opActivate 1 (actEntry 2 0) []) = some (codeLocked, 0)) ∧
    (let s := activating 2 0 (banked 2)
     Executes s opActivate (fun _ => s.hub.fw.act.isNone) (hand opActivate 1 (actEntry 2 0) []) ∧
       activateCheck s (hand opActivate 1 (actEntry 2 0) []) = none ∧ s.targetEmpty 2 = false ∧ s.actCause = 0 ∧
       (s.coreAt .a 2).state = .running) ∧
    (let s := activating 1 0 (banked 1)
     Executes s opActivate (fun _ => s.hub.fw.act.isNone) (hand opActivate 1 (actEntry 1 0) []) ∧
       activateCheck s (hand opActivate 1 (actEntry 1 0) []) = none ∧ s.targetEmpty 1 = false ∧ s.actCause = 0 ∧
       s.validStandby = none ∧ (s.coreAt .a 1).state = .running ∧
       (recentWith (s.now / 100) (s.coreAt .a 1).recent).length ≤ s.cfg 0x3000 16 4) ∧
    (∀ wait, wait = 0 ∨ wait = 9 → let s := activating 1 wait (capped (banked 1))
     Executes s opActivate (fun _ => s.hub.fw.act.isNone) (hand opActivate 1 (actEntry 1 wait) []) ∧
       activateCheck s (hand opActivate 1 (actEntry 1 wait) []) = none ∧ s.targetEmpty 1 = false ∧ s.actCause ≠ 0 ∧
       leAt (hand opActivate 1 (actEntry 1 wait) []).entry 0x0A 2 = wait) := by
  refine ⟨⟨executes_of (n := 0) ?_ ?_ ?_ ?_, ?_⟩,
    ⟨executes_of (n := 0) ?_ ?_ ?_ ?_, activate_ok 2 0 (.inr rfl) (.inl rfl) _ (.inl rfl), ?_⟩,
    ⟨executes_of (n := 0) ?_ ?_ ?_ ?_, activate_ok 1 0 (.inl rfl) (.inl rfl) _ (.inl rfl), ?_⟩,
    fun wait hw => ⟨?_, activate_ok 1 wait (.inl rfl) hw _ (.inr rfl), ?_⟩⟩
  rotate_right 2
  · rcases hw with rfl | rfl <;> exact executes_of (n := 0) (by decide +kernel) (by decide +kernel) (by decide) (by decide +kernel)
  · rcases hw with rfl | rfl <;> decide +kernel
  all_goals decide +kernel

def queryEntry (kind id : Nat) : List Byte := leBytes 1 kind ++ leBytes 3 0 ++ leBytes 4 id
def querying (kind id : Nat) (s : State) : State := taking opQuery 1 (queryEntry kind id) [] s
theorem witness_QueryReturnsFigures :
    (∀ kind ∈ [1, 2, 3], Executes (querying kind 3 ready) opQuery (fun t => byteAt t.entry 8 == kind) (hand opQuery 1 (queryEntry kind 3) [])) ∧
    (let s := (querying 1 65536 ready).modGrant 0 (fun g => { g with state := .inForce, gen := 1 })
     (s.grant 0).state ≠ .free ∧ (s.grant 0).gen = 1) ∧
    ((querying 1 3 ready).grant 3).state = .free ∧
    (((querying 2 3 ready).modGroups (fun x => { x with defs := [(3, { flags := 0, lead := 2, key := 0, regions := [0], counts := [(0, 2)], home := 0, defined := true })] })).group 3).isSome = true ∧ (querying 2 3 ready).group 3 = none ∧
    leAt (hand opQuery 1 (queryEntry 3 63) []).entry 0x0C 4 = 63 ∧ leAt (hand opQuery 1 (queryEntry 3 64) []).entry 0x0C 4 = 64 ∧
    (ready.clk.st ≠ .stopped ∧ ready.pow.rstLow = false ∧ ready.inControl = true) ∧
    (∀ kind ∈ [1, 2, 3], let s := (querying kind 64 ready).begin (hand opQuery 1 (queryEntry kind 64) [])
      (s.hub.rings.taken.filter (fun t => t.started && t.opcode == opQuery)).map (fun t => byteAt t.entry 8) = [kind]) := by
  refine ⟨?_, ?_, ?_, ?_, ?_, ?_, ?_, ?_, ?_⟩
  · intro kind hk
    simp only [List.mem_cons, List.not_mem_nil, or_false] at hk
    rcases hk with rfl | rfl | rfl <;> exact executes_by_hardware (by decide +kernel) (by decide +kernel) (by decide)
  all_goals decide +kernel

/-- The state from which the boundary after a query in hand answers it: `k` its kind, `id` what it names. -/
def atBoundary (k id : Nat) : State :=
  let s := querying k id ((ready.modGrant 0 (fun g => { g with state := .inForce, gen := 1 })).modGroups (fun x => { x with
    defs := [(3, { flags := 0, lead := 2, key := 0, regions := [0], counts := [(0, 2)], home := 0, defined := true })] }))
  boundaryBody ⟨[], [], 0, ⟨(64, .valid), []⟩⟩ (journaled (fun _ => s.begin (hand opQuery 1 (queryEntry k id) [])) s)
theorem witness_QueryReturnsFigures_grant :
    (let v := atBoundary 1 65536
     v.inControl = true ∧ v.queriesInHand = [{ hand opQuery 1 (queryEntry 1 65536) [] with started := true }] ∧
       (v.grant (65536 % 65536)).state ≠ .free ∧ (v.grant (65536 % 65536)).gen = 65536 / 65536 ∧ (v.grant 3).state = .free) := by
  decide +kernel
theorem witness_QueryReturnsFigures_group :
    (let v := atBoundary 2 3
     v.inControl = true ∧ v.queriesInHand = [{ hand opQuery 1 (queryEntry 2 3) [] with started := true }] ∧
       (v.group 3).isSome = true ∧ v.group 4 = none) := by
  decide +kernel
theorem witness_QueryReturnsFigures_spec :
    (let v := atBoundary 3 63
     v.inControl = true ∧ v.queriesInHand = [{ hand opQuery 1 (queryEntry 3 63) [] with started := true }]) := by
  decide +kernel

/-- HOLD is 1. -/
def holding : State := ready.modSetup (fun u => { u with hold := true })

/-- The clocks' group is locked. -/
def lockedClocks : State := { ready with setup := { ready.setup with words := [(0x1000, 0x80000003)] } }
def held1 : HeldInst := { gid := 1, idx := 0, periods := 64, raised := false }

theorem witness_ShadowsAndHeldInstances :
    ready.pow.regOpen = true ∧ (regDef 0x1000).isSome = true ∧ ((regDef 0x1000).map ready.setup.locked) = some false ∧
    inRegionBlock 0x1000 = false ∧ (regDef 0x100000).isSome = true ∧ inRegionBlock 0x100000 = true ∧
    ((regDef 0x100000).map ready.setup.locked) = some false ∧ ready.setup.hold = false ∧ holding.setup.hold = true ∧
    ((regDef 0x1000).map lockedClocks.setup.locked) = some true ∧
    (let s := ready.modSetup (fun u => { u with held := [held1] })
     s.setup.held.find? (fun h => h.gid == 1 && h.idx == 0) = some held1 ∧ 64 ≤ held1.periods ∧ held1.raised = false) := by
  decide +kernel

theorem witness_RegisterAccessRules :
    State.reset.pow.regOpen = false ∧ ready.pow.regOpen = true ∧ ready.inControl = true ∧ ready.owner = some .a ∧
    (let s := { ready with pair := { ready.pair with claims := [0], gap := 1 } }
     s.pow.regOpen = true ∧ { ready with hubA := { owning with role := .fenced } }.inControl = false) := by
  decide +kernel

theorem witness_RegisterControlWrites :
    ready.pow.regOpen = true ∧ ready.setup.hold = false ∧ holding.setup.hold = true ∧ holding.pow.regOpen = true ∧
    ¬ ((1 = 4 ∨ 1 = 5) ∧ (0 : Nat) < 64) ∧ (ready.hubWide 1 0).isSome = true := by
  decide +kernel

/-- Slot `k` of the host mailbox as `f` says. -/
def slotted (k : Nat) (f : Slot → Slot) : State := ready.modSlot k f
theorem witness_HostMailboxWrites :
    ready.pow.regOpen = true ∧ (ready.slot 31).state = .empty ∧ ((slotted 0 (fun x => { x with state := .posted })).slot 0).state = .posted ∧
    ((slotted 31 (fun x => { x with state := .taken })).slot 31).state = .taken ∧
    ((slotted 0 (fun x => { x with state := .done })).slot 0).state = .done := by
  decide +kernel

/-- Hub A's collector with source `n` as `x`. -/
def collecting (n : Nat) (x : Source) (s : State) : State :=
  s.modColl .a (fun c => { c with sources := c.sources.modify n (fun _ => x) })
theorem witness_PendIsClearedUnlessActive :
    (let s := collecting 198 { pend := true, cls := 2 } ready
     s.pow.regOpen = true ∧ (s.coll .a).frozen = false ∧ ((s.coll .a).source 198).pend = true ∧ s.srcActive 198 = false) ∧
    (let s := collecting 5 { pend := true } (ready.modGov 5 (fun g => { g with rtherm := { held := 1 } }))
     ((s.coll .a).source 5).pend = true ∧ s.srcActive 5 = true) := by
  decide +kernel

theorem witness_ForcesActInTestOnly :
    (let s := ready.modColl .a (fun c => { c with test := true })
     s.pow.regOpen = true ∧ (s.coll .a).test = true ∧ s.collOn .a = true ∧ (s.coll .a).frozen = false ∧
       ((s.coll .a).source 198).pend = false) ∧
    (ready.coll .a).test = false ∧ ((ready.modColl .a (fun c => { c with frozen := true })).coll .a).frozen = true := by
  decide +kernel

theorem witness_EndOfHandling :
    (let s := ready.modColl .a (fun c => { c with nmiBusy := true })
     s.owner = some .a ∧ s.pow.regOpen = true ∧ (s.coll .a).frozen = false ∧ (s.coll .a).nmiBusy = true ∧
       ∀ n ∈ (s.coll .a).nmiAgain, ((s.coll .a).source n).pend = false) ∧
    (let s := collecting 194 { pend := true, cls := 3 } (ready.modColl .a (fun c => { c with nmiBusy := true, nmiAgain := [194] }))
     s.owner = some .a ∧ (s.coll .a).nmiAgain = [194] ∧ ((s.coll .a).source 194).pend = true ∧
       bitOf (s.reactions 194 ((s.coll .a).source 194).cls) 1 = true ∧ (s.coreAt .a 1).state = .running) := by
  decide +kernel

/-- Every gate of region 0 closed, GATE_EN set. -/
def gated : State :=
  { ready with
    govs := ⟨{ gsClosed := true, grClosed := true, gwClosed := 0xFFFFFF }, []⟩
    regions := ⟨{ clusters := ⟨{ gcClosed := true }, []⟩ }, []⟩
    setup := { ready.setup with words := [(0x1000, 3)] } }
theorem witness_GatesFollowTree :
    ready.gateAsked .host = true ∧ ready.gateAsked .firmware = true ∧ gated.gateRefused 3 0 .host = none ∧
    (∀ p ∈ gateChildren 3 0, gated.gateClosed p.1 p.2 = true) ∧ gated.gateInUse 3 0 = false ∧
    ready.gateRefused 1 0 .firmware = none ∧ (∃ p ∈ gateChildren 1 0, ready.gateClosed p.1 p.2 = false) ∧
    (∀ p, gateParent 3 0 = some p → gated.gateClosed p.1 p.2 = false) ∧
    gated.gateRefused 7 9 .host = some 5 ∧
    { ready with setup := { ready.setup with words := [(0x1000, 0)] } }.gateRefused 3 0 .host = some 6 := by
  refine ⟨?_, ?_, ?_, ?_, ?_, ?_, ?_, ?_, ?_, ?_⟩
  rotate_right 3
  · intro p h; cases h
  all_goals decide +kernel

theorem witness_EmergencyCapFollowsSources :
    ready.pow.regOpen = true ∧ ready.hub.ecap.active = false ∧ ({ ready.hub.ecap with hard := true }).any = true ∧
    (let s := ready.modHub (fun h => { h with ecap := { h.ecap with hard := true, active := true } })
     ({ s.hub.ecap with hard := false }).any = false ∧ s.hub.ecap.active = true ∧
       ({ s.hub.ecap with pinA := true }).any = s.hub.ecap.active) := by
  decide +kernel

theorem witness_HostMessagesAreAnswered :
    (∀ k code, k = 0 ∨ k = 31 → code ∈ [1, 2, 3, 4] → let s := slotted k (fun x => { x with state := .taken, msg := padTo 16 [BitVec.ofNat 8 code] })
      Serves s k code ∧ byteAt (s.slot k).msg 4 ≤ 2) ∧
    (∀ code ∈ [1, 0x7F], let s := slotted 0 (fun x => { x with state := .posted, mirrored := true, msg := padTo 16 [BitVec.ofNat 8 code] })
      s.owner = some .a ∧ s.inControl = true ∧ (s.ownerCore (servedBy 0)).state = .running ∧
        firstPosted s.hub.mb.slots (fun j x => servedBy j == servedBy 0 && x.mirrored) = some 0 ∧
        hostMsgDefined (s.slot 0).msgCode = decide (code = 1)) := by
  refine ⟨?_, ?_⟩
  · intro k code hk hc
    simp only [List.mem_cons, List.not_mem_nil, or_false] at hc
    unfold Serves
    rcases hk with rfl | rfl <;> rcases hc with rfl | rfl | rfl | rfl <;> decide +kernel
  · decide +kernel

/-- A Chive whose core runs, with slot 2 as `f` says. -/
def chiving (f : Slot → Slot) : State :=
  ready.modCluster 700 (fun u => { u with core := { u.core with state := .running }, slots := u.slots.modify 2 f })
theorem witness_ChiveMessagesAreAnswered :
    (let s := chiving (fun x => { x with state := .posted, msg := padTo 16 [1] })
     firstPosted (s.cluster 700).slots (fun _ _ => true) = some 2 ∧ (s.cluster 700).core.state = .running ∧
       (s.cluster 700).ctl.spared = false ∧ ¬ ((s.cluster 700).gcClosed = true ∧ s.rowClosed 700 = true) ∧
       chiveMsgDefined ((s.cluster 700).slot 2).msgCode = true) ∧
    (∀ code ∈ [0x01, 0x10, 0x11, 0x12, 0x20],
      ChiveServes (chiving (fun x => { x with state := .taken, msg := padTo 16 [BitVec.ofNat 8 code] })) 700 2 code) ∧
    (let s := chiving (fun x => { x with state := .posted, msg := padTo 16 [0x7F] })
     firstPosted (s.cluster 700).slots (fun _ _ => true) = some 2 ∧ chiveMsgDefined ((s.cluster 700).slot 2).msgCode = false) ∧
    (let s := chiving (fun x => { x with state := .done, cancel := true, msg := padTo 16 [1] })
     ((s.cluster 700).slot 2).state = .done ∧ ((s.cluster 700).slot 2).cancel = true ∧ ((s.cluster 700).slot 2).msgCode = 1) ∧
    ((ready.cluster 700).ctl.spared = false ∧ ready.inControl = true ∧ (4 : Int).natAbs ≤ 4 ∧ 4 < (-5 : Int).natAbs) ∧
    (∀ set ∈ [0, 1, 2], byteAt (((chiving (fun x => { x with msg := padTo 16 [0x20, 0, 0, 0, BitVec.ofNat 8 set] })).cluster 700).slot 2).msg 4 = set) ∧
    (ready.gov 1).engine = false ∧ ((ready.modGov 1 (fun g => { g with engine := true })).gov 1).engine = true := by
  refine ⟨by decide +kernel, ?_, by decide +kernel, by decide +kernel, by decide, by decide +kernel, by decide +kernel, by decide +kernel⟩
  unfold ChiveServes
  decide +kernel

/-- An open multicast of slot `k` whose regions `rs` are waiting, all their posts received. -/
def multi0 (k : Nat) (rs : List Nat) : Multi :=
  { slot := k, msg := [], posts := rs.map (fun r => (r, 1)), due := [], waiting := rs }
theorem witness_MulticastsAndServiceOfClusters :
    (ready.inControl = true ∧ ready.hub.multis = [] ∧ ([(0, 1), (63, 1)] : List (Nat × BitVec 576)).map Prod.fst = [0, 63]) ∧
    (let s := ready.modHub (fun h => { h with multis := (List.range 8).map (fun k => multi0 k [1]) })
     8 ≤ s.hub.multis.length ∧ (∀ m ∈ s.hub.multis, m.slot = 31 → 0 ∉ m.due) ∧ s.inControl = true) ∧
    (let s := ready.modHub (fun h => { h with multis := [multi0 0 [1]] })
     (∃ x ∈ s.hub.multis, x.slot = 0) ∧ (∀ m ∈ s.hub.multis, m.slot = 0 → 0 ∉ m.due)) ∧
    (let s := ready.modHub (fun h => { h with multis := [{ multi0 0 [0] with due := [0] }] })
     Accepted s 0 0x50 (good 0) ∧ (∃ m ∈ s.hub.multis, m.slot = 0 ∧ 0 ∈ m.due) ∧ (s.region 0).multi 0 = none) ∧
    (let s := ready.modRegion 0 (fun g => { g with multis := [{ slot := 0, waiting := [1, 2], age := 0xFFFF }] })
     (s.region 0).multi 0 = some { slot := 0, waiting := [1, 2], age := 0xFFFF } ∧
       s.cfg 0x9000 0 16 ≤ 0xFFFF ∧ Accepted s 0 0x52 (good 0) ∧ PeerAccepted s 0 0x51 (good 0) ∧ 1 ∈ [1, 2]) ∧
    (let s := ready.modHub (fun h => { h with multis := [multi0 0 [5]] })
     Heard s 0x53 (good 1) ∧ s.hub.multis.find? (fun m => m.slot == 0) = some (multi0 0 [5]) ∧ (multi0 0 [5]).waiting = [5] ∧
       s.hub.heldMultis = [] ∧ (multi0 0 [5]).raised = false ∧ s.await = [] ∧ s.inControl = true) ∧
    (ready.cluster 700).ctl.spared = false ∧
    (let s := ready.modCluster 700 (fun u => { u with tap := { u.tap with suspTicks := 0x3FFF } })
     (s.cluster 700).tap.suspect = false ∧ s.cfg 0x9000 16 14 ≤ (s.cluster 700).tap.suspTicks) ∧
    (let s := (ready.modCluster 700 (fun u => { u with tap := { u.tap with suspect := true, clearDue := true } })).modHub
       (fun h => { h with stalls := [700] })
     (s.cluster 700).tap.suspect = true ∧ (s.cluster 700).tap.clearDue = true ∧ s.inControl = true ∧ 700 ∈ s.hub.stalls) := by
  unfold Accepted Heard PeerAccepted
  refine ⟨?_, ?_, ?_, ?_, ?_, ?_, ?_, ?_, ?_⟩ <;> decide +kernel

/-- Hub A in role `x` beside the owner B of epoch 1. -/
def beside (x : Role) (f : HubSt → HubSt) : State :=
  { ready with hubA := f { owning with role := x }, hubB := owning }
theorem witness_PairMessagesAct :
    ((beside .valid id).hubOf .a).role = .valid ∧ ((beside .fenced id).hubOf .a).role = .fenced ∧
    (19 ≤ ((beside .fenced (fun u => { u with goodRun := 19 })).hubOf .a).goodRun) ∧
    paired.owner = some .a ∧ epochHigher 2 (paired.hubOf .a).epoch = true ∧ epochHigher 1 (paired.hubOf .a).epoch = false ∧
    paired.pair.paired = true ∧ paired.pair.degraded = false ∧
    (good 1).good = true ∧ epochHigher (good 1).epoch (ready.gov 0).epoch = true ∧
    (let s := ready.modGov 0 (fun g => { g with epoch := 2 })
     epochHigher (good 1).epoch (s.gov 0).epoch = false ∧ (good 1).epoch ≠ (s.gov 0).epoch) ∧
    (let s := { ready with pair := { ready.pair with claims := [0] } }
     s.owner = some .a ∧ (1 : Word) = s.epoch ∧ 0 ∈ s.pair.claims ∧ epochHigher 2 s.epoch = true) ∧
    (let s := { paired with pair := { paired.pair with probing := true, probes := [0] } }
     s.owner = some .a ∧ (1 : Word) = s.epoch ∧ s.pair.probing = true ∧ 0 ∈ s.pair.probes ∧ s.pair.degraded = false) ∧
    (∀ resent, let m : Await := { src := 0xA100, dst := 3, seq := 9, msg := .probe 3, resent := resent }
     ({ ready with await := [m] }).await.find? (fun m => m.src == 0xA100 && m.dst == 3 && m.seq == 9) = some m ∧ (∀ k, m.msg ≠ .fwCode k) ∧
       (∀ k n, m.msg ≠ .modelImage k n) ∧ ∀ k p, m.msg ≠ .modelSwitch k p) ∧
    (∀ x ∈ [Msg.modelImage 1 0, .modelSwitch 1 4],
      let s := ({ ready with await := [{ src := 0xB000, dst := 0xA001, seq := 9, msg := x, resent := true }] }).modHub (fun h => { h with
        loads := [{ cmd := (0, 7), mask := 3, image := [], started := true }] })
      (s.await.find? (fun m => m.dst == 0xA001 && m.seq == 9)).map Await.resent = some true ∧ (s.loadOf 1).isSome = true) ∧
    (let s := ({ ready with await := [{ src := 0xB000, dst := 0xA001, seq := 9, msg := .fwCode 1, resent := true }] }).modHub (fun h => { h with
        fw := { h.fw with stageCmd := some (0, 7) } })
     (s.await.find? (fun m => m.dst == 0xA001 && m.seq == 9)).map Await.resent = some true ∧ s.hub.fw.stageCmd = some (0, 7)) := by
  refine ⟨?_, ?_, ?_, ?_, ?_, ?_, ?_, ?_, ?_, ?_, ?_, ?_, ?_, fun resent => ⟨rfl, fun k h => (by cases h), fun k n h => (by cases h),
    fun k p h => (by cases h)⟩, ?_, ?_⟩
  all_goals decide +kernel

def load1 : ModelLoad := { cmd := (0, 7), mask := 3, image := [], started := true }
theorem witness_CapAndModelMessagesAct :
    Accepted ready 0 0x40 (good 0) ∧
    (let s := ready.modBudget (fun b => { b with lowering := [(0, 5, 4)] })
     Heard s 0x41 (good 1) ∧ (∀ p ∈ s.hub.budget.lowering, p.1 = 0) ∧ s.hub.ecap.active = false ∧ (s.gov 9).safe = false ∧
       s.inControl = true ∧ s.loopRuns = true ∧ (∃ p ∈ s.hub.budget.lowering, p.1 = 0 ∧ 4 ≤ p.2.2) ∧
       (∃ p ∈ s.hub.budget.lowering, p.1 = 0 ∧ p.2.1 < 6) ∧ ∀ p ∈ s.hub.budget.lowering, p.1 = 0 → 5 ≤ p.2.1 → p.2.1 ≤ 5) ∧
    (0 ∈ pmbusCorners ∧ 0 ∉ ready.hub.budget.mute) ∧ (sealed 0xFFFF 0).goodTo true = true ∧ ready.period.toNat < (1 : BitVec 48).toNat ∧
    (good 0).good = true ∧ Accepted ready 0 0x20 (good 0) ∧ Accepted ready 0 0x22 (good 0) ∧
    (∀ l ∈ [load1, { load1 with reports := [1] }, { load1 with resent := [0] }, { load1 with switchP := some 4 },
        { load1 with switchP := some 4, acks := [1] }],
      let s := ready.modHub (fun h => { h with loads := [l] })
      s.loadOf 0 = some l ∧ s.hub.loads = [l] ∧ Heard s 0x21 (good 1) ∧ Heard s 0x23 (good 1) ∧ 0 ∉ l.reports ∧ 0 ∉ l.acks) ∧
    load1.switchP = none ∧ onesOf 64 load1.mask.toNat = [0, 1] := by
  unfold Accepted Heard
  refine ⟨?_, ?_, ?_, ?_, ?_, ?_, ?_, ?_, ?_, ?_, ?_⟩
  case refine_9 =>
    intro l hl
    simp only [List.mem_cons, List.not_mem_nil, or_false] at hl
    rcases hl with rfl | rfl | rfl | rfl | rfl <;> decide +kernel
  all_goals decide +kernel

theorem governors_not_safe : ∀ k, (ready.gov k).safe = false := fun _ => rfl

theorem witness_PairChangesAndHandovers :
    ((beside .valid id).hubOf .a).role = .valid ∧ (paired.hubOf .a).role = .owner ∧ paired.pair.paired = true ∧
    (let s := beside .valid (fun u => { u with silentHb := 21 })
     (s.hubOf .a).role = .valid ∧ 20 < (s.hubOf .a).silentHb ∧ s.cfgBit 0x2000 0 = true ∧ s.owner ≠ some .a) ∧
    (let s := beside .resyncing (fun u => { u with silentHb := 21 })
     (s.hubOf .a).role = .resyncing ∧ 20 < (s.hubOf .a).silentHb ∧ s.owner ≠ some .a ∧ (s.hubOf .a).fatalSaid = false) ∧
    (let s := { paired with hubA := { owning with silentHb := 41, silentMir := 9 } }
     s.owner = some .a ∧ s.staleOwner = none ∧ 40 < (s.hubOf .a).silentHb ∧ s.pair.probing = false ∧
       (s.hubOf .a).silentMgmt ≤ 1 ∧ (s.hubOf .a).role = .owner ∧ 8 < (s.hubOf .a).silentMir) ∧
    (let s := beside .valid (fun u => { u with silentMir := 5 })
     (s.hubOf .a).silentMgmt ≤ 1 ∧ (s.hubOf .a).role = .valid ∧ 4 < (s.hubOf .a).silentMir) ∧
    (let s := { paired with pair := { paired.pair with handStep := 2, jn := 5, acked := 5 } }
     s.owner = some .a ∧ s.pair.handStep = 2 ∧ s.pair.acked = s.pair.jn) ∧
    ((beside .yielding id).hubOf .a).role = .yielding ∧ epochHigher 2 ((beside .yielding id).hubOf .a).epoch = true ∧
    (let s := beside .resyncing id
     s.standby = some .a ∧ (s.hubOf .a).role = .resyncing ∧ s.pair.linkUp = true ∧ s.pair.sweepLeft = 0) ∧
    (let s := { beside .valid id with pair := { ready.pair with blocks := [(3, 1, 2), (9, 5, 6)] } }
     s.pair.linkUp = true ∧ s.pair.blocks.find? (fun b => b.1 == 3) = some (3, 1, 2) ∧ 1 ≤ (s.hubOf .a).rxGood + 1 ∧ (s.hubOf .a).rxGood < 2 ∧
       s.pair.blocks.find? (fun b => b.1 == 9) = some (9, 5, 6) ∧ (s.hubOf .a).rxGood + 1 < 5 ∧ s.pair.blocks.find? (fun b => b.1 == 4) = none) ∧
    ({ ready with pair := { ready.pair with lanes := 1 } }).pair.linkUp = false ∧
    paired.validStandby.isSome = true ∧ paired.pair.handStep = 0 ∧ ready.validStandby = none ∧ ready.pow.regOpen = true := by
  decide +kernel

/-- Group 3 of region 0's clusters 0 and 1, with its home. -/
def grouped (h : Home) : State :=
  { (ready.modGroups (fun x => { x with defs := [(3, { flags := 0, lead := 2, key := 0, regions := [0], counts := [(0, 2)], home := 0, defined := true })] })).modRegion 0
      (fun g => { g with slots := [{ gid := 3, members := [0, 1], reps := [1] }] }) with homes := [(3, h)] }
def joined (s : State) : State := s.modCluster 0 (fun u => { u with core := { u.core with state := .running }, ctl := { u.ctl with group := some 3 }, armed := some (32, 5) })
theorem witness_GroupMessagesAct :
    (Accepted ready 0 0x10 (good 0) ∧ (ready.region 0).slot 3 = none ∧ (ready.region 0).slots.length < 64 ∧ Accepted ready 0 0x17 (good 0)) ∧
    (let s := ready.modRegion 0 (fun g => { g with slots := (List.range 64).map (fun k => { gid := 100 + k, members := [] }) })
     (s.region 0).slot 3 = none ∧ (s.region 0).slots.length = 64) ∧
    (let s := grouped {}
     Accepted s 0 0x10 (good 0) ∧ PeerAccepted s 0 0x12 (good 0) ∧ ((s.region 0).slot 3).isSome = true ∧ (s.group 3).isSome = true ∧
       3 ∈ s.homes.map Prod.fst ∧ PeerAccepted s 0 0x13 (good 0) ∧ PeerAccepted s 0 0x14 (good 0)) ∧
    (let s := grouped { sumFrom := [0], okRun := 15 }
     PeerAccepted s 0 0x16 (good 0) ∧ (s.home 3).sumFrom ≠ [] ∧ (∀ g, s.group 3 = some g → g.regions.length = 1) ∧
       s.cfg 0x8000 12 4 ≤ (s.home 3).okRun + 1) ∧
    (let s := grouped { sumFrom := [0] }
     (s.home 3).okRun + 1 < s.cfg 0x8000 12 4) ∧
    (let s := grouped { g := 32, raiseRun := 127 }
     (s.home 3).armed = none ∧ (s.group 3).map (fun g => decide ((s.home 3).g < (s.home 3).need g) && !s.armsStop g) = some true ∧
       (s.home 3).relayDue = none ∧
       s.cfg 0x8000 24 7 ≤ (s.home 3).raiseRun) ∧
    (let s := joined (grouped {})
     (s.cluster 0).ctl.group = some 3 ∧ PeerAccepted s 0 0x15 (good 0) ∧ (s.cluster 0).core.state = .running ∧ (s.cluster 0).gcClosed = false ∧
       (s.region 0).slot 3 = some { gid := 3, members := [0, 1], reps := [1] } ∧ (s.cluster 0).armed = some (32, 5) ∧
       stepJump (s.cluster 0).tap.step 0xFFFFFFFF = true ∧ stepJump (s.cluster 0).tap.step 5 = false ∧ reached 5 5 = true) ∧
    (let s := joined (grouped {})
     stepJump (s.cluster 0).tap.step 1 = false ∧ reached 1 5 = false) := by
  unfold Accepted PeerAccepted
  refine ⟨?_, ?_, ?_, ⟨?_, ?_, ?_, ?_⟩, ?_, ?_, ?_, ?_⟩
  case refine_6 =>
    intro g hg
    have h : (grouped { sumFrom := [0], okRun := 15 }).group 3 = some
      { flags := 0, lead := 2, key := 0, regions := [0], counts := [(0, 2)], home := 0, defined := true } := by decide +kernel
    rw [h] at hg; cases hg; rfl
  all_goals decide +kernel

/-- `ready` with region 0 as `f` says. -/
def rready (f : Region → Region) : State := ready.modRegion 0 f
def clocked : State := ready.modGovs (fun g => { g with engine := true })
def forecast1 : Forecast := { lat := 14, linUA := List.replicate 24 1000000, maxUA := List.replicate 24 9000000, learned := none }

theorem witness_ForecastsAndPreRaises :
    ((rready (fun g => { g with sage := { g.sage with inFlight := some forecast1 } })).region 0).sage.inFlight = some forecast1 ∧
    forecast1.learned = none ∧
    (let s := rready (fun g => { g with spec := { g.spec with state := .standing, s := 9 } })
     (s.region 0).spec.state = .standing ∧ (s.region 0).spec.toTake = 0 ∧ (s.region 0).spec.toJudge = 0 ∧
       (s.region 0).sp.busy = none ∧ (s.region 0).sp.wantRates = false) ∧
    (let s := rready (fun g => { g with spec := { g.spec with state := .standing, withdraw := true, toTake := 1 } })
     (s.region 0).spec.state = .standing ∧ (s.region 0).spec.withdraw = true) ∧
    (let s := rready (fun g => { g with spec := { g.spec with state := .demoted } })
     (s.region 0).spec.state = .demoted ∧ (s.region 0).spec.demoteLeft = 0) ∧
    (((rready (fun g => { g with gridEnd := some (8, 4) })).region 0).gridEnd = some (8, 4) ∧ (ready.region 0).gridEnd = none) ∧
    (let s := rready (fun g => { g with trust := { g.trust with periods := 1024, learned := 1024 }, sage := { g.sage with model := .active, counted := 512 } })
     1024 ≤ (s.region 0).trust.periods ∧ (s.region 0).trust.learned = (s.region 0).trust.periods ∧ (s.region 0).sage.model = .active ∧ s.cfg (offSage 0) 0 2 = 1 ∧
       512 ≤ (s.region 0).sage.counted ∧ (s.region 0).sage.badPub ≤ (s.region 0).sage.counted / 20) ∧
    (let s := rready (fun g => { g with trust := { g.trust with periods := 1024 } })
     1024 ≤ (s.region 0).trust.periods ∧ (s.region 0).sage.model ≠ .active) := by
  decide +kernel

theorem witness_SensorsAreRead :
    (let x : Sample := ⟨3000, 3000, 10, 700, true⟩
     let s := rready (fun g => { g with
       dig := { g.dig with taken := [x] }, sp := { g.sp with vc := 700 }, spec := { g.spec with state := .standing, s := 10, base := 1000, rise := 1000 } })
     (s.region 0).dig.taken = [x] ∧ (s.region 0).spec.state = .standing ∧ x.window = true ∧ (s.region 0).spec.noConfirm = false ∧
       (s.region 0).spec.base + ceilDiv (s.region 0).spec.rise 2 ≤
         x.raw * (s.region 0).sp.vc / ((s.region 0).sp.vc + (s.region 0).spec.s)) ∧
    (Status.stale ≠ .valid ∧ (ready.gov 0).rsupply.held &&& 64 = 0) ∧
    (let s := rready (fun g => { g with
       dig := { g.dig with latest := 4095, nextPhase := 3, phCur := List.replicate 24 100, lowRun := List.replicate 24 3 } })
     (s.region 0).dig.nextPhase < 24 ∧ (s.region 0).dig.phCur.length = 24 ∧ (s.region 0).dig.lowRun.length = 24 ∧
       (s.region 0).dig.phWait = 0 ∧ (s.region 0).ph.rating < 10 * (s.region 0).dig.latest ∧ 3 ∈ (s.region 0).ph.good ∧
       4 * 0 * (s.region 0).ph.good.length < ((s.region 0).ph.good.map (fun i => ((s.region 0).dig.phCur.set 3 0).getD i 0)).sum ∧
       (s.region 0).dig.lowRun.getD 3 0 = 3 ∧ 3 ∉ (s.region 0).ph.failed ∧ 3 ∉ (s.region 0).ph.derateDue ∧
       0 < (s.region 0).ph.sparesFree) ∧
    (let s := rready (fun g => { g with sp := { g.sp with raising := some 700 } })
     (s.region 0).sp.raising = some 700 ∧ (s.region 0).sp.busy = none ∧ (s.region 0).vmonWait = 0) ∧
    (let s := rready (fun g => { g with vmons := ⟨{ mv := 700, status := .valid, goodRun := 2 }, []⟩ })
     (s.region 0).badMonitors < 5 ∧ (s.region 0).lowestMv = some 700) ∧
    ((ready.modCluster 0 (fun u => { u with tp := { u.tp with windows := 65535 } })).cluster 0).tp.windows = 65535 ∧
    (let s := rready (fun g => { g with sp := { g.sp with busy := some (.committed 700) } })
     (s.region 0).sp.busy = some (.committed 700) ∧ (s.region 0).sp.wantRates = false ∧ (s.region 0).sp.wantVc = false ∧
       (s.region 0).sp.wantSpec = false ∧ (s.region 0).sp.attempts = 0) ∧
    (∀ f ∈ [Frame.speculative 710, .rates 5 5], ((rready (fun g => { g with sp := { g.sp with busy := some f } })).region 0).sp.busy = some f) ∧
    ((rready (fun g => { g with sp := { g.sp with busy := some (.committed 700), attempts := 1 } })).region 0).sp.attempts ≠ 0 := by
  decide +kernel

def word1 : Word := settingWord ⟨3, 5, 31, 0, 40, 3, false⟩
theorem witness_LimitersFollowWordsAndForces :
    (clocked.gov (regionOf 0)).engine = true ∧ clocked.tripForce 0 = false ∧
    (let s := clocked.modRegion 0 (fun g => { g with therm := { g.therm with latch := true } })
     s.tripForce 0 = true) ∧
    clocked.safeForce 0 = false ∧ (clocked.modGov 0 (fun g => { g with safe := true })).safeForce 0 = true ∧
    clocked.droopAt 0 = false ∧
    (let l := (clocked.cluster 0).limiters.get 0
     l.hold = false ∧ l.err = false ∧ (0xFFFF : BitVec 16) ≠ 0 ∧ l.e ≤ 64 ∧ l.t ≤ 64 ∧ 0 < clocked.cfg (offAct 0 0) 20 8) ∧
    (let s := clocked.modCluster 0 (fun u => { u with limiters := u.limiters.modify 0 (fun l => { l with idleSteps := 255 }) })
     s.cfg (offAct 0 0) 20 8 ≤ ((s.cluster 0).limiters.get 0).idleSteps) ∧
    badWord word1 = false ∧ (settingOf word1).kind = 0 ∧ badWord (word1 ^^^ 1) = true ∧
    (∀ x ∈ [(⟨0, 0, 0, 0, 64, 7, false⟩ : SettingWord), ⟨0, 0, 0, 1, 0, 3, false⟩, ⟨1, 23, 0, 2, 8, 0, false⟩, ⟨3, 575, 31, 3, 0, 0, true⟩],
      badWord (settingWord x) = false ∧ (0 : Fin 576) ∈ [0, 575]) ∧ (clocked.gov 0).engine = true ∧
    (∀ x ∈ [(⟨0, 0, 0, 1, 0, 3, false⟩ : SettingWord), ⟨1, 23, 0, 2, 8, 0, false⟩, ⟨2, 575, 0, 3, 0, 0, true⟩],
      badWord (settingWord x) = false ∧ settingOf (settingWord x) = x) ∧
    bitOf (clocked.cluster 5).ctl.heldCores.toNat 31 = false := by
  decide +kernel

theorem witness_DillAndTicksAct :
    (clocked.cluster 700).ctl.spared = false ∧ (clocked.gov (regionOf 700)).engine = true ∧
    (clocked.cluster 700).dill.sweeping = false ∧ neighbour 700 4 = some 724 ∧
    bitOf (clocked.cluster 724).droopMask.toNat (opposite 4) = false ∧
    0 < ((clocked.modCluster 0 (fun u => { u with dill := { u.dill with warnCnt := 1 } })).region 0).clusters.sumRange (24 * 0) (24 * 0 + 24)
      (fun u => if u.ctl.spared then 0 else u.dill.warnCnt) ∧
    (let s := clocked.modRegion 1 (fun g => { g with spec := { g.spec with state := .standing } })
     (s.region (regionOf 700)).spec.state = .standing) := by
  decide +kernel

/-- The loops run. -/
theorem witness_HeatIsKeptInBounds :
    ready.loopRuns = true ∧ (ready.region 0).therm.latch = false ∧
    (∀ n ∈ [3, 15], ∀ ch ∈ [Child.stack 3, .optic 31], let s := ready.modBudget (fun b => { b with unack := b.unack.modify (childNo ch) (fun _ => n) })
     s.inControl = true ∧ s.hub.budget.unack.get (childNo ch) = n) ∧
    (([none, some ⟨0, 0, 0⟩] : List (Option ArrayRead)).getD 0 none = none ∧
      ([none, some ⟨0, 0, 0⟩] : List (Option ArrayRead)).getD 1 none = some ⟨0, 0, 0⟩) ∧
    (ready.gov 0).rtherm.held &&& 2 = 0 ∧
    ((rready (fun g => { g with therm := { g.therm with latch := true } })).region 0).therm.latch = true ∧
    (ready.region 0).caps.alert = false ∧ (ready.gov 0).rsupply.held &&& 4 = 0 ∧ (clocked.gov 0).engine = true ∧
    ((rready (fun g => { g with caps := { g.caps with alert := true } })).region 0).caps.alert = true := by
  decide +kernel

theorem witness_PhasesAndMarginsMove :
    (let p := (ready.region 0).ph
     p.active &&& p.healthy &&& phaseBitOf 3 ≠ 0 ∧ 3 ∉ p.failed ∧ 3 ∉ p.derateDue ∧ 0 < p.sparesFree) ∧
    (let s := rready (fun g => { g with ph := { g.ph with failed := [3], swap := true } })
     s.inControl = true ∧ (s.region 0).ph.lowestSpare = some 22 ∧ 3 ∈ (s.region 0).ph.failed) ∧
    (∀ bad, let s := rready (fun g => { g with ph := { g.ph with watch := some (3, 0, bad) } })
     (s.region 0).ph.watch = some (3, 0, bad) ∧ s.inControl = true) ∧
    (let s := (rready (fun g => { g with clusters := ⟨{ ageStatus := .valid }, []⟩ })).modAgeing (fun a => { a with evalRun := 255 })
     s.loopRuns = true ∧ s.cfg 0x6000 8 8 ≤ s.hub.ageing.evalRun) ∧
    (clocked.loopRuns = true ∧ clocked.enginesRun = true ∧
      (clocked.modAgeing (fun a => { a with poweredS := 86400, nextAt := 86400 })).hub.ageing.nextAt ≤ 86400) ∧
    ((ready.region 0).sp.trim ≤ ready.cfg 0x6000 24 7) ∧
    Accepted ready (cornerOf 9) 0x70 (good 0) := by
  unfold Accepted
  refine ⟨?_, ?_, fun bad => ⟨rfl, rfl⟩, ?_, ?_, ?_, ?_⟩ <;> decide +kernel

/-- Core `k` of hub A as `f` says. -/
def cored (k : Nat) (f : HubCore → HubCore) (s : State) : State := s.modCore .a k f
def act2 : Activation := { cmd := (0, 7), target := 2, deadline := 0 }
def acting (a : Activation) (s : State) : State := s.modHub (fun h => { h with fw := { h.fw with act := some a } })

theorem witness_CoresRestartAndActivationsEnd :
    (ready.coreAt .a 2).state = .running ∧ ready.hub.fw.act = none ∧
    (let s := ready.modCluster 700 (fun u => { u with core := { u.core with state := .running } })
     (s.cluster 700).core.state = .running ∧ (s.cluster 700).gcClosed = false ∧ (s.cluster 700).ctl.spared = false) ∧
    ((cored 1 (fun c => { c with state := .restarting }) ready).coreAt .a 1).state = .restarting ∧
    (∀ due, ((ready.modCluster 700 (fun u => { u with core := { u.core with state := .restarting, due := due } })).cluster 700).core.state = .restarting ∧
      ((ready.modCluster 700 (fun u => { u with core := { u.core with state := .restarting, due := due } })).cluster 700).core.due = due) ∧
    (let s := acting { act2 with deferred := true } ready
     s.hub.fw.act = some { act2 with deferred := true } ∧ s.inControl = true ∧ s.actCause = 0 ∧ s.targetHalted 2 = false ∧
       (s.coreAt .a 2).state = .running ∧ 1000 * act2.deadline ≤ (s.period - act2.since).toNat) ∧
    (let a : Activation := { act2 with step := 3, drained := 1000 }
     let s := acting a (cored 2 (fun c => { c with state := .held, bank1 := some ⟨2, 1, 1, 1, []⟩ }) ready)
     s.hub.fw.act = some a ∧ s.inControl = true ∧ s.safeNow = false ∧ s.actCause = 0 ∧ s.targetHalted 2 = false ∧
       s.validStandby = none ∧ (s.coreAt .a 2).state = .held ∧ (s.coreAt .a 2).stagedImage.isSome = true ∧
       (recentWith (s.period.toNat / 100) (s.coreAt .a 2).recent).length ≤ s.cfg 0x3000 16 4) ∧
    (let s := acting { act2 with step := 3, drained := 1000 } (ready.modGov 5 (fun g => { g with safe := true }))
     s.safeNow = true) := by
  decide +kernel

def event1 : Event := { src := 198, cause := 0 }
def rec1 : Rec := ⟨0, 1, 0x10, 3, 0, 0, 0, 0, 0⟩
theorem witness_FaultsAreCollectedAndRecorded :
    (let s := { ready with events := [event1] }
     s.nextEvent = some event1 ∧ s.collOn .a = true ∧ (s.coll .a).frozen = false ∧ event1.forced = false ∧
       ((s.coll .a).source 198).broken = false ∧ ((s.coll .a).source 198).pend = false) ∧
    (let s := { ready with events := [{ src := 128, cause := 1 }, { src := 128, cause := 8 }] }
     s.nextEvent = some { src := 128, cause := 1 } ∧ s.joined { src := 128, cause := 1 } = [{ src := 128, cause := 8 }]) ∧
    (let s := { ready.modColl .a (fun c => { c with sources := c.sources.modify 198 (fun x => { x with pend := true }) }) with events := [event1] }
     ((s.coll .a).source 198).pend = true) ∧
    (let s := { ready with latches := [(5, 1)] }
     (5, 1) ∈ s.latches ∧ s.collOn .a = true) ∧
    (ready.modColl .a (fun c => { c with start := false })).collOn .a = true ∧
    ((ready.modColl .a (fun c => { c with start := false })).coll .a).mode = 0 ∧
    ((ready.modColl .a (fun c => { c with start := false, frozen := true })).coll .a).mode = 4 ∧
    ((ready.modColl .a (fun c => { c with start := false, test := true })).coll .a).mode ≠ 0 ∧
    ((ready.modColl .a (fun c => { c with start := false, test := true })).coll .a).mode ≠ 4 ∧
    ((ready.modColl .a (fun c => { c with crst := true })).coll .a).crst = true ∧
    (let s := ready.modRecorder (fun q => { q with queue := [rec1] })
     s.hub.recorder.queue = [rec1] ∧ s.hub.recorder.held = [] ∧ s.hub.recorder.fwWait = [] ∧ s.hub.recorder.openRec = false) ∧
    (let s := ready.modRecorder (fun q => { q with queue := [rec1], recs := [rec1], openRec := true, sinceRep := 4 })
     s.hub.recorder.openRec = true ∧ s.hub.recorder.recs.getLast? = some rec1 ∧ rec1.same rec1 = true ∧
       4 ≤ s.hub.recorder.sinceRep) := by
  decide +kernel

def clk (c : Clocks) : State := { ready with clk := c }
theorem witness_ClockLoopFollowsReference :
    ready.clk.st = .locked ∧ (clk { st := .glideDown, refLost := true }).clk.st = .glideDown ∧
    (let s := { clk { st := .coast, refLost := true } with setup := { ready.setup with words := [(0x1000, 1)] } }
     s.owner.isSome = true ∧ s.cfgBit 0x1000 0 = true ∧ s.clk.refLost = true ∧ s.clk.st = .coast ∧ s.clk.fbRun = false ∧ s.clk.fbBarred = false ∧
       s.clk.marked = none) ∧
    (let s := clk { st := .coast, refLost := true, fbRun := true }
     s.clk.st = .coast ∧ s.clk.fbRun = true ∧ s.clk.acquire = none ∧ s.clk.marked = none ∧ s.owner = some .a ∧
       ¬ ((s.hubOf .a).start.step = 2 ∧ (s.hubOf .a).start.path = true ∧ (s.hubOf .a).start.ended = false)) ∧
    (clk { st := .coast, refLost := true, fbRun := true, acquire := some .fallback }).clk.acquire = some .fallback ∧
    (clk { st := .coast, refLost := true, fbRun := true, marked := some .fallback }).clk.marked = some .fallback ∧
    (clk { st := .fallback, refLost := true, fbRun := true, marked := some .reference }).clk.marked = some .reference ∧
    (clk { st := .glideUp, refLost := true }).clk.st = .glideUp := by
  decide +kernel

def starting (x : Start) : State := { State.reset with hubA := { State.reset.hubA with start := x }, hubB := { State.reset.hubB with start := x } }
theorem witness_StartSequenceAdvances :
    (let s := { State.reset with pow := { State.reset.pow with ioUp := true, anaUp := true, coreUp := false } }
     s.pow.ioUp = true ∧ s.pow.anaUp = true ∧ s.pow.coreUp = false ∧ s.report.detours.wf = true) ∧
    ((starting { step := 1 }).hubOf .b).start.step = 1 ∧
    (∀ fb, let s := starting { step := 2, path := fb }
     (s.hubOf .a).start.step = 2 ∧ (s.hubOf .a).start.ended = false ∧ s.pow.rstLow = false ∧ s.pow.gateSpent = false ∧
       (s.hubOf .a).start.path = fb ∧ s.clk.st = .stopped) ∧
    (let s := { starting { step := 5 } with pow := { State.reset.pow with gateSet := true } }
     s.pow.gateSet = true ∧ s.pow.gateSpent = false ∧ (s.hubOf .a).start.step = 5) ∧
    (let s := { starting { step := 7 } with hubA := { State.reset.hubA with start := { step := 5 } }, period := 2000 }
     7 ≤ s.hubB.start.step ∧ s.hubB.start.ended = false ∧ s.owner = none ∧ s.hubA.start.step < 8 ∧ s.pow.rstLow = false ∧
       s.hubB.start.since + 2000 ≤ s.period.toNat) := by
  decide +kernel

def railed (p : Power) : State := { ready with pow := p }
theorem witness_RailsAndResetsClear :
    ready.pow.coreUp = true ∧ ready.pow.anaUp = true ∧ ready.pow.ioUp = true ∧
    (let s := railed { ready.pow with anaUp := false }
     s.pow.railUp .ana = false ∧ s.pow.brownOut = false) ∧
    (let s := railed { ready.pow with anaUp := false, brownOut := true }
     s.pow.railUp .ana = false ∧ s.pow.brownOut = true ∧ (s.pow.setRail .ana true).ioUp = true ∧
       (s.pow.setRail .ana true).anaUp = true ∧ (s.pow.setRail .ana true).coreUp = true ∧ s.clk.st ≠ .stopped) ∧
    State.reset.started = false ∧ ready.started = true ∧ ready.pow.rstLow = false ∧ (railed { ready.pow with rstLow := true }).pow.rstLow = true ∧ ready.pow.regOpen = true ∧
    ready.clk.st ≠ .stopped ∧ (0 : Byte) ≠ 0xA5 ∧
    (let d : DefectReport := { detours := ⟨0, [(0, 64), (63, 65)]⟩, govDetours := ⟨0, [(4095, 65)]⟩, chiveDetours := ⟨0, [(36863, 17)]⟩ }
     d.detours.wf = true ∧ d.govDetours.wf = true ∧ d.chiveDetours.wf = true ∧ 64 < d.detours.get 63 ∧ ¬ 64 < d.detours.get 0) := by
  decide +kernel

def granting (f : Debug → Debug) (s : State) : State := s.modHubOf .a (fun u => { u with dbg := f u.dbg })
def cert1 : DbgCert :=
  { keyIdx := 0, key := [], signature := [], scope := 0x3F, hub := .a, waferId := Config.waferId, challenge := [5] }

/-- Where the fuses hold the key that signed the certificate. -/
theorem witness_DebugPortAnswers :
    ready.tapUp = true ∧ ready.dbgClocked .a = true ∧ ready.canAuth .a = true ∧ ready.cfgBit 0x4000 0 = true ∧
    ({ ready with setup := { ready.setup with words := [(0x4000, 0)] } }).cfgBit 0x4000 0 = false ∧
    (Config.signatureGood 0 ([] ++ certBytes cert1) [] = true → bitOf Config.keyRevoke.toNat 0 = false →
      Config.keyDigestGood 0 [] = true →
      certReason (granting (fun d => { d with challenge := some [5] }) ready) .a cert1 = none) ∧
    ((granting (fun d => { d with pendOp := some 1 }) ready).dbg .a).pendOp = some 1 := by
  refine ⟨by decide +kernel, by decide +kernel, by decide +kernel, by decide +kernel, by decide +kernel, ?_, by decide +kernel⟩
  intro h1 h2 h3
  have h2' : ¬ (bitOf Config.keyRevoke.toNat cert1.keyIdx = true ∨ Config.keyDigestGood cert1.keyIdx cert1.key = false) := by
    intro h
    rcases h with h | h
    · exact absurd (h2.symm.trans h) (by decide)
    · exact absurd (h3.symm.trans h) (by decide)
  unfold certReason
  rw [if_neg (by rw [show cert1.key = [] from rfl, show cert1.signature = [] from rfl, show (cert1.keyIdx : Fin 4) = 0 from rfl]
                 intro h; exact absurd (h1.symm.trans h) (by decide)),
    if_neg h2', if_neg (by intro h; rcases h with h | h <;> exact h rfl), if_neg (by decide +kernel), if_neg (by decide +kernel)]

def dop (unit : Fin 8) (cluster : Nat) (addr : Word) : DbgOp := ⟨unit, cluster, addr, 0, false, none⟩

/-- The debug port of hub A has the whole scope. -/
def fullScope (s : State) : State := granting (fun d => { d with scope := 0x3F }) s
theorem witness_DebugOperationsAct :
    (OnHubCore (fullScope ready) .a (dop 1 0 0) 1 ∧ (fullScope ready).scopeBit .a 0 1 = true ∧ ((fullScope ready).coreAt .a 1).state = .running) ∧
    (let s := fullScope (cored 1 (fun c => { c with state := .halted, seen := [0], regs := [(0, 5)] }) ready)
     OnHubCore s .a (dop 1 0 0) 1 ∧ (s.coreAt .a 1).state = .halted ∧ s.scopeBit .a 2 1 = true ∧ (s.coreAt .a 1).regs = [(0, 5)] ∧
       0 ∈ (s.coreAt .a 1).seen) ∧
    ((0 : Nat) < bankSize 1 ∧ (0x10000000 : Word).toNat % 4 = 0 ∧ dataWord 1 (0x10000000 : Word).toNat = some 0 ∧
      dataWord 1 (0x1003FFFC : Word).toNat = some 65535 ∧ (fullScope ready).scopeBit .a 1 1 = true) ∧
    (OnHubCore ready .a (dop 1 0 0) 1 ∧ ready.scopeBit .a 0 1 = false) ∧
    (let s := cored 1 (fun c => { c with breakpts := [(3, 64, .a)] }) ready
     (s.coreAt .a 1).state = .running ∧ ∃ n ∈ List.range 4, (s.coreAt .a 1).breakpts = [(n, 64, .a)]) ∧
    (let w : WordErr := ⟨1, 1, 1⟩
     readFound (fullScope ready).fresh ⟨1, ⟨[], 0⟩, true⟩ = none ∧ readFound (fullScope ready).fresh ⟨1, ⟨[w], 0⟩, true⟩ = some true ∧
       readSound (fullScope ready).fresh ⟨1, ⟨[w], 0⟩, true⟩ = true ∧
       readFound (fullScope ready).fresh ⟨1, ⟨[⟨1, 2, 4⟩, ⟨2, 2, 4⟩, ⟨3, 2, 4⟩, ⟨4, 2, 4⟩, ⟨5, 2, 4⟩], 0⟩, false⟩ = some false) ∧
    (DebugReady (fullScope ready) .a (dop 4 0 0) ∧ (recorderWord ((fullScope ready).imageOfHub .a).recorder 0).isSome = true) ∧
    (DebugReady (fullScope ready) .a (dop 4 0 0x40000) ∧ (fullScope ready).scopeBit .a 3 0 = true ∧
      (recorderWord ((fullScope ready).imageOfHub .a).recorder 0x40000).isSome = true) ∧
    (DebugReady (fullScope ready) .a (dop 5 0 4) ∧ (fullScope ready).pow.regOpen = true ∧ (fullScope ready).scopeBit .a 4 0 = true) ∧
    (let s := (fullScope ready).modCluster 700 (fun u => { u with core := { u.core with state := .running } })
     DebugReady s .a (dop 3 700 0) ∧ (s.cluster 700).ctl.spared = false ∧ s.owner = some .a ∧ s.scopeBit .a 0 3 = true ∧
       s.hub.fw.act = none ∧ (s.cluster 700).core.state = .running) := by
  unfold OnHubCore DebugReady
  refine ⟨?_, ?_, ?_, ?_, ⟨?_, 3, ?_⟩, ?_, ?_, ?_, ?_, ?_⟩ <;> decide +kernel

def shadow1 : Shadow := ⟨0x100000, 5, 0xFFFFFFFF, some 5, false⟩
theorem witness_BoundaryCountsAndShadowsArrive :
    (clk {}).clk.st = .stopped ∧ ready.clk.st ≠ .stopped ∧ (railed { ready.pow with rstLow := true }).pow.rstLow = true ∧
    ready.pow.rstLow = false ∧
    (let s := ready.modSetup (fun u => { u with shadows := [shadow1] })
     Accepted s 0 0x30 (good 0) ∧ s.period.toNat < (5 : BitVec 48).toNat) ∧
    (let s := { ready.modSetup (fun u => { u with shadows := [shadow1] }) with period := 5 }
     (5 : BitVec 48).toNat ≤ s.period.toNat ∧ s.setup.shadows.any (fun x => inRegionBlock x.offset && (x.offset - 0x100000) / 0x1000 == 0 &&
        x.due == some (5 : BitVec 48).toNat && !x.sent && [((0x100000 : Nat), (5 : Word))].any (fun w => w.1 == x.offset && w.2 == x.word)) = true) := by
  unfold Accepted
  decide +kernel

/-! ### Further clauses of the statements above -/

theorem witness_GrantReleased_pair :
    (∀ p ∈ [ready, paired], let s := granted (fun g => { g with state := .inForce }) (taking opGrantRelease 1 relEntry [] p)
     s.firstTaken opGrantRelease (fun _ => true) = some (hand opGrantRelease 1 relEntry []) ∧ s.pair.acked ≤ s.pair.jn ∧ s.inControl = true) ∧
    paired.pair.paired = true ∧ ready.pair.paired = false := by
  decide +kernel

theorem witness_TreeWordsAndMarkersAct_root :
    (tree true).root = (ready.gov 0).root ∧ (tree false).root = (ready.gov 63).root := by
  decide

theorem witness_StageFillsStagedBank_copies :
    (let s := ready.modHub (fun h => { h with fw := { h.fw with stageCmd := some (0, 7), stageWait := [5] } })
     s.hub.fw.stageBad = false ∧ s.secHalted = false ∧ s.hub.fw.stageWait = [5]) := by
  decide +kernel

/-- The owner's collector is frozen. -/
def frozenColl : State := ready.modColl .a (fun c => { c with frozen := true })
theorem witness_ShadowsAndHeldInstances_frozen :
    (regDef (offFc 198)).map frozenColl.fcFrozen = some true ∧ (regDef (offFc 198)).map ready.fcFrozen = some false ∧
    frozenColl.pow.regOpen = true ∧ offFc 198 % 4 = 0 ∧ frozenColl.inControl = true ∧ (regDef 0x1000).map frozenColl.fcFrozen = some false := by
  decide +kernel

theorem witness_EmergencyCapFollowsSources_pins :
    ready.ecapSensed .a = true ∧ ({ ready with hubB := owning }).ecapSensed .b = true ∧
    ({ ready.hub.ecap with pinA := true }).any = true ∧ ({ ready.hub.ecap with pinB := true }).any = true := by
  decide +kernel

theorem witness_MulticastsAndServiceOfClusters_stalls :
    (let s := ready.modCluster 700 (fun u => { u with tap := { u.tap with suspTicks := 0x3FFF } })
     Heard s 0x50 (good 1) ∧ (s.cluster 700).tap.suspect = false) ∧
    (let s := (ready.modCluster 700 (fun u => { u with tap := { u.tap with suspect := true, clearDue := true } })).modHub
       (fun h => { h with stalls := [700] })
     Heard s 0x51 (good 1) ∧ (s.cluster 700).tap.suspect = true) := by
  unfold Heard
  decide +kernel

/-- A HEARTBEAT message of hub A to hub B (R392), and a block with the same fields. -/
def beatMsg (e : Word) (role : Nat) : MsgHdr :=
  let h : MsgHdr := { type := 0x7F, flags := 1, src := 0xB000, dst := 0xB001, seq := 1, epoch := e, resv := 0, check := 0
                      payload := padTo 16 (leBytes 4 e.toNat ++ leBytes 1 role) }
  { h with check := BitVec.ofNat 16 (crc16 h.bytes) }
def beat (e : Word) (role wrong : Nat) : Beat := ⟨e, role, false, false, 1, 0, wrong, beatMsg e role⟩
theorem witness_PairMessagesAct_beats :
    (∀ x ∈ [Role.valid, .resyncing, .fenced], let s := beside x id
      s.pair.linkUp = true ∧ (beat 1 0 8).wrong ≤ 8 ∧ (beat 1 0 9).hdr.good = true ∧ (s.hubOf .a).role = x) ∧
    (∀ p ∈ [HbPath.mirror, .mgmt], epochHigher (beatSaid p (beat 2 0 0)).epoch (paired.hubOf .a).epoch = true ∧
      epochHigher (beatSaid p (beat 1 1 0)).epoch (paired.hubOf .a).epoch = false ∧ (beatSaid p (beat 1 1 0)).role = 1) ∧
    { beatMsg 1 0 with check := 0 }.good = false ∧ (paired.pair.linkUp = true ∧ 8 < (beat 1 0 9).wrong) ∧
    ({ ready with pair := { ready.pair with lanes := 1 } }).pair.linkUp = false ∧
    (let s := { ready with pair := { ready.pair with claims := [0] } }
     Heard s 0x70 (good 1) ∧ (good 1).epoch = s.epoch ∧ s.staleOwner = none) ∧
    (let s := { paired with pair := { paired.pair with probing := true, probes := [0] } }
     Heard s 0x71 (good 1) ∧ (good 1).epoch = s.epoch) ∧
    (let s := { ready with hubB := { owning with epoch := 2 } }
     s.staleOwner = some .a ∧ (sealed 0xB000 2).good = true ∧ (sealed 0xB000 2).dst = nodeHub .a ∧
       epochHigher (sealed 0xB000 2).epoch (s.hubOf .a).epoch = true) ∧
    (let m : Await := { src := 0xA100, dst := 3, seq := 9, msg := .probe 3, resent := false }
     ({ ready with await := [m] }).heldMsg ⟨0xA100, 3⟩ 9 = false ∧
     ({ paired with await := [m], pair := { paired.pair with heldEff := [(1, .msg (.probe 3) ⟨false, false, 1, 0xA100, 3, 9, 1⟩)] } }).heldMsg
       ⟨0xA100, 3⟩ 9 = true) ∧
    ready.secHalted = false := by
  unfold Heard
  repeat' apply And.intro
  all_goals decide +kernel

theorem witness_ForecastsAndPreRaises_bus :
    (let s := rready (fun g => { g with spec := { g.spec with state := .standing, s := 9 } })
     (s.region 0).sp.busy = none ∧ (s.region 0).sp.wantRates = false ∧ (s.region 0).sp.retryEach = false) := by
  decide +kernel

theorem witness_SensorsAreRead_bus :
    (let s := rready (fun g => { g with sp := { g.sp with raising := some 700 } })
     (s.region 0).sp.raiseWait = false ∧ (s.region 0).vmonWait = 0 ∧ (s.region 0).sp.raising = some 700) ∧
    (∀ e, let s := rready (fun g => { g with sp := { g.sp with busy := some (.committed 700), retryEach := e } })
     (s.region 0).sp.busy = some (.committed 700) ∧ (s.region 0).sp.retryEach = e) := by
  decide +kernel

/-- `clocked` with Dill armed. -/
def armedDill : State := { clocked with pow := { clocked.pow with armed := true } }
theorem witness_DillAndTicksAct_armed :
    armedDill.pow.armed = true ∧ clocked.pow.armed = false ∧ (armedDill.cluster 700).ctl.spared = false ∧
    (armedDill.gov (regionOf 700)).engine = true ∧ (armedDill.cluster 700).dill.sweeping = false := by
  decide +kernel

theorem witness_FaultsAreCollectedAndRecorded_more :
    (let e : Event := { event1 with polled := true }
     let s := { ready.modColl .a (fun c => { c with sources := c.sources.modify 198 (fun x => { x with broken := true }) }) with events := [e] }
     s.nextEvent = some e ∧ ((s.coll .a).source 198).broken = true ∧ s.owner = some .a ∧ s.collOn .a = true) ∧
    (let s := { ready with latches := [(5, 1)] }
     (s.coll .a).frozen = false ∧ ((s.coll .a).source (64 * 1 + 5)).broken = false) ∧
    (∀ n ∈ [0, 7], let s := ready.modColl .a (fun c => { c with crst := true, crstLeft := n })
     (s.coll .a).crst = true ∧ (s.coll .a).crstLeft = n ∧ s.pow.ioUp = true) ∧
    (let s := ready.modRecorder (fun q => { q with queue := [rec1], recs := [{ rec1 with code := 3 }], openRec := true, sinceApp := 1000 })
     s.hub.recorder.queue = [rec1] ∧ s.hub.recorder.recs.getLast? = some { rec1 with code := 3 } ∧
       ({ rec1 with code := 3 } : Rec).same rec1 = false ∧ 1000 ≤ s.hub.recorder.sinceApp) := by
  decide +kernel

theorem witness_ClockLoopFollowsReference_unowned :
    (let s : State := { starting { step := 5 } with clk := { st := .fallback, refLost := true, fbRun := true } }
     s.owner = none ∧ s.clk.st ≠ .stopped ∧ ¬ ((s.hubOf .a).start.step = 2 ∧ (s.hubOf .a).start.path = true ∧ (s.hubOf .a).start.ended = false)) ∧
    (starting { step := 2 }).pow.ecapLow .a = false := by
  decide +kernel

theorem witness_DebugPortAnswers_nop :
    ready.dbgBad (dop 1 0 0) [0, 1, 2, 3, 4, 5] = false ∧ ready.dbgBad (dop 7 0 0) [0, 1, 2, 3, 4, 5] = true ∧
    ready.dbgBad { dop 1 0 0 with resv := true } [0, 1, 2, 3, 4, 5] = true ∧ (ready.dbg .a).pendOp = none := by
  decide +kernel

theorem witness_DebugOperationsAct_merge :
    (let s := fullScope (cored 1 (fun c => { c with state := .halted }) ready)
     let sound : DbgOp := { dop 1 0 0x10000000 with merge := some ⟨1, ⟨[⟨1, 1, 1⟩], 0⟩, true⟩ }
     let lost : DbgOp := { dop 1 0 0x10000000 with merge := some ⟨1, ⟨[⟨1, 2, 4⟩, ⟨2, 2, 4⟩, ⟨3, 2, 4⟩, ⟨4, 2, 4⟩, ⟨5, 2, 4⟩], 0⟩, false⟩ }
     OnHubCore s .a sound 1 ∧ OnHubCore s .a lost 1 ∧ s.scopeBit .a 2 1 = true ∧ (s.coreAt .a 1).state = .halted ∧
       sound.merge.map (readFound s.fresh) = some (some true) ∧ lost.merge.map (readFound s.fresh) = some (some false)) := by
  unfold OnHubCore DebugReady
  decide +kernel

/-- Region 0 holds grants 3 and 4 staged, and slot 3 written. -/
def staged0 : State :=
  let v (i : Nat) : Resv := ⟨i, 3, 3, [0], false, none, false, [1], false⟩
  { ready.modRegion 0 (fun g => { g with resvs := [v 3, v 4], slots := [{ gid := 3, members := [1, 5], written := true }] }) with
    pow := { ready.pow with waferRun := true } }
theorem witness_BoundaryCountsAndShadowsArrive_chain :
    PlainBoundary staged0 ∧ staged0.pow.regOpen = true ∧ staged0.pow.waferRun = true ∧
    Accepted staged0 0 0x03 (good 0) ∧ Accepted staged0 0 0x40 (good 0) ∧ Accepted staged0 0 0x17 (good 0) ∧
    (sealed 0xFFFF 0).goodTo true = true ∧
    (Accepted staged0 0 0x22 (good 0) ∧ staged0.period.toNat < (staged0.period + 1).toNat ∧
      (let s := (staged0.modRegion 1 (fun g => { g with sage := { g.sage with switchAt := some (staged0.period + 1) } })).modHub
         (fun h => { h with loads := [load1] })
       ∀ l ∈ s.hub.loads, ∀ k ∈ onesOf 64 l.mask.toNat, k = 0 ∨ (s.region k).sage.switchAt = some (s.period + 1))) ∧
    (staged0.region 0).slots.map (fun x => (x.gid, x.written)) = [(3, true)] ∧
    (staged0.region 5).slots = [] ∧ (∀ c, ((staged0.region 5).clusters.get c).ctl.group = none) ∧ Accepted staged0 5 0x40 (good 0) ∧
    (let x : TreeWord := { tree true with period := 1, indices := [3] }
     x.root = (staged0.gov 0).root ∧ x.checkOk = true ∧ x.epoch = (staged0.gov 0).epoch ∧ x.period = staged0.period + 1 ∧
       (staged0.gov 0).words = [] ∧
       (let s := staged0.modGov 0 (fun g => { g with words := [(x, false), (x, true)] })
        ∀ y ∈ (s.gov 0).words, y.1.period = x.period → y.1.epoch = x.epoch → y.1.indices = x.indices)) := by
  unfold PlainBoundary Accepted
  refine ⟨?_, ?_, ?_, ?_, ?_, ?_, ?_, ?_, ?_, ?_, fun _ => rfl, ?_, ?_⟩ <;> decide +kernel

theorem witness_RegionCommandsKeepTheHubs :
    onRegions (.demotionEnd 3) = true ∧ Completes (exec (.demotionEnd 3) (ready.modRegion 3 (fun g => { g with spec := { g.spec with state := .demoted } }))) :=
  ⟨rfl, _, rfl⟩
theorem witness_HubCommandsKeepTheRegions : onHubs (.handover) = true ∧ Completes (exec .handover ready) := ⟨rfl, _, rfl⟩

theorem witness_ClockLoopStaysLegal :
    ClockLegal (clk { st := .coast, refLost := true, fbRun := true, marked := some .fallback }).clk ∧
    Completes (step { clk { st := .coast, refLost := true, fbRun := true, marked := some .fallback } with pending := [.domainSwitch] }) := by
  refine ⟨?_, _, rfl⟩
  constructor <;> decide +kernel

theorem witness_SpeculationStaysInBalance :
    (∀ r, SpecLegal (ready.region r).spec) ∧
    (let s := ready.modRegion 0 (fun g => { g with spec := { g.spec with state := .standing, issued := 3, confirmed := 2 } })
     SpecLegal (s.region 0).spec ∧ (s.region 0).spec.state = .standing) := by
  have h : SpecLegal {} := ⟨by unfold Machine.Balanced; decide +kernel, by decide +kernel⟩
  refine ⟨fun r => h, ⟨by unfold Machine.Balanced; decide +kernel, by decide +kernel⟩, by decide +kernel⟩

theorem witness_SettingWordRoundTrip :
    (∃ x : SettingWord, x.mode < 4 ∧ x.addr < 1024 ∧ x.core < 32 ∧ x.kind < 4 ∧ x.code < 128 ∧ x.slope < 8 ∧ x.addr = 1023) ∧
    parityOk 0 = true := by
  refine ⟨⟨⟨3, 1023, 31, 3, 127, 7, true⟩, by decide⟩, by decide⟩

theorem witness_SharesStayWithinTheCap :
    (ready.region 0).clusters.wf = true ∧ (ready.region 0).therm.selfTest = false ∧
    (∀ c, c < 576 → ((ready.region 0).clusters.get c).tight (slotMR (ready.region 0).slots) = false) ∧
    (ready.modGov 0 (fun g => { g with safe := true })).holdShares 0 = false ∧
    ((ready.modCluster 5 (fun u => { u with ctl := { u.ctl with spared := true } })).cluster 5).ctl.spared = true := by
  refine ⟨by decide +kernel, by decide +kernel, fun c _ => rfl, by decide +kernel, by decide +kernel⟩

/-! ### What WellFormed refuses -/

def badTree : TreeWord := { period := 0, indices := [0, 1, 2, 3, 4, 5, 6, 7, 8], epoch := 1, checkOk := true }
def badReserve : ReserveMsg := { index := 0, q := 0, total := 0, clusters := 1, phases := [], cycle := false }
def badSummary : Summary :=
  { slot := 0, ok := 577, other := 0, lowestOther := none, cancelled := 0, waiting := 0, lowestWait := none, final := true }
def noReads : PackageReads :=
  { inlet := [], outlet := [], stack := [], laser := [], driver := [], ackStack := [], ackOptic := [], heater := [] }

/-- One command that each check refuses. -/
theorem test_wellformed_refuses :
    ([.commandTake [], .countZeroEntry [(some [1], none)], .ageingTrimNewWafer ⟨65, []⟩, .multicastPost 0 (good 0) 0 ⟨0, [(0, 1)]⟩ (zeros 16), .multicastPost 0 (good 0) 0 ⟨0, []⟩ [],
      .multicastSummary 0 (good 0) badSummary true, .heartbeat .a .mirror ⟨0, 4, false, false, 0, 0, 0, good 0⟩, .reserve 0 (good 0) badReserve,
      .reserveReply 0 (good 0) 65536 true 0, .replyLimitExpiry 65536, .commitWord 0 badTree, .releaseWord 0 badTree,
      .inForce 0 (good 0) 65536, .revocation 0 (good 0) 65536] : List Instr).all (fun c => !c.wf) = true := by decide
theorem test_wellformed_refuses_more :
    ([.tickBoundary ⟨⟨false, false, false⟩, [(36864, ⟨true, false, false⟩)]⟩, .forecastBoundary [(0, .lane 0), (0, .lane 0)], .diodeConversion 0 0 [],
      .voltageMonitorReading 0 [] false, .waferPeriod noReads, .packagePeriod [], .marginEvaluation ⟨(64, .valid), [(0, (64, .valid))]⟩,
      .ageingInterval ⟨(65, .valid), []⟩, .selfTestGateRelease ⟨0, [(64, 1)]⟩ ⟨0, []⟩,
      .defectMapChange ⟨0, [(1, 1), (0, 1)]⟩ ⟨0, []⟩ ⟨0, []⟩ ⟨0, []⟩, .defectMapChange ⟨0, []⟩ ⟨0, [(4096, 1)]⟩ ⟨0, []⟩ ⟨0, []⟩,
      .controlPeriodBoundary ⟨[.sage 0 { words := [⟨0, 0, 0⟩], parity := 0 }], [], 0, ⟨(64, .valid), []⟩⟩, .mirrorBlock .a 257 0 0 0 false, .mirrorBlock .a 0 17 0 0 false, .stagingRelease 0 (good 0) 65536, .grantStateQuery 0 (good 0) 65536,
      .grantStateReply 0 (good 0) 65536 true, .removalReport 0 (good 0) 65536,
      .shadowDelivery 1 (good 0) 0 [(0x100000, 0)]] : List Instr).all (fun c => !c.wf) = true := by decide

/-! ### The spec's own figures -/

/-- R112's reference model: 192 → 16 over 24 groups, 384 → 64, 64 → 24 takes 48 cycles. -/
theorem test_reference_model_latency :
    latencyOf (leBytes 4 0x53474D31 ++ leBytes 2 1 ++ leBytes 1 3 ++ leBytes 25 0 ++
      leBytes 2 192 ++ leBytes 2 16 ++ leBytes 12 0 ++ leBytes 2 384 ++ leBytes 2 64 ++ leBytes 12 0 ++
      leBytes 2 64 ++ leBytes 2 24 ++ leBytes 12 0) = 48 := by decide +kernel

/-- R42: 600 A at 22 phases; 572.7 A at 21, down to 572.5 A, in quarter-amperes. -/
theorem test_rating_ceiling : ratingCeil 22 = 2400 ∧ ratingCeil 21 = 2290 := by decide

/-- R155, by hand: HOLD 1 to the region has KIND 3 in 18:17, FLAG in 29, odd parity of the even-numbered bits in 30. -/
theorem test_hold_word : settingWord ⟨0, 0, 0, 3, 0, 0, true⟩ = 0x60060000 := by decide

/-- R155: a TARGET of code 64, slope 7 to row 23: bit 0; 23 at 11:2; 64 at 25:19; 7 at 28:26; parities of 6 and 3 ones. -/
theorem test_target_word : settingOf 0x9E00005D = ⟨1, 23, 0, 0, 64, 7, false⟩ := by decide

/-- R157: one bit turned makes it bad; so does a code of 65. -/
theorem test_bad_words : badWord 0x60060001 = true ∧ badWord (settingWord ⟨0, 0, 0, 0, 65, 0, false⟩) = true ∧
    badWord 0x60060000 = false := by decide

/-- R382: epochs wrap over 0, which no hub claims. -/
theorem test_epochs : nextEpoch 1 = 2 ∧ nextEpoch 0xFFFFFFFF = 1 ∧ epochHigher 1 0xFFFFFFFF = true ∧ epochHigher 5 5 = false := by decide

/-- The check value of CRC-32 (R115) over "123456789". -/
theorem test_crc32 : crc32 [0x31, 0x32, 0x33, 0x34, 0x35, 0x36, 0x37, 0x38, 0x39] = 0xCBF43926 := by decide

/-! ### One step each -/

/-- The state after the command, if it completes. -/
def after (c : Instr) (s : State) : State := match exec c s with | .next t => t | _ => s

/-- R292: the doorbell moves the producer index; one past SIZE sets DB_ERR and moves nothing (R293). -/
theorem test_doorbell : ((after (.cmdDoorbell 0 4) (ringed ready)).ring 0).pi = 4 ∧
    ((after (.cmdDoorbell 0 5) (ringed ready)).ring 0).pi = 0 := by decide

/-- R151: with k = 7 a limiter below T rises by one code a step; above T it falls to T at once. -/
theorem test_limiter_step :
    (let s := (ready.modGov 0 (fun g => { g with engine := true })).modCluster 0 (fun u =>
        { u with limiters := ⟨{ e := 10, t := 12, k := 7 }, [(1, { e := 20, t := 12, k := 7 })]⟩ })
     (((after (.limiterStep 0 0 0xFFFF) s).cluster 0).limiters.get 0).e = 11 ∧
       (((after (.limiterStep 0 1 0xFFFF) s).cluster 0).limiters.get 1).e = 12) := by decide +kernel

/-- R150: the trip force holds every limiter of the region at 0 (R198). -/
theorem test_trip :
    (((after (.tripComparatorAssert 3 2) (ready.modCluster 1728 (fun u => { u with limiters := ⟨{ e := 64 }, []⟩ }))).cluster 1728).limiters.get 31).e = 0 := by
  decide +kernel

/-- R149, R142: a demotion over leaves the region idle. -/
theorem test_demotion_end :
    ((after (.demotionEnd 3) (ready.modRegion 3 (fun g => { g with spec := { g.spec with state := .demoted } }))).region 3).spec.state = .idle := by decide

/-- R446, R449: the loss of the reference glides down, a marked switch to the fallback oscillator ends in FALLBACK. -/
theorem test_clock : (after .refLost ready).clk.st = .glideDown ∧
    (after .domainSwitch { ready with clk := { st := .coast, refLost := true, fbRun := true, marked := some .fallback } }).clk.st = .fallback := by
  decide +kernel

/-- R330, R335: a doorbell posts a slot, a cancel of a posted slot makes it DONE. -/
theorem test_host_mailbox : ((after (.hmbDoorbell 5) ready).slot 5).state = .posted ∧
    ((after (.hmbCancel 5) (ready.modSlot 5 (fun x => { x with state := .posted }))).slot 5).state = .done := by decide +kernel

/-- R467: before REG_OPEN a read returns all ones; a misaligned one sets ACC_ERR. -/
theorem test_register_access :
    Effect.readData 0 0xFFFFFFFF ∈ (after (.registerWrite (.read 0 4) false) State.reset).out ∧
      (after (.registerWrite (.read 2 4) false) ready).setup.accErr = true := by decide +kernel

/-- R19, R245: a commit word of an older epoch is not kept, and counts as stale. -/
theorem test_commit_word :
    (let s := ready.modGov 0 (fun g => { g with epoch := 10 })
     let t := after (.commitWord 0 { period := 3, indices := [0], epoch := 9, checkOk := true }) s
     (t.gov 0).words = [] ∧ (t.gov 0).staleCnt = 1) := by decide +kernel

/-- The empty queue idles; the front command goes first. -/
theorem test_step_order : step ready = .next ready ∧
    step { ready with pending := [.refLost, .glideDownEnd] } = exec .refLost { ready with pending := [.glideDownEnd] } := ⟨rfl, rfl⟩

end Sys2Proof.Tests
end

