-- ==== Sys2Proof/Proofs/HubMessages.lean ====
section
/-!
SUPPORT. What a hub's messages change: the state that a hub command leaves apart from what it sends, and that a message sent
has left or waits for its journal entry (R390) whatever is sent after it.
-/

namespace Sys2Proof.Machine

/-! ### What is on its way -/

/-- From `s` to `t` messages leave the owning hub, wait for their journal entry, are answered or are heard, and nothing else
happens. -/
def OnlyMessages (s t : State) : Prop :=
  t = { s with
    pair := { s.pair with heldEff := t.pair.heldEff }
    await := t.await, seqs := t.seqs, hubLast := t.hubLast, out := t.out }

theorem OnlyMessages.refl (s : State) : OnlyMessages s s := rfl

theorem OnlyMessages.trans {s t u : State} (h₁ : OnlyMessages s t) (h₂ : OnlyMessages t u) : OnlyMessages s u := by
  unfold OnlyMessages at h₁ h₂ ⊢
  exact h₂.trans (by rw [h₁])

theorem OnlyMessages.foldl {α : Type} {f : State → α → State} (h : ∀ a x, OnlyMessages a (f a x)) (l : List α) (s : State) :
    OnlyMessages s (l.foldl f s) :=
  List.foldlRecOn l f (OnlyMessages.refl s) fun _ ht x _ => ht.trans (h _ x)

theorem OnlyMessages.hub {s t : State} (h : OnlyMessages s t) : t.hub = s.hub := by rw [h]
theorem OnlyMessages.regions {s t : State} (h : OnlyMessages s t) : t.regions = s.regions := by rw [h]
theorem OnlyMessages.govs {s t : State} (h : OnlyMessages s t) : t.govs = s.govs := by rw [h]
theorem OnlyMessages.period {s t : State} (h : OnlyMessages s t) : t.period = s.period := by rw [h]
theorem OnlyMessages.owner {s t : State} (h : OnlyMessages s t) : t.owner = s.owner := by rw [h]; rfl
theorem OnlyMessages.loopRuns {s t : State} (h : OnlyMessages s t) : t.loopRuns = s.loopRuns := by rw [h]; rfl

theorem heard_onlyMessages (s : State) (kind : Nat) (hdr : MsgHdr) : OnlyMessages s (s.heard kind hdr) := rfl

theorem hubEmit_onlyMessages (s : State) (e : Effect) : OnlyMessages s (s.hubEmit e) := by
  rw [hubEmit_eq]; rfl

theorem hubSend_onlyMessages (s : State) (m : Msg) : OnlyMessages s (s.hubSend m) := by
  unfold State.hubSend
  split
  · exact .refl s
  · exact (hubEmit_onlyMessages s _).trans rfl

theorem hubAsk_onlyMessages (s : State) (m : Msg) : OnlyMessages s (s.hubAsk m) := by
  unfold State.hubAsk
  split
  · exact .refl s
  · exact (hubSend_onlyMessages s m).trans rfl

theorem sendShadow_onlyMessages (s : State) (x : Shadow) : OnlyMessages s (sendShadow s x) := by
  unfold sendShadow
  split
  · split
    · exact .refl s
    · exact hubSend_onlyMessages s _
  · exact .refl s

/-! ### What has been said -/

/-- What has left, or waits, stays so while both lists stand. -/
theorem Leaves.of_eq {s t : State} {e : Effect} (h : Leaves s e) (ho : t.out = s.out)
    (hh : t.pair.heldEff = s.pair.heldEff) : Leaves t e := by
  unfold Leaves at h ⊢; rwa [ho, hh]

theorem Said.of_eq {s t : State} {m : Msg} (h : Said s m) (ho : t.out = s.out) (hh : t.pair.heldEff = s.pair.heldEff) :
    Said t m := h.imp fun _ hl => hl.of_eq ho hh

theorem Said.journaled {f : State → State} {s : State} {m : Msg} (h : Said (f s) m) : Said (journaled f s) m :=
  h.of_eq (journaled_out f s) (journaled_heldEff f s)

theorem hubEmit_leaves (s : State) (e : Effect) : Leaves (s.hubEmit e) e := by
  rw [hubEmit_eq]
  cases hp : s.pair.paired
  · exact .inl (by simp)
  · exact .inr ⟨s.pair.jn + 1, by simp⟩

theorem Leaves.hubEmit {s : State} {e : Effect} (h : Leaves s e) (e' : Effect) : Leaves (s.hubEmit e') e := by
  rw [hubEmit_eq]
  rcases h with h | ⟨n, h⟩
  · refine .inl ?_
    dsimp only
    split
    · exact h
    · exact List.mem_append_left _ h
  · refine .inr ⟨n, ?_⟩
    dsimp only
    split
    · exact List.mem_append_left _ h
    · exact h

theorem hubSend_said {s : State} (h : s.owner.isSome = true) (m : Msg) : Said (s.hubSend m) m := by
  unfold State.hubSend
  rw [if_neg (by simp [Option.isSome_iff_ne_none.1 h])]
  exact ⟨_, (hubEmit_leaves s _).of_eq rfl rfl⟩

theorem Said.hubSend {s : State} {m : Msg} (h : Said s m) (m' : Msg) : Said (s.hubSend m') m := by
  unfold State.hubSend
  split
  · exact h
  · exact h.imp fun _ hl => (hl.hubEmit _).of_eq rfl rfl

theorem hubAsk_said {s : State} (h : s.owner.isSome = true) (m : Msg) : Said (s.hubAsk m) m := by
  unfold State.hubAsk
  rw [if_neg (by simp [Option.isSome_iff_ne_none.1 h])]
  exact (hubSend_said h m).of_eq rfl rfl

theorem Said.hubAsk {s : State} {m : Msg} (h : Said s m) (m' : Msg) : Said (s.hubAsk m') m := by
  unfold State.hubAsk
  split
  · exact h
  · exact (h.hubSend m').of_eq rfl rfl

/-- An owner that sends one message for each of a list has said each of them. -/
theorem foldl_hubAsk_said {α : Type} (f : α → Msg) (l : List α) {s : State} (h : s.owner.isSome = true) :
    ∀ x ∈ l, Said (l.foldl (fun a x => a.hubAsk (f x)) s) (f x) := by
  induction l generalizing s with
  | nil => intro x hx; cases hx
  | cons y ys ih =>
    intro x hx
    rcases List.mem_cons.1 hx with rfl | hx
    · exact List.foldlRecOn (motive := fun t => Said t (f x)) ys _ (hubAsk_said h (f x)) fun _ ht z _ => ht.hubAsk (f z)
    · exact ih (by rwa [(hubAsk_onlyMessages s _).owner]) x hx

/-! ### A message heard, a completion -/

/-- A message that the owning hub acts on, with the journal entry of what it changes (R329, R389). -/
theorem next_hubAccept {s : State} {kind : Nat} {hdr : MsgHdr} (act : State → State) (h : Heard s kind hdr) :
    (Host.Outcome.next (journaled (hubAccept kind hdr act) s) : Host.Outcome State Fault Refusal) =
      .next (journaled (fun u => act (u.heard kind hdr)) s) :=
  next_journaled_congr (hubAccept_eq act h)

theorem complete_budget (s : State) (cmd : CmdRef) (code detail : Nat) (result : List Byte) :
    (s.complete cmd code detail result).hub.budget = s.hub.budget := by unfold State.complete; split <;> rfl

theorem complete_loads (s : State) (cmd : CmdRef) (code detail : Nat) (result : List Byte) :
    (s.complete cmd code detail result).hub.loads = s.hub.loads := by unfold State.complete; split <;> rfl

/-- A completion changes the rings by the rings and the journal's number alone. -/
theorem complete_rings_congr {s t : State} (hr : t.hub.rings = s.hub.rings) (hj : t.pair.jn = s.pair.jn) (cmd : CmdRef)
    (code detail : Nat) (result : List Byte) :
    (t.complete cmd code detail result).hub.rings = (s.complete cmd code detail result).hub.rings := by
  unfold State.complete
  rw [hr]
  split
  · exact hr
  · simp only [State.modRings_eq, State.modHub_hub, hr, State.nextJn, hj]

theorem OnlyMessages.complete_rings {s t : State} (h : OnlyMessages s t) (cmd : CmdRef) (code detail : Nat) (result : List Byte) :
    (t.complete cmd code detail result).hub.rings = (s.complete cmd code detail result).hub.rings :=
  complete_rings_congr (by rw [h]) (by rw [h]) ..

end Sys2Proof.Machine
end

