-- ==== Sys2Proof/Proofs/CapMessages.lean ====
section
/-!
SUPPORT. Caps between hub and governors (R20, R22, R47–R49, R56, R189, R191): a cap kept for the boundary, its acknowledgement,
a silent region, the emergency broadcast.
-/

namespace Sys2Proof.Machine

/-! ### A cap and its acknowledgement -/

theorem takeCap_eq (r cap : Nat) (clear : Bool) (s : State) :
    takeCap r cap clear s = s.modRegion r (fun g => { g with caps := { g.caps with
      waiting := some (cap, clear || (g.caps.waiting.map Prod.snd).getD false)
      ecap := g.caps.ecap && s.hub.ecap.active } }) := by
  unfold takeCap
  refine modRegion_congr ?_
  cases (s.region r).caps.waiting <;> rfl

/-- Entries that complete leave the regions, what is on its way, and of the budget all but the entries in hand. -/
theorem completeCaps_keeps (s : State) :
    (completeCaps s).regions = s.regions ∧ (completeCaps s).out = s.out ∧ (completeCaps s).pair = s.pair ∧
      ∃ c, (completeCaps s).hub.budget = { s.hub.budget with caps := c } := by
  unfold completeCaps
  refine List.foldlRecOn (motive := fun t : State => t.regions = s.regions ∧ t.out = s.out ∧ t.pair = s.pair ∧
    ∃ c, t.hub.budget = { s.hub.budget with caps := c }) _ _ ⟨rfl, rfl, rfl, _, rfl⟩ fun t ht c _ => ?_
  obtain ⟨hr, ho, hp, q, hb⟩ := ht
  simp only [State.complete_regions, State.complete_out, State.complete_pair, complete_budget]
  exact ⟨hr, ho, hp, q, hb⟩

/-- Items that come into force leave the regions, what is on its way, and of the budget all but the wafer share in force and
the entries in hand. -/
theorem settleCaps_keeps (s : State) :
    (settleCaps s).regions = s.regions ∧ (settleCaps s).out = s.out ∧ (settleCaps s).pair = s.pair ∧
      ∃ w c, (settleCaps s).hub.budget = { s.hub.budget with pWafIn := w, caps := c } := by
  have hw (b : Budget) : ∃ w, b.settleWafer = { b with pWafIn := w } := by
    unfold Budget.settleWafer
    split
    · exact ⟨_, rfl⟩
    · exact ⟨_, rfl⟩
  unfold settleCaps
  dsimp only
  obtain ⟨hr, ho, hp, c, hb⟩ := completeCaps_keeps _
  obtain ⟨w, hw⟩ := hw s.hub.budget
  exact ⟨hr, ho, hp, w, c, hb.trans (by simp [hw])⟩

/-- While a lowered cap is not acknowledged no raise is sent (R48). -/
theorem sendRaises_of_lowering {s : State} (h : s.hub.budget.lowering ≠ []) : sendRaises s = s := by
  unfold sendRaises; rw [if_pos (.inl h)]

/-- With every lowering acknowledged the running loop sends each raise that waits (R48, R189, R191), no governor being in the
safe state. -/
theorem sendRaises_eq {s : State} (hl : s.hub.budget.lowering = []) (hr : s.loopRuns = true)
    (hs : ∀ k, (s.gov k).safe = false) :
    sendRaises s = s.hub.budget.raising.foldl (fun a p => a.hubAsk (.cap p.1 p.2.1 p.2.2))
      (s.modBudget (fun b => { b with raising := [] })) := by
  unfold sendRaises
  rw [if_neg (by simp [hl, hr])]
  simp only [hs, Bool.false_and, Bool.false_eq_true, if_false]

/-- Raises that are sent leave the regions, and of the budget all but the raises. -/
theorem sendRaises_keeps (s : State) :
    (sendRaises s).regions = s.regions ∧ ∃ l, (sendRaises s).hub.budget = { s.hub.budget with raising := l } := by
  unfold sendRaises
  split
  · exact ⟨rfl, _, rfl⟩
  · have h : OnlyMessages (s.modBudget (fun b => { b with raising := [] })) _ :=
      OnlyMessages.foldl (f := fun (a : State) p =>
        let held := (s.gov p.1).safe
        let cap := if held then min p.2.1 (s.region p.1).caps.lastAck else p.2.1
        if held && !p.2.2 then a else a.hubAsk (.cap p.1 cap p.2.2)) (fun a p => by
          dsimp only
          split
          · exact .refl a
          · exact hubAsk_onlyMessages a _) s.hub.budget.raising _
    exact ⟨h.regions, [], by rw [h.hub]; rfl⟩

/-- The acknowledgement ends the lowering: no lowered cap that it exceeds waits at the region (R57). -/
def State.ackEnds (s : State) (r cap : Nat) : Bool := !s.hub.budget.lowering.any (fun p => p.1 == r && decide (p.2.1 < cap))

theorem ackEnds_iff (s : State) (r cap : Nat) :
    s.ackEnds r cap = true ↔ ∀ p ∈ s.hub.budget.lowering, p.1 = r → cap ≤ p.2.1 := by
  simp [State.ackEnds]

/-- What an acknowledged cap changes before anything is sent: the region's last acknowledged cap, and, where it ends the
lowering, what the hub waits for (R47, R49). -/
def State.capAcked (s : State) (r cap : Nat) : State :=
  (s.modRegion r (fun g => { g with caps := { g.caps with
    lastAck := if g.emergency then min cap g.caps.lastAck else cap } })).modBudget (fun b => { b with
      lowering := if s.ackEnds r cap then b.lowering.filter (fun p => p.1 != r) else b.lowering
      silent := if s.ackEnds r cap then b.silent.filter (fun k => k != r) else b.silent })

@[simp] theorem capAcked_budget (s : State) (r cap : Nat) : (s.capAcked r cap).hub.budget = { s.hub.budget with
    lowering := if s.ackEnds r cap then s.hub.budget.lowering.filter (fun p => p.1 != r) else s.hub.budget.lowering
    silent := if s.ackEnds r cap then s.hub.budget.silent.filter (fun k => k != r) else s.hub.budget.silent } := rfl

@[simp] theorem capAcked_caps (s : State) (r cap : Nat) : ((s.capAcked r cap).region r).caps = { (s.region r).caps with
    lastAck := if (s.region r).emergency then min cap (s.region r).caps.lastAck else cap } :=
  congrArg Region.caps (State.modRegion_region_self s r _)

/-- CAP_ACKNOWLEDGEMENT at the hub: the acknowledgement, with the shadows that a region that answers again lacks (R475), then the
raises, then the items in force. -/
theorem takeCapAck_eq (r cap : Nat) (s : State) :
    ∃ t, OnlyMessages (s.capAcked r cap) t ∧ takeCapAck r cap s = settleCaps (sendRaises t) := by
  generalize hv : takeCapAck r cap s = v
  unfold takeCapAck at hv
  extract_lets u g ends t t' at hv
  refine ⟨t', OnlyMessages.trans (t := t) rfl ?_, hv.symm⟩
  unfold t'
  split
  · exact OnlyMessages.foldl sendShadow_onlyMessages _ t
  · exact .refl t

/-- What an acknowledgement leaves in the regions and of the budget (R47, R49). -/
theorem takeCapAck_keeps (r cap : Nat) (s : State) :
    (takeCapAck r cap s).regions = (s.capAcked r cap).regions ∧
      ∃ w l c, (takeCapAck r cap s).hub.budget = { (s.capAcked r cap).hub.budget with pWafIn := w, raising := l, caps := c } := by
  obtain ⟨t, ht, e⟩ := takeCapAck_eq r cap s
  rw [e]
  obtain ⟨hr, -, -, w, c, hb⟩ := settleCaps_keeps (sendRaises t)
  obtain ⟨hr', l, hb'⟩ := sendRaises_keeps t
  exact ⟨hr.trans (hr'.trans ht.regions), w, l, c, by rw [hb, hb', ht.hub]⟩

/-- An acknowledgement that ends no lowering sends no raise (R57). -/
theorem takeCapAck_raising_of_late {r cap : Nat} {s : State} (h : s.ackEnds r cap = false) :
    (takeCapAck r cap s).hub.budget.raising = s.hub.budget.raising := by
  obtain ⟨t, ht, e⟩ := takeCapAck_eq r cap s
  have hne : s.hub.budget.lowering ≠ [] := fun hl => by simp [State.ackEnds, hl] at h
  have hb : t.hub.budget = (s.capAcked r cap).hub.budget := by rw [ht.hub]
  have hl : t.hub.budget.lowering = s.hub.budget.lowering := by simp [hb, h]
  obtain ⟨-, -, -, w, c, hb'⟩ := settleCaps_keeps t
  rw [e, sendRaises_of_lowering (hl ▸ hne), hb', hb]; rfl

/-- The acknowledgement that ends the last lowering sends the raises that wait (R48, R189, R191). -/
theorem takeCapAck_raises {r cap : Nat} {s : State} (ho : s.owner.isSome = true) (hend : s.ackEnds r cap = true)
    (hall : ∀ p ∈ s.hub.budget.lowering, p.1 = r) (hrun : s.loopRuns = true) (hs : ∀ k, (s.gov k).safe = false) :
    (takeCapAck r cap s).hub.budget.raising = [] ∧
      ∀ p ∈ s.hub.budget.raising, Said (takeCapAck r cap s) (.cap p.1 p.2.1 p.2.2) := by
  obtain ⟨t, ht, e⟩ := takeCapAck_eq r cap s
  have hb : t.hub.budget = (s.capAcked r cap).hub.budget := by rw [ht.hub]
  have hl : t.hub.budget.lowering = [] := by
    simp only [hb, capAcked_budget, hend, if_true]
    exact List.filter_eq_nil_iff.2 fun p hp => by simp [hall p hp]
  have hraise : t.hub.budget.raising = s.hub.budget.raising := by rw [hb]; rfl
  have hgov (k : Nat) : (t.gov k).safe = false := by unfold State.gov; rw [ht.govs]; exact hs k
  have hto : t.owner.isSome = true := by rw [ht.owner]; exact ho
  have hrun' : t.loopRuns = true := by rw [ht.loopRuns]; exact hrun
  have hask := OnlyMessages.foldl (fun a p => hubAsk_onlyMessages a (.cap p.1 p.2.1 p.2.2)) t.hub.budget.raising
    (t.modBudget (fun b => { b with raising := [] }))
  obtain ⟨-, hout, hpair, w, c, hb'⟩ := settleCaps_keeps (sendRaises t)
  rw [e]
  constructor
  · rw [hb', sendRaises_eq hl hrun' hgov, hask.hub]; rfl
  · intro p hp
    refine Said.of_eq ?_ hout (by rw [hpair])
    rw [sendRaises_eq hl hrun' hgov]
    exact foldl_hubAsk_said (s := t.modBudget _) (fun p => .cap p.1 p.2.1 p.2.2) t.hub.budget.raising hto p (hraise ▸ hp)

/-! ### A silent region -/

/-- A corner governor's silence changes the list of silent PMBus masters alone, with its fault (R22). -/
theorem governorGone_keeps (r : Nat) (s : State) :
    (governorGone r s).regions = s.regions ∧ (∃ m, (governorGone r s).hub.budget = { s.hub.budget with mute := m }) ∧
      (∀ x ∈ s.events, x ∈ (governorGone r s).events) ∧
      (r ∈ pmbusCorners → r ∉ s.hub.budget.mute → { src := 206, cause := 1 } ∈ (governorGone r s).events) := by
  unfold governorGone
  split
  · exact ⟨rfl, ⟨_, rfl⟩, fun x hx => List.mem_append_left _ hx,
      fun _ _ => List.mem_append_right _ (List.mem_singleton_self _)⟩
  · next h => exact ⟨rfl, ⟨_, rfl⟩, fun _ hx => hx, fun h1 h2 => absurd ⟨h1, h2⟩ h⟩

/-- CHILD_UNACKNOWLEDGED of a region 4 wafer periods late (R22, R49). -/
theorem childUnack_late {r : Nat} {s : State} (hc : s.inControl = true)
    (hl : ∃ p ∈ s.hub.budget.lowering, p.1 = r ∧ 4 ≤ p.2.2) :
    r ∈ (childUnack r s).hub.budget.silent ∧ { src := 206, cause := 0 } ∈ (childUnack r s).events ∧
      (r ∈ pmbusCorners → r ∉ s.hub.budget.mute → { src := 206, cause := 1 } ∈ (childUnack r s).events) ∧
      (childUnack r s).hub.budget.lowering = s.hub.budget.lowering.filter (fun p => p.1 != r) ∧
      (childUnack r s).regions = s.regions := by
  unfold childUnack
  rw [if_pos ⟨hc, by simpa [List.any_eq_true] using hl⟩]
  obtain ⟨hr, ⟨m, hb⟩, hev, hmute⟩ := governorGone_keeps r
    (((dropRaises s).modBudget (fun b => { b with
      lowering := b.lowering.filter (fun p => p.1 != r)
      wafRun := false
      silent := if r ∈ b.silent then b.silent else b.silent ++ [r] })).raise 206 0)
  refine ⟨?_, hev _ (List.mem_append_right _ (List.mem_singleton_self _)), hmute, by rw [hb]; rfl, hr⟩
  rw [hb]
  show r ∈ (if r ∈ s.hub.budget.silent then _ else _)
  split
  · assumption
  · simp

/-! ### The emergency cap -/

/-- A frame that starts leaves the caps, the pre-raise and the committed setpoint. -/
theorem nextFrame_keeps {up dn : Nat} {g g' : Region} {f : Frame} (h : nextFrame up dn g = some (f, g')) :
    g'.caps = g.caps ∧ g'.spec = g.spec ∧ g'.sp.vc = g.sp.vc := by
  unfold nextFrame at h
  dsimp only at h
  split at h
  · cases h
  · split at h
    · cases h; exact ⟨rfl, rfl, rfl⟩
    · split at h
      · cases h; exact ⟨rfl, rfl, rfl⟩
      · split at h
        · cases h; exact ⟨rfl, rfl, rfl⟩
        · cases h

theorem startFrame_keeps (s : State) (r : Nat) :
    ((s.startFrame r).region r).caps = (s.region r).caps ∧ ((s.startFrame r).region r).spec = (s.region r).spec ∧
      ((s.startFrame r).region r).sp.vc = (s.region r).sp.vc := by
  unfold State.startFrame
  split
  · exact ⟨rfl, rfl, rfl⟩
  · next f g h =>
    have e : ((s.modRegion r (fun _ => g)).emitFrame r f).region r = g := State.modRegion_region_self s r _
    rw [e]; exact nextFrame_keeps h

theorem abandoned_not_standing (p : Spec) : p.abandoned'.state ≠ .standing := by
  unfold Spec.abandoned'
  split
  · exact SpecState.noConfusion
  · assumption

/-- The withdrawal at once leaves no pre-raise standing, and leaves the caps and the committed setpoint (R139). -/
theorem abandonNow_keeps (s : State) (r : Nat) :
    ((s.abandonNow r).region r).caps = (s.region r).caps ∧ ((s.abandonNow r).region r).spec.state ≠ .standing ∧
      ((s.abandonNow r).region r).sp.vc = (s.region r).sp.vc := by
  unfold State.abandonNow
  split
  · obtain ⟨hc, hs, hv⟩ := startFrame_keeps
      (s.modRegion r (fun g => (g.modSpec Spec.abandoned').modSp (fun p => { p with wantVc := true, wantSpec := false }))) r
    rw [hc, hs, hv, State.modRegion_region_self]
    exact ⟨rfl, abandoned_not_standing _, rfl⟩
  · next h => exact ⟨rfl, h, rfl⟩

theorem suspendTimers_regions (r : Nat) (s : State) : (suspendTimers r s).regions = s.regions :=
  List.foldlRecOn (motive := fun t : State => t.regions = s.regions) _ _ rfl fun _ ht _ _ => ht

/-- EMERGENCY_CAP_BROADCAST (R20, R56, R139): the lower preset waits, the pre-raise ends, the setpoint stays. -/
theorem ecapBroadcast_keeps (r preset : Nat) (s : State) :
    ((ecapBroadcast r preset s).region r).caps = { (s.region r).caps with
        ecap := true, ecapWait := some (((s.region r).caps.ecapWait.map (fun p => min p preset)).getD preset) } ∧
      ((ecapBroadcast r preset s).region r).spec.state ≠ .standing ∧
      ((ecapBroadcast r preset s).region r).sp.vc = (s.region r).sp.vc := by
  unfold ecapBroadcast
  extract_lets t u
  have hu : (if preset < (u.region r).resTotal then suspendTimers r u else u).region r = u.region r := by
    split
    · unfold State.region; rw [suspendTimers_regions]
    · rfl
  obtain ⟨hc, hs, hv⟩ := abandonNow_keeps t r
  rw [hu]
  refine ⟨hc.trans ?_, hs, hv.trans ?_⟩
  · rw [State.modRegion_region_self]
    cases (s.region r).caps.ecapWait <;> rfl
  · rw [State.modRegion_region_self]; rfl

end Sys2Proof.Machine
end

