-- ==== Sys2Proof/Proofs/ModelMessages.lean ====
section
/-!
SUPPORT. A model's load between hub and governors (R118): its bytes, its check reports, the switch and its acknowledgements.
-/

namespace Sys2Proof.Machine

/-! ### At the governor -/

/-- MODEL_IMAGE: the bytes are stored; with the last the governor reports on all of them. -/
theorem takeImage_keeps (r off : Nat) (bytes : List Byte) (last : Bool) (s : State) :
    ((takeImage r off bytes last s).region r).sage =
        { (s.region r).sage with loadBuf := padTo off (s.region r).sage.loadBuf ++ bytes } ∧
      (if last then ∃ x, (takeImage r off bytes last s).out =
          s.out ++ [.msg (.modelReport r (governorReason (padTo off (s.region r).sage.loadBuf ++ bytes))) x]
        else (takeImage r off bytes last s).out = s.out) := by
  have hsage : ((s.modRegion r (fun g => g.modSage (fun x => { x with loadBuf := padTo off x.loadBuf ++ bytes }))).region r).sage =
      { (s.region r).sage with loadBuf := padTo off (s.region r).sage.loadBuf ++ bytes } := by
    rw [State.modRegion_region_self]; rfl
  unfold takeImage
  cases last
  · exact ⟨hsage, rfl⟩
  · refine ⟨hsage, ?_⟩
    simp only [if_true, hsage]
    exact ⟨_, rfl⟩

/-! ### At the hub -/

/-- What the hub does with the report of a region that has not reported yet (R118 steps 4 to 6). -/
def reportTaken (r reason : Nat) (l : ModelLoad) (s : State) : State :=
  if reason = 0 then
    let l' := { l with reports := l.reports ++ [r] }
    let rs := onesOf 64 l.mask.toNat
    if rs.all (fun k => decide (k ∈ l'.reports)) then
      rs.foldl (fun a k => a.hubAsk (.modelSwitch k (s.period + 4))) (s.setLoad { l' with switchP := some (s.period + 4) })
    else s.setLoad l'
  else if reason = 3 ∧ r ∉ l.resent then
    (s.setLoad { l with resent := l.resent ++ [r] }).hubAsk (.modelImage r l.image.length)
  else failLoad l reason s

theorem takeReport_eq {s : State} {r : Nat} {l : ModelLoad} (hl : s.loadOf r = some l) (hr : r ∉ l.reports)
    (hp : l.switchP = none) (reason : Nat) :
    ∃ u, OnlyMessages s u ∧ takeReport r reason s = reportTaken r reason l u := by
  generalize hv : takeReport r reason s = v
  unfold takeReport at hv
  extract_lets u at hv
  have hu : u.loadOf r = some l := hl
  simp only [hu] at hv
  rw [if_neg (by simp [hr, hp])] at hv
  exact ⟨u, rfl, hv.symm⟩

/-- What the hub does with the acknowledgement of a region that has not acknowledged yet (R118 step 8). -/
def ackTaken (r : Nat) (l : ModelLoad) (s : State) : State :=
  let l' := { l with acks := l.acks ++ [r] }
  if (onesOf 64 l.mask.toNat).all (fun k => decide (k ∈ l'.acks)) then
    (s.modLoads (fun ls => ls.filter (fun x => x.cmd != l.cmd))).complete l.cmd codeOk 0
  else s.setLoad l'

theorem takeSwitchAck_eq {s : State} {r : Nat} {l : ModelLoad} (hl : s.loadOf r = some l) (hr : r ∉ l.acks)
    (hp : l.switchP.isSome = true) :
    ∃ u, OnlyMessages s u ∧ takeSwitchAck r s = ackTaken r l u := by
  generalize hv : takeSwitchAck r s = v
  unfold takeSwitchAck at hv
  extract_lets u at hv
  have hu : u.loadOf r = some l := hl
  simp only [hu] at hv
  rw [if_neg (by simp [hr, Option.isSome_iff_ne_none.1 hp])] at hv
  exact ⟨u, rfl, hv.symm⟩

/-- All named regions are in the list with `r` added, or one is still missing. -/
theorem all_mem_append_singleton (rs ks : List Nat) (r : Nat) :
    rs.all (fun k => decide (k ∈ ks ++ [r])) = true ↔ ∀ k ∈ rs, k = r ∨ k ∈ ks := by
  simp [or_comm]

theorem not_all_of_missing {rs ks : List Nat} {r : Nat} (h : ∃ k ∈ rs, k ≠ r ∧ k ∉ ks) :
    ¬ rs.all (fun k => decide (k ∈ ks ++ [r])) = true := by
  rw [all_mem_append_singleton]
  obtain ⟨k, hk, hr, hks⟩ := h
  exact fun hall => (hall k hk).elim hr hks

/-- A load that leaves the hub's list completes as it would have before. -/
theorem endLoad_rings (s : State) (l : ModelLoad) (code detail : Nat) :
    ((s.modLoads (fun ls => ls.filter (fun x => x.cmd != l.cmd))).complete l.cmd code detail).hub.rings =
      (s.complete l.cmd code detail).hub.rings :=
  complete_rings_congr (s := s) (t := s.modLoads _) rfl rfl ..

section OneLoad
variable {s : State} {l : ModelLoad} (hs : s.hub.loads = [l])
include hs

theorem setLoad_loads {l' : ModelLoad} (hc : l'.cmd = l.cmd) : (s.setLoad l').hub.loads = [l'] := by
  show s.hub.loads.map _ = _
  simp [hs, hc]

theorem endLoad_loads : (s.modLoads (fun ls => ls.filter (fun x => x.cmd != l.cmd))).hub.loads = [] := by
  show s.hub.loads.filter _ = _
  simp [hs]

/-- A good report while another region's is missing. -/
theorem reportTaken_waits {r : Nat} (h : ∃ k ∈ onesOf 64 l.mask.toNat, k ≠ r ∧ k ∉ l.reports) :
    (reportTaken r 0 l s).hub.loads = [{ l with reports := l.reports ++ [r] }] ∧
      (reportTaken r 0 l s).hub.rings = s.hub.rings := by
  unfold reportTaken
  rw [if_pos rfl]
  dsimp only
  rw [if_neg (not_all_of_missing h)]
  exact ⟨setLoad_loads hs rfl, rfl⟩

/-- The last good report sets the switch period and tells it to every named region. -/
theorem reportTaken_switches {r : Nat} (ho : s.owner.isSome = true)
    (h : ∀ k ∈ onesOf 64 l.mask.toNat, k = r ∨ k ∈ l.reports) :
    (reportTaken r 0 l s).hub.loads = [{ l with reports := l.reports ++ [r], switchP := some (s.period + 4) }] ∧
      ∀ k ∈ onesOf 64 l.mask.toNat, Said (reportTaken r 0 l s) (.modelSwitch k (s.period + 4)) := by
  unfold reportTaken
  rw [if_pos rfl]
  dsimp only
  rw [if_pos ((all_mem_append_singleton _ _ _).2 h)]
  constructor
  · rw [(OnlyMessages.foldl (fun a k => hubAsk_onlyMessages a (.modelSwitch k (s.period + 4))) _ _).hub]
    exact setLoad_loads hs rfl
  · exact foldl_hubAsk_said (fun k => .modelSwitch k (s.period + 4)) (onesOf 64 l.mask.toNat) ho

/-- A first report of a bad CRC has the image sent once more. -/
theorem reportTaken_resends {r : Nat} (ho : s.owner.isSome = true) (hr : r ∉ l.resent) :
    (reportTaken r 3 l s).hub.loads = [{ l with resent := l.resent ++ [r] }] ∧
      Said (reportTaken r 3 l s) (.modelImage r l.image.length) := by
  unfold reportTaken
  rw [if_neg (by decide), if_pos ⟨rfl, hr⟩]
  refine ⟨?_, hubAsk_said (s := s.setLoad _) ho _⟩
  rw [State.hubAsk_hub]
  exact setLoad_loads hs rfl

/-- The last acknowledgement completes the load. -/
theorem ackTaken_completes {r : Nat} (h : ∀ k ∈ onesOf 64 l.mask.toNat, k = r ∨ k ∈ l.acks) :
    (ackTaken r l s).hub.loads = [] ∧ (ackTaken r l s).hub.rings = (s.complete l.cmd codeOk 0).hub.rings := by
  unfold ackTaken
  dsimp only
  rw [if_pos ((all_mem_append_singleton _ _ _).2 h)]
  exact ⟨by rw [complete_loads]; exact endLoad_loads hs, endLoad_rings s l codeOk 0⟩

theorem ackTaken_waits {r : Nat} (h : ∃ k ∈ onesOf 64 l.mask.toNat, k ≠ r ∧ k ∉ l.acks) :
    (ackTaken r l s).hub.loads = [{ l with acks := l.acks ++ [r] }] := by
  unfold ackTaken
  dsimp only
  rw [if_neg (not_all_of_missing h)]
  exact setLoad_loads hs rfl

end OneLoad

/-! ### A load that fails -/

theorem dropModel_model (g : Region) : g.dropModel.sage.model = .none := by
  show (g.setModel .none).sage.model = .none
  unfold Region.setModel
  split
  · assumption
  · rfl

/-- Every region named is without a model, whatever order it is named in. -/
theorem foldl_dropModel_model {rs : List Nat} {k : Nat} (hk : k ∈ rs) (s : State) :
    ((rs.foldl (fun a r => a.modRegion r Region.dropModel) s).region k).sage.model = .none := by
  have hstep (t : State) (r : Nat) (h : k = r ∨ (t.region k).sage.model = .none) :
      ((t.modRegion r Region.dropModel).region k).sage.model = .none := by
    by_cases e : k = r
    · subst e; rw [State.modRegion_region_self]; exact dropModel_model _
    · rw [State.modRegion_region_ne t _ e]; exact h.resolve_left e
  induction rs generalizing s with
  | nil => cases hk
  | cons r rs ih =>
    rcases List.mem_cons.1 hk with rfl | hk
    · exact List.foldlRecOn (motive := fun t => (t.region k).sage.model = .none) rs _ (hstep s k (.inl rfl))
        fun t ht r _ => hstep t r (.inr ht)
    · exact ih hk _

theorem foldl_dropModel_hub_pair (rs : List Nat) (s : State) :
    (rs.foldl (fun a r => a.modRegion r Region.dropModel) s).hub = s.hub ∧
      (rs.foldl (fun a r => a.modRegion r Region.dropModel) s).pair = s.pair :=
  List.foldlRecOn (motive := fun t : State => t.hub = s.hub ∧ t.pair = s.pair) rs _ ⟨rfl, rfl⟩ fun _ ht _ _ => ht

/-- A load that fails completes with its reason and leaves every named region without a model. -/
theorem failLoad_ends {s : State} {l : ModelLoad} (hs : s.hub.loads = [l]) (reason : Nat) :
    (failLoad l reason s).hub.loads = [] ∧
      (failLoad l reason s).hub.rings = (s.complete l.cmd codeBadArg reason).hub.rings ∧
      ∀ k ∈ onesOf 64 l.mask.toNat, ((failLoad l reason s).region k).sage.model = .none := by
  obtain ⟨hhub, hpair⟩ := foldl_dropModel_hub_pair (onesOf 64 l.mask.toNat) s
  have hmodel (k : Nat) (hk : k ∈ onesOf 64 l.mask.toNat) := foldl_dropModel_model hk s
  unfold failLoad
  dsimp only
  generalize (onesOf 64 l.mask.toNat).foldl (fun a r => a.modRegion r Region.dropModel) s = t at hhub hpair hmodel ⊢
  have hrings := complete_rings_congr (congrArg Shared.rings hhub) (congrArg Pair.jn hpair) l.cmd codeBadArg reason []
  refine ⟨?_, (endLoad_rings t l codeBadArg reason).trans hrings, fun k hk => ?_⟩
  · rw [complete_loads]; exact endLoad_loads (hhub ▸ hs)
  · unfold State.region
    rw [State.complete_regions]
    exact hmodel k hk

/-- Another reason, or a second bad CRC, ends the load. -/
theorem reportTaken_fails {s : State} {l : ModelLoad} {r reason : Nat} (h0 : reason ≠ 0) (h3 : reason ≠ 3 ∨ r ∈ l.resent) :
    reportTaken r reason l s = failLoad l reason s := by
  unfold reportTaken
  rw [if_neg h0, if_neg (by tauto)]

end Sys2Proof.Machine
end

