-- ==== Sys2Proof/Proofs/CapAndModelMessages.lean ====
section
/-!
PROOF of O37: a lemma for each command, put together at the end.
-/

namespace Sys2Proof.Machine

section AtTheHub
variable {s : State} {r : RegionId} {hdr : MsgHdr}

/-- An acknowledgement is counted, ends the lowering unless it exceeds the lowered cap, and lets the raises go with the last. -/
theorem exec_capAcknowledgement (h : Heard s 0x41 hdr) (cap : Nat) :
    ∃ t, exec (.capAcknowledgement r hdr cap) s = .next t ∧
    (t.region r).caps = { (s.region r).caps with
      lastAck := if (s.region r).emergency then min cap (s.region r).caps.lastAck else cap } ∧
    ((∃ p ∈ s.hub.budget.lowering, p.1 = r.val ∧ p.2.1 < cap) → t.hub.budget.lowering = s.hub.budget.lowering ∧
      t.hub.budget.silent = s.hub.budget.silent ∧ t.hub.budget.raising = s.hub.budget.raising) ∧
    ((∀ p ∈ s.hub.budget.lowering, p.1 = r.val → cap ≤ p.2.1) →
      t.hub.budget.lowering = s.hub.budget.lowering.filter (fun p => p.1 != r.val) ∧
      t.hub.budget.silent = s.hub.budget.silent.filter (fun k => k != r.val) ∧
      ((∀ p ∈ s.hub.budget.lowering, p.1 = r.val) → s.loopRuns = true → (∀ k, (s.gov k).safe = false) →
        t.hub.budget.raising = [] ∧ ∀ p ∈ s.hub.budget.raising, Said t (.cap p.1 p.2.1 p.2.2))) := by
  refine ⟨_, next_hubAccept _ h, ?_⟩
  obtain ⟨hr, w, l, c, hb⟩ := takeCapAck_keeps r cap (s.heard 0x41 hdr)
  rw [journaled_region, journaled_hub]
  refine ⟨?_, fun hlate => ?_, fun hends => ?_⟩
  · unfold State.region
    rw [hr]
    exact capAcked_caps (s.heard 0x41 hdr) r cap
  · have hn : (s.heard 0x41 hdr).ackEnds r cap = false := by
      rw [← Bool.not_eq_true, ackEnds_iff]
      obtain ⟨p, hp, hpr, hlt⟩ := hlate
      exact fun hall => absurd (hall p hp hpr) (by omega)
    refine ⟨?_, ?_, takeCapAck_raising_of_late hn⟩ <;> rw [hb] <;> simp [hn]
  · have hy : (s.heard 0x41 hdr).ackEnds r cap = true := (ackEnds_iff _ _ _).2 hends
    refine ⟨by rw [hb]; simp [hy], by rw [hb]; simp [hy], fun hall hrun hsafe => ?_⟩
    obtain ⟨hnil, hsaid⟩ := takeCapAck_raises (s := s.heard 0x41 hdr) h.1 hy hall hrun hsafe
    exact ⟨hnil, fun p hp => (hsaid p hp).journaled⟩

/-- A report of a region that has not reported on the load in hand. -/
theorem exec_modelCheckReport {l : ModelLoad} (hl : s.loadOf r = some l) (hs : s.hub.loads = [l]) (h : Heard s 0x21 hdr)
    (hr : r.val ∉ l.reports) (hp : l.switchP = none) (reason : Nat) :
    ∃ t, exec (.modelCheckReport r hdr reason) s = .next t ∧
      (reason = 0 → (∃ k ∈ onesOf 64 l.mask.toNat, k ≠ r.val ∧ k ∉ l.reports) →
        t.hub.loads = [{ l with reports := l.reports ++ [r.val] }] ∧ t.hub.rings = s.hub.rings) ∧
      (reason = 0 → (∀ k ∈ onesOf 64 l.mask.toNat, k = r.val ∨ k ∈ l.reports) →
        t.hub.loads = [{ l with reports := l.reports ++ [r.val], switchP := some (s.period + 4) }] ∧
        ∀ k ∈ onesOf 64 l.mask.toNat, Said t (.modelSwitch k (s.period + 4))) ∧
      (reason = 3 → r.val ∉ l.resent → t.hub.loads = [{ l with resent := l.resent ++ [r.val] }] ∧
        Said t (.modelImage r l.image.length)) ∧
      (reason ≠ 0 → (reason ≠ 3 ∨ r.val ∈ l.resent) → t.hub.loads = [] ∧
        t.hub.rings = (s.complete l.cmd codeBadArg reason).hub.rings ∧
        ∀ k ∈ onesOf 64 l.mask.toNat, (t.region k).sage.model = .none) := by
  obtain ⟨u, hu, e⟩ := takeReport_eq (s := s.heard 0x21 hdr) hl hr hp reason
  replace hu := (heard_onlyMessages s 0x21 hdr).trans hu
  have hload : u.hub.loads = [l] := by rw [hu.hub, hs]
  have howner : u.owner.isSome = true := by rw [hu.owner]; exact h.1
  refine ⟨_, next_hubAccept _ h, ?_⟩
  simp only [journaled_hub, journaled_region, e]
  refine ⟨?_, ?_, ?_, fun h0 h3 => ?_⟩
  · rintro rfl hmiss
    obtain ⟨hwait, hrings⟩ := reportTaken_waits hload hmiss
    exact ⟨hwait, by rw [hrings, hu.hub]⟩
  · rintro rfl hall
    obtain ⟨hset, hsaid⟩ := reportTaken_switches hload howner hall
    rw [hu.period] at hset hsaid
    exact ⟨hset, fun k hk => Said.journaled (e ▸ hsaid k hk)⟩
  · rintro rfl hnew
    obtain ⟨hresent, hsaid⟩ := reportTaken_resends hload howner hnew
    exact ⟨hresent, Said.journaled (e ▸ hsaid)⟩
  · rw [reportTaken_fails h0 h3]
    obtain ⟨hend, hrings, hmodel⟩ := failLoad_ends hload reason
    exact ⟨hend, hrings.trans (hu.complete_rings ..), hmodel⟩

/-- An acknowledgement of a region that has not acknowledged the switch in hand. -/
theorem exec_modelSwitchAcknowledgement {l : ModelLoad} (hl : s.loadOf r = some l) (hs : s.hub.loads = [l])
    (h : Heard s 0x23 hdr) (hp : l.switchP.isSome = true) (hr : r.val ∉ l.acks) :
    ∃ t, exec (.modelSwitchAcknowledgement r hdr) s = .next t ∧
      ((∃ k ∈ onesOf 64 l.mask.toNat, k ≠ r.val ∧ k ∉ l.acks) → t.hub.loads = [{ l with acks := l.acks ++ [r.val] }]) ∧
      ((∀ k ∈ onesOf 64 l.mask.toNat, k = r.val ∨ k ∈ l.acks) → t.hub.loads = [] ∧
        t.hub.rings = (s.complete l.cmd codeOk 0).hub.rings) := by
  obtain ⟨u, hu, e⟩ := takeSwitchAck_eq (s := s.heard 0x23 hdr) hl hr hp
  replace hu := (heard_onlyMessages s 0x23 hdr).trans hu
  have hload : u.hub.loads = [l] := by rw [hu.hub, hs]
  refine ⟨_, next_hubAccept _ h, ?_⟩
  simp only [journaled_hub, e]
  refine ⟨ackTaken_waits hload, fun hall => ?_⟩
  obtain ⟨hend, hrings⟩ := ackTaken_completes hload hall
  exact ⟨hend, hrings.trans (hu.complete_rings ..)⟩

/-- A region 4 wafer periods late changes only the hub. -/
theorem exec_childUnacknowledged (hc : s.inControl = true) (hl : ∃ p ∈ s.hub.budget.lowering, p.1 = r.val ∧ 4 ≤ p.2.2) :
    ∃ t, exec (.childUnacknowledged r) s = .next t ∧ r.val ∈ t.hub.budget.silent ∧ { src := 206, cause := 0 } ∈ t.events ∧
      (r.val ∈ pmbusCorners → r.val ∉ s.hub.budget.mute → { src := 206, cause := 1 } ∈ t.events) ∧
      t.hub.budget.lowering = s.hub.budget.lowering.filter (fun p => p.1 != r.val) ∧ t.regions = s.regions := by
  refine ⟨_, rfl, ?_⟩
  simp only [journaled_hub, journaled_events, journaled_regions]
  exact childUnack_late hc hl

end AtTheHub

section AtTheGovernor
variable {s : State} {r : RegionId} {hdr : MsgHdr}

theorem exec_capMessage (h : Accepted s r 0x40 hdr) (cap : Nat) (clear : Bool) :
    exec (.capMessage r hdr cap clear) s = .next
      ((s.noted r 0x40 hdr).modRegion r (fun g => { g with caps := { g.caps with
        waiting := some (cap, clear || (g.caps.waiting.map Prod.snd).getD false), ecap := g.caps.ecap && s.hub.ecap.active } })) :=
  next_congr ((govAccept_eq _ _ h).trans (takeCap_eq r cap clear _))

theorem exec_emergencyCapBroadcast (h : hdr.goodTo true = true) (preset : Nat) :
    ∃ t, exec (.emergencyCapBroadcast r hdr preset) s = .next t ∧
      (t.region r).caps = { (s.region r).caps with
        ecap := true, ecapWait := some (((s.region r).caps.ecapWait.map (fun p => min p preset)).getD preset) } ∧
      (t.region r).spec.state ≠ .standing ∧ (t.region r).sp.vc = (s.region r).sp.vc := by
  refine ⟨_, next_journaled_congr (g := ecapBroadcast r preset) (if_pos h), ?_⟩
  rw [journaled_region]
  exact ecapBroadcast_keeps r preset s

theorem exec_modelImage (h : Accepted s r 0x20 hdr) (off : Nat) (bytes : List Byte) (last : Bool) :
    ∃ t, exec (.modelImage r hdr off bytes last) s = .next t ∧
      let buf := padTo off (s.region r).sage.loadBuf ++ bytes
      (t.region r).sage = { (s.region r).sage with loadBuf := buf } ∧
      (if last then ∃ x, t.out = s.out ++ [.msg (.modelReport r (governorReason buf)) x] else t.out = s.out) :=
  ⟨_, next_congr (govAccept_eq _ _ h), takeImage_keeps r off bytes last (s.noted r 0x20 hdr)⟩

/-- A switch period still to come is noted, one that is past is let go by. -/
theorem exec_modelSwitch (h : Accepted s r 0x22 hdr) (p : BitVec 48) :
    (s.period.toNat < p.toNat → exec (.modelSwitch r hdr p) s = .next
      ((s.noted r 0x22 hdr).modRegion r (fun g => { g with sage := { g.sage with switchAt := some p } }))) ∧
    (p.toNat ≤ s.period.toNat → exec (.modelSwitch r hdr p) s = .next (s.noted r 0x22 hdr)) := by
  constructor
  · exact fun hlt => next_congr ((govAccept_eq _ _ h).trans (if_neg (Nat.not_le.2 hlt)))
  · exact fun hle => next_congr ((govAccept_eq _ _ h).trans (if_pos hle))

end AtTheGovernor

/-- Settles O37: what each message's acceptance carries out, command by command. -/
theorem capAndModelMessagesAct : Obligations.CapAndModelMessagesAct := by
  unfold Obligations.CapAndModelMessagesAct
  intro s r hdr
  refine ⟨?cap, ?ack, ?broadcast, ?silent, ?image, ?switch, ?load⟩
  case cap => exact fun cap clear h => exec_capMessage h cap clear
  case ack => exact fun cap h => exec_capAcknowledgement h cap
  case broadcast => exact fun preset h => exec_emergencyCapBroadcast h preset
  case silent => exact exec_childUnacknowledged
  case image => exact fun off bytes last h => exec_modelImage h off bytes last
  case switch => exact fun p h => exec_modelSwitch h p
  case load =>
    intro l hl hs
    constructor
    · exact fun reason h hr hp => exec_modelCheckReport hl hs h hr hp reason
    · exact fun h hp hr => exec_modelSwitchAcknowledgement hl hs h hp hr

end Sys2Proof.Machine
end

