-- ==== Sys2Proof/Proofs/ArraySums.lean ====
section
/-!
SUPPORT. Sums over an array in canonical form: the sum over its cells and its common value is the sum over its elements.
-/

namespace Sys2Proof

/-- In canonical form a listed cell is what its key reads. -/
theorem SMap.get_of_mem_cells {α : Type} [DecidableEq α] {m : SMap α} (hm : m.wf = true) {p : Nat × α} (hp : p ∈ m.cells) :
    m.get p.1 = p.2 := by
  simp only [SMap.wf, Bool.and_eq_true, decide_eq_true_eq] at hm
  have hinj := List.inj_on_of_nodup_map (hm.1.imp Nat.ne_of_lt)
  unfold SMap.get
  cases hf : m.cells.find? (fun q => q.1 == p.1) with
  | none => exact absurd (List.find?_eq_none.1 hf p hp) (by simp)
  | some q =>
    have hq : q.1 = p.1 := by simpa using List.find?_some hf
    exact congrArg Prod.snd (hinj (List.mem_of_find?_eq_some hf) hp hq)

/-- The sum over an array in canonical form adds up its elements. -/
theorem SMap.sum_eq {α : Type} [DecidableEq α] {m : SMap α} (hm : m.wf = true) (n : Nat) (g : α → Nat) :
    m.sum n g = ∑ k ∈ Finset.range n, g (m.get k) := by
  have hlisted (p : Nat × α) (hp : p ∈ m.listed n) : p ∈ m.cells ∧ p.1 < n := by simpa [SMap.listed] using hp
  have hnodup : ((m.listed n).map Prod.fst).Nodup := by
    simp only [SMap.wf, Bool.and_eq_true, decide_eq_true_eq] at hm
    exact (hm.1.imp Nat.ne_of_lt).sublist (List.filter_sublist.map _)
  let keys := ((m.listed n).map Prod.fst).toFinset
  have hsub : keys ⊆ Finset.range n := by
    intro k hk
    obtain ⟨p, hp, rfl⟩ := List.mem_map.1 (List.mem_toFinset.1 hk)
    exact Finset.mem_range.2 (hlisted p hp).2
  have hkeys : ∑ k ∈ keys, g (m.get k) = ((m.listed n).map (fun p => g p.2)).sum := by
    rw [List.sum_toFinset _ hnodup, List.map_map]
    exact congrArg List.sum (List.map_congr_left fun p hp => congrArg g (SMap.get_of_mem_cells hm (hlisted p hp).1))
  have hrest : ∑ k ∈ Finset.range n \ keys, g (m.get k) = (n - (m.listed n).length) * g m.dflt := by
    have hdflt : ∀ k ∈ Finset.range n \ keys, g (m.get k) = g m.dflt := by
      intro k hk
      rw [Finset.mem_sdiff, Finset.mem_range, List.mem_toFinset] at hk
      refine congrArg g (SMap.get_of_notMem fun hc => hk.2 ?_)
      obtain ⟨p, hp, rfl⟩ := List.mem_map.1 hc
      exact List.mem_map_of_mem (by simp [SMap.listed, hp, hk.1])
    rw [Finset.sum_congr rfl hdflt, Finset.sum_const, smul_eq_mul, Finset.card_sdiff_of_subset hsub, Finset.card_range,
      List.toFinset_card_of_nodup hnodup, List.length_map]
  rw [← Finset.sum_sdiff hsub, hrest, hkeys, SMap.sum]

/-- No element has `p`. -/
theorem SMap.any_eq_false {α : Type} [DecidableEq α] {m : SMap α} (hm : m.wf = true) {n : Nat} {p : α → Bool}
    (h : ∀ k, k < n → p (m.get k) = false) : m.any n p = false := by
  unfold SMap.any SMap.count
  rw [SMap.sum_eq hm, Finset.sum_eq_zero fun k hk => by rw [h k (Finset.mem_range.1 hk)]; rfl]
  rfl

/-- The sum over a range as the model writes it. -/
theorem sum_list_range (n : Nat) (f : Nat → Nat) : ((List.range n).map f).sum = ∑ k ∈ Finset.range n, f k := rfl

/-- Parts of `total`, each scaled by `num` over `total` and rounded down, fit within `num`. -/
theorem sum_scaled_le {ι : Type} (s : Finset ι) (f : ι → Nat) (num : Nat) :
    ∑ i ∈ s, f i * num / ∑ j ∈ s, f j ≤ num := by
  rcases Nat.eq_zero_or_pos (∑ j ∈ s, f j) with h | h
  · simp [h]
  · refine Nat.le_of_mul_le_mul_right ?_ h
    calc (∑ i ∈ s, f i * num / ∑ j ∈ s, f j) * ∑ j ∈ s, f j
        = ∑ i ∈ s, f i * num / (∑ j ∈ s, f j) * ∑ j ∈ s, f j := Finset.sum_mul ..
      _ ≤ ∑ i ∈ s, f i * num := Finset.sum_le_sum fun i _ => Nat.div_mul_le_self ..
      _ = num * ∑ j ∈ s, f j := by rw [← Finset.sum_mul, Nat.mul_comm]

end Sys2Proof
end

