-- ==== Sys2Proof/Proofs/CapDivision.lean ====
section
/-!
SUPPORT. The division of a region's cap (R163, R164, R278): the sums over live clusters, the share of each rule, what the
division gives each cluster.
-/

namespace Sys2Proof.Machine

/-! ### Sums over the live clusters -/

/-- `f` counted at a live cluster alone. -/
def Cluster.ifLive (f : Cluster → Nat) (u : Cluster) : Nat := if u.ctl.spared then 0 else f u

theorem ifLive_of_spared {u : Cluster} (h : u.ctl.spared = true) (f : Cluster → Nat) : u.ifLive f = 0 := if_pos h

theorem ifLive_of_live {u : Cluster} (h : u.ctl.spared = false) (f : Cluster → Nat) : u.ifLive f = f u := if_neg (by simp [h])

/-- The sum of `f` over a region's live clusters. -/
def liveSum (m : SMap Cluster) (f : Cluster → Nat) : Nat := ∑ c ∈ Finset.range 576, (m.get c).ifLive f

theorem liveSum_le_of_le {m : SMap Cluster} {f g : Cluster → Nat} (h : ∀ u, f u ≤ g u) : liveSum m f ≤ liveSum m g :=
  Finset.sum_le_sum fun c _ => by
    unfold Cluster.ifLive
    split
    · exact Nat.le_refl 0
    · exact h _

theorem liveSum_add (m : SMap Cluster) (f g : Cluster → Nat) : liveSum m (fun u => f u + g u) = liveSum m f + liveSum m g := by
  unfold liveSum
  rw [← Finset.sum_add_distrib]
  refine Finset.sum_congr rfl fun c _ => ?_
  unfold Cluster.ifLive
  split <;> rfl

theorem liveSum_const (m : SMap Cluster) (x : Nat) : liveSum m (fun _ => x) = liveSum m (fun _ => 1) * x := by
  unfold liveSum
  rw [Finset.sum_mul]
  refine Finset.sum_congr rfl fun c _ => ?_
  unfold Cluster.ifLive
  split <;> simp

/-- Parts of a total, scaled by `num` over it, fit within `num`. -/
theorem liveSum_scaled_le (m : SMap Cluster) (f : Cluster → Nat) (num : Nat) :
    liveSum m (fun u => f u * num / liveSum m f) ≤ num := by
  refine Nat.le_trans (Nat.le_of_eq (Finset.sum_congr rfl fun c _ => ?_))
    (sum_scaled_le (Finset.range 576) (fun c => (m.get c).ifLive f) num)
  show (m.get c).ifLive _ = (m.get c).ifLive f * num / liveSum m f
  unfold Cluster.ifLive
  split <;> simp

section Canonical
variable {m : SMap Cluster} (hm : m.wf = true)
include hm

theorem sum_eq_liveSum (f : Cluster → Nat) : m.sum 576 (fun u => if u.ctl.spared then 0 else f u) = liveSum m f :=
  SMap.sum_eq hm 576 _

/-- The scaled reservations fit within the cap (R163, R227). -/
theorem liveSum_scaled_res_le (iReg : Nat) : liveSum m (fun u => scaled iReg (resSum m) u.ctl.res) ≤ iReg := by
  have htotal : resSum m = liveSum m (fun u => u.ctl.res) := sum_eq_liveSum hm _
  unfold scaled
  split
  · rw [htotal]; exact liveSum_scaled_le m _ iReg
  · rw [← htotal]; omega

/-- The sums that a division needs, over the live clusters. -/
theorem wantSums_eq {w : Cluster → Want} (hlive : ∀ u, (w u).live = !u.ctl.spared) :
    wantSums (m.mapAll w) = (liveSum m (fun u => (w u).need), liveSum m (fun u => (w u).res), liveSum m (fun _ => 1)) := by
  have hw := SMap.wf_mapAll m w hm
  have hsum (f : Want → Nat) : (m.mapAll w).sum 576 (fun x => if x.live then f x else 0) = liveSum m (fun u => f (w u)) := by
    rw [SMap.sum_eq hw]
    refine Finset.sum_congr rfl fun c _ => ?_
    rw [SMap.get_mapAll, hlive, Cluster.ifLive]
    cases (m.get c).ctl.spared <;> rfl
  have hcount : (m.mapAll w).count 576 (fun x => x.live) = liveSum m (fun _ => 1) := by
    refine Eq.trans ?_ (hsum fun _ => 1)
    unfold SMap.count
    exact congrArg _ (funext fun x => by unfold bitNat; rfl)
  unfold wantSums
  rw [hsum, hsum, hcount]

end Canonical

/-! ### The share of R163 -/

/-- With the needs within the cap, a cluster gets no more than its need and an equal part of the rest. -/
theorem share_le_of_slack {d : Div} {needs ress live : Nat} (w : Want) (h : needs ≤ d.iReg) :
    d.share (needs, ress, live) w ≤ w.need + (d.iReg - needs) / live := by
  have hx : min 255 (w.need + (d.iReg - needs) / live) ≤ w.need + (d.iReg - needs) / live := Nat.min_le_right ..
  unfold Div.share
  simp only [if_pos h]
  split
  · exact Nat.le_trans (Nat.min_le_left ..) hx
  · exact hx

/-- With the needs above the cap, a cluster gets no more than its reservation and its part of what the reservations leave. -/
theorem share_le_of_short {d : Div} {needs ress live : Nat} (w : Want) (h : d.iReg < needs) :
    d.share (needs, ress, live) w ≤ w.res + (w.need - w.res) * (d.iReg - ress) / (needs - ress) := by
  unfold Div.share
  simp only [if_neg (Nat.not_le.2 h)]
  split
  · exact Nat.min_le_left ..
  · exact Nat.le_refl _

/-- Whatever the clusters want, with the reservations within the cap and no need below its reservation the shares of one
division fit the cap. -/
theorem liveSum_share_le {d : Div} {m : SMap Cluster} (hm : m.wf = true) {w : Cluster → Want}
    (hlive : ∀ u, (w u).live = !u.ctl.spared) (hneed : ∀ u, (w u).res ≤ (w u).need)
    (hres : liveSum m (fun u => (w u).res) ≤ d.iReg) :
    liveSum m (fun u => d.share (wantSums (m.mapAll w)) (w u)) ≤ d.iReg := by
  rw [wantSums_eq hm hlive]
  set needs := liveSum m (fun u => (w u).need) with hneeds
  set ress := liveSum m (fun u => (w u).res) with hress
  set live := liveSum m (fun _ => 1)
  by_cases h : needs ≤ d.iReg
  · calc liveSum m (fun u => d.share (needs, ress, live) (w u))
        ≤ liveSum m (fun u => (w u).need + (d.iReg - needs) / live) := liveSum_le_of_le fun u => share_le_of_slack (w u) h
      _ = needs + live * ((d.iReg - needs) / live) := by rw [liveSum_add, liveSum_const]
      _ ≤ needs + (d.iReg - needs) := Nat.add_le_add_left (Nat.mul_div_le ..) _
      _ = d.iReg := Nat.add_sub_cancel' h
  · have hrest : liveSum m (fun u => (w u).need - (w u).res) = needs - ress := by
      have hsplit : liveSum m (fun u => (w u).res + ((w u).need - (w u).res)) = needs :=
        congrArg (liveSum m) (funext fun u => Nat.add_sub_cancel' (hneed u))
      rw [liveSum_add] at hsplit
      omega
    calc liveSum m (fun u => d.share (needs, ress, live) (w u))
        ≤ liveSum m (fun u => (w u).res + ((w u).need - (w u).res) * (d.iReg - ress) / (needs - ress)) :=
          liveSum_le_of_le fun u => share_le_of_short (w u) (Nat.not_le.1 h)
      _ = ress + liveSum m (fun u => ((w u).need - (w u).res) * (d.iReg - ress) / (needs - ress)) := liveSum_add ..
      _ ≤ ress + (d.iReg - ress) := by rw [← hrest]; exact Nat.add_le_add_left (liveSum_scaled_le ..) _
      _ = d.iReg := Nat.add_sub_cancel' hres

/-! ### What the division gives -/

/-- The share of R163 under the codes of the division. -/
def Div.newShare (d : Div) (m : SMap Cluster) (u : Cluster) : Nat :=
  d.share (wantSums (m.mapAll (fun u => d.want (resSum m) u.nextCode u))) (d.want (resSum m) u.nextCode u)

/-- The share that an emergency action alone gives (R280). -/
def Div.directShare (d : Div) (mR : Nat → Nat) (m : SMap Cluster) (u : Cluster) : Nat :=
  d.share (wantSums (m.mapAll (d.wantBefore (resSum m) mR))) (d.wantBefore (resSum m) mR u)

/-- The share while a tightening waits (R278). -/
def Div.waitShare (d : Div) (mR : Nat → Nat) (m : SMap Cluster) (larger : Bool) (u : Cluster) : Nat :=
  u.heldShare mR larger (scaled d.iReg (resSum m) u.ctl.res) (d.newShare m u)

/-- A tightening waits at some live cluster. -/
def tightWaits (mR : Nat → Nat) (m : SMap Cluster) : Bool := m.any 576 (fun u => !u.ctl.spared && u.tight mR)

/-- The shares together fit within `limit`. -/
def sharesFit (m : SMap Cluster) (limit : Nat) (f : Cluster → Nat) : Bool :=
  decide (m.sum 576 (fun u => if u.ctl.spared then 0 else f u) ≤ limit)

/-- The share that the division gives a live cluster. -/
def Div.given (d : Div) (mR : Nat → Nat) (hold cut : Bool) (limit : Nat) (m : SMap Cluster) : Cluster → Nat :=
  if !(hold && tightWaits mR m) then d.newShare m
  else if cut then fun u => min (d.directShare mR m u) (d.waitShare mR m true u)
  else if sharesFit m limit (d.waitShare mR m true) then d.waitShare mR m true
  else if sharesFit m limit (d.waitShare mR m false) then d.waitShare mR m false
  else d.newShare m

section Divided
variable (d : Div) (mR : Nat → Nat) (hold cut : Bool) (limit : Nat) {m : SMap Cluster} {c : Nat}

theorem divide_of_spared (h : (m.get c).ctl.spared = true) :
    ((d.divide mR hold cut limit m).get c).ctl.share = 0 ∧ ((d.divide mR hold cut limit m).get c).ctl.ceil = 0 := by
  unfold Div.divide
  simp only [SMap.get_mapAll, h, if_true, and_self]

theorem divide_of_live (h : (m.get c).ctl.spared = false) :
    ((d.divide mR hold cut limit m).get c).ctl.share = d.given mR hold cut limit m (m.get c) ∧
      ((d.divide mR hold cut limit m).get c).ctl.ceil =
        d.ceilOf (d.want (resSum m) (m.get c).nextCode (m.get c)) ((d.divide mR hold cut limit m).get c).ctl.share := by
  unfold Div.divide
  simp only [SMap.get_mapAll, h, Bool.false_eq_true, if_false, and_true]
  rfl

end Divided

theorem wantBefore_live_res (d : Div) (mR : Nat → Nat) (total : Nat) (u : Cluster) :
    (d.wantBefore total mR u).live = (!u.ctl.spared) ∧ (d.wantBefore total mR u).res = scaled d.iReg total u.ctl.res ∧
      (d.wantBefore total mR u).res ≤ (d.wantBefore total mR u).need := by
  unfold Div.wantBefore
  split
  · exact ⟨rfl, rfl, Nat.le_max_left ..⟩
  · exact ⟨rfl, rfl, Nat.le_max_left ..⟩

section Fits
variable {m : SMap Cluster} (hm : m.wf = true) (d : Div) (mR : Nat → Nat)
include hm

theorem liveSum_newShare_le : liveSum m (d.newShare m) ≤ d.iReg :=
  liveSum_share_le hm (fun _ => rfl) (fun _ => Nat.le_max_left ..) (liveSum_scaled_res_le hm d.iReg)

theorem liveSum_directShare_le : liveSum m (d.directShare mR m) ≤ d.iReg := by
  have hw := wantBefore_live_res d mR (resSum m)
  refine liveSum_share_le hm (fun u => (hw u).1) (fun u => (hw u).2.2) ?_
  simp only [fun u => (hw u).2.1]
  exact liveSum_scaled_res_le hm d.iReg

theorem liveSum_le_of_sharesFit {limit : Nat} {f : Cluster → Nat} (h : sharesFit m limit f = true) : liveSum m f ≤ limit := by
  rw [← sum_eq_liveSum hm]
  exact of_decide_eq_true h

/-- The shares given fit the cap, or the cap in force before (R44, R278). -/
theorem liveSum_given_le (hold cut : Bool) (limit : Nat) :
    liveSum m (d.given mR hold cut limit m) ≤ max d.iReg limit := by
  have hnew := Nat.le_trans (liveSum_newShare_le hm d) (Nat.le_max_left d.iReg limit)
  unfold Div.given
  split_ifs with _ _ hfit hfit'
  · exact hnew
  · exact Nat.le_trans (Nat.le_trans (liveSum_le_of_le fun u => Nat.min_le_left ..) (liveSum_directShare_le hm d mR))
      (Nat.le_max_left ..)
  · exact Nat.le_trans (liveSum_le_of_sharesFit hm hfit) (Nat.le_max_right ..)
  · exact Nat.le_trans (liveSum_le_of_sharesFit hm hfit') (Nat.le_max_right ..)
  · exact hnew

/-- With no tightening waiting, or with shares not held, the shares given fit the cap (R163). -/
theorem liveSum_given_le_of_not_held {hold : Bool}
    (h : hold = false ∨ ∀ c, c < 576 → (m.get c).ctl.spared = false → (m.get c).tight mR = false) (cut : Bool) (limit : Nat) :
    liveSum m (d.given mR hold cut limit m) ≤ d.iReg := by
  have hno : (hold && tightWaits mR m) = false := by
    rcases h with rfl | h
    · rfl
    · have hw : tightWaits mR m = false := SMap.any_eq_false hm fun c hc => by
        cases hs : (m.get c).ctl.spared
        · simp [h c hc hs]
        · rfl
      rw [hw, Bool.and_false]
  unfold Div.given
  rw [hno]
  exact liveSum_newShare_le hm d

end Fits

/-! ### The ceiling of R164 -/

theorem ceilDiv_le_ceilDiv {x y : Nat} (h : x ≤ y) (n : Nat) : ceilDiv x n ≤ ceilDiv y n :=
  Nat.div_le_div_right (Nat.add_le_add_right h _)

/-- A higher code takes no less current (R162). -/
theorem q_le_q (k : Coefs) (vc v a : Nat) {i j : Nat} (h : i ≤ j) : k.q vc v a i ≤ k.q vc v a j :=
  ceilDiv_le_ceilDiv (Nat.mul_le_mul_right vc (Nat.add_le_add_left (Nat.mul_le_mul_right a h) _)) _

/-- The greatest of a list and 0 is one of them, and none is greater. -/
theorem foldl_max_greatest (l : List Nat) : l.foldl max 0 ∈ 0 :: l ∧ ∀ x ∈ 0 :: l, x ≤ l.foldl max 0 :=
  List.max?_eq_some_iff.1 (List.max?_cons' (x := 0) (xs := l))

/-- The ceiling is the largest code whose current is within the share, 0 where none is. -/
theorem ceilOf_greatest (d : Div) (w : Want) (share : Nat) :
    d.ceilOf w share ≤ 64 ∧ (∀ k, k ≤ 64 → d.k.q d.vc w.v w.a k ≤ share → k ≤ d.ceilOf w share) ∧
      (d.k.q d.vc w.v w.a 0 ≤ share → d.k.q d.vc w.v w.a (d.ceilOf w share) ≤ share) ∧
      (share < d.k.q d.vc w.v w.a 0 → d.ceilOf w share = 0) := by
  have hcodes (k : Nat) : k ∈ (List.range 65).filter (fun r => decide (d.k.q d.vc w.v w.a r ≤ share)) ↔
      k ≤ 64 ∧ d.k.q d.vc w.v w.a k ≤ share := by simp [Nat.lt_succ_iff]
  obtain ⟨hmem, hle⟩ := foldl_max_greatest ((List.range 65).filter (fun r => decide (d.k.q d.vc w.v w.a r ≤ share)))
  rw [List.mem_cons, hcodes] at hmem
  change d.ceilOf w share = 0 ∨ d.ceilOf w share ≤ 64 ∧ d.k.q d.vc w.v w.a (d.ceilOf w share) ≤ share at hmem
  refine ⟨?_, fun k hk hq => hle k (List.mem_cons_of_mem _ ((hcodes k).2 ⟨hk, hq⟩)), fun h0 => ?_, fun h0 => ?_⟩
  · rcases hmem with h | h
    · omega
    · exact h.1
  · rcases hmem with h | h
    · rwa [h]
    · exact h.2
  · rcases hmem with h | h
    · exact h
    · exact absurd (Nat.le_trans (q_le_q d.k d.vc w.v w.a (Nat.zero_le _)) h.2) (Nat.not_le.2 h0)

/-- The per-code term that a division counts for a cluster (R162, R165). -/
def Div.term (d : Div) (f : Feature) : Nat := if d.useMax ∨ f.aPrev = 0 then d.k.aMax else f.aPrev

/-- A live cluster's ceiling after the division, by its share. -/
theorem divide_ceil_greatest (d : Div) (mR : Nat → Nat) (hold cut : Bool) (limit : Nat) {m : SMap Cluster} {c : Nat}
    (h : (m.get c).ctl.spared = false) :
    let q := d.k.q d.vc (m.get c).feature.vPrev (d.term (m.get c).feature)
    let x := ((d.divide mR hold cut limit m).get c).ctl.share
    let e := ((d.divide mR hold cut limit m).get c).ctl.ceil
    e ≤ 64 ∧ (∀ k, k ≤ 64 → q k ≤ x → k ≤ e) ∧ (q 0 ≤ x → q e ≤ x) ∧ (x < q 0 → e = 0) := by
  intro q x e
  have he : e = d.ceilOf (d.want (resSum m) (m.get c).nextCode (m.get c)) x := (divide_of_live d mR hold cut limit h).2
  rw [he]
  exact ceilOf_greatest d _ x

end Sys2Proof.Machine
end

