-- ==== Sys2Proof/Proofs/SharesInTheCap.lean ====
section
/-!
PROOF of O59: the region's clusters after its division, and the bound of R278 on their shares
(notes/assumptions/48.md).
-/

namespace Sys2Proof.Machine

/-- The division of a region's cap as `divideRegion` makes it. -/
def State.division (s : State) (r : Nat) (guard : Bool) : Div :=
  ⟨s.coefs r, (s.region r).sp.vc, (s.region r).caps.iReg, guard⟩

/-- The region's clusters with the uncapped ceilings of R274. -/
def State.uncappedClusters (s : State) (r : Nat) (guard : Bool) : SMap Cluster :=
  ({ s.division r guard with iReg := (s.region r).caps.calm } : Div).uncapped (s.region r).clusters

/-- The m_r that the division judges tightenings by. -/
def State.newMR (s : State) (r : Nat) (guard : Bool) : Nat → Nat :=
  slotMR ((s.region r).slots.map (fun x => { x with mR := x.least (s.uncappedClusters r guard) }))

/-- The clusters after the division, in a region that passed its self-test. -/
theorem divideRegion_clusters {s : State} {r : Nat} (guard : Bool) (h : (s.region r).therm.selfTest = false) :
    ((divideRegion r guard s).region r).clusters =
      (s.division r guard).divide (s.newMR r guard) (s.holdShares r) (s.region r).cut
        (max (s.region r).caps.iReg (s.region r).caps.lastAck) (s.uncappedClusters r guard) := by
  unfold divideRegion
  rw [State.modRegion_region_self]
  simp only [h]
  rfl

/-- The uncapped ceilings are all that the first pass changes in a cluster. -/
theorem get_uncappedClusters (s : State) (r : Nat) (guard : Bool) (c : Nat) :
    ∃ e, (s.uncappedClusters r guard).get c = { (s.region r).clusters.get c with
      ctl := { ((s.region r).clusters.get c).ctl with uncapped := e } } :=
  ⟨_, SMap.get_mapAll ..⟩

theorem uncappedClusters_spared (s : State) (r : Nat) (guard : Bool) (c : Nat) :
    ((s.uncappedClusters r guard).get c).ctl.spared = ((s.region r).clusters.get c).ctl.spared := by
  obtain ⟨e, h⟩ := get_uncappedClusters s r guard c
  rw [h]

theorem uncappedClusters_feature (s : State) (r : Nat) (guard : Bool) (c : Nat) :
    ((s.uncappedClusters r guard).get c).feature = ((s.region r).clusters.get c).feature := by
  obtain ⟨e, h⟩ := get_uncappedClusters s r guard c
  rw [h]

theorem uncappedClusters_tight (s : State) (r : Nat) (guard : Bool) (c : Nat) (mR : Nat → Nat) :
    ((s.uncappedClusters r guard).get c).tight mR = ((s.region r).clusters.get c).tight mR := by
  obtain ⟨e, h⟩ := get_uncappedClusters s r guard c
  rw [h]
  rfl

/-- Settles O59: each rule of the division gives shares within its bound, and the ceiling is the greatest code that its
share allows. -/
theorem sharesStayWithinTheCap : Obligations.SharesStayWithinTheCap := by
  unfold Obligations.SharesStayWithinTheCap
  intro s r guard hwf htest
  rw [divideRegion_clusters guard htest]
  have hm : (s.uncappedClusters r guard).wf = true := SMap.wf_mapAll _ _ hwf
  have hspared := uncappedClusters_spared s r guard
  intro g d m free slots sum
  have hsum : sum m = liveSum (s.uncappedClusters r guard) (d.given (s.newMR r guard) (s.holdShares r) g.cut
      (max g.caps.iReg g.caps.lastAck) (s.uncappedClusters r guard)) := by
    refine (sum_list_range 576 _).trans (Finset.sum_congr rfl fun c _ => ?_)
    cases hs : (g.clusters.get c).ctl.spared
    · rw [ifLive_of_live (by rw [hspared, hs])]
      exact (divide_of_live _ _ _ _ _ (by rw [hspared, hs])).1
    · rw [ifLive_of_spared (by rw [hspared, hs])]
      rfl
  refine ⟨fun h => ?_, ?_, fun c _ hc => ?_, fun c _ hc => ?_⟩
  · rw [hsum]
    refine liveSum_given_le_of_not_held hm d _ (h.imp_right fun ht c hc hs => ?_) _ _
    rw [uncappedClusters_tight]
    exact ht c hc (hspared c ▸ hs)
  · rw [hsum]
    refine Nat.le_trans (liveSum_given_le hm d _ _ _ _) (Nat.le_trans ?_ (Nat.le_max_left ..))
    exact Nat.max_le.2 ⟨Nat.le_max_left .., Nat.le_refl _⟩
  · exact divide_of_spared _ _ _ _ _ ((hspared c).trans hc)
  · have hceil := divide_ceil_greatest d (s.newMR r guard) (s.holdShares r) g.cut (max g.caps.iReg g.caps.lastAck)
      ((hspared c).trans hc)
    rw [uncappedClusters_feature] at hceil
    exact hceil

end Sys2Proof.Machine
end

