-- ==== Sys2Proof/Proofs/LimiterSteps.lean ====
section
/-!
SUPPORT. One limiter (R150–R154, R157): the code the forces allow, what the forces, the move toward the target and a whole step
leave of it, and the requests that a step admits.
-/

namespace Sys2Proof.Machine

/-! ### The forces -/

theorem forceCode_of_trip (safe droop : Bool) (l : Limiter) : forceCode true safe droop l = 0 := by
  unfold forceCode
  cases safe <;> simp

theorem forceCode_le_of_safe (trip droop : Bool) (l : Limiter) : forceCode trip true droop l ≤ 8 := by
  unfold forceCode
  dsimp only
  split
  · exact Nat.le_trans (Nat.min_le_left ..) (Nat.min_le_right ..)
  · exact Nat.min_le_right ..

theorem forceCode_le_floor (trip safe : Bool) {droop : Bool} {l : Limiter}
    (h : droop = true ∨ l.hold = true ∨ l.err = true) : forceCode trip safe droop l ≤ l.d := by
  unfold forceCode
  dsimp only
  rw [if_pos (by simpa [or_assoc] using h)]
  exact Nat.min_le_right ..

theorem forceCode_of_none {l : Limiter} (hh : l.hold = false) (he : l.err = false) : forceCode false false false l = 64 := by
  simp [forceCode, hh, he]

/-- The forces lower the effective code to theirs, and with it may set the recovery and its count. -/
theorem applyForce_eq (trip safe droop : Bool) (l : Limiter) : ∃ rec n, l.applyForce trip safe droop =
    { l with e := min l.e (forceCode trip safe droop l), recovering := rec, cnt := n } := by
  unfold Limiter.applyForce
  dsimp only
  split
  · next h => exact ⟨true, 0, by rw [Nat.min_eq_right (Nat.le_of_lt h)]⟩
  · next h => exact ⟨l.recovering, l.cnt, by rw [Nat.min_eq_left (Nat.not_lt.1 h)]⟩

theorem applyForce_of_le {trip safe droop : Bool} {l : Limiter} (h : l.e ≤ forceCode trip safe droop l) :
    l.applyForce trip safe droop = l := if_neg (Nat.not_lt.2 h)

/-! ### The move toward the target -/

/-- The slope in force: while the limiter recovers, the lesser of its two (R153). -/
def Limiter.slope (l : Limiter) : Nat := if l.recovering then min l.k l.kRec else l.k

theorem climb_ifs (f launch launchIdle : Nat) (l : Limiter) : l.climb f launch launchIdle =
    if launchIdle ≤ l.idleSteps then { l with e := min l.e launch, cnt := 0 }
    else if l.t < l.e then { l with e := l.t, cnt := 0 }
    else if l.err = false ∧ l.e < min l.t f then
      if l.slope = 0 then l
      else if stepsPerCode l.slope ≤ l.cnt + 1 then { l with e := l.e + 1, cnt := 0 } else { l with cnt := l.cnt + 1 }
    else l := rfl

/-- A move changes the code and its count alone, and takes no code above that of the forces. -/
theorem climb_eq (f launch launchIdle : Nat) (l : Limiter) :
    ∃ e n, l.climb f launch launchIdle = { l with e := e, cnt := n } ∧ (l.e ≤ f → e ≤ f) := by
  rw [climb_ifs]
  split_ifs with hidle hfall hrise hslope hdue
  · exact ⟨_, _, rfl, fun h => Nat.le_trans (Nat.min_le_left ..) h⟩
  · exact ⟨_, _, rfl, fun h => Nat.le_trans (Nat.le_of_lt hfall) h⟩
  · exact ⟨_, _, rfl, id⟩
  · exact ⟨_, _, rfl, fun _ => Nat.le_trans hrise.2 (Nat.min_le_right ..)⟩
  · exact ⟨_, _, rfl, id⟩
  · exact ⟨_, _, rfl, id⟩

/-- The code after a move of a core that issues, with no error standing: at T at once from above, one code up from below once the
steps of the slope are over. -/
theorem climb_code {f launch launchIdle : Nat} {l : Limiter} (hidle : l.idleSteps < launchIdle) (herr : l.err = false)
    (ht : l.t ≤ f) : (l.climb f launch launchIdle).e =
      if l.t < l.e then l.t else if l.e < l.t ∧ l.slope ≠ 0 ∧ 2 ^ (7 - l.slope) ≤ l.cnt + 1 then l.e + 1 else l.e := by
  rw [climb_ifs, if_neg (Nat.not_le.2 hidle), Nat.min_eq_left ht]
  simp only [herr, true_and]
  by_cases hfall : l.t < l.e
  · simp only [if_pos hfall]
  · simp only [if_neg hfall]
    by_cases hrise : l.e < l.t
    · by_cases hslope : l.slope = 0
      · simp [hrise, hslope]
      · simp only [hrise, hslope, if_true, if_false, ne_eq, not_false_eq_true, true_and]
        exact apply_ite Limiter.e ..
    · simp [hrise]

/-! ### The requests admitted -/

theorem bitOf_eq_testBit (w i : Nat) : bitOf w i = w.testBit i := by
  rw [Nat.testBit_eq_decide_div_mod_eq, ← Nat.shiftRight_eq_div_pow]
  rfl

theorem mem_onesOf {n v i : Nat} : i ∈ onesOf n v ↔ i < n ∧ bitOf v i = true := by simp [onesOf]

theorem testBit_bitsFrom (l : List Nat) (i : Nat) : (bitsFrom l).testBit i = decide (i ∈ l) := by
  have hacc (a : Nat) : (l.foldl (fun acc i => acc ||| 2 ^ i) a).testBit i = (a.testBit i || decide (i ∈ l)) := by
    induction l generalizing a with
    | nil => simp
    | cons j rest ih =>
      rw [List.foldl_cons, ih, Nat.testBit_or, Nat.testBit_two_pow]
      simp [Bool.or_assoc, eq_comm]
  exact (hacc 0).trans (by simp)

/-- A request is granted where R150's pattern admits its cycle. -/
theorem getLsbD_admitted (e p : Nat) (req : BitVec 16) {i : Nat} (hi : i < 16) :
    (admitted e p req).getLsbD i = (req.getLsbD i && admits e (4 * p + i / 4)) := by
  have hreq : i ∈ onesOf 16 req.toNat ↔ req.getLsbD i = true := by
    rw [mem_onesOf, bitOf_eq_testBit]
    exact and_iff_right hi
  rw [admitted, BitVec.getLsbD_ofNat, testBit_bitsFrom, Bool.eq_iff_iff]
  simp [hi, List.mem_filter, hreq]

/-! ### A step -/

/-- The forces' part of a step: the code, the idle count, the grants and the place. -/
def Limiter.issue (trip safe droop : Bool) (req : BitVec 16) (l : Limiter) : Limiter :=
  let l0 := l.applyForce trip safe droop
  { l0.countIdle (req != 0) with granted := admitted l0.e l0.place req, place := l0.place + 1 }

/-- A limiter at its target has recovered (R153). -/
def Limiter.settle (l : Limiter) : Limiter := if l.t ≤ l.e then { l with recovering := false } else l

theorem settle_eq (l : Limiter) : ∃ b, l.settle = { l with recovering := b } := by
  unfold Limiter.settle
  split
  · exact ⟨false, rfl⟩
  · exact ⟨l.recovering, rfl⟩

section Step
variable (trip safe droop : Bool) (launch launchIdle : Nat) (req : BitVec 16) (l : Limiter)

theorem step_eq : l.step trip safe droop launch launchIdle req =
    ((l.issue trip safe droop req).climb (forceCode trip safe droop (l.issue trip safe droop req)) launch launchIdle).settle := rfl

theorem issue_eq : ∃ rec n idle, l.issue trip safe droop req = { l with
    e := min l.e (forceCode trip safe droop l), recovering := rec, cnt := n, idleSteps := idle, place := l.place + 1
    granted := admitted (l.applyForce trip safe droop).e l.place req } := by
  obtain ⟨rec, n, h⟩ := applyForce_eq trip safe droop l
  unfold Limiter.issue
  rw [h]
  exact ⟨rec, n, _, rfl⟩

/-- What a step leaves: no code above the forces', T and D, the place moved on, the grants by the code that the forces allowed. -/
theorem step_keeps :
    let l' := l.step trip safe droop launch launchIdle req
    l'.e ≤ forceCode trip safe droop l ∧ l'.t = l.t ∧ l'.d = l.d ∧ l'.place = l.place + 1 ∧
      l'.granted = admitted (l.applyForce trip safe droop).e l.place req := by
  intro l'
  obtain ⟨rec, n, idle, hissue⟩ := issue_eq trip safe droop req l
  obtain ⟨e, n', hclimb, hle⟩ :=
    climb_eq (forceCode trip safe droop (l.issue trip safe droop req)) launch launchIdle (l.issue trip safe droop req)
  obtain ⟨b, hsettle⟩ := settle_eq
    ((l.issue trip safe droop req).climb (forceCode trip safe droop (l.issue trip safe droop req)) launch launchIdle)
  have hstep : l' = _ := hsettle
  rw [hstep, hclimb, hissue]
  rw [hissue] at hle
  exact ⟨hle (Nat.min_le_right ..), rfl, rfl, rfl, rfl⟩

variable {launchIdle req l}

/-- Below every force the code of an issuing core moves toward T alone. -/
theorem step_code_of_no_force (hhold : l.hold = false) (herr : l.err = false) (he : l.e ≤ 64) (ht : l.t ≤ 64) (hreq : req ≠ 0)
    (hidle : 0 < launchIdle) : (l.step false false false launch launchIdle req).e =
      if l.t < l.e then l.t else if l.e < l.t ∧ l.slope ≠ 0 ∧ 2 ^ (7 - l.slope) ≤ l.cnt + 1 then l.e + 1 else l.e := by
  have hforce := forceCode_of_none hhold herr
  have hissue : l.issue false false false req = { l with
      idleSteps := 0, granted := admitted l.e l.place req, place := l.place + 1 } := by
    have hbusy : (req != 0) = true := by simpa using hreq
    simp only [Limiter.issue, Limiter.countIdle, applyForce_of_le (hforce ▸ he), hbusy, if_true]
  obtain ⟨b, hsettle⟩ := settle_eq
    ((l.issue false false false req).climb (forceCode false false false (l.issue false false false req)) launch launchIdle)
  rw [step_eq, hsettle, hissue]
  exact climb_code (f := forceCode false false false l) hidle herr (hforce ▸ ht)

end Step

end Sys2Proof.Machine
end

