-- ==== Sys2Proof/Proofs/LimiterWords.lean ====
section
/-!
SUPPORT. A word on the limiter bus (R155–R160): what it leaves at each limiter of the region, and at the governor.
-/

namespace Sys2Proof.Machine

/-! ### A good word at a limiter -/

theorem take_target {x : SettingWord} (h : x.kind = 0) (code : Nat) (l : Limiter) : l.take x code =
    { l.setTarget code x.slope with nodeCode := x.code, nodeSlope := x.slope, err := false } := by
  unfold Limiter.take
  simp only [h]

theorem take_recovery {x : SettingWord} (h : x.kind = 1) (code : Nat) (l : Limiter) :
    l.take x code = { l with kRec := x.slope } := by
  unfold Limiter.take
  simp only [h]

theorem take_floor {x : SettingWord} (h : x.kind = 2) (code : Nat) (l : Limiter) : l.take x code = { l with d := x.code } := by
  unfold Limiter.take
  simp only [h]

theorem take_hold {x : SettingWord} (h : x.kind = 3) (code : Nat) (l : Limiter) :
    (l.take x code).hold = x.flag ∧ (l.take x code).e = (if x.flag then min l.e l.d else l.e) ∧ (l.take x code).t = l.t ∧
      (l.take x code).k = l.k := by
  unfold Limiter.take
  simp only [h]
  cases x.flag
  · exact ⟨rfl, rfl, rfl, rfl⟩
  · exact ⟨rfl, rfl, rfl, rfl⟩

/-! ### A good word at a node -/

/-- The cores that the defect map does not hold keep their limiters (R60). -/
theorem holdDead_limiter {u : Cluster} {j : Nat} (h : bitOf u.ctl.heldCores.toNat j = false) :
    u.holdDead.limiters.get j = u.limiters.get j :=
  SMap.get_modifyAll_ne _ _ _ fun hj => by simp [mem_onesOf, h] at hj

section Node
variable (x : SettingWord) {u : Cluster} {j : Nat} (hj : bitOf u.ctl.heldCores.toNat j = false)
include hj

theorem take_all_limiter : (u.take x none).limiters.get j = (u.limiters.get j).take x (u.clamp x.code) := by
  unfold Cluster.take
  rw [holdDead_limiter (by exact hj)]
  exact SMap.get_mapAll ..

theorem take_core_limiter (n : Nat) : (u.take x (some n)).limiters.get j =
    if j = n then (u.limiters.get j).take x (u.clamp x.code) else u.limiters.get j := by
  unfold Cluster.take
  rw [holdDead_limiter (by exact hj), SMap.get_modify]
  split
  · next h => rw [h]
  · rfl

end Node

/-! ### A word in a region's tree -/

theorem settingOf_mode_lt (w : Word) : (settingOf w).mode < 4 := Nat.mod_lt _ (by decide)

theorem get_foldl_set {α : Type} [DecidableEq α] (ks : List Nat) (v : Nat → α) (m : SMap α) (k : Nat) :
    (ks.foldl (fun acc k => acc.set k (v k)) m).get k = if k ∈ ks then v k else m.get k := by
  induction ks generalizing m with
  | nil => simp
  | cons i rest ih =>
    rw [List.foldl_cons, ih, SMap.get_set]
    by_cases hr : k ∈ rest
    · simp [hr]
    · by_cases hi : k = i
      · simp [hi]
      · simp [hr, hi]

/-- The clusters of a row. -/
theorem mem_row {a k : Nat} : k ∈ (List.range 24).map (fun i => 24 * a + i) ↔ k / 24 = a := by
  rw [List.mem_map]
  constructor
  · rintro ⟨i, hi, rfl⟩
    rw [List.mem_range] at hi
    omega
  · rintro rfl
    exact ⟨k % 24, List.mem_range.2 (Nat.mod_lt _ (by decide)), Nat.div_add_mod ..⟩

theorem nodup_row (a : Nat) : ((List.range 24).map (fun i => 24 * a + i)).Nodup :=
  List.nodup_range.map fun i j h => by simpa using h

section Tree
variable {w : Word} {g : Region}

/-- A bad word reaches every limiter of the region. -/
theorem takeWord_of_bad (h : badWord w = true) (ks : List Nat) (k j : Nat) :
    ((g.takeWord w ks).clusters.get k).limiters.get j = ((g.clusters.get k).limiters.get j).badWord := by
  unfold Region.takeWord
  simp only [h, if_true, Region.modClusters, SMap.get_mapAll, Cluster.mapLimiters]

variable (h : badWord w = false)
include h

/-- A corruption in the tree makes the word a bad one at the limiters below it. -/
theorem takeWord_of_corrupt {ks : List Nat} {k : Nat} (hk : k ∈ ks) (j : Nat) :
    ((g.takeWord w ks).clusters.get k).limiters.get j = ((g.clusters.get k).limiters.get j).badWord := by
  unfold Region.takeWord
  simp only [h, Bool.false_eq_true, if_false, get_foldl_set, hk, if_true, Cluster.mapLimiters, SMap.get_mapAll]

/-- A good word reaches the limiters that it addresses, and no other (R155, R160). -/
theorem takeWord_of_good {k j : Nat} (hj : bitOf (g.clusters.get k).ctl.heldCores.toNat j = false) :
    let x := settingOf w
    let u := g.clusters.get k
    ((g.takeWord w []).clusters.get k).limiters.get j =
      if x.mode = 0 ∨ (x.mode = 1 ∧ k / 24 = x.addr) ∨ (x.mode = 2 ∧ k = x.addr) ∨ (x.mode = 3 ∧ k = x.addr ∧ j = x.core) then
        (u.limiters.get j).take x (u.clamp x.code)
      else u.limiters.get j := by
  have hmode := settingOf_mode_lt w
  unfold Region.takeWord
  simp only [h, Bool.false_eq_true, if_false, List.foldl_nil]
  generalize settingOf w = x at hmode ⊢
  have hcases : x.mode = 0 ∨ x.mode = 1 ∨ x.mode = 2 ∨ x.mode = 3 := by omega
  rcases hcases with hm | hm | hm | hm
  · simp [hm, take_all_limiter x hj]
  · by_cases ha : k / 24 = x.addr
    · simp [hm, ha, SMap.get_modifyAll_mem _ _ _ (nodup_row _) (mem_row.2 ha), take_all_limiter x hj]
    · simp [hm, ha, SMap.get_modifyAll_ne _ _ _ (mt mem_row.1 ha)]
  · by_cases ha : k = x.addr
    · subst ha
      simp [hm, take_all_limiter x hj]
    · simp [hm, ha]
  · by_cases ha : k = x.addr
    · subst ha
      simp [hm, take_core_limiter x hj]
    · simp [hm, ha]

end Tree

/-! ### A word on the bus -/

theorem lowered_clusters (g : Region) : g.lowered.clusters = g.clusters := by
  unfold Region.lowered
  dsimp only
  split <;> rfl

theorem lowered_caps (g : Region) : g.lowered.caps = g.caps := by
  unfold Region.lowered
  dsimp only
  split <;> rfl

/-- What a word leaves before the governor judges it: the tree's limiters, and a HOLD that acts on the region's codes (R103). -/
def State.wordTaken (kind r : Nat) (w : Word) (ks : List Nat) (s : State) : State :=
  let t := s.modRegion r (Region.takeWord w ks)
  if badWord w = false ∧ kind = 3 ∧ (settingOf w).flag then t.modRegion r Region.lowered else t

theorem takeWord_caps (w : Word) (ks : List Nat) (g : Region) : (g.takeWord w ks).caps = g.caps := by
  unfold Region.takeWord
  dsimp only
  split <;> rfl

theorem wordTaken_keeps (kind r : Nat) (w : Word) (ks : List Nat) (s : State) :
    ((s.wordTaken kind r w ks).region r).clusters = ((s.region r).takeWord w ks).clusters ∧
      ((s.wordTaken kind r w ks).region r).caps = (s.region r).caps ∧
      (∀ q, q ≠ r → (s.wordTaken kind r w ks).region q = s.region q) ∧ (s.wordTaken kind r w ks).events = s.events := by
  unfold State.wordTaken
  dsimp only
  split
  · refine ⟨?_, ?_, fun q hq => ?_, ?_⟩
    · rw [State.modRegion_region_self, lowered_clusters, State.modRegion_region_self]
    · rw [State.modRegion_region_self, lowered_caps, State.modRegion_region_self, takeWord_caps]
    · rw [State.modRegion_region_ne _ _ hq, State.modRegion_region_ne _ _ hq]
    · rw [State.modRegion_events, State.modRegion_events]
  · refine ⟨?_, ?_, fun q hq => State.modRegion_region_ne _ _ hq, State.modRegion_events ..⟩
    · rw [State.modRegion_region_self]
    · rw [State.modRegion_region_self, takeWord_caps]

/-- A bus error counted in BUS_ERR (R157). -/
def Region.countBusErr (g : Region) : Region := { g with caps := { g.caps with busErr := satAdd 0xFF g.caps.busErr 1 } }

@[simp] theorem countBusErr_clusters (g : Region) : g.countBusErr.clusters = g.clusters := rfl

@[simp] theorem countBusErr_busErr (g : Region) : g.countBusErr.caps.busErr = satAdd 0xFF g.caps.busErr 1 := rfl

section Bus
variable {kind r : Nat} {w : Word} {s : State} (he : (s.gov r).engine = true)
include he

/-- A word with nothing wrong (R156). -/
theorem busWord_of_good (hw : badWord w = false) (hk : (settingOf w).kind = kind) :
    busWord kind r w [] s = s.wordTaken kind r w [] := by
  unfold busWord
  rw [if_neg (by simp [he, hk])]
  exact if_neg (by simp [hw])

/-- A bad word, or a corruption in the tree: the governor counts and reports it (R157). -/
theorem busWord_of_error {ks : List (Fin 576)} (h : badWord w = true ∨ (ks ≠ [] ∧ (settingOf w).kind = kind)) :
    busWord kind r w ks s = ((s.wordTaken kind r w (ks.map Fin.val)).modRegion r Region.countBusErr).raiseRoll r 2 0 := by
  unfold busWord
  rw [if_neg (by rcases h with h | h <;> simp [he, h])]
  exact if_pos (h.imp id fun h => h.1)

/-- What an error leaves: the tree's limiters, the count, the event. -/
theorem busWord_error_keeps {ks : List (Fin 576)} (h : badWord w = true ∨ (ks ≠ [] ∧ (settingOf w).kind = kind)) :
    ((busWord kind r w ks s).region r).clusters = ((s.region r).takeWord w (ks.map Fin.val)).clusters ∧
      ((busWord kind r w ks s).region r).caps.busErr = satAdd 0xFF (s.region r).caps.busErr 1 ∧
      { src := 128 + r, cause := 0 } ∈ (busWord kind r w ks s).events := by
  obtain ⟨hclusters, hcaps, -, -⟩ := wordTaken_keeps kind r w (ks.map Fin.val) s
  have hregion : (busWord kind r w ks s).region r = ((s.wordTaken kind r w (ks.map Fin.val)).region r).countBusErr := by
    rw [busWord_of_error he h, State.region, State.raiseRoll_regions]
    exact State.modRegion_region_self ..
  refine ⟨?_, ?_, ?_⟩
  · rw [hregion, countBusErr_clusters, hclusters]
  · rw [hregion, countBusErr_busErr, hcaps]
  · rw [busWord_of_error he h, State.raiseRoll_events]
    exact List.mem_append_right _ (List.mem_singleton.2 rfl)

end Bus

end Sys2Proof.Machine
end

