-- ==== Sys2Proof/Proofs/LimitersFollow.lean ====
section
/-!
PROOF of O42: the limiter at its step, at its LAUNCH hold and at a word, a lemma for each, put together at the end.
-/

namespace Sys2Proof.Machine

section AtACore
variable {s : State} {c : ClusterId} (n : CoreNo) (he : (s.gov (regionOf c)).engine = true)
include he

/-- A limiter step of a region whose engine clock runs is a step of that core's limiter (R151). -/
theorem exec_limiterStep (req : BitVec 16) : exec (.limiterStep c n req) s = .next (s.modCluster c (fun u => { u with
    limiters := u.limiters.modify n (Limiter.step (s.tripForce (regionOf c)) (s.safeForce (regionOf c)) (s.droopAt c)
      (s.cfg (offAct (regionOf c) 0) 8 7) (s.cfg (offAct (regionOf c) 0) 20 8) req) })) :=
  next_congr (if_pos he)

theorem exec_launchHold (hidle : s.cfg (offAct (regionOf c) 0) 20 8 ≤ ((s.cluster c).limiters.get n).idleSteps) :
    exec (.launchHold c n) s = .next (s.modCluster c (fun u => { u with limiters := u.limiters.modify n (fun l =>
      { l with e := min l.e (s.cfg (offAct (regionOf c) 0) 8 7), cnt := 0 }) })) := by
  refine next_congr ((if_pos he).trans (modCluster_congr ?_))
  simp only [SMap.modify, hidle, if_true]

end AtACore

/-- The four commands that bring a word. -/
theorem exec_busWord {r : RegionId} {w : Word} {ks : List (Fin 576)} {kind : Nat} {i : Instr} (s : State)
    (h : (kind = 0 ∧ i = .limiterTarget r w ks) ∨ (kind = 1 ∧ i = .limiterRecovery r w ks) ∨
      (kind = 2 ∧ i = .limiterFloor r w ks) ∨ (kind = 3 ∧ i = .limiterHold r w ks)) :
    exec i s = .next (busWord kind r w ks s) := by
  rcases h with ⟨rfl, rfl⟩ | ⟨rfl, rfl⟩ | ⟨rfl, rfl⟩ | ⟨rfl, rfl⟩ <;> rfl

/-- Settles O42: the step from what a limiter's step keeps, the words from what each leaves in the region's tree. -/
theorem limitersFollowWordsAndForces : Obligations.LimitersFollowWordsAndForces := by
  unfold Obligations.LimitersFollowWordsAndForces
  intro s c n r
  refine ⟨?step, ?launch, ?corrupt, ?word⟩
  case step =>
    intro req he
    refine ⟨_, exec_limiterStep n he req, ?_⟩
    intro q l l' kk
    obtain ⟨hforce, ht, hd, hplace, hgrant⟩ := step_keeps (s.tripForce q) (s.safeForce q) (s.droopAt c)
      (s.cfg (offAct q 0) 8 7) (s.cfg (offAct q 0) 20 8) req l
    have hl' : l' = l.step (s.tripForce q) (s.safeForce q) (s.droopAt c) (s.cfg (offAct q 0) 8 7) (s.cfg (offAct q 0) 20 8) req := by
      simp only [l', State.modCluster_cluster_self, SMap.get_modify_self]
      rfl
    rw [← hl'] at hforce ht hd hplace hgrant
    refine ⟨fun h => ?_, fun h => ?_, fun h => ?_, ht, hd, ⟨hgrant, hplace, fun i hi => ?_⟩, ?_, fun j hj => ?_, fun d hd => ?_⟩
    · rw [h, forceCode_of_trip] at hforce
      exact Nat.le_zero.1 hforce
    · rw [h] at hforce
      exact Nat.le_trans hforce (forceCode_le_of_safe ..)
    · exact Nat.le_trans hforce (forceCode_le_floor _ _ h)
    · rw [hgrant]
      exact getLsbD_admitted _ _ req hi
    · intro htrip hsafe hdroop hhold herr hle htle hreq hidle
      rw [hl', htrip, hsafe, hdroop]
      exact step_code_of_no_force _ hhold herr hle htle hreq hidle
    · simp only [State.modCluster_cluster_self]
      exact SMap.get_modify_ne _ _ hj
    · exact State.modCluster_cluster_ne s _ hd
  case launch => exact fun he hidle => exec_launchHold n he hidle
  case corrupt =>
    intro w ks i he hw hks hi
    obtain ⟨hclusters, herr, hevent⟩ := busWord_error_keeps he (.inr ⟨hks, rfl⟩) (w := w)
    refine ⟨_, exec_busWord s hi, herr, hevent, fun k hk j => ?_⟩
    rw [hclusters]
    exact takeWord_of_corrupt hw (List.mem_map_of_mem hk) j
  case word =>
    intro w kind i he hi x
    rw [exec_busWord s hi]
    constructor
    · intro hw
      obtain ⟨hclusters, herr, hevent⟩ := busWord_error_keeps he (.inl hw) (kind := kind) (ks := [])
      refine ⟨_, rfl, herr, hevent, fun k j => ?_⟩
      rw [hclusters]
      exact takeWord_of_bad hw [] k j
    · intro hw hk
      obtain ⟨hclusters, -, hother, hevents⟩ := wordTaken_keeps kind r w [] s
      rw [busWord_of_good he hw hk]
      refine ⟨_, rfl, hevents, hother, fun k j hj => ?_⟩
      intro u l l'
      have hl' : l' = _ := (congrArg (fun m : SMap Cluster => (m.get k).limiters.get j) hclusters).trans (takeWord_of_good hw hj)
      split
      · next h =>
        rw [if_pos h] at hl'
        refine ⟨fun h0 => ?_, fun h1 => ?_, fun h2 => ?_, fun h3 => ?_⟩
        · rw [hl', take_target (hk.trans h0)]
          exact ⟨rfl, rfl, rfl, rfl⟩
        · rw [hl', take_recovery (hk.trans h1)]
        · rw [hl', take_floor (hk.trans h2)]
        · rw [hl']
          exact take_hold (hk.trans h3) _ l
      · next h => rwa [if_neg h] at hl'

end Sys2Proof.Machine
end

