-- ==== Sys2Proof/Proofs/GrantRounds.lean ====
section
/-!
PROOF of O9. What the end of a staging round changes: the grant table, the rings and what is on its way; then the two commands
that end one with REJ_PARTIAL.
-/

namespace Sys2Proof.Machine

/-! ### Changes of the grants and the rings alone -/

/-- From `s` to `t` the grant table and the rings change and messages are on their way, with their journal; nothing else happens. -/
def OnlyGrants (s t : State) : Prop :=
  t = { s with
    hub := { s.hub with rings := t.hub.rings, thyme := t.hub.thyme }
    pair := t.pair, out := t.out, hubLast := t.hubLast, await := t.await, seqs := t.seqs }

theorem OnlyGrants.trans {s t u : State} (h₁ : OnlyGrants s t) (h₂ : OnlyGrants t u) : OnlyGrants s u := by
  unfold OnlyGrants at h₁ h₂ ⊢
  exact h₂.trans (by rw [h₁])

theorem OnlyMessages.onlyGrants {s t : State} (h : OnlyMessages s t) : OnlyGrants s t := by
  unfold OnlyGrants
  rw [h]

theorem modThyme_onlyGrants (s : State) (f : Thyme → Thyme) : OnlyGrants s (s.modThyme f) := rfl

theorem complete_onlyGrants (s : State) (cmd : CmdRef) (code detail : Nat) (result : List Byte) :
    OnlyGrants s (s.complete cmd code detail result) := by
  unfold State.complete
  split <;> rfl

theorem journaled_onlyGrants (f : State → State) (s : State) : OnlyGrants (f s) (journaled f s) := by
  unfold OnlyGrants
  rw [journaled_eq f s]

@[simp] theorem State.complete_thyme (s : State) (cmd : CmdRef) (code detail : Nat) (result : List Byte) :
    (s.complete cmd code detail result).hub.thyme = s.hub.thyme := by
  unfold State.complete
  split <;> rfl

@[simp] theorem State.modGrant_grant_self (s : State) (i : Nat) (f : Grant → Grant) : (s.modGrant i f).grant i = f (s.grant i) :=
  SMap.get_modify_self ..

@[simp] theorem State.modGrant_grant_ne (s : State) {i j : Nat} (f : Grant → Grant) (h : j ≠ i) :
    (s.modGrant i f).grant j = s.grant j := SMap.get_modify_ne _ _ h

theorem modGrant_congr {s : State} {i : Nat} {f g : Grant → Grant} (h : f (s.grant i) = g (s.grant i)) :
    s.modGrant i f = s.modGrant i g := by
  unfold State.modGrant SMap.modify; unfold State.grant at h; simp only [State.modThyme_eq, State.modHub, h]

@[simp] theorem journaled_grant (f : State → State) (s : State) (i : Nat) : (journaled f s).grant i = (f s).grant i := by
  unfold State.grant; simp

/-! ### The end of a round -/

/-- An owner that sends one message for each of a list, none with a reply to come, has said each of them. -/
theorem foldl_hubSend_said {α : Type} (f : α → Msg) (l : List α) {s : State} (h : s.owner.isSome = true) :
    ∀ x ∈ l, Said (l.foldl (fun a x => a.hubSend (f x)) s) (f x) := by
  intro x hx
  obtain ⟨before, after, rfl⟩ := List.append_of_mem hx
  have hb := OnlyMessages.foldl (fun a y => hubSend_onlyMessages a (f y)) before s
  rw [List.foldl_append, List.foldl_cons]
  exact List.foldlRecOn (motive := fun t => Said t (f x)) after _ (hubSend_said (by rwa [hb.owner]) (f x))
    fun _ ht y _ => ht.hubSend (f y)

/-- The owner has sent the release of grant `i`'s staging to every region that it spans (R243). -/
def stagingReleased (i : Nat) (s : State) : State :=
  (s.grant i).regions.foldl (fun a r => a.hubSend (.stagingRelease r i)) s

theorem stagingReleased_onlyMessages (i : Nat) (s : State) : OnlyMessages s (stagingReleased i s) :=
  OnlyMessages.foldl (fun a _ => hubSend_onlyMessages a _) _ s

theorem stagingReleased_said {i : Nat} {s : State} (h : s.owner.isSome = true) :
    ∀ k ∈ (s.grant i).regions, Said (stagingReleased i s) (.stagingRelease k i) :=
  foldl_hubSend_said (fun k => .stagingRelease k i) _ h

/-- Thyme after the end of a round with completion code `code`, in period `now`: the entry is free, its index stands in no word
still to go, and REJ_PARTIAL is counted (R243, R245). -/
def Thyme.abandoned (now i code : Nat) (t : Thyme) : Thyme :=
  let u := Thyme.withdraw now i { t with table := t.table.modify i Grant.freed }
  if code = codePartial then { u with partialC := u.partialC + 1 } else u

@[simp] theorem Thyme.abandoned_table (now i code : Nat) (t : Thyme) :
    (t.abandoned now i code).table = t.table.modify i Grant.freed := by
  unfold Thyme.abandoned
  split <;> rfl

@[simp] theorem Thyme.abandoned_partialC (now i : Nat) (t : Thyme) : (t.abandoned now i codePartial).partialC = t.partialC + 1 := by
  rw [Thyme.abandoned, if_pos rfl]
  rfl

/-- The end of a round whose request `cmd` still waits: the releases, the grant table, the completion (R243, R262). -/
theorem abandonRound_eq {i : Nat} {s : State} {cmd : CmdRef} (hc : (s.grant i).cmd = some cmd) (code detail : Nat) :
    abandonRound i code detail s =
      ((stagingReleased i s).modThyme (Thyme.abandoned s.now i code)).complete cmd code detail := by
  have hthyme (u : State) :
      (let t := (u.modGrant i Grant.freed).modThyme (Thyme.withdraw s.now i)
        if code = codePartial then t.modThyme (fun x => { x with partialC := x.partialC + 1 }) else t) =
        u.modThyme (Thyme.abandoned s.now i code) := by
    unfold Thyme.abandoned
    split <;> simp only [State.modGrant, State.modThyme, State.modHub]
  unfold abandonRound
  simp only [hc]
  exact congrArg (fun t : State => t.complete cmd code detail) (hthyme (stagingReleased i s))

/-- What the end of a round leaves (R243, R262). -/
theorem abandonRound_ends {i : Nat} {s : State} {cmd : CmdRef} (hc : (s.grant i).cmd = some cmd) (code detail : Nat) :
    let t := abandonRound i code detail s
    OnlyGrants s t ∧ t.hub.thyme = s.hub.thyme.abandoned s.now i code ∧
      t.hub.rings = (s.complete cmd code detail).hub.rings ∧
      (s.owner.isSome = true → ∀ k ∈ (s.grant i).regions, Said t (.stagingRelease k i)) := by
  have hm := stagingReleased_onlyMessages i s
  intro t
  have ht : t = _ := abandonRound_eq hc code detail
  refine ⟨?frame, ?thyme, ?rings, fun ho k hk => ?said⟩ <;> rw [ht]
  case frame => exact hm.onlyGrants.trans ((modThyme_onlyGrants _ _).trans (complete_onlyGrants ..))
  case thyme => rw [State.complete_thyme, State.modThyme_eq, State.modHub_hub, hm.hub]
  case rings => exact (complete_rings_congr (by rfl) (by rfl) ..).trans (hm.complete_rings ..)
  case said => exact (stagingReleased_said ho k hk).of_eq (State.complete_out ..) (by rw [State.complete_pair]; rfl)

/-! ### The rounds that end with REJ_PARTIAL -/

/-- Grant `i`'s round is to end without a grant, with detail `d` of REJ_PARTIAL (R243, R366). -/
def State.endRound (s : State) (i d : Nat) : State := s.modGrant i (fun g => { g with ends := some d })

@[simp] theorem State.endRound_grant_self (s : State) (i d : Nat) : (s.endRound i d).grant i = { s.grant i with ends := some d } :=
  State.modGrant_grant_self ..

theorem endRound_onlyGrants (s : State) (i d : Nat) : OnlyGrants s (s.endRound i d) := rfl

/-- A round that is to end does so at once while Thyme decides (R243, R366). -/
theorem decideRound_endRound {i : Nat} {s : State} (hr : (s.grant i).state = .reserving) (ht : s.thymeDecides = true) (d : Nat) :
    decideRound i (s.endRound i d) = abandonRound i codePartial d (s.endRound i d) := by
  have ht' : (s.endRound i d).thymeDecides = true := ht
  unfold decideRound
  simp [hr, ht']

/-- What a round ended with REJ_PARTIAL leaves of a state with the same grants, rings and owner (R243, R262). -/
theorem abandonRound_endRound {i d : Nat} {s u : State} {cmd : CmdRef} (hm : OnlyMessages s u) (hc : (s.grant i).cmd = some cmd)
    (ho : s.owner.isSome = true) :
    let t := abandonRound i codePartial d (u.endRound i d)
    OnlyGrants s t ∧ t.grant i = (s.grant i).freed ∧ (∀ j, j ≠ i → t.grant j = s.grant j) ∧
      t.hub.rings = (s.complete cmd codePartial d).hub.rings ∧ t.hub.thyme.partialC = s.hub.thyme.partialC + 1 ∧
      ∀ k ∈ (s.grant i).regions, Said t (.stagingRelease k i) := by
  have hg (j : Nat) : u.grant j = s.grant j := by unfold State.grant; rw [hm.hub]
  have hcu : ((u.endRound i d).grant i).cmd = some cmd := by rw [State.endRound_grant_self, hg]; exact hc
  obtain ⟨hframe, hthyme, hrings, hsaid⟩ := abandonRound_ends hcu codePartial d
  refine ⟨hm.onlyGrants.trans ((endRound_onlyGrants u i d).trans hframe), ?self, fun j hj => ?other, ?rings, ?count, fun k hk => ?said⟩
  case self =>
    rw [State.grant, hthyme, Thyme.abandoned_table, SMap.get_modify_self, ← State.grant, State.endRound_grant_self, hg]
    rfl
  case other =>
    rw [State.grant, hthyme, Thyme.abandoned_table, SMap.get_modify_ne _ _ hj]
    exact (State.modGrant_grant_ne u _ hj).trans (hg j)
  case rings => exact hrings.trans ((complete_rings_congr (by rfl) (by rfl) ..).trans (hm.complete_rings ..))
  case count =>
    rw [hthyme, Thyme.abandoned_partialC]
    exact congrArg (fun h => h.thyme.partialC + 1) hm.hub
  case said => exact hsaid (by rwa [← hm.owner] at ho) k (by simpa [Grant.regions, hg] using hk)

section Reserving
variable {s : State} {i : Nat} (hr : (s.grant i).state = .reserving) (he : (s.grant i).ends = none) (ht : s.thymeDecides = true)
include hr he ht

/-- The refusal of a spanned region ends the round with 0x60 (R243). -/
theorem takeReserveReply_refused {r : Nat} (hk : r ∈ (s.grant i).regions) (v : Nat) :
    takeReserveReply r i false v s = abandonRound i codePartial 0x60 (s.endRound i 0x60) := by
  rw [← decideRound_endRound hr ht]
  unfold takeReserveReply
  rw [if_neg (by simp [hr, hk])]
  exact congrArg _ (modGrant_congr (by simp [he]))

theorem exec_reserveReply_refused {r : RegionId} {hdr : MsgHdr} (h : Heard s 0x04 hdr)
    (hk : r.val ∈ (s.grant i).regions) (v : Nat) :
    exec (.reserveReply r hdr i false v) s =
      .next (journaled (fun u => abandonRound i codePartial 0x60 ((u.heard 0x04 hdr).endRound i 0x60)) s) :=
  (next_hubAccept _ h).trans (next_journaled_congr (takeReserveReply_refused (s := s.heard 0x04 hdr) hr he ht hk v))

/-- A reply that misses the limit ends the round with 0x61 (R243). -/
theorem exec_replyLimitExpiry (hc : s.inControl = true)
    (hk : ∃ k ∈ (s.grant i).regions, ∀ p ∈ (s.grant i).accepts, p.1 ≠ k) :
    exec (.replyLimitExpiry i) s = .next (journaled (fun u => abandonRound i codePartial 0x61 (u.endRound i 0x61)) s) := by
  have hmiss : (s.grant i).regions.all (fun k => (s.grant i).accepts.any (fun p => p.1 == k)) ≠ true := by
    obtain ⟨k, hk, hp⟩ := hk
    intro hall
    obtain ⟨p, hpa, hpk⟩ := List.any_eq_true.1 (List.all_eq_true.1 hall k hk)
    exact hp p hpa (beq_iff_eq.1 hpk)
  refine next_journaled_congr ?_
  rw [← decideRound_endRound hr ht, if_neg (by simp [hc, hr, hmiss])]
  exact congrArg _ (modGrant_congr (by simp [he]))

end Reserving

theorem owner_of_inControl {s : State} (h : s.inControl = true) : s.owner.isSome = true := by
  simp only [State.inControl, Bool.and_eq_true] at h
  exact h.1.1

/-- Settles O9: both ends of the round are an abandoned round with its journal entry. -/
theorem grantRoundAbandoned : Obligations.GrantRoundAbandoned := by
  unfold Obligations.GrantRoundAbandoned
  intro s i hr he ht hc cmd hcmd c d hcase
  obtain ⟨f, u, hm, hf, hexec⟩ : ∃ f u, OnlyMessages s u ∧ f s = abandonRound i codePartial d (u.endRound i d) ∧
      exec c s = .next (journaled f s) := by
    rcases hcase with ⟨r, hdr, v, rfl, rfl, hh, hk⟩ | ⟨rfl, rfl, hk⟩
    · exact ⟨_, _, heard_onlyMessages s 0x04 hdr, rfl, exec_reserveReply_refused hr he ht hh hk v⟩
    · exact ⟨_, _, .refl s, rfl, exec_replyLimitExpiry hr he ht hc hk⟩
  obtain ⟨hframe, hself, hother, hrings, hcount, hsaid⟩ := abandonRound_endRound (d := d) hm hcmd (owner_of_inControl hc)
  rw [← hf] at hframe hself hother hrings hcount hsaid
  refine ⟨_, hexec, ?_, fun j hj => ?_, ?_, ?_, fun k hk => (hsaid k hk).journaled,
    hframe.trans (journaled_onlyGrants f s)⟩
  · rwa [journaled_grant]
  · rw [journaled_grant, hother j hj]
  · rwa [journaled_hub]
  · rwa [journaled_hub]

end Sys2Proof.Machine
end

