-- ==== Sys2Proof/Proofs/HostMailboxWrites.lean ====
section
/-!
REFUTATION of O27. What a doorbell of a security core's slot opens while no hub owns: both gates, where the statement names one.
-/

namespace Sys2Proof.Machine

theorem mbDoorbell_hub_alone (k : Nat) (s : State) : ∃ h, mbDoorbell k s = { s with hub := h } := by
  unfold mbDoorbell
  split
  · exact ⟨s.hub, rfl⟩
  · split <;> exact ⟨_, rfl⟩

@[simp] theorem mbDoorbell_pow (k : Nat) (s : State) : (mbDoorbell k s).pow = s.pow := by
  obtain ⟨h, e⟩ := mbDoorbell_hub_alone k s
  rw [e]

@[simp] theorem mbDoorbell_owner (k : Nat) (s : State) : (mbDoorbell k s).owner = s.owner := by
  obtain ⟨h, e⟩ := mbDoorbell_hub_alone k s
  rw [e]
  rfl

@[simp] theorem bothHubs_owner (f : State → State) (s : State) : (bothHubs f s).owner = (f s).owner := rfl

theorem wakeServer_of_unowned {s : State} (ho : s.owner = none) : s.wakeServer = s.wakeGsec := by
  unfold State.wakeServer
  rw [ho]

/-- While no hub owns, the doorbell of an EMPTY slot of the security core opens both hubs' gates (R453). -/
theorem mbRing_of_unowned {k : Nat} {s : State} (ho : s.owner = none) (hr : s.pow.regOpen = true) (hk : servedBy k = 0)
    (he : (s.slot k).state = .empty) : mbRing k s = (bothHubs (mbDoorbell k) s).wakeGsec := by
  unfold mbRing
  rw [if_pos ⟨hk, he, hr⟩]
  exact wakeServer_of_unowned (by simpa using ho)

theorem hmbDoorbell_pow_of_unowned {k : SlotId} {s t : State} (ho : s.owner = none) (hr : s.pow.regOpen = true)
    (hk : servedBy k = 0) (he : (s.slot k).state = .empty) (ht : exec (.hmbDoorbell k) s = .next t) :
    t.pow = { s.pow with gsecA := false, gsecB := false } := by
  obtain rfl : journaled (mbRing k) s = t := Host.Outcome.next.inj ht
  rw [journaled_pow, mbRing_of_unowned ho hr hk he]
  simp [State.wakeGsec, State.modPow]

/-- Refutes O27: its doorbell clause opens hub A's gate alone wherever hub B does not own, but while neither hub owns (both are
fenced here) the doorbell of slot 31 opens hub B's gate too. -/
theorem not_hostMailboxWrites : ¬ Obligations.HostMailboxWrites := by
  unfold Obligations.HostMailboxWrites
  intro h
  obtain ⟨hdoorbell, -⟩ := h
    { hubA := { role := .fenced }, hubB := { role := .fenced }, pow := { regOpen := true, gsecB := true } } 31 rfl
  obtain ⟨t, hexec, -, -, -, hpow⟩ := hdoorbell rfl
  rw [hmbDoorbell_pow_of_unowned rfl rfl rfl rfl hexec] at hpow
  have hgate : false = true := congrArg Power.gsecB hpow
  exact Bool.noConfusion hgate

end Sys2Proof.Machine
end

