-- ==== Sys2Proof/Proofs/Parts.lean ====
section
/-!
SUPPORT. Parts of the state that the frames and the invariants speak of: what lies outside the hubs, what lies inside them,
and the kernel of the two invariants (the clocks, and the account of R149 of each region).
-/

namespace Sys2Proof.Machine

/-! ### What commands of the hubs leave -/

/-- The parts of the state that no hub owns: regions, governors, homes of groups, clocks, set-up registers, supplies and resets,
the counts of time, the queue. -/
structure Outside where
  regions : SMap Region
  govs    : SMap Gov
  homes   : List (Nat × Home)
  clk     : Clocks
  setup   : Setup
  pow     : Power
  period  : BitVec 48
  tick    : Nat
  pending : List Instr

def State.outside (s : State) : Outside :=
  ⟨s.regions, s.govs, s.homes, s.clk, s.setup, s.pow, s.period, s.tick, s.pending⟩

/-! ### What commands of the regions leave -/

/-- The parts of the state that no region, no governor and no message of theirs changes. -/
structure Inside where
  pending : List Instr
  period  : BitVec 48
  tick    : Nat
  hub     : Shared
  homes   : List (Nat × Home)
  setup   : Setup
  trims   : Trims
  report  : DefectReport
  hubA    : HubSt
  hubB    : HubSt
  pair    : Pair
  clk     : Clocks
  pow     : Power
  hubLast : List (Nat × Nat × Nat)
  reads   : List Nat
  scrubAt : Nat
  fresh   : Nat

def State.inside (s : State) : Inside :=
  ⟨s.pending, s.period, s.tick, s.hub, s.homes, s.setup, s.trims, s.report, s.hubA, s.hubB, s.pair, s.clk, s.pow, s.hubLast,
    s.reads, s.scrubAt, s.fresh⟩

/-! ### What the invariants speak of -/

/-- What the balance of R149 counts: the counters, whether a pre-raise stands, whether a demotion is due. -/
structure Account where
  issued    : Word
  confirmed : Word
  missed    : Word
  abandoned : Word
  standing  : Bool
  demote    : Bool

def Spec.account (p : Spec) : Account :=
  ⟨p.issued, p.confirmed, p.missed, p.abandoned, decide (p.state = .standing), p.demote⟩

/-- The clocks and each region's account. -/
structure Kernel where
  clk      : Clocks
  accounts : Nat → Account

def accounts (m : SMap Region) (r : Nat) : Account := (m.get r).spec.account

def Outside.kernel (o : Outside) : Kernel := ⟨o.clk, accounts o.regions⟩

/-! ### Primitive changes -/

@[simp] theorem State.outside_mk (a b c d e f g h i j k l m n o p q r t u v w x y) :
    State.outside ⟨a, b, c, d, e, f, g, h, i, j, k, l, m, n, o, p, q, r, t, u, v, w, x, y⟩ = ⟨d, e, g, n, h, o, b, c, a⟩ := rfl

@[simp] theorem State.outside_eta (s : State) :
    (⟨s.regions, s.govs, s.homes, s.clk, s.setup, s.pow, s.period, s.tick, s.pending⟩ : Outside) = s.outside := rfl

@[simp] theorem State.outside_ite (c : Prop) [Decidable c] (s t : State) :
    (if c then s else t).outside = if c then s.outside else t.outside := apply_ite ..

@[simp] theorem outside_foldl {α : Type} {f : State → α → State} (h : ∀ a x, (f a x).outside = a.outside) (l : List α) (s : State) :
    (l.foldl f s).outside = s.outside :=
  List.foldlRecOn (motive := fun t => t.outside = s.outside) l f rfl fun _ ht x _ => (h _ x).trans ht

@[simp] theorem Outside.kernel_mk (a b c d e f g h i) : Outside.kernel ⟨a, b, c, d, e, f, g, h, i⟩ = ⟨d, accounts a⟩ := rfl

@[simp] theorem Outside.kernel_ite (c : Prop) [Decidable c] (s t : Outside) :
    (if c then s else t).kernel = if c then s.kernel else t.kernel := apply_ite ..

@[simp] theorem kernel_foldl {α : Type} {f : State → α → State} (h : ∀ a x, (f a x).outside.kernel = a.outside.kernel) (l : List α)
    (s : State) : (l.foldl f s).outside.kernel = s.outside.kernel :=
  List.foldlRecOn (motive := fun t => t.outside.kernel = s.outside.kernel) l f rfl fun _ ht x _ => (h _ x).trans ht

@[simp] theorem State.inside_mk (a b c d e f g h i j k l m n o p q r t u v w x y) :
    State.inside ⟨a, b, c, d, e, f, g, h, i, j, k, l, m, n, o, p, q, r, t, u, v, w, x, y⟩ =
      ⟨a, b, c, f, g, h, i, j, k, l, m, n, o, u, v, w, x⟩ := rfl

@[simp] theorem State.inside_eta (s : State) :
    (⟨s.pending, s.period, s.tick, s.hub, s.homes, s.setup, s.trims, s.report, s.hubA, s.hubB, s.pair, s.clk, s.pow, s.hubLast,
      s.reads, s.scrubAt, s.fresh⟩ : Inside) = s.inside := rfl

@[simp] theorem State.inside_ite (c : Prop) [Decidable c] (s t : State) :
    (if c then s else t).inside = if c then s.inside else t.inside := apply_ite ..

@[simp] theorem inside_foldl {α : Type} {f : State → α → State} (h : ∀ a x, (f a x).inside = a.inside) (l : List α) (s : State) :
    (l.foldl f s).inside = s.inside :=
  List.foldlRecOn (motive := fun t => t.inside = s.inside) l f rfl fun _ ht x _ => (h _ x).trans ht

@[simp] theorem accounts_modify {f : Region → Region} (h : ∀ g, (f g).spec.account = g.spec.account) (m : SMap Region) (r : Nat) :
    accounts (m.modify r f) = accounts m := by
  funext k
  by_cases e : k = r
  · simp [accounts, e, h]
  · simp [accounts, e]

@[simp] theorem accounts_mapAll {f : Region → Region} (h : ∀ g, (f g).spec.account = g.spec.account) (m : SMap Region) :
    accounts (m.mapAll f) = accounts m := by
  funext k
  simp [accounts, h]

end Sys2Proof.Machine
end

