-- ==== Sys2Proof/Proofs/HubFrames.lean ====
section
/-!
SUPPORT. One frame rule per function that a command of the hubs calls: it leaves what lies outside the hubs.
-/

namespace Sys2Proof.Machine

@[simp] theorem State.modHub_outside (s : State) (f : Shared → Shared) : (s.modHub f).outside = s.outside := by
  rfl

@[simp] theorem State.modRings_outside (s : State) (f : Rings → Rings) : (s.modRings f).outside = s.outside := by
  rfl

@[simp] theorem State.modRing_outside (s : State) (k : Nat) (f : Ring → Ring) : (s.modRing k f).outside = s.outside := by
  rfl

@[simp] theorem State.modThyme_outside (s : State) (f : Thyme → Thyme) : (s.modThyme f).outside = s.outside := by
  rfl

@[simp] theorem State.modGrant_outside (s : State) (i : Nat) (f : Grant → Grant) : (s.modGrant i f).outside = s.outside := by
  rfl

@[simp] theorem State.modGroups_outside (s : State) (f : Groups → Groups) : (s.modGroups f).outside = s.outside := by
  rfl

@[simp] theorem State.modBudget_outside (s : State) (f : Budget → Budget) : (s.modBudget f).outside = s.outside := by
  rfl

@[simp] theorem State.modRecorder_outside (s : State) (f : Recorder → Recorder) : (s.modRecorder f).outside = s.outside := by
  rfl

@[simp] theorem State.modMb_outside (s : State) (f : HostMb → HostMb) : (s.modMb f).outside = s.outside := by
  rfl

@[simp] theorem State.modFw_outside (s : State) (f : Firmware → Firmware) : (s.modFw f).outside = s.outside := by
  rfl

@[simp] theorem State.modPair_outside (s : State) (f : Pair → Pair) : (s.modPair f).outside = s.outside := by
  rfl

@[simp] theorem State.modHubOf_outside (s : State) (h : Hub) (f : HubSt → HubSt) : (s.modHubOf h f).outside = s.outside := by
  cases h <;> rfl

@[simp] theorem State.emit_outside (s : State) (e : Effect) : (s.emit e).outside = s.outside := by
  rfl

@[simp] theorem State.hubEmit_outside (s : State) (e : Effect) : (s.hubEmit e).outside = s.outside := by
  simp [State.hubEmit]

@[simp] theorem journaled_outside (f : State → State) (s : State) : (journaled f s).outside = (f s).outside := by
  rw [journaled_eq]; simp

@[simp] theorem bothHubs_outside (f : State → State) (s : State) : (bothHubs f s).outside = (f s).outside := rfl

@[simp] theorem State.bumpSeq_outside (s : State) (src : Nat) (dst : Nat) : (s.bumpSeq src dst).outside = s.outside := by
  rfl

@[simp] theorem State.sendAs_outside (s : State) (src : Nat) (dst : Nat) (m : Msg) : (s.sendAs src dst m).outside = s.outside := by
  rfl

@[simp] theorem State.expect_outside (s : State) (src : Nat) (dst : Nat) (m : Msg) : (s.expect src dst m).outside = s.outside := by
  rfl

@[simp] theorem State.answered_outside (s : State) (p : Msg → Bool) : (s.answered p).outside = s.outside := by
  rfl

@[simp] theorem State.hubSend_outside (s : State) (m : Msg) : (s.hubSend m).outside = s.outside := by
  simp [State.hubSend]

@[simp] theorem State.hubAsk_outside (s : State) (m : Msg) : (s.hubAsk m).outside = s.outside := by
  simp [State.hubAsk]

@[simp] theorem State.raise_outside (s : State) (src : Nat) (cause : Nat) (arg : Nat) : (s.raise src cause arg).outside = s.outside := by
  rfl

@[simp] theorem State.fence_outside (s : State) (h : Hub) : (s.fence h).outside = s.outside := by
  simp [State.fence]

@[simp] theorem hubAccept_outside {act : State → State} (h : ∀ t, (act t).outside = t.outside) (kind : Nat) (hdr : MsgHdr) (s : State) :
    (hubAccept kind hdr act s).outside = s.outside := by
  unfold hubAccept
  split
  · rfl
  · simp [h]

@[simp] theorem State.complete_outside (s : State) (cmd : CmdRef) (code : Nat) (detail : Nat) (result : List Byte) : (s.complete cmd code detail result).outside = s.outside := by
  unfold State.complete; split <;> simp

@[simp] theorem State.telemetry_outside (s : State) (type : Nat) (region : Nat) (body : List Byte) (sub : Bool) : (s.telemetry type region body sub).outside = s.outside := by
  simp [State.telemetry]

@[simp] theorem State.record_outside (s : State) (code : Nat) (level : Nat) (argx : Nat) (source : Nat) (arg : Word) : (s.record code level argx source arg).outside = s.outside := by
  rfl

@[simp] theorem State.nextFree_outside (s : State) : (s.nextFree).outside = s.outside := by
  rfl

@[simp] theorem State.pin_outside (s : State) (name : String) (h : Hub) (low : Bool) : (s.pin name h low).outside = s.outside := by
  simp [State.pin]

@[simp] theorem State.stopRing_outside (s : State) (k : Nat) (f : Ring → Ring) : (s.stopRing k f).outside = s.outside := by
  simp [State.stopRing]

@[simp] theorem State.memError_outside (s : State) (k : Nat) : (s.memError k).outside = s.outside := by
  simp [State.memError]

@[simp] theorem ringDoorbell_outside (k : Nat) (v : Word) (s : State) : (ringDoorbell k v s).outside = s.outside := by
  simp [ringDoorbell]

@[simp] theorem State.wrote_outside (s : State) (k : Nat) (bytes : List Byte) : (s.wrote k bytes).outside = s.outside := by
  simp [State.wrote]

@[simp] theorem writeLoss_outside (s : State) : (writeLoss s).outside = s.outside := by
  simp [writeLoss]

@[simp] theorem filledDoorbell_outside (k : Nat) (f : Word) (s : State) : (filledDoorbell k f s).outside = s.outside := by
  unfold filledDoorbell; dsimp only; split <;> simp

@[simp] theorem State.begin_outside (s : State) (t : Taken) : (s.begin t).outside = s.outside := by
  rfl

@[simp] theorem runTaken_outside {f : Taken → State → State} (h : ∀ x t, (f x t).outside = t.outside) (op : Nat)
    (p : Taken → Bool) (s : State) : (runTaken op p f s).outside = s.outside := by
  rcases runTaken_cases op p f s with e | ⟨t, -, e | e⟩ <;> simp [e, h]

@[simp] theorem writeCompletion_outside (ok : Bool) (s : State) : (writeCompletion ok s).outside = s.outside := by
  unfold writeCompletion; dsimp only; repeat' split
  all_goals simp

@[simp] theorem writeTelemetry_outside (ok : Bool) (s : State) : (writeTelemetry ok s).outside = s.outside := by
  unfold writeTelemetry; dsimp only; repeat' split
  all_goals simp

@[simp] theorem coalesce_outside (k : Nat) (s : State) : (coalesce k s).outside = s.outside := by
  simp [coalesce]

@[simp] theorem askRestart_outside (ks : List Nat) (s : State) : (askRestart ks s).outside = s.outside := by
  simp [askRestart]

@[simp] theorem subscribe_outside (t : Taken) (s : State) : (subscribe t s).outside = s.outside := by
  simp [subscribe]

@[simp] theorem State.modLoads_outside (s : State) (f : List ModelLoad → List ModelLoad) : (s.modLoads f).outside = s.outside := by
  rfl

@[simp] theorem startLoad_outside (t : Taken) (s : State) : (startLoad t s).outside = s.outside := by
  unfold startLoad; dsimp only; repeat' split
  all_goals simp

@[simp] theorem State.setLoad_outside (s : State) (l : ModelLoad) : (s.setLoad l).outside = s.outside := by
  rfl

@[simp] theorem takeSwitchAck_outside (r : Nat) (s : State) : (takeSwitchAck r s).outside = s.outside := by
  unfold takeSwitchAck; dsimp only; split <;> simp

@[simp] theorem grantRecord_outside (i : Nat) (kind : Nat) (code : Nat) (cause : Nat) (s : State) : (grantRecord i kind code cause s).outside = s.outside := by
  simp [grantRecord]

@[simp] theorem abandonRound_outside (i : Nat) (code : Nat) (detail : Nat) (s : State) : (abandonRound i code detail s).outside = s.outside := by
  unfold abandonRound; dsimp only; split <;> simp

@[simp] theorem State.rejectSafe_outside (s : State) (cmd : CmdRef) : (s.rejectSafe cmd).outside = s.outside := by
  simp [State.rejectSafe]

@[simp] theorem takeRequest_outside (t : Taken) (s : State) : (takeRequest t s).outside = s.outside := by
  unfold takeRequest; dsimp only; split <;> simp

@[simp] theorem settleDecision_outside (i : Nat) (s : State) : (settleDecision i s).outside = s.outside := by
  unfold settleDecision; dsimp only; repeat' split
  all_goals simp

@[simp] theorem settleRelease_outside (i : Nat) (s : State) : (settleRelease i s).outside = s.outside := by
  unfold settleRelease; split <;> simp

@[simp] theorem settleDecisions_outside (s : State) : (settleDecisions s).outside = s.outside := by
  simp [settleDecisions]

@[simp] theorem decideRound_outside (i : Nat) (s : State) : (decideRound i s).outside = s.outside := by
  unfold decideRound; dsimp only; repeat' split
  all_goals simp

@[simp] theorem takeReserveReply_outside (r : Nat) (i : Nat) (accept : Bool) (vFrom : Nat) (s : State) : (takeReserveReply r i accept vFrom s).outside = s.outside := by
  simp [takeReserveReply]

@[simp] theorem takeInForce_outside (r : Nat) (i : Nat) (s : State) : (takeInForce r i s).outside = s.outside := by
  simp [takeInForce]

@[simp] theorem timerExpiry_outside (i : Nat) (s : State) : (timerExpiry i s).outside = s.outside := by
  simp [timerExpiry]

@[simp] theorem startRelease_outside (i : Nat) (cause : Nat) (s : State) : (startRelease i cause s).outside = s.outside := by
  simp [startRelease]

@[simp] theorem releaseGrant_outside (t : Taken) (s : State) : (releaseGrant t s).outside = s.outside := by
  unfold releaseGrant; dsimp only; repeat' split
  all_goals simp

@[simp] theorem takeRemoval_outside (r : Nat) (i : Nat) (s : State) : (takeRemoval r i s).outside = s.outside := by
  unfold takeRemoval; dsimp only; split <;> simp

@[simp] theorem takeStateReply_outside (r : Nat) (i : Nat) (applied : Bool) (s : State) : (takeStateReply r i applied s).outside = s.outside := by
  unfold takeStateReply; dsimp only; repeat' split
  all_goals simp

@[simp] theorem startQuery_outside (t : Taken) (s : State) : (startQuery t s).outside = s.outside := by
  rfl

@[simp] theorem defineGroup_outside (t : Taken) (s : State) : (defineGroup t s).outside = s.outside := by
  unfold defineGroup; dsimp only; split <;> simp

@[simp] theorem capSet_outside (t : Taken) (s : State) : (capSet t s).outside = s.outside := by
  unfold capSet; dsimp only; split <;> simp

@[simp] theorem dropRaises_outside (s : State) : (dropRaises s).outside = s.outside := by
  rfl

@[simp] theorem governorGone_outside (r : Nat) (s : State) : (governorGone r s).outside = s.outside := by
  simp [governorGone]

@[simp] theorem childUnack_outside (r : Nat) (s : State) : (childUnack r s).outside = s.outside := by
  simp [childUnack]

@[simp] theorem childTimeout_outside (ch : Child) (s : State) : (childTimeout ch s).outside = s.outside := by
  simp [childTimeout]

@[simp] theorem State.modSlot_outside (s : State) (k : Nat) (f : Slot → Slot) : (s.modSlot k f).outside = s.outside := by
  rfl

@[simp] theorem signalDone_outside (k : Nat) (s : State) : (signalDone k s).outside = s.outside := by
  simp [signalDone]

@[simp] theorem mbCancel_outside (k : Nat) (s : State) : (mbCancel k s).outside = s.outside := by
  unfold mbCancel
  repeat' split
  all_goals simp

@[simp] theorem cancelSlot_outside (k : Nat) (s : State) : (cancelSlot k s).outside = s.outside := by
  simp [cancelSlot]

@[simp] theorem mbDoneClear_outside (k : Nat) (s : State) : (mbDoneClear k s).outside = s.outside := by
  simp [mbDoneClear]

@[simp] theorem mbWrite_outside (k : Nat) (w : Nat) (v : Word) (s : State) : (mbWrite k w v s).outside = s.outside := by
  simp [mbWrite]

@[simp] theorem mbAck_outside (k : Nat) (code : Nat) (detail : Nat) (result : Word) (s : State) : (mbAck k code detail result s).outside = s.outside := by
  simp [mbAck]

@[simp] theorem hostMessage_outside {f : State → State} (h : ∀ t, (f t).outside = t.outside) (code k : Nat) (s : State) :
    (hostMessage code k f s).outside = s.outside := by
  rcases hostMessage_cases code k f s with e | ⟨-, e⟩ <;> simp [e, h]

@[simp] theorem coreStateMsg_outside (k : Nat) (s : State) : (coreStateMsg k s).outside = s.outside := by
  simp [coreStateMsg]

@[simp] theorem stallNextMsg_outside (k : Nat) (s : State) : (stallNextMsg k s).outside = s.outside := by
  simp [stallNextMsg]

@[simp] theorem State.modCore_outside (s : State) (h : Hub) (k : Nat) (f : HubCore → HubCore) : (s.modCore h k f).outside = s.outside := by
  simp [State.modCore]

@[simp] theorem State.beginResync_outside (s : State) (h : Hub) : (s.beginResync h).outside = s.outside := by
  simp [State.beginResync]

@[simp] theorem State.releaseHeld_outside (s : State) : (s.releaseHeld).outside = s.outside := by
  simp [State.releaseHeld]

@[simp] theorem extendGrants_outside (s : State) : (extendGrants s).outside = s.outside := by
  simp [extendGrants]

@[simp] theorem degradePair_outside (s : State) : (degradePair s).outside = s.outside := by
  unfold degradePair; dsimp only; repeat' split
  all_goals simp

@[simp] theorem startHandover_outside (s : State) : (startHandover s).outside = s.outside := by
  simp [startHandover]

@[simp] theorem deliverNmi_outside (h : Hub) (src : Nat) (s : State) : (deliverNmi h src s).outside = s.outside := by
  simp [deliverNmi]

@[simp] theorem State.raiseArb_outside (s : State) (h : Hub) (t : Nat) (v : Nat) : (s.raiseArb h t v).outside = s.outside := by
  simp [State.raiseArb]

@[simp] theorem State.shareArb_outside (s : State) : (s.shareArb).outside = s.outside := by
  simp [State.shareArb]

@[simp] theorem stageImage_outside (copyOk : Bool) (t : Taken) (s : State) : (stageImage copyOk t s).outside = s.outside := by
  unfold stageImage; dsimp only; repeat' split
  all_goals simp

@[simp] theorem finishStage_outside (s : State) : (finishStage s).outside = s.outside := by
  unfold finishStage; split <;> simp

@[simp] theorem failStage_outside (s : State) : (failStage s).outside = s.outside := by
  simp [failStage]

@[simp] theorem stageReport_outside (r : Nat) (ok : Bool) (s : State) : (stageReport r ok s).outside = s.outside := by
  simp [stageReport]

@[simp] theorem stopHubCore_outside (h : Hub) (k : Nat) (s : State) : (stopHubCore h k s).outside = s.outside := by
  unfold stopHubCore; dsimp only; repeat' split
  all_goals simp

@[simp] theorem retakeServed_outside (k : Nat) (s : State) : (retakeServed k s).outside = s.outside := by
  rfl

@[simp] theorem runAgain_outside (h : Hub) (k : Nat) (cause : Nat) (s : State) : (runAgain h k cause s).outside = s.outside := by
  simp [runAgain]

@[simp] theorem restartHubCore_outside (h : Hub) (k : Nat) (cause : Nat) (s : State) : (restartHubCore h k cause s).outside = s.outside := by
  simp [restartHubCore]

@[simp] theorem State.endAct_outside (s : State) (code : Nat) (detail : Nat) : (s.endAct code detail).outside = s.outside := by
  unfold State.endAct; split <;> simp

@[simp] theorem deadlineAct_outside (s : State) : (deadlineAct s).outside = s.outside := by
  unfold deadlineAct; split <;> simp

@[simp] theorem State.modColl_outside (s : State) (h : Hub) (f : Collector → Collector) : (s.modColl h f).outside = s.outside := by
  simp [State.modColl]

@[simp] theorem faultRecord_outside (h : Hub) (src : Nat) (s : State) : (faultRecord h src s).outside = s.outside := by
  simp [faultRecord]

@[simp] theorem flushRecords_outside (h : Hub) (s : State) : (flushRecords h s).outside = s.outside := by
  simp [flushRecords]

@[simp] theorem latchCause_outside (r : Nat) (k : Nat) (s : State) : (latchCause r k s).outside = s.outside := by
  simp [latchCause]

@[simp] theorem testMode_outside (test : Bool) (suppress : Bool) (s : State) : (testMode test suppress s).outside = s.outside := by
  simp [testMode]

@[simp] theorem endOfHandling_outside (s : State) : (endOfHandling s).outside = s.outside := by
  unfold endOfHandling; dsimp only; repeat' split
  all_goals simp

@[simp] theorem crstEnd_outside (h : Hub) (s : State) : (crstEnd h s).outside = s.outside := by
  simp [crstEnd]

@[simp] theorem appendNext_outside (s : State) : (appendNext s).outside = s.outside := by
  unfold appendNext; split <;> simp

@[simp] theorem closeRecord_outside (s : State) : (closeRecord s).outside = s.outside := by
  simp [closeRecord]

@[simp] theorem exportNext_outside (ok : Bool) (s : State) : (exportNext ok s).outside = s.outside := by
  simp [exportNext]

@[simp] theorem setEngRun_outside (h : Hub) (low : Bool) (s : State) : (setEngRun h low s).outside = s.outside := by
  simp [setEngRun]

@[simp] theorem sendClaim_outside (h : Hub) (e : Word) (s : State) (r : Nat) : (sendClaim h e s r).outside = s.outside := by
  rfl

@[simp] theorem claimFor_outside (h : Hub) (e : Word) (kind : Nat) (s : State) : (claimFor h e kind s).outside = s.outside := by
  simp [claimFor]

@[simp] theorem sendBeat_outside (h : Hub) (e : Word) (role : Nat) (yield : Bool) (drop : Bool) (s : State) : (sendBeat h e role yield drop s).outside = s.outside := by
  simp [sendBeat]

@[simp] theorem sendYield_outside (s : State) : (sendYield s).outside = s.outside := by
  unfold sendYield; split <;> simp

@[simp] theorem yieldClaim_outside (epoch : Word) (s : State) : (yieldClaim epoch s).outside = s.outside := by
  simp [yieldClaim]

@[simp] theorem goodBeat_outside (h : Hub) (path : HbPath) (b : Beat) (s : State) : (goodBeat h path b s).outside = s.outside := by
  unfold goodBeat; dsimp only; repeat' split
  all_goals simp

@[simp] theorem sendProbes_outside (h : Hub) (s : State) : (sendProbes h s).outside = s.outside := by
  simp [sendProbes]

@[simp] theorem probeEpochs_outside (s : State) : (probeEpochs s).outside = s.outside := by
  unfold probeEpochs; dsimp only; repeat' split
  all_goals simp

@[simp] theorem takeProbeReply_outside (r : Nat) (epoch : Word) (s : State) : (takeProbeReply r epoch s).outside = s.outside := by
  unfold takeProbeReply; split <;> simp

@[simp] theorem mirrorSilence_outside (h : Hub) (s : State) : (mirrorSilence h s).outside = s.outside := by
  simp [mirrorSilence]

@[simp] theorem standbyBlock_outside (h : Hub) (seq : Nat) (sweepDiffers : Bool) (s : State) : (standbyBlock h seq sweepDiffers s).outside = s.outside := by
  unfold standbyBlock; split <;> simp

@[simp] theorem ownerBlock_outside (h : Hub) (ack : Nat) (s : State) : (ownerBlock h ack s).outside = s.outside := by
  simp [ownerBlock]

@[simp] theorem takeBlock_outside (h : Hub) (wrong : Nat) (seq : Nat) (ack : Nat) (differs : Bool) (s : State) : (takeBlock h wrong seq ack differs s).outside = s.outside := by
  unfold takeBlock; dsimp only; repeat' split
  all_goals simp

@[simp] theorem mirrorBlock_outside (h : Hub) (wrong : Nat) (seq : Nat) (ack : Nat) (differs : Bool) (s : State) : (mirrorBlock h wrong seq ack differs s).outside = s.outside := by
  simp [mirrorBlock]

@[simp] theorem takeBeat_outside (h : Hub) (path : HbPath) (b : Beat) (s : State) : (takeBeat h path b s).outside = s.outside := by
  unfold takeBeat; split <;> simp

@[simp] theorem rejoinCore_outside (h : Hub) (k : Nat) (s : State) : (rejoinCore h k s).outside = s.outside := by
  simp [rejoinCore]

@[simp] theorem copyRetained_outside (h : Hub) (k : Nat) (s : State) : (copyRetained h k s).outside = s.outside := by
  unfold copyRetained; dsimp only; split <;> simp

@[simp] theorem resyncComplete_outside (s : State) : (resyncComplete s).outside = s.outside := by
  unfold resyncComplete; dsimp only; repeat' split
  all_goals simp

@[simp] theorem claimStart_outside (h : Hub) (e : Word) (s : State) : (claimStart h e s).outside = s.outside := by
  simp [claimStart]

@[simp] theorem State.modDbg_outside (s : State) (h : Hub) (f : Debug → Debug) : (s.modDbg h f).outside = s.outside := by
  simp [State.modDbg]

@[simp] theorem loadInstr_outside (h : Hub) (i : Nat) (s : State) : (loadInstr h i s).outside = s.outside := by
  simp [loadInstr]

@[simp] theorem captureBoundary_outside (h : Hub) (s : State) : (captureBoundary h s).outside = s.outside := by
  rfl

@[simp] theorem samplePins_outside (h : Hub) (instr : Nat) (bits : List Bool) (s : State) : (samplePins h instr bits s).outside = s.outside := by
  simp [samplePins]

@[simp] theorem authResult_outside (h : Hub) (code : Nat) (detail : Nat) (s : State) : (authResult h code detail s).outside = s.outside := by
  simp [authResult]

@[simp] theorem authRequest_outside (h : Hub) (scope : BitVec 6) (s : State) : (authRequest h scope s).outside = s.outside := by
  simp [authRequest]

@[simp] theorem authVerified_outside (h : Hub) (c : DbgCert) (s : State) : (authVerified h c s).outside = s.outside := by
  unfold authVerified; dsimp only; repeat' split
  all_goals simp

@[simp] theorem dbgResult_outside (h : Hub) (status : Nat) (why : Nat) (data : Word) (s : State) : (dbgResult h status why data s).outside = s.outside := by
  simp [dbgResult]

@[simp] theorem State.dbgFields_outside (s : State) (h : Hub) (op : DbgOp) : (s.dbgFields h op).outside = s.outside := by
  simp [State.dbgFields]

end Sys2Proof.Machine
end

