-- ==== Sys2Proof/Proofs/RegionFrames.lean ====
section
/-!
SUPPORT. One frame rule per function that a command of a region or a governor calls: it leaves what lies inside the hubs.
-/

namespace Sys2Proof.Machine

@[simp] theorem State.modRegion_inside (s : State) (r : Nat) (f : Region → Region) : (s.modRegion r f).inside = s.inside := by
  rfl

@[simp] theorem State.modGov_inside (s : State) (r : Nat) (f : Gov → Gov) : (s.modGov r f).inside = s.inside := by
  rfl

@[simp] theorem State.modCluster_inside (s : State) (c : Nat) (f : Cluster → Cluster) : (s.modCluster c f).inside = s.inside := by
  rfl

@[simp] theorem State.forRegions_inside {f : Nat → State → State} (h : ∀ r t, (f r t).inside = t.inside) (s : State) :
    (s.forRegions f).inside = s.inside := by
  unfold State.forRegions
  exact inside_foldl (fun a r => h r a) _ s

@[simp] theorem State.emit_inside (s : State) (e : Effect) : (s.emit e).inside = s.inside := by
  rfl

@[simp] theorem State.bumpSeq_inside (s : State) (src : Nat) (dst : Nat) : (s.bumpSeq src dst).inside = s.inside := by
  rfl

@[simp] theorem State.sendAs_inside (s : State) (src : Nat) (dst : Nat) (m : Msg) : (s.sendAs src dst m).inside = s.inside := by
  rfl

@[simp] theorem State.send_inside (s : State) (m : Msg) : (s.send m).inside = s.inside := by
  rfl

@[simp] theorem State.raise_inside (s : State) (src : Nat) (cause : Nat) (arg : Nat) : (s.raise src cause arg).inside = s.inside := by
  rfl

@[simp] theorem State.raiseRoll_inside (s : State) (r : Nat) (k : Nat) (bit : Nat) : (s.raiseRoll r k bit).inside = s.inside := by
  rfl

@[simp] theorem State.holdRoll_inside (s : State) (r : Nat) (k : Nat) (bit : Nat) (on : Bool) : (s.holdRoll r k bit on).inside = s.inside := by
  simp [State.holdRoll]

@[simp] theorem State.badMsg_inside (s : State) (r : Nat) : (s.badMsg r).inside = s.inside := by
  rfl

@[simp] theorem State.staleMsg_inside (s : State) (r : Nat) : (s.staleMsg r).inside = s.inside := by
  rfl

@[simp] theorem govAccept_inside {act again : State → State} (ha : ∀ t, (act t).inside = t.inside)
    (hg : ∀ t, (again t).inside = t.inside) (r kind : Nat) (hdr : MsgHdr) (s : State) :
    (govAccept r kind hdr act again s).inside = s.inside := by
  simp [govAccept, ha, hg]

@[simp] theorem busWord_inside (kind : Nat) (r : Nat) (w : Word) (corruptAt : List (Fin 576)) (s : State) : (busWord kind r w corruptAt s).inside = s.inside := by
  simp [busWord]

@[simp] theorem State.sendWord_inside (s : State) (r : Nat) (w : Word) : (s.sendWord r w).inside = s.inside := by
  simp [State.sendWord]

@[simp] theorem State.forceRegion_inside (s : State) (r : Nat) : (s.forceRegion r).inside = s.inside := by
  rfl

@[simp] theorem droopForce_inside (c : Nat) (s : State) : (droopForce c s).inside = s.inside := by
  simp [droopForce]

@[simp] theorem dillTrip_inside (c : Nat) (s : State) : (dillTrip c s).inside = s.inside := by
  simp [dillTrip]

@[simp] theorem State.emitFrame_inside (s : State) (r : Nat) (f : Frame) : (s.emitFrame r f).inside = s.inside := by
  rfl

@[simp] theorem State.emitRead_inside (s : State) (r : Nat) (version : Bool) : (s.emitRead r version).inside = s.inside := by
  rfl

@[simp] theorem State.startFrame_inside (s : State) (r : Nat) : (s.startFrame r).inside = s.inside := by
  unfold State.startFrame; split <;> simp

@[simp] theorem frameEnd_inside (r : Nat) (good : Bool) (s : State) : (frameEnd r good s).inside = s.inside := by
  unfold frameEnd; dsimp only; split <;> simp

@[simp] theorem State.abandonNow_inside (s : State) (r : Nat) : (s.abandonNow r).inside = s.inside := by
  simp [State.abandonNow]

@[simp] theorem preRaiseDecision_inside (r : Nat) (f : Nat) (s : State) : (preRaiseDecision r f s).inside = s.inside := by
  simp [preRaiseDecision]

@[simp] theorem confirmPreRaise_inside (r : Nat) (s : State) : (confirmPreRaise r s).inside = s.inside := by
  rfl

@[simp] theorem withdrawPreRaise_inside (r : Nat) (s : State) : (withdrawPreRaise r s).inside = s.inside := by
  simp [withdrawPreRaise]

@[simp] theorem raiseTest_inside (r : Nat) (s : State) : (raiseTest r s).1.inside = s.inside := by
  unfold raiseTest; dsimp only; repeat' split
  all_goals simp

@[simp] theorem gridBlockEnd_inside (r : Nat) (s : State) : (gridBlockEnd r s).inside = s.inside := by
  simp [gridBlockEnd]

@[simp] theorem State.holdDigitiser_inside (s : State) (r : Nat) : (s.holdDigitiser r).inside = s.inside := by
  simp [State.holdDigitiser]

@[simp] theorem sumSample_inside (r : Nat) (amps : ℤ) (status : Status) (s : State) : (sumSample r amps status s).inside = s.inside := by
  simp [sumSample]

@[simp] theorem sumAvailable_inside (r : Nat) (s : State) : (sumAvailable r s).inside = s.inside := by
  unfold sumAvailable; dsimp only; split <;> simp

@[simp] theorem phaseFails_inside (r : Nat) (k : Nat) (s : State) : (phaseFails r k s).inside = s.inside := by
  unfold phaseFails; dsimp only; repeat' split
  all_goals simp

@[simp] theorem phaseSample_inside (r : Nat) (amps : ℤ) (status : Status) (s : State) : (phaseSample r amps status s).inside = s.inside := by
  simp [phaseSample]

@[simp] theorem diodeMap_inside (r : Nat) (s : State) : (diodeMap r s).inside = s.inside := by
  simp [diodeMap]

@[simp] theorem diodeConversion_inside (r : Nat) (pos : Nat) (temps : List ℤ) (s : State) : (diodeConversion r pos temps s).inside = s.inside := by
  simp [diodeConversion]

@[simp] theorem monitorFaults_inside (r : Nat) (before : Nat) (s : State) : (monitorFaults r before s).inside = s.inside := by
  simp [monitorFaults]

@[simp] theorem monitorReading_inside (r : Nat) (reads : List (Nat × Status)) (slewing : Bool) (s : State) : (monitorReading r reads slewing s).1.inside = s.inside := by
  simp [monitorReading]

@[simp] theorem tpWindow_inside (c : Nat) (stressed : Nat) (unstressed : Option Nat) (status : Status) (s : State) : (tpWindow c stressed unstressed status s).inside = s.inside := by
  rfl

@[simp] theorem sendSettings_inside (r : Nat) (rows : List Nat) (committed : Bool) (s : State) : (sendSettings r rows committed s).inside = s.inside := by
  simp [sendSettings]

@[simp] theorem raiseShaped_inside (r : Nat) (s : State) : (raiseShaped r s).inside = s.inside := by
  unfold raiseShaped; split <;> simp

@[simp] theorem forecastRegion_inside (taps : List (ClusterId × FeatureTap)) (s : State) (r : Nat) : (forecastRegion taps s r).inside = s.inside := by
  simp [forecastRegion]

@[simp] theorem rampShaping_inside (r : Nat) (s : State) : (rampShaping r s).inside = s.inside := by
  simp [rampShaping]

@[simp] theorem publish_inside (r : Nat) (s : State) : (publish r s).inside = s.inside := by
  unfold publish; dsimp only; split <;> simp

@[simp] theorem takeImage_inside (r : Nat) (offset : Nat) (bytes : List Byte) (last : Bool) (s : State) : (takeImage r offset bytes last s).inside = s.inside := by
  simp [takeImage]

@[simp] theorem repeatReport_inside (r : Nat) (last : Bool) (s : State) : (repeatReport r last s).inside = s.inside := by
  simp [repeatReport]

@[simp] theorem takeReserve_inside (r : Nat) (m : ReserveMsg) (s : State) : (takeReserve r m s).inside = s.inside := by
  simp [takeReserve]

@[simp] theorem repeatReserve_inside (r : Nat) (m : ReserveMsg) (s : State) : (repeatReserve r m s).inside = s.inside := by
  rfl

@[simp] theorem releaseStaging_inside (r : Nat) (i : Nat) (s : State) : (releaseStaging r i s).inside = s.inside := by
  rfl

@[simp] theorem markRevoked_inside (r : Nat) (i : Nat) (s : State) : (markRevoked r i s).inside = s.inside := by
  rfl

@[simp] theorem treeWord_inside (r : Nat) (release : Bool) (w : TreeWord) (s : State) : (treeWord r release w s).inside = s.inside := by
  simp [treeWord]

@[simp] theorem releaseRaises_inside (r : Nat) (s : State) : (releaseRaises r s).inside = s.inside := by
  simp [releaseRaises]

@[simp] theorem answerState_inside (r : Nat) (i : Nat) (s : State) : (answerState r i s).inside = s.inside := by
  simp [answerState]

@[simp] theorem takeSlotRequest_inside (r : Nat) (gid : Nat) (members : BitVec 576) (s : State) : (takeSlotRequest r gid members s).inside = s.inside := by
  simp [takeSlotRequest]

@[simp] theorem repeatSlotReply_inside (r : Nat) (gid : Nat) (s : State) : (repeatSlotReply r gid s).inside = s.inside := by
  rfl

@[simp] theorem takeCap_inside (r : Nat) (cap : Nat) (clearLatch : Bool) (s : State) : (takeCap r cap clearLatch s).inside = s.inside := by
  rfl

@[simp] theorem assertHold_inside (r : Nat) (s : State) : (assertHold r s).inside = s.inside := by
  simp [assertHold]

@[simp] theorem alertOn_inside (r : Nat) (s : State) : (alertOn r s).inside = s.inside := by
  simp [alertOn]

@[simp] theorem alertOff_inside (r : Nat) (s : State) : (alertOff r s).inside = s.inside := by
  simp [alertOff]

@[simp] theorem sendSummary_inside (r : Nat) (m : RMulti) (final : Bool) (asked : Bool) (s : State) : (sendSummary r m final asked s).inside = s.inside := by
  rfl

@[simp] theorem interimSummary_inside (r : Nat) (k : Nat) (s : State) : (interimSummary r k s).inside = s.inside := by
  unfold interimSummary; split <;> simp

@[simp] theorem answerSummary_inside (r : Nat) (k : Nat) (s : State) : (answerSummary r k s).inside = s.inside := by
  unfold answerSummary; split <;> simp

@[simp] theorem adoptEpoch_inside (r : Nat) (e : Word) (s : State) : (adoptEpoch r e s).inside = s.inside := by
  rfl

@[simp] theorem takeClaim_inside (r : Nat) (hdr : MsgHdr) (s : State) : (takeClaim r hdr s).inside = s.inside := by
  simp [takeClaim]

end Sys2Proof.Machine
end

