-- ==== Sys2Proof/Proofs/KernelFrames.lean ====
section
/-!
SUPPORT. One frame rule per function that moves neither the clock loop nor a pre-raise: it leaves the kernel of the two
invariants.
-/

namespace Sys2Proof.Machine

@[simp] theorem Spec.account_mk (a b c d e f g h i j k l m n o p q r t u) :
    Spec.account ⟨a, b, c, d, e, f, g, h, i, j, k, l, m, n, o, p, q, r, t, u⟩ = ⟨m, n, o, p, decide (a = .standing), k⟩ := rfl

@[simp] theorem Spec.account_eta (p : Spec) :
    (⟨p.issued, p.confirmed, p.missed, p.abandoned, decide (p.state = .standing), p.demote⟩ : Account) = p.account := rfl

@[simp] theorem account_ite (c : Prop) [Decidable c] (g h : Region) :
    (if c then g else h).spec.account = if c then g.spec.account else h.spec.account := apply_ite (fun g : Region => g.spec.account) ..

@[simp] theorem Spec.account_ite (c : Prop) [Decidable c] (g h : Spec) :
    (if c then g else h).account = if c then g.account else h.account := apply_ite ..

@[simp] theorem Region.modCluster_account (g : Region) (c : Nat) (f : Cluster → Cluster) : (g.modCluster c f).spec.account = g.spec.account := by
  rfl

@[simp] theorem Region.modClusters_account (g : Region) (f : Cluster → Cluster) : (g.modClusters f).spec.account = g.spec.account := by
  rfl

@[simp] theorem Region.stick_account (b : Nat) (g : Region) : (g.stick b).spec.account = g.spec.account := by
  rfl

@[simp] theorem Region.voidPeriod_account (g : Region) : (g.voidPeriod).spec.account = g.spec.account := by
  rfl

@[simp] theorem Region.takeWord_account (w : Word) (corruptAt : List Nat) (g : Region) : (g.takeWord w corruptAt).spec.account = g.spec.account := by
  simp [Region.takeWord]

@[simp] theorem Region.lowered_account (g : Region) : (g.lowered).spec.account = g.spec.account := by
  simp [Region.lowered]

@[simp] theorem Region.markAbandon_account (g : Region) : (g.markAbandon).spec.account = g.spec.account := by
  simp [Region.markAbandon]

@[simp] theorem Region.modSp_account (g : Region) (f : Setpoint → Setpoint) : (g.modSp f).spec.account = g.spec.account := by
  rfl

@[simp] theorem Region.endGridBlock_account (g : Region) : (g.endGridBlock).spec.account = g.spec.account := by
  rfl

@[simp] theorem Region.modDig_account (g : Region) (f : Digitiser → Digitiser) : (g.modDig f).spec.account = g.spec.account := by
  rfl

@[simp] theorem integrate_account (coasting : Bool) (x : Sample) (g : Region) : (integrate coasting x g).spec.account = g.spec.account := by
  rfl

@[simp] theorem Region.breakRuns_account (g : Region) : (g.breakRuns).spec.account = g.spec.account := by
  simp [Region.breakRuns]

@[simp] theorem restartRotation_account (g : Region) : (restartRotation g).spec.account = g.spec.account := by
  rfl

@[simp] theorem Region.modSage_account (g : Region) (f : Sage → Sage) : (g.modSage f).spec.account = g.spec.account := by
  rfl

@[simp] theorem Region.untrust_account (g : Region) : (g.untrust).spec.account = g.spec.account := by
  rfl

@[simp] theorem Region.setModel_account (m : ModelState) (g : Region) : (g.setModel m).spec.account = g.spec.account := by
  simp [Region.setModel]

@[simp] theorem Region.trustBlock_account (blocks : Nat) (v : Nat) (g : Region) : (g.trustBlock blocks v).spec.account = g.spec.account := by
  unfold Region.trustBlock; split <;> simp

@[simp] theorem Region.dropModel_account (g : Region) : (g.dropModel).spec.account = g.spec.account := by
  simp [Region.dropModel]

@[simp] theorem stageGrant_account (m : ReserveMsg) (g : Region) : (stageGrant m g).spec.account = g.spec.account := by
  simp [stageGrant]

@[simp] theorem dropResv_account (i : Nat) (g : Region) : (dropResv i g).spec.account = g.spec.account := by
  unfold dropResv; split <;> simp

@[simp] theorem Region.modSlot_account (g : Region) (gid : Nat) (f : GSlot → GSlot) : (g.modSlot gid f).spec.account = g.spec.account := by
  rfl

@[simp] theorem Region.writeSlot_account (gid : Nat) (g : Region) : (g.writeSlot gid).spec.account = g.spec.account := by
  unfold Region.writeSlot; split <;> simp

@[simp] theorem slotsAtBoundary_account (g : Region) : (slotsAtBoundary g).spec.account = g.spec.account := by
  rfl

@[simp] theorem anchorMonitors_account (g : Region) : (anchorMonitors g).spec.account = g.spec.account := by
  rfl

@[simp] theorem marginAtBoundary_account (least : Nat) (g : Region) : (marginAtBoundary least g).spec.account = g.spec.account := by
  rfl

@[simp] theorem Region.modMulti_account (g : Region) (k : Nat) (f : RMulti → RMulti) : (g.modMulti k f).spec.account = g.spec.account := by
  rfl

@[simp] theorem Region.shrinkResvs_account (g : Region) : (g.shrinkResvs).spec.account = g.spec.account := by
  rfl

@[simp] theorem Region.endPeriod_account (rise : Nat) (learned : Bool) (g : Region) : (g.endPeriod rise learned).spec.account = g.spec.account := by
  rfl

@[simp] theorem State.modRegion_kernel {s : State} {r : Nat} {f : Region → Region}
    (h : (f (s.region r)).spec.account = (s.region r).spec.account) : (s.modRegion r f).outside.kernel = s.outside.kernel := by
  suffices h : accounts (s.modRegion r f).regions = accounts s.regions from congrArg (Kernel.mk s.clk) h
  funext k
  by_cases e : k = r
  · subst e; simpa [accounts, State.region] using h
  · simp [accounts, e]

@[simp] theorem State.modRegions_kernel {s : State} {f : Region → Region} (h : ∀ g, (f g).spec.account = g.spec.account) :
    (s.modRegions f).outside.kernel = s.outside.kernel := by
  suffices h : accounts (s.modRegions f).regions = accounts s.regions from congrArg (Kernel.mk s.clk) h
  exact accounts_mapAll h _

@[simp] theorem State.kernel_eta (s : State) : (⟨s.clk, accounts s.regions⟩ : Kernel) = s.outside.kernel := rfl

@[simp] theorem Region.modSpec_account (g : Region) (f : Spec → Spec) : (g.modSpec f).spec.account = (f g.spec).account := rfl

@[simp] theorem State.modGov_kernel (s : State) (r : Nat) (f : Gov → Gov) : (s.modGov r f).outside.kernel = s.outside.kernel := by
  rfl

@[simp] theorem State.modCluster_kernel (s : State) (c : Nat) (f : Cluster → Cluster) :
    (s.modCluster c f).outside.kernel = s.outside.kernel := by
  unfold State.modCluster
  simp

@[simp] theorem State.modAgeing_kernel (s : State) (f : Ageing → Ageing) : (s.modAgeing f).outside.kernel = s.outside.kernel := by
  simp [State.modAgeing]

@[simp] theorem State.modPow_kernel (s : State) (f : Power → Power) : (s.modPow f).outside.kernel = s.outside.kernel := by
  rfl

@[simp] theorem State.modSetup_kernel (s : State) (f : Setup → Setup) : (s.modSetup f).outside.kernel = s.outside.kernel := by
  rfl

@[simp] theorem State.forRegions_kernel {f : Nat → State → State} (h : ∀ r t, (f r t).outside.kernel = t.outside.kernel)
    (s : State) : (s.forRegions f).outside.kernel = s.outside.kernel := by
  unfold State.forRegions
  exact kernel_foldl (fun a r => h r a) _ s

@[simp] theorem State.transact_kernel (s : State) (r : Nat) (tx : PmbusTx) : (s.transact r tx).outside.kernel = s.outside.kernel := by
  simp [State.transact]

@[simp] theorem State.transactAll_kernel (s : State) (r : Nat) (failed : Bool) (txs : List PmbusTx) : (s.transactAll r failed txs).outside.kernel = s.outside.kernel := by
  simp [State.transactAll]

@[simp] theorem State.sendAgain_kernel (s : State) (a : Await) : (s.sendAgain a).outside.kernel = s.outside.kernel := by
  simp [State.sendAgain]

@[simp] theorem State.send_kernel (s : State) (m : Msg) : (s.send m).outside.kernel = s.outside.kernel := by
  simp [State.send]

@[simp] theorem State.ask_kernel (s : State) (m : Msg) : (s.ask m).outside.kernel = s.outside.kernel := by
  simp [State.ask]

@[simp] theorem State.sidebandWrite_kernel (s : State) (ch : Child) (level : Nat) (heaterMw : Nat) : (s.sidebandWrite ch level heaterMw).outside.kernel = s.outside.kernel := by
  simp [State.sidebandWrite]

@[simp] theorem State.raiseRoll_kernel (s : State) (r : Nat) (k : Nat) (bit : Nat) : (s.raiseRoll r k bit).outside.kernel = s.outside.kernel := by
  rfl

@[simp] theorem State.holdRoll_kernel (s : State) (r : Nat) (k : Nat) (bit : Nat) (on : Bool) : (s.holdRoll r k bit on).outside.kernel = s.outside.kernel := by
  simp [State.holdRoll]

@[simp] theorem State.badMsg_kernel (s : State) (r : Nat) : (s.badMsg r).outside.kernel = s.outside.kernel := by
  simp [State.badMsg]

@[simp] theorem State.staleMsg_kernel (s : State) (r : Nat) : (s.staleMsg r).outside.kernel = s.outside.kernel := by
  simp [State.staleMsg]

@[simp] theorem chiveAccept_kernel {act : State → State} (h : ∀ t, (act t).outside.kernel = t.outside.kernel) (c : Nat)
    (epoch : Word) (s : State) : (chiveAccept c epoch act s).outside.kernel = s.outside.kernel := by
  simp [chiveAccept, h]

@[simp] theorem govAccept_kernel {act again : State → State} (ha : ∀ t, (act t).outside.kernel = t.outside.kernel)
    (hg : ∀ t, (again t).outside.kernel = t.outside.kernel) (r kind : Nat) (hdr : MsgHdr) (s : State) :
    (govAccept r kind hdr act again s).outside.kernel = s.outside.kernel := by
  simp [govAccept, ha, hg]

@[simp] theorem peerAccept_kernel {act again : State → State} (ha : ∀ t, (act t).outside.kernel = t.outside.kernel)
    (hg : ∀ t, (again t).outside.kernel = t.outside.kernel) (r kind : Nat) (hdr : MsgHdr) (s : State) :
    (peerAccept r kind hdr act again s).outside.kernel = s.outside.kernel := by
  simp [peerAccept, ha, hg]

@[simp] theorem hubAccept_kernel {act : State → State} (h : ∀ t, (act t).outside.kernel = t.outside.kernel) (kind : Nat)
    (hdr : MsgHdr) (s : State) : (hubAccept kind hdr act s).outside.kernel = s.outside.kernel := by
  unfold hubAccept
  split
  · rfl
  · simp [h]

@[simp] theorem State.completeInterim_kernel (s : State) (cmd : CmdRef) (detail : Nat) (result : List Byte) : (s.completeInterim cmd detail result).outside.kernel = s.outside.kernel := by
  unfold State.completeInterim; split <;> simp

@[simp] theorem State.wakeGsec_kernel (s : State) : (s.wakeGsec).outside.kernel = s.outside.kernel := by
  simp [State.wakeGsec]

@[simp] theorem State.wakeServer_kernel (s : State) : (s.wakeServer).outside.kernel = s.outside.kernel := by
  unfold State.wakeServer; split <;> simp

@[simp] theorem admitEntry_kernel (k : Nat) (e : List Byte) (body : HostRead) (s : State) : (admitEntry k e body s).outside.kernel = s.outside.kernel := by
  unfold admitEntry; repeat' split
  all_goals simp

@[simp] theorem takeNext_kernel (heads : List (HostRead × HostRead)) (onlyZero : Bool) (s : State) : (takeNext heads onlyZero s).outside.kernel = s.outside.kernel := by
  unfold takeNext; repeat' split
  all_goals simp

@[simp] theorem runTaken_kernel {f : Taken → State → State} (h : ∀ x t, (f x t).outside.kernel = t.outside.kernel) (op : Nat)
    (p : Taken → Bool) (s : State) : (runTaken op p f s).outside.kernel = s.outside.kernel := by
  rcases runTaken_cases op p f s with e | ⟨t, -, e | e⟩ <;> simp [e, h]

@[simp] theorem applyRestarts_kernel (s : State) : (applyRestarts s).outside.kernel = s.outside.kernel := by
  simp [applyRestarts]

@[simp] theorem sendShadow_kernel (s : State) (x : Shadow) : (sendShadow s x).outside.kernel = s.outside.kernel := by
  unfold sendShadow; split <;> simp

@[simp] theorem writeSetup_kernel (off : Nat) (v : Nat) (within : Bool) (s : State) : (writeSetup off v within s).outside.kernel = s.outside.kernel := by
  unfold writeSetup; split <;> simp

@[simp] theorem writeHold_kernel (hold : Bool) (shadowSel : Bool) (within : Bool) (s : State) : (writeHold hold shadowSel within s).outside.kernel = s.outside.kernel := by
  simp [writeHold]

@[simp] theorem discard_kernel (gid : Nat) (idx : Nat) (s : State) : (discard gid idx s).outside.kernel = s.outside.kernel := by
  simp [discard]

@[simp] theorem applyShadows_kernel (frozen : Bool) (s : State) : (applyShadows frozen s).outside.kernel = s.outside.kernel := by
  rfl

@[simp] theorem consistLimit_kernel (gid : Nat) (idx : Nat) (s : State) : (consistLimit gid idx s).outside.kernel = s.outside.kernel := by
  unfold consistLimit; split <;> simp

@[simp] theorem deliverShadows_kernel (r : Nat) (due : Nat) (words : List (Nat × Word)) (s : State) : (deliverShadows r due words s).outside.kernel = s.outside.kernel := by
  simp [deliverShadows]

@[simp] theorem busWord_kernel (kind : Nat) (r : Nat) (w : Word) (corruptAt : List (Fin 576)) (s : State) : (busWord kind r w corruptAt s).outside.kernel = s.outside.kernel := by
  simp [busWord]

@[simp] theorem State.sendWord_kernel (s : State) (r : Nat) (w : Word) : (s.sendWord r w).outside.kernel = s.outside.kernel := by
  simp [State.sendWord]

@[simp] theorem State.forceRegion_kernel (s : State) (r : Nat) : (s.forceRegion r).outside.kernel = s.outside.kernel := by
  simp [State.forceRegion]

@[simp] theorem droopForce_kernel (c : Nat) (s : State) : (droopForce c s).outside.kernel = s.outside.kernel := by
  simp [droopForce]

@[simp] theorem dillTrip_kernel (c : Nat) (s : State) : (dillTrip c s).outside.kernel = s.outside.kernel := by
  simp [dillTrip]

@[simp] theorem State.emitFrame_kernel (s : State) (r : Nat) (f : Frame) : (s.emitFrame r f).outside.kernel = s.outside.kernel := by
  simp [State.emitFrame]

@[simp] theorem State.emitRead_kernel (s : State) (r : Nat) (version : Bool) : (s.emitRead r version).outside.kernel = s.outside.kernel := by
  simp [State.emitRead]

@[simp] theorem State.startFrame_kernel (s : State) (r : Nat) : (s.startFrame r).outside.kernel = s.outside.kernel := by
  unfold State.startFrame
  split
  · rfl
  · next f g h => simp [(nextFrame_keeps h).2.1]

@[simp] theorem frameEnd_kernel (r : Nat) (good : Bool) (s : State) : (frameEnd r good s).outside.kernel = s.outside.kernel := by
  unfold frameEnd; dsimp only; split <;> simp

@[simp] theorem raiseTest_kernel (r : Nat) (s : State) : (raiseTest r s).1.outside.kernel = s.outside.kernel := by
  unfold raiseTest; dsimp only; repeat' split
  all_goals simp

@[simp] theorem gridBlockEnd_kernel (r : Nat) (s : State) : (gridBlockEnd r s).outside.kernel = s.outside.kernel := by
  simp [gridBlockEnd]

@[simp] theorem State.holdDigitiser_kernel (s : State) (r : Nat) : (s.holdDigitiser r).outside.kernel = s.outside.kernel := by
  simp [State.holdDigitiser]

@[simp] theorem phaseFails_kernel (r : Nat) (k : Nat) (s : State) : (phaseFails r k s).outside.kernel = s.outside.kernel := by
  unfold phaseFails; dsimp only; repeat' split
  all_goals simp

@[simp] theorem phaseSample_kernel (r : Nat) (amps : ℤ) (status : Status) (s : State) : (phaseSample r amps status s).outside.kernel = s.outside.kernel := by
  simp [phaseSample]

@[simp] theorem diodeMap_kernel (r : Nat) (s : State) : (diodeMap r s).outside.kernel = s.outside.kernel := by
  simp [diodeMap]

@[simp] theorem diodeConversion_kernel (r : Nat) (pos : Nat) (temps : List ℤ) (s : State) : (diodeConversion r pos temps s).outside.kernel = s.outside.kernel := by
  simp [diodeConversion]

@[simp] theorem monitorFaults_kernel (r : Nat) (before : Nat) (s : State) : (monitorFaults r before s).outside.kernel = s.outside.kernel := by
  simp [monitorFaults]

@[simp] theorem monitorReading_kernel (r : Nat) (reads : List (Nat × Status)) (slewing : Bool) (s : State) :
    (monitorReading r reads slewing s).1.outside.kernel = s.outside.kernel := by
  unfold monitorReading
  extract_lets g slew before ks t u
  have ht : t.outside.kernel = s.outside.kernel := by simp [t]
  have hu : u.outside.kernel = t.outside.kernel := State.modRegion_kernel (by split <;> rfl)
  simp [hu, ht]

@[simp] theorem tpWindow_kernel (c : Nat) (stressed : Nat) (unstressed : Option Nat) (status : Status) (s : State) : (tpWindow c stressed unstressed status s).outside.kernel = s.outside.kernel := by
  simp [tpWindow]

@[simp] theorem sendSettings_kernel (r : Nat) (rows : List Nat) (committed : Bool) (s : State) : (sendSettings r rows committed s).outside.kernel = s.outside.kernel := by
  simp [sendSettings]

@[simp] theorem raiseShaped_kernel (r : Nat) (s : State) : (raiseShaped r s).outside.kernel = s.outside.kernel := by
  unfold raiseShaped; split <;> simp

@[simp] theorem forecastRegion_kernel (taps : List (ClusterId × FeatureTap)) (s : State) (r : Nat) : (forecastRegion taps s r).outside.kernel = s.outside.kernel := by
  simp [forecastRegion]

@[simp] theorem rampShaping_kernel (r : Nat) (s : State) : (rampShaping r s).outside.kernel = s.outside.kernel := by
  unfold rampShaping
  extract_lets rows
  split
  · rfl
  · rw [State.modRegion_kernel (by rfl)]
    simp

@[simp] theorem trackError_kernel (r : Nat) (s : State) : (trackError r s).outside.kernel = s.outside.kernel := by
  simp [trackError]

@[simp] theorem trackingBlockEnd_kernel (r : Nat) (s : State) : (trackingBlockEnd r s).outside.kernel = s.outside.kernel := by
  simp [trackingBlockEnd]

@[simp] theorem loadsAtBoundary_kernel (s : State) : (loadsAtBoundary s).outside.kernel = s.outside.kernel := by
  refine kernel_foldl (fun a l => ?_) _ _
  dsimp only
  split
  · rfl
  · split <;> simp

@[simp] theorem takeImage_kernel (r : Nat) (offset : Nat) (bytes : List Byte) (last : Bool) (s : State) : (takeImage r offset bytes last s).outside.kernel = s.outside.kernel := by
  simp [takeImage]

@[simp] theorem repeatReport_kernel (r : Nat) (last : Bool) (s : State) : (repeatReport r last s).outside.kernel = s.outside.kernel := by
  simp [repeatReport]

@[simp] theorem failLoad_kernel (l : ModelLoad) (reason : Nat) (s : State) : (failLoad l reason s).outside.kernel = s.outside.kernel := by
  simp [failLoad]

@[simp] theorem takeReport_kernel (r : Nat) (reason : Nat) (s : State) : (takeReport r reason s).outside.kernel = s.outside.kernel := by
  unfold takeReport; dsimp only; split <;> simp

@[simp] theorem voidSwitches_kernel (s : State) : (voidSwitches s).outside.kernel = s.outside.kernel := by
  refine kernel_foldl (fun a l => ?_) _ _
  dsimp only
  split <;> simp

@[simp] theorem activateModel_kernel (r : Nat) (s : State) : (activateModel r s).outside.kernel = s.outside.kernel := by
  unfold activateModel; split <;> simp

@[simp] theorem weightsLost_kernel (r : Nat) (s : State) : (weightsLost r s).outside.kernel = s.outside.kernel := by
  simp [weightsLost]

@[simp] theorem revokeGrant_kernel (i : Nat) (cause : Nat) (s : State) : (revokeGrant i cause s).outside.kernel = s.outside.kernel := by
  simp [revokeGrant]

@[simp] theorem abandonRounds_kernel (r : Nat) (detail : Nat) (s : State) : (abandonRounds r detail s).outside.kernel = s.outside.kernel := by
  simp [abandonRounds]

@[simp] theorem abandonAll_kernel (s : State) : (abandonAll s).outside.kernel = s.outside.kernel := by
  simp [abandonAll]

@[simp] theorem revokeRegion_kernel (r : Nat) (s : State) : (revokeRegion r s).outside.kernel = s.outside.kernel := by
  simp [revokeRegion]

@[simp] theorem endAllGrants_kernel (s : State) : (endAllGrants s).outside.kernel = s.outside.kernel :=
  (kernel_foldl (fun a i => by dsimp only; split <;> simp) _ _).trans (by simp)

@[simp] theorem takeReserve_kernel (r : Nat) (m : ReserveMsg) (s : State) : (takeReserve r m s).outside.kernel = s.outside.kernel := by
  simp [takeReserve]

@[simp] theorem repeatReserve_kernel (r : Nat) (m : ReserveMsg) (s : State) : (repeatReserve r m s).outside.kernel = s.outside.kernel := by
  simp [repeatReserve]

@[simp] theorem releaseStaging_kernel (r : Nat) (i : Nat) (s : State) : (releaseStaging r i s).outside.kernel = s.outside.kernel := by
  simp [releaseStaging]

@[simp] theorem markRevoked_kernel (r : Nat) (i : Nat) (s : State) : (markRevoked r i s).outside.kernel = s.outside.kernel := by
  simp [markRevoked]

@[simp] theorem treeWord_kernel (r : Nat) (release : Bool) (w : TreeWord) (s : State) : (treeWord r release w s).outside.kernel = s.outside.kernel := by
  simp [treeWord]

@[simp] theorem commitIndex_kernel (r : Nat) (i : Nat) (s : State) : (commitIndex r i s).outside.kernel = s.outside.kernel := by
  unfold commitIndex; split <;> simp

@[simp] theorem grantsAtBoundary_kernel (r : Nat) (s : State) : (grantsAtBoundary r s).outside.kernel = s.outside.kernel := by
  simp [grantsAtBoundary]

@[simp] theorem refTree_kernel (r : Nat) (s : State) : (refTree r s).outside.kernel = s.outside.kernel := by
  simp [refTree]

@[simp] theorem reportCommits_kernel (r : Nat) (due : List Nat) (s : State) : (reportCommits r due s).outside.kernel = s.outside.kernel := by
  simp [reportCommits]

@[simp] theorem releaseRaises_kernel (r : Nat) (s : State) : (releaseRaises r s).outside.kernel = s.outside.kernel := by
  simp [releaseRaises]

@[simp] theorem wordsAtBoundary_kernel (s : State) : (wordsAtBoundary s).outside.kernel = s.outside.kernel := by
  simp [wordsAtBoundary]

@[simp] theorem thymeReady_kernel (s : State) : (thymeReady s).outside.kernel = s.outside.kernel := by
  simp [thymeReady]

@[simp] theorem settleRegion_kernel (r : Nat) (limit : Nat) (cause : Nat) (s : State) : (settleRegion r limit cause s).outside.kernel = s.outside.kernel := by
  simp [settleRegion]

@[simp] theorem derateSettle_kernel (r : Nat) (s : State) : (derateSettle r s).outside.kernel = s.outside.kernel := by
  simp [derateSettle]

@[simp] theorem ecapSettle_kernel (s : State) : (ecapSettle s).outside.kernel = s.outside.kernel := by
  simp [ecapSettle]

@[simp] theorem suspendTimers_kernel (r : Nat) (s : State) : (suspendTimers r s).outside.kernel = s.outside.kernel := by
  simp [suspendTimers]

@[simp] theorem answerState_kernel (r : Nat) (i : Nat) (s : State) : (answerState r i s).outside.kernel = s.outside.kernel := by
  simp [answerState]

@[simp] theorem adoptGrant_kernel (i : Nat) (s : State) : (adoptGrant i s).outside.kernel = s.outside.kernel := by
  unfold adoptGrant; dsimp only; split <;> simp

@[simp] theorem adoptGrants_kernel (s : State) : (adoptGrants s).outside.kernel = s.outside.kernel := by
  simp [adoptGrants]

@[simp] theorem queryGrant_kernel (t : Taken) (s : State) : (queryGrant t s).outside.kernel = s.outside.kernel := by
  simp [queryGrant]

@[simp] theorem State.modHome_kernel (s : State) (gid : Nat) (f : Home → Home) : (s.modHome gid f).outside.kernel = s.outside.kernel := by
  rfl

@[simp] theorem State.modDef_kernel (s : State) (gid : Nat) (f : Group → Group) : (s.modDef gid f).outside.kernel = s.outside.kernel := by
  simp [State.modDef]

@[simp] theorem undefineGroup_kernel (t : Taken) (s : State) : (undefineGroup t s).outside.kernel = s.outside.kernel := by
  unfold undefineGroup; dsimp only; repeat' split
  all_goals simp

@[simp] theorem takeSlotRequest_kernel (r : Nat) (gid : Nat) (members : BitVec 576) (s : State) : (takeSlotRequest r gid members s).outside.kernel = s.outside.kernel := by
  simp [takeSlotRequest]

@[simp] theorem repeatSlotReply_kernel (r : Nat) (gid : Nat) (s : State) : (repeatSlotReply r gid s).outside.kernel = s.outside.kernel := by
  simp [repeatSlotReply]

@[simp] theorem settleDefinition_kernel (gid : Nat) (s : State) : (settleDefinition gid s).outside.kernel = s.outside.kernel := by
  unfold settleDefinition; repeat' split
  all_goals simp

@[simp] theorem takeSlotReply_kernel (r : Nat) (gid : Nat) (accept : Bool) (s : State) : (takeSlotReply r gid accept s).outside.kernel = s.outside.kernel := by
  unfold takeSlotReply; dsimp only; split <;> simp

@[simp] theorem groupsReady_kernel (s : State) : (groupsReady s).outside.kernel = s.outside.kernel := by
  simp [groupsReady]

@[simp] theorem lateLanding_kernel (r : Nat) (gid : Nat) (s : State) : (lateLanding r gid s).outside.kernel = s.outside.kernel := by
  simp [lateLanding]

@[simp] theorem landAt_kernel (c : Nat) (old : Word) (s : State) : (landAt c old s).outside.kernel = s.outside.kernel := by
  unfold landAt; dsimp only; split <;> simp

@[simp] theorem stepAfresh_kernel (c : Nat) (step : Word) (s : State) : (stepAfresh c step s).outside.kernel = s.outside.kernel := by
  unfold stepAfresh; repeat' split
  all_goals simp

@[simp] theorem barrier_kernel (c : Nat) (step : Word) (s : State) : (barrier c step s).outside.kernel = s.outside.kernel := by
  simp [barrier]

@[simp] theorem takeArm_kernel (r : Nat) (gid : Nat) (code : Nat) (sT : Word) (s : State) : (takeArm r gid code sT s).outside.kernel = s.outside.kernel := by
  unfold takeArm; split <;> simp

@[simp] theorem armGroup_kernel (gid : Nat) (code : Nat) (sT : Word) (s : State) : (armGroup gid code sT s).outside.kernel = s.outside.kernel := by
  unfold armGroup; split <;> simp

@[simp] theorem raiseHold_kernel (gid : Nat) (s : State) : (raiseHold gid s).outside.kernel = s.outside.kernel := by
  unfold raiseHold; split <;> simp

@[simp] theorem sendSummaries_kernel (gid : Nat) (step : Word) (s : State) : (sendSummaries gid step s).outside.kernel = s.outside.kernel := by
  unfold sendSummaries; split <;> simp

@[simp] theorem takeStepReport_kernel (c : Nat) (rep : StepRep) (s : State) : (takeStepReport c rep s).outside.kernel = s.outside.kernel := by
  unfold takeStepReport; split <;> simp

@[simp] theorem settleArm_kernel (gid : Nat) (g : Group) (s : State) : (settleArm gid g s).outside.kernel = s.outside.kernel := by
  unfold settleArm; dsimp only; split <;> simp

@[simp] theorem groupNeed_kernel (gid : Nat) (s : State) : (groupNeed gid s).outside.kernel = s.outside.kernel := by
  unfold groupNeed; dsimp only; repeat' split
  all_goals simp

@[simp] theorem trimGroups_kernel (s : State) : (trimGroups s).outside.kernel = s.outside.kernel := by
  simp [trimGroups]

@[simp] theorem sendMR_kernel (r : Nat) (s : State) : (sendMR r s).outside.kernel = s.outside.kernel := by
  simp [sendMR]

@[simp] theorem relayGroup_kernel (t : Taken) (s : State) : (relayGroup t s).outside.kernel = s.outside.kernel := by
  unfold relayGroup; dsimp only; split <;> simp

@[simp] theorem moveHome_kernel (gone : List Nat) (s : State) : (moveHome gone s).outside.kernel = s.outside.kernel := by
  simp [moveHome]

@[simp] theorem queryGroup_kernel (t : Taken) (s : State) : (queryGroup t s).outside.kernel = s.outside.kernel := by
  unfold queryGroup; dsimp only; split <;> simp

@[simp] theorem querySpec_kernel (t : Taken) (s : State) : (querySpec t s).outside.kernel = s.outside.kernel := by
  simp [querySpec]

@[simp] theorem answerQuery_kernel (t : Taken) (s : State) : (answerQuery t s).outside.kernel = s.outside.kernel := by
  simp [answerQuery]

@[simp] theorem answerQueries_kernel (s : State) : (answerQueries s).outside.kernel = s.outside.kernel := by
  simp [answerQueries]

@[simp] theorem adoptGroups_kernel (s : State) : (adoptGroups s).outside.kernel = s.outside.kernel := by
  simp [adoptGroups]

@[simp] theorem State.runItems_kernel {f : CapItem → State → CapItem × State}
    (h : ∀ i t, (f i t).2.outside.kernel = t.outside.kernel) (s : State) (p : CapItem → Bool) :
    (s.runItems p f).outside.kernel = s.outside.kernel := by
  unfold State.runItems
  simp only [State.modBudget_outside]
  refine List.foldlRecOn (motive := fun x : State × List CapCmd => x.1.outside.kernel = s.outside.kernel) _ _ rfl
    fun x hx c _ => ?_
  refine List.foldlRecOn (motive := fun y : State × List CapItem × Bool => y.1.outside.kernel = s.outside.kernel) c.items _ hx
    fun y hy i _ => ?_
  split
  · exact (h i _).trans hy
  · exact hy

@[simp] theorem completeCaps_kernel (s : State) : (completeCaps s).outside.kernel = s.outside.kernel := by
  simp [completeCaps]

@[simp] theorem settleCaps_kernel (s : State) : (settleCaps s).outside.kernel = s.outside.kernel := by
  simp [settleCaps]

@[simp] theorem clusterItems_kernel (s : State) : (clusterItems s).outside.kernel = s.outside.kernel := by
  simp [clusterItems]

@[simp] theorem thermPins_kernel (before : Bool) (s : State) : (thermPins before s).outside.kernel = s.outside.kernel := by
  simp [thermPins]

@[simp] theorem takeCap_kernel (r : Nat) (cap : Nat) (clearLatch : Bool) (s : State) : (takeCap r cap clearLatch s).outside.kernel = s.outside.kernel := by
  simp [takeCap]

@[simp] theorem clearLatch_kernel (r : Nat) (s : State) : (clearLatch r s).outside.kernel = s.outside.kernel := by
  simp [clearLatch]

@[simp] theorem capAtBoundary_kernel (r : Nat) (s : State) : (capAtBoundary r s).outside.kernel = s.outside.kernel := by
  unfold capAtBoundary; dsimp only; split <;> simp

@[simp] theorem ackCap_kernel (r : Nat) (s : State) : (ackCap r s).outside.kernel = s.outside.kernel := by
  simp [ackCap]

@[simp] theorem sendRaises_kernel (s : State) : (sendRaises s).outside.kernel = s.outside.kernel := by
  simp [sendRaises]

@[simp] theorem takeCapAck_kernel (r : Nat) (cap : Nat) (s : State) : (takeCapAck r cap s).outside.kernel = s.outside.kernel := by
  unfold takeCapAck; dsimp only; split <;> simp

@[simp] theorem State.modEcap_kernel (s : State) (f : Ecap → Ecap) : (s.modEcap f).outside.kernel = s.outside.kernel := by
  simp [State.modEcap]

@[simp] theorem ecapEdge_kernel (paths : List Hub) (before : Ecap) (s : State) : (ecapEdge paths before s).outside.kernel = s.outside.kernel := by
  simp [ecapEdge]

@[simp] theorem setEcap_kernel (paths : List Hub) (f : Ecap → Ecap) (s : State) : (setEcap paths f s).outside.kernel = s.outside.kernel := by
  simp [setEcap]

@[simp] theorem ecapLevel_kernel (h : Hub) (low : Bool) (s : State) : (ecapLevel h low s).outside.kernel = s.outside.kernel := by
  simp [ecapLevel]

@[simp] theorem readCoolant_kernel (inlet : List (Option ℤ)) (outlet : List (Option ℤ)) (s : State) : (readCoolant inlet outlet s).outside.kernel = s.outside.kernel := by
  simp [readCoolant]

@[simp] theorem readChildren_kernel (rd : PackageReads) (s : State) : (readChildren rd s).outside.kernel = s.outside.kernel := by
  simp [readChildren]

@[simp] theorem waterFill_kernel (s : State) : (waterFill s).1.outside.kernel = s.outside.kernel := by
  simp [waterFill]

@[simp] theorem regionItems_kernel (s : State) : (regionItems s).outside.kernel = s.outside.kernel := by
  simp [regionItems]

@[simp] theorem packageSecond_kernel (s : State) : (packageSecond s).outside.kernel = s.outside.kernel := by
  simp [packageSecond]

@[simp] theorem sendCaps_kernel (caps : List Nat) (s : State) : (sendCaps caps s).outside.kernel = s.outside.kernel := by
  simp [sendCaps]

@[simp] theorem thermalRecords_kernel (caps : List Nat) (s : State) : (thermalRecords caps s).outside.kernel = s.outside.kernel := by
  simp [thermalRecords]

@[simp] theorem pollBroken_kernel (ks : List Nat) (s : State) : (pollBroken ks s).outside.kernel = s.outside.kernel := by
  simp [pollBroken]

@[simp] theorem countDurations_kernel (s : State) : (countDurations s).outside.kernel = s.outside.kernel := by
  simp [countDurations]

@[simp] theorem moveHomes_kernel (s : State) : (moveHomes s).outside.kernel = s.outside.kernel := by
  simp [moveHomes]

@[simp] theorem keepThs_kernel (s : State) : (keepThs s).outside.kernel = s.outside.kernel := by
  simp [keepThs]

@[simp] theorem restoreThs_kernel (s : State) : (restoreThs s).outside.kernel = s.outside.kernel := by
  simp [restoreThs]

@[simp] theorem thermalLoop_kernel (s : State) : (thermalLoop s).outside.kernel = s.outside.kernel := by
  have h (l : List Nat) (t : State) :
      (l.foldl (fun (a : State) r => a.modRegion r (fun _ => loopRegion a r)) t).outside.kernel = t.outside.kernel :=
    kernel_foldl (fun a r => State.modRegion_kernel rfl) l t
  simp [thermalLoop, h]

@[simp] theorem hubWafer_kernel (rd : PackageReads) (s : State) : (hubWafer rd s).outside.kernel = s.outside.kernel := by
  unfold hubWafer; dsimp only; split <;> simp

@[simp] theorem waferPeriod_kernel (rd : PackageReads) (s : State) : (waferPeriod rd s).outside.kernel = s.outside.kernel := by
  simp [waferPeriod]

@[simp] theorem packageItems_kernel (s : State) : (packageItems s).outside.kernel = s.outside.kernel := by
  unfold packageItems
  refine State.runItems_kernel (fun i t => ?_) _ _
  extract_lets b
  split <;> simp

@[simp] theorem dividePackage_kernel (s : State) : (dividePackage s).outside.kernel = s.outside.kernel := by
  simp [dividePackage]

@[simp] theorem sendLevels_kernel (before : Budget) (s : State) : (sendLevels before s).outside.kernel = s.outside.kernel := by
  simp [sendLevels]

@[simp] theorem quietChildren_kernel (s : State) : (quietChildren s).outside.kernel = s.outside.kernel := by
  simp [quietChildren]

@[simp] theorem readArrays_kernel (arrays : List (Option ArrayRead)) (s : State) :
    (readArrays arrays s).outside.kernel = s.outside.kernel := by
  unfold readArrays
  extract_lets t
  have ht : t.outside.kernel = s.outside.kernel := by
    refine kernel_foldl (fun a r => ?_) _ _
    split
    · rfl
    · simp [arrayPeriod]
  exact (kernel_foldl (fun a c => by simp) _ _).trans ht

@[simp] theorem shortfall_kernel (level : Nat) (kind : Nat) (index : Nat) (pending : Nat) (cause : Nat) (s : State) : (shortfall level kind index pending cause s).outside.kernel = s.outside.kernel := by
  simp [shortfall]

@[simp] theorem shortfalls_kernel (s : State) : (shortfalls s).outside.kernel = s.outside.kernel := by
  simp [shortfalls]

@[simp] theorem packageRecord_kernel (s : State) : (packageRecord s).outside.kernel = s.outside.kernel := by
  simp [packageRecord]

@[simp] theorem hubPackage_kernel (arrays : List (Option ArrayRead)) (s : State) : (hubPackage arrays s).outside.kernel = s.outside.kernel := by
  simp [hubPackage]

@[simp] theorem packagePeriod_kernel (arrays : List (Option ArrayRead)) (s : State) : (packagePeriod arrays s).outside.kernel = s.outside.kernel := by
  simp [packagePeriod]

@[simp] theorem readAges_kernel (taps : AgeReads) (r : Nat) (s : State) : (readAges taps r s).outside.kernel = s.outside.kernel := by
  simp [readAges]

@[simp] theorem setTrimState_kernel (r : Nat) (x : TrimState) (s : State) : (setTrimState r x s).outside.kernel = s.outside.kernel := by
  simp [setTrimState]

@[simp] theorem recomputeTrim_kernel (r : Nat) (s : State) : (recomputeTrim r s).outside.kernel = s.outside.kernel := by
  simp [recomputeTrim]

@[simp] theorem exhaust_kernel (r : Nat) (s : State) : (exhaust r s).outside.kernel = s.outside.kernel := by
  simp [exhaust]

@[simp] theorem exportTrims_kernel (s : State) : (exportTrims s).outside.kernel = s.outside.kernel := by
  simp [exportTrims]

@[simp] theorem leaveExhausted_kernel (r : Nat) (s : State) : (leaveExhausted r s).outside.kernel = s.outside.kernel := by
  simp [leaveExhausted]

@[simp] theorem recomputeRead_kernel (taps : AgeReads) (r : Nat) (s : State) : (recomputeRead taps r s).outside.kernel = s.outside.kernel := by
  simp [recomputeRead]

@[simp] theorem ageingInterval_kernel (taps : AgeReads) (s : State) : (ageingInterval taps s).outside.kernel = s.outside.kernel := by
  simp [ageingInterval]

@[simp] theorem recomputeNow_kernel (taps : AgeReads) (rs : List Nat) (s : State) : (recomputeNow taps rs s).outside.kernel = s.outside.kernel := by
  simp [recomputeNow]

@[simp] theorem trimMaxRaised_kernel (before : Nat) (taps : AgeReads) (s : State) : (trimMaxRaised before taps s).outside.kernel = s.outside.kernel := by
  simp [trimMaxRaised]

@[simp] theorem evaluateMargin_kernel (taps : AgeReads) (r : Nat) (s : State) : (evaluateMargin taps r s).outside.kernel = s.outside.kernel := by
  unfold evaluateMargin; dsimp only; repeat' split
  all_goals simp

@[simp] theorem marginEvaluation_kernel (taps : AgeReads) (s : State) : (marginEvaluation taps s).outside.kernel = s.outside.kernel := by
  simp [marginEvaluation]

@[simp] theorem rejectTrim_kernel (t : Taken) (s : State) : (rejectTrim t s).outside.kernel = s.outside.kernel := by
  simp [rejectTrim]

@[simp] theorem State.exportAt_kernel (s : State) (t : Taken) : (s.exportAt t).outside.kernel = s.outside.kernel := by
  simp [State.exportAt]

@[simp] theorem loadTrims_kernel (t : Taken) (s : State) : (loadTrims t s).outside.kernel = s.outside.kernel := by
  simp [loadTrims]

@[simp] theorem newWafer_kernel (taps : SMap Nat) (t : Taken) (s : State) : (newWafer taps t s).outside.kernel = s.outside.kernel := by
  simp [newWafer]

@[simp] theorem State.modPh_kernel (s : State) (r : Nat) (f : Phases → Phases) : (s.modPh r f).outside.kernel = s.outside.kernel := by
  simp [State.modPh]

@[simp] theorem phaseSwap_kernel (r : Nat) (k : Nat) (failed : Bool) (s : State) : (phaseSwap r k failed s).outside.kernel = s.outside.kernel := by
  unfold phaseSwap; dsimp only; split <;> simp

@[simp] theorem restorePhase_kernel (t : Taken) (s : State) : (restorePhase t s).outside.kernel = s.outside.kernel := by
  simp [restorePhase]

@[simp] theorem watchEnd_kernel (r : Nat) (s : State) : (watchEnd r s).outside.kernel = s.outside.kernel := by
  unfold watchEnd; split <;> simp

@[simp] theorem pmbusAtBoundary_kernel (r : Nat) (s : State) : (pmbusAtBoundary r s).outside.kernel = s.outside.kernel := by
  simp [pmbusAtBoundary]

@[simp] theorem smbAlert_kernel (r : Nat) (bad : BitVec 24) (failed : Bool) (s : State) : (smbAlert r bad failed s).outside.kernel = s.outside.kernel := by
  simp [smbAlert]

@[simp] theorem assertHold_kernel (r : Nat) (s : State) : (assertHold r s).outside.kernel = s.outside.kernel := by
  simp [assertHold]

@[simp] theorem alertOff_kernel (r : Nat) (s : State) : (alertOff r s).outside.kernel = s.outside.kernel := by
  simp [alertOff]

@[simp] theorem releaseHolds_kernel (r : Nat) (s : State) : (releaseHolds r s).outside.kernel = s.outside.kernel := by
  simp [releaseHolds]

@[simp] theorem paceRow_kernel (r : Nat) (warned : Bool) (row : Nat) (s : State) : (paceRow r warned row s).outside.kernel = s.outside.kernel := by
  simp [paceRow]

@[simp] theorem tickRegion_kernel (taps : SMap TickTap) (s : State) (r : Nat) : (tickRegion taps s r).outside.kernel = s.outside.kernel := by
  simp [tickRegion]

@[simp] theorem tickAll_kernel (taps : SMap TickTap) (s : State) : (tickAll taps s).outside.kernel = s.outside.kernel := by
  simp [tickAll]

@[simp] theorem stallSuspect_kernel (c : Nat) (hdr : MsgHdr) (s : State) : (stallSuspect c hdr s).outside.kernel = s.outside.kernel := by
  simp [stallSuspect]

@[simp] theorem stallClear_kernel (c : Nat) (hdr : MsgHdr) (s : State) : (stallClear c hdr s).outside.kernel = s.outside.kernel := by
  unfold stallClear; dsimp only; repeat' split
  all_goals simp

@[simp] theorem mbDoorbell_kernel (k : Nat) (s : State) : (mbDoorbell k s).outside.kernel = s.outside.kernel := by
  simp [mbDoorbell]

@[simp] theorem mbRing_kernel (k : Nat) (s : State) : (mbRing k s).outside.kernel = s.outside.kernel := by
  simp [mbRing]

@[simp] theorem mirrorSlots_kernel (s : State) : (mirrorSlots s).outside.kernel = s.outside.kernel := by
  simp [mirrorSlots]

@[simp] theorem takeHostSlot_kernel (h : Hub) (core : Nat) (s : State) : (takeHostSlot h core s).outside.kernel = s.outside.kernel := by
  unfold takeHostSlot; split <;> simp

@[simp] theorem chiveAck_kernel (c : Nat) (k : Nat) (code : Nat) (detail : Nat) (result : Word) (s : State) : (chiveAck c k code detail result s).outside.kernel = s.outside.kernel := by
  simp [chiveAck]

@[simp] theorem takeChiveSlot_kernel (c : Nat) (s : State) : (takeChiveSlot c s).outside.kernel = s.outside.kernel := by
  unfold takeChiveSlot; dsimp only; repeat' split
  all_goals simp

@[simp] theorem chiveMessage_kernel {f : State → State} (h : ∀ t, (f t).outside.kernel = t.outside.kernel) (code c k : Nat)
    (s : State) : (chiveMessage code c k f s).outside.kernel = s.outside.kernel := by
  rcases chiveMessage_cases code c k f s with e | ⟨-, e⟩ | ⟨-, -, e⟩ <;> simp [e, h]

@[simp] theorem ageReadMsg_kernel (c : Nat) (k : Nat) (taps : Nat) (s : State) : (ageReadMsg c k taps s).outside.kernel = s.outside.kernel := by
  simp [ageReadMsg]

@[simp] theorem holdDill_kernel (r : Nat) (s : State) : (holdDill r s).outside.kernel = s.outside.kernel := by
  simp [holdDill]

@[simp] theorem dillSweepMsg_kernel (c : Nat) (k : Nat) (diff : ℤ) (s : State) : (dillSweepMsg c k diff s).outside.kernel = s.outside.kernel := by
  simp [dillSweepMsg]

@[simp] theorem countersMsg_kernel (c : Nat) (k : Nat) (s : State) : (countersMsg c k s).outside.kernel = s.outside.kernel := by
  unfold countersMsg; dsimp only; split <;> simp

@[simp] theorem sendSummary_kernel (r : Nat) (m : RMulti) (final : Bool) (asked : Bool) (s : State) : (sendSummary r m final asked s).outside.kernel = s.outside.kernel := by
  simp [sendSummary]

@[simp] theorem endMulti_kernel (r : Nat) (k : Nat) (s : State) : (endMulti r k s).outside.kernel = s.outside.kernel := by
  unfold endMulti; split <;> simp

@[simp] theorem postChive_kernel (r : Nat) (k : Nat) (epoch : Word) (msg : List Byte) (c : Nat) (s : State) : (postChive r k epoch msg c s).outside.kernel = s.outside.kernel := by
  simp [postChive]

@[simp] theorem takePost_kernel (r : Nat) (k : Nat) (no : Nat) (mask : Nat) (epoch : Word) (msg : List Byte) (s : State) : (takePost r k no mask epoch msg s).outside.kernel = s.outside.kernel := by
  simp [takePost]

@[simp] theorem sendPost_kernel (m : Multi) (s : State) (r : Nat) : (sendPost m s r).outside.kernel = s.outside.kernel := by
  simp [sendPost]

@[simp] theorem openMulti_kernel (m : Multi) (s : State) : (openMulti m s).outside.kernel = s.outside.kernel := by
  simp [openMulti]

@[simp] theorem openHeld_kernel (s : State) : (openHeld s).outside.kernel = s.outside.kernel := by
  simp [openHeld]

@[simp] theorem postArrives_kernel (r : Nat) (k : Nat) (mask : Nat) (hdr : MsgHdr) (msg : List Byte) (s : State) : (postArrives r k mask hdr msg s).outside.kernel = s.outside.kernel := by
  simp [postArrives]

@[simp] theorem multicastPost_kernel (r : Nat) (k : Nat) (mask : BitVec 576) (hdr : MsgHdr) (msg : List Byte) (others : List (Nat × BitVec 576)) (s : State) : (multicastPost r k mask hdr msg others s).outside.kernel = s.outside.kernel := by
  simp [multicastPost]

@[simp] theorem takeChiveAck_kernel (c : Nat) (k : Nat) (code : Byte) (s : State) : (takeChiveAck c k code s).outside.kernel = s.outside.kernel := by
  unfold takeChiveAck; dsimp only; split <;> simp

@[simp] theorem interimSummary_kernel (r : Nat) (k : Nat) (s : State) : (interimSummary r k s).outside.kernel = s.outside.kernel := by
  unfold interimSummary; split <;> simp

@[simp] theorem answerSummary_kernel (r : Nat) (k : Nat) (s : State) : (answerSummary r k s).outside.kernel = s.outside.kernel := by
  unfold answerSummary; split <;> simp

@[simp] theorem forceCancel_kernel (c : Nat) (s : State) : (forceCancel c s).outside.kernel = s.outside.kernel := by
  simp [forceCancel]

@[simp] theorem shrinkGrant_kernel (c : Nat) (s : State) : (shrinkGrant c s).outside.kernel = s.outside.kernel := by
  simp [shrinkGrant]

@[simp] theorem spareOut_kernel (c : Nat) (s : State) : (spareOut c s).outside.kernel = s.outside.kernel := by
  unfold spareOut
  split
  · rfl
  · extract_lets r t u v w
    have hu : u.outside.kernel = s.outside.kernel := by
      refine (kernel_foldl (fun a d => ?_) _ _).trans (by simp [t])
      split <;> simp
    simp [w, v, hu]

@[simp] theorem selfCheck_kernel (c : Nat) (ok : Bool) (s : State) : (selfCheck c ok s).outside.kernel = s.outside.kernel := by
  unfold selfCheck; split <;> simp

@[simp] theorem takeSummary_kernel (r : Nat) (x : Summary) (ok : Bool) (s : State) : (takeSummary r x ok s).outside.kernel = s.outside.kernel := by
  unfold takeSummary; dsimp only; repeat' split
  all_goals simp

@[simp] theorem adoptMailboxes_kernel (s : State) : (adoptMailboxes s).outside.kernel = s.outside.kernel := by
  simp [adoptMailboxes]

@[simp] theorem releaseNmi_kernel (h : Hub) (s : State) : (releaseNmi h s).outside.kernel = s.outside.kernel := by
  unfold releaseNmi; split <;> simp

@[simp] theorem runChiveAgain_kernel (c : Nat) (cause : Nat) (s : State) : (runChiveAgain c cause s).outside.kernel = s.outside.kernel := by
  simp [runChiveAgain]

@[simp] theorem stopChive_kernel (c : Nat) (s : State) : (stopChive c s).outside.kernel = s.outside.kernel := by
  simp [stopChive]

@[simp] theorem restartChive_kernel (c : Nat) (cause : Nat) (s : State) : (restartChive c cause s).outside.kernel = s.outside.kernel := by
  simp [restartChive]

@[simp] theorem restartCore_kernel (core : CoreId) (cause : Nat) (s : State) : (restartCore core cause s).outside.kernel = s.outside.kernel := by
  unfold restartCore; split <;> simp

@[simp] theorem watchdog_kernel (core : CoreId) (s : State) : (watchdog core s).outside.kernel = s.outside.kernel := by
  simp [watchdog]

@[simp] theorem protectionViolation_kernel (core : CoreId) (s : State) : (protectionViolation core s).outside.kernel = s.outside.kernel := by
  unfold protectionViolation; split <;> simp

@[simp] theorem State.modAct_kernel (s : State) (f : Activation → Activation) : (s.modAct f).outside.kernel = s.outside.kernel := by
  simp [State.modAct]

@[simp] theorem clearStops_kernel (t : Nat) (s : State) : (clearStops t s).outside.kernel = s.outside.kernel := by
  simp [clearStops]

@[simp] theorem State.finishAct_kernel (s : State) : (s.finishAct).outside.kernel = s.outside.kernel := by
  unfold State.finishAct; dsimp only; repeat' split
  all_goals simp

@[simp] theorem flipHubCore_kernel (h : Hub) (k : Nat) (back : Bool) (s : State) : (flipHubCore h k back s).outside.kernel = s.outside.kernel := by
  simp [flipHubCore]

@[simp] theorem goBack_kernel (a : Activation) (s : State) : (goBack a s).outside.kernel = s.outside.kernel := by
  simp [goBack]

@[simp] theorem coreTurn_kernel {next : State → State} (h : ∀ t, (next t).outside.kernel = t.outside.kernel) (a : Activation)
    (k : Hub) (s : State) : (coreTurn a k next s).outside.kernel = s.outside.kernel := by
  simp [coreTurn, h]

@[simp] theorem ownerStep_kernel (a : Activation) (s : State) : (ownerStep a s).outside.kernel = s.outside.kernel := by
  unfold ownerStep; split <;> simp

@[simp] theorem switchStep_kernel (s : State) : (switchStep s).outside.kernel = s.outside.kernel := by
  unfold switchStep; repeat' split
  all_goals simp

@[simp] theorem flipChive_kernel (c : Nat) (back : Bool) (s : State) : (flipChive c back s).outside.kernel = s.outside.kernel := by
  simp [flipChive]

@[simp] theorem switchChive_kernel (c : Nat) (s : State) : (switchChive c s).outside.kernel = s.outside.kernel := by
  simp [switchChive]

@[simp] theorem backWave_kernel (w : Nat) (s : State) : (backWave w s).outside.kernel = s.outside.kernel := by
  simp [backWave]

@[simp] theorem startWave_kernel (w : Nat) (s : State) : (startWave w s).outside.kernel = s.outside.kernel := by
  simp [startWave]

@[simp] theorem switchStopped_kernel (w : Nat) (s : State) : (switchStopped w s).outside.kernel = s.outside.kernel := by
  simp [switchStopped]

@[simp] theorem waveStep_kernel (s : State) : (waveStep s).outside.kernel = s.outside.kernel := by
  unfold waveStep; split <;> simp

@[simp] theorem startSwitch_kernel (s : State) : (startSwitch s).outside.kernel = s.outside.kernel := by
  unfold startSwitch; split <;> simp

@[simp] theorem enterDrain_kernel (s : State) : (enterDrain s).outside.kernel = s.outside.kernel := by
  unfold enterDrain; split <;> simp

@[simp] theorem deferAct_kernel (s : State) : (deferAct s).outside.kernel = s.outside.kernel := by
  unfold deferAct; split <;> simp

@[simp] theorem activate_kernel (t : Taken) (s : State) : (activate t s).outside.kernel = s.outside.kernel := by
  unfold activate; split <;> simp

@[simp] theorem resumeAct_kernel (s : State) : (resumeAct s).outside.kernel = s.outside.kernel := by
  unfold resumeAct; split <;> simp

@[simp] theorem drainEnds_kernel (s : State) : (drainEnds s).outside.kernel = s.outside.kernel := by
  unfold drainEnds; split <;> simp

@[simp] theorem drainLimit_kernel (s : State) : (drainLimit s).outside.kernel = s.outside.kernel := by
  unfold drainLimit; split <;> simp

@[simp] theorem actAtBoundary_kernel (s : State) : (actAtBoundary s).outside.kernel = s.outside.kernel := by
  unfold actAtBoundary; split <;> simp

@[simp] theorem holdDrained_kernel (s : State) : (holdDrained s).outside.kernel = s.outside.kernel := by
  unfold holdDrained; split <;> simp

@[simp] theorem coreReady_kernel (core : CoreId) (s : State) : (coreReady core s).outside.kernel = s.outside.kernel := by
  unfold coreReady; split <;> simp

@[simp] theorem readyTimeout_kernel (core : CoreId) (s : State) : (readyTimeout core s).outside.kernel = s.outside.kernel := by
  unfold readyTimeout; repeat' split
  all_goals simp

@[simp] theorem adoptActivation_kernel (s : State) : (adoptActivation s).outside.kernel = s.outside.kernel := by
  simp [adoptActivation]

@[simp] theorem faultPins_kernel (before : State) (s : State) : (faultPins before s).outside.kernel = s.outside.kernel := by
  simp [faultPins]

@[simp] theorem blockReset_kernel (e : Event) (s : State) : (blockReset e s).outside.kernel = s.outside.kernel := by
  unfold blockReset; repeat' split
  all_goals simp

@[simp] theorem react_kernel (h : Hub) (e : Event) (set : Nat) (s : State) : (react h e set s).outside.kernel = s.outside.kernel := by
  simp [react]

@[simp] theorem State.noteCounts_kernel (s : State) (h : Hub) (src : Nat) (counts : List (Nat × Nat)) : (s.noteCounts h src counts).outside.kernel = s.outside.kernel := by
  simp [State.noteCounts]

@[simp] theorem takeEvent_kernel (h : Hub) (e : Event) (s : State) (more : List Nat) : (takeEvent h e s more).outside.kernel = s.outside.kernel := by
  simp [takeEvent]

@[simp] theorem takeBoth_kernel (e : Event) (more : List Nat) (s : State) : (takeBoth e more s).outside.kernel = s.outside.kernel := by
  unfold takeBoth; repeat' split
  all_goals simp

@[simp] theorem faultEvent_kernel (s : State) : (faultEvent s).outside.kernel = s.outside.kernel := by
  unfold faultEvent; repeat' split
  all_goals simp

@[simp] theorem clearAt_kernel (h : Hub) (src : Nat) (s : State) : (clearAt h src s).outside.kernel = s.outside.kernel := by
  unfold clearAt; repeat' split
  all_goals simp

@[simp] theorem pendClear_kernel (src : Nat) (s : State) : (pendClear src s).outside.kernel = s.outside.kernel := by
  simp [pendClear]

@[simp] theorem forceEvent_kernel (src : Nat) (s : State) : (forceEvent src s).outside.kernel = s.outside.kernel := by
  unfold forceEvent; repeat' split
  all_goals simp

@[simp] theorem breakPair_kernel (h : Hub) (src : Nat) (s : State) : (breakPair h src s).outside.kernel = s.outside.kernel := by
  simp [breakPair]

@[simp] theorem forceBroken_kernel (src : Nat) (s : State) : (forceBroken src s).outside.kernel = s.outside.kernel := by
  simp [forceBroken]

@[simp] theorem restoreRegister_kernel (h : Hub) (off : Nat) (degraded : Bool) (s : State) : (restoreRegister h off degraded s).outside.kernel = s.outside.kernel := by
  simp [restoreRegister]

@[simp] theorem State.recordFirst_kernel (s : State) (code : Nat) (source : Nat) (arg : Word) : (s.recordFirst code source arg).outside.kernel = s.outside.kernel := by
  simp [State.recordFirst]

@[simp] theorem recorderLost_kernel (b : Nat) (s : State) : (recorderLost b s).outside.kernel = s.outside.kernel := by
  simp [recorderLost]

@[simp] theorem selectWide_kernel (wid : Nat) (idx : Nat) (s : State) : (selectWide wid idx s).outside.kernel = s.outside.kernel := by
  unfold selectWide; repeat' split
  all_goals simp

@[simp] theorem captureWide_kernel (s : State) : (captureWide s).outside.kernel = s.outside.kernel := by
  unfold captureWide; split <;> simp

@[simp] theorem answerRead_kernel (h : Hub) (off : Nat) (s : State) : (answerRead h off s).outside.kernel = s.outside.kernel := by
  simp [answerRead]

@[simp] theorem adoptEpoch_kernel (r : Nat) (e : Word) (s : State) : (adoptEpoch r e s).outside.kernel = s.outside.kernel := by
  simp [adoptEpoch]

@[simp] theorem resendClaim_kernel (s : State) (r : Nat) : (resendClaim s r).outside.kernel = s.outside.kernel := by
  unfold resendClaim; dsimp only; split <;> simp

@[simp] theorem takeClaim_kernel (r : Nat) (hdr : MsgHdr) (s : State) : (takeClaim r hdr s).outside.kernel = s.outside.kernel := by
  simp [takeClaim]

@[simp] theorem startRegions_kernel (s : State) : (startRegions s).outside.kernel = s.outside.kernel := by
  simp [startRegions]

@[simp] theorem adoptStage_kernel (s : State) : (adoptStage s).outside.kernel = s.outside.kernel := by
  simp [adoptStage]

@[simp] theorem answerReads_kernel (s : State) : (answerReads s).outside.kernel = s.outside.kernel := by
  unfold answerReads; split <;> simp

@[simp] theorem rewriteCompletions_kernel (s : State) : (rewriteCompletions s).outside.kernel = s.outside.kernel := by
  simp [rewriteCompletions]

@[simp] theorem revokeLatched_kernel (s : State) : (revokeLatched s).outside.kernel = s.outside.kernel := by
  simp [revokeLatched]

@[simp] theorem recoverWork_kernel (code : Nat) (s : State) : (recoverWork code s).outside.kernel = s.outside.kernel := by
  simp [recoverWork]

@[simp] theorem missingReactions_kernel (h : Hub) (s : State) : (missingReactions h s).outside.kernel = s.outside.kernel := by
  simp [missingReactions]

@[simp] theorem takeControl_kernel (s : State) : (takeControl s).outside.kernel = s.outside.kernel := by
  unfold takeControl; dsimp only; repeat' split
  all_goals simp

@[simp] theorem takeClaimReply_kernel (r : Nat) (epoch : Word) (s : State) : (takeClaimReply r epoch s).outside.kernel = s.outside.kernel := by
  unfold takeClaimReply; split <;> simp

@[simp] theorem claimAtBoundary_kernel (s : State) : (claimAtBoundary s).outside.kernel = s.outside.kernel := by
  simp [claimAtBoundary]

@[simp] theorem loseTelemetry_kernel (from_ : List TelRec) (have_ : Nat) (s : State) : (loseTelemetry from_ have_ s).outside.kernel = s.outside.kernel := by
  simp [loseTelemetry]

@[simp] theorem recoveryMode_kernel (s : State) : (recoveryMode s).outside.kernel = s.outside.kernel := by
  simp [recoveryMode]

@[simp] theorem takeMirrored_kernel (h : Hub) (s : State) : (takeMirrored h s).outside.kernel = s.outside.kernel := by
  simp [takeMirrored]

@[simp] theorem countSilence_kernel (s : State) : (countSilence s).outside.kernel = s.outside.kernel := by
  simp [countSilence]

@[simp] theorem endLinkPeriod_kernel (s : State) : (endLinkPeriod s).outside.kernel = s.outside.kernel := by
  unfold endLinkPeriod; split <;> simp

@[simp] theorem sendBeats_kernel (s : State) : (sendBeats s).outside.kernel = s.outside.kernel := by
  unfold sendBeats; dsimp only; repeat' split
  all_goals simp

@[simp] theorem dropLanes_kernel (bad : BitVec 4) (s : State) : (dropLanes bad s).outside.kernel = s.outside.kernel := by
  simp [dropLanes]

@[simp] theorem resendMessage_kernel (ends : Ends) (seq : Nat) (s : State) : (resendMessage ends seq s).outside.kernel = s.outside.kernel := by
  unfold resendMessage; dsimp only; repeat' split
  all_goals simp

@[simp] theorem pinsFollow_kernel (before : State) (s : State) : (pinsFollow before s).outside.kernel = s.outside.kernel := by
  simp [pinsFollow]

@[simp] theorem dropReads_kernel (s : State) : (dropReads s).outside.kernel = s.outside.kernel := by
  simp [dropReads]

@[simp] theorem reachStep7_kernel (h : Hub) (s : State) : (reachStep7 h s).outside.kernel = s.outside.kernel := by
  unfold reachStep7; split <;> simp

@[simp] theorem defectMap_kernel (d : DefectReport) (s : State) : (defectMap d s).outside.kernel = s.outside.kernel := by
  simp [defectMap]

@[simp] theorem changeMap_kernel (d : DefectReport) (s : State) : (changeMap d s).outside.kernel = s.outside.kernel := by
  simp [changeMap]

@[simp] theorem selfTestRegion_kernel (asserted : SMap (BitVec 8)) (still : SMap (BitVec 8)) (r : Nat) (s : State) : (selfTestRegion asserted still r s).outside.kernel = s.outside.kernel := by
  simp [selfTestRegion]

@[simp] theorem selfTestEnds_kernel (asserted : SMap (BitVec 8)) (still : SMap (BitVec 8)) (s : State) : (selfTestEnds asserted still s).outside.kernel = s.outside.kernel := by
  simp [selfTestEnds]

@[simp] theorem startChives_kernel (s : State) : (startChives s).outside.kernel = s.outside.kernel := by
  simp [startChives]

@[simp] theorem holdAgain_kernel (r : Nat) (s : State) : (holdAgain r s).outside.kernel = s.outside.kernel := by
  simp [holdAgain]

@[simp] theorem warmRelease_kernel (s : State) : (warmRelease s).outside.kernel = s.outside.kernel := by
  simp [warmRelease]

@[simp] theorem turnOn_kernel (s : State) : (turnOn s).outside.kernel = s.outside.kernel := by
  simp [turnOn]

@[simp] theorem configured_kernel (r : Nat) (voutMode : Nat) (bad : BitVec 24) (enables : BitVec 24) (s : State) : (configured r voutMode bad enables s).outside.kernel = s.outside.kernel := by
  simp [configured]

@[simp] theorem reachStep_kernel (n : Nat) (s : State) : (reachStep n s).outside.kernel = s.outside.kernel := by
  simp [reachStep]

@[simp] theorem startDone_kernel (s : State) : (startDone s).outside.kernel = s.outside.kernel := by
  unfold startDone; split <;> simp

@[simp] theorem setGate_kernel (kind : Nat) (index : Nat) (closed : Bool) (s : State) : (setGate kind index closed s).outside.kernel = s.outside.kernel := by
  unfold setGate; split <;> simp

@[simp] theorem gateAnswer_kernel (op : Nat) (kind : Nat) (index : Nat) (who : GateAsker) (result : Nat) (s : State) : (gateAnswer op kind index who result s).outside.kernel = s.outside.kernel := by
  simp [gateAnswer]

@[simp] theorem gateClose_kernel (kind : Nat) (index : Nat) (who : GateAsker) (busy : Bool) (s : State) : (gateClose kind index who busy s).outside.kernel = s.outside.kernel := by
  unfold gateClose; split <;> simp

@[simp] theorem gateOpen_kernel (kind : Nat) (index : Nat) (who : GateAsker) (busy : Bool) (s : State) : (gateOpen kind index who busy s).outside.kernel = s.outside.kernel := by
  unfold gateOpen; split <;> simp

@[simp] theorem setHalt_kernel (core : CoreId) (st : CoreState) (why : Nat) (s : State) : (setHalt core st why s).outside.kernel = s.outside.kernel := by
  unfold setHalt; split <;> simp

@[simp] theorem setBreaks_kernel (core : CoreId) (f : List (Nat × Word × Hub) → List (Nat × Word × Hub)) (s : State) : (setBreaks core f s).outside.kernel = s.outside.kernel := by
  unfold setBreaks; split <;> simp

@[simp] theorem haltCore_kernel (h : Hub) (core : CoreId) (why : Nat) (s : State) : (haltCore h core why s).outside.kernel = s.outside.kernel := by
  simp [haltCore]

@[simp] theorem resumeCore_kernel (core : CoreId) (s : State) : (resumeCore core s).outside.kernel = s.outside.kernel := by
  unfold resumeCore; repeat' split
  all_goals simp

@[simp] theorem endGrant_kernel (h : Hub) (s : State) : (endGrant h s).outside.kernel = s.outside.kernel := by
  simp [endGrant]

@[simp] theorem memEvent_kernel (core : CoreId) (cause : Nat) (s : State) : (memEvent core cause s).outside.kernel = s.outside.kernel := by
  simp [memEvent]

@[simp] theorem memoryError_kernel (x : Scrub) (corrected : Bool) (s : State) : (memoryError x corrected s).outside.kernel = s.outside.kernel := by
  unfold memoryError; split <;> simp

@[simp] theorem scrubOne_kernel (x : Scrub) (s : State) : (scrubOne x s).outside.kernel = s.outside.kernel := by
  unfold scrubOne; repeat' split
  all_goals simp

@[simp] theorem scrubAll_kernel (scrubs : List Scrub) (found : List Scrub) (s : State) : (scrubAll scrubs found s).outside.kernel = s.outside.kernel := by
  simp [scrubAll]

@[simp] theorem dbgFront_kernel {act : State → State} (h : ∀ t, (act t).outside.kernel = t.outside.kernel) (k : Hub) (op : DbgOp)
    (units : List Nat) (argOk allowed : Bool) (s : State) :
    (dbgFront k op units argOk allowed act s).outside.kernel = s.outside.kernel := by
  simp [dbgFront, h]

@[simp] theorem coreOp_kernel {act : CoreId → State → State × Nat × Word}
    (ha : ∀ c t, (act c t).1.outside.kernel = t.outside.kernel) (h : Hub) (n : Nat) (op : DbgOp) (argOk allowed needHalt : Bool)
    (s : State) : (coreOp h n op argOk allowed needHalt act s).outside.kernel = s.outside.kernel := by
  refine dbgFront_kernel (fun t => ?_) h op _ argOk allowed s
  dsimp only
  cases t.dbgStop (dbgCore h op) needHalt <;> split <;> simp [ha]

@[simp] theorem breakpointHit_kernel (core : CoreId) (addr : Word) (s : State) : (breakpointHit core addr s).outside.kernel = s.outside.kernel := by
  unfold breakpointHit; split <;> simp

@[simp] theorem setData_kernel (core : CoreId) (i : Nat) (v : Word) (s : State) : (setData core i v s).outside.kernel = s.outside.kernel := by
  unfold setData; split <;> simp

@[simp] theorem setReg_kernel (core : CoreId) (n : Word) (v : Word) (s : State) : (setReg core n v s).outside.kernel = s.outside.kernel := by
  unfold setReg; split <;> simp

@[simp] theorem readCore_kernel (core : CoreId) (addr : Nat) (s : State) : (readCore core addr s).1.outside.kernel = s.outside.kernel := by
  unfold readCore; repeat' split
  all_goals simp

@[simp] theorem coreMemError_kernel (core : CoreId) (addr : Nat) (corrected : Bool) (other : Bool) (s : State) : (coreMemError core addr corrected other s).outside.kernel = s.outside.kernel := by
  unfold coreMemError; split <;> simp

@[simp] theorem readThrough_kernel (x : ReadErr) (core : CoreId) (addr : Nat) (s : State) : (readThrough x core addr s).1.outside.kernel = s.outside.kernel := by
  unfold readThrough; split <;> simp

@[simp] theorem writeCore_kernel (core : CoreId) (i : Nat) (v : Word) (s : State) : (writeCore core i v s).outside.kernel = s.outside.kernel := by
  unfold writeCore; repeat' split
  all_goals simp

@[simp] theorem writeThrough_kernel (x : Option ReadErr) (core : CoreId) (addr : Nat) (i : Nat) (v : Word) (s : State) : (writeThrough x core addr i v s).1.outside.kernel = s.outside.kernel := by
  unfold writeThrough; split <;> simp

@[simp] theorem readProc_kernel (core : CoreId) (n : Word) (s : State) : (readProc core n s).1.outside.kernel = s.outside.kernel := by
  unfold readProc; split <;> simp

@[simp] theorem recorderRead_kernel (h : Hub) (addr : Nat) (x : ReadErr) (s : State) : (recorderRead h addr x s).outside.kernel = s.outside.kernel := by
  unfold recorderRead; split <;> simp

@[simp] theorem writeRegCtl_kernel (v : Nat) (within : Bool) (s : State) : (writeRegCtl v within s).outside.kernel = s.outside.kernel := by
  simp [writeRegCtl]

@[simp] theorem writeRegStat_kernel (v : Nat) (s : State) : (writeRegStat v s).outside.kernel = s.outside.kernel := by
  simp [writeRegStat]

@[simp] theorem writeGateCtl_kernel (v : Nat) (s : State) : (writeGateCtl v s).outside.kernel = s.outside.kernel := by
  unfold writeGateCtl; repeat' split
  all_goals simp

@[simp] theorem writeAmask_kernel (v : Nat) (s : State) : (writeAmask v s).outside.kernel = s.outside.kernel := by
  simp [writeAmask]

@[simp] theorem writeHard_kernel (on : Bool) (s : State) : (writeHard on s).outside.kernel = s.outside.kernel := by
  simp [writeHard]

@[simp] theorem writeRingCtl_kernel (v : Nat) (s : State) : (writeRingCtl v s).outside.kernel = s.outside.kernel := by
  simp [writeRingCtl]

@[simp] theorem writeFcCtrl_kernel (v : Nat) (s : State) : (writeFcCtrl v s).outside.kernel = s.outside.kernel := by
  simp [writeFcCtrl]

@[simp] theorem writeFcState_kernel (v : Nat) (s : State) : (writeFcState v s).outside.kernel = s.outside.kernel := by
  simp [writeFcState]

@[simp] theorem recoverSensors_kernel (r : Nat) (s : State) : (recoverSensors r s).outside.kernel = s.outside.kernel := by
  simp [recoverSensors]

@[simp] theorem presetCap_kernel (r : Nat) (s : State) : (presetCap r s).outside.kernel = s.outside.kernel := by
  simp [presetCap]

@[simp] theorem markFirst_kernel (before : Region) (r : Nat) (s : State) : (markFirst before r s).outside.kernel = s.outside.kernel := by
  simp [markFirst]

@[simp] theorem divideRegion_kernel (r : Nat) (guard : Bool) (s : State) : (divideRegion r guard s).outside.kernel = s.outside.kernel := by
  simp [divideRegion]

@[simp] theorem resendErrors_kernel (r : Nat) (s : State) : (resendErrors r s).outside.kernel = s.outside.kernel := by
  simp [resendErrors]

@[simp] theorem appliedRegion_kernel (old : Setup) (r : Nat) (s : State) :
    (appliedRegion old r s).outside.kernel = s.outside.kernel := by
  unfold appliedRegion
  extract_lets was changed top t1 t2 t3 t4 t5 t6 t7
  have h1 : t1.outside.kernel = s.outside.kernel := by simp [t1]
  have h2 : t2.outside.kernel = t1.outside.kernel := by simp [t2, h1]
  have h3 : t3.outside.kernel = t2.outside.kernel := by simp [t3]
  have h4 : t4.outside.kernel = t3.outside.kernel := by simp [t4]
  have h5 : t5.outside.kernel = t4.outside.kernel := by simp [t5]
  have h6 : t6.outside.kernel = t5.outside.kernel := by
    simp only [t6]
    split
    · exact State.modRegion_kernel rfl
    · rfl
  have h7 : t7.outside.kernel = t6.outside.kernel := by simp [t7]
  simp [h7, h6, h5, h4, h3, h2, h1]

@[simp] theorem regionEnds_kernel (r : Nat) (s : State) : (regionEnds r s).outside.kernel = s.outside.kernel := by
  simp [regionEnds]

@[simp] theorem regionLast_kernel (r : Nat) (commits : List Nat) (s : State) : (regionLast r commits s).outside.kernel = s.outside.kernel := by
  simp [regionLast]

@[simp] theorem subscribed_kernel (trips : List Nat) (s : State) : (subscribed trips s).outside.kernel = s.outside.kernel := by
  simp [subscribed]

@[simp] theorem treeEpochs_kernel (s : State) : (treeEpochs s).outside.kernel = s.outside.kernel := by
  simp [treeEpochs]

@[simp] theorem countPeriods_kernel (s : State) : (countPeriods s).outside.kernel = s.outside.kernel := by
  simp [countPeriods]

@[simp] theorem hubFirst_kernel (s : State) : (hubFirst s).outside.kernel = s.outside.kernel := by
  simp [hubFirst]

@[simp] theorem nextPeriod_kernel (s : State) : (nextPeriod s).outside.kernel = s.outside.kernel := by
  rfl

end Sys2Proof.Machine
end

