-- ==== Sys2Proof/Proofs/Steady.lean ====
section
/-!
SUPPORT. Steps that keep both invariants, and the functions that end, confirm or issue a pre-raise (R131 to R142).
-/

namespace Sys2Proof.Machine

/-! ### The two invariants, read off the kernel -/

/-- `SpecLegal`, of what the account counts (R141, R149). -/
def Account.Legal (a : Account) : Prop :=
  a.issued = a.confirmed + a.missed + a.abandoned + (if a.standing then 1 else 0) ∧ (a.demote = true → a.standing = false)

theorem specLegal_iff (p : Spec) : SpecLegal p ↔ p.account.Legal := by
  simp [SpecLegal, Balanced, Account.Legal, Spec.account, -Spec.account_eta]

/-- From `k` to `l` neither invariant is lost. -/
structure Steady (k l : Kernel) : Prop where
  clock : ClockLegal k.clk → ClockLegal l.clk
  spec  : (∀ r, (k.accounts r).Legal) → ∀ r, (l.accounts r).Legal

theorem Steady.refl (k : Kernel) : Steady k k := ⟨id, id⟩

theorem Steady.trans {k l m : Kernel} (h₁ : Steady k l) (h₂ : Steady l m) : Steady k m :=
  ⟨h₂.clock ∘ h₁.clock, h₂.spec ∘ h₁.spec⟩

/-- A step that keeps the kernel keeps both invariants. -/
theorem Steady.of_eq {k l : Kernel} (h : l = k) : Steady k l := h ▸ .refl k

variable {k : Kernel} {s : State}

theorem Steady.ite {t : State} {c : Prop} [Decidable c] (hs : c → Steady k s.outside.kernel) (ht : ¬c → Steady k t.outside.kernel) :
    Steady k (if c then s else t).outside.kernel := by
  split
  · exact hs ‹_›
  · exact ht ‹_›

theorem Steady.foldl {α : Type} {f : State → α → State} (h : ∀ a x, Steady k a.outside.kernel → Steady k (f a x).outside.kernel)
    (l : List α) (hs : Steady k s.outside.kernel) : Steady k (l.foldl f s).outside.kernel :=
  List.foldlRecOn (motive := fun t => Steady k t.outside.kernel) l f hs fun _ ht x _ => h _ x ht

theorem Steady.forRegions {f : Nat → State → State} (h : ∀ r a, Steady k a.outside.kernel → Steady k (f r a).outside.kernel)
    (hs : Steady k s.outside.kernel) : Steady k (s.forRegions f).outside.kernel :=
  Steady.foldl (fun a r => h r a) _ hs

/-- A change of one region keeps both invariants when it keeps the balance there. -/
theorem Steady.modRegion {f : Region → Region} {r : Nat} (hs : Steady k s.outside.kernel)
    (h : (s.region r).spec.account.Legal → (f (s.region r)).spec.account.Legal) :
    Steady k (s.modRegion r f).outside.kernel := by
  refine hs.trans ⟨id, fun hl j => ?_⟩
  change ((s.modRegion r f).region j).spec.account.Legal
  by_cases e : j = r
  · subst e; rw [State.modRegion_region_self]; exact h (hl j)
  · rw [State.modRegion_region_ne _ _ e]; exact hl j

/-- A change of the clocks alone keeps both when it keeps the loop legal. -/
theorem Steady.clk {t : State} (hs : Steady k s.outside.kernel) (hr : t.regions = s.regions)
    (h : ClockLegal s.clk → ClockLegal t.clk) : Steady k t.outside.kernel := by
  refine hs.trans ⟨h, fun hl r => ?_⟩
  change (accounts t.regions r).Legal
  rw [hr]; exact hl r

/-! ### The ends of a pre-raise -/

theorem abandoned'_legal {p : Spec} (h : p.account.Legal) : p.abandoned'.account.Legal := by
  unfold Spec.abandoned'
  split
  · next hs =>
    obtain ⟨hb, -⟩ := h
    simp only [Spec.account, hs, decide_true, if_true] at hb
    simp [Account.Legal, Spec.clear, hb]
    ac_rfl
  · exact h

theorem missed'_legal {p : Spec} (h : p.account.Legal) : p.missed'.account.Legal := by
  unfold Spec.missed'
  split
  · next hs =>
    obtain ⟨hb, -⟩ := h
    simp only [Spec.account, hs, decide_true, if_true] at hb
    simp [Account.Legal, Spec.clear, hb]
    ac_rfl
  · exact h

theorem confirmed'_legal {p : Spec} (h : p.account.Legal) : p.confirmed'.account.Legal := by
  unfold Spec.confirmed'
  split
  · next hs =>
    obtain ⟨hb, -⟩ := h
    simp only [Spec.account, hs, decide_true, if_true] at hb
    simp [Account.Legal, Spec.clear, hb]
    ac_rfl
  · exact h

theorem meetCommit_legal {p : Spec} (old v : Nat) (h : p.account.Legal) : (p.meetCommit old v).account.Legal := by
  unfold Spec.meetCommit
  split
  · split
    · exact abandoned'_legal h
    · exact h
  · exact h

theorem default_legal : ({} : Spec).account.Legal := by simp [Account.Legal, Spec.account]

theorem abandonNow_steady (hs : Steady k s.outside.kernel) (r : Nat) : Steady k (s.abandonNow r).outside.kernel := by
  unfold State.abandonNow
  refine .ite (fun _ => ?_) fun _ => hs
  rw [State.startFrame_kernel]
  exact hs.modRegion abandoned'_legal

/-- A pre-raise is issued only where none stands and no demotion is due (R131). -/
theorem preRaiseDecision_steady (hs : Steady k s.outside.kernel) (r f : Nat) :
    Steady k (preRaiseDecision r f s).outside.kernel := by
  unfold preRaiseDecision
  refine .ite (fun _ => hs) fun h => ?_
  obtain ⟨hi, hb, -⟩ := not_or.1 h |>.imp_right not_or.1
  rw [State.startFrame_kernel]
  refine hs.modRegion fun hl => ?_
  have hd : (s.region r).spec.demote = false := by simp [State.specBlocked] at hb; exact hb.2
  obtain ⟨hbal, -⟩ := hl
  simp only [ne_eq, not_not] at hi
  simp only [Spec.account, hi] at hbal
  simpa [Account.Legal, hd] using hbal

theorem confirmPreRaise_steady (hs : Steady k s.outside.kernel) (r : Nat) :
    Steady k (confirmPreRaise r s).outside.kernel :=
  hs.modRegion confirmed'_legal

theorem withdrawPreRaise_steady (hs : Steady k s.outside.kernel) (r : Nat) :
    Steady k (withdrawPreRaise r s).outside.kernel := by
  unfold withdrawPreRaise
  refine .ite (fun _ => ?_) fun _ => hs
  rw [State.startFrame_kernel]
  refine hs.modRegion fun hl => ?_
  simp only [Region.modSp_account, Region.modSpec_account]
  split
  · exact abandoned'_legal hl
  · exact missed'_legal hl

theorem commitSetpoint_steady (hs : Steady k s.outside.kernel) (r : Nat) :
    Steady k (commitSetpoint r s).outside.kernel := by
  unfold commitSetpoint
  refine .ite (fun _ => hs) fun _ => .ite (fun _ => hs.modRegion id) fun _ => ?_
  rw [State.startFrame_kernel]
  exact hs.modRegion (meetCommit_legal _ _)

/-- A demotion comes where no pre-raise stands (R141). -/
theorem demotionAtBoundary_steady (hs : Steady k s.outside.kernel) (r : Nat) :
    Steady k (demotionAtBoundary r s).outside.kernel := by
  unfold demotionAtBoundary
  refine .ite (fun hd => ?_) fun _ => ?_
  · rw [State.record_outside]
    refine hs.modRegion fun ⟨hb, hn⟩ => ?_
    have hi := hn hd
    simp only [Spec.account, decide_eq_false_iff_not] at hi hb
    simpa [Account.Legal, hi] using hb
  · exact .ite (fun _ => hs.modRegion id) fun _ => .ite (fun _ => hs) fun _ => hs.modRegion id

/-! ### What calls them in one region -/

theorem sumSample_steady (hs : Steady k s.outside.kernel) (r : Nat) (amps : Int) (status : Status) :
    Steady k (sumSample r amps status s).outside.kernel := by
  unfold sumSample
  extract_lets g raw mv win x t u
  have hu : Steady k u.outside.kernel := by
    rw [State.holdDigitiser_kernel]
    exact hs.modRegion id
  exact .ite (fun _ => hu) fun _ => abandonNow_steady hu r

theorem sumAvailable_steady (hs : Steady k s.outside.kernel) (r : Nat) : Steady k (sumAvailable r s).outside.kernel := by
  unfold sumAvailable
  extract_lets g
  split
  · exact hs
  · next x rest _ =>
    extract_lets t
    have ht : Steady k t.outside.kernel := hs.modRegion (by simp)
    exact .ite (fun _ => .ite (fun _ => confirmPreRaise_steady ht r) fun _ => ht.modRegion id) fun _ => ht

theorem publish_steady (hs : Steady k s.outside.kernel) (r : Nat) : Steady k (publish r s).outside.kernel := by
  unfold publish
  extract_lets g
  split
  · exact hs
  · rw [rampShaping_kernel, raiseShaped_kernel]
    exact preRaiseDecision_steady (hs.modRegion id) _ _

theorem ecapBroadcast_steady (hs : Steady k s.outside.kernel) (r preset : Nat) :
    Steady k (ecapBroadcast r preset s).outside.kernel := by
  unfold ecapBroadcast
  extract_lets t u
  have hu : Steady k u.outside.kernel := abandonNow_steady (hs.modRegion id) r
  refine .ite (fun _ => ?_) fun _ => hu
  rwa [suspendTimers_kernel]

theorem tripLatch_steady (hs : Steady k s.outside.kernel) (r : Nat) : Steady k (tripLatch r s).outside.kernel := by
  unfold tripLatch
  extract_lets g
  refine .ite (fun _ => hs) fun _ => ?_
  rw [revokeRegion_kernel, abandonRounds_kernel, State.holdRoll_kernel]
  exact abandonNow_steady (hs.modRegion (by simp)) r

theorem tripAssert_steady (hs : Steady k s.outside.kernel) (r i : Nat) : Steady k (tripAssert r i s).outside.kernel := by
  unfold tripAssert
  rw [thermPins_kernel]
  exact tripLatch_steady (hs.modRegion id) r

theorem derateAtBoundary_steady (hs : Steady k s.outside.kernel) (r : Nat) :
    Steady k (derateAtBoundary r s).outside.kernel := by
  unfold derateAtBoundary
  extract_lets due m t u
  refine .ite (fun _ => hs) fun _ => ?_
  have hu : Steady k u.outside.kernel := by
    rw [abandonRounds_kernel]
    refine abandonNow_steady ?_ r
    rw [State.raiseRoll_kernel]
    exact hs.modRegion id
  refine .ite (fun _ => ?_) fun _ => hu
  rwa [suspendTimers_kernel]

theorem alertOn_steady (hs : Steady k s.outside.kernel) (r : Nat) : Steady k (alertOn r s).outside.kernel := by
  unfold alertOn
  refine .ite (fun _ => hs) fun _ => ?_
  rw [assertHold_kernel]
  exact abandonNow_steady (hs.modRegion id) r

end Sys2Proof.Machine
end

