-- ==== Sys2Proof/Proofs/ClockMoves.lean ====
section
/-!
SUPPORT. The moves of the clock loop (R446 to R450), each from a legal state to a legal one.
-/

namespace Sys2Proof.Machine

/-! ### The clock loop's own steps -/

variable {c : Clocks}

theorem clockLegal_default : ClockLegal {} := by constructor <;> simp

/-- With no switch acquired or marked the row of R444 alone has to be right. -/
theorem ClockLegal.of_no_switch (ha : c.acquire = none) (hm : c.marked = none)
    (hq : c.st = .stopped ∨ c.st = .locked → c.refLost = false)
    (hl : c.st = .glideDown ∨ c.st = .coast ∨ c.st = .fallback ∨ c.st = .glideUp → c.refLost = true)
    (hf : c.st = .fallback → c.fbRun = true) : ClockLegal c where
  stopped h := ⟨ha, hm, hq (.inl h)⟩
  locked h := ⟨ha, hm, hq (.inr h)⟩
  lost := hl
  fallback := hf
  glide _ := ⟨ha, hm⟩
  toFb h := by simp [ha, hm] at h
  one := .inl ha

/-- A switch in hand may be dropped (R400, R446, R456). -/
theorem ClockLegal.drop (h : ClockLegal c) (b : Bool) : ClockLegal { c with acquire := none, marked := none, fbBarred := b } :=
  .of_no_switch rfl rfl (fun e => e.elim (fun e => (h.stopped e).2.2) fun e => (h.locked e).2.2) h.lost h.fallback

theorem ClockLegal.voidMark (h : ClockLegal c) : ClockLegal (voidMark c) := by
  unfold Machine.voidMark
  dsimp only
  split
  · next hr => exact .of_no_switch rfl rfl (by simp) (fun _ => hr) (by simp)
  · exact h.drop _

theorem clockLegal_glideDown (c : Clocks) :
    ClockLegal { c with st := .glideDown, refLost := true, fbBarred := false, acquire := none, marked := none } :=
  .of_no_switch rfl rfl (by simp) (fun _ => rfl) (by simp)

/-- The clocks start on the reference or on the fallback oscillator (R458, R459). -/
theorem ClockLegal.starts (h : ClockLegal c) (hs : c.st = .stopped) (b : Bool) :
    ClockLegal { c with st := if b then .fallback else .locked, refLost := b, fbRun := b, fbEntered := b } := by
  obtain ⟨ha, hm, -⟩ := h.stopped hs
  cases b <;> exact .of_no_switch ha hm (by simp) (by simp) (by simp)

/-- The oscillator of stopped clocks may be turned on and off. -/
theorem ClockLegal.fbRun_of_stopped (h : ClockLegal c) (hs : c.st = .stopped) (b : Bool) : ClockLegal { c with fbRun := b } := by
  obtain ⟨ha, hm, hr⟩ := h.stopped hs
  exact .of_no_switch ha hm (fun _ => hr) (by simp [hs]) (by simp [hs])

/-- A clock's fields other than its row, its reference, its oscillator and its switch do not matter. -/
theorem ClockLegal.congr {d : Clocks} (h : ClockLegal c) (hs : d.st = c.st) (hr : d.refLost = c.refLost)
    (hf : c.fbRun = true → d.fbRun = true) (ha : d.acquire = c.acquire) (hm : d.marked = c.marked) : ClockLegal d where
  stopped e := by rw [ha, hm, hr]; exact h.stopped (hs ▸ e)
  locked e := by rw [ha, hm, hr]; exact h.locked (hs ▸ e)
  lost e := by rw [hr]; exact h.lost (by rwa [hs] at e)
  fallback e := hf (h.fallback (hs ▸ e))
  glide e := by rw [ha, hm]; exact h.glide (by rwa [hs] at e)
  toFb e := by rw [hs]; rw [ha, hm] at e; exact (h.toFb e).imp_right hf
  one := by rw [ha, hm]; exact h.one

def dropFallback (x : Option SwitchTo) : Option SwitchTo := if x = some .fallback then none else x

/-- The oscillator fails (R447): the clocks coast, and a switch to it is off. -/
theorem ClockLegal.fails (h : ClockLegal c) (n : Nat) :
    ClockLegal { c with fbRun := false, fbEntered := false, fbBarred := true, fbFails := n
                        st := if c.st = .fallback then .coast else c.st
                        acquire := dropFallback c.acquire, marked := dropFallback c.marked } := by
  have hd (x : Option SwitchTo) : dropFallback x ≠ some .fallback := by unfold dropFallback; split <;> simp_all
  have hn {x : Option SwitchTo} (e : x = none) : dropFallback x = none := by simp [dropFallback, e]
  obtain ⟨hs, hl, hlost, hfb, hg, htf, ho⟩ := h
  by_cases e : c.st = .fallback
  · simp only [e, if_true]
    exact ⟨by simp, by simp, fun _ => hlost (.inr (.inr (.inl e))), by simp, by simp, fun x => absurd x (by simp [hd]),
      ho.imp hn hn⟩
  · simp only [e, if_false]
    exact ⟨fun x => ⟨hn (hs x).1, hn (hs x).2.1, (hs x).2.2⟩, fun x => ⟨hn (hl x).1, hn (hl x).2.1, (hl x).2.2⟩, hlost,
      fun x => absurd x e, fun x => ⟨hn (hg x).1, hn (hg x).2⟩, fun x => absurd x (by simp [hd]), ho.imp hn hn⟩

/-- A switch in hand that is marked, and a marked one that is in hand no longer, is one to a row it may lead to. -/
theorem ClockLegal.marks (h : ClockLegal c) : ClockLegal { c with marked := c.acquire, acquire := none } := by
  obtain ⟨hs, hl, hlost, hfb, hg, htf, ho⟩ := h
  exact ⟨fun x => ⟨rfl, (hs x).1, (hs x).2.2⟩, fun x => ⟨rfl, (hl x).1, (hl x).2.2⟩, hlost, hfb, fun x => ⟨rfl, (hg x).1⟩,
    fun x => htf (.inl (x.resolve_left (by simp))), .inl rfl⟩

/-- A marked switch is not one of a stopped, a locked or a gliding loop: the reference is lost. -/
theorem ClockLegal.refLost_of_marked (h : ClockLegal c) {x : SwitchTo} (hm : c.marked = some x) : c.refLost = true := by
  cases e : c.st
  case stopped => have := (h.stopped e).2.1; simp [hm] at this
  case locked => have := (h.locked e).2.1; simp [hm] at this
  all_goals exact h.lost (by simp [e])

theorem ClockLegal.toFallback (h : ClockLegal c) (hm : c.marked = some .fallback) (n : Nat) :
    ClockLegal { c with st := .fallback, marked := none, switches := n } :=
  .of_no_switch (h.one.resolve_right (by simp [hm])) rfl (by simp) (fun _ => h.refLost_of_marked hm) fun _ => (h.toFb (.inr hm)).2

theorem ClockLegal.toReference (h : ClockLegal c) (hm : c.marked = some .reference) (n : Nat) :
    ClockLegal { c with st := .glideUp, marked := none, fbRun := false, fbEntered := false, switches := n } :=
  .of_no_switch (h.one.resolve_right (by simp [hm])) rfl (by simp) (fun _ => h.refLost_of_marked hm) (by simp)

/-- The idle cores lock to the reference (R450). -/
theorem ClockLegal.returns (h : ClockLegal c) (hs : c.st = .coast ∨ c.st = .fallback) (hm : c.marked = none) :
    ClockLegal { c with acquire := some .reference } where
  stopped e := by rcases hs with x | x <;> simp [x] at e
  locked e := by rcases hs with x | x <;> simp [x] at e
  lost := h.lost
  fallback := h.fallback
  glide e := by rcases hs with x | x <;> simp [x] at e
  toFb e := by simp [hm] at e
  one := .inr hm

/-- The idle cores lock to the oscillator while the clocks coast (R447). -/
theorem ClockLegal.acquires (h : ClockLegal c) (hs : c.st = .coast) (hf : c.fbRun = true) (hm : c.marked = none) :
    ClockLegal { c with fbEntered := true, acquire := some .fallback } where
  stopped e := by simp [hs] at e
  locked e := by simp [hs] at e
  lost := h.lost
  fallback := h.fallback
  glide e := by simp [hs] at e
  toFb _ := ⟨hs, hf⟩
  one := .inr hm

theorem ClockLegal.coasts (h : ClockLegal c) (hs : c.st = .glideDown) : ClockLegal { c with st := .coast } := by
  obtain ⟨ha, hm⟩ := h.glide (.inl hs)
  exact .of_no_switch ha hm (by simp) (fun _ => h.lost (.inl hs)) (by simp)

theorem ClockLegal.locks (h : ClockLegal c) (hs : c.st = .glideUp) : ClockLegal { c with st := .locked, refLost := false } := by
  obtain ⟨ha, hm⟩ := h.glide (.inr hs)
  exact .of_no_switch ha hm (fun _ => rfl) (by simp) (by simp)

end Sys2Proof.Machine
end

