-- ==== Sys2Proof/Proofs/Invariants.lean ====
section
/-!
SUPPORT. No command loses an invariant: the clock loop stays legal, the speculation counters stay in balance (R149, R444).
-/

namespace Sys2Proof.Machine

variable {k : Kernel} {s : State}

/-! ### The safe state -/

theorem dropResvs_account (l : List Resv) (g : Region) :
    (l.foldl (fun a v => dropResv v.grant a) g).spec.account = g.spec.account :=
  List.foldlRecOn (motive := fun h : Region => h.spec.account = g.spec.account) l _ rfl fun _ h _ _ => by simp [h]

theorem safeRegion_steady (hs : Steady k s.outside.kernel) (r : Nat) : Steady k (safeRegion r s).outside.kernel := by
  unfold safeRegion
  refine commitSetpoint_steady (abandonNow_steady (Steady.modRegion (by simpa using hs) fun h => ?_) r) r
  simpa [dropResvs_account] using h

theorem enterSafe_steady (hs : Steady k s.outside.kernel) (off mode : Nat) : Steady k (enterSafe off mode s).outside.kernel := by
  unfold enterSafe
  rw [faultPins_kernel]
  exact Steady.foldl (fun a r ha => safeRegion_steady ha r) _ (by simpa using hs)

theorem parityScan_steady (hs : Steady k s.outside.kernel) (h : Hub) (off : Nat) :
    Steady k (parityScan h off s).outside.kernel := by
  unfold parityScan
  exact .ite (fun _ => hs) fun _ => .ite (fun _ => by simpa using hs) fun _ => enterSafe_steady hs off _

/-! ### The pair -/

theorem promote_steady (hs : Steady k s.outside.kernel) (h : Hub) : Steady k (promote h s).outside.kernel := by
  unfold promote
  simp only [ecapEdge_kernel, claimFor_outside, takeMirrored_kernel, recoveryMode_kernel, dropRaises_outside, restoreThs_kernel,
    State.modPair_outside, loseTelemetry_kernel]
  exact hs.clk rfl ClockLegal.voidMark

theorem promotion_steady (hs : Steady k s.outside.kernel) (h : Hub) : Steady k (promotion h s).outside.kernel := by
  unfold promotion
  exact .ite (fun _ => hs) fun _ => .ite (fun _ => promote_steady hs h) fun _ => .ite (fun _ => hs) fun _ => by simpa using hs

theorem releaseHeld_clocks (s : State) : s.releaseHeld.clk = s.clk ∧ s.releaseHeld.regions = s.regions :=
  ⟨congrArg Outside.clk s.releaseHeld_outside, congrArg Outside.regions s.releaseHeld_outside⟩

theorem claimHandover_steady (hs : Steady k s.outside.kernel) : Steady k (claimHandover s).outside.kernel := by
  unfold claimHandover
  split
  · simp only [claimFor_outside, takeMirrored_kernel, State.modHubOf_outside, recoveryMode_kernel]
    have hr := releaseHeld_clocks s
    refine hs.clk hr.2 fun h => ?_
    simpa only [State.modPair_clk, hr.1] using h.drop s.clk.fbBarred
  · simpa using hs

theorem handoverAtBoundary_steady (hs : Steady k s.outside.kernel) : Steady k (handoverAtBoundary s).outside.kernel := by
  unfold handoverAtBoundary
  exact .ite (fun _ => by simpa using hs) fun _ => .ite (fun _ => claimHandover_steady hs) fun _ => hs

/-! ### The clocks -/

theorem modClk_steady {f : Clocks → Clocks} (hs : Steady k s.outside.kernel) (h : ClockLegal s.clk → ClockLegal (f s.clk)) :
    Steady k (s.modClk f).outside.kernel := hs.clk rfl h

theorem loseReference_steady (hs : Steady k s.outside.kernel) : Steady k (loseReference s).outside.kernel := by
  unfold loseReference
  refine .ite (fun _ => ?_) fun _ => .ite (fun _ => hs.clk rfl fun h => h.drop false) fun _ => hs
  simp only [State.raise_outside, State.modRegions_kernel, Region.stick_account, implies_true]
  exact hs.clk rfl fun _ => clockLegal_glideDown _

theorem failFallback_steady (hs : Steady k s.outside.kernel) : Steady k (failFallback s).outside.kernel := by
  unfold failFallback
  refine .ite (fun _ => hs) fun _ => ?_
  rw [State.raise_outside]
  exact hs.clk rfl fun h => h.fails _

theorem endStart_steady (hs : Steady k s.outside.kernel) (h : Hub) (entered : Bool) :
    Steady k (endStart h entered s).outside.kernel := by
  unfold endStart
  extract_lets t o u
  rw [faultPins_kernel, setEngRun_outside]
  have ht : Steady k t.outside.kernel := by simpa [t] using hs
  exact .ite (fun e => modClk_steady ht fun hc => hc.fbRun_of_stopped (by simpa [t] using e.1) _) fun _ => ht

theorem startClocks_steady (hs : Steady k s.outside.kernel) (h : Hub) (fallback : Bool) :
    Steady k (startClocks h fallback s).outside.kernel := by
  unfold startClocks
  extract_lets c t step u v w x
  have ht : Steady k t.outside.kernel := .ite (fun e => hs.clk rfl fun hc => hc.starts e fallback) fun _ => hs
  have hx : Steady k x.outside.kernel := by simpa [x, w, v, u] using ht
  exact .ite (fun _ => by simpa using hx) fun _ => hx

/-! ### Supplies and resets -/

/-- A state with fresh accounts and legal clocks. -/
theorem Steady.fresh {t : State} (hs : Steady k s.outside.kernel) (hc : ClockLegal s.clk → ClockLegal t.clk)
    (ha : ∀ r, (t.region r).spec = {}) : Steady k t.outside.kernel :=
  hs.trans ⟨hc, fun _ r => by
    change (t.region r).spec.account.Legal
    rw [ha r]; exact default_legal⟩

theorem loseCore_steady (hs : Steady k s.outside.kernel) : Steady k (loseCore s).outside.kernel :=
  hs.fresh (fun _ => clockLegal_default) fun r => by simp [loseCore, State.region, Region.onlyAna]

theorem coldStart_steady (hs : Steady k s.outside.kernel) : Steady k (coldStart s).outside.kernel := by
  unfold coldStart
  refine .ite (fun _ => ?_) fun _ => hs
  simpa using loseCore_steady hs

theorem warmEntry_steady (hs : Steady k s.outside.kernel) (bit : Nat) : Steady k (warmEntry bit s).outside.kernel := by
  unfold warmEntry
  refine .ite (fun _ => hs) fun _ => ?_
  rw [dropReads_kernel, pinsFollow_kernel]
  exact hs.fresh (fun h => h.drop false) fun r => by simp [State.region, Region.modClusters, Region.warm]

theorem warmReset_steady (hs : Steady k s.outside.kernel) (bit : Nat) : Steady k (warmReset bit s).outside.kernel := by
  unfold warmReset
  refine .ite (fun _ => warmEntry_steady hs bit) fun _ => ?_
  rw [warmRelease_kernel]
  exact warmEntry_steady hs bit

theorem railDown_steady (hs : Steady k s.outside.kernel) (rail : Rail) : Steady k (railDown rail s).outside.kernel := by
  unfold railDown
  refine .ite (fun _ => hs) fun _ => ?_
  rw [pinsFollow_kernel]
  have ht : Steady k (s.modPow (Power.setRail rail false)).outside.kernel := by simpa using hs
  cases rail
  case core => simpa using loseCore_steady ht
  all_goals simpa using hs

theorem railUp_steady (hs : Steady k s.outside.kernel) (rail : Rail) : Steady k (railUp rail s).outside.kernel := by
  unfold railUp
  refine .ite (fun _ => hs) fun _ => ?_
  extract_lets t u v
  have hv : Steady k v.outside.kernel := by
    simp only [v, u, pinsFollow_kernel]
    cases rail <;> simpa [t] using hs
  refine .ite (fun _ => ?_) fun _ => hv
  rw [State.modPow_kernel]
  exact warmReset_steady hv 3

/-! ### The arrays, register writes -/

theorem arrayOn_steady (hs : Steady k s.outside.kernel) (r : Nat) : Steady k (arrayOn r s).outside.kernel := by
  unfold arrayOn
  have h := commitSetpoint_steady (s := s.modGov r (fun g => { g with arrayOn := true })) (by simpa using hs) r
  exact .ite (fun _ => by simpa using h) fun _ => h

theorem pmbusOp_steady (hs : Steady k s.outside.kernel) (r : Nat) (op : PmbusOp) (failed : Bool) :
    Steady k (pmbusOp r op failed s).outside.kernel := by
  unfold pmbusOp
  extract_lets t
  have ht : Steady k t.outside.kernel := by simpa [t] using hs
  refine .ite (fun _ => by simpa using ht) fun _ => ?_
  split
  · simpa using ht
  · exact arrayOn_steady ht r
  all_goals exact ht

theorem writeControl_steady (hs : Steady k s.outside.kernel) (off v : Nat) (within : Bool) :
    Steady k (writeControl off v within s).outside.kernel := by
  by_cases h : off = 0x1010
  · subst h
    exact .ite (fun _ => warmReset_steady hs 1) fun _ => hs
  · refine hs.trans (.of_eq ?_)
    unfold writeControl
    split
    case h_5 => exact absurd rfl h
    all_goals simp

theorem writeWord_steady (hs : Steady k s.outside.kernel) (off v : Nat) (within : Bool) :
    Steady k (writeWord off v within s).outside.kernel := by
  unfold writeWord
  split
  · simpa using hs
  · exact writeControl_steady hs off v within

theorem writeOffset_steady (hs : Steady k s.outside.kernel) (off v : Nat) (within : Bool) :
    Steady k (writeOffset off v within s).outside.kernel := by
  unfold writeOffset
  exact .ite (fun _ => .foldl (fun a r ha => writeWord_steady ha _ v within) _ hs) fun _ => writeWord_steady hs off v within

theorem access_steady (hs : Steady k s.outside.kernel) (acc : Access) (within : Bool) :
    Steady k (access acc within s).outside.kernel := by
  unfold access
  dsimp only
  cases acc with
  | write off size v =>
    exact .ite (fun _ => hs) fun _ => .ite (fun _ => by simpa using hs) fun _ => writeOffset_steady hs off _ within
  | read off size =>
    refine .ite (fun _ => by simpa using hs) fun _ => .ite (fun _ => by simpa using hs) fun _ => ?_
    split
    · simpa using hs
    · exact hs

/-! ### The boundary -/

theorem setpointAtBoundary_steady (hs : Steady k s.outside.kernel) (r : Nat) :
    Steady k (setpointAtBoundary r s).outside.kernel := by
  unfold setpointAtBoundary
  extract_lets trips t u
  have hu : Steady k u.outside.kernel := by
    have ht : Steady k t.outside.kernel := hs.modRegion id
    exact .ite (fun _ => by simpa using ht) fun _ => ht
  exact .ite (fun _ => commitSetpoint_steady hu r) fun _ => hu

theorem capsAtBoundary_steady (hs : Steady k s.outside.kernel) (r : Nat) : Steady k (capsAtBoundary r s).outside.kernel := by
  unfold capsAtBoundary
  extract_lets before t
  have ht : Steady k t.outside.kernel := by
    simp only [t, markFirst_kernel]
    exact derateAtBoundary_steady (by simpa using hs) r
  exact .ite (fun _ => ht.modRegion id) fun _ => ht

theorem presetsLowered_steady (hs : Steady k s.outside.kernel) (old : Setup) :
    Steady k (presetsLowered old s).outside.kernel := by
  unfold presetsLowered
  refine .ite (fun _ => hs) fun _ => ?_
  rw [State.modThyme_outside]
  exact Steady.foldl (fun a r ha => ecapBroadcast_steady ha r _) _ hs

theorem shadowsAtBoundary_steady (hs : Steady k s.outside.kernel) (ages : AgeReads) :
    Steady k (shadowsAtBoundary ages s).outside.kernel := by
  unfold shadowsAtBoundary
  rw [captureWide_kernel]
  refine .ite (fun _ => by simpa using hs) fun _ => ?_
  rw [trimMaxRaised_kernel]
  exact presetsLowered_steady (by simpa using hs) _

theorem regionFirst_steady (hs : Steady k s.outside.kernel) (r : Nat) : Steady k (regionFirst r s).outside.kernel := by
  unfold regionFirst
  refine setpointAtBoundary_steady (capsAtBoundary_steady (Steady.modRegion ?_ (by simp)) r) r
  exact demotionAtBoundary_steady (by simpa using hs) r

theorem regionAtBoundary_steady (hs : Steady k s.outside.kernel) (guards : List Bool) (r : Nat) :
    Steady k (regionAtBoundary guards r s).outside.kernel := by
  unfold regionAtBoundary
  rw [regionLast_kernel]
  have h := regionFirst_steady hs r
  exact .ite (fun _ => by simpa using h) fun _ => h

theorem hubLast'_steady (hs : Steady k s.outside.kernel) (inp : BoundaryInput) : Steady k (hubLast' inp s).outside.kernel := by
  unfold hubLast'
  exact handoverAtBoundary_steady (by simpa using hs)

theorem boundaryBody_steady (hs : Steady k s.outside.kernel) (inp : BoundaryInput) :
    Steady k (boundaryBody inp s).outside.kernel := by
  unfold boundaryBody
  refine hubLast'_steady (Steady.forRegions (fun r a ha => regionAtBoundary_steady ha _ r) ?_) inp
  have h := shadowsAtBoundary_steady (s := hubFirst ((nextPeriod s).forRegions regionEnds)) (by simpa using hs) inp.ages
  simpa using h

theorem controlPeriod_steady (hs : Steady k s.outside.kernel) (inp : BoundaryInput) :
    Steady k (controlPeriod inp s).outside.kernel := by
  unfold controlPeriod
  refine .ite (fun _ => hs) fun _ => .ite (fun _ => by simpa using hs) fun _ => ?_
  simpa using boundaryBody_steady hs inp

/-! ### A step -/

theorem journaled_steady {f : State → State} (h : Steady k (f s).outside.kernel) : Steady k (journaled f s).outside.kernel := by
  rwa [journaled_outside]

theorem govAccept_steady {act again : State → State} (ha : ∀ t, Steady k t.outside.kernel → Steady k (act t).outside.kernel)
    (hg : ∀ t, Steady k t.outside.kernel → Steady k (again t).outside.kernel) (hs : Steady k s.outside.kernel) (r kind : Nat)
    (hdr : MsgHdr) : Steady k (govAccept r kind hdr act again s).outside.kernel := by
  unfold govAccept
  exact .ite (fun _ => by simpa using hs) fun _ => .ite (fun _ => by simpa using hs) fun _ => .ite (fun _ => hg s hs) fun _ =>
    ha _ (by simpa using hs)

theorem dbgFront_steady {act : State → State} (ha : ∀ t, Steady k t.outside.kernel → Steady k (act t).outside.kernel)
    (hs : Steady k s.outside.kernel) (h : Hub) (op : DbgOp) (units : List Nat) (argOk allowed : Bool) :
    Steady k (dbgFront h op units argOk allowed act s).outside.kernel := by
  unfold dbgFront
  refine .ite (fun _ => hs) fun _ => .ite (fun _ => by simpa using hs) fun _ => .ite (fun _ => by simpa using hs) fun _ =>
    .ite (fun _ => by simpa using hs) fun _ => .ite (fun _ => by simpa using hs) fun _ =>
    .ite (fun _ => by simpa using hs) fun _ => ha _ (by simpa using hs)

theorem demotionEnds_legal {p : Spec} (hd : p.state = .demoted) (h : p.account.Legal) :
    ({ p with state := .idle } : Spec).account.Legal := by
  obtain ⟨hb, -⟩ := h
  simp only [Spec.account, hd] at hb
  simpa [Account.Legal] using hb

theorem exec_steady {c : Instr} {s t : State} (e : exec c s = .next t) : Steady s.outside.kernel t.outside.kernel := by
  have hs := Steady.refl s.outside.kernel
  cases c <;> injection e with e <;> subst e
  case preRaiseWithdrawal r => exact withdrawPreRaise_steady hs r
  case demotionEnd r =>
    refine hs.modRegion fun h => ?_
    rw [Region.modSpec_account]
    split
    · next hd => exact demotionEnds_legal hd.1 h
    · exact h
  case sumSample r amps st => exact sumSample_steady hs r amps st
  case sumSampleAvailable r => exact sumAvailable_steady hs r
  case forecastPublication r => exact publish_steady hs r
  case emergencyCapBroadcast r hdr p =>
    exact journaled_steady (.ite (fun _ => ecapBroadcast_steady hs r p) fun _ => by simpa using hs)
  case tripComparatorAssert r i => exact journaled_steady (tripAssert_steady hs r i)
  case regAlertAssert r => exact alertOn_steady hs r
  case collectorParityScan h bad =>
    cases bad with
    | none => exact hs
    | some off => exact journaled_steady (parityScan_steady hs h off)
  case promotion h => exact promotion_steady hs h
  case refLost => exact loseReference_steady hs
  case glideDownEnd =>
    refine modClk_steady hs fun h => ?_
    split
    · exact h.coasts ‹_›
    · exact h
  case fallbackStart =>
    refine modClk_steady hs fun h => ?_
    split
    · exact h.congr rfl rfl (fun _ => rfl) rfl rfl
    · exact h
  case fallbackStable =>
    refine modClk_steady hs fun h => ?_
    split
    · next x => exact h.acquires x.1 x.2.1 x.2.2.2.1
    · exact h
  case fallbackFailure => exact failFallback_steady hs
  case clockMonitorTrip h entered =>
    exact .ite (fun _ => endStart_steady hs h entered) fun _ => .ite (fun _ => failFallback_steady hs) fun _ => hs
  case idleCoreLocked =>
    refine modClk_steady hs fun h => ?_
    split
    · exact h.marks
    · exact h
  case domainSwitch =>
    refine modClk_steady hs fun h => ?_
    split
    · exact h
    · exact h.toFallback ‹_› _
    · exact h.toReference ‹_› _
  case refReturned =>
    refine modClk_steady hs fun h => ?_
    split
    · next x => exact h.returns x.2.1 x.2.2
    · exact h
  case glideUpEnd =>
    refine modClk_steady hs fun h => ?_
    split
    · exact h.locks ‹_›
    · exact h
  case coldStart => exact coldStart_steady hs
  case hubLoopLock h => exact .ite (fun _ => startClocks_steady hs h false) fun _ => hs
  case hubLoopLockTimeout h =>
    refine .ite (fun _ => modClk_steady (by simpa using hs) fun hc => ?_) fun _ => hs
    split
    · exact hc.fbRun_of_stopped ‹_› _
    · exact hc
  case fbDlyElapsed h => exact .ite (fun _ => startClocks_steady hs h true) fun _ => hs
  case rstNAssert =>
    refine .ite (fun _ => hs) fun _ => .ite (fun _ => by simpa using hs) fun _ => ?_
    simpa using warmEntry_steady hs 0
  case rstCtlKey => exact .ite (fun _ => warmReset_steady hs 1) fun _ => hs
  case railDown rail => exact railDown_steady hs rail
  case railUp rail => exact railUp_steady hs rail
  case warmReset h op => exact dbgFront_steady (fun a ha => warmReset_steady (by simpa using ha) 4) hs h op _ _ _
  case registerWrite acc within => exact journaled_steady (access_steady hs acc within)
  case pmbusCommand r hdr op failed =>
    exact journaled_steady (govAccept_steady (fun a ha => pmbusOp_steady ha r op failed) (fun a ha => ha) hs _ _ hdr)
  case controlPeriodBoundary inp => exact journaled_steady (controlPeriod_steady hs inp)
  case slotTake core => cases core <;> exact .of_eq (by simp)
  case halt h op =>
    refine journaled_steady (.of_eq (coreOp_kernel (fun core t => ?_) h 1 op _ _ _ s))
    split <;> simp
  case armAcknowledgement | mRChange | laggardSummary => split <;> exact .of_eq (by simp)
  all_goals exact .of_eq (by simp)

/-- Every step keeps the clock loop legal and the counters in balance. -/
theorem step_steady {s t : State} (e : step s = .next t) : Steady s.outside.kernel t.outside.kernel := by
  unfold step at e
  split at e
  · injection e with e; exact e ▸ .refl _
  · next c rest _ => exact exec_steady (s := { s with pending := rest }) e

/-- Settles O56: a step changes the clocks only by the moves of R446 to R450, a start, a reset or a change of owner. -/
theorem clockLoopStaysLegal : Obligations.ClockLoopStaysLegal := by
  unfold Obligations.ClockLoopStaysLegal
  intro s t hs e
  exact (step_steady e).clock hs

/-- Settles O57: a step issues a pre-raise only where none stands, and counts one where it ends. -/
theorem speculationStaysInBalance : Obligations.SpeculationStaysInBalance := by
  unfold Obligations.SpeculationStaysInBalance
  intro s t hs e r
  exact (specLegal_iff _).2 ((step_steady e).spec (fun r => (specLegal_iff _).1 (hs r)) r)

end Sys2Proof.Machine
end

