-- ==== Sys2Proof/Proofs/Frames.lean ====
section
/-!
SUPPORT. What the commands of one side leave of the other, the step, and the state after reset.
-/

namespace Sys2Proof.Machine

/-! ### Frames -/

theorem exec_outside_of_onHubs {c : Instr} {s t : State} (h : onHubs c = true) (e : exec c s = .next t) :
    t.outside = s.outside := by
  cases c <;> cases h <;> cases Host.Outcome.next.inj e <;> simp

theorem exec_inside_of_onRegions {c : Instr} {s t : State} (h : onRegions c = true) (e : exec c s = .next t) :
    t.inside = s.inside := by
  cases c <;> cases h <;> cases Host.Outcome.next.inj e <;> simp

/-- Settles O55: no function that a command of the hubs calls writes what lies outside the hubs. -/
theorem hubCommandsKeepTheRegions : Obligations.HubCommandsKeepTheRegions := by
  unfold Obligations.HubCommandsKeepTheRegions
  intro c s t hc e
  have h := exec_outside_of_onHubs hc e
  simp only [State.outside, Outside.mk.injEq] at h
  obtain ⟨hr, hg, hh, hk, hs, hp, hn, ht, hq⟩ := h
  exact ⟨hr, hg, hh, hk, hs, hp, hn, ht, hq⟩

/-- Settles O54: no function that a command of a region or a governor calls writes anything of the hubs. -/
theorem regionCommandsKeepTheHubs : Obligations.RegionCommandsKeepTheHubs := by
  unfold Obligations.RegionCommandsKeepTheHubs
  intro c s t hc e
  have h := exec_inside_of_onRegions hc e
  cases s; cases t
  simp only [State.inside, Inside.mk.injEq] at h
  simp [h]

/-! ### The step -/

/-- Settles O1: a step is the front command's `exec` by its definition. -/
theorem stepRunsFrontCommand : Obligations.StepRunsFrontCommand := by
  unfold Obligations.StepRunsFrontCommand
  intro s
  constructor
  · intro c rest h
    simp [step, h]
  · intro h
    simp [step, h]

/-- Settles O2: every arm of `exec` ends in a next state. -/
theorem everyCommandCompletes : Obligations.EveryCommandCompletes := by
  intro c s
  cases c <;> exact ⟨_, rfl⟩

theorem specLegal_default : SpecLegal {} := (specLegal_iff _).2 ⟨by decide, by decide⟩

/-- Settles O60: the reset values are the defaults of the state. -/
theorem resetMeetsTheInvariants : Obligations.ResetMeetsTheInvariants := by
  unfold Obligations.ResetMeetsTheInvariants
  refine ⟨rfl, clockLegal_default, fun r => ?_, rfl, rfl, fun c i => ?_, fun r => ?_, fun r => ?_⟩
  · exact specLegal_default
  · rfl
  · rfl
  · rfl

end Sys2Proof.Machine
end

