-- ==== Sys2Proof/Proofs/SettingWord.lean ====
section
/-!
SUPPORT. The setting word of the limiter bus and its two parities (R155, R157).
-/

namespace Sys2Proof.Machine

/-! ### The setting word of the limiter bus (R155, R157) -/

theorem bitNat_lt (b : Bool) : bitNat b < 2 := by cases b <;> decide

/-- The parities of a word count among its lower 30 bits. -/
theorem onesAt_mod (n : Nat) {ps : List Nat} (h : ∀ i ∈ ps, i < 30) : onesAt (n % 2 ^ 30) ps = onesAt n ps := by
  unfold onesAt
  congr 1
  refine List.map_congr_left fun i hi => ?_
  simp only [bitOf_eq_testBit, Nat.testBit_mod_two_pow, h i hi, decide_true, Bool.true_and]

/-- Bit 30 is the parity of the even-numbered bits and bit 31 of the odd-numbered ones: each with its own bit counts evenly. -/
theorem parityOk_iff (w : Word) :
    parityOk w = true ↔ onesAt w.toNat (30 :: evenBits) % 2 = 0 ∧ onesAt w.toNat (31 :: oddBits) % 2 = 0 := by
  have two (b : Bool) (n : Nat) : n % 2 = bitNat b ↔ (bitNat b + n) % 2 = 0 := by
    have := bitNat_lt b
    omega
  simp [parityOk, onesAt, two]

/-- A flipped bit counts once more or once less. -/
theorem onesAt_flip (n i : Nat) (ps : List Nat) : onesAt (n ^^^ 2 ^ i) ps % 2 = (onesAt n ps + ps.count i) % 2 := by
  induction ps with
  | nil => simp [onesAt]
  | cons p ps ih =>
    simp only [onesAt, List.map_cons, List.sum_cons, List.count_cons] at ih ⊢
    by_cases h : p = i
    · subst h
      cases e : n.testBit p <;> simp [bitOf_eq_testBit, bitNat, e] at ih ⊢ <;> omega
    · have h' : i ≠ p := Ne.symm h
      simp [bitOf_eq_testBit, Nat.testBit_two_pow_of_ne h', h] at ih ⊢
      omega

theorem count_parity_bits : ∀ i < 32, (30 :: evenBits).count i + (31 :: oddBits).count i = 1 := by decide

theorem parityOk_flip {w : Word} {i : Nat} (h : parityOk w = true) (hi : i < 32) :
    parityOk (w ^^^ BitVec.ofNat 32 (2 ^ i)) = false := by
  obtain ⟨he, ho⟩ := (parityOk_iff w).1 h
  have hx : (w ^^^ BitVec.ofNat 32 (2 ^ i)).toNat = w.toNat ^^^ 2 ^ i := by
    rw [BitVec.toNat_xor, BitVec.toNat_ofNat, Nat.mod_eq_of_lt (Nat.pow_lt_pow_right (by decide) hi)]
  rw [← Bool.not_eq_true, parityOk_iff, hx, onesAt_flip, onesAt_flip]
  have := count_parity_bits i hi
  omega

/-- A word of 30 bits with its parities on top. -/
def withParity (n : Nat) : Word := BitVec.ofNat 32 (n + 2 ^ 30 * (onesAt n evenBits % 2) + 2 ^ 31 * (onesAt n oddBits % 2))

/-- The 30 bits of a setting below its parity (R155). -/
def settingBits (x : SettingWord) : Nat :=
  x.mode % 4 + 4 * (x.addr % 1024) + 4096 * (x.core % 32) + 2 ^ 17 * (x.kind % 4) + 2 ^ 19 * (x.code % 128) +
    2 ^ 26 * (x.slope % 8) + 2 ^ 29 * bitNat x.flag

theorem settingWord_eq (x : SettingWord) : settingWord x = withParity (settingBits x) := rfl

theorem settingBits_lt (x : SettingWord) : settingBits x < 2 ^ 30 := by
  have := bitNat_lt x.flag
  unfold settingBits
  omega

theorem withParity_toNat {n : Nat} (h : n < 2 ^ 30) :
    (withParity n).toNat = n + 2 ^ 30 * (onesAt n evenBits % 2) + 2 ^ 31 * (onesAt n oddBits % 2) := by
  rw [withParity, BitVec.toNat_ofNat]
  omega

theorem bitNat_bitOf (n i : Nat) : bitNat (bitOf n i) = n / 2 ^ i % 2 := by
  have h := Nat.mod_two_eq_zero_or_one (n / 2 ^ i)
  rcases h with h | h <;> simp [bitNat, bitOf, Nat.shiftRight_eq_div_pow, h]

theorem parityOk_withParity {n : Nat} (h : n < 2 ^ 30) : parityOk (withParity n) = true := by
  have hw := withParity_toNat h
  have hl : (withParity n).toNat % 2 ^ 30 = n := by omega
  have he := onesAt_mod (withParity n).toNat (ps := evenBits) (by decide)
  have ho := onesAt_mod (withParity n).toNat (ps := oddBits) (by decide)
  rw [hl] at he ho
  simp only [parityOk, bitNat_bitOf, ← he, ← ho, Bool.and_eq_true, decide_eq_true_eq]
  omega

/-- A word of good parity is its lower 30 bits with their parities. -/
theorem withParity_of_parityOk {w : Word} (h : parityOk w = true) : withParity (w.toNat % 2 ^ 30) = w := by
  have hw := w.isLt
  simp only [parityOk, bitNat_bitOf, Bool.and_eq_true, decide_eq_true_eq] at h
  obtain ⟨he, ho⟩ := h
  apply BitVec.eq_of_toNat_eq
  rw [withParity_toNat (Nat.mod_lt _ (by decide)), onesAt_mod _ (by decide), onesAt_mod _ (by decide), he, ho]
  omega

theorem settingBits_settingOf (w : Word) : settingBits (settingOf w) = w.toNat % 2 ^ 30 := by
  simp only [settingBits, settingOf, bitNat_bitOf, bitsOf, Nat.shiftRight_eq_div_pow]
  omega

theorem settingOf_settingWord {x : SettingWord} (hm : x.mode < 4) (ha : x.addr < 1024) (hc : x.core < 32) (hk : x.kind < 4)
    (hd : x.code < 128) (hs : x.slope < 8) : settingOf (settingWord x) = x := by
  have hw := withParity_toNat (settingBits_lt x)
  have hb : (settingWord x).toNat % 2 ^ 30 = settingBits x := by
    have := settingBits_lt x
    rw [settingWord_eq]; omega
  have hf := bitNat_lt x.flag
  have hf' := bitNat_bitOf (settingWord x).toNat 29
  obtain ⟨mode, addr, core, kind, code, slope, flag⟩ := x
  simp only [settingBits] at *
  have hflag : bitOf (settingWord ⟨mode, addr, core, kind, code, slope, flag⟩).toNat 29 = flag := by
    have inj : ∀ a b : Bool, bitNat a = bitNat b → a = b := by decide
    apply inj
    omega
  simp only [settingOf, hflag, bitsOf, Nat.shiftRight_eq_div_pow, SettingWord.mk.injEq, and_true]
  omega

/-- Settles O58: the word is 30 bits with their parities, and a flipped bit counts in exactly one of the two. -/
theorem settingWordRoundTrip : Obligations.SettingWordRoundTrip := by
  unfold Obligations.SettingWordRoundTrip
  constructor
  · intro x hm ha hc hk hd hs
    have hp : parityOk (settingWord x) = true := parityOk_withParity (settingBits_lt x)
    exact ⟨settingOf_settingWord hm ha hc hk hd hs, hp, fun _ hi => parityOk_flip hp hi⟩
  · intro w hw
    rw [settingWord_eq, settingBits_settingOf, withParity_of_parityOk hw]

end Sys2Proof.Machine
end

