-- ==== Sys2Proof/Proofs/Collectors.lean ====
section
/-!
SUPPORT. The fault collectors: clearing, the end of handling, the recorder's highest REPEAT, and test writes (R416 to R421, R430).
-/

namespace Sys2Proof.Machine

/-! ### Clearing -/

/-- Hub A's collector took an event of source 5 and one of source 200 in one sample: the FAULT record of the first waits for its cause
register, that of the second for the first's (R415, R424). -/
def twoRecordsDue : State :=
  { hubA := { coll := { sources := ⟨{}, [(5, { pend := true, recDue := true }), (200, { pend := true, recDue := true })]⟩ } }
    pow := { regOpen := true } }

/-- With source 5 cleared nothing holds back the record of source 200, and it leaves. -/
theorem recDue_after_pendClear : ((journaled (pendClear 5) twoRecordsDue).coll .a).source 200 = { pend := true } := by
  rfl

/-- Refutes O28: no other source stays as it was where its FAULT record waits for that of the source cleared. -/
theorem not_pendIsClearedUnlessActive : ¬ Obligations.PendIsClearedUnlessActive := by
  unfold Obligations.PendIsClearedUnlessActive
  intro h
  obtain ⟨t, hexec, -, -, hother, -, -⟩ := h twoRecordsDue 5 .a rfl rfl rfl
  obtain rfl : journaled (pendClear 5) twoRecordsDue = t := Host.Outcome.next.inj hexec
  have hdue := hother 200 (by decide)
  rw [recDue_after_pendClear] at hdue
  exact absurd hdue (by decide)

/-! ### End of handling -/

theorem deliverNmi_of_running {s : State} {h : Hub} (n : Nat) (hf : (s.coll h).frozen = false) (hb : (s.coll h).nmiBusy = false)
    (hc : (s.coreAt h 1).state = .running) :
    deliverNmi h n s = (s.modColl h (fun c => { c with nmiBusy := true, nmiSrc := n })).emit (.nmi n) := by
  unfold State.coll at hf hb
  simp [deliverNmi, hf, hb, hc, State.modColl]

@[simp] theorem coll_modColl (s : State) (h : Hub) (f : Collector → Collector) : (s.modColl h f).coll h = f (s.coll h) := by
  cases h <;> rfl

@[simp] theorem coreAt_modColl (s : State) (h j : Hub) (f : Collector → Collector) (k : Nat) :
    (s.modColl h f).coreAt j k = s.coreAt j k := by cases h <;> cases j <;> rfl

theorem modColl_modColl (s : State) (h : Hub) (f g : Collector → Collector) :
    (s.modColl h f).modColl h g = s.modColl h (fun c => g (f c)) := by cases h <;> rfl

/-- Settles O30: the sources that came due meanwhile are filtered by PEND and the reaction set of their class. -/
theorem endOfHandling' : Obligations.EndOfHandling := by
  unfold Obligations.EndOfHandling
  intro s h ho hr hf hb
  refine ⟨fun hq => next_journaled_congr ?_, fun n hn hp hi hc => next_journaled_congr ?_⟩
  · have hdue : (s.coll h).nmiAgain.filter
        (fun n => ((s.coll h).source n).pend && bitOf (s.reactions n ((s.coll h).source n).cls) 1) = [] := by
      simp +contextual [hq]
    unfold endOfHandling
    simp [ho, hr, hf, hb, hdue, State.modColl]
  · unfold endOfHandling
    simp only [ho, hr, hf, hb, hn, hp, hi, Bool.true_eq_false, List.filter_cons, List.filter_nil, Bool.and_self,
      if_true, List.min?_singleton]
    rw [deliverNmi_of_running n (by simpa using hf) (by simp) (by simpa using hc), modColl_modColl]
    rfl

/-! ### The recorder -/

/-- The open record has been folded 65,533 times, since an earlier journal entry, and one more event like it waits (R430). -/
def lastRepeatDue : State :=
  { hub := { recorder := { openRec := true, recs := [⟨0, 0xFFFE, 0x12, 0, 0, 0, 0, 1, 0⟩], queue := [⟨0, 1, 0x12, 0, 0, 0, 0, 0, 0⟩] } }
    pair := { jn := 1 } }

/-- At its highest REPEAT the record closes, and its close is of another journal entry (R430, R433). -/
theorem recs_after_lastRepeat :
    (journaled appendNext lastRepeatDue).hub.recorder.recs = [⟨0, 0xFFFF, 0x12, 0, 0, 0, 0, 2, 0⟩] := by
  rfl

/-- Refutes O47: the event that brings REPEAT to its highest value does more than count: it closes the record. -/
theorem not_faultsAreCollectedAndRecorded : ¬ Obligations.FaultsAreCollectedAndRecorded := by
  unfold Obligations.FaultsAreCollectedAndRecorded
  intro h
  obtain ⟨-, -, -, -, -, -, -, happend, -⟩ := h lastRepeatDue .a 0
  obtain ⟨t, hexec, -, -, hfold⟩ := happend _ [] rfl rfl rfl
  obtain rfl : journaled appendNext lastRepeatDue = t := Host.Outcome.next.inj hexec
  obtain ⟨-, hrecs⟩ := hfold _ rfl rfl rfl
  rw [recs_after_lastRepeat] at hrecs
  exact absurd hrecs (by decide)

/-! ### What an event leaves of the collectors -/

/-- A collector's sources and what judges an event there. -/
structure CollView where
  sources : SMap Source
  test    : Bool
  frozen  : Bool
  on      : Bool

def State.collView (s : State) (h : Hub) : CollView := ⟨(s.coll h).sources, (s.coll h).test, (s.coll h).frozen, s.collOn h⟩

@[simp] theorem collView_modHub (s : State) (f : Shared → Shared) (k : Hub) : (s.modHub f).collView k = s.collView k := rfl
@[simp] theorem collView_modPair (s : State) (f : Pair → Pair) (k : Hub) : (s.modPair f).collView k = s.collView k := rfl
@[simp] theorem collView_emit (s : State) (e : Effect) (k : Hub) : (s.emit e).collView k = s.collView k := rfl

@[simp] theorem collView_record (s : State) (code level argx source : Nat) (arg : Word) (k : Hub) :
    (s.record code level argx source arg).collView k = s.collView k := rfl

@[simp] theorem collView_journaled (f : State → State) (s : State) (k : Hub) :
    (journaled f s).collView k = (f s).collView k := by
  cases k <;> simp [State.collView, State.coll, State.collOn, State.hubOf]

theorem coll_modColl_ne {h k : Hub} (hk : k ≠ h) (s : State) (f : Collector → Collector) : (s.modColl h f).coll k = s.coll k := by
  cases h <;> cases k <;> simp_all [State.modColl, State.modHubOf, State.coll, State.hubOf]

theorem collOn_modColl (s : State) (h k : Hub) (f : Collector → Collector) : (s.modColl h f).collOn k = s.collOn k := by
  cases h <;> cases k <;> rfl

theorem collView_modColl_ne {h k : Hub} (hk : k ≠ h) (s : State) (f : Collector → Collector) :
    (s.modColl h f).collView k = s.collView k := by
  simp only [State.collView, coll_modColl_ne hk, collOn_modColl]

/-- A change of a collector that leaves its sources and its mode bits. -/
theorem collView_modColl {h : Hub} {s : State} {f : Collector → Collector} (h1 : (f (s.coll h)).sources = (s.coll h).sources)
    (h2 : (f (s.coll h)).test = (s.coll h).test) (h3 : (f (s.coll h)).frozen = (s.coll h).frozen) (k : Hub) :
    (s.modColl h f).collView k = s.collView k := by
  by_cases hk : k = h
  · subst hk; simp only [State.collView, coll_modColl, collOn_modColl, h1, h2, h3]
  · exact collView_modColl_ne hk s f

@[simp] theorem collView_hubEmit (s : State) (e : Effect) (k : Hub) : (s.hubEmit e).collView k = s.collView k := by
  rw [hubEmit_eq]; rfl

@[simp] theorem collView_pin (s : State) (n : String) (h : Hub) (low : Bool) (k : Hub) :
    (s.pin n h low).collView k = s.collView k := by
  unfold State.pin
  split <;> rfl

@[simp] theorem collView_noteCounts (s : State) (h : Hub) (src : Nat) (l : List (Nat × Nat)) (k : Hub) :
    (s.noteCounts h src l).collView k = s.collView k := by
  unfold State.noteCounts
  split <;> rfl

@[simp] theorem collView_faultPins (a s : State) (k : Hub) : (faultPins a s).collView k = s.collView k := by
  unfold faultPins
  dsimp only
  split <;> split <;> rfl

@[simp] theorem collView_deliverNmi (h : Hub) (n : Nat) (s : State) (k : Hub) : (deliverNmi h n s).collView k = s.collView k := by
  unfold deliverNmi
  dsimp only
  split_ifs <;> cases h <;> cases k <;> rfl

/-- A reaction for an event that names no core (R413). -/
theorem collView_blockReset {e : Event} (he : e.core = none) (s : State) (k : Hub) :
    (blockReset e s).collView k = s.collView k := by
  unfold blockReset
  simp only [he]
  split
  · rfl
  · split <;> rfl

theorem collView_ite (c : Prop) [Decidable c] (s t : State) (k : Hub) :
    (if c then s else t).collView k = if c then s.collView k else t.collView k := apply_ite (State.collView · k) ..

theorem collView_react {e : Event} (he : e.core = none) (h : Hub) (set : Nat) (s : State) (k : Hub) :
    (react h e set s).collView k = s.collView k := by
  have chip (t : State) : ((t.modColl h (fun c => { c with crst := true, crstLeft := 1000 })).modPow
      (fun p => { p with crstAgo := 0 })).collView k = t.collView k := by
    cases h <;> cases k <;> rfl
  unfold react
  split
  · rfl
  · simp [collView_ite, collView_blockReset he, chip]

/-- An event at one hub's collector leaves the other's. -/
theorem collView_takeEvent_ne {e : Event} (he : e.core = none) {h k : Hub} (hk : k ≠ h) (s : State) (more : List Nat) :
    (takeEvent h e s more).collView k = s.collView k := by
  unfold takeEvent
  dsimp only
  split
  · rfl
  split
  · split
    · rfl
    · exact collView_modColl_ne hk _ _
  split <;> simp [collView_react he, collView_modColl_ne hk, collView_ite]

theorem coll_source (s : State) (h : Hub) (n : Nat) : (s.coll h).source n = (s.collView h).sources.get n := rfl

@[simp] theorem collView_modColl_sources (s : State) (h : Hub) (f : Collector → Collector) :
    ((s.modColl h f).collView h).sources = (f (s.coll h)).sources := by
  cases h <;> rfl

/-- The forced event of `source n` (R421). -/
def forced (n : Nat) : Event := { src := n, cause := 0, forced := true }

/-- A forced event that finds its source not pending makes it pending, marked forced. -/
theorem takeEvent_forced {s : State} {h : Hub} {n : Nat} (hon : s.collOn h = true) (hf : (s.coll h).frozen = false)
    (hp : ((s.coll h).source n).pend = false) :
    (((takeEvent h (forced n) s).coll h).source n).pend = true ∧ (((takeEvent h (forced n) s).coll h).source n).forced = true := by
  have core : (forced n).core = none := rfl
  unfold takeEvent
  simp only [hon, hf, show ((s.coll h).source (forced n).src).pend = false from hp, show (forced n).forced = true from rfl,
    show (forced n).polled = false from rfl, Bool.true_eq_false, Bool.false_eq_true, or_self, and_false, false_and, if_false,
    if_true]
  rw [coll_source, collView_react core, collView_ite]
  simp [forced, Collector.modSource]

/-- A broken pair stays broken whatever event a source takes. -/
theorem takeEvent_broken {e : Event} (he : e.core = none) {s : State} {h : Hub} {n : Nat} (more : List Nat)
    (hb : ((s.coll h).source n).broken = true) : (((takeEvent h e s more).coll h).source n).broken = true := by
  have missed (f : Collector → List (Nat × Nat)) :
      (s.modColl h (fun c => { c with missed := f c })).collView h = s.collView h := collView_modColl rfl rfl rfl h
  have view (t : State) (f : Source → Source) (ht : t.collView h = s.collView h)
      (hf : (f ((s.coll h).source e.src)).broken = ((s.coll h).source e.src).broken) :
      ((((t.modColl h (fun c => c.modSource e.src f)).collView h).sources).get n).broken = true := by
    have hs : (t.coll h).sources = (s.coll h).sources := congrArg CollView.sources ht
    rw [collView_modColl_sources]
    by_cases hn : n = e.src
    · subst hn
      simp only [Collector.modSource, SMap.get_modify_self, hs]
      exact hf.trans hb
    · simp only [Collector.modSource, SMap.get_modify_ne _ _ hn, hs]
      exact hb
  unfold takeEvent
  dsimp only
  split
  · exact hb
  split
  · split
    · exact hb
    · rw [coll_source, missed]; exact hb
  · rw [coll_source]
    split
    · rw [collView_react he]
      exact view _ _ (by simp [collView_ite, missed]) rfl
    · simp only [collView_react he, collView_ite, collView_record, ite_self]
      exact view _ _ (by simp [collView_ite, missed]) rfl

/-! ### Test writes (R421) -/

/-- What a test write does at one hub: it acts where TEST is 1. -/
def inTest (f : Hub → State → State) (s : State) (h : Hub) : State := if (s.coll h).test then f h s else s

theorem collView_inTest_ne {f : Hub → State → State} (hf : ∀ h k, k ≠ h → ∀ t, (f h t).collView k = t.collView k) (s : State)
    {h k : Hub} (hk : k ≠ h) : (inTest f s h).collView k = s.collView k := by
  unfold inTest
  split
  · exact hf h k hk s
  · rfl

/-- Both hubs take a test write one after the other, and each acts as if alone. -/
theorem collView_inTest_both {f : Hub → State → State} (hf : ∀ h k, k ≠ h → ∀ t, (f h t).collView k = t.collView k) (s : State)
    (h : Hub) : ∃ t, t.collView h = s.collView h ∧ (inTest f (inTest f s .a) .b).collView h = (inTest f t h).collView h := by
  cases h
  · exact ⟨s, rfl, collView_inTest_ne hf _ (by decide)⟩
  · exact ⟨inTest f s .a, collView_inTest_ne hf _ (by decide), rfl⟩

theorem collView_breakPair_ne (src : Nat) (h k : Hub) (hk : k ≠ h) (t : State) : (breakPair h src t).collView k = t.collView k := by
  unfold breakPair
  dsimp only
  split
  · rfl
  · rw [collView_takeEvent_ne rfl hk, collView_modColl_ne hk]

/-- A collector that runs sees the pair broken (R409). -/
theorem breakPair_broken {s : State} {h : Hub} {n : Nat} (hon : s.collOn h = true) (hf : (s.coll h).frozen = false) :
    (((breakPair h n s).coll h).source n).broken = true := by
  unfold breakPair
  dsimp only
  simp only [hon, hf, Bool.true_eq_false, Bool.false_eq_true, false_or]
  split
  · assumption
  · exact takeEvent_broken rfl [] (by simp [Collector.source, Collector.modSource])

/-- A force changes the collectors as two test writes do. -/
theorem collView_forceEvent {s : State} (hr : s.pow.regOpen = true) (n : Nat) (h : Hub) :
    (forceEvent n s).collView h =
      (inTest (fun h t => takeEvent h (forced n) t) (inTest (fun h t => takeEvent h (forced n) t) s .a) .b).collView h := by
  have pins : (faultPins s (inTest (fun h t => takeEvent h (forced n) t) (inTest (fun h t => takeEvent h (forced n) t) s .a)
      .b)).collView h = _ := collView_faultPins ..
  unfold forceEvent
  rw [if_neg (by simp [hr])]
  dsimp only
  split
  · split <;> exact pins
  · exact pins

theorem takeEvent_forced_ne (n : Nat) (h k : Hub) (hk : k ≠ h) (t : State) :
    (takeEvent h (forced n) t).collView k = t.collView k := collView_takeEvent_ne rfl hk t []

/-- A force reaches a collector in TEST that has nothing of its source pending. -/
theorem inTest_forced {s t : State} {h : Hub} {n : Nat} (hv : t.collView h = s.collView h) (ht : (s.coll h).test = true)
    (ho : s.collOn h = true) (hf : (s.coll h).frozen = false) (hp : ((s.coll h).source n).pend = false) :
    let c := (inTest (fun h t => takeEvent h (forced n) t) t h).coll h
    (c.source n).pend = true ∧ (c.source n).forced = true := by
  simp only [State.collView, CollView.mk.injEq] at hv
  obtain ⟨hsources, htest, hfrozen, hon⟩ := hv
  unfold inTest
  rw [if_pos (htest.trans ht)]
  exact takeEvent_forced (hon.trans ho) (hfrozen.trans hf) (by rwa [Collector.source, hsources])

theorem inTest_broken {s t : State} {h : Hub} {n : Nat} (hv : t.collView h = s.collView h) (ht : (s.coll h).test = true)
    (ho : s.collOn h = true) (hf : (s.coll h).frozen = false) :
    (((inTest (fun h t => breakPair h n t) t h).coll h).source n).broken = true := by
  simp only [State.collView, CollView.mk.injEq] at hv
  obtain ⟨-, htest, hfrozen, hon⟩ := hv
  unfold inTest
  rw [if_pos (htest.trans ht)]
  exact breakPair_broken (hon.trans ho) (hfrozen.trans hf)

/-- A collector not in TEST takes no test write. -/
theorem inTest_off {s t : State} {h : Hub} (f : Hub → State → State) (hv : t.collView h = s.collView h)
    (ht : (s.coll h).test = false) : (inTest f t h).collView h = s.collView h := by
  have htest : (t.coll h).test = (s.coll h).test := congrArg CollView.test hv
  unfold inTest
  rwa [if_neg (by simp [htest, ht])]

theorem collView_forceBroken {s : State} (hr : s.pow.regOpen = true) (n : Nat) (h : Hub) :
    (forceBroken n s).collView h =
      (inTest (fun h t => breakPair h n t) (inTest (fun h t => breakPair h n t) s .a) .b).collView h := by
  unfold forceBroken
  rw [if_neg (by simp [hr])]
  exact collView_faultPins ..

/-- TEST_MODE_WRITE at one collector (R417, R421). -/
def putTest (en test sup : Bool) (c : Collector) : Collector :=
  if c.frozen then c else { c with test := if test then (if en then true else c.test) else false, suppress := sup }

theorem testMode_coll {s : State} (hr : s.pow.regOpen = true) (test sup : Bool) (h : Hub) :
    (testMode test sup s).coll h = putTest (s.cfgBit 0x20000 0) test sup (s.coll h) := by
  unfold testMode
  rw [if_neg (by simp [hr])]
  cases h <;> rfl

/-- Settles O29: each collector in TEST takes the write by itself, and nothing that one does reaches the other's sources. -/
theorem forcesActInTestOnly : Obligations.ForcesActInTestOnly := by
  unfold Obligations.ForcesActInTestOnly
  intro s n hr
  refine ⟨fun test sup => ⟨_, rfl, fun h hf => ?_, fun h hf => ?_, ?_⟩, ⟨_, rfl, fun h ht ho hf hp => ?_, fun h ht => ?_⟩,
    ⟨_, rfl, fun h ht ho hf => ?_, fun h ht => ?_⟩⟩
  · rw [testMode_coll hr, putTest, if_neg (by simp [hf])]
    cases test <;> cases s.cfgBit 0x20000 0 <;> rfl
  · rw [testMode_coll hr, putTest, if_pos hf]
  · unfold testMode
    rw [if_neg (by simp [hr])]
    rfl
  · obtain ⟨t, hv, he⟩ := collView_inTest_both (takeEvent_forced_ne n) s h
    rw [coll_source, collView_journaled, collView_forceEvent hr, he]
    exact inTest_forced hv ht ho hf hp
  · obtain ⟨t, hv, he⟩ := collView_inTest_both (takeEvent_forced_ne n) s h
    refine congrArg CollView.sources (a₁ := (journaled (forceEvent n) s).collView h) (a₂ := s.collView h) ?_
    rw [collView_journaled, collView_forceEvent hr, he, inTest_off _ hv ht]
  · obtain ⟨t, hv, he⟩ := collView_inTest_both (collView_breakPair_ne n) s h
    rw [coll_source, collView_journaled, collView_forceBroken hr, he]
    exact inTest_broken hv ht ho hf
  · obtain ⟨t, hv, he⟩ := collView_inTest_both (collView_breakPair_ne n) s h
    refine congrArg CollView.sources (a₁ := (journaled (forceBroken n) s).collView h) (a₂ := s.collView h) ?_
    rw [collView_journaled, collView_forceBroken hr, he, inTest_off _ hv ht]

end Sys2Proof.Machine
end

