-- ==== Sys2Proof/Proofs/Accesses.lean ====
section
/-!
SUPPORT. Register accesses and subscription lists (R313, R391, R467, R468).
-/

namespace Sys2Proof.Machine

/-! ### Register accesses (R391, R467, R468) -/

theorem aligned32_eq_false {off size : Nat} (h : size ≠ 4 ∨ off % 4 ≠ 0) : aligned32 off size = false := by
  rcases h with h | h <;> simp [aligned32, h]

/-- Settles O25: the branches of an access, in the order of R467. -/
theorem registerAccessRules : Obligations.RegisterAccessRules := by
  unfold Obligations.RegisterAccessRules
  intro s off size v w
  refine ⟨fun hr => ⟨next_journaled_congr ?_, next_journaled_congr ?_⟩,
    fun hr ha => ⟨next_journaled_congr ?_, next_journaled_congr ?_⟩, fun hr ha hc h ho => next_journaled_congr ?_,
    fun hr ha hc => next_journaled_congr ?_⟩
  · simp [access, hr]
  · simp [access, hr]
  · simp [access, hr, aligned32_eq_false ha]
  · simp [access, hr, aligned32_eq_false ha]
  · simp [access, hr, aligned32, ha, hc, ho, answerRead]
  · simp [access, hr, aligned32, ha, hc]

/-! ### Subscriptions (R313) -/

theorem popcount64_le (m : BitVec 64) : popcount64 m ≤ 64 := by
  unfold popcount64 onesOf
  exact (List.length_filter_le ..).trans (by simp)

/-- One item of an allowed DECIM asks for at most 4 records in a microsecond. -/
theorem item_rate_le {i : SubItem} (h : 4 ≤ i.decim) : popcount64 i.mask * 2 ^ (15 - i.decim) ≤ 64 * 2 ^ 11 :=
  Nat.mul_le_mul (popcount64_le _) (Nat.pow_le_pow_right (by decide) (by omega))

/-- At most two items: a type stands once, and there are two. -/
theorem subItems_length_le {items : List SubItem} (h : ∀ i ∈ items, 1 ≤ i.type ∧ i.type ≤ 2)
    (hn : (items.map SubItem.type).Nodup) : items.length ≤ 2 := by
  have hs : items.map SubItem.type ⊆ [1, 2] := by
    intro k hk
    obtain ⟨i, hi, rfl⟩ := List.mem_map.1 hk
    obtain ⟨h1, h2⟩ := h i hi
    simp; omega
  simpa using (hn.subperm hs).length_le

theorem subRate_le {items : List SubItem} (h : ∀ i ∈ items, 1 ≤ i.type ∧ i.type ≤ 2 ∧ 4 ≤ i.decim)
    (hn : (items.map SubItem.type).Nodup) : subRate items ≤ 8 * 2 ^ 15 := by
  have hl := subItems_length_le (fun i hi => ⟨(h i hi).1, (h i hi).2.1⟩) hn
  have hs : subRate items ≤ (items.filter (fun i => i.type != 0)).length * (64 * 2 ^ 11) := by
    unfold subRate
    rw [← List.length_map (f := fun i : SubItem => popcount64 i.mask * 2 ^ (15 - i.decim)), ← smul_eq_mul]
    refine List.sum_le_card_nsmul _ _ fun x hx => ?_
    obtain ⟨i, hi, rfl⟩ := List.mem_map.1 hx
    exact item_rate_le (h i (List.mem_filter.1 hi).1).2.2
  calc subRate items ≤ (items.filter (fun i => i.type != 0)).length * (64 * 2 ^ 11) := hs
    _ ≤ 2 * (64 * 2 ^ 11) := Nat.mul_le_mul_right _ ((List.length_filter_le ..).trans hl)
    _ = 8 * 2 ^ 15 := by norm_num

/-- The form of a list (R313), clause by clause. -/
theorem subListBad_iff (items : List SubItem) : subListBad items = true ↔
    (∃ i ∈ items, 2 < i.type ∨ (i.type ≠ 0 ∧ (i.decim < 4 ∨ 15 < i.decim ∨ i.mask = 0)) ∨
        (i.type = 0 ∧ (i.decim ≠ 0 ∨ i.mask ≠ 0 ∨ 1 < items.length))) ∨ ¬ (items.map SubItem.type).Nodup := by
  have item (i : SubItem) : ((2 < i.type ∨ (i.type ≠ 0 ∧ (i.decim < 4 ∨ 15 < i.decim ∨ i.mask = 0)) ∨
      (i.type = 0 ∧ (i.decim ≠ 0 ∨ i.mask ≠ 0 ∨ 1 < items.length)))) ↔
        (decide (2 < i.type) || (i.type != 0 && (!inRange 4 15 i.decim || i.mask == 0)) ||
          (i.type == 0 && (i.decim != 0 || i.mask != 0))) = true ∨ (i.type = 0 ∧ 1 < items.length) := by
    simp [inRange]
    tauto
  simp only [item]
  simp only [subListBad, Bool.or_eq_true, List.any_eq_true, decide_eq_true_eq, Bool.and_eq_true, beq_iff_eq]
  constructor
  · rintro ((⟨i, hi, h⟩ | h) | ⟨⟨i, hi, h0⟩, hl⟩)
    · exact .inl ⟨i, hi, .inl (by simpa using h)⟩
    · exact .inr h
    · exact .inl ⟨i, hi, .inr ⟨h0, hl⟩⟩
  · rintro (⟨i, hi, h | ⟨h0, hl⟩⟩ | h)
    · exact .inl (.inl ⟨i, hi, by simpa using h⟩)
    · exact .inr ⟨⟨i, hi, h0⟩, hl⟩
    · exact .inl (.inr h)

theorem subListBad_of_good {items : List SubItem}
    (h : ∀ i ∈ items, 1 ≤ i.type ∧ i.type ≤ 2 ∧ 4 ≤ i.decim ∧ i.decim ≤ 15 ∧ i.mask ≠ 0) (hn : (items.map SubItem.type).Nodup) :
    subListBad items = false := by
  rw [← Bool.not_eq_true, subListBad_iff]
  rintro (⟨i, hi, hb⟩ | hb)
  · obtain ⟨h1, h2, h3, h4, h5⟩ := h i hi
    rcases hb with hb | ⟨-, hb | hb | hb⟩ | ⟨hb, -⟩
    · omega
    · omega
    · omega
    · exact h5 hb
    · omega
  · exact hb hn

/-- Settles O7: two items at most, each of at most 4 records in a microsecond. -/
theorem subscriptionReplacesSet : Obligations.SubscriptionReplacesSet := by
  unfold Obligations.SubscriptionReplacesSet
  intro s t ht items
  have hrun : runTaken opSubscribe (fun _ => true) subscribe s = subscribe t s := runTaken_eq subscribe ht
  refine ⟨fun hi hn => ?_, fun hi => next_journaled_congr ?_, fun hb => next_journaled_congr ?_⟩
  · have hrate : subRate items ≤ 8 * 2 ^ 15 := subRate_le (fun i h => ⟨(hi i h).1, (hi i h).2.1, (hi i h).2.2.1⟩) hn
    have hall : items.filter (fun i => i.type != 0) = items := by
      refine List.filter_eq_self.2 fun i h => ?_
      have := (hi i h).1
      simp; omega
    refine ⟨hrate, next_journaled_congr ?_⟩
    rw [hrun, subscribe]
    change (if subListBad items = true then _ else if 8 * 2 ^ 15 < subRate items then _ else _) = _
    rw [if_neg (by simp [subListBad_of_good hi hn]), if_neg (by omega)]
    change (s.modRings (fun g => { g with subs := items.filter (fun i => i.type != 0) })).complete _ _ _ = _
    rw [hall]
  · rw [hrun, subscribe]
    change (if subListBad items = true then _ else if 8 * 2 ^ 15 < subRate items then _ else
      (s.modRings (fun g => { g with subs := items.filter (fun i => i.type != 0) })).complete _ _ _) = _
    rw [hi]
    rfl
  · rw [hrun, subscribe]
    exact if_pos ((subListBad_iff items).2 hb)

end Sys2Proof.Machine
end

