-- ==== Sys2Proof/Proofs/EmergencyCap.lean ====
section
/-!
SUPPORT. What a command may add to what leaves, and the emergency cap's entry and end (R257, R320).
-/

namespace Sys2Proof.Machine

/-! ### Effects stay -/

/-- From `s` to `t` nothing that has left or waits is taken back. -/
def Grows (s t : State) : Prop := s.out ⊆ t.out ∧ s.pair.heldEff ⊆ t.pair.heldEff

theorem Grows.refl (s : State) : Grows s s := ⟨List.Subset.refl _, List.Subset.refl _⟩

theorem Grows.trans {s t u : State} (h₁ : Grows s t) (h₂ : Grows t u) : Grows s u :=
  ⟨List.Subset.trans h₁.1 h₂.1, List.Subset.trans h₁.2 h₂.2⟩

/-- The same effects have left and wait. -/
theorem Grows.of_eq {s t u : State} (h : Grows s t) (ho : u.out = t.out) (hh : u.pair.heldEff = t.pair.heldEff) : Grows s u := by
  unfold Grows at h ⊢; rwa [ho, hh]

theorem Grows.leaves {s t : State} (h : Grows s t) {e : Effect} (he : Leaves s e) : Leaves t e :=
  he.imp (fun ho => h.1 ho) fun ⟨n, hn⟩ => ⟨n, h.2 hn⟩

theorem Grows.out {s t : State} (h : Grows s t) {e : Effect} (he : e ∈ s.out) : e ∈ t.out := h.1 he

section
variable {s t : State}

theorem Grows.ite {c : Prop} [Decidable c] {u : State} (h₁ : Grows s t) (h₂ : Grows s u) :
    Grows s (if c then t else u) := by
  split
  · exact h₁
  · exact h₂

theorem Grows.foldl {α : Type} {f : State → α → State} (h : ∀ a x, Grows s a → Grows s (f a x)) (l : List α) (ht : Grows s t) :
    Grows s (l.foldl f t) := List.foldlRecOn (motive := Grows s) l f ht fun _ ha x _ => h _ x ha

theorem Grows.journaled {f : State → State} {u : State} (h : Grows s (f u)) : Grows s (journaled f u) :=
  h.of_eq (journaled_out f u) (journaled_heldEff f u)

theorem Grows.emit (h : Grows s t) (e : Effect) : Grows s (t.emit e) :=
  h.trans ⟨List.subset_append_left _ _, List.Subset.refl _⟩

theorem Grows.modHub (h : Grows s t) (f : Shared → Shared) : Grows s (t.modHub f) := h.of_eq rfl rfl
theorem Grows.modRings (h : Grows s t) (f : Rings → Rings) : Grows s (t.modRings f) := h.of_eq rfl rfl
theorem Grows.modBudget (h : Grows s t) (f : Budget → Budget) : Grows s (t.modBudget f) := h.of_eq rfl rfl
theorem Grows.modThyme (h : Grows s t) (f : Thyme → Thyme) : Grows s (t.modThyme f) := h.of_eq rfl rfl
theorem Grows.modGrant (h : Grows s t) (i : Nat) (f : Grant → Grant) : Grows s (t.modGrant i f) := h.of_eq rfl rfl
theorem Grows.bumpSeq (h : Grows s t) (src dst : Nat) : Grows s (t.bumpSeq src dst) := h.of_eq rfl rfl

theorem Grows.hubEmit (h : Grows s t) (e : Effect) : Grows s (t.hubEmit e) := by
  refine h.trans ?_
  rw [hubEmit_eq]
  constructor
  · dsimp only; split
    · exact List.Subset.refl _
    · exact List.subset_append_left _ _
  · dsimp only; split
    · exact List.subset_append_left _ _
    · exact List.Subset.refl _

theorem Grows.sendAs (h : Grows s t) (src dst : Nat) (m : Msg) : Grows s (t.sendAs src dst m) := (h.emit _).bumpSeq ..

theorem Grows.send (h : Grows s t) (m : Msg) : Grows s (t.send m) := h.sendAs ..

theorem Grows.expect (h : Grows s t) (src dst : Nat) (m : Msg) : Grows s (t.expect src dst m) := h.of_eq rfl rfl

theorem Grows.hubSend (h : Grows s t) (m : Msg) : Grows s (t.hubSend m) := by
  unfold State.hubSend
  exact .ite h ((h.hubEmit _).bumpSeq ..)

theorem Grows.hubAsk (h : Grows s t) (m : Msg) : Grows s (t.hubAsk m) := by
  unfold State.hubAsk
  exact .ite h ((h.hubSend m).expect ..)

theorem Grows.complete (h : Grows s t) (cmd : CmdRef) (code detail : Nat) (result : List Byte) :
    Grows s (t.complete cmd code detail result) := h.of_eq (by simp) (by simp)

theorem Grows.telemetry (h : Grows s t) (type region : Nat) (body : List Byte) (sub : Bool) :
    Grows s (t.telemetry type region body sub) := h.of_eq (by simp) (by simp)

theorem Grows.abandonRound (h : Grows s t) (i code detail : Nat) : Grows s (abandonRound i code detail t) := by
  have hf := h.foldl (f := fun a r => a.hubSend (.stagingRelease r i)) (fun a r ha => ha.hubSend _) (t.grant i).regions
  unfold Machine.abandonRound
  dsimp only
  have hw : Grows s (if code = codePartial then _ else _) :=
    .ite (((hf.modGrant i Grant.freed).modThyme (Thyme.withdraw t.now i)).modThyme (fun x => { x with partialC := x.partialC + 1 }))
      ((hf.modGrant i Grant.freed).modThyme (Thyme.withdraw t.now i))
  split
  · exact hw.complete ..
  · exact hw

theorem Grows.abandonAll (h : Grows s t) : Grows s (abandonAll t) := by
  unfold Machine.abandonAll
  exact .ite h (h.foldl (fun _ _ ha => ha.abandonRound ..) _)

end

/-! ### The emergency cap (R257, R320) -/

theorem abandonRound_onlyGrants (i code detail : Nat) (s : State) : OnlyGrants s (abandonRound i code detail s) := by
  have hr : OnlyGrants s (stagingReleased i s) := (stagingReleased_onlyMessages i s).onlyGrants
  unfold abandonRound
  change OnlyGrants s (match (s.grant i).cmd with
    | some c => State.complete (if code = codePartial then _ else _) c code detail
    | none => if code = codePartial then _ else _)
  have hw (f : Thyme → Thyme) (g : Grant → Grant): OnlyGrants s (((stagingReleased i s).modGrant i g).modThyme f) :=
    (hr.trans (modThyme_onlyGrants _ _)).trans (modThyme_onlyGrants _ _)
  split
  · refine OnlyGrants.trans ?_ (complete_onlyGrants ..)
    split
    · exact (hw _ _).trans (modThyme_onlyGrants _ _)
    · exact hw _ _
  · split
    · exact (hw _ _).trans (modThyme_onlyGrants _ _)
    · exact hw _ _

theorem abandonAll_onlyGrants (s : State) : OnlyGrants s (abandonAll s) := by
  unfold abandonAll
  split
  · rfl
  · exact List.foldlRecOn (motive := OnlyGrants s) _ _ rfl fun _ h i _ => h.trans (abandonRound_onlyGrants i _ _ _)

theorem OnlyGrants.ecap {s t : State} (h : OnlyGrants s t) : t.hub.ecap = s.hub.ecap := by rw [h]

/-- The paths' broadcasts at the entry of the emergency cap. -/
def broadcast (paths : List Hub) (ps : List Nat) (s : State) : State :=
  paths.foldl (fun a h => a.sendAs (nodeHub h) nodeAll (.ecap ps)) s

theorem broadcast_hub (paths : List Hub) (ps : List Nat) (s : State) : (broadcast paths ps s).hub = s.hub :=
  List.foldlRecOn (motive := fun t : State => t.hub = s.hub) paths _ rfl fun _ h _ _ => h

theorem broadcast_said {paths : List Hub} {h : Hub} (hh : h ∈ paths) (ps : List Nat) (s : State) :
    ∃ x : Head, x.src = nodeHub h ∧ x.dst = nodeAll ∧ Effect.msg (.ecap ps) x ∈ (broadcast paths ps s).out := by
  obtain ⟨l, m, rfl⟩ := List.append_of_mem hh
  unfold broadcast
  rw [List.foldl_append, List.foldl_cons]
  generalize l.foldl _ s = u
  refine ⟨u.headOf (nodeHub h) nodeAll (u.seqAt (nodeHub h) nodeAll) false (.ecap ps), rfl, rfl, ?_⟩
  have hu : Effect.msg (.ecap ps) (u.headOf (nodeHub h) nodeAll (u.seqAt (nodeHub h) nodeAll) false (.ecap ps)) ∈
      (u.sendAs (nodeHub h) nodeAll (.ecap ps)).out := by simp [State.sendAs, State.bumpSeq, State.emit]
  exact (Grows.foldl (fun _ _ ha => ha.sendAs ..) m (.refl _)).out hu

theorem telemetry_ecap (s : State) (type region : Nat) (body : List Byte) (sub : Bool) :
    (s.telemetry type region body sub).hub.ecap = s.hub.ecap := by
  unfold State.telemetry
  split_ifs <;> rfl

theorem modThyme_ecap (s : State) (f : Thyme → Thyme) : (s.modThyme f).hub.ecap = s.hub.ecap := rfl
theorem modBudget_ecap (s : State) (f : Budget → Budget) : (s.modBudget f).hub.ecap = s.hub.ecap := rfl
theorem dropRaises_ecap (s : State) : (dropRaises s).hub.ecap = s.hub.ecap := rfl

/-- The entry of the emergency cap after its first source (R257, R320). -/
theorem ecapEdge_enters {paths : List Hub} {before : Ecap} {s : State} (ha : s.hub.ecap.any = true)
    (hi : s.hub.ecap.active = false) :
    let t := ecapEdge paths before s
    t.hub.ecap = { s.hub.ecap with active := true, restore := false, entries := satAdd 0xFFFF s.hub.ecap.entries 1 } ∧
      (∀ h ∈ paths, ∃ x : Head, x.src = nodeHub h ∧ x.dst = nodeAll ∧ Effect.msg (.ecap s.presets) x ∈ t.out) ∧
      Leaves t (.msix 12) := by
  intro t
  let a := s.modEcap (fun e => { e with active := true, restore := false, entries := satAdd 0xFFFF e.entries 1 })
  let b := broadcast paths s.presets a
  obtain ⟨body, ht⟩ : ∃ body, t = abandonAll (((dropRaises ((b.hubEmit (.msix 12)).telemetry 0x14 0xFF body)).modBudget
      (fun x => { x with presets := s.presets })).modThyme (fun h => { h with ecapSettle := true })) :=
    ⟨_, if_pos ⟨ha, hi⟩⟩
  have he : Grows (b.hubEmit (.msix 12)) t := by
    rw [ht]
    exact ((((Grows.refl _).telemetry ..).modBudget _).modBudget _).modThyme _ |>.abandonAll
  refine ⟨?_, fun h hh => ?_, he.leaves (hubEmit_leaves b _)⟩
  · rw [ht, (abandonAll_onlyGrants _).ecap]
    rw [modThyme_ecap, modBudget_ecap, dropRaises_ecap, telemetry_ecap, (hubEmit_onlyMessages ..).hub, broadcast_hub]
    rfl
  · obtain ⟨x, hs, hd, hx⟩ := broadcast_said hh s.presets a
    exact ⟨x, hs, hd, (((Grows.refl b).hubEmit _).trans he).out hx⟩

/-- The end of the emergency cap after its last source (R257, R320). -/
theorem ecapEdge_ends {paths : List Hub} {before : Ecap} {s : State} (ha : s.hub.ecap.any = false) (hi : s.hub.ecap.active = true) :
    let t := ecapEdge paths before s
    t.hub.ecap = { s.hub.ecap with active := false, restore := true } ∧ Leaves t (.msix 12) := by
  intro t
  let a := s.modEcap (fun e => { e with active := false, restore := true })
  have ht : t = (a.hubEmit (.msix 12)).telemetry 0x14 0xFF (leBytes 1 before.source ++ leBytes 1 1) := by
    simp [t, ecapEdge, ha, hi, a]
  rw [ht]
  refine ⟨?_, ((Grows.refl _).telemetry ..).leaves (hubEmit_leaves a _)⟩
  rw [telemetry_ecap, (hubEmit_onlyMessages ..).hub]
  rfl

theorem ecapEdge_same {paths : List Hub} {before : Ecap} {s : State} (h : s.hub.ecap.any = s.hub.ecap.active) :
    ecapEdge paths before s = s := by
  unfold ecapEdge
  cases ha : s.hub.ecap.active <;> simp [h, ha]

theorem abandonAll_outside (s : State) : (abandonAll s).outside = s.outside := by rw [abandonAll_onlyGrants s]; rfl

theorem ecapEdge_outside (paths : List Hub) (before : Ecap) (s : State) : (ecapEdge paths before s).outside = s.outside := by
  unfold ecapEdge
  simp [State.modEcap, abandonAll_outside]

/-- What becomes of the emergency cap and of what leaves, from `s` to `t`, when its sources change by `f` at `paths` (R257, R320). -/
def EcapFollows (s t : State) (f : Ecap → Ecap) (paths : List Hub) : Prop :=
  ((f s.hub.ecap).any = true → s.hub.ecap.active = false →
    t.hub.ecap = { f s.hub.ecap with active := true, restore := false, entries := satAdd 0xFFFF s.hub.ecap.entries 1 } ∧
    (∀ h ∈ paths, ∃ x : Head, x.src = nodeHub h ∧ x.dst = nodeAll ∧ Effect.msg (.ecap s.presets) x ∈ t.out) ∧
    Leaves t (.msix 12)) ∧
  ((f s.hub.ecap).any = false → s.hub.ecap.active = true →
    t.hub.ecap = { f s.hub.ecap with active := false, restore := true } ∧ Leaves t (.msix 12)) ∧
  ((f s.hub.ecap).any = s.hub.ecap.active → t.hub.ecap = f s.hub.ecap ∧ t.out = s.out)

theorem setEcap_follows {s : State} {f : Ecap → Ecap} (hf : ∀ e, (f e).active = e.active ∧ (f e).entries = e.entries)
    (paths : List Hub) : EcapFollows s (setEcap paths f s) f paths := by
  obtain ⟨hact, hent⟩ := hf s.hub.ecap
  let v := bothHubs (fun a => a.modEcap f) s
  have hv : v.hub.ecap = f s.hub.ecap := rfl
  refine ⟨fun ha hi => ?_, fun ha hi => ?_, fun ha => ?_⟩
  · obtain ⟨he, hs, hl⟩ := ecapEdge_enters (paths := paths) (before := s.hub.ecap) (s := v) ha (hact.trans hi)
    exact ⟨by rw [setEcap, he, hv, hent], hs, hl⟩
  · exact ecapEdge_ends (paths := paths) (before := s.hub.ecap) (s := v) ha (hact.trans hi)
  · have hsame : setEcap paths f s = v := ecapEdge_same (ha.trans hact.symm)
    rw [hsame]
    exact ⟨rfl, rfl⟩

theorem EcapFollows.of_eq {s u t t' : State} {f : Ecap → Ecap} {paths : List Hub} (h : EcapFollows u t f paths)
    (hu : u = { s with pow := u.pow }) (hh : t'.hub = t.hub) (ho : t'.out = t.out) (hp : t'.pair.heldEff = t.pair.heldEff) :
    EcapFollows s t' f paths := by
  have hub : s.hub = u.hub := by rw [hu]
  have hout : s.out = u.out := by rw [hu]
  have hps : s.presets = u.presets := by rw [hu]; rfl
  unfold EcapFollows Leaves at h ⊢
  rwa [hub, hout, hps, hh, ho, hp]

/-- A change of one source, and what it leaves. -/
theorem journaled_setEcap {s u : State} {f : Ecap → Ecap} (hf : ∀ e, (f e).active = e.active ∧ (f e).entries = e.entries)
    {paths : List Hub} (hu : u = { s with pow := u.pow }) {g : State → State} (hg : g s = setEcap paths f u) :
    let t := journaled g s
    t.regions = s.regions ∧ t.govs = s.govs ∧ t.clk = s.clk ∧ EcapFollows s t f paths := by
  intro t
  have ho : t.outside = u.outside := by
    rw [journaled_outside, hg, setEcap, ecapEdge_outside, bothHubs_outside]
    rfl
  have hr : t.regions = u.regions := congrArg Outside.regions ho
  have hgv : t.govs = u.govs := congrArg Outside.govs ho
  have hc : t.clk = u.clk := congrArg Outside.clk ho
  refine ⟨by rw [hr, hu], by rw [hgv, hu], by rw [hc, hu], ?_⟩
  exact (setEcap_follows hf paths).of_eq hu (by rw [journaled_hub, hg]) (by rw [journaled_out, hg]) (by rw [journaled_heldEff, hg])

/-- Settles O32: every row changes one source through `setEcap`; a pin's rows also keep the level at the pin. -/
theorem emergencyCapFollowsSources : Obligations.EmergencyCapFollowsSources := by
  unfold Obligations.EmergencyCapFollowsSources
  intro s c f paths h
  have pin (h : Hub) (on : Bool) (hs : s.ecapSensed h = true) :
      ecapLevel h on s = setEcap [h] (pinEcap h on) (s.modPow (Power.setEcapLow h on)) := if_pos hs
  have hf : ∀ e, (f e).active = e.active ∧ (f e).entries = e.entries := by
    rcases h with ⟨-, rfl, -⟩ | ⟨-, rfl, -⟩ | ⟨-, rfl, -⟩ | ⟨-, rfl, -⟩ | ⟨-, rfl, -⟩ | ⟨-, rfl, -⟩ <;> exact fun _ => ⟨rfl, rfl⟩
  obtain ⟨u, g, hu, hg, he⟩ : ∃ u g, u = { s with pow := u.pow } ∧ g s = setEcap paths f u ∧ exec c s = .next (journaled g s) := by
    rcases h with ⟨rfl, rfl, rfl, hr⟩ | ⟨rfl, rfl, rfl, hs⟩ | ⟨rfl, rfl, rfl, hs⟩ | ⟨rfl, rfl, rfl, hr⟩ | ⟨rfl, rfl, rfl, hs⟩ |
      ⟨rfl, rfl, rfl, hs⟩
    · exact ⟨s, _, rfl, rfl, congrArg Host.Outcome.next (if_pos hr)⟩
    · exact ⟨_, _, rfl, pin .a true hs, rfl⟩
    · exact ⟨_, _, rfl, pin .b true hs, rfl⟩
    · exact ⟨s, _, rfl, rfl, congrArg Host.Outcome.next (if_pos hr)⟩
    · exact ⟨_, _, rfl, pin .a false hs, rfl⟩
    · exact ⟨_, _, rfl, pin .b false hs, rfl⟩
  exact ⟨_, he, journaled_setEcap hf hu hg⟩

end Sys2Proof.Machine
end

