-- ==== Sys2Proof/Proofs/RingEngine.lean ====
section
/-!
SUPPORT. The ring engine: doorbells, entries written and taken, failed accesses, restarts (R291 to R298, R308 to R324).
-/

namespace Sys2Proof.Machine

/-! ### Doorbells (R292, R293) -/

@[simp] theorem modRing_ring (s : State) (k j : Nat) (f : Ring → Ring) :
    (s.modRing k f).ring j = if j = k then f (s.ring k) else s.ring j := SMap.get_modify ..

theorem stopRing_ring (s : State) (k j : Nat) (f : Ring → Ring) :
    (s.stopRing k f).ring j = if j = k then { f (s.ring k) with stopped := true }
      else if j + 8 = k ∧ k < 16 then { s.ring j with stopped := true } else s.ring j := by
  unfold State.stopRing
  dsimp only
  by_cases hk : 8 ≤ k ∧ k < 16
  · have hne : k - 8 ≠ k := by omega
    rw [if_pos hk]
    by_cases hj : j = k
    · subst hj; simp [hne.symm]
    · by_cases h8 : j + 8 = k
      · subst h8; simp [hk.2]
      · have : j ≠ k - 8 := by omega
        simp [hj, h8, this]
  · rw [if_neg hk]
    by_cases hj : j = k
    · subst hj; simp
    · have : ¬(j + 8 = k ∧ k < 16) := by omega
      simp [hj, this]

theorem ringDoorbell_good {s : State} {k : Nat} {v : Word} (ho : RingOpen s k) (hv : DoorbellOk s k v) :
    ringDoorbell k v s = s.modRing k (fun g => { g with pi := v }) := by
  obtain ⟨hr, hz, hs⟩ := ho
  obtain ⟨hb, ha⟩ := hv
  unfold ringDoorbell
  simp only [hr, hz, hs, Bool.true_eq_false, Bool.false_eq_true, or_self, if_false, hb, false_or, if_neg (Nat.not_lt.2 ha)]

theorem ringDoorbell_bad {s : State} {k : Nat} {v : Word} (ho : RingOpen s k) (hv : ¬ DoorbellOk s k v) :
    ringDoorbell k v s = ((s.stopRing k (fun g => { g with dbErr := true })).raise 194 0).hubEmit (.msix 10) := by
  obtain ⟨hr, hz, hs⟩ := ho
  unfold DoorbellOk at hv
  rw [not_and_or, not_not, Nat.not_le] at hv
  unfold ringDoorbell
  simp only [hr, hz, hs, Bool.true_eq_false, Bool.false_eq_true, or_self, if_false, if_pos hv]

/-- What a doorbell error changes (R293). -/
def DoorbellError (s t : State) (k : Nat) : Prop :=
  (∀ j, t.ring j = if j = k then { s.ring k with stopped := true, dbErr := true }
    else if j + 8 = k ∧ k < 16 then { s.ring j with stopped := true } else s.ring j) ∧
  t.events = s.events ++ [{ src := 194, cause := 0 }] ∧ Sends s t [.msix 10] ∧
  t = { s with
    hub := { s.hub with rings := { s.hub.rings with ring := t.hub.rings.ring } }
    pair := t.pair, events := t.events, out := t.out }

theorem stopRing_eq (s : State) (k : Nat) (f : Ring → Ring) :
    ∃ m, s.stopRing k f = { s with hub := { s.hub with rings := { s.hub.rings with ring := m } } } := by
  unfold State.stopRing
  dsimp only
  split <;> exact ⟨_, rfl⟩

/-- A doorbell that is in error at both images, with its journal entry. -/
theorem journaled_doorbell_bad {s : State} {k : Nat} {v : Word} (ho : RingOpen s k) (hv : ¬ DoorbellOk s k v) {f : State → State}
    (hf : f s = bothHubs (ringDoorbell k v) s) : DoorbellError s (journaled f s) k := by
  have hd := ringDoorbell_bad ho hv
  obtain ⟨m, hu⟩ := stopRing_eq s k (fun g => { g with dbErr := true })
  have hr := stopRing_ring s k (f := fun g => { g with dbErr := true })
  rw [hubEmit_eq, hu] at hd
  rw [hu] at hr
  have ht := journaled_eq f s
  generalize journaled f s = t at ht ⊢
  have hfs : f s = { s with
      hub := { s.hub with rings := { s.hub.rings with ring := m } }
      events := s.events ++ [{ src := 194, cause := 0 }]
      out := if s.pair.paired then s.out else s.out ++ [.msix 10]
      pair := { s.pair with
        heldEff := if s.pair.paired then s.pair.heldEff ++ [(s.pair.jn + 1, .msix 10)] else s.pair.heldEff
        image := (f s).pair.image, journal := (f s).pair.journal } } := by
    rw [hf]
    unfold bothHubs
    simp only [hd]
    rfl
  rw [hfs] at ht
  refine ⟨fun j => ?_, ?_, ?_, ?_⟩
  · rw [← hr, ht]; rfl
  · rw [ht]
  · rw [ht]
    exact ⟨rfl, rfl⟩
  · rw [ht]

/-- With no LOSS record due, or with no slot for it, a filled ring's doorbell is a doorbell (R314). -/
theorem filledDoorbell_plain {s : State} {k : Nat} {v : Word}
    (h : k = 16 → (bothHubs (ringDoorbell k v) s).hub.rings.lossDue = 0 ∨ (bothHubs (ringDoorbell k v) s).writable 16 = false) :
    filledDoorbell k v s = bothHubs (ringDoorbell k v) s := by
  unfold filledDoorbell
  refine if_neg ?_
  rintro ⟨hk, hl, -, hw⟩
  rcases h hk with h | h
  · omega
  · simp [h] at hw

theorem bothHubs_ringDoorbell_hub {s : State} {k : Nat} {v : Word} (ho : RingOpen s k) (hv : DoorbellOk s k v) :
    (bothHubs (ringDoorbell k v) s).hub = (s.modRing k (fun g => { g with pi := v })).hub := by
  rw [← ringDoorbell_good ho hv]; rfl

@[simp] theorem wrote_pi (s : State) (k j : Nat) (bytes : List Byte) : ((s.wrote k bytes).ring j).pi = (s.ring j).pi := by
  have hj (t : State) (f : Ring → Ring) (hf : (f (t.ring k)).pi = (t.ring k).pi) : ((t.modRing k f).ring j).pi = (t.ring j).pi := by
    rw [modRing_ring]
    split
    · next h => rw [hf, h]
    · rfl
  unfold State.wrote
  dsimp only
  split
  · exact hj _ _ rfl
  · exact hj _ _ rfl

theorem filledDoorbell_pi {s : State} {k : Nat} {v : Word} (ho : RingOpen s k) (hv : DoorbellOk s k v) :
    ((filledDoorbell k v s).ring k).pi = v := by
  have h : ((bothHubs (ringDoorbell k v) s).ring k).pi = v := by
    unfold State.ring
    rw [bothHubs_ringDoorbell_hub ho hv]
    exact congrArg Ring.pi ((modRing_ring s k k _).trans (if_pos rfl))
  unfold filledDoorbell
  dsimp only
  split
  · exact (wrote_pi ..).trans h
  · exact h

/-- Settles O3: a doorbell is judged by `ringDoorbell` at both images; TEL's may let a LOSS record follow. -/
theorem doorbellsMoveOrStopRings : Obligations.DoorbellsMoveOrStopRings := by
  unfold Obligations.DoorbellsMoveOrStopRings
  refine ⟨fun s k v ho hv => ⟨fun c hc => ⟨_, rfl, ?_⟩, fun c hc hl => ⟨_, rfl, ?_⟩, fun c hc => ⟨_, rfl, ?_⟩⟩,
    fun s k v ho hv c hc => ?_⟩
  · subst hc; exact host_hubOnly (ringDoorbell_good ho hv)
  · subst hc
    rw [journaled_congr (filledDoorbell_plain fun hk => .inl (by rw [bothHubs_ringDoorbell_hub ho hv]; exact hl hk))]
    exact host_hubOnly (ringDoorbell_good ho hv)
  · subst hc
    unfold State.ring
    rw [journaled_hub]
    exact filledDoorbell_pi ho hv
  · rcases hc with ⟨n, rfl, rfl⟩ | ⟨n, rfl, rfl⟩
    · exact ⟨_, rfl, journaled_doorbell_bad ho hv rfl⟩
    · refine ⟨_, rfl, journaled_doorbell_bad ho hv (filledDoorbell_plain fun hk => .inr ?_)⟩
      have hstop : ((bothHubs (ringDoorbell (8 + n.val) v) s).ring 16).stopped = true := by
        change ((ringDoorbell (8 + n.val) v s).ring 16).stopped = true
        rw [ringDoorbell_bad ho hv, State.ring, (hubEmit_onlyMessages ..).hub]
        change ((s.stopRing (8 + n.val) _).ring 16).stopped = true
        rw [stopRing_ring, if_pos hk.symm]
      simp [State.writable, hstop]

/-! ### Entries written (R295, R309, R314, R315, R319) -/

theorem wrote_out (s : State) (k : Nat) (bytes : List Byte) :
    (s.wrote k bytes).out = s.out ++ [.ringWrite k (s.entryAddr k (s.ring k).ci.toNat + 8) (bytes.drop 8),
        .ringWrite k (s.entryAddr k (s.ring k).ci.toNat) (bytes.take 8)] ++
      (if decide (s.cfg (offRing k + 8) 16 8 ≤ (s.ring k).coalCnt + 1) then [.msix (s.cfg (offRing k + 8) 8 4)] else []) := by
  unfold State.wrote
  dsimp only
  split
  · next h => simp [State.emit, State.modRing, State.modHub, h]
  · next h => simp [State.emit, State.modRing, State.modHub, h]

theorem wrote_ring (s : State) (k j : Nat) (bytes : List Byte) :
    let full := decide (s.cfg (offRing k + 8) 16 8 ≤ (s.ring k).coalCnt + 1)
    (s.wrote k bytes).ring j = if j = k then { s.ring k with
      ci := (s.ring k).ci + 1, coalCnt := if full then 0 else (s.ring k).coalCnt + 1
      coalOn := !full && decide (0 < s.cfg (offRing k + 8) 24 8) } else s.ring j := by
  intro full
  unfold State.wrote
  dsimp only
  split
  · next h =>
    have hf : full = true := decide_eq_true h
    rw [hf]
    exact modRing_ring s k j _
  · next h =>
    have hf : full = false := decide_eq_false h
    rw [hf]
    exact modRing_ring s k j _

@[simp] theorem wrote_comps (s : State) (k : Nat) (bytes : List Byte) :
    (s.wrote k bytes).hub.rings.comps = s.hub.rings.comps := by
  unfold State.wrote
  dsimp only
  split <;> rfl

@[simp] theorem wrote_tel (s : State) (k : Nat) (bytes : List Byte) : (s.wrote k bytes).hub.rings.tel = s.hub.rings.tel := by
  unfold State.wrote
  dsimp only
  split <;> rfl

theorem nextEntry_head (x : Rec) (rest : List Rec) : (nextEntry (x :: rest)).head? = some x := by
  cases rest with
  | nil => rfl
  | cons y rest =>
    simp only [nextEntry]
    split
    · cases rest with
      | nil => rfl
      | cons z _ => dsimp only; split <;> rfl
    · rfl

theorem exportNext_writes {s : State} {x : Rec} {rest : List Rec} (hc : s.inControl = true)
    (hp : s.hub.recorder.pending = x :: rest) (hw : s.writable 17 = true)
    (hd : 3 ≤ s.hub.recorder.pending.length ∨ 2 ≤ x.age ∨ s.hub.recorder.flush = true)
    (hl : ∀ y ∈ nextEntry (x :: rest), s.mayLeave y.jn = true) :
    exportNext true s = (s.wrote 17 (evxBytes (phaseBit (s.ring 17).ci.toNat (s.ringSize 17))
        (x.seq != s.hub.recorder.exported + 1) (nextEntry (x :: rest)))).modRecorder (fun q => { q with
      exported := ((nextEntry (x :: rest)).getLast?.map Rec.seq).getD 0
      flush := q.flush && decide ((nextEntry (x :: rest)).length < (x :: rest).length) }) := by
  have hdue : ¬((x :: rest).length < 3 ∧ x.age < 2 ∧ s.hub.recorder.flush = false) := by
    rw [hp] at hd
    rintro ⟨h1, h2, h3⟩
    rcases hd with h | h | h
    · omega
    · omega
    · simp [h3] at h
  have hleave : (nextEntry (x :: rest)).any (fun y => !s.mayLeave y.jn) = false := by
    simpa using hl
  unfold exportNext
  simp only [hc, hp, hw, nextEntry_head, List.head?_cons, Option.map_some, Option.getD_some, hleave, Bool.true_eq_false, reduceCtorEq,
    or_self, if_false, hdue, Bool.false_eq_true]

/-- Settles O5: each write is the first branch of its command. -/
theorem entryIsWritten : Obligations.EntryIsWritten := by
  unfold Obligations.EntryIsWritten
  intro s hc
  refine ⟨fun k bytes => ⟨wrote_out s k bytes, fun j => wrote_ring s k j bytes⟩, fun c rest hq hw hl => next_journaled_congr ?_,
    fun x rest hq hw hl hb hz => next_journaled_congr ?_, fun x rest hq hw hl hb hz => next_journaled_congr ?_,
    fun x rest hp hw hd hl => next_journaled_congr (exportNext_writes hc hp hw hd hl), fun k ho => next_journaled_congr ?_⟩
  · simp [writeCompletion, hc, hq, hw, hl, State.modHub]
  · simp [writeTelemetry, hc, hq, hw, hl, hb, hz, State.modHub]
  · simp [writeTelemetry, hc, hq, hw, hl, hb, hz, writeLoss]
  · simp [coalesce, hc, ho]

/-! ### Failed accesses and restarts (R294, R324) -/

theorem onesOf_nodup (n v : Nat) : (onesOf n v).Nodup := List.Nodup.filter _ List.nodup_range

/-- RESTART names rings by number, once each. -/
theorem askRestart_ring {s : State} (hr : s.pow.regOpen = true) {ks : List Nat} (hn : ks.Nodup) (j : Nat) :
    (askRestart ks s).ring j = if j ∈ ks then { s.ring j with restart := true } else s.ring j := by
  unfold askRestart
  rw [if_pos hr]
  split
  · next h => exact SMap.get_modifyAll_mem _ ks _ hn h
  · next h => exact SMap.get_modifyAll_ne _ ks _ h

theorem askRestart_eq (ks : List Nat) (s : State) :
    askRestart ks s = { s with hub := { s.hub with rings := { s.hub.rings with ring := (askRestart ks s).hub.rings.ring } } } := by
  unfold askRestart
  split <;> rfl

theorem memError_ring (s : State) (k : Nat) :
    (s.memError k).ring k = { s.ring k with memErr := true, stopped := true } := by
  unfold State.memError
  exact (stopRing_ring s k k _).trans (if_pos rfl)

theorem memError_eq (s : State) (k : Nat) :
    ∃ m, s.memError k = { s with
      hub := { s.hub with rings := { s.hub.rings with ring := m } }, events := s.events ++ [{ src := 194, cause := 2 }] } := by
  obtain ⟨m, hm⟩ := stopRing_eq s k (fun g => { g with memErr := true })
  exact ⟨m, congrArg (fun t : State => t.raise 194 2) hm⟩

/-- A restart asked of each hub is a change of the image alone. -/
theorem restart_hubOnly (ks : List Nat) (s : State) :
    HubOnly s (journaled (bothHubs (askRestart ks)) s)
      { s.hub with rings := { s.hub.rings with ring := (askRestart ks s).hub.rings.ring } } :=
  host_hubOnly (askRestart_eq ks s)

/-- The restart of one ring. -/
theorem restart_one {s : State} (hr : s.pow.regOpen = true) (k : Nat) :
    HubOnly s (journaled (bothHubs (askRestart [k])) s) (s.modRing k (fun g => { g with restart := true })).hub :=
  host_hubOnly (if_pos hr)

theorem mem_restartMask {mask : BitVec 8} {k : Nat} :
    k ∈ onesOf 8 mask.toNat ++ (onesOf 8 mask.toNat).map (· + 8) ↔ k < 16 ∧ mask.getLsbD (k % 8) = true := by
  simp only [List.mem_append, List.mem_map, mem_onesOf, bitOf_eq_testBit, BitVec.testBit_toNat]
  constructor
  · rintro (⟨h, hb⟩ | ⟨j, ⟨h, hb⟩, rfl⟩)
    · exact ⟨by omega, by rwa [Nat.mod_eq_of_lt h]⟩
    · exact ⟨by omega, by rwa [Nat.add_mod_right, Nat.mod_eq_of_lt h]⟩
  · rintro ⟨h, hb⟩
    by_cases h8 : k < 8
    · exact .inl ⟨h8, by rwa [Nat.mod_eq_of_lt h8] at hb⟩
    · refine .inr ⟨k - 8, ⟨by omega, ?_⟩, by omega⟩
      rwa [show k % 8 = k - 8 by omega] at hb

theorem restartMask_nodup (v : Nat) : (onesOf 8 v ++ (onesOf 8 v).map (· + 8)).Nodup := by
  refine (onesOf_nodup 8 v).append ((onesOf_nodup 8 v).map fun _ _ h => by simpa using h) fun x hx hy => ?_
  obtain ⟨j, -, rfl⟩ := List.mem_map.1 hy
  have := (mem_onesOf.1 hx).1
  omega

/-- A ring that stops at a failed access, with its journal entry (R324). -/
theorem journaled_memError {f : State → State} {s u : State} {k : Nat} (hf : f s = u.memError k) :
    let t := journaled f s
    (t.ring k).stopped = true ∧ (t.ring k).memErr = true ∧ (t.ring k).ci = (u.ring k).ci ∧
      t.hub.rings.comps = u.hub.rings.comps ∧ t.hub.rings.taken = u.hub.rings.taken ∧
      t.events = u.events ++ [{ src := 194, cause := 2 }] ∧ t.out = u.out := by
  have hg := memError_ring u k
  obtain ⟨m, hm⟩ := memError_eq u k
  intro t
  unfold State.ring at hg ⊢
  rw [show t.hub = (u.memError k).hub by rw [← hf]; exact journaled_hub f s, show t.events = (u.memError k).events by
    rw [← hf]; exact journaled_events f s, show t.out = (u.memError k).out by rw [← hf]; exact journaled_out f s, hg, hm]
  exact ⟨rfl, rfl, rfl, rfl, rfl, rfl, rfl⟩

/-- Settles O6: a failed access ends in `memError`, a restart in `askRestart`. -/
theorem failedAccessesAndRestarts : Obligations.FailedAccessesAndRestarts := by
  unfold Obligations.FailedAccessesAndRestarts
  refine ⟨fun s hc => ⟨fun c rest hq hw hl => ⟨_, rfl, ?_⟩, fun heads k b hr hn => ⟨_, rfl, ?_⟩⟩,
    fun s hr => ⟨fun mask => ⟨_, rfl, ?_, fun k => ?_⟩, ⟨_, rfl, restart_one hr 16⟩, ⟨_, rfl, restart_one hr 17⟩⟩⟩
  · have hf : writeCompletion false s = s.memError (8 + c.ring) := by simp [writeCompletion, hc, hq, hw, hl]
    obtain ⟨h1, h2, -, h3, -, h4, h5⟩ := journaled_memError hf
    exact ⟨h1, h2, h3, h4, h5⟩
  · have hf : takeNext heads false s = (s.emit (.ringRead k (s.entryAddr k (s.ring k).ci.toNat))).memError k := by
      simp [takeNext, hc, hr, hn]
    obtain ⟨h1, h2, h3, -, h4, h5, h6⟩ := journaled_memError hf
    exact ⟨h1, h2, h3, h4, h5, h6⟩
  · have h := restart_hubOnly (onesOf 8 mask.toNat ++ (onesOf 8 mask.toNat).map (· + 8)) s
    have e : (journaled (bothHubs (askRestart (onesOf 8 mask.toNat ++ (onesOf 8 mask.toNat).map (· + 8)))) s).hub.rings.ring =
        (askRestart (onesOf 8 mask.toNat ++ (onesOf 8 mask.toNat).map (· + 8)) s).hub.rings.ring := by
      rw [journaled_hub]; rfl
    rwa [← e] at h
  · unfold State.ring
    rw [journaled_hub]
    have h := askRestart_ring hr (restartMask_nodup mask.toNat) k
    simp only [mem_restartMask] at h
    exact h

/-! ### Entries taken (R297, R298, R308) -/

theorem takeNext_entry {s : State} {heads : List (HostRead × HostRead)} {k : Nat} {e : List Byte} {body : HostRead}
    (hc : s.inControl = true) (hr : s.pow.regOpen = true) (hn : s.nextRing heads = some (k, some e, body)) (b : Bool) :
    takeNext heads b s = if b && entryCount e != 0 then s else admitEntry k e body s := by
  simp [takeNext, hc, hr, hn]

/-- The entry of ring `k` is read and taken (R291, R297). -/
def State.took (s : State) (k : Nat) (e : List Byte) (body : HostRead) : State :=
  ((s.emit (.ringRead k (s.entryAddr k (s.ring k).ci.toNat))).modRing k (fun g => { g with ci := g.ci + 1 })).modRings (fun g => { g with
    lastRing := k, order := g.order + 1
    taken := g.taken ++ [{ ring := k, index := (s.ring k).ci, opcode := entryOpcode e, flags := entryFlags e, count := entryCount e
                           tag := entryTag e, entry := e, body := body.getD [], order := g.order, since := s.period }] })

/-- As taken, with the security cores' gates open where the entry is theirs (R453). -/
def State.tookAwake (s : State) (k : Nat) (e : List Byte) (body : HostRead) : State :=
  if entryOpcode e = opStage ∨ entryOpcode e = opActivate then (s.took k e body).wakeGsec else s.took k e body

section
variable {s : State} {k : Nat} {e : List Byte} {body : HostRead}

theorem admitEntry_zero (hz : entryCount e = 0) :
    admitEntry k e body s = (s.took k e body).complete (k, s.hub.rings.order) codeOk 0 := if_pos hz

theorem admitEntry_failed (hz : entryCount e ≠ 0) {d : Nat} (hd : entryCheck e body = some d) :
    admitEntry k e body s = (s.tookAwake k e body).complete (k, s.hub.rings.order) codeBadArg d := by
  rw [admitEntry, if_neg hz, hd]
  rfl

theorem admitEntry_absent (hz : entryCount e ≠ 0) (hd : entryCheck e body = none) (ha : s.coreAbsent (entryOpcode e) = true) :
    admitEntry k e body s = (s.tookAwake k e body).complete (k, s.hub.rings.order) codeBadArg 0xB4 := by
  rw [admitEntry, if_neg hz, hd]
  exact if_pos ha

theorem admitEntry_checked (hz : entryCount e ≠ 0) (hd : entryCheck e body = none) (ha : s.coreAbsent (entryOpcode e) = false) :
    admitEntry k e body s =
      if entryOpcode e = opPolicySet ∧ byteAt e 8 ≠ policyTrim ∧ byteAt e 8 ≠ policyRestore then
        (s.tookAwake k e body).complete (k, s.hub.rings.order) codeBadArg 0x80
      else if entryOpcode e = opQuery ∧ (byteAt e 8 = 0 ∨ 3 < byteAt e 8) then
        ((s.tookAwake k e body).complete (k, s.hub.rings.order) codeBadArg
          (Config.freeValue s.fresh % 256)).nextFree
      else s.tookAwake k e body := by
  rw [admitEntry, if_neg hz, hd]
  exact if_neg (by simp [ha])

theorem tookAwake_other {op : Nat} (ho : entryOpcode e = op) (h : op ≠ opStage ∧ op ≠ opActivate) :
    s.tookAwake k e body = s.took k e body := if_neg (by rw [ho]; exact not_or.2 h)

end

/-- Settles O4: the branches of `admitEntry`, in the order of R298 and R308. -/
theorem entryIsTakenInOrder : Obligations.EntryIsTakenInOrder := by
  unfold Obligations.EntryIsTakenInOrder
  intro s heads k e body hc hr hn idx n addr t w
  have ht := takeNext_entry hc hr hn
  have taken : takeNext heads false s = admitEntry k e body s := ht false
  refine ⟨fun hz => ⟨next_journaled_congr (taken.trans (admitEntry_zero hz)), next_journaled_congr ?_⟩,
    fun hz => next_journaled_congr ?_, fun hz d hd => next_journaled_congr (taken.trans (admitEntry_failed hz hd)),
    fun hz hd ha => next_journaled_congr (taken.trans (admitEntry_absent hz hd ha)),
    fun hz hd ha => ⟨fun ho hb => next_journaled_congr (taken.trans ((admitEntry_checked hz hd ha).trans ?_)),
      fun ho hb => ⟨Config.freeValue s.fresh % 256, next_journaled_congr
        (taken.trans ((admitEntry_checked hz hd ha).trans ?_))⟩⟩,
    fun hz hd ha hp hq => next_journaled_congr (taken.trans ((admitEntry_checked hz hd ha).trans ?_))⟩
  · rw [ht, hz]
    exact admitEntry_zero hz
  · rw [ht]
    simp [hz]
  · rw [if_pos ⟨ho, by simp only [policyTrim, policyRestore]; omega⟩, tookAwake_other ho (by decide)]
    rfl
  · rw [if_neg (by simp [ho, opQuery, opPolicySet]), if_pos ⟨ho, by omega⟩, tookAwake_other ho (by decide)]
    rfl
  · rw [if_neg, if_neg]
    · rfl
    · rintro ⟨ho, hb⟩
      have := hq ho
      omega
    · rintro ⟨ho, h1, h2⟩
      have := hp ho
      simp only [policyTrim, policyRestore] at h1 h2
      omega

end Sys2Proof.Machine
end

