-- ==== Sys2Proof/Proofs/GrantDecisions.lean ====
section
/-!
SUPPORT. Admission of a grant request and the decision that its last ACCEPT brings (R241 to R247).
-/

namespace Sys2Proof.Machine

/-! ### Admission (R241, R242) -/

/-- A core that executes an entry is there (R299, R368). -/
theorem coreAbsent_of_executes {s : State} {op : Nat} {p : Taken → Bool} {t : Taken} (h : Executes s op p t) :
    s.coreAbsent op = false := by
  obtain ⟨-, -, hk⟩ := h
  unfold State.coreAbsent
  cases he : executor op with
  | none => rfl
  | some k => rcases hk k he with h | h | ⟨rfl, -⟩ <;> simp [*]

theorem ite_some_eq_none {α : Type} {c : Prop} [Decidable c] {a : α} {o : Option α} :
    (if c then some a else o) = none ↔ ¬c ∧ o = none := by
  split <;> simp_all

/-- The checks look for a free entry (R241, 0x24). -/
theorem freeEntry_of_admitCheck {s : State} {b : List Byte} {x : Body} {spans : List (Nat × List Nat)}
    (h : admitCheck s b x spans = none) : ∃ i, s.freeEntry = some i := by
  rw [← Option.isSome_iff_exists, ← Option.not_isNone, Bool.not_eq_true', ← Bool.not_eq_true]
  intro hn
  unfold admitCheck at h
  simp only [ite_some_eq_none, hn, not_true_eq_false, false_and, and_false] at h

/-- The regions and clusters that a request spans (R236, R237). -/
def State.requested (s : State) (t : Taken) : List (Nat × List Nat) :=
  if (bodyOf t.body).isGroup then s.groupSpans (bodyOf t.body).gid else rectSpans (bodyOf t.body).rects

/-- The reservations of a request by region: q and the clusters (R238). -/
def State.reservations (s : State) (t : Taken) : List (Nat × Nat × List Nat) :=
  (s.requested t).map (fun p => (p.1, s.clusterRes p.1 (bodyOf t.body).ops, p.2))

/-- The entry of a request admitted (R242, R261). -/
def State.admitted (s : State) (t : Taken) (i : Nat) : Grant :=
  let x := bodyOf t.body
  let full := s.reservations t
  { state := .reserving, gen := nextGen (s.grant i).gen, cycle := bitOf x.flags 0, phases := x.ops, tag := x.tag
    gid := if x.isGroup then x.gid else 0, limitUs := x.limit, duration := x.duration, durLeft := x.duration, spans := full
    sSum := (full.map (fun p => p.2.1 * p.2.2.length)).sum, nClus := (full.map (fun p => p.2.2.length)).sum
    order := s.hub.thyme.order, cmd := some t.cmd, timerOn := decide (x.limit ≠ 0) }

theorem takeRequest_of_some {s : State} {t : Taken} {code d : Nat}
    (h : admitCheck s t.body (bodyOf t.body) (s.requested t) = some (code, d)) : takeRequest t s = s.complete t.cmd code d := by
  unfold takeRequest
  dsimp only
  rw [State.requested] at h
  rw [h]

theorem takeRequest_of_none {s : State} {t : Taken} {i : Nat}
    (h : admitCheck s t.body (bodyOf t.body) (s.requested t) = none) (hf : s.freeEntry = some i) :
    takeRequest t s = if s.safeNow then s.rejectSafe t.cmd else
      (s.reservations t).foldl (fun a p => a.hubSend (.reserve p.1 i p.2.1 (p.2.1 * p.2.2.length) p.2.2 (bodyOf t.body).ops
        (bitOf (bodyOf t.body).flags 0))) (((s.begin t).modGrant i (fun _ => s.admitted t i)).modThyme
          (fun h => { h with order := h.order + 1 })) := by
  unfold takeRequest
  dsimp only
  rw [State.requested] at h
  rw [h, hf]
  rfl

/-- Settles O8: the branches of `takeRequest`, which the core that executes the entry reaches with fewer than 16 in hand. -/
theorem grantRequestReserves : Obligations.GrantRequestReserves := by
  unfold Obligations.GrantRequestReserves
  intro s t ht
  have hrun : runTaken opGrantRequest (fun _ => true) takeRequest s = takeRequest t s := runTaken_eq takeRequest ht
  refine ⟨fun hw => next_journaled_congr (if_pos ⟨coreAbsent_of_executes ht, hw⟩), fun hi hd => ?_⟩
  intro x spans full
  have htake : exec .grantRequest s = .next (journaled (fun _ => takeRequest t s) s) := by
    refine next_journaled_congr ((if_neg ?_).trans hrun)
    rintro ⟨-, h | h⟩
    · omega
    · simp [hd] at h
  rw [htake]
  refine ⟨fun i hc hf hs => next_journaled_congr ?_, fun code d hc => next_journaled_congr ?_, fun hc hs =>
    ⟨Config.freeValue s.fresh % 256, next_journaled_congr ?_⟩⟩
  · rw [takeRequest_of_none hc hf, if_neg (by simp [hs])]
    rfl
  · exact takeRequest_of_some hc
  · obtain ⟨i, hf⟩ := freeEntry_of_admitCheck hc
    rw [takeRequest_of_none hc hf, if_pos hs]
    rfl

/-! ### The decision (R244, R245, R247) -/

/-- The grant with its last ACCEPT in (R243). -/
def Grant.accepted (g : Grant) (r v : Nat) : Grant := { g with accepts := g.accepts.filter (fun p => p.1 != r) ++ [(r, v)] }

/-- The grant decided, with its promise `d` (R244). -/
def Grant.decide (g : Grant) (d target jn : Nat) : Grant :=
  { g with state := .decided, dUs := if g.limitUs = 0 then 0 else d, target := target, decidedJ := jn }

section
variable {s : State} {i r v : Nat}

theorem takeReserveReply_last (hr : (s.grant i).state = .reserving) (he : (s.grant i).ends = none) (ht : s.thymeDecides = true)
    (hk : r ∈ (s.grant i).regions) (ha : ∀ k ∈ (s.grant i).regions, k ≠ r → ∃ p ∈ (s.grant i).accepts, p.1 = k) :
    let g := (s.grant i).accepted r v
    takeReserveReply r i true v s =
      if g.limitUs ≠ 0 ∧ g.limitUs < s.promiseUs g then abandonRound i codeTiming 0x30 (s.modGrant i (fun g => g.accepted r v))
      else settleDecision i ((s.modGrant i (fun g => g.accepted r v)).modGrant i (fun x => x.decide (s.promiseUs g) (s.vTarget x) s.nextJn)) := by
  intro g
  let w := s.modGrant i (fun g => g.accepted r v)
  have hw : w.grant i = g := State.modGrant_grant_self ..
  have hall : (w.grant i).regions.all (fun k => (w.grant i).accepts.any (fun p => p.1 == k)) = true := by
    rw [hw, List.all_eq_true]
    intro k hkr
    rw [List.any_eq_true]
    by_cases hkr' : k = r
    · exact ⟨(r, v), by simp [g, Grant.accepted], by simp [hkr']⟩
    · obtain ⟨p, hp, rfl⟩ := ha k hkr hkr'
      exact ⟨p, by simp [g, Grant.accepted, hp, hkr'], by simp⟩
  have hstate : (w.grant i).state = .reserving := by rw [hw]; exact hr
  have hends : (w.grant i).ends = none := by rw [hw]; exact he
  have htake : takeReserveReply r i true v s = decideRound i w := by
    unfold takeReserveReply
    rw [if_neg (by simp [hr, hk])]
    rfl
  rw [htake, decideRound]
  simp only [hstate, hends, hall, show w.thymeDecides = true from ht, ne_eq, not_true_eq_false, Bool.true_eq_false, or_self, if_false,
    if_true]
  rw [hw]
  rfl

/-- Only the words tell which period has room (R245). -/
theorem wordPeriod_congr {t u : Thyme} (h : t.words = u.words) (n : BitVec 48) (release : Bool) :
    wordPeriod t n release = wordPeriod u n release := by
  unfold wordPeriod
  rw [h]

theorem putWord_words_congr {t u : Thyme} (h : t.words = u.words) (p : BitVec 48) (i : Nat) (release : Bool) :
    (t.putWord p i release).words = (u.putWord p i release).words := by
  unfold Thyme.putWord
  rw [h]

/-- A decision that is not mirrored yet stands and has neither word nor completion (R244, R390). -/
theorem settleDecision_waits (hp : s.pair.paired = true) (hj : s.pair.acked < (s.grant i).decidedJ) : settleDecision i s = s := by
  unfold settleDecision
  refine if_neg ?_
  rintro ⟨-, -, hl⟩
  simp only [State.mayLeave, hp, Bool.not_true, Bool.false_or, decide_eq_true_eq] at hl
  omega

/-- A decision while the pair is not PAIRED gets its commit word and its accepting completion at once (R245, R247). -/
theorem settleDecision_goes {cmd : CmdRef} (hp : s.pair.paired = false) (hd : (s.grant i).state = .decided)
    (hn : (s.grant i).decidedN = none) (hc : (s.grant i).cmd = some cmd) :
    let p := wordPeriod s.hub.thyme s.period false
    let t := settleDecision i s
    t.grant i = { s.grant i with decidedN := some s.period, commitP := p, cmd := none } ∧
      (∀ j, j ≠ i → t.grant j = s.grant j) ∧ t.hub.thyme.words = (s.hub.thyme.putWord p i false).words ∧
      t.hub.rings = (s.complete cmd codeOk 0 (acceptBytes i (s.grant i) p)).hub.rings := by
  intro p t
  let z := (s.modGrant i (fun g => { g with decidedN := some s.period, commitP := p, cmd := none })).modThyme (Thyme.putWord p i false)
  have ht : t = z.complete cmd codeOk 0 (acceptBytes i (s.grant i) p) := by
    unfold t settleDecision
    simp only [hd, hn, hc, State.mayLeave, hp, Bool.not_false, Bool.true_or, and_self, if_true]
    rfl
  have hthyme : t.hub.thyme = z.hub.thyme := by rw [ht, State.complete_thyme]
  have hgrant (j : Nat) : t.grant j = z.grant j := congrArg (fun x => x.table.get j) hthyme
  refine ⟨(hgrant i).trans (State.modGrant_grant_self ..), fun j hj => (hgrant j).trans (State.modGrant_grant_ne _ _ hj),
    by rw [hthyme]; rfl, ?_⟩
  rw [ht]
  exact complete_rings_congr (s := s) (t := z) rfl rfl ..

/-- The end of a round whose last ACCEPT missed the request's limit (R244). -/
theorem abandonRound_timing {cmd : CmdRef} (hc : (s.grant i).cmd = some cmd) :
    let t := abandonRound i codeTiming 0x30 s
    t.grant i = (s.grant i).freed ∧ (∀ j, j ≠ i → t.grant j = s.grant j) ∧
      t.hub.rings = (s.complete cmd codeTiming 0x30).hub.rings := by
  intro t
  obtain ⟨-, hthyme, hrings, -⟩ := abandonRound_ends hc codeTiming 0x30
  have hend (j : Nat) : t.grant j = (s.modGrant i Grant.freed).grant j := by
    unfold State.grant
    rw [hthyme, Thyme.abandoned_table]
    rfl
  exact ⟨(hend i).trans (State.modGrant_grant_self ..), fun j hj => (hend j).trans (State.modGrant_grant_ne _ _ hj), hrings⟩

end

/-- Settles O10: the last ACCEPT runs `decideRound`, and the decision is settled where nothing waits for the journal. -/
theorem grantDecided : Obligations.GrantDecided := by
  unfold Obligations.GrantDecided
  intro s r hdr i v cmd hh hr he ht hc hn hk hj ha g d
  let u := s.heard 0x04 hdr
  refine ⟨_, next_hubAccept (takeReserveReply r i true v) hh, ?_⟩
  have htake := takeReserveReply_last (s := u) (v := v) hr he ht hk ha
  let w := u.modGrant i (fun g => g.accepted r v)
  let y := w.modGrant i (fun x => x.decide d (u.vTarget x) u.nextJn)
  have hwi : w.grant i = g := State.modGrant_grant_self ..
  have hyi : y.grant i = g.decide d (u.vTarget g) s.nextJn := (State.modGrant_grant_self ..).trans (by rw [hwi]; rfl)
  have hwj (j : Nat) (h : j ≠ i) : w.grant j = s.grant j := State.modGrant_grant_ne _ _ h
  have hyj (j : Nat) (h : j ≠ i) : y.grant j = s.grant j := (State.modGrant_grant_ne _ _ h).trans (hwj j h)
  have hwc : (w.grant i).cmd = some cmd := by rw [hwi]; exact hc
  have hyc : (y.grant i).cmd = some cmd := by rw [hyi]; exact hc
  change takeReserveReply r i true v u =
    if g.limitUs ≠ 0 ∧ g.limitUs < d then abandonRound i codeTiming 0x30 w else settleDecision i y at htake
  simp only [journaled_grant, journaled_hub]
  rw [show s.heard 0x04 hdr = u from rfl]
  generalize takeReserveReply r i true v u = x at htake ⊢
  by_cases hl : g.limitUs ≠ 0 ∧ g.limitUs < d
  · rw [if_pos hl] at htake ⊢
    subst htake
    obtain ⟨hself, hother, hrings⟩ := abandonRound_timing hwc
    exact ⟨fun j hj => (hother j hj).trans (hwj j hj), hself.trans (by rw [hwi]),
      hrings.trans (complete_rings_congr (s := s) (t := w) rfl rfl ..)⟩
  · rw [if_neg hl] at htake ⊢
    subst htake
    by_cases hp : s.pair.paired = true
    · rw [if_pos hp, settleDecision_waits (s := y) hp (by rw [hyi]; exact Nat.lt_succ_of_le hj)]
      exact ⟨hyj, by rw [hyi]; rfl, by rw [hyi]; rfl, hyc, rfl, rfl⟩
    · rw [if_neg hp]
      obtain ⟨hself, hother, hwords, hrings⟩ :=
        settleDecision_goes (s := y) (Bool.eq_false_iff.2 hp) (by rw [hyi]; rfl) (by rw [hyi]; exact hn) hyc
      have hperiod : wordPeriod y.hub.thyme y.period false = wordPeriod s.hub.thyme s.period false :=
        wordPeriod_congr (t := y.hub.thyme) (u := s.hub.thyme) rfl s.period false
      rw [hperiod] at hself hwords hrings
      refine ⟨fun j hj => (hother j hj).trans (hyj j hj), ?_, ?_, ?_, hwords.trans (putWord_words_congr rfl ..), ?_⟩
      · rw [hself, hyi]; rfl
      · rw [hself, hyi]; rfl
      · rw [hself]
      · rw [hrings, hyi]
        exact complete_rings_congr (s := s) (t := y) rfl rfl ..

end Sys2Proof.Machine
end

