-- ==== Sys2Proof/Proofs/GrantDelivery.lean ====
section
/-!
SUPPORT. Delivery, missed promises, releases and removals of a grant (R248 to R260).
-/

namespace Sys2Proof.Machine

/-! ### Delivery (R248, R251, R260) -/

@[simp] theorem telemetry_thyme (s : State) (type region : Nat) (body : List Byte) (sub : Bool) :
    (s.telemetry type region body sub).hub.thyme = s.hub.thyme := by
  unfold State.telemetry
  split_ifs <;> rfl

@[simp] theorem telemetry_recorder (s : State) (type region : Nat) (body : List Byte) (sub : Bool) :
    (s.telemetry type region body sub).hub.recorder = s.hub.recorder := by
  unfold State.telemetry
  split_ifs <;> rfl

@[simp] theorem grantRecord_grant (i kind code cause : Nat) (s : State) (j : Nat) :
    (grantRecord i kind code cause s).grant j = s.grant j := by
  unfold State.grant
  exact congrArg (fun t : Thyme => t.table.get j) (telemetry_thyme ..)

/-- The body of a GRANT record (R312). -/
def recordBytes (i kind code cause : Nat) (g : Grant) : List Byte :=
  leBytes 4 (handleOf i g) ++ leBytes 4 g.tag ++ leBytes 1 kind ++ leBytes 1 code ++
    leBytes 1 cause ++ leBytes 1 (bitNat g.extended + 2 * bitNat (g.missed && kind == 0)) ++ leBytes 4 g.nClus ++
    leBytes 2 g.dUs

theorem grantRecord_eq (i kind code cause : Nat) (s : State) :
    grantRecord i kind code cause s = s.telemetry 0x10 0xFF (recordBytes i kind code cause (s.grant i)) := rfl

/-- A telemetry record changes the rings by the rings, the set-up, the period and the journal's number alone. -/
theorem telemetry_rings_congr {s t : State} (hr : t.hub.rings = s.hub.rings) (hs : t.setup = s.setup) (hn : t.period = s.period)
    (hj : t.pair.jn = s.pair.jn) (type region : Nat) (body : List Byte) (sub : Bool) :
    (t.telemetry type region body sub).hub.rings = (s.telemetry type region body sub).hub.rings := by
  have hz (k : Nat) : t.ringSize k = s.ringSize k := by unfold State.ringSize State.cfg; rw [hs]
  unfold State.telemetry
  rw [hz, hr]
  split_ifs
  · exact hr
  · exact congrArg (fun g : Rings => { g with lost := g.lost + 1, lossDue := g.lossDue + 1 }) hr
  · simp only [State.modRings_eq, State.modHub_hub, hr, hn, State.nextJn, hj]

theorem record_recorder_congr {s t : State} (h : t.hub.recorder = s.hub.recorder) (code level argx source : Nat) (arg : Word) :
    (t.record code level argx source arg).hub.recorder = (s.record code level argx source arg).hub.recorder := by
  unfold State.record State.modRecorder
  simp only [State.modHub_hub, h]

section
variable {s : State} {i r : Nat}

/-- The last IN_FORCE report delivers the grant (R248). -/
theorem takeInForce_last (hs : (s.grant i).state = .delivering ∨ (s.grant i).state = .decided) (hr : r ∈ (s.grant i).regions)
    (ha : ∀ k ∈ (s.grant i).regions, k ≠ r → k ∈ (s.grant i).reports) :
    ∃ l, takeInForce r i s =
      grantRecord i 0 codeOk 0 (s.modGrant i (fun g => { g with reports := l, state := .inForce, timerOn := false })) := by
  have hst : ¬((s.grant i).state ≠ .delivering ∧ (s.grant i).state ≠ .decided) := by
    rcases hs with h | h <;> simp [h]
  have hall : (s.grant i).regions.all (fun k => decide (k ∈
      if r ∈ (s.grant i).reports then (s.grant i).reports else (s.grant i).reports ++ [r])) = true := by
    rw [List.all_eq_true]
    intro k hk
    rw [decide_eq_true_eq]
    by_cases hkr : k = r
    · subst hkr; split
      · assumption
      · simp
    · split
      · exact ha k hk hkr
      · exact List.mem_append_left _ (ha k hk hkr)
  unfold takeInForce
  dsimp only
  rw [if_neg (by simp only [not_or]; exact ⟨hst, not_not.2 hr⟩), if_pos hall]
  exact ⟨_, rfl⟩

/-- What a missed promise changes (R260). -/
def missedGrant (i : Nat) (s : State) : State :=
  let t := grantRecord i 4 codeMiss 0 ((s.modGrant i (fun g => { g with missed := true, timerOn := false })).modThyme
    (fun x => { x with miss := x.miss + 1 }))
  (t.record 0x11 3 0 t.ownerNode (BitVec.ofNat 32 (handleOf i (s.grant i)))).raise 202 0

theorem timerExpiry_missed (ht : (s.grant i).timerOn = true) (hu : (s.grant i).suspended = [])
    (hs : (s.grant i).state = .decided ∨ (s.grant i).state = .delivering) : timerExpiry i s = missedGrant i s :=
  if_pos ⟨ht, hu, hs⟩

theorem missedGrant_thyme (i : Nat) (s : State) : (missedGrant i s).hub.thyme =
    ((s.modGrant i (fun g => { g with missed := true, timerOn := false })).modThyme (fun x => { x with miss := x.miss + 1 })).hub.thyme :=
  telemetry_thyme ..

theorem missedGrant_grant_self (i : Nat) (s : State) :
    (missedGrant i s).grant i = { s.grant i with missed := true, timerOn := false } := by
  unfold State.grant
  rw [missedGrant_thyme]
  exact State.modGrant_grant_self ..

theorem missedGrant_grant_ne (s : State) {j : Nat} (hj : j ≠ i) : (missedGrant i s).grant j = s.grant j := by
  unfold State.grant
  rw [missedGrant_thyme]
  exact State.modGrant_grant_ne s _ hj

theorem missedGrant_miss (i : Nat) (s : State) : (missedGrant i s).hub.thyme.miss = s.hub.thyme.miss + 1 := by
  rw [missedGrant_thyme]
  rfl

theorem missedGrant_raises (i : Nat) (s : State) : { src := 202, cause := 0 } ∈ (missedGrant i s).events :=
  List.mem_append_right _ (List.mem_singleton_self _)

theorem missedGrant_recorder (i : Nat) (s : State) : (missedGrant i s).hub.recorder =
    (s.record 0x11 3 0 s.ownerNode (BitVec.ofNat 32 (handleOf i (s.grant i)))).hub.recorder := by
  let t := grantRecord i 4 codeMiss 0 ((s.modGrant i (fun g => { g with missed := true, timerOn := false })).modThyme
    (fun x => { x with miss := x.miss + 1 }))
  have hn : t.ownerNode = s.ownerNode := by
    simp only [t, grantRecord_eq, State.ownerNode, State.owner, State.telemetry_hubA, State.telemetry_hubB]
    rfl
  change (t.record 0x11 3 0 t.ownerNode _).hub.recorder = _
  rw [hn]
  exact record_recorder_congr (telemetry_recorder ..) ..

/-- The first region's answer that the grant is in force there: the owner asks those that have not reported (R251). -/
theorem takeStateReply_applied (hs : (s.grant i).state = .decided ∨ (s.grant i).state = .delivering) :
    let u := s.answered (fun m => match m with | .stateQuery k j => k == r && j == i | _ => false)
    let t := u.modGrant i (fun g => { g with state := .delivering })
    takeStateReply r i true s = if (s.grant i).regions.head? = some r then
      ((s.grant i).regions.filter (fun k => k != r && !decide (k ∈ (s.grant i).reports))).foldl
        (fun a k => a.hubAsk (.stateQuery k i)) t else t := by
  have hst : ¬((s.grant i).state ≠ .decided ∧ (s.grant i).state ≠ .delivering) := by
    rcases hs with h | h <;> simp [h]
  exact if_neg hst

/-- A region's answer that the grant is not in force there: the first region's brings a new commit word (R251). -/
theorem takeStateReply_missing (hs : (s.grant i).state = .decided ∨ (s.grant i).state = .delivering) :
    let u := s.answered (fun m => match m with | .stateQuery k j => k == r && j == i | _ => false)
    let p := wordPeriod s.hub.thyme s.period false
    takeStateReply r i false s = if (s.grant i).regions.head? ≠ some r then u
      else if s.hub.thyme.words.any (fun w => !w.2.2 && decide (i ∈ w.2.1)) then u
      else (u.modGrant i (fun g => { g with state := .decided, commitP := p, decidedN := some s.period })).modThyme
        (Thyme.putWord p i false) := by
  have hst : ¬((s.grant i).state ≠ .decided ∧ (s.grant i).state ≠ .delivering) := by
    rcases hs with h | h <;> simp [h]
  exact if_neg hst

end

/-- Settles O11: the last report and the missed timer change one entry; a state reply takes a branch of R251. -/
theorem grantsAreDelivered : Obligations.GrantsAreDelivered := by
  unfold Obligations.GrantsAreDelivered
  refine ⟨fun s i => ⟨fun r hdr hh hs hr ha => ⟨_, next_hubAccept _ hh, ?_⟩, fun ht hsu hs => ⟨_, rfl, ?_⟩⟩, fun s r hdr i hh hs => ?_⟩
  · obtain ⟨l, hl⟩ := takeInForce_last (s := s.heard 0x05 hdr) hs hr ha
    simp only [journaled_grant, journaled_hub, hl, grantRecord_grant]
    refine ⟨?_, ?_, fun j hj => State.modGrant_grant_ne _ _ hj, ?_⟩
    · rw [State.modGrant_grant_self]
    · rw [State.modGrant_grant_self]
    · rw [grantRecord_eq, grantRecord_eq, State.modGrant_grant_self]
      exact telemetry_rings_congr (s := s) (t := (s.heard 0x05 hdr).modGrant i _) rfl rfl rfl rfl ..
  · have he := timerExpiry_missed ht hsu hs
    simp only [journaled_grant, journaled_hub, journaled_events, he]
    exact ⟨missedGrant_grant_self .., fun j hj => missedGrant_grant_ne s hj, missedGrant_miss .., missedGrant_raises ..,
      missedGrant_recorder ..⟩
  · intro u others
    refine ⟨fun hf => ?_, fun hf => ⟨?_, ?_⟩, fun hf hw => ?_⟩
    · exact (next_hubAccept _ hh).trans (next_journaled_congr ((takeStateReply_applied (s := s.heard 0x08 hdr) hs).trans (if_pos hf)))
    · exact (next_hubAccept _ hh).trans (next_journaled_congr ((takeStateReply_applied (s := s.heard 0x08 hdr) hs).trans (if_neg hf)))
    · exact (next_hubAccept _ hh).trans (next_journaled_congr ((takeStateReply_missing (s := s.heard 0x08 hdr) hs).trans (if_pos hf)))
    · refine (next_hubAccept _ hh).trans (next_journaled_congr ((takeStateReply_missing (s := s.heard 0x08 hdr) hs).trans ?_))
      refine (if_neg (not_not.2 hf)).trans (if_neg ?_)
      rw [List.any_eq_true]
      rintro ⟨w, hwm, hb⟩
      simp only [Bool.and_eq_true, Bool.not_eq_true', decide_eq_true_eq] at hb
      exact hw w hwm hb.1 hb.2

/-! ### Releases (R255, R256) -/

theorem mayLeave_next {s : State} (hj : s.pair.acked ≤ s.pair.jn) : s.mayLeave s.nextJn = !s.pair.paired := by
  unfold State.mayLeave State.nextJn
  rw [decide_eq_false (by omega), Bool.or_false]

section
variable {s : State} {i : Nat}

/-- A release that starts (R255, R256, R390). -/
theorem startRelease_eq (hj : s.pair.acked ≤ s.pair.jn) (cause : Nat) : startRelease i cause s =
    if s.pair.paired then s.modGrant i (fun g => { g with
      releasing := some [], relCause := cause, timerOn := false, relJ := some (s.pair.jn + 1) })
    else (s.modGrant i (fun g => { g with releasing := some [], relCause := cause, timerOn := false, relJ := none })).modThyme
      (Thyme.putWord (wordPeriod s.hub.thyme s.period true) i true) := by
  unfold startRelease
  rw [mayLeave_next hj]
  cases s.pair.paired <;> rfl

/-- What a release that starts changes of the table and the words. -/
theorem startRelease_thyme (hj : s.pair.acked ≤ s.pair.jn) (cause : Nat) :
    let t := startRelease i cause s
    t.grant i = { s.grant i with releasing := some [], relCause := cause, timerOn := false
                                 relJ := if s.pair.paired then some (s.pair.jn + 1) else none } ∧
      (∀ j, j ≠ i → t.grant j = s.grant j) ∧
      t.hub.thyme.words = if s.pair.paired then s.hub.thyme.words
        else (s.hub.thyme.putWord (wordPeriod s.hub.thyme s.period true) i true).words := by
  intro t
  have ht : t = _ := startRelease_eq hj cause
  cases hp : s.pair.paired
  · rw [hp] at ht
    rw [ht]
    exact ⟨State.modGrant_grant_self .., fun j h => State.modGrant_grant_ne s _ h, rfl⟩
  · rw [hp] at ht
    rw [ht]
    exact ⟨State.modGrant_grant_self .., fun j h => State.modGrant_grant_ne s _ h, rfl⟩

/-- A release of a decided grant of whose commit word no copy has gone (R255). -/
theorem releaseGrant_withdraws {t : Taken} (hi : leAt t.entry 8 4 % 65536 = i) (hg : (s.grant i).gen = leAt t.entry 8 4 / 65536)
    (hs : (s.grant i).state = .decided) (hw : (s.grant i).decidedN = none ∨ s.now + 2 < (s.grant i).commitP.toNat)
    (ho : s.owner.isSome = true) :
    let u := releaseGrant t s
    u.grant i = (s.grant i).freed ∧ (∀ j, j ≠ i → u.grant j = s.grant j) ∧ u.hub.thyme.words = (s.hub.thyme.withdraw s.now i).words ∧
      ∀ k ∈ (s.grant i).regions, Said u (.stagingRelease k i) := by
  intro u
  let v := grantRecord i 1 codeOk 1 s
  let w := (s.grant i).regions.foldl (fun a k => a.hubSend (.stagingRelease k i)) v
  let x := (w.modGrant i Grant.freed).modThyme (Thyme.withdraw s.now i)
  have hwd : (s.grant i).withdrawable s.now = true := by
    rcases hw with h | h <;> simp [Grant.withdrawable, hs, h]
  obtain ⟨y, hu, hy, hout, hpair⟩ : ∃ y : State, u = y.complete t.cmd codeOk 0 ∧ y.hub.thyme = x.hub.thyme ∧ y.out = x.out ∧
      y.pair = x.pair := by
    have hstate : ¬((s.grant i).gen ≠ leAt t.entry 8 4 / 65536 ∨ (s.grant i).state = .free ∨ (s.grant i).state = .reserving) := by
      simp [hg, hs]
    have hu : u = State.complete (match (s.grant i).cmd with
        | some c => x.complete c codeOk 0 (acceptBytes i (s.grant i) (s.grant i).commitP)
        | none => x) t.cmd codeOk 0 := by
      unfold u releaseGrant
      simp only [hi]
      exact (if_neg hstate).trans ((if_pos hwd).trans rfl)
    cases hc : (s.grant i).cmd with
    | none => exact ⟨x, by rw [hu, hc], rfl, rfl, rfl⟩
    | some c =>
      exact ⟨x.complete c codeOk 0 (acceptBytes i (s.grant i) (s.grant i).commitP), by rw [hu, hc], State.complete_thyme ..,
        State.complete_out .., State.complete_pair ..⟩
  have hwt : w.hub.thyme = s.hub.thyme := by
    rw [(OnlyMessages.foldl (fun a k => hubSend_onlyMessages a (.stagingRelease k i)) (s.grant i).regions v).hub]
    exact telemetry_thyme ..
  have hut : u.hub.thyme = ((s.modGrant i Grant.freed).hub.thyme).withdraw s.now i := by
    rw [hu, State.complete_thyme, hy]
    simp only [x, State.modThyme_eq, State.modGrant, State.modHub_hub, hwt]
  have hgrant (j : Nat) : u.grant j = (s.modGrant i Grant.freed).grant j := by
    unfold State.grant
    rw [hut]
    rfl
  have hvo : v.owner.isSome = true := by
    have : v.owner = s.owner := by simp only [v, grantRecord_eq, State.owner, State.telemetry_hubA, State.telemetry_hubB]
    rwa [this]
  refine ⟨(hgrant i).trans (State.modGrant_grant_self ..), fun j hj => (hgrant j).trans (State.modGrant_grant_ne s _ hj), ?_,
    fun k hk => ?_⟩
  · rw [hut]
    rfl
  · refine (foldl_hubSend_said (fun k => .stagingRelease k i) _ hvo k hk).of_eq ?_ ?_
    · rw [hu, State.complete_out, hout]
      rfl
    · rw [hu, State.complete_pair, hpair]
      rfl

/-- A release of a grant in delivery, in force, or decided with a copy of its word gone: it starts (R255). -/
theorem releaseGrant_starts {t : Taken} (hi : leAt t.entry 8 4 % 65536 = i) (hg : (s.grant i).gen = leAt t.entry 8 4 / 65536)
    (hs : (s.grant i).state = .delivering ∨ (s.grant i).state = .inForce ∨
      ((s.grant i).state = .decided ∧ (s.grant i).decidedN.isSome = true ∧ (s.grant i).commitP.toNat ≤ s.now + 2))
    (hr : (s.grant i).releasing = none) :
    releaseGrant t s = startRelease i 1 ((s.begin t).modGrant i (fun g => { g with relCmds := g.relCmds ++ [t.cmd] })) := by
  have hstate : ¬((s.grant i).gen ≠ leAt t.entry 8 4 / 65536 ∨ (s.grant i).state = .free ∨ (s.grant i).state = .reserving) := by
    rcases hs with h | h | ⟨h, -⟩ <;> simp [hg, h]
  have hwd : (s.grant i).withdrawable s.now = false := by
    rcases hs with h | h | ⟨h, hn, hp⟩
    · simp [Grant.withdrawable, h]
    · simp [Grant.withdrawable, h]
    · obtain ⟨n, hn⟩ := Option.isSome_iff_exists.1 hn
      simp [Grant.withdrawable, h, hn, hp]
  unfold releaseGrant
  simp only [hi, hwd, hr]
  rw [if_neg hstate]
  rfl

/-- A release of no grant, or of one not yet decided (R255). -/
theorem releaseGrant_unknown {t : Taken} (h : (s.grant (leAt t.entry 8 4 % 65536)).gen ≠ leAt t.entry 8 4 / 65536 ∨
    (s.grant (leAt t.entry 8 4 % 65536)).state = .free ∨ (s.grant (leAt t.entry 8 4 % 65536)).state = .reserving) :
    releaseGrant t s = s.complete t.cmd codeBadArg 0x0B := if_pos h

/-- The last removal report frees the entry and completes its releases (R255). -/
theorem takeRemoval_last {r : Nat} {l : List Nat} (hl : (s.grant i).releasing = some l) (hs : (s.grant i).state ≠ .free)
    (hr : r ∈ (s.grant i).regions) (ha : ∀ k ∈ (s.grant i).regions, k ≠ r → k ∈ l) :
    takeRemoval r i s = (s.grant i).relCmds.foldl (fun a c => a.complete c codeOk 0)
      ((grantRecord i 1 codeOk (s.grant i).relCause s).modGrant i Grant.freed) := by
  have hall : (s.grant i).regions.all (fun k => decide (k ∈ if r ∈ l then l else l ++ [r])) = true := by
    rw [List.all_eq_true]
    intro k hk
    rw [decide_eq_true_eq]
    by_cases hkr : k = r
    · subst hkr; split
      · assumption
      · simp
    · split
      · exact ha k hk hkr
      · exact List.mem_append_left _ (ha k hk hkr)
  unfold takeRemoval
  simp only [hl]
  rw [if_neg (by simp [hs, hr]), if_pos hall]

end

/-- Settles O12: the branches of a release, an end and a removal. -/
theorem grantReleased : Obligations.GrantReleased := by
  unfold Obligations.GrantReleased
  intro s
  refine ⟨fun t ht => ?_, fun t ht => ?_, fun t ht => ?_, fun i hc hs hd hr hj => next_journaled_congr ?_,
    fun r hdr i l hh hl hs hr ha => (next_hubAccept _ hh).trans (next_journaled_congr ?_)⟩
  · intro h i hg hs hr hj
    refine ⟨_, next_journaled_congr (g := releaseGrant t) (runTaken_eq releaseGrant ht), ?_⟩
    have hrel := releaseGrant_starts (t := t) rfl hg hs hr
    let v := (s.begin t).modGrant i (fun g => { g with relCmds := g.relCmds ++ [t.cmd] })
    have hv : v.grant i = { s.grant i with relCmds := (s.grant i).relCmds ++ [t.cmd] } := State.modGrant_grant_self ..
    obtain ⟨hself, hother, hwords⟩ := startRelease_thyme (s := v) (i := i) hj 1
    simp only [journaled_grant, journaled_hub, hrel]
    refine ⟨hself.trans (by rw [hv]; rfl), fun j hj => (hother j hj).trans (State.modGrant_grant_ne _ _ hj), hwords.trans ?_⟩
    rw [wordPeriod_congr (t := v.hub.thyme) (u := s.hub.thyme) rfl, putWord_words_congr (t := v.hub.thyme) (u := s.hub.thyme) rfl]
    rfl
  · intro h hs
    exact next_journaled_congr ((runTaken_eq releaseGrant ht).trans (releaseGrant_unknown hs))
  · intro i hg hs hw
    refine ⟨_, next_journaled_congr (g := releaseGrant t) (runTaken_eq releaseGrant ht), ?_⟩
    obtain ⟨hc, -⟩ := ht
    obtain ⟨hself, hother, hwords, hsaid⟩ := releaseGrant_withdraws (t := t) rfl hg hs hw (owner_of_inControl hc)
    simp only [journaled_grant, journaled_hub]
    exact ⟨hself, hother, hwords, fun k hk => (hsaid k hk).journaled (f := releaseGrant t) (s := s)⟩
  · exact (if_pos ⟨hc, hs, hd, hr⟩).trans (startRelease_eq hj 2)
  · exact takeRemoval_last (s := s.heard 0x06 hdr) hl hs hr ha

end Sys2Proof.Machine
end

