-- ==== Sys2Proof/Proofs/GroupTables.lean ====
section
/-!
SUPPORT. Group definitions and undefinitions (R268 to R271, R284).
-/

namespace Sys2Proof.Machine

/-! ### A group defined (R268 to R270) -/

/-- Settles O16: the two branches of `defineGroup`. -/
theorem groupDefineRequestsSlots : Obligations.GroupDefineRequestsSlots := by
  unfold Obligations.GroupDefineRequestsSlots
  intro s t ht spans gid
  have hrun := runTaken_eq defineGroup ht
  refine ⟨fun hc => next_journaled_congr (hrun.trans ?_), fun code d hc => next_journaled_congr (hrun.trans ?_)⟩
  · unfold defineGroup
    dsimp only
    rw [hc]
  · unfold defineGroup
    dsimp only
    rw [hc]

/-! ### How a definition ends (R270, R284) -/

theorem find_map_modDef (l : List (Nat × Group)) (gid : Nat) (f : Group → Group) :
    ((l.map (fun p => if p.1 = gid then (gid, f p.2) else p)).find? (fun p => p.1 == gid)).map Prod.snd =
      ((l.find? (fun p => p.1 == gid)).map Prod.snd).map f := by
  induction l with
  | nil => rfl
  | cons p rest ih =>
    by_cases h : p.1 = gid
    · simp [h]
    · simpa [h] using ih

@[simp] theorem modDef_def_self (s : State) (gid : Nat) (f : Group → Group) : (s.modDef gid f).def? gid = (s.def? gid).map f :=
  find_map_modDef ..

theorem find_filter_ne {α : Type} (l : List (Nat × α)) {j k : Nat} (h : j ≠ k) :
    (l.filter (fun p => p.1 != k)).find? (fun p => p.1 == j) = l.find? (fun p => p.1 == j) := by
  rw [List.find?_filter]
  congr 1
  funext p
  by_cases hp : p.1 = j
  · simp [hp, h]
  · simp [hp]

theorem find_filter_self {α : Type} (l : List (Nat × α)) (k : Nat) :
    (l.filter (fun p => p.1 != k)).find? (fun p => p.1 == k) = none := by
  rw [List.find?_eq_none]
  intro p hp
  have := (List.mem_filter.1 hp).2
  simpa using this

/-- A change that settles may be made again. -/
theorem SMap.get_modifyAll_const {α : Type} [DecidableEq α] (f : α → α) (hf : ∀ x, f (f x) = f x) (ks : List Nat) (m : SMap α) (j : Nat) :
    (m.modifyAll ks (fun _ => f)).get j = if j ∈ ks then f (m.get j) else m.get j := by
  unfold SMap.modifyAll
  induction ks generalizing m with
  | nil => rfl
  | cons k rest ih =>
    rw [List.foldl_cons, ih, SMap.get_modify]
    by_cases hk : j = k
    · subst hk
      simp [hf]
    · simp [hk]

/-- The slot of a group is written into its members alone (R270). -/
theorem writeSlot_clusters {g : Region} {gid : Nat} {x : GSlot} (h : g.slot gid = some x) (c : Nat) :
    (g.writeSlot gid).clusters.get c = if c ∈ x.members then
      { g.clusters.get c with ctl := { (g.clusters.get c).ctl with group := some gid } } else g.clusters.get c := by
  unfold Region.writeSlot
  rw [h]
  exact SMap.get_modifyAll_const (fun u : Cluster => { u with ctl := { u.ctl with group := some gid } }) (fun _ => rfl) ..

/-- A change made once in each region of a list. -/
theorem foldl_modRegion_region (f : Region → Region) {l : List Nat} (hl : l.Nodup) (s : State) (k : Nat) :
    (l.foldl (fun a r => a.modRegion r f) s).region k = if k ∈ l then f (s.region k) else s.region k := by
  induction l generalizing s with
  | nil => rfl
  | cons r rest ih =>
    rw [List.nodup_cons] at hl
    rw [List.foldl_cons, ih hl.2]
    by_cases hk : k = r
    · subst hk
      simp [hl.1]
    · simp [hk]

/-- A change made in regions leaves everything else. -/
theorem foldl_modRegion_eq (f : Region → Region) (l : List Nat) (s : State) :
    l.foldl (fun a r => a.modRegion r f) s = { s with regions := (l.foldl (fun a r => a.modRegion r f) s).regions } :=
  List.foldlRecOn (motive := fun t : State => t = { s with regions := t.regions }) l _ rfl fun _ h _ _ => by rw [h]; rfl

section
variable {s : State} {gid : Nat} {g : Group} {cmd : CmdRef}

/-- The definition with its last ACCEPT in (R270 step 4). -/
theorem settleDefinition_defines (hg : s.def? gid = some g) (hd : g.defined = false) (hr : g.refused = false) (ha : g.awaiting = [])
    (hc : g.cmd = some cmd) (ht : s.thymeDecides = true) :
    let u := g.regions.foldl (fun a r => a.modRegion r (Region.writeSlot gid))
      (s.modDef gid (fun g => { g with defined := true, cmd := none }))
    settleDefinition gid s = State.complete { u with homes := u.homes.filter (fun p => p.1 != gid) ++ [(gid, {})] } cmd codeOk 0 := by
  unfold settleDefinition
  simp only [hg, hd, hr, ha, hc, ht, Bool.false_eq_true, Bool.true_eq_false, or_self, if_false, ne_eq, not_true_eq_false]

/-- The definition that a governor has refused (R270 step 3). -/
theorem settleDefinition_refused (hg : s.def? gid = some g) (hd : g.defined = false) (hr : g.refused = true)
    (hc : g.cmd = some cmd) (ht : s.thymeDecides = true) :
    settleDefinition gid s = ((g.regions.foldl (fun a k => a.hubSend (.slotRelease k gid)) s).modGroups
      (fun x => { x with defs := x.defs.filter (fun p => p.1 != gid) })).complete cmd codeBudget 0x26 := by
  unfold settleDefinition
  simp only [hg, hd, hr, hc, ht, Bool.false_eq_true, Bool.true_eq_false, or_self, if_false, if_true]

/-- A reply of a region that the definition awaits is noted before the definition is settled (R270). -/
theorem takeSlotReply_awaited {r : Nat} (hg : s.def? gid = some g) (hr : r ∈ g.awaiting) (accept : Bool) :
    ∃ u, OnlyMessages s u ∧ takeSlotReply r gid accept s = settleDefinition gid (u.modDef gid (fun g => { g with
      awaiting := g.awaiting.filter (fun k => k != r), refused := g.refused || !accept })) := by
  refine ⟨s.answered (fun m => match m with | .slotRequest k j => k == r && j == gid | _ => false), rfl, ?_⟩
  unfold takeSlotReply
  have hg' (p) : (s.answered p).def? gid = some g := hg
  simp only [hg']
  exact (if_neg (not_not.2 hr)).trans rfl

end

@[simp] theorem modDef_thymeDecides (s : State) (gid : Nat) (f : Group → Group) :
    (s.modDef gid f).thymeDecides = s.thymeDecides := rfl

@[simp] theorem State.complete_groups (s : State) (cmd : CmdRef) (code detail : Nat) (result : List Byte) :
    (s.complete cmd code detail result).hub.groups = s.hub.groups := by
  unfold State.complete
  split <;> rfl

theorem complete_def (s : State) (cmd : CmdRef) (code detail : Nat) (result : List Byte) (gid : Nat) :
    (s.complete cmd code detail result).def? gid = s.def? gid := by
  unfold State.def?
  rw [State.complete_groups]

theorem journaled_def (f : State → State) (s : State) (gid : Nat) : (journaled f s).def? gid = (f s).def? gid := by
  unfold State.def?
  rw [journaled_hub]

theorem home_of_new {s : State} {l : List (Nat × Home)} {gid : Nat} {h : Home}
    (e : s.homes = l.filter (fun p => p.1 != gid) ++ [(gid, h)]) : s.home gid = h := by
  unfold State.home
  rw [e, List.find?_append, find_filter_self]
  simp

/-- The definition ends with its last ACCEPT (R270, R284). -/
theorem groupDefined {s u : State} {r gid : Nat} {g : Group} {cmd : CmdRef} (hm : OnlyMessages s u) (hg : s.def? gid = some g)
    (hd : g.defined = false) (hf : g.refused = false) (hc : g.cmd = some cmd) (ht : s.thymeDecides = true)
    (ha : ∀ k ∈ g.awaiting, k = r) (hn : g.regions.Nodup) :
    let t := settleDefinition gid (u.modDef gid (fun g => { g with
      awaiting := g.awaiting.filter (fun k => k != r), refused := g.refused || !true }))
    t.def? gid = some { g with awaiting := [], defined := true, cmd := none } ∧ t.home gid = {} ∧
      t.hub.rings = (s.complete cmd codeOk 0).hub.rings ∧ t.govs = s.govs ∧
      ∀ k, t.region k = if k ∈ g.regions then (s.region k).writeSlot gid else s.region k := by
  intro t
  let v := u.modDef gid (fun g => { g with awaiting := g.awaiting.filter (fun k => k != r), refused := g.refused || !true })
  let g' : Group := { g with awaiting := [], refused := false }
  have hempty : g.awaiting.filter (fun k => k != r) = [] := by
    rw [List.filter_eq_nil_iff]
    intro k hk
    simp [ha k hk]
  have hud : u.def? gid = some g := by unfold State.def? at hg ⊢; rwa [hm.hub]
  have hv : v.def? gid = some g' := by
    rw [modDef_def_self, hud]
    simp [g', hempty, hf]
  have hvt : v.thymeDecides = true := by
    change u.thymeDecides = true
    rw [hm]; exact ht
  have hset : t = _ := settleDefinition_defines hv hd rfl rfl hc hvt
  rw [foldl_modRegion_eq] at hset
  have hregion (k : Nat) : t.region k = if k ∈ g.regions then (s.region k).writeSlot gid else s.region k := by
    have hr : t.regions = (g.regions.foldl (fun a r => a.modRegion r (Region.writeSlot gid))
        (v.modDef gid (fun g => { g with defined := true, cmd := none }))).regions := by
      rw [hset]
      exact State.complete_regions ..
    have hs : (v.modDef gid (fun g => { g with defined := true, cmd := none })).region k = s.region k :=
      congrArg (SMap.get · k) hm.regions
    rw [← hs, ← foldl_modRegion_region (Region.writeSlot gid) hn]
    exact congrArg (SMap.get · k) hr
  refine ⟨?_, ?_, ?_, ?_, hregion⟩
  · rw [hset, complete_def]
    change ((v.modDef gid (fun g => { g with defined := true, cmd := none })).def? gid) = _
    rw [modDef_def_self, hv]
    simp [g', hf]
  · rw [hset]
    exact home_of_new (State.complete_homes ..)
  · rw [hset]
    exact complete_rings_congr (by change u.hub.rings = _; rw [hm.hub]) (by change u.pair.jn = _; rw [hm]) ..
  · rw [hset, State.complete_govs, ← hm.govs]
    rfl

/-- The definition ends with a refusal (R270, R284). -/
theorem groupRefused {s u : State} {r gid : Nat} {g : Group} {cmd : CmdRef} (hm : OnlyMessages s u) (hg : s.def? gid = some g)
    (hd : g.defined = false) (hc : g.cmd = some cmd) (ht : s.thymeDecides = true) (ho : s.owner.isSome = true) :
    let t := settleDefinition gid (u.modDef gid (fun g => { g with
      awaiting := g.awaiting.filter (fun k => k != r), refused := g.refused || !false }))
    t.def? gid = none ∧ (∀ k ∈ g.regions, Said t (.slotRelease k gid)) ∧
      t.hub.rings = (s.complete cmd codeBudget 0x26).hub.rings ∧ t.regions = s.regions ∧ t.govs = s.govs := by
  intro t
  let v := u.modDef gid (fun g => { g with awaiting := g.awaiting.filter (fun k => k != r), refused := g.refused || !false })
  have hud : u.def? gid = some g := by unfold State.def? at hg ⊢; rwa [hm.hub]
  have hv : v.def? gid = some { g with awaiting := g.awaiting.filter (fun k => k != r), refused := g.refused || !false } := by
    rw [modDef_def_self, hud]
    rfl
  have hvt : v.thymeDecides = true := by
    change u.thymeDecides = true
    rw [hm]; exact ht
  have hvo : v.owner.isSome = true := by
    change u.owner.isSome = true
    rwa [hm.owner]
  have hset : t = _ := settleDefinition_refused hv hd (by simp) hc hvt
  have hw := OnlyMessages.foldl (fun a k => hubSend_onlyMessages a (.slotRelease k gid)) g.regions v
  have hrings : (g.regions.foldl (fun a k => a.hubSend (.slotRelease k gid)) v).hub.rings = s.hub.rings := by
    rw [hw.hub]
    change u.hub.rings = s.hub.rings
    rw [hm.hub]
  have hjn : (g.regions.foldl (fun a k => a.hubSend (.slotRelease k gid)) v).pair.jn = s.pair.jn := by
    rw [hw]
    change u.pair.jn = _
    rw [hm]
  rw [hset]
  refine ⟨?_, fun k hk => ?_, ?_, ?_, ?_⟩
  · rw [complete_def]
    exact congrArg (Option.map Prod.snd) (find_filter_self ..)
  · exact (foldl_hubSend_said (fun k => .slotRelease k gid) _ hvo k hk).of_eq (State.complete_out ..) (by rw [State.complete_pair]; rfl)
  · refine complete_rings_congr ?_ ?_ ..
    · exact hrings
    · exact hjn
  · rw [State.complete_regions]
    exact hw.regions.trans hm.regions
  · rw [State.complete_govs]
    exact hw.govs.trans hm.govs

/-! ### Undefinition (R271) -/

/-- Entries completed one after the other. -/
theorem foldl_complete_eq (l : List CmdRef) (code detail : Nat) (s : State) :
    ∃ x, l.foldl (fun a c => a.complete c code detail) s = s.modRings (fun _ => x) := by
  refine List.foldlRecOn (motive := fun t : State => ∃ x, t = s.modRings (fun _ => x)) l _ ⟨s.hub.rings, rfl⟩ ?_
  rintro _ ⟨x, rfl⟩ c -
  unfold State.complete
  split
  · exact ⟨x, rfl⟩
  · exact ⟨_, rfl⟩

theorem undefineGroup_named {s : State} {t : Taken} (hl : 1 ≤ leAt t.body 0 2) (hu : leAt t.body 0 2 ≤ 1023)
    (hb : bodySpans t.body = []) : undefineGroup t s =
      match s.group (leAt t.body 0 2) with
      | none => s.complete t.cmd codeBadArg 0x19
      | some g =>
        if s.grantOn (leAt t.body 0 2) then s.complete t.cmd codeBadArg 0x18
        else
          let u := (g.regions.foldl (fun a r => a.hubSend (.slotRelease r (leAt t.body 0 2))) s).modGroups
            (fun x => { x with defs := x.defs.filter (fun p => p.1 != leAt t.body 0 2) })
          let u := ((s.home (leAt t.body 0 2)).armRelays ++ (s.home (leAt t.body 0 2)).relays).foldl
            (fun a c => a.complete c codeOk 0) u
          State.complete { u with homes := u.homes.filter (fun p => p.1 != leAt t.body 0 2) } t.cmd codeOk 0 := by
  unfold undefineGroup
  dsimp only
  exact (if_neg (by omega)).trans ((if_neg (not_not.2 hb)).trans rfl)

/-- What an undefinition leaves (R271). -/
theorem groupUndefined {s : State} {t : Taken} {g : Group} (hl : 1 ≤ leAt t.body 0 2) (hu : leAt t.body 0 2 ≤ 1023)
    (hb : bodySpans t.body = []) (hg : s.group (leAt t.body 0 2) = some g) (hn : s.grantOn (leAt t.body 0 2) = false)
    (ho : s.owner.isSome = true) :
    let gid := leAt t.body 0 2
    let u := undefineGroup t s
    u.group gid = none ∧ (∀ k, k ≠ gid → u.group k = s.group k) ∧ (∀ k ∈ g.regions, Said u (.slotRelease k gid)) ∧
      u.regions = s.regions ∧ u.govs = s.govs ∧
      ((s.home gid).relays = [] → (s.home gid).armRelays = [] → u.hub.rings = (s.complete t.cmd codeOk 0).hub.rings) := by
  intro gid u
  have he := undefineGroup_named (s := s) hl hu hb
  rw [hg] at he
  dsimp only at he
  rw [hn] at he
  obtain ⟨x, hx⟩ := foldl_complete_eq ((s.home gid).armRelays ++ (s.home gid).relays) codeOk 0
    ((g.regions.foldl (fun a r => a.hubSend (.slotRelease r gid)) s).modGroups
      (fun x => { x with defs := x.defs.filter (fun p => p.1 != gid) }))
  have hw := OnlyMessages.foldl (fun a k => hubSend_onlyMessages a (.slotRelease k gid)) g.regions s
  have hdefs : u.hub.groups.defs = s.hub.groups.defs.filter (fun p => p.1 != gid) := by
    rw [show u = _ from he, if_neg Bool.false_ne_true, State.complete_groups]
    dsimp only
    rw [hx]
    change (g.regions.foldl (fun a r => a.hubSend (.slotRelease r gid)) s).hub.groups.defs.filter _ = _
    rw [hw.hub]
  refine ⟨?_, fun k hk => ?_, fun k hk => ?_, ?_, ?_, fun hr ha => ?_⟩
  · unfold State.group
    rw [hdefs, find_filter_self]
  · unfold State.group
    rw [hdefs, find_filter_ne _ hk]
  all_goals rw [show u = _ from he, if_neg Bool.false_ne_true]
  · refine (foldl_hubSend_said (fun k => .slotRelease k gid) g.regions ho k hk).of_eq ?_ ?_
    · rw [State.complete_out]
      dsimp only
      rw [hx]; rfl
    · rw [State.complete_pair]
      dsimp only
      rw [hx]; rfl
  · rw [State.complete_regions]
    dsimp only
    rw [hx]
    exact hw.regions
  · rw [State.complete_govs]
    dsimp only
    rw [hx]
    exact hw.govs
  · rw [hr, ha]
    refine complete_rings_congr ?_ ?_ ..
    · dsimp only [List.nil_append, List.foldl_nil]
      change (g.regions.foldl (fun a r => a.hubSend (.slotRelease r gid)) s).hub.rings = _
      rw [hw.hub]
    · dsimp only [List.nil_append, List.foldl_nil]
      change (g.regions.foldl (fun a r => a.hubSend (.slotRelease r gid)) s).pair.jn = _
      rw [hw]

/-- Settles O17: the last reply settles the definition, an undefinition takes its last branch. -/
theorem groupDefinitionsEnd : Obligations.GroupDefinitionsEnd := by
  unfold Obligations.GroupDefinitionsEnd
  refine ⟨fun s r hdr gid g cmd hh hg hd hf hc ht hr => ?_, ?_⟩
  · have htake (accept : Bool) := takeSlotReply_awaited (s := s.heard 0x11 hdr) hg hr accept
    refine ⟨fun ha hn => ⟨_, next_hubAccept _ hh, ?_⟩, ⟨_, next_hubAccept _ hh, ?_⟩⟩
    · obtain ⟨u, hm, hu⟩ := htake true
      obtain ⟨h1, h2, h3, h4, h5⟩ := groupDefined ((heard_onlyMessages s 0x11 hdr).trans hm) hg hd hf hc ht ha hn
      rw [← hu] at h1 h2 h3 h4 h5
      rw [journaled_def, State.home, journaled_homes, journaled_hub, journaled_govs]
      refine ⟨h1, h2, h3, h4, fun k hk => ?_, fun k hk x hx c => ?_⟩
      · rw [journaled_region, h5, if_neg hk]
      · rw [journaled_region, h5, if_pos hk, writeSlot_clusters hx]
    · obtain ⟨u, hm, hu⟩ := htake false
      obtain ⟨h1, h2, h3, h4, h5⟩ := groupRefused ((heard_onlyMessages s 0x11 hdr).trans hm) hg hd hc ht hh.1
      rw [← hu] at h1 h2 h3 h4 h5
      rw [journaled_def, journaled_hub, journaled_govs, journaled_regions]
      exact ⟨h1, fun k hk => (h2 k hk).journaled, h3, h4, h5⟩
  · intro s t ht gid hl hu hb
    have hrun := runTaken_eq undefineGroup ht
    have he := undefineGroup_named (s := s) hl hu hb
    refine ⟨fun g hg hn => ⟨_, next_journaled_congr hrun, ?_⟩, fun g hg hn => ?_, fun hg => ?_⟩
    · obtain ⟨h1, h2, h3, h4, h5, h6⟩ := groupUndefined hl hu hb hg hn (owner_of_inControl ht.1)
      have hgroup (k) : (journaled (undefineGroup t) s).group k = (undefineGroup t s).group k := by
        unfold State.group; rw [journaled_hub]
      rw [hgroup, journaled_regions, journaled_govs, journaled_hub]
      exact ⟨h1, fun k hk => (hgroup k).trans (h2 k hk), fun k hk => (h3 k hk).journaled, h4, h5, h6⟩
    · refine next_journaled_congr (hrun.trans ?_)
      rw [he, hg]
      exact if_pos hn
    · refine next_journaled_congr (hrun.trans ?_)
      rw [he, hg]

end Sys2Proof.Machine
end

