-- ==== Sys2Proof/Proofs/GovernorGrants.lean ====
section
/-!
SUPPORT. A governor's part of a grant, words of the commit tree, phase markers (R229, R242 to R255).
-/

namespace Sys2Proof.Machine

/-! ### A governor's part of the reserve-and-commit round (R242, R243) -/

theorem canStage_iff (s : State) (r total : Nat) : canStage s r total = true ↔
    (s.region r).resTotal + total ≤ (s.region r).caps.iReg ∧ (s.region r).resTotal + total ≤ (s.region r).ph.rating ∧
      (s.region r).therm.latch = false ∧ (s.region r).caps.ecap = false ∧ (s.region r).ph.unsettled = false := by
  unfold canStage
  simp only [Bool.and_eq_true, decide_eq_true_eq, Bool.not_eq_true', and_assoc]

theorem takeReserve_staged {s : State} {r : Nat} {m : ReserveMsg} (h : canStage s r m.total = true) :
    takeReserve r m s = (s.modRegion r (stageGrant m)).send (.reserveReply r m.index true (s.vFrom r)) := by
  unfold takeReserve
  exact if_pos h

theorem takeReserve_refused {s : State} {r : Nat} {m : ReserveMsg} (h : canStage s r m.total = false) :
    takeReserve r m s = s.send (.reserveReply r m.index false (s.vFrom r)) := by
  unfold takeReserve
  exact if_neg (by simp [h])

/-- A grant that is only staged leaves its clusters' phase switches (R243). -/
theorem dropResv_staged {g : Region} {i : Nat} {v : Resv} (h : g.resvs.find? (fun v => v.grant == i) = some v)
    (hf : v.inForce = false) : dropResv i g = { g with
      resvs := g.resvs.filter (fun x => x.grant != i)
      clusters := g.clusters.modifyAll v.clusters (fun _ u => { u with staged := none }) } := by
  unfold dropResv
  rw [h]
  simp only [hf, Bool.false_eq_true, if_false]

theorem releaseStaging_held {s : State} {r i : Nat} {v : Resv} (h : (s.region r).resvs.find? (fun v => v.grant == i) = some v)
    (hf : v.inForce = false) : releaseStaging r i s = s.modRegion r (fun g => { g with
      resvs := g.resvs.filter (fun x => x.grant != i)
      clusters := g.clusters.modifyAll v.clusters (fun _ u => { u with staged := none }) }) := by
  unfold releaseStaging
  refine modRegion_congr ?_
  have hany : (s.region r).resvs.any (fun v => v.grant == i && !v.inForce) = true :=
    List.any_eq_true.2 ⟨v, List.mem_of_find?_eq_some h, by simpa [hf] using List.find?_some h⟩
  rw [if_pos hany, dropResv_staged h hf]

/-- Settles O13: RESERVE by the re-check, the three others by the governor's acceptance. -/
theorem governorStagesGrant : Obligations.GovernorStagesGrant := by
  unfold Obligations.GovernorStagesGrant
  intro s r hdr i
  refine ⟨fun m ha => ⟨fun h => ?_, fun h => ?_⟩, fun v ha hv hf => ?_, fun ha => ?_, ?_⟩
  · have hc : canStage (s.noted r 0x01 hdr) r m.total = true := (canStage_iff ..).2 h
    exact congrArg Host.Outcome.next ((govAccept_eq _ _ ha).trans (takeReserve_staged hc))
  · have hc : canStage (s.noted r 0x01 hdr) r m.total = false := by
      rw [← Bool.not_eq_true, canStage_iff]
      simp only [noted_region]
      rintro ⟨h1, h2, h3, h4, h5⟩
      simp only [h3, h4, h5, Bool.false_eq_true, or_false] at h
      omega
    exact congrArg Host.Outcome.next ((govAccept_eq _ _ ha).trans (takeReserve_refused hc))
  · exact congrArg Host.Outcome.next ((govAccept_eq _ _ ha).trans (releaseStaging_held hv hf))
  · exact congrArg Host.Outcome.next (govAccept_eq _ _ ha)
  · intro ha held u
    exact congrArg Host.Outcome.next (govAccept_eq _ _ ha)

/-! ### Words of the commit tree (R19, R245, R255, R383) -/

section
variable {s : State} {r : Nat} {w : TreeWord} (release : Bool) (hr : w.root = (s.gov r).root)
include hr

theorem treeWord_kept (hc : w.checkOk = true) (he : w.epoch = (s.gov r).epoch ∨ epochHigher w.epoch (s.gov r).epoch = true) :
    treeWord r release w s = s.modGov r (fun g => { g with words := g.words ++ [(w, release)] }) := by
  unfold treeWord
  dsimp only
  rw [if_neg (not_not.2 hr), if_neg (by simp [hc]), if_neg]
  rintro ⟨hne, hlow⟩
  rcases he with he | he
  · exact hne he
  · rw [hlow] at he; cases he

theorem treeWord_stale (hc : w.checkOk = true) (hne : w.epoch ≠ (s.gov r).epoch)
    (hlow : epochHigher w.epoch (s.gov r).epoch = false) : treeWord r release w s = s.staleMsg r := by
  unfold treeWord
  dsimp only
  rw [if_neg (not_not.2 hr), if_neg (by simp [hc]), if_pos ⟨hne, hlow⟩]

theorem treeWord_corrupt (hc : w.checkOk = false) :
    treeWord r release w s = s.modGov r (fun g => { g with badCopies := g.badCopies ++ [(w.period, release)] }) := by
  unfold treeWord
  dsimp only
  rw [if_neg (not_not.2 hr), if_pos hc]

end

/-! ### Phase markers (R253, R254) -/

section
variable {u : Cluster} {l : PhaseList} (ceil : Nat → Nat)

theorem phaseMark_forward (h : u.phases = some l) (hl : u.phaseIdx + 1 < l.ops.length) :
    phaseMark ceil u = Cluster.resend { u with
      phaseIdx := u.phaseIdx + 1, phCeil := ceil (l.ops.getD (u.phaseIdx + 1) 0) } := by
  unfold phaseMark
  rw [h]
  exact if_pos hl

theorem phaseMark_back (h : u.phases = some l) (hl : l.ops.length ≤ u.phaseIdx + 1) (hc : l.cycle = true) :
    phaseMark ceil u = Cluster.resend { u with phaseIdx := 0, phCeil := ceil (l.ops.headD 0) } := by
  unfold phaseMark
  rw [h]
  exact (if_neg hl.not_gt).trans (if_pos hc)

theorem phaseMark_stray (h : ∀ l, u.phases = some l → l.ops.length ≤ u.phaseIdx + 1 ∧ l.cycle = false) :
    phaseMark ceil u = { u with strayMarks := u.strayMarks + 1 } := by
  unfold phaseMark
  cases hp : u.phases with
  | none => rfl
  | some l =>
    obtain ⟨hl, hc⟩ := h l hp
    exact (if_neg hl.not_gt).trans (if_neg (by simp [hc]))

end

/-- Settles O14: a copy by its check and its epoch, a marker by the grant's phases. -/
theorem treeWordsAndMarkersAct : Obligations.TreeWordsAndMarkersAct := by
  unfold Obligations.TreeWordsAndMarkersAct
  refine ⟨fun s r w hr => ⟨fun hc he => ⟨?_, ?_⟩, fun hc hne hlow c hcase => ?_, fun hc => ⟨?_, ?_⟩⟩,
    fun s c => ⟨fun l hl hlt => ?_, fun l hl hle hcy => ?_, fun h => ?_⟩⟩
  · exact congrArg Host.Outcome.next (treeWord_kept false hr hc he)
  · exact congrArg Host.Outcome.next (treeWord_kept true hr hc he)
  · rcases hcase with rfl | rfl
    · exact congrArg Host.Outcome.next (treeWord_stale false hr hc hne hlow)
    · exact congrArg Host.Outcome.next (treeWord_stale true hr hc hne hlow)
  · exact congrArg Host.Outcome.next (treeWord_corrupt false hr hc)
  · exact congrArg Host.Outcome.next (treeWord_corrupt true hr hc)
  · exact congrArg Host.Outcome.next (modCluster_congr (phaseMark_forward s.opCeil hl hlt))
  · exact congrArg Host.Outcome.next (modCluster_congr (phaseMark_back s.opCeil hl hle hcy))
  · exact congrArg Host.Outcome.next (modCluster_congr (phaseMark_stray s.opCeil h))

end Sys2Proof.Machine
end

