-- ==== Sys2Proof/Proofs/ClocksAndGates.lean ====
section
/-!
SUPPORT. The clock loop and the gate tree (R444 to R453, R466).
-/

namespace Sys2Proof.Machine

/-! ### The clock loop (R444 to R450) -/

theorem modClk_congr {s : State} {f g : Clocks → Clocks} (h : f s.clk = g s.clk) : s.modClk f = s.modClk g := by
  unfold State.modClk
  rw [h]

theorem modClk_self {s : State} {f : Clocks → Clocks} (h : f s.clk = s.clk) : s.modClk f = s := by
  unfold State.modClk
  rw [h]

/-- The reference is lost under a closed loop (R446, R213). -/
theorem loseReference_closed {s : State} (h : s.clk.st = .locked ∨ s.clk.st = .glideUp) : loseReference s = { s with
    clk := { s.clk with st := .glideDown, refLost := true, fbBarred := false, acquire := none, marked := none }
    regions := s.regions.mapAll (Region.stick 5), events := s.events ++ [{ src := 205, cause := 0 }] } := by
  unfold loseReference
  exact if_pos h

/-- What a fallback failure leaves aside (R447). -/
def notFallback (x : Option SwitchTo) : Option SwitchTo := if x = some .fallback then none else x

theorem notFallback_ne (x : Option SwitchTo) : notFallback x ≠ some .fallback := by
  unfold notFallback
  split
  · simp
  · assumption

theorem failFallback_running {s : State} (h : s.clk.fbRun = true) : failFallback s = { s with
    clk := { s.clk with
      fbRun := false, fbEntered := false, fbBarred := true, fbFails := satAdd 0xFF s.clk.fbFails 1
      st := if s.clk.st = .fallback then .coast else s.clk.st
      acquire := notFallback s.clk.acquire, marked := notFallback s.clk.marked }
    events := s.events ++ [{ src := 205, cause := 1 }] } := by
  unfold failFallback
  exact if_neg (by simp [h])

/-- A count decides whether the oscillator is stable (R447). -/
theorem fallbackStable_counted {s : State} (count : Nat) (hs : s.clk.st = .coast) (hr : s.clk.fbRun = true)
    (ha : s.clk.acquire = none) (hm : s.clk.marked = none) :
    exec (.fallbackStable count) s = .next (if 24085 ≤ count ∧ count ≤ 25067 then
      { s with clk := { s.clk with fbEntered := true, acquire := some .fallback } } else s) := by
  have hin : inRange 24085 25067 count = true ↔ 24085 ≤ count ∧ count ≤ 25067 := by simp [inRange]
  refine congrArg Host.Outcome.next ?_
  by_cases h : 24085 ≤ count ∧ count ≤ 25067
  · rw [if_pos h]
    exact modClk_congr (g := fun c => { c with fbEntered := true, acquire := some .fallback })
      (if_pos ⟨hs, hr, ha, hm, hin.2 h⟩)
  · rw [if_neg h]
    exact modClk_self (if_neg fun hc => h (hin.1 hc.2.2.2.2))

/-- A monitor that no start waits for stops the oscillator in use (R448). -/
theorem clockMonitorTrip_inUse {s : State} {h : Hub} (entered : Bool)
    (ho : s.owner = some h ∨ (s.owner = none ∧ s.clk.st ≠ .stopped))
    (hn : ¬ ((s.hubOf h).start.step = 2 ∧ (s.hubOf h).start.path = true ∧ (s.hubOf h).start.ended = false)) :
    exec (.clockMonitorTrip h entered) s = exec .fallbackFailure s :=
  congrArg Host.Outcome.next ((if_neg hn).trans (if_pos ho))

/-- Settles O48: each row of the loop, under its own state. -/
theorem clockLoopFollowsReference : Obligations.ClockLoopFollowsReference := by
  unfold Obligations.ClockLoopFollowsReference
  intro s
  refine ⟨fun h => ⟨_, congrArg Host.Outcome.next (loseReference_closed h), rfl, rfl, fun r => ?_, rfl⟩, fun h => ?_,
    fun ho hb hl hs hr hn => ?_, fun count hs hr ha hm => fallbackStable_counted count hs hr ha hm, fun h => ?_,
    fun h entered ho hn => clockMonitorTrip_inUse entered ho hn, fun x hx => ?_, fun h => ?_, fun h => ?_, fun hl hs hm => ?_,
    fun h => ?_⟩
  · simp only [State.region, SMap.get_mapAll]
    exact ⟨rfl, rfl, rfl, rfl⟩
  · exact congrArg Host.Outcome.next (modClk_congr (g := fun c => { c with st := .coast }) (if_pos h))
  · exact congrArg Host.Outcome.next (modClk_congr (g := fun c => { c with fbRun := true, fbEntered := false })
      (if_pos ⟨.inl ho, hb, hl, hs, hr, hn⟩))
  · exact ⟨_, congrArg Host.Outcome.next (failFallback_running h), rfl, rfl, rfl, rfl, notFallback_ne _, notFallback_ne _, rfl⟩
  · refine congrArg Host.Outcome.next (modClk_congr (g := fun c => { c with marked := some x, acquire := none }) ?_)
    simp only [hx, Option.isSome_some, if_true]
  · refine congrArg Host.Outcome.next (modClk_congr
      (g := fun c => { c with st := .fallback, marked := none, switches := min 255 (c.switches + 1) }) ?_)
    simp only [h, satAdd]
  · refine congrArg Host.Outcome.next (modClk_congr (g := fun c => { c with
      st := .glideUp, marked := none, fbRun := false, fbEntered := false, switches := min 255 (c.switches + 1) }) ?_)
    simp only [h, satAdd]
  · exact congrArg Host.Outcome.next (modClk_congr (g := fun c => { c with acquire := some .reference })
      (if_pos ⟨hl, hs, hm⟩))
  · exact congrArg Host.Outcome.next (modClk_congr (g := fun c => { c with st := .locked, refLost := false }) (if_pos h))

/-! ### The gate tree (R452, R453, R466) -/

/-- One bit of a row of gates, closed or opened. -/
theorem bitOf_gate (w : BitVec 24) {i j : Nat} (hj : j < 24) (closed : Bool) :
    bitOf (if closed then w ||| BitVec.ofNat 24 (2 ^ i) else w &&& ~~~BitVec.ofNat 24 (2 ^ i)).toNat j =
      if j = i then closed else bitOf w.toNat j := by
  have hm : (BitVec.ofNat 24 (2 ^ i)).getLsbD j = decide (j = i) := by
    rw [BitVec.getLsbD_ofNat, Nat.testBit_two_pow]
    simp [hj, eq_comm]
  generalize BitVec.ofNat 24 (2 ^ i) = m at hm ⊢
  simp only [bitOf_eq_testBit, BitVec.testBit_toNat]
  cases closed
  · simp only [Bool.false_eq_true, if_false, BitVec.getLsbD_and, BitVec.getLsbD_not, hm, hj]
    by_cases h : j = i <;> simp [h]
  · simp only [if_true, BitVec.getLsbD_or, hm]
    by_cases h : j = i <;> simp [h]

theorem gateNode_le {kind i : Nat} (h : gateNode kind i = true) : kind ≤ 4 := by
  by_contra hk
  obtain ⟨n, rfl⟩ : ∃ n, kind = n + 5 := ⟨kind - 5, by omega⟩
  cases h

theorem modGov_gov (s : State) (r k : Nat) (f : Gov → Gov) : (s.modGov r f).gov k = if k = r then f (s.gov k) else s.gov k := by
  by_cases h : k = r
  · subst h
    simp
  · simp [h]

/-- A row of the tree is kept apart from the others. -/
theorem gateClosed_setGate_row {kind k : Nat} (hk : kind ≤ 4) (hk' : k ≤ 4) (i j : Nat) (closed : Bool) (s : State) :
    k ≠ kind → (setGate kind i closed s).gateClosed k j = s.gateClosed k j := by
  have hs (r : Nat) (f : Gov → Gov) (c : Nat) : (s.modGov r f).cluster c = s.cluster c := rfl
  have hc (c : Nat) (f : Cluster → Cluster) (r : Nat) : (s.modCluster c f).gov r = s.gov r := rfl
  have hp (f : Power → Power) (c : Nat) : (s.modPow f).cluster c = s.cluster c ∧ (s.modPow f).gov c = s.gov c := ⟨rfl, rfl⟩
  interval_cases kind <;> interval_cases k <;>
    simp [setGate, State.gateClosed, hs, hc, hp, modGov_gov, apply_ite Gov.gsClosed, apply_ite Gov.grClosed, apply_ite Gov.gwClosed]

/-- A closed or opened node alone changes (R452). -/
theorem gateClosed_setGate {kind i k j : Nat} (hi : gateNode kind i = true) (hj : gateNode k j = true) (closed : Bool) (s : State) :
    (setGate kind i closed s).gateClosed k j = if (k, j) = (kind, i) then closed else s.gateClosed k j := by
  by_cases hne : k = kind
  case neg => rw [gateClosed_setGate_row (gateNode_le hi) (gateNode_le hj) _ _ _ _ hne, if_neg (by simp [hne])]
  subst hne
  match k, hi, hj with
  | 0, _, _ =>
    by_cases h : j = i
    · subst h
      simp [setGate, State.gateClosed]
    · simp [setGate, State.gateClosed, State.modCluster_cluster_ne _ _ h, h]
  | 1, _, _ =>
    by_cases h : j / 24 = i / 24
    · simp only [setGate, State.gateClosed, h, State.modGov_gov_self]
      rw [bitOf_gate _ (Nat.mod_lt _ (by norm_num))]
      have : j % 24 = i % 24 ↔ j = i := ⟨fun e => by omega, fun e => by rw [e]⟩
      simp [this]
    · have hne : j ≠ i := fun e => h (by rw [e])
      simp [setGate, State.gateClosed, h, hne]
  | 2, _, _ =>
    by_cases h : j = i
    · subst h
      simp [setGate, State.gateClosed]
    · simp [setGate, State.gateClosed, h]
  | 3, _, _ =>
    by_cases h : j = i
    · subst h
      simp [setGate, State.gateClosed]
    · simp [setGate, State.gateClosed, h]
  | 4, hi, hj =>
    have hi : i < 2 := of_decide_eq_true hi
    have hj : j < 2 := of_decide_eq_true hj
    rcases (by omega : i = 0 ∨ i = 1) with rfl | rfl <;> rcases (by omega : j = 0 ∨ j = 1) with rfl | rfl <;> rfl

/-- Several nodes closed or opened alike. -/
theorem gateClosed_foldl_setGate {k j : Nat} (hj : gateNode k j = true) (closed : Bool) (l : List (Nat × Nat))
    (hl : ∀ p ∈ l, gateNode p.1 p.2 = true) (s : State) :
    (l.foldl (fun (a : State) p => setGate p.1 p.2 closed a) s).gateClosed k j =
      if (k, j) ∈ l then closed else s.gateClosed k j := by
  induction l generalizing s with
  | nil => rfl
  | cons p rest ih =>
    rw [List.foldl_cons, ih (fun q hq => hl q (.tail _ hq)), gateClosed_setGate (hl p (.head _)) hj]
    by_cases h : (k, j) ∈ rest
    · simp [h]
    · simp [h]

/-- The path of a node holds nodes alone. -/
theorem gateNode_of_mem_gatePath {kind i : Nat} (h : gateNode kind i = true) :
    ∀ p ∈ gatePath kind i, gateNode p.1 p.2 = true := by
  match kind, h with
  | 0, h =>
    have : i < 36864 := of_decide_eq_true h
    simp only [gatePath, gateParent, List.mem_cons, List.not_mem_nil, or_false]
    rintro p (rfl | rfl | rfl)
    · exact h
    · exact decide_eq_true (by simp only [regionOf, localOf]; omega)
    · exact decide_eq_true (by simp only [regionOf, localOf]; omega)
  | 1, h =>
    have : i < 1536 := of_decide_eq_true h
    simp only [gatePath, gateParent, List.mem_cons, List.not_mem_nil, or_false]
    rintro p (rfl | rfl)
    · exact h
    · exact decide_eq_true (by omega)
  | 2, h =>
    have : i < 64 := of_decide_eq_true h
    simp only [gatePath, gateParent, List.mem_cons, List.not_mem_nil, or_false]
    rintro p (rfl | rfl)
    · exact h
    · exact decide_eq_true this
  | 3, h | 4, h =>
    simp only [gatePath, gateParent, List.mem_cons, List.not_mem_nil, or_false]
    rintro p rfl
    exact h

/-! What an asker sees of its request (R466). -/

theorem gateClosed_modSetup (s : State) (f : Setup → Setup) (k j : Nat) : (s.modSetup f).gateClosed k j = s.gateClosed k j := rfl

@[simp] theorem gateAnswer_gateClosed (op kind i : Nat) (who : GateAsker) (result : Nat) (s : State) (k j : Nat) :
    (gateAnswer op kind i who result s).gateClosed k j = s.gateClosed k j := by
  unfold gateAnswer
  split <;> rfl

/-- The host reads whether its node is open (R466). -/
theorem gateAnswer_host {kind i : Nat} (h : gateNode kind i = true) (op : Nat) (s : State) :
    (gateAnswer op kind i .host 0 s).setup.gateRes = 0 ∧
      bitOf (clockReg (gateAnswer op kind i .host 0 s) 0x100C) 3 = !s.gateClosed kind i := by
  refine ⟨rfl, ?_⟩
  have hreg : clockReg (gateAnswer op kind i .host 0 s) 0x100C =
      0 + at' 3 (bitNat (gateNode kind i && !s.gateClosed kind i)) + at' 8 (min s.closedGc 0xFFFF) := rfl
  rw [hreg, h, bitOf_eq_testBit]
  generalize min s.closedGc 0xFFFF = n
  have h3 (b : Bool) : (0 + at' 3 (bitNat b) + at' 8 n).testBit 3 = b := by
    rw [Nat.testBit_eq_decide_div_mod_eq]
    cases b <;> simp [at', bitNat] <;> omega
  exact h3 _

theorem gateNode_of_notRefused {s : State} {kind i : Nat} {who : GateAsker} (h : s.gateRefused kind i who = none) :
    gateNode kind i = true := by
  unfold State.gateRefused at h
  split at h
  · cases h
  · split at h
    · cases h
    · simpa using ‹¬gateNode kind i = false›

/-- Hardware's request of a node that is there is not refused (R453). -/
theorem gateRefused_hardware {s : State} {kind i : Nat} (h : gateNode kind i = true) : s.gateRefused kind i .hardware = none := by
  simp [State.gateRefused, h]

section
variable {s : State} {kind i : Nat} {who : GateAsker}

theorem gateClose_refused {e : Nat} (h : s.gateRefused kind i who = some e) (busy : Bool) :
    gateClose kind i who busy s = gateAnswer 0 kind i who e s := by
  unfold gateClose
  rw [h]

theorem gateOpen_refused {e : Nat} (h : s.gateRefused kind i who = some e) (busy : Bool) :
    gateOpen kind i who busy s = gateAnswer 1 kind i who e s := by
  unfold gateOpen
  rw [h]

/-- Closing a node that may be asked for (R453). -/
theorem gateClose_eq (h : s.gateRefused kind i who = none) (busy : Bool) : gateClose kind i who busy s =
    if (gateChildren kind i).any (fun p => !s.gateClosed p.1 p.2) then gateAnswer 0 kind i who 1 s
    else if busy then gateAnswer 0 kind i who 3 s
    else if s.gateInUse kind i then gateAnswer 0 kind i who 4 s
    else gateAnswer 0 kind i who 0 (setGate kind i true s) := by
  unfold gateClose
  rw [h]

/-- Opening a node that may be asked for (R453). -/
theorem gateOpen_eq (h : s.gateRefused kind i who = none) (busy : Bool) : gateOpen kind i who busy s =
    if (gateParent kind i).any (fun p => s.gateClosed p.1 p.2) && decide (who ≠ .hardware) then gateAnswer 1 kind i who 2 s
    else if busy then gateAnswer 1 kind i who 3 s
    else gateAnswer 1 kind i who 0 ((if who = .hardware then gatePath kind i else [(kind, i)]).foldl
      (fun (a : State) p => setGate p.1 p.2 false a) s) := by
  unfold gateOpen
  rw [h]

theorem no_open_child (h : ∀ p ∈ gateChildren kind i, s.gateClosed p.1 p.2 = true) :
    (gateChildren kind i).any (fun p => !s.gateClosed p.1 p.2) = false :=
  List.any_eq_false.2 fun p hp => by simp [h p hp]

theorem no_closed_parent (h : ∀ p, gateParent kind i = some p → s.gateClosed p.1 p.2 = false) :
    (gateParent kind i).any (fun p => s.gateClosed p.1 p.2) = false := by
  cases hp : gateParent kind i with
  | none => rfl
  | some p => exact h p hp

end

/-- Settles O31: the tables of results, a changed node alone changing, and the path that hardware opens. -/
theorem gatesFollowTree : Obligations.GatesFollowTree := by
  unfold Obligations.GatesFollowTree
  intro s kind i who ha
  have hclose (busy) : exec (.gateClose kind i who busy) s = .next (gateClose kind i who busy s) := congrArg Host.Outcome.next (if_pos ha)
  have hopen (busy) : exec (.gateOpen kind i who busy) s = .next (gateOpen kind i who busy s) := congrArg Host.Outcome.next (if_pos ha)
  have hquery : exec (.gateQuery kind i who) s = .next (gateAnswer 2 kind i who ((s.gateRefused kind i who).getD 0) s) :=
    congrArg Host.Outcome.next (if_pos ha)
  refine ⟨fun hn => ?_, fun e he => ⟨fun busy => ⟨?_, ?_⟩, ?_⟩⟩
  · have hnode := gateNode_of_notRefused hn
    refine ⟨fun hch hu => ⟨_, hclose false, ?_⟩, fun hch => ?_, fun hp hw => ⟨_, hopen false, ?_⟩, fun hch => ⟨?_, fun hu => ?_⟩,
      fun hp hw busy => ?_, fun hp => ?_, ?_, ?_⟩
    · rw [gateClose_eq hn, no_open_child hch, hu]
      simp only [Bool.false_eq_true, if_false, gateAnswer_gateClosed]
      refine ⟨by rw [gateClosed_setGate hnode hnode, if_pos rfl], ?_, fun k j hj hne => by rw [gateClosed_setGate hnode hj, if_neg hne]⟩
      rintro rfl
      obtain ⟨h0, h3⟩ := gateAnswer_host hnode 0 (setGate kind i true s)
      exact ⟨h0, by rw [h3, gateClosed_setGate hnode hnode, if_pos rfl]; rfl⟩
    · obtain ⟨p, hp, hc⟩ := hch
      rw [hclose, gateClose_eq hn, if_pos (List.any_eq_true.2 ⟨p, hp, by simp [hc]⟩)]
    · rw [gateOpen_eq hn, no_closed_parent hp]
      simp only [Bool.false_and, Bool.false_eq_true, if_false, if_neg hw, List.foldl_cons, List.foldl_nil, gateAnswer_gateClosed]
      refine ⟨by rw [gateClosed_setGate hnode hnode, if_pos rfl], ?_, fun k j hj hne => by rw [gateClosed_setGate hnode hj, if_neg hne]⟩
      rintro rfl
      obtain ⟨h0, h3⟩ := gateAnswer_host hnode 1 (setGate kind i false s)
      exact ⟨h0, by rw [h3, gateClosed_setGate hnode hnode, if_pos rfl]; rfl⟩
    · rw [hclose, gateClose_eq hn, no_open_child hch]
      rfl
    · rw [hclose, gateClose_eq hn, no_open_child hch, hu]
      rfl
    · obtain ⟨p, hp, hc⟩ := hp
      rw [hopen, gateOpen_eq hn, if_pos]
      simp [hp, hc, hw]
    · rw [hopen, gateOpen_eq hn, no_closed_parent hp]
      rfl
    · refine ⟨_, rfl, ?_⟩
      have hpath := gateNode_of_mem_gatePath hnode
      simp only [State.gateAsked, if_true]
      rw [gateOpen_eq (gateRefused_hardware hnode)]
      simp only [ne_eq, not_true_eq_false, decide_false, Bool.and_false, Bool.false_eq_true, if_false, if_true, gateAnswer_gateClosed]
      exact ⟨fun p hp => by rw [gateClosed_foldl_setGate (hpath p hp) false _ hpath, if_pos hp],
        fun k j hj hne => by rw [gateClosed_foldl_setGate hj false _ hpath, if_neg hne]⟩
    · rw [hquery, hn]
      rfl
  · rw [hclose, gateClose_refused he]
  · rw [hopen, gateOpen_refused he]
  · rw [hquery, he]
    rfl

end Sys2Proof.Machine
end

