-- ==== Sys2Proof/Proofs/Shadows.lean ====
section
/-!
SUPPORT. Set-up writes, HOLD, DISCARD, the wide-value window (R421, R471 to R481).
-/

namespace Sys2Proof.Machine

/-! ### Writes to set-up registers (R421, R472 to R478) -/

/-- No register of its own stands in the broadcast block (R470). -/
theorem regDef_broadcast {off : Nat} (h1 : 0x140000 ≤ off) (h2 : off < 0x141000) : regDef off = none := by
  unfold regDef
  rw [if_neg (by omega), if_neg (by omega), if_neg (by omega), if_neg (by omega), if_neg (by omega)]
  split <;> simp_all

/-- An aligned write at a set-up register of an open window (R467, R470). -/
theorem access_setup {s : State} {off : Nat} {d : RegDef} (v : Word) (within : Bool) (ho : s.pow.regOpen = true)
    (hd : regDef off = some d) (ha : off % 4 = 0) : access (.write off 4 v) within s = writeSetup off v.toNat within s := by
  have hblock : ¬(0x140000 ≤ off ∧ off < 0x141000) := fun h => by
    rw [regDef_broadcast h.1 h.2] at hd
    cases hd
  have hal : aligned32 off 4 = true := by simp [aligned32, ha]
  have hword (n : Nat) : writeWord off n within s = writeSetup off n within s := by
    unfold writeWord
    rw [hd]
  exact (if_neg (by simp [ho])).trans ((if_neg (by simp [hal])).trans ((if_neg hblock).trans (hword _)))

theorem dueFor_eq (s : State) (d : RegDef) (within : Bool) :
    s.dueFor d within = s.period.toNat + (if d.slow then 5 else if within then 2 else 1) := by
  unfold State.dueFor State.now
  split
  · rfl
  · split <;> rfl

/-- What a write of `v` to the register `d` at `off` makes pending (R475). -/
def shadowOf (s : State) (d : RegDef) (off : Nat) (v : Word) (within : Bool) : Shadow :=
  ⟨off, BitVec.ofNat 32 (v.toNat &&& d.fields), BitVec.ofNat 32 d.fields,
    if s.setup.hold then none else some (s.period.toNat + (if d.slow then 5 else if within then 2 else 1)), !inRegionBlock off⟩

section
variable {s : State} {off : Nat} {d : RegDef} (v : Word) (within : Bool) (hd : regDef off = some d)
include hd

theorem writeSetup_frozen (hf : s.fcFrozen d = true) : writeSetup off v.toNat within s = s := by
  unfold writeSetup
  rw [hd]
  exact if_pos hf

theorem writeSetup_locked (hf : s.fcFrozen d = false) (hl : s.setup.locked d = true) :
    writeSetup off v.toNat within s = s.modSetup (fun u => { u with lockWr := true }) := by
  unfold writeSetup
  rw [hd]
  exact (if_neg (by simp [hf])).trans (if_pos hl)

theorem writeSetup_open (hf : s.fcFrozen d = false) (hl : s.setup.locked d = false) : writeSetup off v.toNat within s =
    sendShadow (s.modSetup (fun u => u.joinShadow s.now (shadowOf s d off v within))) (shadowOf s d off v within) := by
  unfold writeSetup shadowOf
  rw [hd, ← dueFor_eq]
  exact (if_neg (by simp [hf])).trans (if_neg (by simp [hl]))

end

/-- A shadow of the hub, and one that HOLD keeps, is sent to no governor (R475, R477). -/
theorem sendShadow_kept {s : State} {x : Shadow} (h : x.sent = true ∨ x.due = none) : sendShadow s x = s := by
  unfold sendShadow
  cases hx : x.due with
  | none => rfl
  | some p => exact if_pos (h.resolve_right (by simp [hx]))

theorem sendShadow_due {s : State} {x : Shadow} {p : Nat} (h : x.sent = false) (hp : x.due = some p) :
    sendShadow s x = s.hubSend (.shadows ((x.offset - 0x100000) / 0x1000) (BitVec.ofNat 48 p) x.offset x.word) := by
  unfold sendShadow
  rw [hp]
  exact if_neg (by simp [h])

/-- An instance held for 64 control periods raises its fault once (R479). -/
theorem consistLimit_reached {s : State} {gid idx : Nat} {h : HeldInst}
    (hh : s.setup.held.find? (fun h => h.gid == gid && h.idx == idx) = some h) (hp : 64 ≤ h.periods) (hr : h.raised = false) :
    consistLimit gid idx s = { s with
      setup := { s.setup with
        held := s.setup.held.map (fun x => if x.gid = gid ∧ x.idx = idx then { x with raised := true } else x) }
      events := s.events ++ [{ src := 210, cause := 0 }] } := by
  unfold consistLimit
  rw [hh]
  exact if_neg (by simp [hr, hp])

/-- Settles O24: the ends of a set-up write, and the 64th period of a held instance. -/
theorem shadowsAndHeldInstances : Obligations.ShadowsAndHeldInstances := by
  unfold Obligations.ShadowsAndHeldInstances
  refine ⟨?_, fun s gid idx h hh hp hr => ⟨_, congrArg Host.Outcome.next (consistLimit_reached hh hp hr), rfl, ?_⟩⟩
  · intro s off v within d ho hd ha c due t
    have hwrite := access_setup v within ho hd ha
    refine ⟨fun hf => ?_, fun hf => ⟨fun hl hk => ?_, fun hl hb hh => ?_, fun hl => ?_⟩, fun off' => rfl⟩
    · exact next_journaled_congr (hwrite.trans (writeSetup_frozen v within hd hf))
    · refine next_journaled_congr (hwrite.trans ((writeSetup_open v within hd hf hl).trans (sendShadow_kept (s := t) ?_)))
      rcases hk with hk | hk
      · exact .inl (by simp [shadowOf, hk])
      · exact .inr (by simp [shadowOf, hk])
    · have hdue : (shadowOf s d off v within).due = some (due.getD 0) := by simp [shadowOf, due, hh]
      exact next_journaled_congr (hwrite.trans ((writeSetup_open v within hd hf hl).trans
        (sendShadow_due (s := t) (by simp [shadowOf, hb]) hdue)))
    · exact next_journaled_congr (hwrite.trans (writeSetup_locked v within hd hf hl))
  · intro x hx hg hi
    obtain ⟨y, -, rfl⟩ := List.mem_map.1 hx
    by_cases hy : y.gid = gid.toNat ∧ y.idx = idx.toNat
    · rw [if_pos hy]
    · rw [if_neg hy] at hg hi
      exact absurd ⟨hg, hi⟩ hy

/-! ### HOLD (R477) -/

/-- What a clear of HOLD makes of a shadow that it kept (R477). -/
def releasedShadow (s : State) (within : Bool) (x : Shadow) : Shadow :=
  match x.due, regDef x.offset with
  | none, some d => { x with due := some (s.dueFor d within), sent := !inRegionBlock x.offset }
  | _, _ => x

/-- HOLD set (R477): what is due already stays. -/
theorem writeHold_set (sel within : Bool) (s : State) : writeHold true sel within s = s.modSetup (fun u => { u with
    hold := true, shadowSel := sel
    shadows := if u.hold then u.shadows else u.shadows.map (fun x =>
      { x with due := x.due.filter (fun p => decide (p ≤ s.period.toNat)) }) }) := by
  unfold writeHold
  simp only [Bool.not_true, Bool.false_and, Bool.false_eq_true, if_false, Bool.true_and, Bool.not_eq_true']
  refine congrArg (fun l => s.modSetup (fun u => { u with hold := true, shadowSel := sel, shadows := l })) ?_
  cases hh : s.setup.hold
  · simp only [if_true, Bool.false_eq_true, if_false]
    refine List.map_congr_left fun x _ => ?_
    cases hx : x.due with
    | none =>
      obtain ⟨o, w, m, due, sent⟩ := x
      cases hx
      rfl
    | some p =>
      by_cases hp : p ≤ s.now
      · have : p ≤ s.period.toNat := hp
        obtain ⟨o, w, m, due, sent⟩ := x
        cases hx
        simp [hp, this, Option.filter]
      · have : ¬p ≤ s.period.toNat := hp
        simp [hp, this, Option.filter]
  · simp

/-- HOLD cleared while it is not set (R477). -/
theorem writeHold_clear_open {s : State} (sel within : Bool) (h : s.setup.hold = false) :
    writeHold false sel within s = s.modSetup (fun u => { u with hold := false, shadowSel := sel }) := by
  unfold writeHold
  simp [h, State.modSetup]

/-- HOLD cleared (R477): what it kept becomes due, the governors' shadows leave. -/
theorem writeHold_clear_held {s : State} (sel within : Bool) (h : s.setup.hold = true) : writeHold false sel within s =
    (s.setup.shadows.map (releasedShadow s within)).foldl sendShadow (s.modSetup (fun u => { u with
      hold := false, shadowSel := sel, shadows := u.shadows.map (releasedShadow s within) })) := by
  unfold writeHold
  simp only [h, Bool.false_and, Bool.false_eq_true, if_false, Bool.not_false, Bool.and_self, if_true]
  rfl

/-- Nothing but what leaves the hub differs. -/
def OnlySent (s t : State) : Prop := t = { s with pair := t.pair, seqs := t.seqs, out := t.out }

theorem OnlySent.refl (s : State) : OnlySent s s := rfl

theorem OnlySent.trans {s t u : State} (h : OnlySent s t) (h' : OnlySent t u) : OnlySent s u := by
  unfold OnlySent at h h' ⊢
  rw [h', h]

theorem hubSend_onlySent (s : State) (m : Msg) : OnlySent s (s.hubSend m) := by
  unfold State.hubSend
  split
  · exact .refl s
  · dsimp only
    rw [hubEmit_eq]
    rfl

theorem sendShadow_onlySent (s : State) (x : Shadow) : OnlySent s (sendShadow s x) := by
  unfold sendShadow
  split
  · split
    · exact .refl s
    · exact hubSend_onlySent ..
  · exact .refl s

theorem foldl_sendShadow_onlySent (l : List Shadow) (s : State) : OnlySent s (l.foldl sendShadow s) :=
  List.foldlRecOn (motive := OnlySent s) l sendShadow (.refl s) fun _ h x _ => h.trans (sendShadow_onlySent _ x)

theorem journaled_onlySent {f : State → State} {s t : State} (h : OnlySent t (f s)) : OnlySent t (journaled f s) := by
  refine h.trans ?_
  rw [journaled_eq]
  rfl

theorem Said.sendShadow {s : State} {m : Msg} (h : Said s m) (x : Shadow) : Said (sendShadow s x) m := by
  unfold Machine.sendShadow
  split
  · split
    · exact h
    · exact h.hubSend _
  · exact h

/-- Every governor's shadow that is due leaves (R475, R477). -/
theorem foldl_sendShadow_said {l : List Shadow} {s : State} (ho : s.owner.isSome = true) {x : Shadow} (hx : x ∈ l) {p : Nat}
    (hp : x.due = some p) (hs : x.sent = false) : Said (l.foldl sendShadow s)
      (.shadows ((x.offset - 0x100000) / 0x1000) (BitVec.ofNat 48 p) x.offset x.word) := by
  obtain ⟨before, after, rfl⟩ := List.append_of_mem hx
  rw [List.foldl_append, List.foldl_cons, sendShadow_due hs hp]
  have hb := foldl_sendShadow_onlySent before s
  refine List.foldlRecOn (motive := fun t => Said t _) after _ (hubSend_said ?_ _) fun _ h y _ => h.sendShadow y
  rwa [hb]

theorem releasedShadow_due (s : State) (within : Bool) (x : Shadow) {d : RegDef}
    (hd : regDef (releasedShadow s within x).offset = some d) : (releasedShadow s within x).due.isSome = true := by
  cases hx : x.due with
  | some p =>
    have : releasedShadow s within x = x := by unfold releasedShadow; rw [hx]
    rw [this, hx]
    rfl
  | none =>
    cases hr : regDef x.offset with
    | none =>
      have : releasedShadow s within x = x := by unfold releasedShadow; rw [hx, hr]
      rw [this, hr] at hd
      cases hd
    | some d =>
      unfold releasedShadow
      rw [hx, hr]
      rfl

/-! ### DISCARD (R471, R472, R479) -/

theorem discardShadow_offset {u : Setup} {gid idx : Nat} {x y : Shadow} (h : discardShadow u gid idx x = some y) :
    y.offset = x.offset := by
  unfold discardShadow at h
  split at h
  · cases h; rfl
  · dsimp only at h
    split_ifs at h <;> cases h <;> rfl

/-- DISCARD of all leaves the shadows of locked instances alone, and whole (R472, R479). -/
theorem discardShadow_all {u : Setup} {idx : Nat} {x y : Shadow} (h : discardShadow u 0xFF idx x = some y) :
    y = x ∧ ∀ d, regDef x.offset = some d → u.locked d = true := by
  unfold discardShadow at h
  cases hd : regDef x.offset with
  | none =>
    rw [hd] at h
    cases h
    exact ⟨rfl, fun d hd => by cases hd⟩
  | some d =>
    rw [hd] at h
    dsimp only at h
    by_cases hl : u.locked d = true
    · rw [if_pos hl] at h
      cases h
      exact ⟨rfl, fun d' hd' => by cases hd'; exact hl⟩
    · rw [if_neg hl, if_pos (.inl rfl)] at h
      cases h

/-- DISCARD of an instance leaves its shadows where it is locked alone (R472, R479). -/
theorem discardShadow_named {u : Setup} {idx gid : Nat} {x y : Shadow} (h : discardShadow u gid idx x = some y) {d : RegDef}
    (hd : regDef x.offset = some d) (hc : d.code = gid) (hi : d.idx = idx) : u.locked d = true := by
  unfold discardShadow at h
  rw [hd] at h
  dsimp only at h
  by_contra hl
  rw [if_neg hl, if_pos (.inr ⟨hc, hi⟩)] at h
  cases h

/-- What keeps the hold of an instance through a DISCARD (R472, R479). -/
def holdStays (u : Setup) (left : List Shadow) (g : HeldInst) : Bool :=
  left.any (fun x => match regDef x.offset with
    | some d => u.locked d && d.code == g.gid && d.idx == g.idx && decide (d.agree &&& x.mask.toNat ≠ 0)
    | none => false)

theorem mem_held_discard {gid idx : Nat} {s : State} {h : HeldInst} : h ∈ (discard gid idx s).setup.held ↔
    h ∈ s.setup.held ∧ (gid ≠ 0xFF ∧ ¬(h.gid = gid ∧ h.idx = idx) ∨ holdStays s.setup (discard gid idx s).setup.shadows h = true) := by
  have hheld : (discard gid idx s).setup.held = s.setup.held.filter (fun h =>
      !(gid == 0xFF || (h.gid == gid && h.idx == idx)) || holdStays s.setup (discard gid idx s).setup.shadows h) := rfl
  rw [hheld, List.mem_filter]
  simp [imp_iff_not_or]

/-- A hold stays for a locked instance alone (R472, R479). -/
theorem locked_of_holdStays {u : Setup} {left : List Shadow} {g : HeldInst} (h : holdStays u left g = true) :
    ∃ x ∈ left, ∃ d, regDef x.offset = some d ∧ u.locked d = true ∧ d.code = g.gid ∧ d.idx = g.idx := by
  obtain ⟨x, hx, hp⟩ := List.any_eq_true.1 h
  cases hd : regDef x.offset with
  | none => simp [hd] at hp
  | some d =>
    simp only [hd, Bool.and_eq_true, beq_iff_eq] at hp
    exact ⟨x, hx, d, hd, hp.1.1.1, hp.1.1.2, hp.1.2⟩

/-- Settles O26: HOLD by its two edges, DISCARD shadow by shadow, WV_SEL by where the value lies. -/
theorem registerControlWrites : Obligations.RegisterControlWrites := by
  unfold Obligations.RegisterControlWrites
  intro s ho
  have hhold (hold sel within) : exec (.holdWrite hold sel within) s = .next (journaled (fun _ => writeHold hold sel within s) s) :=
    next_journaled_congr (if_pos ho)
  have hdiscard (gid idx : Byte) : exec (.discardGo gid idx) s = .next (discard gid.toNat idx.toNat s) :=
    congrArg Host.Outcome.next (if_pos ho)
  have hwide : ¬s.pow.regOpen = false := by simp [ho]
  refine ⟨fun sel within => ?_, fun sel within => ⟨_, hhold false sel within, ?_⟩, fun idx => ⟨_, hdiscard 0xFF idx, rfl, ?_, ?_⟩,
    fun gid idx hg => ⟨_, hdiscard gid idx, rfl, ?_, ?_, ?_⟩, fun wid idx v hn hv => ?_, fun wid idx hw hi => ?_⟩
  · rw [hhold]
    exact next_journaled_congr (writeHold_set sel within s)
  · cases hh : s.setup.hold
    · rw [writeHold_clear_open sel within hh]
      refine ⟨?_, fun _ => ⟨?_, ?_⟩, nofun, nofun⟩
      · rw [journaled_setup]
        exact journaled_onlySent (f := fun _ => _) (OnlySent.refl (s.modSetup (fun u => { u with hold := false, shadowSel := sel })))
      · rw [journaled_setup]; rfl
      · rw [journaled_out]; rfl
    · rw [writeHold_clear_held sel within hh]
      have hsent := foldl_sendShadow_onlySent (s.setup.shadows.map (releasedShadow s within))
        (s.modSetup (fun u => { u with hold := false, shadowSel := sel, shadows := u.shadows.map (releasedShadow s within) }))
      have hshadows : (journaled (fun _ => (s.setup.shadows.map (releasedShadow s within)).foldl sendShadow (s.modSetup (fun u =>
          { u with hold := false, shadowSel := sel, shadows := u.shadows.map (releasedShadow s within) }))) s).setup.shadows =
          s.setup.shadows.map (releasedShadow s within) := by
        rw [journaled_setup, hsent]
        rfl
      refine ⟨?_, nofun, fun _ => ?_, fun _ x hx => ⟨fun d hd => ?_, fun p hp hs hown => ?_⟩⟩
      · rw [hshadows]
        exact journaled_onlySent (f := fun _ => _) hsent
      · rw [hshadows]
        refine List.map_congr_left fun x _ => ?_
        unfold releasedShadow
        cases x.due <;> cases regDef x.offset <;> simp [dueFor_eq]
      · rw [hshadows] at hx
        obtain ⟨y, -, rfl⟩ := List.mem_map.1 hx
        exact releasedShadow_due s within y hd
      · rw [hshadows] at hx
        exact (foldl_sendShadow_said (s := s.modSetup _) hown hx hp hs).journaled
  · intro x hx
    obtain ⟨y, hy, h⟩ := List.mem_filterMap.1 hx
    obtain ⟨rfl, hl⟩ := discardShadow_all h
    exact ⟨hy, hl⟩
  · intro h hh
    obtain ⟨hm, hp⟩ := mem_held_discard.1 hh
    exact ⟨hm, locked_of_holdStays (hp.resolve_left fun hn => hn.1 rfl)⟩
  · intro x hx d hd hc hi
    obtain ⟨y, hy, h⟩ := List.mem_filterMap.1 hx
    rw [discardShadow_offset h] at hd
    exact discardShadow_named h hd hc hi
  · intro h hh hn
    exact mem_held_discard.2 ⟨hh, .inl ⟨fun hff => hg (BitVec.eq_of_toNat_eq hff), hn⟩⟩
  · intro h hh
    obtain ⟨hm, hp⟩ := mem_held_discard.1 hh
    exact ⟨hm, fun hgid hidx => locked_of_holdStays (hp.resolve_left fun hn => hn.2 ⟨hgid, hidx⟩)⟩
  · refine congrArg Host.Outcome.next ((if_neg hwide).trans ((if_neg hn).trans ?_))
    rw [hv]
  · exact congrArg Host.Outcome.next ((if_neg hwide).trans (if_pos ⟨hw, hi⟩))

end Sys2Proof.Machine
end

