-- ==== Sys2Proof/Proofs/Activations.lean ====
section
/-!
SUPPORT. Firmware activations (R306, R371 to R377, R494).
-/

namespace Sys2Proof.Machine

/-! ### A deferred activation and a halted security core (R373, R494) -/

/-- Hub A owns; its scheduler core runs, its security core is halted by the debug port, and an activation of the scheduler's firmware
waits for an emergency that has ended. -/
def deferredUnderHalt : State :=
  { hubA := { role := .owner, core0 := { state := .halted }, core2 := { state := .running } }
    hub := { fw := { act := some { cmd := (0, 0), target := 2, deadline := 1, deferred := true } } } }

/-- Nothing of an activation moves while the security core is halted (R494). -/
theorem resumeAct_deferredUnderHalt : resumeAct deferredUnderHalt = deferredUnderHalt := by
  have hsec : deferredUnderHalt.secHalted = true := rfl
  have hact : deferredUnderHalt.hub.fw.act = some { cmd := (0, 0), target := 2, deadline := 1, deferred := true } := rfl
  unfold resumeAct
  rw [hact]
  exact if_neg fun h => by simp [hsec] at h

/-- Refutes O46: an activation that waits does not go on while the security core is halted. -/
theorem not_coresRestartAndActivationsEnd : ¬ Obligations.CoresRestartAndActivationsEnd := by
  unfold Obligations.CoresRestartAndActivationsEnd
  intro h
  obtain ⟨-, -, -, -, hact⟩ := h deferredUnderHalt
  obtain ⟨hresume, -⟩ := hact _ rfl rfl
  obtain ⟨t, hexec, hdrain, -⟩ := hresume rfl rfl (by decide +kernel) rfl rfl
  obtain rfl : journaled resumeAct deferredUnderHalt = t := Host.Outcome.next.inj hexec
  rw [journaled_hub, resumeAct_deferredUnderHalt] at hdrain
  exact absurd hdrain (by decide)

end Sys2Proof.Machine
end

