-- ==== Sys2Proof/Proofs/GroupMessages.lean ====
section
/-!
SUPPORT. A summary from a region that is not a member (R276, R277).
-/

namespace Sys2Proof.Machine

/-! ### A summary from a region outside the group (R283, R286) -/

/-- The fields of a message of hub A, without its check (R326). -/
def uncheckedOfHubA : MsgHdr :=
  { type := 0x40, flags := 1, src := 0xB000, dst := 0xA000, seq := 1, epoch := 0, resv := 0, check := 0, payload := zeros 16 }

/-- A message of hub A in good form (R326, R328). -/
def messageOfHubA : MsgHdr := { uncheckedOfHubA with check := BitVec.ofNat 16 (crc16 uncheckedOfHubA.bytes) }

/-- Group 3 has its one member in region 1, whose control core reports; its harvest stands at code 1 after 15 steps without
laggards. -/
def oneRegionGroup : State :=
  { regions := ⟨{}, [(1, { slots := [{ gid := 3, members := [0] }], clusters := ⟨{}, [(0, { core := { state := .running } })]⟩ })]⟩
    hub := { groups := { defs := [(3, { flags := 0, lead := 1, key := 0, regions := [1], counts := [(1, 1)], home := 1, defined := true })] } }
    homes := [(3, { h := 1, sumFrom := [1], okRun := 15 })] }

/-- A summary of region 0 does not complete the step, which region 1 has still to report. -/
def summaryOfRegion0 : State :=
  peerAccept 1 0x16 messageOfHubA (fun s => s.modHome 3 (Home.summary (s.cfg 0x8000 8 4) (s.cfg 0x8000 12 4)
    (s.reporting { flags := 0, lead := 1, key := 0, regions := [1], counts := [(1, 1)], home := 1, defined := true } 3) 0
    ⟨1, 0, 0, none⟩)) id oneRegionGroup

theorem summaryOfRegion0_h : (summaryOfRegion0.home 3).h = 1 := by
  decide +kernel

/-- Refutes O39: a step is complete once the group's own regions have reported, and the region of the summary need not be one. -/
theorem not_groupMessagesAct : ¬ Obligations.GroupMessagesAct := by
  unfold Obligations.GroupMessagesAct
  intro h
  obtain ⟨-, -, -, -, hhome, -⟩ := h oneRegionGroup 0 0 messageOfHubA 3
  obtain ⟨-, -, hlag, -⟩ := hhome _ rfl (by decide)
  have haccepted : PeerAccepted oneRegionGroup 1 0x16 messageOfHubA := ⟨by decide +kernel, by decide⟩
  obtain ⟨t, hexec, -, -, -, -, hrestore, -⟩ := hlag ⟨1, 0, 0, none⟩ haccepted (by decide) rfl
  obtain rfl : summaryOfRegion0 = t := Host.Outcome.next.inj hexec
  have hfull := hrestore rfl rfl (by decide +kernel)
  have hleft := summaryOfRegion0_h
  exact absurd (hleft.symm.trans hfull) (by decide)

end Sys2Proof.Machine
end

