-- ==== Sys2Proof/Proofs/Sensors.lean ====
section
/-!
SUPPORT. Samples of a region and its array's frames (R505).
-/

namespace Sys2Proof.Machine

/-! ### Monitor readings while a frame is in progress (R67, R84) -/

/-- In region 0 a raise to 700 mV waits for its test while the transition rates go over the bus. -/
def raiseUnderFrame : State :=
  { regions := ⟨{ sp := { raising := some 700, busy := some (.rates 1 1) } }, []⟩ }

/-- A reading taken meanwhile carries the slewing flag. -/
theorem slewing_of_raiseUnderFrame {t : State} (h : exec (.voltageMonitorReading 0 [(700, .valid)] false) raiseUnderFrame = .next t) :
    ((t.region 0).vmons.get 0).slewing = true := by
  obtain rfl := Host.Outcome.next.inj h
  decide +kernel

/-- Refutes O41: a reading is flagged while a frame is in progress, also where the regulator does not slew. -/
theorem not_sensorsAreRead : ¬ Obligations.SensorsAreRead := by
  unfold Obligations.SensorsAreRead
  intro h
  obtain ⟨-, -, -, -, -, hread, -⟩ := h raiseUnderFrame 0
  obtain ⟨t, hexec, hmons, -⟩ := hread [(700, .valid)] 700 rfl rfl rfl
  have hslew := slewing_of_raiseUnderFrame hexec
  have hclear := congrArg VMon.slewing (hmons 0 (by decide) (by decide))
  exact Bool.false_ne_true (hclear.symm.trans hslew)

end Sys2Proof.Machine
end

