-- ==== Sys2Proof/Proofs/DebugPort.lean ====
section
/-!
SUPPORT. The test access port: instructions, authorisation, the end of a grant (R485 to R492).
-/

namespace Sys2Proof.Machine

/-! ### The debug port of a hub (R485 to R492) -/

@[simp] theorem State.modDbg_dbg (s : State) (h : Hub) (f : Debug → Debug) : (s.modDbg h f).dbg h = f (s.dbg h) := by
  cases h <;> rfl

theorem State.modDbg_hubOf_ne {h x : Hub} (hx : x ≠ h) (s : State) (f : Debug → Debug) :
    (s.modDbg h f).hubOf x = s.hubOf x := by
  cases h <;> cases x
  case a.a => exact absurd rfl hx
  case b.b => exact absurd rfl hx
  case a.b => rfl
  case b.a => rfl

@[simp] theorem State.modDbg_hub (s : State) (h : Hub) (f : Debug → Debug) : (s.modDbg h f).hub = s.hub := by
  cases h <;> rfl

@[simp] theorem State.modDbg_regions (s : State) (h : Hub) (f : Debug → Debug) : (s.modDbg h f).regions = s.regions := by
  cases h <;> rfl

@[simp] theorem State.modDbg_out (s : State) (h : Hub) (f : Debug → Debug) : (s.modDbg h f).out = s.out := by
  cases h <;> rfl

@[simp] theorem State.emit_dbg (s : State) (e : Effect) (h : Hub) : (s.emit e).dbg h = s.dbg h := by cases h <;> rfl

@[simp] theorem State.nextFree_dbg (s : State) (h : Hub) : s.nextFree.dbg h = s.dbg h := by cases h <;> rfl

@[simp] theorem State.emit_hubOf (s : State) (e : Effect) (h : Hub) : (s.emit e).hubOf h = s.hubOf h := by cases h <;> rfl

/-- What leaves at TDO as an instruction is shifted in: the 0x01 that the register captured, where another was selected. -/
def shiftedOut (s : State) (h : Hub) (i : Nat) : List Effect := if (s.dbg h).instr = i then [] else [.tdo h 0x01]

theorem loadInstr_eq (h : Hub) (i : Nat) (s : State) : loadInstr h i s =
    ({ s with out := s.out ++ shiftedOut s h i } : State).modDbg h (fun d => { d with instr := i, driving := false }) := by
  unfold loadInstr shiftedOut
  split
  · simp
  · rfl

@[simp] theorem loadInstr_dbg (h : Hub) (i : Nat) (s : State) :
    (loadInstr h i s).dbg h = { s.dbg h with instr := i, driving := false } := by
  rw [loadInstr_eq, State.modDbg_dbg]
  cases h <;> rfl

@[simp] theorem loadInstr_out (h : Hub) (i : Nat) (s : State) : (loadInstr h i s).out = s.out ++ shiftedOut s h i := by
  rw [loadInstr_eq, State.modDbg_out]

@[simp] theorem loadInstr_hub (h : Hub) (i : Nat) (s : State) : (loadInstr h i s).hub = s.hub := by
  rw [loadInstr_eq, State.modDbg_hub]

@[simp] theorem loadInstr_regions (h : Hub) (i : Nat) (s : State) : (loadInstr h i s).regions = s.regions := by
  rw [loadInstr_eq, State.modDbg_regions]

theorem loadInstr_hubOf_ne {h x : Hub} (hx : x ≠ h) (i : Nat) (s : State) : (loadInstr h i s).hubOf x = s.hubOf x := by
  rw [loadInstr_eq, State.modDbg_hubOf_ne hx]
  cases x <;> rfl

theorem dbgResult_answers (h : Hub) (status why : Nat) (data : Word) (s : State) :
    DebugAnswers (dbgResult h status why data s) h status why data := by
  unfold DebugAnswers dbgResult
  simp only [State.emit_dbg, State.modDbg_dbg, State.emit_out, true_and]
  exact List.mem_append_right _ (List.mem_singleton.2 rfl)

/-- A command of the test access port, which answers (R485). -/
theorem next_tapUp {s t : State} (hs : s.tapUp = true) (u : State) :
    (Host.Outcome.next (if s.tapUp then t else u) : Host.Outcome State Fault Refusal) = .next t :=
  congrArg _ (if_pos hs)

theorem samplePins_dbg (h : Hub) (i : Nat) (bits : List Bool) (s : State) :
    (samplePins h i bits s).dbg h = { s.dbg h with instr := i, driving := false, boundary := bits } := by
  simp [samplePins, captureBoundary]

theorem samplePins_hub (h : Hub) (i : Nat) (bits : List Bool) (s : State) : (samplePins h i bits s).hub = s.hub := by
  simp [samplePins, captureBoundary]

theorem samplePins_regions (h : Hub) (i : Nat) (bits : List Bool) (s : State) :
    (samplePins h i bits s).regions = s.regions := by
  simp [samplePins, captureBoundary]

theorem samplePins_hubOf_ne {h x : Hub} (hx : x ≠ h) (i : Nat) (bits : List Bool) (s : State) :
    (samplePins h i bits s).hubOf x = s.hubOf x := by
  have hframe (u : State) : (captureBoundary h u).hubOf x = u.hubOf x := by cases x <;> rfl
  exact ((hframe _).trans (State.modDbg_hubOf_ne hx _ _)).trans (loadInstr_hubOf_ne hx i s)

/-- A request is answered with a challenge, or refused where TAP_EN is 0 (R487). -/
theorem authRequest_enabled {s : State} {h : Hub} (hc : s.dbgClocked h = true) (ha : s.canAuth h = true)
    (he : s.cfgBit 0x4000 0 = true) (scope : BitVec 6) : authRequest h scope s =
      (((loadInstr h 0x20 s).modDbg h (fun d => { d with challenge := some (Config.challenge h s.fresh), reqScope := scope })).emit
        (.tdo h (leAt (Config.challenge h s.fresh) 0 48))).nextFree := by
  simp only [authRequest, hc, ha, he, Bool.true_eq_false, if_false]

theorem authRequest_disabled {s : State} {h : Hub} (hc : s.dbgClocked h = true) (ha : s.canAuth h = true)
    (he : s.cfgBit 0x4000 0 = false) (scope : BitVec 6) : authRequest h scope s =
      authResult h codeAuth 0xC4 ((loadInstr h 0x20 s).modDbg h (fun d => { d with challenge := none })) := by
  simp only [authRequest, hc, ha, he, Bool.true_eq_false, if_false, if_true]

/-- A verification uses up the challenge, and a good certificate grants a scope (R487). -/
theorem authVerified_dbg {s : State} {h : Hub} (hc : s.dbgClocked h = true) (ha : s.canAuth h = true) (c : DbgCert) :
    (authVerified h c s).dbg h = (match certReason s h c with
      | some e => { s.dbg h with challenge := none, authCode := codeAuth, authDetail := e }
      | none => { s.dbg h with
          challenge := none, scope := c.scope &&& (s.dbg h).reqScope, authCode := codeOk, authDetail := 0 }) := by
  unfold authVerified
  rw [if_neg (by simp [hc, ha])]
  cases certReason s h c <;> simp [authResult]

theorem authVerified_hub (h : Hub) (c : DbgCert) (s : State) : (authVerified h c s).hub = s.hub := by
  unfold authVerified
  split
  · rfl
  · cases certReason s h c <;> simp [authResult]

theorem authVerified_regions (h : Hub) (c : DbgCert) (s : State) : (authVerified h c s).regions = s.regions := by
  unfold authVerified
  split
  · rfl
  · cases certReason s h c <;> simp [authResult]

theorem endGrant_dbg (h : Hub) (s : State) : ∃ d : Debug, (endGrant h s).dbg h =
    ({ d with scope := 0, halted := [], bpCores := [], driving := false } : Debug) := by
  unfold endGrant
  exact ⟨_, State.modDbg_dbg _ _ _⟩

/-- NOP shows the latest result, unless it is itself a bad operation (R491, R492). -/
theorem execNop_shows {s : State} {h : Hub} {op : DbgOp} (ht : s.tapUp = true) (hc : s.dbgClocked h = true)
    (hb : (s.dbg h).pendOp.isSome = true ∨ s.dbgBad op [0, 1, 2, 3, 4, 5] = false) :
    exec (.nop ⟨h, op⟩) s = .next ((loadInstr h 0x21 s).emit (.tdo h (s.dbg h).capture)) := by
  refine congrArg Host.Outcome.next ((if_neg (by simp [ht])).trans ((if_neg (by simp [hc])).trans (if_neg ?_)))
  rintro ⟨hn, hbad⟩
  rcases hb with hb | hb
  · simp_all
  · simp [hb] at hbad

theorem execNop_bad {s : State} {h : Hub} {op : DbgOp} (ht : s.tapUp = true) (hc : s.dbgClocked h = true)
    (hn : (s.dbg h).pendOp = none) (hb : s.dbgBad op [0, 1, 2, 3, 4, 5] = true) :
    exec (.nop ⟨h, op⟩) s = .next (dbgResult h 6 0 0 ((loadInstr h 0x21 s).dbgFields h op)) :=
  congrArg Host.Outcome.next ((if_neg (by simp [ht])).trans ((if_neg (by simp [hc])).trans (if_pos ⟨by simp [hn], hb⟩)))

theorem extest_next {s : State} (h : Hub) (ht : s.tapUp = true) (bits : List Bool) :
    ∃ t, exec (.extest h bits) s = .next t ∧ (t.dbg h).boundary = bits ∧ (t.dbg h).instr = 0x00 ∧
      ((t.dbg h).driving = true ↔ bitOf (s.dbg h).scope.toNat 5 = true ∧ (s.hubA.engRunLow = true ∨ s.hubB.engRunLow = true)) ∧
      t.hub = s.hub ∧ t.regions = s.regions := by
  by_cases hd : bitOf (s.dbg h).scope.toNat 5 = true ∧ (s.hubA.engRunLow = true ∨ s.hubB.engRunLow = true)
  · refine ⟨_, congrArg Host.Outcome.next ((if_neg (by simp [ht])).trans (if_pos hd)), ?_⟩
    simp [samplePins_dbg, samplePins_hub, samplePins_regions, hd]
  · refine ⟨_, congrArg Host.Outcome.next ((if_neg (by simp [ht])).trans (if_neg hd)), ?_⟩
    simp [samplePins_dbg, samplePins_hub, samplePins_regions, hd]

/-- Settles O51, instruction by instruction. -/
theorem debugPortAnswers : Obligations.DebugPortAnswers := by
  unfold Obligations.DebugPortAnswers
  intro s h ht
  refine ⟨⟨_, next_tapUp ht s, by simp, by simp [shiftedOut, idcodeWord], by simp, by simp⟩,
    ⟨_, next_tapUp ht s, by simp [shiftedOut], by simp, by simp⟩,
    fun bits => ⟨_, next_tapUp ht s, by simp [samplePins_dbg], by simp [samplePins_dbg],
      fun x hx => samplePins_hubOf_ne hx _ _ _, samplePins_hub _ _ _ _, samplePins_regions _ _ _ _⟩,
    extest_next h ht,
    fun hc ha scope => ⟨fun he => ⟨_, (next_tapUp ht s).trans (congrArg _ (authRequest_enabled hc ha he scope)), ?_⟩,
      fun he => ⟨_, (next_tapUp ht s).trans (congrArg _ (authRequest_disabled hc ha he scope)), ?_⟩⟩,
    fun hc ha c => ⟨_, next_tapUp ht s, ?_⟩,
    ⟨_, next_tapUp ht s, ?_⟩,
    fun op hc hb => ⟨_, execNop_shows ht hc hb, by simp, by simp [shiftedOut]⟩,
    fun op hc hn hb => ⟨_, execNop_bad ht hc hn hb, dbgResult_answers _ _ _ _ _⟩,
    fun n hn => ⟨_, congrArg Host.Outcome.next (if_pos (by simp [hn])), ?_, dbgResult_answers _ _ _ _ _⟩⟩
  · simp
  · simp [authResult]
  · rw [authVerified_dbg hc ha c]
    cases he : certReason s h c <;> simp [authVerified_hub, authVerified_regions]
  · obtain ⟨d, hd⟩ := endGrant_dbg h s
    simp [hd]
  · simp [dbgResult]

end Sys2Proof.Machine
end

