-- ==== Sys2Proof/Proofs/CommandEntries.lean ====
section
/-!
SUPPORT. CAP_SET entries, model commands, queries (R43, R116 to R119, R284, R301 to R307).
-/

namespace Sys2Proof.Machine

/-! ### CAP_SET entries and relays (R43, R284, R301 to R303) -/

/-- An item of an entry that sets the package ceiling below P_floor (R43). -/
theorem capFloor_iff (s : State) (items : List CapItem) :
    items.any (fun i => i.kind == 0 && decide (i.ceiling < s.pFloor)) = true ↔
      ∃ i ∈ items, i.kind = 0 ∧ i.ceiling < s.pFloor := by
  simp

theorem capSet_rejected {s : State} {t : Taken} {k : Nat}
    (hr : capReject ((List.range t.count).map (capItem t.entry)) = some k) :
    capSet t s = s.complete t.cmd codeBadArg (0x70 + k) := by
  simp only [capSet, hr]

theorem capSet_below {s : State} {t : Taken} (hr : capReject ((List.range t.count).map (capItem t.entry)) = none)
    (hb : ∃ i ∈ (List.range t.count).map (capItem t.entry), i.kind = 0 ∧ i.ceiling < s.pFloor) :
    capSet t s = s.complete t.cmd codeBadArg 0x77 := by
  simp only [capSet, hr]
  exact if_pos ((capFloor_iff s _).2 hb)

theorem capSet_recorded {s : State} {t : Taken} (hr : capReject ((List.range t.count).map (capItem t.entry)) = none)
    (hb : ∀ i ∈ (List.range t.count).map (capItem t.entry), i.kind = 0 → s.pFloor ≤ i.ceiling) :
    capSet t s = (s.begin t).modBudget (fun b => { b with caps := b.caps ++ [{
      cmd := t.cmd, items := (List.range t.count).map (capItem t.entry), ecap := s.hub.ecap.active }] }) := by
  simp only [capSet, hr]
  refine if_neg fun h => ?_
  obtain ⟨i, hi, hk, hl⟩ := (capFloor_iff s _).1 h
  exact absurd (hb i hi hk) (Nat.not_le.2 hl)

/-- The group that a relay's key names (R303). -/
def State.relayTarget (s : State) (t : Taken) : Option (Nat × Group) :=
  s.hub.groups.defs.find? (fun p => p.2.defined && bitOf p.2.flags 1 && p.2.key == BitVec.ofNat 32 (leAt t.entry 8 4))

theorem relayGroup_unknown {s : State} {t : Taken} (h : s.relayTarget t = none) :
    relayGroup t s = s.complete t.cmd codeBadArg 0x1A := by
  unfold State.relayTarget at h
  simp only [relayGroup, h]

theorem relayGroup_named {s : State} {t : Taken} {gid : Nat} {g : Group} (h : s.relayTarget t = some (gid, g)) :
    relayGroup t s =
      if byteAt t.entry 0x0C = 0 ∨ 64 < byteAt t.entry 0x0C then s.complete t.cmd codeBadArg 0x1B
      else if (s.home gid).relayS.any (fun x => !reached (BitVec.ofNat 32 (leAt t.entry 0x10 4)) x) then
        s.complete t.cmd codeOk 0
      else (s.begin t).modHome gid (fun h => { h with
        rRemote := byteAt t.entry 0x0C, relayS := some (BitVec.ofNat 32 (leAt t.entry 0x10 4))
        relayDue := some (BitVec.ofNat 32 (leAt t.entry 0x10 4)), relays := h.relays ++ [t.cmd] }) := by
  unfold State.relayTarget at h
  simp only [relayGroup, h]
  cases (s.home gid).relayS <;> rfl

/-- Settles O18: an entry by what rejects it, a relay by its group and its step. -/
theorem capSetIsRecorded : Obligations.CapSetIsRecorded := by
  unfold Obligations.CapSetIsRecorded
  refine fun s t => ⟨fun ht => ⟨fun hr hb => ?_, fun k hk => ?_, fun hr hb => ?_⟩, fun ht => ?_⟩
  · exact next_journaled_congr ((runTaken_eq capSet ht).trans (capSet_recorded hr hb))
  · exact next_journaled_congr ((runTaken_eq capSet ht).trans (capSet_rejected hk))
  · exact next_journaled_congr ((runTaken_eq capSet ht).trans (capSet_below hr hb))
  · have hrun := runTaken_eq relayGroup ht
    refine ⟨fun hn => next_journaled_congr (hrun.trans (relayGroup_unknown hn)), fun gid g hg => ?_⟩
    have he := hrun.trans (relayGroup_named hg)
    refine ⟨fun hc => next_journaled_congr (he.trans (if_pos hc)), fun h1 h2 => ?_⟩
    have hc : ¬ (byteAt t.entry 0x0C = 0 ∨ 64 < byteAt t.entry 0x0C) := by omega
    refine ⟨fun hx => ?_, fun ⟨x, hx, hr⟩ => ?_⟩
    · refine next_journaled_congr (he.trans ((if_neg hc).trans (if_neg ?_)))
      cases hs : (s.home gid).relayS with
      | none => simp
      | some x => simpa using hx x hs
    · refine next_journaled_congr (he.trans ((if_neg hc).trans (if_pos ?_)))
      simp [hx, hr]

/-! ### Model commands (R116 to R119) -/

/-- What a model command that is taken in hand leaves for the boundaries. -/
def State.takeLoad (s : State) (t : Taken) (img : List Byte) : State :=
  (s.begin t).modHub (fun h => { h with loads := h.loads ++
    [{ cmd := t.cmd, mask := BitVec.ofNat 64 (leAt t.entry 8 8), image := img }] })

/-- A region of the mask is locked against model commands (R117). -/
def State.namesLocked (s : State) (rs : List Nat) : Prop :=
  ∃ r ∈ rs, s.cfgBit (offSage r) 31 = true ∧ s.cfg (offSage r) 0 2 = 0

theorem startLoad_eq (s : State) (t : Taken) : startLoad t s =
    if onesOf 64 (BitVec.ofNat 64 (leAt t.entry 8 8)).toNat = [] then s.complete t.cmd codeBadArg 9
    else if (onesOf 64 (BitVec.ofNat 64 (leAt t.entry 8 8)).toNat).any
        (fun r => s.cfgBit (offSage r) 31 && s.cfg (offSage r) 0 2 == 0) then s.complete t.cmd codeLocked 0
    else if leAt t.entry 0x18 4 = 0 then s.takeLoad t []
    else match imageReason t.body (leAt t.entry 0x18 4) with
    | some d => s.complete t.cmd codeBadArg d
    | none => s.takeLoad t t.body := rfl

theorem namesLocked_iff (s : State) (rs : List Nat) :
    rs.any (fun r => s.cfgBit (offSage r) 31 && s.cfg (offSage r) 0 2 == 0) = true ↔ s.namesLocked rs := by
  simp [State.namesLocked]

/-- A model command that is carried out: the load for an image, the unload for none. -/
theorem modelCommand_next {s : State} {t : Taken} {load : Bool} {c : Instr}
    (hc : (c = .modelLoad ∧ load = true) ∨ (c = .modelUnload ∧ load = false)) (ht : Executes s opModelLoad (loadFree s load) t) :
    exec c s = .next (journaled (startLoad t) s) := by
  rcases hc with ⟨rfl, rfl⟩ | ⟨rfl, rfl⟩ <;> exact next_journaled_congr (runTaken_eq startLoad ht)

theorem firstTaken_pred {s : State} {op : Nat} {p : Taken → Bool} {t : Taken} (h : s.firstTaken op p = some t) :
    t.opcode = op ∧ p t = true := by
  unfold State.firstTaken at h
  split at h
  · cases h
  · have := (Option.filter_eq_some_iff.1 h).2
    simpa using this

/-- Settles O19, in the order of the checks of R116 and R117. -/
theorem modelCommandTaken : Obligations.ModelCommandTaken := by
  unfold Obligations.ModelCommandTaken
  intro s t load c hc ht mask
  have hn := modelCommand_next hc ht
  have hlen : load = true ↔ leAt t.entry 0x18 4 ≠ 0 := by
    have := (firstTaken_pred ht.2.1).2
    unfold loadFree at this
    cases load <;> simp_all
  refine ⟨fun he => ?_, fun hl => ?_, fun hne hfree => ⟨fun hi => ?_, fun d hload hd => ?_⟩⟩
  · exact hn.trans (next_journaled_congr ((startLoad_eq s t).trans (if_pos he)))
  · have hne : onesOf 64 mask.toNat ≠ [] := by
      obtain ⟨r, hr, -⟩ := hl
      exact List.ne_nil_of_mem hr
    exact hn.trans (next_journaled_congr ((startLoad_eq s t).trans ((if_neg hne).trans (if_pos ((namesLocked_iff s _).2 hl)))))
  all_goals
    have hopen : ¬ s.namesLocked (onesOf 64 mask.toNat) := by
      rintro ⟨r, hr, h1, h2⟩
      rcases hfree r hr with h | h
      · simp [h] at h1
      · exact h h2
    refine hn.trans (next_journaled_congr ((startLoad_eq s t).trans ((if_neg hne).trans
      ((if_neg fun h => hopen ((namesLocked_iff s _).1 h)).trans ?_))))
  · cases load with
    | true => rw [if_neg (hlen.1 rfl), hi rfl]; rfl
    | false => rw [if_pos (by_contra fun h => absurd (hlen.2 h) (by simp))]; rfl
  · rw [if_neg (hlen.1 hload), hd]

/-! ### Queries (R307) -/

/-- The last act of a boundary of a running hub, once its body is done (R307, R313). -/
theorem controlPeriod_running {s : State} {inp : BoundaryInput} (hc : s.clk.st ≠ .stopped) (hr : s.pow.rstLow = false) :
    controlPeriod inp s =
      subscribed ((List.range 64).map (fun r => (s.region r).tripsNow)) (answerQueries (boundaryBody inp s)) := by
  unfold controlPeriod
  rw [if_neg hc, if_neg (by simp [hr])]

theorem answerQueries_one {s : State} {t : Taken} (hc : s.inControl = true) (hq : s.queriesInHand = [t]) :
    answerQueries s = answerQuery t s := by
  unfold answerQueries
  rw [hc, hq]
  rfl

/-- A query that is taken up is answered by the next boundary. -/
theorem query_answered {s : State} {t : Taken} {inp : BoundaryInput} (hc : s.clk.st ≠ .stopped) (hr : s.pow.rstLow = false)
    {x : State} (hv : (boundaryBody inp (journaled (fun _ => s.begin t) s)).inControl = true)
    (hq : (boundaryBody inp (journaled (fun _ => s.begin t) s)).queriesInHand = [{ t with started := true }])
    (ha : answerQuery { t with started := true } (boundaryBody inp (journaled (fun _ => s.begin t) s)) = x) :
    exec (.controlPeriodBoundary inp) (journaled (fun _ => s.begin t) s) =
      .next (journaled (fun _ => subscribed ((List.range 64).map (fun r => (s.region r).tripsNow)) x)
        (journaled (fun _ => s.begin t) s)) := by
  refine next_journaled_congr ((controlPeriod_running ?_ ?_).trans ?_)
  · simpa using! hc
  · simpa using! hr
  · rw [answerQueries_one hv hq, ha]
    simp only [journaled_region]
    rfl

theorem queryGroup_defined {s : State} {t : Taken} {g : Group} (h : s.group (leAt t.entry 0x0C 4) = some g) :
    queryGroup t s = s.complete t.cmd codeOk 0 (groupBytes s (leAt t.entry 0x0C 4) g) := by
  simp only [queryGroup, h]

theorem queryGroup_unknown {s : State} {t : Taken} (h : s.group (leAt t.entry 0x0C 4) = none) :
    queryGroup t s = s.complete t.cmd codeBadArg 0x19 := by
  simp only [queryGroup, h]

/-- Settles O23: a query by its kind. -/
theorem queryReturnsFigures : Obligations.QueryReturnsFigures := by
  unfold Obligations.QueryReturnsFigures
  intro s t k ht hclk hrst u id inp v answer
  have hk : byteAt t.entry 8 = k := by simpa using (firstTaken_pred ht.2.1).2
  have htake (hx : runTaken opQuery (fun t => byteAt t.entry 8 == k) startQuery s = s.begin t) :
      (Host.Outcome.next (journaled (runTaken opQuery (fun t => byteAt t.entry 8 == k) startQuery) s) :
        Host.Outcome State Fault Refusal) = .next u := next_journaled_congr hx
  have hb := htake (runTaken_eq startQuery ht)
  refine ⟨?_, ?_, ?_⟩
  · rintro rfl
    refine ⟨hb, fun hv hq => ⟨fun hs hg => query_answered hclk hrst hv hq ?_, fun hs => query_answered hclk hrst hv hq ?_⟩⟩
    all_goals rw [answerQuery, if_pos hk, queryGrant]
    · exact if_neg fun h => h.elim hs fun h => h hg
    · exact if_pos hs
  · rintro rfl
    refine ⟨hb, fun hv hq => ⟨fun g hg => query_answered hclk hrst hv hq ?_, fun hg => query_answered hclk hrst hv hq ?_⟩⟩
    all_goals rw [answerQuery, if_neg (by simp [hk]), if_pos hk]
    · exact queryGroup_defined hg
    · exact queryGroup_unknown hg
  · rintro rfl
    refine ⟨hb, fun hv hq => ⟨fun hi => query_answered hclk hrst hv hq ?_, fun hi => query_answered hclk hrst hv hq ?_⟩⟩
    all_goals rw [answerQuery, if_neg (by simp [hk]), if_neg (by simp [hk]), querySpec]
    · exact if_neg (Nat.not_lt.2 hi)
    · exact if_pos hi

end Sys2Proof.Machine
end

