-- ==== Sys2Proof/Proofs/Staging.lean ====
section
/-!
SUPPORT. Cores of the hubs and firmware stages (R355, R369 to R371).
-/

namespace Sys2Proof.Machine

/-! ### Cores of the hubs -/

theorem modCore_coreAt (s : State) (h x : Hub) (k : Nat) (f : HubCore → HubCore) :
    (s.modCore h k f).coreAt x k = if x = h then f (s.coreAt x k) else s.coreAt x k := by
  have hcore (u : HubSt) : (u.modCore k f).core k = f (u.core k) := by
    match k with
    | 0 => rfl
    | 1 => rfl
    | _ + 2 => rfl
  cases h <;> cases x
  case a.a => exact hcore s.hubA
  case b.b => exact hcore s.hubB
  case a.b => rfl
  case b.a => rfl

@[simp] theorem modCore_hub (s : State) (h : Hub) (k : Nat) (f : HubCore → HubCore) : (s.modCore h k f).hub = s.hub := by
  simp [State.modCore]

@[simp] theorem modCore_pair (s : State) (h : Hub) (k : Nat) (f : HubCore → HubCore) : (s.modCore h k f).pair = s.pair := by
  simp [State.modCore]

@[simp] theorem journaled_hubOf (f : State → State) (s : State) (h : Hub) : (journaled f s).hubOf h = (f s).hubOf h := by
  cases h
  · exact journaled_hubA f s
  · exact journaled_hubB f s

@[simp] theorem journaled_coreAt (f : State → State) (s : State) (h : Hub) (k : Nat) :
    (journaled f s).coreAt h k = (f s).coreAt h k := congrArg (fun u => HubSt.core u k) (journaled_hubOf f s h)

@[simp] theorem complete_hubOf (s : State) (cmd : CmdRef) (code detail : Nat) (result : List Byte) (h : Hub) :
    (s.complete cmd code detail result).hubOf h = s.hubOf h := by
  unfold State.complete
  split
  · rfl
  · cases h <;> rfl

@[simp] theorem complete_coreAt (s : State) (cmd : CmdRef) (code detail : Nat) (result : List Byte) (h : Hub) (k : Nat) :
    (s.complete cmd code detail result).coreAt h k = s.coreAt h k :=
  congrArg (fun u => HubSt.core u k) (complete_hubOf s cmd code detail result h)

@[simp] theorem complete_fw (s : State) (cmd : CmdRef) (code detail : Nat) (result : List Byte) :
    (s.complete cmd code detail result).hub.fw = s.hub.fw := by
  unfold State.complete
  split <;> rfl

/-! ### Staging (R355, R369, R370) -/

@[simp] theorem putStaged_stagedImage (x : Option FwImage) (c : HubCore) : (c.putStaged x).stagedImage = x := by
  unfold HubCore.putStaged HubCore.stagedImage
  cases c.bank <;> simp

@[simp] theorem putStaged_image (x : Option FwImage) (c : HubCore) : (c.putStaged x).image = c.image := by
  unfold HubCore.putStaged HubCore.image
  cases c.bank <;> simp

@[simp] theorem putStaged_state (x : Option FwImage) (c : HubCore) : (c.putStaged x).state = c.state := by
  unfold HubCore.putStaged
  split <;> rfl

@[simp] theorem putStaged_putStaged (x : Option FwImage) (c : HubCore) : (c.putStaged x).putStaged x = c.putStaged x := by
  unfold HubCore.putStaged
  cases c.bank <;> simp

/-- An image goes into the staged bank of a target at the owner and at a standby that is STANDBY VALID. -/
def State.fillBanks (s : State) (k : Nat) (x : Option FwImage) : State :=
  match s.validStandby with
  | some w => (s.modCore (s.owner.getD .a) k (HubCore.putStaged x)).modCore w k (HubCore.putStaged x)
  | none => s.modCore (s.owner.getD .a) k (HubCore.putStaged x)

theorem fillBanks_coreAt (s : State) (k : Nat) (x : Option FwImage) (h : Hub) :
    (s.fillBanks k x).coreAt h k =
      if h = s.owner.getD .a ∨ s.validStandby = some h then (s.coreAt h k).putStaged x else s.coreAt h k := by
  unfold State.fillBanks
  cases hw : s.validStandby with
  | none => simp [modCore_coreAt]
  | some w =>
    simp only [modCore_coreAt, Option.some.injEq, eq_comm (a := w)]
    by_cases ho : h = s.owner.getD .a
    · rw [if_pos ho, if_pos (Or.inl ho), putStaged_putStaged, ite_self]
    · rw [if_neg ho]
      exact if_congr (or_iff_right ho).symm rfl rfl

@[simp] theorem fillBanks_rings (s : State) (k : Nat) (x : Option FwImage) : (s.fillBanks k x).hub.rings = s.hub.rings := by
  unfold State.fillBanks
  split <;> simp

@[simp] theorem fillBanks_jn (s : State) (k : Nat) (x : Option FwImage) : (s.fillBanks k x).pair.jn = s.pair.jn := by
  unfold State.fillBanks
  split <;> simp

theorem stageImage_fails {s : State} {t : Taken} {ok : Bool} {c d : Nat} (h : stageCheck s t = some (c, d)) :
    stageImage ok t s = s.complete t.cmd c d := by
  simp only [stageImage, h]

theorem stageImage_hub {s : State} {t : Taken} {ok : Bool} (hc : stageCheck s t = none) (hk : byteAt t.entry 0x14 < 3)
    (ho : s.validStandby = none ∨ ok = true) :
    stageImage ok t s = (s.fillBanks (byteAt t.entry 0x14) (some (imageOf t.body))).complete t.cmd codeOk 0 := by
  have hcopy : (s.validStandby.isSome && !ok) = false := by
    rcases ho with h | h <;> simp [h]
  simp only [stageImage, hc, if_neg (Nat.ne_of_lt hk), hcopy, Bool.false_eq_true, if_false]
  rfl

/-- The copies of a stage of TARGET 3 are awaited from every governor (R369). -/
def State.stageChives (s : State) (t : Taken) : State :=
  (s.begin t).modFw (fun f => { f.putChive none with
    stageCmd := some t.cmd, stageImg := some (imageOf t.body), stageWait := List.range 64 })

theorem stageImage_chives {s : State} {t : Taken} {ok : Bool} (hc : stageCheck s t = none) (hk : byteAt t.entry 0x14 = 3) :
    stageImage ok t s = (List.range 64).foldl (fun a r => a.hubAsk (.fwCode r)) (s.stageChives t) := by
  simp only [stageImage, hc, if_pos hk]
  rfl

theorem stageImage_chives_said {s : State} {t : Taken} {ok : Bool} (hc : stageCheck s t = none) (hk : byteAt t.entry 0x14 = 3)
    (ho : s.owner.isSome = true) {r : Nat} (hr : r < 64) : Said (stageImage ok t s) (.fwCode r) := by
  have hown : (s.stageChives t).owner.isSome = true := ho
  rw [stageImage_chives hc hk]
  exact foldl_hubAsk_said (fun k => Msg.fwCode k) (List.range 64) hown r (List.mem_range.2 hr)

/-- The staged image of the Chives goes into the bank that they do not run. -/
theorem stagedChives_putChive (x : Option FwImage) (f : Firmware) :
    (if (f.putChive x).chiveBank then (f.putChive x).chive0 else (f.putChive x).chive1) = x ∧
      (if (f.putChive x).chiveBank then (f.putChive x).chive1 else (f.putChive x).chive0) =
        if f.chiveBank then f.chive1 else f.chive0 := by
  unfold Firmware.putChive
  cases f.chiveBank <;> simp

/-- A stage of TARGET 3 as it ends well (R369). -/
def State.endStage (s : State) (c : CmdRef) : State :=
  (s.modFw (fun f => { f.putChive s.hub.fw.stageImg with
    stageCmd := none, stageImg := none, stageWait := [], stageBad := false })).complete c codeOk 0

theorem finishStage_good {s : State} {c : CmdRef} (hc : s.hub.fw.stageCmd = some c) (hw : s.hub.fw.stageWait = [])
    (hb : s.hub.fw.stageBad = false) (hs : s.secHalted = false) : finishStage s = s.endStage c := by
  simp only [finishStage, hc, hs, hb, hw, Bool.false_eq_true, if_false, if_true, State.endStage]

theorem endStage_rings (s : State) (c : CmdRef) : (s.endStage c).hub.rings = (s.complete c codeOk 0).hub.rings := by
  refine complete_rings_congr (s := s) ?_ ?_ _ _ _ _ <;> rfl

theorem endStage_fw (s : State) (c : CmdRef) : (s.endStage c).hub.fw = { s.hub.fw.putChive s.hub.fw.stageImg with
    stageCmd := none, stageImg := none, stageWait := [], stageBad := false } :=
  complete_fw _ _ _ _ _

/-- A governor has reported its copy. -/
def State.copyReported (s : State) (r : Nat) : State :=
  (s.answered (fun m => match m with | .fwCode k => k == r | _ => false)).modFw (fun f => { f with
    stageWait := f.stageWait.filter (fun k => k != r) })

/-- The last good report of a copy ends the stage (R369). -/
theorem stageReport_last {s : State} {r : Nat} {c : CmdRef} (hc : s.hub.fw.stageCmd = some c) (hw : s.hub.fw.stageWait = [r])
    (hb : s.hub.fw.stageBad = false) (hs : s.secHalted = false) : stageReport r true s = (s.copyReported r).endStage c := by
  have hwait : ¬ ((s.answered (fun m => match m with | .fwCode k => k == r | _ => false)).hub.fw.stageCmd.isNone = true ∨
      r ∉ (s.answered (fun m => match m with | .fwCode k => k == r | _ => false)).hub.fw.stageWait) := by
    simp [hc, hw]
  refine (if_neg hwait).trans ((if_neg (by simp)).trans (finishStage_good hc ?_ hb hs))
  show s.hub.fw.stageWait.filter (fun k => k != r) = []
  simp [hw]

/-- Settles O21: the stage of a hub target, of the Chives, and the last report of a copy. -/
theorem stageFillsStagedBank : Obligations.StageFillsStagedBank := by
  unfold Obligations.StageFillsStagedBank
  refine fun s => ⟨fun t ok ht => ?_, fun r hdr c hh hc hw hb hs => ?_⟩
  · have hrun := runTaken_eq (stageImage ok) ht
    refine ⟨fun hg hk ho => ?_, fun c d hd => next_journaled_congr (hrun.trans (stageImage_fails hd)), fun hg hk => ?_⟩
    · refine ⟨_, next_journaled_congr (g := fun s => (s.fillBanks _ _).complete _ _ _)
        (hrun.trans (stageImage_hub hg hk ho)), ?_, fun w hw => ?_, fun h => ?_, ?_⟩
      all_goals simp only [journaled_coreAt, complete_coreAt, fillBanks_coreAt, journaled_hub]
      · rw [if_pos (Or.inl trivial), putStaged_stagedImage]
      · rw [if_pos (Or.inr hw), putStaged_stagedImage]
      · split <;> simp
      · exact complete_rings_congr (fillBanks_rings _ _ _) (fillBanks_jn _ _ _) _ _ _ _
    · have hm := stageImage_chives (ok := ok) hg hk ▸
        OnlyMessages.foldl (fun a r => hubAsk_onlyMessages a (.fwCode r)) (List.range 64) (s.stageChives t)
      refine ⟨_, next_journaled_congr (g := stageImage ok t) hrun, ?_, ?_, ?_, fun r => ?_, ?_⟩
      · rw [journaled_hub, hm.hub]
        rfl
      · rw [journaled_hub, hm.hub]
        rfl
      · rw [journaled_hub, hm.hub]
        rfl
      · exact (stageImage_chives_said hg hk (owner_of_inControl ht.1) r.isLt).journaled
      · rw [journaled_regions, hm.regions]
        rfl
  · have hlast := stageReport_last (s := s.heard 0x60 hdr) hc hw hb hs
    refine ⟨_, (next_hubAccept _ hh).trans
      (next_journaled_congr (g := fun s => ((s.heard 0x60 hdr).copyReported r).endStage c) hlast), ?_⟩
    obtain ⟨h1, h2⟩ := stagedChives_putChive s.hub.fw.stageImg (((s.heard 0x60 hdr).copyReported r).hub.fw)
    simp only [State.stagedOf, State.runningOf, journaled_hub, endStage_fw, endStage_rings]
    refine ⟨h1, h2, trivial, complete_rings_congr (s := s) ?_ ?_ _ _ _ _⟩ <;> rfl

end Sys2Proof.Machine
end

