-- ==== Sys2Proof/Proofs/TrimLoads.lean ====
section
/-!
SUPPORT. Trim images, first-life loads, restored phases (R221, R222, R225, R304).
-/

namespace Sys2Proof.Machine

/-! ### Steps over the regions -/

/-- Regions and governors alone may differ. -/
def OnlyRegions (s t : State) : Prop := t = { s with regions := t.regions, govs := t.govs }

theorem OnlyRegions.trans {s t u : State} (h₁ : OnlyRegions s t) (h₂ : OnlyRegions t u) : OnlyRegions s u := by
  unfold OnlyRegions at *
  rw [h₂, h₁]

theorem OnlyRegions.foldl {α : Type} {f : State → α → State} (h : ∀ a x, OnlyRegions a (f a x)) (l : List α) (s : State) :
    OnlyRegions s (l.foldl f s) := by
  induction l generalizing s with
  | nil => rfl
  | cons x xs ih => exact (h s x).trans (ih (f s x))

theorem OnlyRegions.modRegion (s : State) (r : Nat) (f : Region → Region) : OnlyRegions s (s.modRegion r f) := rfl
theorem OnlyRegions.modGov (s : State) (r : Nat) (f : Gov → Gov) : OnlyRegions s (s.modGov r f) := rfl
theorem OnlyRegions.hub {s t : State} (h : OnlyRegions s t) : t.hub = s.hub := by rw [h]
theorem OnlyRegions.pair {s t : State} (h : OnlyRegions s t) : t.pair = s.pair := by rw [h]
theorem OnlyRegions.ownerNode {s t : State} (h : OnlyRegions s t) : t.ownerNode = s.ownerNode := by rw [h]; rfl

/-- A fold over the first `n` regions whose steps each change their own region. -/
theorem foldl_range_region {step : State → Nat → State} {f : Nat → Region → Region}
    (hself : ∀ a r, (step a r).region r = f r (a.region r)) (hne : ∀ a r k, k ≠ r → (step a r).region k = a.region k)
    (n : Nat) (s : State) (k : Nat) :
    ((List.range n).foldl step s).region k = if k < n then f k (s.region k) else s.region k := by
  induction n with
  | zero => rfl
  | succ n ih =>
    rw [List.range_succ, List.foldl_concat]
    by_cases hk : k = n
    · subst hk
      rw [hself, ih, if_neg (Nat.lt_irrefl k), if_pos (Nat.lt_succ_self k)]
    · rw [hne _ _ _ hk, ih]
      exact if_congr (by omega) rfl rfl

/-! ### What a completion and a record leave -/

@[simp] theorem modHub_region (s : State) (f : Shared → Shared) (r : Nat) : (s.modHub f).region r = s.region r := rfl
@[simp] theorem modHub_ownerNode (s : State) (f : Shared → Shared) : (s.modHub f).ownerNode = s.ownerNode := rfl

@[simp] theorem complete_region (s : State) (cmd : CmdRef) (code detail : Nat) (result : List Byte) (r : Nat) :
    (s.complete cmd code detail result).region r = s.region r :=
  congrArg (fun m => SMap.get m r) (State.complete_regions s cmd code detail result)

@[simp] theorem complete_ageing (s : State) (cmd : CmdRef) (code detail : Nat) (result : List Byte) :
    (s.complete cmd code detail result).hub.ageing = s.hub.ageing := by
  unfold State.complete
  split <;> rfl

@[simp] theorem complete_recorder (s : State) (cmd : CmdRef) (code detail : Nat) (result : List Byte) :
    (s.complete cmd code detail result).hub.recorder = s.hub.recorder := by
  unfold State.complete
  split <;> rfl

@[simp] theorem record_ageing (s : State) (code level argx source : Nat) (arg : Word) :
    (s.record code level argx source arg).hub.ageing = s.hub.ageing := rfl

@[simp] theorem record_rings (s : State) (code level argx source : Nat) (arg : Word) :
    (s.record code level argx source arg).hub.rings = s.hub.rings := rfl

/-! ### Trim loads (R221, R222) -/

/-- A region's trim takes the state APPLIED. -/
def Region.applyTrim (g : Region) : Region := { g with margin := { g.margin with state := .applied } }

/-- TRIM_STATE is no cause of the supply roll-up any more. -/
def Gov.dropTrim (g : Gov) : Gov := g.modRoll 1 (fun u => { u with held := u.held &&& ~~~BitVec.ofNat 16 (2 ^ 5) })

theorem setTrimState_applied (r : Nat) (s : State) :
    setTrimState r .applied s = (s.modRegion r Region.applyTrim).modGov r Gov.dropTrim := by
  unfold setTrimState State.holdRoll Region.applyTrim
  simp
  rfl

theorem setTrimState_applied_onlyRegions (r : Nat) (s : State) : OnlyRegions s (setTrimState r .applied s) := by
  rw [setTrimState_applied]
  exact (OnlyRegions.modRegion _ _ _).trans (OnlyRegions.modGov _ _ _)

theorem setTrimState_applied_region (r k : Nat) (s : State) :
    (setTrimState r .applied s).region k = (s.modRegion r Region.applyTrim).region k := by
  rw [setTrimState_applied]
  rfl

/-- A region takes the trim of an image, where that is higher (R221). -/
def Region.raiseTrim (x : Nat) (g : Region) : Region :=
  if g.margin.state = .none then (g.modSp (fun p => { p with trim := max p.trim x })).applyTrim
  else g.modSp (fun p => { p with trim := max p.trim x })

theorem raiseTrim_region (x : Nat) (g : Region) :
    (g.raiseTrim x).sp = { g.sp with trim := max g.sp.trim x } ∧
      (g.raiseTrim x).margin.state = if g.margin.state = .none then .applied else g.margin.state := by
  unfold Region.raiseTrim
  by_cases h : g.margin.state = .none
  · rw [if_pos h, if_pos h]
    exact ⟨rfl, rfl⟩
  · rw [if_neg h, if_neg h]
    exact ⟨rfl, rfl⟩

/-- One region's part of a trim load. -/
def takeTrim (b : List Byte) (a : State) (r : Nat) : State :=
  let a := a.modRegion r (fun g => g.modSp (fun p => { p with trim := max p.trim (byteAt b (0x40 + r)) }))
  if (a.region r).margin.state = .none then setTrimState r .applied a else a

theorem takeTrim_self (b : List Byte) (a : State) (r : Nat) :
    (takeTrim b a r).region r = (a.region r).raiseTrim (byteAt b (0x40 + r)) := by
  unfold takeTrim Region.raiseTrim
  simp only [State.modRegion_region_self]
  by_cases h : (a.region r).margin.state = .none
  · rw [if_pos h, if_pos (by exact h), setTrimState_applied_region, State.modRegion_region_self, State.modRegion_region_self]
  · rw [if_neg h, if_neg (by exact h), State.modRegion_region_self]

theorem takeTrim_ne (b : List Byte) (a : State) (r k : Nat) (hk : k ≠ r) : (takeTrim b a r).region k = a.region k := by
  unfold takeTrim
  simp only
  split
  · rw [setTrimState_applied_region, State.modRegion_region_ne _ _ hk, State.modRegion_region_ne _ _ hk]
  · rw [State.modRegion_region_ne _ _ hk]

theorem takeTrim_onlyRegions (b : List Byte) (a : State) (r : Nat) : OnlyRegions a (takeTrim b a r) := by
  unfold takeTrim
  simp only
  split
  · exact (OnlyRegions.modRegion _ _ _).trans (setTrimState_applied_onlyRegions _ _)
  · exact OnlyRegions.modRegion _ _ _

/-- One region's part of a first-life load. -/
def zeroTrim (a : State) (r : Nat) : State :=
  setTrimState r .applied (a.modRegion r (fun g => g.modSp (fun p => { p with trim := 0 })))

theorem zeroTrim_self (a : State) (r : Nat) :
    (zeroTrim a r).region r = ((a.region r).modSp (fun p => { p with trim := 0 })).applyTrim := by
  unfold zeroTrim
  rw [setTrimState_applied_region, State.modRegion_region_self, State.modRegion_region_self]

theorem zeroTrim_ne (a : State) (r k : Nat) (hk : k ≠ r) : (zeroTrim a r).region k = a.region k := by
  unfold zeroTrim
  rw [setTrimState_applied_region, State.modRegion_region_ne _ _ hk, State.modRegion_region_ne _ _ hk]

theorem zeroTrim_onlyRegions (a : State) (r : Nat) : OnlyRegions a (zeroTrim a r) :=
  (OnlyRegions.modRegion _ _ _).trans (setTrimState_applied_onlyRegions _ _)

/-- What an accepted image leaves in the owner's ageing state (R221, R304). -/
def State.storeTrims (u : State) (t : Taken) : State :=
  (u.exportAt t).modAgeing (fun a => { a with
    poweredS := BitVec.ofNat 64 (max u.hub.ageing.poweredS.toNat (leAt t.body 0x10 8))
    nextAt := nextInterval (max u.hub.ageing.poweredS.toNat (leAt t.body 0x10 8)) - 86400 * a.owed
    refSlack := slackCells t.body })

theorem storeTrims_region (u : State) (t : Taken) (r : Nat) : (u.storeTrims t).region r = u.region r := by
  simp [State.storeTrims, State.exportAt, State.modAgeing]
theorem storeTrims_rings (u : State) (t : Taken) : (u.storeTrims t).hub.rings = u.hub.rings := by
  simp [State.storeTrims, State.exportAt, State.modAgeing]
theorem storeTrims_poweredS (u : State) (t : Taken) : (u.storeTrims t).hub.ageing.poweredS =
    BitVec.ofNat 64 (max u.hub.ageing.poweredS.toNat (leAt t.body 0x10 8)) := by
  simp [State.storeTrims, State.exportAt, State.modAgeing]
theorem storeTrims_jn (u : State) (t : Taken) : (u.storeTrims t).pair.jn = u.pair.jn := by
  simp [State.storeTrims, State.exportAt, State.modAgeing]

/-- The state that a trim load leaves before it completes (R221). -/
def State.trimsLoaded (s : State) (t : Taken) : State := ((List.range 64).foldl (takeTrim t.body) s).storeTrims t

theorem loadTrims_good {s : State} {t : Taken} (h : trimImageOk (s.cfg 0x6000 24 7) t.body = true) :
    loadTrims t s = (s.trimsLoaded t).complete t.cmd codeOk 0 := by
  unfold loadTrims State.trimsLoaded State.storeTrims takeTrim
  simp only [h, Bool.true_eq_false, if_false]

theorem loadTrims_bad {s : State} {t : Taken} (h : trimImageOk (s.cfg 0x6000 24 7) t.body = false) :
    loadTrims t s = rejectTrim t s := by
  unfold loadTrims
  simp only [h, if_true]

theorem trimsLoaded_region (s : State) (t : Taken) (r : RegionId) :
    (s.trimsLoaded t).region r = (s.region r).raiseTrim (byteAt t.body (0x40 + r)) :=
  (storeTrims_region _ t r).trans ((foldl_range_region (f := fun k g => g.raiseTrim (byteAt t.body (0x40 + k)))
    (takeTrim_self t.body) (takeTrim_ne t.body) 64 s r).trans (if_pos r.isLt))

/-- The first-life slack: what each Chive in service reads (R222). -/
def State.firstSlack (s : State) (taps : SMap Nat) : SMap Nat :=
  ⟨0xFF, (List.range 36864).filterMap (fun c => if (s.cluster c).ctl.spared then none else some (c, min 64 (taps.get c)))⟩

/-- What a first-life load leaves in the owner's ageing state (R222, R304). -/
def State.storeFirst (u : State) (t : Taken) (slack : SMap Nat) : State :=
  (u.exportAt t).modAgeing (fun a => { a with poweredS := 0, subUs := 0, nextAt := 86400, refSlack := slack })

theorem storeFirst_region (u : State) (t : Taken) (slack : SMap Nat) (r : Nat) :
    (u.storeFirst t slack).region r = u.region r := by
  simp [State.storeFirst, State.exportAt, State.modAgeing]
theorem storeFirst_rings (u : State) (t : Taken) (slack : SMap Nat) :
    (u.storeFirst t slack).hub.rings = u.hub.rings := by
  simp [State.storeFirst, State.exportAt, State.modAgeing]
theorem storeFirst_recorder (u : State) (t : Taken) (slack : SMap Nat) :
    (u.storeFirst t slack).hub.recorder = u.hub.recorder := by
  simp [State.storeFirst, State.exportAt, State.modAgeing]
theorem storeFirst_ageing (u : State) (t : Taken) (slack : SMap Nat) : (u.storeFirst t slack).hub.ageing =
    { u.hub.ageing with exportTo := leAt t.entry 0x20 8, poweredS := 0, subUs := 0, nextAt := 86400, refSlack := slack } := by
  simp [State.storeFirst, State.exportAt, State.modAgeing]
theorem storeFirst_jn (u : State) (t : Taken) (slack : SMap Nat) : (u.storeFirst t slack).pair.jn = u.pair.jn := by
  simp [State.storeFirst, State.exportAt, State.modAgeing]
theorem storeFirst_ownerNode (u : State) (t : Taken) (slack : SMap Nat) :
    (u.storeFirst t slack).ownerNode = u.ownerNode := by
  simp [State.storeFirst, State.exportAt, State.modAgeing]

/-- The state that a first-life load leaves before it is recorded (R222). -/
def State.waferNew (s : State) (taps : SMap Nat) (t : Taken) : State :=
  ((List.range 64).foldl zeroTrim s).storeFirst t (s.firstSlack taps)

theorem newWafer_good {s : State} {t : Taken} {taps : SMap Nat} (hm : ∀ r : RegionId, (s.region r).margin.state = .none)
    (he : s.enginesRun = true) : newWafer taps t s =
      ((s.waferNew taps t).record 0x30 3 0 (s.waferNew taps t).ownerNode 0).complete t.cmd codeOk 0 := by
  unfold newWafer
  rw [if_neg]
  · rfl
  rintro (h | h)
  · obtain ⟨r, hr, hne⟩ := List.any_eq_true.1 h
    exact of_decide_eq_true hne (hm ⟨r, List.mem_range.1 hr⟩)
  · simp [he] at h

theorem newWafer_bad {s : State} {t : Taken} {taps : SMap Nat}
    (h : (∃ r : RegionId, (s.region r).margin.state ≠ .none) ∨ s.enginesRun = false) : newWafer taps t s = rejectTrim t s := by
  unfold newWafer
  refine if_pos (h.imp_left ?_)
  rintro ⟨r, hr⟩
  exact List.any_eq_true.2 ⟨r, List.mem_range.2 r.isLt, decide_eq_true hr⟩

theorem waferNew_region (s : State) (taps : SMap Nat) (t : Taken) (r : RegionId) :
    (s.waferNew taps t).region r = ((s.region r).modSp (fun p => { p with trim := 0 })).applyTrim :=
  (storeFirst_region _ t _ r).trans ((foldl_range_region (f := fun _ g => (g.modSp (fun p => { p with trim := 0 })).applyTrim)
    zeroTrim_self zeroTrim_ne 64 s r).trans (if_pos r.isLt))

/-- Settles O20: trim images, first-life loads, restored phases. -/
theorem policyActsOnTrimsAndPhases : Obligations.PolicyActsOnTrimsAndPhases := by
  unfold Obligations.PolicyActsOnTrimsAndPhases
  refine ⟨fun s t => ⟨fun ht hg => ?_, fun ht hb => ?_, fun taps ht hm he => ?_, fun taps ht hb => ?_⟩, fun s t ht => ?_⟩
  · have hf := OnlyRegions.foldl (takeTrim_onlyRegions t.body) (List.range 64) s
    refine ⟨_, next_journaled_congr (g := fun s => (s.trimsLoaded t).complete t.cmd codeOk 0)
      ((runTaken_eq loadTrims ht).trans (loadTrims_good hg)), fun r => ?_, ?_, ?_, ?_, ?_⟩
    · rw [journaled_region, complete_region, trimsLoaded_region]
      exact raiseTrim_region _ _
    all_goals rw [journaled_hub]
    · rw [complete_ageing]
      rfl
    · rw [complete_ageing]
      rfl
    · rw [complete_ageing, State.trimsLoaded, storeTrims_poweredS, hf.hub]
    · refine complete_rings_congr ?_ ?_ _ _ _ _
      · rw [State.trimsLoaded, storeTrims_rings, hf.hub]
      · rw [State.trimsLoaded, storeTrims_jn, hf.pair]
  · exact ⟨_, next_journaled_congr ((runTaken_eq loadTrims ht).trans (loadTrims_bad hb))⟩
  · have hf := OnlyRegions.foldl zeroTrim_onlyRegions (List.range 64) s
    refine ⟨_, next_journaled_congr (g := fun s => ((s.waferNew taps t).record 0x30 3 0 (s.waferNew taps t).ownerNode 0).complete
      t.cmd codeOk 0) ((runTaken_eq (newWafer taps) ht).trans (newWafer_good hm he)), fun r => ?_, ?_, ?_, ?_⟩
    · rw [journaled_region, complete_region, State.region, State.record_regions, ← State.region, waferNew_region]
      exact ⟨rfl, rfl⟩
    all_goals rw [journaled_hub]
    · rw [complete_ageing, record_ageing, State.waferNew, storeFirst_ageing, hf.hub]
      unfold State.firstSlack
      rfl
    · refine complete_rings_congr ?_ ?_ _ _ _ _
      · rw [record_rings, State.waferNew, storeFirst_rings, hf.hub]
      · rw [State.record_pair, State.waferNew, storeFirst_jn, hf.pair]
    · have hown : (s.waferNew taps t).ownerNode = s.ownerNode := by
        rw [State.waferNew, storeFirst_ownerNode, hf.ownerNode]
      rw [complete_recorder, hown]
      refine record_recorder_congr ?_ _ _ _ _ _
      rw [State.waferNew, storeFirst_recorder, hf.hub]
  · exact ⟨_, next_journaled_congr ((runTaken_eq (newWafer taps) ht).trans (newWafer_bad hb))⟩
  · have hrun := runTaken_eq restorePhase ht
    refine ⟨fun hr hk hret => next_journaled_congr (hrun.trans (if_neg ?_)), fun h => next_journaled_congr (hrun.trans (if_pos h))⟩
    rintro (h | h | h)
    · omega
    · omega
    · exact hret h

end Sys2Proof.Machine
end

