-- ==== Sys2Proof/Proofs/ActivationStart.lean ====
section
/-!
SUPPORT. How a firmware activation starts, waits or is rejected (R306, R371 to R374).
-/

namespace Sys2Proof.Machine

/-! ### Completions of a command that has begun -/

theorem begin_comps (s : State) (t : Taken) : (s.begin t).hub.rings.comps = s.hub.rings.comps := rfl

/-- Beginning a command marks it, and changes nothing that finds it. -/
theorem find_begin (s : State) (t : Taken) (cmd : CmdRef) :
    (s.begin t).hub.rings.taken.find? (fun x => x.ring == cmd.1 && x.order == cmd.2) =
      (s.hub.rings.taken.find? (fun x => x.ring == cmd.1 && x.order == cmd.2)).map
        (fun u => if u.ring = t.ring ∧ u.order = t.order then { u with started := true } else u) := by
  show (s.hub.rings.taken.map _).find? _ = _
  rw [List.find?_map]
  congr 2
  funext u
  simp only [Function.comp]
  split <;> rfl

/-- A completion of a command that has begun goes into its ring as one of a command that has not. -/
theorem complete_comps_of_begun {s u : State} {t : Taken} (hr : u.hub.rings = (s.begin t).hub.rings)
    (hj : u.pair.jn = s.pair.jn) (cmd : CmdRef) (code detail : Nat) (result : List Byte) :
    (u.complete cmd code detail result).hub.rings.comps = (s.complete cmd code detail result).hub.rings.comps := by
  rw [complete_rings_congr (s := s.begin t) hr hj]
  have hf := find_begin s t cmd
  unfold State.complete
  rw [hf]
  cases s.hub.rings.taken.find? (fun x => x.ring == cmd.1 && x.order == cmd.2) with
  | none => rfl
  | some x =>
    simp only [Option.map_some]
    split <;> rfl

theorem completeInterim_comps_of_begun {s u : State} {t : Taken} (hr : u.hub.rings = (s.begin t).hub.rings)
    (hj : u.pair.jn = s.pair.jn) (cmd : CmdRef) (detail : Nat) (result : List Byte) :
    (u.completeInterim cmd detail result).hub.rings.comps = (s.completeInterim cmd detail result).hub.rings.comps := by
  have hf := find_begin s t cmd
  unfold State.completeInterim State.nextJn
  rw [hr, hj, hf]
  cases s.hub.rings.taken.find? (fun x => x.ring == cmd.1 && x.order == cmd.2) with
  | none => exact (congrArg Rings.comps hr).trans (begin_comps s t)
  | some x =>
    simp only [Option.map_some]
    split <;> simp [hr, begin_comps]

/-! ### A hub core exchanges its banks (R364, R365, R372) -/

@[simp] theorem modHub_coreAt (s : State) (f : Shared → Shared) (h : Hub) (k : Nat) :
    (s.modHub f).coreAt h k = s.coreAt h k := by cases h <;> rfl

@[simp] theorem raise_coreAt (s : State) (n c x : Nat) (h : Hub) (k : Nat) : (s.raise n c x).coreAt h k = s.coreAt h k := by
  cases h <;> rfl

@[simp] theorem record_coreAt (s : State) (code level argx source : Nat) (arg : Word) (h : Hub) (k : Nat) :
    (s.record code level argx source arg).coreAt h k = s.coreAt h k := by
  cases h <;> rfl

theorem modHubOf_dbg_coreAt (s : State) (h x : Hub) (f : Debug → Debug) (k : Nat) :
    (s.modHubOf h (fun u => { u with dbg := f u.dbg })).coreAt x k = s.coreAt x k := by
  have hcore (u : HubSt) : ({ u with dbg := f u.dbg } : HubSt).core k = u.core k := by
    match k with
    | 0 => rfl
    | 1 => rfl
    | _ + 2 => rfl
  cases h <;> cases x
  case a.a => exact hcore s.hubA
  case b.b => exact hcore s.hubB
  case a.b => rfl
  case b.a => rfl

theorem retakeServed_coreAt (j : Nat) (s : State) (h : Hub) (k : Nat) : (retakeServed j s).coreAt h k = s.coreAt h k := by
  simp [retakeServed]

theorem retakeServed_rings (j : Nat) (s : State) : (retakeServed j s).hub.rings = s.hub.rings := by
  simp [retakeServed]

theorem dropRaises_coreAt (s : State) (h : Hub) (k : Nat) : (dropRaises s).coreAt h k = s.coreAt h k := by
  simp [dropRaises]

theorem dropRaises_rings (s : State) : (dropRaises s).hub.rings = s.hub.rings := by
  simp [dropRaises]

/-- What a restarted core of the owner was serving goes back: its mailbox slots, the raises of the power-management core. -/
def State.dropServed (s : State) (h : Hub) (k : Nat) : State :=
  if s.owner = some h then retakeServed k (if k = 1 then dropRaises s else s) else s

theorem dropServed_coreAt (s : State) (h x : Hub) (k j : Nat) : (s.dropServed h k).coreAt x j = s.coreAt x j := by
  unfold State.dropServed
  split
  · rw [retakeServed_coreAt]
    split
    · exact dropRaises_coreAt s x j
    · rfl
  · rfl

theorem dropServed_rings (s : State) (h : Hub) (k : Nat) : (s.dropServed h k).hub.rings = s.hub.rings := by
  unfold State.dropServed
  split
  · rw [retakeServed_rings]
    split
    · exact dropRaises_rings s
    · rfl
  · rfl

/-- A core that runs again: what is not retained goes, the restart is counted (R364, R365). -/
def HubCore.again (keep : List (Nat × Nat)) (cause now : Nat) (c : HubCore) : HubCore := { c with
  state := .restarting
  restarts := c.restarts + 1
  recent := recentWith now c.recent
  why := cause
  breakpts := []
  haltWhy := 0
  seen := []
  regs := []
  data := { c.data with cells := c.data.cells.filter (fun p => inStretch keep p.1) } }

/-- The port forgets a core that it halted, and its breakpoints. -/
def Debug.forget (core : CoreId) (d : Debug) : Debug := { d with
  halted := d.halted.filter (fun x => x != core)
  bpCores := d.bpCores.filter (fun x => x != core) }

/-- A core that runs again restarts on the bank it has; then what it served goes back, and it is recorded and raised. -/
theorem runAgain_eq (h : Hub) (k cause : Nat) (s : State) : runAgain h k cause s =
    ((((s.modCore h k (HubCore.again (match (s.coreAt h k).image with | some x => x.retained | none => []) cause
        (s.now / 100))).modHubOf h (fun u => { u with dbg := u.dbg.forget (.hub h (Fin.ofNat 3 k)) })).dropServed h k).record
      0x20 7 0 (nodeHub h) (BitVec.ofNat 32 (cause + 256 * k))).raise 198 0 := rfl

theorem runAgain_coreAt (h : Hub) (k cause : Nat) (s : State) :
    ((runAgain h k cause s).coreAt h k).state = .restarting ∧
      ((runAgain h k cause s).coreAt h k).bank = (s.coreAt h k).bank := by
  rw [runAgain_eq, raise_coreAt, record_coreAt, dropServed_coreAt, modHubOf_dbg_coreAt, modCore_coreAt, if_pos rfl]
  exact ⟨rfl, rfl⟩

theorem runAgain_rings (h : Hub) (k cause : Nat) (s : State) : (runAgain h k cause s).hub.rings = s.hub.rings := by
  rw [runAgain_eq, State.raise_hub, record_rings, dropServed_rings, State.modHubOf_hub, modCore_hub]

/-- The core's banks have changed places (R355). -/
def State.flipped (s : State) (h : Hub) (k : Nat) : State := s.modCore h k (fun c => { c with bank := !c.bank })

theorem State.flipped_cfg (s : State) (h : Hub) (k off lo w : Nat) : (s.flipped h k).cfg off lo w = s.cfg off lo w := by
  cases h <;> rfl

theorem State.flipped_now (s : State) (h : Hub) (k : Nat) : (s.flipped h k).now = s.now := by
  cases h <;> rfl

/-- A running core with an image staged switches to it and restarts, while that restart is within the limit (R367, R372). -/
theorem flipHubCore_running {s : State} {h : Hub} {k : Nat} (hs : (s.coreAt h k).stagedImage.isSome = true)
    (hr : (s.coreAt h k).state = .running)
    (hl : (recentWith (s.now / 100) (s.coreAt h k).recent).length ≤ s.cfg 0x3000 16 4) :
    ((flipHubCore h k false s).coreAt h k).bank = (!(s.coreAt h k).bank) ∧
      ((flipHubCore h k false s).coreAt h k).state = .restarting ∧
      ((flipHubCore h k false s).coreAt h k).switching = true ∧ (flipHubCore h k false s).hub.rings = s.hub.rings := by
  have hat : (s.flipped h k).coreAt h k = { s.coreAt h k with bank := !(s.coreAt h k).bank } := by
    rw [State.flipped, modCore_coreAt, if_pos rfl]
  have himg : ((s.flipped h k).coreAt h k).image = (s.coreAt h k).stagedImage := by
    rw [hat]
    unfold HubCore.image HubCore.stagedImage
    cases (s.coreAt h k).bank <;> rfl
  have hst : ((s.flipped h k).coreAt h k).state = .running := by rw [hat]; exact hr
  have hrec : ¬ (s.flipped h k).cfg 0x3000 16 4 <
      (recentWith ((s.flipped h k).now / 100) ((s.flipped h k).coreAt h k).recent).length := by
    rw [hat, State.flipped_cfg, State.flipped_now]
    exact Nat.not_lt.2 hl
  have hrun : flipHubCore h k false s = (runAgain h k 3 (s.flipped h k)).modCore h k
      (fun c => { c with switching := decide (c.state = .restarting) }) := by
    have hrestart : restartHubCore h k 3 (s.flipped h k) = runAgain h k 3 (s.flipped h k) :=
      (if_neg (by simp [hst])).trans (if_neg hrec)
    unfold flipHubCore
    rw [← State.flipped, if_neg (by rw [himg]; simp [Option.isSome_iff_ne_none.1 hs]), if_neg (by simp), if_neg (by simp [hr]),
      if_neg (by simp [hr]), hrestart]
  obtain ⟨h1, h2⟩ := runAgain_coreAt h k 3 (s.flipped h k)
  rw [hrun, modCore_coreAt, if_pos rfl, modCore_hub, runAgain_rings, State.flipped, modCore_hub, ← State.flipped]
  refine ⟨?_, h1, ?_, rfl⟩
  · simp only [h2, hat]
  · simp only [h1, decide_true]

/-! ### Activations (R306, R371 to R374) -/

/-- An activation that has passed its checks. -/
def State.activation (s : State) (t : Taken) : Activation where
  cmd := t.cmd
  target := byteAt t.entry 8
  deadline := leAt t.entry 0x0A 2
  since := t.since
  fromA := (s.coreAt .a (byteAt t.entry 8)).bank
  fromB := (s.coreAt .b (byteAt t.entry 8)).bank

/-- The state in which it begins. -/
def State.startAct (s : State) (t : Taken) : State :=
  (s.begin t).modFw (fun f => { f with act := some (s.activation t) })

theorem activate_fails {s : State} {t : Taken} {c d : Nat} (h : activateCheck s t = some (c, d)) :
    activate t s = s.complete t.cmd c d := by
  simp only [activate, h]

theorem activate_passes {s : State} {t : Taken} (h : activateCheck s t = none)
    (he : s.targetEmpty (byteAt t.entry 8) = false) :
    activate t s = if s.actCause ≠ 0 then deferAct (s.startAct t) else enterDrain (s.startAct t) := by
  simp only [activate, h, he, Bool.false_eq_true, if_false]
  rfl

/-- A target that passes its checks has an image staged (R371). -/
theorem staged_of_check {s : State} {t : Taken} (h : activateCheck s t = none) :
    (s.stagedOf (byteAt t.entry 8)).isSome = true := by
  unfold activateCheck at h
  cases hs : s.stagedOf (byteAt t.entry 8) with
  | some x => rfl
  | none => simp [hs] at h; split at h <;> simp at h

/-- Step 3 of an activation of the scheduler (R372). -/
def State.drains (s : State) : State :=
  ((s.modAct (fun a => { a with step := 3, drained := 0, deferred := false })).modThyme (fun x => { x with drain := true })).modCore
    (s.owner.getD .a) 2 (fun c => if c.state = .running then { c with state := .held } else c)

theorem enterDrain_scheduler {s : State} {a : Activation} (ha : s.hub.fw.act = some a) (h2 : a.target = 2) :
    enterDrain s = s.drains := by
  simp only [enterDrain, ha, h2, if_true]
  rfl

theorem drains_facts {s : State} (hr : (s.coreAt (s.owner.getD .a) 2).state = .running) :
    s.drains.hub.thyme.drain = true ∧ (s.drains.coreAt (s.owner.getD .a) 2).state = .held ∧
      (s.drains.coreAt (s.owner.getD .a) 2).bank = (s.coreAt (s.owner.getD .a) 2).bank ∧
      s.drains.hub.rings = s.hub.rings := by
  unfold State.drains
  simp [modCore_coreAt, State.modAct, hr]

/-- Step 4 of an activation of a hub target that no standby takes part in: the owner's core (R372). -/
def State.switches (s : State) (h : Hub) (k : Nat) : State :=
  flipHubCore h k false ((s.modAct (fun a => { a with deferred := false, step := 4 })).modAct (fun a => { a with step := 5 }))

theorem coreTurn_flips {s : State} {a : Activation} {h : Hub} {next : State → State}
    (hr : (s.coreAt h a.target).state = .running) (hb : (s.coreAt h a.target).bank = a.bankAt h)
    (hn : ((flipHubCore h a.target false s).coreAt h a.target).state ≠ .stopped) :
    coreTurn a h next s = flipHubCore h a.target false s := by
  unfold coreTurn
  simp only
  rw [if_neg (by simp [hr]), if_pos hb, if_neg hn]

theorem modAct_act {s : State} {a : Activation} (ha : s.hub.fw.act = some a) (f : Activation → Activation) :
    (s.modAct f).hub.fw.act = some (f a) := by
  simp [State.modAct, ha]

theorem modAct_coreAt (s : State) (f : Activation → Activation) (h : Hub) (k : Nat) :
    (s.modAct f).coreAt h k = s.coreAt h k := by
  simp [State.modAct]

theorem modAct_validStandby (s : State) (f : Activation → Activation) : (s.modAct f).validStandby = s.validStandby := rfl
theorem modAct_owner (s : State) (f : Activation → Activation) : (s.modAct f).owner = s.owner := rfl
theorem modAct_secHalted (s : State) (f : Activation → Activation) : (s.modAct f).secHalted = s.secHalted := rfl

theorem switchStep_alone {s : State} {a : Activation} {h : Hub} (ha : s.hub.fw.act = some a) (hk : a.target < 2)
    (h4 : a.step = 4) (hback : a.back = false) (hs : s.secHalted = false) (ho : s.owner = some h)
    (hv : s.validStandby = none) :
    switchStep s = coreTurn a h State.finishAct (s.modAct (fun a => { a with step := 5 })) := by
  have hidle : ¬ (a.target = 3 ∨ a.step < 4 ∨ s.secHalted = true) := by
    rintro (h | h | h)
    · omega
    · omega
    · simp [hs] at h
  simp only [switchStep, ha]
  rw [if_neg hidle, if_neg (by simp [hback]), if_neg (by omega), hv]
  simp only [ownerStep, ho]

theorem enterDrain_hub {s : State} {a : Activation} {h : Hub} (ha : s.hub.fw.act = some a) (hk : a.target < 2)
    (hback : a.back = false) (hs : s.secHalted = false) (ho : s.owner = some h) (hv : s.validStandby = none)
    (hr : (s.coreAt h a.target).state = .running) (hb : (s.coreAt h a.target).bank = a.bankAt h)
    (hn : ((s.switches h a.target).coreAt h a.target).state ≠ .stopped) : enterDrain s = s.switches h a.target := by
  have hswitch := switchStep_alone (modAct_act ha (fun a => { a with deferred := false, step := 4 })) hk rfl hback
    hs ho hv
  have henter : enterDrain s = switchStep (s.modAct (fun a => { a with deferred := false, step := 4 })) := by
    simp only [enterDrain, startSwitch, ha]
    rw [if_neg (by omega), if_neg (by omega)]
  have hflip := coreTurn_flips (next := State.finishAct) (a := { a with deferred := false, step := 4 }) (h := h)
    (s := (s.modAct (fun a => { a with deferred := false, step := 4 })).modAct (fun a => { a with step := 5 }))
    (by rw [modAct_coreAt, modAct_coreAt]; exact hr) (by rw [modAct_coreAt, modAct_coreAt, hb]; cases h <;> rfl) hn
  rw [henter, hswitch, hflip]
  rfl

theorem switches_facts {s : State} {h : Hub} {k : Nat} (hs : (s.coreAt h k).stagedImage.isSome = true)
    (hr : (s.coreAt h k).state = .running)
    (hl : (recentWith (s.now / 100) (s.coreAt h k).recent).length ≤ s.cfg 0x3000 16 4) :
    ((s.switches h k).coreAt h k).bank = (!(s.coreAt h k).bank) ∧ ((s.switches h k).coreAt h k).state = .restarting ∧
      ((s.switches h k).coreAt h k).switching = true ∧ (s.switches h k).hub.rings = s.hub.rings := by
  have hat : ((s.modAct (fun a => { a with deferred := false, step := 4 })).modAct (fun a => { a with step := 5 })).coreAt h k =
      s.coreAt h k := by rw [modAct_coreAt, modAct_coreAt]
  have hf := flipHubCore_running
    (s := (s.modAct (fun a => { a with deferred := false, step := 4 })).modAct (fun a => { a with step := 5 }))
    (by rw [hat]; exact hs) (by rw [hat]; exact hr) (by rw [hat]; exact hl)
  rw [hat] at hf
  exact hf

/-- An emergency with no wait allowed ends the activation (R306). -/
theorem deferAct_noWait {s : State} {a : Activation} (ha : s.hub.fw.act = some a) (hd : a.deadline = 0) :
    deferAct s = s.endAct codeEmerg 0x53 := by
  simp only [deferAct, ha, hd, if_true]

theorem endAct_facts {s u : State} {t : Taken} {a : Activation} (ha : u.hub.fw.act = some a) (hc : a.cmd = t.cmd)
    (hr : u.hub.rings = (s.begin t).hub.rings) (hj : u.pair.jn = s.pair.jn) (code detail : Nat) :
    (u.endAct code detail).hub.fw.act = none ∧
      (u.endAct code detail).hub.rings.comps = (s.complete t.cmd code detail).hub.rings.comps := by
  simp only [State.endAct, ha, complete_fw]
  constructor
  · simp
  · rw [hc]
    exact complete_comps_of_begun (by simpa using hr) (by simpa using hj) _ _ _ _

theorem completeInterim_fw (s : State) (cmd : CmdRef) (detail : Nat) (result : List Byte) :
    (s.completeInterim cmd detail result).hub.fw = s.hub.fw := by
  unfold State.completeInterim
  split <;> rfl

/-- An emergency defers an activation that may wait, with one interim completion (R306, R373). -/
theorem deferAct_waits {s u : State} {t : Taken} {a : Activation} (ha : u.hub.fw.act = some a) (hc : a.cmd = t.cmd)
    (hd : a.deadline ≠ 0) (hsaid : a.said = false) (hr : u.hub.rings = (s.begin t).hub.rings) (hj : u.pair.jn = s.pair.jn)
    (he : u.actCause = s.actCause) :
    (deferAct u).hub.fw.act.map Activation.deferred = some true ∧
      (deferAct u).hub.rings.comps = (s.completeInterim t.cmd 0 (leBytes 1 s.actCause)).hub.rings.comps := by
  simp only [deferAct, ha]
  rw [if_neg hd, if_neg (by simp [hsaid]), hc, he]
  constructor
  · rw [completeInterim_fw]
    simp [State.modAct, ha]
  · exact completeInterim_comps_of_begun (by simpa [State.modAct] using hr) (by simpa [State.modAct] using hj) _ _ _

/-- The executor of an activation is not halted: the security core runs, is held, empty or stopped. -/
theorem secHalted_of_executes {s : State} {p : Taken → Bool} {t : Taken} (h : Executes s opActivate p t) :
    s.secHalted = false := by
  have hk := h.2.2 0 rfl
  unfold State.secHalted
  rcases hk with h | h | ⟨-, h | h⟩ <;> simp [h]

/-- Settles O22: the failed checks, the start for the scheduler and for a hub core, the two ends of an emergency. -/
theorem activationStarts : Obligations.ActivationStarts := by
  unfold Obligations.ActivationStarts
  intro s t ht k h
  have hrun := runTaken_eq activate ht
  have hact : (s.startAct t).hub.fw.act = some (s.activation t) := rfl
  obtain ⟨o, ho⟩ := Option.isSome_iff_exists.1 (owner_of_inControl ht.1)
  have hh : h = o := by simp [h, ho]
  refine ⟨fun c d hc => next_journaled_congr (hrun.trans (activate_fails hc)), fun hg he hca h2 hr => ?_,
    fun hg he hca hk hv hr hl => ?_, fun hg he hca hd => ?_, fun hg he hca hd => ?_⟩
  all_goals have hpass := hrun.trans (activate_passes hg he)
  · rw [if_neg (by simp [hca]), enterDrain_scheduler hact h2] at hpass
    obtain ⟨f1, f2, f3, f4⟩ := drains_facts (s := s.startAct t) hr
    refine ⟨_, next_journaled_congr (g := fun s => (s.startAct t).drains) hpass, ?_, ?_, ?_, ?_⟩
    · rw [journaled_hub]
      exact f1
    · rw [journaled_coreAt]
      exact f2
    · rw [journaled_coreAt]
      exact f3
    · rw [journaled_hub, f4]
      rfl
  · have hstaged : (s.coreAt o k).stagedImage.isSome = true := by
      have := staged_of_check hg
      rw [State.stagedOf, if_neg (by omega), ho] at this
      exact this
    rw [hh] at hr hl
    obtain ⟨f1, f2, f3, f4⟩ := switches_facts (s := s.startAct t) hstaged hr hl
    have hsec := secHalted_of_executes ht
    have hent := enterDrain_hub hact hk rfl hsec ho hv hr (by cases o <;> rfl) (by
      show ((State.switches _ o k).coreAt o k).state ≠ .stopped
      rw [f2]
      simp)
    rw [if_neg (by simp [hca]), hent] at hpass
    rw [hh]
    refine ⟨_, next_journaled_congr (g := fun s => (s.startAct t).switches o k) hpass, ?_, ?_, ?_, ?_⟩
    · rw [journaled_coreAt]
      exact f1
    · rw [journaled_coreAt]
      exact f2
    · rw [journaled_coreAt]
      exact f3
    · rw [journaled_hub, f4]
      rfl
  · rw [if_pos hca, deferAct_noWait hact hd] at hpass
    obtain ⟨f1, f2⟩ := endAct_facts (s := s) (t := t) hact rfl rfl rfl codeEmerg 0x53
    refine ⟨_, next_journaled_congr (g := fun s => (s.startAct t).endAct codeEmerg 0x53) hpass, ?_, ?_⟩
    · rw [journaled_hub]
      exact f1
    · rw [journaled_hub]
      exact f2
  · rw [if_pos hca] at hpass
    obtain ⟨f1, f2⟩ := deferAct_waits (s := s) (t := t) hact rfl hd rfl rfl rfl rfl
    refine ⟨_, next_journaled_congr (g := fun s => deferAct (s.startAct t)) hpass, ?_, ?_⟩
    · rw [journaled_hub]
      exact f1
    · rw [journaled_hub]
      exact f2

end Sys2Proof.Machine
end

