-- ==== Sys2Proof/Proofs/DebugOperations.lean ====
section
/-!
SUPPORT. Operations of the debug port on a hub's cores, and what a resumed core lets go on (R490 to R494).
-/

namespace Sys2Proof.Machine

/-! ### What an operation of the debug port finds (R490 to R492) -/

/-- The port as an operation reaches it: DBG_CMD is selected and its fields stand in the register. -/
def State.armed (s : State) (h : Hub) (op : DbgOp) : State := (loadInstr h 0x21 s).dbgFields h op

theorem armed_eq (s : State) (h : Hub) (op : DbgOp) : s.armed h op =
    ({ s with out := s.out ++ shiftedOut s h 0x21 } : State).modDbg h (fun d => { d with
      instr := 0x21, driving := false, unit := op.unit.val, cluster := op.cluster % 0x10000, addr := op.addr }) := by
  rw [State.armed, loadInstr_eq]
  cases h <;> rfl

theorem modDbg_coreAt (s : State) (h x : Hub) (f : Debug → Debug) (k : Nat) : (s.modDbg h f).coreAt x k = s.coreAt x k :=
  modHubOf_dbg_coreAt s h x f k

section
variable (s : State) (h : Hub) (op : DbgOp)

@[simp] theorem armed_dbg : (s.armed h op).dbg h = { s.dbg h with
    instr := 0x21, driving := false, unit := op.unit.val, cluster := op.cluster % 0x10000, addr := op.addr } := by
  rw [armed_eq, State.modDbg_dbg]
  cases h <;> rfl

@[simp] theorem armed_coreAt (x : Hub) (k : Nat) : (s.armed h op).coreAt x k = s.coreAt x k := by
  rw [armed_eq, modDbg_coreAt]
  cases x <;> rfl

@[simp] theorem armed_hub : (s.armed h op).hub = s.hub := by
  rw [armed_eq, State.modDbg_hub]

@[simp] theorem armed_regions : (s.armed h op).regions = s.regions := by
  rw [armed_eq, State.modDbg_regions]

@[simp] theorem armed_fresh : (s.armed h op).fresh = s.fresh := by
  rw [armed_eq]
  cases h <;> rfl

@[simp] theorem armed_events : (s.armed h op).events = s.events := by
  rw [armed_eq]
  cases h <;> rfl

@[simp] theorem armed_owner : (s.armed h op).owner = s.owner := by
  rw [armed_eq]
  cases h <;> rfl

end

@[simp] theorem dbgResult_coreAt (h x : Hub) (status why : Nat) (data : Word) (s : State) (k : Nat) :
    (dbgResult h status why data s).coreAt x k = s.coreAt x k := by
  unfold dbgResult
  refine Eq.trans ?_ (modDbg_coreAt s h x (fun d => { d with status := status, why := why, data := data }) k)
  cases x <;> rfl

@[simp] theorem dbgResult_hub (h : Hub) (status why : Nat) (data : Word) (s : State) :
    (dbgResult h status why data s).hub = s.hub := by
  simp [dbgResult]

@[simp] theorem dbgResult_regions (h : Hub) (status why : Nat) (data : Word) (s : State) :
    (dbgResult h status why data s).regions = s.regions := by
  simp [dbgResult]

@[simp] theorem dbgResult_events (h : Hub) (status why : Nat) (data : Word) (s : State) :
    (dbgResult h status why data s).events = s.events := by
  unfold dbgResult
  cases h <;> rfl

@[simp] theorem dbgResult_dbg (h : Hub) (status why : Nat) (data : Word) (s : State) :
    (dbgResult h status why data s).dbg h = { s.dbg h with status := status, why := why, data := data } := by
  simp [dbgResult]

@[simp] theorem journaled_dbg (f : State → State) (s : State) (h : Hub) : (journaled f s).dbg h = (f s).dbg h :=
  congrArg HubSt.dbg (journaled_hubOf f s h)

theorem debugAnswers_journaled {f : State → State} {s : State} {h : Hub} {status why : Nat} {data : Word}
    (ha : DebugAnswers (f s) h status why data) : DebugAnswers (journaled f s) h status why data := by
  unfold DebugAnswers at *
  rw [journaled_dbg, journaled_out]
  exact ha

section
variable {s : State} {h : Hub} {op : DbgOp} {k : Fin 3}

theorem dbgBad_of_ready (hr : op.resv = false) (hc : op.cluster = 0) (h3 : op.unit.val ≠ 3) {units : List Nat}
    (hu : op.unit.val ∈ units) (t : State) : t.dbgBad op units = false := by
  simp [State.dbgBad, hr, hc, h3, hu]

/-- An operation that its checks let through acts on the port as it is armed. -/
theorem dbgFront_acts {units : List Nat} {argOk allowed : Bool} (act : State → State) (hr : DebugReady s h op)
    (hb : s.dbgBad op units = false) (ha : argOk = true) (hd : allowed = true)
    (hn : ¬ (op.unit.val = 3 ∧ 4 ∉ units ∧ s.owner ≠ some h)) :
    dbgFront h op units argOk allowed act s = act (s.armed h op) := by
  obtain ⟨ht, hc, hp, -⟩ := hr
  unfold dbgFront
  rw [if_neg (by simp [ht])]
  simp only
  rw [if_neg (by simp [hp]), if_neg (by simp [hc]), ← State.armed, if_neg (by simp [hb, ha]), if_neg (by simp [hd]),
    if_neg hn]

theorem dbgFront_denied {units : List Nat} {argOk allowed : Bool} (act : State → State) (hr : DebugReady s h op)
    (hb : s.dbgBad op units = false) (ha : argOk = true) (hd : allowed = false) :
    dbgFront h op units argOk allowed act s = dbgResult h 2 0 0 (s.armed h op) := by
  obtain ⟨ht, hc, hp, -⟩ := hr
  unfold dbgFront
  rw [if_neg (by simp [ht])]
  simp only
  rw [if_neg (by simp [hp]), if_neg (by simp [hc]), ← State.armed, if_neg (by simp [hb, ha]), if_pos hd]

theorem dbgCore_hub (hk : op.unit.val = k.val) : dbgCore h op = .hub h k := by
  unfold dbgCore
  rw [if_neg (by omega), hk]
  simp

theorem dbgStop_of_hub (ha : s.hub.fw.act = none) (hst : (s.coreAt h k).state = .running ∨ (s.coreAt h k).state = .halted)
    (needHalt : Bool) : (s.armed h op).dbgStop (.hub h k) needHalt =
      if needHalt = true ∧ (s.coreAt h k).state ≠ .halted then some 4 else none := by
  have hb : (s.armed h op).dbgBusy (.hub h k) = false := by simp [State.dbgBusy, ha]
  unfold State.dbgStop
  rw [State.coreState, armed_coreAt, if_neg (by rcases hst with h | h <;> simp [h]), hb]
  rfl

/-- An operation on a core of its own hub that goes through (R491). -/
theorem coreOp_acts {n : Nat} {argOk allowed needHalt : Bool} (act : CoreId → State → State × Nat × Word)
    (ho : OnHubCore s h op k) (ha : argOk = true) (hd : allowed = true)
    (hh : needHalt = true → (s.coreAt h k).state = .halted) :
    coreOp h n op argOk allowed needHalt act s =
      dbgResult h (act (.hub h k) (s.armed h op)).2.1 ((act (.hub h k) (s.armed h op)).1.haltWhy (.hub h k))
        (act (.hub h k) (s.armed h op)).2.2 (act (.hub h k) (s.armed h op)).1 := by
  obtain ⟨hr, hk, hc, hact, hst⟩ := ho
  have hu : op.unit.val ≠ 3 := by omega
  unfold coreOp
  rw [dbgFront_acts _ hr (dbgBad_of_ready hr.2.2.2 hc hu (by simp; omega) _) ha hd (by omega)]
  simp only
  rw [if_neg hu, dbgCore_hub hk, dbgStop_of_hub hact hst, if_neg (by rintro ⟨h1, h2⟩; exact h2 (hh h1))]

theorem coreOp_notHalted {n : Nat} {argOk allowed : Bool} (act : CoreId → State → State × Nat × Word)
    (ho : OnHubCore s h op k) (ha : argOk = true) (hd : allowed = true) (hrun : (s.coreAt h k).state = .running) :
    coreOp h n op argOk allowed true act s = dbgResult h 4 (s.coreAt h k).haltWhy 0 (s.armed h op) := by
  obtain ⟨hr, hk, hc, hact, hst⟩ := ho
  have hu : op.unit.val ≠ 3 := by omega
  unfold coreOp
  rw [dbgFront_acts _ hr (dbgBad_of_ready hr.2.2.2 hc hu (by simp; omega) _) ha hd (by omega)]
  simp only
  rw [if_neg hu, dbgCore_hub hk, dbgStop_of_hub hact hst, if_pos ⟨rfl, by simp [hrun]⟩]
  simp only [State.haltWhy, armed_coreAt]

theorem coreOp_denied {n : Nat} {argOk allowed needHalt : Bool} (act : CoreId → State → State × Nat × Word)
    (ho : OnHubCore s h op k) (ha : argOk = true) (hd : allowed = false) :
    coreOp h n op argOk allowed needHalt act s = dbgResult h 2 0 0 (s.armed h op) := by
  obtain ⟨hr, hk, hc, hact, hst⟩ := ho
  unfold coreOp
  exact dbgFront_denied _ hr (dbgBad_of_ready hr.2.2.2 hc (by omega) (by simp; omega) _) ha hd

end

/-! ### Decisions that were waiting leave both hubs alone (R494) -/

/-- The two hubs themselves: cores, collectors, start, debug ports. -/
def State.hubs (s : State) : HubSt × HubSt := (s.hubA, s.hubB)

theorem hubs_of_eq {s t : State} (ha : t.hubA = s.hubA) (hb : t.hubB = s.hubB) : t.hubs = s.hubs := Prod.ext ha hb

theorem hubOf_of_hubs {s t : State} (h : t.hubs = s.hubs) (x : Hub) : t.hubOf x = s.hubOf x := by
  cases x
  · exact congrArg Prod.fst h
  · exact congrArg Prod.snd h

theorem coreAt_of_hubs {s t : State} (h : t.hubs = s.hubs) (x : Hub) (k : Nat) : t.coreAt x k = s.coreAt x k :=
  congrArg (fun u => HubSt.core u k) (hubOf_of_hubs h x)

@[simp] theorem hubs_foldl {α : Type} {f : State → α → State} (h : ∀ a x, (f a x).hubs = a.hubs) (l : List α) (s : State) :
    (l.foldl f s).hubs = s.hubs :=
  List.foldlRecOn (motive := fun t => t.hubs = s.hubs) l f rfl fun b hb a _ => (h b a).trans hb

theorem OnlyGrants.hubs {s t : State} (h : OnlyGrants s t) : t.hubs = s.hubs := by rw [h]; rfl
theorem OnlyMessages.hubs {s t : State} (h : OnlyMessages s t) : t.hubs = s.hubs := by rw [h]; rfl

@[simp] theorem hubSend_hubs (s : State) (m : Msg) : (s.hubSend m).hubs = s.hubs := (hubSend_onlyMessages s m).hubs
@[simp] theorem complete_hubs (s : State) (cmd : CmdRef) (code detail : Nat) (result : List Byte) :
    (s.complete cmd code detail result).hubs = s.hubs := hubs_of_eq (by simp) (by simp)
@[simp] theorem modHub_hubs (s : State) (f : Shared → Shared) : (s.modHub f).hubs = s.hubs := rfl
@[simp] theorem modRegion_hubs (s : State) (r : Nat) (f : Region → Region) : (s.modRegion r f).hubs = s.hubs := rfl
@[simp] theorem record_hubs (s : State) (code level argx source : Nat) (arg : Word) :
    (s.record code level argx source arg).hubs = s.hubs := rfl
@[simp] theorem telemetry_hubs (s : State) (type region : Nat) (body : List Byte) (sub : Bool) :
    (s.telemetry type region body sub).hubs = s.hubs := hubs_of_eq (by simp) (by simp)
@[simp] theorem abandonRound_hubs (i code detail : Nat) (s : State) : (abandonRound i code detail s).hubs = s.hubs :=
  (abandonRound_onlyGrants i code detail s).hubs
@[simp] theorem abandonAll_hubs (s : State) : (abandonAll s).hubs = s.hubs := (abandonAll_onlyGrants s).hubs

@[simp] theorem abandonRounds_hubs (r detail : Nat) (s : State) : (abandonRounds r detail s).hubs = s.hubs := by
  unfold abandonRounds
  split
  · rfl
  · exact hubs_foldl (fun a i => abandonRound_hubs i _ _ a) _ _

@[simp] theorem revokeGrant_hubs (i cause : Nat) (s : State) : (revokeGrant i cause s).hubs = s.hubs := by
  unfold revokeGrant grantRecord State.modGrant
  simp

@[simp] theorem revokeRegion_hubs (r : Nat) (s : State) : (revokeRegion r s).hubs = s.hubs := by
  unfold revokeRegion
  split <;> simp

@[simp] theorem settleDecision_hubs (i : Nat) (s : State) : (settleDecision i s).hubs = s.hubs := by
  unfold settleDecision State.modGrant
  dsimp only
  split
  · split <;> simp
  · rfl

@[simp] theorem decideRound_hubs (i : Nat) (s : State) : (decideRound i s).hubs = s.hubs := by
  unfold decideRound State.modGrant
  dsimp only
  repeat' split
  all_goals simp

theorem thymeReady_hubs (s : State) : (thymeReady s).hubs = s.hubs := by
  have hite (c : Prop) [Decidable c] (a b : State) (h : b.hubs = a.hubs) : (if c then b else a).hubs = a.hubs := by
    split
    · exact h
    · rfl
  unfold thymeReady
  dsimp only
  split
  · rfl
  · rw [hubs_foldl (fun a i => decideRound_hubs i a), hubs_foldl (fun a r => hite _ a _ (abandonRounds_hubs r 0x52 a)),
      hite _ _ _ (abandonAll_hubs _), hubs_foldl (fun a r => (revokeRegion_hubs r _).trans (abandonRounds_hubs r 0x50 a)),
      State.modThyme_eq, modHub_hubs]

@[simp] theorem modDef_hubs (s : State) (gid : Nat) (f : Group → Group) : (s.modDef gid f).hubs = s.hubs := rfl
@[simp] theorem homes_hubs (s : State) (l : List (Nat × Home)) : ({ s with homes := l } : State).hubs = s.hubs := rfl

theorem foldl_writeSlot_hubs (gid : Nat) (l : List Nat) (s : State) :
    (l.foldl (fun a r => a.modRegion r (Region.writeSlot gid)) s).hubs = s.hubs :=
  hubs_foldl (fun a r => modRegion_hubs a r _) l s

@[simp] theorem settleDefinition_hubs (gid : Nat) (s : State) : (settleDefinition gid s).hubs = s.hubs := by
  unfold settleDefinition
  dsimp only
  repeat' split
  all_goals simp [State.modGroups, foldl_writeSlot_hubs]

theorem groupsReady_hubs (s : State) : (groupsReady s).hubs = s.hubs := by
  unfold groupsReady
  split
  · rfl
  · exact hubs_foldl (fun a _ => settleDefinition_hubs _ a) _ _

theorem finishStage_hubs (s : State) : (finishStage s).hubs = s.hubs := by
  unfold finishStage
  dsimp only
  repeat' split
  all_goals simp

/-! ### A trap held for a core that was halted (R418, R493) -/

/-- What the port sees of a core: its state, its memory, the reason of its latest halt. -/
def HubCore.seenPart (c : HubCore) : CoreState × SMap Word × Nat := (c.state, c.data, c.haltWhy)

theorem modCore_seenPart {f : HubCore → HubCore} (hf : ∀ c, (f c).seenPart = c.seenPart) (s : State) (h x : Hub) (k j : Nat) :
    ((s.modCore h k f).coreAt x j).seenPart = (s.coreAt x j).seenPart := by
  have hcore (u : HubSt) : ((u.modCore k f).core j).seenPart = (u.core j).seenPart := by
    match k, j with
    | 0, 0 => exact hf _
    | 0, 1 => rfl
    | 0, _ + 2 => rfl
    | 1, 0 => rfl
    | 1, 1 => exact hf _
    | 1, _ + 2 => rfl
    | _ + 2, 0 => rfl
    | _ + 2, 1 => rfl
    | _ + 2, _ + 2 => exact hf _
  cases h <;> cases x
  case a.a => exact hcore s.hubA
  case b.b => exact hcore s.hubB
  case a.b => rfl
  case b.a => rfl

theorem modCore_dbg (s : State) (h x : Hub) (k : Nat) (f : HubCore → HubCore) : (s.modCore h k f).dbg x = s.dbg x := by
  have hd (u : HubSt) : (u.modCore k f).dbg = u.dbg := by
    match k with
    | 0 => rfl
    | 1 => rfl
    | _ + 2 => rfl
  cases h <;> cases x
  case a.a => exact hd s.hubA
  case b.b => exact hd s.hubB
  case a.b => rfl
  case b.a => rfl

theorem modColl_coreAt (s : State) (h x : Hub) (f : HubSt → Collector) (k : Nat) :
    (s.modHubOf h (fun u => { u with coll := f u })).coreAt x k = s.coreAt x k := by
  have hcore (u : HubSt) : ({ u with coll := f u } : HubSt).core k = u.core k := by
    match k with
    | 0 => rfl
    | 1 => rfl
    | _ + 2 => rfl
  cases h <;> cases x
  case a.a => exact hcore s.hubA
  case b.b => exact hcore s.hubB
  case a.b => rfl
  case b.a => rfl

theorem modColl_dbg (s : State) (h x : Hub) (f : HubSt → Collector) :
    (s.modHubOf h (fun u => { u with coll := f u })).dbg x = s.dbg x := by
  cases h <;> cases x <;> rfl

@[simp] theorem emit_coreAt (s : State) (e : Effect) (x : Hub) (k : Nat) : (s.emit e).coreAt x k = s.coreAt x k := by
  cases x <;> rfl

/-- A trap's delivery leaves what the port sees of the cores, and the port itself. -/
theorem deliverNmi_keeps (h : Hub) (src : Nat) (s : State) (x : Hub) (k : Nat) :
    ((deliverNmi h src s).coreAt x k).seenPart = (s.coreAt x k).seenPart ∧ (deliverNmi h src s).dbg x = s.dbg x := by
  unfold deliverNmi
  dsimp only
  repeat' split
  · exact ⟨rfl, rfl⟩
  · rw [modColl_coreAt, modColl_dbg]
    exact ⟨rfl, rfl⟩
  · rw [emit_coreAt, State.emit_dbg, modColl_coreAt, modColl_dbg]
    exact ⟨rfl, rfl⟩
  · rw [modColl_coreAt, modColl_dbg]
    exact ⟨rfl, rfl⟩
  · rw [modCore_dbg]
    exact ⟨modCore_seenPart (f := fun c => { c with nmiHeld := some src }) (fun _ => rfl) .., rfl⟩

theorem releaseNmi_keeps (h : Hub) (s : State) (x : Hub) (k : Nat) :
    ((releaseNmi h s).coreAt x k).seenPart = (s.coreAt x k).seenPart ∧ (releaseNmi h s).dbg x = s.dbg x := by
  unfold releaseNmi
  split
  · split
    · obtain ⟨h1, h2⟩ := deliverNmi_keeps h _ (s.modCore h 1 (fun c => { c with nmiHeld := none })) x k
      exact ⟨h1.trans (modCore_seenPart (f := fun c => { c with nmiHeld := none }) (fun _ => rfl) ..), h2.trans (modCore_dbg ..)⟩
    · exact ⟨rfl, rfl⟩
  · exact ⟨rfl, rfl⟩

/-- What waited for the owner's scheduler or security core goes on (R494). -/
def resumeWaiting (h : Hub) (k : Fin 3) (s : State) : State :=
  if s.owner ≠ some h then s else if k = 2 then groupsReady (thymeReady s) else if k = 0 then finishStage s else s

theorem resumeWaiting_hubs (h : Hub) (k : Fin 3) (s : State) : (resumeWaiting h k s).hubs = s.hubs := by
  unfold resumeWaiting
  repeat' split
  · rfl
  · exact (groupsReady_hubs _).trans (thymeReady_hubs _)
  · exact finishStage_hubs s
  · rfl

/-- The core runs, and neither port counts it as halted any more. -/
def State.setRunning (s : State) (h : Hub) (k : Fin 3) : State :=
  ((setHalt (.hub h k) .running 0 s).modDbg .a (fun d => { d with halted := d.halted.filter (fun x => x != .hub h k) })).modDbg .b
    (fun d => { d with halted := d.halted.filter (fun x => x != .hub h k) })

theorem resumeCore_hub {s : State} {h : Hub} {k : Fin 3} (hs : (s.coreAt h k).state = .halted) :
    resumeCore (.hub h k) s = resumeWaiting h k (releaseNmi h (s.setRunning h k)) := by
  unfold resumeCore
  rw [if_neg (by simpa [State.coreState] using hs)]
  rfl

/-- A halted core runs again with its memory (R491). -/
theorem resumeCore_seenPart {s : State} {h : Hub} {k : Fin 3} (hs : (s.coreAt h k).state = .halted) :
    ((resumeCore (.hub h k) s).coreAt h k).seenPart = (.running, (s.coreAt h k).data, 0) := by
  rw [resumeCore_hub hs, coreAt_of_hubs (resumeWaiting_hubs ..), (releaseNmi_keeps ..).1, State.setRunning, modDbg_coreAt,
    modDbg_coreAt, setHalt, modCore_coreAt, if_pos rfl]
  rfl

end Sys2Proof.Machine
end

