-- ==== Sys2Proof/Proofs/WarmResets.lean ====
section
/-!
SUPPORT. Claims at step 8, warm resets, rails, the defect map (R32, R438 to R442, R455 to R461, R466).
-/

namespace Sys2Proof.Machine

/-! ### What the emergency cap's edge may change -/

/-- Rings, Thyme, the emergency cap, the budget, what is raised and what is sent alone may differ. -/
def OnlyEcap (s t : State) : Prop :=
  t = { s with
    hub := { s.hub with rings := t.hub.rings, thyme := t.hub.thyme, ecap := t.hub.ecap, budget := t.hub.budget }
    events := t.events, pair := t.pair, out := t.out, hubLast := t.hubLast, await := t.await, seqs := t.seqs }

theorem OnlyEcap.refl (s : State) : OnlyEcap s s := rfl

theorem OnlyEcap.trans {s t u : State} (h₁ : OnlyEcap s t) (h₂ : OnlyEcap t u) : OnlyEcap s u := by
  unfold OnlyEcap at h₁ h₂ ⊢
  exact h₂.trans (by rw [h₁])

theorem OnlyGrants.onlyEcap {s t : State} (h : OnlyGrants s t) : OnlyEcap s t := by
  unfold OnlyEcap
  rw [h]

theorem OnlyMessages.onlyEcap {s t : State} (h : OnlyMessages s t) : OnlyEcap s t := h.onlyGrants.onlyEcap

theorem modThyme_onlyEcap (s : State) (f : Thyme → Thyme) : OnlyEcap s (s.modThyme f) := rfl
theorem modBudget_onlyEcap (s : State) (f : Budget → Budget) : OnlyEcap s (s.modBudget f) := rfl
theorem modEcap_onlyEcap (s : State) (f : Ecap → Ecap) : OnlyEcap s (s.modEcap f) := rfl
theorem bothHubs_modEcap_onlyEcap (s : State) (f : Ecap → Ecap) : OnlyEcap s (bothHubs (fun a => a.modEcap f) s) := rfl

theorem telemetry_onlyEcap (s : State) (type region : Nat) (body : List Byte) (sub : Bool) :
    OnlyEcap s (s.telemetry type region body sub) := by
  unfold State.telemetry
  split_ifs <;> rfl

theorem broadcast_onlyEcap (paths : List Hub) (ps : List Nat) (s : State) : OnlyEcap s (broadcast paths ps s) :=
  List.foldlRecOn (motive := OnlyEcap s) paths _ (.refl s) fun _ h _ _ => h.trans rfl

theorem ecapEdge_onlyEcap (paths : List Hub) (before : Ecap) (s : State) : OnlyEcap s (ecapEdge paths before s) := by
  unfold ecapEdge
  dsimp only
  split
  · refine OnlyEcap.trans ?_ (abandonAll_onlyGrants _).onlyEcap
    refine ((OnlyEcap.trans ?_ (modBudget_onlyEcap _ _)).trans (modBudget_onlyEcap _ _)).trans (modThyme_onlyEcap _ _)
    refine (OnlyEcap.trans ?_ (hubEmit_onlyMessages _ _).onlyEcap).trans (telemetry_onlyEcap ..)
    exact (modEcap_onlyEcap s _).trans (broadcast_onlyEcap paths _ _)
  · split
    · exact ((modEcap_onlyEcap s _).trans (hubEmit_onlyMessages _ _).onlyEcap).trans (telemetry_onlyEcap ..)
    · exact .refl s

theorem setEcap_onlyEcap (paths : List Hub) (f : Ecap → Ecap) (s : State) : OnlyEcap s (setEcap paths f s) :=
  (bothHubs_modEcap_onlyEcap s f).trans (ecapEdge_onlyEcap ..)

/-- A pin that is low already is sensed (R502). -/
theorem ecapLevel_onlyEcap {s : State} {h : Hub} (hl : s.pow.ecapLow h = true) : OnlyEcap s (ecapLevel h true s) := by
  have hpow : s.modPow (Power.setEcapLow h true) = s := by
    unfold State.modPow
    cases h
    · rw [show s.pow.setEcapLow .a true = s.pow by simp_all [Power.setEcapLow, Power.ecapLow]; rw [← hl]]
    · rw [show s.pow.setEcapLow .b true = s.pow by simp_all [Power.setEcapLow, Power.ecapLow]; rw [← hl]]
  unfold ecapLevel
  rw [hpow]
  split
  · exact setEcap_onlyEcap ..
  · exact .refl s

/-! ### Claims and joins at step 7 (R458, R461) -/

/-- The records as the sequence numbers and the codes tell them. -/
def Recorder.codes (q : Recorder) : List (BitVec 48 × Nat) := q.recs.map (fun x => (x.seq, x.code))

theorem nameFirst_codes (node : Nat) (l : List Rec) :
    (nameFirst node l).map (fun x => (x.seq, x.code)) = l.map (fun x => (x.seq, x.code)) := by
  induction l with
  | nil => rfl
  | cons x rest ih =>
    unfold nameFirst
    split
    · rfl
    · simp [ih]

theorem nameOwner_codes (node : Nat) (q : Recorder) : (q.nameOwner node).codes = q.codes := by
  unfold Recorder.nameOwner Recorder.codes
  rw [List.map_reverse, nameFirst_codes, List.map_reverse, List.reverse_reverse]

theorem setEngRun_start (h : Hub) (low : Bool) (s : State) (x : Hub) :
    ((setEngRun h low s).hubOf x).start = (s.hubOf x).start := by
  unfold setEngRun State.pin
  dsimp only
  repeat' split
  all_goals cases h <;> cases x <;> rfl

theorem setEngRun_role (h : Hub) (low : Bool) (s : State) (x : Hub) :
    ((setEngRun h low s).hubOf x).role = (s.hubOf x).role ∧ ((setEngRun h low s).hubOf x).epoch = (s.hubOf x).epoch := by
  unfold setEngRun State.pin
  dsimp only
  repeat' split
  all_goals cases h <;> cases x <;> exact ⟨rfl, rfl⟩

theorem setEngRun_hub (h : Hub) (low : Bool) (s : State) : (setEngRun h low s).hub = s.hub := by
  unfold setEngRun State.pin
  dsimp only
  repeat' split
  all_goals cases h <;> rfl

theorem setEngRun_pair (h : Hub) (low : Bool) (s : State) : (setEngRun h low s).pair = s.pair := by
  unfold setEngRun State.pin
  dsimp only
  repeat' split
  all_goals cases h <;> rfl

theorem sendClaim_onlyMessages (h : Hub) (e : Word) (s : State) (r : Nat) : OnlyMessages s (sendClaim h e s r) := rfl

/-- The state of a claim before its messages (R381, R461). -/
def State.claiming (s : State) (h : Hub) (e : Word) (kind : Nat) : State :=
  let t := s.modHubOf h (fun u => { u with role := .owner, epoch := e, goodRun := 0, dropSent := false, fatalSaid := false })
  let t := t.modPair (fun p => { p with claims := List.range 64, claimAge := 0, claimKind := kind })
  (setEngRun h.other false (setEngRun h (!t.pow.startDone) t)).emit (.tree h e)

theorem claimFor_eq (h : Hub) (e : Word) (kind : Nat) (s : State) :
    claimFor h e kind s = (List.range 64).foldl (sendClaim h e) (s.claiming h e kind) := rfl

theorem claimFor_onlyMessages (h : Hub) (e : Word) (kind : Nat) (s : State) :
    OnlyMessages (s.claiming h e kind) (claimFor h e kind s) :=
  OnlyMessages.foldl (sendClaim_onlyMessages h e) (List.range 64) _

theorem OnlyMessages.hubOf {s t : State} (h : OnlyMessages s t) (x : Hub) : t.hubOf x = s.hubOf x := by
  rw [h]
  cases x <;> rfl

theorem claimFor_start (h : Hub) (e : Word) (kind : Nat) (s : State) (x : Hub) :
    ((claimFor h e kind s).hubOf x).start = (s.hubOf x).start := by
  rw [(claimFor_onlyMessages h e kind s).hubOf, State.claiming, State.emit_hubOf, setEngRun_start, setEngRun_start]
  cases h <;> cases x <;> rfl

theorem claimFor_hub (h : Hub) (e : Word) (kind : Nat) (s : State) : (claimFor h e kind s).hub = s.hub := by
  rw [(claimFor_onlyMessages h e kind s).hub, State.claiming, State.emit_hub, setEngRun_hub, setEngRun_hub]
  cases h <;> rfl

/-- What a hub's coming to step 7 keeps: everything outside the hubs, the mirrored image but for the names in its records, and
how far either hub's start had come. -/
structure Reached (s t : State) : Prop where
  outside : t.outside = s.outside
  hub     : t.hub = { s.hub with recorder := t.hub.recorder }
  head    : t.hub.recorder.head = s.hub.recorder.head
  codes   : t.hub.recorder.codes = s.hub.recorder.codes
  step    : ∀ x, (s.hubOf x).start.step ≤ (t.hubOf x).start.step
  fail    : ∀ x, (t.hubOf x).start.selfFail = (s.hubOf x).start.selfFail

theorem Reached.refl (s : State) : Reached s s := ⟨rfl, rfl, rfl, rfl, fun _ => Nat.le_refl _, fun _ => rfl⟩

theorem join_start (e : Word) (u : HubSt) :
    u.start.step ≤ (u.join e false).start.step ∧ (u.join e false).start.selfFail = u.start.selfFail :=
  ⟨Nat.le_max_right 8 _, rfl⟩

theorem eq_other {x h : Hub} (hx : x ≠ h) : x = h.other := by
  cases x <;> cases h
  case a.a => exact absurd rfl hx
  case b.b => exact absurd rfl hx
  case a.b => rfl
  case b.a => rfl

theorem modHubOf_hubOf_ne {s : State} {h x : Hub} (hx : x ≠ h) (f : HubSt → HubSt) : (s.modHubOf h f).hubOf x = s.hubOf x := by
  rw [eq_other hx, State.modHubOf_hubOf_other]

theorem modPair_hubOf (s : State) (f : Pair → Pair) (x : Hub) : (s.modPair f).hubOf x = s.hubOf x := by cases x <;> rfl
theorem modRecorder_hubOf (s : State) (f : Recorder → Recorder) (x : Hub) : (s.modRecorder f).hubOf x = s.hubOf x := by
  cases x <;> rfl

/-- A claim at step 8, hub by hub. -/
theorem claimStart_self (h : Hub) (e : Word) (s : State) :
    ((claimStart h e s).hubOf h).start = { (s.hubOf h).start with step := 8, claimed := true } := by
  have hne : h ≠ h.other := by cases h <;> simp [Hub.other]
  have hu : ((claimStart h e s).hubOf h).start =
      { ((claimFor h e 0 s).hubOf h).start with step := 8, claimed := true } := by
    unfold claimStart
    dsimp only
    rw [modHubOf_hubOf_ne hne, modPair_hubOf, modRecorder_hubOf, State.modHubOf_hubOf_self]
  rw [hu, claimFor_start]

theorem claimStart_other (h : Hub) (e : Word) (s : State) : (claimStart h e s).hubOf h.other =
    if 7 ≤ (s.hubOf h.other).start.step ∧ (s.hubOf h.other).start.ended = false then
      ((claimFor h e 0 s).hubOf h.other).join e false else (claimFor h e 0 s).hubOf h.other := by
  unfold claimStart
  dsimp only
  rw [State.modHubOf_hubOf_self, modPair_hubOf, modRecorder_hubOf, State.modHubOf_hubOf_other, claimFor_start]

theorem claimStart_hub (h : Hub) (e : Word) (s : State) :
    (claimStart h e s).hub = { s.hub with recorder := s.hub.recorder.nameOwner (nodeHub h) } := by
  unfold claimStart State.modRecorder
  simp [claimFor_hub]

theorem claimStart_reached {h : Hub} {s : State} (hs : (s.hubOf h).start.step ≤ 8) (e : Word) : Reached s (claimStart h e s) := by
  have hother : ((s.hubOf h.other).start.step ≤ ((claimStart h e s).hubOf h.other).start.step) ∧
      ((claimStart h e s).hubOf h.other).start.selfFail = (s.hubOf h.other).start.selfFail := by
    rw [claimStart_other]
    split
    · rw [← claimFor_start h e 0 s h.other]
      exact join_start e _
    · rw [claimFor_start]
      exact ⟨Nat.le_refl _, rfl⟩
  have hself : ((s.hubOf h).start.step ≤ ((claimStart h e s).hubOf h).start.step) ∧
      ((claimStart h e s).hubOf h).start.selfFail = (s.hubOf h).start.selfFail := by
    rw [claimStart_self]
    exact ⟨hs, rfl⟩
  refine ⟨claimStart_outside h e s, by rw [claimStart_hub], by rw [claimStart_hub]; rfl, ?_, fun x => ?_, fun x => ?_⟩
  · rw [claimStart_hub]
    exact nameOwner_codes _ _
  all_goals
    rcases eq_or_ne x h with rfl | hx
    rotate_left
    obtain rfl : x = h.other := eq_other hx
  · exact hother.1
  · exact hself.1
  · exact hother.2
  · exact hself.2

/-- A change of one hub that keeps its START_STAT's verdict and takes no step back. -/
theorem Reached.modHubOf {s : State} {h : Hub} {f : HubSt → HubSt}
    (hf : (s.hubOf h).start.step ≤ (f (s.hubOf h)).start.step ∧ (f (s.hubOf h)).start.selfFail = (s.hubOf h).start.selfFail) :
    Reached s (s.modHubOf h f) := by
  have hx (x : Hub) : (s.hubOf x).start.step ≤ ((s.modHubOf h f).hubOf x).start.step ∧
      ((s.modHubOf h f).hubOf x).start.selfFail = (s.hubOf x).start.selfFail := by
    rcases eq_or_ne x h with rfl | hne
    · rw [State.modHubOf_hubOf_self]
      exact hf
    · rw [eq_other hne, State.modHubOf_hubOf_other]
      exact ⟨Nat.le_refl _, rfl⟩
  exact ⟨by simp, by simp, by simp, by simp, fun x => (hx x).1, fun x => (hx x).2⟩

theorem Reached.trans {s t u : State} (h₁ : Reached s t) (h₂ : Reached t u) : Reached s u where
  outside := h₂.outside.trans h₁.outside
  hub := h₂.hub.trans (by rw [h₁.hub])
  head := h₂.head.trans h₁.head
  codes := h₂.codes.trans h₁.codes
  step x := (h₁.step x).trans (h₂.step x)
  fail x := (h₂.fail x).trans (h₁.fail x)

theorem beginResync_reached (s : State) (h : Hub) : Reached s (s.beginResync h) := by
  have hr : Reached s (s.modHubOf h (fun u => { u with role := .resyncing })) := .modHubOf ⟨Nat.le_refl _, rfl⟩
  refine ⟨State.beginResync_outside s h, hr.hub, hr.head, hr.codes, fun x => (hr.step x).trans ?_, fun x => ?_⟩
  · exact Nat.le_of_eq (by cases x <;> rfl)
  · exact Eq.trans (by cases x <;> rfl) (hr.fail x)

theorem reachStep7_reached {h : Hub} {s : State} (hs : (s.hubOf h).start.step ≤ 8) : Reached s (reachStep7 h s) := by
  unfold reachStep7
  split
  · refine .trans (.modHubOf ⟨?_, rfl⟩) (beginResync_reached _ h)
    show (s.hubOf h).start.step ≤ if s.pow.startDone then 12 else max 8 (s.hubOf h).start.step
    split <;> omega
  · split
    · next hh => subst hh; exact claimStart_reached hs _
    · exact .refl s

/-! ### Warm resets (R455 to R457) -/

@[simp] theorem startChives_inside (s : State) : (startChives s).inside = s.inside := rfl

@[simp] theorem holdAgain_inside (r : Nat) (s : State) : (holdAgain r s).inside = s.inside := by
  unfold holdAgain
  dsimp only
  repeat' split
  all_goals simp

/-- A hub as a warm reset's release starts it (R457). -/
def HubSt.released (now : Nat) (u : HubSt) : HubSt :=
  let v := { u with core0 := u.core0.restartWarm, core1 := u.core1.restartWarm, core2 := u.core2.restartWarm }
  if 4 ≤ u.start.step then { v with start := { u.start with step := 7, since := now } } else v

theorem released_step (now : Nat) (u : HubSt) :
    (u.released now).start.step = if 4 ≤ u.start.step then 7 else u.start.step := by
  unfold HubSt.released
  dsimp only
  split <;> rfl

/-- The release up to its record: the regions, the hubs' cores and starts. -/
@[irreducible] def State.resetLifted (s : State) : State :=
  let t := (startChives (s.modPow (fun p => { p with resetForce := false, regOpen := true }))).forRegions holdAgain
  let t := { t with hubA := t.hubA.released s.period.toNat, hubB := t.hubB.released s.period.toNat }
  t.recordFirst 0x02 (nodeHub (if 7 ≤ t.hubA.start.step then .a else .b)) (BitVec.ofNat 32 t.pow.cause.toNat)

/-- The sensing of a low ECAP_N. -/
def senseLow (s : State) (h : Hub) : State := if s.pow.ecapLow h then ecapLevel h true s else s

theorem senseLow_onlyEcap (s : State) (h : Hub) : OnlyEcap s (senseLow s h) := by
  unfold senseLow
  split
  · next hl => exact ecapLevel_onlyEcap hl
  · exact .refl s

theorem warmRelease_eq {s : State} (hc : s.clk.st ≠ .stopped) : warmRelease s =
    let t := senseLow (senseLow s.resetLifted .a) .b
    if 7 ≤ t.hubA.start.step then reachStep7 .a t else t := by
  unfold warmRelease State.resetLifted
  rw [if_neg hc]
  dsimp only
  generalize (startChives _).forRegions holdAgain = x
  rfl

/-- What the release of a warm reset from `s` leaves, and what it brings (R457). -/
structure Released (s t : State) : Prop where
  period : t.period = s.period
  setup  : t.setup = s.setup
  pow    : t.pow = { s.pow with resetForce := false, regOpen := true }
  groups : t.hub.groups = s.hub.groups
  head   : t.hub.recorder.head = s.hub.recorder.head + 1
  last   : t.hub.recorder.codes.getLast? = some (s.hub.recorder.head, 0x02)
  step   : ∀ x, 4 ≤ (s.hubOf x).start.step → 7 ≤ (t.hubOf x).start.step

theorem close_head (jn : Nat) (q : Recorder) : (q.close jn).head = q.head := by
  unfold Recorder.close
  split <;> rfl

theorem resetLifted_released (s : State) : Released s s.resetLifted := by
  have hin : ((startChives (s.modPow (fun p => { p with resetForce := false, regOpen := true }))).forRegions holdAgain).inside =
      (s.modPow (fun p => { p with resetForce := false, regOpen := true })).inside := by
    rw [State.forRegions_inside holdAgain_inside, startChives_inside]
  unfold State.resetLifted
  dsimp only
  generalize (startChives _).forRegions holdAgain = x at hin ⊢
  have hub : x.hub = s.hub := congrArg Inside.hub hin
  refine ⟨congrArg Inside.period hin, congrArg Inside.setup hin, congrArg Inside.pow hin,
    (show x.hub.groups = s.hub.groups by rw [hub]), ?_, ?_, fun y hy => ?_⟩
  · show (x.hub.recorder.close _).head + 1 = _
    rw [close_head, hub]
  · show List.getLast? (List.map _ (_ ++ _)) = _
    rw [List.map_append, List.map_singleton, List.getLast?_concat, close_head, hub]
  · have hstep (u : HubSt) (h4 : 4 ≤ u.start.step) : 7 ≤ (u.released s.period.toNat).start.step := by
      rw [released_step, if_pos h4]
    cases y
    · exact hstep x.hubA (by rw [show x.hubA = s.hubA from congrArg Inside.hubA hin]; exact hy)
    · exact hstep x.hubB (by rw [show x.hubB = s.hubB from congrArg Inside.hubB hin]; exact hy)

theorem Released.onlyEcap {s t u : State} (h : Released s t) (he : OnlyEcap t u) : Released s u := by
  have hh (x : Hub) : u.hubOf x = t.hubOf x := by
    rw [he]
    cases x <;> rfl
  have hrec : u.hub.recorder = t.hub.recorder := by rw [he]
  exact ⟨by rw [he]; exact h.period, by rw [he]; exact h.setup, by rw [he]; exact h.pow, by rw [he]; exact h.groups,
    by rw [hrec]; exact h.head, by rw [hrec]; exact h.last, fun x hx => by rw [hh]; exact h.step x hx⟩

theorem Released.reached {s t u : State} (h : Released s t) (hr : Reached t u) : Released s u where
  period := (congrArg Outside.period hr.outside).trans h.period
  setup := (congrArg Outside.setup hr.outside).trans h.setup
  pow := (congrArg Outside.pow hr.outside).trans h.pow
  groups := (congrArg Shared.groups hr.hub).trans h.groups
  head := hr.head.trans h.head
  last := (congrArg List.getLast? hr.codes).trans h.last
  step x hx := (h.step x hx).trans (hr.step x)

theorem resetLifted_hubA (s : State) : s.resetLifted.hubA.start.step ≤ 7 := by
  unfold State.resetLifted
  dsimp only
  generalize (startChives _).forRegions holdAgain = x
  show (HubSt.released _ _).start.step ≤ 7
  rw [released_step]
  split <;> omega

/-- The release of a warm reset, with its clocks running (R457). -/
theorem warmRelease_released {s : State} (hc : s.clk.st ≠ .stopped) : Released s (warmRelease s) := by
  have hecap := (senseLow_onlyEcap s.resetLifted .a).trans (senseLow_onlyEcap _ .b)
  have hrel := (resetLifted_released s).onlyEcap hecap
  have h8 : (senseLow (senseLow s.resetLifted .a) .b).hubA.start.step ≤ 8 := by
    rw [hecap]
    exact (resetLifted_hubA s).trans (by decide)
  rw [warmRelease_eq hc]
  dsimp only
  split
  · exact hrel.reached (reachStep7_reached h8)
  · exact hrel

/-- A bit of the cause byte is set by its own reset (R455). -/
theorem resetCause_bit (s : State) {bit : Nat} (hb : bit < 8) : bitOf (s.resetCause bit).toNat bit = true := by
  rw [bitOf_eq_testBit, BitVec.testBit_toNat]
  unfold State.resetCause
  simp only [BitVec.getLsbD_or, BitVec.getLsbD_ofNat, Nat.testBit_two_pow_self, hb, decide_true, Bool.true_and, Bool.true_or]

/-- Effects alone have been added. -/
def OnlyOut (s t : State) : Prop := t = { s with out := t.out }

theorem OnlyOut.refl (s : State) : OnlyOut s s := rfl

theorem OnlyOut.trans {s t u : State} (h₁ : OnlyOut s t) (h₂ : OnlyOut t u) : OnlyOut s u := by
  unfold OnlyOut at *
  exact h₂.trans (by rw [h₁])

theorem OnlyOut.ite {s t u : State} {c : Prop} [Decidable c] (h₁ : OnlyOut s t) (h₂ : OnlyOut s u) :
    OnlyOut s (if c then t else u) := by
  split
  · exact h₁
  · exact h₂

theorem emit_onlyOut (s : State) (e : Effect) : OnlyOut s (s.emit e) := rfl

theorem thermPins_onlyOut (b : Bool) (s : State) : OnlyOut s (thermPins b s) :=
  .ite (.refl s) ((emit_onlyOut s _).trans (emit_onlyOut _ _))

theorem faultPins_onlyOut (b s : State) : OnlyOut s (faultPins b s) :=
  (OnlyOut.ite (.refl s) (emit_onlyOut s _)).trans (.ite (.refl _) (emit_onlyOut _ _))

theorem pinsFollow_onlyOut (b s : State) : OnlyOut s (pinsFollow b s) := by
  have hpin (a : State) (c : Prop) [Decidable c] (e : Effect) : OnlyOut a (if c then a else a.emit e) :=
    .ite (.refl a) (emit_onlyOut a e)
  refine OnlyOut.trans (OnlyOut.trans ?_ (thermPins_onlyOut _ _)) (faultPins_onlyOut _ _)
  exact ((hpin s _ _).trans (hpin _ _ _)).trans ((hpin _ _ _).trans (hpin _ _ _))

/-- The reads that waited are gone, and their answers have left (R391, R467). -/
theorem dropReads_eq (s : State) : ∃ out, dropReads s = { s with reads := [], out := out } := by
  unfold dropReads
  have h : OnlyOut { s with reads := [] } (s.reads.foldl (fun (a : State) off => a.emit (.readData off 0xFFFFFFFF)) { s with reads := [] }) :=
    List.foldlRecOn (motive := OnlyOut { s with reads := [] }) s.reads _ (.refl _) fun _ h _ _ => h.trans rfl
  exact ⟨_, h⟩

/-- The machine as a warm reset's entry leaves it, but for the pins and the reads (R456). -/
def State.warmed (s : State) (bit : Nat) : State :=
  let best := if epochHigher s.hubB.epoch s.hubA.epoch then s.hubB.epoch else s.hubA.epoch
  let zero (g : Region) : Region := g.modClusters (Cluster.mapLimiters (Limiter.applyForce true false false))
  let one (h : Hub) : HubSt :=
    let u := (s.hubOf h).warm
    { u with epoch := best, engRunLow := u.engRunLow || decide (s.owner = some h) }
  { pending := s.pending, period := s.period, tick := s.tick, fresh := s.fresh, out := s.out
    regions := s.regions.mapAll (fun g => zero g.warm)
    govs := s.govs.mapAll Gov.warm
    hub := s.hub.warm
    hubA := one .a, hubB := one .b
    pair := {
      handovers := s.pair.handovers, failovers := s.pair.failovers, lanes := s.pair.lanes, image := s.pair.image.warm }
    clk := { s.clk with acquire := none, marked := none, fbBarred := false }
    trims := s.trims, report := s.report
    pow := { s.pow with
      resetForce := true, regOpen := false, cause := s.resetCause bit, cold := false, startDone := false, armed := false
      arraysOn := false, waferRun := false, gsecA := false, gsecB := false, brownOut := false }
    reads := s.reads }

theorem warmEntry_eq {s : State} (hc : s.clk.st ≠ .stopped) (bit : Nat) :
    ∃ out, warmEntry bit s = { s.warmed bit with reads := [], out := out } := by
  have hp := pinsFollow_onlyOut s (s.warmed bit)
  obtain ⟨out, hd⟩ := dropReads_eq (pinsFollow s (s.warmed bit))
  refine ⟨out, (if_neg hc).trans (hd.trans ?_)⟩
  rw [hp]

theorem warmEntry_stopped {s : State} (hc : s.clk.st = .stopped) (bit : Nat) : warmEntry bit s = s := if_pos hc

/-! ### Warm resets, as a whole (R455 to R457) -/

/-- What any warm reset brings, its release waiting or not. -/
structure WarmReset (bit : Nat) (s t : State) : Prop where
  period : t.period = s.period
  setup  : t.setup = {}
  groups : t.hub.groups = {}
  done   : t.pow.startDone = false
  cause  : bitOf t.pow.cause.toNat bit = true

theorem warmEntry_warmReset {s : State} (hc : s.clk.st ≠ .stopped) {bit : Nat} (hb : bit < 8) :
    WarmReset bit s (warmEntry bit s) := by
  obtain ⟨out, he⟩ := warmEntry_eq hc bit
  rw [he]
  exact ⟨rfl, rfl, rfl, rfl, resetCause_bit s hb⟩

theorem WarmReset.released {s u t : State} {bit : Nat} (h : WarmReset bit s u) (hr : Released u t) : WarmReset bit s t where
  period := hr.period.trans h.period
  setup := hr.setup.trans h.setup
  groups := hr.groups.trans h.groups
  done := by rw [hr.pow]; exact h.done
  cause := by rw [hr.pow]; exact h.cause

theorem warmEntry_clk {s : State} (bit : Nat) : (warmEntry bit s).clk.st = s.clk.st := by
  by_cases hc : s.clk.st = .stopped
  · rw [warmEntry_stopped hc]
  · obtain ⟨out, he⟩ := warmEntry_eq hc bit
    rw [he]
    rfl

theorem warmEntry_released {s : State} (hc : s.clk.st ≠ .stopped) (bit : Nat) :
    Released (warmEntry bit s) (warmRelease (warmEntry bit s)) :=
  warmRelease_released (by rw [warmEntry_clk]; exact hc)

theorem warmReset_warmReset {s : State} (hc : s.clk.st ≠ .stopped) {bit : Nat} (hb : bit < 8) :
    WarmReset bit s (warmReset bit s) := by
  have he := warmEntry_warmReset hc hb
  unfold warmReset
  split
  · exact he
  · exact he.released (warmEntry_released hc bit)

/-! ### Rails (R441, R442) -/

theorem pinsFollow_eq (b s : State) : ∃ out, pinsFollow b s = { s with out := out } := ⟨_, pinsFollow_onlyOut b s⟩

/-- The machine without VRN_CORE, reads and pins aside. -/
def State.coreLost (s : State) : State := loseCore (s.modPow (Power.setRail .core false))

theorem railDown_core {s : State} (h : s.pow.coreUp = true) :
    ∃ out, railDown .core s = { s.coreLost with reads := [], out := out } := by
  obtain ⟨out₁, hd⟩ := dropReads_eq { s.coreLost with reads := s.reads }
  obtain ⟨out, hp⟩ := pinsFollow_eq s (dropReads { s.coreLost with reads := s.reads })
  refine ⟨out, Eq.trans (if_neg (by simp [Power.railUp, h])) (hp.trans ?_)⟩
  rw [hd]

/-- The machine without VRN_ANA. -/
def State.anaLost (s : State) : State := { s with
  pow := { s.pow with anaUp := false, brownOut := s.pow.coreUp }
  regions := s.regions.mapAll (fun g => g.modClusters (Cluster.mapLimiters (Limiter.applyForce true false false))) }

theorem railDown_ana {s : State} (h : s.pow.anaUp = true) : ∃ out, railDown .ana s = { s.anaLost with out := out } := by
  obtain ⟨out, hp⟩ := pinsFollow_eq s s.anaLost
  exact ⟨out, Eq.trans (if_neg (by simp [Power.railUp, h])) hp⟩

theorem railDown_io {s : State} (h : s.pow.ioUp = true) : ∃ out, railDown .io s =
    { s with pow := { s.pow with ioUp := false, brownOut := s.pow.coreUp }, out := out } := by
  obtain ⟨out, hp⟩ := pinsFollow_eq s { s with pow := { s.pow with ioUp := false, brownOut := s.pow.coreUp } }
  exact ⟨out, Eq.trans (if_neg (by simp [Power.railUp, h])) hp⟩

theorem applyForce_trip (l : Limiter) : (l.applyForce true false false).e = 0 := by
  have hf : forceCode true false false l = 0 := by simp [forceCode]
  unfold Limiter.applyForce
  simp only [hf]
  split
  · rfl
  · omega

/-- With the trip force asserted everywhere no limiter lets a code through (R168). -/
theorem mapLimiters_trip (g : Region) (c i : Nat) :
    (((g.modClusters (Cluster.mapLimiters (Limiter.applyForce true false false))).clusters.get c).limiters.get i).e = 0 := by
  simp only [Region.modClusters, Cluster.mapLimiters, SMap.get_mapAll]
  exact applyForce_trip _

/-- What a rail's coming up brings before any warm reset: the trip latches clear with VRN_ANA (R198, R442). -/
def State.railRaised (s : State) : Rail → State
  | .ana => { s with
      pow := s.pow.setRail .ana true
      regions := s.regions.mapAll (fun g => { g with therm := { g.therm with latch := false, comps := 0 } }) }
  | .core => { s with pow := s.pow.setRail .core true }
  | .io => { s with pow := s.pow.setRail .io true }

theorem railUp_eq {s : State} {rail : Rail} (h : s.pow.railUp rail = false) : ∃ out,
    railUp rail s =
      let t := { s.railRaised rail with out := out }
      if t.pow.brownOut ∧ t.pow.ioUp ∧ t.pow.anaUp ∧ t.pow.coreUp then
        (warmReset 3 t).modPow (fun p => { p with brownOut := false })
      else t := by
  obtain ⟨out, hp⟩ := pinsFollow_eq s (s.railRaised rail)
  refine ⟨out, Eq.trans (if_neg (by simp [h])) ?_⟩
  rw [← hp]
  cases rail <;> rfl

theorem railRaised_pow (s : State) (rail : Rail) : (s.railRaised rail).pow = s.pow.setRail rail true := by
  cases rail <;> rfl

theorem railRaised_hub (s : State) (rail : Rail) : (s.railRaised rail).hub = s.hub := by
  cases rail <;> rfl

theorem railRaised_period (s : State) (rail : Rail) : (s.railRaised rail).period = s.period := by
  cases rail <;> rfl

theorem setRail_brownOut (p : Power) (rail : Rail) : (p.setRail rail true).brownOut = p.brownOut := by
  cases rail <;> rfl

theorem setRail_rstLow (p : Power) (rail : Rail) : (p.setRail rail true).rstLow = p.rstLow := by
  cases rail <;> rfl

theorem railUp_plain {s : State} {rail : Rail} (h : s.pow.railUp rail = false) (hb : s.pow.brownOut = false) :
    ∃ out, railUp rail s = { s.railRaised rail with out := out } := by
  obtain ⟨out, he⟩ := railUp_eq h
  refine ⟨out, he.trans (if_neg ?_)⟩
  simp [railRaised_pow, setRail_brownOut, hb]

/-- The warm reset after a brown-out (R442). -/
theorem railUp_resets {s : State} {rail : Rail} (h : s.pow.railUp rail = false) (hb : s.pow.brownOut = true)
    (hi : (s.pow.setRail rail true).ioUp = true) (ha : (s.pow.setRail rail true).anaUp = true)
    (hc : (s.pow.setRail rail true).coreUp = true) : ∃ out,
    railUp rail s = (warmReset 3 { s.railRaised rail with out := out }).modPow (fun p => { p with brownOut := false }) := by
  obtain ⟨out, he⟩ := railUp_eq h
  refine ⟨out, he.trans (if_pos ?_)⟩
  simp [railRaised_pow, setRail_brownOut, hb, hi, ha, hc]

/-! ### The defect map (R32) -/

theorem mem_overAllowance {m : SMap Nat} (hm : m.wf = true) (n limit k : Nat) :
    k ∈ overAllowance n limit m ↔ k < n ∧ limit < m.get k := by
  unfold overAllowance
  split
  · simp
  · next hd =>
    simp only [SMap.listed, List.mem_map, List.mem_filter, decide_eq_true_eq]
    constructor
    · rintro ⟨p, ⟨⟨hp, hn⟩, hl⟩, rfl⟩
      exact ⟨hn, by rw [SMap.get_of_mem_cells hm hp]; exact hl⟩
    · rintro ⟨hn, hl⟩
      unfold SMap.get at hl
      cases hf : m.cells.find? (fun q => q.1 == k) with
      | none => rw [hf] at hl; exact absurd hl hd
      | some q =>
        rw [hf] at hl
        have hq : q.1 = k := by simpa using List.find?_some hf
        exact ⟨q, ⟨⟨List.mem_of_find?_eq_some hf, hq ▸ hn⟩, hl⟩, hq⟩

theorem overAllowance_isEmpty {m : SMap Nat} (hm : m.wf = true) (n limit : Nat) :
    (overAllowance n limit m).isEmpty = true ↔ ∀ k < n, m.get k ≤ limit := by
  rw [List.isEmpty_iff, List.eq_nil_iff_forall_not_mem]
  simp only [mem_overAllowance hm, not_and, Nat.not_lt]

/-- The cores that the map holds at code 0. -/
def Cluster.withHeld (m : BitVec 32) (c : Cluster) : Cluster := Cluster.holdDead { c with ctl := { c.ctl with heldCores := m } }

def State.deadHeld (s : State) (d : DefectReport) : State :=
  d.heldCores.cells.foldl (fun (a : State) p => a.modCluster p.1 (Cluster.withHeld p.2))
    (s.modRegions (fun g => g.modClusters (Cluster.withHeld d.heldCores.dflt)))

/-- The paths beyond their allowances. -/
def State.pathsDoubled (s : State) (d : DefectReport) : State := s.modPow (fun p => { p with
  doubled := overAllowance 64 64 d.detours, doubledGov := overAllowance 4096 64 d.govDetours
  doubledChive := overAllowance 36864 16 d.chiveDetours })

theorem defectMap_eq (d : DefectReport) (s : State) : defectMap d s =
    if (overAllowance 64 64 d.detours).isEmpty && (overAllowance 4096 64 d.govDetours).isEmpty &&
      (overAllowance 36864 16 d.chiveDetours).isEmpty then (s.deadHeld d).pathsDoubled d
    else ((s.deadHeld d).pathsDoubled d).raise 209 0 := rfl

/-- A change of clusters alone: what else a region holds stays. -/
def OnlyClusters (s t : State) : Prop :=
  t = { s with regions := t.regions } ∧ ∀ r, t.region r = { s.region r with clusters := (t.region r).clusters }

theorem OnlyClusters.trans {s t u : State} (h₁ : OnlyClusters s t) (h₂ : OnlyClusters t u) : OnlyClusters s u :=
  ⟨h₂.1.trans (by rw [h₁.1]), fun r => (h₂.2 r).trans (by rw [h₁.2 r])⟩

theorem modCluster_onlyClusters (s : State) (c : Nat) (f : Cluster → Cluster) : OnlyClusters s (s.modCluster c f) := by
  refine ⟨rfl, fun r => ?_⟩
  unfold State.modCluster
  by_cases hr : r = regionOf c
  · subst hr
    rw [State.modRegion_region_self]
    rfl
  · rw [State.modRegion_region_ne _ _ hr]

theorem modRegions_onlyClusters (s : State) (f : Cluster → Cluster) : OnlyClusters s (s.modRegions (fun g => g.modClusters f)) := by
  refine ⟨rfl, fun r => ?_⟩
  simp only [State.region, State.modRegions, SMap.get_mapAll]
  rfl

theorem deadHeld_onlyClusters (s : State) (d : DefectReport) : OnlyClusters s (s.deadHeld d) := by
  unfold State.deadHeld
  exact List.foldlRecOn (motive := OnlyClusters s) _ _ (modRegions_onlyClusters s _) fun _ h p _ =>
    h.trans (modCluster_onlyClusters _ p.1 _)

theorem defectMap_paths {d : DefectReport} {s : State} : (defectMap d s).pow = ((s.deadHeld d).pathsDoubled d).pow := by
  rw [defectMap_eq]
  split <;> rfl

theorem OnlyClusters.pow {s t : State} (h : OnlyClusters s t) : t.pow = s.pow := by rw [h.1]
theorem OnlyClusters.hub {s t : State} (h : OnlyClusters s t) : t.hub = s.hub := by rw [h.1]
theorem OnlyClusters.period {s t : State} (h : OnlyClusters s t) : t.period = s.period := by rw [h.1]
theorem OnlyClusters.events {s t : State} (h : OnlyClusters s t) : t.events = s.events := by rw [h.1]
theorem OnlyClusters.report {s t : State} (h : OnlyClusters s t) : t.report = s.report := by rw [h.1]

/-- The map changes the clusters' held cores, the paths' bounds, and raises 209 (R32): nothing else. -/
theorem defectMap_frame (d : DefectReport) (s : State) : ∃ events, OnlyClusters { s with
    pow := { s.pow with
      doubled := overAllowance 64 64 d.detours, doubledGov := overAllowance 4096 64 d.govDetours
      doubledChive := overAllowance 36864 16 d.chiveDetours }, events := events } (defectMap d s) := by
  have hd := deadHeld_onlyClusters s d
  rw [defectMap_eq]
  split
  · refine ⟨s.events, ?_, fun r => hd.2 r⟩
    unfold State.pathsDoubled State.modPow
    rw [hd.1]
  · refine ⟨s.events ++ [{ src := 209, cause := 0 }], ?_, fun r => hd.2 r⟩
    unfold State.pathsDoubled State.modPow State.raise
    rw [hd.1]

/-- Whether a path is longer than its allowance. -/
def pathTooLong (d : DefectReport) : Prop :=
  (∃ r < 64, 64 < d.detours.get r) ∨ (∃ k < 4096, 64 < d.govDetours.get k) ∨ (∃ c < 36864, 16 < d.chiveDetours.get c)

theorem defectMap_events {d : DefectReport} (hd : d.detours.wf = true) (hg : d.govDetours.wf = true)
    (hc : d.chiveDetours.wf = true) (s : State) :
    (pathTooLong d → (defectMap d s).events = s.events ++ [{ src := 209, cause := 0 }]) ∧
      (¬ pathTooLong d → (defectMap d s).events = s.events) := by
  have hall : ((overAllowance 64 64 d.detours).isEmpty && (overAllowance 4096 64 d.govDetours).isEmpty &&
      (overAllowance 36864 16 d.chiveDetours).isEmpty) = true ↔ ¬ pathTooLong d := by
    rw [Bool.and_eq_true, Bool.and_eq_true, overAllowance_isEmpty hd, overAllowance_isEmpty hg, overAllowance_isEmpty hc]
    unfold pathTooLong
    push Not
    exact and_assoc
  have he := (deadHeld_onlyClusters s d).events
  rw [defectMap_eq]
  refine ⟨fun h => ?_, fun h => ?_⟩
  · rw [if_neg fun hn => hall.1 hn h]
    exact congrArg (· ++ _) he
  · rw [if_pos (hall.2 h)]
    exact he

theorem anaLost_region (s : State) (r : Nat) : s.anaLost.region r =
    (s.region r).modClusters (Cluster.mapLimiters (Limiter.applyForce true false false)) := by
  show (SMap.mapAll _ _).get r = _
  rw [SMap.get_mapAll]
  rfl

theorem coreLost_latch (s : State) (r : Nat) : (s.coreLost.region r).therm.latch = (s.region r).therm.latch := by
  show ((s.regions.mapAll Region.onlyAna).get r).therm.latch = _
  rw [SMap.get_mapAll]
  rfl

theorem warmed_region (s : State) (bit r : Nat) : (s.warmed bit).region r =
    (s.region r).warm.modClusters (Cluster.mapLimiters (Limiter.applyForce true false false)) := by
  show (SMap.mapAll _ _).get r = _
  rw [SMap.get_mapAll]
  rfl

theorem warmed_gov (s : State) (bit r : Nat) : (s.warmed bit).gov r = (s.gov r).warm := by
  show (SMap.mapAll _ _).get r = _
  rw [SMap.get_mapAll]
  rfl

theorem warmEntry_period (s : State) (bit : Nat) : (warmEntry bit s).period = s.period := by
  by_cases hc : s.clk.st = .stopped
  · rw [warmEntry_stopped hc]
  · obtain ⟨out, he⟩ := warmEntry_eq hc bit
    rw [he]
    rfl

theorem warmRelease_stopped {s : State} (hc : s.clk.st = .stopped) : warmRelease s = s := if_pos hc

/-- What RST_N's assertion does to a hub beside the reset (R455, R460). -/
def HubSt.pinReset (u : HubSt) : HubSt := { u with
  start := u.start.again, engRunLow := u.engRunLow || u.start.ended
  coll := if u.start.ended then { u.coll with monFault := false } else u.coll }

theorem rstNAssert_eq {s : State} (hl : s.pow.rstLow = false) (hi : s.pow.ioUp = true) (hc : s.pow.coreUp = true) :
    ∃ out, exec .rstNAssert s = .next ({ warmEntry 0 s with
      hubA := (warmEntry 0 s).hubA.pinReset, hubB := (warmEntry 0 s).hubB.pinReset, out := out
      pow := { (warmEntry 0 s).pow with rstLow := true } }) := by
  obtain ⟨out, hp⟩ := pinsFollow_eq (warmEntry 0 s) { warmEntry 0 s with
    hubA := (warmEntry 0 s).hubA.pinReset, hubB := (warmEntry 0 s).hubB.pinReset }
  refine ⟨out, congrArg Host.Outcome.next (Eq.trans (if_neg (by simp [hl, hi])) (Eq.trans (if_neg (by simp [hc])) ?_))⟩
  exact congrArg (fun t => State.modPow t (fun p => { p with rstLow := true })) hp

theorem close_exported (jn : Nat) (q : Recorder) : (q.close jn).exported = q.exported := by
  unfold Recorder.close
  split <;> rfl

/-- Settles O50: the rails, the resets' entries and releases, the map. -/
theorem railsAndResetsClear : Obligations.RailsAndResetsClear := by
  unfold Obligations.RailsAndResetsClear
  intro s
  refine ⟨fun h => ?_, fun h => ?_, fun h => ?_, fun rail hr hb => ?_, fun rail hr hb hl hi ha hc hclk => ?_,
    fun hl hi hc => ?_, fun hl => ?_, fun ho hclk => ?_, fun key hk => ?_, fun d hs hd hg hc => ?_, fun d hs => ?_⟩
  · obtain ⟨out, he⟩ := railDown_core h
    exact ⟨_, congrArg Host.Outcome.next he, rfl, rfl, rfl, rfl, rfl, rfl, coreLost_latch s⟩
  · obtain ⟨out, he⟩ := railDown_ana h
    refine ⟨_, congrArg Host.Outcome.next he, rfl, rfl, rfl, fun r c i => ?_⟩
    show (((s.anaLost.region r).clusters.get c).limiters.get i).e = 0
    rw [anaLost_region]
    exact mapLimiters_trip _ c i
  · obtain ⟨out, he⟩ := railDown_io h
    exact ⟨_, congrArg Host.Outcome.next he, rfl, rfl, rfl, rfl⟩
  · obtain ⟨out, he⟩ := railUp_plain hr hb
    refine ⟨_, congrArg Host.Outcome.next he, railRaised_pow s rail, railRaised_hub s rail, railRaised_period s rail,
      fun hne => ?_, fun ha r => ?_⟩
    · cases rail
      case ana => exact absurd rfl hne
      case io => rfl
      case core => rfl
    · subst ha
      simp only [State.region, State.railRaised, SMap.get_mapAll]
      exact ⟨trivial, trivial⟩
  · obtain ⟨out, he⟩ := railUp_resets hr hb hi ha hc
    have hclk' : ({ s.railRaised rail with out := out } : State).clk.st ≠ .stopped := by cases rail <;> exact hclk
    have hw := warmReset_warmReset hclk' (bit := 3) (by decide)
    have hrel := warmEntry_released hclk' 3
    have hnot : warmReset 3 { s.railRaised rail with out := out } =
        warmRelease (warmEntry 3 { s.railRaised rail with out := out }) :=
      if_neg (by simp [railRaised_pow, setRail_rstLow, hl])
    refine ⟨_, congrArg Host.Outcome.next he, hw.cause, rfl, ?_, hw.done, hw.period.trans (railRaised_period s rail), hw.setup⟩
    show (warmReset 3 _).pow.regOpen = true
    rw [hnot, hrel.pow]
  · obtain ⟨out, he⟩ := rstNAssert_eq hl hi hc
    refine ⟨_, he, rfl, warmEntry_period s 0, fun hclk => ?_⟩
    have hw := warmEntry_warmReset hclk (bit := 0) (by decide)
    obtain ⟨out', he'⟩ := warmEntry_eq hclk 0
    have hub : (warmEntry 0 s).hub = s.hub.warm := by rw [he']; rfl
    have hpow : (warmEntry 0 s).pow = (s.warmed 0).pow := by rw [he']
    have hreg (r : Nat) : (warmEntry 0 s).region r = (s.warmed 0).region r := by rw [he']; rfl
    have hgov (r : Nat) : (warmEntry 0 s).gov r = (s.warmed 0).gov r := by rw [he']; rfl
    refine ⟨?_, ?_, hw.done, hw.cause, hw.setup, ?_, hw.groups, ?_, ?_, fun r => ⟨?_, ?_, ?_, fun c i => ?_⟩⟩
    · exact (congrArg Power.resetForce hpow).trans rfl
    · exact (congrArg Power.regOpen hpow).trans rfl
    · exact (congrArg Shared.thyme hub).trans rfl
    · exact (congrArg (fun h : Shared => h.recorder.exported) hub).trans (close_exported 0 _)
    · exact (congrArg (fun h : Shared => h.rings.tseq) hub).trans rfl
    · refine (congrArg (fun g : Region => g.sp.trim) ((hreg r).trans (warmed_region s 0 r))).trans rfl
    · refine (congrArg (fun g : Region => g.therm.latch) ((hreg r).trans (warmed_region s 0 r))).trans rfl
    · exact (congrArg Gov.epoch ((hgov r).trans (warmed_gov s 0 r))).trans rfl
    · refine (congrArg (fun g : Region => ((g.clusters.get c).limiters.get i).e)
        ((hreg r).trans (warmed_region s 0 r))).trans (mapLimiters_trip _ c i)
  · refine ⟨warmRelease (s.modPow (fun p => { p with rstLow := false })), congrArg Host.Outcome.next (if_pos hl), ?_, ?_, fun hclk => ?_⟩
    · by_cases hclk : s.clk.st = .stopped
      · rw [warmRelease_stopped (s := s.modPow _) hclk]
        rfl
      · rw [(warmRelease_released (s := s.modPow _) hclk).pow]
        rfl
    · by_cases hclk : s.clk.st = .stopped
      · rw [warmRelease_stopped (s := s.modPow _) hclk]
        rfl
      · exact (warmRelease_released (s := s.modPow _) hclk).period
    · have hrel := warmRelease_released (s := s.modPow (fun p => { p with rstLow := false })) hclk
      refine ⟨by rw [hrel.pow], by rw [hrel.pow], by rw [hrel.pow]; rfl, hrel.step .a, hrel.step .b, hrel.head, ?_⟩
      rw [← List.getLast?_map]
      exact hrel.last
  · exact ⟨_, congrArg Host.Outcome.next (if_pos ⟨ho, rfl⟩), (warmReset_warmReset hclk (by decide)).cause,
      (warmReset_warmReset hclk (by decide)).done, (warmReset_warmReset hclk (by decide)).period,
      (warmReset_warmReset hclk (by decide)).setup, (warmReset_warmReset hclk (by decide)).groups⟩
  · exact congrArg Host.Outcome.next (if_neg fun h => hk h.2)
  · obtain ⟨events, hf⟩ := defectMap_frame d { s with report := d }
    obtain ⟨hmore, hsame⟩ := defectMap_events hd hg hc { s with report := d }
    refine ⟨defectMap d { s with report := d }, congrArg Host.Outcome.next (if_pos hs), hf.report, fun r hr => ?_, fun k hk => ?_,
      fun c hc' => ?_, hmore, fun h1 h2 h3 => hsame ?_, hf.hub, hf.period, fun r => ?_⟩
    · rw [hf.pow]
      exact (mem_overAllowance hd 64 64 r).trans (and_iff_right hr)
    · rw [hf.pow]
      exact (mem_overAllowance hg 4096 64 k).trans (and_iff_right hk)
    · rw [hf.pow]
      exact (mem_overAllowance hc 36864 16 c).trans (and_iff_right hc')
    · rintro (⟨r, hr, h⟩ | ⟨r, hr, h⟩ | ⟨r, hr, h⟩)
      · exact Nat.not_lt.2 (h1 r hr) h
      · exact Nat.not_lt.2 (h2 r hr) h
      · exact Nat.not_lt.2 (h3 r hr) h
    · rw [hf.2 r]
      exact ⟨rfl, rfl⟩
  · exact congrArg Host.Outcome.next (if_neg (by simp [hs]))

end Sys2Proof.Machine
end

