-- ==== Sys2Proof/Proofs/Starts.lean ====
section
/-!
SUPPORT. Cold start, clocks, self-test gate and the claim at start (R75, R432 to R464).
-/

namespace Sys2Proof.Machine

/-! ### Cold start (R32, R441, R458) -/

/-- The machine at step 1, before the map is read. -/
def State.coldStarted (s : State) : State := { loseCore s with
  hubA := { (loseCore s).hubA with start := { (loseCore s).hubA.start with step := 1 } }
  hubB := { (loseCore s).hubB with start := { (loseCore s).hubB.start with step := 1 } }
  pow := { (loseCore s).pow with coreUp := true } }

theorem coldStart_eq {s : State} (hi : s.pow.ioUp = true) (ha : s.pow.anaUp = true) (hc : s.pow.coreUp = false) :
    ∃ out, coldStart s = { defectMap s.report s.coldStarted with reads := [], out := out } := by
  obtain ⟨out₁, hd⟩ := dropReads_eq { defectMap s.report s.coldStarted with reads := s.reads }
  obtain ⟨out, hp⟩ := pinsFollow_eq s (dropReads { defectMap s.report s.coldStarted with reads := s.reads })
  refine ⟨out, Eq.trans (if_pos ⟨hi, ha, .inl hc⟩) (hp.trans ?_)⟩
  rw [hd]

theorem loseCore_region (s : State) (r : Nat) : (loseCore s).region r = (s.region r).onlyAna := by
  show (SMap.mapAll _ _).get r = _
  rw [SMap.get_mapAll]
  rfl

theorem coldStarted_region (s : State) (r : Nat) : s.coldStarted.region r = (s.region r).onlyAna := loseCore_region s r

/-- A cold start, once VRN_CORE is up (R458 step 1). -/
theorem coldStart_facts {s : State} (hi : s.pow.ioUp = true) (ha : s.pow.anaUp = true) (hc : s.pow.coreUp = false) :
    ∃ t, exec .coldStart s = .next t ∧ t.report = s.report ∧
      (s.report.detours.wf = true → ∀ r < 64, r ∈ t.pow.doubled ↔ 64 < s.report.detours.get r) ∧
      t.hubA.start.step = 1 ∧ t.hubB.start.step = 1 ∧ t.pow.coreUp = true ∧ t.pow.regOpen = false ∧ t.hub = {} ∧
      t.setup = {} ∧ t.clk = {} ∧ t.reads = [] ∧ t.pending = s.pending ∧
      ∀ r, (t.region r).therm.latch = (s.region r).therm.latch ∧ (t.region r).therm.comps = (s.region r).therm.comps ∧
        (t.region r).spec = {} := by
  obtain ⟨out, he⟩ := coldStart_eq hi ha hc
  obtain ⟨events, hf, hr⟩ := defectMap_frame s.report s.coldStarted
  have hregion (r : Nat) := (hr r).trans (by rw [show State.region { s.coldStarted with pow := _, events := events } r =
    (s.region r).onlyAna from coldStarted_region s r])
  refine ⟨_, congrArg Host.Outcome.next he, ?_⟩
  generalize defectMap s.report s.coldStarted = x at hf hregion
  rw [hf]
  refine ⟨rfl, fun hd r hr => (mem_overAllowance hd 64 64 r).trans (and_iff_right hr), rfl, rfl, rfl, rfl, rfl, rfl, rfl, rfl, rfl,
    fun r => ?_⟩
  show (x.region r).therm.latch = _ ∧ (x.region r).therm.comps = _ ∧ (x.region r).spec = _
  rw [hregion]
  exact ⟨rfl, rfl, rfl⟩

/-! ### The clocks of a hub start (R458, R459) -/

/-- The clocks as the first hub's start brings them up. -/
def State.firstClocks (s : State) (fallback : Bool) : State :=
  if s.clk.st = .stopped then { s with period := 0, tick := 0, trims := fusedTrims, clk := { s.clk with
    st := if fallback then .fallback else .locked, refLost := fallback, fbRun := fallback, fbEntered := fallback } }
  else s

/-- Step 5 of a hub's start, before its ECAP_N is sensed. -/
def State.clocked (s : State) (h : Hub) (fallback : Bool) : State :=
  let t := s.firstClocks fallback
  let t := t.modHubOf h (fun u => { u with start := { u.start with step := 5, since := t.period.toNat } })
  thermPins s.thermLow (t.modPow (fun p => { p with regOpen := true, gateSet := true }))

theorem startClocks_eq {s : State} {h : Hub} {fallback : Bool} (hg : s.pow.gateSpent = false) :
    startClocks h fallback s = senseLow (s.clocked h fallback) h := by
  have hg' : (s.firstClocks fallback).pow.gateSpent = false := by
    unfold State.firstClocks
    split <;> exact hg
  unfold startClocks senseLow State.clocked
  rw [← State.firstClocks]
  dsimp only
  rw [hg']
  rfl

theorem firstClocks_hubOf (s : State) (fallback : Bool) (x : Hub) : (s.firstClocks fallback).hubOf x = s.hubOf x := by
  unfold State.firstClocks
  split
  · cases x <;> rfl
  · rfl

theorem firstClocks_hub (s : State) (fallback : Bool) : (s.firstClocks fallback).hub = s.hub := by
  unfold State.firstClocks
  split <;> rfl

theorem firstClocks_pow (s : State) (fallback : Bool) : (s.firstClocks fallback).pow = s.pow := by
  unfold State.firstClocks
  split <;> rfl

theorem OnlyOut.hubOf {s t : State} (h : OnlyOut s t) (x : Hub) : t.hubOf x = s.hubOf x := by
  rw [h]
  cases x <;> rfl

theorem modPow_hubOf (s : State) (f : Power → Power) (x : Hub) : (s.modPow f).hubOf x = s.hubOf x := by
  cases x <;> rfl

theorem modClk_hubOf (s : State) (f : Clocks → Clocks) (x : Hub) : (s.modClk f).hubOf x = s.hubOf x := by
  cases x <;> rfl

theorem clocked_self (s : State) (h : Hub) (fallback : Bool) : ((s.clocked h fallback).hubOf h).start =
    { (s.hubOf h).start with step := 5, since := (s.firstClocks fallback).period.toNat } := by
  unfold State.clocked
  dsimp only
  rw [(thermPins_onlyOut _ _).hubOf, modPow_hubOf, State.modHubOf_hubOf_self, firstClocks_hubOf]

theorem clocked_other (s : State) (h : Hub) (fallback : Bool) : (s.clocked h fallback).hubOf h.other = s.hubOf h.other := by
  unfold State.clocked
  dsimp only
  rw [(thermPins_onlyOut _ _).hubOf, modPow_hubOf, State.modHubOf_hubOf_other, firstClocks_hubOf]

theorem clocked_frame (s : State) (h : Hub) (fallback : Bool) :
    (s.clocked h fallback).hub = s.hub ∧ (s.clocked h fallback).pow = { s.pow with regOpen := true, gateSet := true } ∧
      (s.clocked h fallback).period = (s.firstClocks fallback).period ∧
      (s.clocked h fallback).clk = (s.firstClocks fallback).clk := by
  unfold State.clocked
  dsimp only
  rw [thermPins_onlyOut]
  refine ⟨?_, ?_, ?_, ?_⟩
  · exact (State.modHubOf_hub ..).trans (firstClocks_hub s fallback)
  · exact congrArg (fun p : Power => { p with regOpen := true, gateSet := true })
      ((State.modHubOf_pow ..).trans (firstClocks_pow s fallback))
  · exact State.modHubOf_period ..
  · exact State.modHubOf_clk ..

theorem OnlyEcap.hubOf {s t : State} (h : OnlyEcap s t) (x : Hub) : t.hubOf x = s.hubOf x := by
  rw [h]
  cases x <;> rfl

theorem startClocks_facts {s : State} {h : Hub} {fb : Bool} (hg : s.pow.gateSpent = false) :
    let t := startClocks h fb s
    (t.hubOf h).start.step = 5 ∧ (t.hubOf h).start.since = t.period.toNat ∧
      t.pow.regOpen = true ∧ t.pow.gateSet = true ∧ t.hubOf h.other = s.hubOf h.other ∧
      (s.pow.ecapLow h = false → t.hub = s.hub) ∧
      (s.clk.st ≠ .stopped → t.period = s.period ∧ t.clk = s.clk) ∧
      (s.clk.st = .stopped → t.period = 0 ∧ t.clk.refLost = fb ∧ t.clk.fbRun = fb ∧
        t.clk.st = (if fb then .fallback else .locked)) := by
  intro t
  have he := startClocks_eq (h := h) (fallback := fb) hg
  have hs := senseLow_onlyEcap (s.clocked h fb) h
  obtain ⟨hhub, hpow, hperiod, hclk⟩ := clocked_frame s h fb
  have ht : OnlyEcap (s.clocked h fb) t := by
    show OnlyEcap _ (startClocks h fb s)
    rw [he]
    exact hs
  have tp : t.period = (s.firstClocks fb).period := Eq.trans (by rw [ht]) hperiod
  have tc : t.clk = (s.firstClocks fb).clk := Eq.trans (by rw [ht]) hclk
  have tw : t.pow = { s.pow with regOpen := true, gateSet := true } := Eq.trans (by rw [ht]) hpow
  have th (x : Hub) : t.hubOf x = (s.clocked h fb).hubOf x := ht.hubOf x
  refine ⟨?_, ?_, by rw [tw], by rw [tw], by rw [th, clocked_other], fun hl => ?_, fun hc => ?_, fun hc => ?_⟩
  · rw [th, clocked_self]
  · rw [th, clocked_self, tp]
  · have hl' : (s.clocked h fb).pow.ecapLow h = false := by
      rw [hpow]
      cases h <;> exact hl
    show (startClocks h fb s).hub = s.hub
    rw [he, senseLow, if_neg (by simp [hl']), hhub]
  · rw [tp, tc, State.firstClocks, if_neg hc]
    exact ⟨rfl, rfl⟩
  · rw [tp, tc, State.firstClocks, if_pos hc]
    exact ⟨rfl, rfl, rfl, rfl⟩

theorem setEngRun_self (h : Hub) (low : Bool) (s : State) :
    ((setEngRun h low s).hubOf h).engRunLow = low ∧ ((setEngRun h low s).hubOf h).coll = (s.hubOf h).coll := by
  unfold setEngRun State.pin
  dsimp only
  repeat' split
  · next he => exact ⟨he, rfl⟩
  all_goals cases h <;> exact ⟨rfl, rfl⟩

theorem setEngRun_regions (h : Hub) (low : Bool) (s : State) : (setEngRun h low s).regions = s.regions :=
  congrArg Outside.regions (setEngRun_outside h low s)

/-- A hub whose start the clock monitor has ended (R460). -/
def HubSt.endedBy (entered : Bool) (u : HubSt) : HubSt := { u with
  start := { u.start with ended := true, monTrip := u.start.monTrip || entered, noEntry := u.start.noEntry || !entered }
  coll := { u.coll with monFault := true } }

theorem endStart_eq (h : Hub) (entered : Bool) (s : State) : ∃ clk,
    endStart h entered s = faultPins s (setEngRun h false { s.modHubOf h (HubSt.endedBy entered) with clk := clk }) := by
  by_cases hc : s.clk.st = .stopped ∧ ((s.hubOf h.other).start.path && !(s.hubOf h.other).start.ended) = false
  · exact ⟨_, congrArg (fun t => faultPins s (setEngRun h false t)) (if_pos hc)⟩
  · exact ⟨_, congrArg (fun t => faultPins s (setEngRun h false t)) (if_neg hc)⟩

/-- The monitor's trip ends a start that waits for the fallback oscillator (R460). -/
theorem endStart_facts (h : Hub) (entered : Bool) (s : State) :
    let t := endStart h entered s
    (t.hubOf h).start.ended = true ∧ (t.hubOf h).engRunLow = false ∧ (t.hubOf h).coll.monFault = true ∧
      t.regions = s.regions ∧ t.hub = s.hub := by
  intro t
  obtain ⟨clk, he⟩ := endStart_eq h entered s
  have hat : State.hubOf { s.modHubOf h (HubSt.endedBy entered) with clk := clk } h = (s.hubOf h).endedBy entered := by
    cases h <;> rfl
  have ht : OnlyOut (setEngRun h false { s.modHubOf h (HubSt.endedBy entered) with clk := clk }) t := by
    show OnlyOut _ (endStart h entered s)
    rw [he]
    exact faultPins_onlyOut _ _
  rw [ht.hubOf, setEngRun_start, hat]
  obtain ⟨h1, h2⟩ := setEngRun_self h false { s.modHubOf h (HubSt.endedBy entered) with clk := clk }
  refine ⟨rfl, h1, by rw [h2, hat]; rfl, ?_, ?_⟩
  · rw [ht]
    exact (setEngRun_regions ..).trans (State.modHubOf_regions ..)
  · rw [ht]
    exact (setEngRun_hub ..).trans (State.modHubOf_hub ..)

/-! ### The self-test gate (R75, R458) -/

/-- One region after the self-test (R75, R198, R464). -/
def Region.tested (asserted still : SMap (BitVec 8)) (r : Nat) (g : Region) : Region :=
  if decide (asserted.get r ≠ 0xFF) = false ∧ decide (still.get r ≠ 0) = false ∧ g.therm.latch = false ∧ g.therm.comps = 0 then g
  else { g with therm := { g.therm with
    comps := still.get r, latch := decide (still.get r ≠ 0), selfTest := decide (asserted.get r ≠ 0xFF) } }

theorem tested_facts (asserted still : SMap (BitVec 8)) (r : Nat) (g : Region) :
    (asserted.get r ≠ 0xFF → (g.tested asserted still r).therm.selfTest = true) ∧
      (g.tested asserted still r).therm.latch = decide (still.get r ≠ 0) ∧ (g.tested asserted still r).therm.comps = still.get r ∧
      (g.tested asserted still r).caps = g.caps ∧ (g.tested asserted still r).clusters = g.clusters := by
  unfold Region.tested
  split
  · next h =>
    obtain ⟨ha, hs, hl, hc⟩ := h
    simp only [decide_eq_false_iff_not, not_not] at ha hs
    exact ⟨fun h => absurd ha h, by simp [hl, hs], by rw [hc, hs], rfl, rfl⟩
  · exact ⟨fun h => decide_eq_true h, rfl, rfl, rfl, rfl⟩

theorem selfTestRegion_region (asserted still : SMap (BitVec 8)) (r k : Nat) (s : State) :
    (selfTestRegion asserted still r s).region k =
      if k = r then (s.region k).tested asserted still r else s.region k := by
  have hroll (u : State) (j b : Nat) (on : Bool) : (u.holdRoll r j b on).region k = u.region k :=
    congrArg (fun m => SMap.get m k) (State.holdRoll_regions ..)
  unfold selfTestRegion
  dsimp only
  split
  · next h =>
    have hsame : (s.region r).tested asserted still r = s.region r := if_pos h
    split
    · next hk => rw [hk, hsame]
    · rfl
  · next h =>
    have hbad (c : Prop) [Decidable c] (u v : State) (huv : u.region k = v.region k) :
        (if c then u else v).region k = v.region k := by
      split
      · exact huv
      · rfl
    rw [hroll, hbad _ _ _ (hroll ..)]
    split
    · next hk =>
      subst hk
      rw [State.modRegion_region_self]
      exact (if_neg h).symm
    · next hk => rw [State.modRegion_region_ne _ _ hk]

theorem selfTestRegion_inside (asserted still : SMap (BitVec 8)) (r : Nat) (s : State) :
    (selfTestRegion asserted still r s).inside = s.inside := by
  unfold selfTestRegion
  dsimp only
  repeat' split
  all_goals simp

/-- The machine as the self-test ends, hubs aside. -/
def State.gateReleased (s : State) (asserted still : SMap (BitVec 8)) : State :=
  thermPins s.thermLow ((s.forRegions (selfTestRegion asserted still)).modPow (fun p => { p with gateSpent := true }))

/-- Some comparator did not assert. -/
def testFails (asserted : SMap (BitVec 8)) : Bool := (List.range nRegions).any (fun r => decide (asserted.get r ≠ 0xFF))

theorem testFails_iff (asserted : SMap (BitVec 8)) : testFails asserted = true ↔ ∃ r < 64, asserted.get r ≠ 0xFF := by
  simp [testFails, nRegions]

/-- A hub that waited for the gate goes on to step 7. -/
def HubSt.pastGate (failed : Bool) (u : HubSt) : HubSt :=
  if u.start.step = 5 then { u with start := { u.start with step := 7, selfFail := failed } } else u

/-- A hub comes past the gate: both move, the recorder is zeroed and COLD_START has sequence 0. -/
def State.gatePassed (s t : State) (failed : Bool) : State :=
  let t := { t with hubA := t.hubA.pastGate failed, hubB := t.hubB.pastGate failed }
  let t := t.modRecorder (fun q => { queue := q.queue, held := q.held, fwWait := q.fwWait })
  t.recordFirst 0x01 (nodeHub (if s.hubA.start.step = 5 then .a else .b)) 0

theorem selfTestEnds_eq {s : State} (asserted still : SMap (BitVec 8)) (hs : s.pow.gateSet = true) (hg : s.pow.gateSpent = false) :
    selfTestEnds asserted still s =
      if s.hubA.start.step = 5 ∨ s.hubB.start.step = 5 then
        let t := s.gatePassed (s.gateReleased asserted still) (testFails asserted)
        if s.hubA.start.step = 5 then reachStep7 .a t else t
      else s.gateReleased asserted still := by
  unfold selfTestEnds
  rw [if_neg (by simp [hs, hg])]
  unfold State.gateReleased testFails State.gatePassed
  generalize s.forRegions (selfTestRegion asserted still) = x
  generalize (List.range nRegions).any _ = failed
  by_cases ha : s.hubA.start.step = 5
  · simp only [State.hubOf, ha, decide_true, Bool.true_or, if_true, true_or]
    rfl
  · by_cases hb : s.hubB.start.step = 5
    · simp only [State.hubOf, ha, hb, decide_true, decide_false, Bool.or_true, if_true, or_true, if_false, Bool.false_eq_true]
      rfl
    · simp only [State.hubOf, ha, hb, decide_false, Bool.or_false, or_false, if_false, Bool.false_eq_true]

/-- The self-test's verdicts written into every region. -/
@[irreducible] def State.selfTested (s : State) (asserted still : SMap (BitVec 8)) : State :=
  s.forRegions (selfTestRegion asserted still)

theorem selfTested_eq (s : State) (asserted still : SMap (BitVec 8)) :
    s.forRegions (selfTestRegion asserted still) = s.selfTested asserted still := by
  unfold State.selfTested
  rfl

theorem selfTested_region (s : State) (asserted still : SMap (BitVec 8)) {r : Nat} (hr : r < 64) :
    (s.selfTested asserted still).region r = (s.region r).tested asserted still r := by
  have hself (a : State) (k : Nat) : (selfTestRegion asserted still k a).region k = (a.region k).tested asserted still k := by
    rw [selfTestRegion_region, if_pos rfl]
  have hne (a : State) (j k : Nat) (hk : k ≠ j) : (selfTestRegion asserted still j a).region k = a.region k := by
    rw [selfTestRegion_region, if_neg hk]
  unfold State.selfTested
  rw [State.forRegions, nRegions]
  exact (foldl_range_region (step := fun a r => selfTestRegion asserted still r a)
    (f := fun r g => g.tested asserted still r) hself hne 64 s r).trans (if_pos hr)

theorem selfTested_inside (s : State) (asserted still : SMap (BitVec 8)) : (s.selfTested asserted still).inside = s.inside := by
  unfold State.selfTested
  exact State.forRegions_inside (selfTestRegion_inside asserted still) s

theorem gateReleased_region (s : State) (asserted still : SMap (BitVec 8)) {r : Nat} (hr : r < 64) :
    (s.gateReleased asserted still).region r = (s.region r).tested asserted still r := by
  unfold State.gateReleased
  rw [selfTested_eq, thermPins_onlyOut]
  exact selfTested_region s asserted still hr

theorem gateReleased_hubs (s : State) (asserted still : SMap (BitVec 8)) :
    (s.gateReleased asserted still).hubA = s.hubA ∧ (s.gateReleased asserted still).hubB = s.hubB ∧
      (s.gateReleased asserted still).pow.gateSpent = true := by
  have hin := selfTested_inside s asserted still
  unfold State.gateReleased
  rw [selfTested_eq, thermPins_onlyOut]
  exact ⟨congrArg Inside.hubA hin, congrArg Inside.hubB hin, rfl⟩

theorem gatePassed_recorder (s t : State) (failed : Bool) :
    (s.gatePassed t failed).hub.recorder.head = 1 ∧ (s.gatePassed t failed).hub.recorder.codes = [(0, 0x01)] := ⟨rfl, rfl⟩

theorem gatePassed_hub {s t : State} (ha : t.hubA = s.hubA) (hb : t.hubB = s.hubB) (failed : Bool) (x : Hub) :
    (s.gatePassed t failed).hubOf x = (s.hubOf x).pastGate failed := by
  cases x
  · exact congrArg (HubSt.pastGate failed) ha
  · exact congrArg (HubSt.pastGate failed) hb

theorem gatePassed_outside (s t : State) (failed : Bool) : (s.gatePassed t failed).outside = t.outside := rfl

theorem pastGate_start {u : HubSt} (h : u.start.step = 5) (failed : Bool) :
    (u.pastGate failed).start = { u.start with step := 7, selfFail := failed } := by
  unfold HubSt.pastGate
  rw [if_pos h]

/-- What follows when a hub waits for the gate: the machine has come past it, and a first hub goes on at step 7. -/
theorem selfTestEnds_reached {s : State} {asserted still : SMap (BitVec 8)} (hs : s.pow.gateSet = true)
    (hg : s.pow.gateSpent = false) (h5 : s.hubA.start.step = 5 ∨ s.hubB.start.step = 5) :
    Reached (s.gatePassed (s.gateReleased asserted still) (testFails asserted)) (selfTestEnds asserted still s) := by
  rw [selfTestEnds_eq asserted still hs hg, if_pos h5]
  obtain ⟨hA, hB, -⟩ := gateReleased_hubs s asserted still
  dsimp only
  split
  · next ha =>
    refine reachStep7_reached ?_
    rw [gatePassed_hub hA hB, pastGate_start (show (s.hubOf .a).start.step = 5 from ha)]
    exact Nat.le_succ 7
  · exact .refl _

/-- What the end of the self-test leaves outside the hubs (R75). -/
theorem selfTestEnds_outside {s : State} {asserted still : SMap (BitVec 8)} (hs : s.pow.gateSet = true)
    (hg : s.pow.gateSpent = false) :
    (selfTestEnds asserted still s).outside = (s.gateReleased asserted still).outside := by
  by_cases h5 : s.hubA.start.step = 5 ∨ s.hubB.start.step = 5
  · exact (selfTestEnds_reached hs hg h5).outside.trans (gatePassed_outside ..)
  · rw [selfTestEnds_eq asserted still hs hg, if_neg h5]

/-- What the end of the self-test does to a hub that waits for it (R458 step 6). -/
theorem selfTestEnds_hub {s : State} {asserted still : SMap (BitVec 8)} (hs : s.pow.gateSet = true)
    (hg : s.pow.gateSpent = false) {h : Hub} (h5 : (s.hubOf h).start.step = 5) :
    7 ≤ ((selfTestEnds asserted still s).hubOf h).start.step ∧
      (((selfTestEnds asserted still s).hubOf h).start.selfFail = true ↔ ∃ r < 64, asserted.get r ≠ 0xFF) ∧
      (selfTestEnds asserted still s).hub.recorder.head = 1 ∧
      (selfTestEnds asserted still s).hub.recorder.codes = [(0, 0x01)] := by
  have hany : s.hubA.start.step = 5 ∨ s.hubB.start.step = 5 := by
    cases h
    · exact .inl h5
    · exact .inr h5
  obtain ⟨hA, hB, -⟩ := gateReleased_hubs s asserted still
  have hr := selfTestEnds_reached (asserted := asserted) (still := still) hs hg hany
  have hst := gatePassed_hub hA hB (testFails asserted) h
  have hstart := (congrArg HubSt.start hst).trans (pastGate_start h5 _)
  refine ⟨?_, ?_, hr.head, hr.codes⟩
  · refine Nat.le_trans ?_ (hr.step h)
    rw [hstart]
  · rw [hr.fail, hstart, testFails_iff]

/-! ### The claim at start (R461) -/

theorem sendClaim_out (h : Hub) (e : Word) (s : State) (r : Nat) :
    (sendClaim h e s r).out = s.out ++ [.msg (.claim r e) (s.headOf (nodeHub h) (nodeGov r) (s.seqAt (nodeHub h) (nodeGov r)) false
      (.claim r e))] := rfl

/-- Each of a list's messages is spoken, whatever heads they get. -/
theorem foldl_spoken {step : State → Nat → State} {m : Nat → Msg} (hstep : ∀ a k, ∃ x, (step a k).out = a.out ++ [.msg (m k) x]) :
    ∀ (l : List Nat) (s : State) {r : Nat}, r ∈ l → Spoken (l.foldl step s) (m r) := by
  have hgrow (l : List Nat) (s : State) : ∃ out, (l.foldl step s).out = s.out ++ out := by
    refine List.foldlRecOn (motive := fun a : State => ∃ out, a.out = s.out ++ out) l _ ⟨[], (List.append_nil _).symm⟩ ?_
    rintro a ⟨out, ha⟩ k -
    obtain ⟨x, hx⟩ := hstep a k
    exact ⟨out ++ [.msg (m k) x], by rw [hx, ha, List.append_assoc]⟩
  intro l
  induction l with
  | nil => exact fun _ _ hr => absurd hr List.not_mem_nil
  | cons k l ih =>
    intro s r hr
    rcases List.mem_cons.1 hr with rfl | hl
    · obtain ⟨x, hx⟩ := hstep s r
      obtain ⟨out, hout⟩ := hgrow l (step s r)
      exact ⟨x, by rw [List.foldl_cons, hout, hx]; simp⟩
    · exact ih (step s k) hl

theorem claimStart_pair (h : Hub) (e : Word) (s : State) : (claimStart h e s).pair.claims = (claimFor h e 0 s).pair.claims := by
  unfold claimStart
  dsimp only
  rw [State.modHubOf_pair]
  cases h <;> rfl

theorem claimFor_pair (h : Hub) (e : Word) (kind : Nat) (s : State) : (claimFor h e kind s).pair.claims = List.range 64 := by
  have hp : (claimFor h e kind s).pair.claims = (s.claiming h e kind).pair.claims := by rw [claimFor_onlyMessages]
  rw [hp, State.claiming, State.emit_pair, setEngRun_pair, setEngRun_pair]
  rfl

theorem claimFor_role (h : Hub) (e : Word) (kind : Nat) (s : State) :
    ((claimFor h e kind s).hubOf h).role = .owner ∧ ((claimFor h e kind s).hubOf h).epoch = e ∧
      ((claimFor h e kind s).hubOf h.other).role = (s.hubOf h.other).role := by
  simp only [(claimFor_onlyMessages h e kind s).hubOf, State.claiming, State.emit_hubOf, setEngRun_role, modPair_hubOf,
    State.modHubOf_hubOf_self, State.modHubOf_hubOf_other, and_self]

theorem claimFor_spoken (h : Hub) (e : Word) (kind : Nat) (s : State) {r : Nat} (hr : r < 64) :
    Spoken (claimFor h e kind s) (.claim r e) := by
  rw [claimFor_eq]
  exact foldl_spoken (fun a k => ⟨_, sendClaim_out h e a k⟩) (List.range 64) _ (List.mem_range.2 hr)

theorem claimStart_out (h : Hub) (e : Word) (s : State) : (claimStart h e s).out = (claimFor h e 0 s).out := by
  unfold claimStart
  dsimp only
  rw [State.modHubOf_out]
  cases h <;> rfl

theorem claimStart_roles (h : Hub) (e : Word) (s : State) (ho : (s.hubOf h.other).role ≠ .owner) :
    ((claimStart h e s).hubOf h).role = .owner ∧ ((claimStart h e s).hubOf h).epoch = e ∧
      ((claimStart h e s).hubOf h.other).role ≠ .owner := by
  have hne : h ≠ h.other := by cases h <;> simp [Hub.other]
  obtain ⟨hrole, hepoch, hother⟩ := claimFor_role h e 0 s
  have hu : (claimStart h e s).hubOf h = { (claimFor h e 0 s).hubOf h with
      start := { ((claimFor h e 0 s).hubOf h).start with step := 8, claimed := true } } := by
    unfold claimStart
    dsimp only
    rw [modHubOf_hubOf_ne hne, modPair_hubOf, modRecorder_hubOf, State.modHubOf_hubOf_self]
  rw [hu, claimStart_other]
  refine ⟨hrole, hepoch, ?_⟩
  split
  · exact nofun
  · rwa [hother]

/-- Hub B's claim where no hub is in control (R461). -/
theorem claimStart_facts {s : State} (ho : s.owner = none) :
    let t := claimStart .b (nextEpoch s.hubB.epoch) s
    t.owner = some .b ∧ t.hubB.start.step = 8 ∧ t.hubB.start.claimed = true ∧
      t.epoch = (if s.hubB.epoch + 1 = 0 then 1 else s.hubB.epoch + 1) ∧ t.pair.claims = List.range 64 ∧
      (∀ r < 64, Spoken t (.claim r t.epoch)) ∧ t.regions = s.regions ∧ t.hub = { s.hub with recorder := t.hub.recorder } ∧
      t.hub.recorder.recs.map (fun x => (x.seq, x.code)) = s.hub.recorder.recs.map (fun x => (x.seq, x.code)) := by
  intro t
  have hA : (s.hubOf .a).role ≠ .owner := by
    intro h
    have hA' : s.hubA.role = .owner := h
    unfold State.owner at ho
    rw [if_pos hA'] at ho
    split at ho <;> exact nomatch ho
  obtain ⟨hrole, hepoch, hother⟩ := claimStart_roles .b (nextEpoch s.hubB.epoch) s hA
  have howner : t.owner = some .b := by
    unfold State.owner
    exact (if_neg hother).trans (if_pos hrole)
  have he : t.epoch = nextEpoch s.hubB.epoch := by
    unfold State.epoch
    rw [howner]
    exact hepoch
  have hstart := claimStart_self .b (nextEpoch s.hubB.epoch) s
  refine ⟨howner, congrArg Start.step hstart, congrArg Start.claimed hstart, he, ?_, fun r hr => ?_, ?_, ?_, ?_⟩
  · show (claimStart ..).pair.claims = _
    rw [claimStart_pair, claimFor_pair]
  · rw [he]
    obtain ⟨x, hx⟩ := claimFor_spoken .b (nextEpoch s.hubB.epoch) 0 s hr
    refine ⟨x, ?_⟩
    show _ ∈ (claimStart ..).out
    rw [claimStart_out]
    exact hx
  · have houtside := claimStart_outside .b (nextEpoch s.hubB.epoch) s
    show (claimStart ..).regions = s.regions
    exact congrArg Outside.regions houtside
  · show (claimStart ..).hub = _
    rw [claimStart_hub]
  · show (claimStart ..).hub.recorder.codes = s.hub.recorder.codes
    rw [claimStart_hub]
    exact nameOwner_codes _ _

/-- Settles O49, row by row of the start. -/
theorem startSequenceAdvances : Obligations.StartSequenceAdvances := by
  unfold Obligations.StartSequenceAdvances
  intro s
  refine ⟨fun hi ha hc => coldStart_facts hi ha hc, fun h d hs => ?_, fun h c fb hs he hr hg hp hc => ?_, fun h hs hp he => ?_,
    fun h entered hs hp he => ?_, fun asserted still hs hg => ?_, fun hb he ho ha hr hc => ?_⟩
  · refine ⟨_, congrArg Host.Outcome.next (if_pos hs), ?_, State.modHubOf_hubOf_other .., ?_⟩
    · rw [State.modHubOf_hubOf_self]
      rfl
    · cases h <;> rfl
  · refine ⟨startClocks h fb s, ?_, startClocks_facts hg⟩
    rcases hc with ⟨rfl, rfl⟩ | ⟨rfl, rfl⟩
    · exact congrArg Host.Outcome.next (if_pos ⟨hs, hp, he, hr⟩)
    · exact congrArg Host.Outcome.next (if_pos ⟨hs, hp, he, hr⟩)
  · refine ⟨_, congrArg Host.Outcome.next (if_pos ⟨hs, hp, he⟩), ?_, ?_, ?_, ?_, ?_⟩
    · rw [modClk_hubOf, State.modHubOf_hubOf_self]
    · rw [State.modClk, State.modHubOf_clk]
    · rw [modClk_hubOf, State.modHubOf_hubOf_other]
    · exact State.modHubOf_regions ..
    · exact State.modHubOf_hub ..
  · exact ⟨_, congrArg Host.Outcome.next (if_pos ⟨hs, hp, he⟩), endStart_facts h entered s⟩
  · have hout := selfTestEnds_outside (asserted := asserted) (still := still) hs hg
    refine ⟨_, rfl, ?_, fun h h5 => selfTestEnds_hub hs hg h5, fun r hr => ?_⟩
    · exact (congrArg (fun o : Outside => o.pow.gateSpent) hout).trans (gateReleased_hubs s asserted still).2.2
    · have hregion : (selfTestEnds asserted still s).region r = (s.region r).tested asserted still r :=
        (congrArg (fun o : Outside => o.regions.get r) hout).trans (gateReleased_region s asserted still hr)
      rw [hregion]
      exact tested_facts asserted still r (s.region r)
  · exact ⟨_, congrArg Host.Outcome.next (if_pos ⟨hb, he, ho, ha, hr, hc⟩), claimStart_facts ho⟩

end Sys2Proof.Machine
end

