-- ==== Sys2Proof/Proofs/DebugActs.lean ====
section
/-!
SUPPORT. What each operation of the debug port does (R364 to R367, R424, R490 to R493).
-/

namespace Sys2Proof.Machine

/-! ### What a memory error of a hub's core leaves (R365 to R367, R424) -/

/-- Whatever was raised stays raised, and the cores stand as before. -/
structure Stands (s t : State) : Prop where
  core   : ∀ x k, t.coreAt x k = s.coreAt x k
  events : s.events ⊆ t.events

theorem Stands.refl (s : State) : Stands s s := ⟨fun _ _ => rfl, List.Subset.refl _⟩

theorem Stands.trans {s t u : State} (h₁ : Stands s t) (h₂ : Stands t u) : Stands s u :=
  ⟨fun x k => (h₂.core x k).trans (h₁.core x k), List.Subset.trans h₁.events h₂.events⟩

theorem Stands.of_hubs {s t : State} (h : t.hubs = s.hubs) (he : t.events = s.events) : Stands s t :=
  ⟨coreAt_of_hubs h, he ▸ List.Subset.refl _⟩

theorem Stands.raise {s t : State} (h : Stands s t) (src cause arg : Nat) : Stands s (t.raise src cause arg) :=
  h.trans ⟨raise_coreAt t src cause arg, List.subset_append_left _ _⟩

theorem Stands.record {s t : State} (h : Stands s t) (code level argx source : Nat) (arg : Word) :
    Stands s (t.record code level argx source arg) :=
  h.trans (.of_hubs (record_hubs ..) rfl)

theorem Stands.foldl {α : Type} {f : State → α → State} (h : ∀ a x, Stands a (f a x)) (l : List α) (s : State) :
    Stands s (l.foldl f s) :=
  List.foldlRecOn (motive := Stands s) l f (.refl s) fun b hb a _ => hb.trans (h b a)

theorem settleDecision_stands (i : Nat) (s : State) : Stands s (settleDecision i s) := by
  refine .of_hubs (settleDecision_hubs i s) ?_
  unfold settleDecision
  dsimp only
  split
  · split
    · exact State.complete_events ..
    · rfl
  · rfl

theorem settleRelease_stands (i : Nat) (s : State) : Stands s (settleRelease i s) := by
  unfold settleRelease
  split
  · split
    · exact .of_hubs rfl rfl
    · exact .refl s
  · exact .refl s

theorem settleDecisions_stands (s : State) : Stands s (settleDecisions s) :=
  (Stands.foldl (fun a i => settleDecision_stands i a) _ s).trans (.foldl (fun a i => settleRelease_stands i a) _ _)

theorem extendGrants_stands (s : State) : Stands s (extendGrants s) := by
  unfold extendGrants
  refine .foldl (fun a i => ?_) _ s
  exact .of_hubs rfl rfl

theorem releaseHeld_stands (s : State) : Stands s s.releaseHeld := by
  unfold State.releaseHeld
  refine .trans (.of_hubs ?_ ?_) (.foldl (fun a e => ?_) _ _)
  · rfl
  · rfl
  · exact .of_hubs rfl rfl

theorem beginResync_stands (s : State) (h : Hub) : Stands s (s.beginResync h) := by
  refine ⟨fun x k => ?_, by cases h <;> exact List.Subset.refl _⟩
  have hcore (u : HubSt) : ({ u with role := .resyncing } : HubSt).core k = u.core k := by
    match k with
    | 0 => rfl
    | 1 => rfl
    | _ + 2 => rfl
  cases h <;> cases x
  case a.a => exact hcore s.hubA
  case b.b => exact hcore s.hubB
  case a.b => rfl
  case b.a => rfl

theorem degradePair_stands (s : State) : Stands s (degradePair s) := by
  unfold degradePair
  split
  · exact .refl s
  · have hfirst : Stands s (s.modPair (fun p => { p with
        degraded := true, paired := false, handStep := 0, probing := false, probes := [] })) := .of_hubs rfl rfl
    refine .trans ?_ (settleDecisions_stands _)
    refine .trans (.trans (.raise ?_ ..) (releaseHeld_stands _)) (extendGrants_stands _)
    split
    · exact hfirst.trans (beginResync_stands ..)
    · exact hfirst

theorem startHandover_stands (s : State) : Stands s (startHandover s) := by
  unfold startHandover
  split <;> exact .of_hubs rfl rfl

/-- A core that is stopped stops, and what was raised stays raised (R367). -/
theorem stopHubCore_stops (h : Hub) (k : Nat) (s : State) :
    ((stopHubCore h k s).coreAt h k).state = .stopped ∧ s.events ⊆ (stopHubCore h k s).events := by
  have hstop : Stands (s.modCore h k (fun c => { c with state := .stopped, switching := false })) (stopHubCore h k s) := by
    unfold stopHubCore
    dsimp only
    have hrec := Stands.record (.refl (s.modCore h k (fun c => { c with state := .stopped, switching := false })))
      0x21 7 0 (nodeHub h) (BitVec.ofNat 32 (256 * k))
    have hevent (u : State) (e : Event) : Stands u { u with events := u.events ++ [e] } :=
      ⟨fun _ _ => by rename_i x j; cases x <;> rfl, List.subset_append_left _ _⟩
    split
    · split
      · split
        · exact hrec.trans (startHandover_stands _)
        · exact hrec.trans (hevent ..)
      · exact hrec.trans (hevent ..)
    · exact hrec.trans ((hevent ..).trans (degradePair_stands _))
  refine ⟨?_, List.Subset.trans ?_ hstop.events⟩
  · rw [hstop.core, modCore_coreAt, if_pos rfl]
  · cases h <;> exact List.Subset.refl _

theorem runAgain_events (h : Hub) (k cause : Nat) (s : State) : s.events ⊆ (runAgain h k cause s).events := by
  have hdrop (t : State) : (t.dropServed h k).events = t.events := by
    unfold State.dropServed retakeServed dropRaises
    repeat' split
    all_goals rfl
  rw [runAgain_eq]
  refine List.Subset.trans ?_ (List.subset_append_left _ _)
  rw [State.record_events, hdrop, State.modHubOf_events]
  cases h <;> exact List.Subset.refl _

/-- A core that ran or was halted restarts after an error, or is stopped (R365, R367). -/
theorem restartHubCore_ends {h : Hub} {k : Nat} {s : State}
    (hs : (s.coreAt h k).state = .running ∨ (s.coreAt h k).state = .halted) (cause : Nat) :
    (((restartHubCore h k cause s).coreAt h k).state = .restarting ∨
      ((restartHubCore h k cause s).coreAt h k).state = .stopped) ∧ s.events ⊆ (restartHubCore h k cause s).events := by
  unfold restartHubCore
  dsimp only
  rw [if_neg (by rcases hs with h | h <;> simp [h])]
  split
  · obtain ⟨hst, hev⟩ := stopHubCore_stops h k (runAgain h k cause s)
    exact ⟨.inr hst, List.Subset.trans (runAgain_events ..) hev⟩
  · exact ⟨.inl (runAgain_coreAt h k cause s).1, runAgain_events ..⟩

/-! ### Operations on a core of the port's own hub (R491) -/

theorem modDbg_hubs_dbg (s : State) (h : Hub) (f : Debug → Debug) : (s.modDbg h f).dbg h = f (s.dbg h) := State.modDbg_dbg s h f

theorem modCore_regions (s : State) (h : Hub) (k : Nat) (f : HubCore → HubCore) : (s.modCore h k f).regions = s.regions := by
  simp [State.modCore]

theorem modCore_self (s : State) (h : Hub) (k : Nat) (f : HubCore → HubCore) : (s.modCore h k f).coreAt h k = f (s.coreAt h k) := by
  rw [modCore_coreAt, if_pos rfl]

section
variable {s : State} {h : Hub} {op : DbgOp} {k : Fin 3}

theorem next_journaled_const {f : State → State} {u : State} (hf : f s = u) :
    (.next (journaled f s) : Host.Outcome State Fault Refusal) = .next (journaled (fun _ => u) s) :=
  next_journaled_congr (g := fun _ => u) hf

/-- The answer of an operation that goes through, from what its act gives. -/
theorem coreOp_gives {n st why : Nat} {v : Word} {u : State} {argOk allowed needHalt : Bool}
    {act : CoreId → State → State × Nat × Word} (ho : OnHubCore s h op k) (ha : argOk = true) (hd : allowed = true)
    (hh : needHalt = true → (s.coreAt h k).state = .halted) (he : act (.hub h k) (s.armed h op) = (u, st, v))
    (hw : (u.coreAt h k).haltWhy = why) : coreOp h n op argOk allowed needHalt act s = dbgResult h st why v u := by
  rw [coreOp_acts act ho ha hd hh, he, ← hw]
  rfl

theorem halt_acts (ho : OnHubCore s h op k) (hb : s.scopeBit h 0 op.unit.val = true) (hr : (s.coreAt h k).state = .running) :
    ∃ t, exec (.halt h op) s = .next t ∧ (t.coreAt h k).state = .halted ∧
      CoreId.hub h k ∈ (t.dbg h).halted ∧ DebugAnswers t h 0 1 0 ∧ (t.dbg h).unit = op.unit.val ∧
      (t.dbg h).addr = op.addr ∧ t.hub = s.hub ∧ t.regions = s.regions := by
  have hrun : (s.armed h op).coreState (.hub h k) = .running := (congrArg HubCore.state (armed_coreAt s h op h k)).trans hr
  have hc : (haltCore h (.hub h k) 1 (s.armed h op)).coreAt h k =
      { s.coreAt h k with state := .halted, haltWhy := 1, seen := [], regs := [] } := by
    rw [haltCore, modDbg_coreAt, setHalt, modCore_self, armed_coreAt]
  have hd : (haltCore h (.hub h k) 1 (s.armed h op)).dbg h = { (s.armed h op).dbg h with
      halted := .hub h k :: ((s.armed h op).dbg h).halted.filter (fun x => x != .hub h k) } := by
    rw [haltCore, modDbg_hubs_dbg, setHalt, modCore_dbg]
  refine ⟨_, next_journaled_const (coreOp_gives (st := 0) (why := 1) (v := 0) ho rfl hb nofun ?_ (congrArg HubCore.haltWhy hc)), ?_⟩
  · rw [hrun]
  refine ⟨?_, ?_, debugAnswers_journaled (dbgResult_answers ..), ?_, ?_, ?_, ?_⟩
  · simp [hc]
  · simp [hd]
  · simp [hd]
  · simp [hd]
  · simp [haltCore, setHalt]
  · simp [haltCore, setHalt, modCore_regions]

theorem resume_acts (ho : OnHubCore s h op k) (hb : s.scopeBit h 0 op.unit.val = true) (hh : (s.coreAt h k).state = .halted) :
    ∃ t, exec (.resume h op) s = .next t ∧ (t.coreAt h k).state = .running ∧
      (t.coreAt h k).data = (s.coreAt h k).data ∧ DebugAnswers t h 0 0 0 := by
  have hseen := resumeCore_seenPart (k := k) (s := s.armed h op) (by rw [armed_coreAt]; exact hh)
  simp only [HubCore.seenPart, armed_coreAt, Prod.mk.injEq] at hseen
  obtain ⟨hst, hdata, hwhy⟩ := hseen
  refine ⟨_, next_journaled_const (coreOp_gives ho rfl hb (fun _ => hh) rfl hwhy), ?_, ?_, debugAnswers_journaled (dbgResult_answers ..)⟩
  · simpa using hst
  · simpa using hdata

theorem step_acts (ho : OnHubCore s h op k) (hb : s.scopeBit h 0 op.unit.val = true) (hh : (s.coreAt h k).state = .halted) :
    ∃ t, exec (.step h op) s = .next t ∧ (t.coreAt h k).state = .halted ∧ DebugAnswers t h 0 6 0 ∧ t.hub = s.hub ∧
      t.regions = s.regions := by
  have hc : (setHalt (.hub h k) .halted 6 (s.armed h op)).coreAt h k =
      { s.coreAt h k with state := .halted, haltWhy := 6, seen := [], regs := [] } := by
    rw [setHalt, modCore_self, armed_coreAt]
  refine ⟨_, next_journaled_const (coreOp_gives ho rfl hb (fun _ => hh) rfl (congrArg HubCore.haltWhy hc)), ?_, debugAnswers_journaled (dbgResult_answers ..), ?_, ?_⟩
  · simp [hc]
  · simp [setHalt]
  · simp [setHalt, modCore_regions]

/-- An operation that needs a halted core, at one that runs. -/
theorem running_refuses {n : Nat} {allowed : Bool} {act : CoreId → State → State × Nat × Word} (ho : OnHubCore s h op k)
    (ha : allowed = true) (hr : (s.coreAt h k).state = .running) :
    let t := journaled (coreOp h n op true allowed true act) s
    t.coreAt h k = s.coreAt h k ∧ DebugAnswers t h 4 (s.coreAt h k).haltWhy 0 := by
  intro t
  have hact := coreOp_notHalted (n := n) act ho rfl ha hr
  refine ⟨?_, debugAnswers_journaled ?_⟩
  · rw [journaled_coreAt, hact]
    simp
  · rw [hact]
    exact dbgResult_answers ..

theorem bpSet_acts (ho : OnHubCore s h op k) (hb : s.scopeBit h 0 op.unit.val = true) (hbank : op.addr.toNat < bankSize k) :
    ∃ t, exec (.bpSet h op) s = .next t ∧ (op.data.toNat % 4, op.addr, h) ∈ (t.coreAt h k).breakpts ∧
      CoreId.hub h k ∈ (t.dbg h).bpCores ∧ (t.coreAt h k).state = (s.coreAt h k).state ∧ (t.dbg h).status = 0 ∧
      t.hub = s.hub := by
  have hin : dbgInBank op = true := by rw [dbgInBank, ho.2.1]; exact decide_eq_true hbank
  refine ⟨_, next_journaled_const (coreOp_gives ho hin hb nofun rfl rfl), ?_, ?_, ?_, ?_, ?_⟩
  · simp [setBreaks, modDbg_coreAt, modCore_self]
  · simp [setBreaks]
  · simp [setBreaks, modDbg_coreAt, modCore_self]
  · simp
  · simp [setBreaks]

theorem bpClear_acts (ho : OnHubCore s h op k) (hb : s.scopeBit h 0 op.unit.val = true) :
    ∃ t, exec (.bpClear h op) s = .next t ∧ (∀ a, (op.data.toNat % 4, a) ∉ (t.coreAt h k).breakpts) ∧
      (∀ x ∈ (s.coreAt h k).breakpts, x.1 ≠ op.data.toNat % 4 → x ∈ (t.coreAt h k).breakpts) ∧
      (t.coreAt h k).state = (s.coreAt h k).state ∧ (t.dbg h).status = 0 ∧ t.hub = s.hub := by
  refine ⟨_, next_journaled_const (coreOp_gives ho rfl hb nofun rfl rfl), ?_, ?_, ?_, ?_, ?_⟩
  · simp [setBreaks, modCore_self]
  · intro x hx hne
    simp [setBreaks, modCore_self, hx, hne]
  · simp [setBreaks, modCore_self]
  · simp
  · simp [setBreaks]

theorem regRead_acts (ho : OnHubCore s h op k) (hb : s.scopeBit h 0 op.unit.val = true) (hh : (s.coreAt h k).state = .halted) :
    ∃ t v, exec (.regRead h op) s = .next t ∧ (op.addr, v) ∈ (t.coreAt h k).regs ∧
      DebugAnswers t h 0 (s.coreAt h k).haltWhy v ∧ ∀ w, (s.coreAt h k).regs = [(op.addr, w)] → v = w := by
  have hread : ((readProc (.hub h k) op.addr (s.armed h op)).1.coreAt h k).haltWhy = (s.coreAt h k).haltWhy ∧
      (op.addr, (readProc (.hub h k) op.addr (s.armed h op)).2) ∈ ((readProc (.hub h k) op.addr (s.armed h op)).1.coreAt h k).regs ∧
      ∀ w, (s.coreAt h k).regs = [(op.addr, w)] → (readProc (.hub h k) op.addr (s.armed h op)).2 = w := by
    have hregs : (s.armed h op).coreRegs (.hub h k) = (s.coreAt h k).regs := congrArg HubCore.regs (armed_coreAt s h op h k)
    unfold readProc
    rw [hregs]
    split
    · next a v hf =>
      have ha : a = op.addr := by simpa using List.find?_some hf
      rw [armed_coreAt]
      refine ⟨rfl, ha ▸ List.mem_of_find?_eq_some hf, fun w hw => ?_⟩
      rw [hw] at hf
      simpa [ha] using hf.symm
    · next hf =>
      have hat : ((s.armed h op).nextFree).coreAt h k = s.coreAt h k :=
        (show _ = (s.armed h op).coreAt h k by cases h <;> rfl).trans (armed_coreAt ..)
      dsimp only
      rw [setReg, modCore_self, hat]
      exact ⟨rfl, List.mem_cons_self, fun w hw => absurd hf (by simp [hw])⟩
  obtain ⟨hwhy, hmem, hval⟩ := hread
  refine ⟨_, _, next_journaled_const (coreOp_gives ho rfl hb (fun _ => hh) rfl hwhy), ?_, debugAnswers_journaled (dbgResult_answers ..), hval⟩
  rw [journaled_coreAt, dbgResult_coreAt]
  exact hmem

theorem regWrite_acts (ho : OnHubCore s h op k) (hb : s.scopeBit h 0 op.unit.val = true)
    (hh : (s.coreAt h k).state = .halted) (hb2 : s.scopeBit h 2 op.unit.val = true) :
    ∃ t, exec (.regWrite h op) s = .next t ∧
      (t.coreAt h k).regs.find? (fun p => p.1 == op.addr) = some (op.addr, op.data) ∧
      (t.coreAt h k).data = (s.coreAt h k).data ∧ (t.dbg h).status = 0 := by
  have hb' : (s.scopeBit h 0 op.unit.val && s.scopeBit h 2 op.unit.val) = true := by rw [hb, hb2]; rfl
  refine ⟨_, next_journaled_const (coreOp_gives ho rfl hb' (fun _ => hh) rfl rfl), ?_, ?_, ?_⟩
  · simp [setReg, modCore_self]
  · simp [setReg, modCore_self]
  · simp

end

/-! ### Memory through the port (R424, R491) -/

theorem nextFree_coreAt (s : State) (x : Hub) (j : Nat) : s.nextFree.coreAt x j = s.coreAt x j := by cases x <;> rfl

theorem memEvent_coreAt (core : CoreId) (cause : Nat) (s : State) (x : Hub) (j : Nat) :
    (memEvent core cause s).coreAt x j = s.coreAt x j := by cases x <;> rfl

section
variable {s : State} {h : Hub} {op : DbgOp} {k : Fin 3} {addr i : Nat}

/-- A correctable error of a hub core's data memory only raises its source. -/
theorem coreMemError_corrected (hi : dataWord k addr = some i) (other : Bool) (t : State) :
    coreMemError (.hub h k) addr true other t = memEvent (.hub h k) 0 t := by
  exact if_pos (show (dataWord k addr).isSome = true by rw [hi]; rfl)

/-- One that its code cannot correct restarts the core or stops it (R365). -/
theorem coreMemError_fails (hi : dataWord k addr = some i) (other : Bool) {t : State}
    (hs : (t.coreAt h k).state = .running ∨ (t.coreAt h k).state = .halted) :
    { src := 200, cause := 1, core := some (.hub h k) } ∈ (coreMemError (.hub h k) addr false other t).events ∧
      (((coreMemError (.hub h k) addr false other t).coreAt h k).state = .restarting ∨
        ((coreMemError (.hub h k) addr false other t).coreAt h k).state = .stopped) := by
  have he : coreMemError (.hub h k) addr false other t = restartHubCore h k 4 (memEvent (.hub h k) 1 t) := by
    exact if_pos (show (dataWord k addr).isSome = true by rw [hi]; rfl)
  obtain ⟨hst, hev⟩ := restartHubCore_ends (h := h) (k := k) (s := memEvent (.hub h k) 1 t)
    (by rw [memEvent_coreAt]; exact hs) 4
  rw [he]
  exact ⟨hev (List.mem_append_right _ (List.mem_singleton.2 rfl)), hst⟩

/-- A word written to a hub core's data memory (R364, R491). -/
theorem writeCore_writes (i : Nat) (v : Word) (t : State) :
    let u := writeCore (.hub h k) i v t
    (u.coreAt h k).data = (t.coreAt h k).data.set i v ∧ i ∈ (u.coreAt h k).seen ∧
      (u.coreAt h k).haltWhy = (t.coreAt h k).haltWhy ∧ u.hub = { t.hub with retain := u.hub.retain } ∧
      (t.owner ≠ some h → u.hub = t.hub) ∧ u.events = t.events := by
  intro u
  have hd : (setData (.hub h k) i v t).coreAt h k =
      { t.coreAt h k with data := (t.coreAt h k).data.set i v, seen := i :: (t.coreAt h k).seen.filter (fun j => j != i) } := by
    rw [setData, modCore_self]
  have hev : (setData (.hub h k) i v t).events = t.events := by cases h <;> rfl
  have hhub : (setData (.hub h k) i v t).hub = t.hub := modCore_hub ..
  have hcases : u = setData (.hub h k) i v t ∨
      t.owner = some h ∧ ∃ f : Shared → Shared, (∀ m, f m = { m with retain := (f m).retain }) ∧
        u = (setData (.hub h k) i v t).modHub f := by
    show writeCore (.hub h k) i v t = _ ∨ _ ∧ ∃ f : Shared → Shared, _ ∧ writeCore (.hub h k) i v t = _
    unfold writeCore
    dsimp only
    split
    · split
      · next hown => exact .inr ⟨hown.1, _, fun _ => rfl, rfl⟩
      · exact .inl rfl
    · exact .inl rfl
  have hplain : (setData (.hub h k) i v t).coreAt h k = u.coreAt h k ∧ u.hub = { t.hub with retain := u.hub.retain } ∧
      (t.owner ≠ some h → u.hub = t.hub) ∧ u.events = t.events := by
    rcases hcases with he | ⟨hown, f, hf, he⟩
    · rw [he, hhub, hev]
      exact ⟨rfl, rfl, fun _ => rfl, rfl⟩
    · rw [he]
      exact ⟨by cases h <;> rfl, (hf _).trans (by rw [← hhub]; rfl),
        fun hno => absurd hown hno, hev⟩
  obtain ⟨hcore, hrest⟩ := hplain
  rw [← hcore, hd]
  exact ⟨rfl, List.mem_cons_self, rfl, hrest⟩

theorem dbgReadable_of_word (hk : op.unit.val = k.val) (ha : op.addr.toNat % 4 = 0) (hi : dataWord k op.addr.toNat = some i) :
    dbgReadable op = true := by
  unfold dbgReadable
  rw [hk, hi, ha]
  simp

theorem memWrite_acts (ho : OnHubCore s h op k) (ha : op.addr.toNat % 4 = 0) (hi : dataWord k op.addr.toNat = some i)
    (hb : s.scopeBit h 2 op.unit.val = true) (hh : (s.coreAt h k).state = .halted)
    (hm : ∀ x, op.merge = some x → readFound s.fresh x ≠ some false) :
    ∃ t, exec (.memWrite h op) s = .next t ∧
        (t.coreAt h k).data.get i = op.data ∧ (∀ j, j ≠ i → (t.coreAt h k).data.get j = (s.coreAt h k).data.get j) ∧
        i ∈ (t.coreAt h k).seen ∧ (t.dbg h).status = 0 ∧ t.hub = { s.hub with retain := t.hub.retain } ∧
        (s.owner ≠ some h → t.hub = s.hub) ∧ (op.merge = none → t.events = s.events) := by
  have hbs : (s.scopeBit h 2 op.unit.val && (dataWord op.unit.val op.addr.toNat).isSome) = true := by rw [hb, ho.2.1, hi]; rfl
  have hgetD : (dataWord op.unit.val op.addr.toNat).getD 0 = i := by rw [ho.2.1, hi]; rfl
  obtain ⟨t, hw, hcore, hhub, howner, hev⟩ : ∃ t, writeThrough op.merge (.hub h k) op.addr.toNat
      ((dataWord op.unit.val op.addr.toNat).getD 0) op.data (s.armed h op) = (writeCore (.hub h k) i op.data t, 0, 0) ∧
      t.coreAt h k = s.coreAt h k ∧ t.hub = s.hub ∧ t.owner = s.owner ∧ (op.merge = none → t.events = s.events) := by
    rw [hgetD]
    unfold writeThrough
    cases hmerge : op.merge with
    | none => exact ⟨_, rfl, armed_coreAt .., armed_hub .., armed_owner .., fun _ => armed_events ..⟩
    | some x =>
      simp only [Option.map_some, armed_fresh]
      match hf : readFound s.fresh x with
      | none => exact ⟨_, rfl, armed_coreAt .., armed_hub .., armed_owner .., nofun⟩
      | some true =>
        refine ⟨_, rfl, ?_, ?_, ?_, nofun⟩
        · rw [coreMemError_corrected hi, memEvent_coreAt, nextFree_coreAt, armed_coreAt]
        · rw [coreMemError_corrected hi]
          exact armed_hub ..
        · rw [coreMemError_corrected hi]
          exact armed_owner ..
      | some false => exact absurd hf (hm x hmerge)
  obtain ⟨hdata, hseen, hwhy, hkeep, hsame, hevents⟩ := writeCore_writes (h := h) (k := k) i op.data t
  refine ⟨_, next_journaled_const (coreOp_gives (st := 0) (v := 0) ho (dbgReadable_of_word ho.2.1 ha hi) hbs (fun _ => hh)
    hw rfl), ?_, fun j hj => ?_, ?_, ?_, ?_, fun hno => ?_, fun hnone => ?_⟩
  · rw [journaled_coreAt, dbgResult_coreAt, hdata, SMap.get_set_self]
  · rw [journaled_coreAt, dbgResult_coreAt, hdata, SMap.get_set_ne _ _ hj, hcore]
  · rw [journaled_coreAt, dbgResult_coreAt]
    exact hseen
  · simp
  · rw [journaled_hub, dbgResult_hub, ← hhub]
    exact hkeep
  · rw [journaled_hub, dbgResult_hub, hsame (by rw [howner]; exact hno), hhub]
  · rw [journaled_events, dbgResult_events, hevents, hev hnone]

theorem memWrite_fails (ho : OnHubCore s h op k) (ha : op.addr.toNat % 4 = 0) (hi : dataWord k op.addr.toNat = some i)
    {x : ReadErr} (hb : s.scopeBit h 2 op.unit.val = true) (hh : (s.coreAt h k).state = .halted) (hm : op.merge = some x)
    (hf : readFound s.fresh x = some false) :
    ∃ t, exec (.memWrite h op) s = .next t ∧ { src := 200, cause := 1, core := some (.hub h k) } ∈ t.events ∧
      (t.dbg h).status = 8 ∧ ((t.coreAt h k).state = .restarting ∨ (t.coreAt h k).state = .stopped) := by
  have hbs : (s.scopeBit h 2 op.unit.val && (dataWord op.unit.val op.addr.toNat).isSome) = true := by rw [hb, ho.2.1, hi]; rfl
  have hw (j : Nat) : writeThrough op.merge (.hub h k) op.addr.toNat j op.data (s.armed h op) =
      (coreMemError (.hub h k) op.addr.toNat false x.otherCopyGood (s.armed h op).nextFree, 8, 0) := by
    unfold writeThrough
    simp only [hm, Option.map_some, armed_fresh, hf]
  obtain ⟨hev, hst⟩ := coreMemError_fails (h := h) hi x.otherCopyGood (t := (s.armed h op).nextFree)
    (.inr (by rw [nextFree_coreAt, armed_coreAt]; exact hh))
  refine ⟨_, next_journaled_const (coreOp_gives ho (dbgReadable_of_word ho.2.1 ha hi) hbs (fun _ => hh) (hw _) rfl), ?_, ?_, ?_⟩
  · rw [journaled_events, dbgResult_events]
    exact hev
  · simp
  · rw [journaled_coreAt, dbgResult_coreAt]
    exact hst

/-- A word that the port has seen is read as it stands. -/
theorem readCore_seen {t : State} (hi : dataWord k addr = some i) (hs : i ∈ (t.coreAt h k).seen) :
    readCore (.hub h k) addr t = (t, (t.coreAt h k).data.get i) := by
  unfold readCore
  rw [show kindOf (.hub h k) = k.val from rfl, hi]
  exact if_pos hs

theorem memRead_acts (ho : OnHubCore s h op k) (ha : op.addr.toNat % 4 = 0) (hi : dataWord k op.addr.toNat = some i)
    {x : ReadErr} (hb : s.scopeBit h 1 op.unit.val = true) (hs : i ∈ (s.coreAt h k).seen) (hf : readFound s.fresh x = none) :
    ∃ t, exec (.memRead h op x) s = .next t ∧ (t.coreAt h k) = s.coreAt h k ∧ t.events = s.events ∧
      DebugAnswers t h 0 (s.coreAt h k).haltWhy ((s.coreAt h k).data.get i) := by
  have hr : readThrough x (.hub h k) op.addr.toNat (s.armed h op) = (s.armed h op, 0, (s.coreAt h k).data.get i) := by
    unfold readThrough
    rw [armed_fresh, hf]
    dsimp only
    rw [readCore_seen hi (by rw [armed_coreAt]; exact hs), armed_coreAt]
  refine ⟨_, next_journaled_const (coreOp_gives ho (dbgReadable_of_word ho.2.1 ha hi) hb nofun hr
    (congrArg HubCore.haltWhy (armed_coreAt ..))), ?_, ?_, debugAnswers_journaled (dbgResult_answers ..)⟩
  · simp
  · rw [journaled_events, dbgResult_events, armed_events]

theorem memRead_corrected (ho : OnHubCore s h op k) (ha : op.addr.toNat % 4 = 0) (hi : dataWord k op.addr.toNat = some i)
    {x : ReadErr} (hb : s.scopeBit h 1 op.unit.val = true) (hs : i ∈ (s.coreAt h k).seen)
    (hf : readFound s.fresh x = some true) (hg : readSound s.fresh x = true) :
    ∃ t, exec (.memRead h op x) s = .next t ∧ (t.coreAt h k) = s.coreAt h k ∧
      t.events = s.events ++ [{ src := 200, cause := 0, core := some (.hub h k) }] ∧
      DebugAnswers t h 0 (s.coreAt h k).haltWhy ((s.coreAt h k).data.get i) := by
  have hcore : (memEvent (.hub h k) 0 (s.armed h op).nextFree).coreAt h k = s.coreAt h k := by
    rw [memEvent_coreAt, nextFree_coreAt, armed_coreAt]
  have hr : readThrough x (.hub h k) op.addr.toNat (s.armed h op) =
      (memEvent (.hub h k) 0 (s.armed h op).nextFree, 0, (s.coreAt h k).data.get i) := by
    unfold readThrough
    rw [armed_fresh, hf]
    dsimp only
    rw [coreMemError_corrected hi, readCore_seen hi (by rw [hcore]; exact hs), hcore, if_pos hg]
  refine ⟨_, next_journaled_const (coreOp_gives ho (dbgReadable_of_word ho.2.1 ha hi) hb nofun hr
    (congrArg HubCore.haltWhy hcore)), ?_, ?_, debugAnswers_journaled (dbgResult_answers ..)⟩
  · rw [journaled_coreAt, dbgResult_coreAt, hcore]
  · rw [journaled_events, dbgResult_events]
    exact congrArg (· ++ _) (armed_events ..)

theorem memRead_fails (ho : OnHubCore s h op k) (ha : op.addr.toNat % 4 = 0) (hi : dataWord k op.addr.toNat = some i)
    {x : ReadErr} (hb : s.scopeBit h 1 op.unit.val = true) (hf : readFound s.fresh x = some false) :
    ∃ t, exec (.memRead h op x) s = .next t ∧ { src := 200, cause := 1, core := some (.hub h k) } ∈ t.events ∧
      (t.dbg h).status = 8 ∧ ((t.coreAt h k).state = .restarting ∨ (t.coreAt h k).state = .stopped) := by
  have hr : readThrough x (.hub h k) op.addr.toNat (s.armed h op) =
      (coreMemError (.hub h k) op.addr.toNat false x.otherCopyGood (s.armed h op).nextFree, 8, 0) := by
    unfold readThrough
    rw [armed_fresh, hf]
  obtain ⟨hev, hst⟩ := coreMemError_fails (h := h) hi x.otherCopyGood (t := (s.armed h op).nextFree)
    (by rw [nextFree_coreAt, armed_coreAt]; exact ho.2.2.2.2)
  refine ⟨_, next_journaled_const (coreOp_gives ho (dbgReadable_of_word ho.2.1 ha hi) hb nofun hr rfl), ?_, ?_, ?_⟩
  · rw [journaled_events, dbgResult_events]
    exact hev
  · simp
  · rw [journaled_coreAt, dbgResult_coreAt]
    exact hst

theorem denied (ho : OnHubCore s h op k) (hb : s.scopeBit h 0 op.unit.val = false) (n : Nat) (needHalt : Bool)
    (act : CoreId → State → State × Nat × Word) :
    let t := journaled (coreOp h n op true (s.scopeBit h 0 op.unit.val) needHalt act) s
    DebugAnswers t h 2 0 0 ∧ t.coreAt h k = s.coreAt h k := by
  intro t
  have hact := coreOp_denied (n := n) (needHalt := needHalt) act ho (argOk := true) rfl hb
  refine ⟨debugAnswers_journaled ?_, ?_⟩
  · rw [hact]
    exact dbgResult_answers ..
  · rw [journaled_coreAt, hact]
    simp

theorem breakpoint_halts {a : Word} (hr : (s.coreAt h k).state = .running) (hb : ∃ n w, (s.coreAt h k).breakpts = [(n, a, w)]) :
    ∃ t, exec (.breakpointHit (.hub h k) a) s = .next t ∧ (t.coreAt h k).state = .halted ∧
      (∀ n w, (s.coreAt h k).breakpts = [(n, a, w)] → (t.coreAt h k).haltWhy = 2 + n) ∧ t.hub = s.hub := by
  obtain ⟨n, w, hb⟩ := hb
  have he : breakpointHit (.hub h k) a s = haltCore w (.hub h k) (2 + n) s := by
    unfold breakpointHit
    rw [show s.breaks (.hub h k) = (s.coreAt h k).breakpts from rfl, hb,
      show s.coreState (.hub h k) = (s.coreAt h k).state from rfl, hr]
    simp
  have hc : (haltCore w (.hub h k) (2 + n) s).coreAt h k =
      { s.coreAt h k with state := .halted, haltWhy := 2 + n, seen := [], regs := [] } := by
    rw [haltCore, modDbg_coreAt, setHalt, modCore_self]
  refine ⟨_, next_journaled_const he, ?_, fun m x hm => ?_, ?_⟩
  · simp [hc]
  · rw [hb] at hm
    simp only [List.cons.injEq, Prod.mk.injEq, and_true] at hm
    obtain rfl := hm.1
    simp [hc]
  · simp [haltCore, setHalt]

end

/-! ### The recorder, the window, the end of a grant, a Chive's halt (R490 to R492) -/

section
variable {s : State} {h : Hub} {op : DbgOp}

theorem armed_pow (s : State) (h : Hub) (op : DbgOp) : (s.armed h op).pow = s.pow := by
  rw [armed_eq]
  cases h <;> rfl

theorem armed_setup (s : State) (h : Hub) (op : DbgOp) : (s.armed h op).setup = s.setup := by
  rw [armed_eq]
  cases h <;> rfl

theorem armed_clk (s : State) (h : Hub) (op : DbgOp) : (s.armed h op).clk = s.clk := by
  rw [armed_eq]
  cases h <;> rfl

theorem armed_period (s : State) (h : Hub) (op : DbgOp) : (s.armed h op).period = s.period := by
  rw [armed_eq]
  cases h <;> rfl

theorem armed_imageOfHub (s : State) (h : Hub) (op : DbgOp) : (s.armed h op).imageOfHub h = s.imageOfHub h := by
  rw [armed_eq]
  cases h <;> rfl

theorem nextFree_hub (s : State) : s.nextFree.hub = s.hub := rfl

theorem memoryError_recorder (b : Fin 512) (e : BlockErr) (t : State) :
    { src := 204, cause := 1 } ∈ (memoryError (.recorder h b e) false t).events ∧
      (memoryError (.recorder h b e) true t).hub = t.hub := by
  have hev : { src := 204, cause := 1 } ∈ (t.raise 204 1).events := List.mem_append_right _ (List.mem_singleton.2 rfl)
  refine ⟨?_, rfl⟩
  unfold memoryError
  dsimp only
  split
  · exact hev
  · unfold recorderLost
    split
    · exact hev
    · exact hev

theorem recRead_acts (hr : DebugReady s h op) (hc : op.cluster = 0) (hu : op.unit.val = 4) (hb : s.scopeBit h 3 0 = true)
    {w : Nat} (hw : recorderWord (s.imageOfHub h).recorder op.addr.toNat = some w) (x : ReadErr) :
    exec (.recRead h op x) s = .next (journaled (fun _ => recorderRead h op.addr.toNat x (s.armed h op)) s) := by
  refine next_journaled_const (dbgFront_acts _ hr (dbgBad_of_ready hr.2.2.2 hc (by omega) (by simp [hu]) _) ?_ hb (by omega))
  rw [hw]
  rfl

theorem recRead_good (hr : DebugReady s h op) (hc : op.cluster = 0) (hu : op.unit.val = 4) (hb : s.scopeBit h 3 0 = true)
    {w : Nat} (hw : recorderWord (s.imageOfHub h).recorder op.addr.toNat = some w) {x : ReadErr}
    (hx : 0x40000 ≤ op.addr.toNat ∨ readFound s.fresh x = none) :
    ∃ t, exec (.recRead h op x) s = .next t ∧ DebugAnswers t h 0 0 (BitVec.ofNat 32 w) ∧ t.hub = s.hub := by
  have hnone : (if op.addr.toNat < 0x40000 then readFound s.fresh x else none) = none := by
    rcases hx with hx | hx
    · rw [if_neg (by omega)]
    · rw [hx, ite_self]
  have he : recorderRead h op.addr.toNat x (s.armed h op) = dbgResult h 0 0 (BitVec.ofNat 32 w) (s.armed h op) := by
    unfold recorderRead
    simp only [armed_imageOfHub, armed_fresh, hnone, hw, Option.getD_some]
  refine ⟨_, recRead_acts hr hc hu hb hw x, ?_, ?_⟩
  · rw [he]
    exact debugAnswers_journaled (dbgResult_answers ..)
  · rw [he, journaled_hub, dbgResult_hub, armed_hub]

theorem recRead_fails (hr : DebugReady s h op) (hc : op.cluster = 0) (hu : op.unit.val = 4) (hb : s.scopeBit h 3 0 = true)
    {w : Nat} (hw : recorderWord (s.imageOfHub h).recorder op.addr.toNat = some w) {x : ReadErr}
    (hlt : op.addr.toNat < 0x40000) (hx : readFound s.fresh x = some false) :
    ∃ t, exec (.recRead h op x) s = .next t ∧ (t.dbg h).status = 8 ∧ { src := 204, cause := 1 } ∈ t.events := by
  have he : recorderRead h op.addr.toNat x (s.armed h op) = dbgResult h 8 0 0
      (memoryError (.recorder h (Fin.ofNat 512 (op.addr.toNat / 512)) ⟨[], 0⟩) false (s.armed h op).nextFree) := by
    unfold recorderRead
    simp only [armed_fresh, if_pos hlt, hx]
  refine ⟨_, recRead_acts hr hc hu hb hw x, ?_, ?_⟩
  · rw [he]
    simp
  · rw [he, journaled_events, dbgResult_events]
    exact (memoryError_recorder ..).1

theorem winRead_acts (hr : DebugReady s h op) (hc : op.cluster = 0) (hu : op.unit.val = 5) (hb : s.scopeBit h 3 0 = true)
    (hlt : op.addr.toNat < 0x200000) (ha : op.addr.toNat % 4 = 0) (ho : s.pow.regOpen = true) :
    ∃ t v, exec (.winRead h op) s = .next t ∧ DebugAnswers t h 0 0 v ∧ t.hub = s.hub ∧ t.setup = s.setup := by
  have hfront := dbgFront_acts (argOk := decide (op.addr.toNat < 0x200000)) (fun t =>
    if t.pow.regOpen = false then dbgResult h 0 0 0xFFFFFFFF t
    else if op.addr.toNat % 4 ≠ 0 then dbgResult h 0 0 0 (t.modSetup (fun u => { u with accErr := true }))
    else dbgResult h 0 0 (readReg t h op.addr.toNat) t) hr
    (dbgBad_of_ready (units := [5]) hr.2.2.2 hc (by omega) (by simp [hu]) _) (decide_eq_true hlt) hb (by omega)
  rw [if_neg (by rw [armed_pow, ho]; exact nofun), if_neg (not_not.2 ha)] at hfront
  refine ⟨_, _, congrArg Host.Outcome.next hfront, dbgResult_answers .., by simp, ?_⟩
  rw [dbgResult, ← armed_setup s h op]
  cases h <;> rfl

theorem ready_units (hr : DebugReady s h op) (hu : op.unit.val ≤ 2 ∨ op.unit.val = 4 ∨ op.unit.val = 5) (hc : op.cluster = 0) :
    s.dbgBad op [0, 1, 2, 3, 4, 5] = false :=
  dbgBad_of_ready hr.2.2.2 hc (by omega) (by simp; omega) s

theorem deauth_acts (hr : DebugReady s h op) (hu : op.unit.val ≤ 2 ∨ op.unit.val = 4 ∨ op.unit.val = 5) (hc : op.cluster = 0) :
    ∃ t, exec (.deauth h op) s = .next t ∧ (t.dbg h).scope = 0 ∧ (t.dbg h).halted = [] ∧ (t.dbg h).bpCores = [] := by
  refine ⟨_, next_journaled_const (dbgFront_acts _ hr (ready_units hr hu hc) rfl rfl (by omega)), ?_⟩
  obtain ⟨d, hd⟩ := endGrant_dbg h (s.armed h op)
  simp [hd]

theorem warmReset_acts (hr : DebugReady s h op) (hu : op.unit.val ≤ 2 ∨ op.unit.val = 4 ∨ op.unit.val = 5) (hc : op.cluster = 0)
    (hb : s.scopeBit h 4 0 = true) :
    ∃ t, exec (.warmReset h op) s = .next t ∧ t.period = s.period ∧ bitOf t.pow.cause.toNat 4 = true ∧
      t.pow.startDone = false ∧ t.setup = {} := by
  have hclk : (dbgResult h 0 0 0 (s.armed h op)).clk = s.clk := (show _ = (s.armed h op).clk by cases h <;> rfl).trans (armed_clk ..)
  have hper : (dbgResult h 0 0 0 (s.armed h op)).period = s.period :=
    (show _ = (s.armed h op).period by cases h <;> rfl).trans (armed_period ..)
  have hrun : s.clk.st ≠ .stopped := by
    have := hr.2.1
    simp only [State.dbgClocked, Bool.and_eq_true, decide_eq_true_eq] at this
    exact this.2
  have hw := warmReset_warmReset (s := dbgResult h 0 0 0 (s.armed h op)) (bit := 4) (by rw [hclk]; exact hrun) (by decide)
  exact ⟨_, congrArg Host.Outcome.next (dbgFront_acts _ hr (ready_units hr hu hc) rfl hb (by omega)), hw.period.trans hper, hw.cause,
    hw.done, hw.setup⟩

end

/-! ### Debug operations (R490 to R493) -/

section
variable {s : State} {h : Hub} {op : DbgOp}

theorem modDbg_cluster (s : State) (h : Hub) (f : Debug → Debug) (c : Nat) : (s.modDbg h f).cluster c = s.cluster c := by
  cases h <;> rfl

theorem dbgResult_cluster (h : Hub) (status why : Nat) (data : Word) (s : State) (c : Nat) :
    (dbgResult h status why data s).cluster c = s.cluster c :=
  congrArg (fun m : SMap Region => (m.get (regionOf c)).clusters.get (localOf c)) (dbgResult_regions h status why data s)

theorem OnlyMessages.dbg {s t : State} (h : OnlyMessages s t) (x : Hub) : t.dbg x = s.dbg x := congrArg HubSt.dbg (h.hubOf x)

theorem OnlyMessages.cluster {s t : State} (h : OnlyMessages s t) (c : Nat) : t.cluster c = s.cluster c :=
  congrArg (fun m : SMap Region => (m.get (regionOf c)).clusters.get (localOf c)) h.regions

theorem armed_cluster (s : State) (h : Hub) (op : DbgOp) (c : Nat) : (s.armed h op).cluster c = s.cluster c :=
  congrArg (fun m : SMap Region => (m.get (regionOf c)).clusters.get (localOf c)) (armed_regions s h op)

theorem chiveHalt_acts {n : ClusterId} (hr : DebugReady s h op) (hu : op.unit.val = 3) (hc : op.cluster = n.val)
    (hs : (s.cluster n).ctl.spared = false) (ho : s.owner = some h) (hb : s.scopeBit h 0 3 = true) (ha : s.hub.fw.act = none)
    (hrun : (s.cluster n).core.state = .running) :
    ∃ t, exec (.halt h op) s = .next t ∧ (t.cluster n).core.state = .halted ∧ (t.dbg h).pendOp = some 1 ∧
      (t.dbg h).pendRes = (0, 1, 0) ∧ (t.dbg h).status = 1 := by
  have hbad : s.dbgBad op [0, 1, 2, 3] = false := by
    have hn := n.isLt
    simp [State.dbgBad, hr.2.2.2, hu, hc, hs]
  have hcore : dbgCore h op = .chive n := by
    unfold dbgCore
    rw [if_pos hu, hc]
    simp
  have hstate : (s.armed h op).coreState (.chive n) = .running := by
    show ((s.armed h op).cluster n).core.state = .running
    rw [armed_cluster, hrun]
  have hstop : (s.armed h op).dbgStop (.chive n) false = none := by
    have hbusy : (s.armed h op).dbgBusy (.chive n) = false := by simp [State.dbgBusy, ha]
    unfold State.dbgStop
    rw [hstate, hbusy]
    rfl
  have hhalt : ((haltCore h (.chive n) 1 (s.armed h op)).cluster n).core.state = .halted ∧
      (haltCore h (.chive n) 1 (s.armed h op)).haltWhy (.chive n) = 1 := by
    have hc' : (haltCore h (.chive n) 1 (s.armed h op)).cluster n = ((s.armed h op).cluster n).modCore (fun x =>
        { x with state := .halted, haltWhy := 1, seen := [], regs := [] }) := by
      unfold haltCore
      rw [modDbg_cluster, setHalt, State.modCluster_cluster_self]
    exact ⟨by rw [hc']; rfl, congrArg (fun u : Cluster => u.core.haltWhy) hc'⟩
  obtain ⟨hst, hwhy⟩ := hhalt
  have hacts : coreOp h 1 op true (s.scopeBit h 0 op.unit.val) false (fun core t =>
      match t.coreState core with
      | .halted => (t, 0, 0)
      | .restarting | .held => (t, 5, 0)
      | _ => (haltCore h core 1 t, 0, 0)) s =
      dbgResult h 1 0 0 (((haltCore h (.chive n) 1 (s.armed h op)).modDbg h (fun d => { d with
        pendOp := some 1, pendRes := (0, 1, 0) })).hubSend (.debug op.cluster)) := by
    unfold coreOp
    rw [dbgFront_acts _ hr hbad rfl (by rw [hu]; exact hb) (by simp [ho])]
    simp only [hcore, hstop, if_pos hu, hstate, hwhy]
  have hsent := hubSend_onlyMessages ((haltCore h (.chive n) 1 (s.armed h op)).modDbg h (fun d => { d with
    pendOp := some 1, pendRes := (0, 1, 0) })) (.debug op.cluster)
  refine ⟨_, next_journaled_const hacts, ?_, ?_, ?_, ?_⟩
  · rw [journaled_cluster, dbgResult_cluster, hsent.cluster, modDbg_cluster, hst]
  · rw [journaled_dbg, dbgResult_dbg, hsent.dbg, State.modDbg_dbg]
  · rw [journaled_dbg, dbgResult_dbg, hsent.dbg, State.modDbg_dbg]
  · simp

end

/-- Settles O52, operation by operation. -/
theorem debugOperationsAct : Obligations.DebugOperationsAct := by
  unfold Obligations.DebugOperationsAct
  intro s h op k
  refine ⟨fun ho hb => ⟨halt_acts ho hb, resume_acts ho hb, step_acts ho hb, fun hr c hc => ?_, bpSet_acts ho hb, bpClear_acts ho hb,
    regRead_acts ho hb, regWrite_acts ho hb⟩, fun ho ha i hi => ⟨memWrite_acts ho ha hi,
    fun x hb hh hm hf => memWrite_fails ho ha hi hb hh hm hf, fun x hb hs hf => memRead_acts ho ha hi hb hs hf,
    fun x hb hs hf hg => memRead_corrected ho ha hi hb hs hf hg, fun x hb hf => memRead_fails ho ha hi hb hf⟩,
    fun ho hb c hc => ?_, fun a hr hb => breakpoint_halts hr hb, fun hr hc hb => ⟨fun hu w hw x => ⟨recRead_good hr hc hu hb hw,
    recRead_fails hr hc hu hb hw⟩, fun hu hlt ha ho => winRead_acts hr hc hu hb hlt ha ho⟩,
    fun hr hu hc => ⟨deauth_acts hr hu hc, warmReset_acts hr hu hc⟩,
    fun n hr hu hc hs ho hb ha hrun => chiveHalt_acts hr hu hc hs ho hb ha hrun⟩
  · rcases hc with rfl | rfl | rfl
    · exact ⟨_, rfl, running_refuses ho hb hr⟩
    · exact ⟨_, rfl, running_refuses ho hb hr⟩
    · exact ⟨_, rfl, running_refuses ho hb hr⟩
  · rcases hc with rfl | rfl | rfl
    · exact ⟨_, rfl, denied ho hb ..⟩
    · exact ⟨_, rfl, denied ho hb ..⟩
    · exact ⟨_, rfl, denied ho hb ..⟩

end Sys2Proof.Machine
end

