-- ==== Sys2Proof/Proofs/HostMailbox.lean ====
section
/-!
SUPPORT. The host mailbox's messages (R331, R334, R337, R340).
-/

namespace Sys2Proof.Machine

/-! ### The host mailbox's messages (R331, R334, R337, R340) -/

/-- Effects that leave through the hub, held while the pair is PAIRED (R389). -/
def State.sends (s : State) (es : List Effect) : State := { s with
  pair := { s.pair with heldEff := if s.pair.paired then s.pair.heldEff ++ es.map (fun e => (s.pair.jn + 1, e)) else s.pair.heldEff }
  out := if s.pair.paired then s.out else s.out ++ es }

theorem sends_nil (s : State) : s.sends [] = s := by
  unfold State.sends
  simp

theorem hubEmit_sends (s : State) (e : Effect) : s.hubEmit e = s.sends [e] := hubEmit_eq s e

section
variable {s : State}

/-- A journaled act on the image that also sends. -/
theorem journaled_sends {f : State → State} {m : Shared} {es : List Effect} (hf : f s = ({ s with hub := m } : State).sends es) :
    (journaled f s).hub = m ∧ Sends s (journaled f s) es ∧
      journaled f s = { s with hub := m, pair := (journaled f s).pair, out := (journaled f s).out } := by
  have ht := journaled_eq f s
  generalize journaled f s = t at ht ⊢
  rw [hf] at ht
  have hp := congrArg State.pair ht
  have hh : t.hub = m := by rw [ht]; rfl
  have ho : t.out = if s.pair.paired then s.out else s.out ++ es := by rw [ht]; rfl
  refine ⟨hh, ⟨hp.trans ?_, ho⟩, ?_⟩
  · rw [hp]
    rfl
  · rw [ht]
    rfl

theorem slot_modSlot (t : State) (k : Nat) (f : Slot → Slot) : (t.modSlot k f).slot k = f (t.slot k) :=
  SMap.get_modify_self ..

/-- The acknowledgement of a slot leaves through vector 11, unless it is masked. -/
theorem mbAck_eq (k code detail : Nat) (result : Word) (t : State) : mbAck k code detail result t =
    (t.modSlot k (Slot.ack code detail result)).sends (if bitOf t.hub.mb.amask.toNat k then [] else [.msix 11]) := by
  have hd : ((t.modSlot k (Slot.ack code detail result)).slot k).state = .done := by
    rw [slot_modSlot]
    rfl
  have hm : (t.modSlot k (Slot.ack code detail result)).hub.mb.amask = t.hub.mb.amask := rfl
  unfold mbAck signalDone
  rw [hm]
  cases bitOf t.hub.mb.amask.toNat k
  · rw [if_pos ⟨hd, rfl⟩, hubEmit_sends]
    rfl
  · rw [if_neg (by simp), if_pos rfl, sends_nil]

/-- The acknowledgement of a mailbox slot, with what its message wrote into the recorder. -/
theorem journaled_mbAck {f : State → State} {k code detail : Nat} {result : Word} {g : Recorder → Recorder}
    (hf : f s = mbAck k code detail result (s.modRecorder g)) :
    MbAcked s (journaled f s) k code detail result ∧ (journaled f s).hub.recorder = g s.hub.recorder := by
  rw [mbAck_eq] at hf
  obtain ⟨hh, hs, ht⟩ := journaled_sends (m := ((s.modRecorder g).modSlot k (Slot.ack code detail result)).hub)
    (es := if bitOf s.hub.mb.amask.toNat k then [] else [.msix 11]) hf
  refine ⟨⟨by rw [hh]; rfl, hs, ?_⟩, by rw [hh]; rfl⟩
  rw [hh]
  exact ht

theorem journaled_mbAck_plain {f : State → State} {k code detail : Nat} {result : Word} (hf : f s = mbAck k code detail result s) :
    MbAcked s (journaled f s) k code detail result ∧ (journaled f s).hub.recorder = s.hub.recorder :=
  journaled_mbAck (g := id) hf

theorem hostMessage_acts {code k : Nat} (hs : Serves s k code) (f : State → State) : hostMessage code k f s = f s := by
  obtain ⟨hc, ht, hm, hst⟩ := hs
  exact if_pos ⟨hc, ht, hm, hst⟩

theorem takeHostSlot_first {h : Hub} {n k : Nat} (ho : s.owner = some h) (hc : s.inControl = true)
    (hr : (s.ownerCore n).state = .running)
    (hf : firstPosted s.hub.mb.slots (fun j x => servedBy j == n && x.mirrored) = some k) :
    takeHostSlot h n s = if hostMsgDefined (s.slot k).msgCode = false then mbAck k codeBadArg 0xE0 0 s
      else if hostMsgServed (s.slot k).msgCode k = false then mbAck k codeBadArg 0xE1 0 s
      else s.modSlot k (fun x => { x with state := .taken }) := by
  unfold takeHostSlot
  rw [if_neg (by simp [ho, hc, hr]), hf]

end

theorem close_openRec (jn : Nat) (q : Recorder) : (q.close jn).openRec = false ∧ (q.close jn).exported = q.exported ∧
    (q.close jn).recs.map Rec.seq = q.recs.map Rec.seq := by
  unfold Recorder.close
  cases ho : q.openRec
  · exact ⟨ho, rfl, rfl⟩
  · refine ⟨rfl, rfl, ?_⟩
    rcases List.eq_nil_or_concat q.recs with hr | ⟨l, x, hr⟩
    · simp [hr]
    · simp [hr]

/-! ### STALL_NEXT (R337, R348) -/

/-- The least of a list that reaches `start`, as STALL_NEXT looks for it. -/
def leastFrom (start : Nat) (l : List Nat) : Option Nat :=
  (l.filter (fun c => decide (start ≤ c))).foldl (fun acc c => some (match acc with | some y => min c y | none => c)) none

theorem foldl_least (l : List Nat) (y : Nat) :
    ∃ r, l.foldl (fun acc c => some (match acc with | some y => min c y | none => c)) (some y) = some r ∧ r ≤ y ∧
      (∀ c ∈ l, r ≤ c) ∧ (r = y ∨ r ∈ l) := by
  induction l generalizing y with
  | nil => exact ⟨y, rfl, Nat.le_refl y, nofun, .inl rfl⟩
  | cons c l ih =>
    obtain ⟨r, hr, hy, hl, hm⟩ := ih (min c y)
    refine ⟨r, hr, Nat.le_trans hy (Nat.min_le_right c y), fun d hd => ?_, ?_⟩
    · rcases List.mem_cons.1 hd with rfl | hd
      · exact Nat.le_trans hy (Nat.min_le_left _ y)
      · exact hl d hd
    · rcases hm with rfl | hm
      · rcases Nat.le_total c y with h | h
        · rw [Nat.min_eq_left h]
          exact .inr List.mem_cons_self
        · rw [Nat.min_eq_right h]
          exact .inl rfl
      · exact .inr (List.mem_cons_of_mem c hm)

theorem leastFrom_none {start : Nat} {l : List Nat} (h : leastFrom start l = none) : ∀ c ∈ l, c < start := by
  intro c hc
  by_contra hn
  have hf : c ∈ l.filter (fun c => decide (start ≤ c)) := List.mem_filter.2 ⟨hc, decide_eq_true (Nat.not_lt.1 hn)⟩
  unfold leastFrom at h
  cases hl : l.filter (fun c => decide (start ≤ c)) with
  | nil => rw [hl] at hf; exact nomatch hf
  | cons d l' =>
    obtain ⟨r, hr, -⟩ := foldl_least l' d
    rw [hl, List.foldl_cons, hr] at h
    exact nomatch h

theorem leastFrom_some {start : Nat} {l : List Nat} {r : Nat} (h : leastFrom start l = some r) :
    r ∈ l ∧ start ≤ r ∧ ∀ c ∈ l, start ≤ c → r ≤ c := by
  unfold leastFrom at h
  cases hl : l.filter (fun c => decide (start ≤ c)) with
  | nil => rw [hl] at h; exact nomatch h
  | cons d l' =>
    obtain ⟨r', hr', hy, hle, hm⟩ := foldl_least l' d
    rw [hl, List.foldl_cons, hr'] at h
    obtain rfl : r' = r := Option.some.inj h
    have hmem : r' ∈ l.filter (fun c => decide (start ≤ c)) := by
      rw [hl]
      exact hm.elim (fun h => h ▸ List.mem_cons_self) (List.mem_cons_of_mem d)
    obtain ⟨h1, h2⟩ := List.mem_filter.1 hmem
    refine ⟨h1, of_decide_eq_true h2, fun c hc hs => ?_⟩
    have hc' : c ∈ d :: l' := hl ▸ List.mem_filter.2 ⟨hc, decide_eq_true hs⟩
    rcases List.mem_cons.1 hc' with rfl | hc'
    · exact hy
    · exact hle c hc'

/-- Settles O33, message by message. -/
theorem hostMessagesAreAnswered : Obligations.HostMessagesAreAnswered := by
  unfold Obligations.HostMessagesAreAnswered
  intro s
  refine ⟨fun h n k ho hc hr hf => ?_, fun k hs => ?_, fun k hs => ?_, fun k hs hb => ?_, fun k hs => ?_⟩
  · have htake := takeHostSlot_first ho hc hr hf
    refine ⟨fun hd hv => ?_, fun hd => ⟨_, rfl, (journaled_mbAck_plain ?_).1⟩, fun hd hv => ⟨_, rfl, (journaled_mbAck_plain ?_).1⟩⟩
    · rw [if_neg (by simp [hd]), if_neg (by simp [hv])] at htake
      exact next_journaled_congr htake
    · rw [if_pos hd] at htake
      exact htake
    · rw [if_neg (by simp [hd]), if_pos hv] at htake
      exact htake
  · obtain ⟨h1, h2⟩ := journaled_mbAck_plain (hostMessage_acts hs (fun s =>
      mbAck k codeOk 0 (FwImage.ver (s.ownerCore (servedBy k)).image) s))
    exact ⟨_, rfl, h2, h1⟩
  · obtain ⟨h1, h2⟩ := journaled_mbAck (g := fun q => { q.close s.nextJn with flush := true }) (hostMessage_acts hs (fun s =>
      mbAck k codeOk 0 0 (s.modRecorder (fun q => { q.close s.nextJn with flush := true }))))
    obtain ⟨ho, he, hr⟩ := close_openRec s.nextJn s.hub.recorder
    refine ⟨_, rfl, h1, ?_⟩
    rw [h2]
    exact ⟨rfl, ho, he, hr⟩
  · have hm := hostMessage_acts hs (coreStateMsg k)
    unfold coreStateMsg at hm
    dsimp only at hm
    by_cases hn : byteAt (s.slot k).msg 4 = servedBy k
    · rw [if_pos hn] at hm
      obtain ⟨h1, h2⟩ := journaled_mbAck_plain hm
      exact ⟨_, rfl, h2, fun _ => h1, fun h => absurd hn h⟩
    · rw [if_neg hn, if_neg (by omega)] at hm
      obtain ⟨h1, h2⟩ := journaled_mbAck_plain hm
      exact ⟨_, rfl, h2, fun h => absurd h hn, fun _ => h1⟩
  · obtain ⟨h1, h2⟩ := journaled_mbAck_plain (result := BitVec.ofNat 32 ((leastFrom (leAt (s.slot k).msg 4 4) s.hub.stalls).getD
      0xFFFFFFFF)) (hostMessage_acts hs (stallNextMsg k))
    refine ⟨_, _, rfl, h2, h1, ?_⟩
    cases hl : leastFrom (leAt (s.slot k).msg 4 4) s.hub.stalls with
    | none =>
      have hn := leastFrom_none hl
      exact ⟨fun c hc hle => absurd (hn c hc) (Nat.not_lt.2 hle), .inr ⟨rfl, hn⟩⟩
    | some r =>
      obtain ⟨hmem, hstart, hle⟩ := leastFrom_some hl
      exact ⟨hle, .inl ⟨hmem, hstart⟩⟩

end Sys2Proof.Machine
end

