-- ==== Sys2Proof/Proofs/ChiveMailbox.lean ====
section
/-!
SUPPORT. A Chive's mailbox messages (R78, R87, R92, R171, R331, R335, R341).
-/

namespace Sys2Proof.Machine

/-! ### A Chive's messages (R331, R335, R341) -/

section
variable {s : State} {c : ClusterId} {k : SlotId}

theorem chiveMessage_acts {code : Nat} (hs : ChiveServes s c k code) (f : State → State) : chiveMessage code c k f s = f s := by
  obtain ⟨ht, hm, hr⟩ := hs
  unfold chiveMessage
  dsimp only
  rw [if_neg (by simp [hm, hr]), if_pos ht]

theorem chiveAck_eq (code : Nat) (result : Word) (t : State) : chiveAck c k code 0 result t = t.chiveAcked c k code result := rfl

/-- What an acknowledgement leaves: the slot is DONE, and the message goes. -/
theorem chiveAck_facts (code detail : Nat) (result : Word) (t : State) :
    (chiveAck c k code detail result t).cluster c = (t.cluster c).modSlot k (Slot.ack code detail result) ∧
      Spoken (chiveAck c k code detail result t) (.chiveAck c k (BitVec.ofNat 8 code) result) ∧
      t.out ⊆ (chiveAck c k code detail result t).out := by
  refine ⟨?_, ⟨_, List.mem_append_right _ (List.mem_singleton.2 rfl)⟩, List.subset_append_left _ _⟩
  exact State.modCluster_cluster_self ..

theorem takeChiveSlot_first (hf : firstPosted (s.cluster c).slots (fun _ _ => true) = some k.val)
    (hr : (s.cluster c).core.state = .running) (hs : (s.cluster c).ctl.spared = false)
    (hg : ¬ ((s.cluster c).gcClosed = true ∧ s.rowClosed c = true)) :
    takeChiveSlot c s = if chiveMsgDefined ((s.cluster c).slot k).msgCode = false then
        chiveAck c k codeBadArg 0xE0 0 (s.modCluster c (fun u => { u with gcClosed := false }))
      else (s.modCluster c (fun u => { u with gcClosed := false })).modCluster c (fun u =>
        { u.modSlot k (fun x => { x with state := .taken }) with
          dill := { u.dill with sweeping := u.dill.sweeping || ((s.cluster c).slot k).msgCode == 0x11 } }) := by
  unfold takeChiveSlot
  dsimp only
  rw [if_neg (by simpa [hr, hs] using hg), hf]

theorem slotTake_defined (hf : firstPosted (s.cluster c).slots (fun _ _ => true) = some k.val)
    (hr : (s.cluster c).core.state = .running) (hs : (s.cluster c).ctl.spared = false)
    (hg : ¬ ((s.cluster c).gcClosed = true ∧ s.rowClosed c = true)) (hd : chiveMsgDefined ((s.cluster c).slot k).msgCode = true) :
    ∃ t, exec (.slotTake (.chive c)) s = .next t ∧
        (t.cluster c).slots = (s.cluster c).slots.modify k (fun x => { x with state := .taken }) ∧
        (t.cluster c).gcClosed = false ∧ t.out = s.out ∧
        ∀ d, d ≠ c.val → t.cluster d = s.cluster d := by
  have ht := takeChiveSlot_first hf hr hs hg
  rw [if_neg (by simp [hd])] at ht
  refine ⟨_, next_journaled_const ht, ?_, ?_, ?_, fun d hd => ?_⟩
  · rw [journaled_cluster, State.modCluster_cluster_self, State.modCluster_cluster_self]
    rfl
  · rw [journaled_cluster, State.modCluster_cluster_self, State.modCluster_cluster_self]
    rfl
  · rw [journaled_out]
    rfl
  · rw [journaled_cluster, State.modCluster_cluster_ne _ _ hd, State.modCluster_cluster_ne _ _ hd]

theorem slotTake_undefined (hf : firstPosted (s.cluster c).slots (fun _ _ => true) = some k.val)
    (hr : (s.cluster c).core.state = .running) (hs : (s.cluster c).ctl.spared = false)
    (hg : ¬ ((s.cluster c).gcClosed = true ∧ s.rowClosed c = true)) (hd : chiveMsgDefined ((s.cluster c).slot k).msgCode = false) :
    ∃ t, exec (.slotTake (.chive c)) s = .next t ∧
      (t.cluster c).slots = (s.cluster c).slots.modify k (Slot.ack codeBadArg 0xE0 0) ∧
      Spoken t (.chiveAck c k (BitVec.ofNat 8 codeBadArg) 0) := by
  have ht := takeChiveSlot_first hf hr hs hg
  rw [if_pos hd] at ht
  obtain ⟨hc, hsp, -⟩ := chiveAck_facts (c := c) (k := k) codeBadArg 0xE0 0 (s.modCluster c (fun u => { u with gcClosed := false }))
  refine ⟨_, next_journaled_const ht, ?_, ?_⟩
  · rw [journaled_cluster, hc, State.modCluster_cluster_self]
    rfl
  · unfold Spoken
    rw [journaled_out]
    exact hsp

/-- The acknowledgement of a message that a forced cancel has ended is counted (R335). -/
theorem chivePing_late (hd : ((s.cluster c).slot k).state = .done) (hx : ((s.cluster c).slot k).cancel = true)
    (hm : ((s.cluster c).slot k).msgCode = 0x01) (hr : (s.cluster c).core.state = .running) :
    ∃ t, exec (.chivePing c k) s = .next t ∧
      t.gov (regionOf c) = { s.gov (regionOf c) with lateAck := satAdd 0xFF (s.gov (regionOf c)).lateAck 1 } ∧
      t.out = s.out ∧ (t.cluster c).slot k = { (s.cluster c).slot k with cancel := false } := by
  have he : chiveMessage 0x01 c k (fun s => chiveAck c k codeOk 0 (FwImage.ver (s.chiveImage c)) s) s =
      (s.modCluster c (fun u => u.modSlot k (fun x => { x with cancel := false }))).modGov (regionOf c)
        (fun g => { g with lateAck := satAdd 0xFF g.lateAck 1 }) := by
    unfold chiveMessage
    dsimp only
    rw [if_neg (by simp [hm, hr]), if_neg (by simp [hd]), if_pos ⟨hd, hx⟩]
  refine ⟨_, congrArg Host.Outcome.next he, ?_, rfl, ?_⟩
  · rw [State.modGov_gov_self]
    rfl
  · show (((s.modCluster c _).cluster c).slot k) = _
    rw [State.modCluster_cluster_self]
    exact SMap.get_modify_self ..

theorem readAge_valid (taps : Fin 65) (u : Cluster) : u.readAge (taps.val, .valid) = { u with ageTaps := taps, ageStatus := .valid } := by
  unfold Cluster.readAge
  rw [if_pos rfl, Nat.min_eq_right (by omega)]

theorem ageRead_live (taps : Fin 65) (hs : ChiveServes s c k 0x10) (he : (s.gov (regionOf c)).engine = true) :
    let t := (s.modCluster c (fun u => { u with ageTaps := taps, ageStatus := .valid })).chiveAcked c k codeOk
      (BitVec.ofNat 32 taps)
    ((taps ≠ 0 ∨ (s.cluster c).ctl.spared = true ∨ s.inControl = false) →
      exec (.ageRead c k taps) s = .next (journaled (fun _ => t) s)) ∧
    (taps = 0 → (s.cluster c).ctl.spared = false → s.inControl = true →
      exec (.ageRead c k taps) s = .next (journaled (fun _ => exportTrims (exhaust (regionOf c) t)) s)) := by
  intro t
  have ha : chiveMessage 0x10 c k (ageReadMsg c k taps) s =
      if taps.val = 0 ∧ (s.cluster c).ctl.spared = false ∧ s.inControl then exportTrims (exhaust (regionOf c) t) else t := by
    rw [chiveMessage_acts hs]
    unfold ageReadMsg
    rw [if_pos he, modCluster_congr (g := fun u => { u with ageTaps := taps, ageStatus := .valid }) (readAge_valid taps _)]
    rfl
  refine ⟨fun hn => ?_, fun h0 hsp hc => ?_⟩
  · refine next_journaled_const (ha.trans (if_neg ?_))
    rintro ⟨h1, h2, h3⟩
    rcases hn with h | h | h
    · exact h (Fin.ext h1)
    · rw [h2] at h; exact nomatch h
    · rw [h3] at h; exact nomatch h
  · exact next_journaled_const (ha.trans (if_pos ⟨congrArg Fin.val h0, hsp, hc⟩))

theorem ageRead_stale (taps : Fin 65) (hs : ChiveServes s c k 0x10) (he : (s.gov (regionOf c)).engine = false) :
    let t := s.modCluster c (fun u => { u with ageStatus := .stale })
    exec (.ageRead c k taps) s = .next (journaled (fun _ =>
      (if (s.cluster c).ctl.spared then t
        else (t.modRegion (regionOf c) (Region.stick 3)).raiseRoll (regionOf c) 1 4).chiveAcked c k codeOk
        (BitVec.ofNat 32 ((s.cluster c).ageTaps + 256 * statusCode .stale))) s) := by
  refine next_journaled_const ?_
  rw [chiveMessage_acts hs]
  unfold ageReadMsg
  rw [if_neg (by simp [he])]
  rfl

theorem dillSweep_good (diff : Int) (hs : ChiveServes s c k 0x11) (hd : diff.natAbs ≤ 4) :
    exec (.dillSweep c k diff) s = .next
      ((s.modCluster c (fun u => { u with dill := { u.dill with
        offset := u.dill.offset + diff, sweeping := false, status := .valid
        recovering := u.dill.recovering || decide (u.dill.status ≠ .valid) } })).chiveAcked c k codeOk (BitVec.ofInt 32 diff)) := by
  refine congrArg Host.Outcome.next ((chiveMessage_acts hs _).trans ?_)
  unfold dillSweepMsg
  rw [if_pos hd, chiveAck_eq]
  exact congrArg (fun t : State => t.chiveAcked c k codeOk (BitVec.ofInt 32 diff)) (modCluster_congr rfl)

theorem holdRoll_gov_engine (s : State) (r k b : Nat) (on : Bool) (j : Nat) :
    ((s.holdRoll r k b on).gov j).engine = (s.gov j).engine := by
  have hmod (f : Gov → Gov) (hf : ∀ g, (f g).engine = g.engine) (a : State) : ((a.modGov r f).gov j).engine = (a.gov j).engine := by
    by_cases hj : j = r
    · rw [hj, State.modGov_gov_self, hf]
    · rw [State.modGov_gov_ne _ _ hj]
  have hroll (g : Gov) (f : RollUp → RollUp) : (g.modRoll k f).engine = g.engine := by
    match k with
    | 0 => rfl
    | 1 => rfl
    | _ + 2 => rfl
  unfold State.holdRoll
  dsimp only
  split
  · exact (hmod _ (fun g => hroll g _) _).trans (hmod _ (fun g => hroll g _) s)
  · exact hmod _ (fun g => hroll g _) s

theorem holdRoll_cluster (s : State) (r k b : Nat) (on : Bool) (d : Nat) : (s.holdRoll r k b on).cluster d = s.cluster d :=
  congrArg (fun m : SMap Region => (m.get (regionOf d)).clusters.get (localOf d)) (State.holdRoll_regions ..)

theorem lowered_cluster (r : Nat) (s : State) (d : Nat) : (s.modRegion r (fun g => g.lowered.stick 3)).cluster d = s.cluster d := by
  have hg (g : Region) : (g.lowered.stick 3).clusters = g.clusters := by
    unfold Region.lowered Region.stick
    dsimp only
    split <;> rfl
  unfold State.cluster
  by_cases hr : regionOf d = r
  · rw [hr, State.modRegion_region_self, hg]
  · rw [State.modRegion_region_ne _ _ hr]

theorem holdDill_eq (r : Nat) (t : State) : ∃ on, holdDill r t = t.holdRoll r 2 2 on := ⟨_, rfl⟩

theorem sendWord_runs {r : Nat} (w : Word) {t : State} (he : (t.gov r).engine = true) : t.sendWord r w = t.emit (.limiterWord r w) :=
  if_pos he

theorem dillSweepMsg_fails {diff : Int} (hd : 4 < diff.natAbs) : dillSweepMsg c k diff s =
    chiveAck c k codeOk 0 (BitVec.ofNat 32 (0x10000 * statusCode .failed)) ((holdDill (regionOf c)
      ((s.modCluster c (fun u => { u with dill := { u.dill with
        sweeping := false, status := .failed, recovering := false, holding := true } })).modRegion (regionOf c)
        (fun g => g.lowered.stick 3))).sendWord (regionOf c) (clusterWord (localOf c) 3 0 0 true)) := by
  unfold dillSweepMsg
  exact if_neg (Nat.not_le.2 hd)

/-- A sweep that fails: the Dill is FAILED and the cluster is held at its floor (R87, R171). -/
theorem dillSweep_fails (diff : Int) (hs : ChiveServes s c k 0x11) (hd : 4 < diff.natAbs)
    (he : (s.gov (regionOf c)).engine = true) :
    ∃ t, exec (.dillSweep c k diff) s = .next t ∧
      (t.cluster c).dill = { (s.cluster c).dill with sweeping := false, status := .failed, recovering := false, holding := true } ∧
      .limiterWord (regionOf c) (clusterWord (localOf c) 3 0 0 true) ∈ t.out ∧
      ((t.cluster c).slot k).state = .done ∧ Spoken t (.chiveAck c k 0 (BitVec.ofNat 32 (0x10000 * statusCode .failed))) := by
  obtain ⟨u, hu, hc, hw⟩ : ∃ u, dillSweepMsg c k diff s = chiveAck c k codeOk 0 (BitVec.ofNat 32 (0x10000 * statusCode .failed)) u ∧
      u.cluster c = { s.cluster c with dill := { (s.cluster c).dill with
        sweeping := false, status := .failed, recovering := false, holding := true } } ∧
      .limiterWord (regionOf c) (clusterWord (localOf c) 3 0 0 true) ∈ u.out := by
    obtain ⟨on, hon⟩ := holdDill_eq (regionOf c) ((s.modCluster c (fun u => { u with dill := { u.dill with
      sweeping := false, status := .failed, recovering := false, holding := true } })).modRegion (regionOf c)
      (fun g => g.lowered.stick 3))
    have hmsg := dillSweepMsg_fails (c := c) (k := k) (s := s) hd
    rw [hon, sendWord_runs _ (by rw [holdRoll_gov_engine]; exact he)] at hmsg
    refine ⟨_, hmsg, ?_, ?_⟩
    · show (State.holdRoll ..).cluster c = _
      rw [holdRoll_cluster, lowered_cluster, State.modCluster_cluster_self]
    · exact List.mem_append_right _ (List.mem_singleton.2 rfl)
  obtain ⟨hclus, hspoken, hout⟩ := chiveAck_facts (c := c) (k := k) codeOk 0 (BitVec.ofNat 32 (0x10000 * statusCode .failed)) u
  refine ⟨_, congrArg Host.Outcome.next ((chiveMessage_acts hs _).trans hu), ?_, hout hw, ?_, hspoken⟩
  · rw [hclus, hc]
    rfl
  · rw [hclus]
    exact congrArg Slot.state (SMap.get_modify_self ..)

theorem counters_acts (hs : ChiveServes s c k 0x20) (u : State) (h : countersMsg c k s = u) : exec (.counters c k) s = .next u :=
  congrArg Host.Outcome.next ((chiveMessage_acts hs _).trans h)

theorem counters_reserved (hs : ChiveServes s c k 0x20) (hb : 2 ≤ byteAt ((s.cluster c).slot k).msg 4) :
    ∃ d, exec (.counters c k) s = .next (chiveAck c k codeBadArg d 0 s).nextFree := by
  refine ⟨Config.freeValue s.fresh % 256, counters_acts hs _ ?_⟩
  unfold countersMsg
  dsimp only
  match hm : byteAt ((s.cluster c).slot k).msg 4, hb with
  | n + 2, _ => rfl

end

/-- Settles O34, message by message. -/
theorem chiveMessagesAreAnswered : Obligations.ChiveMessagesAreAnswered := by
  unfold Obligations.ChiveMessagesAreAnswered
  intro s c k
  refine ⟨slotTake_defined, slotTake_undefined, chivePing_late, fun hs => ?_, fun taps hs he => ageRead_live taps hs he,
    fun taps hs he => ageRead_stale taps hs he, dillSweep_good, fun diff hs hd he _ => dillSweep_fails diff hs hd he, fun hs => ?_,
    fun hs h0 => counters_acts hs _ ?_, fun hs h1 => counters_acts hs _ ?_, counters_reserved⟩
  · exact congrArg Host.Outcome.next (chiveMessage_acts hs _)
  · exact congrArg Host.Outcome.next (chiveMessage_acts hs _)
  · unfold countersMsg
    dsimp only
    rw [h0]
    rfl
  · unfold countersMsg
    dsimp only
    rw [h1]
    rfl

end Sys2Proof.Machine
end

