-- ==== Sys2Proof/Proofs/DillAndTicks.lean ====
section
/-!
SUPPORT. Dill's wires, the engine clock, the tick (R33, R65 to R68, R158, R169, R172, R281).
-/

namespace Sys2Proof.Machine

/-! ### Dill's wires, held words, the tick (R33, R65 to R68, R158, R169, R172, R281) -/

/-- Where each place gives at most its own cell, a cell is found where its place gives it. -/
theorem find?_filterMap_cell {α : Type} {g : Nat → Option (Nat × α)} (hg : ∀ j p, g j = some p → p.1 = j) (l : List Nat) (k : Nat) :
    (l.filterMap g).find? (fun p => p.1 == k) = if k ∈ l then g k else none := by
  induction l with
  | nil => rfl
  | cons j l ih =>
    rw [List.filterMap_cons]
    by_cases hj : k = j
    · subst hj
      rw [if_pos List.mem_cons_self]
      cases hgk : g k with
      | none =>
        dsimp only
        rw [ih, hgk, ite_self]
      | some p => exact List.find?_cons_of_pos (by simp [hg k p hgk])
    · have hmem : (k ∈ j :: l) = (k ∈ l) := by simp [hj]
      rw [if_congr (iff_of_eq hmem) rfl rfl, ← ih]
      cases hgj : g j with
      | none => rfl
      | some p => exact List.find?_cons_of_neg (by simpa [hg j p hgj] using Ne.symm hj)

theorem SMap.get_mapBy {α : Type} [DecidableEq α] (n : Nat) (f : Nat → α → α) (m : SMap α) {k : Nat} (hk : k < n) :
    (m.mapBy n f).get k = f k (m.get k) := by
  have hcell := find?_filterMap_cell (g := fun k => if f k (m.get k) = f 0 m.dflt then none else some (k, f k (m.get k)))
    (fun j p h => by
      by_cases hd : f j (m.get j) = f 0 m.dflt
      · rw [if_pos hd] at h
        exact nomatch h
      · rw [if_neg hd] at h
        exact (Option.some.inj h) ▸ rfl) (List.range n) k
  rw [if_pos (List.mem_range.2 hk)] at hcell
  have hget (d : α) (l : List (Nat × α)) : SMap.get ⟨d, l⟩ k =
      match l.find? (fun p => p.1 == k) with | some p => p.2 | none => d := rfl
  unfold SMap.mapBy
  dsimp only
  rw [hget, hcell]
  by_cases hd : f k (m.get k) = f 0 m.dflt
  · rw [if_pos hd, hd]
  · rw [if_neg hd]

/-- A fold over the regions whose steps each reach one region only: a region is what its own step makes of it, after the steps
before. -/
theorem foldl_range_prefix {step : State → Nat → State} (hne : ∀ a r k, k ≠ r → (step a r).region k = a.region k)
    {r n : Nat} (hr : r < n) (s : State) :
    ((List.range r).foldl step s).region r = s.region r ∧
      ((List.range n).foldl step s).region r = (step ((List.range r).foldl step s) r).region r := by
  have hbefore (m : Nat) (hm : m ≤ r) : ((List.range m).foldl step s).region r = s.region r := by
    induction m with
    | zero => rfl
    | succ m ih =>
      rw [List.range_succ, List.foldl_concat, hne _ _ _ (by omega), ih (by omega)]
  refine ⟨hbefore r (Nat.le_refl r), ?_⟩
  induction n with
  | zero => exact absurd hr (Nat.not_lt_zero r)
  | succ n ih =>
    rw [List.range_succ, List.foldl_concat]
    by_cases hn : n = r
    · rw [hn]
    · rw [hne _ _ _ (Ne.symm hn), ih (by omega)]

theorem foldl_range_visit {step : State → Nat → State} (hne : ∀ a r k, k ≠ r → (step a r).region k = a.region k)
    {r n : Nat} (hr : r < n) (s : State) :
    ∃ a, a.region r = s.region r ∧ ((List.range n).foldl step s).region r = (step a r).region r :=
  ⟨_, foldl_range_prefix hne hr s⟩

/-! #### Forces -/

theorem applyForce_keeps (trip safe droop : Bool) (l : Limiter) :
    (l.applyForce trip safe droop).d = l.d ∧ (l.applyForce trip safe droop).e ≤ l.e := by
  unfold Limiter.applyForce
  dsimp only
  split
  · next h => exact ⟨rfl, Nat.le_of_lt h⟩
  · exact ⟨rfl, Nat.le_refl _⟩

/-- Under a droop the effective code is at its floor at most (R151, R169). -/
theorem applyForce_droop (trip safe : Bool) (l : Limiter) : (l.applyForce trip safe true).e ≤ l.d := by
  have hf : forceCode trip safe true l ≤ l.d := by
    unfold forceCode
    simp only [Bool.true_or, if_true]
    exact Nat.min_le_right _ _
  unfold Limiter.applyForce
  dsimp only
  split
  · exact hf
  · next h => exact Nat.le_trans (Nat.not_lt.1 h) hf

/-- One place that the droop wires reach, as the Dill's trip finds it. -/
def droopStep (s acc : State) (n : Nat) : State :=
  let t := acc.modRegion (regionOf n) Region.markAbandon
  if (s.gov (regionOf n)).engine then
    t.modCluster n (Cluster.mapLimiters (Limiter.applyForce (s.tripForce (regionOf n)) (s.safeForce (regionOf n)) true))
  else t

/-- The clusters that the droop wires of a cluster's Dill reach (R65, R161). -/
def droopReach (s : State) (c : Nat) : List Nat :=
  c :: (List.range 8).filterMap (fun d =>
    match neighbour c d with
    | some n => if bitOf (s.cluster n).droopMask.toNat (opposite d) then none else some n
    | none => none)

theorem droopForce_eq (c : Nat) (s : State) : droopForce c s = (droopReach s c).foldl (droopStep s) s := rfl

/-- What the droop wires keep, as they act at one place after another. -/
structure Drooped (s t : State) : Prop where
  hub   : t.hub = s.hub
  dill  : ∀ k, (t.cluster k).dill = (s.cluster k).dill
  lims  : ∀ k j, ((t.cluster k).limiters.get j).d = ((s.cluster k).limiters.get j).d ∧
    ((t.cluster k).limiters.get j).e ≤ ((s.cluster k).limiters.get j).e
  spec  : ∀ r, (t.region r).spec.state = (s.region r).spec.state ∧
    ((s.region r).spec.abandon = true → (t.region r).spec.abandon = true)

theorem Drooped.refl (s : State) : Drooped s s := ⟨rfl, fun _ => rfl, fun _ _ => ⟨rfl, Nat.le_refl _⟩, fun _ => ⟨rfl, id⟩⟩

theorem Drooped.trans {s t u : State} (h₁ : Drooped s t) (h₂ : Drooped t u) : Drooped s u where
  hub := h₂.hub.trans h₁.hub
  dill k := (h₂.dill k).trans (h₁.dill k)
  lims k j := ⟨(h₂.lims k j).1.trans (h₁.lims k j).1, Nat.le_trans (h₂.lims k j).2 (h₁.lims k j).2⟩
  spec r := ⟨(h₂.spec r).1.trans (h₁.spec r).1, fun h => (h₂.spec r).2 ((h₁.spec r).2 h)⟩

theorem markAbandon_facts (g : Region) : g.markAbandon.clusters = g.clusters ∧ g.markAbandon.spec.state = g.spec.state ∧
    (g.spec.abandon = true → g.markAbandon.spec.abandon = true) ∧ (g.spec.state = .standing → g.markAbandon.spec.abandon = true) := by
  unfold Region.markAbandon Region.lowered Region.stick Region.voidPeriod
  dsimp only
  split
  · exact ⟨rfl, rfl, fun _ => rfl, fun _ => rfl⟩
  · next h => exact ⟨rfl, rfl, id, fun hs => absurd hs h⟩

theorem modRegion_markAbandon_cluster (a : State) (r k : Nat) : (a.modRegion r Region.markAbandon).cluster k = a.cluster k := by
  unfold State.cluster
  by_cases hr : regionOf k = r
  · rw [hr, State.modRegion_region_self, (markAbandon_facts _).1]
  · rw [State.modRegion_region_ne _ _ hr]

theorem modRegion_markAbandon_drooped (a : State) (r : Nat) : Drooped a (a.modRegion r Region.markAbandon) := by
  refine ⟨rfl, fun k => ?_, fun k j => ?_, fun k => ?_⟩
  · rw [modRegion_markAbandon_cluster]
  · rw [modRegion_markAbandon_cluster]
    exact ⟨rfl, Nat.le_refl _⟩
  · by_cases hk : k = r
    · rw [hk, State.modRegion_region_self]
      exact ⟨(markAbandon_facts _).2.1, (markAbandon_facts _).2.2.1⟩
    · rw [State.modRegion_region_ne _ _ hk]
      exact ⟨rfl, id⟩

theorem modCluster_spec (a : State) (n : Nat) (f : Cluster → Cluster) (r : Nat) : ((a.modCluster n f).region r).spec = (a.region r).spec := by
  unfold State.modCluster
  by_cases hr : r = regionOf n
  · rw [hr, State.modRegion_region_self]
    rfl
  · rw [State.modRegion_region_ne _ _ hr]

theorem modCluster_force_drooped (a : State) (n : Nat) (trip safe droop : Bool) :
    Drooped a (a.modCluster n (Cluster.mapLimiters (Limiter.applyForce trip safe droop))) := by
  refine ⟨rfl, fun k => ?_, fun k j => ?_, fun r => ?_⟩
  · by_cases hk : k = n
    · rw [hk, State.modCluster_cluster_self]
      rfl
    · rw [State.modCluster_cluster_ne _ _ hk]
  · by_cases hk : k = n
    · rw [hk, State.modCluster_cluster_self, Cluster.mapLimiters, SMap.get_mapAll]
      exact applyForce_keeps ..
    · rw [State.modCluster_cluster_ne _ _ hk]
      exact ⟨rfl, Nat.le_refl _⟩
  · rw [modCluster_spec]
    exact ⟨rfl, id⟩

theorem droopStep_drooped (s a : State) (n : Nat) : Drooped a (droopStep s a n) := by
  unfold droopStep
  dsimp only
  split
  · exact (modRegion_markAbandon_drooped a _).trans (modCluster_force_drooped ..)
  · exact modRegion_markAbandon_drooped a _

theorem foldl_drooped (s : State) (l : List Nat) (a : State) : Drooped a (l.foldl (droopStep s) a) :=
  List.foldlRecOn (motive := Drooped a) l (droopStep s) (.refl a) fun b hb n _ => hb.trans (droopStep_drooped s b n)

/-- What a place's own step leaves there. -/
theorem droopStep_there (s a : State) (n : Nat) :
    ((s.gov (regionOf n)).engine = true → ∀ j, (((droopStep s a n).cluster n).limiters.get j).e ≤ ((a.cluster n).limiters.get j).d) ∧
      ((a.region (regionOf n)).spec.state = .standing → ((droopStep s a n).region (regionOf n)).spec.abandon = true) := by
  refine ⟨fun he j => ?_, fun hs => ?_⟩
  · unfold droopStep
    dsimp only
    rw [if_pos he, State.modCluster_cluster_self, Cluster.mapLimiters, SMap.get_mapAll, modRegion_markAbandon_cluster]
    exact applyForce_droop ..
  · have hm : ((a.modRegion (regionOf n) Region.markAbandon).region (regionOf n)).spec.abandon = true := by
      rw [State.modRegion_region_self]
      exact (markAbandon_facts _).2.2.2 hs
    unfold droopStep
    dsimp only
    split
    · rw [modCluster_spec]
      exact hm
    · exact hm

/-- Every place that the wires reach is at its floor, in a running region, and its standing pre-raise is marked. -/
theorem foldl_reached (s : State) (l : List Nat) (a : State) {n : Nat} (hn : n ∈ l) :
    ((s.gov (regionOf n)).engine = true → ∀ j,
      (((l.foldl (droopStep s) a).cluster n).limiters.get j).e ≤ ((a.cluster n).limiters.get j).d) ∧
    ((a.region (regionOf n)).spec.state = .standing → ((l.foldl (droopStep s) a).region (regionOf n)).spec.abandon = true) := by
  induction l generalizing a with
  | nil => exact absurd hn List.not_mem_nil
  | cons m l ih =>
    have hd := droopStep_drooped s a m
    rcases List.mem_cons.1 hn with rfl | hl
    · obtain ⟨h1, h2⟩ := droopStep_there s a n
      have hrest := foldl_drooped s l (droopStep s a n)
      exact ⟨fun he j => Nat.le_trans (hrest.lims n j).2 (h1 he j), fun hs => (hrest.spec _).2 (h2 hs)⟩
    · obtain ⟨h1, h2⟩ := ih (droopStep s a m) hl
      refine ⟨fun he j => ?_, fun hs => h2 ((hd.spec _).1.trans hs)⟩
      rw [← (hd.lims n j).1]
      exact h1 he j

/-! ### Trip, warn, clock and tick (R33, R65 to R68, R158, R172, R281) -/

section
variable {s : State}

theorem dillTrip_acts {c : ClusterId} (ha : s.pow.armed = true) (hs : (s.cluster c).ctl.spared = false)
    (he : (s.gov (regionOf c)).engine = true) :
    ∃ t, exec (.dillTripCrossing c) s = .next t ∧
      (t.cluster c).dill = { (s.cluster c).dill with
        asserted := true, tripCnt := satAdd 0xFFFF (s.cluster c).dill.tripCnt 1
        readTrips := satAdd 0xFFFF (s.cluster c).dill.readTrips 1 } ∧
      (∀ j, ((t.cluster c).limiters.get j).e ≤ ((s.cluster c).limiters.get j).d) ∧
      (∀ d n, d < 8 → neighbour c d = some n → bitOf (s.cluster n).droopMask.toNat (opposite d) = false →
        (s.gov (regionOf n)).engine = true → ∀ j, ((t.cluster n).limiters.get j).e ≤ ((s.cluster n).limiters.get j).d) ∧
      ((s.region (regionOf c)).spec.state = .standing → (t.region (regionOf c)).spec.abandon = true) ∧ t.hub = s.hub := by
  let u := s.modCluster c (fun u => { u with dill := { u.dill with
    asserted := true, tripCnt := satAdd 0xFFFF u.dill.tripCnt 1, readTrips := satAdd 0xFFFF u.dill.readTrips 1 } })
  have hlim (n : Nat) : (u.cluster n).limiters = (s.cluster n).limiters ∧ (u.cluster n).droopMask = (s.cluster n).droopMask := by
    by_cases hn : n = c
    · rw [hn, State.modCluster_cluster_self]
      exact ⟨rfl, rfl⟩
    · rw [State.modCluster_cluster_ne _ _ hn]
      exact ⟨rfl, rfl⟩
  have hd := foldl_drooped u (droopReach u c) u
  refine ⟨droopForce c u, congrArg Host.Outcome.next (if_neg (by simp [hs, ha])), ?_, fun j => ?_, fun d n hd8 hn hm hen j => ?_,
    fun hst => ?_, hd.hub⟩
  · rw [droopForce_eq, hd.dill, State.modCluster_cluster_self]
  · have h := (foldl_reached u (droopReach u c) u List.mem_cons_self).1 he j
    rwa [(hlim c).1] at h
  · have hmem : n ∈ droopReach u c := by
      refine List.mem_cons_of_mem _ (List.mem_filterMap.2 ⟨d, List.mem_range.2 hd8, ?_⟩)
      rw [hn]
      dsimp only
      rw [(hlim n).2, if_neg (by rw [hm]; exact nofun)]
    have h := (foldl_reached u (droopReach u c) u hmem).1 hen j
    rwa [(hlim n).1] at h
  · refine (foldl_reached u (droopReach u c) u List.mem_cons_self).2 ?_
    rw [modCluster_spec]
    exact hst

theorem dill_unarmed (c : ClusterId) (ha : s.pow.armed = false) :
    exec (.dillTripCrossing c) s = .next s ∧ exec (.dillWarnCrossing c) s = .next s :=
  ⟨congrArg Host.Outcome.next (if_pos (.inr ha)), congrArg Host.Outcome.next (if_pos (.inr (.inl ha)))⟩

theorem dillWarn_counts {c : ClusterId} (ha : s.pow.armed = true) (hs : (s.cluster c).ctl.spared = false)
    (hw : (s.cluster c).dill.sweeping = false) :
    exec (.dillWarnCrossing c) s = .next (s.modCluster c (fun u => { u with dill := { u.dill with
      warnCnt := satAdd 0xFFFF u.dill.warnCnt 1, readWarns := satAdd 0xFFFF u.dill.readWarns 1 } })) :=
  congrArg Host.Outcome.next (if_neg (by simp [hs, ha, hw]))

theorem engineClockStop_acts (r : RegionId) :
    ∃ t, exec (.engineClockStop r) s = .next t ∧ (t.gov r).engine = false ∧ (t.region r).clusters = (s.region r).clusters ∧
      t.out = s.out ∧ bitOf (t.region r).margin.sticky.toNat 5 = true := by
  have hreg : (((s.modGov r (fun g => { g with engine := false })).modRegion r (Region.stick 5)).region r) =
      (s.region r).stick 5 := State.modRegion_region_self ..
  refine ⟨_, rfl, ?_, ?_, rfl, ?_⟩
  · exact congrArg Gov.engine (State.modGov_gov_self s r (fun g => { g with engine := false }))
  · rw [hreg]
    rfl
  · rw [hreg, bitOf_eq_testBit, BitVec.testBit_toNat]
    unfold Region.stick
    simp only [BitVec.getLsbD_or]
    rw [show (BitVec.ofNat 7 (2 ^ 5)).getLsbD 5 = true from rfl, Bool.or_true]

theorem foldl_emit (e : Word → Effect) (l : List Word) (a : State) :
    l.foldl (fun acc w => acc.emit (e w)) a = { a with out := a.out ++ l.map e } := by
  induction l generalizing a with
  | nil => simp
  | cons w l ih =>
    rw [List.foldl_cons, ih]
    simp [State.emit]

theorem engineClockRestart_acts (r : RegionId) :
    ∃ t, exec (.engineClockRestart r) s = .next t ∧ t.out = s.out ++ (s.gov r).kept.map (Effect.limiterWord r) ∧
      t = { s with govs := t.govs, regions := t.regions, out := t.out } ∧
      (t.gov r) = { s.gov r with engine := true, kept := [] } ∧
      (∀ q, q ≠ r.val → t.gov q = s.gov q ∧ t.region q = s.region q) ∧
      (t.region r) = { s.region r with clusters := (t.region r).clusters } ∧
      ∀ k : Fin 576, let u := (s.region r).clusters.get k
        (t.region r).clusters.get k = { u with limiters := ((t.region r).clusters.get k).limiters } ∧
        ∀ j, ((t.region r).clusters.get k).limiters.get j = if u.ctl.spared then { u.limiters.get j with e := 0, cnt := 0 }
          else (u.limiters.get j).applyForce (s.tripForce r) (s.safeForce r) (s.droopAt (576 * r + k)) := by
  let v := s.modGov r (fun g => { g with engine := true, kept := [] })
  have hv : v.tripForce r = s.tripForce r ∧ v.safeForce r = s.safeForce r ∧ ∀ c, v.droopAt c = s.droopAt c := by
    refine ⟨rfl, ?_, fun c => rfl⟩
    exact (congrArg Gov.safe (State.modGov_gov_self s r (fun g => { g with engine := true, kept := [] })) :)
  obtain ⟨htrip, hsafe, hdroop⟩ := hv
  have hreg : (v.forceRegion r).region r = { s.region r with clusters := (s.region r).clusters.mapBy 576 (fun c u =>
      if u.ctl.spared then u.mapLimiters (fun l => { l with e := 0, cnt := 0 })
      else u.mapLimiters (Limiter.applyForce (s.tripForce r) (s.safeForce r) (s.droopAt (576 * r + c)))) } := by
    rw [← htrip, ← hsafe]
    exact State.modRegion_region_self ..
  refine ⟨{ v.forceRegion r with out := s.out ++ (s.gov r).kept.map (Effect.limiterWord r) },
    congrArg Host.Outcome.next (foldl_emit (Effect.limiterWord r) _ _), rfl, rfl, State.modGov_gov_self .., fun q hq => ⟨State.modGov_gov_ne _ _ hq,
      State.modRegion_region_ne _ _ hq⟩, ?_, fun k => ?_⟩
  · show (v.forceRegion r).region r = { s.region r with clusters := ((v.forceRegion r).region r).clusters }
    rw [hreg]
  · intro u
    show ((v.forceRegion r).region r).clusters.get k = { u with
        limiters := (((v.forceRegion r).region r).clusters.get k).limiters } ∧
      ∀ j, (((v.forceRegion r).region r).clusters.get k).limiters.get j = _
    rw [hreg]
    dsimp only
    rw [SMap.get_mapBy _ _ _ k.isLt, show (s.region r).clusters.get k = u from rfl]
    cases hu : u.ctl.spared
    · exact ⟨rfl, fun j => SMap.get_mapAll ..⟩
    · exact ⟨rfl, fun j => SMap.get_mapAll ..⟩

end

/-! ### The tick (R33, R68, R172, R281) -/

/-- Pacing at one row: the region keeps all but its paused rows. -/
structure Paced (r : Nat) (s t : State) : Prop where
  others : ∀ k, k ≠ r → t.region k = s.region k
  own    : t.region r = { s.region r with caps := { (s.region r).caps with paused := (t.region r).caps.paused } }

theorem Paced.refl (r : Nat) (s : State) : Paced r s s := ⟨fun _ _ => rfl, rfl⟩

theorem Paced.trans {r : Nat} {s t u : State} (h₁ : Paced r s t) (h₂ : Paced r t u) : Paced r s u :=
  ⟨fun k hk => (h₂.others k hk).trans (h₁.others k hk), h₂.own.trans (by rw [h₁.own])⟩

theorem sendWord_region (s : State) (r : Nat) (w : Word) (k : Nat) : (s.sendWord r w).region k = s.region k := by
  unfold State.sendWord
  split <;> rfl

/-- A region's paused rows set anew, and a word on its bus. -/
theorem pauseSet_region (s : State) (r : Nat) (p : BitVec 24) (w : Word) :
    Paced r s ((s.modRegion r (fun g => { g with caps := { g.caps with paused := p } })).sendWord r w) ∧
      (((s.modRegion r (fun g => { g with caps := { g.caps with paused := p } })).sendWord r w).region r).caps.paused = p := by
  have hr : ((s.modRegion r (fun g => { g with caps := { g.caps with paused := p } })).sendWord r w).region r =
      { s.region r with caps := { (s.region r).caps with paused := p } } := by
    rw [sendWord_region, State.modRegion_region_self]
  refine ⟨⟨fun k hk => ?_, by rw [hr]⟩, by rw [hr]⟩
  rw [sendWord_region, State.modRegion_region_ne _ _ hk]

theorem bit24 (j row : Nat) : (BitVec.ofNat 24 (2 ^ row)).getLsbD j = (decide (j < 24) && decide (row = j)) := by
  rw [BitVec.getLsbD_ofNat, Nat.testBit_two_pow]

/-- Pacing at a row: a warned row is paused, every other row keeps its state (R172). -/
theorem paceRow_facts (r : Nat) (warned : Bool) (row : Nat) (s : State) :
    Paced r s (paceRow r warned row s) ∧
      (warned = true → row < 24 → bitOf ((paceRow r warned row s).region r).caps.paused.toNat row = true) ∧
      ∀ j, j ≠ row → bitOf ((paceRow r warned row s).region r).caps.paused.toNat j = bitOf (s.region r).caps.paused.toNat j := by
  simp only [bitOf_eq_testBit, BitVec.testBit_toNat]
  unfold paceRow
  dsimp only
  split
  · obtain ⟨h1, h2⟩ := pauseSet_region s r ((s.region r).caps.paused ||| BitVec.ofNat 24 (2 ^ row)) (rowWord row 1 0 0)
    rw [h2]
    refine ⟨h1, fun _ hrow => ?_, fun j hj => ?_⟩
    · rw [BitVec.getLsbD_or, bit24]
      simp [hrow]
    · rw [BitVec.getLsbD_or, bit24]
      simp [Ne.symm hj]
  · next hw =>
    split
    · obtain ⟨h1, h2⟩ := pauseSet_region s r ((s.region r).caps.paused &&& ~~~(BitVec.ofNat 24 (2 ^ row)))
        (rowWord row 1 0 (s.cfg (offAct r 0) 16 3))
      rw [h2]
      refine ⟨h1, fun h => absurd h hw, fun j hj => ?_⟩
      rw [BitVec.getLsbD_and, BitVec.getLsbD_not, bit24]
      by_cases hj' : j < 24
      · simp [hj', Ne.symm hj]
      · simp [BitVec.getLsbD_of_ge _ _ (Nat.not_lt.1 hj')]
    · exact ⟨.refl r s, fun h => absurd h hw, fun j _ => rfl⟩

/-- Pacing at every row of a list: a warned row among them is paused at the end. -/
theorem foldl_paceRow (r : Nat) (warned : Nat → Bool) (l : List Nat) (hl : l.Nodup) (s : State) :
    Paced r s (l.foldl (fun a row => paceRow r (warned row) row a) s) ∧
      (∀ row ∈ l, row < 24 → warned row = true →
        bitOf ((l.foldl (fun a row => paceRow r (warned row) row a) s).region r).caps.paused.toNat row = true) ∧
      ∀ j, j ∉ l → bitOf ((l.foldl (fun a row => paceRow r (warned row) row a) s).region r).caps.paused.toNat j =
        bitOf (s.region r).caps.paused.toNat j := by
  induction l generalizing s with
  | nil => exact ⟨.refl r s, nofun, fun _ _ => rfl⟩
  | cons m l ih =>
    obtain ⟨hm, hl'⟩ := List.nodup_cons.1 hl
    obtain ⟨hp, hset, hkeep⟩ := paceRow_facts r (warned m) m s
    obtain ⟨hP, hSet, hKeep⟩ := ih hl' (paceRow r (warned m) m s)
    refine ⟨hp.trans hP, fun row hrow hlt hw => ?_, fun j hj => ?_⟩
    · rcases List.mem_cons.1 hrow with rfl | hrow
      · exact (hKeep row hm).trans (hset hw hlt)
      · exact hSet row hrow hlt hw
    · rw [List.mem_cons, not_or] at hj
      exact (hKeep j hj.2).trans (hkeep j hj.1)

/-- What one region's tick leaves of it (R68, R172). -/
structure Ticked (taps : SMap TickTap) (r : Nat) (g g' : Region) : Prop where
  cluster : ∀ k < 576, ∃ held limit, g'.clusters.get k = (g.clusters.get k).tick held limit (taps.get (576 * r + k))
  trips   : g'.tripsNow = satAdd 0xFFFF g.tripsNow (g.clusters.sum 576 (fun u => if u.ctl.spared then 0 else u.dill.tripCnt))
  paused  : ∀ row < 24, 0 < g.clusters.sumRange (24 * row) (24 * row + 24) (fun u => if u.ctl.spared then 0 else u.dill.warnCnt) →
    bitOf g'.caps.paused.toNat row = true

/-- A region as its tick counts, before its rows are paced. -/
def Region.ticked (s : State) (taps : SMap TickTap) (r : Nat) (g : Region) : Region :=
  let trips := (s.region r).clusters.sum 576 (fun u => if u.ctl.spared then 0 else u.dill.tripCnt)
  let g := if 0 < trips then g.stick 2 else g
  { g with
    tripsNow := satAdd 0xFFFF g.tripsNow trips
    clusters := (s.region r).clusters.mapBy 576 (fun c u =>
      u.tick (s.heldAt (576 * r + c)) (s.cfg 0x9000 16 14) (taps.get (576 * r + c))) }

theorem ticked_tripsNow (s : State) (taps : SMap TickTap) (r : Nat) (g : Region) : (g.ticked s taps r).tripsNow =
    satAdd 0xFFFF g.tripsNow ((s.region r).clusters.sum 576 (fun u => if u.ctl.spared then 0 else u.dill.tripCnt)) := by
  unfold Region.ticked
  dsimp only
  split <;> rfl

theorem ticked_clusters (s : State) (taps : SMap TickTap) (r : Nat) (g : Region) : (g.ticked s taps r).clusters =
    (s.region r).clusters.mapBy 576 (fun c u =>
      u.tick (s.heldAt (576 * r + c)) (s.cfg 0x9000 16 14) (taps.get (576 * r + c))) := by
  unfold Region.ticked
  dsimp only

/-- A row of the region had a warn in the tick. -/
def Region.warned (g : Region) (row : Nat) : Bool :=
  decide (0 < g.clusters.sumRange (24 * row) (24 * row + 24) (fun u => if u.ctl.spared then 0 else u.dill.warnCnt))

theorem tickRegion_eq (taps : SMap TickTap) (s : State) (r : Nat) : tickRegion taps s r =
    (List.range 24).foldl (fun a row => paceRow r ((s.region r).warned row) row a) (s.modRegion r (Region.ticked s taps r)) := rfl

theorem tickRegion_region (taps : SMap TickTap) (s : State) (r : Nat) :
    Ticked taps r (s.region r) ((tickRegion taps s r).region r) ∧
      ∀ k, k ≠ r → (tickRegion taps s r).region k = s.region k := by
  obtain ⟨hp, hset, -⟩ := foldl_paceRow r (s.region r).warned (List.range 24) List.nodup_range (s.modRegion r (Region.ticked s taps r))
  rw [← tickRegion_eq] at hp hset
  generalize tickRegion taps s r = x at hp hset ⊢
  have hr : (s.modRegion r (Region.ticked s taps r)).region r = (s.region r).ticked s taps r := State.modRegion_region_self ..
  have hown := hp.own
  rw [hr] at hown
  refine ⟨⟨fun k hk => ⟨s.heldAt (576 * r + k), s.cfg 0x9000 16 14, ?_⟩, ?_, fun row hrow hw => hset row (List.mem_range.2 hrow) hrow (decide_eq_true hw)⟩, fun k hk => ?_⟩
  · have hcl : (x.region r).clusters = ((s.region r).ticked s taps r).clusters := by rw [hown]
    rw [hcl, ticked_clusters, SMap.get_mapBy _ _ _ hk]
  · have htr : (x.region r).tripsNow = ((s.region r).ticked s taps r).tripsNow := by rw [hown]
    rw [htr, ticked_tripsNow]
  · exact (hp.others k hk).trans (State.modRegion_region_ne _ _ hk)

theorem paceRow_inside (r : Nat) (warned : Bool) (row : Nat) (s : State) : (paceRow r warned row s).inside = s.inside := by
  unfold paceRow
  dsimp only
  repeat' split
  all_goals simp

theorem tickRegion_inside (taps : SMap TickTap) (s : State) (r : Nat) : (tickRegion taps s r).inside = s.inside := by
  unfold tickRegion
  exact (inside_foldl (fun a row => paceRow_inside r _ row a) _ _).trans (State.modRegion_inside ..)

theorem tickAll_kept (taps : SMap TickTap) (s : State) : (tickAll taps s).tick = s.tick + 1 ∧ (tickAll taps s).hub = s.hub := by
  have hin : (tickAll taps s).inside = ({ s with tick := s.tick + 1 } : State).inside := by
    unfold tickAll
    rw [inside_foldl (tickRegion_inside taps)]
  generalize tickAll taps s = x at hin ⊢
  exact ⟨congrArg Inside.tick hin, congrArg Inside.hub hin⟩

theorem tickAll_region (taps : SMap TickTap) (s : State) {r : Nat} (hr : r < 64) :
    Ticked taps r (s.region r) ((tickAll taps s).region r) := by
  obtain ⟨a, ha, ht⟩ := foldl_range_visit (step := tickRegion taps) (fun a j k hk => (tickRegion_region taps a j).2 k hk) hr
    { s with tick := s.tick + 1 }
  have hreg : Ticked taps r (a.region r) ((tickRegion taps a r).region r) := (tickRegion_region taps a r).1
  rw [ha, ← ht] at hreg
  exact hreg

theorem tickBoundary_acts (s : State) (c : ClusterId) (r : RegionId) (taps : SMap TickTap) :
    ∃ t, exec (.tickBoundary taps) s = .next t ∧ t.tick = s.tick + 1 ∧ t.hub = s.hub ∧
      (t.cluster c).dill = { (s.cluster c).dill with tripCnt := 0, warnCnt := 0 } ∧
      (t.cluster c).tap.ticks = satAdd 0xFFFFFFFF (s.cluster c).tap.ticks 1 ∧
      (t.cluster c).tap.arrived = ((s.cluster c).tap.arrived || (taps.get c).arrived) ∧
      (∀ row, row < 24 → 0 < (s.region r).clusters.sumRange (24 * row) (24 * row + 24)
          (fun u => if u.ctl.spared then 0 else u.dill.warnCnt) → bitOf (t.region r).caps.paused.toNat row = true) ∧
      ((t.region r).tripsNow = satAdd 0xFFFF (s.region r).tripsNow
        ((s.region r).clusters.sum 576 (fun u => if u.ctl.spared then 0 else u.dill.tripCnt))) := by
  have hc := c.isLt
  obtain ⟨htick, hhub⟩ := tickAll_kept taps s
  have hreg := tickAll_region taps s r.isLt
  obtain ⟨held, limit, hclus⟩ := (tickAll_region taps s (r := regionOf c) (by unfold regionOf; omega)).cluster (localOf c)
    (by unfold localOf; omega)
  have hplace : 576 * regionOf c + localOf c = c.val := Nat.div_add_mod c.val 576
  rw [hplace] at hclus
  have hexec : exec (.tickBoundary taps) s = .next (tickAll taps s) := rfl
  generalize tickAll taps s = x at *
  have hcl : x.cluster c = (s.cluster c).tick held limit (taps.get c) := hclus
  refine ⟨x, hexec, htick, hhub, ?_, ?_, ?_, hreg.paused, hreg.trips⟩
  · rw [hcl]
    rfl
  · rw [hcl]
    rfl
  · rw [hcl]
    rfl

/-- Settles O43, row by row. -/
theorem dillAndTicksAct : Obligations.DillAndTicksAct := by
  unfold Obligations.DillAndTicksAct
  intro s c r
  exact ⟨dillTrip_acts, dillWarn_counts, dill_unarmed c, rfl, engineClockStop_acts r, engineClockRestart_acts r,
    tickBoundary_acts s c r⟩

end Sys2Proof.Machine
end

