-- ==== Sys2Proof/Proofs/Forecasts.lean ====
section
/-!
SUPPORT. Forecasts, pre-raises, withdrawals, tracking blocks (R97 to R107, R125, R126, R131, R138, R142, R175).
-/

namespace Sys2Proof.Machine

/-! ### Frames and settings leave a region's forecast and pre-raise as they are (R133, R134, R177) -/

/-- What a frame's start and a shaping of rows leave of a region. -/
structure FrameKeeps (g g' : Region) : Prop where
  spec     : g'.spec = { g.spec with shaped := g'.spec.shaped }
  vc       : g'.sp.vc = g.sp.vc
  vGrid    : g'.sp.vGrid = g.sp.vGrid
  gridEnd  : g'.gridEnd = g.gridEnd
  inFlight : g'.sage.inFlight = g.sage.inFlight
  groups   : g'.sage.groups = g.sage.groups
  fReg     : g'.sage.fReg = g.sage.fReg

theorem FrameKeeps.refl (g : Region) : FrameKeeps g g := ⟨rfl, rfl, rfl, rfl, rfl, rfl, rfl⟩

theorem FrameKeeps.trans {g h k : Region} (h₁ : FrameKeeps g h) (h₂ : FrameKeeps h k) : FrameKeeps g k where
  spec := h₂.spec.trans (by rw [h₁.spec])
  vc := h₂.vc.trans h₁.vc
  vGrid := h₂.vGrid.trans h₁.vGrid
  gridEnd := h₂.gridEnd.trans h₁.gridEnd
  inFlight := h₂.inFlight.trans h₁.inFlight
  groups := h₂.groups.trans h₁.groups
  fReg := h₂.fReg.trans h₁.fReg

theorem nextFrame_frameKeeps {up dn : Nat} {g g' : Region} {f : Frame} (h : nextFrame up dn g = some (f, g')) : FrameKeeps g g' := by
  unfold nextFrame at h
  dsimp only at h
  split at h
  · exact nomatch h
  · split at h
    · cases h
      exact ⟨rfl, rfl, rfl, rfl, rfl, rfl, rfl⟩
    · split at h
      · cases h
        exact ⟨rfl, rfl, rfl, rfl, rfl, rfl, rfl⟩
      · split at h
        · cases h
          exact ⟨rfl, rfl, rfl, rfl, rfl, rfl, rfl⟩
        · exact nomatch h

theorem startFrame_frameKeeps (s : State) (r : Nat) : FrameKeeps (s.region r) ((s.startFrame r).region r) := by
  unfold State.startFrame
  split
  · exact .refl _
  · next f g h =>
    show FrameKeeps _ ((s.modRegion r (fun _ => g)).region r)
    rw [State.modRegion_region_self]
    exact nextFrame_frameKeeps h

theorem foldl_sendWord_region (r : Nat) (l : List Word) (s : State) (k : Nat) :
    (l.foldl (fun acc w => acc.sendWord r w) s).region k = s.region k :=
  List.foldlRecOn (motive := fun t : State => t.region k = s.region k) l _ rfl fun b hb w _ => (sendWord_region b r w k).trans hb

theorem sendSettings_keeps (r : Nat) (rows : List Nat) (s : State) :
    FrameKeeps (s.region r) ((sendSettings r rows false s).region r) := by
  unfold sendSettings
  dsimp only
  rw [foldl_sendWord_region, State.modRegion_region_self]
  exact ⟨rfl, rfl, rfl, rfl, rfl, rfl, rfl⟩

theorem raiseShaped_keeps (r : Nat) (s : State) : FrameKeeps (s.region r) ((raiseShaped r s).region r) := by
  unfold raiseShaped
  split
  · exact .refl _
  · exact sendSettings_keeps ..

theorem rampShaping_keeps (r : Nat) (s : State) : FrameKeeps (s.region r) ((rampShaping r s).region r) := by
  unfold rampShaping
  dsimp only
  split
  · exact .refl _
  · refine (sendSettings_keeps r (shapeRows s r) s).trans ?_
    rw [State.modRegion_region_self]
    exact ⟨rfl, rfl, rfl, rfl, rfl, rfl, rfl⟩

/-! ### A pre-raise's decision and its withdrawal (R131, R138) -/

/-- The conditions of R131. -/
def State.raises (s : State) (r f : Nat) : Prop :=
  (s.region r).spec.state = .idle ∧ s.specBlocked r = false ∧ (s.region r).dig.latest ≤ f ∧
    s.cfg (offSpec r 1) 0 12 ≤ f - (s.region r).dig.latest ∧ 1 ≤ s.preRaiseMv r (f - (s.region r).dig.latest)

theorem preRaiseDecision_holds {s : State} {r f : Nat} (h : ¬ s.raises r f) : preRaiseDecision r f s = s := by
  refine if_pos ?_
  unfold State.raises at h
  by_contra hn
  simp only [not_or, not_not, Nat.not_lt, Bool.not_eq_true] at hn
  exact h hn

theorem preRaiseDecision_raises {s : State} {r f : Nat} (h : s.raises r f) :
    FrameKeeps ((((s.region r).modSpec (fun p => { p with
        state := .standing, s := s.preRaiseMv r (f - (s.region r).dig.latest), base := (s.region r).dig.latest
        rise := f - (s.region r).dig.latest, toTake := 10, toJudge := 10
        noConfirm := false, abandon := false, withdraw := false, issued := p.issued + 1 })))) ((preRaiseDecision r f s).region r) := by
  obtain ⟨h1, h2, h3, h4, h5⟩ := h
  have hc : ¬ ((s.region r).spec.state ≠ .idle ∨ s.specBlocked r ∨ f < (s.region r).dig.latest ∨
      f - (s.region r).dig.latest < s.cfg (offSpec r 1) 0 12 ∨ s.preRaiseMv r (f - (s.region r).dig.latest) < 1) := by
    simp only [not_or, not_not, Nat.not_lt, Bool.not_eq_true]
    exact ⟨h1, h2, h3, h4, h5⟩
  unfold preRaiseDecision
  dsimp only
  rw [if_neg hc]
  refine .trans ?_ (startFrame_frameKeeps _ r)
  rw [State.modRegion_region_self]
  exact ⟨rfl, rfl, rfl, rfl, rfl, rfl, rfl⟩

/-- What a publication makes of the forecast in flight (R104 to R106). -/
def publishedGroups (f : Forecast) (vc : Nat) : List Nat := (List.range 24).map (fun g => (groupValue f vc g).1)

theorem publish_eq {s : State} {r : Nat} {f : Forecast} (hf : (s.region r).sage.inFlight = some f) :
    ∃ F : Region → Region, publish r s = rampShaping r (raiseShaped r (preRaiseDecision r
        (min (s.region r).ph.rating (publishedGroups f (s.region r).sp.vc).sum) (s.modRegion r F))) ∧
      ∀ g, F g = { g with sage := (F g).sage } ∧ (F g).sage.inFlight = none ∧
        (F g).sage.groups = publishedGroups f (s.region r).sp.vc ∧
        (F g).sage.fReg = min (s.region r).ph.rating (publishedGroups f (s.region r).sp.vc).sum := by
  have hg : ((List.range 24).map (groupValue f (s.region r).sp.vc)).map (fun v => v.1) = publishedGroups f (s.region r).sp.vc := by
    unfold publishedGroups
    rw [List.map_map]
    rfl
  unfold publish
  dsimp only
  rw [hf]
  dsimp only
  rw [hg]
  exact ⟨_, rfl, fun g => ⟨rfl, rfl, rfl, rfl⟩⟩

/-- R131 does not ask for the forecasts of before. -/
theorem raises_of_sage {s u : State} {r : Nat} (hu : u.region r = { s.region r with sage := (u.region r).sage })
    (hs : u.setup = s.setup) (hg : u.govs = s.govs) (f : Nat) : u.raises r f ↔ s.raises r f := by
  have hcfg (off lo w : Nat) : u.cfg off lo w = s.cfg off lo w := by
    unfold State.cfg
    rw [hs]
  have hbit (off k : Nat) : u.cfgBit off k = s.cfgBit off k := by
    unfold State.cfgBit
    rw [hs]
  have hgov : u.gov r = s.gov r := congrArg (fun m => SMap.get m r) hg
  have hblk : u.specBlocked r = s.specBlocked r := by
    unfold State.specBlocked State.specHeld State.emergencyAt
    rw [hbit, hgov, hu]
  have hmv (d : Nat) : u.preRaiseMv r d = s.preRaiseMv r d := by
    unfold State.preRaiseMv
    simp only [hcfg]
    rw [hu]
  unfold State.raises
  rw [hblk, hcfg, hmv, hu]

/-- A publication, its decision aside (R104 to R106). -/
theorem publish_keeps {s : State} {r : Nat} {f : Forecast} (hf : (s.region r).sage.inFlight = some f) :
    ∃ u : State, FrameKeeps ((preRaiseDecision r (min (s.region r).ph.rating (publishedGroups f (s.region r).sp.vc).sum) u).region r)
        ((publish r s).region r) ∧ u.region r = { s.region r with sage := (u.region r).sage } ∧
      (u.region r).sage.inFlight = none ∧ (u.region r).sage.groups = publishedGroups f (s.region r).sp.vc ∧
      (u.region r).sage.fReg = min (s.region r).ph.rating (publishedGroups f (s.region r).sp.vc).sum ∧
      ∀ x, (u.raises r x ↔ s.raises r x) ∧ u.preRaiseMv r x = s.preRaiseMv r x := by
  obtain ⟨F, hp, hF⟩ := publish_eq hf
  obtain ⟨h1, h2, h3, h4⟩ := hF (s.region r)
  have hu : (s.modRegion r F).region r = F (s.region r) := State.modRegion_region_self ..
  have hs : (s.modRegion r F).region r = { s.region r with sage := ((s.modRegion r F).region r).sage } := by
    rw [hu]
    exact h1
  refine ⟨s.modRegion r F, ?_, hs, by rw [hu, h2], by rw [hu, h3], by rw [hu, h4], fun x => ⟨raises_of_sage hs rfl rfl x, ?_⟩⟩
  · rw [hp]
    exact (raiseShaped_keeps ..).trans (rampShaping_keeps ..)
  · show State.preRaiseMv _ _ _ = _
    unfold State.preRaiseMv
    rw [hs]
    rfl

/-! ### Forecasts and speculation (R97, R104 to R106, R125, R126, R131, R138, R142, R175) -/

section
variable {s : State} {r : RegionId}

theorem groupValue_linear {f : Forecast} (hl : f.learned = none) (vc g : Nat) : (groupValue f vc g).1 =
    min (f.maxUA.getD g 0 * vc / 187500000) ((f.linUA.getD g 0 * vc + 93750000) / 187500000) := by
  unfold groupValue
  rw [hl]
  dsimp only
  rw [Int.toNat_natCast, linearQA]

theorem groupValue_le (f : Forecast) (vc g : Nat) : (groupValue f vc g).1 ≤ f.maxUA.getD g 0 * vc / 187500000 := by
  unfold groupValue
  dsimp only
  exact Nat.min_le_left _ _

theorem publishedGroups_linear {f : Forecast} (hl : f.learned = none) (vc : Nat) : publishedGroups f vc =
    (List.range 24).map (fun g => min (f.maxUA.getD g 0 * vc / 187500000) ((f.linUA.getD g 0 * vc + 93750000) / 187500000)) :=
  List.map_congr_left fun g _ => groupValue_linear hl vc g

/-- A publication: the forecasts, and the pre-raise where R131's conditions hold. -/
theorem publication_acts {f : Forecast} (hf : (s.region r).sage.inFlight = some f) :
    let fReg := min (s.region r).ph.rating (publishedGroups f (s.region r).sp.vc).sum
    let b := (s.region r).dig.latest
    let t := publish r s
    (t.region r).sage.inFlight = none ∧ (t.region r).sage.groups = publishedGroups f (s.region r).sp.vc ∧
      (t.region r).sage.fReg = fReg ∧ (t.region r).sp.vc = (s.region r).sp.vc ∧
      (s.raises r fReg → (t.region r).spec.state = .standing ∧ (t.region r).spec.s = s.preRaiseMv r (fReg - b) ∧
        (t.region r).spec.base = b ∧ (t.region r).spec.rise = fReg - b ∧
        (t.region r).spec.issued = (s.region r).spec.issued + 1) ∧
      (¬ s.raises r fReg → (t.region r).spec.issued = (s.region r).spec.issued ∧
        (t.region r).spec.state = (s.region r).spec.state) := by
  intro fReg b t
  obtain ⟨u, hk, hu, hfl, hgr, hfr, hgo⟩ := publish_keeps hf
  have huv : (u.region r).sp = (s.region r).sp := by rw [hu]
  have hus : (u.region r).spec = (s.region r).spec := by rw [hu]
  have hub : (u.region r).dig = (s.region r).dig := by rw [hu]
  by_cases h : s.raises r fReg
  · have hr := preRaiseDecision_raises ((hgo fReg).1.2 h)
    have ht := hr.trans hk
    rw [hub, (hgo _).2] at ht
    refine ⟨ht.inFlight.trans hfl, ht.groups.trans hgr, ht.fReg.trans hfr, ht.vc.trans (congrArg Setpoint.vc huv), fun _ => ?_,
      fun hn => absurd h hn⟩
    have hspec := ht.spec
    have hissued : ((publish r s).region r).spec.issued = (u.region r).spec.issued + 1 := by rw [hspec]; rfl
    rw [hus] at hissued
    exact ⟨by rw [hspec]; rfl, by rw [hspec]; rfl, by rw [hspec]; rfl, by rw [hspec]; rfl, hissued⟩
  · have hn : preRaiseDecision r fReg u = u := preRaiseDecision_holds (mt (hgo fReg).1.1 h)
    rw [hn] at hk
    refine ⟨hk.inFlight.trans hfl, hk.groups.trans hgr, hk.fReg.trans hfr, hk.vc.trans (congrArg Setpoint.vc huv),
      fun hg => absurd hg h, fun _ => ?_⟩
    have hspec := hk.spec
    rw [hus] at hspec
    exact ⟨by rw [hspec], by rw [hspec]⟩

/-- The pre-raise as its withdrawal leaves it (R138, R139). -/
def Spec.withdrawn (p : Spec) : Spec := if p.withdraw ∨ p.abandon then p.abandoned' else p.missed'

theorem withdrawn_facts {p : Spec} (hp : p.state = .standing) : p.withdrawn.state = .idle ∧ p.withdrawn.s = 0 ∧
    if p.withdraw = true ∨ p.abandon = true then p.withdrawn.abandoned = p.abandoned + 1 ∧ p.withdrawn.missed = p.missed
    else p.withdrawn.missed = p.missed + 1 ∧ p.withdrawn.abandoned = p.abandoned := by
  unfold Spec.withdrawn
  by_cases h : p.withdraw = true ∨ p.abandon = true
  · simp only [if_pos h]
    unfold Spec.abandoned'
    rw [if_pos hp]
    exact ⟨rfl, rfl, rfl, rfl⟩
  · simp only [if_neg h]
    unfold Spec.missed'
    rw [if_pos hp]
    exact ⟨rfl, rfl, rfl, rfl⟩

theorem withdrawPreRaise_eq (hp : (s.region r).spec.state = .standing)
    (hw : ((s.region r).spec.toTake = 0 ∧ (s.region r).spec.toJudge = 0) ∨ (s.region r).spec.withdraw = true) :
    withdrawPreRaise r s = (s.modRegion r (fun g => { g with
      spec := (s.region r).spec.withdrawn, sp := { g.sp with wantVc := true, wantSpec := false } })).startFrame r := by
  have hspec : (if (s.region r).spec.withdraw = true ∨ (s.region r).spec.abandon = true then Spec.abandoned' else Spec.missed')
      (s.region r).spec = (s.region r).spec.withdrawn := by
    unfold Spec.withdrawn
    split <;> rfl
  unfold withdrawPreRaise
  dsimp only
  rw [if_pos ⟨hp, hw⟩]
  refine congrArg (fun t : State => t.startFrame r) (modRegion_congr ?_)
  unfold Region.modSp Region.modSpec
  dsimp only
  rw [hspec]

/-- The committed frame starts where the bus is free and no transition rate waits (R177, R505). -/
theorem startFrame_committed {t : State} {k : Nat} (hb : (t.region k).sp.busy = none) (hw : (t.region k).sp.wantRates = false)
    (hr : (t.region k).sp.retryEach = false) (hv : (t.region k).sp.wantVc = true) :
    (t.startFrame k).out = t.out ++ [.avsFrame k (.committed ((t.region k).sp.vc + (t.region k).spec.s + (t.region k).sp.vGrid))
      (avsWord 0 0 ((t.region k).sp.vc + (t.region k).spec.s + (t.region k).sp.vGrid))] := by
  unfold State.startFrame nextFrame
  simp only [hb, hw, hr, hv, Option.isSome_none, Bool.false_and, Bool.or_false, if_false, if_true,
    Bool.false_eq_true]
  rfl

theorem withdrawal_acts (hp : (s.region r).spec.state = .standing)
    (hw : ((s.region r).spec.toTake = 0 ∧ (s.region r).spec.toJudge = 0) ∨ (s.region r).spec.withdraw = true) :
    ∃ t, exec (.preRaiseWithdrawal r) s = .next t ∧ (t.region r).spec.state = .idle ∧ (t.region r).spec.s = 0 ∧
        (t.region r).sp.vc = (s.region r).sp.vc ∧
        (if (s.region r).spec.withdraw = true ∨ (s.region r).spec.abandon = true then
          (t.region r).spec.abandoned = (s.region r).spec.abandoned + 1 ∧ (t.region r).spec.missed = (s.region r).spec.missed
        else (t.region r).spec.missed = (s.region r).spec.missed + 1 ∧
          (t.region r).spec.abandoned = (s.region r).spec.abandoned) ∧
        ((s.region r).sp.busy = none → (s.region r).sp.wantRates = false → (s.region r).sp.retryEach = false →
          let v := (s.region r).sp.vc + (s.region r).sp.vGrid
          t.out = s.out ++ [.avsFrame r (.committed v) (avsWord 0 0 v)]) := by
  obtain ⟨u, hu, hureg, huout⟩ : ∃ u : State, withdrawPreRaise r s = u.startFrame r ∧ u.region r = { s.region r with
      spec := (s.region r).spec.withdrawn, sp := { (s.region r).sp with wantVc := true, wantSpec := false } } ∧ u.out = s.out :=
    ⟨_, withdrawPreRaise_eq hp hw, State.modRegion_region_self .., rfl⟩
  obtain ⟨-, hspec, hvc⟩ := startFrame_keeps u r
  rw [hureg] at hspec hvc
  obtain ⟨h1, h2, h3⟩ := withdrawn_facts hp
  refine ⟨_, congrArg Host.Outcome.next hu, ?_, ?_, hvc, ?_, fun hb hwr hre => ?_⟩
  · rw [hspec, h1]
  · rw [hspec, h2]
  · rw [hspec]
    exact h3
  · rw [startFrame_committed (by rw [hureg]; exact hb) (by rw [hureg]; exact hwr) (by rw [hureg]; exact hre) (by rw [hureg]), huout,
      hureg]
    dsimp only
    rw [h2, Nat.add_zero]

theorem demotionEnd_acts (hp : (s.region r).spec.state = .demoted) (hd : (s.region r).spec.demoteLeft = 0) :
    exec (.demotionEnd r) s = .next (s.modRegion r (fun g => { g with spec := { g.spec with state := .idle } })) := by
  refine congrArg Host.Outcome.next (modRegion_congr ?_)
  unfold Region.modSpec
  dsimp only
  rw [if_pos ⟨hp, hd⟩]

/-- V_grid after its block (R175). -/
def gridAllowance (limit : Nat) (block : Int × Nat) (v : Nat) : Nat :=
  if block.2 = 0 then v
  else if 2 ≤ Int.tdiv block.1 block.2 then min limit (v + 1)
  else if Int.tdiv block.1 block.2 ≤ -2 then v - 1 else v

theorem gridBlockEnd_acts (s : State) (r : RegionId) : let t := gridBlockEnd r s
    (t.region r).sp.vGrid = gridAllowance (s.cfg (offAct r 2) 16 6) ((s.region r).gridEnd.getD (0, 0)) (s.region r).sp.vGrid ∧
      (t.region r).gridEnd = none ∧ (t.region r).sp.vc = (s.region r).sp.vc := by
  intro t
  obtain ⟨u, hu, h1, h2, h3⟩ : ∃ u : State, gridBlockEnd r s = u.startFrame r ∧ (u.region r).sp.vGrid =
      gridAllowance (s.cfg (offAct r 2) 16 6) ((s.region r).gridEnd.getD (0, 0)) (s.region r).sp.vGrid ∧
      (u.region r).gridEnd = none ∧ (u.region r).sp.vc = (s.region r).sp.vc := by
    unfold gridBlockEnd
    dsimp only
    refine ⟨_, rfl, ?_⟩
    rw [State.modRegion_region_self]
    exact ⟨rfl, rfl, rfl⟩
  have hk := startFrame_frameKeeps u r
  show ((gridBlockEnd r s).region r).sp.vGrid = _ ∧ ((gridBlockEnd r s).region r).gridEnd = _ ∧ ((gridBlockEnd r s).region r).sp.vc = _
  rw [hu]
  exact ⟨hk.vGrid.trans h1, hk.gridEnd.trans h2, hk.vc.trans h3⟩

end

/-! ### Forecast boundary and tracking blocks -/

theorem setModel_frame (m : ModelState) (g : Region) : (g.setModel m).spec = g.spec ∧ (g.setModel m).caps = g.caps ∧
    (g.setModel m).sage.fnext = g.sage.fnext := by
  unfold Region.setModel
  split
  · exact ⟨rfl, rfl, rfl⟩
  · exact ⟨rfl, rfl, rfl⟩

/-- What a forecast boundary leaves of one region (R97, R107). -/
structure Forecasts (g g' : Region) : Prop where
  inFlight : g'.sage.inFlight.isSome = true
  fnum     : g'.sage.fnum = g.sage.fnext
  fnext    : g'.sage.fnext = (g.sage.fnext + 1) % 125
  spec     : g'.spec = g.spec
  caps     : g'.caps = g.caps

theorem forecastRegion_region (taps : List (ClusterId × FeatureTap)) (s : State) (r : Nat) :
    Forecasts (s.region r) ((forecastRegion taps s r).region r) ∧
      ∀ k, k ≠ r → (forecastRegion taps s r).region k = s.region k := by
  have hpick (c : Prop) [Decidable c] (t : State) (k : Nat) : (if c then t else t.raiseRoll r 2 5).region k = t.region k := by
    split
    · rfl
    · exact congrArg (fun m => SMap.get m k) (State.raiseRoll_regions ..)
  unfold forecastRegion
  dsimp only
  refine ⟨?_, fun k hk => (hpick ..).trans (State.modRegion_region_ne _ _ hk)⟩
  rw [hpick, State.modRegion_region_self]
  split
  · split
    · have hspec (g : Region) := (setModel_frame .failed g).1
      have hcaps (g : Region) := (setModel_frame .failed g).2.1
      have hnext (g : Region) := (setModel_frame .failed g).2.2
      exact ⟨rfl, hnext _, congrArg (fun n => (n + 1) % 125) (hnext _), hspec _, hcaps _⟩
    · exact ⟨rfl, rfl, rfl, rfl, rfl⟩
  · exact ⟨rfl, rfl, rfl, rfl, rfl⟩

theorem forecastBoundary_acts (s : State) (r : RegionId) (taps : List (ClusterId × FeatureTap)) :
    ∃ t, exec (.forecastBoundary taps) s = .next t ∧ Forecasts (s.region r) (t.region r) ∧ t.hub = s.hub := by
  refine ⟨s.forRegions (fun r t => forecastRegion taps t r), rfl, ?_, ?_⟩
  · have hr : r.val < nRegions := r.isLt
    obtain ⟨a, ha, ht⟩ := foldl_range_visit (step := fun acc r => forecastRegion taps acc r)
      (fun a j k hk => (forecastRegion_region taps a j).2 k hk) hr s
    have hf := (forecastRegion_region taps a r).1
    rw [ha, ← ht] at hf
    exact hf
  · exact congrArg Inside.hub (State.forRegions_inside (fun r t => forecastRegion_inside taps t r) s)

/-- Trust after a block of the learned model with enough periods (R125, R126). -/
theorem trustBlock_judged (blocks counted bad : Nat) (hc : 512 ≤ counted) (g : Region) :
    if bad ≤ counted / 20 then
      (g.trustBlock blocks (verdict counted bad)).trust.trusted = (g.trust.trusted || decide (blocks ≤ g.trust.goodRun + 1)) ∧
        (g.trustBlock blocks (verdict counted bad)).trust.goodRun = min (g.trust.goodRun + 1) 15
    else (g.trustBlock blocks (verdict counted bad)).trust.trusted = false ∧
      (g.trustBlock blocks (verdict counted bad)).trust.goodRun = 0 := by
  unfold verdict
  rw [if_neg (Nat.not_lt.2 hc)]
  split
  · exact ⟨rfl, rfl⟩
  · exact ⟨rfl, rfl⟩

theorem trustBlock_frame (blocks v : Nat) (g : Region) : (g.trustBlock blocks v).sage = g.sage ∧
    (g.trustBlock blocks v).trust.periods = g.trust.periods := by
  unfold Region.trustBlock
  split
  · exact ⟨rfl, rfl⟩
  · exact ⟨rfl, rfl⟩
  · split <;> exact ⟨rfl, rfl⟩

/-- A region as its tracking block ends, its trust aside (R125). -/
def Region.endBlock (g : Region) : Region := { g with
  sage := { g.sage with
    binsPub := List.replicate 16 0, binsLin := List.replicate 16 0, counted := 0, badPub := 0, badLin := 0 }
  trust := { g.trust with periods := 0, learned := 0 } }

theorem trackingBlockEnd_region {s : State} {r : Nat} (hp : 1024 ≤ (s.region r).trust.periods) :
    (trackingBlockEnd r s).region r = if (s.region r).sage.model = .active ∧ s.cfg (offSage r) 0 2 = 1 ∧
        (s.region r).trust.learned = (s.region r).trust.periods then
      (s.region r).endBlock.trustBlock (s.cfg (offSage r) 16 4) (verdict (s.region r).sage.counted (s.region r).sage.badPub)
    else (s.region r).endBlock := by
  have htel (t : State) (type : Nat) (body : List Byte) : (t.telemetry type r body).region r = t.region r :=
    congrArg (fun m => SMap.get m r) (State.telemetry_regions ..)
  unfold trackingBlockEnd
  dsimp only
  rw [if_neg (Nat.not_lt.2 hp), State.modRegion_region_self, htel, htel]
  exact if_congr decide_eq_true_iff rfl rfl

theorem trackingBlockEnd_acts {s : State} {r : RegionId} (hp : 1024 ≤ (s.region r).trust.periods) :
    ∃ t, exec (.trackingBlockEnd r) s = .next t ∧
      (t.region r).sage.counted = 0 ∧ (t.region r).sage.binsPub = List.replicate 16 0 ∧
      (t.region r).sage.binsLin = List.replicate 16 0 ∧ (t.region r).trust.periods = 0 ∧
      ((s.region r).sage.model = .active → s.cfg (offSage r) 0 2 = 1 →
        (s.region r).trust.learned = (s.region r).trust.periods → 512 ≤ (s.region r).sage.counted →
        (if (s.region r).sage.badPub ≤ (s.region r).sage.counted / 20 then
          (t.region r).trust.trusted = ((s.region r).trust.trusted ||
            decide (s.cfg (offSage r) 16 4 ≤ (s.region r).trust.goodRun + 1)) ∧
          (t.region r).trust.goodRun = min ((s.region r).trust.goodRun + 1) 15
        else (t.region r).trust.trusted = false ∧ (t.region r).trust.goodRun = 0)) ∧
      ((s.region r).sage.model ≠ .active → (t.region r).trust.trusted = (s.region r).trust.trusted) := by
  have hreg := trackingBlockEnd_region hp
  have hkeep : ((trackingBlockEnd r s).region r).sage = (s.region r).endBlock.sage ∧
      ((trackingBlockEnd r s).region r).trust.periods = 0 := by
    rw [hreg]
    split
    · exact trustBlock_frame _ _ _
    · exact ⟨rfl, rfl⟩
  obtain ⟨hsage, hper⟩ := hkeep
  refine ⟨_, rfl, ?_, ?_, ?_, ?_, fun hm hsel hl hc => ?_, fun hm => ?_⟩
  · rw [journaled_region, hsage]
    rfl
  · rw [journaled_region, hsage]
    rfl
  · rw [journaled_region, hsage]
    rfl
  · rw [journaled_region, hper]
  · rw [if_pos (show _ ∧ _ ∧ _ from ⟨hm, hsel, hl⟩)] at hreg
    rw [journaled_region, hreg]
    exact trustBlock_judged _ _ _ hc (s.region r).endBlock
  · rw [journaled_region, hreg, if_neg (fun h => hm h.1)]
    rfl

/-- Settles O40, row by row. -/
theorem forecastsAndPreRaises : Obligations.ForecastsAndPreRaises := by
  unfold Obligations.ForecastsAndPreRaises
  intro s r
  refine ⟨fun taps => ?_, fun f hf hl => ⟨_, rfl, ?_⟩, fun f hf => ⟨_, rfl, ?_⟩, withdrawal_acts, demotionEnd_acts,
    fun sum n hg hn => ⟨_, rfl, ?_⟩, fun hz => ⟨_, rfl, ?_⟩, trackingBlockEnd_acts⟩
  · obtain ⟨t, he, hf, hh⟩ := forecastBoundary_acts s r taps
    exact ⟨t, he, hf.inFlight, hf.fnum, hf.fnext, hf.spec, hf.caps, hh⟩
  · have h := publication_acts hf
    rw [publishedGroups_linear hl] at h
    exact h
  · obtain ⟨h1, h2, h3, h4, -⟩ := publication_acts hf
    refine ⟨h1, h2, h3, h4, fun g hg => ?_⟩
    simp only [List.getD_eq_getElem?_getD, List.getElem?_map, List.getElem?_range hg, Option.map_some, Option.getD_some]
    exact groupValue_le ..
  · have h := gridBlockEnd_acts s r
    rw [hg] at h
    unfold gridAllowance at h
    dsimp only [Option.getD_some] at h
    rw [if_neg hn] at h
    exact h
  · have h := gridBlockEnd_acts s r
    unfold gridAllowance at h
    rw [if_pos hz] at h
    exact h

end Sys2Proof.Machine
end

