-- ==== Sys2Proof/Proofs/Heat.lean ====
section
/-!
SUPPORT. The thermal loop, the package, trips and alerts (R49, R57, R171, R184 to R201, R509).
-/

namespace Sys2Proof.Machine

/-! ### What the thermal loop's other work leaves (R184 to R191) -/

/-- The same figures of the thermal loop in a region. -/
structure ThermSame (g g' : Region) : Prop where
  latch   : g'.therm.latch = g.therm.latch
  iTh     : g'.therm.iTh = g.therm.iTh
  tHot    : g'.therm.tHot = g.therm.tHot
  sum     : g'.therm.meanSum = g.therm.meanSum
  cnt     : g'.therm.meanCnt = g.therm.meanCnt
  derate  : g'.therm.derate16 = g.therm.derate16
  phases  : g'.ph = g.ph
  mean    : g'.dig.meanShown = g.dig.meanShown
  lastAck : g'.caps.lastAck = g.caps.lastAck

theorem ThermSame.refl (g : Region) : ThermSame g g := ⟨rfl, rfl, rfl, rfl, rfl, rfl, rfl, rfl, rfl⟩

theorem ThermSame.trans {g h k : Region} (h₁ : ThermSame g h) (h₂ : ThermSame h k) : ThermSame g k :=
  ⟨h₂.latch.trans h₁.latch, h₂.iTh.trans h₁.iTh, h₂.tHot.trans h₁.tHot, h₂.sum.trans h₁.sum, h₂.cnt.trans h₁.cnt,
    h₂.derate.trans h₁.derate, h₂.phases.trans h₁.phases, h₂.mean.trans h₁.mean, h₂.lastAck.trans h₁.lastAck⟩

/-- Work beside the thermal figures and the caps: of the machine, only what is named here changes. -/
structure Works (s t : State) : Prop where
  frame    : t = { s with
    regions := t.regions, govs := t.govs, hub := t.hub, events := t.events, latches := t.latches, fresh := t.fresh, out := t.out
    pair := { s.pair with heldEff := t.pair.heldEff, image := t.pair.image, journal := t.pair.journal } }
  therm    : ∀ r, ThermSame (s.region r) (t.region r)
  evalRun  : t.hub.ageing.evalRun = s.hub.ageing.evalRun
  lowering : t.hub.budget.lowering = s.hub.budget.lowering
  grows    : Grows s t

theorem Works.refl (s : State) : Works s s := ⟨rfl, fun _ => .refl _, rfl, rfl, .refl s⟩

theorem Works.trans {s t u : State} (h₁ : Works s t) (h₂ : Works t u) : Works s u :=
  ⟨h₂.frame.trans (by rw [h₁.frame]), fun r => (h₁.therm r).trans (h₂.therm r), h₂.evalRun.trans h₁.evalRun,
    h₂.lowering.trans h₁.lowering, h₁.grows.trans h₂.grows⟩

theorem Works.foldl {α : Type} {f : State → α → State} (h : ∀ a x, Works a (f a x)) (l : List α) (s : State) : Works s (l.foldl f s) :=
  List.foldlRecOn (motive := Works s) l f (.refl s) fun b hb a _ => hb.trans (h b a)

theorem Works.ite {c : Prop} [Decidable c] {s t u : State} (h₁ : Works s t) (h₂ : Works s u) : Works s (if c then t else u) := by
  split
  · exact h₁
  · exact h₂

theorem Works.of_hub {s t : State} (h : t = { s with hub := t.hub }) (he : t.hub.ageing.evalRun = s.hub.ageing.evalRun)
    (hl : t.hub.budget.lowering = s.hub.budget.lowering) : Works s t := by
  refine ⟨?_, fun r => ?_, he, hl, (Grows.refl s).of_eq (by rw [h]) (by rw [h])⟩
  · rw [h]
  · rw [h]
    exact .refl _

theorem Works.raise (s : State) (src cause arg : Nat) : Works s (s.raise src cause arg) :=
  ⟨rfl, fun _ => .refl _, rfl, rfl, (Grows.refl s).of_eq rfl rfl⟩

theorem Works.modRegion {r : Nat} {f : Region → Region} (hf : ∀ g, ThermSame g (f g)) (s : State) : Works s (s.modRegion r f) := by
  refine ⟨rfl, fun k => ?_, rfl, rfl, (Grows.refl s).of_eq rfl rfl⟩
  by_cases hk : k = r
  · rw [hk, State.modRegion_region_self]
    exact hf _
  · rw [State.modRegion_region_ne _ _ hk]
    exact .refl _

theorem Works.modRegions {f : Region → Region} (hf : ∀ g, ThermSame g (f g)) (s : State) : Works s (s.modRegions f) := by
  refine ⟨rfl, fun k => ?_, rfl, rfl, (Grows.refl s).of_eq rfl rfl⟩
  rw [State.modRegions_region]
  exact hf _

theorem Works.modGov (r : Nat) (f : Gov → Gov) (s : State) : Works s (s.modGov r f) :=
  ⟨rfl, fun _ => .refl _, rfl, rfl, (Grows.refl s).of_eq rfl rfl⟩

theorem Works.raiseRoll (s : State) (r k b : Nat) : Works s (s.raiseRoll r k b) := by
  refine (Works.modGov r _ s).trans ⟨rfl, fun _ => .refl _, rfl, rfl, (Grows.refl _).of_eq rfl rfl⟩

theorem Works.holdRoll (s : State) (r k b : Nat) (on : Bool) : Works s (s.holdRoll r k b on) := by
  unfold State.holdRoll
  dsimp only
  exact .ite ((Works.modGov r _ s).trans (.raiseRoll ..)) (.modGov r _ s)

theorem Works.hubEmit (s : State) (e : Effect) : Works s (s.hubEmit e) := by
  refine ⟨?_, fun r => ?_, ?_, ?_, (Grows.refl s).hubEmit e⟩
  · rw [hubEmit_eq]
  · rw [hubEmit_eq]
    exact .refl _
  · rw [hubEmit_eq]
  · rw [hubEmit_eq]

theorem Works.telemetry (s : State) (type region : Nat) (body : List Byte) (sub : Bool) :
    Works s (s.telemetry type region body sub) := by
  unfold State.telemetry
  refine .ite (.refl s) (.ite (.trans ?_ (.raise ..)) ?_)
  · exact .of_hub rfl rfl rfl
  · exact .of_hub rfl rfl rfl

theorem Works.complete (s : State) (cmd : CmdRef) (code detail : Nat) (result : List Byte) :
    Works s (s.complete cmd code detail result) := by
  unfold State.complete
  split
  · exact .refl s
  · exact .of_hub rfl rfl rfl

theorem Works.bothHubs {f : State → State} {s : State} (h : Works s (f s)) : Works s (bothHubs f s) :=
  h.trans ⟨rfl, fun _ => .refl _, rfl, rfl, (Grows.refl _).of_eq rfl rfl⟩

/-! #### The steps of the loop -/

theorem countDurations_works (s : State) : Works s (countDurations s) := by
  unfold countDurations
  refine .foldl (fun a i => ?_) _ s
  exact .of_hub rfl rfl rfl

theorem readCoolant_works (inlet outlet : List (Option Int)) (s : State) : Works s (readCoolant inlet outlet s) := by
  unfold readCoolant
  dsimp only
  have hraise (c : Prop) [Decidable c] (u : State) (cause : Nat) (h : Works s u) :
      Works s (if c then u.raise 208 cause else u) := .ite (h.trans (.raise ..)) h
  repeat apply hraise
  exact .of_hub rfl rfl rfl

theorem readChildren_works (rd : PackageReads) (s : State) : Works s (readChildren rd s) := by
  unfold readChildren
  dsimp only
  refine .trans ?_ (.foldl (fun a _ => .raise ..) _ _)
  exact .of_hub rfl rfl rfl

theorem pollBroken_works (ks : List Nat) (s : State) : Works s (pollBroken ks s) := by
  have hevent (e : Event) (u : State) : Works u { u with events := u.events ++ [e] } :=
    ⟨rfl, fun _ => .refl _, rfl, rfl, (Grows.refl u).of_eq rfl rfl⟩
  unfold pollBroken
  dsimp only
  refine .foldl (fun a k => ?_) ks s
  refine .ite (.trans ?_ (.foldl (fun b bit => .ite (.refl b) (hevent _ b)) _ _)) (.ite (.foldl (fun b p => .ite (.refl b) (hevent _ b)) _ a)
    (.refl a))
  exact ⟨rfl, fun _ => .refl _, rfl, rfl, (Grows.refl a).of_eq rfl rfl⟩

/-! ### The wafer's loop, its division apart (R184 to R191) -/

/-- One item at its boundary, as `runItems` carries the command along. -/
def itemStep (p : CapItem → Bool) (f : CapItem → State → CapItem × State) (a : State × List CapItem × Bool) (i : CapItem) :
    State × List CapItem × Bool :=
  if p i then ((f i a.1).2, a.2.1 ++ [(f i a.1).1], true) else (a.1, a.2.1 ++ [i], a.2.2)

/-- One command at its boundary. -/
def cmdStep (p : CapItem → Bool) (f : CapItem → State → CapItem × State) (acc : State × List CapCmd) (c : CapCmd) :
    State × List CapCmd :=
  let x := c.items.foldl (itemStep p f) (acc.1, [], false)
  (x.1, acc.2 ++ [{ c with items := x.2.1, ecap := c.ecap || (x.2.2 && x.1.hub.ecap.active) }])

theorem runItems_eq (s : State) (p : CapItem → Bool) (f : CapItem → State → CapItem × State) : s.runItems p f =
    (s.hub.budget.caps.foldl (cmdStep p f) (s, [])).1.modBudget (fun b => { b with
      caps := (s.hub.budget.caps.foldl (cmdStep p f) (s, [])).2 }) := rfl

theorem runItems_works {p : CapItem → Bool} {f : CapItem → State → CapItem × State} (hf : ∀ i u, Works u (f i u).2) (s : State) :
    Works s (s.runItems p f) := by
  have hitems (l : List CapItem) (a : State × List CapItem × Bool) : Works a.1 (l.foldl (itemStep p f) a).1 := by
    refine List.foldlRecOn (motive := fun b : State × List CapItem × Bool => Works a.1 b.1) l (itemStep p f) (.refl _) fun b hb i _ => ?_
    unfold itemStep
    split
    · exact hb.trans (hf i b.1)
    · exact hb
  have hcmds (l : List CapCmd) (a : State × List CapCmd) : Works a.1 (l.foldl (cmdStep p f) a).1 :=
    List.foldlRecOn (motive := fun b : State × List CapCmd => Works a.1 b.1) l (cmdStep p f) (.refl _) fun b hb c _ =>
      hb.trans (hitems c.items (b.1, [], false))
  rw [runItems_eq]
  exact (hcmds s.hub.budget.caps (s, [])).trans (.of_hub rfl rfl rfl)

theorem regionItems_works (s : State) : Works s (regionItems s) :=
  runItems_works (fun _ _ => .of_hub rfl rfl rfl) s

theorem packageSecond_works (s : State) : Works s (packageSecond s) := .of_hub rfl rfl rfl

theorem waterFill_works (s : State) : Works s (waterFill s).1 := by
  unfold waterFill
  dsimp only
  refine .trans (.foldl (fun a r => ?_) (List.range 64) s) (.of_hub rfl rfl rfl)
  refine .modRegion (fun g => ?_) a
  exact ⟨rfl, rfl, rfl, rfl, rfl, rfl, rfl, rfl, rfl⟩

theorem thermalRecords_works (caps : List Nat) (s : State) : Works s (thermalRecords caps s) :=
  .foldl (fun _ _ => .telemetry ..) (List.range 64) s

theorem keepThs_works (s : State) : Works s (keepThs s) := .of_hub rfl rfl rfl

theorem moveHomes_works (s : State) : Works s (moveHomes s) := by
  unfold moveHomes
  dsimp only
  refine .trans (.of_hub ?_ ?_ ?_) (.foldl (fun a _ => .raise ..) _ _) <;> rfl

theorem completeCaps_works (s : State) : Works s (completeCaps s) := by
  unfold completeCaps
  dsimp only
  refine .trans (.of_hub ?_ ?_ ?_) (.foldl (fun a _ => .complete ..) _ _) <;> rfl

theorem settleWafer_works (s : State) : Works s (s.modBudget Budget.settleWafer) := by
  refine .of_hub rfl rfl ?_
  show s.hub.budget.settleWafer.lowering = _
  unfold Budget.settleWafer
  split <;> rfl

theorem settleCaps_works (s : State) : Works s (settleCaps s) := by
  unfold settleCaps
  dsimp only
  refine (settleWafer_works s).trans (.trans ?_ (completeCaps_works _))
  exact .of_hub rfl rfl rfl

/-! #### Ageing readings and recomputes (R216 to R219) -/

theorem readAges_works (taps : AgeReads) (r : Nat) (s : State) : Works s (readAges taps r s) := by
  have hread : Works s (s.modRegion r (fun g => { g with clusters := g.clusters.mapBy 576 (fun c u =>
      if u.ctl.spared then u else u.readAge (taps.get (576 * r + c))) })) := by
    refine .modRegion (fun g => ?_) s
    exact ⟨rfl, rfl, rfl, rfl, rfl, rfl, rfl, rfl, rfl⟩
  unfold readAges
  dsimp only
  refine .ite (hread.trans (.trans (.modRegion (fun g => ?_) _) (.raiseRoll ..))) hread
  exact ⟨rfl, rfl, rfl, rfl, rfl, rfl, rfl, rfl, rfl⟩

theorem setTrimState_works (r : Nat) (x : TrimState) (s : State) : Works s (setTrimState r x s) := by
  unfold setTrimState
  dsimp only
  refine .trans (.modRegion (fun g => ?_) s) (.holdRoll ..)
  split
  · exact ⟨rfl, rfl, rfl, rfl, rfl, rfl, rfl, rfl, rfl⟩
  · exact ⟨rfl, rfl, rfl, rfl, rfl, rfl, rfl, rfl, rfl⟩

theorem modSp_works (r : Nat) (f : Setpoint → Setpoint) (s : State) : Works s (s.modRegion r (fun g => g.modSp f)) := by
  refine .modRegion (fun g => ?_) s
  exact ⟨rfl, rfl, rfl, rfl, rfl, rfl, rfl, rfl, rfl⟩

theorem recomputeTrim_works (r : Nat) (s : State) : Works s (recomputeTrim r s) := by
  unfold recomputeTrim
  dsimp only
  exact .ite ((modSp_works r _ s).trans (setTrimState_works ..)) (.ite ((modSp_works r _ s).trans (setTrimState_works ..)) (modSp_works r _ s))

theorem exhaust_works (r : Nat) (s : State) : Works s (exhaust r s) := by
  have hmargin (f : Region → Region) (hf : ∀ g, f g = { g with margin := (f g).margin }) (u : State) : Works u (u.modRegion r f) := by
    refine .modRegion (fun g => ?_) u
    rw [hf]
    exact ⟨rfl, rfl, rfl, rfl, rfl, rfl, rfl, rfl, rfl⟩
  unfold exhaust
  dsimp only
  refine .trans (.trans (.trans (hmargin _ (fun _ => rfl) s) (setTrimState_works ..)) (recomputeTrim_works ..)) (hmargin _ (fun _ => rfl) _)

theorem leaveExhausted_works (r : Nat) (s : State) : Works s (leaveExhausted r s) := by
  unfold leaveExhausted
  dsimp only
  refine .ite (.trans (.modRegion (fun g => ?_) s) (setTrimState_works ..)) (.refl s)
  exact ⟨rfl, rfl, rfl, rfl, rfl, rfl, rfl, rfl, rfl⟩

theorem recomputeRead_works (taps : AgeReads) (r : Nat) (s : State) : Works s (recomputeRead taps r s) := by
  unfold recomputeRead
  dsimp only
  exact .ite ((readAges_works ..).trans (exhaust_works ..))
    ((readAges_works ..).trans ((recomputeTrim_works ..).trans (leaveExhausted_works ..)))

theorem exportTrims_works (s : State) : Works s (exportTrims s) := by
  unfold exportTrims
  dsimp only
  exact .trans (.ite (.refl s) (.hubEmit ..)) (.telemetry ..)

theorem recomputeNow_works (taps : AgeReads) (rs : List Nat) (s : State) : Works s (recomputeNow taps rs s) := by
  have hw : Works s (s.modAgeing (fun a => { a with waiting := rs.filter (fun r => !(s.gov r).engine) })) := .of_hub rfl rfl rfl
  unfold recomputeNow
  dsimp only
  exact .ite hw (hw.trans (.trans (.foldl (fun a r => recomputeRead_works taps r a) _ _) (exportTrims_works _)))

/-! ### The wafer's loop itself (R184 to R189) -/

/-- From `s` to `t` no set-up register, no owner, no awaited message, no core and no rail changes. -/
def HeatFrame (s t : State) : Prop :=
  t = { s with
    regions := t.regions, govs := t.govs, hub := t.hub, events := t.events, latches := t.latches, fresh := t.fresh, out := t.out
    pair := { s.pair with heldEff := t.pair.heldEff, image := t.pair.image, journal := t.pair.journal } }

theorem HeatFrame.trans {s t u : State} (h₁ : HeatFrame s t) (h₂ : HeatFrame t u) : HeatFrame s u := by
  unfold HeatFrame at h₁ h₂ ⊢
  exact h₂.trans (by rw [h₁])

theorem HeatFrame.foldl {α : Type} {f : State → α → State} (h : ∀ a x, HeatFrame a (f a x)) (l : List α) (s : State) :
    HeatFrame s (l.foldl f s) :=
  List.foldlRecOn (motive := HeatFrame s) l f rfl fun b hb a _ => hb.trans (h b a)

theorem Works.heatFrame {s t : State} (h : Works s t) : HeatFrame s t := h.frame

theorem HeatFrame.cfg {s t : State} (h : HeatFrame s t) (off lo width : Nat) : t.cfg off lo width = s.cfg off lo width := by
  rw [h]
  rfl

theorem HeatFrame.tLimit {s t : State} (h : HeatFrame s t) : t.tLimit = s.tLimit := congrArg signed16 (h.cfg ..)
theorem HeatFrame.iThMin {s t : State} (h : HeatFrame s t) : t.iThMin = s.iThMin := h.cfg ..
theorem HeatFrame.await {s t : State} (h : HeatFrame s t) : t.await = s.await := by rw [h]
theorem HeatFrame.pow {s t : State} (h : HeatFrame s t) : t.pow = s.pow := by rw [h]

theorem HeatFrame.inControl {s t : State} (h : HeatFrame s t) : t.inControl = s.inControl := by
  rw [h]
  rfl

theorem HeatFrame.loopRuns {s t : State} (h : HeatFrame s t) : t.loopRuns = s.loopRuns := by
  rw [h]
  rfl

theorem countedCap_congr {s t : State} {r : Nat} (ha : t.await = s.await)
    (hl : (t.region r).caps.lastAck = (s.region r).caps.lastAck) : t.countedCap r = s.countedCap r := by
  unfold State.countedCap
  rw [ha, hl]

theorem inControl_of_loopRuns {s : State} (h : s.loopRuns = true) : s.inControl = true := by
  simp only [State.loopRuns, Bool.and_eq_true] at h
  exact h.1.1

/-- The thermal ceiling of a region without a trip (R186), of its rating ceiling, the ceiling before, its mean current and the
hottest temperature. -/
def ceilNext (s : State) (ceil prev mean : Nat) (hot : Int) : Nat :=
  min ceil (max s.iThMin
    (if s.tLimit ≤ hot then min prev (mean * (1024 - min 1024 ((hot - s.tLimit).toNat * s.cfg (offTherm 0) 24 8)) / 1024)
      else if (s.tLimit - hot).toNat < s.cfg (offTherm 0) 16 8 then prev
      else prev + s.cfg (offTherm 1) 0 12))

theorem loopRegion_iTh {s : State} {r : Nat} (hl : (s.region r).therm.latch = false) :
    (loopRegion s r).therm.iTh =
      ceilNext s (s.region r).ceilR (s.region r).therm.iTh (s.region r).waferMean (loopRegion s r).therm.tHot := by
  unfold loopRegion thermalCeil ceilNext
  dsimp only
  rw [hl]
  rfl

theorem loopRegion_lastAck (s : State) (r : Nat) : (loopRegion s r).caps.lastAck = (s.region r).caps.lastAck := rfl

/-- The loop's own figures of every region (R184 to R186). -/
def loopFigures (s : State) : State :=
  let s := s.modRegions (fun g => anchorMonitors { g with ph := { g.ph with rated := 22 } })
  (List.range 64).foldl (fun (a : State) r => a.modRegion r (fun _ => loopRegion a r)) s

theorem loopFigures_frame (s : State) : HeatFrame s (loopFigures s) := by
  unfold loopFigures
  refine HeatFrame.trans ?_ (.foldl (fun a r => ?_) (List.range 64) _)
  · exact rfl
  · exact rfl

theorem loopFigures_hub (s : State) : (loopFigures s).hub = s.hub := by
  unfold loopFigures
  dsimp only
  exact List.foldlRecOn (motive := fun b : State => b.hub = s.hub) (List.range 64) _ rfl fun b hb r _ => hb

theorem loopFigures_lastAck (s : State) (k : Nat) :
    ((loopFigures s).region k).caps.lastAck = (s.region k).caps.lastAck := by
  unfold loopFigures
  dsimp only
  refine List.foldlRecOn (motive := fun b : State => (b.region k).caps.lastAck = (s.region k).caps.lastAck) (List.range 64) _
    ?_ fun b hb r _ => ?_
  · rw [State.modRegions_region]
    rfl
  · rw [← hb]
    by_cases hk : k = r
    · rw [hk, State.modRegion_region_self, loopRegion_lastAck]
    · rw [State.modRegion_region_ne _ _ hk]

theorem loopFigures_iTh {s : State} {r : RegionId} (hl : (s.region r).therm.latch = false) :
    ((loopFigures s).region r).therm.iTh =
      ceilNext s { s.region r with ph := { (s.region r).ph with rated := 22 } : Region }.ceilR (s.region r).therm.iTh
        (s.region r).waferMean ((loopFigures s).region r).therm.tHot := by
  have hvisit := foldl_range_prefix (step := fun (a : State) r => a.modRegion r (fun _ => loopRegion a r))
    (fun a j k hk => State.modRegion_region_ne _ _ hk) (r := r) (n := 64) r.isLt
    (s.modRegions (fun g => anchorMonitors { g with ph := { g.ph with rated := 22 } }))
  unfold loopFigures
  dsimp only
  rw [hvisit.2, State.modRegion_region_self]
  have hregion := hvisit.1
  rw [State.modRegions_region] at hregion
  have hframe : HeatFrame s ((List.range r).foldl (fun (a : State) r => a.modRegion r (fun _ => loopRegion a r))
      (s.modRegions (fun g => anchorMonitors { g with ph := { g.ph with rated := 22 } }))) := by
    refine HeatFrame.trans ?_ (.foldl (fun a r => ?_) (List.range r) _)
    · exact rfl
    · exact rfl
  generalize (List.range r).foldl (fun (a : State) r => a.modRegion r (fun _ => loopRegion a r))
      (s.modRegions (fun g => anchorMonitors { g with ph := { g.ph with rated := 22 } })) = a at hregion hframe ⊢
  rw [loopRegion_iTh (by rw [hregion]; exact hl), hregion]
  unfold ceilNext
  rw [hframe.iThMin, hframe.tLimit]
  simp only [hframe.cfg]
  rfl

/-! #### The caps go out (R189) -/

/-- After the lowerings nothing more is told than raises. -/
theorem sendRaises_facts (s : State) : (sendRaises s).regions = s.regions ∧ (sendRaises s).hub.ageing = s.hub.ageing ∧
    (sendRaises s).hub.budget.lowering = s.hub.budget.lowering ∧ Grows s (sendRaises s) := by
  unfold sendRaises
  dsimp only
  split
  · exact ⟨rfl, rfl, rfl, .refl s⟩
  · refine List.foldlRecOn (motive := fun t : State => t.regions = s.regions ∧ t.hub.ageing = s.hub.ageing ∧
      t.hub.budget.lowering = s.hub.budget.lowering ∧ Grows s t) s.hub.budget.raising _ ⟨rfl, rfl, rfl, (Grows.refl s).of_eq rfl rfl⟩
      fun b hb p _ => ?_
    obtain ⟨hr, ha, hl, hg⟩ := hb
    split
    · exact ⟨hr, ha, hl, hg⟩
    · rw [State.hubAsk_regions, State.hubAsk_hub]
      exact ⟨hr, ha, hl, hg.hubAsk _⟩

theorem foldl_lastAck_therm (f : Nat → Nat) (l : List Nat) (s : State) (r : Nat) :
    ((l.foldl (fun (a : State) r => a.modRegion r (fun g => { g with caps := { g.caps with lastAck := f r } })) s).region r).therm =
      (s.region r).therm := by
  refine List.foldlRecOn (motive := fun b : State => (b.region r).therm = (s.region r).therm) l _ rfl fun b hb k _ => ?_
  rw [← hb]
  by_cases hk : r = k
  · rw [hk, State.modRegion_region_self]
  · rw [State.modRegion_region_ne _ _ hk]

theorem sendCaps_facts {s : State} (ho : s.owner.isSome = true) (caps : List Nat) :
    (∀ r, ((sendCaps caps s).region r).therm = (s.region r).therm) ∧ (sendCaps caps s).hub.ageing = s.hub.ageing ∧
    ∀ p ∈ (sendCaps caps s).hub.budget.lowering, p.2.1 < s.countedCap p.1 ∧ Said (sendCaps caps s) (.cap p.1 p.2.1 false) := by
  unfold sendCaps
  extract_lets old restore cap down ends atOnce up age t₁ t₂ t₃
  have h₁ : OnlyMessages s t₁ := .foldl (fun a r => hubAsk_onlyMessages a _) down s
  have hsaid : ∀ r ∈ down, Said t₁ (.cap r (cap r) false) := foldl_hubAsk_said (fun r => .cap r (cap r) false) down ho
  have htherm (r : Nat) : (t₂.region r).therm = (s.region r).therm := by
    rw [foldl_lastAck_therm cap (down.filter atOnce) t₁ r]
    show (t₁.regions.get r).therm = _
    rw [h₁.regions]
    rfl
  have h₂ : t₂.hub = t₁.hub ∧ Grows t₁ t₂ :=
    List.foldlRecOn (motive := fun b : State => b.hub = t₁.hub ∧ Grows t₁ b) (down.filter atOnce) _ ⟨rfl, .refl t₁⟩
      fun b hb k _ => ⟨hb.1, hb.2.of_eq rfl rfl⟩
  have h₃ := sendRaises_facts (t₃.modEcap (fun e => { e with restore := false }))
  generalize sendRaises (t₃.modEcap (fun e => { e with restore := false })) = u at h₃ ⊢
  obtain ⟨hregions, hageing, hlow, hgrows⟩ := h₃
  refine ⟨fun r => ?_, hageing.trans ?_, fun p hp => ?_⟩
  · show (u.regions.get r).therm = _
    rw [hregions]
    exact htherm r
  · show t₂.hub.ageing = _
    rw [h₂.1, h₁.hub]
  · rw [hlow] at hp
    obtain ⟨r, hr, rfl⟩ := List.mem_map.1 hp
    have hdown : r ∈ down := List.mem_of_mem_filter hr
    have hgrow : Grows t₁ u := (h₂.2.of_eq rfl rfl).trans hgrows
    exact ⟨of_decide_eq_true (List.mem_filter.1 hdown).2, (hsaid r hdown).imp fun _ h => hgrow.leaves h⟩

/-! ### A wafer period as a whole (R184 to R190) -/

theorem Works.modBudget (f : Budget → Budget) (hf : ∀ b, (f b).lowering = b.lowering) (s : State) : Works s (s.modBudget f) :=
  .of_hub rfl rfl (hf s.hub.budget)

theorem Works.countedCap {s t : State} (h : Works s t) (r : Nat) : t.countedCap r = s.countedCap r :=
  countedCap_congr h.heatFrame.await (h.therm r).lastAck

theorem HeatFrame.ceilNext {s t : State} (h : HeatFrame s t) (ceil prev mean : Nat) (hot : Int) :
    ceilNext t ceil prev mean hot = ceilNext s ceil prev mean hot := by
  unfold Machine.ceilNext
  rw [h.iThMin, h.tLimit]
  simp only [h.cfg]

theorem ThermSame.waferMean {g g' : Region} (h : ThermSame g g') : g'.waferMean = g.waferMean := by
  unfold Region.waferMean
  rw [h.cnt, h.sum, h.mean]

theorem ThermSame.ratedCeil {g g' : Region} (h : ThermSame g g') (n : Nat) :
    ({ g' with ph := { g'.ph with rated := n } } : Region).ceilR = ({ g with ph := { g.ph with rated := n } } : Region).ceilR := by
  unfold Region.ceilR Region.rating
  dsimp only
  rw [h.phases, h.derate]

/-- What the loop's run makes of the regions and of the lowerings. -/
structure LoopRun (s t : State) : Prop where
  rails    : t.pow.waferRun = true
  evalRun  : t.hub.ageing.evalRun = s.hub.ageing.evalRun
  ceiling  : ∀ r : RegionId, (s.region r).therm.latch = false → (t.region r).therm.iTh =
    ceilNext s { s.region r with ph := { (s.region r).ph with rated := 22 } : Region }.ceilR (s.region r).therm.iTh
      (s.region r).waferMean (t.region r).therm.tHot
  lowering : ∀ p ∈ t.hub.budget.lowering, p.2.1 < s.countedCap p.1 ∧ Said t (.cap p.1 p.2.1 false)

theorem LoopRun.works {s t u : State} (h : LoopRun s t) (hw : Works t u) : LoopRun s u where
  rails := (congrArg Power.waferRun hw.heatFrame.pow).trans h.rails
  evalRun := hw.evalRun.trans h.evalRun
  ceiling r hl := by
    rw [(hw.therm r).iTh, (hw.therm r).tHot]
    exact h.ceiling r hl
  lowering p hp := by
    rw [hw.lowering] at hp
    obtain ⟨hlt, hsaid⟩ := h.lowering p hp
    exact ⟨hlt, hsaid.imp fun _ hl => hw.grows.leaves hl⟩

theorem thermalLoop_run {s : State} (hs : s.inControl = true) : LoopRun s (thermalLoop s) := by
  unfold thermalLoop
  extract_lets s₁ s₂ s₃ b iw av s₄
  have hfig : s₂ = loopFigures s := by
    unfold loopFigures
    exact rfl
  have h₃ : Works s₂ s₃ := by
    refine ((regionItems_works s₂).trans (packageSecond_works _)).trans (.modBudget _ (fun b => ?_) _)
    exact rfl
  have h₄ : Works s₃ s₄ := by
    refine .modBudget _ (fun b => ?_) s₃
    exact rfl
  have hw := (h₃.trans h₄).trans (waterFill_works s₄)
  rw [hfig] at hw
  clear_value s₄
  generalize waterFill s₄ = d at hw ⊢
  obtain ⟨d, caps⟩ := d
  replace hw := hw.trans (thermalRecords_works caps d)
  dsimp only at hw ⊢
  have hf : HeatFrame s (thermalRecords caps d) := (loopFigures_frame s).trans hw.heatFrame
  obtain ⟨htherm, hageing, hlow⟩ := sendCaps_facts (owner_of_inControl (hf.inControl.trans hs)) caps
  generalize sendCaps caps (thermalRecords caps d) = t at htherm hageing hlow ⊢
  have hrun : LoopRun s { t with pow := { t.pow with waferRun := true } } := by
    refine ⟨rfl, ?_, fun r hl => ?_, fun p hp => ?_⟩
    · show t.hub.ageing.evalRun = _
      rw [hageing, hw.evalRun, loopFigures_hub]
    · show (t.region r).therm.iTh = Machine.ceilNext _ _ _ _ (t.region r).therm.tHot
      rw [htherm, (hw.therm r).iTh, (hw.therm r).tHot]
      exact loopFigures_iTh hl
    · obtain ⟨hlt, hsaid⟩ := hlow p hp
      refine ⟨?_, hsaid.imp fun _ h => h.imp id id⟩
      rwa [hw.countedCap, countedCap_congr (loopFigures_frame s).await (loopFigures_lastAck s p.1)] at hlt
  exact hrun.works ((keepThs_works _).trans ((moveHomes_works _).trans (settleCaps_works _)))

/-- What comes before the loop's run in a wafer period. -/
theorem hubWafer_run (rd : PackageReads) {s : State} (hs : s.loopRuns = true) :
    ∃ c, HeatFrame s c ∧ (∀ r, ThermSame (s.region r) (c.region r)) ∧ c.hub.ageing.evalRun = s.hub.ageing.evalRun + 1 ∧
      hubWafer rd s = thermalLoop c := by
  have hread : Works s (readChildren rd (readCoolant rd.inlet rd.outlet s)) := (readCoolant_works ..).trans (readChildren_works ..)
  unfold hubWafer
  extract_lets t₁ t₂ t₃
  have hpoll : Works t₂ t₃ := pollBroken_works _ t₂
  have hframe : HeatFrame s t₃ := (hread.heatFrame.trans (show HeatFrame t₁ t₂ from rfl)).trans hpoll.heatFrame
  refine ⟨t₃, hframe, fun r => (hread.therm r).trans (hpoll.therm r), ?_, if_pos (hframe.loopRuns.trans hs)⟩
  rw [hpoll.evalRun]
  exact congrArg (· + 1) hread.evalRun

/-- What is known after a wafer period in which the loop ran. -/
structure WaferRun (s t : State) : Prop where
  rails    : t.pow.waferRun = true
  evalRun  : t.hub.ageing.evalRun = s.hub.ageing.evalRun + 1
  mean     : ∀ r, (t.region r).therm.meanCnt = 0
  ceiling  : ∀ r : RegionId, (s.region r).therm.latch = false → (t.region r).therm.iTh =
    ceilNext s { s.region r with ph := { (s.region r).ph with rated := 22 } : Region }.ceilR (s.region r).therm.iTh
      (s.region r).waferMean (t.region r).therm.tHot
  lowering : ∀ p ∈ t.hub.budget.lowering, p.2.1 < s.countedCap p.1 ∧ Said t (.cap p.1 p.2.1 false)

theorem WaferRun.works {s t u : State} (h : WaferRun s t) (hw : Works t u) : WaferRun s u where
  rails := (congrArg Power.waferRun hw.heatFrame.pow).trans h.rails
  evalRun := hw.evalRun.trans h.evalRun
  mean r := (hw.therm r).cnt.trans (h.mean r)
  ceiling r hl := by
    rw [(hw.therm r).iTh, (hw.therm r).tHot]
    exact h.ceiling r hl
  lowering p hp := by
    rw [hw.lowering] at hp
    obtain ⟨hlt, hsaid⟩ := h.lowering p hp
    exact ⟨hlt, hsaid.imp fun _ hl => hw.grows.leaves hl⟩

theorem waferPeriod_run (rd : PackageReads) {s : State} (hs : s.loopRuns = true) : WaferRun s (waferPeriod rd s) := by
  unfold waferPeriod
  extract_lets t₁ t₂
  have h₁ : Works s t₁ := by
    refine (countDurations_works s).bothHubs.trans (.modRegions (fun g => ?_) _)
    exact ⟨rfl, rfl, rfl, rfl, rfl, rfl, rfl, rfl, rfl⟩
  have hin : t₁.inControl = true := h₁.heatFrame.inControl.trans (inControl_of_loopRuns hs)
  obtain ⟨c, hframe, htherm, heval, hrun⟩ := hubWafer_run rd (h₁.heatFrame.loopRuns.trans hs)
  have ht₂ : t₂ = thermalLoop c := (if_pos hin).trans hrun
  rw [ht₂]
  have hloop := thermalLoop_run (hframe.inControl.trans hin)
  generalize thermalLoop c = u at hloop ⊢
  have hall (r : Nat) : ThermSame (s.region r) (c.region r) := (h₁.therm r).trans (htherm r)
  have hf : HeatFrame s c := h₁.heatFrame.trans hframe
  refine ⟨hloop.rails, hloop.evalRun.trans (heval.trans (congrArg (· + 1) h₁.evalRun)), fun r => ?_, fun r hl => ?_, fun p hp => ?_⟩
  · rw [State.modRegions_region]
  · rw [State.modRegions_region]
    refine (hloop.ceiling r ((hall r).latch.trans hl)).trans ?_
    rw [hf.ceilNext, (hall r).waferMean, (hall r).ratedCeil, (hall r).iTh]
  · obtain ⟨hlt, hsaid⟩ := hloop.lowering p hp
    rw [countedCap_congr hf.await (hall p.1).lastAck] at hlt
    exact ⟨hlt, hsaid⟩

theorem next_waferPeriod (rd : PackageReads) {s : State} (hs : s.loopRuns = true) :
    ∃ t, exec (.waferPeriod rd) s = .next t ∧ WaferRun s t := by
  refine ⟨_, rfl, ?_⟩
  generalize hF : (fun s => let t := waferPeriod rd s
    if t.hub.ageing.waiting = [] ∨ t.inControl = false then t else recomputeNow rd.ages t.hub.ageing.waiting t) = F
  have hrun : WaferRun s (F s) := by
    rw [← hF]
    dsimp only
    exact (waferPeriod_run rd hs).works (.ite (.refl _) (recomputeNow_works ..))
  refine ⟨?_, ?_, fun r => ?_, fun r hl => ?_, fun p hp => ?_⟩
  · rw [journaled_pow, hrun.rails]
  · rw [journaled_hub, hrun.evalRun]
  · rw [journaled_region, hrun.mean]
  · rw [journaled_region]
    exact hrun.ceiling r hl
  · rw [journaled_hub] at hp
    obtain ⟨hlt, hsaid⟩ := hrun.lowering p hp
    exact ⟨hlt, hsaid.journaled⟩

/-! ### A package period (R44, R45, R192 to R198) -/

theorem HeatFrame.refl (s : State) : HeatFrame s s := rfl

/-- What one array's reading makes of the machine. -/
def readArray (arrays : List (Option ArrayRead)) (a : State) (r : Nat) : State :=
  match arrays.getD r none with
  | none => a
  | some x =>
    let a := a.transactAll r false [.read 0x8B, .read 0x8C, .read 0x8D]
    let (g, lim) := arrayPeriod (a.cfg (offTherm 3) 16 8) x (a.region r)
    let mv := if g.spec.state = .standing then g.spec.s else 0
    let t := (a.modRegion r (fun _ => g)).modGov r (fun v => { v with
      vout := ulinear16 v.voutMode x.vout - mv, iout := adjusted (arrayAmps x) g.sp.vc mv })
    if lim then t.raiseRoll r 1 6 else t

theorem transactAll_facts (s : State) (r : Nat) (failed : Bool) (txs : List PmbusTx) :
    (s.transactAll r failed txs).regions = s.regions ∧ HeatFrame s (s.transactAll r failed txs) ∧ (s.transactAll r failed txs).hub = s.hub := by
  unfold State.transactAll
  refine List.foldlRecOn (motive := fun b : State => b.regions = s.regions ∧ HeatFrame s b ∧ b.hub = s.hub) _ _ ⟨rfl, .refl s, rfl⟩
    fun b hb x _ => ⟨hb.1, hb.2.1.trans ?_, hb.2.2⟩
  exact rfl

/-- The array's regulators at a reading (R198): their derate follows the temperature. -/
def derateNext (s : State) (x : ArrayRead) (n : Nat) : Nat :=
  if (8 * s.cfg (offTherm 3) 16 8 : Nat) ≤ temp16 (linear11 8 x.temp) then min 8 (n + 1)
  else if temp16 (linear11 8 x.temp) ≤ (8 * (s.cfg (offTherm 3) 16 8 - 10) : Nat) then n - 1 else n

theorem readArray_none {arrays : List (Option ArrayRead)} {r : Nat} (h : arrays.getD r none = none) (a : State) :
    readArray arrays a r = a := by
  unfold readArray
  rw [h]

theorem readArray_some {arrays : List (Option ArrayRead)} {r : Nat} {x : ArrayRead} (h : arrays.getD r none = some x) (a : State) :
    HeatFrame a (readArray arrays a r) ∧ (readArray arrays a r).hub = a.hub ∧
      (readArray arrays a r).regions = (a.modRegion r (fun g => (arrayPeriod (a.cfg (offTherm 3) 16 8) x g).1)).regions := by
  obtain ⟨hr, hf, hh⟩ := transactAll_facts a r false [.read 0x8B, .read 0x8C, .read 0x8D]
  unfold readArray
  rw [h]
  dsimp only
  generalize a.transactAll r false [.read 0x8B, .read 0x8C, .read 0x8D] = b at hr hf hh ⊢
  have hcfg := hf.cfg (offTherm 3) 16 8
  have hb : b.region r = a.region r := congrArg (fun m : SMap Region => m.get r) hr
  have hregions : (b.modRegion r (fun _ => (arrayPeriod (b.cfg (offTherm 3) 16 8) x (b.region r)).1)).regions =
      (a.modRegion r (fun g => (arrayPeriod (a.cfg (offTherm 3) 16 8) x g).1)).regions := by
    rw [State.modRegion_regions, State.modRegion_regions, hr, hb, hcfg]
    rfl
  split
  · exact ⟨hf.trans rfl, hh, hregions⟩
  · exact ⟨hf.trans rfl, hh, hregions⟩

theorem readArray_frame (arrays : List (Option ArrayRead)) (a : State) (r : Nat) :
    HeatFrame a (readArray arrays a r) ∧ (readArray arrays a r).hub = a.hub ∧
      ∀ k, k ≠ r → (readArray arrays a r).region k = a.region k := by
  cases h : arrays.getD r none with
  | none =>
    rw [readArray_none h]
    exact ⟨.refl a, rfl, fun _ _ => rfl⟩
  | some x =>
    obtain ⟨hf, hh, hr⟩ := readArray_some h a
    refine ⟨hf, hh, fun k hk => ?_⟩
    show (readArray arrays a r).regions.get k = _
    rw [hr]
    exact State.modRegion_region_ne _ _ hk

theorem readArray_derate {arrays : List (Option ArrayRead)} {r : Nat} {x : ArrayRead} (h : arrays.getD r none = some x) (a : State) :
    ((readArray arrays a r).region r).therm.derate16 = derateNext a x (a.region r).therm.derate16 := by
  show ((readArray arrays a r).regions.get r).therm.derate16 = _
  rw [(readArray_some h a).2.2]
  show ((a.modRegion r _).region r).therm.derate16 = _
  rw [State.modRegion_region_self]
  rfl

/-- A step that leaves the region `r` alone for each other region leaves it over the regions before it. -/
theorem foldl_range_before {step : State → Nat → State} (hne : ∀ a r k, k ≠ r → (step a r).region k = a.region k)
    {r n : Nat} (hn : n ≤ r) (s : State) : ((List.range n).foldl step s).region r = s.region r :=
  List.foldlRecOn (motive := fun b : State => b.region r = s.region r) (List.range n) step rfl fun b hb k hk =>
    (hne b k r (by have := List.mem_range.1 hk; omega)).trans hb

theorem cornersHeard_facts (p : Nat → Bool) (l : List Nat) (s : State) :
    let t := l.foldl (fun (a : State) c =>
      if p c then a.modBudget (fun b => { b with mute := b.mute.filter (fun k => k != c) }) else governorGone c a) s
    t.regions = s.regions ∧ HeatFrame s t := by
  refine List.foldlRecOn (motive := fun t : State => t.regions = s.regions ∧ HeatFrame s t) l _ ⟨rfl, .refl s⟩ fun b hb c _ => ?_
  split
  · exact ⟨hb.1, hb.2.trans rfl⟩
  · unfold governorGone
    split
    · exact ⟨hb.1, hb.2.trans rfl⟩
    · exact hb

theorem readArrays_eq (arrays : List (Option ArrayRead)) (s : State) : readArrays arrays s =
    pmbusCorners.foldl (fun (a : State) c =>
      if (quadrant c).any (fun r => (arrays.getD r none).isSome) then
        a.modBudget (fun b => { b with mute := b.mute.filter (fun k => k != c) })
      else governorGone c a) ((List.range (min 64 arrays.length)).foldl (readArray arrays) s) := rfl

theorem readArrays_facts (arrays : List (Option ArrayRead)) (s : State) (r : RegionId) :
    HeatFrame s (readArrays arrays s) ∧
    (arrays.getD r none = none → ((readArrays arrays s).region r).therm.derate16 = (s.region r).therm.derate16) ∧
    ∀ x, arrays.getD r none = some x →
      ((readArrays arrays s).region r).therm.derate16 = derateNext s x (s.region r).therm.derate16 := by
  have hne : ∀ a j k, k ≠ j → (readArray arrays a j).region k = a.region k := fun a j => (readArray_frame arrays a j).2.2
  have hframe (l : List Nat) : HeatFrame s (l.foldl (readArray arrays) s) := .foldl (fun a j => (readArray_frame arrays a j).1) l s
  rw [readArrays_eq]
  obtain ⟨hreg, hf⟩ := cornersHeard_facts (fun c => (quadrant c).any (fun r => (arrays.getD r none).isSome)) pmbusCorners
    ((List.range (min 64 arrays.length)).foldl (readArray arrays) s)
  refine ⟨(hframe _).trans hf, fun hn => ?_, fun x hx => ?_⟩
  all_goals
    show (SMap.get (State.regions _) r).therm.derate16 = _
    rw [hreg]
    show (((List.range (min 64 arrays.length)).foldl (readArray arrays) s).region r).therm.derate16 = _
  · by_cases hr : r.val < min 64 arrays.length
    · rw [(foldl_range_prefix hne hr s).2, readArray_none hn, (foldl_range_prefix hne hr s).1]
    · rw [foldl_range_before hne (Nat.le_of_not_lt hr)]
  · have hr : r.val < min 64 arrays.length := by
      have hlen : r.val < arrays.length := by
        by_contra hle
        rw [List.getD_eq_default _ _ (Nat.le_of_not_lt hle)] at hx
        exact nomatch hx
      exact lt_min r.isLt hlen
    obtain ⟨hbefore, hvisit⟩ := foldl_range_prefix hne hr s
    rw [hvisit, readArray_derate hx, hbefore]
    unfold derateNext
    rw [(hframe (List.range r)).cfg]

/-! #### The division's levels -/

theorem giveLevel_fold (w4 : Nat → Nat) (l : List (Nat × Nat × Nat)) (p : Nat × List Nat) :
    (l.foldl (giveLevel w4) p).2.length = p.2.length + l.length ∧
    (∀ i, i < p.2.length → (l.foldl (giveLevel w4) p).2.getD i 0 = p.2.getD i 0) ∧
    ∀ i, i < l.length → (l.getD i (0, 0, 0)).2.2 ≤ (l.foldl (giveLevel w4) p).2.getD (p.2.length + i) 0 := by
  induction l generalizing p with
  | nil => exact ⟨rfl, fun _ _ => rfl, fun i hi => absurd hi (Nat.not_lt_zero i)⟩
  | cons x l ih =>
    obtain ⟨y, hy, hle⟩ : ∃ y, (giveLevel w4 p x).2 = p.2 ++ [y] ∧ x.2.2 ≤ y := by
      obtain ⟨old, counted, new⟩ := x
      unfold giveLevel
      dsimp only
      split
      · exact ⟨_, rfl, Nat.le_refl _⟩
      · next h =>
        split
        · exact ⟨_, rfl, Nat.le_refl _⟩
        · exact ⟨_, rfl, Nat.le_of_not_le h⟩
    obtain ⟨hlen, hold, hnew⟩ := ih (giveLevel w4 p x)
    have hone : (giveLevel w4 p x).2.length = p.2.length + 1 := by rw [hy, List.length_append]; rfl
    rw [List.foldl_cons]
    refine ⟨?_, fun i hi => ?_, fun i hi => ?_⟩
    · rw [hlen, hone, List.length_cons]
      omega
    · rw [hold i (by omega), hy, List.getD_append _ _ _ _ hi]
    · cases i with
      | zero =>
        rw [hold _ (by omega), hy, List.getD_append_right _ _ _ _ (by omega)]
        simpa using hle
      | succ i =>
        have := hnew i (by simpa using hi)
        rwa [hone, show p.2.length + 1 + i = p.2.length + (i + 1) by omega] at this

theorem takeDivision_levels (b : Budget) (st op : List Nat) (waf : Nat) {i : Nat} (hi : i < 16) :
    st.getD i 0 ≤ (b.takeDivision st op waf).lStack.getD i 0 := by
  have h := (giveLevel_fold (fun l => 4 * stackW l)
    ((List.range 16).map (fun i => (b.lStack.getD i 0, b.cStack.getD i 0, st.getD i 0)))
    (4 * b.pPkg - 1920 - b.allotted4 - 4 * b.pWafIn, [])).2.2 i (by simpa using hi)
  rw [List.length_nil, Nat.zero_add, List.getD_eq_getElem _ _ (by simpa using hi), List.getElem_map, List.getElem_range] at h
  exact h

theorem takeDivision_kept (b : Budget) (st op : List Nat) (waf : Nat) :
    (b.takeDivision st op waf).tStack = b.tStack ∧ (b.takeDivision st op waf).hStack = b.hStack := ⟨rfl, rfl⟩

theorem stackLevels_ge (b : Budget) (x : Nat) {i : Nat} (hi : i < 16) :
    max (b.tStack.getD i 0) (b.hStack.getD i 0) ≤ (b.stackLevels x).getD i 0 := by
  unfold Budget.stackLevels
  rw [List.getD_eq_getElem (List.map _ (List.range 16)) 0 (by simpa using hi), List.getElem_map, List.getElem_range]
  exact Nat.le_max_left _ _

/-- Each stack's level is at least its thermal level and the host's (R192, R193). -/
def LevelsHold (b : Budget) : Prop := ∀ i, i < 16 → max (b.tStack.getD i 0) (b.hStack.getD i 0) ≤ b.lStack.getD i 0

theorem dividePackage_levels (s : State) : LevelsHold (dividePackage s).hub.budget := by
  intro i hi
  unfold dividePackage
  extract_lets b w fits p st op rem f pend
  exact (stackLevels_ge b p.1 hi).trans (takeDivision_levels b st op (max (min (rem / 4) w) (rem * f / 640)) hi)

theorem dividePackage_regions (s : State) : (dividePackage s).regions = s.regions := rfl

/-! #### What follows the division -/

/-- Regions stay, and so do the levels of the stacks. -/
structure LevelsKept (s t : State) : Prop where
  regions : t.regions = s.regions
  tStack  : t.hub.budget.tStack = s.hub.budget.tStack
  hStack  : t.hub.budget.hStack = s.hub.budget.hStack
  lStack  : t.hub.budget.lStack = s.hub.budget.lStack

theorem LevelsKept.refl (s : State) : LevelsKept s s := ⟨rfl, rfl, rfl, rfl⟩

theorem LevelsKept.trans {s t u : State} (h₁ : LevelsKept s t) (h₂ : LevelsKept t u) : LevelsKept s u :=
  ⟨h₂.regions.trans h₁.regions, h₂.tStack.trans h₁.tStack, h₂.hStack.trans h₁.hStack, h₂.lStack.trans h₁.lStack⟩

theorem LevelsKept.foldl {α : Type} {f : State → α → State} (h : ∀ a x, LevelsKept a (f a x)) (l : List α) (s : State) :
    LevelsKept s (l.foldl f s) :=
  List.foldlRecOn (motive := LevelsKept s) l f (.refl s) fun b hb a _ => hb.trans (h b a)

theorem LevelsKept.ite {c : Prop} [Decidable c] {s t u : State} (h₁ : LevelsKept s t) (h₂ : LevelsKept s u) :
    LevelsKept s (if c then t else u) := by
  split
  · exact h₁
  · exact h₂

theorem LevelsKept.hold {s t : State} (h : LevelsKept s t) (hs : LevelsHold s.hub.budget) : LevelsHold t.hub.budget := by
  intro i hi
  rw [h.tStack, h.hStack, h.lStack]
  exact hs i hi

theorem LevelsKept.hubEmit (s : State) (e : Effect) : LevelsKept s (s.hubEmit e) := by
  rw [hubEmit_eq]
  exact ⟨rfl, rfl, rfl, rfl⟩

theorem LevelsKept.telemetry (s : State) (type region : Nat) (body : List Byte) (sub : Bool) :
    LevelsKept s (s.telemetry type region body sub) := by
  unfold State.telemetry
  refine .ite (.refl s) (.ite ?_ ?_)
  · exact ⟨rfl, rfl, rfl, rfl⟩
  · exact ⟨rfl, rfl, rfl, rfl⟩

theorem LevelsKept.shortfall (level kind index pending cause : Nat) (s : State) :
    LevelsKept s (shortfall level kind index pending cause s) := .telemetry ..

theorem LevelsKept.sidebandWrite (s : State) (ch : Child) (level heater : Nat) : LevelsKept s (s.sidebandWrite ch level heater) :=
  .foldl (fun a _ => .ite (.hubEmit a _) (.refl a)) _ s

theorem sendLevels_kept (before : Budget) (s : State) : LevelsKept s (sendLevels before s) := by
  unfold sendLevels
  extract_lets b grant stk opt t₁ t₂
  have h₁ : LevelsKept s t₁ := .foldl (fun a i => .sidebandWrite ..) stk s
  have h₂ : LevelsKept t₁ t₂ := .foldl (fun a i => .sidebandWrite ..) opt t₁
  exact (h₁.trans h₂).trans ⟨rfl, rfl, rfl, rfl⟩

theorem LevelsKept.region {s t : State} (h : LevelsKept s t) (r : Nat) : t.region r = s.region r :=
  congrArg (fun m : SMap Region => m.get r) h.regions

theorem quietChildren_kept (s : State) : LevelsKept s (quietChildren s) := by
  refine LevelsKept.foldl (fun a _ => ?_) _ s
  exact ⟨rfl, rfl, rfl, rfl⟩

theorem shortfalls_kept (s : State) : LevelsKept s (shortfalls s) := by
  unfold shortfalls
  extract_lets b t₁ t₂ t₃
  have h₁ : LevelsKept s t₁ := .foldl (fun a r => .ite (.shortfall ..) (.refl a)) _ s
  have h₂ : LevelsKept t₁ t₂ := .foldl (fun a r => .foldl (fun c p => .ite (.shortfall ..) (.refl c)) _ a) _ t₁
  have h₃ : LevelsKept t₂ t₃ := .ite (.shortfall ..) (.refl t₂)
  exact ((h₁.trans h₂).trans h₃).trans (.ite (.shortfall ..) (.refl t₃))

theorem packageRecord_kept (s : State) : LevelsKept s (packageRecord s) := .telemetry ..

theorem complete_kept (s : State) (cmd : CmdRef) (code detail : Nat) (result : List Byte) :
    LevelsKept s (s.complete cmd code detail result) := by
  unfold State.complete
  split
  · exact .refl s
  · exact ⟨rfl, rfl, rfl, rfl⟩

theorem settleCaps_kept (s : State) : LevelsKept s (settleCaps s) := by
  unfold settleCaps completeCaps
  extract_lets s₁ b inForce done t
  have hb : s.hub.budget.settleWafer = { s.hub.budget with pWafIn := s.hub.budget.settleWafer.pWafIn } := by
    unfold Budget.settleWafer
    split <;> rfl
  have h₁ : LevelsKept s s₁ := ⟨rfl, (congrArg Budget.tStack hb :), (congrArg Budget.hStack hb :), (congrArg Budget.lStack hb :)⟩
  have h₂ : LevelsKept s₁ t := ⟨rfl, rfl, rfl, rfl⟩
  exact (h₁.trans h₂).trans (.foldl (fun a _ => complete_kept ..) _ _)

theorem packageItems_works (s : State) : Works s (packageItems s) := by
  refine runItems_works (fun i u => ?_) s
  dsimp only
  split
  · exact .of_hub rfl rfl rfl
  · exact .of_hub rfl rfl rfl
  · exact .of_hub rfl rfl rfl

theorem hubPackage_facts (arrays : List (Option ArrayRead)) (s : State) : LevelsHold (hubPackage arrays s).hub.budget ∧
    ∀ r, ((hubPackage arrays s).region r).therm.derate16 = ((readArrays arrays s).region r).therm.derate16 := by
  unfold hubPackage
  extract_lets s₁ before
  have hitems := packageItems_works s₁
  generalize packageItems s₁ = s₂ at hitems ⊢
  have hkept : LevelsKept (dividePackage s₂)
      (settleCaps (packageRecord (shortfalls (quietChildren (sendLevels before (dividePackage s₂)))))) :=
    (sendLevels_kept ..).trans ((quietChildren_kept _).trans ((shortfalls_kept _).trans ((packageRecord_kept _).trans
      (settleCaps_kept _))))
  refine ⟨hkept.hold (dividePackage_levels s₂), fun r => ?_⟩
  rw [hkept.region]
  exact (hitems.therm r).derate

theorem foldl_emitRead (version : Bool) (l : List Nat) (s : State) :
    LevelsKept s (l.foldl (fun (a : State) r => a.emitRead r version) s) := by
  refine LevelsKept.foldl (fun a r => ?_) l s
  exact ⟨rfl, rfl, rfl, rfl⟩

theorem packagePeriod_facts (arrays : List (Option ArrayRead)) {s : State} (hs : s.loopRuns = true) (hc : s.clk.st ≠ .stopped) :
    LevelsHold (packagePeriod arrays s).hub.budget ∧ ∀ r, ((packagePeriod arrays s).region r).dig.pkgCnt = 0 ∧
      ((packagePeriod arrays s).region r).therm.derate16 = ((readArrays arrays s).region r).therm.derate16 := by
  obtain ⟨hlev, hder⟩ := hubPackage_facts arrays s
  have hkept : LevelsKept ((hubPackage arrays s).modRegions (fun g => g.modDig (fun d => { d with pkgSum := 0, pkgCnt := 0 })))
      (packagePeriod arrays s) := by
    unfold packagePeriod
    rw [if_neg hc, if_pos hs]
    exact foldl_emitRead ..
  generalize packagePeriod arrays s = t at hkept ⊢
  generalize hubPackage arrays s = u at hlev hder hkept
  refine ⟨hkept.hold hlev, fun r => ?_⟩
  rw [hkept.region, State.modRegions_region]
  exact ⟨rfl, hder r⟩

theorem next_packagePeriod (arrays : List (Option ArrayRead)) {s : State} (r : RegionId) (hs : s.loopRuns = true)
    (hc : s.clk.st ≠ .stopped) : ∃ t, exec (.packagePeriod arrays) s = .next t ∧ (t.region r).dig.pkgCnt = 0 ∧
      (arrays.getD r none = none → (t.region r).therm.derate16 = (s.region r).therm.derate16) ∧
      (∀ x, arrays.getD r none = some x → (t.region r).therm.derate16 = derateNext s x (s.region r).therm.derate16) ∧
      LevelsHold t.hub.budget := by
  obtain ⟨hlev, hreg⟩ := packagePeriod_facts arrays hs hc
  obtain ⟨hcnt, hder⟩ := hreg r
  obtain ⟨-, hnone, hsome⟩ := readArrays_facts arrays s r
  refine ⟨_, rfl, ?_, fun hn => ?_, fun x hx => ?_, ?_⟩
  · rw [journaled_region, hcnt]
  · rw [journaled_region, hder, hnone hn]
  · rw [journaled_region, hder, hsome x hx]
  · rw [journaled_hub]
    exact hlev

/-! ### Children, trips and alerts (R49, R171, R199, R509) -/

theorem childTimeout_counts {ch : Child} {n : Nat} {s : State} (hc : s.inControl = true)
    (hn : s.hub.budget.unack.get (childNo ch) = n) (hlo : 3 ≤ n) (hhi : n < 16) :
    childTimeout ch s = (s.modBudget (fun b => { b with
      unack := b.unack.set (childNo ch) (n + 16)
      childFail := b.childFail.set (childNo ch) 10
      tStack := if childNo ch < 16 then b.tStack.set (childNo ch) 6 else b.tStack
      uOpt := if 16 ≤ childNo ch then b.uOpt.set (childNo ch - 16) 3 else b.uOpt })).raise 207 0 := by
  unfold childTimeout
  dsimp only
  rw [hn, if_pos ⟨hc, hlo, hhi⟩]

theorem childNo_stack (k : Fin 16) : childNo (.stack k) = k.val := rfl
theorem childNo_optic (k : Fin 32) : childNo (.optic k) = 16 + k.val := rfl

/-! #### Frames and roll-ups -/

/-- A frame that starts changes the setpoint, the pre-raise's shape and the forecast of its region. -/
theorem nextFrame_leaves {up dn : Nat} {g g' : Region} {f : Frame} (h : nextFrame up dn g = some (f, g')) :
    g'.therm = g.therm ∧ g'.clusters = g.clusters ∧ g'.margin = g.margin := by
  unfold nextFrame at h
  dsimp only at h
  split at h
  · cases h
  · split at h
    · cases h; exact ⟨rfl, rfl, rfl⟩
    · split at h
      · cases h; exact ⟨rfl, rfl, rfl⟩
      · split at h
        · cases h; exact ⟨rfl, rfl, rfl⟩
        · cases h

theorem startFrame_leaves (s : State) (r : Nat) :
    ((s.startFrame r).region r).therm = (s.region r).therm ∧ ((s.startFrame r).region r).clusters = (s.region r).clusters ∧
      (s.startFrame r).govs = s.govs := by
  unfold State.startFrame
  split
  · exact ⟨rfl, rfl, rfl⟩
  · next f g h =>
    have e : ((s.modRegion r (fun _ => g)).emitFrame r f).region r = g := State.modRegion_region_self s r _
    obtain ⟨ht, hc, -⟩ := nextFrame_leaves h
    rw [e]
    exact ⟨ht, hc, rfl⟩

theorem abandonNow_leaves (s : State) (r : Nat) :
    ((s.abandonNow r).region r).therm = (s.region r).therm ∧ ((s.abandonNow r).region r).clusters = (s.region r).clusters ∧
      (s.abandonNow r).govs = s.govs := by
  unfold State.abandonNow
  split
  · obtain ⟨ht, hc, hg⟩ := startFrame_leaves
      (s.modRegion r (fun g => (g.modSpec Spec.abandoned').modSp (fun p => { p with wantVc := true, wantSpec := false }))) r
    rw [ht, hc, hg, State.modRegion_region_self]
    exact ⟨rfl, rfl, rfl⟩
  · exact ⟨rfl, rfl, rfl⟩

/-- A condition that a roll-up did not hold before raises its event. -/
theorem holdRoll_raises {s : State} {r k bit : Nat} (h : (((s.gov r).roll k).held &&& BitVec.ofNat 16 (2 ^ bit)) = 0) :
    { src := 64 * k + r, cause := bit } ∈ (s.holdRoll r k bit true).events := by
  unfold State.holdRoll
  dsimp only
  rw [h]
  exact List.mem_append_right _ (List.mem_singleton_self _)

/-! #### What stays while rounds and grants end -/

/-- Regions stay, and so does every event raised. -/
structure RaisesOnly (s t : State) : Prop where
  regions : t.regions = s.regions
  events  : s.events ⊆ t.events

theorem RaisesOnly.refl (s : State) : RaisesOnly s s := ⟨rfl, List.Subset.refl _⟩

theorem RaisesOnly.trans {s t u : State} (h₁ : RaisesOnly s t) (h₂ : RaisesOnly t u) : RaisesOnly s u :=
  ⟨h₂.regions.trans h₁.regions, List.Subset.trans h₁.events h₂.events⟩

theorem RaisesOnly.foldl {α : Type} {f : State → α → State} (h : ∀ a x, RaisesOnly a (f a x)) (l : List α) (s : State) :
    RaisesOnly s (l.foldl f s) :=
  List.foldlRecOn (motive := RaisesOnly s) l f (.refl s) fun b hb a _ => hb.trans (h b a)

theorem RaisesOnly.of_eq {s t : State} (hr : t.regions = s.regions) (he : t.events = s.events) : RaisesOnly s t :=
  ⟨hr, he ▸ List.Subset.refl _⟩

theorem RaisesOnly.region {s t : State} (h : RaisesOnly s t) (r : Nat) : t.region r = s.region r :=
  congrArg (fun m : SMap Region => m.get r) h.regions

theorem OnlyGrants.raisesOnly {s t : State} (h : OnlyGrants s t) : RaisesOnly s t := .of_eq (by rw [h]) (by rw [h])

theorem RaisesOnly.telemetry (s : State) (type region : Nat) (body : List Byte) (sub : Bool) :
    RaisesOnly s (s.telemetry type region body sub) := by
  unfold State.telemetry
  split
  · exact .refl s
  · split
    · exact ⟨rfl, List.subset_append_left _ _⟩
    · exact .of_eq rfl rfl

theorem revokeGrant_raisesOnly (i cause : Nat) (s : State) : RaisesOnly s (revokeGrant i cause s) := by
  unfold revokeGrant
  extract_lets g t₁ t₂ t₃
  have h₁ : RaisesOnly s t₁ := (RaisesOnly.telemetry ..).trans
    (.foldl (fun a r => (hubSend_onlyMessages a _).onlyGrants.raisesOnly) g.regions _)
  have h₂ : RaisesOnly t₁ t₃ := .of_eq rfl rfl
  refine (h₁.trans h₂).trans (.foldl (fun a c => ?_) g.relCmds t₃)
  unfold State.complete
  split
  · exact .refl a
  · exact .of_eq rfl rfl

theorem revokeRegion_raisesOnly (r : Nat) (s : State) : RaisesOnly s (revokeRegion r s) := by
  unfold revokeRegion
  split
  · exact .foldl (fun a i => revokeGrant_raisesOnly i 3 a) _ s
  · exact .of_eq rfl rfl

theorem abandonRounds_raisesOnly (r detail : Nat) (s : State) : RaisesOnly s (abandonRounds r detail s) := by
  unfold abandonRounds
  split
  · exact .refl s
  · exact .foldl (fun a i => (abandonRound_onlyGrants i codeEmerg detail a).raisesOnly) _ s

/-! #### The trip latch (R57, R171, R199) -/

/-- A region whose trip comparator asserts: every limiter at 0, the trip latched and counted. -/
def Region.tripped (g : Region) : Region :=
  ({ g.modClusters (Cluster.mapLimiters (Limiter.applyForce true false false)) with
    therm := { g.therm with latch := true, seen := false, tripCnt := satAdd 0xFFFF g.therm.tripCnt 1 } }.voidPeriod).stick 4

theorem tripped_limiters (g : Region) (c j : Nat) : ((g.tripped.clusters.get c).limiters.get j).e = 0 := by
  show (((g.clusters.mapAll (Cluster.mapLimiters (Limiter.applyForce true false false))).get c).limiters.get j).e = 0
  rw [SMap.get_mapAll]
  show (((g.clusters.get c).limiters.mapAll (Limiter.applyForce true false false)).get j).e = 0
  rw [SMap.get_mapAll, applyForce_trip]

theorem tripLatch_trips {r : Nat} {s : State} (hl : (s.region r).therm.latch = false) :
    let t := tripLatch r s
    (t.region r).therm = (s.region r).tripped.therm ∧ (t.region r).clusters = (s.region r).tripped.clusters ∧
      (t.region r).spec.state ≠ .standing ∧ ((s.gov r).rtherm.held &&& 2 = 0 → { src := r, cause := 1 } ∈ t.events) := by
  have hmod : (s.modRegion r Region.tripped).region r = (s.region r).tripped := State.modRegion_region_self ..
  obtain ⟨htherm, hclus, hgovs⟩ := abandonNow_leaves (s.modRegion r Region.tripped) r
  obtain ⟨-, hspec, -⟩ := abandonNow_keeps (s.modRegion r Region.tripped) r
  rw [hmod] at htherm hclus
  have heq : tripLatch r s = revokeRegion r (abandonRounds r 0x50
      (((s.modRegion r Region.tripped).abandonNow r).holdRoll r 0 1 true)) := by
    unfold tripLatch
    dsimp only
    rw [hl]
    rfl
  generalize (s.modRegion r Region.tripped).abandonNow r = u at htherm hclus hgovs hspec heq
  rw [heq]
  have hroll : (u.holdRoll r 0 1 true).region r = u.region r := congrArg (fun m : SMap Region => m.get r) (State.holdRoll_regions ..)
  have hend := (abandonRounds_raisesOnly r 0x50 (u.holdRoll r 0 1 true)).trans (revokeRegion_raisesOnly r _)
  dsimp only
  rw [hend.region, hroll]
  refine ⟨htherm, hclus, hspec, fun hheld => hend.events ?_⟩
  have hg : u.gov r = s.gov r := congrArg (fun m : SMap Gov => m.get r) hgovs
  have := holdRoll_raises (s := u) (r := r) (k := 0) (bit := 1) (by rw [hg]; exact hheld)
  rwa [Nat.mul_zero, Nat.zero_add] at this

/-! #### The regulators' alert (R509) -/

theorem assertHold_acts (r : Nat) (s : State) :
    ((assertHold r s).region r).caps = { (s.region r).caps with alertGone := false, holdRegion := true } ∧
    ((assertHold r s).region r).spec = (s.region r).spec ∧
    ((s.gov r).rsupply.held &&& 4 = 0 → { src := 64 + r, cause := 2 } ∈ (assertHold r s).events) ∧
    ((s.gov r).engine = true → .limiterWord r (regionWord 3 0 0 true) ∈ (assertHold r s).out) := by
  unfold assertHold
  extract_lets t
  have ht : t.region r = ({ s.region r with caps := { (s.region r).caps with alertGone := false, holdRegion := true } } :
      Region).voidPeriod.stick 4 := State.modRegion_region_self ..
  have hroll : (t.holdRoll r 1 2 true).region r = t.region r := congrArg (fun m : SMap Region => m.get r) (State.holdRoll_regions ..)
  rw [sendWord_region, hroll, ht]
  refine ⟨rfl, rfl, fun hheld => ?_, fun he => ?_⟩
  · have := holdRoll_raises (s := t) (r := r) (k := 1) (bit := 2) hheld
    unfold State.sendWord
    split
    · exact this
    · exact this
  · rw [sendWord_runs _ ((holdRoll_gov_engine t r 1 2 true r).trans he)]
    exact List.mem_append_right _ (List.mem_singleton_self _)

theorem alertOn_acts {r : Nat} {s : State} (ha : (s.region r).caps.alert = false) :
    ((alertOn r s).region r).caps = { (s.region r).caps with alert := true, alertGone := false, holdRegion := true } ∧
    ((alertOn r s).region r).spec.state ≠ .standing ∧
    ((s.gov r).rsupply.held &&& 4 = 0 → { src := 64 + r, cause := 2 } ∈ (alertOn r s).events) ∧
    ((s.gov r).engine = true → .limiterWord r (regionWord 3 0 0 true) ∈ (alertOn r s).out) := by
  unfold alertOn
  rw [if_neg (by simp [ha])]
  obtain ⟨-, -, hgovs⟩ := abandonNow_leaves (s.modRegion r (fun g => { g with caps := { g.caps with alert := true } })) r
  obtain ⟨hcaps, hspec, -⟩ := abandonNow_keeps (s.modRegion r (fun g => { g with caps := { g.caps with alert := true } })) r
  rw [State.modRegion_region_self] at hcaps
  generalize (s.modRegion r (fun g => { g with caps := { g.caps with alert := true } })).abandonNow r = u at hgovs hcaps hspec ⊢
  obtain ⟨hc, hsp, hev, hw⟩ := assertHold_acts r u
  have hg : u.gov r = s.gov r := congrArg (fun m : SMap Gov => m.get r) hgovs
  rw [hc, hsp, hcaps, ← hg]
  exact ⟨rfl, hspec, hev, hw⟩

theorem alertOff_acts {r : Nat} {s : State} (ha : (s.region r).caps.alert = true) :
    ((alertOff r s).region r).caps = { (s.region r).caps with alert := false, alertGone := true } ∧
    ((alertOff r s).gov r).rsupply.held &&& 4 = 0 ∧ (alertOff r s).out = s.out ∧ (alertOff r s).events = s.events := by
  unfold alertOff
  rw [if_pos ha]
  unfold State.holdRoll
  dsimp only
  rw [Bool.false_and, if_neg Bool.false_ne_true]
  refine ⟨congrArg Region.caps (State.modRegion_region_self s r _), ?_, rfl, rfl⟩
  rw [State.modGov_gov_self]
  show (((s.modRegion r _).gov r).rsupply.held &&& ~~~4) &&& 4 = 0
  generalize ((s.modRegion r _).gov r).rsupply.held = w
  rw [BitVec.and_assoc, show (~~~4 &&& 4 : BitVec 16) = 0 from rfl]
  exact BitVec.and_zero

/-! #### The obligation -/

theorem next_childAckTimeout {ch : Child} {n : Nat} {s : State} (hc : s.inControl = true)
    (hn : s.hub.budget.unack.get (childNo ch) = n) (hlo : 3 ≤ n) (hhi : n < 16) :
    ∃ t, exec (.childAckTimeout ch) s = .next t ∧ t.hub.budget.unack.get (childNo ch) = n + 16 ∧
      t.events = s.events ++ [{ src := 207, cause := 0 }] ∧ t.hub.budget.lStack = s.hub.budget.lStack ∧
      t.hub.budget.childFail.get (childNo ch) = 10 ∧
      (∀ k, ch = .stack k → t.hub.budget.tStack = s.hub.budget.tStack.set k 6 ∧ t.hub.budget.uOpt = s.hub.budget.uOpt) ∧
      ∀ k, ch = .optic k → t.hub.budget.uOpt = s.hub.budget.uOpt.set k 3 ∧ t.hub.budget.tStack = s.hub.budget.tStack := by
  refine ⟨_, next_journaled_const (childTimeout_counts hc hn hlo hhi), ?_⟩
  rw [journaled_hub, journaled_events]
  refine ⟨SMap.get_set_self .., rfl, rfl, SMap.get_set_self .., fun k hk => ?_, fun k hk => ?_⟩
  · subst hk
    rw [childNo_stack]
    exact ⟨if_pos k.isLt, if_neg (by have := k.isLt; omega)⟩
  · subst hk
    rw [childNo_optic]
    refine ⟨(if_pos (by omega)).trans ?_, if_neg (by omega)⟩
    rw [Nat.add_sub_cancel_left]

theorem next_tripComparatorAssert {s : State} {r : RegionId} (k : Fin 8) (hl : (s.region r).therm.latch = false) :
    ∃ t, exec (.tripComparatorAssert r k) s = .next t ∧
      (t.region r).therm.latch = true ∧ bitOf (t.region r).therm.comps.toNat k = true ∧
      (t.region r).therm.tripCnt = satAdd 0xFFFF (s.region r).therm.tripCnt 1 ∧ (t.region r).spec.state ≠ .standing ∧
      (∀ c j, (((t.region r).clusters.get c).limiters.get j).e = 0) ∧
      ((s.gov r).rtherm.held &&& 2 = 0 → { src := r, cause := 1 } ∈ t.events) := by
  refine ⟨_, rfl, ?_⟩
  rw [journaled_region, journaled_events]
  unfold tripAssert
  extract_lets was t
  have ht : t.region r = { s.region r with therm := { (s.region r).therm with
      comps := (s.region r).therm.comps ||| BitVec.ofNat 8 (2 ^ k.val) } } := State.modRegion_region_self ..
  obtain ⟨htherm, hclus, hspec, hev⟩ := tripLatch_trips (s := t) (r := r) (by rw [ht]; exact hl)
  rw [ht] at htherm hclus
  have hpins := thermPins_onlyOut was (tripLatch r t)
  have hreg : (thermPins was (tripLatch r t)).region r = (tripLatch r t).region r := by rw [hpins]; rfl
  have hevents : (thermPins was (tripLatch r t)).events = (tripLatch r t).events := by rw [hpins]
  rw [hreg, hevents, htherm, hclus]
  refine ⟨rfl, ?_, rfl, hspec, fun c j => tripped_limiters _ c j, hev⟩
  show bitOf ((s.region r).therm.comps ||| BitVec.ofNat 8 (2 ^ k.val)).toNat k = true
  rw [bitOf_eq_testBit, BitVec.testBit_toNat, BitVec.getLsbD_or, BitVec.getLsbD_ofNat, Nat.testBit_two_pow_self]
  simp [k.isLt]

theorem comparators_thermLow (s : State) (r : Nat) (f : BitVec 8 → BitVec 8) :
    (s.modRegion r (fun g => { g with therm := { g.therm with comps := f g.therm.comps } })).thermLow = s.thermLow := by
  have hlatch (k : Nat) : ((s.modRegion r (fun g => { g with therm := { g.therm with comps := f g.therm.comps } })).region k).therm.latch =
      (s.region k).therm.latch := by
    by_cases hk : k = r
    · rw [hk, State.modRegion_region_self]
    · rw [State.modRegion_region_ne _ _ hk]
  unfold State.thermLow State.anyTrip
  simp only [hlatch]
  rfl

/-- A further comparator of a region with its trip latched only shows in the comparators (R199). -/
theorem tripAssert_latched {s : State} {r k : Nat} (hl : (s.region r).therm.latch = true) : tripAssert r k s =
    s.modRegion r (fun g => { g with therm := { g.therm with comps := g.therm.comps ||| BitVec.ofNat 8 (2 ^ k) } }) := by
  have hpins := comparators_thermLow s r (· ||| BitVec.ofNat 8 (2 ^ k))
  unfold tripAssert
  extract_lets was t
  have ht : tripLatch r t = t := by
    unfold tripLatch
    dsimp only
    exact if_pos ((congrArg (fun g : Region => g.therm.latch) (State.modRegion_region_self s r _)).trans hl)
  rw [ht]
  unfold thermPins
  dsimp only
  exact if_pos hpins.symm

/-- Settles O44, by what each of the commands makes of the region: the loop's figures stand apart from the rest of a period's
work, which leaves them. -/
theorem heatIsKeptInBounds : Obligations.HeatIsKeptInBounds := by
  unfold Obligations.HeatIsKeptInBounds
  intro s r
  refine ⟨fun rd hs => ?_, fun arrays hs hc => ?_, fun ch n hc hn hlo hhi => next_childAckTimeout hc hn hlo hhi,
    fun k hl => next_tripComparatorAssert k hl, fun k hl => ?_, fun k => rfl, fun ha => ⟨_, rfl, alertOn_acts ha⟩,
    fun ha => ⟨_, rfl, alertOff_acts ha⟩⟩
  · obtain ⟨t, ht, hrun⟩ := next_waferPeriod rd hs
    exact ⟨t, ht, hrun.rails, hrun.evalRun, hrun.mean r, hrun.ceiling r, hrun.lowering⟩
  · obtain ⟨t, ht, hcnt, hnone, hsome, hlev⟩ := next_packagePeriod arrays r hs hc
    exact ⟨t, ht, hcnt, hnone, hsome, hlev⟩
  · refine congrArg Host.Outcome.next ((journaled_of_same ?_ ?_).trans (tripAssert_latched hl))
    · rw [tripAssert_latched hl]
      rfl
    · rw [tripAssert_latched hl]
      exact Nat.le_refl _

end Sys2Proof.Machine
end

