-- ==== Sys2Proof/Proofs/Margins.lean ====
section
/-!
SUPPORT. Regulator phases, margins, trims, the PMBus masters (R212 to R219, R224, R225, R458, R506).
-/

namespace Sys2Proof.Machine

/-! ### Regulator phases (R224, R225, R458, R506) -/

theorem transact_eq (s : State) (r : Nat) (tx : PmbusTx) : s.transact r tx =
    s.emit (.pmbus (cornerOf r) (r / 8 % 4) (if tx = .alertResponse then 0x0C else 0x40 + r % 4) tx) := rfl

/-- Nothing but the transactions leaves at a PMBus master. -/
theorem transactAll_onlyOut (s : State) (r : Nat) (failed : Bool) (txs : List PmbusTx) : OnlyOut s (s.transactAll r failed txs) := by
  unfold State.transactAll
  exact List.foldlRecOn (motive := OnlyOut s) _ _ (OnlyOut.refl s) fun b hb x _ => by
    have hx : OnlyOut b (b.transact r x) := rfl
    exact hb.trans hx

theorem raiseRoll_region (s : State) (r k b j : Nat) : (s.raiseRoll r k b).region j = s.region j := rfl

theorem phaseFails_out (r k : Nat) (s : State) : (phaseFails r k s).out = s.out := by
  unfold phaseFails
  dsimp only
  simp only [apply_ite State.out, State.raiseRoll_out, State.modRegion_out]
  cases (s.region r).ph.watch with
  | none => simp only [ite_self]
  | some w => simp only [apply_ite State.out, State.raiseRoll_out, State.modRegion_out, ite_self]

/-- A phase that carries current and fails makes a swap due while a spare is free (R224). -/
theorem phaseFails_swap {r k : Nat} {s : State} (hk : (s.region r).ph.active &&& (s.region r).ph.healthy &&& phaseBitOf k ≠ 0)
    (hf : k ∉ (s.region r).ph.failed) (hd : k ∉ (s.region r).ph.derateDue) (hfree : 0 < (s.region r).ph.sparesFree) :
    ((phaseFails r k s).region r).ph = { (s.region r).ph with failed := (s.region r).ph.failed ++ [k], swap := true } := by
  have hm : BitVec.ofNat 24 (2 ^ k) = phaseBitOf k := rfl
  unfold phaseFails
  rw [hm]
  dsimp only
  rw [if_neg (not_or.2 ⟨hf, hd⟩), if_pos hk, if_pos hfree]
  rw [raiseRoll_region, State.modRegion_region_self, State.modRegion_region_self]
  rfl

theorem onesOf_phaseBit (k : Fin 24) : onesOf 24 (phaseBitOf k).toNat = [k.val] := by
  revert k
  decide

theorem smbAlert_answered (r : Nat) (bad : BitVec 24) (s : State) :
    (smbAlert r bad false s).out = s.out ++ [.pmbus (cornerOf r) (r / 8 % 4) 0x0C .alertResponse,
      .pmbus (cornerOf r) (r / 8 % 4) (0x40 + r % 4) (.read 0x79), .pmbus (cornerOf r) (r / 8 % 4) (0x40 + r % 4) (.send 0x03)] := by
  have hfold (l : List Nat) (u : State) : (l.foldl (fun a k => phaseFails r k a) u).out = u.out :=
    List.foldlRecOn (motive := fun b : State => b.out = u.out) l _ rfl fun b hb k _ => (phaseFails_out r k b).trans hb
  unfold smbAlert
  dsimp only
  rw [if_neg Bool.false_ne_true, hfold]
  show ((s.out ++ [_]) ++ [_]) ++ [_] = _
  rw [List.append_assoc, List.append_assoc]
  rfl

theorem smbAlert_phases (r : Nat) (s : State) : ((smbAlert r 0 false s).region r).ph = (s.region r).ph := rfl

theorem smbAlert_swap {r : Nat} {s : State} {k : Fin 24} (hk : (s.region r).ph.active &&& (s.region r).ph.healthy &&& phaseBitOf k ≠ 0)
    (hf : k.val ∉ (s.region r).ph.failed) (hd : k.val ∉ (s.region r).ph.derateDue) (hfree : 0 < (s.region r).ph.sparesFree) :
    ((smbAlert r (phaseBitOf k) false s).region r).ph =
      { (s.region r).ph with failed := (s.region r).ph.failed ++ [k.val], swap := true } := by
  have ht := transactAll_onlyOut s r false [.alertResponse, .read 0x79, .send 0x03]
  have hr : (s.transactAll r false [.alertResponse, .read 0x79, .send 0x03]).region r = s.region r := by rw [ht]; rfl
  unfold smbAlert
  dsimp only
  rw [if_neg Bool.false_ne_true, onesOf_phaseBit]
  show ((phaseFails r k (s.transactAll r false [.alertResponse, .read 0x79, .send 0x03])).region r).ph = _
  rw [phaseFails_swap, hr]
  all_goals rw [hr]; assumption

theorem smbAlert_failed (r : Nat) (bad : BitVec 24) (s : State) : smbAlert r bad true s =
    ((s.emit (.pmbus (cornerOf r) (r / 8 % 4) 0x0C .alertResponse)).emit
      (.pmbus (cornerOf r) (r / 8 % 4) 0x0C .alertResponse)).raiseRoll r 1 8 := rfl

/-! #### Swaps and watches -/

theorem phaseSwap_swaps {r k j : Nat} {s : State} (hs : s.inControl = true) (hj : (s.region r).ph.lowestSpare = some j)
    (hk : k ∈ (s.region r).ph.failed) :
    let t := phaseSwap r k false s
    (t.region r).ph = { (s.region r).ph with
        active := ((s.region r).ph.active &&& ~~~(phaseBitOf k)) ||| phaseBitOf j
        healthy := ((s.region r).ph.healthy &&& ~~~(phaseBitOf k)) ||| phaseBitOf j
        spares := (s.region r).ph.spares &&& ~~~(phaseBitOf j), retired := (s.region r).ph.retired ||| phaseBitOf k
        failed := (s.region r).ph.failed.erase k, swap := decide ((s.region r).ph.failed.erase k ≠ []) } ∧
      Said t (.pmbus r (.swap (Fin.ofNat 24 j) (Fin.ofNat 24 k))) ∧ (t.region r).dig.nextPhase = 0 := by
  unfold phaseSwap
  dsimp only
  rw [hj]
  dsimp only
  rw [if_neg (by simp [hk, hs]), if_neg Bool.false_ne_true]
  generalize hu : (s.modPh r _).modRegion r restartRotation = u
  have hregion : u.region r = restartRotation ((s.modPh r (fun p => { p with
      active := (p.active &&& ~~~(phaseBitOf k)) ||| phaseBitOf j
      healthy := (p.healthy &&& ~~~(phaseBitOf k)) ||| phaseBitOf j
      spares := p.spares &&& ~~~(phaseBitOf j)
      retired := p.retired ||| phaseBitOf k
      failed := p.failed.erase k
      swap := decide (p.failed.erase k ≠ []) })).region r) := by
    rw [← hu]
    exact State.modRegion_region_self ..
  have howner : u.owner.isSome = true := by
    rw [← hu]
    exact owner_of_inControl hs
  have hsent (m : Msg) : (u.hubSend m).region r = u.region r :=
    congrArg (fun x : SMap Region => x.get r) (hubSend_onlyMessages u m).regions
  rw [hsent, hregion]
  unfold State.modPh
  rw [State.modRegion_region_self]
  exact ⟨rfl, hubSend_said howner _, rfl⟩

theorem phaseSwap_fails {r k j : Nat} {s : State} (hs : s.inControl = true) (hj : (s.region r).ph.lowestSpare = some j)
    (hk : k ∈ (s.region r).ph.failed) : phaseSwap r k true s = (s.modPh r (fun p => { p with
      failed := p.failed.erase k, swap := decide (p.failed.erase k ≠ []), derateDue := p.derateDue ++ [k] })).raiseRoll r 1 8 := by
  unfold phaseSwap
  dsimp only
  rw [hj]
  dsimp only
  rw [if_neg (by simp [hk, hs]), if_pos rfl]

theorem modPh_ph (s : State) (r : Nat) (f : Phases → Phases) : ((s.modPh r f).region r).ph = f (s.region r).ph :=
  congrArg Region.ph (State.modRegion_region_self s r _)

/-- Phases that change, and a command of it to the PMBus master. -/
theorem modPh_sends {s : State} (hs : s.inControl = true) (r : Nat) (f : Phases → Phases) (m : Msg) :
    (((s.modPh r f).hubSend m).region r).ph = f (s.region r).ph ∧ Said ((s.modPh r f).hubSend m) m := by
  have hsent : ((s.modPh r f).hubSend m).region r = (s.modPh r f).region r :=
    congrArg (fun x : SMap Region => x.get r) (hubSend_onlyMessages _ m).regions
  rw [hsent, modPh_ph]
  exact ⟨rfl, hubSend_said (s := s.modPh r f) (owner_of_inControl hs) m⟩

/-- What the end of a phase's watch makes of the region's phases (R225). -/
def Phases.watched (p : Phases) (k : Nat) (bad : Bool) : Phases :=
  if bad then { p with active := p.active &&& ~~~(phaseBitOf k), watch := none }
  else if 22 ≤ p.h then { p with active := p.active &&& ~~~(phaseBitOf k), retired := p.retired &&& ~~~(phaseBitOf k)
                                 spares := p.spares ||| phaseBitOf k, watch := none }
  else { p with rated := min p.rated p.h, healthy := p.healthy ||| phaseBitOf k, retired := p.retired &&& ~~~(phaseBitOf k), watch := none }

theorem watchEnd_ends {r k n : Nat} {bad : Bool} {s : State} (hs : s.inControl = true)
    (hw : (s.region r).ph.watch = some (k, n, bad)) (he : bad = true ∨ n = 0) :
    ((watchEnd r s).region r).ph = (s.region r).ph.watched k bad ∧
      ((bad = true ∨ 22 ≤ (s.region r).ph.h) → Said (watchEnd r s) (.pmbus r (.phaseDisable (Fin.ofNat 24 k)))) := by
  unfold watchEnd Phases.watched
  rw [if_pos hs, hw]
  dsimp only
  cases bad with
  | true =>
    obtain ⟨hp, hsaid⟩ := modPh_sends hs r (fun p => { p with active := p.active &&& ~~~(phaseBitOf k), watch := none })
      (.pmbus r (.phaseDisable (Fin.ofNat 24 k)))
    exact ⟨hp, fun _ => hsaid⟩
  | false =>
    rw [if_neg Bool.false_ne_true, if_neg (by simpa using he), if_neg Bool.false_ne_true]
    by_cases hh : 22 ≤ (s.region r).ph.h
    · rw [if_pos hh, if_pos hh]
      obtain ⟨hp, hsaid⟩ := modPh_sends hs r (fun p => { p with
        active := p.active &&& ~~~(phaseBitOf k), retired := p.retired &&& ~~~(phaseBitOf k), spares := p.spares ||| phaseBitOf k
        watch := none }) (.pmbus r (.phaseDisable (Fin.ofNat 24 k)))
      exact ⟨hp, fun _ => hsaid⟩
    · rw [if_neg hh, if_neg hh]
      exact ⟨modPh_ph .., fun h => (h.resolve_left Bool.false_ne_true |> hh).elim⟩

/-! ### Margins and trims of one region (R212 to R219) -/

/-- Work on one region's margin and trim: no other region changes, and of the machine only what is named here. -/
structure OnRegion (k : Nat) (s t : State) : Prop where
  frame  : t = { s with
    regions := t.regions, govs := t.govs, hub := t.hub, events := t.events, latches := t.latches, fresh := t.fresh, out := t.out
    await := t.await, seqs := t.seqs, hubLast := t.hubLast, pair := t.pair }
  others : ∀ j, j ≠ k → t.region j = s.region j
  calm   : ∀ j, (t.gov j).engine = (s.gov j).engine ∧ (t.gov j).safe = (s.gov j).safe
  ageing : t.hub.ageing = s.hub.ageing
  grows  : Grows s t

variable {k : Nat}

theorem OnRegion.refl (s : State) : OnRegion k s s := ⟨rfl, fun _ _ => rfl, fun _ => ⟨rfl, rfl⟩, rfl, .refl s⟩

theorem OnRegion.trans {s t u : State} (h₁ : OnRegion k s t) (h₂ : OnRegion k t u) : OnRegion k s u :=
  ⟨h₂.frame.trans (by rw [h₁.frame]), fun j hj => (h₂.others j hj).trans (h₁.others j hj),
    fun j => ⟨(h₂.calm j).1.trans (h₁.calm j).1, (h₂.calm j).2.trans (h₁.calm j).2⟩, h₂.ageing.trans h₁.ageing,
    h₁.grows.trans h₂.grows⟩

theorem OnRegion.ite {c : Prop} [Decidable c] {s t u : State} (h₁ : OnRegion k s t) (h₂ : OnRegion k s u) :
    OnRegion k s (if c then t else u) := by
  split
  · exact h₁
  · exact h₂

theorem OnRegion.modRegion (f : Region → Region) (s : State) : OnRegion k s (s.modRegion k f) :=
  ⟨rfl, fun _ hj => State.modRegion_region_ne _ _ hj, fun _ => ⟨rfl, rfl⟩, rfl, (Grows.refl s).of_eq rfl rfl⟩

theorem modRoll_calm (j k : Nat) (f : RollUp → RollUp) (r : Nat) (s : State) :
    ((s.modGov r (fun g => g.modRoll k f)).gov j).engine = (s.gov j).engine ∧
      ((s.modGov r (fun g => g.modRoll k f)).gov j).safe = (s.gov j).safe := by
  have hroll (g : Gov) : (g.modRoll k f).engine = g.engine ∧ (g.modRoll k f).safe = g.safe := by
    unfold Gov.modRoll
    split <;> exact ⟨rfl, rfl⟩
  by_cases hj : j = r
  · rw [hj, State.modGov_gov_self]
    exact hroll _
  · rw [State.modGov_gov_ne _ _ hj]
    exact ⟨rfl, rfl⟩

theorem OnRegion.modRoll (r i : Nat) (f : RollUp → RollUp) (s : State) : OnRegion k s (s.modGov r (fun g => g.modRoll i f)) :=
  ⟨rfl, fun _ _ => rfl, fun j => modRoll_calm j i f r s, rfl, (Grows.refl s).of_eq rfl rfl⟩

theorem OnRegion.raiseRoll (r i b : Nat) (s : State) : OnRegion k s (s.raiseRoll r i b) :=
  (OnRegion.modRoll r i _ s).trans ⟨rfl, fun _ _ => rfl, fun _ => ⟨rfl, rfl⟩, rfl, (Grows.refl _).of_eq rfl rfl⟩

theorem OnRegion.holdRoll (r i b : Nat) (on : Bool) (s : State) : OnRegion k s (s.holdRoll r i b on) := by
  unfold State.holdRoll
  dsimp only
  exact .ite ((OnRegion.modRoll r i _ s).trans (.raiseRoll ..)) (.modRoll r i _ s)

theorem OnRegion.hubEmit (s : State) (e : Effect) : OnRegion k s (s.hubEmit e) := by
  refine ⟨?_, fun j _ => ?_, fun j => ?_, ?_, (Grows.refl s).hubEmit e⟩
  · rw [hubEmit_eq]
  · rw [hubEmit_eq]
    rfl
  · rw [hubEmit_eq]
    exact ⟨rfl, rfl⟩
  · rw [hubEmit_eq]

theorem OnRegion.hubSend (s : State) (m : Msg) : OnRegion k s (s.hubSend m) := by
  have hm := hubSend_onlyMessages s m
  refine ⟨?_, fun j _ => ?_, fun j => ?_, ?_, (Grows.refl s).hubSend m⟩
  · rw [hm]
  · rw [hm]
    rfl
  · rw [hm]
    exact ⟨rfl, rfl⟩
  · rw [hm]

theorem OnRegion.telemetry (s : State) (type region : Nat) (body : List Byte) (sub : Bool) :
    OnRegion k s (s.telemetry type region body sub) := by
  have hg := (Grows.refl s).telemetry type region body sub
  unfold State.telemetry at hg ⊢
  split
  · exact .refl s
  · next h₁ =>
    rw [if_neg h₁] at hg
    split
    · next h₂ =>
      rw [if_pos h₂] at hg
      exact ⟨rfl, fun _ _ => rfl, fun _ => ⟨rfl, rfl⟩, rfl, hg⟩
    · next h₂ =>
      rw [if_neg h₂] at hg
      exact ⟨rfl, fun _ _ => rfl, fun _ => ⟨rfl, rfl⟩, rfl, hg⟩

theorem exportTrims_onRegion (s : State) : OnRegion k s (exportTrims s) := by
  unfold exportTrims
  dsimp only
  exact .trans (.ite (.refl s) (.hubEmit ..)) (.telemetry ..)

theorem readAges_onRegion (taps : AgeReads) (s : State) : OnRegion k s (readAges taps k s) := by
  unfold readAges
  dsimp only
  exact .ite ((OnRegion.modRegion _ s).trans ((OnRegion.modRegion _ _).trans (.raiseRoll ..))) (.modRegion _ s)

theorem setTrimState_onRegion (x : TrimState) (s : State) : OnRegion k s (setTrimState k x s) :=
  (OnRegion.modRegion _ s).trans (.holdRoll ..)

theorem recomputeTrim_onRegion (s : State) : OnRegion k s (recomputeTrim k s) := by
  unfold recomputeTrim
  dsimp only
  exact .ite ((OnRegion.modRegion _ s).trans (setTrimState_onRegion ..))
    (.ite ((OnRegion.modRegion _ s).trans (setTrimState_onRegion ..)) (.modRegion _ s))

theorem exhaust_onRegion (s : State) : OnRegion k s (exhaust k s) :=
  (((OnRegion.modRegion _ s).trans (setTrimState_onRegion ..)).trans (recomputeTrim_onRegion _)).trans (.modRegion ..)

theorem leaveExhausted_onRegion (s : State) : OnRegion k s (leaveExhausted k s) := by
  unfold leaveExhausted
  dsimp only
  exact .ite ((OnRegion.modRegion _ s).trans (setTrimState_onRegion ..)) (.refl s)

theorem recomputeRead_onRegion (taps : AgeReads) (s : State) : OnRegion k s (recomputeRead taps k s) := by
  unfold recomputeRead
  dsimp only
  exact .ite ((readAges_onRegion taps s).trans (exhaust_onRegion _))
    ((readAges_onRegion taps s).trans ((recomputeTrim_onRegion _).trans (leaveExhausted_onRegion _)))

theorem OnRegion.cfg {s t : State} (h : OnRegion k s t) (off lo width : Nat) : t.cfg off lo width = s.cfg off lo width := by
  rw [h.frame]
  rfl

theorem OnRegion.owner {s t : State} (h : OnRegion k s t) : t.owner = s.owner := by
  rw [h.frame]
  rfl

/-! #### The region's own margin and trim -/

/-- The margin and the trim of a region, its readings apart: a trim is never lowered, and it stays within `top`. -/
structure Retrimmed (top : Nat) (g g' : Region) : Prop where
  clusters : g'.clusters = g.clusters
  block    : g'.margin.block = g.margin.block
  newM     : g'.margin.newM = g.margin.newM
  goStatic : g.margin.goStatic = true → g'.margin.goStatic = true
  rise     : g.sp.trim ≤ g'.sp.trim
  bound    : g.sp.trim ≤ top → g'.sp.trim ≤ top

theorem Retrimmed.refl (top : Nat) (g : Region) : Retrimmed top g g := ⟨rfl, rfl, rfl, id, Nat.le_refl _, id⟩

theorem Retrimmed.trans {top : Nat} {g h i : Region} (h₁ : Retrimmed top g h) (h₂ : Retrimmed top h i) : Retrimmed top g i :=
  ⟨h₂.clusters.trans h₁.clusters, h₂.block.trans h₁.block, h₂.newM.trans h₁.newM, h₂.goStatic ∘ h₁.goStatic,
    h₁.rise.trans h₂.rise, h₂.bound ∘ h₁.bound⟩

theorem setTrimState_retrimmed (top : Nat) (x : TrimState) (s : State) :
    Retrimmed top (s.region k) ((setTrimState k x s).region k) := by
  have hroll (t : State) (on : Bool) : (t.holdRoll k 1 5 on).region k = t.region k :=
    congrArg (fun m : SMap Region => m.get k) (State.holdRoll_regions ..)
  unfold setTrimState
  dsimp only
  rw [hroll, State.modRegion_region_self]
  split
  · exact ⟨rfl, rfl, rfl, fun h => by rw [h]; rfl, Nat.le_refl _, id⟩
  · exact ⟨rfl, rfl, rfl, fun h => by
      show ((s.region k).margin.goStatic || _) = true
      rw [h]
      rfl, Nat.le_refl _, id⟩

theorem modTrim_retrimmed {top n : Nat} {s : State} (hn : (s.region k).sp.trim ≤ n) (ht : (s.region k).sp.trim ≤ top → n ≤ top) :
    Retrimmed top (s.region k) ((s.modRegion k (fun g => g.modSp (fun p => { p with trim := n }))).region k) := by
  rw [State.modRegion_region_self]
  exact ⟨rfl, rfl, rfl, id, hn, ht⟩

theorem foldl_max_ge (f : Nat → Nat) (l : List Nat) (n : Nat) : n ≤ l.foldl (fun acc c => max acc (f c)) n :=
  List.foldlRecOn (motive := fun x => n ≤ x) l _ (Nat.le_refl n) fun _ hb _ _ => hb.trans (Nat.le_max_left ..)

theorem recomputeTrim_retrimmed (s : State) : Retrimmed (s.cfg 0x6000 24 7) (s.region k) ((recomputeTrim k s).region k) := by
  unfold recomputeTrim
  extract_lets g tap ro top ref need t
  have hneed : g.sp.trim ≤ need := foldl_max_ge ..
  clear_value need
  by_cases h : top < need
  · rw [if_pos h]
    exact (modTrim_retrimmed (n := max g.sp.trim top) (Nat.le_max_left ..) (fun h => Nat.max_le.2 ⟨h, Nat.le_refl _⟩)).trans (setTrimState_retrimmed ..)
  · rw [if_neg h]
    have ht : Retrimmed top g (t.region k) := modTrim_retrimmed hneed (fun _ => Nat.le_of_not_lt h)
    split
    · exact ht.trans (setTrimState_retrimmed ..)
    · exact ht

theorem exhaust_retrimmed (s : State) : Retrimmed (s.cfg 0x6000 24 7) (s.region k) ((exhaust k s).region k) ∧
    ((exhaust k s).region k).margin.goStatic = true := by
  unfold exhaust
  extract_lets before t t'
  have h₁ : Retrimmed (s.cfg 0x6000 24 7) ((s.modRegion k (fun g => { g with margin := { g.margin with goStatic := true } })).region k)
      (t.region k) := setTrimState_retrimmed ..
  have h₂ : Retrimmed (s.cfg 0x6000 24 7) (t.region k) (t'.region k) := by
    have hcfg : t.cfg 0x6000 24 7 = s.cfg 0x6000 24 7 := ((OnRegion.modRegion (k := k) _ s).trans (setTrimState_onRegion ..)).cfg ..
    rw [← hcfg]
    exact recomputeTrim_retrimmed t
  have h₀ : Retrimmed (s.cfg 0x6000 24 7) (s.region k)
      ((s.modRegion k (fun g => { g with margin := { g.margin with goStatic := true } })).region k) := by
    rw [State.modRegion_region_self]
    exact ⟨rfl, rfl, rfl, fun _ => rfl, Nat.le_refl _, id⟩
  clear_value t'
  have hstatic : (t'.region k).margin.goStatic = true := (h₁.trans h₂).goStatic (by rw [State.modRegion_region_self])
  rw [State.modRegion_region_self]
  exact ⟨((h₀.trans h₁).trans h₂).trans ⟨rfl, rfl, rfl, id, Nat.le_refl _, id⟩, hstatic⟩

theorem leaveExhausted_retrimmed (top : Nat) (s : State) : Retrimmed top (s.region k) ((leaveExhausted k s).region k) := by
  unfold leaveExhausted
  dsimp only
  split
  · refine Retrimmed.trans ?_ (setTrimState_retrimmed ..)
    rw [State.modRegion_region_self]
    exact ⟨rfl, rfl, rfl, id, Nat.le_refl _, id⟩
  · exact .refl ..

/-- The readings change no margin and no trim. -/
theorem readAges_region (taps : AgeReads) (s : State) : ((readAges taps k s).region k).sp = (s.region k).sp ∧
    ((readAges taps k s).region k).margin.block = (s.region k).margin.block ∧
    ((readAges taps k s).region k).margin.newM = (s.region k).margin.newM := by
  unfold readAges
  dsimp only
  split
  · rw [raiseRoll_region, State.modRegion_region_self, State.modRegion_region_self]
    exact ⟨rfl, rfl, rfl⟩
  · rw [State.modRegion_region_self]
    exact ⟨rfl, rfl, rfl⟩

/-! ### Margin evaluations and ageing intervals (R212 to R219) -/

variable {k : Nat}

theorem exportTrims_region (s : State) (j : Nat) : (exportTrims s).region j = s.region j := by
  have hregions : (exportTrims s).regions = s.regions := by
    unfold exportTrims
    dsimp only
    rw [(RaisesOnly.telemetry ..).regions]
    split
    · rfl
    · exact (LevelsKept.hubEmit s _).regions
  exact congrArg (fun m : SMap Region => m.get j) hregions

theorem leastSlack_congr {g g' : Region} (h : g'.clusters = g.clusters) : g'.leastSlack = g.leastSlack := by
  unfold Region.leastSlack
  rw [h]

/-- What one region's evaluation makes of it (R212 to R216). -/
structure Evaluated (k : Nat) (s t : State) : Prop where
  block  : (t.region k).margin.block = (s.region k).margin.sticky ||| BitVec.ofNat 7 (s.blockNow k)
  kept   : (t.region k).margin.block ≠ 0 → (t.region k).margin.newM = (s.region k).margin.newM
  lower  : ∀ n, (t.region k).margin.block = 0 → (t.region k).leastSlack = some n → 0 < n → s.cfg 0x6000 16 4 ≤ n →
    s.cfg 0x6000 0 8 < (s.region k).sp.m → (t.region k).clusters.any 576 Cluster.excluded = false →
    (t.region k).margin.newM = some ((s.region k).sp.m - 1) ∧ Said t (.margin k ((s.region k).sp.m - 1))
  static : (t.region k).margin.block = 0 → (t.region k).leastSlack = some 0 → (t.region k).margin.goStatic = true

/-- Where the slack allows it, m goes down by one (R214). -/
theorem marginStep_down {n m slackMin tapMv marginMin : Nat} (hs : slackMin ≤ n) (hm : marginMin < m) :
    marginStep n m slackMin tapMv marginMin true = (m - 1, false) := by
  unfold marginStep
  rw [if_neg (Nat.not_lt.2 hs), if_pos ⟨hm, rfl⟩]

/-- The m that an evaluation sends (R212, R214). -/
def sendMargin (k m' : Nat) (s : State) : State :=
  if m' = (s.region k).sp.m then s
  else (s.modRegion k (fun g => { g with margin := { g.margin with newM := some m' } })).hubSend (.margin k m')

theorem sendMargin_region (k m' : Nat) (s : State) :
    ((sendMargin k m' s).region k).clusters = (s.region k).clusters ∧
      ((sendMargin k m' s).region k).margin.block = (s.region k).margin.block ∧
      (m' ≠ (s.region k).sp.m → ((sendMargin k m' s).region k).margin.newM = some m' ∧
        (s.owner.isSome = true → Said (sendMargin k m' s) (.margin k m'))) := by
  unfold sendMargin
  split
  · next h => exact ⟨rfl, rfl, fun hne => absurd h hne⟩
  · generalize hu : s.modRegion k (fun g => { g with margin := { g.margin with newM := some m' } }) = u
    have hsent : (u.hubSend (.margin k m')).region k = u.region k :=
      congrArg (fun x : SMap Region => x.get k) (hubSend_onlyMessages u _).regions
    have hregion : u.region k = { s.region k with margin := { (s.region k).margin with newM := some m' } } := by
      rw [← hu]
      exact State.modRegion_region_self ..
    rw [hsent, hregion]
    refine ⟨rfl, rfl, fun _ => ⟨rfl, fun ho => hubSend_said ?_ _⟩⟩
    rw [← hu]
    exact ho

theorem sendMargin_onRegion (m' : Nat) (s : State) : OnRegion k s (sendMargin k m' s) :=
  .ite (.refl s) ((OnRegion.modRegion _ s).trans (.hubSend ..))

/-- The evaluation after its readings, where nothing blocks it. -/
def evaluateRead (k : Nat) (s : State) : State :=
  let g := s.region k
  match g.leastSlack with
  | none => s
  | some 0 => exportTrims (exhaust k s)
  | some n =>
    let m := g.sp.m
    let whole := !(g.clusters.any 576 Cluster.excluded)
    let (m', short) := marginStep n m (s.cfg 0x6000 16 4) (s.cfg 0x6004 0 8) (s.cfg 0x6000 0 8) whole
    let t := if m' = m then s
      else (s.modRegion k (fun g => { g with margin := { g.margin with newM := some m' } })).hubSend (.margin k m')
    if short ∧ m < m' then t.raiseRoll k 1 4 else t

theorem evaluateMargin_eq (taps : AgeReads) (k : Nat) (s : State) : evaluateMargin taps k s =
    let now := BitVec.ofNat 7 (s.blockNow k)
    let t := s.modRegion k (fun g => { g with margin := { g.margin with
      block := (s.region k).margin.sticky ||| now, sticky := now } })
    if (s.region k).margin.sticky ||| now ≠ 0 then t else evaluateRead k (readAges taps k t) := by
  unfold evaluateMargin
  dsimp only
  generalize readAges taps k _ = u
  rfl

/-- The m that an evaluation reaches, sent, with the fault of a short reading. -/
def moveMargin (k : Nat) (x : Nat × Bool) (s : State) : State :=
  if x.2 ∧ (s.region k).sp.m < x.1 then (sendMargin k x.1 s).raiseRoll k 1 4 else sendMargin k x.1 s

theorem evaluateRead_cases (k : Nat) (s : State) :
    (s.region k).leastSlack = none ∧ evaluateRead k s = s ∨
    (s.region k).leastSlack = some 0 ∧ evaluateRead k s = exportTrims (exhaust k s) ∨
    ∃ n, 0 < n ∧ (s.region k).leastSlack = some n ∧ evaluateRead k s = moveMargin k
      (marginStep n (s.region k).sp.m (s.cfg 0x6000 16 4) (s.cfg 0x6004 0 8) (s.cfg 0x6000 0 8)
        (!((s.region k).clusters.any 576 Cluster.excluded))) s := by
  unfold evaluateRead
  dsimp only
  split
  · next h => exact .inl ⟨h, rfl⟩
  · next h => exact .inr (.inl ⟨h, rfl⟩)
  · next n hn h =>
    refine .inr (.inr ⟨n, Nat.pos_of_ne_zero fun h0 => hn h0, h, ?_⟩)
    generalize marginStep n _ _ _ _ _ = x
    unfold moveMargin sendMargin
    rfl

theorem evaluateRead_onRegion (s : State) : OnRegion k s (evaluateRead k s) := by
  obtain ⟨-, h⟩ | ⟨-, h⟩ | ⟨n, -, -, h⟩ := evaluateRead_cases k s
  · rw [h]
    exact .refl s
  · rw [h]
    exact (exhaust_onRegion s).trans (exportTrims_onRegion _)
  · rw [h]
    exact .ite ((sendMargin_onRegion ..).trans (.raiseRoll ..)) (sendMargin_onRegion ..)

theorem evaluateMargin_onRegion (taps : AgeReads) (s : State) : OnRegion k s (evaluateMargin taps k s) := by
  rw [evaluateMargin_eq]
  exact .ite (.modRegion ..) ((OnRegion.modRegion _ s).trans ((readAges_onRegion taps _).trans (evaluateRead_onRegion _)))

theorem evaluateRead_acts {s : State} (ho : s.owner.isSome = true) :
    ((evaluateRead k s).region k).margin.block = (s.region k).margin.block ∧
    (∀ n, ((evaluateRead k s).region k).leastSlack = some n → 0 < n → s.cfg 0x6000 16 4 ≤ n → s.cfg 0x6000 0 8 < (s.region k).sp.m →
      ((evaluateRead k s).region k).clusters.any 576 Cluster.excluded = false →
      ((evaluateRead k s).region k).margin.newM = some ((s.region k).sp.m - 1) ∧
        Said (evaluateRead k s) (.margin k ((s.region k).sp.m - 1))) ∧
    (((evaluateRead k s).region k).leastSlack = some 0 → ((evaluateRead k s).region k).margin.goStatic = true) := by
  obtain ⟨h, he⟩ | ⟨h, he⟩ | ⟨n, hn, h, he⟩ := evaluateRead_cases k s
  · rw [he, h]
    exact ⟨rfl, fun n hn => absurd hn (Option.some_ne_none n).symm, fun hn => absurd hn (Option.some_ne_none 0).symm⟩
  · obtain ⟨hret, hstatic⟩ := exhaust_retrimmed (k := k) s
    rw [he, exportTrims_region, leastSlack_congr hret.clusters, h]
    exact ⟨hret.block, fun n hn hpos => absurd (Option.some.inj hn) (Nat.ne_of_lt hpos), fun _ => hstatic⟩
  · rw [he]
    generalize hx : marginStep n (s.region k).sp.m (s.cfg 0x6000 16 4) (s.cfg 0x6004 0 8) (s.cfg 0x6000 0 8)
      (!((s.region k).clusters.any 576 Cluster.excluded)) = x
    obtain ⟨hclus, hblock, hsend⟩ := sendMargin_region k x.1 s
    obtain ⟨hr, hg⟩ : (moveMargin k x s).region k = (sendMargin k x.1 s).region k ∧ Grows (sendMargin k x.1 s) (moveMargin k x s) := by
      unfold moveMargin
      split
      · exact ⟨rfl, (Grows.refl _).of_eq rfl rfl⟩
      · exact ⟨rfl, .refl _⟩
    rw [hr, leastSlack_congr hclus, hclus, h]
    refine ⟨hblock, fun j hj _ hslack hm hexc => ?_, fun h0 => absurd (Option.some.inj h0) (Nat.ne_of_gt hn)⟩
    cases hj
    rw [hexc, Bool.not_false, marginStep_down hslack hm] at hx
    subst hx
    obtain ⟨hnew, hsaid⟩ := hsend (by dsimp only; omega)
    exact ⟨hnew, (hsaid ho).imp fun _ hl => hg.leaves hl⟩

theorem evaluateMargin_evaluated (taps : AgeReads) {s : State} (ho : s.owner.isSome = true) :
    Evaluated k s (evaluateMargin taps k s) := by
  rw [evaluateMargin_eq]
  extract_lets now t
  have ht : t.region k = { s.region k with margin := { (s.region k).margin with
      block := (s.region k).margin.sticky ||| now, sticky := now } } := State.modRegion_region_self ..
  by_cases hb : (s.region k).margin.sticky ||| now ≠ 0
  · rw [if_pos hb]
    refine ⟨?_, fun _ => ?_, fun n h0 => ?_, fun h0 => ?_⟩
    · rw [ht]
    · rw [ht]
    · rw [ht] at h0
      exact absurd h0 hb
    · rw [ht] at h0
      exact absurd h0 hb
  · rw [if_neg hb]
    obtain ⟨hsp, hblock, -⟩ := readAges_region (k := k) taps t
    have hon : OnRegion k s (readAges taps k t) := (OnRegion.modRegion _ s).trans (readAges_onRegion taps t)
    obtain ⟨hb', hlower, hstatic⟩ := evaluateRead_acts (k := k) (s := readAges taps k t) (by rw [hon.owner]; exact ho)
    rw [hsp, hon.cfg, hon.cfg, ht] at hlower
    have hall : ((evaluateRead k (readAges taps k t)).region k).margin.block = (s.region k).margin.sticky ||| now := by
      rw [hb', hblock, ht]
    exact ⟨hall, fun h => absurd (fun h0 => h (hall.trans h0)) hb, fun n _ => hlower n, fun _ => hstatic⟩

theorem OnRegion.blockNow {j : Nat} {s t : State} (h : OnRegion k s t) (hj : j ≠ k) : t.blockNow j = s.blockNow j := by
  have hcoast : t.coasting = s.coasting := by
    rw [h.frame]
    rfl
  unfold State.blockNow State.emergencyAt
  rw [h.others j hj, (h.calm j).1, (h.calm j).2, hcoast]

/-- A fold of work on one region each: a region is what its own work makes of it, and the machine stays as before. -/
theorem foldl_onRegion {step : State → Nat → State} (h : ∀ a k, OnRegion k a (step a k)) {r n : Nat} (hr : r < n) (s : State) :
    let a := (List.range r).foldl step s
    a.region r = s.region r ∧ a.owner = s.owner ∧ (∀ off lo width, a.cfg off lo width = s.cfg off lo width) ∧
      a.blockNow r = s.blockNow r ∧ a.hub.ageing = s.hub.ageing ∧
      ((List.range n).foldl step s).region r = (step a r).region r ∧ Grows (step a r) ((List.range n).foldl step s) ∧
      ((List.range n).foldl step s).hub.ageing = s.hub.ageing := by
  have hne : ∀ a j k, k ≠ j → (step a j).region k = a.region k := fun a j k hk => (h a j).others k hk
  obtain ⟨hbefore, hvisit⟩ := foldl_range_prefix hne hr s
  have hageing (l : List Nat) : (l.foldl step s).hub.ageing = s.hub.ageing :=
    List.foldlRecOn (motive := fun b : State => b.hub.ageing = s.hub.ageing) l step rfl fun b hb k _ => (h b k).ageing.trans hb
  refine ⟨hbefore, ?_, fun off lo width => ?_, ?_, hageing _, hvisit, ?_, hageing _⟩
  · exact List.foldlRecOn (motive := fun b : State => b.owner = s.owner) (List.range r) step rfl fun b hb k _ => (h b k).owner.trans hb
  · exact List.foldlRecOn (motive := fun b : State => b.cfg off lo width = s.cfg off lo width) (List.range r) step rfl
      fun b hb k _ => ((h b k).cfg ..).trans hb
  · exact List.foldlRecOn (motive := fun b : State => b.blockNow r = s.blockNow r) (List.range r) step rfl
      fun b hb k hk => ((h b k).blockNow (Nat.ne_of_gt (List.mem_range.1 hk))).trans hb
  · obtain ⟨m, rfl⟩ := Nat.exists_eq_add_of_lt hr
    have hsplit : List.range (r + m + 1) = List.range (r + 1) ++ (List.range m).map (r + 1 + ·) := by
      rw [show r + m + 1 = (r + 1) + m by omega, List.range_add]
    rw [hsplit, List.foldl_append, List.range_succ, List.foldl_concat]
    exact Grows.foldl (fun a k hg => hg.trans (h a k).grows) _ (.refl _)

theorem marginEvaluation_evaluated (taps : AgeReads) {s : State} (hs : s.loopRuns = true) (hd : s.cfg 0x6000 8 8 ≤ s.hub.ageing.evalRun)
    (r : RegionId) : Evaluated r s (marginEvaluation taps s) ∧ (marginEvaluation taps s).hub.ageing.evalRun = 0 := by
  have hstep (a : State) (k : Nat) : OnRegion k a (evaluateMargin taps k a) := evaluateMargin_onRegion taps a
  obtain ⟨hreg, howner, hcfg, hblock, -, hvisit, hgrows, hageing⟩ := foldl_onRegion hstep r.isLt (s.modAgeing (fun a => { a with evalRun := 0 }))
  have hm : marginEvaluation taps s = (List.range 64).foldl (fun a r => evaluateMargin taps r a)
      (s.modAgeing (fun a => { a with evalRun := 0 })) := by
    unfold marginEvaluation
    rw [if_neg (by simp only [hs, not_or]; exact ⟨Bool.noConfusion, Nat.not_lt.2 hd⟩)]
  rw [hm]
  generalize (List.range r).foldl (fun a r => evaluateMargin taps r a) (s.modAgeing (fun a => { a with evalRun := 0 })) = a
    at hreg howner hcfg hblock hvisit hgrows
  have hown : a.owner.isSome = true := by
    rw [howner]
    exact owner_of_inControl (inControl_of_loopRuns hs)
  obtain ⟨hb, hk, hl, hst⟩ := evaluateMargin_evaluated (k := r) taps hown
  have hregion : a.region r = s.region r := hreg
  have hcfg' (off lo width : Nat) : a.cfg off lo width = s.cfg off lo width := hcfg off lo width
  have hblock' : a.blockNow r = s.blockNow r := hblock
  rw [hregion, hblock'] at hb
  rw [hregion] at hk hl
  rw [hcfg', hcfg'] at hl
  refine ⟨⟨?_, ?_, ?_, ?_⟩, ?_⟩
  · rw [hvisit]
    exact hb
  · rw [hvisit]
    exact hk
  · rw [hvisit]
    intro n h0 hn hpos hslack hm hexc
    obtain ⟨hnew, hsaid⟩ := hl n h0 hn hpos hslack hm hexc
    exact ⟨hnew, hsaid.imp fun _ h => hgrows.leaves h⟩
  · rw [hvisit]
    exact hst
  · rw [hageing]
    rfl

/-! #### Ageing intervals (R78, R219) -/

theorem recomputeRead_trim (taps : AgeReads) (s : State) :
    (s.region k).sp.trim ≤ ((recomputeRead taps k s).region k).sp.trim ∧
      ((s.region k).sp.trim ≤ s.cfg 0x6000 24 7 → ((recomputeRead taps k s).region k).sp.trim ≤ s.cfg 0x6000 24 7) := by
  obtain ⟨hsp, -, -⟩ := readAges_region (k := k) taps s
  have hcfg := (readAges_onRegion (k := k) taps s).cfg 0x6000 24 7
  unfold recomputeRead
  dsimp only
  generalize readAges taps k s = u at hsp hcfg ⊢
  have hret : Retrimmed (s.cfg 0x6000 24 7) (u.region k)
      ((if (u.region k).leastSlack = some 0 then exhaust k u else leaveExhausted k (recomputeTrim k u)).region k) := by
    rw [← hcfg]
    split
    · exact (exhaust_retrimmed u).1
    · exact (recomputeTrim_retrimmed u).trans (leaveExhausted_retrimmed ..)
  rw [← hsp]
  exact ⟨hret.rise, hret.bound⟩

theorem ageingInterval_acts (taps : AgeReads) {s : State} (hs : s.loopRuns = true) (he : s.enginesRun = true)
    (hn : s.hub.ageing.nextAt ≤ s.hub.ageing.poweredS.toNat) (r : RegionId) :
    let t := ageingInterval taps s
    t.hub.ageing.intervals = s.hub.ageing.intervals + 1 ∧ t.hub.ageing.nextAt = s.hub.ageing.nextAt + 86400 ∧
      (s.region r).sp.trim ≤ (t.region r).sp.trim ∧
      ((s.region r).sp.trim ≤ s.cfg 0x6000 24 7 → (t.region r).sp.trim ≤ s.cfg 0x6000 24 7) := by
  have hstep (a : State) (k : Nat) : OnRegion k a (recomputeRead taps k a) := recomputeRead_onRegion taps a
  obtain ⟨hreg, -, hcfg, -, -, hvisit, -, hageing⟩ := foldl_onRegion hstep r.isLt s
  have ht : ageingInterval taps s = exportTrims (((List.range 64).foldl (fun a r => recomputeRead taps r a) s).modAgeing
      (fun a => { a with intervals := a.intervals + 1, nextAt := a.nextAt + 86400 })) := by
    unfold ageingInterval
    rw [if_neg (by simp only [hs, he, not_or]; exact ⟨Bool.noConfusion, Bool.noConfusion, Nat.not_lt.2 hn⟩)]
  dsimp only
  rw [ht]
  generalize (List.range 64).foldl (fun a r => recomputeRead taps r a) s = u at hvisit hageing
  generalize (List.range r).foldl (fun a r => recomputeRead taps r a) s = a at hreg hcfg hvisit
  rw [exportTrims_region, (exportTrims_onRegion (k := 0) _).ageing]
  show u.hub.ageing.intervals + 1 = _ ∧ u.hub.ageing.nextAt + 86400 = _ ∧ _ ≤ (u.region r).sp.trim ∧ (_ → (u.region r).sp.trim ≤ _)
  obtain ⟨hrise, hbound⟩ := recomputeRead_trim (k := r) taps a
  rw [hageing, hvisit, ← hreg, ← hcfg]
  exact ⟨rfl, rfl, hrise, hbound⟩

/-! ### The PMBus masters (R457, R458, R506) -/

/-- A governor takes the header of a message that it acts on. -/
theorem next_pmbusCommand {r : RegionId} {hdr : MsgHdr} {s : State} (h : Accepted s (cornerOf r) 0x70 hdr) (op : PmbusOp) (failed : Bool) :
    exec (.pmbusCommand r hdr op failed) s = .next (journaled (fun u => pmbusOp r op failed (u.noted (cornerOf r) 0x70 hdr)) s) :=
  congrArg Host.Outcome.next (journaled_congr (govAccept_eq _ _ h))

theorem noted_voutMode (s : State) (c kind : Nat) (hdr : MsgHdr) (r : Nat) : ((s.noted c kind hdr).gov r).voutMode = (s.gov r).voutMode := by
  unfold State.noted
  by_cases hr : r = c
  · rw [hr, State.modGov_gov_self]
  · rw [State.modGov_gov_ne _ _ hr]

theorem pmbusTransactions_noted (s : State) (c kind : Nat) (hdr : MsgHdr) (r : Nat) (op : PmbusOp) :
    pmbusTransactions (s.noted c kind hdr) r op = pmbusTransactions s r op := by
  unfold pmbusTransactions
  rw [noted_voutMode]
  rfl

/-- A command that only reaches the array leaves the journal as it is. -/
theorem journaled_onlyOut {f : State → State} {s : State} (hh : (f s).hub = s.hub) (hp : (f s).pair = s.pair) : journaled f s = f s :=
  journaled_of_same hh (by rw [hp])

theorem pmbusOp_failed {r : RegionId} {hdr : MsgHdr} {s : State} (h : Accepted s (cornerOf r) 0x70 hdr) (op : PmbusOp) :
    exec (.pmbusCommand r hdr op true) s = .next
      (((s.noted (cornerOf r) 0x70 hdr).transactAll r true (pmbusTransactions s r op)).raiseRoll r 1 8) := by
  have hop : pmbusOp r op true (s.noted (cornerOf r) 0x70 hdr) =
      ((s.noted (cornerOf r) 0x70 hdr).transactAll r true (pmbusTransactions s r op)).raiseRoll r 1 8 := by
    unfold pmbusOp
    rw [pmbusTransactions_noted]
    exact if_pos rfl
  have ht := transactAll_onlyOut (s.noted (cornerOf r) 0x70 hdr) r true (pmbusTransactions s r op)
  rw [next_pmbusCommand h, journaled_onlyOut, hop]
  · rw [hop, State.raiseRoll_hub, ht]
    rfl
  · rw [hop, State.raiseRoll_pair, ht]
    rfl

theorem pmbusOp_reaches {r : RegionId} {hdr : MsgHdr} {s : State} (h : Accepted s (cornerOf r) 0x70 hdr) {op : PmbusOp}
    (hc : ∀ vm bad en, op ≠ .configure vm bad en) (ho : op ≠ .operationOn) : exec (.pmbusCommand r hdr op false) s = .next
      ((s.noted (cornerOf r) 0x70 hdr).transactAll r false (pmbusTransactions s r op)) := by
  have hop : pmbusOp r op false (s.noted (cornerOf r) 0x70 hdr) =
      (s.noted (cornerOf r) 0x70 hdr).transactAll r false (pmbusTransactions s r op) := by
    unfold pmbusOp
    rw [pmbusTransactions_noted]
    dsimp only
    rw [if_neg Bool.false_ne_true]
    split
    · exact (hc _ _ _ rfl).elim
    · exact (ho rfl).elim
    all_goals rfl
  have ht := transactAll_onlyOut (s.noted (cornerOf r) 0x70 hdr) r false (pmbusTransactions s r op)
  rw [next_pmbusCommand h, journaled_onlyOut, hop]
  · rw [hop, ht]
    rfl
  · rw [hop, ht]
    rfl

/-! #### Configuration and turn-on -/

theorem turnOn_keeps (s : State) : (turnOn s).regions = s.regions ∧ (turnOn s).govs = s.govs := by
  unfold turnOn
  split
  · exact ⟨rfl, rfl⟩
  · extract_lets one
    have hm := OnlyMessages.foldl (fun a r => hubSend_onlyMessages a (.pmbus r .operationOn)) (List.range 64)
      { s with hubA := one s.hubA, hubB := one s.hubB }
    exact ⟨hm.regions, hm.govs⟩

theorem onesOf_zero (n : Nat) : onesOf n 0 = [] := by
  unfold onesOf
  exact List.filter_eq_nil_iff.2 fun i _ => by simp [bitOf_eq_testBit]

theorem configured_keeps {r vm : Nat} (en : BitVec 24) (hvm : vm < 32) (s : State) :
    ((configured r vm 0 en s).gov r).pmbusDone = true ∧ ((configured r vm 0 en s).gov r).badMode = false ∧
      ((configured r vm 0 en s).region r).ph.active = if s.pow.cold then (s.region r).ph.active else en := by
  have hdiv : vm / 32 = 0 := Nat.div_eq_of_lt hvm
  unfold configured
  extract_lets t₁ t₂ t₃
  have ht₃ : t₃ = t₂ := by
    show (onesOf 24 0).foldl _ t₂ = t₂
    rw [onesOf_zero]
    rfl
  rw [if_neg (not_not.2 hdiv), ht₃]
  obtain ⟨hr, hg⟩ := turnOn_keeps t₂
  have hgov : (turnOn t₂).gov r = t₂.gov r := congrArg (fun m : SMap Gov => m.get r) hg
  have hregion : (turnOn t₂).region r = t₂.region r := congrArg (fun m : SMap Region => m.get r) hr
  have ht₁ : t₁.gov r = { s.gov r with pmbusDone := true, voutMode := vm, badMode := decide (vm / 32 ≠ 0) } :=
    State.modGov_gov_self ..
  have ht₂ : t₂.gov r = t₁.gov r := by
    show State.gov (if s.pow.cold then t₁ else _) r = _
    split <;> rfl
  rw [hgov, hregion, ht₂, ht₁]
  refine ⟨rfl, by simp [hdiv], ?_⟩
  show (State.region (if s.pow.cold then t₁ else _) r).ph.active = _
  split
  · rfl
  · rw [State.modRegion_region_self]

theorem commitSetpoint_commits (r : Nat) (s : State) :
    ((commitSetpoint r s).region r).sp.vc = s.termsMv r ∧ (commitSetpoint r s).govs = s.govs := by
  unfold commitSetpoint
  extract_lets g v
  split
  · next h => exact ⟨h.1.symm, rfl⟩
  · split
    · next h =>
      rw [State.modRegion_region_self]
      refine ⟨?_, rfl⟩
      show (if (s.region r).sp.m < (s.region r).sp.mDill then _ else _ : Setpoint).vc = v
      split
      · exact h.symm
      · split
        · exact h.symm
        · exact h.symm
    · rw [(startFrame_keeps _ r).2.2, (startFrame_leaves _ r).2.2, State.modRegion_region_self]
      exact ⟨rfl, rfl⟩

theorem arrayOn_turns (r : Nat) (s : State) :
    ((arrayOn r s).gov r).arrayOn = true ∧ ((arrayOn r s).region r).sp.vc = s.termsMv r := by
  obtain ⟨hvc, hgovs⟩ := commitSetpoint_commits r (s.modGov r (fun g => { g with arrayOn := true }))
  have hgov : (commitSetpoint r (s.modGov r (fun g => { g with arrayOn := true }))).gov r = { s.gov r with arrayOn := true } :=
    (congrArg (fun m : SMap Gov => m.get r) hgovs).trans (State.modGov_gov_self ..)
  unfold arrayOn
  dsimp only
  generalize commitSetpoint r (s.modGov r (fun g => { g with arrayOn := true })) = t at hvc hgov ⊢
  have hkeep (u : State) (hu : u.govs = t.govs ∧ u.regions = t.regions) :
      (u.gov r).arrayOn = true ∧ (u.region r).sp.vc = s.termsMv r := by
    have h₁ : u.gov r = t.gov r := congrArg (fun m : SMap Gov => m.get r) hu.1
    have h₂ : u.region r = t.region r := congrArg (fun m : SMap Region => m.get r) hu.2
    rw [h₁, h₂, hgov]
    exact ⟨rfl, hvc⟩
  split
  · exact hkeep _ ⟨rfl, rfl⟩
  · exact hkeep _ ⟨rfl, rfl⟩

theorem next_configure {r : RegionId} {hdr : MsgHdr} {s : State} (h : Accepted s (cornerOf r) 0x70 hdr) {vm : Nat} (en : BitVec 24)
    (hvm : vm < 32) : ∃ t, exec (.pmbusCommand r hdr (.configure vm 0 en) false) s = .next t ∧ (t.gov r).pmbusDone = true ∧
      (t.gov r).badMode = false ∧ (t.region r).ph.active = if s.pow.cold then (s.region r).ph.active else en := by
  refine ⟨_, next_pmbusCommand h _ _, ?_⟩
  have ht := transactAll_onlyOut (s.noted (cornerOf r) 0x70 hdr) r false
    (pmbusTransactions (s.noted (cornerOf r) 0x70 hdr) r (.configure vm 0 en))
  rw [journaled_gov, journaled_region]
  unfold pmbusOp
  dsimp only
  rw [if_neg Bool.false_ne_true]
  generalize (s.noted (cornerOf r) 0x70 hdr).transactAll r false _ = u at ht ⊢
  have hkeep := configured_keeps (r := r) en hvm u
  have hpow : u.pow = s.pow := by
    rw [ht]
    rfl
  have hregion : u.region r = s.region r := by
    rw [ht]
    rfl
  rw [hpow, hregion] at hkeep
  exact hkeep

theorem next_operationOn {r : RegionId} {hdr : MsgHdr} {s : State} (h : Accepted s (cornerOf r) 0x70 hdr) :
    ∃ t, exec (.pmbusCommand r hdr .operationOn false) s = .next t ∧ (t.gov r).arrayOn = true ∧ (t.region r).sp.vc = s.termsMv r := by
  refine ⟨_, next_pmbusCommand h _ _, ?_⟩
  rw [journaled_gov, journaled_region]
  exact arrayOn_turns r _

/-! #### The obligation -/

/-- Settles O45, command by command: the evaluation and the interval visit one region after another, and each visit leaves the
other regions. -/
theorem phasesAndMarginsMove : Obligations.PhasesAndMarginsMove := by
  unfold Obligations.PhasesAndMarginsMove
  intro s r
  refine ⟨fun bad => ⟨_, rfl, ?_⟩, fun bad => ?_, fun k j hs hj hk => ⟨⟨_, rfl, ?_⟩, _, rfl, ?_⟩,
    fun k n bad hs hw he hk => ⟨_, rfl, ?_⟩, fun taps hs hd => ⟨_, rfl, ?_⟩, fun taps hs he hn => ⟨_, rfl, ?_⟩, fun hdr h =>
      ⟨fun op => pmbusOp_failed h op, fun op hc ho => pmbusOp_reaches h hc ho, fun vm en hvm => next_configure h en hvm,
        next_operationOn h⟩⟩
  · rw [journaled_out, journaled_region, smbAlert_answered]
    refine ⟨by simp, by simp, by simp, fun hb => by rw [hb, smbAlert_phases], fun k hb hk hf hd hfree => ?_⟩
    rw [hb, smbAlert_swap hk hf hd hfree]
    exact ⟨rfl, rfl⟩
  · exact congrArg Host.Outcome.next (journaled_onlyOut (f := smbAlert r bad true) rfl rfl)
  · obtain ⟨hph, hsaid, hnext⟩ := phaseSwap_swaps hs hj hk
    rw [journaled_region]
    refine ⟨hph, ?_, hnext⟩
    rw [show Fin.ofNat 24 k.val = k from Fin.ext (Nat.mod_eq_of_lt k.isLt)] at hsaid
    exact hsaid.journaled
  · rw [journaled_region, journaled_events, phaseSwap_fails hs hj hk, raiseRoll_region, modPh_ph]
    exact ⟨rfl, rfl, List.mem_append_right _ (List.mem_singleton_self _)⟩
  · obtain ⟨hph, hsaid⟩ := watchEnd_ends hs hw he
    rw [journaled_region]
    exact ⟨hph, fun hb => (hsaid hb).journaled⟩
  · obtain ⟨hev, hzero⟩ := marginEvaluation_evaluated taps hs hd r
    rw [journaled_region, journaled_hub]
    refine ⟨hzero, hev.block, hev.kept, fun n hb hl hpos hslack hm hexc => ?_, hev.static⟩
    obtain ⟨hnew, hsaid⟩ := hev.lower n hb hl hpos hslack hm hexc
    exact ⟨hnew, hsaid.journaled⟩
  · rw [journaled_region, journaled_hub]
    exact ageingInterval_acts taps hs he hn r

end Sys2Proof.Machine
end

