-- ==== Sys2Proof/Proofs/Multicasts.lean ====
section
/-!
SUPPORT. Multicasts, spare-out, stall reports (R19, R26, R33, R262, R330, R335, R342 to R348).
-/

namespace Sys2Proof.Machine

/-! ### Multicasts (R19, R330, R342 to R346) -/

/-- The multicast list of a region as its governor keeps it. -/
theorem multi_modMulti {g : Region} {k : Nat} {m : RMulti} (h : g.multi k = some m) (f : RMulti → RMulti) (hf : ∀ x, (f x).slot = x.slot) :
    (g.modMulti k f).multi k = some (f m) := by
  have hm : m.slot = k := by simpa using List.find?_some h
  have hcomp : ((fun m : RMulti => m.slot == k) ∘ fun m => if m.slot = k then f m else m) = fun m => m.slot == k := by
    funext x
    show ((if x.slot = k then f x else x).slot == k) = (x.slot == k)
    split
    · rw [hf]
    · rfl
  unfold Region.multi Region.modMulti
  dsimp only
  rw [List.find?_map, hcomp]
  rw [show g.multis.find? (fun m => m.slot == k) = some m from h, Option.map_some, if_pos hm]

theorem multi_slot {g : Region} {k : Nat} {m : RMulti} (h : g.multi k = some m) : m.slot = k := by
  simpa using List.find?_some h

/-! #### One post at a Chive -/

/-- A post at a Chive that holds the epoch: an EMPTY slot becomes POSTED (R19, R330). -/
def Cluster.posted (k : Nat) (epoch : Word) (msg : List Byte) (u : Cluster) : Cluster :=
  if epoch ≠ u.epoch ∨ (u.slot k).state ≠ .empty then u
  else { u.modSlot k (fun _ => { state := .posted, msg := padTo 16 msg, mirrored := true, turn := u.slotTurn }) with
    slotTurn := u.slotTurn + 1 }

theorem regionOf_add (r : Nat) {c : Nat} (hc : c < 576) : regionOf (576 * r + c) = r := by
  unfold regionOf
  omega

theorem localOf_add (r : Nat) {c : Nat} (hc : c < 576) : localOf (576 * r + c) = c := by
  unfold localOf
  omega

theorem cluster_add (s : State) (r : Nat) {c : Nat} (hc : c < 576) : s.cluster (576 * r + c) = (s.region r).clusters.get c := by
  unfold State.cluster
  rw [regionOf_add r hc, localOf_add r hc]

theorem modCluster_get (g : Region) (c : Nat) (f : Cluster → Cluster) (j : Nat) :
    (g.modCluster c f).clusters.get j = if j = c then f (g.clusters.get c) else g.clusters.get j := by
  unfold Region.modCluster
  dsimp only
  by_cases hj : j = c
  · rw [if_pos hj, hj, SMap.get_modify_self]
  · rw [if_neg hj, SMap.get_modify_ne _ _ hj]

theorem send_region (s : State) (m : Msg) (r : Nat) : (s.send m).region r = s.region r :=
  congrArg (fun l => SMap.get l r) (State.send_regions s m)

theorem chiveAccept_current {s : State} {c : Nat} {epoch : Word} (he : epoch = (s.cluster c).epoch) (act : State → State) :
    chiveAccept c epoch act s = act s := if_neg (not_not.2 he)

theorem chiveAccept_other {s : State} {c : Nat} {epoch : Word} (he : epoch ≠ (s.cluster c).epoch) (act : State → State) :
    chiveAccept c epoch act s = s.staleMsg (regionOf c) := if_pos he

theorem posted_current {u : Cluster} {epoch : Word} (he : epoch = u.epoch) (k : Nat) (msg : List Byte) : u.posted k epoch msg =
    if (u.slot k).state ≠ .empty then u
    else { u.modSlot k (fun _ => { state := .posted, msg := padTo 16 msg, mirrored := true, turn := u.slotTurn }) with
      slotTurn := u.slotTurn + 1 } := by
  unfold Cluster.posted
  simp only [he, ne_eq, not_true_eq_false, false_or]

theorem posted_other {u : Cluster} {epoch : Word} (he : epoch ≠ u.epoch) (k : Nat) (msg : List Byte) : u.posted k epoch msg = u :=
  if_pos (.inl he)

theorem postChive_facts (r k : Nat) (epoch : Word) (msg : List Byte) {c : Nat} (hc : c < 576) (s : State) :
    let t := postChive r k epoch msg c s
    t.hub = s.hub ∧ t.out = (s.send (.chivePost (576 * r + c) k)).out ∧ t.pair.heldEff = s.pair.heldEff ∧
      (t.region r).multis = (s.region r).multis ∧
      ∀ j, (t.region r).clusters.get j =
        if j = c then ((s.region r).clusters.get c).posted k epoch msg else (s.region r).clusters.get j := by
  have hcl : (s.send (.chivePost (576 * r + c) k)).cluster (576 * r + c) = (s.region r).clusters.get c := by
    rw [cluster_add _ r hc, send_region]
  unfold postChive
  by_cases he : epoch = ((s.region r).clusters.get c).epoch
  · rw [chiveAccept_current (by rw [hcl]; exact he)]
    dsimp only
    rw [State.modRegion_region_self, send_region]
    refine ⟨rfl, rfl, rfl, rfl, fun j => ?_⟩
    rw [modCluster_get, posted_current he]
  · rw [chiveAccept_other (by rw [hcl]; exact he), posted_other he]
    dsimp only
    refine ⟨rfl, rfl, rfl, rfl, fun j => ?_⟩
    split
    next hj => rw [hj]; rfl
    next => rfl

theorem foldl_postChive (r k : Nat) (epoch : Word) (msg : List Byte) (l : List Nat) (hl : ∀ c ∈ l, c < 576) (hn : l.Nodup) (s : State) :
    let t := l.foldl (fun a c => postChive r k epoch msg c a) s
    t.hub = s.hub ∧ Grows s t ∧ (∀ c ∈ l, Spoken t (.chivePost (576 * r + c) k)) ∧ (t.region r).multis = (s.region r).multis ∧
      ∀ j, (t.region r).clusters.get j =
        if j ∈ l then ((s.region r).clusters.get j).posted k epoch msg else (s.region r).clusters.get j := by
  induction l generalizing s with
  | nil => exact ⟨rfl, .refl s, fun c hc => absurd hc List.not_mem_nil, rfl, fun j => (if_neg List.not_mem_nil).symm⟩
  | cons c l ih =>
    obtain ⟨hh, ho, he, hm, hg⟩ := postChive_facts r k epoch msg (hl c List.mem_cons_self) s
    obtain ⟨hh', hgr, hsp, hm', hg'⟩ := ih (fun x hx => hl x (List.mem_cons_of_mem c hx)) (List.nodup_cons.1 hn).2
      (postChive r k epoch msg c s)
    have hgrow : Grows (s.send (.chivePost (576 * r + c) k)) (postChive r k epoch msg c s) := (Grows.refl _).of_eq ho he
    have hsent : Grows s (s.send (.chivePost (576 * r + c) k)) := (Grows.refl s).send _
    rw [List.foldl_cons]
    refine ⟨hh'.trans hh, hsent.trans (hgrow.trans hgr), fun x hx => ?_, hm'.trans hm, fun j => ?_⟩
    · rcases List.mem_cons.1 hx with rfl | hx
      · exact ⟨_, hgr.out (hgrow.out (List.mem_append_right _ (List.mem_singleton_self _)))⟩
      · exact hsp x hx
    · rw [hg' j, hg j]
      by_cases hj : j = c
      · subst hj
        rw [if_pos rfl, if_neg (List.nodup_cons.1 hn).1, if_pos List.mem_cons_self]
      · rw [if_neg hj]
        by_cases hjl : j ∈ l
        · rw [if_pos hjl, if_pos (List.mem_cons_of_mem c hjl)]
        · rw [if_neg hjl, if_neg (by simp [hj, hjl])]

/-! #### A post at a governor -/

theorem endMulti_facts (r k : Nat) (s : State) : (endMulti r k s).hub = s.hub ∧ Grows s (endMulti r k s) ∧
    ((endMulti r k s).region r).clusters = (s.region r).clusters := by
  unfold endMulti
  split
  · exact ⟨rfl, .refl s, rfl⟩
  · split
    · refine ⟨rfl, ?_, ?_⟩
      · unfold sendSummary
        refine Grows.send ?_ _
        exact (Grows.refl s).of_eq rfl rfl
      · show ((s.modRegion r _).region r).clusters = _
        rw [State.modRegion_region_self]
        rfl
    · exact ⟨rfl, .refl s, rfl⟩

/-- A multicast of the slot is open at the governor. -/
def Region.multiOpen (g : Region) (k : Nat) : Bool := match g.multi k with | some m => !m.ended | none => false

/-- The named Chives in service, and the post's entry in the governor's list. -/
def liveTargets (g : Region) (mask : Nat) : List Nat := (onesOf 576 mask).filter (fun c => !(g.clusters.get c).ctl.spared)

def enterPost (k no mask : Nat) (g : Region) : Region :=
  { g with multis := g.multis.filter (fun x => x.slot != k) ++
      [{ slot := k, no := no, cancelled := ((onesOf 576 mask).filter (fun c => (g.clusters.get c).ctl.spared)).length
         waiting := liveTargets g mask }] }

theorem liveTargets_lt {g : Region} {mask c : Nat} (hc : c ∈ liveTargets g mask) : c < 576 :=
  (mem_onesOf.1 (List.mem_of_mem_filter hc)).1

theorem liveTargets_nodup (g : Region) (mask : Nat) : (liveTargets g mask).Nodup := (onesOf_nodup 576 mask).filter _

theorem mem_liveTargets {g : Region} {mask c : Nat} (hc : c < 576) :
    c ∈ liveTargets g mask ↔ bitOf mask c = true ∧ (g.clusters.get c).ctl.spared = false := by
  unfold liveTargets
  rw [List.mem_filter, mem_onesOf]
  simp [hc]

theorem takePost_eq (r k no mask : Nat) (epoch : Word) (msg : List Byte) (s : State) : takePost r k no mask epoch msg s =
    if (s.region r).multiOpen k then s
    else endMulti r k ((liveTargets (s.region r) mask).foldl (fun a c => postChive r k epoch msg c a)
      (s.modRegion r (fun g => enterPost k no mask g))) := by
  unfold takePost
  extract_lets ts g dead live t
  have ht : t = s.modRegion r (fun g => enterPost k no mask g) := modRegion_congr rfl
  unfold Region.multiOpen
  rw [ht]
  cases (s.region r).multi k with
  | none => rfl
  | some m => rfl

theorem takePost_grows (r k no mask : Nat) (epoch : Word) (msg : List Byte) (s : State) :
    (takePost r k no mask epoch msg s).hub = s.hub ∧ Grows s (takePost r k no mask epoch msg s) := by
  rw [takePost_eq]
  split
  · exact ⟨rfl, .refl s⟩
  · obtain ⟨hh, hg, -⟩ := foldl_postChive r k epoch msg (liveTargets (s.region r) mask) (fun c hc => liveTargets_lt hc)
      (liveTargets_nodup ..) (s.modRegion r (fun g => enterPost k no mask g))
    obtain ⟨hh', hg', -⟩ := endMulti_facts r k ((liveTargets (s.region r) mask).foldl (fun a c => postChive r k epoch msg c a)
      (s.modRegion r (fun g => enterPost k no mask g)))
    exact ⟨hh'.trans hh, ((Grows.refl s).of_eq rfl rfl).trans (hg.trans hg')⟩

/-- A multicast's post reaches each named Chive in service (R342). -/
theorem takePost_posts {r k : Nat} (no mask : Nat) (epoch : Word) (msg : List Byte) {s : State}
    (he : ∀ m, (s.region r).multi k = some m → m.ended = true) {l : Nat} (hl : l < 576) :
    let t := takePost r k no mask epoch msg s
    let u := (s.region r).clusters.get l
    (bitOf mask l = true → u.ctl.spared = false → Spoken t (.chivePost (576 * r + l) k)) ∧
      (t.region r).clusters.get l = if bitOf mask l = true ∧ u.ctl.spared = false then u.posted k epoch msg else u := by
  have hopen : (s.region r).multiOpen k = false := by
    unfold Region.multiOpen
    split
    · next m hm => rw [he m hm]; rfl
    · rfl
  intro t u
  have ht : t = endMulti r k ((liveTargets (s.region r) mask).foldl (fun a c => postChive r k epoch msg c a)
      (s.modRegion r (fun g => enterPost k no mask g))) := by
    show takePost r k no mask epoch msg s = _
    rw [takePost_eq, hopen, if_neg Bool.false_ne_true]
  obtain ⟨-, -, hsp, -, hget⟩ := foldl_postChive r k epoch msg (liveTargets (s.region r) mask) (fun c hc => liveTargets_lt hc)
    (liveTargets_nodup ..) (s.modRegion r (fun g => enterPost k no mask g))
  generalize (liveTargets (s.region r) mask).foldl (fun a c => postChive r k epoch msg c a)
      (s.modRegion r (fun g => enterPost k no mask g)) = v at ht hsp hget
  obtain ⟨-, hg', hcl⟩ := endMulti_facts r k v
  have hentered : ((s.modRegion r (fun g => enterPost k no mask g)).region r).clusters = (s.region r).clusters := by
    rw [State.modRegion_region_self]
    rfl
  rw [ht, hcl, hget, hentered]
  refine ⟨fun hb hu => ?_, if_congr (mem_liveTargets hl) rfl rfl⟩
  obtain ⟨x, hx⟩ := hsp l ((mem_liveTargets hl).2 ⟨hb, hu⟩)
  exact ⟨x, hg'.out hx⟩

/-! ### Multicasts between the hub and the governors (R342 to R346) -/

/-- A post heard by region `r` is due there no more. -/
def Multi.arrived (k r : Nat) (m : Multi) : Multi := if m.slot = k then { m with due := m.due.filter (fun j => j != r) } else m

theorem arrived_keeps (k r : Nat) (m : Multi) : (m.arrived k r).slot = m.slot ∧ (m.arrived k r).waiting = m.waiting := by
  unfold Multi.arrived
  split
  · exact ⟨rfl, rfl⟩
  · exact ⟨rfl, rfl⟩

theorem postArrives_facts (r k mask : Nat) (hdr : MsgHdr) (msg : List Byte) (s : State) :
    Grows s (postArrives r k mask hdr msg s) ∧ ((postArrives r k mask hdr msg s).hub.multis = s.hub.multis ∨
      (postArrives r k mask hdr msg s).hub.multis = s.hub.multis.map (Multi.arrived k r)) := by
  unfold postArrives
  dsimp only
  generalize ((s.hub.multis.find? (fun m => m.slot == k)).map Multi.no).getD 0 = no
  obtain h | h | h | ⟨-, h⟩ := govAccept_cases r 0x50 hdr (fun s => takePost r k no mask hdr.epoch msg (s.modHub (fun h => { h with
    multis := h.multis.map (fun m => if m.slot = k then { m with due := m.due.filter (fun j => j != r) } else m) }))) id s
  · rw [h]
    exact ⟨(Grows.refl s).of_eq rfl rfl, .inl rfl⟩
  · rw [h]
    exact ⟨(Grows.refl s).of_eq rfl rfl, .inl rfl⟩
  · rw [h]
    exact ⟨.refl s, .inl rfl⟩
  · rw [h]
    obtain ⟨hh, hg⟩ := takePost_grows r k no mask hdr.epoch msg ((s.noted r 0x50 hdr).modHub (fun h => { h with
      multis := h.multis.map (fun m => if m.slot = k then { m with due := m.due.filter (fun j => j != r) } else m) }))
    exact ⟨((Grows.refl s).of_eq rfl rfl).trans hg, .inr (by rw [hh]; rfl)⟩

theorem sendPost_onlyMessages (m : Multi) (s : State) (r : Nat) : OnlyMessages s (sendPost m s r) := hubSend_onlyMessages ..

/-- The mask that a multicast posts to a region. -/
def Multi.maskFor (m : Multi) (r : Nat) : BitVec 576 := ((m.posts.find? (fun p => p.1 == r)).map Prod.snd).getD 0

theorem foldl_sendPost_said (m : Multi) (l : List Nat) {s : State} (h : s.owner.isSome = true) :
    ∀ r ∈ l, Said (l.foldl (sendPost m) s) (.post r m.slot (m.maskFor r) m.msg) := by
  induction l generalizing s with
  | nil => exact fun r hr => absurd hr List.not_mem_nil
  | cons x xs ih =>
    intro r hr
    rcases List.mem_cons.1 hr with rfl | hr
    · exact List.foldlRecOn (motive := fun t => Said t (.post r m.slot (m.maskFor r) m.msg)) xs _
        (hubSend_said h _) fun _ ht _ _ => ht.hubSend _
    · exact ih (by rwa [(sendPost_onlyMessages m s x).owner]) r hr

theorem openMulti_facts (m : Multi) {s : State} (ho : s.owner.isSome = true) :
    (openMulti m s).hub.multis = s.hub.multis ++ [{ m with no := s.hub.multiNo }] ∧
      ∀ r ∈ m.due, Said (openMulti m s) (.post r m.slot (m.maskFor r) m.msg) := by
  unfold openMulti
  have hm := OnlyMessages.foldl (sendPost_onlyMessages m) m.due (s.modHub (fun h => { h with
    multis := h.multis ++ [{ m with no := h.multiNo }], multiNo := h.multiNo + 1 }))
  refine ⟨?_, foldl_sendPost_said m m.due ho⟩
  rw [hm.hub]
  rfl

/-- In a list of posts that names each region once, a region's mask is its own. -/
theorem find?_post {posts : List (Nat × BitVec 576)} (hn : (posts.map Prod.fst).Nodup) {p : Nat × BitVec 576} (hp : p ∈ posts) :
    posts.find? (fun q => q.1 == p.1) = some p := by
  induction posts with
  | nil => exact absurd hp List.not_mem_nil
  | cons q qs ih =>
    rw [List.map_cons, List.nodup_cons] at hn
    rcases List.mem_cons.1 hp with rfl | hp
    · exact List.find?_cons_of_pos (by simp)
    · rw [List.find?_cons_of_neg]
      · exact ih hn.2 hp
      · intro hq
        exact hn.1 (List.mem_map.2 ⟨p, hp, (beq_iff_eq.1 hq).symm⟩)

/-- The hub's multicast for a decision to send one. -/
def newMulti (k : Nat) (msg : List Byte) (posts : List (Nat × BitVec 576)) : Multi :=
  { slot := k, msg := msg, posts := posts, due := posts.map Prod.fst, waiting := posts.map Prod.fst }

theorem multicastPost_decides {r k : Nat} {mask : BitVec 576} {hdr : MsgHdr} {msg : List Byte} {others : List (Nat × BitVec 576)}
    {s : State} (hs : s.inControl = true) (hdue : ∀ m ∈ s.hub.multis, m.slot = k → r ∉ m.due) :
    multicastPost r k mask hdr msg others s =
      if s.multiFits (newMulti k msg ((r, mask) :: others)) then
        postArrives r k mask.toNat hdr msg (openMulti (newMulti k msg ((r, mask) :: others)) s)
      else s.modHub (fun h => { h with heldMultis := h.heldMultis ++ [newMulti k msg ((r, mask) :: others)] }) := by
  have hway : s.hub.multis.any (fun m => m.slot == k && decide (r ∈ m.due)) = false := by
    rw [List.any_eq_false]
    intro m hm hb
    rw [Bool.and_eq_true, beq_iff_eq, decide_eq_true_eq] at hb
    exact hdue m hm hb.1 hb.2
  unfold multicastPost
  dsimp only
  rw [hway, if_neg (by simp [hs])]
  rfl

theorem multiFits_iff (s : State) (m : Multi) :
    s.multiFits m = true ↔ s.hub.multis.length < 8 ∧ ∀ x ∈ s.hub.multis, x.slot ≠ m.slot := by
  unfold State.multiFits
  simp

theorem multicastPost_opens {r k : Nat} {mask : BitVec 576} {hdr : MsgHdr} {msg : List Byte} {others : List (Nat × BitVec 576)}
    {s : State} (hs : s.inControl = true) (hdue : ∀ m ∈ s.hub.multis, m.slot = k → r ∉ m.due)
    (hn : (((r, mask) :: others).map Prod.fst).Nodup) (hlen : s.hub.multis.length < 8) (hfree : ∀ x ∈ s.hub.multis, x.slot ≠ k) :
    (∀ p ∈ (r, mask) :: others, Said (multicastPost r k mask hdr msg others s) (.post p.1 k p.2 msg)) ∧
      ∃ y, (multicastPost r k mask hdr msg others s).hub.multis = s.hub.multis ++ [y] ∧ y.slot = k ∧
        y.waiting = ((r, mask) :: others).map Prod.fst := by
  rw [multicastPost_decides hs hdue, if_pos ((multiFits_iff ..).2 ⟨hlen, hfree⟩)]
  generalize hp : (r, mask) :: others = posts at hn
  obtain ⟨hopen, hsaid⟩ := openMulti_facts (newMulti k msg posts) (owner_of_inControl hs)
  obtain ⟨hgrow, hmultis⟩ := postArrives_facts r k mask.toNat hdr msg (openMulti (newMulti k msg posts) s)
  refine ⟨fun p hpm => ?_, ?_⟩
  · obtain ⟨x, hx⟩ := hsaid p.1 (List.mem_map_of_mem hpm)
    rw [show (newMulti k msg posts).maskFor p.1 = p.2 by
      unfold Multi.maskFor newMulti
      rw [find?_post hn hpm]
      rfl] at hx
    exact ⟨x, hgrow.leaves hx⟩
  · rw [hopen] at hmultis
    rcases hmultis with h | h
    · exact ⟨_, h, rfl, rfl⟩
    · have hrest : s.hub.multis.map (Multi.arrived k r) = s.hub.multis :=
        (List.map_congr_left fun m hm => if_neg (hfree m hm)).trans (List.map_id _)
      rw [h, List.map_append, hrest]
      exact ⟨_, rfl, (arrived_keeps ..).1, (arrived_keeps ..).2⟩

theorem multicastPost_holds {r k : Nat} {mask : BitVec 576} {hdr : MsgHdr} {msg : List Byte} {others : List (Nat × BitVec 576)}
    {s : State} (hs : s.inControl = true) (hdue : ∀ m ∈ s.hub.multis, m.slot = k → r ∉ m.due)
    (hfull : 8 ≤ s.hub.multis.length ∨ ∃ x ∈ s.hub.multis, x.slot = k) : multicastPost r k mask hdr msg others s =
      s.modHub (fun h => { h with heldMultis := h.heldMultis ++ [newMulti k msg ((r, mask) :: others)] }) := by
  rw [multicastPost_decides hs hdue, if_neg]
  rw [multiFits_iff]
  rintro ⟨hlen, hfree⟩
  rcases hfull with h | ⟨x, hx, hk⟩
  · omega
  · exact hfree x hx hk

/-! #### A post on its way arrives -/

theorem multicastPost_arrives {r k : Nat} {mask : BitVec 576} {hdr : MsgHdr} {msg : List Byte} {others : List (Nat × BitVec 576)}
    {s : State} (ha : Accepted s r 0x50 hdr) (hway : ∃ m ∈ s.hub.multis, m.slot = k ∧ r ∈ m.due) :
    ∃ no u, u.region r = s.region r ∧ multicastPost r k mask hdr msg others s = takePost r k no mask.toNat hdr.epoch msg u := by
  have hany : s.hub.multis.any (fun m => m.slot == k && decide (r ∈ m.due)) = true := by
    obtain ⟨m, hm, hk, hr⟩ := hway
    exact List.any_eq_true.2 ⟨m, hm, by rw [Bool.and_eq_true, beq_iff_eq, decide_eq_true_eq]; exact ⟨hk, hr⟩⟩
  refine ⟨((s.hub.multis.find? (fun m => m.slot == k)).map Multi.no).getD 0, (s.noted r 0x50 hdr).modHub (fun h => { h with
    multis := h.multis.map (fun m => if m.slot = k then { m with due := m.due.filter (fun j => j != r) } else m) }), rfl, ?_⟩
  unfold multicastPost postArrives
  dsimp only
  rw [hany, if_pos (.inl rfl), govAccept_eq _ _ ha]

theorem posted_slot (k : Nat) (epoch : Word) (msg : List Byte) (u : Cluster) : (u.posted k epoch msg).slot k =
    if u.epoch = epoch ∧ (u.slot k).state = .empty then
      { state := .posted, msg := padTo 16 msg, mirrored := true, turn := u.slotTurn } else u.slot k := by
  unfold Cluster.posted
  by_cases h : u.epoch = epoch ∧ (u.slot k).state = .empty
  · rw [if_pos h, if_neg (by simp [h.1, h.2])]
    exact SMap.get_modify_self ..
  · rw [if_neg h, if_pos]
    by_contra hc
    rw [not_or, not_not, not_not] at hc
    exact h ⟨hc.1.symm, hc.2⟩

/-! #### Summaries -/

/-- A summary of a region's multicast as its governor sends it (R343). -/
theorem interimSummary_sends {r k : Nat} {m : RMulti} {s : State} (hm : (s.region r).multi k = some m)
    (ha : s.cfg 0x9000 0 16 ≤ m.age) (hw : m.waiting ≠ []) : interimSummary r k s =
      (s.modRegion r (fun g => g.modMulti k (fun m => { m with age := 0 }))).send
        (.summary r m.slot m.okCnt m.other.length m.cancelled m.waiting.length m.other.min? m.waiting.min? false false) := by
  unfold interimSummary
  rw [hm]
  exact if_pos ⟨ha, hw⟩

theorem answerSummary_sends {r k : Nat} {m : RMulti} {s : State} (hm : (s.region r).multi k = some m) : answerSummary r k s =
    s.send (.summary r m.slot m.okCnt m.other.length m.cancelled m.waiting.length m.other.min? m.waiting.min? m.ended true) := by
  unfold answerSummary
  rw [hm]
  rfl

/-! #### Acknowledgements of a multicast's targets (R335, R343) -/

/-- A target's acknowledgement in the governor's figures. -/
def RMulti.acked (l : Nat) (code : Byte) (m : RMulti) : RMulti :=
  { m with
    waiting := m.waiting.filter (fun x => x != l)
    okCnt := if code = 0 then m.okCnt + 1 else m.okCnt
    other := if code = 0 then m.other else m.other ++ [l] }

/-- The multicast ends with its last target (R343). -/
theorem endMulti_ends {r k : Nat} {m : RMulti} {s : State} (hm : (s.region r).multi k = some m) (he : m.ended = false) :
    ((endMulti r k s).region r).clusters = (s.region r).clusters ∧
    if m.waiting = [] then ((endMulti r k s).region r).multi k = some { m with ended := true } ∧
        ∃ x, (endMulti r k s).out = s.out ++ [.msg (.summary r k m.okCnt m.other.length m.cancelled 0 m.other.min? none true false) x]
      else ((endMulti r k s).region r).multi k = some m ∧ (endMulti r k s).out = s.out := by
  refine ⟨(endMulti_facts r k s).2.2, ?_⟩
  unfold endMulti
  rw [hm]
  dsimp only
  by_cases hw : m.waiting = []
  · rw [if_pos hw, if_pos ⟨hw, he⟩]
    unfold sendSummary
    have hregion (x : Msg) : ((s.modRegion r (fun g => g.modMulti k (fun m => { m with ended := true }))).send x).region r =
        (s.region r).modMulti k (fun m => { m with ended := true }) := State.modRegion_region_self s r _
    rw [hregion]
    refine ⟨multi_modMulti hm (fun m => { m with ended := true }) (fun _ => rfl), ?_⟩
    rw [hw, multi_slot hm]
    exact ⟨_, rfl⟩
  · rw [if_neg hw, if_neg (fun h => hw h.1)]
    exact ⟨hm, rfl⟩

theorem takeChiveAck_counts {c k : Nat} {code : Byte} {m : RMulti} {s : State} (hm : (s.region (regionOf c)).multi k = some m)
    (hw : localOf c ∈ m.waiting) (he : m.ended = false) :
    let t := takeChiveAck c k code s
    let m' := m.acked (localOf c) code
    ((t.cluster c).slot k).state = .empty ∧
    if m'.waiting = [] then (t.region (regionOf c)).multi k = some { m' with ended := true } ∧
        ∃ x, t.out = s.out ++ [.msg (.summary (regionOf c) k m'.okCnt m'.other.length m'.cancelled 0 m'.other.min? none true false) x]
      else (t.region (regionOf c)).multi k = some m' ∧ t.out = s.out := by
  intro t m'
  have ht : t = endMulti (regionOf c) k (s.modRegion (regionOf c) (fun g => (g.modMulti k (RMulti.acked (localOf c) code)).modCluster
      (localOf c) (fun u => u.modSlot k (fun x => { x with state := .empty })))) := by
    show takeChiveAck c k code s = _
    unfold takeChiveAck
    dsimp only
    rw [hm]
    exact if_pos ⟨hw, he⟩
  have hregion : (s.modRegion (regionOf c) (fun g => (g.modMulti k (RMulti.acked (localOf c) code)).modCluster
      (localOf c) (fun u => u.modSlot k (fun x => { x with state := .empty })))).region (regionOf c) = _ :=
    State.modRegion_region_self ..
  generalize hv : s.modRegion (regionOf c) (fun g => (g.modMulti k (RMulti.acked (localOf c) code)).modCluster
      (localOf c) (fun u => u.modSlot k (fun x => { x with state := .empty }))) = v at ht hregion
  have hmv : (v.region (regionOf c)).multi k = some m' := by
    rw [hregion]
    exact multi_modMulti hm _ (fun _ => rfl)
  obtain ⟨hcl, hend⟩ := endMulti_ends hmv he
  rw [ht]
  refine ⟨?_, ?_⟩
  · unfold State.cluster
    rw [hcl, hregion]
    show ((((s.region (regionOf c)).clusters.modify (localOf c) _).get (localOf c)).slot k).state = _
    rw [SMap.get_modify_self]
    exact congrArg Slot.state (SMap.get_modify_self ..)
  · rw [← hv] at hend ⊢
    exact hend

/-! ### Spare-out and stall reports (R26, R33, R262, R345, R347, R348) -/

/-- Clusters stay, and so does every event raised. -/
structure ClustersStay (s t : State) : Prop where
  cluster : ∀ d, t.cluster d = s.cluster d
  events  : s.events ⊆ t.events

theorem ClustersStay.refl (s : State) : ClustersStay s s := ⟨fun _ => rfl, List.Subset.refl _⟩

theorem ClustersStay.trans {s t u : State} (h₁ : ClustersStay s t) (h₂ : ClustersStay t u) : ClustersStay s u :=
  ⟨fun d => (h₂.cluster d).trans (h₁.cluster d), List.Subset.trans h₁.events h₂.events⟩

theorem ClustersStay.foldl {α : Type} {f : State → α → State} (h : ∀ a x, ClustersStay a (f a x)) (l : List α) (s : State) :
    ClustersStay s (l.foldl f s) :=
  List.foldlRecOn (motive := ClustersStay s) l f (.refl s) fun b hb a _ => hb.trans (h b a)

theorem RaisesOnly.clustersStay {s t : State} (h : RaisesOnly s t) : ClustersStay s t :=
  ⟨fun d => congrArg (fun m : SMap Region => (m.get (regionOf d)).clusters.get (localOf d)) h.regions, h.events⟩

theorem OnlyMessages.clustersStay {s t : State} (h : OnlyMessages s t) : ClustersStay s t := h.onlyGrants.raisesOnly.clustersStay

theorem ClustersStay.modRegion {r : Nat} {f : Region → Region} (hf : ∀ g, (f g).clusters = g.clusters) (s : State) :
    ClustersStay s (s.modRegion r f) := by
  refine ⟨fun d => ?_, List.Subset.refl _⟩
  unfold State.cluster
  by_cases hd : regionOf d = r
  · rw [hd, State.modRegion_region_self, hf]
  · rw [State.modRegion_region_ne _ _ hd]

theorem ClustersStay.holdRoll (s : State) (r k b : Nat) (on : Bool) : ClustersStay s (s.holdRoll r k b on) := by
  refine ⟨fun d => holdRoll_cluster .., ?_⟩
  unfold State.holdRoll
  dsimp only
  split
  · exact List.subset_append_left _ _
  · exact List.Subset.refl _

theorem holdDill_clustersStay (r : Nat) (s : State) : ClustersStay s (holdDill r s) := .holdRoll ..

theorem endMulti_clustersStay (r k : Nat) (s : State) : ClustersStay s (endMulti r k s) := by
  unfold endMulti
  split
  · exact .refl s
  · split
    · have hmod : ClustersStay s (s.modRegion r (fun g => g.modMulti k (fun m => { m with ended := true }))) := by
        refine .modRegion (fun g => ?_) s
        exact rfl
      exact ⟨fun d => hmod.cluster d, hmod.events⟩
    · exact .refl s

/-- What a forced cancel makes of a slot (R335). -/
def Slot.forced (x : Slot) : Slot :=
  if x.state = .posted ∨ x.state = .taken then { x.ack codeCancelled 0 0 with cancel := x.state == .taken } else x

theorem forceCancel_clusters (c : Nat) (s : State) :
    ClustersStay (s.modCluster c (fun u => { u with slots := u.slots.mapAll Slot.forced })) (forceCancel c s) := by
  unfold forceCancel
  extract_lets r l t ks
  have ht : t = s.modCluster c (fun u => { u with slots := u.slots.mapAll Slot.forced }) := rfl
  rw [← ht]
  refine .foldl (fun a k => ?_) ks t
  have hmod : ClustersStay a (a.modRegion r (fun g => g.modMulti k (fun m => { m with
      waiting := m.waiting.filter (fun x => x != l), cancelled := m.cancelled + 1 }))) := by
    refine .modRegion (fun g => ?_) a
    exact rfl
  refine .trans ?_ (endMulti_clustersStay r k _)
  exact ⟨fun d => hmod.cluster d, hmod.events⟩

theorem shrinkGrant_clustersStay (c : Nat) (s : State) : ClustersStay s (shrinkGrant c s) := by
  unfold shrinkGrant
  refine .foldl (fun a i => ?_) _ s
  exact (RaisesOnly.of_eq rfl rfl : RaisesOnly a (a.modGrant i _)).clustersStay.trans (RaisesOnly.telemetry ..).clustersStay

/-! #### The neighbours' wires -/

/-- A cluster out of service in direction `d` of its neighbour. -/
def maskDir (d : Nat) (u : Cluster) : Cluster := { u with droopMask := u.droopMask ||| BitVec.ofNat 8 (2 ^ opposite d) }

/-- The neighbours of `c` that lie in the directions of a list leave its wire out (R33). -/
def maskNeighbours (c : Nat) (a : State) (d : Nat) : State :=
  match neighbour c d with
  | none => a
  | some n => a.modCluster n (maskDir d)

/-- Clusters change by the wires they leave out, and every event stays. -/
structure Masked (s t : State) : Prop where
  cluster : ∀ d, t.cluster d = { s.cluster d with droopMask := (t.cluster d).droopMask }
  mask    : ∀ d i, bitOf (s.cluster d).droopMask.toNat i = true → bitOf (t.cluster d).droopMask.toNat i = true
  events  : s.events ⊆ t.events

theorem Masked.trans {s t u : State} (h₁ : Masked s t) (h₂ : Masked t u) : Masked s u :=
  ⟨fun d => (h₂.cluster d).trans (by rw [h₁.cluster d]), fun d i h => h₂.mask d i (h₁.mask d i h),
    List.Subset.trans h₁.events h₂.events⟩

theorem maskNeighbours_masked (c : Nat) (a : State) (d : Nat) : Masked a (maskNeighbours c a d) := by
  unfold maskNeighbours
  split
  · exact ⟨fun _ => rfl, fun _ _ => id, List.Subset.refl _⟩
  · next n _ =>
    refine ⟨fun k => ?_, fun k i h => ?_, List.Subset.refl _⟩
    · by_cases hk : k = n
      · rw [hk, State.modCluster_cluster_self]
        rfl
      · rw [State.modCluster_cluster_ne _ _ hk]
    · by_cases hk : k = n
      · rw [hk] at h ⊢
        rw [State.modCluster_cluster_self]
        show bitOf ((a.cluster n).droopMask ||| BitVec.ofNat 8 (2 ^ opposite d)).toNat i = true
        rw [bitOf_eq_testBit, BitVec.testBit_toNat] at h ⊢
        rw [BitVec.getLsbD_or, h, Bool.true_or]
      · rw [State.modCluster_cluster_ne _ _ hk]
        exact h

theorem maskNeighbours_bit {c d n : Nat} (hn : neighbour c d = some n) (a : State) :
    bitOf ((maskNeighbours c a d).cluster n).droopMask.toNat (opposite d) = true := by
  have ho : opposite d < 8 := Nat.mod_lt _ (by decide)
  unfold maskNeighbours
  rw [hn]
  dsimp only
  rw [State.modCluster_cluster_self]
  show bitOf ((a.cluster n).droopMask ||| BitVec.ofNat 8 (2 ^ opposite d)).toNat (opposite d) = true
  rw [bitOf_eq_testBit, BitVec.testBit_toNat, BitVec.getLsbD_or, BitVec.getLsbD_ofNat, Nat.testBit_two_pow_self]
  simp [ho]

theorem foldl_maskNeighbours (c : Nat) (l : List Nat) (s : State) : Masked s (l.foldl (maskNeighbours c) s) :=
  List.foldlRecOn (motive := Masked s) l _ ⟨fun _ => rfl, fun _ _ => id, List.Subset.refl _⟩ fun b hb d _ =>
    hb.trans (maskNeighbours_masked c b d)

theorem foldl_maskNeighbours_bit {c d n : Nat} (hn : neighbour c d = some n) (l : List Nat) (hd : d ∈ l) (s : State) :
    bitOf ((l.foldl (maskNeighbours c) s).cluster n).droopMask.toNat (opposite d) = true := by
  obtain ⟨l₁, l₂, rfl⟩ := List.append_of_mem hd
  rw [List.foldl_append, List.foldl_cons]
  exact (foldl_maskNeighbours c l₂ _).mask _ _ (maskNeighbours_bit hn _)

/-! #### Spare-out -/

theorem spareOut_acts {c : Nat} {s : State} (hs : s.inControl = true) (hc : (s.cluster c).ctl.spared = false) :
    ((spareOut c s).cluster c) = { Cluster.spareOut (s.gov (regionOf c)).engine { s.cluster c with
        slots := (s.cluster c).slots.mapAll Slot.forced } with droopMask := ((spareOut c s).cluster c).droopMask } ∧
      (∀ d n, d < 8 → neighbour c d = some n → bitOf ((spareOut c s).cluster n).droopMask.toNat (opposite d) = true) ∧
      s.events ⊆ (spareOut c s).events := by
  have hcancel := forceCancel_clusters c s
  have hmask := foldl_maskNeighbours c (List.range 8) (forceCancel c s)
  have hbit (d n : Nat) (hd : d < 8) (hn : neighbour c d = some n) :=
    foldl_maskNeighbours_bit hn (List.range 8) (List.mem_range.2 hd) (forceCancel c s)
  have heq : spareOut c s = holdDill (regionOf c) (shrinkGrant c ((((List.range 8).foldl (maskNeighbours c) (forceCancel c s)).modCluster c
      (Cluster.spareOut (s.gov (regionOf c)).engine)).modRegion (regionOf c) (fun g =>
        let g := g.voidPeriod
        if g.spec.state = .standing then { g with spec := { g.spec with abandon := true } } else g))) := by
    unfold spareOut
    rw [if_neg (by simp [hs, hc])]
    rfl
  generalize (List.range 8).foldl (maskNeighbours c) (forceCancel c s) = t at hmask hbit heq
  have hstay : ClustersStay (t.modCluster c (Cluster.spareOut (s.gov (regionOf c)).engine)) (spareOut c s) := by
    rw [heq]
    refine .trans (.modRegion (fun g => ?_) _) ((shrinkGrant_clustersStay c _).trans (holdDill_clustersStay _ _))
    dsimp only
    split <;> rfl
  have hmaskc (n : Nat) : ((spareOut c s).cluster n).droopMask = (t.cluster n).droopMask := by
    rw [hstay.cluster]
    by_cases hn : n = c
    · rw [hn, State.modCluster_cluster_self]
      rfl
    · rw [State.modCluster_cluster_ne _ _ hn]
  refine ⟨?_, fun d n hd hn => ?_, ?_⟩
  · rw [hmaskc, hstay.cluster, State.modCluster_cluster_self, hmask.cluster, hcancel.cluster, State.modCluster_cluster_self]
    rfl
  · rw [hmaskc]
    exact hbit d n hd hn
  · exact List.Subset.trans hcancel.events (List.Subset.trans hmask.events hstay.events)

theorem spareOut_spared {c : Nat} {s : State} (hs : s.inControl = true) : ((spareOut c s).cluster c).ctl.spared = true := by
  cases hc : (s.cluster c).ctl.spared with
  | false =>
    rw [(spareOut_acts hs hc).1]
    rfl
  | true =>
    unfold spareOut
    rw [if_pos (.inr hc), hc]

theorem spareOut_events (c : Nat) (s : State) : s.events ⊆ (spareOut c s).events := by
  by_cases h : s.inControl = true ∧ (s.cluster c).ctl.spared = false
  · exact (spareOut_acts h.1 h.2).2.2
  · unfold spareOut
    rw [if_pos]
    · exact List.Subset.refl _
    · by_contra hc
      rw [not_or, Bool.not_eq_false, Bool.not_eq_true] at hc
      exact h hc

/-! #### Stall reports (R347, R348) -/

theorem stallSuspect_reports {c : Nat} {hdr : MsgHdr} {s : State} (hsus : (s.cluster c).tap.suspect = false)
    (hl : s.cfg 0x9000 16 14 ≤ (s.cluster c).tap.suspTicks) (hs : s.inControl = true) (hh : Heard s 0x50 hdr) :
    stallSuspect c hdr s =
      ((((s.modCluster c (fun u => { u with tap := { u.tap with suspect := true, clearDue := false } })).send (.stall c false)).heard
        0x50 hdr).modHub (fun h => { h with stalls := if c ∈ h.stalls then h.stalls else h.stalls ++ [c] })).record 0x28 1 0 c
          (s.cluster c).tap.step := by
  unfold stallSuspect
  dsimp only
  rw [if_neg (by simp [hsus, Nat.not_lt.2 hl])]
  exact (if_pos hs).trans (hubAccept_eq _ hh)

theorem stallClear_reports {c : Nat} {hdr : MsgHdr} {s : State} (hsus : (s.cluster c).tap.suspect = true)
    (hd : (s.cluster c).tap.clearDue = true) (hs : s.inControl = true) (hc : c ∈ s.hub.stalls) (hh : Heard s 0x51 hdr) :
    stallClear c hdr s =
      ((((s.modCluster c (fun u => { u with tap := { u.tap with suspect := false, clearDue := false } })).send (.stall c true)).heard
        0x51 hdr).modHub (fun h => { h with stalls := h.stalls.filter (fun x => x != c) })).record 0x29 1 0 c
          (s.cluster c).tap.step := by
  unfold stallClear
  dsimp only
  rw [if_pos ⟨hsus, hd⟩]
  exact (if_pos ⟨hs, hc⟩).trans (hubAccept_eq _ hh)

/-! #### Summaries at the hub (R343, R344, R346) -/

theorem openMulti_stays (m : Multi) (s : State) : ClustersStay s (openMulti m s) ∧ (openMulti m s).inControl = s.inControl := by
  unfold openMulti
  generalize hu : s.modHub _ = u
  have hm : OnlyMessages u (m.due.foldl (sendPost m) u) := .foldl (sendPost_onlyMessages m) m.due u
  have h₀ : ClustersStay s u ∧ u.inControl = s.inControl := by
    rw [← hu]
    exact ⟨⟨fun _ => rfl, List.Subset.refl _⟩, rfl⟩
  refine ⟨h₀.1.trans hm.clustersStay, ?_⟩
  rw [hm, ← h₀.2]
  rfl

/-- Held multicasts that open change the hub's lists and what it sends. -/
theorem openHeld_stays (s : State) : ClustersStay s (openHeld s) ∧ (openHeld s).inControl = s.inControl := by
  unfold openHeld
  have h₀ : ClustersStay s (s.modHub (fun h => { h with heldMultis := [] })) ∧
      (s.modHub (fun h => { h with heldMultis := [] })).inControl = s.inControl := ⟨⟨fun _ => rfl, List.Subset.refl _⟩, rfl⟩
  refine List.foldlRecOn (motive := fun t : State => ClustersStay s t ∧ t.inControl = s.inControl) s.hub.heldMultis _ h₀
    fun b hb m _ => ?_
  split
  · obtain ⟨hc, hi⟩ := openMulti_stays m b
    exact ⟨hb.1.trans hc, hi.trans hb.2⟩
  · have hc : ClustersStay b (b.modHub (fun h => { h with heldMultis := h.heldMultis ++ [m] })) :=
      ⟨fun _ => rfl, List.Subset.refl _⟩
    exact ⟨hb.1.trans hc, hb.2⟩

theorem openHeld_none {s : State} (h : s.hub.heldMultis = []) : (openHeld s).hub.multis = s.hub.multis := by
  unfold openHeld
  rw [h]
  rfl

theorem selfCheck_failed {c : Nat} {s : State} (hs : s.inControl = true) :
    ((selfCheck c false s).cluster c).ctl.spared = true := spareOut_spared hs

theorem selfCheck_events (c : Nat) (ok : Bool) (s : State) : s.events ⊆ (selfCheck c ok s).events := by
  unfold selfCheck
  cases ok with
  | false => exact spareOut_events c s
  | true =>
    have hhold := (holdDill_clustersStay (regionOf c) (s.modCluster c (fun u => { u with dill := { u.dill with recovering := false } }))).events
    dsimp only
    rw [if_pos rfl]
    split
    · exact hhold
    · rw [State.raiseRoll_events]
      exact List.Subset.trans hhold (List.subset_append_left _ _)

/-! ### Summaries heard, and the obligation (R343, R344, R346) -/

theorem takeSummary_final {r : Nat} {x : Summary} {ok : Bool} {m : Multi} {s : State}
    (hm : s.hub.multis.find? (fun m => m.slot == x.slot.val) = some m) (hf : x.final = true) (hw : m.waiting = [r])
    (hh : s.hub.heldMultis = []) : ∀ y ∈ (takeSummary r x ok s).hub.multis, y.slot ≠ x.slot.val := by
  unfold takeSummary
  extract_lets k mine asked s₁ past
  have hm₁ : s₁.hub.multis.find? (fun m => m.slot == k) = some m := hm
  have hpast : past = false := by
    show (!x.final && _ && _) = false
    rw [hf]
    rfl
  rw [hm₁]
  dsimp -zeta only
  extract_lets late m' keep t
  have hlast : m'.waiting = [] := by
    show (if x.final then m.waiting.filter (fun j => j != r) else m.waiting) = []
    rw [if_pos hf, hw]
    simp
  rw [hpast, Bool.false_and, if_neg Bool.false_ne_true]
  have ht : t.hub.multis = keep s₁.hub.multis := openHeld_none (s := s₁.modHub (fun h => { h with multis := keep h.multis })) hh
  intro y hy
  rw [ht] at hy
  have hkeep : keep s₁.hub.multis = s₁.hub.multis.filter (fun y => y.slot != k) := if_pos hlast
  rw [hkeep] at hy
  simpa using (List.mem_filter.1 hy).2

theorem takeSummary_late {r : Nat} {x : Summary} {ok : Bool} {m : Multi} {s : State} {l : Nat}
    (hm : s.hub.multis.find? (fun m => m.slot == x.slot.val) = some m) (hf : x.final = false) (hw : 0 < x.waiting)
    (hr : m.raised = false) (ha : ∀ a ∈ s.await, a.msg ≠ .summaryRequest r x.slot) (hl : x.lowestWait = some l) :
    ∃ t : State, t.inControl = s.inControl ∧
      takeSummary r x ok s = selfCheck (576 * r + l % 576) ok (t.raise 196 0 (576 * r + l % 576)) := by
  unfold takeSummary
  extract_lets k mine asked s₁ past
  have hm₁ : s₁.hub.multis.find? (fun m => m.slot == k) = some m := hm
  have hasked : asked = false := by
    refine List.any_eq_false.2 fun a hmem hmine => ?_
    have hne := ha a hmem
    cases hmsg : a.msg with
    | summaryRequest j i =>
      have hji : (j == r && i == k) = true := by simpa [mine, hmsg] using hmine
      rw [Bool.and_eq_true, beq_iff_eq, beq_iff_eq] at hji
      rw [hmsg, hji.1, hji.2] at hne
      exact hne rfl
    | _ => simp [mine, hmsg] at hmine
  have hpast : past = true := by
    show (!x.final && !asked && decide (0 < x.waiting)) = true
    rw [hf, hasked, decide_eq_true hw]
    rfl
  rw [hm₁]
  dsimp -zeta only
  extract_lets late m' keep t
  rw [hpast, hr, hl, Bool.not_false, Bool.and_true, if_pos rfl]
  exact ⟨t, (openHeld_stays _).2, rfl⟩

theorem notMem_filter_ne (l : List Nat) (c : Nat) : c ∉ l.filter (fun x => x != c) := by
  simp

theorem multicastSummary_hears {r : RegionId} {hdr : MsgHdr} {x : Summary} {ok : Bool} {m : Multi} {s : State} (hh : Heard s 0x53 hdr)
    (hm : s.hub.multis.find? (fun m => m.slot == x.slot.val) = some m) :
    ∃ t, exec (.multicastSummary r hdr x ok) s = .next t ∧
      (x.final = true → m.waiting = [r.val] → s.hub.heldMultis = [] → ∀ y ∈ t.hub.multis, y.slot ≠ x.slot.val) ∧
      (x.final = false → 0 < x.waiting → m.raised = false → (∀ a ∈ s.await, a.msg ≠ .summaryRequest r x.slot) →
        ∀ l, x.lowestWait = some l → { src := 196, cause := 0, arg := 576 * r + l % 576 } ∈ t.events ∧
          (ok = false → s.inControl = true → (t.cluster (576 * r + l % 576)).ctl.spared = true)) := by
  refine ⟨_, next_hubAccept _ hh, fun hf hw hheld => ?_, fun hf hw hr ha l hl => ?_⟩
  · rw [journaled_hub]
    exact takeSummary_final (s := s.heard 0x53 hdr) hm hf hw hheld
  · obtain ⟨u, hu, ht⟩ := takeSummary_late (s := s.heard 0x53 hdr) (ok := ok) hm hf hw hr ha hl
    rw [journaled_events, journaled_cluster, ht]
    refine ⟨selfCheck_events _ ok _ (List.mem_append_right _ (List.mem_singleton_self _)), fun hok hs => ?_⟩
    rw [hok]
    exact selfCheck_failed (s := u.raise 196 0 (576 * r + l % 576)) (hu.trans hs)

/-- What a stall report changes of the clusters, it changes at its tap. -/
theorem reported_cluster (u : State) (m : Msg) (kind : Nat) (hdr : MsgHdr) (f : Shared → Shared) (code level argx source : Nat) (arg : Word)
    (n : Nat) : (((((u.send m).heard kind hdr).modHub f).record code level argx source arg).cluster n) = u.cluster n := by
  have hr : ((((u.send m).heard kind hdr).modHub f).record code level argx source arg).regions = u.regions := by
    rw [State.record_regions, State.modHub_regions]
    exact State.send_regions u m
  unfold State.cluster State.region
  rw [hr]

/-- Settles O35, clause by clause: posts and acknowledgements by what they make of one cluster's slot, the spare-out by the
clusters that each of its parts leaves. -/
theorem multicastsAndServiceOfClusters : Obligations.MulticastsAndServiceOfClusters := by
  unfold Obligations.MulticastsAndServiceOfClusters
  intro s r c hdr k sum
  refine ⟨fun p msg hs hdue => ?_, fun p msg ha hway hended => ⟨_, rfl, fun l => ?_⟩, fun m hm ha hw => ?_, fun m hm ha => ?_,
    fun m hm ha hw he code => ?_, fun x ok m hh hm => multicastSummary_hears hh hm, fun hs hc => ⟨_, rfl, ?_⟩,
    fun hsus hl hs hh => ?_, fun hsus hd hs hmem hh => ?_⟩
  · intro posts m
    refine ⟨fun hn hlen hfree => ⟨_, rfl, ?_⟩, fun hfull => next_journaled_const (multicastPost_holds hs hdue hfull)⟩
    obtain ⟨hsaid, y, hy, hslot, hwait⟩ := multicastPost_opens (mask := p.mask) (hdr := hdr) (msg := msg) hs hdue hn hlen hfree
    rw [journaled_hub]
    exact ⟨fun q hq => (hsaid q hq).journaled, y, hy, hslot, hwait⟩
  · intro u
    obtain ⟨no, v, hv, heq⟩ := multicastPost_arrives (mask := p.mask) (msg := msg)
      (others := p.others.map (fun p => (p.1.val, p.2))) ha hway
    obtain ⟨hsp, hcl⟩ := takePost_posts no p.mask.toNat hdr.epoch msg (s := v) (by rw [hv]; exact hended) l.isLt
    rw [hv, bitOf_eq_testBit, BitVec.testBit_toNat] at hsp hcl
    rw [journaled_region, heq]
    refine ⟨fun hb hu => ?_, ?_⟩
    · obtain ⟨x, hx⟩ := hsp hb hu
      refine ⟨x, ?_⟩
      rw [journaled_out, heq]
      exact hx
    · rw [hcl]
      by_cases hlive : p.mask.getLsbD l = true ∧ u.ctl.spared = false
      · rw [if_pos hlive, posted_slot]
        by_cases hopen : u.epoch = hdr.epoch ∧ (u.slot k).state = .empty
        · rw [if_pos hopen, if_pos ⟨hlive.1, hlive.2, hopen.1, hopen.2⟩]
        · rw [if_neg hopen, if_neg (fun h => hopen ⟨h.2.2.1, h.2.2.2⟩)]
      · rw [if_neg hlive, if_neg (fun h => hlive ⟨h.1, h.2.1⟩)]
  · exact congrArg Host.Outcome.next (interimSummary_sends hm ha hw)
  · exact congrArg Host.Outcome.next ((govAccept_eq _ _ ha).trans (answerSummary_sends (s := s.noted r 0x52 hdr) hm))
  · exact ⟨_, congrArg Host.Outcome.next (peerAccept_eq _ _ ha), takeChiveAck_counts (s := s.noted (regionOf c) 0x51 hdr) hm hw he⟩
  · obtain ⟨hcl, hbit, -⟩ := spareOut_acts hs hc
    rw [journaled_cluster]
    simp only [journaled_cluster]
    refine ⟨by rw [hcl]; rfl, by rw [hcl]; rfl, fun j => ?_, hbit, fun j hj => ?_⟩
    · have hlim : ((spareOut c s).cluster c).limiters.get j = { (s.cluster c).limiters.get j with
          e := if (s.gov (regionOf c)).engine then 0 else ((s.cluster c).limiters.get j).e, t := 0, cnt := 0 } := by
        rw [hcl]
        exact SMap.get_mapAll ..
      rw [hlim]
      exact ⟨rfl, rfl⟩
    · have hslot : ((spareOut c s).cluster c).slot j = ((s.cluster c).slot j).forced := by
        rw [hcl]
        exact SMap.get_mapAll ..
      rw [hslot]
      unfold Slot.forced
      rw [if_pos hj]
      exact ⟨rfl, rfl⟩
  · refine ⟨_, next_journaled_const (stallSuspect_reports hsus hl hs hh), ?_⟩
    unfold Spoken
    rw [journaled_cluster, journaled_hub, journaled_out]
    rw [reported_cluster, State.modCluster_cluster_self]
    refine ⟨rfl, ?_, ⟨_, List.mem_append_right _ (List.mem_singleton_self _)⟩, rfl⟩
    show c.val ∈ if c.val ∈ s.hub.stalls then s.hub.stalls else s.hub.stalls ++ [c.val]
    split
    · assumption
    · exact List.mem_append_right _ (List.mem_singleton_self _)
  · refine ⟨_, next_journaled_const (stallClear_reports hsus hd hs hmem hh), ?_⟩
    unfold Spoken
    rw [journaled_cluster, journaled_hub, journaled_out]
    rw [reported_cluster, State.modCluster_cluster_self]
    exact ⟨rfl, notMem_filter_ne s.hub.stalls c, ⟨_, List.mem_append_right _ (List.mem_singleton_self _)⟩, rfl⟩

end Sys2Proof.Machine
end

