-- ==== Sys2Proof/Proofs/PairMessages.lean ====
section
/-!
SUPPORT. Heartbeats, claims, probes and resent messages of the pair (R329, R370, R381, R384, R387 to R399).
-/

namespace Sys2Proof.Machine

/-! ### Claims outstanding (R394): what taking control leaves of them -/

@[simp] theorem State.claims_ite (c : Prop) [Decidable c] (s t : State) :
    (if c then s else t).pair.claims = if c then s.pair.claims else t.pair.claims := apply_ite (fun u : State => u.pair.claims) ..

@[simp] theorem claims_foldl {α : Type} {f : State → α → State} (h : ∀ a x, (f a x).pair.claims = a.pair.claims) (l : List α)
    (s : State) : (l.foldl f s).pair.claims = s.pair.claims :=
  List.foldlRecOn (motive := fun t => t.pair.claims = s.pair.claims) l f rfl fun _ ht x _ => (h _ x).trans ht

@[simp] theorem State.modRings_claims (s : State) (f : Rings → Rings) : (s.modRings f).pair.claims = s.pair.claims := by
  rfl

@[simp] theorem State.modRing_claims (s : State) (k : Nat) (f : Ring → Ring) : (s.modRing k f).pair.claims = s.pair.claims := by
  rfl

@[simp] theorem State.modThyme_claims (s : State) (f : Thyme → Thyme) : (s.modThyme f).pair.claims = s.pair.claims := by
  rfl

@[simp] theorem State.modGrant_claims (s : State) (i : Nat) (f : Grant → Grant) : (s.modGrant i f).pair.claims = s.pair.claims := by
  rfl

@[simp] theorem State.modBudget_claims (s : State) (f : Budget → Budget) : (s.modBudget f).pair.claims = s.pair.claims := by
  rfl

@[simp] theorem State.modRecorder_claims (s : State) (f : Recorder → Recorder) : (s.modRecorder f).pair.claims = s.pair.claims := by
  rfl

@[simp] theorem State.modMb_claims (s : State) (f : HostMb → HostMb) : (s.modMb f).pair.claims = s.pair.claims := by
  rfl

@[simp] theorem State.modFw_claims (s : State) (f : Firmware → Firmware) : (s.modFw f).pair.claims = s.pair.claims := by
  rfl

@[simp] theorem State.modHubOf_claims (s : State) (h : Hub) (f : HubSt → HubSt) : (s.modHubOf h f).pair.claims = s.pair.claims := by
  cases h <;> rfl

@[simp] theorem State.hubEmit_claims (s : State) (e : Effect) : (s.hubEmit e).pair.claims = s.pair.claims := by
  simp [State.hubEmit]

@[simp] theorem State.hubSend_claims (s : State) (m : Msg) : (s.hubSend m).pair.claims = s.pair.claims := by
  simp [State.hubSend]

@[simp] theorem State.hubAsk_claims (s : State) (m : Msg) : (s.hubAsk m).pair.claims = s.pair.claims := by
  simp [State.hubAsk]

@[simp] theorem State.pin_claims (s : State) (name : String) (h : Hub) (low : Bool) : (s.pin name h low).pair.claims = s.pair.claims := by
  simp [State.pin]

@[simp] theorem State.stopRing_claims (s : State) (k : Nat) (f : Ring → Ring) : (s.stopRing k f).pair.claims = s.pair.claims := by
  simp [State.stopRing]

@[simp] theorem State.memError_claims (s : State) (k : Nat) : (s.memError k).pair.claims = s.pair.claims := by
  simp [State.memError]

@[simp] theorem State.wrote_claims (s : State) (k : Nat) (bytes : List Byte) : (s.wrote k bytes).pair.claims = s.pair.claims := by
  simp [State.wrote]

@[simp] theorem writeCompletion_claims (ok : Bool) (s : State) : (writeCompletion ok s).pair.claims = s.pair.claims := by
  unfold writeCompletion; dsimp only; repeat' split
  all_goals simp

@[simp] theorem grantRecord_claims (i : Nat) (kind : Nat) (code : Nat) (cause : Nat) (s : State) : (grantRecord i kind code cause s).pair.claims = s.pair.claims := by
  simp [grantRecord]

@[simp] theorem abandonRound_claims (i : Nat) (code : Nat) (detail : Nat) (s : State) : (abandonRound i code detail s).pair.claims = s.pair.claims := by
  unfold abandonRound; dsimp only; split <;> simp

@[simp] theorem settleDecision_claims (i : Nat) (s : State) : (settleDecision i s).pair.claims = s.pair.claims := by
  unfold settleDecision; dsimp only; repeat' split
  all_goals simp

@[simp] theorem settleRelease_claims (i : Nat) (s : State) : (settleRelease i s).pair.claims = s.pair.claims := by
  unfold settleRelease; split <;> simp

@[simp] theorem settleDecisions_claims (s : State) : (settleDecisions s).pair.claims = s.pair.claims := by
  simp [settleDecisions]

@[simp] theorem dropRaises_claims (s : State) : (dropRaises s).pair.claims = s.pair.claims := by
  rfl

@[simp] theorem State.modCore_claims (s : State) (h : Hub) (k : Nat) (f : HubCore → HubCore) : (s.modCore h k f).pair.claims = s.pair.claims := by
  simp [State.modCore]

@[simp] theorem State.beginResync_claims (s : State) (h : Hub) : (s.beginResync h).pair.claims = s.pair.claims := by
  simp [State.beginResync]

@[simp] theorem State.releaseHeld_claims (s : State) : (s.releaseHeld).pair.claims = s.pair.claims := by
  exact claims_foldl (f := fun (a : State) (e : Nat × Effect) => a.emit e.2) (fun _ _ => rfl) _ _

@[simp] theorem extendGrants_claims (s : State) : (extendGrants s).pair.claims = s.pair.claims := by
  simp [extendGrants]

@[simp] theorem degradePair_claims (s : State) : (degradePair s).pair.claims = s.pair.claims := by
  unfold degradePair; dsimp only; repeat' split
  all_goals simp

@[simp] theorem startHandover_claims (s : State) : (startHandover s).pair.claims = s.pair.claims := by
  simp [startHandover]

@[simp] theorem deliverNmi_claims (h : Hub) (src : Nat) (s : State) : (deliverNmi h src s).pair.claims = s.pair.claims := by
  simp [deliverNmi]

@[simp] theorem State.raiseArb_claims (s : State) (h : Hub) (t : Nat) (v : Nat) : (s.raiseArb h t v).pair.claims = s.pair.claims := by
  simp [State.raiseArb]

@[simp] theorem stopHubCore_claims (h : Hub) (k : Nat) (s : State) : (stopHubCore h k s).pair.claims = s.pair.claims := by
  unfold stopHubCore; dsimp only; repeat' split
  all_goals simp

@[simp] theorem retakeServed_claims (k : Nat) (s : State) : (retakeServed k s).pair.claims = s.pair.claims := by
  rfl

@[simp] theorem runAgain_claims (h : Hub) (k : Nat) (cause : Nat) (s : State) : (runAgain h k cause s).pair.claims = s.pair.claims := by
  simp [runAgain]

@[simp] theorem restartHubCore_claims (h : Hub) (k : Nat) (cause : Nat) (s : State) : (restartHubCore h k cause s).pair.claims = s.pair.claims := by
  simp [restartHubCore]

@[simp] theorem State.endAct_claims (s : State) (code : Nat) (detail : Nat) : (s.endAct code detail).pair.claims = s.pair.claims := by
  unfold State.endAct; split <;> simp

@[simp] theorem State.modColl_claims (s : State) (h : Hub) (f : Collector → Collector) : (s.modColl h f).pair.claims = s.pair.claims := by
  simp [State.modColl]

@[simp] theorem setEngRun_claims (h : Hub) (low : Bool) (s : State) : (setEngRun h low s).pair.claims = s.pair.claims := by
  simp [setEngRun]

@[simp] theorem State.modCluster_claims (s : State) (c : Nat) (f : Cluster → Cluster) :
    (s.modCluster c f).pair.claims = s.pair.claims := by
  unfold State.modCluster
  simp

@[simp] theorem sendShadow_claims (s : State) (x : Shadow) : (sendShadow s x).pair.claims = s.pair.claims := by
  unfold sendShadow; split <;> simp

@[simp] theorem State.sendWord_claims (s : State) (r : Nat) (w : Word) : (s.sendWord r w).pair.claims = s.pair.claims := by
  simp [State.sendWord]

@[simp] theorem State.emitFrame_claims (s : State) (r : Nat) (f : Frame) : (s.emitFrame r f).pair.claims = s.pair.claims := by
  simp [State.emitFrame]

@[simp] theorem State.emitRead_claims (s : State) (r : Nat) (version : Bool) : (s.emitRead r version).pair.claims = s.pair.claims := by
  simp [State.emitRead]

@[simp] theorem State.startFrame_claims (s : State) (r : Nat) : (s.startFrame r).pair.claims = s.pair.claims := by
  unfold State.startFrame
  split
  · rfl
  · rfl

@[simp] theorem revokeGrant_claims (i : Nat) (cause : Nat) (s : State) : (revokeGrant i cause s).pair.claims = s.pair.claims := by
  simp [revokeGrant]

@[simp] theorem abandonRounds_claims (r : Nat) (detail : Nat) (s : State) : (abandonRounds r detail s).pair.claims = s.pair.claims := by
  simp [abandonRounds]

@[simp] theorem revokeRegion_claims (r : Nat) (s : State) : (revokeRegion r s).pair.claims = s.pair.claims := by
  simp [revokeRegion]

@[simp] theorem adoptGrant_claims (i : Nat) (s : State) : (adoptGrant i s).pair.claims = s.pair.claims := by
  unfold adoptGrant; dsimp only; split <;> simp

@[simp] theorem adoptGrants_claims (s : State) : (adoptGrants s).pair.claims = s.pair.claims := by
  simp [adoptGrants]

@[simp] theorem adoptGroups_claims (s : State) : (adoptGroups s).pair.claims = s.pair.claims := by
  simp [adoptGroups]

@[simp] theorem sendPost_claims (m : Multi) (s : State) (r : Nat) : (sendPost m s r).pair.claims = s.pair.claims := by
  simp [sendPost]

@[simp] theorem adoptMailboxes_claims (s : State) : (adoptMailboxes s).pair.claims = s.pair.claims := by
  simp [adoptMailboxes]

@[simp] theorem runChiveAgain_claims (c : Nat) (cause : Nat) (s : State) : (runChiveAgain c cause s).pair.claims = s.pair.claims := by
  simp [runChiveAgain]

@[simp] theorem stopChive_claims (c : Nat) (s : State) : (stopChive c s).pair.claims = s.pair.claims := by
  simp [stopChive]

@[simp] theorem restartChive_claims (c : Nat) (cause : Nat) (s : State) : (restartChive c cause s).pair.claims = s.pair.claims := by
  simp [restartChive]

@[simp] theorem restartCore_claims (core : CoreId) (cause : Nat) (s : State) : (restartCore core cause s).pair.claims = s.pair.claims := by
  unfold restartCore; split <;> simp

@[simp] theorem State.modAct_claims (s : State) (f : Activation → Activation) : (s.modAct f).pair.claims = s.pair.claims := by
  simp [State.modAct]

@[simp] theorem clearStops_claims (t : Nat) (s : State) : (clearStops t s).pair.claims = s.pair.claims := by
  simp [clearStops]

@[simp] theorem State.finishAct_claims (s : State) : (s.finishAct).pair.claims = s.pair.claims := by
  unfold State.finishAct; dsimp only; repeat' split
  all_goals simp

@[simp] theorem flipHubCore_claims (h : Hub) (k : Nat) (back : Bool) (s : State) : (flipHubCore h k back s).pair.claims = s.pair.claims := by
  simp [flipHubCore]

@[simp] theorem goBack_claims (a : Activation) (s : State) : (goBack a s).pair.claims = s.pair.claims := by
  simp [goBack]

@[simp] theorem coreTurn_claims {next : State → State} (h : ∀ t, (next t).pair.claims = t.pair.claims) (a : Activation)
    (k : Hub) (s : State) : (coreTurn a k next s).pair.claims = s.pair.claims := by
  simp [coreTurn, h]

@[simp] theorem ownerStep_claims (a : Activation) (s : State) : (ownerStep a s).pair.claims = s.pair.claims := by
  unfold ownerStep; split <;> simp

@[simp] theorem switchStep_claims (s : State) : (switchStep s).pair.claims = s.pair.claims := by
  unfold switchStep; repeat' split
  all_goals simp

@[simp] theorem flipChive_claims (c : Nat) (back : Bool) (s : State) : (flipChive c back s).pair.claims = s.pair.claims := by
  simp [flipChive]

@[simp] theorem switchChive_claims (c : Nat) (s : State) : (switchChive c s).pair.claims = s.pair.claims := by
  simp [switchChive]

@[simp] theorem backWave_claims (w : Nat) (s : State) : (backWave w s).pair.claims = s.pair.claims := by
  simp [backWave]

@[simp] theorem startWave_claims (w : Nat) (s : State) : (startWave w s).pair.claims = s.pair.claims := by
  simp [startWave]

@[simp] theorem switchStopped_claims (w : Nat) (s : State) : (switchStopped w s).pair.claims = s.pair.claims := by
  simp [switchStopped]

@[simp] theorem waveStep_claims (s : State) : (waveStep s).pair.claims = s.pair.claims := by
  unfold waveStep; split <;> simp

@[simp] theorem holdDrained_claims (s : State) : (holdDrained s).pair.claims = s.pair.claims := by
  unfold holdDrained; split <;> simp

@[simp] theorem adoptActivation_claims (s : State) : (adoptActivation s).pair.claims = s.pair.claims := by
  simp [adoptActivation]

@[simp] theorem blockReset_claims (e : Event) (s : State) : (blockReset e s).pair.claims = s.pair.claims := by
  unfold blockReset; repeat' split
  all_goals simp

@[simp] theorem react_claims (h : Hub) (e : Event) (set : Nat) (s : State) : (react h e set s).pair.claims = s.pair.claims := by
  simp [react]

@[simp] theorem answerRead_claims (h : Hub) (off : Nat) (s : State) : (answerRead h off s).pair.claims = s.pair.claims := by
  simp [answerRead]

@[simp] theorem startRegions_claims (s : State) : (startRegions s).pair.claims = s.pair.claims := by
  simp [startRegions]

@[simp] theorem adoptStage_claims (s : State) : (adoptStage s).pair.claims = s.pair.claims := by
  simp [adoptStage]

@[simp] theorem answerReads_claims (s : State) : (answerReads s).pair.claims = s.pair.claims := by
  unfold answerReads; split <;> simp

@[simp] theorem rewriteCompletions_claims (s : State) : (rewriteCompletions s).pair.claims = s.pair.claims := by
  simp [rewriteCompletions]

@[simp] theorem revokeLatched_claims (s : State) : (revokeLatched s).pair.claims = s.pair.claims := by
  simp [revokeLatched]

@[simp] theorem recoverWork_claims (code : Nat) (s : State) : (recoverWork code s).pair.claims = s.pair.claims := by
  simp [recoverWork]

@[simp] theorem missingReactions_claims (h : Hub) (s : State) : (missingReactions h s).pair.claims = s.pair.claims := by
  simp [missingReactions]

@[simp] theorem takeControl_claims (s : State) : (takeControl s).pair.claims = s.pair.claims := by
  have hcold : (sidebandTargets.foldl (fun (a : State) (p : Nat × Nat) => a.emit (.setdasa p.1 p.2)) s).pair.claims = s.pair.claims :=
    claims_foldl (f := fun (a : State) (p : Nat × Nat) => a.emit (.setdasa p.1 p.2)) (fun _ _ => rfl) _ _
  unfold takeControl; dsimp only; repeat' split
  all_goals simp [hcold]

@[simp] theorem reachStep_claims (n : Nat) (s : State) : (reachStep n s).pair.claims = s.pair.claims := by
  simp [reachStep]

@[simp] theorem startDone_claims (s : State) : (startDone s).pair.claims = s.pair.claims := by
  unfold startDone; split <;> simp

/-! ### Blocks and heartbeats at a hub that does not own (R381, R388, R392, R400) -/

/-- What a block leaves of the hub's role and of the pair's handover. -/
structure RoleStays (h : Hub) (s t : State) : Prop where
  role    : (t.hubOf h).role = (s.hubOf h).role
  epoch   : (t.hubOf h).epoch = (s.hubOf h).epoch
  goodRun : (t.hubOf h).goodRun = (s.hubOf h).goodRun
  hand    : t.pair.handStep = s.pair.handStep

theorem RoleStays.refl (h : Hub) (s : State) : RoleStays h s s := ⟨rfl, rfl, rfl, rfl⟩

theorem RoleStays.modHubOf {h : Hub} {s t : State} (i : RoleStays h s t) {f : HubSt → HubSt} (hr : ∀ u, (f u).role = u.role)
    (he : ∀ u, (f u).epoch = u.epoch) (hg : ∀ u, (f u).goodRun = u.goodRun) : RoleStays h s (t.modHubOf h f) := by
  refine ⟨?_, ?_, ?_, ?_⟩
  · rw [State.modHubOf_hubOf_self, hr, i.role]
  · rw [State.modHubOf_hubOf_self, he, i.epoch]
  · rw [State.modHubOf_hubOf_self, hg, i.goodRun]
  · rw [State.modHubOf_pair, i.hand]

theorem RoleStays.modPair {h : Hub} {s t : State} (i : RoleStays h s t) {f : Pair → Pair} (hf : ∀ p, (f p).handStep = p.handStep) :
    RoleStays h s (t.modPair f) := by
  refine ⟨?_, ?_, ?_, (hf _).trans i.hand⟩
  · rw [modPair_hubOf, i.role]
  · rw [modPair_hubOf, i.epoch]
  · rw [modPair_hubOf, i.goodRun]

theorem RoleStays.raise {h : Hub} {s t : State} (i : RoleStays h s t) (src cause arg : Nat) :
    RoleStays h s (t.raise src cause arg) := by
  obtain ⟨hr, he, hg, hh⟩ := i
  cases h
  · exact ⟨hr, he, hg, hh⟩
  · exact ⟨hr, he, hg, hh⟩

theorem standbyBlock_stays (h : Hub) (seq : Nat) (differs : Bool) (s : State) : RoleStays h s (standbyBlock h seq differs s) := by
  have hseen (u : State) (i : RoleStays h s u) (f : HubSt → HubSt) (hf : ∀ u, (f u).role = u.role ∧ (f u).epoch = u.epoch ∧
      (f u).goodRun = u.goodRun) : RoleStays h s (u.modHubOf h f) :=
    i.modHubOf (fun u => (hf u).1) (fun u => (hf u).2.1) (fun u => (hf u).2.2)
  have h0 := RoleStays.refl h s
  unfold standbyBlock
  dsimp only
  have hstep : ∀ t : State, RoleStays h s t →
      RoleStays h s (if differs = true ∧ (s.hubOf h).role = .valid then t.raise 201 0 else t) := by
    intro t ht
    split
    · exact ht.raise ..
    · exact ht
  apply hstep
  split
  · split
    · exact h0
    · split
      · exact hseen s h0 _ fun u => ⟨rfl, rfl, rfl⟩
      · exact hseen _ (h0.modPair (f := fun p => { p with image := p.snapshot _ }) fun p => rfl) _ fun u => ⟨rfl, rfl, rfl⟩
  · split
    · exact hseen s h0 _ fun u => ⟨rfl, rfl, rfl⟩
    · exact h0

/-- A block at a hub that does not own leaves its role, its epoch and the handover. -/
theorem takeBlock_stays {h : Hub} {s : State} (hr : (s.hubOf h).role ≠ .owner) (wrong seq ack : Nat) (differs : Bool) :
    RoleStays h s (takeBlock h wrong seq ack differs s) := by
  unfold takeBlock
  dsimp only
  have hcount (f : Pair → Pair) (hf : ∀ p, (f p).handStep = p.handStep) :
      RoleStays h s ((s.modPair f).modHubOf h (fun u => { u with silentMir := 0 })) :=
    ((RoleStays.refl h s).modPair hf).modHubOf (fun u => rfl) (fun u => rfl) fun u => rfl
  split
  · exact (RoleStays.refl h s).modPair fun p => rfl
  · have i := hcount (fun p => { p with
      corrBlk := if decide (wrong ≤ 8) && decide (0 < wrong) then satAdd 0xFFFF p.corrBlk 1 else p.corrBlk
      badBlk := if decide (wrong ≤ 8) then p.badBlk else satAdd 0xFF p.badBlk 1 }) fun p => rfl
    have hblock (u : State) (hu : RoleStays h s u) : RoleStays h s (standbyBlock h seq differs u) := by
      obtain ⟨ar, ae, ag, ah⟩ := standbyBlock_stays h seq differs u
      exact ⟨ar.trans hu.role, ae.trans hu.epoch, ag.trans hu.goodRun, ah.trans hu.hand⟩
    split
    next => exact hblock _ i
    next => exact hblock _ i
    next => exact hblock _ i
    next ho => exact absurd (i.role.symm.trans ho) hr
    next => exact i

/-- What a heartbeat says to a standby (R387, R392, R399, R400): the silences of its path end, the epoch is the owner's, a DROP takes it
out of VALID, and a YIELD at a valid one moves the handover. -/
structure BeatTaken (h : Hub) (path : HbPath) (b : Beat) (s t : State) : Prop where
  quiet : (t.hubOf h).silentHb = 0 ∧ (path = .mirror → (t.hubOf h).silentMir = 0) ∧ (path = .mgmt → (t.hubOf h).silentMgmt = 0)
  epoch : (t.hubOf h).epoch = if b.role = 0 ∧ b.epoch ≠ 0 then b.epoch else (s.hubOf h).epoch
  role  : (t.hubOf h).role = if b.drop then .resyncing else (s.hubOf h).role
  hand  : t.pair.handStep = if (s.hubOf h).role = .valid ∧ b.drop = false ∧ b.yield = true ∧ b.role = 0 ∧ s.pair.handStep = 3
    then 4 else s.pair.handStep

@[simp] theorem beginResync_hubOf (s : State) (h : Hub) : (s.beginResync h).hubOf h = { s.hubOf h with role := .resyncing } := by
  cases h <;> rfl

@[simp] theorem beginResync_hand (s : State) (h : Hub) : (s.beginResync h).pair.handStep = s.pair.handStep := by
  cases h <;> rfl

theorem goodBeat_standby {h : Hub} {s : State} (hr : (s.hubOf h).role = .valid ∨ (s.hubOf h).role = .resyncing) (path : HbPath)
    (b : Beat) : BeatTaken h path b s (goodBeat h path b s) := by
  have hno : ¬ (((s.hubOf h).role = .owner ∨ (s.hubOf h).role = .yielding) ∧ epochHigher b.epoch (s.hubOf h).epoch) := by
    rintro ⟨ho | ho, -⟩ <;> rw [ho] at hr <;> simp at hr
  unfold goodBeat
  dsimp only
  rw [if_neg hno]
  obtain hv | hv := hr
  case' inl =>
    rw [hv]
    dsimp only
    by_cases hd : b.drop = true
    · rw [if_pos hd]
      constructor <;> cases path <;> simp [hv, hd]
    · rw [if_neg hd, State.modHubOf_pair]
      by_cases hy : b.yield = true ∧ b.role = 0 ∧ s.pair.handStep = 3
      · rw [if_pos hy]
        constructor <;> cases path <;> simp [modPair_hubOf, hv, hd, hy]
      · rw [if_neg hy]
        constructor <;> cases path <;> simp [hv, hd]
        all_goals exact fun h1 h2 h3 => absurd ⟨h1, h2, h3⟩ hy
  case' inr =>
    rw [hv]
    dsimp only
    constructor <;> cases path <;> simp [State.modHubOf_hubOf_self, hv]

/-- A heartbeat that counts: its block is taken, then what it says (R392). -/
theorem takeBeat_mirror {s : State} {x : Beat} (hb : BeatCounts s .mirror x) (h : Hub) :
    takeBeat h .mirror x s = goodBeat h .mirror x (takeBlock h x.wrong x.seq x.ack false s) := by
  obtain ⟨hl, hw⟩ := hb
  unfold takeBeat
  dsimp only
  rw [if_neg (by simp [hl]), if_neg (Nat.not_lt.2 hw)]

theorem takeBeat_mgmt {s : State} {x : Beat} (hb : BeatCounts s .mgmt x) (h : Hub) :
    takeBeat h .mgmt x s = goodBeat h .mgmt (beatSaid .mgmt x) s := if_pos hb

/-- A heartbeat that counts, at a standby. -/
theorem takeBeat_standby {h : Hub} {s : State} {p : HbPath} {x : Beat} (hb : BeatCounts s p x)
    (hr : (s.hubOf h).role = .valid ∨ (s.hubOf h).role = .resyncing) : BeatTaken h p (beatSaid p x) s (takeBeat h p x s) := by
  cases p with
  | mirror =>
    have hne : (s.hubOf h).role ≠ .owner := by rintro ho; rw [ho] at hr; simp at hr
    obtain ⟨ir, ie, -, ih⟩ := takeBlock_stays hne x.wrong x.seq x.ack false
    rw [takeBeat_mirror hb]
    obtain ⟨hq, he, hrole, hh⟩ := goodBeat_standby (s := takeBlock h x.wrong x.seq x.ack false s) (by rwa [ir]) .mirror x
    exact ⟨hq, by rw [he, ie]; rfl, by rw [hrole, ir]; rfl, by rw [hh, ir, ih]; rfl⟩
  | mgmt =>
    rw [takeBeat_mgmt hb]
    exact goodBeat_standby hr .mgmt _

/-- The owner's block lengthens a fenced hub's run; with the twentieth the hub rejoins. -/
theorem goodBeat_fenced {h : Hub} {s : State} {b : Beat} (hr : (s.hubOf h).role = .fenced) (ho : b.role = 0) :
    let t := goodBeat h .mirror b s
    if 19 ≤ (s.hubOf h).goodRun then (t.hubOf h).role = .resyncing ∧ (t.hubOf h).epoch = b.epoch
    else (t.hubOf h).role = .fenced ∧ (t.hubOf h).goodRun = (s.hubOf h).goodRun + 1 := by
  have hno : ¬ (((s.hubOf h).role = .owner ∨ (s.hubOf h).role = .yielding) ∧ epochHigher b.epoch (s.hubOf h).epoch) := by simp [hr]
  by_cases h19 : 19 ≤ (s.hubOf h).goodRun
  · rw [if_pos h19]
    unfold goodBeat
    dsimp only
    rw [if_neg hno]
    simp only [hr]
    rw [if_pos (by simpa [ho, hr] using h19)]
    simp
  · rw [if_neg h19]
    unfold goodBeat
    dsimp only
    rw [if_neg hno]
    simp only [hr]
    rw [if_neg (by simpa [ho, hr] using h19)]
    simp [hr, ho]

/-- Twenty good blocks of the owner in a row let a fenced hub rejoin (R381). -/
theorem takeBeat_fenced {h : Hub} {s : State} {b : Beat} (hb : BeatCounts s .mirror b) (hr : (s.hubOf h).role = .fenced)
    (ho : b.role = 0) :
    let t := takeBeat h .mirror b s
    if 19 ≤ (s.hubOf h).goodRun then (t.hubOf h).role = .resyncing ∧ (t.hubOf h).epoch = b.epoch
    else (t.hubOf h).role = .fenced ∧ (t.hubOf h).goodRun = (s.hubOf h).goodRun + 1 := by
  obtain ⟨ir, -, ig, -⟩ := takeBlock_stays (s := s) (h := h) (by simp [hr]) b.wrong b.seq b.ack false
  rw [takeBeat_mirror hb, ← ig]
  exact goodBeat_fenced (ir.trans hr) ho

/-! ### What the owner's side of the pair releases (R388, R390, R398) -/

/-- Only the hubs' shared state differs. -/
def OnlyShared (s t : State) : Prop := t = { s with hub := t.hub }

theorem OnlyShared.refl (s : State) : OnlyShared s s := rfl

theorem OnlyShared.trans {s t u : State} (h₁ : OnlyShared s t) (h₂ : OnlyShared t u) : OnlyShared s u := by
  unfold OnlyShared at *
  exact h₂.trans (by rw [h₁])

theorem OnlyShared.foldl {α : Type} {f : State → α → State} (h : ∀ a x, OnlyShared a (f a x)) (l : List α) (s : State) :
    OnlyShared s (l.foldl f s) :=
  List.foldlRecOn (motive := OnlyShared s) l f (.refl s) fun b hb a _ => hb.trans (h b a)

theorem complete_onlyShared (s : State) (cmd : CmdRef) (code detail : Nat) (result : List Byte) :
    OnlyShared s (s.complete cmd code detail result) := by
  unfold State.complete
  split <;> rfl

theorem settleDecision_onlyShared (i : Nat) (s : State) : OnlyShared s (settleDecision i s) := by
  unfold settleDecision
  dsimp only
  split
  · split
    · refine OnlyShared.trans ?_ (complete_onlyShared ..)
      rfl
    · rfl
  · exact .refl s

theorem settleRelease_onlyShared (i : Nat) (s : State) : OnlyShared s (settleRelease i s) := by
  unfold settleRelease
  split
  · split
    · rfl
    · exact .refl s
  · exact .refl s

theorem settleDecisions_onlyShared (s : State) : OnlyShared s (settleDecisions s) :=
  (OnlyShared.foldl (fun a i => settleDecision_onlyShared i a) _ s).trans (.foldl (fun a i => settleRelease_onlyShared i a) _ _)

theorem extendGrants_onlyShared (s : State) : OnlyShared s (extendGrants s) := by
  refine .foldl (fun a i => ?_) _ s
  rfl

section
variable {s t : State} (h : OnlyShared s t)
include h

theorem OnlyShared.out : t.out = s.out := by rw [h]
theorem OnlyShared.pair : t.pair = s.pair := by rw [h]
theorem OnlyShared.events : t.events = s.events := by rw [h]
theorem OnlyShared.hubOf (k : Hub) : t.hubOf k = s.hubOf k := by rw [h]; cases k <;> rfl

end

/-- The held effects leave, each in its turn. -/
theorem emitHeld_eq (l : List (Nat × Effect)) (s : State) :
    l.foldl (fun (a : State) e => a.emit e.2) s = { s with out := s.out ++ l.map (·.2) } := by
  induction l generalizing s with
  | nil => simp
  | cons e l ih => rw [List.foldl_cons, ih]; simp [State.emit]

theorem releaseHeld_eq (s : State) : s.releaseHeld = { s with
    pair := { s.pair with heldEff := [], journal := [], blocks := [], sent := s.pair.jn }
    out := s.out ++ s.pair.heldEff.map (·.2) } := emitHeld_eq _ _

/-- What a DEGRADED pair has let go (R398): nothing is held any more, and the fault is raised. -/
structure Degraded (s t : State) : Prop where
  degraded : t.pair.degraded = true
  paired   : t.pair.paired = false
  probing  : t.pair.probing = false
  out      : s.out ⊆ t.out
  released : ∀ x ∈ s.pair.heldEff, x.2 ∈ t.out
  event    : { src := 201, cause := 1 } ∈ t.events

theorem settled_degraded {s w : State} (hdeg : w.pair.degraded = true) (hpd : w.pair.paired = false) (hpr : w.pair.probing = false)
    (hheld : w.pair.heldEff = s.pair.heldEff) (hout : w.out = s.out) :
    Degraded s (settleDecisions (extendGrants (w.raise 201 1).releaseHeld)) := by
  have i := (extendGrants_onlyShared (w.raise 201 1).releaseHeld).trans (settleDecisions_onlyShared _)
  generalize settleDecisions (extendGrants (w.raise 201 1).releaseHeld) = v at i
  have hp := i.pair
  have ho := i.out
  have he := i.events
  rw [releaseHeld_eq] at hp ho he
  constructor
  · rw [hp]; exact hdeg
  · rw [hp]; exact hpd
  · rw [hp]; exact hpr
  · rw [ho, ← hout]
    exact List.subset_append_left _ _
  · intro x hx
    rw [ho]
    exact List.mem_append_right _ (List.mem_map_of_mem (show x ∈ w.pair.heldEff from hheld ▸ hx))
  · rw [he]
    exact List.mem_append_right _ (List.mem_singleton.2 rfl)

theorem degradePair_degraded {s : State} (hd : s.pair.degraded = false) : Degraded s (degradePair s) := by
  unfold degradePair
  rw [if_neg (by simp [hd])]
  dsimp only
  split
  next k _ => cases k <;> exact settled_degraded rfl rfl rfl rfl rfl
  next => exact settled_degraded rfl rfl rfl rfl rfl

/-! ### A beat at the owner (R388, R397, R399) -/

/-- What a block leaves at the owner: the roles, the epochs and the pair's state; an effect that leaves its list has gone out. -/
structure OwnerKeeps (s t : State) : Prop where
  role     : ∀ k, (t.hubOf k).role = (s.hubOf k).role
  epoch    : ∀ k, (t.hubOf k).epoch = (s.hubOf k).epoch
  paired   : t.pair.paired = s.pair.paired
  degraded : t.pair.degraded = s.pair.degraded
  out      : s.out ⊆ t.out
  held     : ∀ x ∈ s.pair.heldEff, x ∈ t.pair.heldEff ∨ x.2 ∈ t.out

theorem owner_of_hubs {s t : State} (hr : ∀ k, (t.hubOf k).role = (s.hubOf k).role) (he : ∀ k, (t.hubOf k).epoch = (s.hubOf k).epoch) :
    t.owner = s.owner := by
  have ha := hr .a; have hb := hr .b; have ea := he .a; have eb := he .b
  simp only [State.hubOf] at ha hb ea eb
  simp only [State.owner, ha, hb, ea, eb]

theorem role_of_owner {s : State} {h : Hub} (ho : s.owner = some h) : (s.hubOf h).role = .owner := by
  unfold State.owner at ho
  split at ho
  case isTrue ha =>
    split at ho
    case isTrue hb => cases ho; exact hb.1
    case isFalse hb => cases ho; exact ha
  case isFalse ha =>
    split at ho
    case isTrue hb => cases ho; exact hb
    case isFalse hb => cases ho

/-- A change of a hub that leaves its role and epoch. -/
theorem modHubOf_sameRoles (s : State) (h : Hub) {f : HubSt → HubSt} (hr : ∀ u, (f u).role = u.role) (he : ∀ u, (f u).epoch = u.epoch)
    (k : Hub) : ((s.modHubOf h f).hubOf k).role = (s.hubOf k).role ∧ ((s.modHubOf h f).hubOf k).epoch = (s.hubOf k).epoch := by
  by_cases hk : k = h
  · subst hk; rw [State.modHubOf_hubOf_self]; exact ⟨hr _, he _⟩
  · rw [modHubOf_hubOf_ne hk]; exact ⟨rfl, rfl⟩

theorem pump_pair (h : Hub) (p : Pair) : (Pair.pump h p).paired = p.paired ∧ (Pair.pump h p).degraded = p.degraded ∧
    (Pair.pump h p).heldEff = p.heldEff := by
  unfold Pair.pump
  split
  · exact ⟨rfl, rfl, rfl⟩
  · cases h <;> exact ⟨rfl, rfl, rfl⟩

theorem ownerBlock_keeps (h : Hub) (ack : Nat) (s : State) : OwnerKeeps s (ownerBlock h ack s) := by
  unfold ownerBlock
  extract_lets n again go t
  have ht : t.pair.paired = s.pair.paired ∧ t.pair.degraded = s.pair.degraded ∧
      t.pair.heldEff = s.pair.heldEff.filter (fun e => decide (n < e.1)) := by
    unfold t
    generalize again = c
    cases c
    · cases h <;> exact ⟨rfl, rfl, rfl⟩
    · cases h
      · exact pump_pair .a _
      · exact pump_pair .b _
  have hroles (k : Hub) : (t.hubOf k).role = (s.hubOf k).role ∧ (t.hubOf k).epoch = (s.hubOf k).epoch := by
    rw [show t.hubOf k = _ from modPair_hubOf _ _ k]
    exact modHubOf_sameRoles s h (f := fun u => { u with ackSeen := ack }) (fun _ => rfl) (fun _ => rfl) k
  obtain ⟨hpd, hdg, hheld⟩ := ht
  have i := settleDecisions_onlyShared (go.foldl (fun (a : State) e => a.emit e.2) t)
  generalize settleDecisions _ = v at i
  have hp := i.pair
  have ho := i.out
  have hh := i.hubOf
  rw [emitHeld_eq] at hp ho hh
  refine ⟨fun k => ?_, fun k => ?_, ?_, ?_, ?_, fun x hx => ?_⟩
  · rw [hh k]; exact (hroles k).1
  · rw [hh k]; exact (hroles k).2
  · rw [hp]; exact hpd
  · rw [hp]; exact hdg
  · rw [ho, show t.out = s.out from State.modHubOf_out ..]
    exact List.subset_append_left _ _
  · rw [hp, ho]
    by_cases hn : n < x.1
    · exact .inl (hheld ▸ List.mem_filter.2 ⟨hx, decide_eq_true hn⟩)
    · exact .inr (List.mem_append_right _ (List.mem_map_of_mem
        (List.mem_filter.2 ⟨hx, decide_eq_true (Nat.le_of_not_lt hn)⟩)))

theorem OwnerKeeps.of_same {s t : State} (hr : ∀ k, (t.hubOf k).role = (s.hubOf k).role ∧ (t.hubOf k).epoch = (s.hubOf k).epoch)
    (hp : t.pair.paired = s.pair.paired) (hd : t.pair.degraded = s.pair.degraded) (hh : t.pair.heldEff = s.pair.heldEff)
    (ho : t.out = s.out) : OwnerKeeps s t :=
  ⟨fun k => (hr k).1, fun k => (hr k).2, hp, hd, ho ▸ List.Subset.refl _, fun _ hx => .inl (hh ▸ hx)⟩

theorem OwnerKeeps.before {s t u : State} (i : OwnerKeeps s t) (hr : ∀ k, (s.hubOf k).role = (u.hubOf k).role ∧
    (s.hubOf k).epoch = (u.hubOf k).epoch) (hp : s.pair.paired = u.pair.paired) (hd : s.pair.degraded = u.pair.degraded)
    (hh : s.pair.heldEff = u.pair.heldEff) (ho : s.out = u.out) : OwnerKeeps u t :=
  ⟨fun k => (i.role k).trans (hr k).1, fun k => (i.epoch k).trans (hr k).2, i.paired.trans hp, i.degraded.trans hd,
    ho ▸ i.out, fun x hx => i.held x (hh ▸ hx)⟩

theorem takeBlock_keeps {h : Hub} {s : State} (ho : (s.hubOf h).role = .owner) {wrong : Nat} (hw : wrong ≤ 8) (seq ack : Nat)
    (differs : Bool) : OwnerKeeps s (takeBlock h wrong seq ack differs s) := by
  unfold takeBlock
  dsimp only
  rw [decide_eq_true hw, if_neg (by simp)]
  generalize hu : State.modHubOf _ h (fun u => { u with silentMir := 0 }) = u
  have hroles (k : Hub) : (u.hubOf k).role = (s.hubOf k).role ∧ (u.hubOf k).epoch = (s.hubOf k).epoch := by
    obtain ⟨ir, ie⟩ := modHubOf_sameRoles (s.modPair (fun p => { p with
      corrBlk := if true && decide (0 < wrong) then satAdd 0xFFFF p.corrBlk 1 else p.corrBlk
      badBlk := if true then p.badBlk else satAdd 0xFF p.badBlk 1 })) h (f := fun u => { u with silentMir := 0 }) (fun _ => rfl)
      (fun _ => rfl) k
    rw [← hu]
    rw [modPair_hubOf] at ir ie
    exact ⟨ir, ie⟩
  have hpair : u.pair.paired = s.pair.paired ∧ u.pair.degraded = s.pair.degraded ∧ u.pair.heldEff = s.pair.heldEff := by
    rw [← hu, State.modHubOf_pair]
    exact ⟨rfl, rfl, rfl⟩
  obtain ⟨hp, hd, hh⟩ := hpair
  have hout : u.out = s.out := by rw [← hu, State.modHubOf_out]; rfl
  rw [(hroles h).1, ho]
  dsimp only
  split
  · exact (ownerBlock_keeps h ack u).before hroles hp hd hh hout
  · exact .of_same hroles hp hd hh hout

theorem fence_role (s : State) (h : Hub) : ((s.fence h).hubOf h).role = .fenced := by
  unfold State.fence
  dsimp only
  split <;> cases h <;> rfl

theorem fence_owner_pair {s : State} {h : Hub} (ho : s.owner = some h) : (s.fence h).pair =
    { s.pair with heldEff := [], claims := [], probes := [], probing := false, handStep := 0 } := by
  unfold State.fence
  dsimp only
  rw [if_pos ho]
  cases h <;> rfl

/-- An owner that hears a higher epoch is fenced (R397). -/
theorem goodBeat_overtaken {h : Hub} {s : State} (ho : s.owner = some h) {b : Beat} (he : epochHigher b.epoch (s.hubOf h).epoch = true)
    (p : HbPath) : goodBeat h p b s = s.fence h := by
  have hr := role_of_owner ho
  unfold goodBeat
  dsimp only
  rw [if_pos ⟨.inl hr, he⟩, if_pos hr]

/-- An owner that hears of a fenced standby drops it (R399). -/
theorem goodBeat_dropped {h : Hub} {s : State} (hr : (s.hubOf h).role = .owner) {b : Beat}
    (he : epochHigher b.epoch (s.hubOf h).epoch = false) (hb : b.role = 1) (hp : s.pair.paired = true) (hd : s.pair.degraded = false)
    (p : HbPath) : Degraded s (goodBeat h p b s) := by
  unfold goodBeat
  dsimp only
  rw [if_neg (by simp [he]), hr]
  dsimp only
  rw [State.modHubOf_pair, if_pos ⟨hb, hp⟩]
  generalize hu : s.modHubOf h _ = u
  have hpair : u.pair = s.pair := by rw [← hu, State.modHubOf_pair]
  have hout : u.out = s.out := by rw [← hu, State.modHubOf_out]
  obtain ⟨h1, h2, h3, h4, h5, h6⟩ := degradePair_degraded (s := u) (by rw [hpair]; exact hd)
  exact ⟨h1, h2, h3, hout ▸ h4, hpair ▸ h5, h6⟩

/-! ### Heartbeats at the owner (R388, R397, R399) -/

section
variable {s : State} {h : Hub} {p : HbPath} {x : Beat} (hb : BeatCounts s p x) (ho : s.owner = some h)
include hb ho

/-- A heartbeat of a higher epoch fences the owner that hears it; a message of it lets nothing out (R397). -/
theorem takeBeat_overtaken (he : epochHigher (beatSaid p x).epoch (s.hubOf h).epoch = true) :
    let t := takeBeat h p x s
    (t.hubOf h).role = .fenced ∧ t.pair.heldEff = [] ∧ (p = .mgmt → t.out = s.out) := by
  cases p with
  | mirror =>
    obtain ⟨ir, ie, -, -, -, -⟩ := takeBlock_keeps (role_of_owner ho) hb.2 x.seq x.ack false
    rw [takeBeat_mirror hb]
    generalize takeBlock h x.wrong x.seq x.ack false s = u at ir ie
    have hu : u.owner = some h := (owner_of_hubs ir ie).trans ho
    rw [goodBeat_overtaken hu (by rw [ie]; exact he)]
    exact ⟨fence_role u h, by rw [fence_owner_pair hu], fun hp => nomatch hp⟩
  | mgmt =>
    rw [takeBeat_mgmt hb, goodBeat_overtaken ho he]
    exact ⟨fence_role s h, by rw [fence_owner_pair ho], fun _ => State.fence_out s h⟩

/-- The owner that hears of a fenced standby makes the pair DEGRADED, and what waited for its journal leaves (R390, R399). -/
theorem takeBeat_dropped (he : epochHigher (beatSaid p x).epoch (s.hubOf h).epoch = false) (hr : (beatSaid p x).role = 1)
    (hp : s.pair.paired = true) (hd : s.pair.degraded = false) : Degraded s (takeBeat h p x s) := by
  cases p with
  | mirror =>
    obtain ⟨ir, ie, ip, idg, io, ih⟩ := takeBlock_keeps (role_of_owner ho) hb.2 x.seq x.ack false
    rw [takeBeat_mirror hb]
    generalize takeBlock h x.wrong x.seq x.ack false s = u at ir ie ip idg io ih
    obtain ⟨h1, h2, h3, h4, h5, h6⟩ := goodBeat_dropped ((ir h).trans (role_of_owner ho)) (b := x) (by rw [ie]; exact he) hr
      (ip.trans hp) (idg.trans hd) .mirror
    exact ⟨h1, h2, h3, fun y hy => h4 (io hy), fun y hy => (ih y hy).elim (h5 y) fun hl => h4 hl, h6⟩
  | mgmt =>
    rw [takeBeat_mgmt hb]
    exact goodBeat_dropped (role_of_owner ho) he hr hp hd .mgmt

end

/-- A bad block at a hub is counted, and breaks a fenced hub's run (R381, R404). -/
theorem takeBeat_badBlock {s : State} {b : Beat} (hl : s.pair.linkUp = true) (hw : 8 < b.wrong) (h : Hub) :
    takeBeat h .mirror b s = (s.modPair (fun p => { p with badBlk := satAdd 0xFF p.badBlk 1 })).modHubOf h
      (fun u => { u with goodRun := 0 }) := by
  unfold takeBeat
  dsimp only
  rw [if_neg (by simp [hl]), if_pos hw]
  unfold takeBlock
  dsimp only
  rw [decide_eq_false (Nat.not_le.2 hw), if_pos rfl]
  rfl

/-! ### Claims and probes at a governor (R384, R394, R398) -/

section
variable {s : State} {r : RegionId} {hdr : MsgHdr} (hg : hdr.good = true)
include hg

theorem takeClaim_adopts (he : epochHigher hdr.epoch (s.gov r).epoch = true) :
    takeClaim r hdr s = (adoptEpoch r hdr.epoch s).send (.claimReply r hdr.epoch) := by
  unfold takeClaim
  dsimp only
  rw [if_neg (by simp [hg]), if_pos he]

theorem takeClaim_answers (he : epochHigher hdr.epoch (s.gov r).epoch = false) (hs : hdr.epoch = (s.gov r).epoch) :
    takeClaim r hdr s = s.send (.claimReply r hdr.epoch) := by
  unfold takeClaim
  dsimp only
  rw [if_neg (by simp [hg]), if_neg (by simp [he]), if_pos hs, hs]

theorem takeClaim_stale (he : epochHigher hdr.epoch (s.gov r).epoch = false) (hs : hdr.epoch ≠ (s.gov r).epoch) :
    takeClaim r hdr s = s.modGov r (fun g => { g with staleCnt := satAdd 0xFFF g.staleCnt 1 }) := by
  unfold takeClaim
  dsimp only
  rw [if_neg (by simp [hg]), if_neg (by simp [he]), if_neg hs]
  rfl

end

/-! ### Replies at a hub (R394, R397, R398) -/

/-- What an overtaken hub keeps of its messages: none (R397). -/
theorem hubAccept_overtaken {s : State} {k : Hub} (ho : s.owner = some k) {hdr : MsgHdr} (hg : hdr.good = true)
    (hs : s.staleOwner = none) (he : epochHigher hdr.epoch s.epoch = true) (kind : Nat) (act : State → State) :
    hubAccept kind hdr act s = s.fence k := by
  unfold hubAccept
  rw [ho]
  dsimp only
  rw [if_neg (by simp [hg]), if_neg (by simp [hs]), if_pos he]

theorem hubAccept_stale {s : State} {k : Hub} (hk : s.staleOwner = some k) {hdr : MsgHdr} (hg : hdr.good = true)
    (hd : hdr.dst = nodeHub k) (he : epochHigher hdr.epoch (s.hubOf k).epoch = true) (kind : Nat) (act : State → State) :
    hubAccept kind hdr act s = s.fence k ∧ s.owner = some k.other := by
  have ho : s.owner = some k.other := by
    unfold State.staleOwner at hk
    split at hk
    case isFalse => cases hk
    case isTrue =>
      obtain ⟨x, hx, rfl⟩ := Option.map_eq_some_iff.1 hk
      cases x <;> exact hx
  have hkk : k.other.other = k := by cases k <;> rfl
  refine ⟨?_, ho⟩
  unfold hubAccept
  rw [ho]
  dsimp only
  rw [if_neg (by simp [hg]), hkk, if_pos ⟨hk, hd⟩, if_pos he]

/-- What a reply does at a hub that its epoch overtakes: the hub is fenced, and nothing is journaled. -/
theorem exec_reply_fence {s : State} {k : Hub} {r : RegionId} {hdr : MsgHdr}
    (hf : ∀ kind act, hubAccept kind hdr act s = s.fence k) (hl : (s.fence k).pair.heldEff.length ≤ s.pair.heldEff.length) {c : Instr}
    (hc : c = .claimReply r hdr ∨ c = .epochProbeReply r hdr) : exec c s = .next (s.fence k) := by
  have hj (kind : Nat) (act : State → State) : journaled (hubAccept kind hdr act) s = s.fence k := by
    rw [journaled_of_same, hf]
    · rw [hf]; exact State.fence_hub s k
    · rw [hf]; exact hl
  rcases hc with rfl | rfl
  · exact next_congr (hj _ _)
  · exact next_congr (hj _ _)

theorem fence_other_pair {s : State} {h : Hub} (ho : s.owner ≠ some h) : (s.fence h).pair = s.pair := by
  unfold State.fence
  dsimp only
  rw [if_neg ho]
  cases h <;> rfl

/-! ### The last reply (R394, R398) -/

theorem answerReads_hubs (s : State) : (answerReads s).pair = s.pair ∧ ∀ k, (answerReads s).hubOf k = s.hubOf k := by
  unfold answerReads
  split
  next => exact ⟨rfl, fun _ => rfl⟩
  next h _ =>
    have i : OnlyOut ({ s with reads := [] } : State) (s.reads.foldl (fun a off => answerRead h off a) { s with reads := [] }) :=
      List.foldlRecOn (motive := OnlyOut _) s.reads (fun a off => answerRead h off a) (.refl _) fun b hb off _ =>
        hb.trans (emit_onlyOut b _)
    exact ⟨by rw [i], fun k => by rw [i.hubOf]; cases k <;> rfl⟩

/-- A hub that has taken control has no gap, and both collectors leave RECOVERY (R394, R417). -/
theorem takeControl_calm (s : State) : (takeControl s).pair.gap = 0 ∧ ∀ w, ((takeControl s).coll w).recovery = false := by
  unfold takeControl
  extract_lets react t0 t u calm
  obtain ⟨hp, hh⟩ := answerReads_hubs ((u.modColl .a calm).modColl .b calm)
  refine ⟨?_, fun w => ?_⟩
  · rw [hp]
    rfl
  · unfold State.coll
    rw [hh w]
    cases w <;> rfl

theorem journaled_claims (f : State → State) (s : State) : (journaled f s).pair.claims = (f s).pair.claims ∧
    (journaled f s).pair.gap = (f s).pair.gap := by
  obtain h | ⟨-, h⟩ := journaled_cases f s
  · rw [h]; exact ⟨rfl, rfl⟩
  · rw [h]
    exact ⟨(congrArg Pair.claims (Pair.entry_eq _ _ (f s).pair)).trans rfl, (congrArg Pair.gap (Pair.entry_eq _ _ (f s).pair)).trans rfl⟩

/-! ### Replies of the governors (R394, R398) -/

section
variable {s : State} {k : Hub} {r : RegionId} {e : Word} (ho : s.owner = some k) (he : e = s.epoch)
include ho he

/-- A reply to a claim: with the last one the hub takes control (R394). -/
theorem takeClaimReply_eq (hr : r.val ∈ s.pair.claims) : ∃ a : Msg → Bool, takeClaimReply r e s =
    let t := (s.answered a).modPair (fun p => { p with claims := p.claims.filter (fun j => j != r.val) })
    if t.pair.claims = [] then takeControl t else t := by
  unfold takeClaimReply
  rw [ho]
  exact ⟨_, if_neg (by rintro (h | h); exacts [h hr, h he])⟩

theorem takeClaimReply_claims (hr : r.val ∈ s.pair.claims) :
    (takeClaimReply r e s).pair.claims = s.pair.claims.filter (fun j => j != r.val) := by
  obtain ⟨a, ht⟩ := takeClaimReply_eq ho he hr
  rw [ht]
  dsimp only
  split
  · exact takeControl_claims _
  · rfl

theorem takeClaimReply_last (hr : r.val ∈ s.pair.claims) (hall : ∀ j ∈ s.pair.claims, j = r.val) :
    (takeClaimReply r e s).pair.gap = 0 ∧ ∀ w, ((takeClaimReply r e s).coll w).recovery = false := by
  have hnil : s.pair.claims.filter (fun j => j != r.val) = [] :=
    List.filter_eq_nil_iff.2 fun j hj => by simp [hall j hj]
  obtain ⟨a, ht⟩ := takeClaimReply_eq ho he hr
  rw [ht]
  dsimp only
  split
  next => exact takeControl_calm _
  next hne => exact absurd hnil hne

/-- A reply to a probe: with the last one the pair is DEGRADED (R398). -/
theorem takeProbeReply_eq (hp : s.pair.probing = true) (hr : r.val ∈ s.pair.probes) : ∃ a : Msg → Bool, takeProbeReply r e s =
    let t := (s.answered a).modPair (fun p => { p with probes := p.probes.filter (fun j => j != r.val) })
    if t.pair.probes = [] then degradePair (t.modPair (fun p => { p with probing := false })) else t := by
  unfold takeProbeReply
  rw [ho]
  refine ⟨_, if_neg ?_⟩
  rintro (h | h | h)
  · exact absurd (hp.symm.trans h) (by decide)
  · exact h he
  · exact h hr

theorem takeProbeReply_more (hp : s.pair.probing = true) (hr : r.val ∈ s.pair.probes) (hj : ∃ j ∈ s.pair.probes, j ≠ r.val) :
    (takeProbeReply r e s).pair = { s.pair with probes := s.pair.probes.filter (fun j => j != r.val) } ∧
      (takeProbeReply r e s).hub = s.hub := by
  obtain ⟨j, hj, hne⟩ := hj
  have hcons : s.pair.probes.filter (fun j => j != r.val) ≠ [] := fun h =>
    absurd (List.filter_eq_nil_iff.1 h j hj) (by simp [hne])
  obtain ⟨a, ht⟩ := takeProbeReply_eq ho he hp hr
  rw [ht]
  dsimp only
  split
  next hnil => exact absurd hnil hcons
  next => exact ⟨rfl, rfl⟩

theorem takeProbeReply_last (hp : s.pair.probing = true) (hr : r.val ∈ s.pair.probes) (hd : s.pair.degraded = false)
    (hall : ∀ j ∈ s.pair.probes, j = r.val) : Degraded s (takeProbeReply r e s) := by
  have hnil : s.pair.probes.filter (fun j => j != r.val) = [] :=
    List.filter_eq_nil_iff.2 fun j hj => by simp [hall j hj]
  obtain ⟨a, ht⟩ := takeProbeReply_eq ho he hp hr
  rw [ht]
  dsimp only
  split
  next =>
    obtain ⟨h1, h2, h3, h4, h5, h6⟩ := degradePair_degraded (s := ((s.answered a).modPair (fun p => { p with
      probes := p.probes.filter (fun j => j != r.val) })).modPair (fun p => { p with probing := false })) hd
    exact ⟨h1, h2, h3, h4, h5, h6⟩
  next hne => exact absurd hnil hne

end

/-! ### A message without its reply (R329) -/

section
variable {s : State} {e : Ends} {seq : Nat} {m : Await}
  (hm : s.await.find? (fun m => m.src == e.src && m.dst == e.dst && m.seq == seq) = some m)
include hm

theorem resendMessage_held (hh : s.heldMsg e seq = true) : resendMessage e seq s = s := by
  unfold resendMessage
  rw [hm]
  exact if_pos hh

theorem resendMessage_again (hh : s.heldMsg e seq = false) (hr : m.resent = false) : resendMessage e seq s =
    ({ s with await := s.await.map (fun x => if x = m then { x with resent := true } else x) } : State).sendAgain m := by
  unfold resendMessage
  rw [hm]
  dsimp only
  rw [if_neg (by simp [hh]), if_pos hr]

/-- Sent twice in vain, it is a fault, and what waited for it fails (R329, R370). -/
theorem resendMessage_fails (hh : s.heldMsg e seq = false) (hr : m.resent = true) : resendMessage e seq s =
    let t := ({ s with await := s.await.erase m } : State).raise 195 1
    match m.msg with
    | .fwCode _ => failStage t
    | .modelImage r _ | .modelSwitch r _ => match t.loadOf r with | some l => failLoad l 3 t | none => t
    | _ => t := by
  unfold resendMessage
  rw [hm]
  dsimp only
  exact (if_neg (by simp [hh])).trans (if_neg (by simp [hr]))

end

theorem failLoad_facts (s : State) (l : ModelLoad) (reason : Nat) : (failLoad l reason s).events = s.events ∧
    (failLoad l reason s).hub.rings = (s.complete l.cmd codeBadArg reason).hub.rings ∧
    ∀ k ∈ onesOf 64 l.mask.toNat, ((failLoad l reason s).region k).sage.model = .none := by
  obtain ⟨hhub, hpair⟩ := foldl_dropModel_hub_pair (onesOf 64 l.mask.toNat) s
  have hev : ((onesOf 64 l.mask.toNat).foldl (fun a r => a.modRegion r Region.dropModel) s).events = s.events :=
    List.foldlRecOn (motive := fun t : State => t.events = s.events) _ (fun (a : State) r => a.modRegion r Region.dropModel) rfl
      fun _ ht _ _ => ht
  have hmodel (k : Nat) (hk : k ∈ onesOf 64 l.mask.toNat) := foldl_dropModel_model hk s
  unfold failLoad
  dsimp only
  generalize (onesOf 64 l.mask.toNat).foldl (fun a r => a.modRegion r Region.dropModel) s = t at hhub hpair hmodel hev ⊢
  refine ⟨?_, (endLoad_rings t l codeBadArg reason).trans
    (complete_rings_congr (congrArg Shared.rings hhub) (congrArg Pair.jn hpair) l.cmd codeBadArg reason []), fun k hk => ?_⟩
  · rw [State.complete_events]; exact hev
  · rw [complete_region]; exact hmodel k hk

/-- The Chives' staged bank is the one that was written. -/
theorem putChive_none (f : Firmware) : (if (f.putChive none).chiveBank then (f.putChive none).chive0 else (f.putChive none).chive1) =
    none := by
  unfold Firmware.putChive
  cases f.chiveBank <;> simp

/-- A stage whose copy did not arrive: the staged bank is emptied, the command completes with 0xB6 (R370). -/
theorem failStage_facts {s : State} (hsec : s.secHalted = false) {c : CmdRef} (hc : s.hub.fw.stageCmd = some c) :
    (failStage s).events = s.events ∧ (failStage s).hub.rings = (s.complete c codeBadArg 0xB6).hub.rings ∧
      (failStage s).stagedOf 3 = none := by
  unfold failStage finishStage
  rw [if_neg (by simp [hc])]
  rw [show (s.modFw (fun f => { f with stageBad := true })).hub.fw.stageCmd = some c from hc]
  dsimp only
  rw [if_neg (by rw [show (s.modFw (fun f => { f with stageBad := true })).secHalted = s.secHalted from rfl, hsec]; decide),
    if_pos (show (s.modFw (fun f => { f with stageBad := true })).hub.fw.stageBad = true from rfl)]
  refine ⟨State.complete_events .., complete_rings_congr ?_ ?_ _ _ _ _, ?_⟩
  · rfl
  · rfl
  unfold State.stagedOf
  rw [if_pos rfl, complete_fw]
  exact putChive_none _

/-- A change that leaves the image and what is held makes no journal entry. -/
theorem next_journaled_same {f : State → State} {s u : State} (hf : f s = u) (hh : u.hub = s.hub)
    (hp : u.pair.heldEff.length ≤ s.pair.heldEff.length) :
    (.next (journaled f s) : Host.Outcome State Fault Refusal) = .next u := by
  subst hf
  rw [journaled_of_same hh hp]

section
variable {s : State} {r : RegionId} {hdr : MsgHdr}

/-- The last reply to a claim gives control (R394). -/
theorem exec_claimReply {k : Hub} (ho : s.owner = some k) (hh : Heard s 0x70 hdr) (he : hdr.epoch = s.epoch)
    (hr : r.val ∈ s.pair.claims) : ∃ t, exec (.claimReply r hdr) s = .next t ∧
      t.pair.claims = s.pair.claims.filter (fun j => j != r.val) ∧
      ((∀ j ∈ s.pair.claims, j = r.val) → t.pair.gap = 0 ∧ ∀ w, (t.coll w).recovery = false) := by
  refine ⟨_, next_hubAccept _ hh, ?_, fun hall => ?_⟩
  · rw [(journaled_claims _ s).1]
    exact takeClaimReply_claims (s := s.heard 0x70 hdr) ho he hr
  · obtain ⟨hg, hc⟩ := takeClaimReply_last (s := s.heard 0x70 hdr) ho he hr hall
    refine ⟨(journaled_claims _ s).2.trans hg, fun w => ?_⟩
    unfold State.coll
    rw [journaled_hubOf]
    exact hc w

/-- The last reply to a probe makes the pair DEGRADED (R398). -/
theorem exec_probeReply {k : Hub} (ho : s.owner = some k) (hh : Heard s 0x71 hdr) (he : hdr.epoch = s.epoch)
    (hp : s.pair.probing = true) (hr : r.val ∈ s.pair.probes) (hd : s.pair.degraded = false) :
    ∃ t, exec (.epochProbeReply r hdr) s = .next t ∧
      ((∃ j ∈ s.pair.probes, j ≠ r.val) → t.pair = { s.pair with probes := s.pair.probes.filter (fun j => j != r.val) }) ∧
      ((∀ j ∈ s.pair.probes, j = r.val) → t.pair.degraded = true ∧ t.pair.paired = false ∧ t.pair.probing = false ∧
        (∀ x ∈ s.pair.heldEff, x.2 ∈ t.out) ∧ { src := 201, cause := 1 } ∈ t.events) := by
  refine ⟨_, next_hubAccept _ hh, fun hj => ?_, fun hall => ?_⟩
  · obtain ⟨ht, hub⟩ := takeProbeReply_more (s := s.heard 0x71 hdr) ho he hp hr hj
    have hheld : (takeProbeReply r.val hdr.epoch (s.heard 0x71 hdr)).pair.heldEff = s.pair.heldEff := by
      rw [ht]
      rfl
    rw [journaled_of_same (f := fun u => takeProbeReply r.val hdr.epoch (u.heard 0x71 hdr)) hub (Nat.le_of_eq (congrArg List.length hheld))]
    exact ht
  · obtain ⟨h1, h2, h3, -, h5, h6⟩ := takeProbeReply_last (s := s.heard 0x71 hdr) ho he hp hr hd hall
    rw [journaled_unpaired (fun u => takeProbeReply r.val hdr.epoch (u.heard 0x71 hdr)) s h2]
    exact ⟨h1, h2, h3, h5, h6⟩

end

theorem journaled_hand (f : State → State) (s : State) : (journaled f s).pair.handStep = (f s).pair.handStep := by
  obtain h | ⟨-, h⟩ := journaled_cases f s
  · rw [h]
  · rw [h]
    exact (congrArg Pair.handStep (Pair.entry_eq _ _ (f s).pair)).trans rfl

/-- A message without its reply is sent once more, then it is a fault, and what waited for it fails (R329, R370). -/
theorem exec_messageResend {s : State} {r : RegionId} {e : Ends} {seq : Nat} {m : Await}
    (hm : s.await.find? (fun m => m.src == e.src && m.dst == e.dst && m.seq == seq) = some m) :
    (s.heldMsg e seq = true → exec (.messageResend e seq) s = .next (journaled (fun _ => s) s)) ∧
      (s.heldMsg e seq = false →
      (m.resent = false → ∃ x : Head, x.resend = true ∧ x.seq = m.seq ∧ x.src = m.src ∧ x.dst = m.dst ∧
        exec (.messageResend e seq) s = .next { s with
          await := s.await.map (fun x => if x = m then { x with resent := true } else x), out := s.out ++ [.msg m.msg x] }) ∧
      (m.resent = true → (∀ k, m.msg ≠ .fwCode k) → (∀ k n, m.msg ≠ .modelImage k n) → (∀ k p, m.msg ≠ .modelSwitch k p) →
        exec (.messageResend e seq) s = .next
          { s with await := s.await.erase m, events := s.events ++ [{ src := 195, cause := 1 }] }) ∧
      (m.resent = true → ((∃ n, m.msg = .modelImage r n) ∨ ∃ p, m.msg = .modelSwitch r p) → ∀ l, s.loadOf r = some l →
        ∃ t, exec (.messageResend e seq) s = .next t ∧ { src := 195, cause := 1 } ∈ t.events ∧
          t.hub.rings = (s.complete l.cmd codeBadArg 3).hub.rings ∧
          ∀ k ∈ onesOf 64 l.mask.toNat, (t.region k).sage.model = .none) ∧
      (m.resent = true → m.msg = .fwCode r → s.secHalted = false → ∀ c, s.hub.fw.stageCmd = some c →
        ∃ t, exec (.messageResend e seq) s = .next t ∧ { src := 195, cause := 1 } ∈ t.events ∧
          t.hub.rings = (s.complete c codeBadArg 0xB6).hub.rings ∧ t.stagedOf 3 = none)) := by
  refine ⟨fun hh => next_journaled_congr (g := fun _ => s) (resendMessage_held hm hh), fun hh =>
    ⟨fun hr => ⟨s.headOf m.src m.dst m.seq true m.msg, rfl, rfl, rfl, rfl, ?_⟩, fun hr hf hi hs => ?_, fun hr hx l hl => ?_,
      fun hr hx hsec c hc => ?_⟩⟩
  · exact next_journaled_same (resendMessage_again hm hh hr) rfl (Nat.le_refl _)
  · refine next_journaled_same ((resendMessage_fails hm hh hr).trans ?_) rfl (Nat.le_refl _)
    dsimp only
    split
    next k hk => exact absurd hk (hf k)
    next k n hk => exact absurd hk (hi k n)
    next k p hk => exact absurd hk (hs k p)
    next => rfl
  · have hfail : resendMessage e seq s = failLoad l 3 (({ s with await := s.await.erase m } : State).raise 195 1) := by
      have hload : (({ s with await := s.await.erase m } : State).raise 195 1).loadOf r = some l := hl
      rw [resendMessage_fails hm hh hr]
      obtain ⟨n, hn⟩ | ⟨p, hn⟩ := hx
      · rw [hn]
        dsimp only
        rw [hload]
      · rw [hn]
        dsimp only
        rw [hload]
    obtain ⟨hev, hrings, hmodel⟩ := failLoad_facts (({ s with await := s.await.erase m } : State).raise 195 1) l 3
    refine ⟨_, rfl, ?_, ?_, fun k hk => ?_⟩
    · rw [journaled_events, hfail, hev]
      exact List.mem_append_right _ (List.mem_singleton.2 rfl)
    · rw [journaled_hub, hfail, hrings]
      refine complete_rings_congr ?_ ?_ _ _ _ _
      · rfl
      · rfl
    · rw [journaled_region, hfail]
      exact hmodel k hk
  · have hfail : resendMessage e seq s = failStage (({ s with await := s.await.erase m } : State).raise 195 1) := by
      rw [resendMessage_fails hm hh hr, hx]
    obtain ⟨hev, hrings, hst⟩ := failStage_facts (s := ({ s with await := s.await.erase m } : State).raise 195 1) hsec hc
    refine ⟨_, rfl, ?_, ?_, ?_⟩
    · rw [journaled_events, hfail, hev]
      exact List.mem_append_right _ (List.mem_singleton.2 rfl)
    · rw [journaled_hub, hfail, hrings]
      refine complete_rings_congr ?_ ?_ _ _ _ _
      · rfl
      · rfl
    · unfold State.stagedOf at hst ⊢
      rw [if_pos rfl] at hst ⊢
      rw [journaled_hub, hfail]
      exact hst

/-- Settles O36, clause by clause: a heartbeat by the hub that hears it, a claim and a probe at the governor, a reply by the hub that
it reaches, a message without its reply by its kind. -/
theorem pairMessagesAct : Obligations.PairMessagesAct := by
  unfold Obligations.PairMessagesAct
  intro s h r hdr
  refine ⟨fun p x hb hr => ?_, fun b hb hr ho => ⟨_, rfl, ?_⟩, fun p x hb ho => ⟨fun he => ⟨_, rfl, ?_⟩, fun he hr hp hd => ⟨_, rfl, ?_⟩⟩,
    fun b hg => ?_, fun b hl hw => ?_, fun b hl => ?_, fun hg he => ?_, fun hg he hs => ?_, fun hg he hs => ?_,
    fun k ho hh he hr => exec_claimReply ho hh he hr, fun k ho hg hs he c hc => ?_, fun k hk hg hd he c hc => ?_, fun hg => ?_,
    fun k ho hh he hp hr hd => exec_probeReply ho hh he hp hr hd, fun e seq m hm => exec_messageResend hm⟩
  · obtain ⟨⟨hq1, hq2, hq3⟩, he, hrole, hh⟩ := takeBeat_standby hb hr
    refine ⟨_, rfl, ?_⟩
    rw [journaled_hubOf]
    exact ⟨hq1, hq2, hq3, he, hrole, (journaled_hand _ s).trans hh⟩
  · rw [journaled_hubOf]
    exact takeBeat_fenced hb hr ho
  · obtain ⟨hrole, hheld, hout⟩ := takeBeat_overtaken hb ho he
    rw [journaled_hubOf, journaled_heldEff, journaled_out]
    exact ⟨hrole, hheld, hout⟩
  · obtain ⟨h1, h2, -, -, h5, h6⟩ := takeBeat_dropped hb ho he hr hp hd
    rw [journaled_unpaired (takeBeat h p x) s h2]
    exact ⟨h1, h2, h5, h6⟩
  · refine next_journaled_same (u := s.raise 195 0) ?_ rfl (Nat.le_refl _)
    unfold takeBeat
    exact if_neg (by simp [hg])
  · refine next_journaled_same (takeBeat_badBlock hl hw h) ?_ ?_
    · cases h <;> rfl
    · cases h <;> exact Nat.le_refl _
  · refine next_journaled_same (u := s) ?_ rfl (Nat.le_refl _)
    unfold takeBeat
    exact if_pos hl
  · exact next_congr (takeClaim_adopts hg he)
  · exact next_congr (takeClaim_answers hg he hs)
  · exact next_congr (takeClaim_stale hg he hs)
  · have hpair := fence_owner_pair ho
    refine ⟨_, exec_reply_fence (hubAccept_overtaken ho hg hs he) (by rw [hpair]; exact Nat.zero_le _) hc, fence_role s k, ?_, ?_,
      State.fence_out s k⟩
    · rw [hpair]
    · rw [hpair]
  · have ho := (hubAccept_stale hk hg hd he 0 id).2
    have hne : s.owner ≠ some k := by rw [ho]; cases k <;> simp [Hub.other]
    exact ⟨_, exec_reply_fence (fun kind act => (hubAccept_stale hk hg hd he kind act).1) (by rw [fence_other_pair hne]) hc,
      fence_role s k, State.fence_hub s k, State.fence_out s k⟩
  · exact next_congr (if_pos hg)

end Sys2Proof.Machine
end

