-- ==== Sys2Proof/Proofs/PairChanges.lean ====
section
/-!
SUPPORT. The mirror link, promotion, silence, handover, resynchronisation (R322, R359, R361, R386 to R401, R404, R512).
-/

namespace Sys2Proof.Machine

/-! ### The pair's own state while it is not PAIRED (R390) -/

/-- Where nothing is held back, the pair's state stays. -/
def PairStays (s t : State) : Prop := s.pair.paired = false → t.pair = s.pair

theorem PairStays.of_eq {s t : State} (h : t.pair = s.pair) : PairStays s t := fun _ => h

theorem PairStays.trans {s t u : State} (h₁ : PairStays s t) (h₂ : PairStays t u) : PairStays s u := fun hp =>
  (h₂ (by rw [h₁ hp]; exact hp)).trans (h₁ hp)

theorem PairStays.foldl {α : Type} {f : State → α → State} (h : ∀ a x, PairStays a (f a x)) (l : List α) (s : State) :
    PairStays s (l.foldl f s) :=
  List.foldlRecOn (motive := PairStays s) l f (.of_eq rfl) fun b hb a _ => hb.trans (h b a)

theorem hubEmit_pairStays (s : State) (e : Effect) : PairStays s (s.hubEmit e) := by
  intro hp
  unfold State.hubEmit
  rw [if_pos hp]
  rfl

theorem modBudget_pairStays (s : State) (f : Budget → Budget) : PairStays s (s.modBudget f) := .of_eq rfl
theorem modThyme_pairStays (s : State) (f : Thyme → Thyme) : PairStays s (s.modThyme f) := .of_eq rfl
theorem modEcap_pairStays (s : State) (f : Ecap → Ecap) : PairStays s (s.modEcap f) := .of_eq rfl
theorem dropRaises_pairStays (s : State) : PairStays s (dropRaises s) := .of_eq rfl

theorem hubSend_pairStays (s : State) (m : Msg) : PairStays s (s.hubSend m) := by
  unfold State.hubSend
  split
  · exact .of_eq rfl
  · exact (hubEmit_pairStays s _).trans (.of_eq rfl)

theorem telemetry_pair (s : State) (type region : Nat) (body : List Byte) (sub : Bool) :
    (s.telemetry type region body sub).pair = s.pair := by
  unfold State.telemetry
  split_ifs <;> rfl

theorem abandonRound_pairStays (i code detail : Nat) (s : State) : PairStays s (abandonRound i code detail s) := by
  have hf := PairStays.foldl (f := fun (a : State) r => a.hubSend (.stagingRelease r i)) (fun a r => hubSend_pairStays a _)
    (s.grant i).regions s
  unfold abandonRound
  dsimp only
  generalize List.foldl _ s (s.grant i).regions = t at hf
  have hw : PairStays s (if code = codePartial then ((t.modGrant i Grant.freed).modThyme (Thyme.withdraw s.now i)).modThyme
      (fun x => { x with partialC := x.partialC + 1 }) else (t.modGrant i Grant.freed).modThyme (Thyme.withdraw s.now i)) := by
    split
    · refine hf.trans (.of_eq ?_)
      rfl
    · refine hf.trans (.of_eq ?_)
      rfl
  split
  · exact PairStays.trans hw (.of_eq (State.complete_pair _ _ _ _ _))
  · exact hw

theorem abandonAll_pairStays (s : State) : PairStays s (abandonAll s) := by
  unfold abandonAll
  split
  · exact .of_eq rfl
  · exact .foldl (fun a i => abandonRound_pairStays i _ _ a) _ s

theorem ecapEdge_pairStays (paths : List Hub) (before : Ecap) (s : State) : PairStays s (ecapEdge paths before s) := by
  unfold ecapEdge
  dsimp only
  split
  · refine PairStays.trans ?_ (abandonAll_pairStays _)
    refine PairStays.trans ?_ (modThyme_pairStays _ _)
    refine PairStays.trans ?_ (modBudget_pairStays _ _)
    refine PairStays.trans ?_ (dropRaises_pairStays _)
    refine PairStays.trans ?_ (.of_eq (telemetry_pair ..))
    refine PairStays.trans ?_ (hubEmit_pairStays _ _)
    refine PairStays.trans (modEcap_pairStays _ _) (.foldl (fun a h => ?_) paths _)
    exact .of_eq rfl
  · split
    · refine PairStays.trans ?_ (.of_eq (telemetry_pair ..))
      exact (modEcap_pairStays _ _).trans (hubEmit_pairStays _ _)
    · exact .of_eq rfl

theorem ecapEdge_grows (paths : List Hub) (before : Ecap) (s : State) : Grows s (ecapEdge paths before s) := by
  have h0 (f : Ecap → Ecap) : Grows s (s.modEcap f) := .of_eq (.refl s) rfl rfl
  unfold ecapEdge
  dsimp only
  split
  · exact ((((((Grows.foldl (fun _ _ ha => ha.sendAs ..) paths (h0 _)).hubEmit _).telemetry ..).modBudget _).modBudget _).modThyme _)
      |>.abandonAll
  · split
    · exact ((h0 _).hubEmit _).telemetry ..
    · exact .refl s

/-- The edge of the emergency cap, from what a new owner finds: a source that asserts is in force after it (R322). -/
theorem ecapEdge_active {s : State} (ha : s.hub.ecap.any = true) (paths : List Hub) (before : Ecap) :
    (ecapEdge paths before s).hub.ecap.active = true := by
  cases hi : s.hub.ecap.active with
  | false => rw [(ecapEdge_enters (paths := paths) (before := before) ha hi).1]
  | true => rw [ecapEdge_same (ha.trans hi.symm), hi]

/-! ### Promotion (R322, R389, R391, R393, R394) -/

/-- What a hub takes over from the mirrored words changes neither role nor epoch, nor a collector's RECOVERY. -/
structure RolesStay (s t : State) : Prop where
  hub      : t.hub = s.hub
  pair     : t.pair = s.pair
  role     : ∀ k, (t.hubOf k).role = (s.hubOf k).role
  recovery : ∀ k, (t.coll k).recovery = (s.coll k).recovery

theorem RolesStay.refl (s : State) : RolesStay s s := ⟨rfl, rfl, fun _ => rfl, fun _ => rfl⟩

theorem RolesStay.trans {s t u : State} (h₁ : RolesStay s t) (h₂ : RolesStay t u) : RolesStay s u :=
  ⟨h₂.hub.trans h₁.hub, h₂.pair.trans h₁.pair, fun k => (h₂.role k).trans (h₁.role k), fun k => (h₂.recovery k).trans (h₁.recovery k)⟩

theorem RolesStay.foldl {α : Type} {f : State → α → State} (h : ∀ a x, RolesStay a (f a x)) (l : List α) (s : State) :
    RolesStay s (l.foldl f s) :=
  List.foldlRecOn (motive := RolesStay s) l f (.refl s) fun b hb a _ => hb.trans (h b a)

theorem modHubOf_rolesStay (s : State) (h : Hub) {f : HubSt → HubSt} (hr : ∀ u, (f u).role = u.role)
    (hc : ∀ u, (f u).coll.recovery = u.coll.recovery) : RolesStay s (s.modHubOf h f) := by
  refine ⟨by cases h <;> rfl, State.modHubOf_pair .., fun k => ?_, fun k => ?_⟩
  · by_cases hk : k = h
    · rw [hk, State.modHubOf_hubOf_self, hr]
    · rw [modHubOf_hubOf_ne hk]
  · unfold State.coll
    by_cases hk : k = h
    · rw [hk, State.modHubOf_hubOf_self, hc]
    · rw [modHubOf_hubOf_ne hk]

theorem modCore_role (u : HubSt) (k : Nat) (f : HubCore → HubCore) : (u.modCore k f).role = u.role ∧
    (u.modCore k f).coll = u.coll := by
  match k with
  | 0 => exact ⟨rfl, rfl⟩
  | 1 => exact ⟨rfl, rfl⟩
  | _ + 2 => exact ⟨rfl, rfl⟩

theorem takeMirrored_rolesStay (h : Hub) (s : State) : RolesStay s (takeMirrored h s) := by
  unfold takeMirrored
  dsimp only
  refine RolesStay.trans (.foldl (fun a p => ?_) s.hub.fcCounts.cells s) (.foldl (fun a p => ?_) s.hub.retain _)
  · exact modHubOf_rolesStay a h (fun _ => rfl) fun _ => rfl
  · exact modHubOf_rolesStay a h (fun u => (modCore_role u _ _).1) fun u => by rw [(modCore_role u _ _).2]

theorem restoreThs_regions (s : State) : restoreThs s = { s with regions := (restoreThs s).regions } := by
  unfold restoreThs
  refine List.foldlRecOn (motive := fun t : State => t = { s with regions := t.regions }) _ _ rfl fun t ht r _ => ?_
  rw [ht]
  rfl

theorem loseTelemetry_facts (l : List TelRec) (n : Nat) (s : State) :
    (loseTelemetry l n s).pair = s.pair ∧ (∀ k, (loseTelemetry l n s).hubOf k = s.hubOf k) ∧
      (loseTelemetry l n s).hub = { s.hub with rings := (loseTelemetry l n s).hub.rings } := by
  unfold loseTelemetry
  extract_lets gone n t
  refine List.foldlRecOn (motive := fun u : State => u.pair = s.pair ∧ (∀ k, u.hubOf k = s.hubOf k) ∧
    u.hub = { s.hub with rings := u.hub.rings }) (List.range n) (fun (a : State) _ => a.raise 194 1) ⟨rfl, fun k => ?_, rfl⟩
    fun u hu _ _ => ⟨hu.1, fun k => ?_, hu.2.2⟩
  · cases k <;> rfl
  · rw [← hu.2.1 k]
    cases k <;> rfl

theorem recoveryMode_recovery (s : State) (w : Hub) : ((recoveryMode s).coll w).recovery = true ∧
    ((recoveryMode s).hubOf w).role = (s.hubOf w).role := by
  cases w <;> exact ⟨rfl, rfl⟩

theorem setEngRun_coll (h : Hub) (low : Bool) (s : State) (x : Hub) :
    ((setEngRun h low s).hubOf x).coll = (s.hubOf x).coll := by
  unfold setEngRun State.pin
  dsimp only
  repeat' split
  all_goals cases h <;> cases x <;> rfl

theorem claimFor_coll (h : Hub) (e : Word) (kind : Nat) (s : State) (x : Hub) :
    (claimFor h e kind s).coll x = s.coll x := by
  unfold State.coll
  rw [(claimFor_onlyMessages h e kind s).hubOf, State.claiming, State.emit_hubOf, setEngRun_coll, setEngRun_coll]
  cases h <;> cases x <;> rfl

theorem sendClaims_pair (h : Hub) (e : Word) (l : List Nat) (s : State) : (l.foldl (sendClaim h e) s).pair = s.pair :=
  List.foldlRecOn (motive := fun t : State => t.pair = s.pair) l _ rfl fun _ ht _ _ => ht

theorem claimFor_pairOf (h : Hub) (e : Word) (kind : Nat) (s : State) : (claimFor h e kind s).pair =
    { s.pair with claims := List.range 64, claimAge := 0, claimKind := kind } := by
  rw [claimFor_eq, sendClaims_pair, State.claiming, State.emit_pair, setEngRun_pair, setEngRun_pair]
  cases h <;> rfl

/-- What a promoted hub starts from: the standby's image, nothing held back, both collectors in RECOVERY. -/
structure PromotedFrom (s t : State) : Prop where
  paired   : t.pair.paired = false
  held     : t.pair.heldEff = []
  groups   : t.hub.groups = s.pair.image.groups
  thyme    : t.hub.thyme = s.pair.image.thyme
  ecap     : t.hub.ecap = s.pair.image.ecap
  role     : ∀ k, (t.hubOf k).role = (s.hubOf k).role
  recovery : ∀ k, (t.coll k).recovery = true

theorem promote_eq (h : Hub) (s : State) : ∃ v, PromotedFrom s v ∧
    promote h s = ecapEdge [h] (claimFor h (nextEpoch (s.hubOf h).epoch) 1 v).hub.ecap
      (claimFor h (nextEpoch (s.hubOf h).epoch) 1 v) := by
  unfold promote
  extract_lets u x t0 t1 t2 t3 t4
  refine ⟨t3, ?_, rfl⟩
  obtain ⟨hp1, hh1, hub1⟩ := loseTelemetry_facts s.hub.rings.tel u.rxGood t0
  have hhub2 : t2.hub = { s.pair.image with rings := t2.hub.rings } := hub1
  have hgroups : t2.hub.groups = s.pair.image.groups := (congrArg Shared.groups hhub2).trans rfl
  have hthyme : t2.hub.thyme = s.pair.image.thyme := (congrArg Shared.thyme hhub2).trans rfl
  have hecap : t2.hub.ecap = s.pair.image.ecap := (congrArg Shared.ecap hhub2).trans rfl
  have hhubs2 (k : Hub) : t2.hubOf k = s.hubOf k := (modPair_hubOf _ _ k).trans ((hh1 k).trans (by cases k <;> rfl))
  have i : RolesStay (recoveryMode (dropRaises (restoreThs t2))) t3 := takeMirrored_rolesStay h (recoveryMode (dropRaises (restoreThs t2)))
  have hr := restoreThs_regions t2
  have hhub : (recoveryMode (dropRaises (restoreThs t2))).hub = (dropRaises (restoreThs t2)).hub := rfl
  have hpair : (recoveryMode (dropRaises (restoreThs t2))).pair = t2.pair := by
    rw [hr]; rfl
  constructor
  · rw [i.pair, hpair]; rfl
  · rw [i.pair, hpair]; rfl
  · rw [i.hub, hhub, hr]
    exact hgroups
  · rw [i.hub, hhub, hr]
    exact hthyme
  · rw [i.hub, hhub, hr]
    exact hecap
  · intro k
    rw [i.role, (recoveryMode_recovery _ k).2, ← hhubs2 k, hr]
    cases k <;> rfl
  · intro k
    rw [i.recovery, (recoveryMode_recovery _ k).1]

/-- What a promoted hub stands at, and what it sends (R393, R394). -/
theorem promote_facts (h : Hub) (s : State) :
    let t := promote h s
    (t.hubOf h).role = .owner ∧ (t.hubOf h).epoch = nextEpoch (s.hubOf h).epoch ∧
      (t.hubOf h.other).role = (s.hubOf h.other).role ∧ t.hub.groups = s.pair.image.groups ∧
      (s.pair.image.ecap.any = s.pair.image.ecap.active →
        t.hub.thyme = s.pair.image.thyme ∧ t.hub.ecap = s.pair.image.ecap) ∧
      (s.pair.image.ecap.any = true → t.hub.ecap.active = true) ∧
      t.pair.paired = false ∧ t.pair.heldEff = [] ∧ t.pair.claims = List.range 64 ∧ (∀ w, (t.coll w).recovery = true) ∧
      ∀ r : RegionId, Spoken t (.claim r (nextEpoch (s.hubOf h).epoch)) := by
  intro t
  obtain ⟨v, hv, hp⟩ := promote_eq h s
  have ht : t = _ := hp
  obtain ⟨hrole, hepoch, hother⟩ := claimFor_role h (nextEpoch (s.hubOf h).epoch) 1 v
  have hhub := claimFor_hub h (nextEpoch (s.hubOf h).epoch) 1 v
  have hpair := claimFor_pairOf h (nextEpoch (s.hubOf h).epoch) 1 v
  have hcoll := claimFor_coll h (nextEpoch (s.hubOf h).epoch) 1 v
  have hsaid (r : RegionId) := claimFor_spoken h (nextEpoch (s.hubOf h).epoch) 1 v r.isLt
  generalize claimFor h (nextEpoch (s.hubOf h).epoch) 1 v = w at ht hrole hepoch hother hhub hpair hcoll hsaid
  have i := ecapEdge_onlyEcap [h] w.hub.ecap w
  have hhubs (k : Hub) : t.hubOf k = w.hubOf k := by rw [ht, i]; cases k <;> rfl
  have hpt : t.pair = w.pair := by
    rw [ht]
    exact ecapEdge_pairStays [h] w.hub.ecap w (by rw [hpair]; exact hv.paired)
  have hecap : w.hub.ecap = s.pair.image.ecap := by rw [hhub]; exact hv.ecap
  refine ⟨by rw [hhubs]; exact hrole, by rw [hhubs]; exact hepoch, by rw [hhubs, hother]; exact hv.role _, ?_, fun ha => ?_, fun ha => ?_,
    ?_, ?_, ?_, fun k => ?_, fun r => ?_⟩
  · rw [ht, i]
    exact (congrArg Shared.groups hhub).trans hv.groups
  · rw [ht, ecapEdge_same (by rw [hecap]; exact ha), hhub]
    exact ⟨hv.thyme, hv.ecap⟩
  · rw [ht]
    exact ecapEdge_active (by rw [hecap]; exact ha) _ _
  · rw [hpt, hpair]; exact hv.paired
  · rw [hpt, hpair]; exact hv.held
  · rw [hpt, hpair]
  · unfold State.coll
    rw [hhubs]
    exact (congrArg Collector.recovery (hcoll k)).trans (hv.recovery k)
  · obtain ⟨x, hx⟩ := hsaid r
    exact ⟨x, by rw [ht]; exact (ecapEdge_grows _ _ _).out hx⟩

/-! ### Blocks of the mirror link (R388, R390, R391) -/

theorem mirrorBlock_bad {s : State} (hl : s.pair.linkUp = true) {wrong : Nat} (hw : 8 < wrong) (h : Hub) (seq ack : Nat) (diff : Bool) :
    mirrorBlock h wrong seq ack diff s = { s with pair := { s.pair with badBlk := satAdd 0xFF s.pair.badBlk 1 } } := by
  unfold mirrorBlock takeBlock
  rw [if_pos hl]
  dsimp only
  rw [decide_eq_false (Nat.not_le.2 hw), if_pos rfl]
  rfl

/-- What a standby holds after a good block: the image `im`, entries up to `good`, blocks up to `q`. -/
def State.holding (s : State) (h : Hub) (im : Shared) (good q : Nat) : State :=
  (s.modPair (fun p => { p with image := im })).modHubOf h (fun u => { u with rxGood := good, rxSeq := q })

/-- What a good block brings a standby to, by the block of journal entries that it carries. -/
structure Brought (h : Hub) (seq : Nat) (s : State) (im : Shared) (good q : Nat) : Prop where
  plain : s.pair.blocks.find? (fun b => b.1 == seq) = none → good = (s.hubOf h).rxGood ∧ im = s.pair.image ∧
    q = if seq = ((s.hubOf h).rxSeq + 1) % 2 ^ 32 then seq else (s.hubOf h).rxSeq
  late  : ∀ a z, s.pair.blocks.find? (fun b => b.1 == seq) = some (seq, a, z) → (s.hubOf h).rxGood + 1 < a →
    good = (s.hubOf h).rxGood ∧ q = (s.hubOf h).rxSeq ∧ im = s.pair.image
  taken : ∀ a z, s.pair.blocks.find? (fun b => b.1 == seq) = some (seq, a, z) → a ≤ (s.hubOf h).rxGood + 1 →
    good = max (s.hubOf h).rxGood z ∧ q = seq ∧ ((s.hubOf h).rxGood < z → im = s.pair.snapshot z)

theorem holding_same (s : State) (h : Hub) : s = s.holding h s.pair.image (s.hubOf h).rxGood (s.hubOf h).rxSeq := by
  cases h <;> rfl

theorem holding_seq (s : State) (h : Hub) (q : Nat) :
    s.modHubOf h (fun u => { u with rxSeq := q }) = s.holding h s.pair.image (s.hubOf h).rxGood q := by
  cases h <;> rfl

theorem standbyBlock_brings (h : Hub) (seq : Nat) (s : State) :
    ∃ im good q, standbyBlock h seq false s = s.holding h im good q ∧ Brought h seq s im good q := by
  unfold standbyBlock
  dsimp only
  simp only [Bool.false_eq_true, false_and, if_false]
  split
  next b first last hb =>
    have hseq : b = seq := by simpa using List.find?_some hb
    subst hseq
    have huniq (a z : Nat) (hf : s.pair.blocks.find? (fun x => x.1 == b) = some (b, a, z)) : a = first ∧ z = last := by
      rw [hb] at hf
      simpa using Eq.symm (Option.some.inj hf)
    have hnone : s.pair.blocks.find? (fun x => x.1 == b) ≠ none := by rw [hb]; exact Option.some_ne_none _
    by_cases hlate : (s.hubOf h).rxGood + 1 < first
    · refine ⟨_, _, _, (if_pos hlate).trans (holding_same s h), fun hn => absurd hn hnone, fun _ _ _ _ => ⟨rfl, rfl, rfl⟩,
        fun a z hf ha => ?_⟩
      obtain ⟨rfl, rfl⟩ := huniq a z hf
      omega
    · by_cases hold : last ≤ (s.hubOf h).rxGood
      · refine ⟨_, _, _, (if_neg hlate).trans ((if_pos hold).trans (holding_seq s h _)), fun hn => absurd hn hnone,
          fun a z hf ha => ?_, fun a z hf ha => ?_⟩
        · obtain ⟨rfl, rfl⟩ := huniq a z hf
          exact absurd ha hlate
        · obtain ⟨rfl, rfl⟩ := huniq a z hf
          exact ⟨(Nat.max_eq_left hold).symm, rfl, fun hz => absurd hold (Nat.not_le.2 hz)⟩
      · refine ⟨_, _, _, (if_neg hlate).trans (if_neg hold), fun hn => absurd hn hnone, fun a z hf ha => ?_, fun a z hf ha => ?_⟩
        · obtain ⟨rfl, rfl⟩ := huniq a z hf
          exact absurd ha hlate
        · obtain ⟨rfl, rfl⟩ := huniq a z hf
          exact ⟨(Nat.max_eq_right (Nat.le_of_not_le hold)).symm, rfl, fun _ => rfl⟩
  next hn =>
    have hsome (a z : Nat) : s.pair.blocks.find? (fun x => x.1 == seq) ≠ some (seq, a, z) := by rw [hn]; exact nofun
    by_cases hq : seq = ((s.hubOf h).rxSeq + 1) % 2 ^ 32
    · exact ⟨_, _, _, (if_pos hq).trans (holding_seq s h _), fun _ => ⟨rfl, rfl, (if_pos hq).symm⟩,
        fun a z hf => absurd hf (hsome a z), fun a z hf => absurd hf (hsome a z)⟩
    · exact ⟨_, _, _, (if_neg hq).trans (holding_same s h), fun _ => ⟨rfl, rfl, (if_neg hq).symm⟩,
        fun a z hf => absurd hf (hsome a z), fun a z hf => absurd hf (hsome a z)⟩

/-- The state in which a standby hears a good block's contents. -/
def State.hearing (s : State) (h : Hub) (wrong : Nat) : State :=
  (s.modPair (fun p => { p with
    corrBlk := if decide (wrong ≤ 8) && decide (0 < wrong) then satAdd 0xFFFF p.corrBlk 1 else p.corrBlk
    badBlk := if decide (wrong ≤ 8) then p.badBlk else satAdd 0xFF p.badBlk 1 })).modHubOf h (fun u => { u with silentMir := 0 })

theorem hearing_hubOf (s : State) (h : Hub) (wrong : Nat) : (s.hearing h wrong).hubOf h = { s.hubOf h with silentMir := 0 } := by
  unfold State.hearing
  rw [State.modHubOf_hubOf_self, modPair_hubOf]

theorem takeBlock_good {s : State} {h : Hub} {wrong : Nat} (hw : wrong ≤ 8) (seq ack : Nat) (diff : Bool) :
    takeBlock h wrong seq ack diff s = match (s.hubOf h).role with
    | .valid | .resyncing | .yielding => standbyBlock h seq diff (s.hearing h wrong)
    | .owner => if s.pair.paired then ownerBlock h ack (s.hearing h wrong) else s.hearing h wrong
    | _ => s.hearing h wrong := by
  have hrole : ((s.hearing h wrong).hubOf h).role = (s.hubOf h).role := by rw [hearing_hubOf]
  have hpaired : (s.hearing h wrong).pair.paired = s.pair.paired := by
    unfold State.hearing
    rw [State.modHubOf_pair]
    rfl
  rw [← hrole, ← hpaired]
  unfold takeBlock
  dsimp only
  rw [if_neg (by simp [hw])]
  rfl

/-- What a good block does at a standby (R388, R391, R404). -/
theorem takeBlock_standby {s : State} {h : Hub} {wrong : Nat} (hw : wrong ≤ 8)
    (hr : (s.hubOf h).role = .valid ∨ (s.hubOf h).role = .resyncing) (seq ack : Nat) :
    ∃ im good q, takeBlock h wrong seq ack false s = (s.hearing h wrong).holding h im good q ∧ Brought h seq s im good q := by
  have hb : takeBlock h wrong seq ack false s = standbyBlock h seq false (s.hearing h wrong) := by
    rw [takeBlock_good hw]
    obtain hr | hr := hr
    · rw [hr]
    · rw [hr]
  obtain ⟨im, good, q, ht, i⟩ := standbyBlock_brings h seq (s.hearing h wrong)
  have hblocks : (s.hearing h wrong).pair.blocks = s.pair.blocks := by
    unfold State.hearing
    rw [State.modHubOf_pair]
    rfl
  have himage : (s.hearing h wrong).pair.image = s.pair.image := by
    unfold State.hearing
    rw [State.modHubOf_pair]
    rfl
  have hsnap (z : Nat) : (s.hearing h wrong).pair.snapshot z = s.pair.snapshot z := by
    unfold State.hearing
    rw [State.modHubOf_pair]
    rfl
  obtain ⟨h1, h2, h3⟩ := i
  simp only [hearing_hubOf, hblocks, himage, hsnap] at h1 h2 h3
  exact ⟨im, good, q, hb.trans ht, h1, h2, h3⟩

theorem holding_facts (s : State) (h : Hub) (wrong : Nat) (hw : wrong ≤ 8) (im : Shared) (good q : Nat) :
    let t := (s.hearing h wrong).holding h im good q
    t.hub = s.hub ∧ t.out = s.out ∧ t.pair.heldEff = s.pair.heldEff ∧ t.pair.image = im ∧
      t.pair.corrBlk = (if 0 < wrong then satAdd 0xFFFF s.pair.corrBlk 1 else s.pair.corrBlk) ∧
      (t.hubOf h).silentMir = 0 ∧ (t.hubOf h).rxGood = good ∧ (t.hubOf h).rxSeq = q := by
  have hc : decide (wrong ≤ 8) = true := decide_eq_true hw
  unfold State.holding State.hearing
  dsimp only
  rw [hc]
  simp only [Bool.true_and, decide_eq_true_eq]
  cases h <;> exact ⟨rfl, rfl, rfl, rfl, rfl, rfl, rfl, rfl⟩

theorem pump_acked (h : Hub) (p : Pair) : (Pair.pump h p).acked = p.acked := by
  unfold Pair.pump
  split
  · rfl
  · cases h <;> rfl

/-- What the owner does with a good block: entries acknowledged release what waited for them (R390). -/
theorem ownerBlock_releases (h : Hub) (ack : Nat) (s : State) :
    let n := max s.pair.acked (min (s.pair.ackedBy ack) (s.hubOf h.other).rxGood)
    let t := ownerBlock h ack s
    t.pair.acked = n ∧ (∀ x ∈ s.pair.heldEff, x.1 ≤ n → x.2 ∈ t.out) ∧ (∀ x ∈ s.pair.heldEff, n < x.1 → x ∈ t.pair.heldEff) := by
  unfold ownerBlock
  extract_lets n again go t w
  have ht : t.pair.acked = n ∧ t.pair.heldEff = s.pair.heldEff.filter (fun e => decide (n < e.1)) := by
    unfold t
    generalize again = c
    cases c
    · cases h <;> exact ⟨rfl, rfl⟩
    · cases h
      · exact ⟨pump_acked .a _, (pump_pair .a _).2.2⟩
      · exact ⟨pump_acked .b _, (pump_pair .b _).2.2⟩
  obtain ⟨hack, hheld⟩ := ht
  have i : OnlyShared (go.foldl (fun (a : State) e => a.emit e.2) t) w := settleDecisions_onlyShared _
  have hp := i.pair
  have ho := i.out
  rw [emitHeld_eq] at hp ho
  refine ⟨by rw [hp]; exact hack, fun x hx hn => ?_, fun x hx hn => ?_⟩
  · rw [ho]
    exact List.mem_append_right _ (List.mem_map_of_mem (List.mem_filter.2 ⟨hx, decide_eq_true hn⟩))
  · rw [hp]
    exact hheld ▸ List.mem_filter.2 ⟨hx, decide_eq_true hn⟩

/-! ### The owner's side of a block, silences, handovers (R386 to R401, R512) -/

theorem takeBlock_owner {s : State} {h : Hub} {wrong : Nat} (hw : wrong ≤ 8) (hr : (s.hubOf h).role = .owner)
    (hp : s.pair.paired = true) (seq ack : Nat) (diff : Bool) :
    let n := max s.pair.acked (min (s.pair.ackedBy ack) (s.hubOf h.other).rxGood)
    let t := takeBlock h wrong seq ack diff s
    t.pair.acked = n ∧ (∀ x ∈ s.pair.heldEff, x.1 ≤ n → x.2 ∈ t.out) ∧ (∀ x ∈ s.pair.heldEff, n < x.1 → x ∈ t.pair.heldEff) := by
  have hb : takeBlock h wrong seq ack diff s = ownerBlock h ack (s.hearing h wrong) := by
    rw [takeBlock_good hw, hr]
    exact if_pos hp
  have hother : ((s.hearing h wrong).hubOf h.other).rxGood = (s.hubOf h.other).rxGood := by
    unfold State.hearing
    rw [State.modHubOf_hubOf_other, modPair_hubOf]
  have hpair : (s.hearing h wrong).pair.acked = s.pair.acked ∧ (s.hearing h wrong).pair.ackedBy ack = s.pair.ackedBy ack ∧
      (s.hearing h wrong).pair.heldEff = s.pair.heldEff := by
    unfold State.hearing
    rw [State.modHubOf_pair]
    exact ⟨rfl, rfl, rfl⟩
  obtain ⟨h1, h2, h3⟩ := hpair
  have i := ownerBlock_releases h ack (s.hearing h wrong)
  dsimp only at i ⊢
  rw [hother, h1, h2, h3] at i
  rw [hb]
  exact i

theorem journaled_acked (f : State → State) (s : State) : (journaled f s).pair.acked = (f s).pair.acked := by
  obtain h | ⟨-, h⟩ := journaled_cases f s
  · rw [h]
  · rw [h]
    exact (congrArg Pair.acked (Pair.entry_eq _ _ (f s).pair)).trans rfl

theorem promotion_promotes {s : State} {h : Hub} (hr : (s.hubOf h).role = .valid) (hs : 20 < (s.hubOf h).silentHb)
    (hc : s.cfgBit 0x2000 0 = true) (ho : s.owner ≠ some h) : promotion h s = promote h s := by
  unfold promotion
  dsimp only
  rw [if_neg (by rintro (h1 | h1 | h1); exacts [ho h1, absurd hs (Nat.not_lt.2 h1), h1.1 hr]), if_pos ⟨hr, hc⟩]

/-- A standby that may not promote raises a fatal fault (R393). -/
theorem promotion_refuses {s : State} {h : Hub}
    (hr : (s.hubOf h).role = .resyncing ∨ ((s.hubOf h).role = .valid ∧ s.cfgBit 0x2000 0 = false)) (hs : 20 < (s.hubOf h).silentHb)
    (ho : s.owner ≠ some h) (hf : (s.hubOf h).fatalSaid = false) :
    promotion h s = (s.modHubOf h (fun u => { u with fatalSaid := true })).raise 201 2 := by
  have hno : ¬ (s.owner = some h ∨ (s.hubOf h).silentHb ≤ 20 ∨ ((s.hubOf h).role ≠ .valid ∧ (s.hubOf h).role ≠ .resyncing)) := by
    rintro (h1 | h1 | ⟨h1, h2⟩)
    · exact ho h1
    · exact absurd hs (Nat.not_lt.2 h1)
    · exact hr.elim (fun h3 => h2 h3) fun h3 => h1 h3.1
  have hnp : ¬ ((s.hubOf h).role = .valid ∧ s.cfgBit 0x2000 0 = true) := by
    rintro ⟨h1, h2⟩
    rcases hr with h3 | ⟨-, h3⟩
    · rw [h1] at h3; exact absurd h3 (by decide)
    · rw [h2] at h3; exact absurd h3 (by decide)
  unfold promotion
  dsimp only
  rw [if_neg hno, if_neg hnp, if_neg (by simp [hf])]

/-- The 64 probes of a silent standby (R398). -/
theorem sendProbes_facts (h : Hub) (s : State) : (sendProbes h s).pair = s.pair ∧ ∀ r : RegionId, Spoken (sendProbes h s) (.probe r) := by
  unfold sendProbes
  refine ⟨List.foldlRecOn (motive := fun t : State => t.pair = s.pair) (List.range 64) (fun (a : State) r =>
    (a.sendAs (nodeHub h) (nodeGov r) (.probe r)).expect (nodeHub h) (nodeGov r) (.probe r)) rfl fun _ ht _ _ => ht, fun r => ?_⟩
  exact foldl_spoken (step := fun (a : State) r => (a.sendAs (nodeHub h) (nodeGov r) (.probe r)).expect (nodeHub h) (nodeGov r) (.probe r))
    (m := fun r => .probe r) (fun a k => ⟨_, rfl⟩) (List.range 64) s (List.mem_range.2 r.isLt)

theorem probeEpochs_probes {s : State} {h : Hub} (ho : s.owner = some h) (hs : s.staleOwner = none) (hq : 40 < (s.hubOf h).silentHb)
    (hp : s.pair.probing = false) :
    probeEpochs s = sendProbes h (s.modPair (fun p => { p with probing := true, probes := List.range 64 })) := by
  unfold probeEpochs
  rw [ho, hs]
  exact if_neg (by simp [hp, Nat.not_le.2 hq])

/-- A silent mirror link with heartbeats that still come: the standby is VALID no more (R399). -/
theorem mirrorSilence_leaves {s : State} {h : Hub} (hm : (s.hubOf h).silentMgmt ≤ 1) (hr : (s.hubOf h).role = .valid)
    (hs : 4 < (s.hubOf h).silentMir) : mirrorSilence h s = s.beginResync h := by
  unfold mirrorSilence
  dsimp only
  rw [if_neg (Nat.not_lt.2 hm), if_pos ⟨hr, hs⟩]

theorem mirrorSilence_drops {s : State} {h : Hub} (hm : (s.hubOf h).silentMgmt ≤ 1) (hr : (s.hubOf h).role = .owner)
    (hs : 8 < (s.hubOf h).silentMir) : mirrorSilence h s = s.modHubOf h (fun u => { u with dropSent := true }) := by
  unfold mirrorSilence
  dsimp only
  rw [if_neg (Nat.not_lt.2 hm), if_neg (by simp [hr]), if_pos ⟨hr, hs⟩]

theorem sweepLeft_beginResync (s : State) (h : Hub) : 6144 ≤ (s.beginResync h).pair.sweepLeft ∧ (s.beginResync h).hub = s.hub :=
  ⟨Nat.le_add_right .., by cases h <;> rfl⟩

theorem sendYield_yields {s : State} {h : Hub} (ho : s.owner = some h) (h2 : s.pair.handStep = 2) (ha : s.pair.acked = s.pair.jn) :
    sendYield s = sendBeat h s.epoch 0 true false (s.modPair (fun p => { p with handStep := 3, gap := 0 })) := by
  unfold sendYield
  rw [ho]
  exact if_pos ⟨h2, ha⟩

/-- What one hub does with a claim of the other's (R397, R400). -/
def hearClaim (epoch : Word) (t : State) (h : Hub) : State :=
  if epochHigher epoch (t.hubOf h).epoch = false then t
  else if (t.hubOf h).role = .yielding then
    t.modHubOf h (fun u => { u with role := .valid, epoch := epoch, silentHb := 0, silentMir := 0 })
  else if (t.hubOf h).role = .owner then t.fence h else t

theorem yieldClaim_eq (epoch : Word) (s : State) : yieldClaim epoch s = hearClaim epoch (hearClaim epoch s .a) .b := rfl

theorem fence_other (s : State) (h : Hub) : (s.fence h).hubOf h.other = s.hubOf h.other := by
  unfold State.fence
  dsimp only
  split <;> cases h <;> rfl

theorem hearClaim_other (epoch : Word) (t : State) (h : Hub) : (hearClaim epoch t h).hubOf h.other = t.hubOf h.other := by
  unfold hearClaim
  split
  · rfl
  · split
    · rw [State.modHubOf_hubOf_other]
    · split
      · exact fence_other t h
      · rfl

theorem hearClaim_yields {t : State} {h : Hub} {e : Word} (hr : (t.hubOf h).role = .yielding)
    (he : epochHigher e (t.hubOf h).epoch = true) :
    ((hearClaim e t h).hubOf h).role = .valid ∧ ((hearClaim e t h).hubOf h).epoch = e := by
  unfold hearClaim
  rw [if_neg (by simp [he]), if_pos hr, State.modHubOf_hubOf_self]
  exact ⟨rfl, rfl⟩

/-- The yielding hub becomes the valid standby of the one that claims (R400). -/
theorem yieldClaim_yields {s : State} {h : Hub} {e : Word} (hr : (s.hubOf h).role = .yielding)
    (he : epochHigher e (s.hubOf h).epoch = true) :
    ((yieldClaim e s).hubOf h).role = .valid ∧ ((yieldClaim e s).hubOf h).epoch = e := by
  rw [yieldClaim_eq]
  cases h with
  | a =>
    rw [show (hearClaim e (hearClaim e s .a) .b).hubOf .a = (hearClaim e s .a).hubOf .a from hearClaim_other e _ .b]
    exact hearClaim_yields hr he
  | b =>
    have hb : (hearClaim e s .a).hubOf .b = s.hubOf .b := hearClaim_other e s .a
    exact hearClaim_yields (by rw [hb]; exact hr) (by rw [hb]; exact he)

theorem startHandover_starts {s : State} (hv : s.validStandby.isSome = true) (h0 : s.pair.handStep = 0) :
    startHandover s = { s with pair := { s.pair with handStep := 1 } } := by
  unfold startHandover
  rw [if_pos hv]
  unfold State.modPair
  dsimp only
  rw [if_pos h0]

theorem startHandover_refused {s : State} (hv : s.validStandby = none) :
    startHandover s = { s with pair := { s.pair with hoRefused := true } } := by
  unfold startHandover
  rw [if_neg (by simp [hv])]
  rfl

/-! ### What a core's restart leaves of the banks and of ownership (R365 to R367, R401) -/

def HubCore.banks (c : HubCore) : Option FwImage × Option FwImage × Bool := (c.bank0, c.bank1, c.bank)

/-- No core's banks change, and no hub's epoch; no role but that of `h`, which may become RESYNCING. -/
structure BanksStay (h : Hub) (s t : State) : Prop where
  banks : ∀ x j, (t.coreAt x j).banks = (s.coreAt x j).banks
  epoch : ∀ x, (t.hubOf x).epoch = (s.hubOf x).epoch
  role  : ∀ x, (t.hubOf x).role = (s.hubOf x).role ∨ (x = h ∧ (t.hubOf x).role = .resyncing)

section
variable {h : Hub} {s t u : State}

theorem BanksStay.trans (h₁ : BanksStay h s t) (h₂ : BanksStay h t u) : BanksStay h s u :=
  ⟨fun x j => (h₂.banks x j).trans (h₁.banks x j), fun x => (h₂.epoch x).trans (h₁.epoch x), fun x =>
    (h₂.role x).elim (fun e => (h₁.role x).imp (fun e' => e.trans e') fun e' => ⟨e'.1, e.trans e'.2⟩) .inr⟩

theorem BanksStay.of_hubOf (hh : ∀ x, t.hubOf x = s.hubOf x) : BanksStay h s t :=
  ⟨fun x j => by unfold State.coreAt; rw [hh], fun x => by rw [hh], fun x => .inl (by rw [hh])⟩

theorem BanksStay.refl : BanksStay h s s := .of_hubOf fun _ => rfl

theorem modHubOf_banksStay (s : State) (x : Hub) {f : HubSt → HubSt} (hc : ∀ u j, ((f u).core j).banks = (u.core j).banks)
    (he : ∀ u, (f u).epoch = u.epoch) (hr : ∀ u, (f u).role = u.role) : BanksStay h s (s.modHubOf x f) := by
  have hx (y : Hub) : (s.modHubOf x f).hubOf y = if y = x then f (s.hubOf y) else s.hubOf y := by
    by_cases hy : y = x
    · rw [if_pos hy, hy, State.modHubOf_hubOf_self]
    · rw [if_neg hy, modHubOf_hubOf_ne hy]
  refine ⟨fun y j => ?_, fun y => ?_, fun y => .inl ?_⟩
  · unfold State.coreAt
    rw [hx]
    split
    · exact hc _ _
    · rfl
  · rw [hx]
    split
    · exact he _
    · rfl
  · rw [hx]
    split
    · exact hr _
    · rfl

theorem modCore_keeps (u : HubSt) (k : Nat) (f : HubCore → HubCore) : (u.modCore k f).role = u.role ∧
    (u.modCore k f).epoch = u.epoch := by
  match k with
  | 0 => exact ⟨rfl, rfl⟩
  | 1 => exact ⟨rfl, rfl⟩
  | _ + 2 => exact ⟨rfl, rfl⟩

/-- The place of a core among its hub's three. -/
theorem modCore_core (u : HubSt) (k j : Nat) (f : HubCore → HubCore) :
    (u.modCore k f).core j = if min k 2 = min j 2 then f (u.core j) else u.core j := by
  match k, j with
  | 0, 0 => rfl
  | 0, 1 => rfl
  | 0, j + 2 => exact (if_neg (by omega)).symm
  | 1, 0 => rfl
  | 1, 1 => rfl
  | 1, j + 2 => exact (if_neg (by omega)).symm
  | k + 2, 0 => exact (if_neg (by omega)).symm
  | k + 2, 1 => exact (if_neg (by omega)).symm
  | k + 2, j + 2 => exact (if_pos (by omega)).symm

theorem modCore_banksStay (s : State) (x : Hub) (k : Nat) {f : HubCore → HubCore} (hf : ∀ c, (f c).banks = c.banks) :
    BanksStay h s (s.modCore x k f) := by
  refine modHubOf_banksStay s x (fun u j => ?_) (fun u => (modCore_keeps u k f).2) fun u => (modCore_keeps u k f).1
  rw [modCore_core]
  split
  · exact hf _
  · rfl

theorem record_banksStay (s : State) (code level argx source : Nat) (arg : Word) :
    BanksStay h s (s.record code level argx source arg) := .of_hubOf fun x => by cases x <;> rfl

theorem raise_banksStay (s : State) (src cause arg : Nat) : BanksStay h s (s.raise src cause arg) :=
  .of_hubOf fun x => by cases x <;> rfl

theorem event_banksStay (s : State) (e : Event) : BanksStay h s { s with events := s.events ++ [e] } :=
  .of_hubOf fun x => by cases x <;> rfl

theorem modPair_banksStay (s : State) (f : Pair → Pair) : BanksStay h s (s.modPair f) := .of_hubOf fun x => modPair_hubOf s f x

theorem beginResync_banksStay (s : State) : BanksStay h s (s.beginResync h) := by
  refine ⟨fun x j => by rw [(beginResync_stands s h).core], fun x => ?_, fun x => ?_⟩
  · cases h <;> cases x <;> rfl
  · by_cases hx : x = h
    · exact .inr ⟨hx, by rw [hx, beginResync_hubOf]⟩
    · refine .inl ?_
      cases h <;> cases x
      case a.a => exact absurd rfl hx
      case b.b => exact absurd rfl hx
      case a.b => rfl
      case b.a => rfl

theorem releaseHeld_banksStay (s : State) : BanksStay h s s.releaseHeld := by
  rw [releaseHeld_eq]
  exact .of_hubOf fun x => by cases x <;> rfl

theorem OnlyShared.banksStay (i : OnlyShared s t) : BanksStay h s t := .of_hubOf fun x => i.hubOf x

theorem standby_other (ho : s.owner ≠ some h) {w : Hub} (hw : s.standby = some w) : w = h := by
  unfold State.standby at hw
  split at hw
  next => cases hw
  next k hk =>
    dsimp only at hw
    split at hw
    next =>
      have hkw : k.other = w := Option.some.inj hw
      rw [← hkw]
      cases k <;> cases h
      case a.a => exact absurd hk ho
      case b.b => exact absurd hk ho
      case a.b => rfl
      case b.a => rfl
    next => cases hw

/-- A pair that becomes DEGRADED: of the roles only a standby's changes. -/
theorem degradePair_banksStay (ho : s.owner ≠ some h) : BanksStay h s (degradePair s) := by
  unfold degradePair
  split
  · exact .refl
  · dsimp only
    refine BanksStay.trans ?_ ((extendGrants_onlyShared _).trans (settleDecisions_onlyShared _)).banksStay
    refine BanksStay.trans ?_ (releaseHeld_banksStay _)
    refine BanksStay.trans ?_ (raise_banksStay _ 201 1 0)
    split
    next w hw =>
      have hs : s.standby = some w := hw
      rw [standby_other ho hs]
      exact (modPair_banksStay s _).trans (beginResync_banksStay _)
    next => exact modPair_banksStay s _

theorem startHandover_banksStay (s : State) : BanksStay h s (startHandover s) := by
  unfold startHandover
  split <;> exact modPair_banksStay s _

/-- A hub that is owner or not by its role stays so. -/
theorem BanksStay.isOwner (i : BanksStay h s t) (hr : (s.hubOf h).role ≠ .owner) (x : Hub) :
    (t.hubOf x).role = .owner ↔ (s.hubOf x).role = .owner := by
  obtain hx | ⟨rfl, hx⟩ := i.role x
  · rw [hx]
  · rw [hx]
    exact ⟨nofun, fun h' => absurd h' hr⟩

theorem owner_of_banksStay (i : BanksStay h s t) (hr : (s.hubOf h).role ≠ .owner) : t.owner = s.owner := by
  have ha := i.isOwner hr .a
  have hb := i.isOwner hr .b
  have ea := i.epoch .a
  have eb := i.epoch .b
  simp only [State.hubOf] at ha hb ea eb
  simp only [State.owner, ha, hb, ea, eb]

theorem epoch_of_banksStay (i : BanksStay h s t) (hr : (s.hubOf h).role ≠ .owner) : t.epoch = s.epoch := by
  unfold State.epoch
  rw [owner_of_banksStay i hr]
  split
  · exact i.epoch _
  · rfl

theorem stopHubCore_banksStay (ho : s.owner ≠ some h) (hr : (s.hubOf h).role ≠ .owner) (k : Nat) :
    BanksStay h s (stopHubCore h k s) := by
  unfold stopHubCore
  extract_lets t0 t event
  have i : BanksStay h s t := (modCore_banksStay s h k (f := fun c => { c with state := .stopped, switching := false }) fun _ => rfl).trans
    (record_banksStay ..)
  have ht : t.owner ≠ some h := by rw [owner_of_banksStay i hr]; exact ho
  rw [if_neg ht]
  have hev : BanksStay h t (event 1 t) := event_banksStay t _
  exact (i.trans hev).trans (degradePair_banksStay (by rw [owner_of_banksStay (i.trans hev) hr]; exact ho))

theorem dropServed_banksStay (s : State) (x : Hub) (k : Nat) : BanksStay h s (s.dropServed x k) := by
  have hsub (v : State) : BanksStay h v (retakeServed k v) := .of_hubOf fun y => by cases y <;> simp [retakeServed, State.hubOf]
  unfold State.dropServed
  split
  · refine BanksStay.trans ?_ (hsub _)
    split
    · exact .of_hubOf fun y => by cases y <;> rfl
    · exact .refl
  · exact .refl

theorem runAgain_banksStay (x : Hub) (k cause : Nat) (s : State) : BanksStay h s (runAgain x k cause s) := by
  rw [runAgain_eq]
  refine BanksStay.trans ?_ (raise_banksStay _ 198 0 0)
  refine BanksStay.trans ?_ (record_banksStay ..)
  refine BanksStay.trans ?_ (dropServed_banksStay ..)
  refine BanksStay.trans ?_ (modHubOf_banksStay _ x (fun u j => ?_) (fun _ => rfl) fun _ => rfl)
  · exact modCore_banksStay s x k fun _ => rfl
  match j with
  | 0 => rfl
  | 1 => rfl
  | _ + 2 => rfl

theorem restartHubCore_banksStay (ho : s.owner ≠ some h) (hr : (s.hubOf h).role ≠ .owner) (k cause : Nat) :
    BanksStay h s (restartHubCore h k cause s) := by
  have i : BanksStay h s (runAgain h k cause s) := runAgain_banksStay ..
  unfold restartHubCore
  dsimp only
  split
  · exact .refl
  · split
    · refine i.trans (stopHubCore_banksStay ?_ (fun e => hr ((i.isOwner hr h).1 e)) k)
      rw [owner_of_banksStay i hr]
      exact ho
    · exact i

theorem copyRetained_banksStay (k : Nat) (s : State) : BanksStay h s (copyRetained h k s) := by
  unfold copyRetained
  dsimp only
  split
  · exact .refl
  · exact modCore_banksStay s h k fun _ => rfl

theorem shareArb_banksStay (s : State) : BanksStay h s s.shareArb := by
  have hone (v : State) (x : Hub) (t n : Nat) : BanksStay h v (v.raiseArb x t n) := by
    refine modHubOf_banksStay v x (fun u j => ?_) (fun _ => rfl) fun _ => rfl
    match j with
    | 0 => rfl
    | 1 => rfl
    | _ + 2 => rfl
  unfold State.shareArb
  exact List.foldlRecOn (motive := BanksStay h s) (List.range 4) _ .refl fun b hb t _ => hb.trans ((hone ..).trans (hone ..))

/-! ### Resynchronisation (R359, R361, R401) -/

/-- A core's banks as another's: what of a hub that does not own comes to be the owner's. -/
structure Rejoined (h : Hub) (k : Nat) (s t : State) : Prop where
  owner : t.owner = s.owner
  epoch : t.epoch = s.epoch
  role  : (t.hubOf h).role ≠ .owner
  core  : (t.coreAt h k).banks = (s.coreAt h.other k).banks
  other : ∀ j, (t.coreAt h.other j).banks = (s.coreAt h.other j).banks
  rest  : ∀ j < 3, j ≠ k → (t.coreAt h j).banks = (s.coreAt h j).banks

theorem Rejoined.banksStay {k : Nat} (i : Rejoined h k s t) (hs : BanksStay h t u) : Rejoined h k s u :=
  ⟨(owner_of_banksStay hs i.role).trans i.owner, (epoch_of_banksStay hs i.role).trans i.epoch,
    fun e => i.role ((hs.isOwner i.role h).1 e), (hs.banks h k).trans i.core, fun j => (hs.banks _ j).trans (i.other j),
    fun j hj hne => (hs.banks h j).trans (i.rest j hj hne)⟩

/-- The banks and the selected one are another core's. -/
theorem modCore_rejoined (hr : (s.hubOf h).role ≠ .owner) {k : Nat} (hk : k < 3) {f : HubCore → HubCore}
    (hf : (f (s.coreAt h k)).banks = (s.coreAt h.other k).banks) : Rejoined h k s (s.modCore h k f) := by
  have hne : h.other ≠ h := by cases h <;> simp [Hub.other]
  have hself : (s.modCore h k f).hubOf h = (s.hubOf h).modCore k f := State.modHubOf_hubOf_self ..
  have hother : (s.modCore h k f).hubOf h.other = s.hubOf h.other := State.modHubOf_hubOf_other ..
  have hroles (x : Hub) : ((s.modCore h k f).hubOf x).role = (s.hubOf x).role ∧ ((s.modCore h k f).hubOf x).epoch = (s.hubOf x).epoch :=
    modHubOf_sameRoles s h (fun u => (modCore_keeps u k f).1) (fun u => (modCore_keeps u k f).2) x
  have howner : (s.modCore h k f).owner = s.owner := owner_of_hubs (fun x => (hroles x).1) fun x => (hroles x).2
  refine ⟨howner, ?_, by rw [(hroles h).1]; exact hr, ?_, fun j => ?_, fun j hj hjk => ?_⟩
  · unfold State.epoch
    rw [howner]
    split
    · exact (hroles _).2
    · rfl
  · rw [modCore_coreAt, if_pos rfl]
    exact hf
  · unfold State.coreAt
    rw [hother]
  · unfold State.coreAt
    rw [hself, modCore_core, if_neg (by omega)]

theorem rejoinCore_rejoined (ho : s.owner ≠ some h) (hr : (s.hubOf h).role ≠ .owner) {k : Nat} (hk : k < 3) :
    Rejoined h k s (rejoinCore h k s) := by
  unfold rejoinCore
  extract_lets o c t
  have i : Rejoined h k s t := modCore_rejoined hr hk rfl
  split
  next he =>
    obtain ⟨h0, h1, h2⟩ := he
    exact ⟨rfl, rfl, hr, by unfold HubCore.banks; rw [← h0, ← h1, ← h2], fun _ => rfl, fun _ _ _ => rfl⟩
  next =>
    split
    · exact i.banksStay (modCore_banksStay t h k fun _ => rfl)
    · split
      · exact i.banksStay (modCore_banksStay t h k fun _ => rfl)
      · exact i.banksStay (restartHubCore_banksStay (by rw [i.owner]; exact ho) i.role k 3)

/-- After all three cores have rejoined, each stands on the owner's banks (R359, R401). -/
theorem rejoined_cores (ho : s.owner ≠ some h) (hr : (s.hubOf h).role ≠ .owner) :
    let v := ([0, 1, 2].foldl (fun a k => copyRetained h k (rejoinCore h k a)) s).shareArb
    v.epoch = s.epoch ∧ ∀ k < 3, (v.coreAt h k).banks = (s.coreAt h.other k).banks := by
  have hstep (a : State) (hoa : a.owner ≠ some h) (hra : (a.hubOf h).role ≠ .owner) (k : Nat) (hk : k < 3) :
      Rejoined h k a (copyRetained h k (rejoinCore h k a)) :=
    (rejoinCore_rejoined hoa hra hk).banksStay (copyRetained_banksStay ..)
  have i0 := hstep s ho hr 0 (by omega)
  have i1 := hstep _ (by rw [i0.owner]; exact ho) i0.role 1 (by omega)
  have i2 := hstep _ (by rw [i1.owner, i0.owner]; exact ho) i1.role 2 (by omega)
  have hv := shareArb_banksStay (h := h) (copyRetained h 2 (rejoinCore h 2 (copyRetained h 1 (rejoinCore h 1
    (copyRetained h 0 (rejoinCore h 0 s))))))
  refine ⟨?_, fun k hk => (hv.banks h k).trans ?_⟩
  · exact (epoch_of_banksStay hv i2.role).trans (i2.epoch.trans (i1.epoch.trans i0.epoch))
  · match k, hk with
    | 0, _ => exact (i2.rest 0 (by omega) (by omega)).trans ((i1.rest 0 (by omega) (by omega)).trans i0.core)
    | 1, _ => exact (i2.rest 1 (by omega) (by omega)).trans (i1.core.trans (i0.other 1))
    | 2, _ => exact i2.core.trans ((i1.other 2).trans (i0.other 2))

end

theorem image_of_banks {c d : HubCore} (h : c.banks = d.banks) : c.bank = d.bank ∧ c.image = d.image := by
  unfold HubCore.banks at h
  simp only [Prod.mk.injEq] at h
  obtain ⟨h0, h1, h2⟩ := h
  exact ⟨h2, by unfold HubCore.image; rw [h0, h1, h2]⟩

/-- A standby stands on another hub's side of the pair (R381). -/
theorem standby_owner {s : State} {h : Hub} (hs : s.standby = some h) : s.owner = some h.other := by
  unfold State.standby at hs
  split at hs
  next => cases hs
  next k hk =>
    dsimp only at hs
    split at hs
    next =>
      have hkh : k.other = h := Option.some.inj hs
      rw [← hkh]
      cases k <;> exact hk
    next => cases hs

/-- The pair as a complete sweep leaves it, from the hubs' cores `v`. -/
def State.resynced (v : State) (h : Hub) : State :=
  ((v.modHubOf h (fun u => { u with role := .valid, rxGood := v.pair.jn, rxSeq := v.pair.tx h.other, epoch := v.epoch })).modHubOf h.other
    (fun u => { u with dropSent := false })).modPair (fun p => { p with
      paired := true, degraded := false, image := v.hub.mirrored, acked := p.jn, sent := p.jn, journal := [], blocks := [] })

theorem resynced_hubOf (v : State) (h : Hub) : (v.resynced h).hubOf h =
    { v.hubOf h with role := .valid, rxGood := v.pair.jn, rxSeq := v.pair.tx h.other, epoch := v.epoch } := by
  have hne : h ≠ h.other := by cases h <;> simp [Hub.other]
  unfold State.resynced
  rw [modPair_hubOf, modHubOf_hubOf_ne hne, State.modHubOf_hubOf_self]

theorem resynced_coreAt (v : State) (h : Hub) (k : Nat) : (v.resynced h).coreAt h k = v.coreAt h k := by
  unfold State.coreAt
  rw [resynced_hubOf]
  match k with
  | 0 => rfl
  | 1 => rfl
  | _ + 2 => rfl

theorem resynced_pair (v : State) (h : Hub) : (v.resynced h).pair.paired = true ∧ (v.resynced h).pair.degraded = false ∧
    (v.resynced h).pair.image = (v.resynced h).hub.mirrored := by
  cases h <;> exact ⟨rfl, rfl, rfl⟩

theorem resyncComplete_eq {s : State} {h : Hub} (hs : s.standby = some h) (hr : (s.hubOf h).role = .resyncing)
    (hl : s.pair.linkUp = true) (hw : s.pair.sweepLeft = 0) : resyncComplete s =
    ([0, 1, 2].foldl (fun a k => copyRetained h k (rejoinCore h k a)) s).shareArb.resynced h := by
  unfold resyncComplete
  rw [hs]
  dsimp only
  rw [if_neg (by simp [hr, hl, hw]), standby_owner hs]
  generalize ([0, 1, 2].foldl (fun a k => copyRetained h k (rejoinCore h k a)) s).shareArb = v
  cases h <;> rfl

/-- A complete sweep pairs the hubs (R359, R401). -/
theorem resyncComplete_pairs {s : State} {h : Hub} (hs : s.standby = some h) (hr : (s.hubOf h).role = .resyncing)
    (hl : s.pair.linkUp = true) (hw : s.pair.sweepLeft = 0) :
    let t := resyncComplete s
    (t.hubOf h).role = .valid ∧ (t.hubOf h).epoch = s.epoch ∧ t.pair.paired = true ∧ t.pair.degraded = false ∧
      t.pair.image = t.hub.mirrored ∧ ∀ k, k < 3 → (t.coreAt h k).bank = (s.coreAt h.other k).bank ∧
        (t.coreAt h k).image = (s.coreAt h.other k).image := by
  have hne : s.owner ≠ some h := by rw [standby_owner hs]; cases h <;> simp [Hub.other]
  obtain ⟨hep, hbanks⟩ := rejoined_cores hne (by rw [hr]; decide)
  dsimp only
  rw [resyncComplete_eq hs hr hl hw]
  generalize ([0, 1, 2].foldl (fun a k => copyRetained h k (rejoinCore h k a)) s).shareArb = v at hep hbanks
  obtain ⟨hp, hd, hi⟩ := resynced_pair v h
  refine ⟨by rw [resynced_hubOf], by rw [resynced_hubOf]; exact hep, hp, hd, hi, fun k hk => ?_⟩
  rw [resynced_coreAt]
  exact image_of_banks (hbanks k hk)

/-- A good block at a standby, by the block of journal entries that it carries (R388, R391). -/
theorem exec_mirrorBlock_standby {s : State} {h : Hub} {wrong par : Nat} (seq ack : Nat) (hl : s.pair.linkUp = true)
    (hw : wrong + par ≤ 8) (hr : (s.hubOf h).role = .valid ∨ (s.hubOf h).role = .resyncing) :
    ∃ t, exec (.mirrorBlock h wrong par seq ack false) s = .next t ∧ (t.hubOf h).silentMir = 0 ∧ t.hub = s.hub ∧ t.out = s.out ∧
      t.pair.corrBlk = (if 0 < wrong + par then satAdd 0xFFFF s.pair.corrBlk 1 else s.pair.corrBlk) ∧
      (s.pair.blocks.find? (fun b => b.1 == seq) = none → (t.hubOf h).rxGood = (s.hubOf h).rxGood ∧ t.pair.image = s.pair.image ∧
        (t.hubOf h).rxSeq = if seq = ((s.hubOf h).rxSeq + 1) % 2 ^ 32 then seq else (s.hubOf h).rxSeq) ∧
      ∀ a z, s.pair.blocks.find? (fun b => b.1 == seq) = some (seq, a, z) →
        ((s.hubOf h).rxGood + 1 < a → (t.hubOf h).rxGood = (s.hubOf h).rxGood ∧ (t.hubOf h).rxSeq = (s.hubOf h).rxSeq ∧
          t.pair.image = s.pair.image) ∧
        (a ≤ (s.hubOf h).rxGood + 1 → (t.hubOf h).rxGood = max (s.hubOf h).rxGood z ∧ (t.hubOf h).rxSeq = seq ∧
          ((s.hubOf h).rxGood < z → t.pair.image = s.pair.snapshot z)) := by
  obtain ⟨im, good, q, ht, hplain, hlate, htaken⟩ := takeBlock_standby hw hr seq ack
  obtain ⟨hhub, hout, hheld, himage, hcorr, hmir, hgood, hseq⟩ := holding_facts s h (wrong + par) hw im good q
  refine ⟨_, next_journaled_same (f := mirrorBlock h (wrong + par) seq ack false) ((if_pos hl).trans ht) hhub (Nat.le_of_eq (by rw [hheld])),
    hmir, hhub, hout, hcorr, fun hn => ?_, fun a z hf => ⟨fun ha => ?_, fun ha => ?_⟩⟩
  · rw [hgood, himage, hseq]
    exact hplain hn
  · rw [hgood, himage, hseq]
    exact hlate a z hf ha
  · rw [hgood, himage, hseq]
    exact htaken a z hf ha

/-- A handover asked for starts, or is refused (R400, R404). -/
theorem exec_handover {s : State} (hopen : s.pow.regOpen = true) : exec .handover s = .next (startHandover s) :=
  next_congr (if_pos hopen)

/-- Settles O38, clause by clause: blocks by the hub that takes them, promotion by the state that it starts from, silences, the yield,
the claim at the yielding hub, the sweep's end by the banks that rejoin. -/
theorem pairChangesAndHandovers : Obligations.PairChangesAndHandovers := by
  unfold Obligations.PairChangesAndHandovers
  refine ⟨fun s h => ⟨fun diff wrong par seq ack hl => ?_, fun diff wrong par seq ack hl hw => ?_,
    fun wrong par seq ack hl hw hr => exec_mirrorBlock_standby seq ack hl hw hr, fun diff wrong par seq ack hl hw hr hp => ⟨_, rfl, ?_⟩,
    fun hr hs hc ho => ⟨_, next_congr (promotion_promotes hr hs hc ho), promote_facts h s⟩,
    fun hr hs ho hf => next_congr (promotion_refuses hr hs ho hf), fun ho hs hq hp => ?_, fun hm hr hs => ?_,
    fun hm hr hs => next_congr (mirrorSilence_drops hm hr hs), fun ho h2 ha => next_congr (sendYield_yields ho h2 ha),
    fun e hr he => ⟨_, rfl, yieldClaim_yields hr he⟩, fun hs hr hl hw => ⟨_, rfl, resyncComplete_pairs hs hr hl hw⟩, fun lane => rfl⟩,
    fun s hopen => ⟨fun hv h0 => (exec_handover hopen).trans (next_congr (startHandover_starts hv h0)),
      fun hv => (exec_handover hopen).trans (next_congr (startHandover_refused hv))⟩⟩
  · exact next_journaled_same (f := mirrorBlock h (wrong + par) seq ack diff) (if_neg (by simp [hl])) rfl (Nat.le_refl _)
  · exact next_journaled_same (mirrorBlock_bad hl hw h seq ack diff) rfl (Nat.le_refl _)
  · have hb : mirrorBlock h (wrong + par) seq ack diff s = takeBlock h (wrong + par) seq ack diff s := if_pos hl
    obtain ⟨hack, hgone, hstay⟩ := takeBlock_owner hw hr hp seq ack diff
    dsimp only
    rw [journaled_acked, journaled_out, journaled_heldEff, hb]
    exact ⟨hack, hgone, hstay⟩
  · obtain ⟨hpair, hsaid⟩ := sendProbes_facts h (s.modPair (fun p => { p with probing := true, probes := List.range 64 }))
    exact ⟨_, next_congr (probeEpochs_probes ho hs hq hp), hpair, hsaid⟩
  · obtain ⟨hsweep, hhub⟩ := sweepLeft_beginResync s h
    exact ⟨_, next_congr (mirrorSilence_leaves hm hr hs), by rw [beginResync_hubOf], hsweep, hhub⟩

end Sys2Proof.Machine
end

