-- ==== Sys2Proof/Proofs/BoundaryParts.lean ====
section
/-!
SUPPORT. What an argument about a boundary follows of one region, and the rules of the state's operations for it (R163).
-/

namespace Sys2Proof.Machine

/-! ### What the rest of a boundary leaves of one region (R163) -/

/-- The parts of a region's state, and of its governor's, that an argument follows. -/
structure Keep where
  claims : Bool
  rings  : Bool
  asked  : Bool
  gov    : Bool
  resvs  : Bool
  wait   : Bool
  caps   : Bool
  owed   : Bool
  sage   : Bool
  slots  : Bool
  free   : Bool
  groups : Bool

/-- Nothing is followed but what always is. -/
def Keep.none : Keep := ⟨false, false, false, false, false, false, false, false, false, false, false, false⟩

def Resv.key (v : Resv) : Nat × Bool × Bool := (v.grant, v.inForce, v.leaving)

def GSlot.key (x : GSlot) : Nat × List Nat × Bool × Bool := (x.gid, x.members, x.written, x.closing)

/-- No cluster of the map is a member of a group. -/
def NoGroups (m : SMap Cluster) : Prop := m.dflt.ctl.group = none ∧ ∀ p ∈ m.cells, p.2.ctl.group = none

/-- The clusters of `m'` are in the groups that those of `m` are in (R271). -/
def SameGroups (m m' : SMap Cluster) : Prop :=
  (∀ c, (m'.get c).ctl.group = (m.get c).ctl.group) ∧ (NoGroups m → NoGroups m')

theorem NoGroups.get {m : SMap Cluster} (h : NoGroups m) (c : Nat) : (m.get c).ctl.group = none := by
  unfold SMap.get
  split
  · next hp => exact h.2 _ (List.mem_of_find?_eq_some hp)
  · exact h.1

theorem SameGroups.refl (m : SMap Cluster) : SameGroups m m := ⟨fun _ => rfl, id⟩

theorem SameGroups.trans {m m' m'' : SMap Cluster} (h : SameGroups m m') (h' : SameGroups m' m'') : SameGroups m m'' :=
  ⟨fun c => (h'.1 c).trans (h.1 c), h'.2 ∘ h.2⟩

theorem NoGroups.set {m : SMap Cluster} (h : NoGroups m) (c : Nat) {u : Cluster} (hu : u.ctl.group = none) : NoGroups (m.set c u) := by
  refine ⟨h.1, fun p hp => ?_⟩
  unfold SMap.set at hp
  split at hp
  · exact h.2 p (List.mem_of_mem_filter hp)
  · rcases mem_insertCell hp with rfl | hp
    · exact hu
    · exact h.2 p hp

theorem sameGroups_modify {m : SMap Cluster} {c : Nat} {f : Cluster → Cluster} (hf : ∀ u, (f u).ctl.group = u.ctl.group) :
    SameGroups m (m.modify c f) := by
  refine ⟨fun j => ?_, fun h => h.set c ((hf _).trans (h.get c))⟩
  by_cases hj : j = c
  · rw [hj, SMap.get_modify_self, hf]
  · rw [SMap.get_modify_ne _ _ hj]

theorem NoGroups.mapAll {m : SMap Cluster} {f : Cluster → Cluster} (hd : m.dflt.ctl.group = none)
    (h : ∀ c, (m.get c).ctl.group = none) (hf : ∀ u, (f u).ctl.group = u.ctl.group) : NoGroups (m.mapAll f) := by
  refine ⟨(hf _).trans hd, fun p hp => ?_⟩
  obtain ⟨x, -, rfl⟩ := List.mem_map.1 (List.mem_of_mem_filter hp)
  exact (hf _).trans (h _)

theorem sameGroups_mapAll {m : SMap Cluster} {f : Cluster → Cluster} (hf : ∀ u, (f u).ctl.group = u.ctl.group) :
    SameGroups m (m.mapAll f) :=
  ⟨fun j => by rw [SMap.get_mapAll, hf], fun h => .mapAll h.1 h.get hf⟩

theorem sameGroups_modifyAll {f : Nat → Cluster → Cluster} (hf : ∀ c u, (f c u).ctl.group = u.ctl.group) (ks : List Nat)
    (m : SMap Cluster) : SameGroups m (m.modifyAll ks f) :=
  List.foldlRecOn (motive := SameGroups m) ks _ (.refl m) fun _ hm c _ => hm.trans (sameGroups_modify (hf c))

theorem noGroups_mapBy {m : SMap Cluster} {f : Nat → Cluster → Cluster} (h : NoGroups m) (n : Nat)
    (hf : ∀ c u, (f c u).ctl.group = u.ctl.group) : NoGroups (m.mapBy n f) := by
  refine ⟨(hf _ _).trans h.1, fun p hp => ?_⟩
  obtain ⟨c, -, hc⟩ := List.mem_filterMap.1 hp
  dsimp only at hc
  split at hc
  · cases hc
  · cases hc
    exact (hf _ _).trans (h.get c)

/-- A cap message that waits still waits, and a preset that waits is at most lowered (R56). -/
def Caps.StillWaits (c c' : Caps) : Prop :=
  c'.waiting = c.waiting ∧ ∀ p, c.ecapWait = some p → ∃ p', c'.ecapWait = some p' ∧ p' ≤ p

/-- The cap in force is the same, and the preset that waits. -/
def Caps.Same (c c' : Caps) : Prop := c'.iReg = c.iReg ∧ c'.ecapWait = c.ecapWait

/-- The model, its image and its switch are the same. -/
def Sage.Same (x x' : Sage) : Prop :=
  x'.model = x.model ∧ x'.weights = x.weights ∧ x'.loadBuf = x.loadBuf ∧ x'.switchAt = x.switchAt

/-- From `g` to `g'` the parts followed are the same. -/
structure Carries (k : Keep) (g g' : Region) : Prop where
  resvs : k.resvs = true → g'.resvs.map Resv.key = g.resvs.map Resv.key
  wait  : k.wait = true → g.caps.StillWaits g'.caps
  caps  : k.caps = true → g.caps.Same g'.caps
  owed  : k.owed = true → g'.caps.ackOwed = g.caps.ackOwed
  sage  : k.sage = true → g.sage.Same g'.sage
  slots : k.slots = true → g'.slots.map GSlot.key = g.slots.map GSlot.key
  free  : k.free = true → NoGroups g.clusters → NoGroups g'.clusters
  groups : k.groups = true → ∀ c, (g'.clusters.get c).ctl.group = (g.clusters.get c).ctl.group

theorem Caps.StillWaits.refl (c : Caps) : c.StillWaits c := ⟨rfl, fun p h => ⟨p, h, le_rfl⟩⟩
theorem Caps.Same.refl (c : Caps) : c.Same c := ⟨rfl, rfl⟩
theorem Sage.Same.refl (x : Sage) : x.Same x := ⟨rfl, rfl, rfl, rfl⟩

theorem Caps.StillWaits.trans {c c' c'' : Caps} (h : c.StillWaits c') (h' : c'.StillWaits c'') : c.StillWaits c'' := by
  refine ⟨h'.1.trans h.1, fun p e => ?_⟩
  obtain ⟨p', e', hp⟩ := h.2 p e
  obtain ⟨p'', e'', hp'⟩ := h'.2 p' e'
  exact ⟨p'', e'', hp'.trans hp⟩

theorem Caps.Same.trans {c c' c'' : Caps} (h : c.Same c') (h' : c'.Same c'') : c.Same c'' :=
  ⟨h'.1.trans h.1, h'.2.trans h.2⟩

theorem Sage.Same.trans {x x' x'' : Sage} (h : x.Same x') (h' : x'.Same x'') : x.Same x'' := by
  obtain ⟨h1, h2, h3, h4⟩ := h
  obtain ⟨e1, e2, e3, e4⟩ := h'
  exact ⟨e1.trans h1, e2.trans h2, e3.trans h3, e4.trans h4⟩

theorem Carries.refl (k : Keep) (g : Region) : Carries k g g :=
  ⟨fun _ => rfl, fun _ => .refl _, fun _ => .refl _, fun _ => rfl, fun _ => .refl _, fun _ => rfl, fun _ => id,
    fun _ _ => rfl⟩

theorem Carries.trans {k : Keep} {g g' g'' : Region} (h : Carries k g g') (h' : Carries k g' g'') : Carries k g g'' where
  resvs e := (h'.resvs e).trans (h.resvs e)
  wait e := (h.wait e).trans (h'.wait e)
  caps e := (h.caps e).trans (h'.caps e)
  owed e := (h'.owed e).trans (h.owed e)
  sage e := (h.sage e).trans (h'.sage e)
  slots e := (h'.slots e).trans (h.slots e)
  free e := h'.free e ∘ h.free e
  groups e c := (h'.groups e c).trans (h.groups e c)

theorem Carries.ite {k : Keep} {g g₁ g₂ : Region} {c : Prop} [Decidable c] (h₁ : Carries k g g₁) (h₂ : Carries k g g₂) :
    Carries k g (if c then g₁ else g₂) := by
  split
  · exact h₁
  · exact h₂

/-- A change of other things than those followed. -/
theorem Carries.of_parts {k : Keep} {g g' : Region} (hr : g'.resvs.map Resv.key = g.resvs.map Resv.key)
    (hw : g'.caps.waiting = g.caps.waiting) (hi : g'.caps.iReg = g.caps.iReg) (he : g'.caps.ecapWait = g.caps.ecapWait)
    (ho : g'.caps.ackOwed = g.caps.ackOwed) (hs : g.sage.Same g'.sage) (hl : g'.slots.map GSlot.key = g.slots.map GSlot.key)
    (hg : SameGroups g.clusters g'.clusters) : Carries k g g' :=
  ⟨fun _ => hr, fun _ => ⟨hw, fun p e => ⟨p, he.trans e, le_rfl⟩⟩, fun _ => ⟨hi, he⟩, fun _ => ho, fun _ => hs,
    fun _ => hl, fun _ => hg.2, fun _ => hg.1⟩

/-- A change that touches nothing followed but the clusters, whose groups it keeps. -/
theorem Carries.of_groups {k : Keep} {g g' : Region} (hr : g'.resvs = g.resvs) (hc : g'.caps = g.caps) (hs : g'.sage = g.sage)
    (hl : g'.slots = g.slots) (hg : SameGroups g.clusters g'.clusters) : Carries k g g' := by
  refine .of_parts (by rw [hr]) (by rw [hc]) (by rw [hc]) (by rw [hc]) (by rw [hc]) ?_ (by rw [hl]) hg
  rw [hs]
  exact .refl _

/-- A change that touches nothing followed. -/
theorem Carries.of_same {k : Keep} {g g' : Region} (hr : g'.resvs = g.resvs) (hc : g'.caps = g.caps) (hs : g'.sage = g.sage)
    (hl : g'.slots = g.slots) (hg : g'.clusters = g.clusters) : Carries k g g' := .of_groups hr hc hs hl (by rw [hg]; exact .refl _)

/-- A change of what is not followed of the caps. -/
theorem Carries.of_caps {k : Keep} {g : Region} (c : Caps) (hw : c.waiting = g.caps.waiting) (hi : c.iReg = g.caps.iReg)
    (he : c.ecapWait = g.caps.ecapWait) (ho : c.ackOwed = g.caps.ackOwed) : Carries k g { g with caps := c } :=
  .of_parts rfl hw hi he ho (.refl _) rfl (.refl _)

/-- A change of the learned cost that keeps the model, its image and its switch. -/
theorem Carries.of_sage {k : Keep} {g : Region} {f : Sage → Sage} (hs : g.sage.Same (f g.sage)) : Carries k g (g.modSage f) :=
  .of_parts rfl rfl rfl rfl rfl hs rfl (.refl _)

/-- As far as it is followed, a ring that stands at 0 does so still, and one that is asked to restart is still asked. -/
def Ring.Stands (k : Keep) (g g' : Ring) : Prop := 
  (k.rings = true → RingFresh g → RingFresh g') ∧ (k.asked = true → g.restart = true → g'.restart = true)

theorem Ring.Stands.refl (k : Keep) (g : Ring) : g.Stands k g := ⟨fun _ => id, fun _ => id⟩

theorem Ring.Stands.trans {k : Keep} {g g' g'' : Ring} (h : g.Stands k g') (h' : g'.Stands k g'') : g.Stands k g'' :=
  ⟨fun e => h'.1 e ∘ h.1 e, fun e => h'.2 e ∘ h.2 e⟩

/-- From `o` to `s` the counts of time, a claim's rest, and what is followed of region `q` are the same; what has left stays,
and no load is new. -/
structure Calm (k : Keep) (q : Nat) (o s : State) : Prop where
  time   : s.period = o.period ∧ s.tick = o.tick ∧ s.pow.waferRun = o.pow.waferRun
  ring   : ∀ j, (o.ring j).Stands k (s.ring j)
  loads  : s.hub.loads.map ModelLoad.mask ⊆ o.hub.loads.map ModelLoad.mask
  out    : o.out ⊆ s.out
  claims : k.claims = true → s.pair.claims = o.pair.claims
  gov    : k.gov = true → (s.gov q).words = (o.gov q).words ∧ (s.gov q).epoch = (o.gov q).epoch
  region : Carries k (o.region q) (s.region q)

section
variable {k : Keep} {q : Nat} {o s t : State}

theorem Calm.refl (k : Keep) (q : Nat) (s : State) : Calm k q s s :=
  ⟨⟨rfl, rfl, rfl⟩, fun _ => .refl k _, List.Subset.refl _, List.Subset.refl _, fun _ => rfl, fun _ => ⟨rfl, rfl⟩, .refl k _⟩

theorem Calm.trans (h : Calm k q o s) (h' : Calm k q s t) : Calm k q o t where
  time := ⟨h'.time.1.trans h.time.1, h'.time.2.1.trans h.time.2.1, h'.time.2.2.trans h.time.2.2⟩
  ring j := (h.ring j).trans (h'.ring j)
  loads := List.Subset.trans h'.loads h.loads
  out := List.Subset.trans h.out h'.out
  claims e := (h'.claims e).trans (h.claims e)
  gov e := ⟨(h'.gov e).1.trans (h.gov e).1, (h'.gov e).2.trans (h.gov e).2⟩
  region := h.region.trans h'.region

theorem ite_carry {c : Prop} [Decidable c] (hs : Calm k q o s) (ht : Calm k q o t) : Calm k q o (if c then s else t) := by
  split
  · exact hs
  · exact ht

theorem foldl_carry {α : Type} {f : State → α → State} (hf : ∀ a x, Calm k q o a → Calm k q o (f a x)) (l : List α)
    (h : Calm k q o s) : Calm k q o (l.foldl f s) :=
  List.foldlRecOn (motive := Calm k q o) l f h fun _ ha x _ => hf _ x ha

/-- A change of other things than the regions and the governors. -/
theorem Calm.of_hub (h : Calm k q o s) (ht : t.period = s.period ∧ t.tick = s.tick ∧ t.pow.waferRun = s.pow.waferRun)
    (hr : ∀ j, (s.ring j).Stands k (t.ring j)) (hl : t.hub.loads.map ModelLoad.mask ⊆ s.hub.loads.map ModelLoad.mask)
    (ho : s.out ⊆ t.out) (hc : k.claims = true → t.pair.claims = s.pair.claims) (hg : t.govs = s.govs)
    (hreg : t.regions = s.regions) : Calm k q o t := by
  refine h.trans ⟨ht, hr, hl, ho, hc, fun _ => ?_, ?_⟩
  · unfold State.gov
    rw [hg]
    exact ⟨rfl, rfl⟩
  · unfold State.region
    rw [hreg]
    exact .refl k _

/-- The same counts, rings, loads, claims, regions and governors, and nothing that has left is gone. -/
theorem Calm.of_same (h : Calm k q o s) (ht : t.period = s.period ∧ t.tick = s.tick ∧ t.pow.waferRun = s.pow.waferRun)
    (hr : t.hub.rings.ring = s.hub.rings.ring) (hl : t.hub.loads = s.hub.loads) (ho : s.out ⊆ t.out)
    (hc : t.pair.claims = s.pair.claims) (hg : t.govs = s.govs) (hreg : t.regions = s.regions) : Calm k q o t := by
  refine h.of_hub ht (fun j => ?_) (by rw [hl]; exact List.Subset.refl _) ho (fun _ => hc) hg hreg
  unfold State.ring
  rw [hr]
  exact .refl k _

/-- A change of the regions and the governors alone. -/
theorem Calm.of_regions (e : t = { s with regions := t.regions, govs := t.govs })
    (hg : k.gov = true → (t.gov q).words = (s.gov q).words ∧ (t.gov q).epoch = (s.gov q).epoch)
    (hr : Carries k (s.region q) (t.region q)) : Calm k q s t := by
  have hhub : t.hub = s.hub := (congrArg State.hub e).trans rfl
  have hout : t.out = s.out := (congrArg State.out e).trans rfl
  have hpow : t.pow = s.pow := (congrArg State.pow e).trans rfl
  have hpair : t.pair = s.pair := (congrArg State.pair e).trans rfl
  refine ⟨⟨(congrArg State.period e).trans rfl, (congrArg State.tick e).trans rfl, by rw [hpow]⟩, fun j => ?_, ?_, ?_,
    fun _ => by rw [hpair], hg, hr⟩
  · unfold State.ring
    rw [hhub]
    exact .refl k _
  · rw [hhub]
    exact List.Subset.refl _
  · rw [hout]
    exact List.Subset.refl _

theorem modRegion_other {r : Nat} (f : Region → Region) (hr : q ≠ r) : Calm k q s (s.modRegion r f) := by
  refine .of_regions rfl (fun _ => ⟨rfl, rfl⟩) ?_
  rw [State.modRegion_region_ne _ _ hr]
  exact .refl k _

/-- A change of region `r` that carries what is followed, if it is the region followed. -/
theorem modRegion_own {r : Nat} {f : Region → Region} (h : Calm k q o s) (hf : q = r → Carries k (s.region r) (f (s.region r))) :
    Calm k q o (s.modRegion r f) := by
  by_cases hr : q = r
  · refine h.trans (.of_regions rfl (fun _ => ⟨rfl, rfl⟩) ?_)
    rw [hr, State.modRegion_region_self]
    exact hf hr
  · exact h.trans (modRegion_other f hr)

theorem modRegion_carry {r : Nat} {f : Region → Region} (h : Calm k q o s) (hf : Carries k (s.region r) (f (s.region r))) :
    Calm k q o (s.modRegion r f) := modRegion_own h fun _ => hf

theorem modRegions_carry {f : Region → Region} (h : Calm k q o s) (hf : ∀ g, Carries k g (f g)) : Calm k q o (s.modRegions f) := by
  refine h.trans (.of_regions rfl (fun _ => ⟨rfl, rfl⟩) ?_)
  have hreg : (s.modRegions f).region q = f (s.region q) := SMap.get_mapAll ..
  rw [hreg]
  exact hf _

theorem modGov_other {r : Nat} (f : Gov → Gov) (hr : q ≠ r) : Calm k q s (s.modGov r f) := by
  refine .of_regions rfl (fun _ => ?_) (.refl k _)
  rw [State.modGov_gov_ne _ _ hr]
  exact ⟨rfl, rfl⟩

/-- A change of governor `r` that keeps its words and its epoch, if it is the one followed. -/
theorem modGov_own {r : Nat} {f : Gov → Gov} (h : Calm k q o s)
    (hf : q = r → k.gov = true → (f (s.gov r)).words = (s.gov r).words ∧ (f (s.gov r)).epoch = (s.gov r).epoch) :
    Calm k q o (s.modGov r f) := by
  by_cases hr : q = r
  · refine h.trans (.of_regions rfl (fun e => ?_) (.refl k _))
    rw [hr, State.modGov_gov_self]
    exact hf hr e
  · exact h.trans (modGov_other f hr)

theorem modGov_carry {r : Nat} {f : Gov → Gov} (h : Calm k q o s) (hw : (f (s.gov r)).words = (s.gov r).words)
    (he : (f (s.gov r)).epoch = (s.gov r).epoch) : Calm k q o (s.modGov r f) := modGov_own h fun _ _ => ⟨hw, he⟩

theorem Region.modCluster_carries (g : Region) (c : Nat) {f : Cluster → Cluster} (hf : ∀ u, (f u).ctl.group = u.ctl.group) :
    Carries k g (g.modCluster c f) := .of_groups rfl rfl rfl rfl (sameGroups_modify hf)

theorem Region.modClusters_carries (g : Region) {f : Cluster → Cluster} (hf : ∀ u, (f u).ctl.group = u.ctl.group) :
    Carries k g (g.modClusters f) := .of_groups rfl rfl rfl rfl (sameGroups_mapAll hf)

theorem modCluster_carry {c : Nat} {f : Cluster → Cluster} (h : Calm k q o s) (hf : ∀ u, (f u).ctl.group = u.ctl.group) :
    Calm k q o (s.modCluster c f) := modRegion_carry h (Region.modCluster_carries _ _ hf)

theorem modRings_carry {f : Rings → Rings} (h : Calm k q o s) (hf : (f s.hub.rings).ring = s.hub.rings.ring) :
    Calm k q o (s.modRings f) := h.of_same ⟨rfl, rfl, rfl⟩ hf rfl (List.Subset.refl _) rfl rfl rfl

theorem modHub_carry {f : Shared → Shared} (h : Calm k q o s) (hf : (f s.hub).rings.ring = s.hub.rings.ring)
    (hl : (f s.hub).loads = s.hub.loads) : Calm k q o (s.modHub f) :=
  h.of_same ⟨rfl, rfl, rfl⟩ hf hl (List.Subset.refl _) rfl rfl rfl

theorem modPow_carry {f : Power → Power} (h : Calm k q o s) (hf : (f s.pow).waferRun = s.pow.waferRun) :
    Calm k q o (s.modPow f) := h.of_same ⟨rfl, rfl, hf⟩ rfl rfl (List.Subset.refl _) rfl rfl rfl

theorem modHubOf_carry {x : Hub} {f : HubSt → HubSt} (h : Calm k q o s) : Calm k q o (s.modHubOf x f) := by
  cases x <;> exact h.of_same ⟨rfl, rfl, rfl⟩ rfl rfl (List.Subset.refl _) rfl rfl rfl

theorem modThyme_carry {f : Thyme → Thyme} (h : Calm k q o s) : Calm k q o (s.modThyme f) := modHub_carry h rfl rfl
theorem modGrant_carry {i : Nat} {f : Grant → Grant} (h : Calm k q o s) : Calm k q o (s.modGrant i f) := modThyme_carry h
theorem modGroups_carry {f : Groups → Groups} (h : Calm k q o s) : Calm k q o (s.modGroups f) := modHub_carry h rfl rfl
theorem modBudget_carry {f : Budget → Budget} (h : Calm k q o s) : Calm k q o (s.modBudget f) := modHub_carry h rfl rfl
theorem modRecorder_carry {f : Recorder → Recorder} (h : Calm k q o s) : Calm k q o (s.modRecorder f) := modHub_carry h rfl rfl
theorem modMb_carry {f : HostMb → HostMb} (h : Calm k q o s) : Calm k q o (s.modMb f) := modHub_carry h rfl rfl
theorem modFw_carry {f : Firmware → Firmware} (h : Calm k q o s) : Calm k q o (s.modFw f) := modHub_carry h rfl rfl
theorem modAgeing_carry {f : Ageing → Ageing} (h : Calm k q o s) : Calm k q o (s.modAgeing f) := modHub_carry h rfl rfl

/-- A change of the loads that adds none. -/
theorem modLoads_carry {f : List ModelLoad → List ModelLoad} (h : Calm k q o s)
    (hf : ∀ l, (f l).map ModelLoad.mask ⊆ l.map ModelLoad.mask) : Calm k q o (s.modLoads f) :=
  h.of_hub ⟨rfl, rfl, rfl⟩ (fun _ => .refl k _) (hf _) (List.Subset.refl _) (fun _ => rfl) rfl rfl

theorem modPair_carry {f : Pair → Pair} (h : Calm k q o s) (hf : (f s.pair).claims = s.pair.claims) : Calm k q o (s.modPair f) :=
  h.of_same ⟨rfl, rfl, rfl⟩ rfl rfl (List.Subset.refl _) hf rfl rfl

theorem modSetup_carry {f : Setup → Setup} (h : Calm k q o s) : Calm k q o (s.modSetup f) :=
  h.of_same ⟨rfl, rfl, rfl⟩ rfl rfl (List.Subset.refl _) rfl rfl rfl

theorem emit_carry {e : Effect} (h : Calm k q o s) : Calm k q o (s.emit e) :=
  h.of_same ⟨rfl, rfl, rfl⟩ rfl rfl (List.subset_append_left _ _) rfl rfl rfl

theorem raise_carry {src cause arg : Nat} (h : Calm k q o s) : Calm k q o (s.raise src cause arg) :=
  h.of_same ⟨rfl, rfl, rfl⟩ rfl rfl (List.Subset.refl _) rfl rfl rfl

theorem modHome_carry {gid : Nat} {f : Home → Home} (h : Calm k q o s) : Calm k q o (s.modHome gid f) :=
  h.of_same ⟨rfl, rfl, rfl⟩ rfl rfl (List.Subset.refl _) rfl rfl rfl

theorem forRegions_carry {f : Nat → State → State} (hf : ∀ r a, Calm k q o a → Calm k q o (f r a)) (h : Calm k q o s) :
    Calm k q o (s.forRegions f) := by
  unfold State.forRegions
  exact foldl_carry (fun a r ha => hf r a ha) _ h

end

/-! ### What sends, raises, completes and records leaves all that is followed -/

section
variable {k : Keep} {q : Nat} {o s t : State}

theorem complete_carry {cmd : CmdRef} {code detail : Nat} {result : List Byte} (h : Calm k q o s) :
    Calm k q o (s.complete cmd code detail result) := by
  unfold State.complete
  split
  · exact h
  · exact modRings_carry h rfl

theorem completeInterim_carry {cmd : CmdRef} {detail : Nat} {result : List Byte} (h : Calm k q o s) :
    Calm k q o (s.completeInterim cmd detail result) := by
  unfold State.completeInterim
  split
  · exact h
  · exact modRings_carry h rfl

theorem telemetry_carry {type region : Nat} {body : List Byte} {sub : Bool} (h : Calm k q o s) :
    Calm k q o (s.telemetry type region body sub) := by
  unfold State.telemetry
  exact ite_carry h (ite_carry (raise_carry (modRings_carry h rfl)) (modRings_carry h rfl))

theorem hubEmit_carry {e : Effect} (h : Calm k q o s) : Calm k q o (s.hubEmit e) := by
  unfold State.hubEmit
  exact ite_carry (emit_carry h) (modPair_carry h rfl)

theorem bumpSeq_carry {src dst : Nat} (h : Calm k q o s) : Calm k q o (s.bumpSeq src dst) :=
  h.of_same ⟨rfl, rfl, rfl⟩ rfl rfl (List.Subset.refl _) rfl rfl rfl

theorem expect_carry {src dst : Nat} {m : Msg} (h : Calm k q o s) : Calm k q o (s.expect src dst m) :=
  h.of_same ⟨rfl, rfl, rfl⟩ rfl rfl (List.Subset.refl _) rfl rfl rfl

theorem sendAs_carry {src dst : Nat} {m : Msg} (h : Calm k q o s) : Calm k q o (s.sendAs src dst m) :=
  bumpSeq_carry (emit_carry h)

theorem send_carry {m : Msg} (h : Calm k q o s) : Calm k q o (s.send m) := sendAs_carry h

theorem ask_carry {m : Msg} (h : Calm k q o s) : Calm k q o (s.ask m) := expect_carry (send_carry h)

theorem hubSend_carry {m : Msg} (h : Calm k q o s) : Calm k q o (s.hubSend m) := by
  unfold State.hubSend
  exact ite_carry h (bumpSeq_carry (hubEmit_carry h))

theorem hubAsk_carry {m : Msg} (h : Calm k q o s) : Calm k q o (s.hubAsk m) := by
  unfold State.hubAsk
  exact ite_carry h (expect_carry (hubSend_carry h))

theorem nextFree_carry (h : Calm k q o s) : Calm k q o s.nextFree :=
  h.of_same ⟨rfl, rfl, rfl⟩ rfl rfl (List.Subset.refl _) rfl rfl rfl

theorem record_carry {code level argx source : Nat} {arg : Word} (h : Calm k q o s) :
    Calm k q o (s.record code level argx source arg) := by
  unfold State.record
  exact modRecorder_carry h

theorem pin_carry {name : String} {x : Hub} {low : Bool} (h : Calm k q o s) : Calm k q o (s.pin name x low) := by
  unfold State.pin
  exact ite_carry (emit_carry h) h

theorem Gov.modRoll_words (g : Gov) (j : Nat) (f : RollUp → RollUp) : (g.modRoll j f).words = g.words := by
  unfold Gov.modRoll
  split <;> rfl

theorem Gov.modRoll_epoch (g : Gov) (j : Nat) (f : RollUp → RollUp) : (g.modRoll j f).epoch = g.epoch := by
  unfold Gov.modRoll
  split <;> rfl

theorem modRoll_carry {r j : Nat} {f : RollUp → RollUp} (h : Calm k q o s) :
    Calm k q o (s.modGov r (fun g => g.modRoll j f)) :=
  modGov_carry h (Gov.modRoll_words ..) (Gov.modRoll_epoch ..)

theorem raiseRoll_carry {r j bit : Nat} (h : Calm k q o s) : Calm k q o (s.raiseRoll r j bit) := by
  unfold State.raiseRoll
  exact (modRoll_carry h).of_same ⟨rfl, rfl, rfl⟩ rfl rfl (List.Subset.refl _) rfl rfl rfl

theorem holdRoll_carry {r j bit : Nat} {on : Bool} (h : Calm k q o s) : Calm k q o (s.holdRoll r j bit on) := by
  unfold State.holdRoll
  exact ite_carry (raiseRoll_carry (modRoll_carry h)) (modRoll_carry h)

theorem events_carry {e : List Event} (h : Calm k q o s) : Calm k q o { s with events := e } :=
  h.of_same ⟨rfl, rfl, rfl⟩ rfl rfl (List.Subset.refl _) rfl rfl rfl

theorem hubs_carry {a b : HubSt} (h : Calm k q o s) : Calm k q o { s with hubA := a, hubB := b } :=
  h.of_same ⟨rfl, rfl, rfl⟩ rfl rfl (List.Subset.refl _) rfl rfl rfl

/-- The cap commands of the hub, carried out item by item by moves that are calm. -/
theorem runItems_carry {p : CapItem → Bool} {f : CapItem → State → CapItem × State}
    (hf : ∀ i a, Calm k q o a → Calm k q o (f i a).2) (h : Calm k q o s) : Calm k q o (s.runItems p f) := by
  unfold State.runItems
  refine modBudget_carry ?_
  refine List.foldlRecOn (motive := fun x : State × List CapCmd => Calm k q o x.1) _ _ h fun acc ha c _ => ?_
  refine List.foldlRecOn (motive := fun x : State × List CapItem × Bool => Calm k q o x.1) c.items _ ha fun acc ha i _ => ?_
  dsimp only
  split
  · exact hf i _ ha
  · exact ha

/-- A change of a region that carries what is followed of any region. -/
theorem region_carry {r : Nat} {f : Region → Region} (h : Calm k q o s) (hf : ∀ g, Carries k g (f g)) :
    Calm k q o (s.modRegion r f) := modRegion_carry h (hf _)

/-- A change of a region that touches nothing followed. -/
theorem same_carry {r : Nat} {f : Region → Region} (h : Calm k q o s) (hf : ∀ g : Region, (f g).resvs = g.resvs ∧
    (f g).caps = g.caps ∧ (f g).sage = g.sage ∧ (f g).slots = g.slots ∧ (f g).clusters = g.clusters) :
    Calm k q o (s.modRegion r f) :=
  region_carry h fun g => .of_same (hf g).1 (hf g).2.1 (hf g).2.2.1 (hf g).2.2.2.1 (hf g).2.2.2.2

theorem sp_carry {r : Nat} {f : Setpoint → Setpoint} (h : Calm k q o s) : Calm k q o (s.modRegion r (fun g => g.modSp f)) :=
  same_carry h fun _ => ⟨rfl, rfl, rfl, rfl, rfl⟩

theorem spec_carry {r : Nat} {f : Spec → Spec} (h : Calm k q o s) : Calm k q o (s.modRegion r (fun g => g.modSpec f)) :=
  same_carry h fun _ => ⟨rfl, rfl, rfl, rfl, rfl⟩

theorem modifyAll_carries {g : Region} {l : List Nat} {f : Nat → Cluster → Cluster} (hf : ∀ c u, (f c u).ctl.group = u.ctl.group) :
    Carries k g { g with clusters := g.clusters.modifyAll l f } := .of_groups rfl rfl rfl rfl (sameGroups_modifyAll hf _ _)

theorem sage_carry {r : Nat} {f : Sage → Sage} (h : Calm k q o s) (hf : ∀ x : Sage, x.Same (f x)) :
    Calm k q o (s.modRegion r (fun g => g.modSage f)) := region_carry h fun _ => .of_sage (hf _)

end
end Sys2Proof.Machine
end

