-- ==== Sys2Proof/Proofs/BoundaryRegions.lean ====
section
/-!
SUPPORT. What the regions and governors do at a boundary beside what is followed.
-/

namespace Sys2Proof.Machine

/-! ### What the regions and their governors do at a boundary beside what is followed -/

section
variable {k : Keep} {q : Nat} {o s t : State}

theorem sendShadow_carry {x : Shadow} (h : Calm k q o s) : Calm k q o (sendShadow s x) := by
  unfold sendShadow
  split
  · exact ite_carry h (hubSend_carry h)
  · exact h

theorem sendWord_carry {r : Nat} {w : Word} (h : Calm k q o s) : Calm k q o (s.sendWord r w) := by
  unfold State.sendWord
  exact ite_carry (emit_carry h) (modGov_carry h rfl rfl)

theorem sendWords_carry {r : Nat} {l : List Word} (h : Calm k q o s) : Calm k q o (l.foldl (fun a w => a.sendWord r w) s) :=
  foldl_carry (fun _ _ ha => sendWord_carry ha) _ h

theorem nextFrame_carries {up dn : Nat} {g g' : Region} {f : Frame} (h : nextFrame up dn g = some (f, g')) : Carries k g g' := by
  unfold nextFrame at h
  repeat' split at h
  all_goals cases h
  · exact .of_same rfl rfl rfl rfl rfl
  · exact .of_parts rfl rfl rfl rfl rfl (.refl _) rfl (.refl _)
  · exact .of_same rfl rfl rfl rfl rfl

theorem startFrame_carry {r : Nat} (h : Calm k q o s) : Calm k q o (s.startFrame r) := by
  unfold State.startFrame
  split
  · exact h
  · next hg => exact emit_carry (modRegion_carry h (nextFrame_carries hg))

theorem abandonNow_carry {r : Nat} (h : Calm k q o s) : Calm k q o (s.abandonNow r) := by
  unfold State.abandonNow
  exact ite_carry (startFrame_carry (same_carry h fun _ => ⟨rfl, rfl, rfl, rfl, rfl⟩)) h

theorem commitSetpoint_carry {r : Nat} (h : Calm k q o s) : Calm k q o (commitSetpoint r s) := by
  unfold commitSetpoint
  exact ite_carry h (ite_carry (sp_carry h) (startFrame_carry (same_carry h fun _ => ⟨rfl, rfl, rfl, rfl, rfl⟩)))

theorem holdDigitiser_carry {r : Nat} (h : Calm k q o s) : Calm k q o (s.holdDigitiser r) := holdRoll_carry h

theorem sendSettings_carry {r : Nat} {rows : List Nat} {committed : Bool} (h : Calm k q o s) :
    Calm k q o (sendSettings r rows committed s) := by
  unfold sendSettings
  refine sendWords_carry (modRegion_carry h (.of_parts rfl rfl rfl rfl rfl (.refl _) rfl ?_))
  split
  · exact sameGroups_mapAll fun u => by split <;> rfl
  · exact sameGroups_modifyAll (fun c u => by dsimp only; split <;> rfl) _ _

theorem trackError_carry {r : Nat} (h : Calm k q o s) : Calm k q o (trackError r s) := by
  unfold trackError
  exact ite_carry (sage_carry h fun _ => ⟨rfl, rfl, rfl, rfl⟩)
    (ite_carry (nextFree_carry (sage_carry h fun _ => ⟨rfl, rfl, rfl, rfl⟩)) (sage_carry h fun _ => ⟨rfl, rfl, rfl, rfl⟩))

theorem weightsLost_carry {r : Nat} (h : Calm k q o s) : Calm k q o (weightsLost r s) :=
  raiseRoll_carry (sage_carry h fun _ => ⟨rfl, rfl, rfl, rfl⟩)

theorem refTree_carry {r : Nat} (h : Calm k q o s) : Calm k q o (refTree r s) := by
  unfold refTree
  exact ite_carry (holdRoll_carry h) h

theorem reportCommits_carry {r : Nat} {due : List Nat} (h : Calm k q o s) : Calm k q o (reportCommits r due s) :=
  foldl_carry (fun _ _ ha => send_carry ha) _ h

theorem sendMR_carry {r : Nat} (h : Calm k q o s) : Calm k q o (sendMR r s) := by
  unfold sendMR
  refine foldl_carry (fun _ _ ha => send_carry ha) _ (modRegion_carry h (.of_parts rfl rfl rfl rfl rfl (.refl _) ?_ (.refl _)))
  simp [GSlot.key]

theorem thermPins_carry {before : Bool} (h : Calm k q o s) : Calm k q o (thermPins before s) := by
  unfold thermPins
  exact ite_carry h (emit_carry (emit_carry h))

theorem clearLatch_carry {r : Nat} (h : Calm k q o s) : Calm k q o (clearLatch r s) := by
  unfold clearLatch
  exact ite_carry (thermPins_carry (holdRoll_carry (same_carry h fun _ => ⟨rfl, rfl, rfl, rfl, rfl⟩))) h

theorem ackCap_carry {r : Nat} (hr : q = r → k.owed = false) (h : Calm k q o s) : Calm k q o (ackCap r s) := by
  unfold ackCap
  refine ite_carry (send_carry (modRegion_own h fun e => ?_)) h
  exact ⟨fun _ => rfl, fun _ => .refl _, fun _ => .refl _, fun e' => by simp [hr e] at e', fun _ => .refl _,
    fun _ => rfl, fun _ => id, fun _ _ => rfl⟩

theorem suspendTimers_carry {r : Nat} (h : Calm k q o s) : Calm k q o (suspendTimers r s) :=
  foldl_carry (fun _ _ ha => modGrant_carry ha) _ h

theorem ecapBroadcast_carry {r preset : Nat} (hr : k.caps = false) (h : Calm k q o s) : Calm k q o (ecapBroadcast r preset s) := by
  unfold ecapBroadcast
  extract_lets t u
  have ht : Calm k q o t := by
   unfold t
   exact modRegion_carry h ⟨fun _ => rfl,
    fun _ => ⟨rfl, fun p e => ⟨min p preset, by simp [Region.stick, Region.voidPeriod, e], Nat.min_le_left ..⟩⟩,
    fun e => by simp [hr] at e, fun _ => rfl, fun _ => .refl _, fun _ => rfl, fun _ => id, fun _ _ => rfl⟩
  have hu : Calm k q o u := abandonNow_carry ht
  exact ite_carry (suspendTimers_carry hu) hu

theorem mapBy_carries {g : Region} {n : Nat} {f : Nat → Cluster → Cluster} (hk : k.groups = false)
    (hf : ∀ c u, (f c u).ctl.group = u.ctl.group) : Carries k g { g with clusters := g.clusters.mapBy n f } where
  resvs _ := rfl
  wait _ := .refl _
  caps _ := .refl _
  owed _ := rfl
  sage _ := .refl _
  slots _ := rfl
  free _ h := noGroups_mapBy h n hf
  groups e := by simp [hk] at e

theorem readAges_carry {taps : AgeReads} {r : Nat} (hk : k.groups = false) (h : Calm k q o s) : Calm k q o (readAges taps r s) := by
  unfold readAges
  extract_lets t
  have ht : Calm k q o t := by
    unfold t
    refine region_carry h fun g => mapBy_carries hk fun c u => ?_
    unfold Cluster.readAge
    split
    · rfl
    · split <;> rfl
  exact ite_carry (raiseRoll_carry (same_carry ht fun _ => ⟨rfl, rfl, rfl, rfl, rfl⟩)) ht

theorem setTrimState_carry {r : Nat} {x : TrimState} (h : Calm k q o s) : Calm k q o (setTrimState r x s) := by
  unfold setTrimState
  exact holdRoll_carry (modRegion_carry h (.ite (.of_same rfl rfl rfl rfl rfl) (.of_same rfl rfl rfl rfl rfl)))

theorem recomputeTrim_carry {r : Nat} (h : Calm k q o s) : Calm k q o (recomputeTrim r s) := by
  unfold recomputeTrim
  exact ite_carry (setTrimState_carry (sp_carry h)) (ite_carry (setTrimState_carry (sp_carry h)) (sp_carry h))

theorem exhaust_carry {r : Nat} (h : Calm k q o s) : Calm k q o (exhaust r s) := by
  unfold exhaust
  extract_lets before t t'
  have ht : Calm k q o t := by
    unfold t
    exact setTrimState_carry (same_carry h fun _ => ⟨rfl, rfl, rfl, rfl, rfl⟩)
  clear_value t
  have ht' : Calm k q o t' := recomputeTrim_carry ht
  exact same_carry ht' fun _ => ⟨rfl, rfl, rfl, rfl, rfl⟩

theorem exportTrims_carry (h : Calm k q o s) : Calm k q o (exportTrims s) := by
  unfold exportTrims
  exact telemetry_carry (ite_carry h (hubEmit_carry h))

theorem leaveExhausted_carry {r : Nat} (h : Calm k q o s) : Calm k q o (leaveExhausted r s) := by
  unfold leaveExhausted
  exact ite_carry (setTrimState_carry (same_carry h fun _ => ⟨rfl, rfl, rfl, rfl, rfl⟩)) h

theorem recomputeRead_carry {taps : AgeReads} {r : Nat} (hk : k.groups = false) (h : Calm k q o s) :
    Calm k q o (recomputeRead taps r s) := by
  unfold recomputeRead
  exact ite_carry (exhaust_carry (readAges_carry hk h)) (leaveExhausted_carry (recomputeTrim_carry (readAges_carry hk h)))

theorem recomputeNow_carry {taps : AgeReads} {rs : List Nat} (hk : k.groups = false) (h : Calm k q o s) :
    Calm k q o (recomputeNow taps rs s) := by
  unfold recomputeNow
  exact ite_carry (modAgeing_carry h) (exportTrims_carry (foldl_carry (fun _ _ ha => recomputeRead_carry hk ha) _ (modAgeing_carry h)))

theorem trimMaxRaised_carry {before : Nat} {taps : AgeReads} (hk : k.groups = false) (h : Calm k q o s) :
    Calm k q o (trimMaxRaised before taps s) := by
  unfold trimMaxRaised
  exact ite_carry h (recomputeNow_carry hk h)

theorem modPh_carry {r : Nat} {f : Phases → Phases} (h : Calm k q o s) : Calm k q o (s.modPh r f) :=
  same_carry h fun _ => ⟨rfl, rfl, rfl, rfl, rfl⟩

theorem pmbusAtBoundary_carry {r : Nat} (h : Calm k q o s) : Calm k q o (pmbusAtBoundary r s) := by
  unfold pmbusAtBoundary
  have hd : Calm k q o (if (s.region r).ph.offDue = [] then s else (s.region r).ph.offDue.foldl (fun (a : State) j =>
      a.hubSend (.pmbus r (.phaseDisable (Fin.ofNat 24 j)))) (s.modPh r (fun p => { p with offDue := [] }))) :=
    ite_carry h (foldl_carry (fun _ _ ha => hubSend_carry ha) _ (modPh_carry h))
  exact ite_carry h (ite_carry (hubSend_carry (modGov_carry hd rfl rfl)) hd)

theorem releaseHolds_carry {r : Nat} (h : Calm k q o s) : Calm k q o (releaseHolds r s) := by
  unfold releaseHolds
  extract_lets g ended t u
  have ht : Calm k q o t := by
    unfold t
    exact region_carry h fun _ => modifyAll_carries fun _ _ => rfl
  have hu : Calm k q o u := by
    unfold u
    exact sendWord_carry (region_carry ht fun _ => .of_caps _ rfl rfl rfl rfl)
  exact ite_carry (foldl_carry (fun _ _ ha => sendWord_carry ha) _ hu)
    (ite_carry ht (foldl_carry (fun _ _ ha => sendWord_carry ha) _ ht))

theorem recoverSensors_carry {r : Nat} (h : Calm k q o s) : Calm k q o (recoverSensors r s) := by
  unfold recoverSensors
  exact ite_carry h (holdDigitiser_carry (same_carry h fun _ => ⟨rfl, rfl, rfl, rfl, rfl⟩))

theorem demotionAtBoundary_carry {r : Nat} (h : Calm k q o s) : Calm k q o (demotionAtBoundary r s) := by
  unfold demotionAtBoundary
  exact ite_carry (record_carry (same_carry h fun _ => ⟨rfl, rfl, rfl, rfl, rfl⟩))
    (ite_carry (same_carry h fun _ => ⟨rfl, rfl, rfl, rfl, rfl⟩)
    (ite_carry h (same_carry h fun _ => ⟨rfl, rfl, rfl, rfl, rfl⟩)))

theorem setpointAtBoundary_carry {r : Nat} (h : Calm k q o s) : Calm k q o (setpointAtBoundary r s) := by
  unfold setpointAtBoundary
  extract_lets trips t u
  have ht : Calm k q o t := by
    unfold t
    exact same_carry h fun _ => ⟨rfl, rfl, rfl, rfl, rfl⟩
  have hu : Calm k q o u := ite_carry (raiseRoll_carry ht) ht
  exact ite_carry (commitSetpoint_carry hu) hu

theorem resendErrors_carry {r : Nat} (h : Calm k q o s) : Calm k q o (resendErrors r s) := by
  unfold resendErrors
  exact ite_carry h (sendWords_carry h)

theorem appliedRegion_carry {old : Setup} {r : Nat} (h : Calm k q o s) : Calm k q o (appliedRegion old r s) := by
  unfold appliedRegion
  extract_lets was changed top t1 t2 t3 t4 t5 t6 t7
  have h1 : Calm k q o t1 := ite_carry (sendWord_carry h) h
  have h2 : Calm k q o t2 := ite_carry (foldl_carry (fun _ _ ha => sendWord_carry ha) _ (sendWord_carry h1)) h1
  have h3 : Calm k q o t3 := ite_carry (same_carry h2 fun _ => ⟨rfl, rfl, rfl, rfl, rfl⟩) h2
  have h4 : Calm k q o t4 := ite_carry (same_carry h3 fun _ => ⟨rfl, rfl, rfl, rfl, rfl⟩) h3
  have h5 : Calm k q o t5 := ite_carry (modGov_carry h4 rfl rfl) h4
  have h6 : Calm k q o t6 := ite_carry (same_carry h5 fun _ => ⟨rfl, rfl, rfl, rfl, rfl⟩) h5
  have h7 : Calm k q o t7 := ite_carry (same_carry h6 fun _ => ⟨rfl, rfl, rfl, rfl, rfl⟩) h6
  exact startFrame_carry h7

theorem adoptEpoch_carry {r : Nat} {e : Word} (hg : k.gov = false) (h : Calm k q o s) : Calm k q o (adoptEpoch r e s) := by
  unfold adoptEpoch
  refine modRegion_carry (send_carry (modGov_own h fun _ e => ?_)) (Region.modClusters_carries _ fun _ => rfl)
  simp [hg] at e

end
end Sys2Proof.Machine
end

