-- ==== Sys2Proof/Proofs/BoundaryHubs.lean ====
section
/-!
SUPPORT. What the hubs, cores and the pair do at a boundary beside what is followed.
-/

namespace Sys2Proof.Machine

/-! ### What the hubs do at a boundary beside what is followed: grants, groups, caps -/

section
variable {k : Keep} {q : Nat} {o s t : State}

theorem completes_carry {l : List CmdRef} {code detail : Nat} (h : Calm k q o s) :
    Calm k q o (l.foldl (fun a c => a.complete c code detail) s) := foldl_carry (fun _ _ ha => complete_carry ha) _ h

theorem grantRecord_carry {i kind code cause : Nat} (h : Calm k q o s) : Calm k q o (grantRecord i kind code cause s) :=
  telemetry_carry h

theorem abandonRound_carry {i code detail : Nat} (h : Calm k q o s) : Calm k q o (abandonRound i code detail s) := by
  unfold abandonRound
  extract_lets g t u v
  have hu : Calm k q o u := modThyme_carry (modGrant_carry (foldl_carry (fun _ _ ha => hubSend_carry ha) _ h))
  have hv : Calm k q o v := ite_carry (modThyme_carry hu) hu
  split
  · exact complete_carry hv
  · exact hv

theorem revokeGrant_carry {i cause : Nat} (h : Calm k q o s) : Calm k q o (revokeGrant i cause s) := by
  unfold revokeGrant
  exact completes_carry (modThyme_carry (modGrant_carry (record_carry
    (foldl_carry (fun _ _ ha => hubSend_carry ha) _ (grantRecord_carry h)))))

theorem abandonRounds_carry {r detail : Nat} (h : Calm k q o s) : Calm k q o (abandonRounds r detail s) := by
  unfold abandonRounds
  exact ite_carry h (foldl_carry (fun _ _ ha => abandonRound_carry ha) _ h)

theorem settleDecision_carry {i : Nat} (h : Calm k q o s) : Calm k q o (settleDecision i s) := by
  unfold settleDecision
  extract_lets g p t
  have ht : Calm k q o t := modThyme_carry (modGrant_carry h)
  refine ite_carry ?_ h
  split
  · exact complete_carry ht
  · exact ht

theorem settleRelease_carry {i : Nat} (h : Calm k q o s) : Calm k q o (settleRelease i s) := by
  unfold settleRelease
  split
  · exact ite_carry (modThyme_carry (modGrant_carry h)) h
  · exact h

theorem settleDecisions_carry (h : Calm k q o s) : Calm k q o (settleDecisions s) := by
  unfold settleDecisions
  exact foldl_carry (fun _ _ ha => settleRelease_carry ha) _ (foldl_carry (fun _ _ ha => settleDecision_carry ha) _ h)

theorem wordsAtBoundary_carry (h : Calm k q o s) : Calm k q o (wordsAtBoundary s) := by
  unfold wordsAtBoundary
  exact modThyme_carry (foldl_carry (fun _ _ ha => modGrant_carry ha) _
    (foldl_carry (fun _ _ ha => ite_carry ha (emit_carry ha)) _ h))

theorem queryGrant_carry {x : Taken} (h : Calm k q o s) : Calm k q o (queryGrant x s) := by
  unfold queryGrant
  exact ite_carry (complete_carry h) (complete_carry h)

theorem queryGroup_carry {x : Taken} (h : Calm k q o s) : Calm k q o (queryGroup x s) := by
  unfold queryGroup
  dsimp only
  split
  · exact complete_carry h
  · exact complete_carry h

theorem querySpec_carry {x : Taken} (h : Calm k q o s) : Calm k q o (querySpec x s) := by
  unfold querySpec
  exact ite_carry (complete_carry h) (complete_carry h)

theorem answerQuery_carry {x : Taken} (h : Calm k q o s) : Calm k q o (answerQuery x s) := by
  unfold answerQuery
  exact ite_carry (queryGrant_carry h) (ite_carry (queryGroup_carry h) (querySpec_carry h))

theorem answerQueries_carry (h : Calm k q o s) : Calm k q o (answerQueries s) := by
  unfold answerQueries
  exact ite_carry h (foldl_carry (fun _ _ ha => answerQuery_carry ha) _ h)

theorem subscribed_carry {trips : List Nat} (h : Calm k q o s) : Calm k q o (subscribed trips s) := by
  unfold subscribed
  refine ite_carry h (foldl_carry (fun a i ha => ite_carry ha (foldl_carry (fun b r hb => ?_) _ ha)) _ h)
  exact ite_carry (telemetry_carry hb)
    (ite_carry (ite_carry (telemetry_carry hb) (nextFree_carry (telemetry_carry hb))) hb)

theorem armGroup_carry {gid code : Nat} {sT : Word} (h : Calm k q o s) : Calm k q o (armGroup gid code sT s) := by
  unfold armGroup
  split
  · exact h
  · extract_lets x own t u v
    have hu : Calm k q o u := modHome_carry (foldl_carry (fun _ _ ha => ask_carry ha) _ h)
    have hv : Calm k q o v := ite_carry (modGroups_carry hu) hu
    exact ite_carry (telemetry_carry hv) hv

theorem settleArm_carry {gid : Nat} {g : Group} (h : Calm k q o s) : Calm k q o (settleArm gid g s) := by
  unfold settleArm
  dsimp only
  split
  · exact h
  · exact ite_carry h (foldl_carry (fun _ _ ha => complete_carry ha) _ (modGroups_carry (modHome_carry h)))

theorem groupNeed_carry {gid : Nat} (h : Calm k q o s) : Calm k q o (groupNeed gid s) := by
  unfold groupNeed
  split
  · exact h
  · next g _ =>
    extract_lets t u x n v
    have ht : Calm k q o t := settleArm_carry h
    have hu : Calm k q o u := ite_carry (modHome_carry ht) ht
    have hv : Calm k q o v := modHome_carry hu
    refine ite_carry ht (ite_carry hv ?_)
    split
    · exact ite_carry (completes_carry (modHome_carry hv)) (armGroup_carry hv)
    · exact ite_carry (armGroup_carry hv) hv

theorem trimGroups_carry (h : Calm k q o s) : Calm k q o (trimGroups s) := modGroups_carry h

theorem completeCaps_carry (h : Calm k q o s) : Calm k q o (completeCaps s) := by
  unfold completeCaps
  exact foldl_carry (fun _ _ ha => complete_carry ha) _ (modBudget_carry h)

theorem settleCaps_carry (h : Calm k q o s) : Calm k q o (settleCaps s) :=
  completeCaps_carry (modBudget_carry (modBudget_carry h))

theorem clusterItems_carry (h : Calm k q o s) : Calm k q o (clusterItems s) :=
  runItems_carry (fun _ _ ha => modCluster_carry ha fun _ => rfl) h

theorem dropRaises_carry (h : Calm k q o s) : Calm k q o (dropRaises s) := modBudget_carry h

theorem presetsLowered_carry {old : Setup} (hc : k.caps = false) (h : Calm k q o s) : Calm k q o (presetsLowered old s) := by
  unfold presetsLowered
  exact ite_carry h (modThyme_carry (foldl_carry (fun _ _ ha => ecapBroadcast_carry hc ha) _ h))

theorem pollBroken_carry {ks : List Nat} (h : Calm k q o s) : Calm k q o (pollBroken ks s) := by
  unfold pollBroken
  refine foldl_carry (fun a j ha => ?_) _ h
  refine ite_carry (foldl_carry (fun b c hb => ite_carry hb (events_carry hb)) _ ?_)
    (ite_carry (foldl_carry (fun b c hb => ite_carry hb (events_carry hb)) _ ha) ha)
  exact ha.of_same ⟨rfl, rfl, rfl⟩ rfl rfl (List.Subset.refl _) rfl rfl rfl

theorem mirrorSlots_carry (h : Calm k q o s) : Calm k q o (mirrorSlots s) := by
  unfold mirrorSlots
  exact ite_carry (modMb_carry h) h

theorem captureWide_carry (h : Calm k q o s) : Calm k q o (captureWide s) := by
  unfold captureWide
  split
  · exact h
  · exact ite_carry h (modSetup_carry h)

theorem recorderLost_carry {b : Nat} (h : Calm k q o s) : Calm k q o (recorderLost b s) := by
  unfold recorderLost
  exact ite_carry h (record_carry (modRecorder_carry h))

end

/-! ### What the cores, the pair and the start do at a boundary beside what is followed -/

section
variable {k : Keep} {q : Nat} {o s t : State}

theorem modCore_carry {x : Hub} {i : Nat} {f : HubCore → HubCore} (h : Calm k q o s) : Calm k q o (s.modCore x i f) :=
  modHubOf_carry h

theorem modColl_carry {x : Hub} {f : Collector → Collector} (h : Calm k q o s) : Calm k q o (s.modColl x f) :=
  modHubOf_carry h

theorem modChive_carry {c : Nat} {f : ChiveCore → ChiveCore} (h : Calm k q o s) :
    Calm k q o (s.modCluster c (fun u => u.modCore f)) := modCluster_carry h fun _ => rfl

theorem modAct_carry {f : Activation → Activation} (h : Calm k q o s) : Calm k q o (s.modAct f) := modFw_carry h

theorem beginResync_carry {x : Hub} (h : Calm k q o s) : Calm k q o (s.beginResync x) := by
  unfold State.beginResync
  exact modPair_carry (modHubOf_carry h) rfl

theorem releaseHeld_carry (h : Calm k q o s) : Calm k q o s.releaseHeld :=
  foldl_carry (fun _ _ ha => emit_carry ha) _ (modPair_carry h rfl)

theorem extendGrants_carry (h : Calm k q o s) : Calm k q o (extendGrants s) :=
  foldl_carry (fun _ _ ha => modGrant_carry ha) _ h

theorem degradePair_carry (h : Calm k q o s) : Calm k q o (degradePair s) := by
  unfold degradePair
  refine ite_carry h (settleDecisions_carry (extendGrants_carry (releaseHeld_carry (raise_carry ?_))))
  have ht : Calm k q o (s.modPair (fun p =>
    { p with degraded := true, paired := false, handStep := 0, probing := false, probes := [] })) := modPair_carry h rfl
  split
  · exact beginResync_carry ht
  · exact ht

theorem startHandover_carry (h : Calm k q o s) : Calm k q o (startHandover s) := by
  unfold startHandover
  exact ite_carry (modPair_carry h rfl) (modPair_carry h rfl)

theorem raiseArb_carry {x : Hub} {i v : Nat} (h : Calm k q o s) : Calm k q o (s.raiseArb x i v) := modHubOf_carry h

theorem stopHubCore_carry {x : Hub} {i : Nat} (h : Calm k q o s) : Calm k q o (stopHubCore x i s) := by
  unfold stopHubCore
  extract_lets t u event
  have hu : Calm k q o u := record_carry (modCore_carry h)
  refine ite_carry ?_ (degradePair_carry (events_carry hu))
  split
  · exact ite_carry (startHandover_carry hu) (events_carry hu)
  · exact events_carry hu

theorem retakeServed_carry {i : Nat} (h : Calm k q o s) : Calm k q o (retakeServed i s) := by
  unfold retakeServed
  exact modMb_carry h

theorem runAgain_carry {x : Hub} {i cause : Nat} (h : Calm k q o s) : Calm k q o (runAgain x i cause s) := by
  unfold runAgain
  extract_lets keep t drop u v
  have hu : Calm k q o u := modHubOf_carry (modCore_carry h)
  have hv : Calm k q o v := ite_carry (retakeServed_carry (ite_carry (dropRaises_carry hu) hu)) hu
  exact raise_carry (record_carry hv)

theorem restartHubCore_carry {x : Hub} {i cause : Nat} (h : Calm k q o s) : Calm k q o (restartHubCore x i cause s) := by
  unfold restartHubCore
  exact ite_carry h (ite_carry (stopHubCore_carry (runAgain_carry h)) (runAgain_carry h))

theorem runChiveAgain_carry {c cause : Nat} (h : Calm k q o s) : Calm k q o (runChiveAgain c cause s) := by
  unfold runChiveAgain
  exact record_carry (hubs_carry (modCluster_carry h fun _ => rfl))

theorem stopChive_carry {c : Nat} (h : Calm k q o s) : Calm k q o (stopChive c s) := by
  unfold stopChive
  exact raise_carry (record_carry (modChive_carry h))

theorem restartChive_carry {c cause : Nat} (h : Calm k q o s) : Calm k q o (restartChive c cause s) := by
  unfold restartChive
  exact ite_carry h (ite_carry (stopChive_carry (runChiveAgain_carry h)) (runChiveAgain_carry h))

theorem endAct_carry {code detail : Nat} (h : Calm k q o s) : Calm k q o (s.endAct code detail) := by
  unfold State.endAct
  split
  · exact h
  · exact complete_carry (modCore_carry (modCore_carry (modThyme_carry (modFw_carry h))))

theorem modChives_carry {f : ChiveCore → ChiveCore} (h : Calm k q o s) :
    Calm k q o (s.modRegions (fun g => g.modClusters (fun u => u.modCore f))) :=
  modRegions_carry h fun g => g.modClusters_carries fun _ => rfl

theorem clearStops_carry {i : Nat} (h : Calm k q o s) : Calm k q o (clearStops i s) := by
  unfold clearStops
  exact ite_carry (modChives_carry h) (modCore_carry (modCore_carry h))

theorem finishAct_carry (h : Calm k q o s) : Calm k q o s.finishAct := by
  unfold State.finishAct
  split
  · exact h
  · extract_lets t v up
    have ht : Calm k q o t := clearStops_carry (ite_carry (modFw_carry h) h)
    have hup (x : Hub) {a : State} (ha : Calm k q o a) : Calm k q o (up x a) := ite_carry ha (raiseArb_carry ha)
    exact endAct_carry (hup .b (hup .a ht))

theorem flipHubCore_carry {x : Hub} {i : Nat} {back : Bool} (h : Calm k q o s) : Calm k q o (flipHubCore x i back s) := by
  unfold flipHubCore
  extract_lets was t
  have ht : Calm k q o t := modCore_carry h
  exact ite_carry (modCore_carry ht) (ite_carry (modCore_carry ht) (ite_carry (modCore_carry ht)
    (ite_carry (modCore_carry (runAgain_carry ht)) (modCore_carry (restartHubCore_carry ht)))))

theorem goBack_carry {a : Activation} (h : Calm k q o s) : Calm k q o (goBack a s) := by
  unfold goBack
  extract_lets hs t u
  have hu : Calm k q o u := foldl_carry (fun _ _ ha => flipHubCore_carry ha) _ (modAct_carry h)
  exact ite_carry hu (endAct_carry hu)

theorem coreTurn_carry {a : Activation} {x : Hub} {next : State → State} (hn : ∀ a, Calm k q o a → Calm k q o (next a))
    (h : Calm k q o s) : Calm k q o (coreTurn a x next s) := by
  unfold coreTurn
  exact ite_carry h (ite_carry (ite_carry (goBack_carry (flipHubCore_carry h)) (flipHubCore_carry h))
    (ite_carry (goBack_carry h) (hn _ h)))

theorem ownerStep_carry {a : Activation} (h : Calm k q o s) : Calm k q o (ownerStep a s) := by
  unfold ownerStep
  split
  · exact h
  · exact coreTurn_carry (fun _ ha => finishAct_carry ha) (modAct_carry h)

theorem switchStep_carry (h : Calm k q o s) : Calm k q o (switchStep s) := by
  unfold switchStep
  split
  · exact h
  · refine ite_carry h (ite_carry (goBack_carry h) (ite_carry (ownerStep_carry h) ?_))
    split
    · exact ownerStep_carry h
    · exact coreTurn_carry (fun _ ha => ownerStep_carry ha) h

theorem flipChive_carry {c : Nat} {back : Bool} (h : Calm k q o s) : Calm k q o (flipChive c back s) := by
  unfold flipChive
  extract_lets was setC t
  have ht : Calm k q o t := modChive_carry h
  exact ite_carry (modChive_carry ht) (ite_carry (modChive_carry ht) (ite_carry (modChive_carry ht)
    (ite_carry (modChive_carry (runChiveAgain_carry ht)) (restartChive_carry ht))))

theorem switchChive_carry {c : Nat} (h : Calm k q o s) : Calm k q o (switchChive c s) := by
  unfold switchChive
  exact ite_carry h (ite_carry (modChive_carry h) (flipChive_carry h))

theorem backWave_carry {w : Nat} (h : Calm k q o s) : Calm k q o (backWave w s) := by
  unfold backWave
  exact foldl_carry (fun _ _ ha => flipChive_carry ha) _ (modChives_carry (modAct_carry h))

theorem startWave_carry {w : Nat} (h : Calm k q o s) : Calm k q o (startWave w s) := by
  unfold startWave
  extract_lets t
  have ht : Calm k q o t := foldl_carry (fun _ _ ha => switchChive_carry ha) _ (modAct_carry h)
  exact ite_carry (backWave_carry ht) ht

theorem switchStopped_carry {w : Nat} (h : Calm k q o s) : Calm k q o (switchStopped w s) :=
  foldl_carry (fun _ _ ha => flipChive_carry ha) _ h

theorem waveStep_carry (h : Calm k q o s) : Calm k q o (waveStep s) := by
  unfold waveStep
  split
  · exact h
  · next a _ =>
    have ht : Calm k q o (switchStopped a.wave s) := switchStopped_carry h
    exact ite_carry h (ite_carry (ite_carry h (ite_carry (backWave_carry h) (endAct_carry h)))
      (ite_carry (backWave_carry ht) (ite_carry ht (ite_carry (startWave_carry ht) (finishAct_carry ht)))))

theorem startSwitch_carry (h : Calm k q o s) : Calm k q o (startSwitch s) := by
  unfold startSwitch
  split
  · exact h
  · exact ite_carry (startWave_carry (modAct_carry h)) (switchStep_carry (modAct_carry h))

theorem deferAct_carry (h : Calm k q o s) : Calm k q o (deferAct s) := by
  unfold deferAct
  split
  · exact h
  · extract_lets t u
    have hu : Calm k q o u := modCore_carry (modThyme_carry (modAct_carry h))
    exact ite_carry (endAct_carry h) (ite_carry hu (completeInterim_carry hu))

theorem drainEnds_carry (h : Calm k q o s) : Calm k q o (drainEnds s) := by
  unfold drainEnds
  split
  · exact h
  · exact ite_carry h (ite_carry (endAct_carry h) (ite_carry (deferAct_carry h) (startSwitch_carry h)))

theorem actAtBoundary_carry (h : Calm k q o s) : Calm k q o (actAtBoundary s) := by
  unfold actAtBoundary
  split
  · exact h
  · extract_lets t
    have ht : Calm k q o t := modAct_carry h
    exact ite_carry ht (ite_carry (endAct_carry ht) (ite_carry (drainEnds_carry ht) (switchStep_carry (waveStep_carry ht))))

theorem setEngRun_carry {x : Hub} {low : Bool} (h : Calm k q o s) : Calm k q o (setEngRun x low s) := by
  unfold setEngRun
  extract_lets t off
  have ht : Calm k q o t := pin_carry (modHubOf_carry h)
  exact ite_carry h (ite_carry ht (hubs_carry ht))

theorem sendClaim_carry {x : Hub} {e : Word} {r : Nat} (h : Calm k q o s) : Calm k q o (sendClaim x e s r) :=
  expect_carry (sendAs_carry h)

theorem claimed_carry {f : Pair → Pair} (hk : k.claims = false) (h : Calm k q o s) : Calm k q o (s.modPair f) :=
  h.of_hub ⟨rfl, rfl, rfl⟩ (fun _ => .refl k _) (List.Subset.refl _) (List.Subset.refl _) (fun e => by simp [hk] at e) rfl rfl

theorem claimFor_carry {x : Hub} {e : Word} {kind : Nat} (hk : k.claims = false) (h : Calm k q o s) :
    Calm k q o (claimFor x e kind s) := by
  unfold claimFor
  exact foldl_carry (fun _ _ ha => sendClaim_carry ha) _
    (emit_carry (setEngRun_carry (setEngRun_carry (claimed_carry hk (modHubOf_carry h)))))

theorem recoveryMode_carry (h : Calm k q o s) : Calm k q o (recoveryMode s) := by
  unfold recoveryMode
  exact modColl_carry (modColl_carry h)

theorem takeMirrored_carry {x : Hub} (h : Calm k q o s) : Calm k q o (takeMirrored x s) := by
  unfold takeMirrored
  exact foldl_carry (fun _ _ ha => modCore_carry ha) _ (foldl_carry (fun _ _ ha => modColl_carry ha) _ h)

theorem claimHandover_carry (hk : k.claims = false) (h : Calm k q o s) : Calm k q o (claimHandover s) := by
  unfold claimHandover
  split
  · extract_lets t u setup clk v w
    have hu : Calm k q o u := modPair_carry (releaseHeld_carry h) rfl
    have hv : Calm k q o v := hu.of_same ⟨rfl, rfl, rfl⟩ rfl rfl (List.Subset.refl _) rfl rfl rfl
    exact claimFor_carry hk (takeMirrored_carry (modHubOf_carry (recoveryMode_carry hv)))
  · exact modPair_carry h rfl

theorem handoverAtBoundary_carry (hk : k.claims = false) (h : Calm k q o s) : Calm k q o (handoverAtBoundary s) := by
  unfold handoverAtBoundary
  exact ite_carry (modPair_carry h rfl) (ite_carry (claimHandover_carry hk h) h)

theorem Pair.sendBlocks_claims (x : Hub) (n : Nat) (p : Pair) : (p.sendBlocks x n).claims = p.claims := by
  unfold Pair.sendBlocks
  split <;> rfl

theorem sendBeat_carry {x : Hub} {e : Word} {role : Nat} {yield drop : Bool} (h : Calm k q o s) :
    Calm k q o (sendBeat x e role yield drop s) := by
  unfold sendBeat
  extract_lets t rest u
  have ht : Calm k q o t := sendAs_carry h
  refine ite_carry ht (emit_carry (modPair_carry ht ?_))
  clear_value rest
  cases rest
  · exact Pair.sendBlocks_claims ..
  · exact Pair.sendBlocks_claims ..

theorem endLinkPeriod_carry (h : Calm k q o s) : Calm k q o (endLinkPeriod s) := by
  unfold endLinkPeriod
  dsimp only
  split
  · exact modPair_carry h rfl
  · exact modPair_carry h ((Pair.sendBlocks_claims ..).trans (Pair.sendBlocks_claims ..))

theorem sendBeats_carry (h : Calm k q o s) : Calm k q o (sendBeats s) := by
  unfold sendBeats
  extract_lets one
  have hone (x : Hub) {a : State} (ha : Calm k q o a) : Calm k q o (one a x) := by
    unfold one
    dsimp only
    split
    · exact ha
    · exact ha
    · exact sendBeat_carry ha
  exact hone .b (hone .a (endLinkPeriod_carry h))

theorem countSilence_carry (h : Calm k q o s) : Calm k q o (countSilence s) :=
  h.of_same ⟨rfl, rfl, rfl⟩ rfl rfl (List.Subset.refl _) rfl rfl rfl

theorem dropLanes_carry {bad : BitVec 4} (h : Calm k q o s) : Calm k q o (dropLanes bad s) := by
  unfold dropLanes
  extract_lets gone was t u
  have hu : Calm k q o u := foldl_carry (fun _ _ ha => raise_carry ha) _ (modPair_carry h rfl)
  exact ite_carry h (ite_carry (raise_carry hu) hu)

theorem reachStep_carry {n : Nat} (h : Calm k q o s) : Calm k q o (reachStep n s) := hubs_carry h

theorem startDone_carry (h : Calm k q o s) : Calm k q o (startDone s) := by
  unfold startDone
  split
  · exact h
  · refine ite_carry h (ite_carry (reachStep_carry h) (ite_carry (modPow_carry (reachStep_carry ?_) rfl)
      (setEngRun_carry (reachStep_carry ?_))))
    · exact modRegions_carry h fun _ => .of_same rfl rfl rfl rfl rfl
    · exact h.of_same ⟨rfl, rfl, rfl⟩ rfl rfl (List.Subset.refl _) rfl rfl rfl

theorem memEvent_carry {core : CoreId} {cause : Nat} (h : Calm k q o s) : Calm k q o (memEvent core cause s) := events_carry h

theorem memoryError_carry {x : Scrub} {corrected : Bool} (h : Calm k q o s) : Calm k q o (memoryError x corrected s) := by
  cases x with
  | hubCode x i _ _ other =>
    have ht : Calm k q o (memEvent (.hub x i) (bitNat (!corrected)) s) := memEvent_carry h
    exact ite_carry ht (ite_carry (restartHubCore_carry ht) (ite_carry ht (stopHubCore_carry ht)))
  | hubData x i _ => exact ite_carry (memEvent_carry h) (restartHubCore_carry (memEvent_carry h))
  | chive c _ =>
    exact ite_carry (raiseRoll_carry h) (ite_carry (raiseRoll_carry h) (raiseRoll_carry (record_carry (modChive_carry h))))
  | grantTable _ => exact raise_carry h
  | recorder x block _ => exact ite_carry (raise_carry h) (recorderLost_carry (raise_carry h))
  | sage r _ => exact ite_carry (raiseRoll_carry h) (weightsLost_carry h)
  | governor r => exact raiseRoll_carry h

theorem scrubOne_carry {x : Scrub} (h : Calm k q o s) : Calm k q o (scrubOne x s) := by
  unfold scrubOne
  split
  · exact memoryError_carry h
  · split
    · exact h
    · exact memoryError_carry (nextFree_carry h)

theorem scrubAll_carry {scrubs found : List Scrub} (h : Calm k q o s) : Calm k q o (scrubAll scrubs found s) := by
  unfold scrubAll
  exact foldl_carry (fun _ _ ha => scrubOne_carry ha) _
    (h.of_same ⟨rfl, rfl, rfl⟩ rfl rfl (List.Subset.refl _) rfl rfl rfl)

theorem countPeriods_carry (h : Calm k q o s) : Calm k q o (countPeriods s) := by
  unfold countPeriods
  refine modRecorder_carry (modAgeing_carry (hubs_carry (modRegions_carry h fun g => ?_)))
  exact .ite (.refl k g) (.of_same rfl rfl rfl rfl rfl)

theorem treeEpochs_carry (hg : k.gov = false) (h : Calm k q o s) : Calm k q o (treeEpochs s) := by
  unfold treeEpochs
  extract_lets carry
  have hc (x : Hub) {a : State} (ha : Calm k q o a) : Calm k q o (carry a x) := ite_carry (emit_carry ha) ha
  refine forRegions_carry (fun r a ha => ?_) (hc .b (hc .a h))
  have ht : Calm k q o (if (a.gov r).root = a.rootFor (a.gov r).root then a
    else a.modGov r (fun g => { g with root := a.rootFor (a.gov r).root })) := ite_carry ha (modGov_carry ha rfl rfl)
  exact ite_carry (adoptEpoch_carry hg ht) ht

theorem claimAtBoundary_carry (hs : s.pair.claims = []) (h : Calm k q o s) : Calm k q o (claimAtBoundary s) := by
  unfold claimAtBoundary
  rwa [if_pos hs]

end
end Sys2Proof.Machine
end

