-- ==== Sys2Proof/Proofs/BoundaryTurns.lean ====
section
/-!
SUPPORT. The acts of a boundary that move what is followed; the boundary before, in and after a region's own turn.
-/

namespace Sys2Proof.Machine

/-! ### The acts of a boundary that move what is followed, and what each of them leaves -/

section
variable {k : Keep} {q : Nat} {o s t : State}

theorem setModel_carries {g : Region} {m : ModelState} (hk : k.sage = false) : Carries k g (g.setModel m) := by
  unfold Region.setModel
  refine .ite (.refl k g) ⟨fun _ => rfl, fun _ => .refl _, fun _ => .refl _, fun _ => rfl, fun e => ?_, fun _ => rfl, fun _ => id,
    fun _ _ => rfl⟩
  simp [hk] at e

/-- Any change of the learned cost, where it is not followed. -/
theorem anySage_carries {g : Region} {f : Sage → Sage} (hk : k.sage = false) : Carries k g (g.modSage f) :=
  ⟨fun _ => rfl, fun _ => .refl _, fun _ => .refl _, fun _ => rfl, fun e => by simp [hk] at e, fun _ => rfl, fun _ => id,
    fun _ _ => rfl⟩

theorem activateModel_carry {r : Nat} (hk : q = r → k.sage = false) (h : Calm k q o s) : Calm k q o (activateModel r s) := by
  unfold activateModel
  split
  · exact h
  · exact ite_carry (send_carry (modRegion_own h fun e => (setModel_carries (hk e)).trans (anySage_carries (hk e)))) h

/-- Every region of every load in hand has a switch of period `p`. -/
def AllHeard (p : BitVec 48) (s : State) : Prop :=
  ∀ l ∈ s.hub.loads, ∀ j ∈ onesOf 64 l.mask.toNat, (s.region j).sage.switchAt = some p

theorem AllHeard.of_calm {p : BitVec 48} (ha : AllHeard p s) (hs : k.sage = true) (h : ∀ j, Calm k j s t) : AllHeard p t := by
  intro l hl j hj
  obtain ⟨l', hl', hm⟩ := List.mem_map.1 ((h j).loads (List.mem_map_of_mem hl))
  rw [((h j).region.sage hs).2.2.2]
  exact ha l' hl' j (hm ▸ hj)

theorem dropModel_carries {g : Region} (hk : k.sage = false) : Carries k g g.dropModel :=
  (setModel_carries hk).trans (anySage_carries hk)

/-- The loads of a boundary leave the region followed, or what they do to it is not followed. -/
theorem foldl_sage_carry {l : List Nat} {f : State → Nat → State} (hl : l = [] ∨ k.sage = false)
    (hf : k.sage = false → ∀ a r, Calm k q o a → Calm k q o (f a r)) (h : Calm k q o s) : Calm k q o (l.foldl f s) := by
  obtain rfl | hk := hl
  · exact h
  · exact foldl_carry (hf hk) _ h

theorem loadsAtBoundary_carry {p : BitVec 48} (hs : k.sage = true → AllHeard p s) (h : Calm k q o s) :
    Calm k q o (loadsAtBoundary s) := by
  unfold loadsAtBoundary
  refine List.foldlRecOn (motive := Calm k q o) _ _ h fun a ha l hl => ?_
  extract_lets rs t
  by_cases hany : rs.any (fun r => (s.region r).sage.switchAt.isSome) = true
  · rwa [if_pos (by simp [hany])]
  have hrs : rs = [] ∨ k.sage = false := by
    refine or_iff_not_imp_right.2 fun hk => List.eq_nil_iff_forall_not_mem.2 fun r hr => hany ?_
    exact List.any_eq_true.2 ⟨r, hr, by rw [hs (by simpa using hk) l hl r hr]; rfl⟩
  have ht : Calm k q o t := foldl_sage_carry hrs (fun hk b r hb => hubAsk_carry (region_carry (modGov_carry hb rfl rfl) fun _ =>
    (setModel_carries hk).trans (anySage_carries hk))) ha
  refine ite_carry ha (ite_carry (complete_carry (modLoads_carry (foldl_sage_carry hrs (fun hk b r hb =>
    region_carry hb fun _ => dropModel_carries hk) ha) fun ls => ?_)) (modLoads_carry ht fun ls => ?_))
  · exact List.map_subset _ List.erase_subset
  · rw [List.map_map]
    have hmask : (fun x : ModelLoad => (if x.cmd = l.cmd then { x with started := true } else x).mask) = ModelLoad.mask := by
      funext x
      split <;> rfl
    exact (congrArg (fun f => ls.map f) hmask) ▸ List.Subset.refl _

theorem voidSwitches_carry {p : BitVec 48} (hs : k.sage = true → AllHeard p s ∧ p.toNat = s.now) (h : Calm k q o s) :
    Calm k q o (voidSwitches s) := by
  unfold voidSwitches
  extract_lets heard
  refine List.foldlRecOn (motive := Calm k q o) _ _ h fun a ha l hl => ?_
  extract_lets rs
  by_cases hk : k.sage = true
  · rwa [if_pos]
    refine List.all_eq_true.2 fun r hr => ?_
    simp [heard, (hs hk).1 l hl r hr, (hs hk).2]
  · exact ite_carry ha (foldl_carry (fun b r hb => region_carry hb fun _ => anySage_carries (by simpa using hk)) _ ha)

theorem dropResv_carries {g : Region} {i : Nat} (hk : k.resvs = false) : Carries k g (dropResv i g) := by
  unfold dropResv
  split
  · exact .refl k g
  · next v _ =>
    have hg := sameGroups_modifyAll (f := fun _ u => if v.inForce then
        Cluster.resend { u with phases := none, phaseIdx := 0, phCeil := 64, grpFloor := 0,
                                ctl := { u.ctl with res := 0, raiseHeld := false } }
      else { u with staged := none }) (fun c u => by split <;> rfl) v.clusters g.clusters
    exact ⟨fun e => by simp [hk] at e, fun _ => .refl _, fun _ => .refl _, fun _ => rfl, fun _ => .refl _, fun _ => rfl,
      fun _ => hg.2, fun _ => hg.1⟩

/-- Any change of the reservations, where they are not followed, with one of the clusters that keeps their groups. -/
theorem anyResvs_carries {g : Region} {l : List Resv} {m : SMap Cluster} (hk : k.resvs = false) (hg : SameGroups g.clusters m) :
    Carries k g { g with resvs := l, clusters := m } :=
  ⟨fun e => by simp [hk] at e, fun _ => .refl _, fun _ => .refl _, fun _ => rfl, fun _ => .refl _, fun _ => rfl, fun _ => hg.2,
    fun _ => hg.1⟩

theorem commitIndex_carry {r i : Nat} (hk : q = r → k.resvs = false) (h : Calm k q o s) : Calm k q o (commitIndex r i s) := by
  unfold commitIndex
  split
  · exact h
  · exact modRegion_own h fun e => anyResvs_carries (hk e) (sameGroups_modifyAll (fun c u => by dsimp only; split <;> rfl) _ _)

theorem grantsAtBoundary_carry {r : Nat} (hk : q = r → k.resvs = false ∧ k.gov = false) (h : Calm k q o s) :
    Calm k q o (grantsAtBoundary r s) := by
  unfold grantsAtBoundary
  extract_lets before ws e now gone stale leaving held s1 s2 s3 s4
  have h1 : Calm k q o s1 := foldl_carry (fun _ _ ha => modRegion_own ha fun e => dropResv_carries (hk e).1) _ h
  have h2 : Calm k q o s2 := foldl_carry (fun _ _ ha => send_carry ha) _ h1
  have h3 : Calm k q o s3 := foldl_carry (fun _ _ ha => commitIndex_carry (fun e => (hk e).1) ha) _ h2
  have h4 : Calm k q o s4 := modGov_own h3 fun e e' => by simp [hk e] at e'
  exact sp_carry h4

theorem anyCaps_carries {g : Region} {c : Caps} (hw : k.wait = false) (hc : k.caps = false) (ho : k.owed = false) :
    Carries k g { g with caps := c } :=
  ⟨fun _ => rfl, fun e => by simp [hw] at e, fun e => by simp [hc] at e, fun e => by simp [ho] at e, fun _ => .refl _,
    fun _ => rfl, fun _ => id, fun _ _ => rfl⟩

theorem capAtBoundary_carry {r : Nat} (hk : q = r → k.wait = false ∧ k.caps = false ∧ k.owed = false) (h : Calm k q o s) :
    Calm k q o (capAtBoundary r s) := by
  unfold capAtBoundary
  extract_lets c i0 i1 t
  have ht : Calm k q o t := modRegion_own h fun e => anyCaps_carries (hk e).1 (hk e).2.1 (hk e).2.2
  split
  · exact ite_carry ht (clearLatch_carry ht)
  · exact ht

theorem presetCap_carry {r : Nat} (hk : q = r → k.wait = false ∧ k.caps = false ∧ k.owed = false) (h : Calm k q o s) :
    Calm k q o (presetCap r s) := by
  unfold presetCap
  refine ite_carry h (modRegion_own h fun e => ?_)
  exact (anyCaps_carries (hk e).1 (hk e).2.1 (hk e).2.2).trans (.of_same rfl rfl rfl rfl rfl)

theorem derateAtBoundary_carry {r : Nat} (hk : q = r → k.wait = false ∧ k.caps = false ∧ k.owed = false) (h : Calm k q o s) :
    Calm k q o (derateAtBoundary r s) := by
  unfold derateAtBoundary
  extract_lets due m t u
  have ht : Calm k q o t := by
    unfold t
    exact modRegion_own h fun e => (anyCaps_carries (hk e).1 (hk e).2.1 (hk e).2.2).trans (.of_same rfl rfl rfl rfl rfl)
  have hu : Calm k q o u := abandonRounds_carry (abandonNow_carry (raiseRoll_carry ht))
  exact ite_carry h (ite_carry (suspendTimers_carry hu) hu)

theorem markFirst_carry {r : Nat} {before : Region} (h : Calm k q o s) : Calm k q o (markFirst before r s) := by
  unfold markFirst
  exact ite_carry (modPh_carry h) h

theorem capsAtBoundary_carry {r : Nat} (hk : q = r → k.wait = false ∧ k.caps = false ∧ k.owed = false) (h : Calm k q o s) :
    Calm k q o (capsAtBoundary r s) := by
  unfold capsAtBoundary
  extract_lets before t
  have ht : Calm k q o t := markFirst_carry (derateAtBoundary_carry hk (presetCap_carry hk (capAtBoundary_carry hk h)))
  exact ite_carry (spec_carry ht) ht

theorem marginAtBoundary_carries {least : Nat} {g : Region} : Carries k g (marginAtBoundary least g) :=
  .of_same rfl rfl rfl rfl rfl

theorem shrinkResvs_carries {g : Region} : Carries k g g.shrinkResvs := by
  refine .of_parts ?_ rfl rfl rfl rfl (.refl _) rfl (.refl _)
  simp [Region.shrinkResvs, Resv.key]

theorem slotsAtBoundary_carries {g : Region} (hs : k.slots = false) (hf : k.free = false) (hg : k.groups = false) :
    Carries k g (slotsAtBoundary g) :=
  ⟨fun _ => rfl, fun _ => .refl _, fun _ => .refl _, fun _ => rfl, fun _ => .refl _, fun e => by simp [hs] at e,
    fun e => by simp [hf] at e, fun e => by simp [hg] at e⟩

/-- The slots, the reservations and the margin of a region at its boundary. -/
def Region.turn (least : Nat) (g : Region) : Region := marginAtBoundary least (Region.shrinkResvs (slotsAtBoundary g))

theorem turn_carries {least : Nat} {g : Region} (hs : k.slots = false) (hf : k.free = false) (hg : k.groups = false) :
    Carries k g (g.turn least) := ((slotsAtBoundary_carries hs hf hg).trans shrinkResvs_carries).trans marginAtBoundary_carries

theorem Div.uncapped_groups (d : Div) (m : SMap Cluster) : SameGroups m (d.uncapped m) := sameGroups_mapAll fun _ => rfl

theorem Div.divide_groups (d : Div) (mR : Nat → Nat) (hold cut : Bool) (limit : Nat) (m : SMap Cluster) :
    SameGroups m (d.divide mR hold cut limit m) := sameGroups_mapAll fun _ => by split <;> rfl

theorem Div.divided_groups (d d' : Div) (mR : Nat → Nat) (hold cut : Bool) (limit : Nat) (m : SMap Cluster) :
    SameGroups m (d.divide mR hold cut limit (d'.uncapped m)) := (d'.uncapped_groups m).trans (d.divide_groups ..)

theorem divideRegion_carry {r : Nat} {guard : Bool} (h : Calm k q o s) : Calm k q o (divideRegion r guard s) := by
  unfold divideRegion
  refine modRegion_carry h (.of_groups rfl rfl rfl rfl ?_)
  dsimp only
  split
  · exact (Div.divided_groups ..).trans (sameGroups_mapAll fun _ => rfl)
  · exact Div.divided_groups ..

theorem regionLast_carry {r : Nat} {commits : List Nat} (hk : q = r → k.owed = false) (h : Calm k q o s) :
    Calm k q o (regionLast r commits s) := by
  unfold regionLast
  extract_lets t u v
  have ht : Calm k q o t := ite_carry (sendSettings_carry h) h
  have hu : Calm k q o u := ackCap_carry hk (releaseHolds_carry (reportCommits_carry (sendMR_carry ht)))
  have hv : Calm k q o v := ite_carry (sp_carry hu) hu
  exact pmbusAtBoundary_carry (startFrame_carry (resendErrors_carry hv))

/-- A region at its boundary, up to the demotion. -/
def regionStart (r : Nat) (s : State) : State := demotionAtBoundary r (activateModel r (grantsAtBoundary r s))

theorem regionFirst_eq (r : Nat) (s : State) : regionFirst r s =
    setpointAtBoundary r (capsAtBoundary r ((regionStart r s).modRegion r (Region.turn (s.cfg 0x6000 0 8)))) := rfl

theorem regionStart_carry {r : Nat} (hk : q = r → k.sage = false ∧ k.resvs = false ∧ k.gov = false) (h : Calm k q o s) :
    Calm k q o (regionStart r s) :=
  demotionAtBoundary_carry (activateModel_carry (fun e => (hk e).1) (grantsAtBoundary_carry (fun e => (hk e).2) h))

/-- Nothing of a region or of a governor is followed. -/
structure Keep.Outside (k : Keep) : Prop where
  gov    : k.gov = false
  resvs  : k.resvs = false
  wait   : k.wait = false
  caps   : k.caps = false
  owed   : k.owed = false
  sage   : k.sage = false
  slots  : k.slots = false
  free   : k.free = false
  groups : k.groups = false

theorem regionFirst_carry {r : Nat} (hk : q = r → k.Outside) (h : Calm k q o s) : Calm k q o (regionFirst r s) := by
  rw [regionFirst_eq]
  refine setpointAtBoundary_carry (capsAtBoundary_carry (fun e => ⟨(hk e).wait, (hk e).caps, (hk e).owed⟩)
    (modRegion_own ?_ fun e => ?_))
  · exact regionStart_carry (fun e => ⟨(hk e).sage, (hk e).resvs, (hk e).gov⟩) h
  · exact turn_carries (hk e).slots (hk e).free (hk e).groups

/-- A region's turn of the boundary leaves every other region. -/
theorem regionAtBoundary_carry {guards : List Bool} {r : Nat} (hk : q = r → k.Outside) (h : Calm k q o s) :
    Calm k q o (regionAtBoundary guards r s) := by
  unfold regionAtBoundary
  extract_lets guard commits t u
  have ht : Calm k q o t := regionFirst_carry hk h
  have hu : Calm k q o u := ite_carry (divideRegion_carry ht) ht
  exact regionLast_carry (fun e => (hk e).owed) hu

end

/-! ### The boundary before and after a region's own turn -/

section
variable {k : Keep} {q : Nat} {o s t : State}

theorem endPeriod_carries {rise : Nat} {learned : Bool} {g : Region} : Carries k g (g.endPeriod rise learned) :=
  .of_parts rfl rfl rfl rfl rfl (.refl _) rfl (sameGroups_mapAll fun _ => rfl)

/-- What a region does after its counts of the period have ended. -/
theorem regionEnds_rest {r : Nat} : Calm k q (s.modRegion r (Region.endPeriod (s.cfg (offSpec r 1) 0 12)
    (decide ((s.region r).sage.model = .active ∧ s.cfg (offSage r) 0 2 = 1)))) (regionEnds r s) := by
  unfold regionEnds
  extract_lets x learned t u v
  have hu : Calm k q t u := ite_carry (sage_carry (.refl k q t) fun _ => ⟨rfl, rfl, rfl, rfl⟩) (.refl k q t)
  have hv : Calm k q t v := ite_carry (same_carry hu fun _ => ⟨rfl, rfl, rfl, rfl, rfl⟩) hu
  exact recoverSensors_carry (trackError_carry hv)

theorem regionEnds_carry {r : Nat} (h : Calm k q o s) : Calm k q o (regionEnds r s) :=
  (region_carry h fun _ => endPeriod_carries).trans regionEnds_rest

theorem applyRestarts_ring (s : State) (j : Nat) : (applyRestarts s).ring j =
    if (s.ring j).restart then { s.ring j with pi := 0, ci := 0, stopped := false, dbErr := false, memErr := false, restart := false }
    else s.ring j := SMap.get_mapAll ..

theorem applyRestarts_fresh {j : Nat} (h : (s.ring j).restart = true) : RingFresh ((applyRestarts s).ring j) := by
  rw [applyRestarts_ring, if_pos h]
  exact ⟨rfl, rfl, rfl, rfl, rfl, rfl⟩

theorem applyRestarts_carry (hk : k.asked = false) (h : Calm k q o s) : Calm k q o (applyRestarts s) := by
  refine h.of_hub ⟨rfl, rfl, rfl⟩ (fun j => ⟨fun _ hf => ?_, fun e => by simp [hk] at e⟩) (List.Subset.refl _) (List.Subset.refl _)
    (fun _ => rfl) rfl rfl
  rw [applyRestarts_ring, if_neg (by simp [hf.2.2.2.2.2])]
  exact hf

theorem stands_modifyAll {f : Nat → Ring → Ring} (hf : ∀ j (g : Ring), g.Stands k (f j g)) (ks : List Nat) (m : SMap Ring) (j : Nat) :
    (m.get j).Stands k ((m.modifyAll ks f).get j) := by
  refine List.foldlRecOn (motive := fun m' : SMap Ring => (m.get j).Stands k (m'.get j)) ks _ (.refl k _) fun m' hm c _ => hm.trans ?_
  by_cases hj : j = c
  · rw [hj, SMap.get_modify_self]
    exact hf c _
  · rw [SMap.get_modify_ne _ _ hj]
    exact .refl k _

theorem modRings_stands {f : Rings → Rings} (h : Calm k q o s) (hf : ∀ j, (s.ring j).Stands k ((f s.hub.rings).ring.get j)) :
    Calm k q o (s.modRings f) :=
  h.of_hub ⟨rfl, rfl, rfl⟩ hf (List.Subset.refl _) (List.Subset.refl _) (fun _ => rfl) rfl rfl

theorem openRing_stands (g : Ring) : g.Stands k { g with pi := 0, ci := 0 } := ⟨fun _ hg => ⟨rfl, rfl, hg.2.2⟩, fun _ => id⟩

theorem holdRing_stands (g : Ring) (b : Bool) : g.Stands k { g with hold := b } := ⟨fun _ => id, fun _ => id⟩

theorem setup_carry {u : Setup} (h : Calm k q o s) : Calm k q o { s with setup := u } :=
  h.of_same ⟨rfl, rfl, rfl⟩ rfl rfl (List.Subset.refl _) rfl rfl rfl

theorem applyShadows_carry {frozen : Bool} (h : Calm k q o s) : Calm k q o (applyShadows frozen s) := by
  unfold applyShadows
  extract_lets now u units pass fail frozenOut ringsBefore u1 u2 held t enabled holdNow holdPair open0 mark
  have ht : Calm k q o t := setup_carry h
  clear_value t enabled holdPair
  exact modRings_stands ht fun j => (stands_modifyAll (fun _ g => openRing_stands g) _ _ j).trans
    (stands_modifyAll (fun _ g => holdRing_stands g _) _ _ j)

theorem shadowsAtBoundary_carry {ages : AgeReads} (hc : k.caps = false) (hg : k.groups = false) (h : Calm k q o s) :
    Calm k q o (shadowsAtBoundary ages s) := by
  unfold shadowsAtBoundary
  have ht := applyShadows_carry (frozen := (s.hubOf (s.owner.getD .a)).coll.frozen) h
  exact captureWide_carry (ite_carry ht (trimMaxRaised_carry hg (presetsLowered_carry hc
    (forRegions_carry (fun _ _ ha => appliedRegion_carry ha) ht))))

theorem hubFirst_rest {p : BitVec 48} (hs : k.sage = true → AllHeard p (applyRestarts s)) (h : Calm k q o (applyRestarts s)) :
    Calm k q o (hubFirst s) := by
  unfold hubFirst
  extract_lets t
  have ht {j : Nat} {o : State} (h : Calm k j o (applyRestarts s)) : Calm k j o t := startDone_carry h
  refine ite_carry (clusterItems_carry (loadsAtBoundary_carry (p := p) (fun e => ?_) (wordsAtBoundary_carry (ht h)))) (ht h)
  exact (hs e).of_calm e fun j => wordsAtBoundary_carry (ht (.refl k j _))

theorem hubFirst_carry {p : BitVec 48} (ha : k.asked = false) (hs : k.sage = true → AllHeard p s) (h : Calm k q o s) :
    Calm k q o (hubFirst s) :=
  hubFirst_rest (fun e => (hs e).of_calm e fun j => applyRestarts_carry ha (.refl k j s)) (applyRestarts_carry ha h)

/-- The boundary before the regions' turns. -/
def boundaryStart (inp : BoundaryInput) (s : State) : State :=
  (voidSwitches (shadowsAtBoundary inp.ages (hubFirst s))).forRegions refTree

/-- All that a region's period ends with. -/
def regionsEnd (s : State) : State := s.forRegions regionEnds

theorem regionsEnd_carry (h : Calm k q o s) : Calm k q o (regionsEnd s) := forRegions_carry (fun _ _ ha => regionEnds_carry ha) h

theorem boundaryStart_carry {inp : BoundaryInput} {p : BitVec 48} (hc : k.caps = false) (hg : k.groups = false) (ha : k.asked = false)
    (hp : k.sage = true → AllHeard p s ∧ p.toNat = s.now) (h : Calm k q o s) : Calm k q o (boundaryStart inp s) := by
  unfold boundaryStart
  have hsh {j : Nat} {o : State} (h : Calm k j o s) : Calm k j o (shadowsAtBoundary inp.ages (hubFirst s)) :=
    shadowsAtBoundary_carry hc hg (hubFirst_carry ha (fun e => (hp e).1) h)
  refine forRegions_carry (fun _ _ ha => refTree_carry ha) (voidSwitches_carry (p := p) (fun e => ⟨?_, ?_⟩) (hsh h))
  · exact (hp e).1.of_calm e fun j => hsh (.refl k j s)
  · unfold State.now
    rw [(hsh (.refl k q s)).time.1]
    exact (hp e).2

/-- The boundary after the regions' turns, up to the epochs and the heartbeats. -/
def boundaryEnd (inp : BoundaryInput) (s : State) : State :=
  let t := s.hub.groups.defs.foldl (fun (a : State) p => groupNeed p.1 a) (trimGroups s)
  let t := mirrorSlots (actAtBoundary (if t.inControl then settleCaps t else t))
  let t := scrubAll inp.scrubs inp.found (if t.inControl then pollBroken (List.range 64) t else t)
  sendBeats (treeEpochs (countSilence (dropLanes inp.badLanes (countPeriods t))))

theorem hubLast'_eq (inp : BoundaryInput) (s : State) :
    hubLast' inp s = handoverAtBoundary (claimAtBoundary (boundaryEnd inp s)) := rfl

theorem boundaryEnd_carry {inp : BoundaryInput} (hg : k.gov = false) (h : Calm k q o s) : Calm k q o (boundaryEnd inp s) := by
  unfold boundaryEnd
  extract_lets t u v
  have ht : Calm k q o t := foldl_carry (fun _ _ ha => groupNeed_carry ha) _ (trimGroups_carry h)
  have hu : Calm k q o u := mirrorSlots_carry (actAtBoundary_carry (ite_carry (settleCaps_carry ht) ht))
  have hv : Calm k q o v := scrubAll_carry (ite_carry (pollBroken_carry hu) hu)
  exact sendBeats_carry (treeEpochs_carry hg (countSilence_carry (dropLanes_carry (countPeriods_carry hv))))

/-- The claims alone are followed. -/
def Keep.ofClaims : Keep := { Keep.none with claims := true }

theorem Keep.ofClaims_outside : Keep.ofClaims.Outside := ⟨rfl, rfl, rfl, rfl, rfl, rfl, rfl, rfl, rfl⟩

theorem hubLast'_carry {inp : BoundaryInput} (hc : k.claims = false) (hg : k.gov = false) (hs : s.pair.claims = [])
    (h : Calm k q o s) : Calm k q o (hubLast' inp s) := by
  rw [hubLast'_eq]
  refine handoverAtBoundary_carry hc (claimAtBoundary_carry ?_ (boundaryEnd_carry hg h))
  exact ((boundaryEnd_carry (k := .ofClaims) rfl (.refl _ q s)).claims rfl).trans hs

/-- Of the turns of all regions, those before and after a region's own. -/
theorem forRegions_split (f : Nat → State → State) (hq : q < 64) (s : State) : ∃ t, ∀ k : Keep,
    (∀ r o a, r ≠ q → Calm k q o a → Calm k q o (f r a)) → Calm k q s t ∧ Calm k q (f q t) (s.forRegions f) := by
  obtain ⟨l, l', hl⟩ := List.append_of_mem (List.mem_range.2 hq)
  have hnd := List.nodup_range (n := 64)
  rw [hl, List.nodup_append, List.nodup_cons] at hnd
  refine ⟨l.foldl (fun a r => f r a) s, fun k hf => ⟨?_, ?_⟩⟩
  · refine List.foldlRecOn (motive := Calm k q s) _ _ (.refl k q s) fun a ha r hr => hf r s a ?_ ha
    rintro rfl
    exact hnd.2.2 r hr r (List.mem_cons_self ..) rfl
  · unfold State.forRegions
    rw [show List.range nRegions = l ++ q :: l' from hl, List.foldl_append, List.foldl_cons]
    refine List.foldlRecOn (motive := Calm k q _) _ _ (.refl k q _) fun a ha r hr => hf r _ a ?_ ha
    rintro rfl
    exact hnd.2.1.1 hr

end

/-! ### A region's own turn within the boundary -/

section
variable {k : Keep} {q : Nat} {o s t : State}

theorem journaled_carry {f : State → State} (hc : k.claims = false) : Calm k q (f s) (journaled f s) := by
  unfold journaled
  exact ite_carry (claimed_carry hc (.refl k q _)) (.refl k q _)

/-- The rings' guards of a boundary, as the regions' turns see them. -/
def guardsOf (s : State) : List Bool := (List.range 64).map (fun r => decide (0 < (s.region r).caps.guardLeft))

theorem controlPeriod_turns {inp : BoundaryInput} (hc : s.clk.st ≠ .stopped) (hr : s.pow.rstLow = false) : controlPeriod inp s =
    subscribed ((List.range 64).map (fun r => (s.region r).tripsNow)) (answerQueries (hubLast' inp
      ((boundaryStart inp (regionsEnd (nextPeriod s))).forRegions (regionAtBoundary (guardsOf s))))) :=
  controlPeriod_running hc hr

/-- What may be followed up to the regions' turns. -/
structure Keep.Before (k : Keep) (p : BitVec 48) (s : State) : Prop where
  caps   : k.caps = false
  groups : k.groups = false
  asked  : k.asked = false
  sage   : k.sage = true → AllHeard p s ∧ p = s.period + 1

theorem turnsStart_carry {inp : BoundaryInput} {p : BitVec 48} (hk : k.Before p s) :
    Calm k q (regionsEnd (nextPeriod s)) (boundaryStart inp (regionsEnd (nextPeriod s))) := by
  refine boundaryStart_carry (p := p) hk.caps hk.groups hk.asked (fun e => ?_) (.refl k q _)
  obtain ⟨ha, rfl⟩ := hk.sage e
  refine ⟨(show AllHeard _ (nextPeriod s) from ha).of_calm e fun j => regionsEnd_carry (.refl k j _), ?_⟩
  unfold State.now
  rw [(regionsEnd_carry (.refl k q (nextPeriod s))).time.1]
  rfl

theorem turns_claims {inp : BoundaryInput} (hs : PlainBoundary s) :
    ((boundaryStart inp (regionsEnd (nextPeriod s))).forRegions (regionAtBoundary (guardsOf s))).pair.claims = [] := by
  have h : Calm .ofClaims 0 (nextPeriod s) ((boundaryStart inp (regionsEnd (nextPeriod s))).forRegions
      (regionAtBoundary (guardsOf s))) :=
    forRegions_carry (fun r a ha => regionAtBoundary_carry (fun _ => Keep.ofClaims_outside) ha)
      ((regionsEnd_carry (.refl _ _ _)).trans (turnsStart_carry (p := 0) ⟨rfl, rfl, rfl, nofun⟩))
  exact (h.claims rfl).trans hs.2.2

/-- What follows the regions' turns is calm. -/
theorem boundary_tail {inp : BoundaryInput} (hs : PlainBoundary s) (hc : k.claims = false) (hg : k.gov = false) :
    Calm k q ((boundaryStart inp (regionsEnd (nextPeriod s))).forRegions (regionAtBoundary (guardsOf s)))
      (journaled (controlPeriod inp) s) := by
  refine Calm.trans ?_ (journaled_carry hc)
  rw [controlPeriod_turns hs.1 hs.2.1]
  exact subscribed_carry (answerQueries_carry (hubLast'_carry hc hg (turns_claims hs) (.refl k q _)))

/-- A region's own turn in the boundary: up to it and after it the rest is calm. -/
theorem boundary_split {inp : BoundaryInput} (hs : PlainBoundary s) (hq : q < 64) : ∃ u,
    (∀ k p, Keep.Before k p s → Calm k q (regionsEnd (nextPeriod s)) u) ∧
    ∀ k, k.claims = false → k.gov = false →
      Calm k q (regionAtBoundary (guardsOf s) q u) (journaled (controlPeriod inp) s) := by
  obtain ⟨u, hu⟩ := forRegions_split (regionAtBoundary (guardsOf s)) hq (boundaryStart inp (regionsEnd (nextPeriod s)))
  have hother (k : Keep) (r : Nat) (o a : State) (hr : r ≠ q) (ha : Calm k q o a) :
      Calm k q o (regionAtBoundary (guardsOf s) r a) := regionAtBoundary_carry (fun e => absurd e.symm hr) ha
  exact ⟨u, fun k p hk => (turnsStart_carry hk).trans (hu k (hother k)).1,
    fun k hc hg => (hu k (hother k)).2.trans (boundary_tail hs hc hg)⟩

/-! ### Within a region's own turn -/

theorem turn_last {guards : List Bool} {r : Nat} {u : State} (ho : k.owed = false) (h : Calm k q o (regionFirst r u)) :
    Calm k q o (regionAtBoundary guards r u) := by
  unfold regionAtBoundary
  exact regionLast_carry (fun _ => ho) (ite_carry (divideRegion_carry h) h)

theorem turn_caps {guards : List Bool} {r : Nat} {u : State} (hw : k.wait = false) (hc : k.caps = false) (ho : k.owed = false)
    (h : Calm k q o ((regionStart r u).modRegion r (Region.turn (u.cfg 0x6000 0 8)))) :
    Calm k q o (regionAtBoundary guards r u) := by
  refine turn_last ho ?_
  rw [regionFirst_eq]
  exact setpointAtBoundary_carry (capsAtBoundary_carry (fun _ => ⟨hw, hc, ho⟩) h)

/-- Nothing of the caps or of the groups is followed. -/
structure Keep.Plain (k : Keep) : Prop where
  wait   : k.wait = false
  caps   : k.caps = false
  owed   : k.owed = false
  slots  : k.slots = false
  free   : k.free = false
  groups : k.groups = false

theorem turn_start {guards : List Bool} {r : Nat} {u : State} (hk : k.Plain) (h : Calm k q o (activateModel r (grantsAtBoundary r u))) :
    Calm k q o (regionAtBoundary guards r u) :=
  turn_caps hk.wait hk.caps hk.owed (region_carry (demotionAtBoundary_carry h) fun _ => turn_carries hk.slots hk.free hk.groups)

end
end Sys2Proof.Machine
end

