-- ==== Sys2Proof/Proofs/BoundaryActs.lean ====
section
/-!
SUPPORT. What a boundary carries out: grants, rings, models, slots, caps (R48, R56, R118, R229, R246, R255, R271, R294).
-/

namespace Sys2Proof.Machine

/-! ### Grants at a boundary (R229, R246, R255) -/

section
variable {k : Keep} {q : Nat} {o s t : State}

/-- The words of a period and an epoch that agree name their grants (R19, R245). -/
theorem agreedSet_of_mem {now : Nat} {e : Word} {release : Bool} {ws : List (TreeWord × Bool)} {l : List Nat} {x : TreeWord}
    (hx : (x, release) ∈ ws) (hp : x.period.toNat = now) (he : x.epoch = e)
    (h : ∀ y ∈ ws, y.1.period.toNat = now → y.1.epoch = e → y.2 = release → y.1.indices = l) :
    agreedSet now e release ws = l := by
  have hall : ∀ y ∈ ws.filter (fun w => w.1.period.toNat == now && w.1.epoch == e && w.2 == release), y.1.indices = l := by
    intro y hy
    obtain ⟨hy, hc⟩ := List.mem_filter.1 hy
    simp only [Bool.and_eq_true, beq_iff_eq] at hc
    exact h y hy hc.1.1 hc.1.2 hc.2
  have hmem : (x, release) ∈ ws.filter (fun w => w.1.period.toNat == now && w.1.epoch == e && w.2 == release) :=
    List.mem_filter.2 ⟨hx, by simp [hp, he]⟩
  unfold agreedSet
  generalize ws.filter (fun w => w.1.period.toNat == now && w.1.epoch == e && w.2 == release) = fs at hall hmem
  cases fs with
  | nil => cases hmem
  | cons y rest =>
    have hy := hall y (List.mem_cons_self ..)
    dsimp only
    rw [if_pos, hy]
    exact List.all_eq_true.2 fun z hz => by simp [hall z (List.mem_cons_of_mem _ hz), hy]

theorem mem_dropResv {g : Region} {i : Nat} {v : Resv} (h : v ∈ (dropResv i g).resvs) : v ∈ g.resvs ∧ v.grant ≠ i := by
  unfold dropResv at h
  split at h
  · next hf => exact ⟨h, fun e => by simpa [e] using List.find?_eq_none.1 hf v h⟩
  · obtain ⟨h, hi⟩ := List.mem_filter.1 h
    exact ⟨h, by simpa using hi⟩

theorem mem_dropResvs {r : Nat} (l : List Nat) {v : Resv} {s : State}
    (h : v ∈ ((l.foldl (fun (a : State) i => a.modRegion r (dropResv i)) s).region r).resvs) :
    v ∈ (s.region r).resvs ∧ v.grant ∉ l := by
  induction l generalizing s with
  | nil => exact ⟨h, List.not_mem_nil⟩
  | cons i l ih =>
    obtain ⟨h, hl⟩ := ih h
    rw [State.modRegion_region_self] at h
    obtain ⟨h, hi⟩ := mem_dropResv h
    exact ⟨h, by simp [hi, hl]⟩

theorem mem_commitIndex {r i : Nat} {v : Resv} (h : v ∈ ((commitIndex r i s).region r).resvs) :
    ∃ v0 ∈ (s.region r).resvs, v0.grant = v.grant ∧ (v0.inForce = true → v.inForce = true) ∧
      (v.grant = i → v.inForce = true) := by
  unfold commitIndex at h
  split at h
  · next hf =>
    refine ⟨v, h, rfl, id, fun e => ?_⟩
    simpa [e] using List.find?_eq_none.1 hf v h
  · rw [State.modRegion_region_self] at h
    obtain ⟨v0, hv0, rfl⟩ := List.mem_map.1 h
    refine ⟨v0, hv0, ?_⟩
    split
    · exact ⟨rfl, fun _ => rfl, fun _ => rfl⟩
    · next hi => exact ⟨rfl, id, fun e => absurd e hi⟩

theorem mem_commits {r : Nat} (l : List Nat) {v : Resv} {s : State}
    (h : v ∈ ((l.foldl (fun a i => commitIndex r i a) s).region r).resvs) :
    ∃ v0 ∈ (s.region r).resvs, v0.grant = v.grant ∧ (v0.inForce = true → v.inForce = true) ∧
      (v.grant ∈ l → v.inForce = true) := by
  induction l generalizing s with
  | nil => exact ⟨v, h, rfl, id, nofun⟩
  | cons i l ih =>
    obtain ⟨v1, h1, e1, f1, c1⟩ := ih h
    obtain ⟨v0, h0, e0, f0, c0⟩ := mem_commitIndex h1
    refine ⟨v0, h0, e0.trans e1, f1 ∘ f0, fun hm => ?_⟩
    rcases List.mem_cons.1 hm with e | hm
    · exact f1 (c0 (e1.trans e))
    · exact c1 hm

/-- What a region still holds after the grants of its boundary: nothing released or revoked, and what is committed is in force. -/
theorem mem_grantsAtBoundary {r : Nat} {v : Resv} (h : v ∈ ((grantsAtBoundary r s).region r).resvs) :
    (∃ v0 ∈ (s.region r).resvs, v0.grant = v.grant) ∧
    v.grant ∉ agreedSet s.now (s.gov r).epoch true (s.gov r).words ∧
    (∀ v0 ∈ (s.region r).resvs, v0.leaving = true → v0.grant ≠ v.grant) ∧
    (v.grant ∈ agreedSet s.now (s.gov r).epoch false (s.gov r).words → v.inForce = true) := by
  unfold grantsAtBoundary at h
  extract_lets before ws e now gone stale leaving held s1 s2 s3 s4 at h
  rw [State.modRegion_region_self] at h
  obtain ⟨v1, h1, e1, -, hc⟩ := mem_commits (s := s2) _ h
  have h2 : s2.regions = s1.regions := List.foldlRecOn (motive := fun a : State => a.regions = s1.regions) _ _ rfl fun _ ha _ _ => ha
  unfold State.region at h1
  rw [h2] at h1
  obtain ⟨h0, hn⟩ := mem_dropResvs (s := s) (r := r) _ h1
  rw [List.mem_append, not_or, e1] at hn
  refine ⟨⟨v1, h0, e1⟩, hn.1, fun v0 hv0 hl hg => hn.2 ?_, hc⟩
  exact List.mem_map.2 ⟨v0, List.mem_filter.2 ⟨hv0, hl⟩, hg⟩

/-- The reservations that a region holds after its turn are those after its grants. -/
theorem mem_resvs_of_calm {v : Resv} (hk : k.resvs = true) (hc : Calm k q s t) (h : v ∈ (t.region q).resvs) :
    ∃ v0 ∈ (s.region q).resvs, v0.grant = v.grant ∧ v0.inForce = v.inForce ∧ v0.leaving = v.leaving := by
  have hm := List.mem_map_of_mem (f := Resv.key) h
  rw [hc.region.resvs hk] at hm
  obtain ⟨v0, h0, e⟩ := List.mem_map.1 hm
  simp only [Resv.key, Prod.mk.injEq] at e
  exact ⟨v0, h0, e⟩

/-- The reservations, the words and the epoch of a region are followed. -/
def Keep.ofGrants : Keep := { Keep.none with gov := true, resvs := true }

/-- The reservations of a region are followed. -/
def Keep.ofResvs : Keep := { Keep.none with resvs := true }

theorem Keep.ofGrants_before (p : BitVec 48) (s : State) : Keep.ofGrants.Before p s := ⟨rfl, rfl, rfl, nofun⟩

theorem Keep.ofResvs_plain : Keep.ofResvs.Plain := ⟨rfl, rfl, rfl, rfl, rfl, rfl⟩

/-- What a region holds after a boundary: nothing released or revoked, and what is committed is in force (R229, R246, R255). -/
theorem mem_resvs_boundary {inp : BoundaryInput} {v : Resv} (hs : PlainBoundary s) (hq : q < 64)
    (h : v ∈ ((journaled (controlPeriod inp) s).region q).resvs) :
    v.grant ∉ agreedSet (s.period + 1).toNat (s.gov q).epoch true (s.gov q).words ∧
    (∃ v0 ∈ (s.region q).resvs, v0.grant = v.grant ∧ v0.leaving = false) ∧
    (v.grant ∈ agreedSet (s.period + 1).toNat (s.gov q).epoch false (s.gov q).words → v.inForce = true) := by
  obtain ⟨u, hu, hw⟩ := boundary_split (inp := inp) hs hq
  have hbefore : Calm .ofGrants q (nextPeriod s) u := (regionsEnd_carry (.refl _ q _)).trans (hu .ofGrants 0 (Keep.ofGrants_before _ s))
  have hafter : Calm .ofResvs q (grantsAtBoundary q u) (journaled (controlPeriod inp) s) :=
    (turn_start Keep.ofResvs_plain (activateModel_carry (fun _ => rfl) (.refl _ q _))).trans (hw .ofResvs rfl rfl)
  obtain ⟨v1, h1, eg, ef, -⟩ := mem_resvs_of_calm rfl hafter h
  obtain ⟨⟨v2, h2, e2⟩, hrel, hleave, hcom⟩ := mem_grantsAtBoundary h1
  obtain ⟨hwords, hepoch⟩ := hbefore.gov rfl
  have hnow : u.now = (s.period + 1).toNat := congrArg BitVec.toNat hbefore.time.1
  rw [hwords, hepoch, hnow, eg] at hrel hcom
  rw [ef] at hcom
  obtain ⟨v3, h3, e3, -, hl⟩ := mem_resvs_of_calm rfl hbefore h2
  refine ⟨hrel, ⟨v3, h3, e3.trans (e2.trans eg), ?_⟩, hcom⟩
  rw [hl]
  exact Bool.eq_false_iff.2 fun hleft => hleave v2 h2 hleft e2

/-- After a command the state of the next boundary has `p`. -/
def AtBoundary (inp : BoundaryInput) (s : State) (c : Instr) (p : State → Prop) : Prop :=
  ∃ t w, exec c s = .next t ∧ exec (.controlPeriodBoundary inp) t = .next w ∧ p w

theorem atBoundary_of {inp : BoundaryInput} {c : Instr} {p : State → Prop} (h : exec c s = .next t)
    (hp : p (journaled (controlPeriod inp) t)) : AtBoundary inp s c p := ⟨t, _, h, rfl, hp⟩

/-- A revoked grant is gone with the boundary (R229). -/
theorem revocation_boundary {inp : BoundaryInput} {r : RegionId} {hdr : MsgHdr} {i : Nat} (hs : PlainBoundary s)
    (ha : Accepted s r 0x03 hdr) : AtBoundary inp s (.revocation r hdr i) (fun w => ∀ v ∈ (w.region r).resvs, v.grant ≠ i) := by
  refine atBoundary_of (congrArg Host.Outcome.next (govAccept_eq (markRevoked r i) id ha)) fun v hv e => ?_
  obtain ⟨-, ⟨v0, h0, hg, hl⟩, -⟩ := mem_resvs_boundary (s := markRevoked r i (s.noted r 0x03 hdr)) hs r.isLt hv
  unfold markRevoked at h0
  rw [State.modRegion_region_self] at h0
  obtain ⟨v1, -, rfl⟩ := List.mem_map.1 h0
  split at hl
  · cases hl
  · next hne => rw [if_neg hne] at hg; exact hne (hg.trans e)

/-- The grants that the words of the next period name, once a word of it is kept (R19, R245, R255). -/
theorem agreedSet_kept {r : Nat} {release : Bool} {x : TreeWord} (he : x.epoch = (s.gov r).epoch) (hp : x.period = s.period + 1)
    (h : ∀ y ∈ (s.gov r).words, y.1.period = x.period → y.1.epoch = x.epoch → y.2 = release → y.1.indices = x.indices) :
    agreedSet (s.period + 1).toNat (s.gov r).epoch release ((s.gov r).words ++ [(x, release)]) = x.indices := by
  refine agreedSet_of_mem (x := x) (List.mem_append_right _ (List.mem_singleton_self _)) (congrArg _ hp) he fun y hy hyp hye hyr => ?_
  rcases List.mem_append.1 hy with hy | hy
  · exact h y hy ((BitVec.eq_of_toNat_eq hyp).trans hp.symm) (hye.trans he.symm) hyr
  · rw [List.mem_singleton.1 hy]

/-- A committed grant is in force with the boundary of its period (R246). -/
theorem commitWord_boundary {inp : BoundaryInput} {r : RegionId} {x : TreeWord} (hs : PlainBoundary s)
    (hr : x.root = (s.gov r).root) (hc : x.checkOk = true) (he : x.epoch = (s.gov r).epoch) (hp : x.period = s.period + 1)
    (h : ∀ y ∈ (s.gov r).words, y.1.period = x.period → y.1.epoch = x.epoch → y.2 = false → y.1.indices = x.indices) :
    AtBoundary inp s (.commitWord r x) (fun w => ∀ v ∈ (w.region r).resvs, v.grant ∈ x.indices → v.inForce = true) := by
  refine atBoundary_of (congrArg Host.Outcome.next (treeWord_kept _ hr hc (.inl he))) fun v hv hi => ?_
  obtain ⟨-, -, hf⟩ := mem_resvs_boundary (s := s.modGov r _) hs r.isLt hv
  rw [State.modGov_gov_self] at hf
  exact hf (by rwa [State.modGov_period, agreedSet_kept he hp h])

/-- A released grant is gone with the boundary of its period (R255). -/
theorem releaseWord_boundary {inp : BoundaryInput} {r : RegionId} {x : TreeWord} (hs : PlainBoundary s)
    (hr : x.root = (s.gov r).root) (hc : x.checkOk = true) (he : x.epoch = (s.gov r).epoch) (hp : x.period = s.period + 1)
    (h : ∀ y ∈ (s.gov r).words, y.1.period = x.period → y.1.epoch = x.epoch → y.2 = true → y.1.indices = x.indices) :
    AtBoundary inp s (.releaseWord r x) (fun w => ∀ v ∈ (w.region r).resvs, v.grant ∉ x.indices) := by
  refine atBoundary_of (congrArg Host.Outcome.next (treeWord_kept _ hr hc (.inl he))) fun v hv hi => ?_
  obtain ⟨hf, -⟩ := mem_resvs_boundary (s := s.modGov r _) hs r.isLt hv
  rw [State.modGov_gov_self] at hf
  exact hf (by rwa [State.modGov_period, agreedSet_kept he hp h])

end

/-! ### Restarted rings at a boundary (R294) -/

section
variable {k : Keep} {q : Nat} {o s t : State}

/-- The restart asked of the rings alone is followed. -/
def Keep.ofAsked : Keep := { Keep.none with asked := true }

/-- Rings that stand at 0 are followed. -/
def Keep.ofRings : Keep := { Keep.none with rings := true }

theorem Keep.ofRings_outside : Keep.ofRings.Outside := ⟨rfl, rfl, rfl, rfl, rfl, rfl, rfl, rfl, rfl⟩

/-- After the restarts the boundary leaves a fresh ring fresh. -/
theorem boundary_fromRestarts {inp : BoundaryInput} (hs : PlainBoundary s) :
    Calm .ofRings q (applyRestarts (regionsEnd (nextPeriod s))) (journaled (controlPeriod inp) s) := by
  refine Calm.trans ?_ (boundary_tail hs rfl rfl)
  refine forRegions_carry (fun r a ha => regionAtBoundary_carry (fun _ => Keep.ofRings_outside) ha) ?_
  exact forRegions_carry (fun _ _ ha => refTree_carry ha) (voidSwitches_carry (p := 0) nofun
    (shadowsAtBoundary_carry rfl rfl (hubFirst_rest (p := 0) nofun (.refl _ q _))))

/-- A ring that was asked to restart stands at 0 after the boundary (R294). -/
theorem restart_boundary {inp : BoundaryInput} {j : Nat} (hs : PlainBoundary s) (hj : (s.ring j).restart = true) :
    RingFresh ((journaled (controlPeriod inp) s).ring j) := by
  have hask : Calm .ofAsked 0 (nextPeriod s) (regionsEnd (nextPeriod s)) := regionsEnd_carry (.refl _ _ _)
  exact ((boundary_fromRestarts (q := 0) hs).ring j).1 rfl (applyRestarts_fresh ((hask.ring j).2 rfl hj))

theorem PlainBoundary.asked (h : PlainBoundary s) (ks : List Nat) : PlainBoundary (journaled (bothHubs (askRestart ks)) s) := by
  obtain ⟨hc, hr, hp⟩ := h
  refine ⟨?_, ?_, ?_⟩
  · rw [journaled_clk, show (bothHubs (askRestart ks) s).clk = (askRestart ks s).clk from rfl, askRestart_eq]
    exact hc
  · rw [journaled_pow, show (bothHubs (askRestart ks) s).pow = (askRestart ks s).pow from rfl, askRestart_eq]
    exact hr
  · rw [(journaled_claims _ s).1, show (bothHubs (askRestart ks) s).pair.claims = (askRestart ks s).pair.claims from rfl, askRestart_eq]
    exact hp

/-- The rings that a RESTART names stand at 0 with their flags clear after the next boundary. -/
theorem asked_boundary {inp : BoundaryInput} {c : Instr} {ks : List Nat} (hs : PlainBoundary s) (hr : s.pow.regOpen = true)
    (hn : ks.Nodup) (hc : exec c s = .next (journaled (bothHubs (askRestart ks)) s)) :
    AtBoundary inp s c (fun w => ∀ j ∈ ks, RingFresh (w.ring j)) := by
  refine atBoundary_of hc fun j hj => restart_boundary (hs.asked ks) ?_
  have h := askRestart_ring hr hn j
  rw [if_pos hj] at h
  unfold State.ring at h ⊢
  rw [journaled_hub, show (bothHubs (askRestart ks) s).hub = (askRestart ks s).hub from rfl, h]

theorem AtBoundary.imp {inp : BoundaryInput} {c : Instr} {p p' : State → Prop} (h : AtBoundary inp s c p) (hp : ∀ w, p w → p' w) :
    AtBoundary inp s c p' := by
  obtain ⟨t, w, ht, hw, h⟩ := h
  exact ⟨t, w, ht, hw, hp w h⟩

end

/-! ### A model switch and a slot's release at a boundary (R118, R271) -/

section
variable {k : Keep} {q : Nat} {o s t : State}

/-- The learned cost of a region is followed. -/
def Keep.ofSage : Keep := { Keep.none with sage := true }

theorem Keep.ofSage_plain : Keep.ofSage.Plain := ⟨rfl, rfl, rfl, rfl, rfl, rfl⟩

theorem Spoken.of_calm {m : Msg} (h : Spoken s m) (hc : Calm k q s t) : Spoken t m := by
  obtain ⟨x, hx⟩ := h
  exact ⟨x, hc.out hx⟩

theorem spoken_send (s : State) (m : Msg) : Spoken (s.send m) m := ⟨_, List.mem_append_right _ (List.mem_singleton_self _)⟩

theorem setModel_sage (g : Region) (m : ModelState) : (g.setModel m).sage.model = m ∧ (g.setModel m).sage.loadBuf = g.sage.loadBuf := by
  unfold Region.setModel
  split
  · next h => exact ⟨h, rfl⟩
  · exact ⟨rfl, rfl⟩

/-- A model whose switch names the period is active, with the image it was sent, and acknowledged (R118). -/
theorem activateModel_now {r : Nat} {p : BitVec 48} (h : (s.region r).sage.switchAt = some p) (hp : p.toNat = s.now) :
    ((activateModel r s).region r).sage.model = .active ∧
    ((activateModel r s).region r).sage.weights = (s.region r).sage.loadBuf ∧
    ((activateModel r s).region r).sage.switchAt = none ∧ Spoken (activateModel r s) (.modelAck r) := by
  unfold activateModel
  split
  · next e => rw [h] at e; cases e
  · next p' e =>
    rw [h] at e
    cases e
    rw [if_pos hp]
    refine ⟨?_, ?_, ?_, spoken_send _ _⟩
    all_goals rw [send_region, State.modRegion_region_self]
    · exact (setModel_sage _ _).1
    · rfl
    · rfl

theorem modelSwitch_boundary {inp : BoundaryInput} {p : BitVec 48} (hs : PlainBoundary s) (hq : q < 64) (ha : AllHeard p s)
    (hp : p = s.period + 1) (h : (s.region q).sage.switchAt = some p) :
    let w := journaled (controlPeriod inp) s
    (w.region q).sage.model = .active ∧ (w.region q).sage.weights = (s.region q).sage.loadBuf ∧
      (w.region q).sage.switchAt = none ∧ Spoken w (.modelAck q) := by
  intro w
  obtain ⟨u, hu, hw⟩ := boundary_split (inp := inp) hs hq
  have hbefore : Calm .ofSage q (nextPeriod s) (grantsAtBoundary q u) := grantsAtBoundary_carry (fun _ => ⟨rfl, rfl⟩)
    ((regionsEnd_carry (.refl _ q _)).trans (hu .ofSage p ⟨rfl, rfl, rfl, fun _ => ⟨ha, hp⟩⟩))
  have hafter : Calm .ofSage q (activateModel q (grantsAtBoundary q u)) w :=
    (turn_start Keep.ofSage_plain (.refl _ q _)).trans (hw .ofSage rfl rfl)
  obtain ⟨-, -, hbuf, hsw⟩ := hbefore.region.sage rfl
  obtain ⟨hmodel, hweights, -, hswitch⟩ := hafter.region.sage rfl
  obtain ⟨h1, h2, h3, h4⟩ := activateModel_now (r := q) (hsw.trans h) (by
    unfold State.now
    rw [hbefore.time.1, hp]
    rfl)
  exact ⟨hmodel.trans h1, hweights.trans (h2.trans hbuf), hswitch.trans h3, h4.of_calm hafter⟩

/-! ### Slots -/

/-- The slots of a region are followed, and then its groups too. -/
def Keep.ofSlots : Keep := { Keep.none with slots := true }
def Keep.ofGroups : Keep := { Keep.none with slots := true, groups := true }

theorem group_modifyAll {ks : List Nat} {f : Nat → Cluster → Cluster} {m : SMap Cluster} {c : Nat} {x : Option Nat} (hc : c ∈ ks)
    (hf : ∀ u, (f c u).ctl.group = x) : ((m.modifyAll ks f).get c).ctl.group = x := by
  induction ks generalizing m with
  | nil => cases hc
  | cons j rest ih =>
    by_cases hr : c ∈ rest
    · exact ih hr
    · obtain rfl : c = j := (List.mem_cons.1 hc).resolve_right hr
      have e : m.modifyAll (c :: rest) f = (m.modify c (f c)).modifyAll rest f := rfl
      rw [e, SMap.get_modifyAll_ne _ _ _ hr, SMap.get_modify_self]
      exact hf _

/-- A closing slot is gone at the boundary, and no member of it is in its group, if no open slot has its group (R271). -/
theorem slotsAtBoundary_gone {g : Region} {gid : Nat} (h : ∀ x ∈ g.slots, x.gid = gid → x.closing = true) :
    (∀ x ∈ (slotsAtBoundary g).slots, x.gid ≠ gid) ∧
    ∀ x ∈ g.slots, x.gid = gid → x.written = true → ∀ c ∈ x.members,
      ((slotsAtBoundary g).clusters.get c).ctl.group ≠ some gid := by
  unfold slotsAtBoundary
  extract_lets gone left m
  refine ⟨fun x hx e => ?_, fun x hx e hw c hc => ?_⟩
  · obtain ⟨y, hy, hxy⟩ := List.mem_filterMap.1 hx
    obtain ⟨hy, hopen⟩ := List.mem_filter.1 hy
    split at hxy
    · cases hxy
    · cases hxy
      simp [h y hy e] at hopen
  · have hgone : c ∈ gone := List.mem_flatMap.2 ⟨x, List.mem_filter.2 ⟨hx, by simp [h x hx e, hw]⟩, hc⟩
    have hleft : (m.get c).ctl.group = left c := group_modifyAll hgone fun _ => rfl
    rw [hleft]
    intro hl
    obtain ⟨y, hy, hyg⟩ := Option.map_eq_some_iff.1 hl
    have hopen := List.find?_some hy
    simp [h y (List.mem_of_find?_eq_some hy) hyg] at hopen

theorem slot_of_keys {l l' : List GSlot} (h : l'.map GSlot.key = l.map GSlot.key) {x : GSlot} (hx : x ∈ l') :
    ∃ y ∈ l, y.gid = x.gid ∧ y.members = x.members ∧ y.written = x.written ∧ y.closing = x.closing := by
  have hm := List.mem_map_of_mem (f := GSlot.key) hx
  rw [h] at hm
  obtain ⟨y, hy, e⟩ := List.mem_map.1 hm
  simp only [GSlot.key, Prod.mk.injEq] at e
  exact ⟨y, hy, e⟩

theorem turn_slots (least : Nat) (g : Region) : (g.turn least).slots = (slotsAtBoundary g).slots := rfl

theorem turn_clusters (least : Nat) (g : Region) : (g.turn least).clusters = (slotsAtBoundary g).clusters := rfl

theorem slotRelease_boundary {inp : BoundaryInput} {gid : Nat} (hs : PlainBoundary s) (hq : q < 64)
    (h : ∀ x ∈ (s.region q).slots, x.gid = gid → x.closing = true) :
    let w := journaled (controlPeriod inp) s
    (∀ x ∈ (w.region q).slots, x.gid ≠ gid) ∧
      ∀ x ∈ (s.region q).slots, x.gid = gid → x.written = true → ∀ c ∈ x.members,
        ((w.region q).clusters.get c).ctl.group ≠ some gid := by
  intro w
  obtain ⟨u, hu, hw⟩ := boundary_split (inp := inp) hs hq
  have hbefore : Calm .ofSlots q (nextPeriod s) (regionStart q u) := regionStart_carry (fun _ => ⟨rfl, rfl, rfl⟩)
    ((regionsEnd_carry (.refl _ q _)).trans (hu .ofSlots 0 ⟨rfl, rfl, rfl, nofun⟩))
  have hafter : Calm .ofGroups q ((regionStart q u).modRegion q (Region.turn (u.cfg 0x6000 0 8))) w :=
    (turn_caps rfl rfl rfl (.refl _ q _)).trans (hw .ofGroups rfl rfl)
  have hslots : (((regionStart q u).region q).slots).map GSlot.key = (s.region q).slots.map GSlot.key := hbefore.region.slots rfl
  obtain ⟨hgone, hfree⟩ := slotsAtBoundary_gone (g := (regionStart q u).region q) (gid := gid) fun x hx e => by
    obtain ⟨y, hy, eg, -, -, ec⟩ := slot_of_keys hslots hx
    exact ec ▸ h y hy (eg.trans e)
  have hkeys := hafter.region.slots rfl
  have hgroups := hafter.region.groups rfl
  rw [State.modRegion_region_self, turn_slots] at hkeys
  rw [State.modRegion_region_self, turn_clusters] at hgroups
  refine ⟨fun x hx e => ?_, fun x hx e hwr c hc => ?_⟩
  · obtain ⟨y, hy, eg, -⟩ := slot_of_keys hkeys hx
    exact hgone y hy (eg.trans e)
  · obtain ⟨y, hy, eg, em, ew, -⟩ := slot_of_keys hslots.symm hx
    rw [hgroups c]
    exact hfree y hy (eg.trans e) (ew.trans hwr) c (em ▸ hc)

end

/-! ### A cap and an emergency preset at a boundary (R47, R48, R56) -/

section
variable {k : Keep} {q : Nat} {o s t : State}

/-- What waits for the boundary is followed, with the slots and the clusters' freedom from groups. -/
def Keep.ofWait : Keep := { Keep.none with wait := true, slots := true, free := true }

/-- The cap in force is followed. -/
def Keep.ofCaps : Keep := { Keep.none with wait := true, caps := true }

/-- The cap in force is followed, with the acknowledgement owed and the clusters' freedom from groups. -/
def Keep.ofOwed : Keep := { Keep.none with wait := true, caps := true, owed := true, free := true }

/-- The clusters' freedom from groups is followed alone. -/
def Keep.ofFree : Keep := { Keep.none with free := true }

/-- With no cluster in a group none is above its group's code. -/
theorem NoGroups.not_tight {m : SMap Cluster} (h : NoGroups m) (n : Nat) (f : Nat → Nat) :
    m.any n (fun u => !u.ctl.spared && u.tight f) = false := by
  have ht (u : Cluster) (hu : u.ctl.group = none) : bitNat (!u.ctl.spared && u.tight f) = 0 := by
    simp [Cluster.tight, hu, bitNat]
  have hsum : ((m.listed n).map (fun p => bitNat (!p.2.ctl.spared && p.2.tight f))).sum = 0 := by
    refine List.sum_eq_zero fun x hx => ?_
    obtain ⟨p, hp, rfl⟩ := List.mem_map.1 hx
    exact ht _ (h.2 p (List.mem_of_mem_filter hp))
  simp [SMap.any, SMap.count, SMap.sum, ht _ h.1, hsum]

/-- The default of a map is the element of some index. -/
theorem SMap.exists_dflt {α : Type} (m : SMap α) : ∃ c, m.get c = m.dflt := by
  obtain ⟨c, hc⟩ := Infinite.exists_notMem_finset (m.cells.map Prod.fst).toFinset
  exact ⟨c, SMap.get_of_notMem fun h => hc (List.mem_toFinset.2 h)⟩

theorem endPeriod_noGroups {g : Region} {rise : Nat} {learned : Bool} (h : ∀ c, (g.clusters.get c).ctl.group = none) :
    NoGroups (g.endPeriod rise learned).clusters := by
  obtain ⟨c, hc⟩ := SMap.exists_dflt g.clusters
  exact .mapAll (hc ▸ h c) h fun _ => rfl

/-- Groups are followed alone. -/
def Keep.ofMembers : Keep := { Keep.none with groups := true }

theorem regionsEnd_noGroups (hq : q < 64) (h : ∀ c, ((s.region q).clusters.get c).ctl.group = none) :
    NoGroups ((regionsEnd s).region q).clusters := by
  obtain ⟨u, hu⟩ := forRegions_split regionEnds hq s
  have hother (k : Keep) (r : Nat) (o a : State) (_ : r ≠ q) (ha : Calm k q o a) : Calm k q o (regionEnds r a) := regionEnds_carry ha
  have hbefore := (hu .ofMembers (hother _)).1.region.groups rfl
  refine (hu .ofWait (hother _)).2.region.free rfl (regionEnds_rest.region.free (k := .ofWait) rfl ?_)
  rw [State.modRegion_region_self]
  exact endPeriod_noGroups fun c => (hbefore c).trans (h c)

theorem caps_of_calm (h : Calm .ofOwed q s t) : (t.region q).caps.waiting = (s.region q).caps.waiting ∧
    (t.region q).caps.ecapWait = (s.region q).caps.ecapWait ∧ (t.region q).caps.ackOwed = (s.region q).caps.ackOwed ∧
    (t.region q).caps.iReg = (s.region q).caps.iReg :=
  ⟨(h.region.wait rfl).1, (h.region.caps rfl).2, h.region.owed rfl, (h.region.caps rfl).1⟩

/-- What a cap and a preset that wait become at the boundary (R47, R56). -/
structure Caps.Landed (c c' : Caps) : Prop where
  waiting  : c'.waiting = none
  ecapWait : c'.ecapWait = none
  owed     : c.waiting.isSome = true → c'.ackOwed = true
  cap      : ∀ x, c.waiting = some x → c'.iReg ≤ x.1
  preset   : ∀ p, c.ecapWait = some p → c'.iReg ≤ p

theorem capAtBoundary_landed (r : Nat) (s : State) : (s.region r).caps.Landed ((capAtBoundary r s).region r).caps := by
  unfold capAtBoundary
  extract_lets c i0 i1 t
  have hi1 : (∀ x, c.waiting = some x → i1 ≤ x.1) ∧ ∀ p, c.ecapWait = some p → i1 ≤ p := by
    unfold i1 i0
    rcases c.waiting with _ | ⟨x, b⟩ <;> rcases c.ecapWait with _ | p
    · exact ⟨nofun, nofun⟩
    · exact ⟨nofun, fun p' hp => by cases hp; exact Nat.min_le_right ..⟩
    · refine ⟨fun x' hx => ?_, nofun⟩
      cases hx
      dsimp only [Option.isSome]
      rw [if_neg Bool.false_ne_true]
      split
      · exact Nat.min_le_left ..
      · exact le_rfl
    · refine ⟨fun x' hx => ?_, fun p' hp => ?_⟩
      · cases hx
        exact Nat.min_le_right ..
      · cases hp
        exact (Nat.min_le_left ..).trans (Nat.min_le_right ..)
  have ht : c.Landed (t.region r).caps := by
    unfold t
    rw [State.modRegion_region_self]
    refine ⟨rfl, rfl, fun h => ?_, fun x hx => ?_, fun p hp => ?_⟩
    · simpa [c] using Or.inr h
    · exact (Nat.min_le_left ..).trans (hi1.1 x hx)
    · exact (Nat.min_le_left ..).trans (hi1.2 p hp)
  have hl : Calm .ofOwed r t (clearLatch r t) := clearLatch_carry (.refl _ r t)
  obtain ⟨e1, e2, e3, e4⟩ := caps_of_calm hl
  have hcl : c.Landed ((clearLatch r t).region r).caps :=
    ⟨e1.trans ht.waiting, e2.trans ht.ecapWait, fun h => e3.trans (ht.owed h), fun x hx => e4 ▸ ht.cap x hx,
      fun p hp => e4 ▸ ht.preset p hp⟩
  split
  · split
    · exact ht
    · exact hcl
  · exact ht

/-- Phases taken out of service lower the cap at most (R229). -/
theorem derateAtBoundary_caps (r : Nat) (s : State) :
    let c := (s.region r).caps
    let c' := ((derateAtBoundary r s).region r).caps
    c'.waiting = c.waiting ∧ c'.ecapWait = c.ecapWait ∧ c'.ackOwed = c.ackOwed ∧ c'.iReg ≤ c.iReg := by
  intro c c'
  unfold c' derateAtBoundary
  extract_lets due m t u
  have hu : Calm .ofOwed r t u := abandonRounds_carry (abandonNow_carry (raiseRoll_carry (.refl _ r t)))
  have ht : (t.region r).caps.waiting = c.waiting ∧ (t.region r).caps.ecapWait = c.ecapWait ∧
      (t.region r).caps.ackOwed = c.ackOwed ∧ (t.region r).caps.iReg ≤ c.iReg := by
    unfold t
    rw [State.modRegion_region_self]
    exact ⟨rfl, rfl, rfl, Nat.min_le_left ..⟩
  have hend {v : State} (hv : Calm .ofOwed r t v) : (v.region r).caps.waiting = c.waiting ∧ (v.region r).caps.ecapWait = c.ecapWait ∧
      (v.region r).caps.ackOwed = c.ackOwed ∧ (v.region r).caps.iReg ≤ c.iReg := by
    obtain ⟨e1, e2, e3, e4⟩ := caps_of_calm hv
    exact ⟨e1.trans ht.1, e2.trans ht.2.1, e3.trans ht.2.2.1, e4 ▸ ht.2.2.2⟩
  split
  · exact ⟨rfl, rfl, rfl, le_rfl⟩
  · exact hend (ite_carry (suspendTimers_carry hu) hu)

/-- A cap that is owed its acknowledgement is acknowledged where no group's tightening can wait (R48, R278). -/
theorem ackCap_spoken {r : Nat} (ho : (s.region r).caps.ackOwed = true) (hg : NoGroups (s.region r).clusters) :
    Spoken (ackCap r s) (.capAck r (s.region r).caps.iReg) := by
  unfold ackCap
  dsimp only
  rw [if_pos ⟨ho, hg.not_tight _ _⟩]
  exact spoken_send _ _

theorem Caps.Landed.lower {c c' c'' : Caps} (h : c.Landed c') (hw : c''.waiting = c'.waiting) (he : c''.ecapWait = c'.ecapWait)
    (ho : c''.ackOwed = c'.ackOwed) (hi : c''.iReg ≤ c'.iReg) : c.Landed c'' :=
  ⟨hw.trans h.waiting, he.trans h.ecapWait, fun e => ho.trans (h.owed e), fun x hx => hi.trans (h.cap x hx),
    fun p hp => hi.trans (h.preset p hp)⟩

theorem Caps.Landed.of_calm {c : Caps} (h : c.Landed (s.region q).caps) (hc : Calm .ofOwed q s t) : c.Landed (t.region q).caps := by
  obtain ⟨hw, he, ho, hi⟩ := caps_of_calm hc
  exact h.lower hw he ho hi.le

theorem capsAtBoundary_landed {r : Nat} (hw : s.pow.waferRun = true) :
    (s.region r).caps.Landed ((capsAtBoundary r s).region r).caps ∧
      (NoGroups (s.region r).clusters → NoGroups ((capsAtBoundary r s).region r).clusters) := by
  have hl := capAtBoundary_landed r s
  have hpreset : presetCap r (capAtBoundary r s) = capAtBoundary r s :=
    if_pos (.inr ((capAtBoundary_carry (k := .none) (fun _ => ⟨rfl, rfl, rfl⟩) (.refl _ r s)).time.2.2.trans hw))
  obtain ⟨ew, ee, eo, ei⟩ := derateAtBoundary_caps r (capAtBoundary r s)
  refine ⟨?_, ?_⟩
  · unfold capsAtBoundary
    extract_lets before t
    have ht : Calm .ofOwed r (derateAtBoundary r (capAtBoundary r s)) t := by
      unfold t
      rw [hpreset]
      exact markFirst_carry (.refl _ r _)
    exact (hl.lower ew ee eo ei).of_calm (ite_carry (spec_carry ht) ht)
  · exact (capsAtBoundary_carry (k := .ofFree) (fun _ => ⟨rfl, rfl, rfl⟩) (.refl _ r s)).region.free rfl

/-- The acknowledgement of a cap within the end of a region's turn. -/
theorem regionLast_split (r : Nat) (commits : List Nat) (s : State) :
    ∃ t, Calm .ofOwed r s t ∧ Calm .ofCaps r (ackCap r t) (regionLast r commits s) := by
  unfold regionLast
  extract_lets t u v
  have ht : Calm .ofOwed r s t := ite_carry (sendSettings_carry (.refl _ r s)) (.refl _ r s)
  have hv : Calm .ofCaps r u v := ite_carry (sp_carry (.refl _ r u)) (.refl _ r u)
  exact ⟨_, releaseHolds_carry (reportCommits_carry (sendMR_carry ht)),
    pmbusAtBoundary_carry (startFrame_carry (resendErrors_carry hv))⟩

/-- A region's turn after its caps, with the acknowledgement of the cap. -/
theorem turn_split (guards : List Bool) (r : Nat) (u : State) : ∃ t,
    Calm .ofOwed r (capsAtBoundary r ((regionStart r u).modRegion r (Region.turn (u.cfg 0x6000 0 8)))) t ∧
    Calm .ofCaps r (ackCap r t) (regionAtBoundary guards r u) := by
  unfold regionAtBoundary
  extract_lets guard commits v w
  have hv : Calm .ofOwed r (capsAtBoundary r ((regionStart r u).modRegion r (Region.turn (u.cfg 0x6000 0 8)))) v := by
    unfold v
    rw [regionFirst_eq]
    exact setpointAtBoundary_carry (.refl _ r _)
  obtain ⟨t, ht, hw⟩ := regionLast_split r commits w
  exact ⟨t, (ite_carry (divideRegion_carry hv) hv).trans ht, hw⟩

theorem turn_caps_eq (least : Nat) (g : Region) : (g.turn least).caps = g.caps := rfl

/-- A region without slots has none after its turn, and its clusters are those it had. -/
theorem turn_noSlots {least : Nat} {g : Region} (h : g.slots = []) : (g.turn least).clusters = g.clusters := by
  rw [turn_clusters]
  unfold slotsAtBoundary
  rw [h]
  rfl

/-- The cap that waits, and the preset, are in force after the boundary, and the cap is acknowledged where no group's tightening can
wait (R47, R48, R56). -/
theorem cap_boundary {inp : BoundaryInput} (hs : PlainBoundary s) (hq : q < 64) (hr : s.pow.waferRun = true) :
    let w := journaled (controlPeriod inp) s
    (w.region q).caps.waiting = none ∧ (w.region q).caps.ecapWait = none ∧
      (∀ x, (s.region q).caps.waiting = some x → (w.region q).caps.iReg ≤ x.1 ∧
        ((s.region q).slots = [] → (∀ c, ((s.region q).clusters.get c).ctl.group = none) →
          Spoken w (.capAck q (w.region q).caps.iReg))) ∧
      ∀ p, (s.region q).caps.ecapWait = some p → (w.region q).caps.iReg ≤ p := by
  intro w
  obtain ⟨u, hu, hw⟩ := boundary_split (inp := inp) hs hq
  have hends : Calm .ofWait q (nextPeriod s) (regionsEnd (nextPeriod s)) := regionsEnd_carry (.refl _ q _)
  have hstart : Calm .ofWait q (regionsEnd (nextPeriod s)) (regionStart q u) :=
    regionStart_carry (fun _ => ⟨rfl, rfl, rfl⟩) (hu .ofWait 0 ⟨rfl, rfl, rfl, nofun⟩)
  obtain ⟨hwait, hpreset⟩ := (hends.trans hstart).region.wait rfl
  obtain ⟨hl, hfree⟩ := capsAtBoundary_landed (s := (regionStart q u).modRegion q (Region.turn (u.cfg 0x6000 0 8))) (r := q)
    ((hends.trans hstart).time.2.2.trans hr)
  rw [State.modRegion_region_self, turn_caps_eq] at hl
  rw [State.modRegion_region_self] at hfree
  obtain ⟨t, ht, hack⟩ := turn_split (guardsOf s) q u
  have hcaps := hl.of_calm ht
  have hend : Calm .ofCaps q (ackCap q t) w := hack.trans (hw .ofCaps rfl rfl)
  have hown : Calm .ofCaps q t w := (ackCap_carry (fun _ => rfl) (.refl _ q t)).trans hend
  have hreg : (w.region q).caps.iReg = (t.region q).caps.iReg := (hown.region.caps rfl).1
  refine ⟨(hown.region.wait rfl).1.trans hcaps.waiting, (hown.region.caps rfl).2.trans hcaps.ecapWait,
    fun x hx => ⟨?_, fun hsl hg => ?_⟩, fun p hp => ?_⟩
  · exact hreg ▸ hcaps.cap x (hwait.trans hx)
  · rw [hreg]
    have howed : (t.region q).caps.ackOwed = true :=
      hcaps.owed (by rw [hwait, show ((nextPeriod s).region q).caps.waiting = some x from hx]; rfl)
    refine (ackCap_spoken howed ?_).of_calm hend
    refine ht.region.free rfl (hfree ?_)
    rw [turn_noSlots]
    · exact hstart.region.free rfl (regionsEnd_noGroups hq hg)
    · have hkeys := (hends.trans hstart).region.slots rfl
      rw [show ((nextPeriod s).region q).slots = [] from hsl] at hkeys
      exact List.map_eq_nil_iff.1 hkeys
  · obtain ⟨p', hp', hle⟩ := hpreset p hp
    exact hreg ▸ (hcaps.preset p' hp').trans hle

end
end Sys2Proof.Machine
end

