-- ==== Sys2Proof/Proofs/Boundary.lean ====
section
/-!
SUPPORT. A hub that takes control at a boundary; the counts; delivered shadows (R163, R384, R475).
-/

namespace Sys2Proof.Machine

/-! ### A hub that takes control at a boundary (R384) -/

section
variable {k : Keep} {q : Nat} {o s t : State}

theorem anyRings_carry {f : Rings → Rings} (hr : k.rings = false) (ha : k.asked = false) (h : Calm k q o s) : Calm k q o (s.modRings f) :=
  modRings_stands h fun _ => ⟨fun e => by simp [hr] at e, fun e => by simp [ha] at e⟩

theorem wrote_carry {j : Nat} {b : List Byte} (hr : k.rings = false) (ha : k.asked = false) (h : Calm k q o s) :
    Calm k q o (s.wrote j b) := by
  unfold State.wrote
  exact ite_carry (emit_carry (anyRings_carry hr ha (emit_carry (emit_carry h)))) (anyRings_carry hr ha (emit_carry (emit_carry h)))

theorem writeCompletion_carry (hr : k.rings = false) (ha : k.asked = false) (h : Calm k q o s) :
    Calm k q o (writeCompletion true s) := by
  unfold writeCompletion
  refine ite_carry h ?_
  split
  · exact h
  · dsimp only
    rw [if_pos rfl]
    exact anyRings_carry hr ha (wrote_carry hr ha h)

theorem rewriteCompletions_carry (hr : k.rings = false) (ha : k.asked = false) (h : Calm k q o s) :
    Calm k q o (rewriteCompletions s) := by
  unfold rewriteCompletions
  exact foldl_carry (fun _ _ h => writeCompletion_carry hr ha h) _
    (foldl_carry (fun _ _ h => ite_carry (settleDecision_carry (modGrant_carry h)) h) _ h)

theorem adoptGroups_carry (h : Calm k q o s) : Calm k q o (adoptGroups s) :=
  foldl_carry (fun _ _ ha => foldl_carry (fun _ _ hb => hubAsk_carry hb) _ ha) _ h

theorem adoptMailboxes_carry (h : Calm k q o s) : Calm k q o (adoptMailboxes s) := by
  unfold adoptMailboxes
  exact foldl_carry (fun _ _ ha => foldl_carry (fun _ _ hb => ite_carry (hubSend_carry hb) (hubAsk_carry hb)) _ ha) _
    (modHub_carry (modMb_carry h) rfl rfl)

theorem adoptWord_carry {c : Prop} [Decidable c] {p : BitVec 48} {i : Nat} {b : Bool} (h : Calm k q o s) :
    Calm k q o (if c then s.modThyme (Thyme.putWord p i b) else s) := ite_carry (modThyme_carry h) h

/-- A grant decided or in delivery, as its new owner takes it up (R251). -/
theorem adoptDecided_carry {c c' : Prop} [Decidable c] [Decidable c'] {p : BitVec 48} {i : Nat} {f f' : Grant → Grant} {m : Msg}
    (h : Calm k q o s) :
    Calm k q o (((if c' then settleDecision i
        ((if c then (s.modGrant i f).modThyme (Thyme.putWord p i true) else s.modGrant i f).modGrant i f')
      else (if c then (s.modGrant i f).modThyme (Thyme.putWord p i true) else s.modGrant i f)).hubAsk m)) :=
  hubAsk_carry (ite_carry (settleDecision_carry (modGrant_carry (adoptWord_carry (modGrant_carry h))))
    (adoptWord_carry (modGrant_carry h)))

theorem adoptGrant_carry {i : Nat} (h : Calm k q o s) : Calm k q o (adoptGrant i s) := by
  unfold adoptGrant
  dsimp only
  split
  · exact abandonRound_carry h
  · exact adoptDecided_carry h
  · exact adoptDecided_carry h
  · exact ite_carry (modThyme_carry (modGrant_carry h)) h
  · exact h

theorem adoptGrants_carry (h : Calm k q o s) : Calm k q o (adoptGrants s) := by
  unfold adoptGrants
  exact foldl_carry (fun _ _ ha => adoptGrant_carry ha) _ (modThyme_carry h)

theorem adoptStage_carry (h : Calm k q o s) : Calm k q o (adoptStage s) := by
  unfold adoptStage
  exact ite_carry h (foldl_carry (fun _ _ ha => hubAsk_carry ha) _ h)

theorem holdDrained_carry (h : Calm k q o s) : Calm k q o (holdDrained s) := by
  unfold holdDrained
  split
  · exact ite_carry (modCore_carry h) h
  · exact h

theorem revokeRegion_carry {r : Nat} (h : Calm k q o s) : Calm k q o (revokeRegion r s) := by
  unfold revokeRegion
  exact ite_carry (foldl_carry (fun _ _ ha => revokeGrant_carry ha) _ h) (modThyme_carry h)

theorem revokeLatched_carry (h : Calm k q o s) : Calm k q o (revokeLatched s) :=
  foldl_carry (fun _ _ ha => ite_carry (revokeRegion_carry (abandonRounds_carry ha)) ha) _ h

theorem adoptActivation_carry (h : Calm k q o s) : Calm k q o (adoptActivation s) :=
  switchStep_carry (waveStep_carry (holdDrained_carry h))

theorem recoverWork_carry {code : Nat} (hr : k.rings = false) (ha : k.asked = false) (h : Calm k q o s) :
    Calm k q o (recoverWork code s) := by
  unfold recoverWork
  extract_lets t u v w x
  have ht : Calm k q o t := adoptMailboxes_carry (adoptGroups_carry (rewriteCompletions_carry hr ha h))
  have hu : Calm k q o u := modLoads_carry (f := fun l => l.map ModelLoad.restart) ht fun l => by
    rw [List.map_map]
    exact List.Subset.refl _
  have hv : Calm k q o v := revokeLatched_carry (adoptGrants_carry (adoptStage_carry (adoptActivation_carry hu)))
  exact record_carry (modRecorder_carry (foldl_carry (fun _ _ ha => sendShadow_carry ha) _ hv))

theorem restartCore_carry {c : CoreId} {cause : Nat} (h : Calm k q o s) : Calm k q o (restartCore c cause s) := by
  cases c with
  | hub x i => exact restartHubCore_carry h
  | chive c => exact restartChive_carry h

theorem blockReset_carry {e : Event} (h : Calm k q o s) : Calm k q o (blockReset e s) := by
  unfold blockReset
  extract_lets t u
  have hu : Calm k q o u := ite_carry (modPair_carry (emit_carry h) rfl) (emit_carry h)
  refine ite_carry h ?_
  split
  · exact restartCore_carry hu
  · exact hu

theorem deliverNmi_carry {x : Hub} {src : Nat} (h : Calm k q o s) : Calm k q o (deliverNmi x src s) := by
  unfold deliverNmi
  exact ite_carry h (ite_carry (modHubOf_carry h) (ite_carry (emit_carry (modHubOf_carry h))
    (ite_carry (modHubOf_carry h) (modCore_carry h))))

theorem react_carry {x : Hub} {e : Event} {set : Nat} (h : Calm k q o s) : Calm k q o (react x e set s) := by
  unfold react
  extract_lets t held u v w y
  have ht : Calm k q o t := modHub_carry h rfl rfl
  have hu : Calm k q o u := ite_carry (hubEmit_carry ht) ht
  have hv : Calm k q o v := ite_carry (deliverNmi_carry hu) hu
  have hw : Calm k q o w := ite_carry (blockReset_carry hv) hv
  have hy : Calm k q o y := modPow_carry (modColl_carry hw) rfl
  exact ite_carry h (ite_carry (ite_carry hy (pin_carry hy)) hw)

theorem missingReactions_carry {x : Hub} (h : Calm k q o s) : Calm k q o (missingReactions x s) := by
  unfold missingReactions
  exact foldl_carry (fun _ _ ha => ite_carry (react_carry ha) ha) _ h

theorem startRegions_carry (h : Calm k q o s) : Calm k q o (startRegions s) := by
  refine foldl_carry (fun a r ha => ?_) _ h
  extract_lets b t u v w
  have hv : Calm k q o v := sendWord_carry (sendWord_carry (sendWord_carry (emit_carry ha)))
  exact hubSend_carry (startFrame_carry (sp_carry hv))

theorem answerReads_carry (h : Calm k q o s) : Calm k q o (answerReads s) := by
  unfold answerReads
  split
  · exact h
  · refine foldl_carry (fun _ _ ha => emit_carry ha) _ (h.of_same ⟨rfl, rfl, rfl⟩ rfl rfl (List.Subset.refl _) rfl rfl rfl)

theorem takeControl_carry (hr : k.rings = false) (ha : k.asked = false) (h : Calm k q o s) : Calm k q o (takeControl s) := by
  unfold takeControl
  extract_lets react v t u calm
  have hreact {a : State} (h : Calm k q o a) : Calm k q o (react a) := by
    unfold react
    split
    · exact missingReactions_carry h
    · exact h
  have hv : Calm k q o v := ite_carry (foldl_carry (fun _ _ h => emit_carry h) _ h) h
  clear_value react
  have ht : Calm k q o t := by
    unfold t
    split
    · exact foldl_carry (fun _ _ h => sendShadow_carry h) _ (startRegions_carry hv)
    · exact hreact (recoverWork_carry hr ha h)
    · exact hreact (recoverWork_carry hr ha h)
  exact answerReads_carry (modColl_carry (modColl_carry (modPair_carry ht rfl)))

theorem resendClaim_carry {r : Nat} (h : Calm k q o s) : Calm k q o (resendClaim s r) := by
  unfold resendClaim
  extract_lets mine
  split
  · exact h
  · exact emit_carry (h.of_same ⟨rfl, rfl, rfl⟩ rfl rfl (List.Subset.refl _) rfl rfl rfl)

theorem claims_carry (hr : k.rings = false) (ha : k.asked = false) (hc : k.claims = false) (h : Calm k q o s) :
    Calm k q o (claimAtBoundary s) := by
  unfold claimAtBoundary
  extract_lets t gone u v w
  have ht : Calm k q o t := modPair_carry h rfl
  have hv : Calm k q o v := modBudget_carry (modBudget_carry ht)
  have hw : Calm k q o w := hv.of_same ⟨rfl, rfl, rfl⟩ rfl rfl (List.Subset.refl _) rfl rfl rfl
  exact ite_carry h (ite_carry (foldl_carry (fun _ _ h => resendClaim_carry h) _ ht)
    (ite_carry (takeControl_carry hr ha (raise_carry (claimed_carry hc hw))) ht))

end

/-! ### What a boundary carries out (R48, R56, R118, R163, R229, R246, R255, R271, R294, R475) -/

section
variable {k : Keep} {q : Nat} {o s t : State} {inp : BoundaryInput}

/-- A boundary advances the period count by one and leaves the ticks (R163). -/
theorem boundary_counts (hc : s.clk.st ≠ .stopped) (hr : s.pow.rstLow = false) :
    (journaled (controlPeriod inp) s).period = s.period + 1 ∧ (journaled (controlPeriod inp) s).tick = s.tick := by
  have hstart : Calm .none 0 (nextPeriod s) (boundaryStart inp (regionsEnd (nextPeriod s))) :=
    (regionsEnd_carry (.refl _ _ _)).trans (turnsStart_carry (p := 0) ⟨rfl, rfl, rfl, nofun⟩)
  have hturns : Calm .none 0 (nextPeriod s) ((boundaryStart inp (regionsEnd (nextPeriod s))).forRegions
      (regionAtBoundary (guardsOf s))) :=
    forRegions_carry (fun r a ha => regionAtBoundary_carry (fun _ => ⟨rfl, rfl, rfl, rfl, rfl, rfl, rfl, rfl, rfl⟩) ha) hstart
  have hlast : Calm .none 0 (nextPeriod s) (controlPeriod inp s) := by
    rw [controlPeriod_turns hc hr, hubLast'_eq]
    exact subscribed_carry (answerQueries_carry (handoverAtBoundary_carry rfl (claims_carry rfl rfl rfl
      (boundaryEnd_carry rfl hturns))))
  have h := (hlast.trans (journaled_carry rfl)).time
  exact ⟨h.1, h.2.1⟩

theorem PlainBoundary.congr (h : PlainBoundary s) (hc : t.clk = s.clk) (hp : t.pow = s.pow) (hq : t.pair.claims = s.pair.claims) :
    PlainBoundary t := by
  obtain ⟨h1, h2, h3⟩ := h
  exact ⟨hc ▸ h1, hp ▸ h2, hq.trans h3⟩

theorem suspendTimers_frame (r : Nat) (s : State) : (suspendTimers r s).clk = s.clk ∧ (suspendTimers r s).pow = s.pow ∧
    (suspendTimers r s).pair = s.pair :=
  List.foldlRecOn (motive := fun t : State => t.clk = s.clk ∧ t.pow = s.pow ∧ t.pair = s.pair) _ _ ⟨rfl, rfl, rfl⟩
    fun _ ht _ _ => ht

theorem ecapBroadcast_frame (r preset : Nat) (s : State) : (ecapBroadcast r preset s).clk = s.clk ∧
    (ecapBroadcast r preset s).pow = s.pow ∧ (ecapBroadcast r preset s).pair = s.pair := by
  unfold ecapBroadcast
  extract_lets t u
  have hu : u.inside = s.inside := State.abandonNow_inside ..
  have hframe : u.clk = s.clk ∧ u.pow = s.pow ∧ u.pair = s.pair :=
    ⟨congrArg Inside.clk hu, congrArg Inside.pow hu, congrArg Inside.pair hu⟩
  obtain ⟨h1, h2, h3⟩ := suspendTimers_frame r u
  split
  · exact ⟨h1.trans hframe.1, h2.trans hframe.2.1, h3.trans hframe.2.2⟩
  · exact hframe

theorem capMessage_boundary {r : RegionId} {hdr : MsgHdr} {cap : Nat} {clear : Bool} (hs : PlainBoundary s)
    (ha : Accepted s r 0x40 hdr) (hr : s.pow.waferRun = true) : AtBoundary inp s (.capMessage r hdr cap clear) (fun w =>
      (w.region r).caps.iReg ≤ cap ∧ (w.region r).caps.waiting = none ∧
      ((s.region r).slots = [] → (∀ c, ((s.region r).clusters.get c).ctl.group = none) →
        Spoken w (.capAck r (w.region r).caps.iReg))) := by
  refine atBoundary_of (exec_capMessage ha cap clear) ?_
  obtain ⟨hw, -, hcap, -⟩ := cap_boundary (inp := inp) (s := (s.noted r 0x40 hdr).modRegion r (fun g => { g with caps := { g.caps with
    waiting := some (cap, clear || (g.caps.waiting.map Prod.snd).getD false), ecap := g.caps.ecap && s.hub.ecap.active } }))
    hs r.isLt hr
  rw [State.modRegion_region_self] at hcap
  obtain ⟨hle, hack⟩ := hcap _ rfl
  exact ⟨hle, hw, hack⟩

theorem emergency_boundary {r : RegionId} {hdr : MsgHdr} {preset : Nat} (hs : PlainBoundary s) (hg : hdr.goodTo true = true)
    (hr : s.pow.waferRun = true) : AtBoundary inp s (.emergencyCapBroadcast r hdr preset) (fun w =>
      (w.region r).caps.iReg ≤ preset ∧ (w.region r).caps.ecapWait = none) := by
  refine atBoundary_of (next_journaled_congr (g := ecapBroadcast r preset) (if_pos hg)) ?_
  obtain ⟨hc, hp, hq⟩ := ecapBroadcast_frame r preset s
  obtain ⟨-, he, -, hpre⟩ := cap_boundary (inp := inp) (s := journaled (ecapBroadcast r preset) s)
    (hs.congr (by rw [journaled_clk, hc]) (by rw [journaled_pow, hp]) (by rw [(journaled_claims _ s).1, hq])) r.isLt
    (by rw [journaled_pow, hp, hr])
  rw [journaled_region, (ecapBroadcast_keeps r preset s).1] at hpre
  refine ⟨(hpre _ rfl).trans ?_, he⟩
  cases (s.region r).caps.ecapWait with
  | none => exact le_rfl
  | some p => exact Nat.min_le_right ..

theorem modelSwitchMessage_boundary {r : RegionId} {hdr : MsgHdr} {p : BitVec 48} (hs : PlainBoundary s) (ha : Accepted s r 0x22 hdr)
    (hp : p = s.period + 1) (hlt : s.period.toNat < p.toNat)
    (hl : ∀ l ∈ s.hub.loads, ∀ k ∈ onesOf 64 l.mask.toNat, k = r.val ∨ (s.region k).sage.switchAt = some p) :
    AtBoundary inp s (.modelSwitch r hdr p) (fun w => (w.region r).sage.model = .active ∧
      (w.region r).sage.weights = (s.region r).sage.loadBuf ∧ (w.region r).sage.switchAt = none ∧ Spoken w (.modelAck r)) := by
  refine atBoundary_of ((exec_modelSwitch ha p).1 hlt) ?_
  have h := modelSwitch_boundary (inp := inp) (s := (s.noted r 0x22 hdr).modRegion r (fun g =>
    { g with sage := { g.sage with switchAt := some p } })) (q := r) (p := p) hs r.isLt (fun l hm j hj => ?_) hp
    (by rw [State.modRegion_region_self])
  · rw [State.modRegion_region_self] at h
    exact h
  · obtain hj | hj := hl l hm j hj
    · rw [hj, State.modRegion_region_self]
    · by_cases e : j = r.val
      · rw [e, State.modRegion_region_self]
      · rw [State.modRegion_region_ne _ _ e]
        exact hj

theorem slotReleaseMessage_boundary {r : RegionId} {hdr : MsgHdr} {gid : Fin 1024} (hs : PlainBoundary s) (ha : Accepted s r 0x17 hdr) :
    AtBoundary inp s (.groupSlotRelease r hdr gid) (fun w => (∀ x ∈ (w.region r).slots, x.gid ≠ gid) ∧
      ∀ x ∈ (s.region r).slots, x.gid = gid → x.written = true → ∀ c ∈ x.members,
        ((w.region r).clusters.get c).ctl.group ≠ some gid.val) := by
  refine atBoundary_of (next_congr (govAccept_eq _ _ ha)) ?_
  have hslots : (((s.noted r 0x17 hdr).modRegion r (fun g => g.modSlot gid (fun x => { x with closing := true }))).region r).slots =
      (s.region r).slots.map (fun x => if x.gid = gid.val ∧ x.closing = false then { x with closing := true } else x) := by
    rw [State.modRegion_region_self]
    rfl
  obtain ⟨hgone, hfree⟩ := slotRelease_boundary (inp := inp) (gid := gid.val) (q := r)
    (s := (s.noted r 0x17 hdr).modRegion r (fun g => g.modSlot gid (fun x => { x with closing := true }))) hs r.isLt (fun x hx e => by
      rw [hslots] at hx
      obtain ⟨y, -, rfl⟩ := List.mem_map.1 hx
      split at e
      · next h => rw [if_pos h]
      · next h => rw [if_neg h]; simpa [e] using h)
  refine ⟨hgone, fun x hx e hw c hc => ?_⟩
  refine hfree (if x.gid = gid.val ∧ x.closing = false then { x with closing := true } else x) ?_ ?_ ?_ c ?_
  · rw [hslots]
    exact List.mem_map_of_mem hx
  all_goals split <;> assumption

/-- The rings that a command restarts stand at 0 after the next boundary (R294). -/
theorem restarts_boundary (hs : PlainBoundary s) (hr : s.pow.regOpen = true) :
    (∀ mask : BitVec 8, AtBoundary inp s (.restartPair mask) (fun w =>
      ∀ k, k < 16 → mask.getLsbD (k % 8) = true → RingFresh (w.ring k))) ∧
    AtBoundary inp s .restartTel (fun w => RingFresh (w.ring 16)) ∧ AtBoundary inp s .restartEvx (fun w => RingFresh (w.ring 17)) := by
  refine ⟨fun mask => ?_, ?_, ?_⟩
  · exact (asked_boundary hs hr (restartMask_nodup mask.toNat) rfl).imp fun w h k hk hm => h k (mem_restartMask.2 ⟨hk, hm⟩)
  · exact (asked_boundary (ks := [16]) hs hr (List.nodup_singleton _) rfl).imp fun w h => h 16 (List.mem_singleton_self _)
  · exact (asked_boundary (ks := [17]) hs hr (List.nodup_singleton _) rfl).imp fun w h => h 17 (List.mem_singleton_self _)

/-- The shadows that a delivery of region `r` names (R475). -/
def shadowDelivered (r : Nat) (due : Nat) (words : List (Nat × Word)) (x : Shadow) : Bool :=
  inRegionBlock x.offset && (x.offset - 0x100000) / 0x1000 == r && x.due == some due && !x.sent &&
    words.any (fun w => w.1 == x.offset && w.2 == x.word)

theorem deliverShadows_inTime {r due : Nat} {words : List (Nat × Word)} (h : s.period.toNat < due) :
    deliverShadows r due words s = s.modSetup (fun u =>
      { u with shadows := u.shadows.map (fun x => if shadowDelivered r due words x then { x with sent := true } else x) }) := by
  have hlate : decide (due ≤ s.now) = false := decide_eq_false (Nat.not_le.2 h)
  unfold deliverShadows
  dsimp only
  rw [hlate]
  simp only [Bool.false_and, Bool.or_false, Bool.false_eq_true, if_false]
  rfl

theorem deliverShadows_late {r due : Nat} {words : List (Nat × Word)} (h : due ≤ s.period.toNat)
    (ha : s.setup.shadows.any (shadowDelivered r due words) = true) :
    deliverShadows r due words s = (s.modSetup (fun u => { u with
      applyLate := true, shadows := u.shadows.map (fun x =>
        if shadowDelivered r due words x then { x with sent := true, due := some (s.period.toNat + 1) } else x) })).raise 206 1 := by
  have hlate : decide (due ≤ s.now) = true := decide_eq_true h
  have hany : s.setup.shadows.any (fun x => inRegionBlock x.offset && (x.offset - 0x100000) / 0x1000 == r && x.due == some due &&
    !x.sent && words.any (fun w => w.1 == x.offset && w.2 == x.word)) = true := ha
  unfold deliverShadows
  dsimp only
  rw [hlate, hany]
  simp only [Bool.and_true, Bool.or_true, if_true]
  rfl

/-- With the clocks stopped a boundary does nothing (R163). -/
theorem boundary_stopped (hc : s.clk.st = .stopped) : exec (.controlPeriodBoundary inp) s = .next s := by
  have hf : controlPeriod inp s = s := if_pos hc
  refine next_congr ((journaled_of_same ?_ ?_).trans hf)
  · rw [hf]
  · rw [hf]

end

/-- Settles O53: the counts of a boundary and what it carries out, by what the rest of it leaves of one region. -/
theorem boundaryCountsAndShadowsArrive : Obligations.BoundaryCountsAndShadowsArrive := by
  unfold Obligations.BoundaryCountsAndShadowsArrive
  refine ⟨fun s inp hs => ⟨restarts_boundary hs, fun r hdr => ⟨fun i ha => revocation_boundary hs ha,
    fun cap clear ha hr => capMessage_boundary hs ha hr, fun preset hg hr => emergency_boundary hs hg hr,
    fun p ha hp hlt _ _ hl => modelSwitchMessage_boundary hs ha hp hlt hl, fun gid ha => slotReleaseMessage_boundary hs ha,
    fun x hr hc he hp => ⟨commitWord_boundary hs hr hc he hp, releaseWord_boundary hs hr hc he hp⟩⟩⟩,
    fun s => ⟨fun inp hc => ?_, fun inp hc hr => ?_, fun inp hc hr => ⟨_, rfl, boundary_counts hc hr⟩,
    fun r hdr due words ha => ⟨fun h => ?_, fun h hany => ?_⟩⟩⟩
  · exact boundary_stopped hc
  · exact next_journaled_congr ((if_neg hc).trans (if_pos hr))
  · exact next_congr ((govAccept_eq _ _ ha).trans (deliverShadows_inTime h))
  · exact ⟨_, next_congr ((govAccept_eq _ _ ha).trans (deliverShadows_late h hany)), rfl, rfl, rfl, rfl⟩

end Sys2Proof.Machine
end
